-- ==== Sys2Proof/Word.lean ====
section
/-! DEFINITION. The plain types of the model: bytes and words, the type codes of R69, operand codes of R55 to R58,
the trigger and update fields of R51 and R52, the operation formats of R54, R64, R66 and R73, and sparse lists
keyed by Nat in one canonical order. -/

namespace Sys2Proof

abbrev Byte := BitVec 8
abbrev W32 := BitVec 32
abbrev W64 := BitVec 64
abbrev W128 := BitVec 128
/-- A vector word (R17). -/
abbrev VW := BitVec 512

/-- The type codes of R69, code 15 reserved. -/
inductive Ty
  | s32 | n32 | s16 | n16 | s8 | n8 | f32 | b16 | h16 | e4 | e5 | l6 | s64 | b1 | vc
  deriving DecidableEq, Repr

/-- The special sources of R56. -/
inductive Special
  | elid | core | regn | tagr | lane | ix0 | ix1 | ix2 | ix3 | pblo | pbhi | ixh
  deriving DecidableEq, Repr

/-- A source operand (R55). -/
inductive Src
  | s (r : BitVec 4)
  | v (r : BitVec 4)
  | q (k : BitVec 5)
  | imm
  | zero
  | spec (x : Special)
  deriving DecidableEq, Repr

/-- A destination (R58). -/
inductive Dst
  | s (r : BitVec 4)
  | v (r : BitVec 4)
  | none
  deriving DecidableEq, Repr

/-- The trigger and update fields of a transition word (R51, R52). -/
structure TU where
  pri : BitVec 3
  epa : BitVec 4
  eae : Bool
  epb : BitVec 4
  ebe : Bool
  ipi : BitVec 4
  iie : Bool
  qa  : BitVec 5
  qae : Bool
  qb  : BitVec 5
  qbe : Bool
  tgt : Bool
  ca  : Bool
  cb  : Bool
  dqa : Bool
  dqb : Bool
  op1 : BitVec 4
  o1e : Bool
  op2 : BitVec 4
  o2e : Bool
  cho : BitVec 2
  ol  : BitVec 7
  ole : Bool
  otg : BitVec 3
  ols : Bool
  deriving DecidableEq, Repr

/-- Format A (R54) without its opcode. -/
structure FmtA where
  ty  : Ty
  d   : Dst
  a   : Src
  b   : Src
  c   : Src
  mod : BitVec 4
  imm : BitVec 21
  deriving DecidableEq, Repr

/-- Format M (R64) without its opcode. -/
structure FmtM where
  ty  : Ty
  d   : Dst
  a   : Src
  b   : Src
  chn : BitVec 3
  scp : BitVec 3
  ord : BitVec 2
  mod : BitVec 4
  off : BitVec 20
  deriving DecidableEq, Repr

/-- Format E (R66) without its opcode. -/
structure FmtE where
  ty  : Ty
  d   : Dst
  a   : Src
  b   : Src
  c   : Src
  eq  : BitVec 3
  ntf : BitVec 3
  scp : BitVec 3
  imm : BitVec 16
  deriving DecidableEq, Repr

/-- A register-form pair half of two sources (R73). -/
structure HalfR where
  ty : Ty
  d  : BitVec 5
  a  : BitVec 6
  b  : BitVec 6
  deriving DecidableEq, Repr

/-- A register-form pair half of one source (R73, R75). -/
structure HalfU where
  ty : Ty
  d  : BitVec 5
  a  : BitVec 6
  deriving DecidableEq, Repr

/-- An immediate-form pair half (R73). -/
structure HalfI where
  ty : Ty
  d  : BitVec 5
  a  : BitVec 6
  i  : BitVec 5
  deriving DecidableEq, Repr

/-- A CMP or STEER pair half; c is the condition (R75). -/
structure HalfC where
  ty : Ty
  d  : BitVec 5
  a  : BitVec 6
  b  : BitVec 6
  c  : BitVec 4
  deriving DecidableEq, Repr

/-! ### Sparse maps: lists of key and value pairs, keys strictly rising -/

namespace SMap

/-- The value at a key, or the default. -/
def get {α : Type} (d : α) (k : Nat) : List (Nat × α) → α
  | [] => d
  | (k', x) :: m => if k = k' then x else if k < k' then d else get d k m

/-- The value at a key, if one is listed. -/
def find {α : Type} (k : Nat) : List (Nat × α) → Option α
  | [] => none
  | (k', x) :: m => if k = k' then some x else if k < k' then none else find k m

/-- Sets the value at a key, keeping the order. -/
def set {α : Type} (k : Nat) (x : α) : List (Nat × α) → List (Nat × α)
  | [] => [(k, x)]
  | (k', y) :: m =>
    if k = k' then (k, x) :: m else if k < k' then (k, x) :: (k', y) :: m else (k', y) :: set k x m

/-- Sets the value at n keys in a row. -/
def setRun {α : Type} (k n : Nat) (x : α) (m : List (Nat × α)) : List (Nat × α) :=
  m.filter (fun p => p.1 < k) ++ (((List.range n).map fun i => (k + i, x)) ++ m.filter fun p => k + n ≤ p.1)

/-- Removes a key. -/
def erase {α : Type} (k : Nat) : List (Nat × α) → List (Nat × α)
  | [] => []
  | (k', y) :: m => if k = k' then m else if k < k' then (k', y) :: m else (k', y) :: erase k m

end SMap

/-- The entry of a vector at an index, or the default outside it. -/
def vget {α : Type} {n : Nat} (v : Vector α n) (i : Nat) (d : α) : α :=
  if h : i < n then v[i] else d

/-- Sets the entry of a vector at an index; outside it nothing changes. -/
def vset {α : Type} {n : Nat} (v : Vector α n) (i : Nat) (x : α) : Vector α n :=
  v.setIfInBounds i x

end Sys2Proof
end

