-- ==== Sys2Proof/Config.lean ====
section
/-! DEFINITION. What an implementation fixes and the spec leaves open: free values, constants without a body that no proof can see. -/

namespace Sys2Proof.Config

/-- Which of the two neighbours a faithful function gives under RNE, by opcode, type code and operand pattern: the
upper in magnitude when true (R167; free value, log 9). -/
opaque faithfulUp : Nat → Nat → Nat → Bool

/-- SHA3-512 of bytes (R113 names it and does not define it; free value, log 10). -/
opaque sha3 : List Byte → BitVec 512

/-- The ML-DSA-87 check of a signature over 64 hash bytes under a key identifier (R113; free value, log 10). -/
opaque signatureOk : List Byte → List Byte → BitVec 512 → Bool

/-- The ML-DSA-87 signature the Gykin controller makes over bytes (R398; free value, log 10). -/
opaque sign : List Byte → List Byte

/-- The keys of privileged images that the Gykin controller measures (R113, R398; free value, log 10). -/
opaque imageKeys : List (List Byte)

/-- A byte the spec leaves open, one for each number (free value, log 9). -/
opaque freeByte : Nat → Byte

/-- A byte of a 64-byte record of a save area's engine area, by what the record is (0 a command, 1 a pseudo-channel, 2 a rectangle), its
fields and its offset (R358; free value, log 26). -/
opaque recordByte : Nat → List Nat → Nat → Byte

/-- A word the spec leaves open, one for each number (free value, log 9). -/
opaque freeWord : Nat → W64

/-- What a byte of a 128-byte line of HBM reads as under another key than it was written under: the key's tag it was written under and that
it is read under, 0 for plaintext, its device address, and the line as written (R187, R196; free value, log 48). -/
opaque recode : Nat → Nat → Nat → BitVec 1024 → Byte

/-- The fixed hash that chooses the home slice of a line, and its set in the slice (R186; free values, log 14). -/
opaque homeHash : Nat → Nat
opaque setHash : Nat → Nat

/-- The present power and die temperatures, by cycle and offset of PWR (R399; free value, log 9). -/
opaque telemetry : Nat → Nat → Byte

/-- The module's own number, of which the spec gives no register (R396; free value, log 122). -/
opaque moduleNumber : BitVec 14

/-- The PASID that the driver of a VF uses when its partition starts, if any; the host sets its table, and the spec gives the device no register of it
(R188, R393; free value, log 28). -/
opaque driverPasid : Nat → Option Nat

/-- Whether a trusted host is declared for a function, which the spec gives no way to say (R394; free value, log 9). -/
opaque trustedHost : Nat → Bool

end Sys2Proof.Config
end

