-- ==== Sys2Proof/Syntax.lean ====
section
/-! DEFINITION. The instructions: one constructor per row of the opcode table. The first 125 carry the trigger and
update fields (R51, R52) and the operation fields of their format; the pair halves carry the fields of R73; the rest are
the steps of the part that no element's word encodes, with the numbers that say which agent takes the step. -/

namespace Sys2Proof

/-- What a peer asks of the memory of the module, at a device address (R397): to write bytes, to read n of them, or an update by ATOM or RED
of an operation and a type, or a CAS. -/
inductive PeerOp
  | write (a : Nat)
  | read (a n : Nat)
  | atom (op : Nat) (ty : Ty) (a : Nat)
  | cas (ty : Ty) (a : Nat)
  deriving DecidableEq, Repr

/-- What the engine of another rank sends of a COLL (R432): its group, the number of the command in it, KIND, ROP, type and n, and the
bytes of its source. -/
structure PeerColl where
  gid   : Nat
  num   : Nat
  kind  : Nat
  rop   : Nat
  ty    : Ty
  n     : Nat
  bytes : List Byte
  deriving DecidableEq, Repr

/-- One constructor per row of the opcode table (R76, R74 and the events of the part). -/
inductive Instr
  | nop (t : TU) (o : FmtA)
  | emit (t : TU) (o : FmtA)
  | steer (t : TU) (o : FmtA)
  | merge (t : TU) (o : FmtA)
  | repl (t : TU) (o : FmtA)
  | mark (t : TU) (o : FmtA)
  | sink (t : TU) (o : FmtA)
  | doneOp (t : TU) (o : FmtA)
  | erls (t : TU) (o : FmtA)
  | pset (t : TU) (o : FmtA)
  | padd (t : TU) (o : FmtA)
  | prd (t : TU) (o : FmtA)
  | tag (t : TU) (o : FmtA)
  | rpull (t : TU) (o : FmtE)
  | lnch (t : TU) (o : FmtE)
  | trap (t : TU) (o : FmtE)
  | mov (t : TU) (o : FmtA)
  | movi (t : TU) (o : FmtA)
  | movh (t : TU) (o : FmtA)
  | sel (t : TU) (o : FmtA)
  | cmp (t : TU) (o : FmtA)
  | add (t : TU) (o : FmtA)
  | adds (t : TU) (o : FmtA)
  | sub (t : TU) (o : FmtA)
  | subs (t : TU) (o : FmtA)
  | mul (t : TU) (o : FmtA)
  | mulh (t : TU) (o : FmtA)
  | fma (t : TU) (o : FmtA)
  | div (t : TU) (o : FmtA)
  | min (t : TU) (o : FmtA)
  | max (t : TU) (o : FmtA)
  | clamp (t : TU) (o : FmtA)
  | abs (t : TU) (o : FmtA)
  | neg (t : TU) (o : FmtA)
  | andOp (t : TU) (o : FmtA)
  | andn (t : TU) (o : FmtA)
  | orOp (t : TU) (o : FmtA)
  | xor (t : TU) (o : FmtA)
  | shl (t : TU) (o : FmtA)
  | shr (t : TU) (o : FmtA)
  | sar (t : TU) (o : FmtA)
  | rot (t : TU) (o : FmtA)
  | clz (t : TU) (o : FmtA)
  | popc (t : TU) (o : FmtA)
  | cvt (t : TU) (o : FmtA)
  | qnt (t : TU) (o : FmtA)
  | rcp (t : TU) (o : FmtA)
  | rsq (t : TU) (o : FmtA)
  | sqrt (t : TU) (o : FmtA)
  | exp2 (t : TU) (o : FmtA)
  | log2 (t : TU) (o : FmtA)
  | vbcast (t : TU) (o : FmtA)
  | vperm (t : TU) (o : FmtA)
  | vzip (t : TU) (o : FmtA)
  | vuzp (t : TU) (o : FmtA)
  | vtrn (t : TU) (o : FmtA)
  | vpack (t : TU) (o : FmtA)
  | vunpk (t : TU) (o : FmtA)
  | vcmpr (t : TU) (o : FmtA)
  | vxpd (t : TU) (o : FmtA)
  | vred (t : TU) (o : FmtA)
  | vscan (t : TU) (o : FmtA)
  | bld (t : TU) (o : FmtM)
  | bst (t : TU) (o : FmtM)
  | bldx (t : TU) (o : FmtM)
  | bstx (t : TU) (o : FmtM)
  | brmw (t : TU) (o : FmtM)
  | bcas (t : TU) (o : FmtM)
  | ld (t : TU) (o : FmtM)
  | st (t : TU) (o : FmtM)
  | ldo (t : TU) (o : FmtM)
  | ldw (t : TU) (o : FmtM)
  | stw (t : TU) (o : FmtM)
  | atom (t : TU) (o : FmtM)
  | red (t : TU) (o : FmtM)
  | cas (t : TU) (o : FmtM)
  | fence (t : TU) (o : FmtM)
  | pref (t : TU) (o : FmtM)
  | inv (t : TU) (o : FmtM)
  | sopen (t : TU) (o : FmtE)
  | sparm (t : TU) (o : FmtE)
  | sclose (t : TU) (o : FmtE)
  | srec (t : TU) (o : FmtE)
  | rfen (t : TU) (o : FmtE)
  | gath (t : TU) (o : FmtE)
  | scat (t : TU) (o : FmtE)
  | cpy (t : TU) (o : FmtE)
  | fill (t : TU) (o : FmtE)
  | qfen (t : TU) (o : FmtE)
  | rcopy (t : TU) (o : FmtE)
  | rzero (t : TU) (o : FmtE)
  | stash (t : TU) (o : FmtE)
  | unstash (t : TU) (o : FmtE)
  | coll (t : TU) (o : FmtE)
  | pimabEnter (t : TU) (o : FmtE)
  | pimabLeave (t : TU) (o : FmtE)
  | pimld (t : TU) (o : FmtE)
  | pimmac (t : TU) (o : FmtE)
  | pimrd (t : TU) (o : FmtE)
  | mxmodeEnter (t : TU) (o : FmtE)
  | mxmodeEnterSplit (t : TU) (o : FmtE)
  | mxmodeLeave (t : TU) (o : FmtE)
  | mxwld (t : TU) (o : FmtE)
  | mxc (t : TU) (o : FmtE)
  | mxacc (t : TU) (o : FmtE)
  | ipatch (t : TU) (o : FmtE)
  | icfg (t : TU) (o : FmtE)
  | iset (t : TU) (o : FmtE)
  | iget (t : TU) (o : FmtE)
  | istep (t : TU) (o : FmtE)
  | isave (t : TU) (o : FmtE)
  | irest (t : TU) (o : FmtE)
  | ifeed (t : TU) (o : FmtE)
  | isamp (t : TU) (o : FmtE)
  | bari (t : TU) (o : FmtE)
  | bara (t : TU) (o : FmtE)
  | barw (t : TU) (o : FmtE)
  | bart (t : TU) (o : FmtE)
  | barq (t : TU) (o : FmtE)
  | waita (t : TU) (o : FmtE)
  | note (t : TU) (o : FmtE)
  | rdsr (t : TU) (o : FmtE)
  | wrsr (t : TU) (o : FmtE)
  | time (t : TU) (o : FmtE)
  | cfgw (t : TU) (o : FmtE)
  | frz (t : TU) (o : FmtE)
  | pairMov (h : HalfU)
  | pairMovImm (h : HalfI)
  | pairAdd (h : HalfR)
  | pairAddImm (h : HalfI)
  | pairAdds (h : HalfR)
  | pairAddsImm (h : HalfI)
  | pairSub (h : HalfR)
  | pairSubImm (h : HalfI)
  | pairSubs (h : HalfR)
  | pairSubsImm (h : HalfI)
  | pairMul (h : HalfR)
  | pairMulImm (h : HalfI)
  | pairMulh (h : HalfR)
  | pairMulhImm (h : HalfI)
  | pairMin (h : HalfR)
  | pairMinImm (h : HalfI)
  | pairMax (h : HalfR)
  | pairMaxImm (h : HalfI)
  | pairAbs (h : HalfU)
  | pairNeg (h : HalfU)
  | pairAnd (h : HalfR)
  | pairAndImm (h : HalfI)
  | pairAndn (h : HalfR)
  | pairAndnImm (h : HalfI)
  | pairOr (h : HalfR)
  | pairOrImm (h : HalfI)
  | pairXor (h : HalfR)
  | pairXorImm (h : HalfI)
  | pairShl (h : HalfR)
  | pairShlImm (h : HalfI)
  | pairShr (h : HalfR)
  | pairShrImm (h : HalfI)
  | pairSar (h : HalfR)
  | pairSarImm (h : HalfI)
  | pairRot (h : HalfR)
  | pairRotImm (h : HalfI)
  | pairClz (h : HalfU)
  | pairClzImm (h : HalfI)
  | pairPopc (h : HalfU)
  | pairPopcImm (h : HalfI)
  | pairCmp (h : HalfC)
  | pairSteer (h : HalfC)
  | pairVbcast (h : HalfR)
  | pairVbcastImm (h : HalfI)
  /-- FIRING_COMPLETION (R31). -/
  | firingCompletion (e k : Nat)
  /-- OUTPUT_BUFFER_ENTRY (R34). -/
  | outputBufferEntry (e k : Nat)
  /-- TOKEN_INJECTION (R126). -/
  | tokenInjection (e : Nat) (ctl : Bool)
  /-- TOKEN_ARRIVAL (R129). -/
  | tokenArrival (n : Nat)
  /-- CFG_TOKEN_APPLY (R132). -/
  | cfgTokenApply (e q : Nat)
  /-- FAULT_RETRY (R371). -/
  | faultRetry (n : Nat)
  /-- PGRSP_WRITE (R198). -/
  | pgrspWrite (p : Nat) (v : W64)
  /-- CUT_RELEASE (R376). -/
  | cutRelease (r : Nat)
  /-- PAGE_RESPONSE (R375). -/
  | pageResponse (tag fn : Nat) (g ok : Bool)
  /-- FUNCTION_LEVEL_RESET (R375). -/
  | functionLevelReset (f : Nat)
  /-- RETIRED_TAG_TIMEOUT (R375). -/
  | retiredTagTimeout (tag : Nat)
  /-- SIDED_TOKEN_REENTRY (R218). -/
  | sidedTokenReentry (n : Nat) (ok : Bool)
  /-- SPARSE_UPDATE (R217). -/
  | sparseUpdate (n : Nat) (repair : Bool)
  /-- WATCH_MARK (R224). -/
  | watchMark (e w : Nat)
  /-- BARRIER_PHASE_FLIP (R229). -/
  | barrierPhaseFlip (c b : Nat)
  /-- ENGINE_QUEUE_ENTRY (R234). -/
  | engineQueueEntry (e k : Nat)
  /-- COPY_CHUNK (R238). -/
  | copyChunk (g q : Nat)
  /-- ROW_TRANSFER (R245). -/
  | rowTransfer (g q : Nat)
  /-- BANK_MAC_PERFORM (R253). -/
  | bankMacPerform (g q : Nat)
  /-- GATH_ROW (R266). -/
  | gathRow (g q : Nat)
  /-- SCAT_ROW (R267). -/
  | scatRow (g q : Nat)
  /-- STASH_CHUNK (R317). -/
  | stashChunk (g q : Nat)
  /-- UNSTASH_CHUNK (R318). -/
  | unstashChunk (g q : Nat)
  /-- COLL_MATCH (R432). -/
  | collMatch (g q : Nat) (peers : List PeerColl)
  /-- PORT_TOKEN_READ (R96). -/
  | portTokenRead (c k : Nat)
  /-- PORT_TOKEN_WRITE (R96). -/
  | portTokenWrite (c k : Nat)
  /-- PAGE_EVICTION (R200). -/
  | pageEviction (p va : Nat)
  /-- PAGE_MIGRATION (R201). -/
  | pageMigration (p va : Nat)
  /-- MIGRATION_WINDOW_END (R201). -/
  | migrationWindowEnd (p va : Nat)
  /-- DOMAIN_STEP (R289). -/
  | domainStep (c d : Nat)
  /-- BUDGET_EXHAUSTED (R292). -/
  | budgetExhausted (c d : Nat)
  /-- EVENT_PLACE_MARK (R292). -/
  | eventPlaceMark (c d : Nat)
  /-- INTEGRATOR_COMMAND_PERFORM (R299). -/
  | integratorCommandPerform (e k : Nat)
  /-- MMA (R278). -/
  | mma (r n : Nat)
  /-- SWAPW (R277). -/
  | swapw (r n : Nat)
  /-- FLUSH (R277). -/
  | flush (r n : Nat)
  /-- FLUSH_MARK (R277). -/
  | flushMark (r n : Nat)
  /-- DISPATCH (R339). -/
  | dispatch (p x y : Nat)
  /-- REGION_RELEASE (R118). -/
  | regionRelease (r : Nat)
  /-- UNIT_START (R332). -/
  | unitStart (r : Nat)
  /-- LAUNCH_COMPLETION (R342). -/
  | launchCompletion (r : Nat)
  /-- SUCCESSOR_APPEND (R344). -/
  | successorAppend (p : Nat)
  /-- QUANTUM_EXPIRY (R346). -/
  | quantumExpiry (r : Nat)
  /-- FREEZE (R352). -/
  | freeze (r : Nat)
  /-- SAVE_READOUT (R354). -/
  | saveReadout (r : Nat)
  /-- RESTORE (R359). -/
  | restore (r x y : Nat)
  /-- DRAIN (R361). -/
  | drain (r : Nat)
  /-- TAIL_LAMP_PASS (R361). -/
  | tailLampPass (e : Nat)
  /-- DRAIN_COMPLETION (R361). -/
  | drainCompletion (r : Nat)
  /-- SECTION_SHADOW (R364). -/
  | sectionShadow (e : Nat)
  /-- STALE_SECT_DISCARD (R363). -/
  | staleSectDiscard (e q : Nat)
  /-- CUT_COMPLETION (R368). -/
  | cutCompletion (r : Nat)
  /-- FORCED_CUT (R365). -/
  | forcedCut (r : Nat)
  /-- MARKER_CUT_TIMEOUT (R365). -/
  | markerCutTimeout (r : Nat)
  /-- SECTION_TOKEN_COUNT (R365). -/
  | sectionTokenCount (r : Nat)
  /-- VIO_RELEASE (R382). -/
  | vioRelease (v : W32)
  /-- QUEUE_TAIL_WRITE (R327). -/
  | queueTailWrite (p q : Nat) (v : W32)
  /-- QCTL_WRITE (R326). -/
  | qctlWrite (p q : Nat) (v : W32)
  /-- CANCEL (R348). -/
  | cancel (p : Nat) (v : W32)
  /-- FQH_WRITE (R374). -/
  | fqhWrite (p : Nat) (v : W32)
  /-- FQB_WRITE (R374). -/
  | fqbWrite (p : Nat) (v : W64)
  /-- FQSZ_WRITE (R354). -/
  | fqszWrite (p : Nat) (v : W32)
  /-- FLTS_CLEAR (R546). -/
  | fltsClear (p : Nat) (v : W32)
  /-- IVGO_WRITE (R195). -/
  | ivgoWrite (p : Nat) (v : W32)
  /-- INVALIDATION_COMPLETION (R195). -/
  | invalidationCompletion (p : Nat)
  /-- NOTICE (R385). -/
  | notice (p : Nat) (m : W128)
  /-- ACKNOWLEDGE (R385). -/
  | acknowledge (p : Nat) (m : W128)
  /-- REFUSE (R385). -/
  | refuse (p : Nat) (m : W128)
  /-- GRANT (R385). -/
  | grant (p : Nat) (m : W128)
  /-- HOT_ADD (R385). -/
  | hotAdd (p : Nat) (m : W128)
  /-- HOT_REMOVE (R385). -/
  | hotRemove (b : Nat)
  /-- SCRUB (R385). -/
  | scrub (b : Nat)
  /-- SCRUB_COMPLETION (R385). -/
  | scrubCompletion (b : Nat)
  /-- OFFER (R385). -/
  | offer (b p : Nat)
  /-- ASSIGN_TO_MODULE (R384). -/
  | assignToModule (b : Nat)
  /-- PARTITION_ENABLE (R379). -/
  | partitionEnable (p : Nat)
  /-- PARTITION_DISABLE (R390). -/
  | partitionDisable (p : Nat)
  /-- PAUSE_SET (R392). -/
  | pauseSet (p : Nat)
  /-- PAUSE_CLEAR (R392). -/
  | pauseClear (p : Nat)
  /-- MAINT_WRITE (R388). -/
  | maintWrite (p : Nat) (m : Bool)
  /-- PCOR_WRITE (R381). -/
  | pcorWrite (p : Nat) (v : BitVec 256)
  /-- TNOW_WRITE (R391). -/
  | tnowWrite (p : Nat) (v : W64)
  /-- WRT_WRITE (R396). -/
  | wrtWrite (m : Nat) (v : BitVec 4)
  /-- REGISTER_WRITE (R325). -/
  | registerWrite (f off : Nat) (v : W64)
  /-- HOST_BAR2_READ (R394). -/
  | hostBar2Read (f off n : Nat)
  /-- HOST_BAR2_WRITE (R394). -/
  | hostBar2Write (f off : Nat) (bs : List Byte)
  /-- TDISP_ERROR (R394). -/
  | tdispError (f : Nat)
  /-- PEER_ACCESS (R397). -/
  | peerAccess (a : PeerOp) (bs : List Byte)
  /-- WINDOW_GRANT (R395). -/
  | windowGrant (m n : Nat)
  /-- LNK (R395). -/
  | lnk (e k : Nat)
  /-- UNCORRECTABLE_ERROR (R372). -/
  | uncorrectableError (e k : Nat) (dram : Bool)
  /-- MODULE_RESET (R398). -/
  | moduleReset
  /-- ATS_TRANSLATION_RESPONSE (R194). -/
  | atsTranslationResponse (c va : Nat) (leaf : W64)
  /-- ATS_INVALIDATION (R393). -/
  | atsInvalidation (f va n : Nat)
  /-- TDISP_STATE_CHANGE (R393). -/
  | tdispStateChange (f t : Nat)
  /-- KEY_GENERATION (R389). -/
  | keyGeneration (k : Nat)
  /-- ATTESTATION_REPORT (R398). -/
  | attestationReport (nonce : List Byte)
  /-- RECOVERY_IMAGE (R398). -/
  | recoveryImage (img sig key : List Byte)
  deriving DecidableEq, Repr

end Sys2Proof
end

