-- ==== Sys2Proof/Decode.lean ====
section
/-! DEFINITION. Decoding (R50 to R76) and encoding. A transition word is 16 bytes, little-endian (R50). The decoder is total:
every pattern gives an instruction or a named refusal. The encoder is written from the same tables. -/

namespace Sys2Proof

/-- Why a word decodes to no instruction (R78). -/
inductive DecodeError
  /-- V is 0, so the word holds no transition (R23). -/
  | notValid
  /-- V is 0 and some other bit is not zero (R23). -/
  | strayBits
  /-- U[67:65] is not zero (R26). -/
  | reservedField
  /-- The opcode is not in the map, or the form of PIMAB or MXMODE is none of theirs (R76, R254, R472). -/
  | reservedOpcode
  /-- Type code 15 (R69). -/
  | reservedType
  /-- A source code of R55 that names nothing. -/
  | reservedSource
  /-- A destination code of R58 that names nothing. -/
  | reservedDestination
  /-- A pair operation that is reserved or has no such form (R74, R75). -/
  | reservedPairOp
  /-- A field of a pair half that its form leaves unused is not at its idle value (R75). -/
  | halfForm
  /-- The bytes are not 16. -/
  | length
  deriving DecidableEq, Repr

/-- What a valid transition word holds: one operation, or a pair (R40). -/
inductive Decoded
  | single (i : Instr)
  | pair (t : TU) (sc vh : Instr)
  deriving DecidableEq, Repr

/-- How an instruction is encoded. -/
inductive Layout
  | a (op : BitVec 8) (t : TU) (o : FmtA)
  | m (op : BitVec 8) (t : TU) (o : FmtM)
  | e (op : BitVec 8) (t : TU) (o : FmtE)
  | half (sop : BitVec 6) (ty : Ty) (d : BitVec 5) (a b : BitVec 6) (i : BitVec 5)
  | none
  deriving DecidableEq, Repr

/-! ### Codes of fields -/

/-- The type of a code (R69); 15 is reserved. -/
def tyOfCode (c : BitVec 4) : Option Ty :=
  match c.toNat with
  | 0 => some .s32 | 1 => some .n32 | 2 => some .s16 | 3 => some .n16 | 4 => some .s8 | 5 => some .n8
  | 6 => some .f32 | 7 => some .b16 | 8 => some .h16 | 9 => some .e4 | 10 => some .e5 | 11 => some .l6
  | 12 => some .s64 | 13 => some .b1 | 14 => some .vc | _ => none

/-- The code of a type (R69). -/
def codeOfTy : Ty → BitVec 4
  | .s32 => 0 | .n32 => 1 | .s16 => 2 | .n16 => 3 | .s8 => 4 | .n8 => 5 | .f32 => 6 | .b16 => 7 | .h16 => 8
  | .e4 => 9 | .e5 => 10 | .l6 => 11 | .s64 => 12 | .b1 => 13 | .vc => 14

/-- The special source of a code from 0x42 (R56). -/
def specialOfCode (n : Nat) : Option Special :=
  match n with
  | 0x42 => some .elid | 0x43 => some .core | 0x44 => some .regn | 0x45 => some .tagr | 0x46 => some .lane
  | 0x47 => some .ix0 | 0x48 => some .ix1 | 0x49 => some .ix2 | 0x4A => some .ix3 | 0x4B => some .pblo
  | 0x4C => some .pbhi | 0x4D => some .ixh | _ => none

/-- The code of a special source (R56). -/
def codeOfSpecial : Special → BitVec 7
  | .elid => 0x42 | .core => 0x43 | .regn => 0x44 | .tagr => 0x45 | .lane => 0x46 | .ix0 => 0x47 | .ix1 => 0x48
  | .ix2 => 0x49 | .ix3 => 0x4A | .pblo => 0x4B | .pbhi => 0x4C | .ixh => 0x4D

/-- The source of a code (R55). -/
def srcOfCode (c : BitVec 7) : Option Src :=
  if c.toNat < 0x10 then some (.s (c.setWidth 4))
  else if c.toNat < 0x20 then some (.v (c.setWidth 4))
  else if c.toNat < 0x40 then some (.q (c.setWidth 5))
  else if c.toNat = 0x40 then some .imm
  else if c.toNat = 0x41 then some .zero
  else (specialOfCode c.toNat).map .spec

/-- The code of a source (R55). -/
def codeOfSrc : Src → BitVec 7
  | .s r => 0b000#3 ++ r
  | .v r => 0b001#3 ++ r
  | .q k => 0b01#2 ++ k
  | .imm => 0x40
  | .zero => 0x41
  | .spec x => codeOfSpecial x

/-- The destination of a code (R58). -/
def dstOfCode (c : BitVec 6) : Option Dst :=
  if c.toNat < 0x10 then some (.s (c.setWidth 4))
  else if c.toNat < 0x20 then some (.v (c.setWidth 4))
  else if c.toNat = 0x20 then some .none
  else none

/-- The code of a destination (R58). -/
def codeOfDst : Dst → BitVec 6
  | .s r => 0b00#2 ++ r
  | .v r => 0b01#2 ++ r
  | .none => 0x20

/-! ### The trigger and the update (R51, R52) -/

/-- One bit of a word. -/
def bitAt {n : Nat} (w : BitVec n) (i : Nat) : Bool := w.getLsbD i

/-- The trigger and update fields of T and U. -/
def decodeTU (tw uw : W32) : TU :=
  { pri := tw.extractLsb' 28 3, epa := tw.extractLsb' 24 4, eae := bitAt tw 23, epb := tw.extractLsb' 19 4,
    ebe := bitAt tw 18, ipi := tw.extractLsb' 14 4, iie := bitAt tw 13, qa := tw.extractLsb' 8 5, qae := bitAt tw 7,
    qb := tw.extractLsb' 2 5, qbe := bitAt tw 1, tgt := bitAt tw 0,
    ca := bitAt uw 31, cb := bitAt uw 30, dqa := bitAt uw 29, dqb := bitAt uw 28, op1 := uw.extractLsb' 24 4,
    o1e := bitAt uw 23, op2 := uw.extractLsb' 19 4, o2e := bitAt uw 18, cho := uw.extractLsb' 16 2,
    ol := uw.extractLsb' 9 7, ole := bitAt uw 8, otg := uw.extractLsb' 5 3, ols := bitAt uw 4 }

/-- One bit as a vector. -/
def bit1 (b : Bool) : BitVec 1 := BitVec.ofBool b

/-- T with V set (R51). -/
def encodeT (t : TU) : W32 :=
  1#1 ++ t.pri ++ t.epa ++ bit1 t.eae ++ t.epb ++ bit1 t.ebe ++ t.ipi ++ bit1 t.iie ++ t.qa ++ bit1 t.qae ++ t.qb ++
    bit1 t.qbe ++ bit1 t.tgt

/-- U with the given PAIR bit (R52). -/
def encodeU (t : TU) (pair : Bool) : W32 :=
  bit1 t.ca ++ bit1 t.cb ++ bit1 t.dqa ++ bit1 t.dqb ++ t.op1 ++ bit1 t.o1e ++ t.op2 ++ bit1 t.o2e ++ t.cho ++ t.ol ++
    bit1 t.ole ++ t.otg ++ bit1 t.ols ++ 0#3 ++ bit1 pair

/-! ### The operation formats -/

/-- The instruction of an opcode of format A (R76). -/
def ofOpA (op : Nat) (t : TU) (o : FmtA) : Option Instr :=
  match op with
  | 0x00 => some (.nop t o)
  | 0x01 => some (.emit t o)
  | 0x02 => some (.steer t o)
  | 0x03 => some (.merge t o)
  | 0x04 => some (.repl t o)
  | 0x05 => some (.mark t o)
  | 0x06 => some (.sink t o)
  | 0x07 => some (.doneOp t o)
  | 0x08 => some (.erls t o)
  | 0x09 => some (.pset t o)
  | 0x0a => some (.padd t o)
  | 0x0b => some (.prd t o)
  | 0x0c => some (.tag t o)
  | 0x10 => some (.mov t o)
  | 0x11 => some (.movi t o)
  | 0x12 => some (.movh t o)
  | 0x13 => some (.sel t o)
  | 0x14 => some (.cmp t o)
  | 0x15 => some (.add t o)
  | 0x16 => some (.adds t o)
  | 0x17 => some (.sub t o)
  | 0x18 => some (.subs t o)
  | 0x19 => some (.mul t o)
  | 0x1a => some (.mulh t o)
  | 0x1b => some (.fma t o)
  | 0x1c => some (.div t o)
  | 0x1d => some (.min t o)
  | 0x1e => some (.max t o)
  | 0x1f => some (.clamp t o)
  | 0x20 => some (.abs t o)
  | 0x21 => some (.neg t o)
  | 0x22 => some (.andOp t o)
  | 0x23 => some (.andn t o)
  | 0x24 => some (.orOp t o)
  | 0x25 => some (.xor t o)
  | 0x26 => some (.shl t o)
  | 0x27 => some (.shr t o)
  | 0x28 => some (.sar t o)
  | 0x29 => some (.rot t o)
  | 0x2a => some (.clz t o)
  | 0x2b => some (.popc t o)
  | 0x2c => some (.cvt t o)
  | 0x2d => some (.qnt t o)
  | 0x2e => some (.rcp t o)
  | 0x2f => some (.rsq t o)
  | 0x30 => some (.sqrt t o)
  | 0x31 => some (.exp2 t o)
  | 0x32 => some (.log2 t o)
  | 0x33 => some (.vbcast t o)
  | 0x34 => some (.vperm t o)
  | 0x35 => some (.vzip t o)
  | 0x36 => some (.vuzp t o)
  | 0x37 => some (.vtrn t o)
  | 0x38 => some (.vpack t o)
  | 0x39 => some (.vunpk t o)
  | 0x3a => some (.vcmpr t o)
  | 0x3b => some (.vxpd t o)
  | 0x3c => some (.vred t o)
  | 0x3d => some (.vscan t o)
  | _ => none

/-- The instruction of an opcode of format M (R76). -/
def ofOpM (op : Nat) (t : TU) (o : FmtM) : Option Instr :=
  match op with
  | 0x40 => some (.bld t o)
  | 0x41 => some (.bst t o)
  | 0x42 => some (.bldx t o)
  | 0x43 => some (.bstx t o)
  | 0x44 => some (.brmw t o)
  | 0x45 => some (.bcas t o)
  | 0x48 => some (.ld t o)
  | 0x49 => some (.st t o)
  | 0x4a => some (.ldo t o)
  | 0x4b => some (.ldw t o)
  | 0x4c => some (.stw t o)
  | 0x4d => some (.atom t o)
  | 0x4e => some (.red t o)
  | 0x4f => some (.cas t o)
  | 0x50 => some (.fence t o)
  | 0x51 => some (.pref t o)
  | 0x52 => some (.inv t o)
  | _ => none

/-- The instruction of an opcode of format E (R76). -/
def ofOpE (op : Nat) (t : TU) (o : FmtE) : Option Instr :=
  match op with
  | 0x0d => some (.rpull t o)
  | 0x0e => some (.lnch t o)
  | 0x0f => some (.trap t o)
  | 0x58 => some (.sopen t o)
  | 0x59 => some (.sparm t o)
  | 0x5a => some (.sclose t o)
  | 0x5b => some (.srec t o)
  | 0x5c => some (.rfen t o)
  | 0x5d => some (.gath t o)
  | 0x5e => some (.scat t o)
  | 0x60 => some (.cpy t o)
  | 0x61 => some (.fill t o)
  | 0x62 => some (.qfen t o)
  | 0x63 => some (.rcopy t o)
  | 0x64 => some (.rzero t o)
  | 0x65 => some (.stash t o)
  | 0x66 => some (.unstash t o)
  | 0x67 => some (.coll t o)
  | 0x68 => if o.imm = 1 then some (.pimabEnter t o) else if o.imm = 0 then some (.pimabLeave t o) else none
  | 0x69 => some (.pimld t o)
  | 0x6a => some (.pimmac t o)
  | 0x6b => some (.pimrd t o)
  | 0x70 =>
    if o.imm = 0x0001 then some (.mxmodeEnter t o)
    else if o.imm = 0x8001 then some (.mxmodeEnterSplit t o)
    else if o.imm = 0x0000 then some (.mxmodeLeave t o) else none
  | 0x71 => some (.mxwld t o)
  | 0x72 => some (.mxc t o)
  | 0x73 => some (.mxacc t o)
  | 0x78 => some (.ipatch t o)
  | 0x79 => some (.icfg t o)
  | 0x7a => some (.iset t o)
  | 0x7b => some (.iget t o)
  | 0x7c => some (.istep t o)
  | 0x7d => some (.isave t o)
  | 0x7e => some (.irest t o)
  | 0x7f => some (.ifeed t o)
  | 0x80 => some (.isamp t o)
  | 0x88 => some (.bari t o)
  | 0x89 => some (.bara t o)
  | 0x8a => some (.barw t o)
  | 0x8b => some (.bart t o)
  | 0x8c => some (.barq t o)
  | 0x8d => some (.waita t o)
  | 0x8e => some (.note t o)
  | 0x90 => some (.rdsr t o)
  | 0x91 => some (.wrsr t o)
  | 0x92 => some (.time t o)
  | 0x93 => some (.cfgw t o)
  | 0x94 => some (.frz t o)
  | _ => none

/-- The instruction of a pair half (R73, R74). The fields a form does not use are at their idle values (R75). -/
def ofSop (sop : Nat) (t : Ty) (d : BitVec 5) (a b : BitVec 6) (i : BitVec 5) : Except DecodeError Instr :=
  match sop with
  | 0 => if b = 0 ∧ i = 0 then .ok (.pairMov ⟨t, d, a⟩) else .error .halfForm
  | 1 => if i = 0 then .ok (.pairAdd ⟨t, d, a, b⟩) else .error .halfForm
  | 2 => if i = 0 then .ok (.pairAdds ⟨t, d, a, b⟩) else .error .halfForm
  | 3 => if i = 0 then .ok (.pairSub ⟨t, d, a, b⟩) else .error .halfForm
  | 4 => if i = 0 then .ok (.pairSubs ⟨t, d, a, b⟩) else .error .halfForm
  | 5 => if i = 0 then .ok (.pairMul ⟨t, d, a, b⟩) else .error .halfForm
  | 6 => if i = 0 then .ok (.pairMulh ⟨t, d, a, b⟩) else .error .halfForm
  | 7 => if i = 0 then .ok (.pairMin ⟨t, d, a, b⟩) else .error .halfForm
  | 8 => if i = 0 then .ok (.pairMax ⟨t, d, a, b⟩) else .error .halfForm
  | 9 => if b = 0 ∧ i = 0 then .ok (.pairAbs ⟨t, d, a⟩) else .error .halfForm
  | 10 => if b = 0 ∧ i = 0 then .ok (.pairNeg ⟨t, d, a⟩) else .error .halfForm
  | 11 => if i = 0 then .ok (.pairAnd ⟨t, d, a, b⟩) else .error .halfForm
  | 12 => if i = 0 then .ok (.pairAndn ⟨t, d, a, b⟩) else .error .halfForm
  | 13 => if i = 0 then .ok (.pairOr ⟨t, d, a, b⟩) else .error .halfForm
  | 14 => if i = 0 then .ok (.pairXor ⟨t, d, a, b⟩) else .error .halfForm
  | 15 => if i = 0 then .ok (.pairShl ⟨t, d, a, b⟩) else .error .halfForm
  | 16 => if i = 0 then .ok (.pairShr ⟨t, d, a, b⟩) else .error .halfForm
  | 17 => if i = 0 then .ok (.pairSar ⟨t, d, a, b⟩) else .error .halfForm
  | 18 => if i = 0 then .ok (.pairRot ⟨t, d, a, b⟩) else .error .halfForm
  | 19 => if b = 0 ∧ i = 0 then .ok (.pairClz ⟨t, d, a⟩) else .error .halfForm
  | 20 => if b = 0 ∧ i = 0 then .ok (.pairPopc ⟨t, d, a⟩) else .error .halfForm
  | 21 => if i.toNat < 16 then .ok (.pairCmp ⟨t, d, a, b, i.setWidth 4⟩) else .error .halfForm
  | 22 => if i.toNat < 16 then .ok (.pairSteer ⟨t, d, a, b, i.setWidth 4⟩) else .error .halfForm
  | 23 => if i = 0 then .ok (.pairVbcast ⟨t, d, a, b⟩) else .error .halfForm
  | 32 => if b = 0 then .ok (.pairMovImm ⟨t, d, a, i⟩) else .error .halfForm
  | 33 => if b = 0 then .ok (.pairAddImm ⟨t, d, a, i⟩) else .error .halfForm
  | 34 => if b = 0 then .ok (.pairAddsImm ⟨t, d, a, i⟩) else .error .halfForm
  | 35 => if b = 0 then .ok (.pairSubImm ⟨t, d, a, i⟩) else .error .halfForm
  | 36 => if b = 0 then .ok (.pairSubsImm ⟨t, d, a, i⟩) else .error .halfForm
  | 37 => if b = 0 then .ok (.pairMulImm ⟨t, d, a, i⟩) else .error .halfForm
  | 38 => if b = 0 then .ok (.pairMulhImm ⟨t, d, a, i⟩) else .error .halfForm
  | 39 => if b = 0 then .ok (.pairMinImm ⟨t, d, a, i⟩) else .error .halfForm
  | 40 => if b = 0 then .ok (.pairMaxImm ⟨t, d, a, i⟩) else .error .halfForm
  | 43 => if b = 0 then .ok (.pairAndImm ⟨t, d, a, i⟩) else .error .halfForm
  | 44 => if b = 0 then .ok (.pairAndnImm ⟨t, d, a, i⟩) else .error .halfForm
  | 45 => if b = 0 then .ok (.pairOrImm ⟨t, d, a, i⟩) else .error .halfForm
  | 46 => if b = 0 then .ok (.pairXorImm ⟨t, d, a, i⟩) else .error .halfForm
  | 47 => if b = 0 then .ok (.pairShlImm ⟨t, d, a, i⟩) else .error .halfForm
  | 48 => if b = 0 then .ok (.pairShrImm ⟨t, d, a, i⟩) else .error .halfForm
  | 49 => if b = 0 then .ok (.pairSarImm ⟨t, d, a, i⟩) else .error .halfForm
  | 50 => if b = 0 then .ok (.pairRotImm ⟨t, d, a, i⟩) else .error .halfForm
  | 51 => if b = 0 then .ok (.pairClzImm ⟨t, d, a, i⟩) else .error .halfForm
  | 52 => if b = 0 then .ok (.pairPopcImm ⟨t, d, a, i⟩) else .error .halfForm
  | 55 => if b = 0 then .ok (.pairVbcastImm ⟨t, d, a, i⟩) else .error .halfForm
  | _ => .error .reservedPairOp

/-- A field that must name something. -/
def need {α : Type} (e : DecodeError) : Option α → Except DecodeError α
  | some x => .ok x
  | none => .error e

/-- The fields of format A (R54). -/
def decodeA (w : W64) : Except DecodeError FmtA := do
  let ty ← need .reservedType (tyOfCode (w.extractLsb' 52 4))
  let d ← need .reservedDestination (dstOfCode (w.extractLsb' 46 6))
  let a ← need .reservedSource (srcOfCode (w.extractLsb' 39 7))
  let b ← need .reservedSource (srcOfCode (w.extractLsb' 32 7))
  let c ← need .reservedSource (srcOfCode (w.extractLsb' 25 7))
  return { ty, d, a, b, c, mod := w.extractLsb' 21 4, imm := w.extractLsb' 0 21 }

/-- The fields of format M (R64). -/
def decodeM (w : W64) : Except DecodeError FmtM := do
  let ty ← need .reservedType (tyOfCode (w.extractLsb' 52 4))
  let d ← need .reservedDestination (dstOfCode (w.extractLsb' 46 6))
  let a ← need .reservedSource (srcOfCode (w.extractLsb' 39 7))
  let b ← need .reservedSource (srcOfCode (w.extractLsb' 32 7))
  return { ty, d, a, b, chn := w.extractLsb' 29 3, scp := w.extractLsb' 26 3, ord := w.extractLsb' 24 2,
           mod := w.extractLsb' 20 4, off := w.extractLsb' 0 20 }

/-- The fields of format E (R66). -/
def decodeE (w : W64) : Except DecodeError FmtE := do
  let ty ← need .reservedType (tyOfCode (w.extractLsb' 52 4))
  let d ← need .reservedDestination (dstOfCode (w.extractLsb' 46 6))
  let a ← need .reservedSource (srcOfCode (w.extractLsb' 39 7))
  let b ← need .reservedSource (srcOfCode (w.extractLsb' 32 7))
  let c ← need .reservedSource (srcOfCode (w.extractLsb' 25 7))
  return { ty, d, a, b, c, eq := w.extractLsb' 22 3, ntf := w.extractLsb' 19 3, scp := w.extractLsb' 16 3,
           imm := w.extractLsb' 0 16 }

/-- The operation field under its opcode (R53, R76). -/
def decodeO (t : TU) (w : W64) : Except DecodeError Instr :=
  let op := (w.extractLsb' 56 8).toNat
  if op ≤ 0x0C ∨ (0x10 ≤ op ∧ op ≤ 0x3D) then
    (decodeA w).bind fun o => need .reservedOpcode (ofOpA op t o)
  else if 0x40 ≤ op ∧ op ≤ 0x52 then
    (decodeM w).bind fun o => need .reservedOpcode (ofOpM op t o)
  else (decodeE w).bind fun o => need .reservedOpcode (ofOpE op t o)

/-- A pair half (R73). -/
def decodeHalf (w : W32) : Except DecodeError Instr := do
  let ty ← need .reservedType (tyOfCode (w.extractLsb' 22 4))
  ofSop (w.extractLsb' 26 6).toNat ty (w.extractLsb' 17 5) (w.extractLsb' 11 6) (w.extractLsb' 5 6) (w.extractLsb' 0 5)

/-- A transition word (R50 to R53). -/
def decodeWord (w : W128) : Except DecodeError Decoded :=
  if bitAt w 127 = false then (if w = 0 then .error .notValid else .error .strayBits)
  else if w.extractLsb' 65 3 ≠ 0 then .error .reservedField
  else
    let t := decodeTU (w.extractLsb' 96 32) (w.extractLsb' 64 32)
    if bitAt w 64 then do
      let sc ← decodeHalf (w.extractLsb' 32 32)
      let vh ← decodeHalf (w.extractLsb' 0 32)
      return .pair t sc vh
    else (decodeO t (w.extractLsb' 0 64)).map .single

/-- The number that bytes give, the first byte least significant (R12). -/
def leNat : List Byte → Nat
  | [] => 0
  | b :: bs => b.toNat + 256 * leNat bs

/-- The transition word that 16 bytes hold (R50). -/
def decodeBytes (bs : List Byte) : Except DecodeError Decoded :=
  if bs.length = 16 then decodeWord (BitVec.ofNat 128 (leNat bs)) else .error .length

/-! ### The encoder -/

/-- What the encoder writes: a transition word, or one half of a pair's operation field. -/
inductive Code
  | word (w : W128)
  | half (w : W32)
  deriving DecidableEq, Repr

/-- The operation or half an instruction is encoded by; an event of the part has none (R76, R74). -/
def layoutOf : Instr → Layout
  | .nop t o => .a 0x00 t o
  | .emit t o => .a 0x01 t o
  | .steer t o => .a 0x02 t o
  | .merge t o => .a 0x03 t o
  | .repl t o => .a 0x04 t o
  | .mark t o => .a 0x05 t o
  | .sink t o => .a 0x06 t o
  | .doneOp t o => .a 0x07 t o
  | .erls t o => .a 0x08 t o
  | .pset t o => .a 0x09 t o
  | .padd t o => .a 0x0a t o
  | .prd t o => .a 0x0b t o
  | .tag t o => .a 0x0c t o
  | .rpull t o => .e 0x0d t o
  | .lnch t o => .e 0x0e t o
  | .trap t o => .e 0x0f t o
  | .mov t o => .a 0x10 t o
  | .movi t o => .a 0x11 t o
  | .movh t o => .a 0x12 t o
  | .sel t o => .a 0x13 t o
  | .cmp t o => .a 0x14 t o
  | .add t o => .a 0x15 t o
  | .adds t o => .a 0x16 t o
  | .sub t o => .a 0x17 t o
  | .subs t o => .a 0x18 t o
  | .mul t o => .a 0x19 t o
  | .mulh t o => .a 0x1a t o
  | .fma t o => .a 0x1b t o
  | .div t o => .a 0x1c t o
  | .min t o => .a 0x1d t o
  | .max t o => .a 0x1e t o
  | .clamp t o => .a 0x1f t o
  | .abs t o => .a 0x20 t o
  | .neg t o => .a 0x21 t o
  | .andOp t o => .a 0x22 t o
  | .andn t o => .a 0x23 t o
  | .orOp t o => .a 0x24 t o
  | .xor t o => .a 0x25 t o
  | .shl t o => .a 0x26 t o
  | .shr t o => .a 0x27 t o
  | .sar t o => .a 0x28 t o
  | .rot t o => .a 0x29 t o
  | .clz t o => .a 0x2a t o
  | .popc t o => .a 0x2b t o
  | .cvt t o => .a 0x2c t o
  | .qnt t o => .a 0x2d t o
  | .rcp t o => .a 0x2e t o
  | .rsq t o => .a 0x2f t o
  | .sqrt t o => .a 0x30 t o
  | .exp2 t o => .a 0x31 t o
  | .log2 t o => .a 0x32 t o
  | .vbcast t o => .a 0x33 t o
  | .vperm t o => .a 0x34 t o
  | .vzip t o => .a 0x35 t o
  | .vuzp t o => .a 0x36 t o
  | .vtrn t o => .a 0x37 t o
  | .vpack t o => .a 0x38 t o
  | .vunpk t o => .a 0x39 t o
  | .vcmpr t o => .a 0x3a t o
  | .vxpd t o => .a 0x3b t o
  | .vred t o => .a 0x3c t o
  | .vscan t o => .a 0x3d t o
  | .bld t o => .m 0x40 t o
  | .bst t o => .m 0x41 t o
  | .bldx t o => .m 0x42 t o
  | .bstx t o => .m 0x43 t o
  | .brmw t o => .m 0x44 t o
  | .bcas t o => .m 0x45 t o
  | .ld t o => .m 0x48 t o
  | .st t o => .m 0x49 t o
  | .ldo t o => .m 0x4a t o
  | .ldw t o => .m 0x4b t o
  | .stw t o => .m 0x4c t o
  | .atom t o => .m 0x4d t o
  | .red t o => .m 0x4e t o
  | .cas t o => .m 0x4f t o
  | .fence t o => .m 0x50 t o
  | .pref t o => .m 0x51 t o
  | .inv t o => .m 0x52 t o
  | .sopen t o => .e 0x58 t o
  | .sparm t o => .e 0x59 t o
  | .sclose t o => .e 0x5a t o
  | .srec t o => .e 0x5b t o
  | .rfen t o => .e 0x5c t o
  | .gath t o => .e 0x5d t o
  | .scat t o => .e 0x5e t o
  | .cpy t o => .e 0x60 t o
  | .fill t o => .e 0x61 t o
  | .qfen t o => .e 0x62 t o
  | .rcopy t o => .e 0x63 t o
  | .rzero t o => .e 0x64 t o
  | .stash t o => .e 0x65 t o
  | .unstash t o => .e 0x66 t o
  | .coll t o => .e 0x67 t o
  | .pimabEnter t o => .e 0x68 t o
  | .pimabLeave t o => .e 0x68 t o
  | .pimld t o => .e 0x69 t o
  | .pimmac t o => .e 0x6a t o
  | .pimrd t o => .e 0x6b t o
  | .mxmodeEnter t o => .e 0x70 t o
  | .mxmodeEnterSplit t o => .e 0x70 t o
  | .mxmodeLeave t o => .e 0x70 t o
  | .mxwld t o => .e 0x71 t o
  | .mxc t o => .e 0x72 t o
  | .mxacc t o => .e 0x73 t o
  | .ipatch t o => .e 0x78 t o
  | .icfg t o => .e 0x79 t o
  | .iset t o => .e 0x7a t o
  | .iget t o => .e 0x7b t o
  | .istep t o => .e 0x7c t o
  | .isave t o => .e 0x7d t o
  | .irest t o => .e 0x7e t o
  | .ifeed t o => .e 0x7f t o
  | .isamp t o => .e 0x80 t o
  | .bari t o => .e 0x88 t o
  | .bara t o => .e 0x89 t o
  | .barw t o => .e 0x8a t o
  | .bart t o => .e 0x8b t o
  | .barq t o => .e 0x8c t o
  | .waita t o => .e 0x8d t o
  | .note t o => .e 0x8e t o
  | .rdsr t o => .e 0x90 t o
  | .wrsr t o => .e 0x91 t o
  | .time t o => .e 0x92 t o
  | .cfgw t o => .e 0x93 t o
  | .frz t o => .e 0x94 t o
  | .pairMov h => .half 0 h.ty h.d h.a 0 0
  | .pairMovImm h => .half 32 h.ty h.d h.a 0 h.i
  | .pairAdd h => .half 1 h.ty h.d h.a h.b 0
  | .pairAddImm h => .half 33 h.ty h.d h.a 0 h.i
  | .pairAdds h => .half 2 h.ty h.d h.a h.b 0
  | .pairAddsImm h => .half 34 h.ty h.d h.a 0 h.i
  | .pairSub h => .half 3 h.ty h.d h.a h.b 0
  | .pairSubImm h => .half 35 h.ty h.d h.a 0 h.i
  | .pairSubs h => .half 4 h.ty h.d h.a h.b 0
  | .pairSubsImm h => .half 36 h.ty h.d h.a 0 h.i
  | .pairMul h => .half 5 h.ty h.d h.a h.b 0
  | .pairMulImm h => .half 37 h.ty h.d h.a 0 h.i
  | .pairMulh h => .half 6 h.ty h.d h.a h.b 0
  | .pairMulhImm h => .half 38 h.ty h.d h.a 0 h.i
  | .pairMin h => .half 7 h.ty h.d h.a h.b 0
  | .pairMinImm h => .half 39 h.ty h.d h.a 0 h.i
  | .pairMax h => .half 8 h.ty h.d h.a h.b 0
  | .pairMaxImm h => .half 40 h.ty h.d h.a 0 h.i
  | .pairAbs h => .half 9 h.ty h.d h.a 0 0
  | .pairNeg h => .half 10 h.ty h.d h.a 0 0
  | .pairAnd h => .half 11 h.ty h.d h.a h.b 0
  | .pairAndImm h => .half 43 h.ty h.d h.a 0 h.i
  | .pairAndn h => .half 12 h.ty h.d h.a h.b 0
  | .pairAndnImm h => .half 44 h.ty h.d h.a 0 h.i
  | .pairOr h => .half 13 h.ty h.d h.a h.b 0
  | .pairOrImm h => .half 45 h.ty h.d h.a 0 h.i
  | .pairXor h => .half 14 h.ty h.d h.a h.b 0
  | .pairXorImm h => .half 46 h.ty h.d h.a 0 h.i
  | .pairShl h => .half 15 h.ty h.d h.a h.b 0
  | .pairShlImm h => .half 47 h.ty h.d h.a 0 h.i
  | .pairShr h => .half 16 h.ty h.d h.a h.b 0
  | .pairShrImm h => .half 48 h.ty h.d h.a 0 h.i
  | .pairSar h => .half 17 h.ty h.d h.a h.b 0
  | .pairSarImm h => .half 49 h.ty h.d h.a 0 h.i
  | .pairRot h => .half 18 h.ty h.d h.a h.b 0
  | .pairRotImm h => .half 50 h.ty h.d h.a 0 h.i
  | .pairClz h => .half 19 h.ty h.d h.a 0 0
  | .pairClzImm h => .half 51 h.ty h.d h.a 0 h.i
  | .pairPopc h => .half 20 h.ty h.d h.a 0 0
  | .pairPopcImm h => .half 52 h.ty h.d h.a 0 h.i
  | .pairCmp h => .half 21 h.ty h.d h.a h.b (h.c.setWidth 5)
  | .pairSteer h => .half 22 h.ty h.d h.a h.b (h.c.setWidth 5)
  | .pairVbcast h => .half 23 h.ty h.d h.a h.b 0
  | .pairVbcastImm h => .half 55 h.ty h.d h.a 0 h.i
  | .firingCompletion _ _ => .none
  | .outputBufferEntry _ _ => .none
  | .tokenInjection _ _ => .none
  | .tokenArrival _ => .none
  | .cfgTokenApply _ _ => .none
  | .faultRetry _ => .none
  | .pgrspWrite _ _ => .none
  | .cutRelease _ => .none
  | .pageResponse _ _ _ _ => .none
  | .functionLevelReset _ => .none
  | .retiredTagTimeout _ => .none
  | .sidedTokenReentry _ _ => .none
  | .sparseUpdate _ _ => .none
  | .watchMark _ _ => .none
  | .barrierPhaseFlip _ _ => .none
  | .engineQueueEntry _ _ => .none
  | .copyChunk _ _ => .none
  | .rowTransfer _ _ => .none
  | .bankMacPerform _ _ => .none
  | .gathRow _ _ => .none
  | .scatRow _ _ => .none
  | .stashChunk _ _ => .none
  | .unstashChunk _ _ => .none
  | .collMatch _ _ _ => .none
  | .portTokenRead _ _ => .none
  | .portTokenWrite _ _ => .none
  | .pageEviction _ _ => .none
  | .pageMigration _ _ => .none
  | .migrationWindowEnd _ _ => .none
  | .domainStep _ _ => .none
  | .budgetExhausted _ _ => .none
  | .eventPlaceMark _ _ => .none
  | .integratorCommandPerform _ _ => .none
  | .mma _ _ => .none
  | .swapw _ _ => .none
  | .flush _ _ => .none
  | .flushMark _ _ => .none
  | .dispatch _ _ _ => .none
  | .regionRelease _ => .none
  | .unitStart _ => .none
  | .launchCompletion _ => .none
  | .successorAppend _ => .none
  | .quantumExpiry _ => .none
  | .freeze _ => .none
  | .saveReadout _ => .none
  | .restore _ _ _ => .none
  | .drain _ => .none
  | .tailLampPass _ => .none
  | .drainCompletion _ => .none
  | .sectionShadow _ => .none
  | .staleSectDiscard _ _ => .none
  | .cutCompletion _ => .none
  | .forcedCut _ => .none
  | .markerCutTimeout _ => .none
  | .sectionTokenCount _ => .none
  | .vioRelease _ => .none
  | .queueTailWrite _ _ _ => .none
  | .qctlWrite _ _ _ => .none
  | .cancel _ _ => .none
  | .fqhWrite _ _ => .none
  | .fqbWrite _ _ => .none
  | .fqszWrite _ _ => .none
  | .fltsClear _ _ => .none
  | .ivgoWrite _ _ => .none
  | .invalidationCompletion _ => .none
  | .notice _ _ => .none
  | .acknowledge _ _ => .none
  | .refuse _ _ => .none
  | .grant _ _ => .none
  | .hotAdd _ _ => .none
  | .hotRemove _ => .none
  | .scrub _ => .none
  | .scrubCompletion _ => .none
  | .offer _ _ => .none
  | .assignToModule _ => .none
  | .partitionEnable _ => .none
  | .partitionDisable _ => .none
  | .pauseSet _ => .none
  | .pauseClear _ => .none
  | .maintWrite _ _ => .none
  | .pcorWrite _ _ => .none
  | .tnowWrite _ _ => .none
  | .wrtWrite _ _ => .none
  | .registerWrite _ _ _ => .none
  | .hostBar2Read _ _ _ => .none
  | .hostBar2Write _ _ _ => .none
  | .tdispError _ => .none
  | .peerAccess _ _ => .none
  | .windowGrant _ _ => .none
  | .lnk _ _ => .none
  | .uncorrectableError _ _ _ => .none
  | .moduleReset => .none
  | .atsTranslationResponse _ _ _ => .none
  | .atsInvalidation _ _ _ => .none
  | .tdispStateChange _ _ => .none
  | .keyGeneration _ => .none
  | .attestationReport _ => .none
  | .recoveryImage _ _ _ => .none

/-- Format A (R54). -/
def encodeA (op : BitVec 8) (o : FmtA) : W64 :=
  op ++ codeOfTy o.ty ++ codeOfDst o.d ++ codeOfSrc o.a ++ codeOfSrc o.b ++ codeOfSrc o.c ++ o.mod ++ o.imm

/-- Format M (R64). -/
def encodeM (op : BitVec 8) (o : FmtM) : W64 :=
  op ++ codeOfTy o.ty ++ codeOfDst o.d ++ codeOfSrc o.a ++ codeOfSrc o.b ++ o.chn ++ o.scp ++ o.ord ++ o.mod ++ o.off

/-- Format E (R66). -/
def encodeE (op : BitVec 8) (o : FmtE) : W64 :=
  op ++ codeOfTy o.ty ++ codeOfDst o.d ++ codeOfSrc o.a ++ codeOfSrc o.b ++ codeOfSrc o.c ++ o.eq ++ o.ntf ++ o.scp ++ o.imm

/-- A pair half (R73). -/
def encodeHalf (sop : BitVec 6) (ty : Ty) (d : BitVec 5) (a b : BitVec 6) (i : BitVec 5) : W32 :=
  sop ++ codeOfTy ty ++ d ++ a ++ b ++ i

/-- The words of an instruction; an event of the part has none. -/
def encode (i : Instr) : Option Code :=
  match layoutOf i with
  | .a op t o => some (.word (encodeT t ++ encodeU t false ++ encodeA op o))
  | .m op t o => some (.word (encodeT t ++ encodeU t false ++ encodeM op o))
  | .e op t o => some (.word (encodeT t ++ encodeU t false ++ encodeE op o))
  | .half sop ty d a b i => some (.half (encodeHalf sop ty d a b i))
  | .none => none

/-- The instruction the decoder reads from what the encoder writes. -/
def decodeCode : Code → Except DecodeError Decoded
  | .word w => decodeWord w
  | .half w => (decodeHalf w).map .single

/-! ### The host's reading of one table row -/

/-- The trigger and update a lone operation field is given: enabled by p0, nothing consumed, nothing produced. -/
def plainTU : TU :=
  { pri := 0, epa := 0, eae := true, epb := 0, ebe := false, ipi := 0, iie := false, qa := 0, qae := false, qb := 0,
    qbe := false, tgt := false, ca := false, cb := false, dqa := false, dqb := false, op1 := 0, o1e := false, op2 := 0,
    o2e := false, cho := 0, ol := 0, ole := false, otg := 0, ols := false }

/-- The instruction of a table row's bits: a pair half has 32, an operation field 64, a transition word 128. -/
def decodeTableWord (nbits w : Nat) : Option Instr :=
  if nbits ≤ 32 then (decodeHalf (BitVec.ofNat 32 w)).toOption
  else if nbits ≤ 64 then (decodeO plainTU (BitVec.ofNat 64 w)).toOption
  else
    match decodeWord (BitVec.ofNat 128 w) with
    | .ok (.single i) => some i
    | .ok (.pair _ sc _) => some sc
    | .error _ => none

end Sys2Proof
end

