-- ==== Sys2Proof/Machine/Float.lean ====
section
/-! DEFINITION. Number formats and rounding (R160 to R172): a float pattern is read as an exact value, operations work on exact
values, and one rounding writes the result. Magnitudes are quotients of naturals; a sticky mark says that the true value lies
above the quotient by less than one unit of its numerator. -/

namespace Sys2Proof.Machine

open Sys2Proof

/-! ### Types (R69) -/

/-- Lane width in bits; b1 works on a 64-bit mask (R402). -/
def Ty.width : Ty → Nat
  | .s32 | .n32 | .f32 | .vc => 32
  | .s16 | .n16 | .b16 | .h16 => 16
  | .s8 | .n8 | .e4 | .e5 | .l6 => 8
  | .s64 | .b1 => 64

/-- Lanes per vector word; a b1 operand is one 64-bit mask (R402). -/
def Ty.lanes : Ty → Nat
  | .b1 => 1
  | t => 512 / Ty.width t

/-- wty of R80. -/
def Ty.work : Ty → Ty
  | .vc => .f32
  | t => t

/-- Signed integer types. -/
def Ty.signed : Ty → Bool
  | .s32 | .s16 | .s8 | .s64 => true
  | _ => false

/-- Integer types, s64 included. -/
def Ty.isInt : Ty → Bool
  | .s32 | .n32 | .s16 | .n16 | .s8 | .n8 | .s64 => true
  | _ => false

/-- f32, b16 and h16. -/
def Ty.isIeee : Ty → Bool
  | .f32 | .b16 | .h16 => true
  | _ => false

/-! ### Sticky flags (R152) -/

/-- Flags in the layout of AXS. -/
abbrev Fl := W32

def flNone : Fl := 0
def flIV : Fl := 0x01
def flDZ : Fl := 0x02
def flOF : Fl := 0x04
def flUF : Fl := 0x08
def flNX : Fl := 0x10
def flSA : Fl := 0x20
def flXS : Fl := 0x40

/-! ### Exact values -/

/-- A value read from a pattern: NaN (signalling or not), an infinity, or a signed quotient n/d. -/
inductive Val
  | nan (sig : Bool)
  | inf (neg : Bool)
  | fin (neg : Bool) (n d : Nat)
  deriving DecidableEq, Repr

def Val.isNan : Val → Bool
  | .nan _ => true
  | _ => false
def Val.isSig : Val → Bool
  | .nan s => s
  | _ => false
def Val.isZero : Val → Bool
  | .fin _ 0 _ => true
  | _ => false
def Val.neg : Val → Bool
  | .nan _ => false
  | .inf s => s
  | .fin s _ _ => s

/-- Exponent width, fraction width and bias (R160). -/
def floatShape : Ty → Nat × Nat × Nat
  | .f32 => (8, 23, 127)
  | .b16 => (8, 7, 127)
  | .h16 => (5, 10, 15)
  | .e4 => (4, 3, 7)
  | .e5 => (5, 2, 15)
  | _ => (8, 23, 127)

/-- The largest finite pattern (R160). -/
def maxFinite : Ty → Nat
  | .f32 => 0x7F7FFFFF
  | .b16 => 0x7F7F
  | .h16 => 0x7BFF
  | .e4 => 0x7E
  | .e5 => 0x7B
  | .l6 => 0x1F
  | _ => 0x7F7FFFFF

/-- The pattern of +infinity of the types that have one (R160). -/
def infPattern : Ty → Nat
  | .f32 => 0x7F800000
  | .b16 => 0x7F80
  | .h16 => 0x7C00
  | .e5 => 0x7C
  | t => maxFinite t

/-- The canonical NaN (R160). -/
def canonNan : Ty → Nat
  | .f32 => 0x7FC00000
  | .b16 => 0x7FC0
  | .h16 => 0x7E00
  | .e4 => 0x7F
  | .e5 => 0x7E
  | .l6 => 0x20
  | _ => 0x7FC00000

/-- The sign bit of a float pattern. -/
def signBit : Ty → Nat
  | .f32 | .vc => 2 ^ 31
  | .b16 | .h16 => 2 ^ 15
  | .e4 | .e5 => 2 ^ 7
  | .l6 => 2 ^ 5
  | _ => 2 ^ 31

/-- 2^f/4 of R168 as FP32 significands over 2^23. -/
def l6Table : Nat → Nat
  | 0 => 0x800000
  | 1 => 0x9837F0
  | 2 => 0xB504F3
  | _ => 0xD744FD

/-- The magnitude of an L6 code with L from 1 (and, above 31, of the value that would follow): T[f] × 2^q, q from −4 (R168). -/
def l6Mag (l : Nat) : Nat × Nat := (l6Table (l % 4) * 2 ^ (l / 4), 2 ^ (23 + 4))

/-- A magnitude m × 2^(e − bias) as a quotient. -/
def scaled (m e b : Nat) : Nat × Nat := if e ≥ b then (m * 2 ^ (e - b), 1) else (m, 2 ^ (b - e))

/-- The value of a pattern of a float type (R160, R161, R168). -/
def readFloat (ty : Ty) (raw : Nat) : Val :=
  match ty with
  | .l6 =>
    let c := raw % 64
    let l := c % 32
    if l = 0 then (if c = 32 then .nan false else .fin false 0 1)
    else let (n, d) := l6Mag l; .fin (c ≥ 32) n d
  | _ =>
    let (ew, fw, bias) := floatShape ty
    let f := raw % 2 ^ fw
    let e := raw / 2 ^ fw % 2 ^ ew
    let s := raw / 2 ^ (fw + ew) % 2 == 1
    if e = 2 ^ ew - 1 ∧ (ty ≠ .e4 ∨ f = 7) then
      if ty = .e4 then .nan false
      else if f = 0 then .inf s
      else .nan (Ty.isIeee ty && f < 2 ^ (fw - 1))
    else if e = 0 then let (n, d) := scaled f 1 (bias + fw); .fin s n d
    else let (n, d) := scaled (2 ^ fw + f) e (bias + fw); .fin s n d

/-- A subnormal pattern of a float type. -/
def isSubnormal (ty : Ty) (raw : Nat) : Bool :=
  match ty with
  | .l6 => false
  | _ =>
    let (ew, fw, _) := floatShape ty
    raw / 2 ^ fw % 2 ^ ew == 0 && raw % 2 ^ fw != 0

/-- A float operand of an element operation: under FTZ a subnormal reads as zero of its sign (R162). -/
def readFtz (ty : Ty) (ftz : Bool) (raw : Nat) : Val :=
  if ftz && isSubnormal ty raw then .fin (readFloat ty raw).neg 0 1 else readFloat ty raw

/-! ### Rounding (R164, R165, R170) -/

/-- How the neighbour is chosen: the directed modes, to nearest, stochastically with the 24 bits of LFSR, or a given side. -/
inductive Round
  | rne | rtz | rdn | rup
  | sr (u : Nat)
  | side (up : Bool)
  deriving DecidableEq, Repr

/-- The mode of MOD codes 0 to 3. -/
def roundOfCode (c : Nat) : Round :=
  match c with
  | 0 => .rne
  | 1 => .rtz
  | 2 => .rdn
  | _ => .rup

/-- Whether the neighbour away from zero is taken, for a remainder r of den above an even or odd lower neighbour. -/
def roundsUp (m : Round) (neg even : Bool) (r den : Nat) (sticky : Bool) : Bool :=
  match m with
  | .rne => 2 * r > den || (2 * r == den && (sticky || !even))
  | .rtz => false
  | .rdn => neg
  | .rup => !neg
  | .sr u => u * den < r * 2 ^ 24
  | .side up => up

/-- The result of an overflow (R164): infinity, or the largest finite value. -/
def overflowInf (m : Round) (neg : Bool) : Bool :=
  match m with
  | .rtz => false
  | .rdn => neg
  | .rup => !neg
  | _ => true

/-- The exponent of a positive quotient: the e with 2^e ≤ n/d < 2^(e+1). -/
def quotExp (n d : Nat) : Int :=
  let e : Int := (Nat.log2 n : Int) - (Nat.log2 d : Int)
  if (if e ≥ 0 then n < d * 2 ^ e.toNat else n * 2 ^ (-e).toNat < d) then e - 1 else e

/-- The L6 code below or at a magnitude, from 0 (zero); at most 32, which stands for overflow. -/
def l6Below (n d : Nat) : Nat → Nat
  | 0 => 0
  | l + 1 => let (a, b) := l6Mag (l + 1); if a * d ≤ n * b then l + 1 else l6Below n d l

/-- What a rounding gives: a pattern, its flags, whether it overflowed and whether it was inexact. -/
structure Rounded where
  raw  : Nat
  fl   : Fl
  ovf  : Bool
  nx   : Bool
  deriving DecidableEq, Repr

/-- roundf (R164, R170) of a positive or zero quotient with a sign. An overflow is written as the largest finite value or the
infinity pattern (R164); the 8-bit targets treat it again in conversion (R171). A stochastic rounding that overflows is inexact and steps LFSR, whether or not the
value was exact with the exponent unbounded (log 130, DESIGN CHOICE). A subnormal result that is exact raises no UF, EXP2's too (R164; log
131, DEDUCED). -/
def roundMag (ty : Ty) (m : Round) (ftz neg : Bool) (n d : Nat) (sticky : Bool) : Rounded :=
  let sgn := if neg then signBit ty else 0
  if n = 0 ∧ !sticky then ⟨if ty = .l6 then 0 else sgn, flNone, false, false⟩
  else
    match ty with
    | .l6 =>
      let l := l6Below n d 32
      let (a, b) := if l = 0 then (0, 1) else l6Mag l
      let (a', b') := l6Mag (l + 1)
      -- the place of n/d between the neighbours a/b and a'/b', over the common denominator
      let r := (n * b - a * d) * b'
      let den := (a' * b - a * b') * d
      let exact := r = 0
      let l' := if exact then l else if roundsUp m neg (l % 2 == 0) r den sticky then l + 1 else l
      if l' > 31 then ⟨(if overflowInf m neg then 31 else 31) + sgn, flOF ||| flNX, true, true⟩
      else if l' = 0 then ⟨0, flUF ||| flNX, false, true⟩
      else ⟨l' + sgn, if exact then flNone else flNX, false, !exact⟩
    | _ =>
      let (_, fw, bias) := floatShape ty
      let e := max (quotExp n d) (1 - (bias : Int))
      let q := e - (fw : Int)
      let (num, den) := if q ≥ 0 then (n, d * 2 ^ q.toNat) else (n * 2 ^ (-q).toNat, d)
      let m0 := num / den
      let r := num % den
      let exact := r = 0 ∧ !sticky
      let m1 := if exact then m0 else if roundsUp m neg (m0 % 2 == 0) r den sticky then m0 + 1 else m0
      let raw := (e + (bias : Int) - 1).toNat * 2 ^ fw + m1
      if raw > maxFinite ty then
        ⟨(if overflowInf m neg then infPattern ty else maxFinite ty) + sgn, flOF ||| flNX, true, true⟩
      else if ftz && raw < 2 ^ fw && raw ≠ 0 then ⟨sgn, flUF ||| flNX, false, !exact⟩
      else if exact then ⟨raw + sgn, flNone, false, false⟩
      else ⟨raw + sgn, if raw < 2 ^ fw then flUF ||| flNX else flNX, false, true⟩

/-- Writes a value under one rounding; a NaN gives the canonical NaN (R161, R164). -/
def roundVal (ty : Ty) (m : Round) (ftz : Bool) (v : Val) : Nat × Fl :=
  match v with
  | .nan _ => (canonNan ty, flNone)
  | .inf s => (infPattern ty + (if s then signBit ty else 0), flNone)
  | .fin s n d => let r := roundMag ty m ftz s n d false; (r.raw, r.fl)

/-! ### Exact operations (R161, R163, R166, R167) -/

/-- IV for any signalling operand (R161). -/
def sigFl (vs : List Val) : Fl := if vs.any Val.isSig then flIV else flNone

/-- The exact sum; an exact zero of opposite signs is +0, or −0 under RDN (R401). -/
def addVal (m : Round) (x y : Val) : Val × Fl :=
  match x, y with
  | .nan _, _ => (.nan false, flNone)
  | _, .nan _ => (.nan false, flNone)
  | .inf a, .inf b => if a = b then (.inf a, flNone) else (.nan false, flIV)
  | .inf a, _ => (.inf a, flNone)
  | _, .inf b => (.inf b, flNone)
  | .fin a n d, .fin b n' d' =>
    let p := n * d'
    let q := n' * d
    if a = b then (.fin a (p + q) (d * d'), flNone)
    else if p = q then (.fin (m = .rdn) 0 1, flNone)
    else if p > q then (.fin a (p - q) (d * d'), flNone)
    else (.fin b (q - p) (d * d'), flNone)

/-- The value with its sign turned. -/
def negVal : Val → Val
  | .nan s => .nan s
  | .inf s => .inf (!s)
  | .fin s n d => .fin (!s) n d

/-- The exact product. -/
def mulVal (x y : Val) : Val × Fl :=
  match x, y with
  | .nan _, _ => (.nan false, flNone)
  | _, .nan _ => (.nan false, flNone)
  | .inf a, .inf b => (.inf (a != b), flNone)
  | .inf a, .fin b n _ => if n = 0 then (.nan false, flIV) else (.inf (a != b), flNone)
  | .fin a n _, .inf b => if n = 0 then (.nan false, flIV) else (.inf (a != b), flNone)
  | .fin a n d, .fin b n' d' => (.fin (a != b) (n * n') (d * d'), flNone)

/-- The exact quotient with IEEE semantics (R167, R172). -/
def divVal (x y : Val) : Val × Fl :=
  match x, y with
  | .nan _, _ => (.nan false, flNone)
  | _, .nan _ => (.nan false, flNone)
  | .inf _, .inf _ => (.nan false, flIV)
  | .inf a, .fin b _ _ => (.inf (a != b), flNone)
  | .fin a _ _, .inf b => (.fin (a != b) 0 1, flNone)
  | .fin a n d, .fin b n' d' =>
    if n' = 0 then (if n = 0 then (.nan false, flIV) else (.inf (a != b), flDZ))
    else (.fin (a != b) (n * d') (d * n'), flNone)

/-- The order of two values, or none when one is a NaN; −0 equals +0 (R163). -/
def cmpVal (x y : Val) : Option Ordering :=
  let key : Val → Option (Int × Nat) := fun v =>
    match v with
    | .nan _ => none
    | .inf s => some (if s then -1 else 1, 0)
    | .fin s n d => some (if s then -(n : Int) else n, d)
  match key x, key y with
  | some (a, d), some (b, d') =>
    if d = 0 ∧ d' = 0 then some (compare a b)
    else if d = 0 then some (compare a 0)
    else if d' = 0 then some (compare 0 b)
    else some (compare (a * d') (b * d))
  | _, _ => none

/-! ### Square root and the elementary functions -/

/-- The integer square root, two bits of the radicand at a time from the top. -/
def isqrtGo (n : Nat) : Nat → Nat → Nat
  | 0, r => r
  | k + 1, r => let r' := r + 2 ^ k; if r' * r' ≤ n then isqrtGo n k r' else isqrtGo n k r

def isqrt (n : Nat) : Nat := isqrtGo n (Nat.log2 n / 2 + 1) 0

/-- Bits of the guarded fixed-point work. -/
def guardBits : Nat := 400

/-- √(n/d) as a quotient over 2^guardBits with its sticky mark. -/
def sqrtQuot (n d : Nat) : Nat × Nat × Bool :=
  let big := n * 2 ^ (2 * guardBits) / d
  let r := isqrt big
  (r, 2 ^ guardBits, r * r ≠ big || n * 2 ^ (2 * guardBits) % d ≠ 0)

/-- Σ z^(2k+1)/(2k+1) in fixed point, t holding z^(2k+1). -/
def atanhGo (zz : Nat) : Nat → Nat → Nat → Nat
  | 0, _, _ => 0
  | fuel + 1, k, t => t / (2 * k + 1) + atanhGo zz fuel (k + 1) (t * zz / 2 ^ guardBits)

/-- ln of n/d from 1 to 2, in fixed point: 2 atanh((n − d)/(n + d)). -/
def lnFix (n d : Nat) : Nat :=
  let z := (n - d) * 2 ^ guardBits / (n + d)
  2 * atanhGo (z * z / 2 ^ guardBits) 140 0 z

/-- ln 2 in fixed point. -/
def ln2Fix : Nat := lnFix 2 1

/-- Σ t^k/k! in fixed point from the term given. -/
def expGo (t : Nat) : Nat → Nat → Nat → Nat
  | 0, _, term => term
  | fuel + 1, k, term => term + expGo t fuel (k + 1) (term * t / 2 ^ guardBits / k)

/-- 2^(f/2^guardBits) in fixed point for f below 2^guardBits. -/
def exp2Fix (f : Nat) : Nat := expGo (f * ln2Fix / 2 ^ guardBits) 100 1 (2 ^ guardBits)

/-- 2^x as a quotient with a sticky mark: exact for an integer, guarded otherwise (R167). Values past every format are
answered far out, where they overflow or vanish. -/
def exp2Quot (neg : Bool) (n d : Nat) : Nat × Nat × Bool :=
  let i := n / d
  let r := n % d
  if i ≥ 300 then (if neg then (1, 2 ^ 1000, true) else (2 ^ 1000, 1, true))
  else if r = 0 then (if neg then (1, 2 ^ i, false) else (2 ^ i, 1, false))
  else if neg then
    -- 2^(−i − r/d) = 2^(1 − r/d) / 2^(i+1)
    (exp2Fix ((d - r) * 2 ^ guardBits / d), 2 ^ (guardBits + i + 1), true)
  else (exp2Fix (r * 2 ^ guardBits / d) * 2 ^ i, 2 ^ guardBits, true)

/-- log2 of a positive quotient: sign, numerator, denominator and sticky mark (R167). -/
def log2Quot (n d : Nat) : Bool × Nat × Nat × Bool :=
  let e := quotExp n d
  let (a, b) := if e ≥ 0 then (n, d * 2 ^ e.toNat) else (n * 2 ^ (-e).toNat, d)
  if a = b then (e < 0, e.natAbs, 1, false)
  else
    let fr := lnFix a b * 2 ^ guardBits / ln2Fix
    if e ≥ 0 then (false, e.toNat * 2 ^ guardBits + fr, 2 ^ guardBits, true)
    else (true, e.natAbs * 2 ^ guardBits - fr - 1, 2 ^ guardBits, true)

end Sys2Proof.Machine
end

