-- ==== Sys2Proof/Machine/Flags.lean ====
section
/-! DEFINITION. The arithmetic control register AXC (R150), the sticky flags AXS (R152) and the stochastic register LFSR (R154):
their fields, what a write keeps, and the flags that integer results set. -/

namespace Sys2Proof.Machine

open Sys2Proof

/-- AXC as a firing applies it: default rounding, FTZ, TDZ and DREX (R150). -/
structure Axc where
  rm   : Round
  ftz  : Bool
  tdz  : Bool
  drex : Bool
  deriving DecidableEq, Repr

/-- The fields of an AXC pattern (R150). -/
def axcOf (w : W32) : Axc :=
  { rm := roundOfCode (w.extractLsb' 0 2).toNat, ftz := w.getLsbD 4, tdz := w.getLsbD 5, drex := w.getLsbD 16 }

/-- The bits of AXC a write keeps (R150). -/
def axcMask : W32 := 0x00010033

/-- The bits of AXS a write keeps (R152). -/
def axsMask : W32 := 0x0000007F

/-- rmode of R80: MOD 7 takes the default of AXC (R72). -/
def rmode (x : Axc) (m : BitVec 4) : Round := if m.toNat % 8 = 7 then x.rm else roundOfCode (m.toNat % 8)

/-- One step of LFSR (R154). -/
def lfsrStep (w : W32) : W32 :=
  let s := w >>> 1
  if w.getLsbD 0 then s ^^^ 0x80200003 else s

/-- What a write of LFSR stores (R154). -/
def lfsrStored (w : W32) : W32 := if w = 0 then 1 else w

/-! ### Integers (R155) -/

/-- The value of a width(TY)-bit pattern. -/
def intOf (ty : Ty) (raw : Nat) : Int :=
  let w := Ty.width ty
  let r := raw % 2 ^ w
  if Ty.signed ty && r ≥ 2 ^ (w - 1) then (r : Int) - 2 ^ w else r

/-- The least and the greatest value of an integer type. -/
def intMin (ty : Ty) : Int := if Ty.signed ty then -(2 ^ (Ty.width ty - 1)) else 0
def intMax (ty : Ty) : Int := if Ty.signed ty then 2 ^ (Ty.width ty - 1) - 1 else 2 ^ Ty.width ty - 1

/-- wrapint of R80, as a pattern. -/
def wrapint (ty : Ty) (x : Int) : Nat := (x % (2 ^ Ty.width ty : Int)).toNat

/-- satint of R80, as a pattern, with SA when it clamps. -/
def satint (ty : Ty) (x : Int) : Nat × Fl :=
  if x < intMin ty then (wrapint ty (intMin ty), flSA)
  else if x > intMax ty then (wrapint ty (intMax ty), flSA)
  else (wrapint ty x, flNone)

/-- Wraps, or saturates under .sat (R155). -/
def fitint (ty : Ty) (sat : Bool) (x : Int) : Nat × Fl := if sat then satint ty x else (wrapint ty x, flNone)

end Sys2Proof.Machine
end

