-- ==== Sys2Proof/Machine/Alu.lean ====
section
/-! DEFINITION. What one lane of each arithmetic operation computes (R155 to R174, R400 to R548): a function of raw patterns, the
type it works in and AXC, giving a pattern and the flags it raises. -/

namespace Sys2Proof.Machine

open Sys2Proof

/-- A lane's result and its flags. -/
abbrev LaneRes := Nat × Fl

/-- Whether a work type is a float type. -/
def isFl (ty : Ty) : Bool := !Ty.isInt ty

/-! ### Arithmetic -/

/-- ADD (R401). -/
def laneAdd (x : Axc) (ty : Ty) (m : BitVec 4) (a b : Nat) : LaneRes :=
  if isFl ty then
    let va := readFtz ty x.ftz a
    let vb := readFtz ty x.ftz b
    let r := rmode x m
    let (v, f) := addVal r va vb
    let (y, g) := roundVal ty r x.ftz v
    (y, sigFl [va, vb] ||| f ||| g)
  else fitint ty (m == 1) (intOf ty a + intOf ty b)

/-- SUB (R529). -/
def laneSub (x : Axc) (ty : Ty) (m : BitVec 4) (a b : Nat) : LaneRes :=
  if isFl ty then
    let va := readFtz ty x.ftz a
    let vb := readFtz ty x.ftz b
    let r := rmode x m
    let (v, f) := addVal r va (negVal vb)
    let (y, g) := roundVal ty r x.ftz v
    (y, sigFl [va, vb] ||| f ||| g)
  else fitint ty (m == 1) (intOf ty a - intOf ty b)

/-- ADDS and SUBS (R401, R529). -/
def laneAdds (ty : Ty) (a b : Nat) : LaneRes := satint ty (intOf ty a + intOf ty b)
def laneSubs (ty : Ty) (a b : Nat) : LaneRes := satint ty (intOf ty a - intOf ty b)

/-- MUL (R156, R468). -/
def laneMul (x : Axc) (ty : Ty) (m : BitVec 4) (a b : Nat) : LaneRes :=
  if isFl ty then
    let va := readFtz ty x.ftz a
    let vb := readFtz ty x.ftz b
    let (v, f) := mulVal va vb
    let (y, g) := roundVal ty (rmode x m) x.ftz v
    (y, sigFl [va, vb] ||| f ||| g)
  else fitint ty (m == 1) (intOf ty a * intOf ty b)

/-- MULH: the high half of the exact double-width product (R156). -/
def laneMulh (ty : Ty) (a b : Nat) : LaneRes :=
  (wrapint ty ((intOf ty a * intOf ty b) / (2 ^ Ty.width ty : Int)), flNone)

/-- FMA: one rounding; 0 × ∞ is invalid whatever c is (R442). -/
def laneFma (x : Axc) (ty : Ty) (m : BitVec 4) (a b c : Nat) : LaneRes :=
  let va := readFtz ty x.ftz a
  let vb := readFtz ty x.ftz b
  let vc := readFtz ty x.ftz c
  let r := rmode x m
  let (p, f) := mulVal va vb
  let (v, g) := addVal r p vc
  let (y, h) := roundVal ty r x.ftz v
  (y, sigFl [va, vb, vc] ||| f ||| g ||| h)

/-- DIV (R159, R166, R437); the second answer is true when TDZ makes the firing a fault. -/
def laneDiv (x : Axc) (ty : Ty) (m : BitVec 4) (a b : Nat) : LaneRes × Bool :=
  if isFl ty then
    let va := readFtz ty x.ftz a
    let vb := readFtz ty x.ftz b
    let (v, f) := divVal va vb
    let (y, g) := roundVal ty (rmode x m) x.ftz v
    ((y, sigFl [va, vb] ||| f ||| g), false)
  else
    let ia := intOf ty a
    let ib := intOf ty b
    if ib = 0 then ((0, flDZ), x.tdz)
    else if Ty.signed ty && ia = intMin ty && ib = -1 then ((wrapint ty (intMin ty), flOF), false)
    else ((wrapint ty (Int.tdiv ia ib), flNone), false)

/-! ### Comparison (R163, R429) -/

/-- A condition on an order; none is unordered. -/
def condHolds (c : Nat) (o : Option Ordering) : Bool :=
  match c, o with
  | 0, some o => o == .eq
  | 1, some o => o != .eq
  | 1, none => true
  | 2, some o => o == .lt
  | 3, some o => o != .gt
  | 4, some o => o == .gt
  | 5, some o => o != .lt
  | 6, none => true
  | 7, some _ => true
  | _, _ => false

/-- CMP of one lane: 1 or 0. -/
def laneCmp (x : Axc) (ty : Ty) (m : BitVec 4) (a b : Nat) : LaneRes :=
  if isFl ty then
    let va := readFtz ty x.ftz a
    let vb := readFtz ty x.ftz b
    ((condHolds m.toNat (cmpVal va vb)).toNat, sigFl [va, vb])
  else ((condHolds m.toNat (some (compare (intOf ty a) (intOf ty b)))).toNat, flNone)

/-- A value as a pattern, exactly. -/
def exactPat (ty : Ty) (v : Val) : Nat := (roundVal ty .rne false v).1

/-- MAX or MIN (R163, R464): −0 is below +0, one NaN gives the other operand, two give the canonical NaN. -/
def laneMinMax (mx : Bool) (x : Axc) (ty : Ty) (a b : Nat) : LaneRes :=
  if isFl ty then
    let va := readFtz ty x.ftz a
    let vb := readFtz ty x.ftz b
    let f := sigFl [va, vb]
    if va.isNan && vb.isNan then (canonNan ty, f)
    else if va.isNan then (exactPat ty vb, f)
    else if vb.isNan then (exactPat ty va, f)
    else
      let o : Ordering :=
        match cmpVal va vb with
        | some .eq => if va.neg == vb.neg then .eq else if va.neg then .lt else .gt
        | some o => o
        | none => .eq
      (exactPat ty (if (o != .lt) == mx then va else vb), f)
  else
    let ia := intOf ty a
    let ib := intOf ty b
    (wrapint ty (if mx then max ia ib else min ia ib), flNone)

/-- CLAMP: MIN(MAX(x, lo), hi) (R427). -/
def laneClamp (x : Axc) (ty : Ty) (a lo hi : Nat) : LaneRes :=
  let (y, f) := laneMinMax true x ty a lo
  let (z, g) := laneMinMax false x ty y hi
  (z, f ||| g)

/-- ABS (R158, R401). -/
def laneAbs (ty : Ty) (m : BitVec 4) (a : Nat) : LaneRes :=
  if isFl ty then (if a &&& signBit ty ≠ 0 then a - signBit ty else a, flNone)
  else fitint ty (m == 1) ((intOf ty a).natAbs : Int)

/-- NEG (R158, R480). -/
def laneNeg (ty : Ty) (m : BitVec 4) (a : Nat) : LaneRes :=
  if isFl ty then (a ^^^ signBit ty, flNone) else fitint ty (m == 1) (-(intOf ty a))

/-! ### Bits, shifts and counts (R157, R402, R506, R509) -/

def laneAnd (a b : Nat) : LaneRes := (a &&& b, flNone)
def laneAndn (ty : Ty) (a b : Nat) : LaneRes := (a &&& (b ^^^ (2 ^ Ty.width ty - 1)), flNone)
def laneOr (a b : Nat) : LaneRes := (a ||| b, flNone)
def laneXor (a b : Nat) : LaneRes := (a ^^^ b, flNone)

/-- The shift count: the low log2(width) bits of B (R157). -/
def shiftCount (ty : Ty) (b : Nat) : Nat := b % Ty.width ty

/-- SHL, saturating under .sat (R509). -/
def laneShl (ty : Ty) (m : BitVec 4) (a b : Nat) : LaneRes :=
  let w := Ty.width ty
  let c := shiftCount ty b
  let y := a * 2 ^ c % 2 ^ w
  if m == 1 then
    if Ty.signed ty then
      let s := intOf ty a
      if intOf ty y = s * 2 ^ c then (y, flNone)
      else (wrapint ty (if s ≥ 0 then intMax ty else intMin ty), flSA)
    else if a * 2 ^ c < 2 ^ w then (y, flNone) else (2 ^ w - 1, flSA)
  else (y, flNone)

def laneShr (ty : Ty) (a b : Nat) : LaneRes := (a / 2 ^ shiftCount ty b, flNone)

/-- SAR: copies of the top bit enter, for unsigned types too (R509). -/
def laneSar (ty : Ty) (a b : Nat) : LaneRes :=
  let w := Ty.width ty
  let s : Int := if a ≥ 2 ^ (w - 1) then (a : Int) - 2 ^ w else a
  (wrapint ty (s / (2 ^ shiftCount ty b : Int)), flNone)

def laneRot (ty : Ty) (a b : Nat) : LaneRes :=
  let w := Ty.width ty
  let c := shiftCount ty b
  ((a * 2 ^ c + a / 2 ^ (w - c)) % 2 ^ w, flNone)

/-- CLZ (R428). -/
def laneClz (ty : Ty) (a : Nat) : LaneRes := (if a = 0 then Ty.width ty else Ty.width ty - 1 - Nat.log2 a, flNone)

/-- Set bits among the lowest k. -/
def popCount (a : Nat) : Nat → Nat
  | 0 => 0
  | k + 1 => a % 2 + popCount (a / 2) k

/-- POPC (R488). -/
def lanePopc (ty : Ty) (a : Nat) : LaneRes := (popCount a (Ty.width ty), flNone)

/-! ### Elementary functions (R166, R167) -/

/-- The rounding of a faithful function: directed modes are correctly rounded, to nearest takes the neighbour that the free
value names for this opcode, type and operand (R167). -/
def faithful (op : Nat) (ty : Ty) (r : Round) (a : Nat) : Round :=
  match r with
  | .rne => .side (Config.faithfulUp op (codeOfTy ty).toNat a)
  | r => r

/-- Rounds a guarded magnitude. -/
def roundQuot (ty : Ty) (r : Round) (ftz neg : Bool) (q : Nat × Nat × Bool) : LaneRes :=
  let z := roundMag ty r ftz neg q.1 q.2.1 q.2.2
  (z.raw, z.fl)

def laneRcp (x : Axc) (ty : Ty) (m : BitVec 4) (a : Nat) : LaneRes :=
  let va := readFtz ty x.ftz a
  let (v, f) := divVal (.fin false 1 1) va
  let (y, g) := roundVal ty (rmode x m) x.ftz v
  (y, sigFl [va] ||| f ||| g)

def laneSqrt (x : Axc) (ty : Ty) (m : BitVec 4) (a : Nat) : LaneRes :=
  match readFtz ty x.ftz a with
  | .nan s => (canonNan ty, if s then flIV else flNone)
  | .inf s => if s then (canonNan ty, flIV) else (infPattern ty, flNone)
  | .fin s n d =>
    if n = 0 then (if s then signBit ty else 0, flNone)
    else if s then (canonNan ty, flIV)
    else roundQuot ty (rmode x m) x.ftz false (sqrtQuot n d)

def laneRsq (x : Axc) (ty : Ty) (m : BitVec 4) (a : Nat) : LaneRes :=
  match readFtz ty x.ftz a with
  | .nan s => (canonNan ty, if s then flIV else flNone)
  | .inf s => if s then (canonNan ty, flIV) else (0, flNone)
  | .fin s n d =>
    if n = 0 then (infPattern ty + (if s then signBit ty else 0), flDZ)
    else if s then (canonNan ty, flIV)
    else roundQuot ty (faithful 0x2F ty (rmode x m) a) x.ftz false (sqrtQuot d n)

def laneExp2 (x : Axc) (ty : Ty) (m : BitVec 4) (a : Nat) : LaneRes :=
  match readFtz ty x.ftz a with
  | .nan s => (canonNan ty, if s then flIV else flNone)
  | .inf s => (if s then 0 else infPattern ty, flNone)
  | .fin s n d => roundQuot ty (faithful 0x31 ty (rmode x m) a) x.ftz false (exp2Quot s n d)

def laneLog2 (x : Axc) (ty : Ty) (m : BitVec 4) (a : Nat) : LaneRes :=
  match readFtz ty x.ftz a with
  | .nan s => (canonNan ty, if s then flIV else flNone)
  | .inf s => if s then (canonNan ty, flIV) else (infPattern ty, flNone)
  | .fin s n d =>
    if n = 0 then (infPattern ty + signBit ty, flDZ)
    else if s then (canonNan ty, flIV)
    else
      let (g, q) := log2Quot n d
      roundQuot ty (faithful 0x32 ty (rmode x m) a) x.ftz g q

/-! ### Conversion (R165, R171, R172) -/

/-- A converted lane: pattern, flags and LFSR afterwards. -/
structure ConvRes where
  raw  : Nat
  fl   : Fl
  lfsr : W32
  deriving DecidableEq, Repr

/-- The rounding of CVT and QNT: code 4 is stochastic on LFSR[23:0] (R165). -/
def convRound (x : Axc) (m : BitVec 4) (lfsr : W32) : Round :=
  if m.toNat % 8 = 4 then .sr (lfsr.toNat % 2 ^ 24) else rmode x m

/-- What an overflow gives in an 8-bit target: the largest finite value, or under MOD[3] the R164 result with a NaN where the
type has no infinity (R171). -/
def lowOverflow (ty : Ty) (alt toInf neg : Bool) : Nat :=
  if alt && toInf then (if ty = .e5 then infPattern ty + (if neg then signBit ty else 0) else canonNan ty)
  else maxFinite ty + (if neg then signBit ty else 0)

/-- An exact value to an integer: rounded, then saturated (R171). -/
def valToInt (ty : Ty) (r : Round) (v : Val) : Nat × Fl × Bool :=
  match v with
  | .nan _ => (0, flIV, false)
  | .inf s => (wrapint ty (if s then intMin ty else intMax ty), flSA, false)
  | .fin s n d =>
    let q := n / d
    let rem := n % d
    let k := if rem ≠ 0 && roundsUp r s (q % 2 == 0) rem d false then q + 1 else q
    let (y, f) := satint ty (if s then -(k : Int) else k)
    (y, f ||| (if rem = 0 then flNone else flNX), rem ≠ 0)

/-- An exact value to a float type (R171); the last answer says whether a rounding took place. -/
def valToFloat (ty : Ty) (r : Round) (ftz alt : Bool) (v : Val) : Nat × Fl × Bool :=
  let low := ty = .e4 || ty = .e5 || ty = .l6
  match v with
  | .nan _ => (canonNan ty, flNone, false)
  | .inf s =>
    if low then (if alt then (lowOverflow ty true true s, flNone, false) else (lowOverflow ty false true s, flOF ||| flNX, false))
    else (infPattern ty + (if s then signBit ty else 0), flNone, false)
  | .fin s n d =>
    let z := roundMag ty r ftz s n d false
    if z.ovf && low then (lowOverflow ty alt (overflowInf r s) s, z.fl, true) else (z.raw, z.fl, z.nx)

/-- Converts an exact value to the target type (R171). LFSR steps once when a stochastic rounding took place (R165). -/
def convVal (x : Axc) (dty : Ty) (m : BitVec 4) (lfsr : W32) (v : Val) : ConvRes :=
  let r := convRound x m lfsr
  let (y, f, nx) := if Ty.isInt dty then valToInt dty r v else valToFloat dty r x.ftz (m.toNat ≥ 8) v
  ⟨y, f, if nx && m.toNat % 8 == 4 then lfsrStep lfsr else lfsr⟩

/-- The exact value of a source lane of a conversion. -/
def sourceVal (x : Axc) (sty : Ty) (a : Nat) : Val :=
  if Ty.isInt sty then
    let i := intOf sty a
    .fin (i < 0) i.natAbs 1
  else readFtz sty x.ftz a

/-- CVT of one lane (R436); between equal float types the value stays, but for NaNs. -/
def laneCvt (x : Axc) (sty dty : Ty) (m : BitVec 4) (lfsr : W32) (a : Nat) : ConvRes :=
  if Ty.isInt sty && Ty.isInt dty then
    let (y, f) := fitint dty (m.toNat ≥ 8) (intOf sty a)
    ⟨y, f, lfsr⟩
  else
    let v := sourceVal x sty a
    let r := if sty = dty then ⟨(roundVal dty .rne x.ftz v).1, flNone, lfsr⟩ else convVal x dty m lfsr v
    { r with fl := sigFl [v] ||| r.fl }

/-- QNT of one lane by an FP32 scale (R172, R493). -/
def laneQnt (x : Axc) (sty dty : Ty) (m : BitVec 4) (lfsr : W32) (a scale : Nat) : ConvRes :=
  let v := sourceVal x sty a
  let s := readFtz .f32 x.ftz scale
  let (q, f) := divVal v s
  let r := convVal x dty m lfsr q
  { r with fl := sigFl [v, s] ||| f ||| r.fl }

/-! ### Channel decoding (R131) -/

/-- Decodes one element of a channel's format into f32: v × s rounded once. -/
def chanDecode (ftz : Bool) (fmt : Ty) (scaleOn : Bool) (scale : Nat) (raw : Nat) : LaneRes :=
  let v : Val :=
    if Ty.isInt fmt then
      let i := intOf fmt raw
      .fin (i < 0) i.natAbs 1
    else readFtz fmt ftz raw
  let s : Val := if scaleOn then readFtz .f32 ftz scale else .fin false 1 1
  match v, s with
  | .nan _, _ => (canonNan .f32, flNone)
  | .inf _, _ => (canonNan .f32, flNone)
  | _, .nan _ => (canonNan .f32, flNone)
  | .fin a n _, .inf b =>
    if n = 0 then (canonNan .f32, flNone) else (infPattern .f32 + (if a != b then signBit .f32 else 0), flNone)
  | .fin a n d, .fin b n' d' => roundVal .f32 .rne ftz (.fin (a != b) (n * n') (d * d'))

/-! ### Sums in order (R173, R174) -/

/-- One level of the tree: neighbours are added. -/
def treeLevel (add : Nat → Nat → LaneRes) : List Nat → List Nat × Fl
  | a :: b :: xs =>
    let (y, f) := add a b
    let (ys, g) := treeLevel add xs
    (y :: ys, f ||| g)
  | xs => (xs, flNone)

/-- The tree sum of a power of two of lanes (R173); the fuel is the number of levels. -/
def treeSum (add : Nat → Nat → LaneRes) : Nat → List Nat → LaneRes
  | 0, xs => (xs.headD 0, flNone)
  | k + 1, xs =>
    if xs.length ≤ 1 then (xs.headD 0, flNone)
    else
      let (ys, f) := treeLevel add xs
      let (y, g) := treeSum add k ys
      (y, f ||| g)

/-- The running sums after a first value (R174). -/
def scanFrom (add : Nat → Nat → LaneRes) (acc : Nat) : List Nat → List Nat × Fl
  | [] => ([], flNone)
  | x :: xs =>
    let (y, f) := add acc x
    let (ys, g) := scanFrom add y xs
    (y :: ys, f ||| g)

/-- The prefix sums of lanes (R174). -/
def scanSum (add : Nat → Nat → LaneRes) : List Nat → List Nat × Fl
  | [] => ([], flNone)
  | x :: xs => let (ys, f) := scanFrom add x xs; (x :: ys, f)

/-! ### Update operations (R215, R404, R417) -/

/-- op of R215 on patterns, with the rounding and FTZ of the place it is performed at. -/
def updateOp (op : Nat) (ty : Ty) (r : Round) (ftz : Bool) (old b : Nat) : LaneRes :=
  match op with
  | 0 => (wrapint ty (intOf ty old + intOf ty b), flNone)
  | 1 => (wrapint ty (min (intOf ty old) (intOf ty b)), flNone)
  | 2 => (wrapint ty (max (intOf ty old) (intOf ty b)), flNone)
  | 3 => (old &&& b, flNone)
  | 4 => (old ||| b, flNone)
  | 5 => (old ^^^ b, flNone)
  | 6 => (b, flNone)
  | _ =>
    let va := readFtz ty ftz old
    let vb := readFtz ty ftz b
    let (v, f) := addVal r va vb
    let (y, g) := roundVal ty r ftz v
    (y, sigFl [va, vb] ||| f ||| g)

end Sys2Proof.Machine
end

