-- ==== Sys2Proof/Machine/State.lean ====
section
/-! DEFINITION. The state of a module: elements, cores, regions, engines, memories, partitions and the network, and the choices the
spec leaves open. Everything is plain data. Collections that are mostly empty are sorted lists of keys and values
(SMap); an element or core that is not listed reads as its reset value. -/

namespace Sys2Proof.Machine

open Sys2Proof

/-! ### Tokens -/

/-- Token kinds (R121). -/
inductive Kind
  | data | eor | eot | eos | sect | tail | mxc | cfg
  deriving DecidableEq, Repr

/-- A token: kind, tag, plane (true for control), whether a control token has a second word, its payload (control words in bits
[31:0] and [63:32]), and whether it sits in a shared queue slot (R46, R120, R121, R129). -/
structure Token where
  kind : Kind
  tag  : BitVec 3
  ctl  : Bool
  nw   : Bool
  pay  : VW
  shr  : Bool
  deriving DecidableEq, Repr

/-- A route entry (R105, R124): an element and queue of the region, or a port of a region core. -/
structure Route where
  port : Bool
  dx   : Nat
  dy   : Nat
  /-- Destination EXY, or the port number. -/
  de   : Nat
  dvc  : Nat
  pack : Bool
  cls  : Nat
  tap  : Option Nat
  deriving DecidableEq, Repr

/-- A channel-table entry (R106, R131). -/
structure Chan where
  fmt   : Ty
  scOn  : Bool
  resv  : Nat
  scale : W32
  deriving DecidableEq, Repr

/-- The default entry of R106. -/
def Chan.default : Chan := ⟨.n32, false, 0, 0⟩

/-! ### Elements -/

/-- ST of a firing-slot record (R45). -/
inductive SlotSt
  | held | late | engine
  deriving DecidableEq, Repr

/-- A fault record (R373). -/
structure FaultRec where
  code : Nat
  flg  : Nat
  src  : Nat
  elid : Nat
  tix  : Nat
  slot : Nat
  addr : W64
  lrec : W64
  cutn : Nat
  det  : W32
  word : W128
  tns  : W64
  prog : Nat
  rseq : Nat
  deriving DecidableEq, Repr

/-- A firing slot: the fields of R45, and with them the decoded operation, the order of issue, the tag its token takes, the
stage its operation has reached and the flags raised by reading its operands. -/
structure Slot where
  tix   : Nat
  word  : W128
  ins   : Instr
  st    : SlotSt
  chn   : Nat
  cseq  : W32
  prog  : Nat
  opa   : VW
  opb   : VW
  opc   : VW
  lres  : VW
  seq   : Nat
  tagq  : BitVec 3
  fl    : W32
  /-- The access or the operand is a vector (R414, R416). -/
  wide  : Bool
  /-- 0 issued, 1 sent on or registered, 2 payload performed, 3 performed: the firing may complete. -/
  stage : Nat
  /-- The forced cut of R369 before the operation: 0 not asked, 1 asked, 2 taken. -/
  cut   : Nat
  /-- A write that would pass the held-line budget (R367): 1 while it waits for a forced cut to release lines, 2 while that cut's commit
  performs it; else 0. -/
  full  : Nat
  /-- A fault of this firing is being served. -/
  held  : Bool
  /-- What the unit that performs the operation keeps of it beside the record: accesses done, the word a deferred LDW waits for, or the
  cycle in which an ISTEP completes. -/
  sub   : Nat
  /-- Records an ISAVE has read and not yet written. -/
  buf   : List Byte
  /-- One past the number of the last FENCE at element scope that this operation stood before and did not hold (R204, R205). -/
  passed : Nat
  /-- The fault that has diverted an update token to a siding, until it is applied (R218, R371). -/
  side   : Option FaultRec
  /-- The channel entries that the first and second source were read under, of a vc operation (R70, R132). -/
  dec    : List Chan
  deriving DecidableEq, Repr

/-- Bank quarter modes (R103, R178). -/
inductive QMode
  | scr | map | rng | wgt
  deriving DecidableEq, Repr

/-- A watch (R224, R356): virtual and device address, value, condition ne, target place, and the cycle its place is marked in
once satisfied. -/
structure Watch where
  addr  : Nat
  phys  : Nat
  /-- The word lies in a native page, which is plaintext (R193, R196). -/
  raw   : Bool
  value : W32
  ne    : Bool
  place : Nat
  due   : Option Nat
  deriving DecidableEq, Repr

/-- A token in the output buffer with its label. -/
structure OutTok where
  label : Nat
  tok   : Token
  deriving DecidableEq, Repr

/-- A place that PSET or PADD sets (R486): its number, the 5-bit operand, plus 32 for PADD, and of its firing the update, D and tag. -/
structure PlaceSet where
  place : Nat
  code  : Nat
  t     : TU
  d     : Dst
  tag   : BitVec 3
  deriving DecidableEq, Repr

/-- What a completion applies (R31): register writes, places marked, reservations released, flags, and the tokens still to enter
the output buffer. -/
structure Effect where
  slot  : Option Nat
  seq   : Nat
  sregs : List (Nat × W32)
  vregs : List (Nat × VW)
  marks : List Nat
  frees : List Nat
  toks  : List OutTok
  fl    : W32
  lfsr  : Option W32
  /-- Place counts set (PSET, PADD), and special registers written by number (TAG, WRSR). -/
  sets  : List PlaceSet
  spec  : List (Nat × W64)
  deriving DecidableEq, Repr

/-- A bank row's pre-image and the interval that wrote it (R366), and whether a MAP fill did (R180). -/
structure UndoRow where
  row      : Nat
  pre      : VW
  interval : Nat
  fill     : Bool
  deriving DecidableEq, Repr

/-- One bank element (R17, R356). -/
structure Elem where
  cnt      : Vector (BitVec 4) 16
  resv     : Vector (BitVec 4) 16
  cap      : Vector (BitVec 4) 16
  lfp      : Vector (BitVec 5) 8
  slots    : Vector (Option Slot) 8
  queues   : Vector (List Token) 32
  pool     : Vector W128 32
  s        : Vector W32 16
  v        : Vector VW 16
  w0       : BitVec 4096
  w1       : BitVec 4096
  routes   : List (Nat × Route)
  chans    : Vector Chan 32
  axc      : W32
  axs      : W32
  tagr     : W32
  lfsr     : W32
  /-- Sequence counters of chains 1 to 7 (R209). -/
  cseq     : Vector W32 7
  pcFire   : W64
  pcStall  : W64
  pcBeat   : W64
  /-- One past the cycle each counter was last written in (R546). -/
  pcW      : Vector Nat 3
  /-- Bank bytes that are not zero, by address. -/
  bank     : List Host.Cell
  bmode    : Vector QMode 4
  qbase    : Vector W64 4
  /-- Device addresses the bases translate to, bound at launch start (R179). -/
  qphys    : Vector W64 4
  /-- Base last loaded into a WGT quarter (R183). -/
  wgtBase  : Vector (Option W64) 4
  /-- Filled granules of MAP quarters, by bank address div 512, and the device address each was filled from (R180, R195). -/
  filled   : List (Nat × Nat)
  /-- Dirty bytes of filled granules, by bank address. -/
  dirty    : List Nat
  watch    : Vector (Option Watch) 4
  pairMode : Bool
  sink     : Bool
  w1Active : Bool
  inRect   : Bool
  /-- ACCB of the last rectangle this element was the south edge of in the launch (R470). -/
  accb     : Option Nat
  /-- The output buffer of both planes in the order of emission, each token with the number of firings issued when it entered. -/
  out      : List (Nat × OutTok)
  /-- Completions that wait for the output buffer, oldest first (R34); one without a slot is single-cycle. -/
  waiting  : List Effect
  /-- One past the last cycle in which a token of each plane was injected (R126). -/
  injD     : Nat
  injC     : Nat
  /-- A fault of a single-cycle firing waits for its retry (R371). -/
  stuck    : Bool
  /-- Posted operations accepted and not yet performed, in issue order (R206). -/
  posted   : List Slot
  /-- The number the next issue takes. -/
  nseq     : Nat
  /-- The last completion of a cycle: cycle and issue number (R32). -/
  lastDone : Nat × Nat
  /-- The DATA payload last sent on a route label, when no other token followed it (R146). -/
  sent     : List (Nat × VW)
  shadowN  : Nat
  markN    : Nat
  undo     : List UndoRow
  /-- The element has passed the tail lamp of a drain on (R361). -/
  tailed   : Bool
  /-- One past the last cycle in which a matrix pass took the bank port, and in which a bank operation waited for it (R281). -/
  portAt   : Nat
  portWait : Nat
  /-- The first cycle in which the accesses granted so far leave the bank port free (R419). -/
  bankAt   : Nat
  deriving DecidableEq, Repr

/-- An element at reset: the launch-start state of R92 with the defaults of R104 (log 7); LFSR is 0x6C07_8965 XOR ELID (R154). -/
def Elem.reset (elid : Nat) : Elem :=
  { cnt := Vector.replicate 16 0, resv := Vector.replicate 16 0, cap := Vector.replicate 16 1,
    lfp := Vector.replicate 8 31, slots := Vector.replicate 8 none, queues := Vector.replicate 32 [],
    pool := Vector.replicate 32 0, s := Vector.replicate 16 0, v := Vector.replicate 16 0, w0 := 0, w1 := 0, routes := [],
    chans := Vector.replicate 32 Chan.default, axc := 0, axs := 0, tagr := 0,
    lfsr := 0x6C078965#32 ^^^ BitVec.ofNat 32 elid, cseq := Vector.replicate 7 0, pcFire := 0, pcStall := 0, pcBeat := 0,
    pcW := Vector.replicate 3 0,
    bank := [], bmode := Vector.replicate 4 .scr, qbase := Vector.replicate 4 0, qphys := Vector.replicate 4 0, wgtBase := Vector.replicate 4 none,
    filled := [], dirty := [], watch := Vector.replicate 4 none, pairMode := false, sink := false, w1Active := false,
    inRect := false, accb := none, out := [], waiting := [], injD := 0, injC := 0, stuck := false, posted := [], nseq := 0, lastDone := (0, 0),
    sent := [], shadowN := 0, markN := 0, undo := [], tailed := false, portAt := 0, portWait := 0, bankAt := 0 }

/-! ### Cores -/

/-- A registered BARW (R229): element, slot, phase, place, and the cycle its place is marked once the phase differs. -/
structure BarWait where
  elem  : Nat
  slot  : Nat
  ph    : Bool
  place : Nat
  due   : Option Nat
  deriving DecidableEq, Repr

/-- A barrier record (R226) with its held BARAs (element and slot), held taps and registered BARWs (R228, R409). -/
structure Bar where
  pend  : W64
  exp   : BitVec 16
  arr   : BitVec 16
  ph    : Bool
  arm   : Bool
  heldB : List (Nat × Nat)
  heldT : Nat
  /-- Tap arrivals of elements that have taken the shadow of a cut their core is not yet captured for (R556). -/
  cutT  : Nat
  waits : List BarWait
  /-- One past the cycle of the last flip. -/
  flipAt : Nat
  deriving DecidableEq, Repr

/-- A zero record (R92). -/
def Bar.zero : Bar := ⟨0, 0, 0, false, false, [], 0, 0, [], 0⟩

/-- A stream port (R107, R355, R511). -/
structure Port where
  out     : Bool
  exy     : Nat
  vc      : Nat
  ty      : Ty
  ctl     : Bool
  /-- Values of the image, with relocations bound (R114). -/
  imgBase   : W64
  imgStride : W32
  imgTsrx   : Nat
  base    : W64
  stride  : W32
  tsrx    : Nat
  /-- An indirect port: its record has BASE 0, not relocated, and STRIDE 0 (R263). -/
  ind     : Bool
  /-- The number of the region whose image gave the record: two launches may share a core (R387). -/
  reg     : Nat
  /-- BASE, STRIDE and TSRX as they stood when the current or last window opened: an SPARM never changes an open window (R514). -/
  wbase   : W64
  wstride : W32
  wtsrx   : Nat
  open_   : Bool
  bySopen : Bool
  discard : Bool
  auto    : Bool
  wcnt    : Nat
  wfst    : W64
  disc    : Nat
  /-- Next index to read, next index to deliver or write. -/
  cursor  : Nat
  next    : Nat
  /-- Tokens read ahead and not delivered, oldest first. -/
  ahead   : List Token
  /-- Markers due after the token last delivered, oldest first (R97). -/
  due     : List Token
  /-- Tokens that have reached an out port, oldest first (R130). -/
  waitq   : List Token
  /-- Tokens a SCAT or STASH has taken and not written (R355). -/
  heldq   : List Token
  /-- A fault holds the port's access. -/
  held    : Bool
  /-- The forced cut of R555: 0 not asked, 1 asked, 2 taken. -/
  cut     : Nat
  /-- As in Slot (R367). -/
  full    : Nat
  /-- Number of the last SECT made or taken. -/
  sectN   : Nat
  /-- DATA tokens delivered or written in the window. -/
  count   : Nat
  /-- The indirect command the port serves: element and slot (R263). -/
  cmd     : Option (Nat × Nat)
  /-- A drain has stopped the port and put TAIL after its tokens (R361), or TAIL has reached an out port. -/
  tailed  : Bool
  deriving DecidableEq, Repr

/-- An integrator cell (R286, R287). -/
structure Cell where
  yv    : W32
  rs    : W32
  ev    : W32
  zo    : BitVec 2
  hd    : BitVec 5
  patch : W64
  deriving DecidableEq, Repr

/-- A step domain (R291 to R293): divider, budget, event target, status, the step-clock cycles to its next step, one past the cycle of
its last, the steps of its arming, and the marks of its stops that are still to be made: event target and main cycle (R292). -/
structure Dom where
  div  : W32
  bud  : W32
  evt  : W32
  dst  : W32
  next : Nat
  last : Nat
  cnt  : Nat
  marks : List (W32 × Nat)
  deriving DecidableEq, Repr

/-- An integrator array (R286, R290). -/
structure IArray where
  cells : List (Nat × Cell)
  /-- Pending feed increments of f0 to f15, coded as CTL.ZO, and the second-delivery marks. -/
  fpd   : Vector (BitVec 2) 16
  fpd2  : Vector Bool 16
  doms  : Vector Dom 8
  /-- Cells and presented feeds as a step-clock cycle began, with its number, once a domain has stepped in it (R288). -/
  old   : Option (Nat × List (Nat × Cell) × Vector (BitVec 2) 16)
  deriving DecidableEq, Repr

/-- The array of R306: YV, RS, EV and ZO zero, EN 0, HD 31, WS 0; DIV 1, BUD 0, no event target. -/
def IArray.reset : IArray :=
  { cells := [], fpd := Vector.replicate 16 0, fpd2 := Vector.replicate 16 false,
    doms := Vector.replicate 8 ⟨1, 0, 0x40000, 0, 0, 0, 0, []⟩, old := none }

/-- A cell that is not listed (R306). -/
def Cell.reset : Cell := ⟨0, 0, 0, 0, 31, 0⟩

/-- One core: signal box, read-only buffer, TLB, ports, integrator array and tile buffer. -/
structure Core where
  bars  : Vector Bar 32
  /-- SINK counts that are not zero, by element number 8·ey + ex, and elements that have reported (R337). -/
  sinks : List (Nat × Nat)
  rep   : List Nat
  /-- Read-only buffer lines: device address of the line and its 128 bytes (R184). -/
  ro    : List (Nat × BitVec 1024)
  /-- Cached leaves: virtual page number of 64 KiB and leaf entry; bit 0 of the key's flag marks 2 MiB (R194). -/
  tlb   : List (Nat × W64)
  ports : Vector (Option Port) 8
  arr   : IArray
  /-- Tile buffer: queue-slot order, destination element number, VC and token (R352). -/
  tile  : List (Nat × Nat × Token)
  /-- HASH of the image the core holds and its region coordinates in it, while its configuration is the image's own (R115). -/
  img   : Option (BitVec 512 × Nat × Nat)
  /-- One past the last cycle in which the signal box applied a command or tap, and the place of the last in the order of R410. -/
  boxAt : Nat × Nat
  deriving DecidableEq, Repr

/-- A core at reset (R92). -/
def Core.reset : Core :=
  { bars := Vector.replicate 32 Bar.zero, sinks := [], rep := [], ro := [], tlb := [], ports := Vector.replicate 8 none,
    arr := IArray.reset, tile := [], img := none, boxAt := (0, 0) }

/-! ### Engines -/

/-- The engines with queues (R234, R253, R265, R314, R430). -/
inductive EngineKind
  | copy | row | mac | ind | codec | coll
  deriving DecidableEq, Repr

/-- Which memory an access is performed at. -/
inductive Space
  | dev | host | peer (m : Nat)
  deriving DecidableEq, Repr

/-- Where an address leads: the memory, the address in it, the page's TYPE and RO, and its leaf. -/
structure Loc where
  space : Space
  addr  : Nat
  ptype : Nat
  ro    : Bool
  leaf  : W64
  deriving DecidableEq, Repr

/-- A row that a command has taken on and not finished (R244, R268): its index, its address, the places it is copied to and from, its token
once it is there, and whether it has been written. -/
structure RowPlan where
  j    : Nat
  addr : Nat
  dst  : Option Loc
  src  : Option Loc
  tok  : Option Token
  done : Bool
  deriving DecidableEq, Repr

/-- A command in an engine queue (R220): its number, the firing that holds it, its region, the stage it has reached (0 waiting, 1
started, 2 payload performed, notify to come) and, for a QFEN, the entries it waits for. -/
structure Entry where
  id    : Nat
  elem  : Nat
  slot  : Nat
  reg   : Nat
  stage : Nat
  held  : Bool
  cut   : Nat
  /-- As in Slot (R367). -/
  full  : Nat
  waits : List Nat
  /-- Bytes of the current chunk already written (R321); rows that a SCAT has taken on. -/
  part  : Nat
  plan  : List RowPlan
  /-- The reconstructed chunk of an UNSTASH, until all of it is written (R321). -/
  buf   : List Byte
  /-- The number of a COLL that has started, among those of its group (R432). -/
  num   : Option Nat
  deriving DecidableEq, Repr

/-- Eight queues of 16 entries and the round-robin turn. -/
structure Engine where
  qs   : Vector (List Entry) 8
  turn : Nat
  deriving DecidableEq, Repr

def Engine.reset : Engine := ⟨Vector.replicate 8 [], 0⟩

/-- A pseudo-channel (R252): all-bank mode, its holder's region number, X0 to X15 and the accumulators, keyed by 4 × bank + group. -/
structure PChan where
  mode   : Bool
  holder : Option Nat
  xs     : Vector (BitVec 256) 16
  acc    : List (Nat × VW)
  deriving DecidableEq, Repr

def PChan.reset : PChan := ⟨false, none, Vector.replicate 16 0, []⟩

/-! ### The network -/

/-- Where a token is going: an element's queue, or a port of a core. -/
inductive Dest
  | queue (elem vc : Nat)
  | port (core k : Nat)
  deriving DecidableEq, Repr

/-- The compression modes of a data-plane beat (R146). -/
inductive LinkMode
  | raw | skip | run | zero
  deriving DecidableEq, Repr

/-- A token, or a run of equal ones, on the links (R125 to R130, R148): sender (an element, or a port as 2^20 + 8 × core + port), path
class, destination, and the tokens with their payload as the beats carry it under the mode. It stands at the link input of an element:
`link` is the link it came over, and none while it is still to cross its first. -/
structure Flight where
  src   : Nat
  cls   : Nat
  dst   : Dest
  toks  : List Token
  mode  : LinkMode
  beats : Nat
  at_   : Nat
  link  : Option Nat
  /-- The first cycle in which it may cross its next link. -/
  due   : Nat
  /-- The command it belongs to: element, slot and issue number. -/
  cmd   : Option (Nat × Nat × Nat)
  /-- Whether its token has been formed; a PIMRD's tokens keep their places from its issue (R258). -/
  ready : Bool
  deriving DecidableEq, Repr

/-! ### Faults -/

/-- What a fault is retried on (R371): a firing in a slot, a firing that issued without one, an engine command, a port, a sided token, an
operation performed after its firing completed, a tap arrival, or nothing (PRM). -/
inductive FaultAt
  | slot (elem k : Nat)
  | issue (elem tix : Nat)
  | entry (key q id : Nat)
  | port (core k : Nat)
  | posted (elem seq : Nat)
  | sided (key : Nat)
  | tap (core b : Nat)
  | none
  deriving DecidableEq, Repr

/-- A fault that waits for its retry one cycle after it was raised (R371). -/
structure PendFault where
  reg   : Nat
  frec  : FaultRec
  at_   : FaultAt
  cycle : Nat
  deriving DecidableEq, Repr

/-- A translation fault that waits for its answer (R197): the record's number, the access, and the cycle it was raised in. -/
structure Pgf where
  rseq  : Nat
  part  : Nat
  reg   : Nat
  at_   : FaultAt
  frec  : FaultRec
  cycle : Nat
  deriving DecidableEq, Repr

/-- What a violation has frozen until the hypervisor releases it (R382). -/
inductive VioAt
  | region (part queue : Nat)
  | queue (key q id : Nat)
  | func (f : Nat)
  deriving DecidableEq, Repr

/-- A page request of a PASID in the tag table (R375). -/
structure PageReq where
  tag     : Nat
  fn      : Nat
  gen     : Nat
  pasid   : Nat
  page    : Nat
  reg     : Nat
  at_     : FaultAt
  frec    : FaultRec
  /-- The cycle of the fault, and that of the function reset that retired the request. -/
  cycle   : Nat
  retired : Option Nat
  deriving DecidableEq, Repr

/-! ### Regions -/

/-- What a launch record says (R328). -/
structure LaunchRec where
  addr  : Nat
  img   : W64
  shw   : Nat
  shh   : Nat
  pri   : Nat
  intr  : Bool
  cof   : Bool
  pers  : Bool
  grain : Nat
  rbase : W64
  rcnt  : Nat
  pb    : W64
  pbsz  : Nat
  depc  : Nat
  ccu   : Nat
  ccl   : Nat
  ccg   : Nat
  ccp   : Nat
  ccj   : Nat
  sq    : Nat
  nsuc  : Nat
  quant : Nat
  succ  : List Nat
  deriving DecidableEq, Repr

/-- A line of device memory held in an interval with its pre-image (R367). -/
structure Held where
  line     : Nat
  interval : Nat
  pre      : BitVec 1024
  /-- The words, by number, whose value the interval has written and no other agent has replaced, each with its committed value. -/
  words    : List (Nat × W32)
  deriving DecidableEq, Repr

/-- A notify that waits for its interval's commit (R367). -/
structure DefNote where
  interval : Nat
  addr     : Nat
  value    : W32
  /-- The engine entry, or the posted operation, that makes it. -/
  at_      : FaultAt
  deriving DecidableEq, Repr

/-- An activation vector on its way through a rectangle (R278): its MMA's token, its number, the cycles it has moved, the vectors that the
west edge has supplied of it, row by row, and the partial sums, column by column. -/
structure Wave where
  tok  : W64
  m    : Nat
  step : Nat
  acts : List (BitVec 256)
  sums : List W32
  deriving DecidableEq, Repr

/-- A matrix rectangle, or a part of a split one (R270, R271, R283): north-west element and the whole rectangle's row in the region-wide
grid, size, MXC queue and accumulator base, the MMA in progress and the FLUSHes that wait. -/
structure Rect where
  gx    : Nat
  gy    : Nat
  top   : Nat
  w     : Nat
  h     : Nat
  mxd   : W64
  mq    : Nat
  accb  : Nat
  /-- The MMA that row 0 supplies: its token, and its next vector. -/
  mma   : Option (W64 × Nat)
  /-- Vectors that row 0 has supplied and whose last accumulator row is not written, oldest first. -/
  waves : List Wave
  /-- One past the cycle in which the pass last moved, and the first cycle after the last MMA's last accumulator row. -/
  moved : Nat
  done  : Nat
  /-- The cycle in which the first of the MMAs in progress was accepted. -/
  since : Nat
  /-- Marks of accepted FLUSHes that are still to be made: column and place (R277). -/
  flush : List (Nat × Nat)
  /-- The run's forced cut (R369): 0 not asked, 1 asked, 2 taken, 3 the run goes on. -/
  cut   : Nat
  deriving DecidableEq, Repr

/-- The phases of a region: configured, running, gated (issue stopped within the launch), stopped for its readout, frozen, drained, or
closed: completed, with RNG ranges still lent (R181). -/
inductive Phase
  | configured | running | gated | stopped | frozen | drained | closed
  deriving DecidableEq, Repr

/-- A captured region (R355, R366): elements, cores, engine commands with their engine and queue, and rectangles. -/
structure Snap where
  elems : List (Nat × Elem)
  cores : List (Nat × Core)
  cmds  : List (Nat × Nat × Entry)
  rects : List Rect
  /-- Tokens in flight, tile buffers aside, that a forced cut or freeze caught at a link input. -/
  links : List Flight
  /-- Ports captured at their SECT markers of cuts not yet complete: the cut, 8 × core + port, and the port (R556). -/
  ports : List (Nat × Nat × Port)
  /-- Out ports, as 8 × core + port, that the markers of the cut are still to reach (R364, R556). -/
  late  : List Nat
  /-- Updates accepted and not performed, by element (R217); pseudo-channels held; and STP (R262, R313). -/
  ups   : List (Nat × Slot)
  pcs   : List (Nat × PChan)
  stp   : Bool
  /-- Sided tokens that a frozen region keeps (R218, R359). -/
  sided : List (Nat × Slot)
  deriving DecidableEq, Repr

def Snap.empty : Snap := ⟨[], [], [], [], [], [], [], [], [], false, []⟩

/-- Why a region was stopped (R351, R354, R361): it decides what its record and its queue say. -/
inductive FreezeWhy
  | preempt | driver | frz | violation | pause | disable | recur | irrevocable | cutRelease | drain
  deriving DecidableEq, Repr

/-- A persistent launch's pool of units (R333): the die that holds it and the next unit. -/
structure Pool where
  die  : Nat
  next : Nat
  deriving DecidableEq, Repr

/-- A placed, frozen or drained region. -/
structure Region where
  part     : Nat
  queue    : Nat
  launch   : LaunchRec
  x0       : Nat
  y0       : Nat
  w        : Nat
  h        : Nat
  /-- The element rows of the rectangle that are the region's: all, or a part under a share entry (R387). -/
  rlo      : Nat
  rhi      : Nat
  phase    : Phase
  priv     : Bool
  hash     : BitVec 512
  secK     : Nat
  sinks    : Bool
  /-- A section input has more than one sender, so every cut is forced (R364). -/
  multi    : Bool
  /-- Shape records by index: COLS and ROWS (R108). -/
  tsr      : List (Nat × Nat × Nat)
  /-- ZERO ranges: element, offset and length (R98). -/
  zero     : List (Nat × Nat × Nat)
  /-- Initial place counts by element (R92), and integrator patches and domains of the image by core. -/
  init     : List (Nat × Vector (BitVec 4) 16)
  arrs     : List (Nat × IArray)
  unit     : Nat
  ixBase   : W64
  ixCnt    : Nat
  stp      : Bool
  /-- The current unit has completed (R337); it has been released (R338); how many units have been. -/
  unitDone : Bool
  unitRel  : Bool
  /-- The cycle the unit completed in, and whether its CCU addition is still owed (R337, R343). -/
  doneAt   : Nat
  ccu      : Bool
  /-- ERLS firings whose release waits for earlier operations and a forced cut: element, issue number and unit (R438). -/
  erls     : List (Nat × Nat × Nat)
  /-- RPULL firings that have reached the booking office, in the order they did: element and slot (R336). -/
  pulls    : List (Nat × Nat)
  nrel     : Nat
  /-- Successors have been released (R344). -/
  succRel  : Bool
  /-- An RPULL has returned 0 and no unit is current (R342). -/
  poolDone : Bool
  pool     : Option Pool
  cutN     : Nat
  /-- The cut being formed, the cycle of its first shadow, and the elements that have taken it with what they held. -/
  forming  : Option Nat
  formAt   : Nat
  newSnap  : Snap
  /-- The last complete cut. -/
  lastSnap : Snap
  /-- A forced cut is asked for. -/
  cutReq   : Bool
  /-- The cut asked for is the second of an irrevocable operation (R369). -/
  irr      : Bool
  /-- Tokens counted at in ports since the last forced cut (R365). -/
  sectTok  : Nat
  hold     : List Held
  defPres  : List (Nat × Nat)
  defNote  : List DefNote
  /-- Presence bits that a FILL has cleared in an open interval: interval and word (R241, R370). -/
  clrPres  : List (Nat × Nat)
  rects    : List Rect
  /-- The lasting faults since a cut: code and place (R372). -/
  lastFlt  : List (Nat × FaultAt)
  placedAt : Nat
  /-- The cycle the running quantum ends in; the cycle a freeze or restore began in; and the cycles of the last save (R346, R347). -/
  quantAt  : Nat
  stamp    : Nat
  saveT    : Nat
  drain    : Bool
  why      : FreezeWhy
  save     : Option Nat
  /-- Bytes of the save area written, once its readout has begun (R392). -/
  saveAt   : Option Nat
  /-- FRZ firings that have asked for a freeze: element and slot (R444). -/
  frz      : List (Nat × Nat)
  /-- The region waits for a lasting record to be written (R374). -/
  recWait  : Bool
  deriving DecidableEq, Repr

/-! ### Partitions and the device -/

/-- A launch queue (R325, R326), with the indices of entries that a cancel has removed (R348). -/
structure LQueue where
  ring : W64
  rsz  : Nat
  ctl  : W32
  head : W32
  tail : W32
  gone : List Nat
  deriving DecidableEq, Repr

def LQueue.reset : LQueue := ⟨0, 4, 0, 0, 0, []⟩

/-- A partition: the registers of R379 and its queue window (R325, R348, R354, R378). -/
structure Part where
  en     : Bool
  maint  : Bool
  pause  : Bool
  key    : Nat
  fn     : Nat
  /-- The PASID whose table the host walks for this partition, if its driver uses one (R188, R393). -/
  pasid  : Option Nat
  pvc    : W32
  pmap   : W32
  pslt   : Nat
  ptb    : W64
  pcor   : BitVec 256
  queues : List (Nat × LQueue)
  cna    : W64
  flts   : W32
  fltTmo : W32
  qflr   : W32
  pmig   : W32
  fqb    : W64
  fqsz   : Nat
  fqvec  : W32
  fqh    : W32
  fqt    : W32
  svb    : W64
  svs    : W64
  /-- Save areas taken: first 64 KiB unit and how many. -/
  saves  : List (Nat × Nat)
  mbi    : W128
  mbo    : W128
  mbv    : W32
  tofs   : W64
  tNow   : W64
  iva    : W64
  ivn    : W32
  ivgo   : Bool
  apb    : W64
  /-- T in nineteenths of a nanosecond beyond whole ones (R391). -/
  frac   : Nat
  rseq   : Nat
  /-- Lasting records that wait for the ring, oldest first, with their regions (R374). -/
  recs   : List (FaultRec × Option Nat)
  /-- The ring has been found unwritable and reported (R374). -/
  ringBad : Bool
  /-- Round-robin turns of queues: 32 × die + priority, for the dispatcher of each die (R3, R339). -/
  turn   : List (Nat × Nat)
  /-- Measured save-plus-restore times by shape, in cycles (R347). -/
  times  : List (Nat × Nat)
  /-- Successor records that wait for room in their queue: queue and record (R344). -/
  appends : List (Nat × Nat)
  /-- FLTS, FLTTMO, QFLR and PMIG as the cycle began in which a WRSR last wrote one of them, by one more than the cycle (R29). -/
  before  : Nat × List W32
  deriving DecidableEq, Repr

/-- A partition at reset (R379, R199; the registers without a reset value are log 8). -/
def Part.reset : Part :=
  { en := false, maint := false, pause := false, key := 0, fn := 0, pasid := none, pvc := 0, pmap := 0, pslt := 0, ptb := 0, pcor := 0,
    queues := [], cna := 0, flts := 0, fltTmo := 1000, qflr := 0, pmig := 0, fqb := 0, fqsz := 0, fqvec := 0, fqh := 0,
    fqt := 0, svb := 0, svs := 0, saves := [], mbi := 0, mbo := 0, mbv := 0, tofs := 0, tNow := 0, iva := 0, ivn := 0,
    ivgo := false, apb := 0, frac := 0, rseq := 0, recs := [], ringBad := false, turn := [], times := [], appends := [], before := (0, []) }

/-- TDISP states of a function (R393). -/
inductive Tdisp
  | unlocked | locked | run | error
  deriving DecidableEq, Repr

/-- A PCI function (R375, R393, R394). -/
structure Func where
  gen     : Nat
  tdisp   : Tdisp
  /-- Bus mastering has been stopped. -/
  stopped : Bool
  deriving DecidableEq, Repr

/-- The states of a block (R383, R385). -/
inductive BlkState
  | owned | removing | scrubbing | free | offered
  deriving DecidableEq, Repr

/-- A block of memory: its state and owner, and the SEQ of a notice that has not been answered (R385). -/
structure Block where
  state  : BlkState
  own    : Nat
  notice : Option Nat
  deriving DecidableEq, Repr

/-- A raised MSI-X vector and its partition; 8 is the module's own (R343, R374). -/
structure Irq where
  part : Nat
  vec  : Nat
  deriving DecidableEq, Repr

/-! ### Choices -/

/-- A choice the spec leaves open, in the order it is made: an element's turn to fire (with whether a unit takes its command at
once), a step of the part, the performing of the operation held in a slot, or of a posted one by its number, the withholding of an element's issue for
power (R399), or the end of the cycle. -/
inductive Choice
  | turn (e : Nat) (prompt : Bool)
  | event (i : Instr)
  | perform (e k : Nat)
  | performPosted (e n : Nat)
  | withhold (e : Nat)
  | tick
  deriving DecidableEq, Repr

/-- The firing a step is running: element, transition, word, trigger and update, and whether units take its command at once. -/
structure Cur where
  elem   : Nat
  tix    : Nat
  word   : W128
  prompt : Bool
  deriving DecidableEq, Repr

/-- The scalar half of a pair that waits for its vector half (R40): its register write, flags and condition. -/
structure PairHalf where
  vh   : Instr
  d    : Nat
  val  : W32
  fl   : W32
  cnd  : Bool
  /-- The pair made a marker or discard firing, or a fault, so the vector half does nothing. -/
  skip : Bool
  deriving DecidableEq, Repr

/-- The whole machine. -/
structure State where
  cycle    : Nat
  agenda   : List Choice
  cur      : Option Cur
  pairDone : Option PairHalf
  /-- Elements as they stood at the start of the cycle, for those changed in it (R24, R29). -/
  starts   : List (Nat × Elem)
  /-- Elements that have issued in this cycle (R27). -/
  issued   : List Nat
  /-- Elements whose issue is withheld in this cycle to hold the module's power (R399). -/
  withheld : List Nat
  /-- Tokens that have entered a queue in this cycle: element, queue and token (R22). -/
  arrived  : List (Nat × Nat × Token)
  /-- The work of the cycle is over: only what acts between cycles is left (log 29). -/
  closing  : Bool
  /-- Counter of the free values (log 9). -/
  free     : Nat
  /-- The number the next engine entry takes. -/
  nextId   : Nat
  elems    : List (Nat × Elem)
  cores    : List (Nat × Core)
  regions  : List (Nat × Region)
  engines  : List (Nat × Engine)
  pchans   : List (Nat × PChan)
  mem      : List Host.Cell
  /-- Device words whose presence bit is 1, by word number (R213). -/
  pres     : List Nat
  hostMem  : List Host.Cell
  peerMem  : List Host.Cell
  /-- Device lines in L2, by line number, and whether dirty (R186). -/
  l2       : List (Nat × Bool)
  /-- Translation caches of the base dies, by stack (R194). -/
  baseTlb  : List (Nat × List (Nat × W64))
  /-- Pages, by translation cache and TLB key, of which the host has answered that a PASID has no translation, and the cycle of the answer: it
  is for the accesses that wait for it, and is not cached (R194). -/
  noMap    : List (Nat × Nat × Nat)
  /-- Lines lent to RNG quarters: line number and the lending element and quarter (R181). -/
  lent     : List (Nat × Nat × Nat)
  flight   : List Flight
  /-- Links in use: a link and plane, and the first cycle in which it is free (R126). -/
  links    : List (Nat × Nat)
  /-- The physical VC a link and plane served last (R380). -/
  linkVc   : List (Nat × Nat)
  /-- Update tokens accepted by the sparse-update unit and not yet performed (R217), and those in sidings (R218). -/
  updates  : List (Nat × Slot)
  sided    : List (Nat × Slot)
  pend     : List PendFault
  pgfs     : List Pgf
  tags     : List PageReq
  parts    : Vector Part 8
  funcs    : Vector Func 9
  blocks   : List (Nat × Block)
  /-- The key each line of device memory was last written under, by line number: 0 plaintext, else the tag of an owner's key (R196). -/
  enc      : List (Nat × Nat)
  /-- Scrubbed blocks: their lines that nothing has written since are zero in DRAM (R385). -/
  scrubs   : List Nat
  blkCmd   : W64
  shtab    : Vector W128 4
  /-- Records that wait for room in the module fault ring, oldest first (R374, R377). -/
  mfq      : List FaultRec
  /-- Masters that a violation has frozen, by their record's number (R382). -/
  vios     : List (Nat × VioAt)
  plim     : W32
  ready    : Bool
  /-- The ROM recovery path waits for an image (R398). -/
  recovery : Bool
  /-- The firmware image, its signature and the identifier of its key (R398). -/
  fw       : List Byte
  fwSig    : List Byte
  fwKey    : List Byte
  /-- The last host read's answer (none is an abort) and the last attestation report (R394, R398). -/
  hostIn   : Option (List Byte)
  /-- The bytes last returned to a peer (R397). -/
  peerOut  : List Byte
  report   : List Byte
  /-- Wekan route table entries that are not 15 (R396). -/
  wrt      : List (Nat × Nat)
  /-- Bytes of window that each peer has granted, 4,096 for each unit, and that are not used (R395). -/
  windows  : List (Nat × Nat)
  /-- By group, the number the next COLL to start takes (R432). -/
  colls    : List (Nat × Nat)
  /-- Generation of the key in each slot (R389). -/
  keys     : Vector Nat 16
  /-- Migrations of a page in its running window: key, count (above 4 the page is pinned) and the cycle the window began in (R201). -/
  migr     : List (Nat × Nat × Nat)
  /-- Pages evicted and not yet brought back, by partition and page (R200). -/
  pinned   : List (Nat × Nat)
  /-- MSI-X vectors raised, oldest first. -/
  irqs     : List Irq
  /-- Registers without a behaviour of their own, by byte offset of their space (R377, R378). -/
  regs     : List (Nat × W64)
  deriving DecidableEq, Repr

/-- The module right after reset (R398): memory trained and zeroed, nothing placed; the rest is named in the log. -/
def State.reset : State :=
  { cycle := 0, agenda := [], cur := none, pairDone := none, starts := [], issued := [], withheld := [], arrived := [], closing := false, free := 0, nextId := 0,
    elems := [], cores := [], regions := [], engines := [], pchans := [], mem := [], pres := [], hostMem := [], peerMem := [],
    l2 := [], baseTlb := [], noMap := [], lent := [], flight := [], links := [], linkVc := [], updates := [], sided := [], pend := [], pgfs := [], tags := [],
    parts := Vector.replicate 8 Part.reset, funcs := Vector.replicate 9 ⟨0, .unlocked, false⟩, blocks := [],
    enc := [], scrubs := [], blkCmd := 0, shtab := Vector.replicate 4 0, mfq := [], vios := [], plim := 0, ready := false, recovery := false, fw := [], fwSig := [], fwKey := [], hostIn := none, peerOut := [],
    report := [],
    wrt := [], windows := [], colls := [], keys := Vector.replicate 16 0, migr := [], pinned := [], irqs := [], regs := [] }

/-! ### How a step stops -/

/-- A fault of the model: the machine cannot go on. -/
inductive Fault
  /-- Raised by the step when a transition word in a pool does not decode, which the loader and CFGW rule out (R78); safe. -/
  | undecodable (elem tix : Nat)
  deriving DecidableEq, Repr

/-- Why an instruction has no meaning. -/
inductive Refusal
  /-- Raised by Dispatch for an instruction whose meaning is not written; safe. -/
  | notModelled (mnemonic : String)
  deriving DecidableEq, Repr

end Sys2Proof.Machine
end

