-- ==== Sys2Proof/Machine/Bits.lean ====
section
/-! DEFINITION. Bytes, words and lanes: the little-endian layouts of R12, R17, R62 and R63, and places on the module (R6, R7, R340). -/

namespace Sys2Proof.Machine

open Sys2Proof

/-! ### Bytes -/

/-- The n bytes of a number, least significant first (R12). -/
def bytesLE : Nat → Nat → List Byte
  | 0, _ => []
  | n + 1, w => BitVec.ofNat 8 w :: bytesLE n (w / 256)

/-- The number of some bytes, least significant first. -/
def natLE : List Byte → Nat
  | [] => 0
  | b :: bs => b.toNat + 256 * natLE bs

/-- The lanes of a vector word (R17). -/
def lanesOf (ty : Ty) (w : VW) : List Nat :=
  (List.range (Ty.lanes ty)).map fun k => w.toNat / 2 ^ (Ty.width ty * k) % 2 ^ Ty.width ty

/-- A number of lanes of the given width, lane 0 lowest. -/
def joinLanes (width : Nat) : List Nat → Nat
  | [] => 0
  | x :: xs => x % 2 ^ width + 2 ^ width * joinLanes width xs

/-- A vector word of lanes (R17). -/
def packLanes (ty : Ty) (xs : List Nat) : VW := BitVec.ofNat 512 (joinLanes (Ty.width ty) xs)

/-- Bits [hi:lo] of a number. -/
def bitsOf (n lo len : Nat) : Nat := n / 2 ^ lo % 2 ^ len

/-- sx of R80: the low n bits, sign-extended. -/
def sxInt (x n : Nat) : Int :=
  let r := x % 2 ^ n
  if r ≥ 2 ^ (n - 1) then (r : Int) - 2 ^ n else r

/-- A signed offset added to an address of the given width, modulo it. -/
def offsetAdd (width a : Nat) (d : Int) : Nat := (((a : Int) + d) % (2 ^ width : Int)).toNat

/-- Bytes an access type moves as a scalar: its width, at least a byte (R414, R452). -/
def tyBytes (ty : Ty) : Nat := Ty.width ty / 8

/-! ### Places on the module -/

/-- The core of an element (R7). -/
def coreOf (e : Nat) : Nat := e / 64

/-- Column and row of an element in its core (R7). -/
def exOf (e : Nat) : Nat := e % 64 / 8
def eyOf (e : Nat) : Nat := e % 8

/-- Column and row of a core in the module's grid of 16 × 16 (R6, R340). -/
def gridX (c : Nat) : Nat := c / 64 % 2 * 8 + c % 64 / 8
def gridY (c : Nat) : Nat := c / 128 * 8 + c % 8

/-- The core at a place of the grid. -/
def coreAt (gx gy : Nat) : Nat := (gy / 8 * 2 + gx / 8) * 64 + gx % 8 * 8 + gy % 8

/-- Column and row of an element in the module's grid of 128 × 128. -/
def elemX (e : Nat) : Nat := gridX (coreOf e) * 8 + exOf e
def elemY (e : Nat) : Nat := gridY (coreOf e) * 8 + eyOf e

/-- The element at a place of that grid. -/
def elemAt (x y : Nat) : Nat := coreAt (x / 8) (y / 8) * 64 + x % 8 * 8 + y % 8

/-- The number 8·ey + ex that save areas and SINK counts use (R337, R355). -/
def elemNo (e : Nat) : Nat := eyOf e * 8 + exOf e

/-- The die, the cluster (R8) and the die of a core. -/
def dieOf (c : Nat) : Nat := c / 64
def clusterOf (c : Nat) : Nat := dieOf c * 16 + c % 8 / 2 * 4 + c % 64 / 16

/-- Distance of two numbers. -/
def dist (a b : Nat) : Nat := (a - b) + (b - a)

/-- The hop count of R127 between two elements. -/
def hops (a b : Nat) : Nat :=
  if a = b then 1
  else
    let ax := elemX a; let ay := elemY a; let bx := elemX b; let byy := elemY b
    dist ax bx + dist ay byy + 2 * (dist (ax / 8) (bx / 8) + dist (ay / 8) (byy / 8)) +
      24 * (dist (ax / 64) (bx / 64) + dist (ay / 64) (byy / 64))

end Sys2Proof.Machine
end

