-- ==== Sys2Proof/Machine/Ops.lean ====
section
/-! DEFINITION. The named operations over the state: bytes of memories, elements, cores, regions, engines, places, tokens, effects
of a completion, watches, held lines, and the raising of a fault. -/

namespace Sys2Proof.Machine

open Sys2Proof

/-! ### Bytes of a memory (R185): a canonical list; a byte that is not listed reads as zero -/

/-- The byte at an address. -/
def Memory.byte (m : List Host.Cell) (a : Nat) : Byte := ((m.find? fun c => c.1 == a).map Prod.snd).getD 0

/-- n bytes from an address upward. -/
def Memory.read (m : List Host.Cell) (a n : Nat) : List Byte := (List.range n).map fun i => Memory.byte m (a + i)

/-- The cells of a run of bytes; zero bytes are not listed. -/
def Memory.cells (a : Nat) : List Byte → List Host.Cell
  | [] => []
  | b :: bs => if b = 0 then Memory.cells (a + 1) bs else (a, b) :: Memory.cells (a + 1) bs

/-- Writes a run of bytes. -/
def Memory.write (m : List Host.Cell) (a : Nat) (bs : List Byte) : List Host.Cell :=
  m.filter (fun c => c.1 < a) ++ (Memory.cells a bs ++ m.filter (fun c => a + bs.length ≤ c.1))

/-- The canonical form: addresses strictly rise and no listed byte is zero. -/
abbrev Memory.wf (m : List Host.Cell) : Prop := m.Pairwise (fun x y => x.1 < y.1) ∧ ∀ c ∈ m, c.2 ≠ 0

/-- Sets or clears membership in a strictly rising list of numbers. -/
def insertNat (a : Nat) : List Nat → List Nat
  | [] => [a]
  | x :: xs => if a < x then a :: x :: xs else if a = x then x :: xs else x :: insertNat a xs

def eraseNat (a : Nat) (xs : List Nat) : List Nat := xs.filter fun x => x != a

/-- Takes one of n: a free value where there is a choice (log 9). -/
def State.pick (s : State) (n : Nat) : State × Nat :=
  if n ≤ 1 then (s, 0) else ({ s with free := s.free + 1 }, (Config.freeWord s.free).toNat % n)

/-! ### Elements, cores, regions and engines -/

def State.elem (s : State) (e : Nat) : Elem := SMap.get (Elem.reset e) e s.elems

/-- The element as it stood at the start of the cycle (R24, R29). -/
def State.view (s : State) (e : Nat) : Elem := (SMap.find e s.starts).getD (s.elem e)

/-- Replaces an element; the first change in a cycle keeps what it was at the start. -/
def State.setElem (s : State) (e : Nat) (x : Elem) : State :=
  { s with
    starts := (match SMap.find e s.starts with | some _ => s.starts | none => SMap.set e (s.elem e) s.starts)
    elems := SMap.set e x s.elems }

def State.modElem (s : State) (e : Nat) (f : Elem → Elem) : State := s.setElem e (f (s.elem e))

def State.core (s : State) (c : Nat) : Core := SMap.get Core.reset c s.cores
def State.setCore (s : State) (c : Nat) (x : Core) : State := { s with cores := SMap.set c x s.cores }
def State.modCore (s : State) (c : Nat) (f : Core → Core) : State := s.setCore c (f (s.core c))

/-- A core's configuration is no longer its image's own (R115). -/
def State.changed (s : State) (c : Nat) : State := s.modCore c fun k => { k with img := none }

def State.region (s : State) (r : Nat) : Option Region := SMap.find r s.regions
def State.setRegion (s : State) (r : Nat) (x : Region) : State := { s with regions := SMap.set r x s.regions }
def State.modRegion (s : State) (r : Nat) (f : Region → Region) : State :=
  match s.region r with | some x => s.setRegion r (f x) | none => s

def State.engine (s : State) (g : Nat) : Engine := SMap.get Engine.reset g s.engines
def State.setEngine (s : State) (g : Nat) (x : Engine) : State := { s with engines := SMap.set g x s.engines }

def State.pchan (s : State) (k : Nat) : PChan := SMap.get PChan.reset k s.pchans
def State.setPchan (s : State) (k : Nat) (x : PChan) : State := { s with pchans := SMap.set k x s.pchans }

def State.part (s : State) (p : Nat) : Part := vget s.parts p Part.reset
def State.setPart (s : State) (p : Nat) (x : Part) : State := { s with parts := vset s.parts p x }
def State.modPart (s : State) (p : Nat) (f : Part → Part) : State := s.setPart p (f (s.part p))

def State.port (s : State) (c k : Nat) : Option Port := vget (s.core c).ports k none
def State.setPort (s : State) (c k : Nat) (p : Port) : State :=
  s.modCore c fun x => { x with ports := vset x.ports k (some p) }
def State.modPort (s : State) (c k : Nat) (f : Port → Port) : State :=
  match s.port c k with | some p => s.setPort c k (f p) | none => s

def State.bar (s : State) (c b : Nat) : Bar := vget (s.core c).bars b Bar.zero
def State.setBar (s : State) (c b : Nat) (x : Bar) : State := s.modCore c fun k => { k with bars := vset k.bars b x }

/-- Whether a region holds cores. -/
def Region.placed (r : Region) : Bool :=
  match r.phase with | .configured | .running | .gated | .stopped | .closed => true | .frozen | .drained => false

/-- Whether a core lies in a placed region's rectangle (R340). -/
def Region.hasCore (r : Region) (c : Nat) : Bool :=
  r.placed && r.x0 ≤ gridX c && gridX c < r.x0 + r.w && r.y0 ≤ gridY c && gridY c < r.y0 + r.h

/-- Whether the region holds the first element row of a core of its rectangle. A core of a shared rectangle has one signal box and one
integrator array; they go with the launch that holds the core's first row (R387, log 111, DESIGN CHOICE). -/
def Region.holdsBox (r : Region) (c : Nat) : Bool := r.rlo ≤ 8 * (gridY c - r.y0) && 8 * (gridY c - r.y0) < r.rhi

/-- Whether an element is one of a placed region's (R340, R387). -/
def Region.hasElem (r : Region) (e : Nat) : Bool :=
  r.hasCore (coreOf e) && r.rlo ≤ elemY e - 8 * r.y0 && elemY e - 8 * r.y0 < r.rhi

/-- The placed region of an element, by number. -/
def State.regionOf (s : State) (e : Nat) : Option Nat := (s.regions.find? fun x => x.2.hasElem e).map Prod.fst

/-- The placed region that a core's signal box and array go with, by number. -/
def State.regionOn (s : State) (c : Nat) : Option Nat := (s.regions.find? fun x => x.2.hasCore c && x.2.holdsBox c).map Prod.fst

/-- The region of a port, by number. -/
def State.portReg (s : State) (c k : Nat) : Nat := ((s.port c k).map Port.reg).getD 0

/-- The region that a destination is in (R387). -/
def State.destReg (s : State) : Dest → Option Nat
  | .queue e _ => s.regionOf e
  | .port c k => (s.port c k).map Port.reg

/-- A core of a region as it stands on a core that another launch may use too: the region's own ports, counts and reports are those of the
state that is loaded, and its signal box and array too where it holds them (R387, log 111). -/
def Region.joinCore (r : Region) (rn c : Nat) (now kept : Core) : Core :=
  let own := fun n => r.hasElem (c * 64 + n % 8 * 8 + n / 8)
  { kept with
    bars := if r.holdsBox c then kept.bars else now.bars
    arr := if r.holdsBox c then kept.arr else now.arr
    sinks := (now.sinks.filter fun x => !own x.1) ++ kept.sinks.filter fun x => own x.1
    rep := (now.rep.filter fun n => !own n) ++ kept.rep.filter own
    ports := Vector.ofFn fun i =>
      match vget kept.ports i.val none, vget now.ports i.val none with
      | some p, q => if p.reg = rn then some p else match q with | some p => if p.reg = rn then none else some p | none => none
      | none, some p => if p.reg = rn then none else some p
      | none, none => none }

/-- The region record of an element. -/
def State.regOf (s : State) (e : Nat) : Option Region := (s.regions.find? fun x => x.2.hasElem e).map Prod.snd

/-- Whether a is above b in serial-number order modulo 2^16 (R363). -/
def serialAbove (a b : Nat) : Bool := a != b && (a + 65536 - b) % 65536 < 32768

/-- The cores of a rectangle, row by row (R355). -/
def Region.cores (r : Region) : List Nat :=
  (List.range (r.w * r.h)).map fun i => coreAt (r.x0 + i % r.w) (r.y0 + i / r.w)

/-- The elements of a region in the order (y, x, ey, ex) of R103. -/
def Region.elems (r : Region) : List Nat :=
  (r.cores.flatMap fun c => (List.range 64).map fun i => c * 64 + i % 8 * 8 + i / 8).filter r.hasElem

/-- Region coordinates of a core. -/
def Region.coreX (r : Region) (c : Nat) : Nat := gridX c - r.x0
def Region.coreY (r : Region) (c : Nat) : Nat := gridY c - r.y0

/-- The partition an element runs in. -/
def State.partOf (s : State) (e : Nat) : Nat := ((s.regOf e).map Region.part).getD 0

/-- Whether an element may issue: its region runs (R351). -/
def State.runs (s : State) (e : Nat) : Bool :=
  match s.regOf e with | some r => r.phase == .running | none => false

/-- The die, of the four, that owns a device line (R2, R186). -/
def dieOfDev (a : Nat) : Nat := a / 2 ^ 36 / 3

/-- The block of a device address (R383), and whether a partition may reach it. -/
def blockOf (a : Nat) : Nat := a / 2 ^ 36 * 24 + a % 2 ^ 36 / 2 ^ 31
def State.block (s : State) (b : Nat) : Block := SMap.get ⟨.owned, 0, none⟩ b s.blocks
def State.owns (s : State) (p a : Nat) : Bool :=
  let b := s.block (blockOf a)
  b.own == p && (b.state == .owned || b.state == .removing)

/-- A device physical address exists (R185). -/
def devExists (a : Nat) : Bool := a < 2 ^ 40 && a / 2 ^ 36 < 12 && a % 2 ^ 36 < 48 * 2 ^ 30

/-! ### Places -/

def Elem.count (x : Elem) (p : Nat) : Nat := (vget x.cnt p 0).toNat
def Elem.reserved (x : Elem) (p : Nat) : Nat := (vget x.resv p 0).toNat
def Elem.capacity (x : Elem) (p : Nat) : Nat := (vget x.cap p 0).toNat

/-- One token more, one less, in a place. -/
def Elem.mark (x : Elem) (p : Nat) : Elem := { x with cnt := vset x.cnt p (vget x.cnt p 0 + 1) }
def Elem.consume (x : Elem) (p : Nat) : Elem := { x with cnt := vset x.cnt p (vget x.cnt p 0 - 1) }
def Elem.reserve (x : Elem) (p : Nat) : Elem := { x with resv := vset x.resv p (vget x.resv p 0 + 1) }
def Elem.release (x : Elem) (p : Nat) : Elem := { x with resv := vset x.resv p (vget x.resv p 0 - 1) }

/-- Room for a mark that made no reservation (R224). -/
def Elem.room (x : Elem) (p : Nat) : Bool := x.count p + x.reserved p < x.capacity p

/-! ### Registers -/

def Elem.sreg (x : Elem) (r : Nat) : W32 := vget x.s r 0
def Elem.vreg (x : Elem) (r : Nat) : VW := vget x.v r 0
def Elem.setS (x : Elem) (r : Nat) (w : W32) : Elem := { x with s := vset x.s r w }
def Elem.setV (x : Elem) (r : Nat) (w : VW) : Elem := { x with v := vset x.v r w }

/-- pair(c) of R80. -/
def Elem.pair (x : Elem) (r : Nat) : W64 := (x.sreg (r + 1)).append (x.sreg r)

/-! ### Queues -/

def Elem.queue (x : Elem) (q : Nat) : List Token := vget x.queues q []

/-- Whether a kind may be a head for enabling (R61, R132, R138, R276). -/
def Kind.readable : Kind → Bool
  | .data | .eor | .eot | .eos => true
  | _ => false

/-- The head of a queue for enabling. -/
def Elem.head (x : Elem) (q : Nat) : Option Token :=
  match x.queue q with
  | t :: _ => if t.kind.readable then some t else none
  | [] => none

/-- Removes a head. -/
def Elem.dequeue (x : Elem) (q : Nat) : Elem := { x with queues := vset x.queues q (x.queue q).tail }
def Elem.enqueue (x : Elem) (q : Nat) (t : Token) : Elem := { x with queues := vset x.queues q (x.queue q ++ [t]) }

/-- Slots of a plane (R129). -/
def planeSlots (ctl : Bool) : Nat := if ctl then 64 else 48

/-- Tokens of one plane in a queue that sit in a reserved slot. -/
def Elem.inReserved (x : Elem) (ctl : Bool) (q : Nat) : Nat :=
  ((x.queue q).filter fun t => t.ctl == ctl && !t.shr).length

def Elem.reservation (x : Elem) (q : Nat) : Nat := (vget x.chans q Chan.default).resv

/-- Slots of the shared pool in use; a queue over its reservation draws the excess from it (R134). -/
def Elem.sharedUsed (x : Elem) (ctl : Bool) : Nat :=
  ((List.range 32).map fun q =>
    ((x.queue q).filter fun t => t.ctl == ctl && t.shr).length + (x.inReserved ctl q - x.reservation q)).sum

def Elem.reservedSum (x : Elem) : Nat := ((List.range 32).map x.reservation).sum

/-- Whether an arriving token takes a reserved slot (some false), a shared slot (some true), or none (R129). -/
def Elem.slotFor (x : Elem) (q : Nat) (t : Token) : Option Bool :=
  if x.inReserved t.ctl q < x.reservation q then some false
  else if x.sharedUsed t.ctl + x.reservedSum < planeSlots t.ctl then some true
  else none

/-- The queue storage of an element as tokens that arrive in this cycle find it: what stood there at the start of the cycle, and those
that have arrived since (R22, R134); between cycles, what stands there. -/
def State.storage (s : State) (e : Nat) : Elem :=
  if s.closing then s.elem e
  else (s.arrived.filter fun a => a.1 == e).foldl (fun x a => x.enqueue a.2.1 a.2.2) (s.view e)

/-- A token enters a queue, if it finds a slot (R129). -/
def State.enterQueue (s : State) (e q : Nat) (t : Token) : Option State :=
  ((s.storage e).slotFor q t).map fun shr =>
    { s.modElem e fun x => x.enqueue q { t with shr := shr } with arrived := s.arrived ++ [(e, q, { t with shr := shr })] }

/-- The head of a queue at the start of the cycle, while nothing has been dequeued from it in the cycle (R22, R132). -/
def State.standing (s : State) (e q : Nat) : Option Token :=
  let v := (s.view e).queue q
  if ((s.elem e).queue q).length = v.length + (s.arrived.filter fun a => a.1 == e && a.2.1 == q).length then v.head? else none

/-- A marker or other token without payload. -/
def Token.bare (k : Kind) (ctl : Bool) (tag : BitVec 3) : Token := ⟨k, tag, ctl, false, 0, false⟩

/-- A SECT token with its number (R120). -/
def Token.sect (n : Nat) (ctl : Bool) : Token := ⟨.sect, 0, ctl, false, BitVec.ofNat 512 (n % 65536), false⟩

/-! ### The output buffer and the effects of a completion (R31, R34) -/

/-- Tokens of an effect on one plane. -/
def planeToks (ctl : Bool) (ts : List OutTok) : List OutTok := ts.filter fun t => t.tok.ctl == ctl

/-- The tokens of one plane in the output buffer, oldest first. -/
def Elem.outOf (x : Elem) (ctl : Bool) : List (Nat × OutTok) := x.out.filter fun t => t.2.tok.ctl == ctl

/-- Whether the tokens of an effect find room: four tokens a plane (R34). -/
def Elem.bufferRoom (x : Elem) (ts : List OutTok) : Bool :=
  [false, true].all fun ctl => (planeToks ctl ts).isEmpty || (x.outOf ctl).length + (planeToks ctl ts).length ≤ 4

/-- Whether an older completion of one of the same planes waits (R34). -/
def Elem.behind (x : Elem) (seq : Nat) (ts : List OutTok) : Bool :=
  x.waiting.any fun w => w.seq < seq && (w.toks.any fun a => ts.any fun b => a.tok.ctl == b.tok.ctl)

/-- A result's token as its label's class makes it: DATA on a class 2 label is CFG (R119). STEER, MERGE and the level forms of VRED and
VSCAN say the kind of what they send themselves (R141 to R143; for VRED and VSCAN log 106, DEDUCED). -/
def classed (o : OutTok) : OutTok :=
  if o.tok.kind = .data && 64 ≤ o.label && o.label < 96 then { o with tok := { o.tok with kind := .cfg } } else o

/-- Puts tokens into the output buffer, in the order of emission. -/
def Elem.emit (x : Elem) (ts : List OutTok) : Elem := { x with out := x.out ++ ts.map fun o => (x.nseq, o) }

/-- Applies an effect whole: registers, places, reservations, flags, tokens, slot (R31). -/
def Elem.apply (x : Elem) (f : Effect) : Elem :=
  let x := f.sregs.foldl (fun x w => x.setS w.1 w.2) x
  let x := f.vregs.foldl (fun x w => x.setV w.1 w.2) x
  let x := f.frees.foldl Elem.release x
  let x := f.marks.foldl Elem.mark x
  let x := x.emit f.toks
  { x with
    axs := x.axs ||| f.fl
    lfsr := f.lfsr.getD x.lfsr
    slots := (match f.slot with | some k => vset x.slots k none | none => x.slots) }

/-! ### Time and records -/

/-- Raising a fault (R371, R373): the record is made, what faulted is held, and a retry falls due one cycle later. -/
structure FaultSrc where
  code : Nat
  src  : Nat
  reg  : Nat
  elid : Nat
  tix  : Nat
  slot : Nat
  addr : Nat
  opc  : Nat
  word : W128
  prog : Nat
  at_  : FaultAt
  deriving DecidableEq, Repr

/-- DET of a record: opcode, region x and y, and ex and ey of a firing or an engine command (R373). -/
def faultDet (r : Region) (f : FaultSrc) : W32 :=
  let c := f.elid / 64
  let el := if f.src == 1 || f.src == 3 || f.src == 4 then 0 else exOf f.elid * 16 + eyOf f.elid
  BitVec.ofNat 32 (f.opc + 256 * (r.coreX c * 16 + r.coreY c) + 65536 * el)

/-- The record of a fault (R373). -/
def State.faultRec (s : State) (f : FaultSrc) : FaultRec :=
  let base : FaultRec :=
    { code := f.code, flg := 0, src := f.src, elid := f.elid, tix := f.tix, slot := f.slot,
      addr := BitVec.ofNat 64 f.addr, lrec := 0, cutn := 0, det := 0, word := f.word, tns := 0, prog := f.prog, rseq := 0 }
  match s.region f.reg with
  | none => base
  | some r =>
    { base with lrec := BitVec.ofNat 64 r.launch.addr, cutn := r.cutN, det := faultDet r f, tns := (s.part r.part).tNow }

/-- Holds what faulted until its retry (R197, R371). -/
def State.hold (s : State) (a : FaultAt) (h : Bool) : State :=
  match a with
  | .slot e k =>
    s.modElem e fun x =>
      match vget x.slots k none with
      | some y => { x with slots := vset x.slots k (some { y with held := h }) }
      | none => x
  | .issue e _ => s.modElem e fun x => { x with stuck := h }
  | .entry g q id =>
    let en := s.engine g
    s.setEngine g { en with qs := vset en.qs q ((vget en.qs q []).map fun x => if x.id = id then { x with held := h } else x) }
  | .port c k => s.modPort c k fun p => { p with held := h }
  | .posted e n =>
    s.modElem e fun x => { x with posted := x.posted.map fun y => if y.seq = n then { y with held := h } else y }
  | .sided _ => s
  | .tap _ _ => s
  | .none => s

/-- Raises a fault: ONE operation for every fault of the part (R371). -/
def State.raiseFault (s : State) (f : FaultSrc) : State :=
  let s := s.hold f.at_ true
  { s with pend := s.pend ++ [⟨f.reg, s.faultRec f, f.at_, s.cycle⟩] }

/-- Whether a fault is pending on something. -/
def State.faulted (s : State) (a : FaultAt) : Bool := s.pend.any fun p => p.at_ == a

/-! ### Engine keys (R8, R234) -/

/-- An engine by kind and number, a cluster's, a stack's or a die's, as a partition sees its queues (R235). -/
def engineKey (p : Nat) (k : EngineKind) (n : Nat) : Nat :=
  512 * p + 64 * (match k with | .copy => 0 | .row => 1 | .mac => 2 | .ind => 3 | .codec => 4 | .coll => 5) + n

def engineKindOf (g : Nat) : EngineKind :=
  match g % 512 / 64 with | 0 => .copy | 1 => .row | 2 => .mac | 3 => .ind | 4 => .codec | _ => .coll

/-- A pseudo-channel by stack and number. -/
def pchanKey (stack pc : Nat) : Nat := 64 * stack + pc

end Sys2Proof.Machine
end

