-- ==== Sys2Proof/Machine/Mem.lean ====
section
/-! DEFINITION. Global memory: bytes of HBM under their keys (R187, R196), the home slices (R186), the four-level walk (R188 to R191), page
types (R192), native rows (R193), the TLB of a core (R194), reads and writes at their home with MAP granules and lent lines (R180, R181),
held lines (R367), presence (R213) and watches (R224). -/

namespace Sys2Proof.Machine

open Sys2Proof

/-! ### Bytes of HBM (R180, R181, R187, R196) -/

/-- The bank address of an element's filled granule that stands for a device byte (R180). -/
def Elem.granuleOf (x : Elem) (a : Nat) : Option Nat :=
  x.filled.findSome? fun g => if g.2 ≤ a && a < g.2 + 512 then some (512 * g.1 + (a - g.2)) else none

/-- The element and bank address that hold a device byte in place of memory: a lent line or a filled MAP granule. -/
def State.overlay (s : State) (a : Nat) : Option (Nat × Nat) :=
  match SMap.find (a / 128) s.lent with
  | some (e, q) => some (e, 16384 * q + (a - (vget (s.elem e).qphys q 0).toNat))
  | none => s.elems.findSome? fun (e, x) => (x.granuleOf a).map fun o => (e, o)

/-- The tag of the key that the owner of a device address writes under: its slot and the slot's generation (R389). -/
def State.keyTag (s : State) (a : Nat) : Nat :=
  let own := (s.block (blockOf a)).own
  let k := if own < 8 then (s.part own).key else 0
  1 + k + 16 * vget s.keys k 0

/-- The tag a line was last written under; a line of a scrubbed block that nothing has written since is plain zeros (R385), and one that
nothing has written since reset has none (log 48). -/
def State.lineTag (s : State) (line : Nat) : Option Nat :=
  match SMap.find line s.enc with
  | some t => some t
  | none => if s.scrubs.contains (blockOf (128 * line)) then some 0 else none

/-- A byte of HBM as a reader under a key sees it. -/
def State.memAs (s : State) (tag a : Nat) : Byte :=
  match s.lineTag (a / 128) with
  | some t =>
    if t = tag then Memory.byte s.mem a
    else Config.recode t tag a (BitVec.ofNat 1024 (natLE (Memory.read s.mem (a / 128 * 128) 128)))
  | none => Memory.byte s.mem a

/-- A byte of a device address as a reader under a key sees it: from the bank that holds it, or from HBM. -/
def State.byteAs (s : State) (tag a : Nat) : Byte :=
  match s.overlay a with
  | some (e, o) => Memory.byte (s.elem e).bank o
  | none => s.memAs tag a

/-- A byte of a native row (R193), and one of any other page. -/
def State.rowByte (s : State) (a : Nat) : Byte := s.byteAs 0 a
def State.devByte (s : State) (a : Nat) : Byte := s.byteAs (s.keyTag a) a

/-- Lines a run of n bytes at a touches: how many, and which. -/
def lineCount (a n : Nat) : Nat := if n = 0 then 0 else (a + n - 1) / 128 - a / 128 + 1
def linesOf (a n : Nat) : List Nat := (List.range (lineCount a n)).map fun i => a / 128 + i

/-- Whether a line was last written under another key than a reader's. -/
def State.foreign (s : State) (tag line : Nat) : Bool := match s.lineTag line with | some t => t != tag | none => false

/-- Whether the bytes of a run are what memory lists, for a reader under a key. -/
def State.plainRun (s : State) (tag a n : Nat) : Bool :=
  s.lent.isEmpty && (s.elems.all fun x => x.2.filled.isEmpty) && (linesOf a n).all fun l => !s.foreign tag l

/-- n bytes of the owner's, and of native rows. A run lies in one page, and so under one key. -/
def State.devRead (s : State) (a n : Nat) : List Byte :=
  if s.plainRun (s.keyTag a) a n then Memory.read s.mem a n else (List.range n).map fun i => s.devByte (a + i)
def State.rowRead (s : State) (a n : Nat) : List Byte := (List.range n).map fun i => s.rowByte (a + i)

/-- Writes a run of bytes of HBM, for a native page or under the owner's key; the rest of a line that was written under another key keeps
what a reader under this one saw of it. -/
def State.put (s : State) (raw : Bool) (a : Nat) (bs : List Byte) : State :=
  let n := bs.length
  let tag := if raw then 0 else s.keyTag a
  let ends := [a / 128, (a + n - 1) / 128].filter fun l => !(a ≤ 128 * l && 128 * l + 128 ≤ a + n)
  let mixed := if n = 0 then [] else ends.filter (s.foreign tag)
  let m := mixed.foldl (fun m l => Memory.write m (128 * l) ((List.range 128).map fun i => s.memAs tag (128 * l + i))) s.mem
  { s with mem := Memory.write m a bs, enc := SMap.setRun (a / 128) (lineCount a n) tag s.enc }

/-! ### The home slice of a line (R3, R9, R186) -/

/-- The module-wide number of a line's home slice: one of the 384 of the die that owns its stack. -/
def homeSlice (line : Nat) : Nat := 384 * dieOfDev (128 * line) + Config.homeHash line % 384

/-- Whether two lines share a set of a slice: 256 KiB of 16 ways of 128 bytes are 128 sets. -/
def sameSet (l k : Nat) : Bool := homeSlice l == homeSlice k && Config.setHash l % 128 == Config.setHash k % 128

/-- Brings a line into its slice; a full set drops one of its 16, which the spec leaves open (log 14). -/
def State.l2Put (s : State) (dirty : Bool) (line : Nat) : State :=
  let old := SMap.find line s.l2
  let set := s.l2.filter fun x => sameSet x.1 line
  let full := old.isNone && set.length ≥ 16
  let out := (set.getD ((Config.freeWord s.free).toNat % 16) (line, false)).1
  { s with
    l2 := SMap.set line (dirty || old.getD false) (if full then SMap.erase out s.l2 else s.l2)
    free := if full then s.free + 1 else s.free }

/-! ### Translation -/

/-- The answer of a translation: a place, a fault code, or a miss the host must answer (R194). -/
inductive Xlat
  | ok (l : Loc)
  | fault (code : Nat)
  | miss
  deriving DecidableEq, Repr

/-- The device address of byte o of a native page (R185, R193). -/
def nativeAddr (leaf : W64) (o : Nat) : Nat :=
  let w := leaf.toNat
  let i := o / 1024
  let bank := (i + bitsOf w 58 4) % 16
  let row := bitsOf w 18 16 + i / 16
  bitsOf w 40 4 * 2 ^ 36 + row / 4 * 2 ^ 22 + bitsOf w 34 6 * 2 ^ 16 + row % 4 * 2 ^ 14 + bank * 2 ^ 10 + o % 1024

/-- Row in bank of byte o of a native page, its bank and pseudo-channel key (R193). -/
def nativeRow (leaf : W64) (o : Nat) : Nat := bitsOf leaf.toNat 18 16 + o / 1024 / 16
def nativeBank (leaf : W64) (o : Nat) : Nat := (o / 1024 + bitsOf leaf.toNat 58 4) % 16
def nativePc (leaf : W64) : Nat := pchanKey (bitsOf leaf.toNat 40 4) (bitsOf leaf.toNat 34 6)

/-- Whether a leaf is good (R191); big for a 2 MiB leaf. -/
def leafOk (leaf : W64) (big : Bool) : Bool :=
  let w := leaf.toNat
  let loc := bitsOf w 62 2
  let ty := bitsOf w 5 2
  let frame := bitsOf w 16 24 * 65536
  w % 2 == 1 && bitsOf w 1 2 == 0 && bitsOf w 7 9 == 0 && loc != 3 && (loc == 2 || bitsOf w 44 14 == 0) &&
    bitsOf w 4 1 == big.toNat && (ty == 3 || bitsOf w 58 4 == 0) && (!big || (ty != 3 && bitsOf w 16 5 == 0)) &&
    (loc == 0 || ty == 0) &&
    (if ty == 3 then bitsOf w 16 2 == 0 && bitsOf w 18 16 ≤ 49148 && bitsOf w 40 4 < 12
     else (loc == 1 || bitsOf w 40 4 == 0) && (loc != 0 || devExists frame))

/-- The place a good leaf gives an address. -/
def leafLoc (leaf : W64) (big : Bool) (va : Nat) : Loc :=
  let w := leaf.toNat
  let off := if big then va % 2 ^ 21 else va % 2 ^ 16
  let ty := bitsOf w 5 2
  { space := (match bitsOf w 62 2 with | 0 => .dev | 1 => .host | _ => .peer (bitsOf w 44 14))
    addr := (if ty == 3 then nativeAddr leaf off else bitsOf w 16 28 * 65536 + off)
    ptype := ty, ro := bitsOf w 3 1 == 1, leaf := leaf }

/-- A table or a ring lies in a block of the partition's, or, for one that is bound to the PF, of the module's (R383). -/
def State.ownsTable (s : State) (p a : Nat) : Bool :=
  let b := s.block (blockOf a)
  s.owns p a || ((s.part p).fn == 0 && b.own == 8 && b.state == .owned)

/-- An entry of a table, read at its home, or why it cannot be read: a table outside device memory, or in a block of another's (R191, R194,
R382). -/
def tableEntry (s : State) (p table i : Nat) : Except Nat Nat :=
  let a := table + 8 * i
  if !devExists a then .error 0x02
  else if !s.ownsTable p a then .error 0x1A
  else .ok (natLE (s.devRead a 8))

/-- The next table a pointer names (R189). -/
def nextTable (w : Nat) : Except Nat Nat :=
  if w % 2 = 1 && bitsOf w 1 7 = 0 && bitsOf w 40 24 = 0 && devExists (bitsOf w 8 32 * 256) then .ok (bitsOf w 8 32 * 256)
  else .error 0x02

/-- The walk of a partition's table: its leaf and whether it is a 2 MiB leaf (R188). -/
def walk (s : State) (p va : Nat) : Except Nat (W64 × Bool) := do
  let t4 := (s.part p).ptb.toNat
  let t3 ← nextTable (← tableEntry s p t4 (bitsOf va 43 13))
  let t2 ← nextTable (← tableEntry s p t3 (bitsOf va 30 13))
  let w2 ← tableEntry s p t2 (bitsOf va 21 9)
  if bitsOf w2 4 1 = 1 then
    if leafOk (BitVec.ofNat 64 w2) true then .ok (BitVec.ofNat 64 w2, true) else .error 0x02
  else
    let t1 ← nextTable w2
    let w1 ← tableEntry s p t1 (bitsOf va 16 5)
    if leafOk (BitVec.ofNat 64 w1) false then .ok (BitVec.ofNat 64 w1, false) else .error 0x02

/-- The 64 KiB pages, first and how many, that the leaf of an address maps (R188). -/
def leafPages (va : Nat) (big : Bool) : Nat × Nat := if big then (va / 2 ^ 21 * 32, 32) else (va / 65536, 1)

/-- The TLB key of an address: partition, page and size (R194). -/
def tlbKey (p va : Nat) (big : Bool) : Nat :=
  p * 2 ^ 42 + (if big then va / 2 ^ 21 * 2 + 1 else va / 2 ^ 16 * 2)

/-- The cached leaf of an address. -/
def cachedLeaf (tlb : List (Nat × W64)) (p va : Nat) : Option (W64 × Bool) :=
  match SMap.find (tlbKey p va false) tlb with
  | some w => some (w, false)
  | none => (SMap.find (tlbKey p va true) tlb).map fun w => (w, true)

/-- What a place a leaf gives may still fault with: a device block of another's, or a peer that cannot be reached; the route of the module's own
number is ignored (R382, R383, R396, log 122). -/
def locFault (s : State) (p : Nat) (ring : Bool) (l : Loc) : Option Nat :=
  match l.space with
  | .dev => if (if ring then s.ownsTable p l.addr else s.owns p l.addr) then none else some 0x1A
  | .host => none
  | .peer m => if SMap.get 15 m s.wrt == 15 && m != Config.moduleNumber.toNat then some 0x18 else none

/-- The cache a translation goes through: a core's TLB, or from 256 up the cache of a stack's base die (R194). -/
def State.tlbOf (s : State) (c : Nat) : List (Nat × W64) :=
  if c < 256 then (s.core c).tlb else SMap.get [] (c - 256) s.baseTlb
def State.setTlb (s : State) (c : Nat) (m : List (Nat × W64)) : State :=
  if c < 256 then s.modCore c fun k => { k with tlb := m } else { s with baseTlb := SMap.set (c - 256) m s.baseTlb }

/-- Whether the bus mastering of a partition's function has been stopped (R382). -/
def State.busStopped (s : State) (p : Nat) : Bool := (vget s.funcs (s.part p).fn ⟨0, .unlocked, false⟩).stopped

/-- The cache of the dispatcher and the loader, whose own accesses keep nothing: they walk the partition's table, also where its driver uses a
PASID (R194, log 28). -/
def noTlb : Nat := 4096

/-- Translates an address for a partition through a translation cache (R194). A page of which the host has answered that its PASID has no
translation faults; an access to the host waits while the function's bus mastering is stopped (R382, log 123). -/
def State.xlat (s : State) (c p va : Nat) (ring : Bool) : Xlat :=
  if va ≥ 2 ^ 56 then .fault 0x01
  else
    let finish (w : W64 × Bool) : Xlat :=
      let l := leafLoc w.1 w.2 va
      match locFault s p ring l with
      | some k => .fault k
      | none => if l.space == .host && s.busStopped p then .miss else .ok l
    match cachedLeaf (s.tlbOf c) p va with
    | some w => finish w
    | none =>
      if s.noMap.any (fun x => x.1 == c && x.2.1 == tlbKey p va false) then .fault 0x02
      else if (s.part p).pasid.isSome && c != noTlb then .miss
      else if s.pinned.contains (p, va / 65536) then .fault 0x02
      else match walk s p va with | .ok w => finish w | .error k => .fault k

/-- Keeps a good translation; a core's TLB of 1,024 entries that is full drops its lowest entry (R194, log 20). -/
def State.fillTlb (s : State) (c p va : Nat) : State :=
  let m := s.tlbOf c
  match cachedLeaf m p va with
  | some _ => s
  | none =>
    match walk s p va with
    | .ok (w, big) => s.setTlb c (SMap.set (tlbKey p va big) w (if m.length < 1024 || c ≥ 256 then m else m.tail))
    | .error _ => s

/-- The memories an operation reaches: the device's, the host's too, or a peer's too (R192). -/
inductive Reach
  | dev | host | all
  deriving DecidableEq, Repr

def Reach.has (r : Reach) : Space → Bool
  | .dev => true
  | .host => r != .dev
  | .peer _ => r == .all

/-- What an operation may be used on (R192): the page types, and the memories. -/
structure Access where
  types : List Nat
  reach : Reach
  write : Bool
  /-- An access to a launch or fault ring (R383). -/
  toRing : Bool
  deriving DecidableEq, Repr

def Access.load : Access := ⟨[0, 1, 3], .all, false, false⟩
def Access.store : Access := ⟨[0, 3], .all, true, false⟩
def Access.wordRead : Access := ⟨[1], .all, false, false⟩
def Access.wordWrite : Access := ⟨[1], .all, true, false⟩
def Access.copyRead : Access := ⟨[0, 1, 3], .all, false, false⟩
def Access.copyWrite : Access := ⟨[0, 1, 3], .all, true, false⟩
def Access.gathRead : Access := ⟨[0, 1, 3], .dev, false, false⟩
def Access.scatWrite : Access := ⟨[0, 1, 3], .dev, true, false⟩
def Access.stashRead : Access := ⟨[2], .dev, false, false⟩
def Access.stashWrite : Access := ⟨[2], .dev, true, false⟩
def Access.unstashWrite : Access := ⟨[0, 1], .dev, true, false⟩
def Access.collRead : Access := ⟨[0, 1], .dev, false, false⟩
def Access.nativeRead : Access := ⟨[3], .dev, false, false⟩
def Access.nativeWrite : Access := ⟨[3], .dev, true, false⟩
/-- The page of a notify word: device normal, presence or host normal, and no peer's (R223). -/
def Access.notify : Access := ⟨[0, 1], .host, true, false⟩
def Access.quarter : Access := ⟨[0], .dev, false, false⟩
def Access.watch : Access := ⟨[0, 1, 3], .dev, false, false⟩

/-- PTY, then PRT, of a translated place (R191, R192). -/
def accessFault (a : Access) (l : Loc) : Option Nat :=
  if !a.types.contains l.ptype || !a.reach.has l.space then some 0x04
  else if a.write && l.ro then some 0x03
  else none

/-- Translates and checks one address. -/
def State.resolve (s : State) (c p va : Nat) (a : Access) : Xlat :=
  match s.xlat c p va a.toRing with
  | .ok l => (match accessFault a l with | some k => .fault k | none => .ok l)
  | x => x

/-- The answer for a run of bytes: its pieces, page by page, or the first fault with its address. -/
inductive Run
  | ok (ls : List (Loc × Nat))
  | fault (code addr : Nat)
  | miss (addr : Nat)
  deriving DecidableEq, Repr

/-- Resolves a run of n bytes; the fuel counts pages. -/
def State.resolveGo (s : State) (c p : Nat) (a : Access) : Nat → Nat → Nat → Run
  | 0, _, _ => .ok []
  | fuel + 1, va, n =>
    if n = 0 then .ok []
    else
      let k := min n (65536 - va % 65536)
      match s.resolve c p va a with
      | .fault code => .fault code va
      | .miss => .miss va
      | .ok l =>
        match s.resolveGo c p a fuel (va + k) (n - k) with
        | .ok ls => .ok ((l, k) :: ls)
        | r => r

def State.resolveRun (s : State) (c p va n : Nat) (a : Access) : Run := s.resolveGo c p a (n / 65536 + 2) va n

/-- The TLB entries a run leaves behind. -/
def State.fillRun (s : State) (c p va n : Nat) : State :=
  (List.range (n / 65536 + 2)).foldl (fun s i => if i * 65536 ≤ va % 65536 + (n - 1) then s.fillTlb c p (va + i * 65536) else s) s

/-! ### Runs of bytes in pages -/

/-- The key of a byte of a peer's memory. -/
def peerKey (m a : Nat) : Nat := m * 2 ^ 40 + a

/-- Address of byte o past a place; native rows do not follow each other in device memory (R193). -/
def Loc.at (l : Loc) (va o : Nat) : Nat :=
  if l.ptype = 3 then nativeAddr l.leaf (va % 65536 + o) else l.addr + o

/-- n bytes at a place within one page, va being its virtual address. -/
def State.readLoc (s : State) (va : Nat) (l : Loc) (n : Nat) : List Byte :=
  match l.space with
  | .dev => if l.ptype = 3 then (List.range n).map fun i => s.rowByte (l.at va i) else s.devRead l.addr n
  | .host => Memory.read s.hostMem l.addr n
  | .peer m => Memory.read s.peerMem (peerKey m l.addr) n

/-- The bytes of a resolved run. -/
def State.readRun (s : State) (va : Nat) : List (Loc × Nat) → List Byte
  | [] => []
  | (l, n) :: ls => s.readLoc va l n ++ State.readRun s (va + n) ls

/-! ### Writes at the home -/

/-- Who writes: a region and the interval of the writer in it, and whether its lines are held (R364, R367). -/
structure Writer where
  reg  : Option Nat
  itv  : Nat
  hold : Bool
  deriving DecidableEq, Repr

/-- A writer outside every region: the host, the device itself. -/
def Writer.device : Writer := ⟨none, 0, false⟩

/-- The writer an element is: its interval is that of its last shadow (R364). -/
def State.writer (s : State) (e : Nat) : Writer := ⟨s.regionOf e, (s.elem e).shadowN, true⟩

/-- Writes a granule's dirty bytes back to memory, under a byte mask, and marks it unfilled (R180). -/
def State.writeBack (s : State) (e : Nat) (g : Nat × Nat) : State :=
  let x := s.elem e
  let ds := x.dirty.filter fun o => o / 512 == g.1
  let s := ds.foldl (fun s o => s.put false (g.2 + o % 512) [Memory.byte x.bank o]) s
  s.setElem e { x with dirty := x.dirty.filter fun o => o / 512 != g.1, filled := x.filled.filter fun k => k.1 != g.1 }

/-- Whether some line of a run is lent to an RNG quarter (R181). -/
def State.lentRun (s : State) (a n : Nat) : Bool := (linesOf a n).any fun l => (SMap.find l s.lent).isSome

/-- Recalls every filled granule that a write to [a, a + n) touches (R180). -/
def State.recall (s : State) (a n : Nat) : State :=
  s.elems.foldl (fun s (e, x) =>
    x.filled.foldl (fun s g => if g.2 < a + n && a < g.2 + 512 then s.writeBack e g else s) s) s

/-- Holds a line with its pre-image for the interval of its writer, once (R367). -/
def State.holdLine (s : State) (w : Writer) (line : Nat) : State :=
  match w.reg with
  | none => s
  | some r =>
    if !w.hold then s
    else
      s.modRegion r fun g =>
        if g.hold.any fun h => h.line == line && h.interval == w.itv then g
        else { g with hold := g.hold ++ [⟨line, w.itv, BitVec.ofNat 1024 (natLE (s.devRead (line * 128) 128)), []⟩] }

/-- Words that a run of n bytes at a touches, and those it covers. -/
def wordsOf (a n : Nat) : List Nat := if n = 0 then [] else (List.range ((a + n - 1) / 4 - a / 4 + 1)).map fun i => a / 4 + i
def wordsIn (a n : Nat) : List Nat := (wordsOf a n).filter fun w => a ≤ 4 * w && 4 * w + 4 ≤ a + n

/-- The words of a held line after a write of some words by its own region, in an interval: the line's own interval has them from now on; one
that a later interval had written goes to the earlier one, and the earlier one's words stay (R233, R367). -/
def Held.take (g : Region) (itv : Nat) (now : Nat → W32) (ws all : List Nat) (h : Held) : Held :=
  let old := fun x => (g.hold.findSome? fun k => if serialAbove k.interval itv then SMap.find x k.words else none).getD (now x)
  if h.interval = itv then
    { h with words := (ws.filter fun x => x / 32 == h.line && (SMap.find x h.words).isNone).foldl (fun m x => SMap.set x (old x) m) h.words }
  else if serialAbove h.interval itv then { h with words := h.words.filter fun x => !all.contains x.1 }
  else h

/-- Whose the value of the words of a write, about to be made, is: a holding writer's, until another agent replaces it (R233, R367). -/
def State.ownWords (s : State) (w : Writer) (a n : Nat) : State :=
  let now := fun x => BitVec.ofNat 32 (natLE (s.devRead (4 * x) 4))
  let one := fun (k : Nat) (g : Region) =>
    if some k == w.reg && w.hold then { g with hold := g.hold.map (Held.take g w.itv now (wordsOf a n) (wordsIn a n)) }
    else { g with hold := g.hold.map fun h => { h with words := h.words.filter fun x => !(wordsIn a n).contains x.1 } }
  if s.regions.all fun g => g.2.hold.isEmpty then s
  else { s with regions := s.regions.map fun g => (g.1, if g.2.hold.isEmpty then g.2 else one g.1 g.2) }

/-- The held-line budget of a region on a die is 12 MiB (R367). -/
def State.budgetFull (s : State) (w : Writer) (a n : Nat) : Bool :=
  match w.reg with
  | none => false
  | some r =>
    match s.region r with
    | none => false
    | some g =>
      let new := (linesOf a n).filter fun l => !(g.hold.any fun h => h.line == l && h.interval == w.itv)
      w.hold && !new.isEmpty && ((g.hold.filter fun h => dieOfDev (h.line * 128) == dieOfDev a).length + new.length > 98304)

/-- Whether a word meets a watch's condition (R224). -/
def watchMet (w : Watch) (v : W32) : Bool := (v == w.value) != w.ne

/-- A word of device memory. -/
def State.devWord (s : State) (a : Nat) : W32 := BitVec.ofNat 32 (natLE (s.devRead a 4))

/-- The committed value of a word that an open interval of a region has written: that before the first of them (R367). -/
def Region.committed (g : Region) (word : Nat) : Option W32 :=
  let hs := g.hold.filter fun h => (SMap.find word h.words).isSome
  (hs.find? fun h => hs.all fun k => !serialAbove h.interval k.interval).bind fun h => SMap.find word h.words

/-- A word as the watches of a region see it: while its value is that of another region's open interval, the value before (R233, R367). -/
def State.committedWord (s : State) (r : Option Nat) (a : Nat) : W32 :=
  (s.regions.findSome? fun (k, g) => if some k == r then none else g.committed (a / 4)).getD (s.devWord a)

/-- The word that a watch of a region tests; a native page is neither held nor encrypted (R193, R196, R367). -/
def State.watchWord (s : State) (r : Option Nat) (w : Watch) : W32 :=
  if w.raw then BitVec.ofNat 32 (natLE (s.rowRead w.phys 4)) else s.committedWord r w.phys

/-- Tests one element's watches over [a, a + n): a met watch marks its place at the end of the following cycle (R224). -/
def State.testElem (s : State) (a n e : Nat) : State :=
  let x := s.elem e
  if x.watch.toList.all Option.isNone then s
  else
    let r := s.regionOf e
    let test (w : Option Watch) : Option Watch :=
      match w with
      | some w =>
        if w.due.isNone && w.phys < a + n && a < w.phys + 4 && watchMet w (s.watchWord r w) then
          some { w with due := some (s.cycle + 1) }
        else some w
      | none => none
    let ws := x.watch.map test
    if ws = x.watch then s else s.setElem e { x with watch := ws }

/-- Tests every watch over [a, a + n). -/
def State.testWatches (s : State) (a n : Nat) : State := s.elems.foldl (fun s x => s.testElem a n x.1) s

/-- Puts bytes at their home: granules recalled, lines held, lent lines written in their bank, the lines dirty in their slices (R180, R181,
R186, R367). -/
def State.homePut (s : State) (w : Writer) (raw : Bool) (a : Nat) (bs : List Byte) : State :=
  let s := s.recall a bs.length
  let s := ((linesOf a bs.length).foldl (State.holdLine · w ·) s).ownWords w a bs.length
  let s :=
    if s.lent.isEmpty then s.put raw a bs
    else
      ((List.range bs.length).zip bs).foldl (fun s (i, b) =>
        match s.overlay (a + i) with
        | some (e, o) => s.modElem e fun x => { x with bank := Memory.write x.bank o [b] }
        | none => s.put raw (a + i) [b]) s
  (linesOf a bs.length).foldl (State.l2Put · true ·) s

/-- Writes bytes of device memory, and tests the watches of each word once (R224). -/
def State.devWrite (s : State) (w : Writer) (a : Nat) (bs : List Byte) : State :=
  (s.homePut w false a bs).testWatches a bs.length

/-- The runs of device memory that n bytes from byte o of a native page lie in, one for each row (R193); the fuel counts rows. -/
def nativeRuns (leaf : W64) (o n : Nat) : Nat → List (Nat × Nat)
  | 0 => []
  | fuel + 1 =>
    let k := min n (1024 - o % 1024)
    if n = 0 then [] else (nativeAddr leaf o, k) :: nativeRuns leaf (o + k) (n - k) fuel

/-- Writes bytes of native rows, never held and never encrypted; every byte stands before a watch is tested (R193, R196, R224, R367). -/
def State.rowWrite (s : State) (w : Writer) (rs : List (Nat × Nat)) (bs : List Byte) : State :=
  let go := rs.foldl (fun (m : State × List Byte) r => (m.1.homePut { w with hold := false } true r.1 (m.2.take r.2), m.2.drop r.2)) (s, bs)
  rs.foldl (fun s r => s.testWatches r.1 r.2) go.1

/-- Writes bytes at a place within one page. -/
def State.writeLoc (s : State) (w : Writer) (va : Nat) (l : Loc) (bs : List Byte) : State :=
  match l.space with
  | .dev =>
    if l.ptype = 3 then s.rowWrite w (nativeRuns l.leaf (va % 65536) bs.length (bs.length / 1024 + 2)) bs else s.devWrite w l.addr bs
  | .host => { s with hostMem := Memory.write s.hostMem l.addr bs }
  | .peer m => { s with peerMem := Memory.write s.peerMem (peerKey m l.addr) bs }

/-- Writes a resolved run. -/
def State.writeRun (s : State) (w : Writer) (va : Nat) : List (Loc × Nat) → List Byte → State
  | [], _ => s
  | (l, n) :: ls, bs => (s.writeLoc w va l (bs.take n)).writeRun w (va + n) ls (bs.drop n)

/-- Whether a run reaches a host or peer page (R555). -/
def farRun (ls : List (Loc × Nat)) : Bool := ls.any fun x => x.1.space != .dev

/-! ### Windows of peers (R395) -/

/-- The bytes that a run sends to each other module. -/
def peerBytes (ls : List (Loc × Nat)) : List (Nat × Nat) :=
  ls.filterMap fun x => match x.1.space with | .peer m => if m = Config.moduleNumber.toNat then none else some (m, x.2) | _ => none

/-- Whether the windows that the receivers have granted hold a send; a sender without one waits. -/
def State.canSend (s : State) (xs : List (Nat × Nat)) : Bool :=
  xs.all fun x => ((xs.filter fun z => z.1 == x.1).map Prod.snd).sum ≤ SMap.get 0 x.1 s.windows

/-- A send uses its windows up. -/
def State.spend (s : State) (xs : List (Nat × Nat)) : State :=
  if xs.isEmpty then s else { s with windows := xs.foldl (fun w x => SMap.set x.1 (SMap.get 0 x.1 w - x.2) w) s.windows }

/-- Whether a run passes the held-line budget (R367). -/
def State.runFull (s : State) (w : Writer) (ls : List (Loc × Nat)) : Bool :=
  ls.any fun x => x.1.space == .dev && x.1.ptype != 3 && s.budgetFull w x.1.addr x.2

/-! ### Presence (R213, R367) -/

/-- Whether a region sees a word as present: a bit another region set in an open interval is not seen. -/
def State.present (s : State) (r : Option Nat) (word : Nat) : Bool :=
  s.pres.contains word && !(s.regions.any fun (k, g) => some k != r && g.defPres.any fun d => d.2 == word)

/-- Answers the LDWs deferred on a word that see it present (R213). -/
def State.answer (s : State) (word : Nat) : State :=
  s.elems.foldl (fun s (e, x) =>
    if x.slots.toList.all Option.isNone then s
    else
      let r := s.regionOf e
      if !s.present r word then s
      else
        let f (y : Option Slot) : Option Slot :=
          match y with
          | some z =>
            (match z.ins with
             | .ldw _ _ =>
               if z.stage = 1 && z.sub == word * 4 then
                 some { z with stage := 3, st := .late, lres := BitVec.ofNat 512 (natLE (s.devRead (word * 4) 4)) }
               else some z
             | _ => some z)
          | none => none
        let sl := x.slots.map f
        if sl = x.slots then s else s.setElem e { x with slots := sl }) s

/-- Asks for a forced cut of a region (R365). -/
def State.askCut (s : State) (r : Option Nat) : State :=
  match r with | some r => s.modRegion r fun g => { g with cutReq := true } | none => s

/-- Asks for the second forced cut of an irrevocable operation (R369). -/
def State.askSecond (s : State) (r : Option Nat) : State :=
  match r with | some r => s.modRegion r fun g => { g with cutReq := true, irr := true } | none => s

end Sys2Proof.Machine
end

