-- ==== Sys2Proof/Machine/Operands.lean ====
section
/-! DEFINITION. Every operand form: immediates (R59), special sources (R56), registers, queue heads (R61) and channel decoding (R131),
and the layout of a result in registers and tokens (R62, R120). An operand is a list of lane patterns, one for a scalar. -/

namespace Sys2Proof.Machine

open Sys2Proof

/-- The immediate of format A (R59). -/
def immOf (ty : Ty) (imm : BitVec 21) : Nat :=
  match ty with
  | .s8 | .s16 | .s32 | .s64 => offsetAdd (Ty.width ty) 0 (sxInt imm.toNat 21)
  | .n8 | .n16 | .n32 => imm.toNat % 2 ^ Ty.width ty
  | .f32 | .vc => imm.toNat * 2048
  | .b16 | .h16 | .e4 | .e5 => (valToFloat ty .rne false false (readFloat .f32 (imm.toNat * 2048))).1
  | .l6 => imm.toNat % 64
  | .b1 => if imm.getLsbD 0 then 2 ^ 64 - 1 else 0

/-- The 32-bit pattern of a special source (R56); LANE is read by lane. -/
def State.special (s : State) (e : Nat) (x : Elem) : Special → Nat
  | .elid => e
  | .core => coreOf e
  | .regn => (s.regionOf e).getD 0
  | .tagr => x.tagr.toNat % 8
  | .lane => 0
  | .ix0 => ((s.regOf e).map fun r => r.ixBase.toNat % 2 ^ 32).getD 0
  | .ix1 => ((s.regOf e).map fun r => r.ixCnt % 2 ^ 32).getD 0
  | .ix2 => ((s.regOf e).map fun r => r.launch.grain % 2 ^ 32).getD 0
  | .ix3 => ((s.regOf e).map fun r => r.unit % 2 ^ 32).getD 0
  | .pblo => ((s.regOf e).map fun r => r.launch.pb.toNat % 2 ^ 32).getD 0
  | .pbhi => ((s.regOf e).map fun r => r.launch.pb.toNat / 2 ^ 32).getD 0
  | .ixh => ((s.regOf e).map fun r => r.ixBase.toNat / 2 ^ 32).getD 0

/-- A queue head as an operand: the lanes of a data-plane head, or the words of a control-plane head; a marker reads as zero
(R61). -/
def headLanes (t : Token) (ty : Ty) (vec : Bool) : List Nat :=
  if t.kind != .data then List.replicate (if vec then Ty.lanes ty else 1) 0
  else if t.ctl then
    let w := t.pay.toNat % (if t.nw then 2 ^ 64 else 2 ^ 32) % 2 ^ Ty.width ty
    List.replicate (if vec then Ty.lanes ty else 1) w
  else if vec then lanesOf ty t.pay
  else [t.pay.toNat % 2 ^ Ty.width ty]

/-- A queue head decoded by its channel (R131). -/
def headDecoded (c : Chan) (ftz : Bool) (t : Token) (vec : Bool) : List Nat × Fl :=
  let raws := headLanes t c.fmt vec
  let rs := (raws.take 16).map fun r => chanDecode ftz c.fmt c.scOn c.scale.toNat r
  (rs.map Prod.fst, rs.foldl (fun f r => f ||| r.2) flNone)

/-- read(c, ty) of R80, from an element as it stood at the start of the cycle, with the flags of channel decoding. LANE in a vector
operation under b1 reads as 0: it has a pattern for each lane, and the spec gives none to extend to the one mask (log 112, DESIGN CHOICE). -/
def State.read (s : State) (e : Nat) (x : Elem) (ty : Ty) (vec : Bool) (imm : BitVec 21) (src : Src) : List Nat × Fl :=
  let spread (w : Nat) : List Nat × Fl := (List.replicate (if vec then Ty.lanes ty else 1) w, flNone)
  match src with
  | .s r => spread (if Ty.width ty = 64 then (x.pair r.toNat).toNat else (x.sreg r.toNat).toNat % 2 ^ Ty.width ty)
  | .v r => (if vec then lanesOf ty (x.vreg r.toNat) else [(x.vreg r.toNat).toNat % 2 ^ Ty.width ty], flNone)
  | .imm => spread (immOf ty imm)
  | .zero => spread 0
  | .spec .lane => if vec && ty != .b1 then (List.range (Ty.lanes ty), flNone) else spread 0
  | .spec p => spread (s.special e x p % 2 ^ Ty.width ty)
  | .q k =>
    match x.head k.toNat with
    | none => spread 0
    | some t =>
      if ty == .vc then headDecoded (vget x.chans k.toNat Chan.default) (axcOf x.axc).ftz t vec
      else (headLanes t ty vec, flNone)

/-- Whether a format A operation is a vector operation (R60). -/
def vecOp (o : FmtA) : Bool :=
  match o.d with
  | .v _ => true
  | .s _ => false
  | .none => [o.a, o.b, o.c].any fun c => match c with | .v _ => true | .spec .lane => true | _ => false

/-- The 32-bit register layout of a scalar result (R62). -/
def regWord (ty : Ty) (w : Nat) : W32 :=
  match ty with
  | .s8 | .s16 => BitVec.ofInt 32 (intOf ty w)
  | _ => BitVec.ofNat 32 (w % 2 ^ Ty.width ty)

/-- Register writes of a scalar result: an s64 or b1 result fills a pair (R62, R63, R402). -/
def scalarWrite (ty : Ty) (d : Dst) (w : Nat) : List (Nat × W32) :=
  match d with
  | .s r =>
    if Ty.width ty = 64 then [(r.toNat, BitVec.ofNat 32 w), (r.toNat + 1, BitVec.ofNat 32 (w / 2 ^ 32))]
    else [(r.toNat, regWord ty w)]
  | _ => []

/-- Payload of a scalar result on the control plane: two words for s64, otherwise one (R120). -/
def scalarPay (ty : Ty) (w : Nat) : VW := if ty = .s64 then BitVec.ofNat 512 (w % 2 ^ 64) else BitVec.ofNat 512 (regWord ty w).toNat

/-- A control-plane DATA token of a scalar result. -/
def scalarTok (ty : Ty) (w : Nat) (tag : BitVec 3) : Token := ⟨.data, tag, true, ty == .s64, scalarPay ty w, false⟩

/-- A data-plane DATA token. -/
def dataTok (v : VW) (tag : BitVec 3) : Token := ⟨.data, tag, false, false, v, false⟩

/-- The 64-bit value of an even register pair, or zero for the zero source (R63, R65). -/
def pairOf (x : Elem) : Src → Nat
  | .s r => (x.pair r.toNat).toNat
  | _ => 0

/-- The 32-bit value of an s register or zero. -/
def wordOf (x : Elem) : Src → Nat
  | .s r => (x.sreg r.toNat).toNat
  | _ => 0

/-- The register number a source names. -/
def regNo : Src → Nat
  | .s r => r.toNat
  | _ => 0

/-- Registers r to r + 3 as a captured group (R353). -/
def groupOf (x : Elem) (c : Src) : VW :=
  match c with
  | .s r => BitVec.ofNat 512 (joinLanes 32 ((List.range 4).map fun i => (x.sreg (r.toNat + i)).toNat))
  | _ => 0

end Sys2Proof.Machine
end

