-- ==== Sys2Proof/Machine/Fire.lean ====
section
/-! DEFINITION. Firing a transition: enabling (R24, R25), the trump order (R27), marker, discard and mismatched firings (R139, R144,
R145), issue (R29), firing slots (R30) and completion (R31, R36 to R39). -/

namespace Sys2Proof.Machine

open Sys2Proof

/-! ### Reading trigger and update -/

/-- Places an update may mark, one entry per arc in use. With CHO 10 and O1E clear no arc is in use: R36 names OP1 and R26 does not reject
the word, so nothing is reserved or marked (log 107, DESIGN CHOICE). -/
def arcs (t : TU) : List Nat :=
  (if t.o1e then [t.op1.toNat] else []) ++ (if t.o2e && t.cho.toNat != 2 then [t.op2.toNat] else [])

/-- Reservations made at issue: prod(x) for every output place (R25, R29). -/
def reserves (t : TU) : List Nat :=
  if t.cho.toNat = 1 then (if t.op1 = t.op2 then [t.op1.toNat] else [t.op1.toNat, t.op2.toNat]) else arcs t

/-- Places marked at completion (R36). -/
def marksOf (t : TU) (cond : Bool) : List Nat :=
  if t.cho.toNat = 1 then [if cond then t.op1.toNat else t.op2.toNat] else arcs t

/-- Places consumed. -/
def consumes (t : TU) : List Nat := (if t.ca then [t.epa.toNat] else []) ++ (if t.cb then [t.epb.toNat] else [])

/-- Queues dequeued. -/
def dequeues (t : TU) : List Nat := (if t.dqa then [t.qa.toNat] else []) ++ (if t.dqb then [t.qb.toNat] else [])

/-- Required queues. -/
def required (t : TU) : List Nat := (if t.qae then [t.qa.toNat] else []) ++ (if t.qbe then [t.qb.toNat] else [])

/-- Required heads that are present. -/
def heads (t : TU) (x : Elem) : List Token := (required t).filterMap x.head

/-- Marker levels (R137). -/
def Kind.marker : Kind → Bool
  | .eor | .eot | .eos => true
  | _ => false

def Kind.level : Kind → Nat
  | .eor => 1
  | .eot => 2
  | .eos => 3
  | _ => 0

/-- A firing's shape, from its required heads (R139, R144, R145). Under DREX an EOS drops every head that is not an EOS from the other
queue, markers below EOS among them (R145). -/
inductive Shape
  | plain
  | marker (k : Kind)
  | discard (q : Nat)
  | mismatch
  deriving DecidableEq, Repr

/-- The shape of a firing; a marker shape is a marker firing unless the opcode is one of R140. -/
def shapeOf (t : TU) (x : Elem) : Shape :=
  match heads t x with
  | [a] => if a.kind.marker then .marker a.kind else .plain
  | [a, b] =>
    if a.kind = b.kind then (if a.kind.marker then .marker a.kind else .plain)
    else if (axcOf x.axc).drex && a.kind == .eos then .discard t.qb.toNat
    else if (axcOf x.axc).drex && b.kind == .eos then .discard t.qa.toNat
    else .mismatch
  | _ => .plain

/-! ### Enabling -/

/-- The capacity test of R25 for one place. -/
def capTest (t : TU) (x : Elem) (p : Nat) : Bool :=
  let cons := ((consumes t).filter (· == p)).length
  let prod := ((reserves t).filter (· == p)).length
  x.count p + x.reserved p + prod ≤ x.capacity p + cons

/-- Conditions 1 to 5 of R24, on the element as it stood at the start of the cycle. -/
def triggered (t : TU) (x : Elem) : Bool :=
  (!t.eae || 1 ≤ x.count t.epa.toNat) && (!t.ebe || 1 ≤ x.count t.epb.toNat) &&
    (!t.iie || x.count t.ipi.toNat == 0) &&
    (!t.qae || (x.head t.qa.toNat).isSome) && (!t.qbe || (x.head t.qb.toNat).isSome) &&
    (!t.tgt || ((x.head t.qa.toNat).map fun h => h.tag.toNat == x.tagr.toNat % 8).getD false) &&
    (reserves t).all (capTest t x)

/-- The lowest-numbered free slot (R30). -/
def freeSlot (x : Elem) : Option Nat := (List.range 8).find? fun k => (vget x.slots k none).isNone

/-- Opcodes of R140, which never make a marker firing. -/
def ownMarkers : Instr → Bool
  | .steer _ _ | .merge _ _ | .doneOp _ _ | .sink _ _ | .mark _ _ => true
  | .vred _ o => o.imm.toNat % 4 != 0
  | .vscan _ o => o.imm.toNat % 4 != 0
  | _ => false

/-- Multi-cycle operations (R30). -/
def multiCycle (i : Instr) : Bool :=
  match layoutOf i with
  | .a op _ _ => op == 0x1C || op == 0x2E || op == 0x2F || op == 0x30 || op == 0x31 || op == 0x32
  | .m _ _ _ => true
  | .e op _ _ => op != 0x0F
  | _ => false

/-- Whether an MMA of a rectangle is in progress (R276, R280). -/
def Rect.busy (m : Rect) (cycle : Nat) : Bool := m.mma.isSome || !m.waves.isEmpty || cycle < m.done

/-- Column and row of an element in its region's grid (R94, R270). -/
def Region.gridOf (r : Region) (e : Nat) : Nat × Nat := (elemX e - 8 * r.x0, elemY e - 8 * r.y0)

/-- Whether a rectangle, or part, holds a place of the grid. -/
def Rect.holds (m : Rect) (g : Nat × Nat) : Bool := m.gx ≤ g.1 && g.1 < m.gx + m.w && m.gy ≤ g.2 && g.2 < m.gy + m.h

/-- Whether an element lies in a rectangle with an MMA in progress since before this cycle (R24, R272). -/
def State.mmaRuns (s : State) (e : Nat) : Bool :=
  match s.regOf e with
  | none => false
  | some r => r.rects.any fun m => m.busy s.cycle && m.since < s.cycle && m.holds (r.gridOf e)

/-- Whether an instruction uses the vector datapath in the sense of R272. -/
def vectorA (i : Instr) : Bool := match layoutOf i with | .a _ _ o => vecOp o | _ => false

/-- Whether a decoded word is enabled on an element (R24, R272). -/
def State.enabledOn (s : State) (e : Nat) (x : Elem) (d : Decoded) : Bool :=
  match d with
  | .single i =>
    let t := match layoutOf i with | .a _ t _ => some t | .m _ t _ => some t | .e _ t _ => some t | _ => none
    match t with
    | none => false
    | some t =>
      let marking := (match shapeOf t x with | .marker _ => !ownMarkers i | _ => false)
      triggered t x && (!multiCycle i || marking || (freeSlot x).isSome) && !(vectorA i && s.mmaRuns e)
  | .pair t _ _ => triggered t x && !s.mmaRuns e

/-- The valid transitions that are enabled, by index and priority; a word that decodes to nothing counts by its trigger, and the step
faults on it. -/
def State.enabledList (s : State) (e : Nat) (x : Elem) : List (Nat × Nat) :=
  (List.range 32).filterMap fun k =>
    let w := vget x.pool k 0
    if w.getLsbD 127 then
      match decodeWord w with
      | .ok d => if s.enabledOn e x d then some (k, w.toNat / 2 ^ 124 % 8) else none
      | .error _ =>
        if triggered (decodeTU (w.extractLsb' 96 32) (w.extractLsb' 64 32)) x then some (k, w.toNat / 2 ^ 124 % 8) else none
    else none

/-- The trump order (R27): the highest priority, then the first index above its last-fired pointer. -/
def trump (x : Elem) (en : List (Nat × Nat)) : Option (Nat × Nat) :=
  match en.map Prod.snd |>.max? with
  | none => none
  | some pri =>
    let last := (vget x.lfp pri 31).toNat
    let of := en.filter fun k => k.2 == pri
    let after := of.filter fun k => last < k.1
    match after ++ of with
    | k :: _ => some k
    | [] => none

/-! ### Performance counters (R497, R546) -/

/-- Counts firings, stalls or beats (0, 1, 2), but for a counter written in this cycle. -/
def Elem.count1 (x : Elem) (cycle k n : Nat) : Elem :=
  if vget x.pcW k 0 = cycle + 1 then x
  else
    match k with
    | 0 => { x with pcFire := x.pcFire + BitVec.ofNat 64 n }
    | 1 => { x with pcStall := x.pcStall + BitVec.ofNat 64 n }
    | _ => { x with pcBeat := x.pcBeat + BitVec.ofNat 64 n }

/-! ### A firing -/

/-- What a meaning works on: the element, its state at the start of the cycle, trigger and update, index, word, region and issue
number. -/
structure Firing where
  e    : Nat
  x    : Elem
  t    : TU
  tix  : Nat
  word : W128
  reg  : Nat
  seq  : Nat
  deriving DecidableEq, Repr

/-- The firing the step is running, if it runs one. -/
def State.firing (s : State) (t : TU) : Option Firing :=
  s.cur.map fun c => ⟨c.elem, s.view c.elem, t, c.tix, c.word, (s.regionOf c.elem).getD 0, (s.elem c.elem).nseq⟩

/-- Issue (R29): places consumed, heads dequeued, output places reserved. -/
def issueElem (t : TU) (x : Elem) : Elem :=
  let x := (consumes t).foldl Elem.consume x
  let x := (dequeues t).foldl Elem.dequeue x
  let x := (reserves t).foldl Elem.reserve x
  { x with nseq := x.nseq + 1 }

def State.issue (s : State) (f : Firing) : State := s.modElem f.e (issueElem f.t)

/-- The fault a firing raises (R371, R373); k is its slot, or 8 for none. -/
def faultOf (f : Firing) (code addr k : Nat) (a : FaultAt) : FaultSrc :=
  { code := code, src := 0, reg := f.reg, elid := f.e, tix := f.tix, slot := k % 8, addr := addr,
    opc := f.word.toNat / 2 ^ 56 % 256, word := f.word, prog := 0, at_ := a }

/-- The tag of an emitted token (R39), from QA's head as it was at issue. -/
def tagOf (t : TU) (qtag : BitVec 3) (x : Elem) : BitVec 3 :=
  let g := BitVec.ofNat 3 x.tagr.toNat
  match t.otg.toNat with
  | 0 => if t.qae then qtag else 0
  | 1 => g
  | 2 => g + 1
  | _ => 0

/-- The tag of QA's head. -/
def qaTag (t : TU) (x : Elem) : BitVec 3 := if t.qae then ((x.head t.qa.toNat).map Token.tag).getD 0 else 0

def Firing.tag (f : Firing) : BitVec 3 := tagOf f.t (qaTag f.t f.x) f.x

/-- The label of a result under a condition (R38). -/
def labelOf (t : TU) (cond : Bool) : Nat := t.ol.toNat + (if t.ols && !cond then 1 else 0)

/-- Whether a label is on the control plane (R119). -/
def ctlLabel (l : Nat) : Bool := l ≥ 32

/-- An empty effect of a firing: its reservations released and its places marked under a condition (R31, R36). -/
def baseEffect (t : TU) (slot : Option Nat) (seq : Nat) (cond : Bool) : Effect :=
  { slot := slot, seq := seq, sregs := [], vregs := [], marks := marksOf t cond, frees := reserves t, toks := [], fl := flNone,
    lfsr := none, sets := [], spec := [] }

/-- A computed result: lanes of a type, vector or scalar, with its flags. -/
structure Res where
  ty   : Ty
  vec  : Bool
  vals : List Nat
  fl   : Fl
  deriving DecidableEq, Repr

/-- cond of R37 for a result; lane 0 of a vector mask is its bit 0 (R69). -/
def Res.nonzero (r : Res) : Bool := if r.vec && r.ty == .b1 then r.vals.headD 0 % 2 != 0 else r.vals.headD 0 != 0

/-- The effect of a completed result: written to D, emitted, its condition steering places and label (R31, R36 to R38). -/
def resEffect (t : TU) (slot : Option Nat) (seq : Nat) (d : Dst) (tag : BitVec 3) (cond : Bool) (r : Res) : Effect :=
  let b := baseEffect t slot seq cond
  { b with
    sregs := if r.vec then [] else scalarWrite r.ty d (r.vals.headD 0)
    vregs := (match d with | .v k => if r.vec then [(k.toNat, packLanes r.ty r.vals)] else [] | _ => [])
    fl := r.fl
    toks := if t.ole then
        [classed ⟨labelOf t cond, if r.vec then dataTok (packLanes r.ty r.vals) tag else scalarTok r.ty (r.vals.headD 0) tag⟩]
      else [] }

/-- Applies PSET and special-register writes of an effect, then the rest. -/
def setSpecial (cycle : Nat) (x : Elem) (k : Nat) (v : W64) : Elem :=
  let w := BitVec.ofNat 32 v.toNat
  match k with
  | 0x03 => { x with tagr := w &&& 7 }
  | 0x04 => { x with axc := w &&& axcMask }
  | 0x05 => { x with axs := w &&& axsMask }
  | 0x06 => { x with lfsr := lfsrStored w }
  | 0x100 => { x with markN := v.toNat }
  | 0x0B => { x with pcFire := v, pcW := vset x.pcW 0 (cycle + 1) }
  | 0x0C => { x with pcStall := v, pcW := vset x.pcW 1 (cycle + 1) }
  | 0x0D => { x with pcBeat := v, pcW := vset x.pcW 2 (cycle + 1) }
  | _ => x

/-- The count PSET or PADD gives a place: the wanted count, clamped to the capacity less the reservations, and whether it was
clamped (R486). The code is the 5-bit operand, plus 32 for PADD. -/
def placeCount (x : Elem) (k code : Nat) : Nat × Bool :=
  let goal : Int := if code ≥ 32 then (x.count k : Int) + sxInt code 5 else (code : Nat)
  let lim : Int := (x.capacity k - x.reserved k : Nat)
  let v := min (max goal 0) lim
  (v.toNat, v != goal)

/-- What PSET and PADD do as they complete (R486): the count, clamped, written to D and emitted. -/
def placeEffect (x : Elem) (p : PlaceSet) (seq : Nat) : Effect :=
  let (v, sat) := placeCount x p.place p.code
  let r : Res := ⟨.n32, false, [v], if sat then flSA else flNone⟩
  let ef := resEffect p.t none seq p.d p.tag r.nonzero r
  { ef with sets := [p] }

/-- An effect that waited, as it completes: that of a PSET or PADD is formed anew (R486). -/
def Elem.again (x : Elem) (f : Effect) : Effect := match f.sets with | p :: _ => placeEffect x p f.seq | [] => f

/-- Everything a completion changes in its element (R31); PSET and PADD act before the firing's own outputs (R486). -/
def applyAll (cycle : Nat) (x : Elem) (f : Effect) : Elem :=
  let x := f.sets.foldl (fun x s => { x with cnt := vset x.cnt s.place (BitVec.ofNat 4 (placeCount x s.place s.code).1) }) x
  let x := x.apply f
  let x := f.spec.foldl (fun x s => setSpecial cycle x s.1 s.2) x
  { x with lastDone := (cycle, f.seq + 1) }

/-- Completes a firing: applied, or waiting for the output buffer, when nothing of it is applied (R34). What waits without a slot keeps the
value and flags that it had under the AXC of its issue, but for a PSET or PADD; what waits in a slot computes them anew when it is applied
(log 22, DEDUCED). -/
def State.completeWith (s : State) (e : Nat) (f : Effect) : State :=
  s.modElem e fun x =>
    if x.bufferRoom f.toks && !x.behind f.seq f.toks then applyAll s.cycle x f else { x with waiting := x.waiting ++ [f] }

/-- A marker firing (R139): one token of the heads' kind on OL, condition true. -/
def State.markerFiring (s : State) (f : Firing) (k : Kind) : State :=
  let b := baseEffect f.t none f.seq true
  let ef := { b with toks := if f.t.ole then [⟨f.t.ol.toNat, Token.bare k (ctlLabel f.t.ol.toNat) f.tag⟩] else [] }
  (s.issue f).completeWith f.e ef

/-- A discard firing (R145): the DATA head goes, XS is set, in its place among the completions of the cycle (R32). -/
def State.discardFiring (s : State) (f : Firing) (q : Nat) : State :=
  s.modElem f.e fun x => { x.dequeue q with axs := x.axs ||| flXS, nseq := x.nseq + 1, lastDone := (s.cycle, f.seq + 1) }

/-- Runs a firing: mismatched heads fault (R144), discards and marker firings act as such, and otherwise act runs. -/
def State.fire (s : State) (i : Instr) (t : TU) (act : Firing → State → State) : State :=
  match s.firing t with
  | none => s
  | some f =>
    match shapeOf t f.x with
    | .mismatch => s.raiseFault (faultOf f 0x08 0 8 (.issue f.e f.tix))
    | .discard q => s.discardFiring f q
    | .marker k => if ownMarkers i then act f s else s.markerFiring f k
    | .plain => act f s

/-- A single-cycle firing with a result: it issues and completes (R30). -/
def State.finish (s : State) (f : Firing) (d : Dst) (cond : Bool) (r : Res) : State :=
  (s.issue f).completeWith f.e (resEffect f.t none f.seq d f.tag cond r)

/-- A single-cycle firing that writes no value: its condition is true (R37). -/
def State.finishPlain (s : State) (f : Firing) : State := (s.issue f).completeWith f.e (baseEffect f.t none f.seq true)

/-- Commands of engines, integrators, matrix rectangles and bank MACs, whose records have ST 10 (R353). -/
def isCommand : Instr → Bool
  | .gath _ _ | .scat _ _ | .cpy _ _ | .fill _ _ | .note _ _ | .qfen _ _ | .rcopy _ _ | .rzero _ _ | .stash _ _ | .unstash _ _ | .coll _ _ => true
  | .pimabEnter _ _ | .pimabLeave _ _ | .pimld _ _ | .pimmac _ _ | .pimrd _ _ => true
  | .ipatch _ _ | .icfg _ _ | .iset _ _ | .iget _ _ | .istep _ _ | .isave _ _ | .irest _ _ | .ifeed _ _ | .isamp _ _ => true
  | .mxmodeEnter _ _ | .mxmodeEnterSplit _ _ | .mxmodeLeave _ _ | .mxwld _ _ | .mxc _ _ | .mxacc _ _ => true
  | _ => false

/-- The channel entries that an operation of type vc reads its first and second source under (R70, R132). -/
def vcEntries (x : Elem) (i : Instr) : List Chan :=
  match layoutOf i with
  | .a _ _ o =>
    if o.ty = .vc then [o.a, o.b].map fun c => match c with | .q k => vget x.chans k.toNat Chan.default | _ => Chan.default else []
  | _ => []

/-- A multi-cycle firing takes the lowest free slot (R30), with its captured operands (R29, R45). -/
def State.takeSlot (s : State) (f : Firing) (i : Instr) (a b c : VW) (fl : Fl) (chn : Nat) : State × Nat :=
  let k := (freeSlot f.x).getD 0
  let s := s.issue f
  let x := s.elem f.e
  let cs : W32 := if chn = 0 then 0 else vget x.cseq (chn - 1) 0
  let y : Slot :=
    { tix := f.tix, word := f.word, ins := i, st := if isCommand i then .engine else .held, chn := chn, cseq := cs, prog := 0,
      opa := a, opb := b, opc := c, lres := 0, seq := f.seq, tagq := qaTag f.t f.x, fl := fl,
      wide := false, stage := 0, cut := 0, full := 0, held := false, sub := 0, buf := [], passed := 0, side := none,
      dec := vcEntries f.x i }
  (s.setElem f.e { x with
    slots := vset x.slots k (some y)
    cseq := if chn = 0 then x.cseq else vset x.cseq (chn - 1) (cs + 1) }, k)

/-- A slot of an element. -/
def State.slot (s : State) (e k : Nat) : Option Slot := vget (s.elem e).slots k none

def State.setSlot (s : State) (e k : Nat) (y : Slot) : State :=
  s.modElem e fun x => { x with slots := vset x.slots k (some y) }

/-- The firing a slot holds, as a fault names it (R373). -/
def State.slotFault (s : State) (e k : Nat) (y : Slot) (code addr : Nat) : FaultSrc :=
  { code := code, src := 0, reg := (s.regionOf e).getD 0, elid := e, tix := y.tix, slot := k, addr := addr,
    opc := y.word.toNat / 2 ^ 56 % 256, word := y.word, prog := y.prog % 2 ^ 32, at_ := .slot e k }

/-- Raises a fault of a firing in its slot (R371). -/
def State.failSlot (s : State) (e k code addr : Nat) : State :=
  match s.slot e k with
  | none => s
  | some y => s.raiseFault (s.slotFault e k y code addr)

/-- Marks a slot's operation as performed with its late result (R45). -/
def State.performed (s : State) (e k : Nat) (v : VW) : State :=
  match s.slot e k with
  | none => s
  | some y => s.setSlot e k { y with stage := 3, st := .late, lres := v }

/-- The trigger and update a slot's word holds. -/
def slotTU (y : Slot) : TU := decodeTU (BitVec.ofNat 32 (y.word.toNat / 2 ^ 96)) (BitVec.ofNat 32 (y.word.toNat / 2 ^ 64))

/-- Completes the firing of a slot with a result, or with none (R31, R37). -/
def State.finishSlot (s : State) (e k : Nat) (d : Dst) (r : Option Res) (spec : List (Nat × W64)) : State :=
  match s.slot e k with
  | none => s
  | some y =>
    let t := slotTU y
    let tag := tagOf t y.tagq (s.view e)
    let ef :=
      match r with
      | some r => let q := resEffect t (some k) y.seq d tag r.nonzero r; { q with fl := q.fl ||| y.fl, spec := spec }
      | none => { baseEffect t (some k) y.seq true with fl := y.fl, spec := spec }
    s.completeWith e ef

/-- Whether a slot's firing may complete now, once performed: issued in an earlier cycle, not waiting for the output buffer, and not older
than the last completion of the cycle (R32). -/
def State.inTurn (s : State) (e k : Nat) (y : Slot) : Bool :=
  let x := s.elem e
  let old := match vget (s.view e).slots k none with | some z => z.seq == y.seq | none => false
  old && !y.held && s.runs e && !s.issued.contains e && !(x.waiting.any fun w => w.slot == some k) &&
    !(x.lastDone.1 == s.cycle && y.seq < x.lastDone.2)

/-! ### Whether an element may issue -/

/-- Engine entries of a region, queue by queue (R358). -/
def State.entriesOf (s : State) (rn : Nat) : List (Nat × Nat × Entry) :=
  s.engines.flatMap fun g =>
    (List.range 8).flatMap fun q => ((vget g.2.qs q []).filter fun t => t.reg == rn).map fun t => (g.1, q, t)

/-- Whether nothing a region has issued is still to be performed: slots, engine commands and accepted MMAs (R337, R342, R361). -/
def State.idle (s : State) (rn : Nat) (r : Region) : Bool :=
  (r.elems.all fun e => (s.elem e).slots.toList.all Option.isNone) && (s.entriesOf rn).isEmpty &&
    (r.rects.all fun m => !m.busy s.cycle && m.flush.isEmpty)

/-- Units of a launch (R331). -/
def LaunchRec.units (l : LaunchRec) : Nat := (l.rcnt + l.grain - 1) / l.grain

/-- Whether the last unit of a region has completed, and for a persistent launch its pool has answered 0. -/
def Region.lastUnit (r : Region) : Bool :=
  r.unitDone && if r.launch.pers then r.poolDone else r.launch.units ≤ r.unit + 1

/-- The test of R342. -/
def State.launchDone (s : State) (rn : Nat) (r : Region) : Bool := r.phase == .running && r.lastUnit && s.idle rn r

/-- Whether a region issues nothing although it runs: a unit that is not persistent has completed, or the launch has (R337, R342). -/
def State.quiet (s : State) (rn : Nat) (r : Region) : Bool :=
  (r.unitDone && !r.launch.pers && r.doneAt < s.cycle) || s.launchDone rn r

/-- Whether an element may issue: its region runs and has not fallen quiet, it has not issued in this cycle nor is its issue withheld, no single-cycle completion
of it waits for the output buffer or did as the cycle began, and no single-cycle firing of it waits for a retry (R27, R34, R337, R371, R399). -/
def State.canTurn (s : State) (e : Nat) : Bool :=
  s.runs e && !s.issued.contains e && !s.withheld.contains e && !(s.elem e).stuck &&
    (((s.elem e).waiting ++ (s.view e).waiting).all fun w => w.slot.isSome) &&
    match (s.regionOf e) with
    | some rn => (match s.region rn with | some r => !s.quiet rn r | none => false)
    | none => false

/-- The transition the trump order picks (R27): its index and its word. -/
def State.fetch (s : State) (e : Nat) : Option Cur :=
  let x := s.view e
  (trump x (s.enabledList e x)).map fun k => ⟨e, k.1, vget x.pool k.1 0, false⟩

/-- Room for a mark that made no reservation, at the end of the cycle: what a transition that is still to fire in the cycle consumes and
reserves is counted, unless its heads make it a discard or a fault, which consume and reserve nothing (R19, R24, R144, R145, R224); an
element in which something has happened cannot be withheld any more. -/
def State.roomFor (s : State) (e p : Nat) : Bool :=
  let x := s.elem e
  match if s.canTurn e then s.fetch e else none with
  | none => x.room p
  | some c =>
    let t := decodeTU (c.word.extractLsb' 96 32) (c.word.extractLsb' 64 32)
    match shapeOf t (s.view e) with
    | .mismatch | .discard _ => x.room p
    | _ => x.count p + x.reserved p + (reserves t).count p < x.capacity p + (consumes t).count p

end Sys2Proof.Machine
end

