-- ==== Sys2Proof/Machine/Order.lean ====
section
/-! DEFINITION. What must be performed before what in one element: chains (R209), fences (R211), acquire and release (R212, R214), the
issue order of a bank port (R208), and the forced cuts that operations wait for (R369, R555). -/

namespace Sys2Proof.Machine

open Sys2Proof

/-- The memory operations of an element (R203) that take part in edges; PREF takes part in none (R490). -/
def isMemOp : Instr → Bool
  | .bld _ _ | .bst _ _ | .bldx _ _ | .bstx _ _ | .brmw _ _ | .bcas _ _ => true
  | .ld _ _ | .st _ _ | .ldo _ _ | .ldw _ _ | .stw _ _ | .atom _ _ | .red _ _ | .cas _ _ => true
  | .fence _ _ | .inv _ _ | .waita _ _ => true
  | _ => false

/-- Operations performed at the bank port in issue order (R208, R470, R477). -/
def isBankOp : Instr → Bool
  | .mxwld _ _ | .mxacc _ _ => true
  | .bld _ _ | .bst _ _ | .bldx _ _ | .bstx _ _ | .brmw _ _ | .bcas _ _ => true
  | _ => false

/-- ISAVE and IREST come after the bank operations issued before them; later ones are not ordered against them (R303). -/
def isArrayBank : Instr → Bool
  | .isave _ _ | .irest _ _ => true
  | _ => false

/-- Operations that wait for every earlier memory operation of the element (R211, R212, R214, R230, R335, R505, R513). -/
def isRelease : Instr → Bool
  | .st _ o | .red _ o | .atom _ o | .cas _ o => o.ord.toNat / 2 = 1
  | .stw _ _ | .fence _ _ | .lnch _ _ | .sopen _ _ | .rfen _ _ | .bara _ _ => true
  | _ => false

/-- Operations that every later memory operation of the element waits for (R212, R214). -/
def isAcquire : Instr → Bool
  | .ld _ o | .atom _ o | .cas _ o => o.ord.toNat % 2 = 1
  | .ldw _ _ => true
  | _ => false

def isFence : Instr → Bool
  | .fence _ _ => true
  | _ => false

/-- The scope of an operation that makes an edge; the commands of ports, barriers and queues bind at the module's (R204, R230, R505). -/
def scopeOf : Instr → Nat
  | .ld _ o | .st _ o | .ldo _ o | .ldw _ o | .stw _ o | .atom _ o | .red _ o | .cas _ o | .fence _ o => o.scp.toNat
  | _ => 4

/-- The bytes in its page that a global operation touches, from its address: pages are aligned to 64 KiB, so two names of a byte agree in
them. -/
def pageBytes (y : Slot) : Option (Nat × Nat) :=
  match y.ins with
  | .ld _ o | .st _ o | .ldo _ o | .ldw _ o | .stw _ o | .atom _ o | .red _ o | .cas _ o =>
    some ((y.opa.toNat + (sxInt o.off.toNat 20 % 65536).toNat) % 65536,
      match o.d with | .v _ => 64 | _ => if Ty.width o.ty = 64 then 8 else 4)
  | _ => none

/-- Whether two operations may touch one location; operations of the bank always may. -/
def mayMeet (z y : Slot) : Bool :=
  match pageBytes z, pageBytes y with
  | some (a, n), some (b, m) => (a < b + m && b < a + n) || a + n > 65536 || b + m > 65536
  | _, _ => true

/-- Whether an edge of a scope orders two operations. From core to module scope one point performs both for every agent, the home slice of
their bytes (R205); at element scope only the element itself is bound, which sees their order where they meet (R204, R205). -/
def binds (scope : Nat) (z y : Slot) : Bool := 1 ≤ scope || mayMeet z y

/-- Posted operations, which the element's own later operations see before they are performed. -/
def isPosted : Instr → Bool
  | .st _ _ | .stw _ _ | .red _ _ => true
  | _ => false

/-- Whether an earlier operation of the element must be performed before a later one (R550). A chain is performed in sequence order (R209,
R210, R217). A FENCE at element scope does not wait for posted operations, but what follows it meets them in order. -/
def edge (z y : Slot) : Bool :=
  (isFence z.ins && isMemOp y.ins) ||
    (isMemOp z.ins &&
      ((isRelease y.ins && binds (scopeOf y.ins) z y && !(isFence y.ins && scopeOf y.ins == 0 && isPosted z.ins)) ||
        (isAcquire z.ins && isMemOp y.ins && binds (scopeOf z.ins) z y) ||
        (z.chn != 0 && z.chn == y.chn) ||
        (0 < z.passed && z.passed ≤ y.seq && isMemOp y.ins && mayMeet z y))) ||
    (isBankOp z.ins && (isBankOp y.ins || isArrayBank y.ins))

/-- Operations of an element that are not performed yet. -/
def State.outstanding (s : State) (e : Nat) : List Slot :=
  let x := s.elem e
  (x.slots.toList.filterMap id).filter (fun y => y.stage < 3) ++ x.posted ++
    (s.updates.filter fun u => u.1 == e).map Prod.snd ++ (s.sided.filter fun u => u.1 == e).map Prod.snd

/-- ea() of R65: the 64-bit address. -/
def eaOf (o : FmtM) (y : Slot) : Nat := offsetAdd 64 (y.opa.toNat % 2 ^ 64) (sxInt o.off.toNat 20)

/-- Where an LDO reads its next bytes in the read-only buffer of its core, if they are there (R184, R455). -/
def State.roHit (s : State) (e : Nat) (y : Slot) : Option Loc :=
  match y.ins with
  | .ldo _ o =>
    let va := eaOf o y + y.sub
    (match s.resolve (coreOf e) (s.partOf e) va .load with
     | .ok l => if l.space = .dev && (SMap.find (l.at va 0 / 128) (s.core (coreOf e)).ro).isSome then some l else none
     | _ => none)
  | _ => none

/-- Whether everything ordered before an operation has been performed. An LDO that the buffer serves takes part in no edge as a reader
(R219). -/
def State.edgesMet (s : State) (e : Nat) (y : Slot) : Bool :=
  (s.outstanding e).all fun z => !(z.seq < y.seq && edge z y) || (s.roHit e z).isSome

/-- Whether an LDO that the buffer serves may read it: no INV ordered before it, on its chain or by a FENCE, is still to be performed
(R219, R456). -/
def State.roFree (s : State) (e : Nat) (y : Slot) : Bool :=
  let zs := (s.outstanding e).filter fun z => z.seq < y.seq
  zs.all fun z => match z.ins with
    | .inv _ _ => !((z.chn != 0 && z.chn == y.chn) || zs.any fun f => isFence f.ins && z.seq < f.seq)
    | _ => true

/-- Tries the operation of a slot: faults that need no other operation are raised first; the rest waits until everything ordered
before it has been performed. -/
def State.trySlot (s : State) (e k : Nat) (bad : Slot → Option (Nat × Nat)) (act : Slot → State) : State :=
  match s.slot e k with
  | none => s
  | some y =>
    if y.stage ≠ 0 || y.held then s
    else
      match bad y with
      | some (c, a) => s.failSlot e k c a
      | none => if s.edgesMet e y then act y else s

/-- Whether a slot's firing issued in an earlier cycle: what reaches its unit a cycle after issue (R299, R516). -/
def State.sentBefore (s : State) (e : Nat) (y : Slot) : Bool := !(s.issued.contains e && y.seq + 1 == (s.elem e).nseq)

/-- Whether no older firing of the element among the commands of one kind still waits to be sent (R220, R227, R299, R516). -/
def State.firstOf (s : State) (e : Nat) (y : Slot) (p : Instr → Bool) : Bool :=
  (s.elem e).slots.toList.all fun z => match z with | some z => !(z.seq < y.seq && z.stage == 0 && p z.ins) | none => true

/-- Whether an element has taken the shadow of a marker cut that its core has not been captured for: its barrier and integrator
commands and its tap arrivals wait (R556). -/
def State.cutWaits (s : State) (e : Nat) : Bool :=
  match s.regOf e with
  | none => false
  | some r =>
    match r.forming with
    | none => false
    | some _ => (SMap.find e r.newSnap.elems).isSome && (SMap.find (coreOf e) r.newSnap.cores).isNone

/-- Asks for a forced cut before a slot's operation (R369, R555). -/
def State.slotCut (s : State) (e k : Nat) (y : Slot) : State := (s.setSlot e k { y with cut := 1 }).askCut (s.regionOf e)

/-- A write that would pass the held-line budget waits for a forced cut (R367). -/
def State.slotBudget (s : State) (e k : Nat) (y : Slot) : State :=
  (s.setSlot e k { y with full := 1 }).askCut (s.regionOf e)

/-- After issue into a slot: a fault found at issue is raised, and otherwise the operation is tried at once when its unit takes it
promptly (log 3). -/
def State.promptly (s : State) (e k : Nat) (bad : Slot → Option (Nat × Nat)) (act : State → State) : State :=
  match s.slot e k with
  | none => s
  | some y =>
    match bad y with
    | some (c, a) => s.failSlot e k c a
    | none => match s.cur with | some c => if c.prompt then act s else s | none => s

end Sys2Proof.Machine
end

