-- ==== Sys2Proof/Machine/PassOps.lean ====
section
/-! DEFINITION. What a matrix pass moves in a cycle, and the bank ports that this takes (R278, R280, R281). -/

namespace Sys2Proof.Machine

open Sys2Proof

/-! ### Rectangles -/

/-- Element (c, row) of a rectangle of a region. -/
def Region.rectElem (r : Region) (m : Rect) (c row : Nat) : Nat := elemAt (8 * r.x0 + m.gx + c) (8 * r.y0 + m.gy + row)

/-- The elements of a rectangle, row by row. -/
def Region.rectElems (r : Region) (m : Rect) : List Nat := (List.range (m.w * m.h)).map fun i => r.rectElem m (i % m.w) (i / m.w)

/-- Its south edge. -/
def Region.southElems (r : Region) (m : Rect) : List Nat := (List.range m.w).map fun c => r.rectElem m c (m.h - 1)

/-- Fields of an MMA token (R275). -/
def mmaCount (t : W64) : Nat := bitsOf t.toNat 0 16
def mmaFmt (t : W64) : Nat := bitsOf t.toNat 24 2
def mmaAcc (t : W64) : Bool := t.getLsbD 27
def mmaBank (t : W64) : Bool := bitsOf t.toNat 62 2 == 1
def mmaBase (t : W64) : Nat := bitsOf t.toNat 32 16

/-! ### A pass (R278) -/

/-- The vectors that move in a cycle: those on their way, and the next of the MMA that row 0 supplies. -/
def Rect.moving (m : Rect) (supply : Bool) : List Wave :=
  m.waves ++ match m.mma with | some (t, j) => if supply then [⟨t, j, 0, [], []⟩] else [] | none => []

/-- The token a row's vector comes from under ASRC 0: the head of q(MQ + 1) of its west element. -/
def State.westHead (s : State) (r : Region) (m : Rect) (row : Nat) : Option Token :=
  let e := r.rectElem m 0 row
  (if s.closing then ((s.elem e).queue (m.mq + 1)).head? else s.standing e (m.mq + 1)).filter fun t => t.kind.readable

/-- Whether a vector finds the activation it takes in its next step; past the last row it takes none. -/
def State.supplied (s : State) (r : Region) (m : Rect) (v : Wave) : Bool :=
  m.h ≤ v.step || mmaBank v.tok || match s.westHead r m v.step with | some t => t.kind == .data | none => false

/-- The column whose accumulator row a vector writes in its next step (R280). -/
def Rect.writes (m : Rect) (v : Wave) : Option Nat := if m.h ≤ v.step + 1 && v.step + 1 - m.h < m.w then some (v.step + 1 - m.h) else none

/-- The elements whose bank ports a vector takes in its next step (R281). -/
def Region.waveBanks (r : Region) (m : Rect) (v : Wave) : List Nat :=
  (if v.step < m.h && mmaBank v.tok then [r.rectElem m 0 v.step] else []) ++
    ((m.writes v).map fun c => r.rectElem m c (m.h - 1)).toList

/-- Whether a pass takes an element's bank port in this cycle (R281). -/
def State.portTaken (s : State) (e : Nat) : Bool :=
  (s.elem e).portAt == s.cycle + 1 ||
    match s.regOf e with
    | none => false
    | some r => r.rects.any fun m =>
      let vs := m.moving true
      m.moved != s.cycle + 1 && vs.all (s.supplied r m) && vs.any fun v => (r.waveBanks m v).contains e

end Sys2Proof.Machine
end

