-- ==== Sys2Proof/Machine/NetOps.lean ====
section
/-! DEFINITION. The net instructions: NOP, EMIT, STEER, MERGE, REPL, MARK, SINK, DONE, ERLS, PSET, PADD, PRD, TAG and TRAP. -/

namespace Sys2Proof.Machine

open Sys2Proof

/-- A model's step that goes on. -/
abbrev Step1 := Host.Outcome State Fault Refusal

/-! ### The signal box (R337, R338) -/

/-- Whether every declared sink of a region has reported in the unit. -/
def State.allReported (s : State) (r : Region) : Bool :=
  r.elems.all fun e => !(s.elem e).sink || ((s.core (coreOf e)).rep.contains (elemNo e))

/-- A sink reports once in a unit; the last report completes the unit (R337), whose release and CCU write a forced cut precedes (R369). -/
def State.report1 (s : State) (e : Nat) : State :=
  let s := s.modCore (coreOf e) fun c => { c with rep := insertNat (elemNo e) c.rep }
  match s.regionOf e with
  | none => s
  | some k => s.modRegion k fun r =>
      if r.sinks && !r.unitDone && s.allReported r then
        { r with unitDone := true, doneAt := s.cycle, ccu := true, cutReq := true }
      else r

/-- Adds one to a SINK count (R518). -/
def State.sinkCount (s : State) (e : Nat) : Nat := SMap.get 0 (elemNo e) (s.core (coreOf e)).sinks
def State.bumpSink (s : State) (e : Nat) : State :=
  s.modCore (coreOf e) fun c => { c with sinks := SMap.set (elemNo e) (s.sinkCount e + 1) c.sinks }

/-! ### Meanings -/

/-- NOP (R481). -/
def execNop (t : TU) (o : FmtA) (s : State) : Step1 := .next (s.fire (.nop t o) t fun f s => s.finishPlain f)

/-- EMIT (R439). -/
def emitAct (o : FmtA) (f : Firing) (s : State) : State :=
  let vec := vecOp o
  let (a, fl) := s.read f.e f.x o.ty vec o.imm o.a
  let r : Res := ⟨Ty.work o.ty, vec, a, fl⟩
  s.finish f o.d r.nonzero r
def execEmit (t : TU) (o : FmtA) (s : State) : Step1 := .next (s.fire (.emit t o) t (emitAct o))

/-- The comparison of STEER: lane 0 of each operand (R141). -/
def steerCmp (o : FmtA) (f : Firing) (s : State) : LaneRes :=
  let (a, fa) := s.read f.e f.x o.ty false o.imm o.a
  let (b, fb) := s.read f.e f.x o.ty false o.imm o.b
  let (c, fc) := laneCmp (axcOf f.x.axc) (Ty.work o.ty) o.mod (a.headD 0) (b.headD 0)
  (c, fa ||| fb ||| fc)

/-- The passenger of STEER as a DATA token for a label (R141, R525). -/
def passenger (o : FmtA) (f : Firing) (s : State) : Token :=
  match o.c with
  | .q k => { (f.x.head k.toNat).getD (Token.bare .data true 0) with kind := .data, tag := f.tag, shr := false }
  | .v r => dataTok (f.x.vreg r.toNat) f.tag
  | c => scalarTok (Ty.work o.ty) ((s.read f.e f.x o.ty false o.imm c).1.headD 0) f.tag

/-- STEER (R141): markers go to both labels; otherwise the passenger takes OL or OL + 1, and a wrong plane raises PLN of a firing
that has issued (R29). -/
def steerAct (o : FmtA) (f : Firing) (s : State) : State :=
  match shapeOf f.t f.x with
  | .marker k =>
    let l := f.t.ol.toNat
    let b := baseEffect f.t none f.seq true
    (s.issue f).completeWith f.e { b with
      toks := [⟨l, Token.bare k (ctlLabel l) f.tag⟩, ⟨l + 1, Token.bare k (ctlLabel (l + 1)) f.tag⟩] }
  | _ =>
    let (c, fl) := steerCmp o f s
    let p := passenger o f s
    let l := labelOf f.t (c != 0)
    let isQ := match o.c with | .q _ => true | _ => false
    if isQ && p.ctl != ctlLabel f.t.ol.toNat then (s.issue f).raiseFault (faultOf f 0x09 0 8 (.issue f.e f.tix))
    else
      let b := baseEffect f.t none f.seq (c != 0)
      let w := if Ty.width o.ty = 64 then Ty.s64 else Ty.n32
      (s.issue f).completeWith f.e { b with sregs := scalarWrite w o.d c, fl := fl, toks := [⟨l, p⟩] }
def execSteer (t : TU) (o : FmtA) (s : State) : Step1 := .next (s.fire (.steer t o) t (steerAct o))

/-- MERGE (R142): the head of A goes on unchanged; a wrong plane raises PLN of a firing that has issued (R29). The plane is that of OL: with OL = 31 under OLS the other
label lies on the other plane, and the head keeps its own there, as STEER's passenger does (log 108, DESIGN CHOICE). -/
def mergeAct (o : FmtA) (f : Firing) (s : State) : State :=
  let h := match o.a with | .q k => f.x.head k.toNat | _ => none
  match h with
  | none => s.finishPlain f
  | some h =>
    let cond := h.kind == .data
    let l := labelOf f.t cond
    if h.ctl != ctlLabel f.t.ol.toNat then (s.issue f).raiseFault (faultOf f 0x09 0 8 (.issue f.e f.tix))
    else
      let b := baseEffect f.t none f.seq cond
      (s.issue f).completeWith f.e { b with toks := [⟨l, { h with tag := f.tag, shr := false }⟩] }
def execMerge (t : TU) (o : FmtA) (s : State) : Step1 := .next (s.fire (.merge t o) t (mergeAct o))

/-- REPL (R136, R502): a scalar in every lane of a data-plane token. -/
def replAct (o : FmtA) (f : Firing) (s : State) : State :=
  let (a, fl) := s.read f.e f.x o.ty false o.imm o.a
  let w := Ty.work o.ty
  let x := a.headD 0
  let y := if o.ty = .b1 then [if x % 2 = 1 then 2 ^ 64 - 1 else 0] else List.replicate (Ty.lanes w) x
  let r : Res := ⟨w, true, y, fl⟩
  s.finish f o.d r.nonzero r
def execRepl (t : TU) (o : FmtA) (s : State) : Step1 := .next (s.fire (.repl t o) t (replAct o))

/-- The later of two section numbers, in serial order modulo 2^16 (R363). -/
def serialLater (a b : Nat) : Nat := if (a + 65536 - b) % 65536 < 32768 then a else b

/-- MARK (R463). -/
def markAct (o : FmtA) (f : Firing) (s : State) : State :=
  let l := f.t.ol.toNat
  let n := (serialLater f.x.shadowN f.x.markN + 1) % 65536
  let b := baseEffect f.t none f.seq true
  let tok : Token :=
    match o.imm.toNat % 8 with
    | 1 => Token.bare .eor (ctlLabel l) f.tag
    | 2 => Token.bare .eot (ctlLabel l) f.tag
    | 3 => Token.bare .eos (ctlLabel l) f.tag
    | _ => { Token.sect n (ctlLabel l) with tag := f.tag }
  let sp : List (Nat × W64) := if o.imm.toNat % 8 = 4 then [(0x100, BitVec.ofNat 64 n)] else []
  (s.issue f).completeWith f.e { b with toks := [⟨l, tok⟩], spec := sp }
def execMark (t : TU) (o : FmtA) (s : State) : Step1 := .next (s.fire (.mark t o) t (markAct o))

/-- SINK (R518): the n-th firing of the unit reports. -/
def sinkAct (o : FmtA) (f : Firing) (s : State) : State :=
  let s := (s.finishPlain f).bumpSink f.e
  if s.sinkCount f.e = o.imm.toNat % 256 then s.report1 f.e else s
def execSink (t : TU) (o : FmtA) (s : State) : Step1 := .next (s.fire (.sink t o) t (sinkAct o))

/-- DONE (R438). -/
def execDoneOp (t : TU) (o : FmtA) (s : State) : Step1 :=
  .next (s.fire (.doneOp t o) t fun f s => (s.finishPlain f).report1 f.e)

/-- ERLS (R338, R438): the release waits for the element's earlier operations and the forced cut of R369. -/
def erlsAct (f : Firing) (s : State) : State :=
  (s.finishPlain f).modRegion f.reg fun r =>
    if r.unitRel then r else { r with erls := r.erls ++ [(f.e, f.seq, r.unit)] }
def execErls (t : TU) (o : FmtA) (s : State) : Step1 := .next (s.fire (.erls t o) t erlsAct)

/-- PSET and PADD (R486): the count is clamped to the capacity less the reservations, this firing's own among them. -/
def placeAct (add : Bool) (o : FmtA) (f : Firing) (s : State) : State :=
  let s := s.issue f
  let k := o.imm.toNat % 16
  let code := o.imm.toNat / 16 % 32 + (if add then 32 else 0)
  s.completeWith f.e (placeEffect (s.elem f.e) ⟨k, code, f.t, o.d, f.tag⟩ f.seq)
def execPset (t : TU) (o : FmtA) (s : State) : Step1 := .next (s.fire (.pset t o) t (placeAct false o))
def execPadd (t : TU) (o : FmtA) (s : State) : Step1 := .next (s.fire (.padd t o) t (placeAct true o))

/-- PRD (R486): the count at the start of the issue cycle. -/
def prdAct (o : FmtA) (f : Firing) (s : State) : State :=
  let k := (match o.a with | .imm => o.imm.toNat | a => (s.read f.e f.x .n32 false o.imm a).1.headD 0) % 16
  let r : Res := ⟨.n32, false, [f.x.count k], flNone⟩
  s.finish f o.d r.nonzero r
def execPrd (t : TU) (o : FmtA) (s : State) : Step1 := .next (s.fire (.prd t o) t (prdAct o))

/-- TAG (R531). -/
def tagAct (o : FmtA) (f : Firing) (s : State) : State :=
  let v := match o.a with | .zero => 0 | a => (s.read f.e f.x .n32 false o.imm a).1.headD 0 % 8
  let n := ((if o.imm.getLsbD 3 then f.x.tagr.toNat % 8 else 0) + v + o.imm.toNat % 8) % 8
  let r : Res := ⟨.n32, false, [n], flNone⟩
  let ef := resEffect f.t none f.seq o.d f.tag r.nonzero r
  (s.issue f).completeWith f.e { ef with spec := [(0x03, BitVec.ofNat 64 n)] }
def execTag (t : TU) (o : FmtA) (s : State) : Step1 := .next (s.fire (.tag t o) t (tagAct o))

/-- TRAP (R535): issue, then fault(TRP); no output place is marked and no token sent. -/
def trapAct (o : FmtE) (f : Firing) (s : State) : State :=
  let a := wordOf f.x o.a * 2 ^ 32 + o.imm.toNat
  let b := baseEffect f.t none f.seq true
  let s := (s.issue f).completeWith f.e { b with marks := [], toks := [] }
  s.raiseFault (faultOf f 0x0C a 8 (.issue f.e f.tix))
def execTrap (t : TU) (o : FmtE) (s : State) : Step1 := .next (s.fire (.trap t o) t (trapAct o))

end Sys2Proof.Machine
end

