-- ==== Sys2Proof/WellFormed.lean ====
section
/-! DEFINITION. The checks a transition word passes at load whatever image it stands in (R78): the structural rules of R26, the
operand rules of R57, R60 and R63, the types of R71, the MOD values of R72 and the fields each entry allows. The checks
that read the element's configuration (pair mode, sinks, routes, ports, privilege) are in Machine/Load. -/

namespace Sys2Proof

/-- Why a word is rejected at load (R78). -/
inductive WfError
  /-- A valid word names no enabling place and no required queue (R23). -/
  | noTrigger
  /-- Both enabling places are one place (R26). -/
  | samePlace
  /-- Both required queues are one queue (R26). -/
  | sameQueue
  /-- The inhibitor is an enabling place (R26). -/
  | inhibitor
  /-- A consume or dequeue bit without its place or queue (R26). -/
  | consume
  /-- TGT without QAE (R26). -/
  | tagTest
  /-- CHO is 11, or does not fit the arcs in use (R26). -/
  | choice
  /-- OLS without OLE, or with OL 127 (R26). -/
  | labelSteer
  /-- OTG from 4 to 7 (R26). -/
  | tagMode
  /-- The type is not allowed for the opcode (R71, R74). -/
  | type
  /-- The destination is not allowed (R58, the entry). -/
  | destination
  /-- A source is not allowed (R55, the entry). -/
  | source
  /-- A queue source that the trigger does not require (R57). -/
  | queueSource
  /-- An odd register in a position that needs a pair (R63). -/
  | oddPair
  /-- A scalar operation with an s destination reads a v register (R60). -/
  | vectorSource
  /-- MOD is not allowed (R72, the entry). -/
  | mod
  /-- The immediate is not allowed (R59, the entry). -/
  | immediate
  /-- SCP is not allowed (R64, R66, the entry). -/
  | scope
  /-- ORD is not allowed (R212). -/
  | ord
  /-- CHN is not allowed (R217, the entry). -/
  | chain
  /-- NTF is not allowed (R67, the entry). -/
  | notify
  /-- EQ is not allowed (R67). -/
  | engineQueue
  /-- The update the entry asks for is not set (R439, R141, R481 and others). -/
  | update
  /-- The label's class does not take the result (R122, R123). -/
  | labelClass
  deriving DecidableEq, Repr

namespace Wf

/-- The first breach of a list of checks. -/
def first : List (Bool × WfError) → Option WfError
  | [] => none
  | (ok, e) :: cs => if ok then first cs else some e

/-! ### Classes of operands and types -/

def dS : Dst → Bool | .s _ => true | _ => false
def dV : Dst → Bool | .v _ => true | _ => false
def dN : Dst → Bool | .none => true | _ => false
def dSN (d : Dst) : Bool := dS d || dN d
def dSV (d : Dst) : Bool := dS d || dV d
def dVN (d : Dst) : Bool := dV d || dN d
def dAny (_ : Dst) : Bool := true
/-- An even s register in a destination, or another kind of destination. -/
def dEven : Dst → Bool | .s r => r.toNat % 2 == 0 | _ => true

def sS : Src → Bool | .s _ => true | _ => false
def sV : Src → Bool | .v _ => true | _ => false
def sQ : Src → Bool | .q _ => true | _ => false
def sZ : Src → Bool | .zero => true | _ => false
def sI : Src → Bool | .imm => true | _ => false
def sLane : Src → Bool | .spec .lane => true | _ => false
def sAny (_ : Src) : Bool := true
def sSZ (s : Src) : Bool := sS s || sZ s
def sSQ (s : Src) : Bool := sS s || sQ s
def sSQZ (s : Src) : Bool := sS s || sQ s || sZ s
/-- An even s register in a source, or another kind of source. -/
def sEven : Src → Bool | .s r => r.toNat % 2 == 0 | _ => true
/-- An even s register. -/
def sPair : Src → Bool | .s r => r.toNat % 2 == 0 | _ => false
def sPairZ (s : Src) : Bool := sPair s || sZ s
/-- s0, s4, s8 or s12. -/
def sQuad : Src → Bool | .s r => r.toNat % 4 == 0 | _ => false

def isInt : Ty → Bool | .s32 | .n32 | .s16 | .n16 | .s8 | .n8 => true | _ => false
/-- Float types and vc (R71, R75). -/
def isFloat : Ty → Bool | .f32 | .b16 | .h16 | .vc => true | _ => false
def isInt64 (t : Ty) : Bool := isInt t || t == .s64
/-- int, float, 12 and 14 (R71). -/
def isNum (t : Ty) : Bool := isInt64 t || isFloat t
/-- Codes 0 to 12 (R71). -/
def isTy12 (t : Ty) : Bool := t != .b1 && t != .vc
/-- Codes 0 to 11 (R71). -/
def isTy11 (t : Ty) : Bool := isTy12 t && t != .s64
/-- Codes 0 to 8 and 12 (R71). -/
def isMovTy (t : Ty) : Bool := isInt64 t || t == .f32 || t == .b16 || t == .h16
def isBits (t : Ty) : Bool := isInt64 t || t == .b1
def isZero (t : Ty) : Bool := t == .s32
/-- s32, n32, f32, b16 and s64 (R71). -/
def isRmw (t : Ty) : Bool := t == .s32 || t == .n32 || t == .f32 || t == .b16 || t == .s64
def isWord (t : Ty) : Bool := t == .s32 || t == .n32 || t == .f32

/-! ### MOD (R72) -/

def modZero (_ : Ty) (m : BitVec 4) : Bool := m == 0
/-- Rounding for floats, wrap or saturate for integers. -/
def modArith (t : Ty) (m : BitVec 4) : Bool := if isFloat t then m.toNat ≤ 3 || m == 7 else m.toNat ≤ 1
/-- Rounding for floats, 0 for integers (DIV and the elementary functions). -/
def modRound (t : Ty) (m : BitVec 4) : Bool := if isFloat t then m.toNat ≤ 3 || m == 7 else m == 0
/-- Saturation of integers only (ABS, NEG, SHL). -/
def modSat (t : Ty) (m : BitVec 4) : Bool := if isFloat t then m == 0 else m.toNat ≤ 1
/-- A condition; .un and .or for floats only. -/
def modCond (t : Ty) (m : BitVec 4) : Bool := if isFloat t then m.toNat ≤ 7 else m.toNat ≤ 5
/-- CVT and QNT (R171, R435, R492); q is true for QNT, whose source is always a float. -/
def modCvt (q : Bool) (sty dty : Ty) (m : BitVec 4) : Bool :=
  let r := m.toNat % 8
  let alt := m.toNat ≥ 8
  let fsrc := q || !isInt64 sty
  let low := dty == .e4 || dty == .e5 || dty == .l6
  (r ≤ 4 || r == 7) &&
    (if isInt64 dty then (if fsrc then !alt else r == 7) else if low then true else !alt)
/-- An operation of R215. -/
def modUpdate (t : Ty) (op : Nat) : Bool :=
  if op ≤ 5 then t == .s32 || t == .n32 || t == .s64
  else if op == 6 then t == .s32 || t == .n32 || t == .s64 || t == .f32
  else t == .f32 || t == .b16

/-! ### The trigger and the update (R23, R26) -/

def tu (t : TU) : Option WfError :=
  first [
    (t.eae || t.ebe || t.qae || t.qbe, .noTrigger),
    (!(t.eae && t.ebe && t.epa == t.epb), .samePlace),
    (!(t.qae && t.qbe && t.qa == t.qb), .sameQueue),
    (!(t.iie && ((t.eae && t.ipi == t.epa) || (t.ebe && t.ipi == t.epb))), .inhibitor),
    ((!t.ca || t.eae) && (!t.cb || t.ebe) && (!t.dqa || t.qae) && (!t.dqb || t.qbe), .consume),
    (!t.tgt || t.qae, .tagTest),
    (t.cho != 3 && (t.cho != 1 || (t.o1e && t.o2e)) && (t.cho != 2 || !t.o2e) && (t.cho != 0 || !t.o2e || t.o1e), .choice),
    (!t.ols || (t.ole && t.ol != 127), .labelSteer),
    (t.otg.toNat ≤ 3, .tagMode)]

/-- A source obeys R57. -/
def queueOk (t : TU) : Src → Bool
  | .q k => (t.qae && t.qa == k) || (t.qbe && t.qb == k)
  | _ => true

/-- The class of a label (R119). -/
def labelClass (l : Nat) : Nat := l / 32

/-- Labels a transition may emit on: OL, and OL+1 under OLS. -/
def labels (t : TU) : List Nat :=
  if t.ole then (if t.ols then [t.ol.toNat, t.ol.toNat + 1] else [t.ol.toNat]) else []

/-- No label is of class 3, and a vector result goes to class 0 only (R122, R123). -/
def labelsOk (vector : Bool) (t : TU) : Bool :=
  (labels t).all fun l => labelClass l < 3 && (!vector || labelClass l == 0)

/-- A format A operation is a vector operation (R60). -/
def isVec (o : FmtA) : Bool :=
  dV o.d || (dN o.d && (sV o.a || sV o.b || sV o.c || sLane o.a || sLane o.b || sLane o.c))

/-- The immediate fits its type and stands only with an operand that reads it (R59). Two fields with 0x40 are rejected for every operation,
also where its entry does not say that one number at most may stand (log 127, DESIGN CHOICE). -/
def immOk (o : FmtA) : Bool :=
  let n := [o.a, o.b, o.c].countP sI
  n ≤ 1 && (if n == 1 then (o.ty != .l6 || o.imm.toNat < 64) else o.imm == 0)

/-- What an entry of format A allows. -/
structure EntryA where
  ty  : Ty → Bool
  d   : Dst → Bool
  a   : Src → Bool
  b   : Src → Bool := sZ
  c   : Src → Bool := sZ
  mod : FmtA → Bool := fun o => modZero o.ty o.mod
  imm : FmtA → Bool := immOk
  upd : TU → Bool := fun _ => true
  /-- Whether the scalar reading rule of R60 binds. -/
  r60 : Bool := true
  /-- Which result goes to a label. -/
  vec : FmtA → Bool := isVec

/-- The pair positions of s64 and b1 operands (R63, R402). -/
def pairsOk (o : FmtA) : Bool :=
  if o.ty == .s64 || o.ty == .b1 then dEven o.d && sEven o.a && sEven o.b && sEven o.c else true

def checkA (e : EntryA) (t : TU) (o : FmtA) (pairs : Bool := pairsOk o) : Option WfError :=
  (tu t).or <| first [
    (e.ty o.ty, .type),
    (e.d o.d, .destination),
    (e.a o.a && e.b o.b && e.c o.c, .source),
    (queueOk t o.a && queueOk t o.b && queueOk t o.c, .queueSource),
    (pairs, .oddPair),
    (!(e.r60 && dS o.d && (sV o.a || sV o.b || sV o.c)), .vectorSource),
    (e.mod o, .mod),
    (e.imm o, .immediate),
    (e.upd t, .update),
    (labelsOk (e.vec o) t, .labelClass)]

/-- OLE clear. -/
def noOle (t : TU) : Bool := !t.ole

/-- Two-source arithmetic of R400, R528, R468. -/
def arith2 (t : TU) (o : FmtA) : Option WfError :=
  checkA { ty := isNum, d := dAny, a := sAny, b := sAny, mod := fun o => modArith o.ty o.mod } t o
/-- Two-source operations with MOD 0. -/
def two (ty : Ty → Bool) (t : TU) (o : FmtA) : Option WfError :=
  checkA { ty := ty, d := dAny, a := sAny, b := sAny } t o
/-- Two-source shifts. -/
def shiftSat (t : TU) (o : FmtA) : Option WfError :=
  checkA { ty := isInt64, d := dAny, a := sAny, b := sAny, mod := fun o => modSat o.ty o.mod } t o
/-- One-source operations with saturation (ABS, NEG). -/
def oneSat (t : TU) (o : FmtA) : Option WfError :=
  checkA { ty := isNum, d := dAny, a := sAny, mod := fun o => modSat o.ty o.mod } t o
/-- One-source counts. -/
def oneCount (t : TU) (o : FmtA) : Option WfError := checkA { ty := isInt64, d := dAny, a := sAny } t o
/-- The elementary functions (R494, R519, R440, R461). -/
def elementary (t : TU) (o : FmtA) : Option WfError :=
  checkA { ty := isFloat, d := dAny, a := sAny, mod := fun o => modRound o.ty o.mod } t o

/-- The source type a CVT or QNT names (R435, R492). -/
def cvtSty (imm : BitVec 21) : Option Ty :=
  if imm.toNat < 16 then
    match tyOfCode (imm.setWidth 4) with
    | some .b1 => none
    | x => x
  else none

/-- CVT and QNT: the register pairs follow the type of each position; IMM21 holds STY, and where A is a number it is that number too
(R59, R435). -/
def convert (q : Bool) (t : TU) (o : FmtA) : Option WfError :=
  match cvtSty o.imm with
  | none => (tu t).or (some .immediate)
  | some sty =>
    checkA { ty := isTy12, d := dAny, a := sAny, b := if q then sSQ else sZ,
             mod := fun o => modCvt q sty o.ty o.mod, imm := fun _ => true } t o
      ((o.ty != .s64 || dEven o.d) && (sty != .s64 || sEven o.a))

/-- Lane movers (R537): D is a v register; a number among the data operands is read under TY, and as an index or a mask it is zero-extended
(R59, R538). Two numbers are rejected (log 127, DESIGN CHOICE). -/
def mover (ty : Ty → Bool) (b c : Src → Bool) (data : FmtA → List Src) (t : TU) (o : FmtA) (pairs : Bool := pairsOk o) : Option WfError :=
  checkA { ty := ty, d := dV, a := sAny, b := b, c := c,
           imm := fun o =>
             let n := [o.a, o.b, o.c].countP sI
             n ≤ 1 && (n == 1 || o.imm == 0) && (o.ty != .l6 || !(data o).any sI || o.imm.toNat < 64) } t o pairs

/-- Reductions (R540): A is a vector source; with a level, a required queue and an s destination. -/
def reduce (scan : Bool) (t : TU) (o : FmtA) : Option WfError :=
  let lvl := o.imm.toNat % 4
  let scalar := !scan || lvl != 0
  checkA { ty := isNum, r60 := false,
           d := fun d => if lvl != 0 then dS d else if scan then dVN d else dSN d,
           a := fun s => if lvl != 0 then sQ s else sV s || sQ s || sLane s,
           mod := fun o => modArith o.ty o.mod, imm := fun o => o.imm.toNat < 4, vec := fun _ => !scalar,
           upd := fun t => !scalar || (labels t).all fun l => labelClass l == 1 || labelClass l == 0 } t o

/-- Bits of MOVH's immediate that must be zero (R467). -/
def movhImm (o : FmtA) : Bool :=
  match o.ty with
  | .s32 | .n32 | .f32 => o.imm.toNat < 2 ^ 16
  | .s16 | .n16 | .b16 | .h16 => o.imm.toNat < 2 ^ 8
  | .s8 | .n8 => o.imm.toNat < 2 ^ 4
  | _ => true

/-! ### Format M -/

/-- What an entry of format M allows. -/
structure EntryM where
  ty  : Ty → Bool
  d   : Dst → Bool
  a   : Src → Bool := sPairZ
  b   : Src → Bool := sZ
  mod : FmtM → Bool := fun o => o.mod == 0
  scp : FmtM → Bool := fun o => o.scp == 0
  ord : FmtM → Bool := fun o => o.ord == 0
  chn : FmtM → Bool := fun _ => true
  off : FmtM → Bool := fun _ => true
  upd : TU → Bool := fun _ => true
  vec : FmtM → Bool := fun o => dV o.d

def checkM (e : EntryM) (t : TU) (o : FmtM) : Option WfError :=
  (tu t).or <| first [
    (e.ty o.ty, .type),
    (e.d o.d, .destination),
    (e.a o.a && e.b o.b, .source),
    (queueOk t o.b, .queueSource),
    (o.ty != .s64 || (dEven o.d && sEven o.b), .oddPair),
    (e.mod o, .mod),
    (e.scp o, .scope),
    (e.ord o, .ord),
    (e.chn o, .chain),
    (e.off o, .immediate),
    (e.upd t, .update),
    (labelsOk (e.vec o) t, .labelClass)]

/-- Any of the six scopes. -/
def scpAny (o : FmtM) : Bool := o.scp.toNat ≤ 5

/-- B of CAS and BCAS: an even register, or for s64 the first of four (R413, R420). -/
def casB (ty : Ty) (s : Src) : Bool := if ty == .s64 then sQuad s else sPair s

/-! ### Format E -/

/-- What an entry of format E allows. -/
structure EntryE where
  ty  : Ty → Bool := isZero
  d   : Dst → Bool := dSN
  a   : Src → Bool := sZ
  b   : Src → Bool := sZ
  c   : Src → Bool := sZ
  eq  : Bool := false
  ntf : Nat := 0
  scp : Nat × Nat := (0, 0)
  imm : FmtE → Bool := fun o => o.imm == 0
  upd : TU → Bool := fun _ => true

/-- The notify operand (R236): with NTF 1 or 3 the first of four registers, otherwise idle. -/
def notifyC (ntf : BitVec 3) (s : Src) : Bool := if ntf == 1 || ntf == 3 then sQuad s else sZ s

def checkE (e : EntryE) (t : TU) (o : FmtE) : Option WfError :=
  (tu t).or <| first [
    (e.ty o.ty, .type),
    (e.d o.d, .destination),
    (e.a o.a && e.b o.b && e.c o.c, .source),
    (queueOk t o.a && queueOk t o.b && queueOk t o.c, .queueSource),
    (e.eq || o.eq == 0, .engineQueue),
    (o.ntf.toNat ≤ e.ntf, .notify),
    (e.scp.1 ≤ o.scp.toNat && o.scp.toNat ≤ e.scp.2, .scope),
    (e.imm o, .immediate),
    (e.upd t, .update),
    (labelsOk false t, .labelClass)]

/-- A barrier in the five bits from lo, named only under NTF 2 or 3 (R67, R236). -/
def barrierBits (o : FmtE) (lo : Nat) : Bool :=
  o.ntf == 2 || o.ntf == 3 || o.imm.toNat / 2 ^ lo % 32 == 0

/-- Copy and row commands (R236). -/
def copyCmd (a : Src → Bool) (lo : Nat) (pcl : Bool) (t : TU) (o : FmtE) : Option WfError :=
  checkE { a := a, b := sSZ, c := notifyC o.ntf, eq := true, ntf := 3, scp := (lo, 5),
           imm := fun o => (if pcl then o.imm.toNat % 2 ^ 15 < 32 else o.imm.toNat < 32) && barrierBits o 0 } t o

/-- Stash commands (R315). -/
def stashImm (un : Bool) (o : FmtE) : Bool :=
  let v := o.imm.toNat
  let mem := v / 16 % 2 == 1
  v < 2 ^ 10 && barrierBits o 5 && (if un then (!mem || v / 2 % 8 == 0) else !mem)

/-- A special register number of R68. -/
def srOk (o : FmtE) : Bool := o.imm.toNat ≤ 0x0D
/-- A 64-bit special register (R68). -/
def srWide (o : FmtE) : Bool := 0x0B ≤ o.imm.toNat
/-- A register WRSR may write (R68). -/
def srWritable (o : FmtE) : Bool := 3 ≤ o.imm.toNat && o.imm.toNat ≤ 0x0D

/-- Barrier commands (R408): bits above the named fields are zero. -/
def bar (a : Src → Bool) (scp : Nat × Nat) (bits : Nat) (t : TU) (o : FmtE) : Option WfError :=
  checkE { a := a, scp := scp, imm := fun o => o.imm.toNat < 2 ^ bits } t o

/-! ### Pair halves (R73 to R75) -/

def halfTy (op : Ty → Bool) (t : Ty) : Bool :=
  op t && t != .s64 && t != .b1 && t != .e4 && t != .e5 && t != .l6

/-- The scalar half names s registers and reads no v register (R75). -/
def halfOk (vecOnly : Bool) (op : Ty → Bool) (ty : Ty) (d : BitVec 5) (srcs : List (BitVec 6)) : Option WfError :=
  let vh := d.toNat ≥ 16
  first [
    (halfTy op ty, .type),
    (vh || !vecOnly, .destination),
    (vh || srcs.all (fun s => s.toNat < 16 || s.toNat ≥ 32), .vectorSource)]

def halfR (op : Ty → Bool) (h : HalfR) : Option WfError := halfOk false op h.ty h.d [h.a, h.b]
def halfU (op : Ty → Bool) (h : HalfU) : Option WfError := halfOk false op h.ty h.d [h.a]
/-- The immediate form; a one-source operation (MOV, CLZ, POPC) ignores A, whose idle value the spec does not give: any A is accepted
(log 113, DESIGN CHOICE). -/
def halfI (op : Ty → Bool) (h : HalfI) : Option WfError :=
  (halfOk false op h.ty h.d [h.a]).or (first [(!isFloat h.ty, .type)])
def halfC (h : HalfC) : Option WfError :=
  (halfOk false isNum h.ty h.d [h.a, h.b]).or (first [(modCond h.ty h.c, .mod)])

end Wf

open Wf

/-- The first breach an instruction's own fields show (R78); an event of the part has no word to check. -/
def wfError : Instr → Option WfError
  | .nop t o => checkA { ty := isZero, d := dN, a := sZ, upd := noOle } t o
  | .emit t o => checkA { ty := fun _ => true, d := dAny, a := sAny, upd := fun t => t.ole } t o
  | .steer t o =>
    checkA { ty := isNum, d := dSN, a := sAny, b := sAny, c := sAny, mod := fun o => modCond o.ty o.mod,
             upd := fun t => t.ole && t.ols, vec := fun o => sV o.c } t o
  | .merge t o => checkA { ty := isZero, d := dN, a := sQ, upd := fun t => t.ole, vec := fun _ => false } t o
  | .repl t o =>
    checkA { ty := fun _ => true, d := dVN, a := fun s => !sV s && !sLane s, vec := fun _ => false,
             upd := fun t => t.ole && (labels t).all fun l => labelClass l == 0 } t o
  | .mark t o =>
    checkA { ty := isZero, d := dN, a := sZ, imm := fun o => 1 ≤ o.imm.toNat && o.imm.toNat ≤ 4,
             upd := fun t => t.ole && !t.ols, vec := fun _ => false } t o
  | .sink t o =>
    checkA { ty := isZero, d := dN, a := sZ, imm := fun o => 1 ≤ o.imm.toNat && o.imm.toNat ≤ 255, upd := noOle } t o
  | .doneOp t o => checkA { ty := isZero, d := dN, a := sZ, upd := noOle } t o
  | .erls t o => checkA { ty := isZero, d := dN, a := sZ, upd := noOle } t o
  | .pset t o => checkA { ty := isZero, d := dSN, a := sZ, imm := fun o => o.imm.toNat < 2 ^ 8 } t o
  | .padd t o => checkA { ty := isZero, d := dSN, a := sZ, imm := fun o => o.imm.toNat < 2 ^ 9 } t o
  | .prd t o =>
    checkA { ty := isZero, d := dSN, a := fun s => sI s || sS s,
             imm := fun o => if sI o.a then o.imm.toNat < 16 else o.imm == 0 } t o
  | .tag t o =>
    checkA { ty := isZero, d := dSN, a := sSQZ,
             imm := fun o => o.imm.toNat < 16 && (sZ o.a || o.imm.toNat % 8 == 0) } t o
  | .rpull t o => checkE {} t o
  | .lnch t o => checkE { a := sPair, b := sSZ, scp := (4, 5) } t o
  | .trap t o => checkE { d := dN, a := sSZ, imm := fun _ => true } t o
  | .mov t o => checkA { ty := fun _ => true, d := dAny, a := sAny } t o
  | .movi t o =>
    checkA { ty := isMovTy, d := dAny, a := sZ, imm := fun _ => true } t o
  | .movh t o => checkA { ty := isMovTy, d := dSV, a := sZ, imm := movhImm } t o
  | .sel t o => checkA { ty := fun _ => true, d := dAny, a := sAny, b := sAny, c := sAny } t o
  | .cmp t o => checkA { ty := isNum, d := dAny, a := sAny, b := sAny, mod := fun o => modCond o.ty o.mod } t o
  | .add t o => arith2 t o
  | .adds t o => two isInt64 t o
  | .sub t o => arith2 t o
  | .subs t o => two isInt64 t o
  | .mul t o => arith2 t o
  | .mulh t o => two isInt t o
  | .fma t o =>
    checkA { ty := isFloat, d := dAny, a := sAny, b := sAny, c := sAny, mod := fun o => modRound o.ty o.mod } t o
  | .div t o => checkA { ty := isNum, d := dAny, a := sAny, b := sAny, mod := fun o => modRound o.ty o.mod } t o
  | .min t o => two isNum t o
  | .max t o => two isNum t o
  | .clamp t o => checkA { ty := isNum, d := dAny, a := sAny, b := sAny, c := sAny } t o
  | .abs t o => oneSat t o
  | .neg t o => oneSat t o
  | .andOp t o => two isBits t o
  | .andn t o => two isBits t o
  | .orOp t o => two isBits t o
  | .xor t o => two isBits t o
  | .shl t o => shiftSat t o
  | .shr t o => two isInt64 t o
  | .sar t o => two isInt64 t o
  | .rot t o => two isInt64 t o
  | .clz t o => oneCount t o
  | .popc t o => oneCount t o
  | .cvt t o => convert false t o
  | .qnt t o => convert true t o
  | .rcp t o => elementary t o
  | .rsq t o => elementary t o
  | .sqrt t o => elementary t o
  | .exp2 t o => elementary t o
  | .log2 t o => elementary t o
  | .vbcast t o => mover isTy12 (fun s => sS s || sQ s || sI s) sZ (fun o => [o.a]) t o
  | .vperm t o => mover isTy12 sAny sAny (fun o => [o.a, o.c]) t o
  | .vzip t o => mover isTy12 sAny sAny (fun o => [o.a, o.b]) t o
  | .vuzp t o => mover isTy12 sAny sAny (fun o => [o.a, o.b]) t o
  | .vtrn t o => mover isTy12 sAny sAny (fun o => [o.a, o.b]) t o
  | .vpack t o => mover isTy11 sAny sZ (fun o => [o.a, o.b]) t o
  | .vunpk t o => mover isTy11 sAny sZ (fun o => [o.a]) t o
  | .vcmpr t o => mover isTy12 sAny sAny (fun o => [o.a, o.c]) t o (pairsOk o && sEven o.b)
  | .vxpd t o => mover isTy12 sAny sAny (fun o => [o.a, o.c]) t o (pairsOk o && sEven o.b)
  | .vred t o => reduce false t o
  | .vscan t o => reduce true t o
  | .bld t o => checkM { ty := isTy12, d := dAny, a := sSZ } t o
  | .bst t o => checkM { ty := isTy12, d := dSV, a := sSZ } t o
  | .bldx t o =>
    checkM { ty := fun _ => isTy12 o.ty, d := dSV, a := sSZ, b := fun s => sS s || sQ s || (sV s && dV o.d) } t { o with ty := if sS o.b then .s32 else o.ty }
    |>.or (first [(o.ty != .s64 || dEven o.d, .oddPair)])
  | .bstx t o =>
    checkM { ty := fun _ => isTy12 o.ty, d := dSV, a := sSZ, b := fun s => sS s || sQ s || (sV s && dV o.d) } t { o with ty := if sS o.b then .s32 else o.ty }
    |>.or (first [(o.ty != .s64 || dEven o.d, .oddPair)])
  | .brmw t o =>
    checkM { ty := isRmw, d := dAny, a := sSZ, b := fun s => sS s || sZ s || sQ s || (sV s && !dS o.d),
             mod := fun o => o.mod.toNat < 8 && modUpdate o.ty o.mod.toNat, vec := fun o => dV o.d || (dN o.d && sV o.b) } t o
  | .bcas t o => checkM { ty := isRmw, d := dSN, a := sSZ, b := casB o.ty } t o
  | .ld t o => checkM { ty := isTy12, d := dAny, scp := scpAny, ord := fun o => o.ord.toNat ≤ 1 } t o
  | .st t o => checkM { ty := isTy12, d := dSV, scp := scpAny, ord := fun o => o.ord == 0 || o.ord == 2 } t o
  | .ldo t o => checkM { ty := isTy12, d := dAny } t o
  | .ldw t o => checkM { ty := isWord, d := dSN, scp := scpAny } t o
  | .stw t o => checkM { ty := isWord, d := dS, scp := scpAny } t o
  | .atom t o =>
    checkM { ty := isRmw, d := dSN, b := sSQZ, scp := scpAny, ord := fun _ => true,
             mod := fun o => o.mod.toNat < 8 && modUpdate o.ty o.mod.toNat } t o
  | .red t o =>
    checkM { ty := isRmw, d := dN, b := sSQ, scp := scpAny, ord := fun o => o.ord == 0 || o.ord == 2,
             mod := fun o => o.mod.toNat % 8 != 6 && modUpdate o.ty (o.mod.toNat % 8),
             chn := fun o => (o.chn != 0) == (o.mod.toNat ≥ 8), upd := noOle } t o
  | .cas t o => checkM { ty := isRmw, d := dSN, b := casB o.ty, scp := scpAny, ord := fun _ => true } t o
  | .fence t o =>
    checkM { ty := isZero, d := dN, a := sZ, scp := scpAny, chn := fun o => o.chn == 0, off := fun o => o.off == 0 } t o
  | .pref t o => checkM { ty := isZero, d := dN, chn := fun o => o.chn == 0 } t o
  | .inv t o => checkM { ty := isZero, d := dN, a := sZ, off := fun o => o.off == 0 } t o
  | .sopen t o => checkE { a := sSZ, b := sSZ, scp := (1, 5), imm := fun o => o.imm.toNat < 8 } t o
  | .sparm t o =>
    checkE { a := if o.imm.toNat / 8 % 8 == 0 then sPair else sSZ, imm := fun o => o.imm.toNat < 32 } t o
  | .sclose t o => checkE { imm := fun o => o.imm.toNat < 8 } t o
  | .srec t o =>
    checkE { d := fun d => dS d && (!(o.imm.toNat / 8 == 3 || o.imm.toNat / 8 == 4) || dEven d),
             imm := fun o => o.imm.toNat < 56 } t o
  | .rfen t o => checkE { scp := (1, 5), imm := fun o => 1 ≤ o.imm.toNat && o.imm.toNat ≤ 255 } t o
  | .gath t o =>
    checkE { ty := fun t => t == .s32 || t == .n32, a := sQuad, b := sSZ, c := notifyC o.ntf, eq := true, ntf := 1,
             scp := (3, 5), imm := fun o => o.imm.toNat < 2 ^ 6 } t o
  | .scat t o =>
    checkE { ty := fun t => t == .s32 || t == .n32, a := sQuad, b := sSZ, c := notifyC o.ntf, eq := true, ntf := 3,
             scp := (3, 5), imm := fun o => o.imm.toNat < 2 ^ 11 && barrierBits o 6 } t o
  | .cpy t o => copyCmd sQuad 2 false t o
  | .fill t o => copyCmd sQuad 2 true t o
  | .qfen t o => checkE { eq := true, imm := fun o => 1 ≤ o.imm.toNat && o.imm.toNat ≤ 255 } t o
  | .rcopy t o => copyCmd sQuad 3 false t o
  | .rzero t o => copyCmd sPair 3 false t o
  | .stash t o =>
    checkE { ty := fun t => t == .f32 || t == .b16, a := sPair, b := sPair, c := notifyC o.ntf, eq := true, ntf := 3,
             scp := (3, 5), imm := stashImm false } t o
  | .unstash t o =>
    let mem := o.imm.toNat / 16 % 2 == 1
    checkE { ty := fun t => t == .f32 || t == .b16, a := if mem then sQuad else sPair, b := sPair, c := notifyC o.ntf,
             eq := true, ntf := if mem then 3 else 1, scp := (3, 5), imm := stashImm true } t o
  | .coll t o =>
    checkE { ty := fun t => t == .s32 || t == .n32 || t == .f32 || t == .b16, a := sQuad, b := sQuad, c := notifyC o.ntf,
             eq := true, ntf := 3, scp := (4, 5),
             imm := fun o =>
               let v := o.imm.toNat
               v < 2 ^ 9 && v % 4 != 3 && v / 4 % 4 != 3 && (v % 4 != 1 || v / 4 % 4 == 0) && barrierBits o 4 } t o
  | .pimabEnter t o => checkE { a := sPair, eq := true, scp := (3, 5), imm := fun o => o.imm == 1 } t o
  | .pimabLeave t o => checkE { a := sPair, eq := true, scp := (3, 5), imm := fun o => o.imm == 0 } t o
  | .pimld t o =>
    checkE { ty := fun t => t == .h16, a := sPair, b := fun s => sV s || sQ s, c := sSZ, eq := true, scp := (3, 5) } t o
  | .pimmac t o => checkE { ty := fun t => t == .h16, a := sPair, c := sSZ, eq := true, scp := (3, 5) } t o
  | .pimrd t o =>
    checkE { ty := fun t => t == .f32, a := sPair, c := sSZ, eq := true, scp := (3, 5),
             imm := fun o => o.imm.toNat < 256 && o.imm.toNat % 128 < 32 } t o
  | .mxmodeEnter t o => checkE { a := sPair, imm := fun o => o.imm == 1 } t o
  | .mxmodeEnterSplit t o => checkE { a := sPair, imm := fun o => o.imm == 0x8001 } t o
  | .mxmodeLeave t o => checkE { imm := fun o => o.imm == 0 } t o
  | .mxwld t o =>
    checkE { ty := fun t => t == .b16 || t == .e4 || t == .e5 || t == .l6, a := sSZ,
             b := if o.imm.toNat / 2 % 2 == 1 then sSZ else sZ, imm := fun o => o.imm.toNat < 4 } t o
  | .mxc t o =>
    checkE { a := sPair, upd := fun t => t.ole && !t.ols && labelClass t.ol.toNat == 1 } t o
  | .mxacc t o =>
    checkE { ty := fun t => t == .f32, a := sSZ, b := sS, imm := fun o => o.imm.toNat < 256 && o.imm.toNat % 128 < 32 } t o
  | .ipatch t o => checkE { a := sPair, b := sSZ, c := sSZ } t o
  | .icfg t o => checkE { a := sSZ, b := sS, c := sSZ } t o
  | .iset t o => checkE { a := sS, b := sSZ, imm := fun o => o.imm.toNat ≤ 2 } t o
  | .iget t o => checkE { d := dS, a := sSZ, imm := fun o => o.imm.toNat ≤ 5 } t o
  | .istep t o => checkE { a := sS, b := if o.imm == 1 then sZ else sSQZ, imm := fun o => o.imm.toNat ≤ 1 } t o
  | .isave t o => checkE { a := sSZ, b := sSZ, c := sS } t o
  | .irest t o => checkE { a := sSZ, b := sSZ, c := sS } t o
  | .ifeed t o => checkE { a := sSQ } t o
  | .isamp t o =>
    checkE { a := sSZ, b := sS, imm := fun o => o.imm.toNat < 2 ^ 9 && o.imm.toNat % 128 < 32 && o.imm.toNat / 128 ≤ 2 } t o
  | .bari t o => bar sSZ (0, 0) 5 t o
  | .bara t o => bar sSZ (1, 5) 5 t o
  | .barw t o => bar sSZ (0, 5) 9 t o
  | .bart t o =>
    checkE { ty := fun t => t == .s32 || t == .s64, a := if o.ty == .s64 then sPair else sSZ, imm := fun o => o.imm.toNat < 32 } t o
  | .barq t o =>
    checkE { d := fun d => dS d && (o.imm.toNat / 32 % 4 != 2 || dEven d),
             imm := fun o => o.imm.toNat < 2 ^ 7 && o.imm.toNat / 32 ≤ 2 } t o
  | .waita t o => checkE { a := sPair, b := sSZ, imm := fun o => o.imm.toNat < 32 } t o
  | .note t o => checkE { a := sQuad, eq := true, scp := (2, 5) } t o
  | .rdsr t o => checkE { d := fun d => dS d && (!srWide o || dEven d), imm := srOk } t o
  | .wrsr t o =>
    checkE { d := fun d => dSN d && (!srWide o || dEven d), a := fun s => if srWide o then sPairZ s else sSQZ s,
             imm := srWritable } t o
  | .time t o => checkE { d := fun d => dSN d && dEven d } t o
  | .cfgw t o => checkE { a := sQuad, b := sSZ } t o
  | .frz t o => checkE { a := if o.imm == 1 then sZ else sS, imm := fun o => o.imm.toNat ≤ 1 } t o
  | .pairMov h => halfU (fun _ => true) h
  | .pairMovImm h => halfI (fun _ => true) h
  | .pairAdd h => halfR isNum h
  | .pairAddImm h => halfI isNum h
  | .pairAdds h => halfR isInt h
  | .pairAddsImm h => halfI isInt h
  | .pairSub h => halfR isNum h
  | .pairSubImm h => halfI isNum h
  | .pairSubs h => halfR isInt h
  | .pairSubsImm h => halfI isInt h
  | .pairMul h => halfR isNum h
  | .pairMulImm h => halfI isNum h
  | .pairMulh h => halfR isInt h
  | .pairMulhImm h => halfI isInt h
  | .pairMin h => halfR isNum h
  | .pairMinImm h => halfI isNum h
  | .pairMax h => halfR isNum h
  | .pairMaxImm h => halfI isNum h
  | .pairAbs h => halfU isNum h
  | .pairNeg h => halfU isNum h
  | .pairAnd h => halfR isInt h
  | .pairAndImm h => halfI isInt h
  | .pairAndn h => halfR isInt h
  | .pairAndnImm h => halfI isInt h
  | .pairOr h => halfR isInt h
  | .pairOrImm h => halfI isInt h
  | .pairXor h => halfR isInt h
  | .pairXorImm h => halfI isInt h
  | .pairShl h => halfR isInt h
  | .pairShlImm h => halfI isInt h
  | .pairShr h => halfR isInt h
  | .pairShrImm h => halfI isInt h
  | .pairSar h => halfR isInt h
  | .pairSarImm h => halfI isInt h
  | .pairRot h => halfR isInt h
  | .pairRotImm h => halfI isInt h
  | .pairClz h => halfU isInt h
  | .pairClzImm h => halfI isInt h
  | .pairPopc h => halfU isInt h
  | .pairPopcImm h => halfI isInt h
  | .pairCmp h => halfC h
  | .pairSteer h => halfC h
  | .pairVbcast h =>
    (halfOk true isTy12 h.ty h.d [h.a, h.b]).or (first [(!(16 ≤ h.b.toNat && h.b.toNat < 32), .source)])
  | .pairVbcastImm h => (halfOk true isTy12 h.ty h.d [h.a]).or (first [(!isFloat h.ty, .type)])
  | _ => none

/-- The instruction passes the checks of R78 that its own fields decide. -/
def Instr.wf (i : Instr) : Bool := (wfError i).isNone

/-- A queue a pair half reads (R57). -/
def halfQueueOk (t : TU) (s : BitVec 6) : Bool :=
  s.toNat < 32 || queueOk t (.q (BitVec.ofNat 5 (s.toNat - 32)))

/-- The destination and the sources a pair half names. -/
def halfFields (i : Instr) : Option (BitVec 5 × List (BitVec 6)) :=
  match layoutOf i with
  | .half sop _ d a b _ => some (d, if sop.toNat ≥ 32 then [a] else [a, b])
  | _ => none

/-- The first breach of a pair (R40, R57, R75). -/
def pairError (t : TU) (sc vh : Instr) : Option WfError :=
  ((tu t).or ((wfError sc).or (wfError vh))).or <|
    match halfFields sc, halfFields vh with
    | some (d1, s1), some (d2, s2) =>
      first [
        (d1.toNat < 16 && d2.toNat ≥ 16, .destination),
        ((s1 ++ s2).all (halfQueueOk t), .queueSource),
        ((match sc with | .pairSteer _ => t.ole && t.ols | _ => true), .update),
        (labelsOk true t, .labelClass)]
    | _, _ => some .source

/-- The first breach of what a word decodes to. -/
def Decoded.wfError : Decoded → Option WfError
  | .single i => Sys2Proof.wfError i
  | .pair t sc vh => pairError t sc vh

end Sys2Proof
end

