-- ==== Sys2Proof/Machine/AluOps.lean ====
section
/-! DEFINITION. The arithmetic instructions of format A: moves, selection, comparison, integer and float arithmetic, bits, shifts,
counts and conversions (R400 to R548), each lane by lane under the AXC of its completion (R151). -/

namespace Sys2Proof.Machine

open Sys2Proof

/-! ### Forms shared by lanes -/

/-- Lanes of one operand through an operation. -/
def mapRes (g : Nat → LaneRes) (xs : List Nat) : List Nat × Fl :=
  (xs.map fun x => (g x).1, xs.foldl (fun f x => f ||| (g x).2) flNone)

/-- Lanes of two operands through an operation. -/
def mapRes2 (g : Nat → Nat → LaneRes) (xs ys : List Nat) : List Nat × Fl :=
  let rs := List.zipWith g xs ys
  (rs.map Prod.fst, rs.foldl (fun f r => f ||| r.2) flNone)

/-- One source (R401). -/
def oneSrc (g : Axc → Ty → Nat → LaneRes) (o : FmtA) (f : Firing) (s : State) : State :=
  let vec := vecOp o
  let w := Ty.work o.ty
  let (a, fa) := s.read f.e f.x o.ty vec o.imm o.a
  let (y, fl) := mapRes (g (axcOf f.x.axc) w) a
  let r : Res := ⟨w, vec, y, fa ||| fl⟩
  s.finish f o.d r.nonzero r

/-- Two sources (R401). -/
def twoSrc (g : Axc → Ty → Nat → Nat → LaneRes) (o : FmtA) (f : Firing) (s : State) : State :=
  let vec := vecOp o
  let w := Ty.work o.ty
  let (a, fa) := s.read f.e f.x o.ty vec o.imm o.a
  let (b, fb) := s.read f.e f.x o.ty vec o.imm o.b
  let (y, fl) := mapRes2 (g (axcOf f.x.axc) w) a b
  let r : Res := ⟨w, vec, y, fa ||| fb ||| fl⟩
  s.finish f o.d r.nonzero r

/-- Three sources. -/
def threeSrc (g : Axc → Ty → Nat → Nat → Nat → LaneRes) (o : FmtA) (f : Firing) (s : State) : State :=
  let vec := vecOp o
  let w := Ty.work o.ty
  let (a, fa) := s.read f.e f.x o.ty vec o.imm o.a
  let (b, fb) := s.read f.e f.x o.ty vec o.imm o.b
  let (c, fc) := s.read f.e f.x o.ty vec o.imm o.c
  let rs := List.zipWith (fun ab c => g (axcOf f.x.axc) w ab.1 ab.2 c) (a.zip b) c
  let r : Res := ⟨w, vec, rs.map Prod.fst, fa ||| fb ||| fc ||| rs.foldl (fun f r => f ||| r.2) flNone⟩
  s.finish f o.d r.nonzero r

/-! ### Moves and selection (R467, R517) -/

def execMov (t : TU) (o : FmtA) (s : State) : Step1 := .next (s.fire (.mov t o) t (oneSrc (fun _ _ a => (a, flNone)) o))

/-- MOVI (R467). -/
def moviAct (o : FmtA) (f : Firing) (s : State) : State :=
  let vec := vecOp o
  let (a, fl) := s.read f.e f.x o.ty vec o.imm .imm
  let r : Res := ⟨o.ty, vec, a, fl⟩
  s.finish f o.d r.nonzero r
def execMovi (t : TU) (o : FmtA) (s : State) : Step1 := .next (s.fire (.movi t o) t (moviAct o))

/-- The upper part of a lane replaced by the immediate (R467). -/
def movhLane (ty : Ty) (imm : BitVec 21) (old : Nat) : Nat :=
  match Ty.width ty with
  | 64 => old % 2 ^ 32 + offsetAdd 32 0 (sxInt imm.toNat 21) * 2 ^ 32
  | 32 => old % 2 ^ 16 + imm.toNat % 2 ^ 16 * 2 ^ 16
  | 16 => old % 2 ^ 8 + imm.toNat % 2 ^ 8 * 2 ^ 8
  | _ => old % 16 + imm.toNat % 16 * 16

/-- D read as a source. -/
def dstSrc : Dst → Src
  | .s r => .s r
  | .v r => .v r
  | .none => .zero

/-- MOVH (R467). -/
def movhAct (o : FmtA) (f : Firing) (s : State) : State :=
  let vec := vecOp o
  let (a, fl) := s.read f.e f.x o.ty vec o.imm (dstSrc o.d)
  let r : Res := ⟨o.ty, vec, a.map (movhLane o.ty o.imm), fl⟩
  s.finish f o.d r.nonzero r
def execMovh (t : TU) (o : FmtA) (s : State) : Step1 := .next (s.fire (.movh t o) t (movhAct o))

/-- SEL (R517): C is read as raw lanes; under b1 bit k of C chooses bit k. -/
def selAct (o : FmtA) (f : Firing) (s : State) : State :=
  let vec := vecOp o
  let w := Ty.work o.ty
  let (a, fa) := s.read f.e f.x o.ty vec o.imm o.a
  let (b, fb) := s.read f.e f.x o.ty vec o.imm o.b
  let (c, _) := s.read f.e f.x w vec o.imm o.c
  let pick (ab : Nat × Nat) (c : Nat) : Nat :=
    if o.ty = .b1 then (ab.1 &&& c) ||| (ab.2 &&& (c ^^^ (2 ^ 64 - 1))) else if c ≠ 0 then ab.1 else ab.2
  let r : Res := ⟨w, vec, List.zipWith pick (a.zip b) c, fa ||| fb⟩
  s.finish f o.d r.nonzero r
def execSel (t : TU) (o : FmtA) (s : State) : Step1 := .next (s.fire (.sel t o) t (selAct o))

/-! ### Comparison and arithmetic -/

/-- CMP (R429): 1 or 0 in each lane; a scalar fills 32 bits, or a pair for s64. -/
def cmpAct (o : FmtA) (f : Firing) (s : State) : State :=
  let vec := vecOp o
  let w := Ty.work o.ty
  let (a, fa) := s.read f.e f.x o.ty vec o.imm o.a
  let (b, fb) := s.read f.e f.x o.ty vec o.imm o.b
  let (y, fl) := mapRes2 (laneCmp (axcOf f.x.axc) w o.mod) a b
  let rt := if vec then w else if Ty.width w = 64 then Ty.s64 else Ty.n32
  let r : Res := ⟨rt, vec, y, fa ||| fb ||| fl⟩
  s.finish f o.d (r.vals.headD 0 % 2 == 1) r
def execCmp (t : TU) (o : FmtA) (s : State) : Step1 := .next (s.fire (.cmp t o) t (cmpAct o))

def execAdd (t : TU) (o : FmtA) (s : State) : Step1 := .next (s.fire (.add t o) t (twoSrc (fun x w => laneAdd x w o.mod) o))
def execAdds (t : TU) (o : FmtA) (s : State) : Step1 := .next (s.fire (.adds t o) t (twoSrc (fun _ w => laneAdds w) o))
def execSub (t : TU) (o : FmtA) (s : State) : Step1 := .next (s.fire (.sub t o) t (twoSrc (fun x w => laneSub x w o.mod) o))
def execSubs (t : TU) (o : FmtA) (s : State) : Step1 := .next (s.fire (.subs t o) t (twoSrc (fun _ w => laneSubs w) o))
def execMul (t : TU) (o : FmtA) (s : State) : Step1 := .next (s.fire (.mul t o) t (twoSrc (fun x w => laneMul x w o.mod) o))
def execMulh (t : TU) (o : FmtA) (s : State) : Step1 := .next (s.fire (.mulh t o) t (twoSrc (fun _ w => laneMulh w) o))
def execFma (t : TU) (o : FmtA) (s : State) : Step1 := .next (s.fire (.fma t o) t (threeSrc (fun x w => laneFma x w o.mod) o))
def execMin (t : TU) (o : FmtA) (s : State) : Step1 := .next (s.fire (.min t o) t (twoSrc (fun x w => laneMinMax false x w) o))
def execMax (t : TU) (o : FmtA) (s : State) : Step1 := .next (s.fire (.max t o) t (twoSrc (fun x w => laneMinMax true x w) o))
def execClamp (t : TU) (o : FmtA) (s : State) : Step1 := .next (s.fire (.clamp t o) t (threeSrc (fun x w => laneClamp x w) o))
def execAbs (t : TU) (o : FmtA) (s : State) : Step1 := .next (s.fire (.abs t o) t (oneSrc (fun _ w => laneAbs w o.mod) o))
def execNeg (t : TU) (o : FmtA) (s : State) : Step1 := .next (s.fire (.neg t o) t (oneSrc (fun _ w => laneNeg w o.mod) o))
def execAndOp (t : TU) (o : FmtA) (s : State) : Step1 := .next (s.fire (.andOp t o) t (twoSrc (fun _ _ => laneAnd) o))
def execAndn (t : TU) (o : FmtA) (s : State) : Step1 := .next (s.fire (.andn t o) t (twoSrc (fun _ w => laneAndn w) o))
def execOrOp (t : TU) (o : FmtA) (s : State) : Step1 := .next (s.fire (.orOp t o) t (twoSrc (fun _ _ => laneOr) o))
def execXor (t : TU) (o : FmtA) (s : State) : Step1 := .next (s.fire (.xor t o) t (twoSrc (fun _ _ => laneXor) o))
def execShl (t : TU) (o : FmtA) (s : State) : Step1 := .next (s.fire (.shl t o) t (twoSrc (fun _ w => laneShl w o.mod) o))
def execShr (t : TU) (o : FmtA) (s : State) : Step1 := .next (s.fire (.shr t o) t (twoSrc (fun _ w => laneShr w) o))
def execSar (t : TU) (o : FmtA) (s : State) : Step1 := .next (s.fire (.sar t o) t (twoSrc (fun _ w => laneSar w) o))
def execRot (t : TU) (o : FmtA) (s : State) : Step1 := .next (s.fire (.rot t o) t (twoSrc (fun _ w => laneRot w) o))
def execClz (t : TU) (o : FmtA) (s : State) : Step1 := .next (s.fire (.clz t o) t (oneSrc (fun _ w => laneClz w) o))
def execPopc (t : TU) (o : FmtA) (s : State) : Step1 := .next (s.fire (.popc t o) t (oneSrc (fun _ w => lanePopc w) o))

/-! ### Conversion (R436, R493) -/

/-- Lanes converted one after another, LFSR stepping from each to the next (R165). -/
def convLanes (g : W32 → Nat → ConvRes) (l : W32) : List Nat → List Nat × Fl × W32
  | [] => ([], flNone, l)
  | x :: xs =>
    let r := g l x
    let (ys, f, l') := convLanes g r.lfsr xs
    (r.raw :: ys, r.fl ||| f, l')

/-- CVT and QNT: the first min(lanes(STY), lanes(TY)) lanes are converted and the higher lanes are zero. -/
def convAct (q : Bool) (o : FmtA) (f : Firing) (s : State) : State :=
  let vec := vecOp o
  let sty := (Wf.cvtSty o.imm).getD .n32
  let ax := axcOf f.x.axc
  let (a, fa) := s.read f.e f.x sty vec o.imm o.a
  let (b, _) := s.read f.e f.x .f32 false o.imm o.b
  let m := if vec then min (Ty.lanes sty) (Ty.lanes o.ty) else 1
  let g (l : W32) (x : Nat) : ConvRes :=
    if q then laneQnt ax (Ty.work sty) o.ty o.mod l x (b.headD 0) else laneCvt ax (Ty.work sty) o.ty o.mod l x
  let (y, fl, l) := convLanes g f.x.lfsr (a.take m)
  let n := if vec then Ty.lanes o.ty else 1
  let r : Res := ⟨o.ty, vec, y ++ List.replicate (n - m) 0, fa ||| fl⟩
  let ef := resEffect f.t none f.seq o.d f.tag r.nonzero r
  (s.issue f).completeWith f.e { ef with lfsr := if l = f.x.lfsr then none else some l }
def execCvt (t : TU) (o : FmtA) (s : State) : Step1 := .next (s.fire (.cvt t o) t (convAct false o))
def execQnt (t : TU) (o : FmtA) (s : State) : Step1 := .next (s.fire (.qnt t o) t (convAct true o))

/-! ### Divide and elementary functions: multi-cycle (R30) -/

/-- A source of a multi-cycle operation as its slot captures it: a queue head read under vc stays in its channel's format, and is decoded at
completion (R131, R151, R353). -/
def State.capture1 (s : State) (f : Firing) (o : FmtA) (c : Src) : VW :=
  let vec := vecOp o
  match o.ty, c with
  | .vc, .q k =>
    (match f.x.head k.toNat with
     | some t => let fmt := (vget f.x.chans k.toNat Chan.default).fmt; packLanes fmt (headLanes t fmt vec)
     | none => 0)
  | _, _ => packLanes (Ty.work o.ty) (s.read f.e f.x o.ty vec o.imm c).1

/-- Issue into a slot with the operands captured (R353). -/
def slotAct (i : Instr) (o : FmtA) (two : Bool) (f : Firing) (s : State) : State :=
  (s.takeSlot f i (s.capture1 f o o.a) (if two then s.capture1 f o o.b else 0) 0 flNone 0).1

def execDiv (t : TU) (o : FmtA) (s : State) : Step1 := .next (s.fire (.div t o) t (slotAct (.div t o) o true))
def execRcp (t : TU) (o : FmtA) (s : State) : Step1 := .next (s.fire (.rcp t o) t (slotAct (.rcp t o) o false))
def execRsq (t : TU) (o : FmtA) (s : State) : Step1 := .next (s.fire (.rsq t o) t (slotAct (.rsq t o) o false))
def execSqrt (t : TU) (o : FmtA) (s : State) : Step1 := .next (s.fire (.sqrt t o) t (slotAct (.sqrt t o) o false))
def execExp2 (t : TU) (o : FmtA) (s : State) : Step1 := .next (s.fire (.exp2 t o) t (slotAct (.exp2 t o) o false))
def execLog2 (t : TU) (o : FmtA) (s : State) : Step1 := .next (s.fire (.log2 t o) t (slotAct (.log2 t o) o false))

/-- The lanes of a source that a slot captured, with the flags of channel decoding: by the channel entry of its read (R132), under the FTZ
of the completion (R151). -/
def slotLanes (ax : Axc) (ch : Chan) (o : FmtA) (c : Src) (w : VW) : List Nat × Fl :=
  let n := if vecOp o then Ty.lanes (Ty.work o.ty) else 1
  match o.ty, c with
  | .vc, .q _ =>
    mapRes (chanDecode ax.ftz ch.fmt ch.scOn ch.scale.toNat) ((lanesOf ch.fmt w).take n)
  | _, _ => ((lanesOf (Ty.work o.ty) w).take n, flNone)

/-- Completes a multi-cycle operation of format A under the AXC of the completion, which is that of the cycle it is applied in (R151, R353,
log 22, DEDUCED); an integer division by zero
under TDZ faults instead, and sets DZ (R159). -/
def State.finishAlu (s : State) (e k : Nat) (o : FmtA) (g : Axc → Ty → Nat → Nat → LaneRes × Bool) : State :=
  match s.slot e k with
  | none => s
  | some y =>
    let w := Ty.work o.ty
    let x := s.view e
    let (a, fa) := slotLanes (axcOf x.axc) (y.dec.getD 0 Chan.default) o o.a y.opa
    let (b, fb) := slotLanes (axcOf x.axc) (y.dec.getD 1 Chan.default) o o.b y.opb
    let rs := List.zipWith (g (axcOf x.axc) w) a b
    if rs.any Prod.snd then
      (s.modElem e fun x => { x with axs := x.axs ||| flDZ, lastDone := (s.cycle, y.seq + 1) }).failSlot e k 0x0B 0
    else
      let fl := rs.foldl (fun f r => f ||| r.1.2) (fa ||| fb)
      s.finishSlot e k o.d (some ⟨w, vecOp o, rs.map fun r => r.1.1, fl⟩) []

end Sys2Proof.Machine
end

