-- ==== Sys2Proof/Machine/VecOps.lean ====
section
/-! DEFINITION. The lane movers (R537 to R539) and VRED and VSCAN with their marker levels (R143, R173, R174, R540 to R542). -/

namespace Sys2Proof.Machine

open Sys2Proof

/-! ### Operands of the lane movers (R538) -/

/-- Data, table and fill operands: raw lanes, a scalar broadcast. -/
def dataLanes (o : FmtA) (f : Firing) (s : State) (c : Src) : List Nat := (s.read f.e f.x o.ty true o.imm c).1

/-- Index and half operands: raw lanes; a number is its 21 bits in every lane. -/
def indexLanes (o : FmtA) (f : Firing) (s : State) (c : Src) : List Nat :=
  match c with
  | .imm => List.replicate (Ty.lanes o.ty) o.imm.toNat
  | c => dataLanes o f s c

/-- The half operand's bit 0. -/
def halfOf (o : FmtA) (f : Firing) (s : State) (c : Src) : Nat := (indexLanes o f s c).headD 0 % 2

/-- A mask, read as a b1 operand. -/
def maskOf (o : FmtA) (f : Firing) (s : State) (c : Src) : Nat := (s.read f.e f.x .b1 false o.imm c).1.headD 0

/-! ### What the movers form (R539) -/

def lane (xs : List Nat) (i : Nat) : Nat := xs.getD i 0

def permLanes (n : Nat) (a ix : List Nat) (c : Option (List Nat)) : List Nat :=
  ix.map fun i =>
    match c with
    | none => lane a (i % n)
    | some c => let m := i % (2 * n); if m < n then lane a m else lane c (m - n)

def zipLanes (n h : Nat) (a b : List Nat) : List Nat :=
  (List.range (n / 2)).flatMap fun j => [lane a (h * (n / 2) + j), lane b (h * (n / 2) + j)]

def uzpLanes (n h : Nat) (a b : List Nat) : List Nat :=
  ((List.range (n / 2)).map fun j => lane a (2 * j + h)) ++ ((List.range (n / 2)).map fun j => lane b (2 * j + h))

def trnLanes (n h : Nat) (a b : List Nat) : List Nat :=
  (List.range (n / 2)).flatMap fun j => [lane a (2 * j + h), lane b (2 * j + h)]

def unpkLanes (n h : Nat) (a : List Nat) : List Nat :=
  ((List.range (n / 2)).map fun j => lane a (h * (n / 2) + j)) ++ List.replicate (n / 2) 0

/-- Lanes whose mask bit is set, in order, then the fill. -/
def cmprLanes (mask : Nat) (a c : List Nat) : List Nat :=
  let kept := ((List.range a.length).filter mask.testBit).map (lane a)
  kept ++ c.drop kept.length

/-- Lanes taken in order where the mask bit is set, and the fill elsewhere. -/
def xpdLanes (mask : Nat) : Nat → List Nat → List Nat → List Nat
  | _, _, [] => []
  | k, a, c :: cs =>
    if mask.testBit k then a.headD 0 :: xpdLanes mask (k + 1) a.tail cs else c :: xpdLanes mask (k + 1) a cs

/-- Writes and emits moved lanes. -/
def moved (o : FmtA) (f : Firing) (s : State) (y : List Nat) : State :=
  let r : Res := ⟨o.ty, true, y, flNone⟩
  s.finish f o.d r.nonzero r

/-! ### Meanings of the movers -/

def execVbcast (t : TU) (o : FmtA) (s : State) : Step1 :=
  .next (s.fire (.vbcast t o) t fun f s =>
    let n := Ty.lanes o.ty
    moved o f s (List.replicate n (lane (dataLanes o f s o.a) ((indexLanes o f s o.b).headD 0 % n))))

def execVperm (t : TU) (o : FmtA) (s : State) : Step1 :=
  .next (s.fire (.vperm t o) t fun f s =>
    moved o f s (permLanes (Ty.lanes o.ty) (dataLanes o f s o.a) (indexLanes o f s o.b)
      (match o.c with | .zero => none | c => some (dataLanes o f s c))))

def execVzip (t : TU) (o : FmtA) (s : State) : Step1 :=
  .next (s.fire (.vzip t o) t fun f s =>
    moved o f s (zipLanes (Ty.lanes o.ty) (halfOf o f s o.c) (dataLanes o f s o.a) (dataLanes o f s o.b)))

def execVuzp (t : TU) (o : FmtA) (s : State) : Step1 :=
  .next (s.fire (.vuzp t o) t fun f s =>
    moved o f s (uzpLanes (Ty.lanes o.ty) (halfOf o f s o.c) (dataLanes o f s o.a) (dataLanes o f s o.b)))

def execVtrn (t : TU) (o : FmtA) (s : State) : Step1 :=
  .next (s.fire (.vtrn t o) t fun f s =>
    moved o f s (trnLanes (Ty.lanes o.ty) (halfOf o f s o.c) (dataLanes o f s o.a) (dataLanes o f s o.b)))

def execVpack (t : TU) (o : FmtA) (s : State) : Step1 :=
  .next (s.fire (.vpack t o) t fun f s =>
    let h := Ty.lanes o.ty / 2
    moved o f s ((dataLanes o f s o.a).take h ++ (dataLanes o f s o.b).take h))

def execVunpk (t : TU) (o : FmtA) (s : State) : Step1 :=
  .next (s.fire (.vunpk t o) t fun f s => moved o f s (unpkLanes (Ty.lanes o.ty) (halfOf o f s o.b) (dataLanes o f s o.a)))

def execVcmpr (t : TU) (o : FmtA) (s : State) : Step1 :=
  .next (s.fire (.vcmpr t o) t fun f s =>
    moved o f s (cmprLanes (maskOf o f s o.b) (dataLanes o f s o.a) (dataLanes o f s o.c)))

def execVxpd (t : TU) (o : FmtA) (s : State) : Step1 :=
  .next (s.fire (.vxpd t o) t fun f s =>
    moved o f s (xpdLanes (maskOf o f s o.b) 0 (dataLanes o f s o.a) (dataLanes o f s o.c)))

/-! ### VRED and VSCAN -/

/-- The add both work with, under MOD (R173). -/
def redAdd (o : FmtA) (f : Firing) : Nat → Nat → LaneRes := laneAdd (axcOf f.x.axc) (Ty.work o.ty) o.mod

/-- A marker at a level form (R143): at level L or above the running value goes out as DATA before it and D is cleared; below L
the marker goes on alone. -/
def levelMarker (o : FmtA) (k : Kind) (f : Firing) (s : State) : State :=
  let l := f.t.ol.toNat
  let w := Ty.work o.ty
  let b := baseEffect f.t none f.seq true
  let m : OutTok := ⟨l, Token.bare k (ctlLabel l) f.tag⟩
  if o.imm.toNat % 4 ≤ k.level then
    let v := (s.read f.e f.x w false o.imm (dstSrc o.d)).1.headD 0
    (s.issue f).completeWith f.e { b with
      sregs := scalarWrite w o.d 0
      toks := if f.t.ole then [⟨l, scalarTok w v f.tag⟩, m] else [] }
  else (s.issue f).completeWith f.e { b with toks := if f.t.ole then [m] else [] }

/-- A running value written to D and not emitted; its condition follows it (R143). -/
def levelValue (o : FmtA) (f : Firing) (s : State) (v : Nat) (fl : Fl) : State :=
  let w := Ty.work o.ty
  let r : Res := ⟨w, false, [v], fl⟩
  let ef := resEffect f.t none f.seq o.d f.tag r.nonzero r
  (s.issue f).completeWith f.e { ef with toks := [] }

/-- VRED (R541, R542). -/
def vredAct (o : FmtA) (f : Firing) (s : State) : State :=
  let add := redAdd o f
  match shapeOf f.t f.x with
  | .marker k => levelMarker o k f s
  | _ =>
    let w := Ty.work o.ty
    let (a, fa) := s.read f.e f.x o.ty true o.imm o.a
    let (x, fl) := treeSum add 7 a
    if o.imm.toNat % 4 = 0 then
      let r : Res := ⟨w, false, [x], fa ||| fl⟩
      s.finish f o.d r.nonzero r
    else
      let (v, g) := add ((s.read f.e f.x w false o.imm (dstSrc o.d)).1.headD 0) x
      levelValue o f s v (fa ||| fl ||| g)
def execVred (t : TU) (o : FmtA) (s : State) : Step1 := .next (s.fire (.vred t o) t (vredAct o))

/-- VSCAN (R541, R542). -/
def vscanAct (o : FmtA) (f : Firing) (s : State) : State :=
  let add := redAdd o f
  match shapeOf f.t f.x with
  | .marker k => levelMarker o k f s
  | _ =>
    let w := Ty.work o.ty
    let (a, fa) := s.read f.e f.x o.ty true o.imm o.a
    if o.imm.toNat % 4 = 0 then
      let (y, fl) := scanSum add a
      let r : Res := ⟨w, true, y, fa ||| fl⟩
      s.finish f o.d r.nonzero r
    else
      let (y, fl) := scanFrom add ((s.read f.e f.x w false o.imm (dstSrc o.d)).1.headD 0) a
      levelValue o f s (y.getLastD 0) (fa ||| fl)
def execVscan (t : TU) (o : FmtA) (s : State) : Step1 := .next (s.fire (.vscan t o) t (vscanAct o))

end Sys2Proof.Machine
end

