-- ==== Sys2Proof/Machine/BankOps.lean ====
section
/-! DEFINITION. The bank of an element and its port (R178 to R182, R366), and BLD, BST, BLDX, BSTX, BRMW and BCAS (R413 to R419). -/

namespace Sys2Proof.Machine

open Sys2Proof

/-! ### Rows of the bank (R366) -/

/-- A bank row as a vector word. -/
def bankRow (x : Elem) (r : Nat) : VW := BitVec.ofNat 512 (natLE (Memory.read x.bank (64 * r) 64))

/-- The rows of a run of bank bytes. -/
def rowsOf (a n : Nat) : List Nat := if n = 0 then [] else (List.range ((a + n - 1) / 64 - a / 64 + 1)).map fun i => a / 64 + i

/-- Rows among some that the open interval has not logged. -/
def unlogged (x : Elem) (rows : List Nat) : List Nat :=
  rows.eraseDups.filter fun r => !(x.undo.any fun u => u.row == r && u.interval == x.shadowN)

/-- Whether the undo buffer of 32 rows has room for them (R366). -/
def undoRoom (x : Elem) (rows : List Nat) : Bool := x.undo.length + (unlogged x rows).length ≤ 32

/-- Logs the pre-images of rows about to be written, by a fill or not. -/
def logRows (x : Elem) (rows : List Nat) (fill : Bool) : Elem :=
  let new := (unlogged x rows).map fun r => ⟨r, bankRow x r, x.shadowN, fill⟩
  let old := x.undo.map fun u => if fill && u.interval == x.shadowN && rows.contains u.row then { u with fill := true } else u
  { x with undo := old ++ new }

/-- Writes bank bytes, logged, without more. -/
def Elem.bankPut (x : Elem) (a : Nat) (bs : List Byte) (fill : Bool := false) : Elem :=
  let x := logRows x (rowsOf a bs.length) fill
  { x with bank := Memory.write x.bank a bs }

/-- The mode of the quarter of a bank address (R178). -/
def Elem.quarter (x : Elem) (a : Nat) : QMode := vget x.bmode (a / 16384 % 4) .scr

/-- Takes an element whose bank bytes have been written: dirty bytes of a MAP quarter are recorded, and a written line of a MAP or RNG
quarter is tested by its watches (R180, R544). -/
def State.bankTake (s : State) (e a n : Nat) (y : Elem) : State :=
  let q := a / 16384 % 4
  match y.quarter a with
  | .map =>
    let s := s.setElem e { y with dirty := (List.range n).foldl (fun d i => insertNat (a + i) d) y.dirty }
    (match SMap.find (a / 512) y.filled with | some d => s.testWatches (d + a % 512) n | none => s)
  | .rng => (s.setElem e y).testWatches ((vget y.qphys q 0).toNat + (a - 16384 * q)) n
  | _ => s.setElem e y

/-- Writes bank bytes as the element's own port does, logged. -/
def State.bankWrite (s : State) (e a : Nat) (bs : List Byte) : State := s.bankTake e a bs.length ((s.elem e).bankPut a bs)

/-- The unfilled granules of MAP quarters that some bank bytes lie in. -/
def unfilled (x : Elem) (as : List Nat) : List Nat :=
  ((as.filter fun a => x.quarter a == .map).map (· / 512)).eraseDups.filter fun g => (SMap.find g x.filled).isNone

/-- The address a granule of a MAP quarter maps, and its place as it translates now (R179, R180, R194, R195). -/
def granuleAddr (x : Elem) (g : Nat) : Nat := (vget x.qbase (g / 32) 0).toNat + g % 32 * 512
def State.granulePlace (s : State) (e g : Nat) : Xlat := s.resolve (coreOf e) (s.partOf e) (granuleAddr (s.elem e) g) .quarter

/-- Fills a granule from its home (R180). -/
def State.fillGranule (s : State) (e g : Nat) : State :=
  match s.granulePlace e g with
  | .ok l =>
    let bs := s.devRead l.addr 512
    (s.fillTlb (coreOf e) (s.partOf e) (granuleAddr (s.elem e) g)).modElem e fun x =>
      { x.bankPut (g * 512) bs true with filled := SMap.set g l.addr x.filled }
  | _ => s

/-- A granule of lent lines is not kept: the lending bank takes what the access has written to it (R181). -/
def State.unborrow (s : State) (e g : Nat) : State :=
  match SMap.find g (s.elem e).filled with
  | none => s
  | some a =>
    if !s.lentRun a 512 then s
    else
      let x := s.elem e
      let ds := x.dirty.filter fun o => o / 512 == g
      let s := s.setElem e { x with dirty := x.dirty.filter fun o => o / 512 != g, filled := x.filled.filter fun k => k.1 != g }
      let s := ds.foldl (fun s o => s.homePut (s.writer e) false (a + o % 512) [Memory.byte x.bank o]) s
      if ds.isEmpty then s else s.testWatches a 512

/-! ### Who has the port (R281, R303, R419) -/

def IArray.cell (a : IArray) (i : Nat) : Cell := SMap.get Cell.reset i a.cells
def IArray.dom (a : IArray) (d : Nat) : Dom := vget a.doms d ⟨1, 0, 0x40000, 0, 0, 0, 0, []⟩
/-- Fields of a patch entry. -/
def patchEn (p : W64) : Bool := p.getLsbD 63
def patchDom (p : W64) : Nat := bitsOf p.toNat 60 3

/-- The domain that a cell belongs to, if it is enabled (R298). -/
def Cell.domain (c : Cell) : Option Nat := if patchEn c.patch then some (patchDom c.patch) else none

def Dom.run (d : Dom) : Bool := d.dst.getLsbD 31

/-- Whether the domains of some cells are stopped (R298). -/
def IArray.idle (a : IArray) (ds : List (Option Nat)) : Bool :=
  ds.all fun d => match d with | some d => !(a.dom d).run | none => true

/-- The cells first to first + n − 1. -/
def cellRange (first n : Nat) : List Nat := (List.range n).map (first + ·)

def arg (v : VW) : Nat := v.toNat % 2 ^ 32

/-- The integrator commands. -/
def isIntOp : Instr → Bool
  | .ipatch _ _ | .icfg _ _ | .iset _ _ | .iget _ _ | .istep _ _ | .isave _ _ | .irest _ _ | .ifeed _ _ | .isamp _ _ => true
  | _ => false

/-- An integrator command has arrived at its array, and the step-clock cycle ends (R299). -/
def State.atArray (s : State) (e : Nat) (y : Slot) : Bool :=
  s.cycle % 2 == 1 && s.sentBefore e y && s.firstOf e y isIntOp && !s.cutWaits e && s.runs e

/-- Whether an ISAVE or IREST of the element takes its bank port in this cycle (R303, R419). -/
def State.arrayWants (s : State) (e : Nat) : Bool :=
  let a := (s.core (coreOf e)).arr
  (s.elem e).slots.toList.any fun y =>
    match y with
    | none => false
    | some y =>
      isArrayBank y.ins && y.stage == 0 && !y.held && s.atArray e y && s.edgesMet e y &&
        a.idle ((cellRange (arg y.opb) (arg y.opc)).map fun i => (a.cell i).domain)

/-- What the port of a bank does with an access of slot k of e that touches the given bytes, each of n at an address: it waits while a matrix
pass has the port (R281); one that is not an integrator command's waits for those, and while an access before it has the port, a cycle for
each row it touches (R416, R419); it fills what it must, as far as the undo buffer has room, waits there for a cut, and acts (R180, R366,
R418). An access that another agent's is forwarded to takes no cycle of the port (log 132, DESIGN CHOICE). -/
def State.portAccess (s : State) (first : Bool) (b e k n : Nat) (as : List Nat) (write : Bool) (act : State → State) : State :=
  let x := s.elem b
  let gs := unfilled x (as.flatMap fun a => [a, a + (n - 1)])
  let bad := gs.findSome? fun g =>
    match s.granulePlace b g with
    | .ok _ => none
    | .fault c => some (some (c, granuleAddr x g))
    | .miss => some none
  match bad with
  | some (some (c, va)) => s.failSlot e k c va
  | some none => s
  | none =>
    if s.portTaken b then s.modElem e fun x => { x with portWait := s.cycle + 1 }
    else if !first && (s.cycle < x.bankAt || s.arrayWants b) then s
    else
    let s := gs.foldl (fun s g => if undoRoom (s.elem b) (rowsOf (g * 512) 512) then s.fillGranule b g else s) s
    let rows := if write then as.flatMap fun a => rowsOf a n else []
    if (unfilled (s.elem b) (as.flatMap fun a => [a, a + (n - 1)])).isEmpty && undoRoom (s.elem b) rows then
      (gs.foldl (fun s g => s.unborrow b g) (act s)).modElem b fun x =>
        { x with bankAt := max x.bankAt s.cycle + (as.flatMap fun a => rowsOf a n).eraseDups.length }
    else s.askCut (s.regionOf e)

/-- An access to the element's own bank. -/
def State.bankAccess (s : State) (e k n : Nat) (as : List Nat) (write : Bool) (act : State → State) : State :=
  s.portAccess false e e k n as write act

/-! ### Capture at issue (R353) -/

/-- D as the register stored. -/
def storedOf (x : Elem) (ty : Ty) (d : Dst) : VW :=
  match d with
  | .s r => if Ty.width ty = 64 then BitVec.ofNat 512 (x.pair r.toNat).toNat else BitVec.ofNat 512 (x.sreg r.toNat).toNat
  | .v r => x.vreg r.toNat
  | .none => 0

/-- Whether an operand is a vector: a v register or a data-plane head (R414, R416). -/
def wideSrc (x : Elem) : Src → Bool
  | .v _ => true
  | .q k => match x.head k.toNat with | some t => !t.ctl | none => false
  | _ => false

/-- Whether D is a v register. -/
def Dst.isV : Dst → Bool
  | .v _ => true
  | _ => false

/-- The base address (R65, R414). -/
def bankBase (o : FmtM) (y : Slot) : Nat := offsetAdd 16 (y.opa.toNat % 65536) (sxInt o.off.toNat 20)

/-- The faults of a bank operation at issue: a misaligned base (R414), or a write to a WGT quarter (R182). -/
def bankBad (o : FmtM) (align : Slot → Nat) (as : Slot → List Nat) (write : Bool) (x : Elem) (y : Slot) : Option (Nat × Nat) :=
  if bankBase o y % align y ≠ 0 then some (0x05, 0)
  else if write && (as y).any fun a => x.quarter a == .wgt then some (0x07, 0)
  else none

/-- A bank operation issues: base, second operand and stored register are captured. -/
def bankIssue (i : Instr) (o : FmtM) (b : VW) (wide : Bool) (bad : Elem → Slot → Option (Nat × Nat))
    (perf : Nat → Nat → State → State) (f : Firing) (s : State) : State :=
  let (s, k) := s.takeSlot f i (BitVec.ofNat 512 (wordOf f.x o.a)) b (storedOf f.x o.ty o.d) flNone o.chn.toNat
  let s := match s.slot f.e k with | some y => s.setSlot f.e k { y with wide := wide } | none => s
  s.promptly f.e k (bad (s.elem f.e)) (perf f.e k)

/-- The bytes of one access. -/
def accessBytes (o : FmtM) (wide : Bool) : Nat := if wide then 64 else tyBytes o.ty

/-- A loaded value as a result (R415). -/
def loadRes (ty : Ty) (wide : Bool) (v : VW) : Res :=
  ⟨ty, wide, if wide then lanesOf ty v else [v.toNat % 2 ^ Ty.width ty], flNone⟩

/-- n bank bytes as a vector word. -/
def bankRead (x : Elem) (a n : Nat) : VW := BitVec.ofNat 512 (natLE (Memory.read x.bank a n))

/-! ### BLD and BST -/

/-- One access at the base: its faults at issue. -/
def oneBad (o : FmtM) (write : Bool) : Elem → Slot → Option (Nat × Nat) :=
  bankBad o (fun y => accessBytes o y.wide) (fun y => [bankBase o y]) write

def performBld (o : FmtM) (e k : Nat) (s : State) : State :=
  s.trySlot e k (oneBad o false (s.elem e)) fun y =>
    let n := accessBytes o y.wide
    let a := bankBase o y
    s.bankAccess e k n [a] false fun s => s.performed e k (bankRead (s.elem e) a n)

def execBld (t : TU) (o : FmtM) (s : State) : Step1 :=
  .next (s.fire (.bld t o) t (bankIssue (.bld t o) o 0 (Dst.isV o.d) (oneBad o false) (performBld o)))

def performBst (o : FmtM) (e k : Nat) (s : State) : State :=
  s.trySlot e k (oneBad o true (s.elem e)) fun y =>
    let n := accessBytes o y.wide
    let a := bankBase o y
    s.bankAccess e k n [a] true fun s => (s.bankWrite e a (bytesLE n y.opc.toNat)).performed e k 0

def execBst (t : TU) (o : FmtM) (s : State) : Step1 :=
  .next (s.fire (.bst t o) t (bankIssue (.bst t o) o 0 (Dst.isV o.d) (oneBad o true) (performBst o)))

/-! ### BLDX and BSTX (R416) -/

/-- The index operand: s32 for a scalar, lanes of TY for a vector. -/
def indexCapture (o : FmtM) (f : Firing) (s : State) : VW :=
  if wideSrc f.x o.b then packLanes o.ty (s.read f.e f.x o.ty true 0 o.b).1
  else BitVec.ofNat 512 ((s.read f.e f.x .s32 false 0 o.b).1.headD 0)

/-- The bytes of each access of an indexed operation, also the alignment of its base (R414). -/
def indexBytes (o : FmtM) (y : Slot) : Nat := if y.wide then tyBytes o.ty else if Dst.isV o.d then 64 else tyBytes o.ty

/-- The addresses of an indexed access. -/
def indexAddrs (o : FmtM) (y : Slot) : List Nat :=
  let a := bankBase o y
  if y.wide then (lanesOf o.ty y.opb).map fun i => (a + i * tyBytes o.ty) % 65536
  else [offsetAdd 16 a (sxInt y.opb.toNat 32 * (indexBytes o y : Int))]

def indexBad (o : FmtM) (write : Bool) : Elem → Slot → Option (Nat × Nat) := bankBad o (indexBytes o) (indexAddrs o) write

def performBldx (o : FmtM) (e k : Nat) (s : State) : State :=
  s.trySlot e k (indexBad o false (s.elem e)) fun y =>
    let n := indexBytes o y
    let as := indexAddrs o y
    s.bankAccess e k n as false fun s =>
      let x := s.elem e
      s.performed e k (BitVec.ofNat 512 (joinLanes (8 * n) (as.map fun a => (bankRead x a n).toNat)))

def execBldx (t : TU) (o : FmtM) (s : State) : Step1 :=
  .next (s.fire (.bldx t o) t fun f s =>
    bankIssue (.bldx t o) o (indexCapture o f s) (wideSrc f.x o.b) (indexBad o false) (performBldx o) f s)

def performBstx (o : FmtM) (e k : Nat) (s : State) : State :=
  s.trySlot e k (indexBad o true (s.elem e)) fun y =>
    let n := indexBytes o y
    let as := indexAddrs o y
    s.bankAccess e k n as true fun s =>
      let s := ((List.range as.length).zip as).foldl
        (fun s (j, a) => s.bankWrite e a (bytesLE n (y.opc.toNat / 2 ^ (8 * n * j)))) s
      s.performed e k 0

def execBstx (t : TU) (o : FmtM) (s : State) : Step1 :=
  .next (s.fire (.bstx t o) t fun f s =>
    bankIssue (.bstx t o) o (indexCapture o f s) (wideSrc f.x o.b) (indexBad o true) (performBstx o) f s)

/-! ### Completion (R415) -/

/-- Completes a bank operation that returns a value. -/
def State.finishLoad (s : State) (e k : Nat) (ty : Ty) (d : Dst) (wide : Bool) : State :=
  match s.slot e k with
  | none => s
  | some y => s.finishSlot e k d (some (loadRes ty wide y.lres)) []

/-- Completes an operation that returns nothing. -/
def State.finishNone (s : State) (e k : Nat) : State := s.finishSlot e k .none none []

/-! ### BRMW and BCAS (R417) -/

/-- Whether a BRMW is wide (R414). -/
def brmwWide (x : Elem) (o : FmtM) : Bool := Dst.isV o.d || wideSrc x o.b

/-- The bank bytes change under AXC of the completion (R151): an fadd is performed in the cycle it completes in. -/
def performBrmw (o : FmtM) (e k : Nat) (s : State) : State :=
  s.trySlot e k (oneBad o true (s.elem e)) fun y =>
    let sums := o.mod.toNat % 8 = 7
    if sums && !s.inTurn e k y then s
    else
    let n := accessBytes o y.wide
    let a := bankBase o y
    s.bankAccess e k n [a] true fun before =>
      let s := before
      let ax := axcOf (s.view e).axc
      let old := bankRead (s.elem e) a n
      let xs := (lanesOf o.ty old).take (if y.wide then Ty.lanes o.ty else 1)
      let rs := List.zipWith (updateOp (o.mod.toNat % 8) o.ty ax.rm ax.ftz) xs (lanesOf o.ty y.opb)
      let new := packLanes o.ty (rs.map Prod.fst)
      let s := (s.bankWrite e a (bytesLE n new.toNat)).performed e k old
      let t := match s.slot e k with
        | some z => s.setSlot e k { z with fl := z.fl ||| rs.foldl (fun f r => f ||| r.2) flNone }
        | none => s
      let u := t.finishLoad e k o.ty o.d (y.wide || Dst.isV o.d)
      if !sums then t else if (u.slot e k).isNone then u else before

def execBrmw (t : TU) (o : FmtM) (s : State) : Step1 :=
  .next (s.fire (.brmw t o) t fun f s =>
    let w := brmwWide f.x o
    bankIssue (.brmw t o) o (packLanes o.ty (s.read f.e f.x o.ty w 0 o.b).1) w (oneBad o true) (performBrmw o) f s)

/-- Comparand and new value of a register group (R417, R420): registers of 4 bytes, pairs for s64. -/
def groupCas (ty : Ty) (g : VW) : Nat × Nat :=
  let u := if Ty.width ty = 64 then 64 else 32
  (g.toNat % 2 ^ u % 2 ^ Ty.width ty, g.toNat / 2 ^ u % 2 ^ u % 2 ^ Ty.width ty)

def performBcas (o : FmtM) (e k : Nat) (s : State) : State :=
  s.trySlot e k (oneBad o true (s.elem e)) fun y =>
    let n := tyBytes o.ty
    let a := bankBase o y
    s.bankAccess e k n [a] true fun s =>
      let old := bankRead (s.elem e) a n
      let (c, w) := groupCas o.ty y.opb
      let s := if old.toNat = c then s.bankWrite e a (bytesLE n w) else s
      s.performed e k old

def execBcas (t : TU) (o : FmtM) (s : State) : Step1 :=
  .next (s.fire (.bcas t o) t fun f s =>
    bankIssue (.bcas t o) o (groupOf f.x o.b) false (oneBad o true) (performBcas o) f s)

/-! ### Results -/

/-- Whether a BLDX returns a vector. -/
def bldxVec (o : FmtM) (y : Slot) : Bool := y.wide || Dst.isV o.d

end Sys2Proof.Machine
end

