-- ==== Sys2Proof/Machine/GlobalOps.lean ====
section
/-! DEFINITION. The global memory operations of an element: LD, ST, LDO, LDW, STW, ATOM, RED, CAS, FENCE, PREF and INV (R205 to R219,
R403 to R407, R420 to R422, R441, R450 to R459, R489, R490, R499 to R501, R520 to R527). -/

namespace Sys2Proof.Machine

open Sys2Proof

/-! ### Issue and address -/

/-- Bytes of a load or store: a vector word when D is a v register (R452, R521). -/
def memBytes (o : FmtM) : Nat := accessBytes o (Dst.isV o.d)

/-- ALN at issue for the operations of R216. -/
def alnBad (o : FmtM) (y : Slot) : Option (Nat × Nat) := if eaOf o y % tyBytes o.ty ≠ 0 then some (0x05, eaOf o y) else none

/-- No fault at issue. -/
def noBad (_ : Slot) : Option (Nat × Nat) := none

/-- A global operation issues: base, second operand and stored register are captured. -/
def memIssue (i : Instr) (o : FmtM) (b : VW) (bad : Slot → Option (Nat × Nat)) (perf : Nat → Nat → State → State) (f : Firing)
    (s : State) : State :=
  let (s, k) := s.takeSlot f i (BitVec.ofNat 512 (pairOf f.x o.a)) b (storedOf f.x o.ty o.d) flNone o.chn.toNat
  s.promptly f.e k bad (perf f.e k)

/-- An element's access: translated and checked through its core's TLB; a fault holds the firing, a miss of a PASID waits. -/
def State.elemAccess (s : State) (e k va n : Nat) (a : Access) (act : List (Loc × Nat) → State → State) : State :=
  match s.resolveRun (coreOf e) (s.partOf e) va n a with
  | .fault c va => s.failSlot e k c va
  | .miss _ => s
  | .ok ls => act ls (s.fillRun (coreOf e) (s.partOf e) va n)

/-- A host or peer write waits in its slot for a forced cut (R369, R555). -/
def State.farGate (s : State) (e k : Nat) (y : Slot) (ls : List (Loc × Nat)) (act : State → State) : State :=
  if farRun ls && y.cut != 2 then (if y.cut = 0 then s.slotCut e k y else s) else act s

/-- After an irrevocable operation a second forced cut follows (R369). -/
def State.afterFar (s : State) (e : Nat) (y : Slot) : State := if y.cut = 2 then s.askSecond (s.regionOf e) else s

/-! ### LD (R452): an access that is not aligned reads its bytes one at a time -/

def performLd (o : FmtM) (e k : Nat) (s : State) : State :=
  s.trySlot e k noBad fun y =>
    let n := memBytes o
    let a := eaOf o y
    if a % n = 0 then
      s.elemAccess e k a n .load fun ls s => s.performed e k (BitVec.ofNat 512 (natLE (s.readRun a ls)))
    else
      s.elemAccess e k (a + y.sub) 1 .load fun ls s =>
        let v := y.lres ||| BitVec.ofNat 512 (natLE (s.readRun (a + y.sub) ls) * 2 ^ (8 * y.sub))
        if y.sub + 1 < n then s.setSlot e k { y with sub := y.sub + 1, lres := v } else s.performed e k v

def execLd (t : TU) (o : FmtM) (s : State) : Step1 :=
  .next (s.fire (.ld t o) t (memIssue (.ld t o) o 0 noBad (performLd o)))

/-! ### ST (R521): accepted when it translates, performed later -/

/-- The memory interface accepts a posted operation: its firing may complete (R206). -/
def State.accept (s : State) (e k : Nat) (y : Slot) : State :=
  (s.modElem e fun x => { x with posted := x.posted ++ [y] }).performed e k 0

def performSt (o : FmtM) (e k : Nat) (s : State) : State :=
  match s.slot e k with
  | none => s
  | some y =>
    if y.stage ≠ 0 || y.held then s
    else s.elemAccess e k (eaOf o y) (memBytes o) .store fun ls s => s.farGate e k y ls fun s => s.accept e k y

def execSt (t : TU) (o : FmtM) (s : State) : Step1 :=
  .next (s.fire (.st t o) t (memIssue (.st t o) o 0 noBad (performSt o)))

/-- The firing a posted operation came from, as a fault names it. -/
def State.postedFault (s : State) (e : Nat) (y : Slot) (code addr : Nat) : FaultSrc :=
  { s.slotFault e 0 y code addr with prog := 0, at_ := .posted e y.seq }

/-- Replaces or removes a posted operation. -/
def State.setPosted (s : State) (e : Nat) (y : Slot) : State :=
  s.modElem e fun x => { x with posted := x.posted.map fun z => if z.seq = y.seq then y else z }
def State.dropPosted (s : State) (e : Nat) (y : Slot) : State :=
  s.modElem e fun x => { x with posted := x.posted.filter fun z => z.seq != y.seq }

/-- Performs a posted ST at its home, within the windows of a peer (R395). -/
def postSt (o : FmtM) (e : Nat) (y : Slot) (s : State) : State :=
  let n := memBytes o
  let a := eaOf o y
  let whole := a % n = 0
  let va := if whole then a else a + y.sub
  let m := if whole then n else 1
  let bs := bytesLE m (y.opc.toNat / 2 ^ (8 * y.sub))
  match s.resolveRun (coreOf e) (s.partOf e) va m .store with
  | .fault c va => s.raiseFault (s.postedFault e y c va)
  | .miss _ => s
  | .ok ls =>
    let w := s.writer e
    if s.runFull w ls && y.full != 2 then (s.setPosted e { y with full := 1 }).askCut w.reg
    else if !s.canSend (peerBytes ls) then s
    else
      let s := (s.spend (peerBytes ls)).writeRun { w with hold := w.hold && y.full != 2 } va ls bs
      if !whole && y.sub + 1 < n then s.setPosted e { y with sub := y.sub + 1 } else (s.dropPosted e y).afterFar e y

/-! ### LDO (R455): through the read-only buffer of the core -/

/-- Brings a line into a core's buffer; a full buffer drops a line the spec leaves open (log 9). -/
def State.fetchRo (s : State) (c line : Nat) (raw : Bool) : State :=
  let k := s.core c
  if (SMap.find line k.ro).isSome then s
  else
    let l := BitVec.ofNat 1024 (natLE (if raw then s.rowRead (line * 128) 128 else s.devRead (line * 128) 128))
    if k.ro.length < 128 then s.setCore c { k with ro := SMap.set line l k.ro }
    else
      let i := (Config.freeWord s.free).toNat % 128
      { s.setCore c { k with ro := SMap.set line l (k.ro.eraseIdx i) } with free := s.free + 1 }

/-- A byte as the buffer holds it. -/
def State.roByte (s : State) (c a : Nat) : Byte :=
  match SMap.find (a / 128) (s.core c).ro with
  | some l => BitVec.ofNat 8 (l.toNat / 2 ^ (8 * (a % 128)))
  | none => s.devByte a

/-- Reads a resolved run through a core's buffer; host and peer pages bypass it. -/
def State.roRun (s : State) (c va : Nat) : List (Loc × Nat) → State × List Byte
  | [] => (s, [])
  | (l, n) :: ls =>
    match l.space with
    | .dev =>
      let as := (List.range n).map (l.at va)
      let s := ((as.map (· / 128)).eraseDups).foldl (fun s line => s.fetchRo c line (l.ptype = 3)) s
      let (s', bs) := s.roRun c (va + n) ls
      (s', as.map (s.roByte c) ++ bs)
    | _ =>
      let (s', bs) := s.roRun c (va + n) ls
      (s', s.readLoc va l n ++ bs)

/-- The next bytes of an LDO: those of one line, and of a host or peer page those that an LD reads at once. -/
def ldoPart (o : FmtM) (e k : Nat) (y : Slot) (l : Loc) (s : State) : State :=
  let n := memBytes o
  let a := eaOf o y
  let va := a + y.sub
  let m := if l.space = .dev then min (n - y.sub) (128 - va % 128) else if a % n = 0 then n else 1
  let (s, bs) := (s.fillTlb (coreOf e) (s.partOf e) va).roRun (coreOf e) va [(l, m)]
  let v := y.lres ||| BitVec.ofNat 512 (natLE bs * 2 ^ (8 * y.sub))
  if y.sub + m < n then s.setSlot e k { y with sub := y.sub + m, lres := v } else s.performed e k v

/-- LDO reads each line on its own; the buffer serves it past every edge but an INV's, and otherwise it obeys those of an LD (R219, R455). -/
def performLdo (o : FmtM) (e k : Nat) (s : State) : State :=
  match s.slot e k with
  | none => s
  | some y =>
    match s.roHit e y with
    | some l => if y.stage = 0 && !y.held && s.roFree e y then ldoPart o e k y l s else s
    | none =>
      s.trySlot e k noBad fun y =>
        s.elemAccess e k (eaOf o y + y.sub) 1 .load fun ls s => match ls with | (l, _) :: _ => ldoPart o e k y l s | [] => s

def execLdo (t : TU) (o : FmtM) (s : State) : Step1 :=
  .next (s.fire (.ldo t o) t (memIssue (.ldo t o) o 0 noBad (performLdo o)))

/-! ### LDW and STW (R213, R458, R526) -/

def performLdw (o : FmtM) (e k : Nat) (s : State) : State :=
  s.trySlot e k (alnBad o) fun y =>
    s.elemAccess e k (eaOf o y) 4 .wordRead fun ls s =>
      match ls with
      | (l, _) :: _ =>
        if s.present (s.regionOf e) (l.addr / 4) then s.performed e k (BitVec.ofNat 512 (natLE (s.devRead l.addr 4)))
        else s.setSlot e k { y with stage := 1, sub := l.addr }
      | [] => s

def execLdw (t : TU) (o : FmtM) (s : State) : Step1 :=
  .next (s.fire (.ldw t o) t (memIssue (.ldw t o) o 0 (alnBad o) (performLdw o)))

/-- STW is accepted once every earlier memory operation has been performed (R526). -/
def performStw (o : FmtM) (e k : Nat) (s : State) : State :=
  s.trySlot e k (alnBad o) fun y => s.elemAccess e k (eaOf o y) 4 .wordWrite fun _ s => s.accept e k y

def execStw (t : TU) (o : FmtM) (s : State) : Step1 :=
  .next (s.fire (.stw t o) t (memIssue (.stw t o) o 0 (alnBad o) (performStw o)))

/-- Whether another region has set a word's presence in an open interval (R367). -/
def State.pendingPresence (s : State) (r : Option Nat) (word : Nat) : Bool :=
  s.regions.any fun (k, g) => some k != r && g.defPres.any fun d => d.2 == word

/-- Performs a posted STW: value and presence as one write, or DWR; it waits while another region's open interval has set the
word (R213, R367). -/
def postStw (o : FmtM) (e : Nat) (y : Slot) (s : State) : State :=
  let a := eaOf o y
  let r := s.regionOf e
  match s.resolveRun (coreOf e) (s.partOf e) a 4 .wordWrite with
  | .fault c va => s.raiseFault (s.postedFault e y c va)
  | .miss _ => s
  | .ok ls =>
    match ls with
    | [] => s
    | (l, _) :: _ =>
      let w := s.writer e
      let word := l.addr / 4
      if s.pendingPresence r word then s
      else if s.pres.contains word then s.raiseFault (s.postedFault e y 0x06 a)
      else if s.runFull w ls && y.full != 2 then (s.setPosted e { y with full := 1 }).askCut w.reg
      else
        let s := { s with pres := insertNat word s.pres }
        let s := match r with
          | some r => if y.full = 2 then s else s.modRegion r fun g => { g with defPres := g.defPres ++ [(w.itv, word)] }
          | none => s
        let s := s.writeRun { w with hold := w.hold && y.full != 2 } a ls (bytesLE 4 y.opc.toNat)
        (s.dropPosted e y).answer word

/-! ### ATOM, RED and CAS (R215 to R218) -/

/-- What an update writes over an old value; none where it writes nothing. -/
def updateNew (y : Slot) (old : Nat) : Option Nat :=
  match y.ins with
  | .atom _ o | .red _ o => some (updateOp (o.mod.toNat % 8) o.ty .rne false old y.opb.toNat).1
  | .cas _ o => let (c, w) := groupCas o.ty y.opb; if old = c then some w else none
  | _ => none

/-- The format of an update. -/
def updateFmt (y : Slot) : Option FmtM :=
  match y.ins with
  | .atom _ o | .red _ o | .cas _ o => some o
  | _ => none

/-- Whether an update may reach a host page (R405, R422, R500). -/
def hostUpdate (y : Slot) : Bool :=
  match y.ins with
  | .atom _ o => (o.mod == 0 || o.mod == 6) && (o.ty == .s32 || o.ty == .n32 || o.ty == .s64)
  | .cas _ o => o.ty == .s32 || o.ty == .n32 || o.ty == .s64
  | _ => false

/-- Performs an update at a place as one write; the old value. -/
def State.updateAt (s : State) (e : Nat) (y : Slot) (va n : Nat) (ls : List (Loc × Nat)) : State × Nat :=
  let w := s.writer e
  let old := natLE (s.readRun va ls)
  match updateNew y old with
  | some v => (s.writeRun { w with hold := w.hold && y.full != 2 } va ls (bytesLE n v), old)
  | none => (s, old)

/-- Whether the siding of an update's memory port, that of its home slice, holds 16 tokens (R218). -/
def State.sidingFull (s : State) (y : Slot) : Bool := (s.sided.filter fun u => u.2.sub == y.sub).length ≥ 16

/-- The home slice of an access, and the number that stands for a memory past the module's. -/
def sliceOf (ls : List (Loc × Nat)) : Nat := homeSlice (((ls.map fun x => x.1.addr).headD 0) / 128)
def farSlice : Nat := 2 ^ 20

/-- Sends an update that returns a value: a device one becomes an update token of the sparse-update unit; a host or peer one is performed there
after its forced cut. A port whose siding is full holds it (R218). -/
def performUpdate (o : FmtM) (e k : Nat) (s : State) : State :=
  s.trySlot e k (alnBad o) fun y =>
    let n := tyBytes o.ty
    let a := eaOf o y
    s.elemAccess e k a n .store fun ls s =>
      if ls.any (fun x => x.1.space == .host) && !hostUpdate y then s.failSlot e k 0x04 a
      else
        s.farGate e k y ls fun s =>
          if farRun ls then
            if !s.canSend (peerBytes ls) then s else
            let (s, old) := (s.spend (peerBytes ls)).updateAt e y a n ls
            (s.performed e k (BitVec.ofNat 512 old)).afterFar e y
          else
            let y := { y with sub := sliceOf ls }
            if s.sidingFull y then s else { s with updates := s.updates ++ [(e, y)] }.setSlot e k { y with stage := 1 }

/-- RED is accepted as soon as it translates, and completes (R206, R499); its home slice, or past them all the far memory, goes with it. -/
def performRed (o : FmtM) (e k : Nat) (s : State) : State :=
  match s.slot e k with
  | none => s
  | some y =>
    if y.stage ≠ 0 || y.held then s
    else
      match alnBad o y with
      | some (c, a) => s.failSlot e k c a
      | none =>
        s.elemAccess e k (eaOf o y) (tyBytes o.ty) .store fun ls s =>
          if ls.any (fun x => x.1.space == .host) then s.failSlot e k 0x04 (eaOf o y)
          else s.farGate e k y ls fun s => s.accept e k { y with sub := if farRun ls then farSlice else sliceOf ls }

/-- A posted RED goes to the sparse-update unit as an update token, whose faults the siding takes (R217, R218); one to a peer is performed
there. -/
def postRed (o : FmtM) (e : Nat) (y : Slot) (s : State) : State :=
  if y.sub ≠ farSlice then
    if s.sidingFull y then s else { s.dropPosted e y with updates := s.updates ++ [(e, y)] }
  else
    match s.resolveRun (coreOf e) (s.partOf e) (eaOf o y) (tyBytes o.ty) .store with
    | .fault c va => s.raiseFault (s.postedFault e y c va)
    | .miss _ => s
    | .ok ls =>
      if !s.canSend (peerBytes ls) then s
      else (((s.spend (peerBytes ls)).updateAt e y (eaOf o y) (tyBytes o.ty) ls).1.dropPosted e y).afterFar e y

/-- The operand of an update: a scalar as it stands (R404). -/
def updateOperand (o : FmtM) (f : Firing) (s : State) : VW := BitVec.ofNat 512 ((s.read f.e f.x o.ty false 0 o.b).1.headD 0)

def execAtom (t : TU) (o : FmtM) (s : State) : Step1 :=
  .next (s.fire (.atom t o) t fun f s =>
    memIssue (.atom t o) o (updateOperand o f s) (alnBad o) (performUpdate o) f s)
def execRed (t : TU) (o : FmtM) (s : State) : Step1 :=
  .next (s.fire (.red t o) t fun f s =>
    memIssue (.red t o) o (updateOperand o f s) (alnBad o) (performRed o) f s)
def execCas (t : TU) (o : FmtM) (s : State) : Step1 :=
  .next (s.fire (.cas t o) t fun f s =>
    memIssue (.cas t o) o (groupOf f.x o.b) (alnBad o) (performUpdate o) f s)

/-! ### FENCE, PREF and INV (R211, R450, R490) -/

/-- Operations that a FENCE at element scope leaves to be performed later (R205, R211). -/
def State.passFence (s : State) (e : Nat) (y : Slot) : State :=
  let mark := fun (z : Slot) => if z.seq < y.seq then { z with passed := y.seq + 1 } else z
  if scopeOf y.ins ≠ 0 then s
  else { s.modElem e fun x => { x with posted := x.posted.map mark } with
    updates := s.updates.map fun u => if u.1 = e then (u.1, mark u.2) else u
    sided := s.sided.map fun u => if u.1 = e then (u.1, mark u.2) else u }

def performFence (e k : Nat) (s : State) : State := s.trySlot e k noBad fun y => (s.passFence e y).performed e k 0
def execFence (t : TU) (o : FmtM) (s : State) : Step1 :=
  .next (s.fire (.fence t o) t (memIssue (.fence t o) o 0 noBad performFence))

/-- PREF: the line comes into the L2 if the access is allowed, and nothing else happens (R490). -/
def performPref (o : FmtM) (e k : Nat) (s : State) : State :=
  match s.slot e k with
  | none => s
  | some y =>
    let a := eaOf o y
    let s' :=
      match s.resolve (coreOf e) (s.partOf e) a .gathRead with
      | .ok l =>
        let line := l.at a 0 / 128
        if (SMap.find line s.lent).isSome || (SMap.find line s.l2).isSome then s else s.l2Put false line
      | _ => s
    s'.performed e k 0
def execPref (t : TU) (o : FmtM) (s : State) : Step1 :=
  .next (s.fire (.pref t o) t (memIssue (.pref t o) o 0 noBad (performPref o)))

def performInv (e k : Nat) (s : State) : State :=
  s.trySlot e k noBad fun _ => (s.modCore (coreOf e) fun c => { c with ro := [] }).performed e k 0
def execInv (t : TU) (o : FmtM) (s : State) : Step1 :=
  .next (s.fire (.inv t o) t (memIssue (.inv t o) o 0 noBad performInv))

/-! ### Posted operations -/

/-- Performs a posted operation, by its issue number, once everything ordered before it has been performed. -/
def performPosted (e n : Nat) (s : State) : State :=
  match (s.elem e).posted.find? fun y => y.seq == n with
  | none => s
  | some y =>
    if y.held || !s.edgesMet e y then s
    else
      match y.ins with
      | .st _ o => postSt o e y s
      | .stw _ o => postStw o e y s
      | .red _ o => postRed o e y s
      | _ => s

end Sys2Proof.Machine
end

