-- ==== Sys2Proof/Machine/BarOps.lean ====
section
/-! DEFINITION. The barriers of a signal box (R226 to R231) and BARI, BARA, BARW, BART and BARQ (R408 to R412). -/

namespace Sys2Proof.Machine

open Sys2Proof

/-! ### The record -/

/-- Counts held arrivals while the phase has room for them: BARAs in the order they came, then taps (R228). Each counted BARA is
answered with the count including itself. -/
def Bar.settle : Nat → Bar → List ((Nat × Nat) × Nat) → Bar × List ((Nat × Nat) × Nat)
  | 0, b, as => (b, as)
  | n + 1, b, as =>
    if b.arr = b.exp then (b, as)
    else
      match b.heldB with
      | w :: ws => Bar.settle n { b with arr := b.arr + 1, heldB := ws } (as ++ [(w, b.arr.toNat + 1)])
      | [] => if b.heldT = 0 then (b, as) else Bar.settle n { b with arr := b.arr + 1, heldT := b.heldT - 1 } as

/-- Settles a barrier and answers the BARAs it counts. -/
def State.settleBar (s : State) (c k : Nat) : State :=
  let b := s.bar c k
  let (b', as) := Bar.settle (b.heldB.length + b.heldT) b []
  as.foldl (fun s a => s.performed a.1.1 a.1.2 (BitVec.ofNat 512 a.2)) (s.setBar c k b')

/-- Whether arrivals are held that a BARI has made room for: they count from the next cycle (R410). -/
def Bar.owed (b : Bar) : Bool := b.arm && b.arr != b.exp && (!b.heldB.isEmpty || b.heldT != 0)

/-- Counts the held arrivals of every barrier that has room for them (R410). -/
def State.settleBars (s : State) : State :=
  s.cores.foldl (fun s c => (List.range 32).foldl (fun s k => if (s.bar c.1 k).owed then s.settleBar c.1 k else s) s) s

/-- The flip condition of R229. -/
def Bar.flips (b : Bar) (cycle : Nat) : Bool := b.arm && b.arr == b.exp && b.pend == 0 && b.flipAt != cycle + 1

/-- A flip: PH toggles, ARR clears, registered BARWs that now differ mark their places in the next cycle, and held arrivals count in
the new phase (R228, R229). -/
def State.flipBar (s : State) (c k : Nat) : State :=
  let b := s.bar c k
  let ph := !b.ph
  let ws := b.waits.map fun w => if w.ph != ph && w.due.isNone then { w with due := some (s.cycle + 1) } else w
  (s.setBar c k { b with ph := ph, arr := 0, waits := ws, flipAt := s.cycle + 1 }).settleBar c k

/-- Bytes credited out of PEND by an engine command of the core (R227). -/
def State.credit (s : State) (c k n : Nat) : State :=
  let b := s.bar c k
  s.setBar c k { b with pend := b.pend - BitVec.ofNat 64 n }

/-- The place of a command of an element in the order of a cycle: elements of the core by 8·ey + ex, and then those of others (R410). -/
def boxKey (e c : Nat) : Nat := if coreOf e = c then elemNo e else 64 + elemNo e

/-- The box of a core applies something of a place in that order in this cycle, or faults it. -/
def State.boxUse (s : State) (c key : Nat) : State := s.modCore c fun k => { k with boxAt := (s.cycle + 1, key) }

/-- Whether a place in the order of a cycle is still to come at the box of a core (R410). -/
def State.boxTurn (s : State) (c key : Nat) : Bool := (s.core c).boxAt.1 != s.cycle + 1 || (s.core c).boxAt.2 ≤ key

/-- A tap arrival counts (R228), after the commands of the cycle (R410): one that finds ARR = EXP is held; at an unarmed barrier it raises
BAR. -/
def State.tapCount (s : State) (c k : Nat) : State :=
  let s := s.boxUse c 128
  let b := s.bar c k
  if !b.arm then
    s.raiseFault
      { code := 0x13, src := 4, reg := (s.regionOn c).getD 0, elid := c * 64, tix := 0, slot := 0, addr := 0, opc := 0, word := 0,
        prog := 0, at_ := .tap c k }
  else if b.arr = b.exp then s.setBar c k { b with heldT := b.heldT + 1 }
  else s.setBar c k { b with arr := b.arr + 1 }

/-- A tap arrival; that of an element which has taken a shadow waits until its core is captured (R556). -/
def State.tapArrival (s : State) (e c k : Nat) : State :=
  if s.cutWaits e then let b := s.bar c k; s.setBar c k { b with cutT := b.cutT + 1 } else s.tapCount c k

/-- Tap arrivals of a core that have waited for its capture count (R556). -/
def State.countTaps (s : State) (c : Nat) : State :=
  (List.range 32).foldl (fun s k =>
    let b := s.bar c k
    if b.cutT = 0 then s else (List.range b.cutT).foldl (fun s _ => s.tapCount c k) (s.setBar c k { b with cutT := 0 })) s

/-- Whether a tap may arrive: four held arrivals at most (R228). -/
def State.tapRoom (s : State) (c k : Nat) : Bool := (s.bar c k).heldT + (s.bar c k).cutT < 4

/-! ### The commands -/

/-- The commands of a signal box (R227). -/
def isBarOp : Instr → Bool
  | .bari _ _ | .bara _ _ | .barw _ _ | .bart _ _ | .barq _ _ => true
  | _ => false

/-- A format E command issues, its operands captured as first, second and third source (R353). -/
def cmdIssue (i : Instr) (a b c : VW) (bad : Slot → Option (Nat × Nat)) (perf : Nat → Nat → State → State) (f : Firing) (s : State) :
    State :=
  let (s, k) := s.takeSlot f i a b c flNone 0
  s.promptly f.e k bad (perf f.e k)

/-- A command that reaches the signal box of its core in issue order (R227), and not before its turn in the cycle there or at the box it
names (R410). -/
def State.tryBar (s : State) (e k : Nat) (box : Slot → Nat) (act : Slot → State) : State :=
  s.trySlot e k noBad fun y =>
    if s.firstOf e y isBarOp && !s.cutWaits e && s.boxTurn (box y) (boxKey e (box y)) then act y else s

/-- The barrier a command names. -/
def barNo (o : FmtE) : Nat := o.imm.toNat % 32

def word512 (n : Nat) : VW := BitVec.ofNat 512 n

/-- BARI (R409). -/
def performBari (o : FmtE) (e k : Nat) (s : State) : State :=
  s.tryBar e k (fun _ => coreOf e) fun y =>
    let x := y.opa.toNat % 2 ^ 32
    let c := coreOf e
    let s := s.boxUse c (elemNo e)
    if x = 0 || x > 65535 then s.failSlot e k 0x13 0
    else
      let b := s.bar c (barNo o)
      (s.setBar c (barNo o) { b with exp := BitVec.ofNat 16 x, arr := 0, pend := 0, arm := true }).performed e k 1
def execBari (t : TU) (o : FmtE) (s : State) : Step1 :=
  .next (s.fire (.bari t o) t fun f s =>
    cmdIssue (.bari t o) (word512 (wordOf f.x o.a)) 0 0 noBad (performBari o) f s)

/-- BART (R409). -/
def performBart (o : FmtE) (e k : Nat) (s : State) : State :=
  s.tryBar e k (fun _ => coreOf e) fun y =>
    let c := coreOf e
    let s := s.boxUse c (elemNo e)
    let b := s.bar c (barNo o)
    if !b.arm then s.failSlot e k 0x13 0
    else (s.setBar c (barNo o) { b with pend := b.pend + BitVec.ofNat 64 y.opa.toNat }).performed e k 1
def execBart (t : TU) (o : FmtE) (s : State) : Step1 :=
  .next (s.fire (.bart t o) t fun f s =>
    cmdIssue (.bart t o) (word512 (if o.ty = .s64 then pairOf f.x o.a else wordOf f.x o.a)) 0 0 noBad (performBart o) f s)

/-- The core a BARA names (R231). -/
def baraCore (o : FmtE) (e : Nat) (y : Slot) : Nat := match o.a with | .s _ => y.opa.toNat % 256 | _ => coreOf e

/-- BARA (R230, R231, R409): the arrival follows every earlier memory operation of the element. -/
def performBara (o : FmtE) (e k : Nat) (s : State) : State :=
  s.tryBar e k (baraCore o e) fun y =>
    let own := coreOf e
    let c := baraCore o e y
    if c ≠ own && !((s.part (s.partOf e)).maint && clusterOf c == clusterOf own) then s.failSlot e k 0x14 0
    else
      let s := s.boxUse c (boxKey e c)
      let b := s.bar c (barNo o)
      if !b.arm then s.failSlot e k 0x13 0
      else
        if b.arr = b.exp then (s.setBar c (barNo o) { b with heldB := b.heldB ++ [(e, k)] }).setSlot e k { y with stage := 1 }
        else (s.setBar c (barNo o) { b with arr := b.arr + 1 }).performed e k (word512 (b.arr.toNat + 1))
def execBara (t : TU) (o : FmtE) (s : State) : Step1 :=
  .next (s.fire (.bara t o) t fun f s =>
    cmdIssue (.bara t o) (word512 (wordOf f.x o.a)) 0 0 noBad (performBara o) f s)

/-- BARW registers (R409): its place is marked in the cycle after PH differs, or at once if it already does. -/
def performBarw (o : FmtE) (e k : Nat) (s : State) : State :=
  s.tryBar e k (fun _ => coreOf e) fun y =>
    let c := coreOf e
    let b := s.bar c (barNo o)
    if b.waits.length ≥ 64 then s
    else
      let ph := y.opa.getLsbD 0
      let w : BarWait := ⟨e, k, ph, o.imm.toNat / 32 % 16, if b.ph != ph then some s.cycle else none⟩
      ((s.boxUse c (elemNo e)).setBar c (barNo o) { b with waits := b.waits ++ [w] }).setSlot e k { y with stage := 1 }
def execBarw (t : TU) (o : FmtE) (s : State) : Step1 :=
  .next (s.fire (.barw t o) t fun f s =>
    cmdIssue (.barw t o) (word512 (wordOf f.x o.a)) 0 0 noBad (performBarw o) f s)

/-- A registered BARW whose place is due and has room marks it and completes with PH (R224, R229, R409), once its token has room (R34). -/
def State.finishBarw (s : State) (e k : Nat) (o : FmtE) : State :=
  let c := coreOf e
  let b := s.bar c (barNo o)
  match b.waits.find? fun w => w.elem == e && w.slot == k with
  | none => s
  | some w =>
    let due := match w.due with | some d => d ≤ s.cycle | none => false
    if due && s.roomFor e w.place then
      let done (s : State) : State := s.finishSlot e k o.d (some ⟨.n32, false, [b.ph.toNat], flNone⟩) []
      let t := s.setBar c (barNo o) { b with waits := b.waits.filter fun w => !(w.elem == e && w.slot == k) }
      let t := done (t.modElem e fun x => x.mark w.place)
      if (t.slot e k).isNone then t else done s
    else s

/-- BARQ (R409). -/
def performBarq (o : FmtE) (e k : Nat) (s : State) : State :=
  s.tryBar e k (fun _ => coreOf e) fun _ =>
    let s := s.boxUse (coreOf e) (elemNo e)
    let b := s.bar (coreOf e) (barNo o)
    let v :=
      match o.imm.toNat / 32 % 4 with
      | 0 => b.exp.toNat * 65536 + b.arr.toNat
      | 1 => b.ph.toNat * 2 ^ 31 + b.arm.toNat * 2 ^ 30
      | _ => b.pend.toNat
    s.performed e k (word512 v)
def execBarq (t : TU) (o : FmtE) (s : State) : Step1 :=
  .next (s.fire (.barq t o) t fun f s => cmdIssue (.barq t o) 0 0 0 noBad (performBarq o) f s)

/-- A value a command returns: 32 bits, or 64 for a pair (R37, R120). -/
def State.finishWord (s : State) (e k : Nat) (d : Dst) (wide : Bool) : State :=
  match s.slot e k with
  | none => s
  | some y => s.finishSlot e k d (some ⟨if wide then .s64 else .n32, false, [y.lres.toNat % (if wide then 2 ^ 64 else 2 ^ 32)], flNone⟩) []

end Sys2Proof.Machine
end

