-- ==== Sys2Proof/Machine/EngOps.lean ====
section
/-! DEFINITION. Engine queues (R220, R221, R234, R554), notifies (R223, R367), the copy engine (R236 to R243, R483, R491) and the
row-transfer sequencer (R244 to R250, R495). -/

namespace Sys2Proof.Machine

open Sys2Proof

/-! ### Queues -/

def State.equeue (s : State) (g q : Nat) : List Entry := vget (s.engine g).qs q []
def State.setEqueue (s : State) (g q : Nat) (es : List Entry) : State :=
  let en := s.engine g
  s.setEngine g { en with qs := vset en.qs q es }

/-- Replaces, or removes, an entry. -/
def State.setEntry (s : State) (g q : Nat) (t : Entry) : State :=
  s.setEqueue g q ((s.equeue g q).map fun z => if z.id = t.id then t else z)
def State.dropEntry (s : State) (g q : Nat) (t : Entry) : State := s.setEqueue g q ((s.equeue g q).filter fun z => z.id != t.id)

/-- The fault an entry raises (R373): SRC 2, its queue in SLOT. -/
def State.failEntry (s : State) (g q : Nat) (t : Entry) (code addr : Nat) : State :=
  match s.slot t.elem t.slot with
  | none => s
  | some y => s.raiseFault { s.slotFault t.elem t.slot y code addr with src := 2, reg := t.reg, slot := q, at_ := .entry g q t.id }

/-- The value a command completes with: a STASH or UNSTASH reports STP in bit 31 (R319). -/
def State.finalValue (s : State) (t : Entry) (y : Slot) (v : Nat) : Nat :=
  match y.ins with
  | .stash _ _ | .unstash _ _ => v % 2 ^ 31 + (if ((s.region t.reg).map Region.stp).getD false then 2 ^ 31 else 0)
  | _ => v

/-- A port that served the command is free (R263). -/
def State.freePort (s : State) (t : Entry) : State :=
  (List.range 8).foldl (fun s k => s.modPort (coreOf t.elem) k fun p =>
    if p.cmd = some (t.elem, t.slot) then { p with cmd := none, open_ := false } else p) s

/-- The command of an entry has been performed: its firing may complete with a value (R237). -/
def State.finishEntry (s : State) (g q : Nat) (t : Entry) (v : Nat) : State :=
  match s.slot t.elem t.slot with
  | none => s.dropEntry g q t
  | some y => ((s.dropEntry g q t).freePort t).performed t.elem t.slot (word512 (s.finalValue t y v))

/-- Moves PROG of a command's slot. -/
def State.setProg (s : State) (e k n : Nat) : State :=
  match s.slot e k with | some y => s.setSlot e k { y with prog := n } | none => s

/-- The queue the engine's turn names: the first that is not empty (R235). -/
def nextQueue (en : Engine) : Option Nat := ((List.range 8).map fun i => (en.turn + i) % 8).find? fun q => !(vget en.qs q []).isEmpty

/-- Serves the head of a queue whose turn it is, unless it is held or waits for a forced cut. -/
def State.serve (s : State) (g q : Nat) (act : Entry → Slot → State → State) : State :=
  let en := s.engine g
  if nextQueue en != some q then s
  else
    match vget en.qs q [] with
    | [] => s
    | t :: _ =>
      let s := s.setEngine g { en with turn := (q + 1) % 8 }
      match s.slot t.elem t.slot with
      | none => s
      | some y => if t.held || t.cut = 1 || t.full = 1 || !s.runs t.elem then s else act t y s

/-- An engine command's access, translated for the issuing element's core. -/
def State.engAccess (s : State) (g q : Nat) (t : Entry) (c va n : Nat) (a : Access) (act : List (Loc × Nat) → State → State) :
    State :=
  match s.resolveRun c (s.partOf t.elem) va n a with
  | .fault k va => s.failEntry g q t k va
  | .miss _ => s
  | .ok ls => act ls (s.fillRun c (s.partOf t.elem) va n)

/-- A host or peer write of an engine command waits for a forced cut, once for the command (R555). -/
def State.engFar (s : State) (g q : Nat) (t : Entry) (ls : List (Loc × Nat)) (act : State → State) : State :=
  if farRun ls && t.cut != 2 then (s.setEntry g q { t with cut := 1 }).askCut (some t.reg) else act s

/-- A write that would pass the held-line budget waits for a forced cut (R367). -/
def State.engBudget (s : State) (g q : Nat) (t : Entry) (ls : List (Loc × Nat)) (act : State → State) : State :=
  if s.runFull (s.writer t.elem) ls && t.full != 2 then (s.setEntry g q { t with full := 1 }).askCut (some t.reg) else act s

/-! ### Notifies (R223, R367) -/

/-- The payload of a command is performed: its notify is deferred to the commit of its interval, with a forced cut unless the cut that is
forming commits it (R365, R367); without a notify the command is done. -/
def State.payloadDone (s : State) (g q : Nat) (t : Entry) (ntf : Nat) (c : VW) (v : Nat) : State :=
  if ntf % 2 = 1 then
    let s := s.setEntry g q { t with stage := 2 }
    let s := match s.slot t.elem t.slot with | some y => s.setSlot t.elem t.slot { y with lres := word512 v } | none => s
    let itv := (s.writer t.elem).itv
    s.modRegion t.reg fun r =>
      { r with
        defNote := r.defNote ++ [⟨itv, c.toNat % 2 ^ 64, BitVec.ofNat 32 (c.toNat / 2 ^ 64), .entry g q t.id⟩]
        cutReq := r.cutReq || r.forming.getD itv == itv }
  else
    let s := s.finishEntry g q t v
    if t.cut = 2 then s.askSecond (some t.reg) else s

/-- The alignment of a notify word is checked at issue (R223). -/
def noteBad (o : FmtE) (y : Slot) : Option (Nat × Nat) :=
  let a := y.opc.toNat % 2 ^ 64
  if o.ntf.toNat % 2 = 1 && a % 4 != 0 then some (0x05, a) else none

/-- Makes a notify whose interval has committed, and completes its command (R367); its faults are met here. One to a host or peer page waits for
a forced cut, unless this is one's commit or the command has had its own (R555). -/
def State.makeNote (s : State) (r : Nat) (forced : Bool) (n : DefNote) : State :=
  match n.at_ with
  | .entry g q id =>
    match (s.equeue g q).find? fun t => t.id == id with
    | none => s.modRegion r fun x => { x with defNote := x.defNote.filter fun m => m.at_ != n.at_ }
    | some t =>
      if t.held then s
      else
        s.engAccess g q t (coreOf t.elem) n.addr 4 .notify fun ls s =>
          if farRun ls && !forced && t.cut != 2 then s.askCut (some r)
          else
            let s := s.writeRun { s.writer t.elem with hold := false } n.addr ls (bytesLE 4 n.value.toNat)
            let s := s.modRegion r fun x => { x with defNote := x.defNote.filter fun m => m.at_ != n.at_ }
            let s := s.finishEntry g q t (((s.slot t.elem t.slot).map fun y => y.lres.toNat).getD 0)
            if farRun ls then s.askSecond (some r) else s
  | _ => s

/-! ### Sending a command -/

/-- Commands of the copy engine, of the sequencers, and so on, by kind (R234, R554). -/
def engineOf : Instr → Option EngineKind
  | .cpy _ _ | .fill _ _ | .qfen _ _ | .note _ _ => some .copy
  | .rcopy _ _ | .rzero _ _ => some .row
  | .pimabEnter _ _ | .pimabLeave _ _ | .pimld _ _ | .pimmac _ _ | .pimrd _ _ => some .mac
  | .gath _ _ | .scat _ _ => some .ind
  | .stash _ _ | .unstash _ _ => some .codec
  | .coll _ _ => some .coll
  | _ => none

/-- The least scope of a FENCE that holds an engine (R222). -/
def fenceNeed (e : Nat) (k : EngineKind) (n : Nat) : Nat :=
  match k with
  | .copy => 2
  | .coll => if n = dieOf (coreOf e) then 3 else 4
  | _ => if n / 3 = dieOf (coreOf e) then 3 else 4

/-- Whether a FENCE that reaches the engine is outstanding before a command (R222). -/
def State.fenced (s : State) (e : Nat) (y : Slot) (need : Nat) : Bool :=
  (s.outstanding e).any fun z =>
    match z.ins with | .fence _ o => z.seq < y.seq && need ≤ o.scp.toNat | _ => false

/-- Puts a command into its queue, in issue order among the element's commands to engines of the kind; a full queue of 16 keeps
it in its slot (R220, R234). -/
def State.enqueueCmd (s : State) (e k : Nat) (y : Slot) (kind : EngineKind) (n q : Nat) (waits : List Nat) : State :=
  let g := engineKey (s.partOf e) kind n
  let es := s.equeue g q
  let ready := s.firstOf e y (fun i => engineOf i == some kind) && es.length < 16 && !s.fenced e y (fenceNeed e kind n)
  if !ready then s
  else
    let t : Entry :=
      { id := s.nextId, elem := e, slot := k, reg := (s.regionOf e).getD 0, stage := 0, held := false
        cut := if y.cut = 2 then 2 else 0, full := 0, waits := waits, part := 0, plan := [], buf := [], num := none }
    { (s.setEqueue g q (es ++ [t])).setSlot e k { y with stage := 1 } with nextId := s.nextId + 1 }

/-- A slot whose command may be sent. -/
def State.trySend (s : State) (e k : Nat) (bad : Slot → Option (Nat × Nat)) (act : Slot → State) : State :=
  match s.slot e k with
  | none => s
  | some y =>
    if y.stage ≠ 0 || y.held then s
    else
      match bad y with
      | some (c, a) => s.failSlot e k c a
      | none => act y

/-- An irrevocable command is sent only after a forced cut (R369). -/
def State.irrevocable (s : State) (e k : Nat) (y : Slot) (act : State → State) : State :=
  if y.cut = 2 then act s else if y.cut = 0 then s.slotCut e k y else s

/-! ### CPY and FILL -/

def ntfOf (o : FmtE) : Nat := o.ntf.toNat

/-- NTF 2 or 3: bytes are credited out of PEND of a barrier of the issuing core, whose number stands from the given bit of IMM16
(R227). -/
def State.credits (s : State) (t : Entry) (o : FmtE) (bit n : Nat) : State :=
  if o.ntf.toNat / 2 = 1 then s.credit (coreOf t.elem) (bitsOf o.imm.toNat bit 5) n else s

/-- Sends a command to the cluster's copy engine. -/
def performCopyCmd (o : FmtE) (bad : Slot → Option (Nat × Nat)) (e k : Nat) (s : State) : State :=
  s.trySend e k bad fun y => s.enqueueCmd e k y .copy (clusterOf (coreOf e)) o.eq.toNat []

/-- First source of CPY: destination and source addresses. -/
def copyDst (y : Slot) : Nat := y.opa.toNat % 2 ^ 64
def copySrc (y : Slot) : Nat := y.opa.toNat / 2 ^ 64 % 2 ^ 64
def countOf (y : Slot) : Nat := y.opb.toNat % 2 ^ 32

def cmdCapture (i : Instr) (o : FmtE) (bad : Slot → Option (Nat × Nat)) (perf : Nat → Nat → State → State) (f : Firing) (s : State) :
    State :=
  cmdIssue i (groupOf f.x o.a) (word512 (wordOf f.x o.b)) (groupOf f.x o.c) bad perf f s

def execCpy (t : TU) (o : FmtE) (s : State) : Step1 :=
  .next (s.fire (.cpy t o) t (cmdCapture (.cpy t o) o (noteBad o) (performCopyCmd o (noteBad o))))

/-- FILL's addresses and count are multiples of 4 (R240). -/
def fillBad (o : FmtE) (y : Slot) : Option (Nat × Nat) :=
  if copyDst y % 4 ≠ 0 || countOf y % 4 ≠ 0 then some (0x05, copyDst y) else noteBad o y
def execFill (t : TU) (o : FmtE) (s : State) : Step1 :=
  .next (s.fire (.fill t o) t (cmdCapture (.fill t o) o (fillBad o) (performCopyCmd o (fillBad o))))

/-- n bytes of a repeated 32-bit pattern. -/
def patternBytes (w n : Nat) : List Byte := (List.range n).map fun i => BitVec.ofNat 8 (w / 2 ^ (8 * (i % 4)))

/-- Clears the presence bits of the words of a written run on presence pages, in the same write; what an open interval clears is
kept for a rollback (R241). -/
def State.clearPresence (s : State) (e : Nat) (ls : List (Loc × Nat)) : State :=
  let words := (ls.filter fun x => x.1.ptype == 1).flatMap fun x => (List.range (x.2 / 4)).map fun i => x.1.addr / 4 + i
  let was := words.filter fun w => s.pres.contains w
  let s := { s with pres := s.pres.filter fun w => !words.contains w }
  let w := s.writer e
  match w.reg with
  | some r =>
    s.modRegion r fun g =>
      { g with
        clrPres := g.clrPres ++ (was.filter fun x => !g.defPres.any fun d => d.2 == x).map fun x => (w.itv, x)
        defPres := g.defPres.filter fun d => !words.contains d.2 }
  | none => s

/-- The next chunk of a CPY or FILL, within the windows of a peer (R238 to R242, R395). -/
def copyChunk (o : FmtE) (fill : Bool) (g q : Nat) (t : Entry) (y : Slot) (s : State) : State :=
  let n := countOf y
  let c := coreOf t.elem
  if t.stage = 2 then s
  else if y.prog ≥ n then s.payloadDone g q t (ntfOf o) y.opc n
  else
    let m := min 65536 (n - y.prog)
    let dst := (copyDst y + y.prog) % 2 ^ 64
    let src := (copySrc y + y.prog) % 2 ^ 64
    let go (bs : State → List Byte) (s : State) : State :=
      s.engAccess g q t c dst m .copyWrite fun ls s =>
        s.engFar g q t ls fun s =>
          s.engBudget g q t ls fun s =>
            if !s.canSend (peerBytes ls) then s else
            let s := (s.spend (peerBytes ls)).writeRun { s.writer t.elem with hold := t.full != 2 } dst ls (bs s)
            let s := if fill && o.imm.toNat / 2 ^ 15 % 2 = 1 then s.clearPresence t.elem ls else s
            let s := (s.credits t o 0 m).setProg t.elem t.slot (y.prog + m)
            let t := { t with full := 0 }
            if y.prog + m ≥ n then (s.setEntry g q t).payloadDone g q t (ntfOf o) y.opc n else s.setEntry g q t
    if fill then go (fun _ => patternBytes (copySrc y % 2 ^ 32) m) s
    else s.engAccess g q t c src m .copyRead fun rs s => go (fun s => s.readRun src rs) s

/-! ### QFEN and NOTE -/

/-- QFEN names the entries ahead of it in its queues as it enters EQ (R221). -/
def performQfen (o : FmtE) (e k : Nat) (s : State) : State :=
  s.trySend e k noBad fun y =>
    let g := engineKey (s.partOf e) .copy (clusterOf (coreOf e))
    let ids := ((List.range 8).filter o.imm.toNat.testBit).flatMap fun q => (s.equeue g q).map Entry.id
    s.enqueueCmd e k y .copy (clusterOf (coreOf e)) o.eq.toNat ids
def execQfen (t : TU) (o : FmtE) (s : State) : Step1 :=
  .next (s.fire (.qfen t o) t (cmdIssue (.qfen t o) 0 0 0 noBad (performQfen o)))

/-- NOTE's word address is a multiple of 4 (R483). -/
def noteCmdBad (y : Slot) : Option (Nat × Nat) := if copyDst y % 4 ≠ 0 then some (0x05, copyDst y) else none
def execNote (t : TU) (o : FmtE) (s : State) : Step1 :=
  .next (s.fire (.note t o) t (cmdCapture (.note t o) o noteCmdBad (performCopyCmd o noteCmdBad)))

/-- Serves the head of a copy engine's queue: one chunk, a QFEN, or a NOTE. -/
def serveCopy (g q : Nat) (t : Entry) (y : Slot) (s : State) : State :=
  match y.ins with
  | .cpy _ o => copyChunk o false g q t y s
  | .fill _ o => copyChunk o true g q t y s
  | .qfen _ o =>
    let left := t.waits.any fun id => (List.range 8).any fun q => (s.equeue g q).any fun z => z.id == id
    if left then s else s.finishEntry g q t (o.imm.toNat % 256)
  | .note _ _ => if t.stage = 2 then s else s.payloadDone g q t 1 y.opa 1
  | _ => s

/-! ### RCOPY and RZERO -/

/-- Rows are 1 KiB aligned (R244). -/
def rowBad (o : FmtE) (copy : Bool) (y : Slot) : Option (Nat × Nat) :=
  if copyDst y % 1024 ≠ 0 then some (0x05, copyDst y)
  else if copy && copySrc y % 1024 ≠ 0 then some (0x05, copySrc y)
  else noteBad o y

/-- A command for the engine of the stack that holds an address: the address translates in the slot first (R554). -/
def State.toStack (s : State) (e k va : Nat) (a : Access) (act : Loc → State → State) : State :=
  match s.resolve (coreOf e) (s.partOf e) va a with
  | .fault c => s.failSlot e k c va
  | .miss => s
  | .ok l => if l.space = .dev then act l (s.fillTlb (coreOf e) (s.partOf e) va) else s.failSlot e k 0x04 va

/-- The stack of a place in device memory. -/
def Loc.stack (l : Loc) : Nat := l.addr / 2 ^ 36

def performRow (o : FmtE) (copy : Bool) (e k : Nat) (s : State) : State :=
  s.trySend e k (rowBad o copy) fun y =>
    s.toStack e k (copyDst y) .nativeWrite fun l s =>
      s.irrevocable e k y fun s => s.enqueueCmd e k y .row l.stack o.eq.toNat []
def execRcopy (t : TU) (o : FmtE) (s : State) : Step1 :=
  .next (s.fire (.rcopy t o) t (cmdCapture (.rcopy t o) o (rowBad o true) (performRow o true)))
def execRzero (t : TU) (o : FmtE) (s : State) : Step1 :=
  .next (s.fire (.rzero t o) t fun f s =>
    cmdIssue (.rzero t o) (word512 (pairOf f.x o.a)) (word512 (wordOf f.x o.b)) (groupOf f.x o.c) (rowBad o false) (performRow o false)
      f s)

/-- A translated row, or its fault with its address, or a miss. -/
def State.rowLoc (s : State) (c p va stack : Nat) (a : Access) : Except (Option (Nat × Nat)) Loc :=
  match s.resolve c p va a with
  | .fault k => .error (some (k, va))
  | .miss => .error none
  | .ok l => if l.stack = stack then .ok l else .error (some (0x10, va))

/-- The places of n rows of a group from row i on, or the first fault or miss (R244). -/
def State.groupPlan (s : State) (c p stack dst src : Nat) (copy : Bool) : Nat → Nat → Except (Option (Nat × Nat)) (List RowPlan)
  | _, 0 => .ok []
  | i, n + 1 =>
    let o := 1024 * i
    match s.rowLoc c p ((dst + o) % 2 ^ 64) stack .nativeWrite with
    | .error f => .error f
    | .ok d =>
      let from_ := if copy then (s.rowLoc c p ((src + o) % 2 ^ 64) stack .nativeRead).map some else .ok none
      match from_ with
      | .error f => .error f
      | .ok l =>
        match s.groupPlan c p stack dst src copy (i + 1) n with
        | .error f => .error f
        | .ok rs => .ok (⟨i, (dst + o) % 2 ^ 64, some d, l, none, false⟩ :: rs)

/-- The cache lines of a row become clean, or leave the L2 (R246). -/
def cleanRow (l2 : List (Nat × Bool)) (a : Nat) : List (Nat × Bool) :=
  (List.range 8).foldl (fun m i => if (SMap.find (a / 128 + i) m).isSome then SMap.set (a / 128 + i) false m else m) l2
def dropRow (l2 : List (Nat × Bool)) (a : Nat) : List (Nat × Bool) := (List.range 8).foldl (fun m i => SMap.erase (a / 128 + i) m) l2

/-- What a row does to memory: the source row, or zeros, is written at its place; the lines of the source become clean and those of the
destination leave the L2 (R245, R246). -/
def State.rowCopy (s : State) (w : Writer) (l : Loc) (m : Option Loc) : State :=
  let s := match m with | some m => { s with l2 := cleanRow s.l2 m.addr } | none => s
  if (m.map Loc.addr) = some l.addr then s
  else
    let bs := match m with | some m => s.rowRead m.addr 1024 | none => List.replicate 1024 0
    let s := s.rowWrite w [(l.addr, 1024)] bs
    { s with l2 := dropRow s.l2 l.addr }

/-- The next row of an RCOPY or RZERO (R244 to R248): the rows of its group of 16 have all translated before the group is sent, and keep
the places they translated to. PROG is 1,024 times the rows performed. -/
def rowTransfer1 (o : FmtE) (copy : Bool) (g q : Nat) (t : Entry) (y : Slot) (s : State) : State :=
  let n := countOf y
  let c := coreOf t.elem
  let p := s.partOf t.elem
  let i := y.prog / 1024
  if t.stage = 2 then s
  else if i ≥ n then s.payloadDone g q t (ntfOf o) y.opc n
  else
    let group := if t.plan.isEmpty then s.groupPlan c p (g % 64) (copyDst y) (copySrc y) copy i (min (16 - i % 16) (n - i)) else .ok t.plan
    match group with
    | .error (some (k, va)) => s.failEntry g q t k va
    | .error none => s
    | .ok [] => s
    | .ok (r :: rest) =>
      match r.dst with
      | none => s
      | some l =>
        let s := if t.plan.isEmpty then (s.fillRun c p (copyDst y + 1024 * i) 1024) else s
        let s := s.rowCopy (s.writer t.elem) l r.src
        let t := { t with plan := rest }
        let s := ((s.credits t o 0 1024).setProg t.elem t.slot (y.prog + 1024)).setEntry g q t
        if i + 1 ≥ n then s.payloadDone g q t (ntfOf o) y.opc n else s

/-- Serves the head of a sequencer's queue. -/
def serveRow (g q : Nat) (t : Entry) (y : Slot) (s : State) : State :=
  match y.ins with
  | .rcopy _ o => rowTransfer1 o true g q t y s
  | .rzero _ o => rowTransfer1 o false g q t y s
  | _ => s

/-- COPY_CHUNK (R238) and ROW_TRANSFER (R245): events of the engines. -/
def execCopyChunk (g q : Nat) (s : State) : Step1 :=
  .next (if engineKindOf g == .copy then s.serve g q (serveCopy g q) else s)
def execRowTransfer (g q : Nat) (s : State) : Step1 :=
  .next (if engineKindOf g == .row then s.serve g q (serveRow g q) else s)

end Sys2Proof.Machine
end

