-- ==== Sys2Proof/Machine/NetEvents.lean ====
section
/-! DEFINITION. The network (R119 to R135, R146 to R149) and its steps: TOKEN_INJECTION, TOKEN_ARRIVAL and CFG_TOKEN_APPLY. A token the
buffer injects waits on the links, in order among those of its sender, path class and destination, until it may enter. -/

namespace Sys2Proof.Machine

open Sys2Proof

/-! ### Routes and transit -/

/-- The destination a route entry names in a region (R105, R124). -/
def routeDest (r : Region) (t : Route) : Dest :=
  let c := coreAt (r.x0 + t.dx) (r.y0 + t.dy)
  if t.port then .port c t.de else .queue (c * 64 + t.de) t.dvc

/-- The route entry of a label. -/
def Elem.route (x : Elem) (label : Nat) : Option Route := SMap.find label x.routes

/-- Where a sender or a destination stands (R127): a port at element (0,0) of its core. -/
def srcElem (n : Nat) : Nat := if n < 2 ^ 20 then n else (n - 2 ^ 20) / 8 * 64
def Dest.elem : Dest → Nat
  | .queue e _ => e
  | .port c _ => c * 64

/-- The sender number of a port. -/
def portSrc (c k : Nat) : Nat := 2 ^ 20 + 8 * c + k

/-- Nonzero 16-bit granules of a payload, in ascending order (R146). -/
def granules (p : VW) : List Nat := (List.range 32).filter fun g => p.toNat / 2 ^ (16 * g) % 65536 != 0

/-- A zero-skip payload (R147): the mask of the nonzero granules in bits [31:0], and the granules from bit 32 upward. -/
def zeroSkip (p : VW) : BitVec 256 :=
  let gs := granules p
  BitVec.ofNat 256 ((gs.map fun g => 2 ^ g).sum + 2 ^ 32 * joinLanes 16 (gs.map fun g => p.toNat / 2 ^ (16 * g)))

/-- The granules of a zero-skip payload under a mask, from granule g on, with the granules that are left. -/
def unskipFrom (mask : Nat) : Nat → Nat → Nat → Nat
  | 0, _, _ => 0
  | n + 1, g, rest =>
    if mask.testBit g then rest % 65536 * 2 ^ (16 * g) + unskipFrom mask n (g + 1) (rest / 65536) else unskipFrom mask n (g + 1) rest

/-- The payload that a zero-skip beat stands for (R147, R149). -/
def unskip (b : BitVec 256) : VW := BitVec.ofNat 512 (unskipFrom (b.toNat % 2 ^ 32) 32 0 (b.toNat / 2 ^ 32))

/-- Codes of the modes (R146). -/
def LinkMode.code : LinkMode → BitVec 2
  | .run => 0b10
  | .zero => 0b11
  | .skip => 0b01
  | .raw => 0b00

/-- The first mode that applies to a token (R146). -/
def linkMode (t : Token) (pack run : Bool) : LinkMode :=
  if t.kind != .data || t.ctl || !pack then .raw
  else if run then .run
  else if t.pay == 0 then .zero
  else if (granules t.pay).length ≤ 14 then .skip
  else .raw

/-- Beats of a token under a mode: one on the control plane and for a token that is not DATA (R127, R146). -/
def tokBeats (t : Token) (m : LinkMode) : Nat := if t.kind != .data || t.ctl then 1 else match m with | .raw => 2 | _ => 1

/-- A token as its beats carry it, and as the receiving input port expands it (R147, R149). -/
def Token.pack (m : LinkMode) (t : Token) : Token := if m = .skip then { t with pay := (zeroSkip t.pay).setWidth 512 } else t
def Token.unpack (m : LinkMode) (t : Token) : Token := if m = .skip then { t with pay := unskip (t.pay.setWidth 256) } else t

/-- The tokens a flight stands for (R149). -/
def Flight.tokens (f : Flight) : List Token := f.toks.map (Token.unpack f.mode)
def Flight.ctl (f : Flight) : Bool := match f.toks with | t :: _ => t.ctl | [] => false

/-- Whether two flights share sender, path class and destination, which keeps their order (R125). -/
def sameLane (a b : Flight) : Bool := a.src == b.src && a.cls == b.cls && a.dst == b.dst

/-- Flights of some tokens, at their sender. -/
def Flight.start (src cls : Nat) (dst : Dest) (toks : List Token) (m : LinkMode) (due : Nat) (cmd : Option (Nat × Nat × Nat)) : Flight :=
  ⟨src, cls, dst, toks.map (Token.pack m), m, (toks.map fun t => tokBeats t m).headD 1, srcElem src, none, due, cmd, true⟩

/-- A place that a command keeps for a token it has still to form (R258). -/
def Flight.place (e cls : Nat) (dst : Dest) (cmd : Nat × Nat × Nat) : Flight :=
  { Flight.start e cls dst [dataTok 0 0] .raw 0 (some cmd) with ready := false }

/-! ### Links (R126, R127, R130) -/

/-- The physical VC of a path class under a partition's PMAP (R379). -/
def Part.physVc (x : Part) (cls : Nat) : Nat := bitsOf x.pmap.toNat (4 * (cls % 4)) 4

/-- The next element on the dimension-ordered route, first along x and then along y (R126), the link to it, and what it adds to the hop
count: 1, with 2 for a core boundary and 24 for a die bridge (R127). A token for its own element crosses a link of its sender's. -/
def nextLink (src at_ dst : Nat) : Nat × Nat × Nat :=
  let x := elemX at_; let y := elemY at_; let u := elemX dst; let v := elemY dst
  let cost := fun (p q : Nat) => 1 + (if p / 8 ≠ q / 8 then 2 else 0) + (if p / 64 ≠ q / 64 then 24 else 0)
  if x < u then (elemAt (x + 1) y, 4 * at_, cost x (x + 1))
  else if u < x then (elemAt (x - 1) y, 4 * at_ + 1, cost x (x - 1))
  else if y < v then (elemAt x (y + 1), 4 * at_ + 2, cost y (y + 1))
  else if v < y then (elemAt x (y - 1), 4 * at_ + 3, cost y (y - 1))
  else (at_, 65536 + src, 1)

/-- A link's plane carries nothing else in this cycle (R126). -/
def State.linkFree (s : State) (l : Nat) (ctl : Bool) : Bool := SMap.get 0 (2 * l + ctl.toNat) s.links ≤ s.cycle

/-- The physical VC of a flight. -/
def State.vcOf (s : State) (f : Flight) : Nat := (s.part (s.partOf (srcElem f.src))).physVc f.cls

/-- Whether a flight would take the slot it waits for at its destination: it has had its transit (R127). -/
def Flight.landed (f : Flight) (cycle : Nat) : Bool := f.link.isSome && f.at_ == f.dst.elem && f.due + f.beats ≤ cycle + 2

/-- Whether one flight holds another back, i and n being their places: at the sender an earlier one of the same plane or lane; at a link input an
earlier one of the lane, or one of its VC that came before it and has the same plane or waits there for a slot (R125, R130). -/
def State.holds (s : State) (i n : Nat) (g f : Flight) : Bool :=
  match f.link with
  | none => i < n && g.link.isNone && ((g.ready && g.src == f.src && g.ctl == f.ctl) || sameLane g f)
  | some l =>
    g.link == some l &&
      ((i < n && sameLane g f) ||
        ((g.due < f.due || (g.due == f.due && i < n)) && s.vcOf g == s.vcOf f && (g.ctl == f.ctl || g.landed s.cycle)))

/-- Whether anything holds the n-th flight back. -/
def State.heldBack (s : State) (n : Nat) (f : Flight) : Bool := s.flight.zipIdx.any fun g => g.2 != n && s.holds g.2 n g.1 f

/-- The slot pool of a link input takes one token more of a VC (R130, R379); tokens that are still crossing the link do not stand in it (R127). -/
def State.poolRoom (s : State) (l : Nat) (f : Flight) : Bool :=
  (s.flight.filter fun g => g.link == some l && s.vcOf g == s.vcOf f && g.due ≤ s.cycle).length <
    (s.part (s.partOf (srcElem f.src))).pslt

/-- Whether the network of a destination's region works: the region runs or is only gated. -/
def State.netRuns (s : State) (d : Dest) : Bool :=
  match (s.destReg d).bind s.region with
  | some r => r.phase == .running || r.phase == .gated
  | none => false

/-- The n-th flight could cross its next link: it is due, nothing holds it back, the link is free and its input has room. -/
def State.crossable (s : State) (n : Nat) (f : Flight) : Bool :=
  let l := (nextLink f.src f.at_ f.dst.elem).2.1
  f.ready && f.due ≤ s.cycle && s.netRuns f.dst && s.linkFree l f.ctl && s.poolRoom l f && !s.heldBack n f

/-! ### TOKEN_INJECTION (R126) -/

/-- Where a flight stands among those on the links: before places that a command issued after its token was emitted keeps (R258). -/
def lanePos (stamp : Nat) (f : Flight) (fs : List Flight) : Nat :=
  fs.findIdx fun g => sameLane f g && !g.ready && (match g.cmd with | some c => stamp ≤ c.2.2 | none => false)

/-- Tokens that stand next on the data plane of a buffer, all the same and with none before them that keeps them back (R125, R148). -/
def runPrefix (same stops : OutTok → Bool) : List (Nat × OutTok) → Nat
  | [] => 0
  | t :: ts =>
    if t.2.tok.ctl then (if stops t.2 then 0 else runPrefix same stops ts)
    else if same t.2 then runPrefix same stops ts + 1
    else 0

/-- Removes the first n tokens of a plane from the output buffer. -/
def dropOut (ctl : Bool) : Nat → List (Nat × OutTok) → List (Nat × OutTok)
  | 0, ts => ts
  | _, [] => []
  | n + 1, t :: ts => if t.2.tok.ctl = ctl then dropOut ctl n ts else t :: dropOut ctl (n + 1) ts

/-- Whether a token of the output buffer goes to the destination and on the path class of a route. -/
def Elem.inLane (x : Elem) (r : Region) (rt : Route) (t : OutTok) : Bool :=
  match x.route t.label with | some q => q.cls == rt.cls && routeDest r q == routeDest r rt | none => false

/-- Whether an older token of the other plane for one destination and path class still stands in the output buffer (R125). -/
def Elem.olderInLane (x : Elem) (r : Region) (ctl : Bool) (rt : Route) : Bool :=
  (x.out.takeWhile fun t => t.2.tok.ctl != ctl).any fun t => x.inLane r rt t.2

/-- What an element's buffer sends next: the flight and its place, the first token with its route, and how many tokens leave. -/
structure Sending where
  flight : Flight
  place  : Nat
  first  : OutTok
  route  : Route
  count  : Nat
  deriving DecidableEq, Repr

/-- The oldest token of a plane, or a run of equal ones as one beat, of those in the buffer as the cycle began; one sending of each plane in
a cycle (R126, R146). The run is kept by route entry (R146), and every copy, at most 255, is sent with its own tag (R148; log 109, DESIGN
CHOICE). -/
def State.sending (s : State) (e : Nat) (ctl : Bool) : Option Sending :=
  let x := s.elem e
  if (if ctl then x.injC else x.injD) == s.cycle + 1 || !s.netRuns (.queue e 0) then none
  else
    match (x.outOf ctl).take ((s.view e).outOf ctl).length with
    | [] => none
    | (st, o) :: rest =>
      match x.route o.label, s.regOf e with
      | some rt, some r =>
        if x.olderInLane r ctl rt || (o.tok.kind == .eos && rt.tap.any fun b => !s.tapRoom (coreOf e) b) then none
        else
          let run := !ctl && rt.pack && o.tok.kind == .data && SMap.find o.label x.sent == some o.tok.pay
          let n := runPrefix (fun t => t.label = o.label && t.tok.kind = .data && t.tok.pay == o.tok.pay) (x.inLane r rt)
            ((x.out.dropWhile fun t => t.2.tok.ctl).drop 1)
          let more := if run then (rest.take n).take 254 else []
          let f := Flight.start e rt.cls (routeDest r rt) (o.tok :: more.map fun t => t.2.tok) (linkMode o.tok rt.pack run) s.cycle none
          some ⟨f, lanePos st f s.flight, o, rt, 1 + more.length⟩
      | _, _ => none

/-- The physical VCs that have a token ready for a link and plane that leave an element (R380). -/
def State.readyVcs (s : State) (e l : Nat) (ctl : Bool) : List Nat :=
  let leaves := fun (f : Flight) => f.at_ == e && f.ctl == ctl && (nextLink f.src e f.dst.elem).2.1 == l && !(f.link.isSome && e == f.dst.elem)
  (s.flight.zipIdx.filterMap fun g => if leaves g.1 && s.crossable g.2 g.1 then some (s.vcOf g.1) else none) ++
    match s.sending e ctl with
    | some d =>
      if leaves d.flight && ({ s with flight := s.flight.insertIdx d.place d.flight } : State).crossable d.place d.flight then [s.vcOf d.flight] else []
    | none => []

/-- Round-robin among the VCs of a link: a VC's turn is the sooner the less it lies behind the one served last (R380). -/
def State.linkTurn (s : State) (e l : Nat) (ctl : Bool) (v : Nat) : Bool :=
  let dist := fun (w : Nat) => (w + 31 - SMap.get 15 (2 * l + ctl.toNat) s.linkVc) % 16
  (s.readyVcs e l ctl).all fun w => dist v ≤ dist w

/-- The n-th flight crosses its next link, if it can and it is its VC's turn. -/
def State.crossLink (s : State) (n : Nat) (f : Flight) : State :=
  let (x, l, h) := nextLink f.src f.at_ f.dst.elem
  if s.crossable n f && s.linkTurn f.at_ l f.ctl (s.vcOf f) then
    { s with
      flight := s.flight.set n { f with at_ := x, link := some l, due := s.cycle + h }
      links := SMap.set (2 * l + f.ctl.toNat) (s.cycle + f.beats) s.links
      linkVc := SMap.set (2 * l + f.ctl.toNat) (s.vcOf f) s.linkVc }
  else s

/-- An element injects at most one token, or run, of each plane in a cycle: it leaves when it crosses its first link. -/
def State.injectElem (s : State) (e : Nat) (ctl : Bool) : State :=
  match s.sending e ctl with
  | none => s
  | some d =>
    let t := ({ s with flight := s.flight.insertIdx d.place d.flight } : State).crossLink d.place d.flight
    if (t.flight[d.place]?.bind Flight.link).isNone then s
    else
      let x := s.elem e
      let o := d.first
      let sent := if ctl || o.tok.kind != .data then SMap.erase o.label x.sent else SMap.set o.label o.tok.pay x.sent
      let y := { x with out := dropOut ctl d.count x.out, sent := sent }
      let y := if ctl then { y with injC := s.cycle + 1 } else { y with injD := s.cycle + 1 }
      let s := t.setElem e (y.count1 s.cycle 2 d.flight.beats)
      match o.tok.kind, d.route.tap with
      | .eos, some b => s.tapArrival e (coreOf e) b
      | _, _ => s

/-! ### In ports deliver (R96, R97) -/

/-- The markers due after token j of a window of n (R97): SECT first, then the highest level marker. -/
def markersAfter (p : Port) (secK : Nat) (shape : Option (Nat × Nat)) (j : Nat) : List Kind :=
  let sect := if (j + 1) % 2 ^ secK = 0 then [Kind.sect] else []
  let lvl :=
    if j + 1 = p.wcnt then [Kind.eos]
    else
      match shape with
      | none => []
      | some (cols, rows) =>
        if (j + 1) % (cols * rows) = 0 then [Kind.eot] else if (j + 1) % cols = 0 then [Kind.eor] else []
  sect ++ lvl

/-- COLS and ROWS of a port's shape record. -/
def shapeRec (r : Region) (tsrx : Nat) : Option (Nat × Nat) := (r.tsr.find? fun x => x.1 == tsrx).map Prod.snd

/-- A port sends one token to its element's queue: it starts its transit at element (0,0) of the core (R127), on path class 0 (log 46). -/
def State.portSend (s : State) (c k : Nat) (p : Port) (t : Token) (cmd : Option (Nat × Nat × Nat)) : State :=
  { s with flight := s.flight ++ [Flight.start (portSrc c k) 0 (.queue (c * 64 + p.exy) p.vc) [t] .raw s.cycle cmd] }

/-- Whether a port may send: its last token has crossed its first link. -/
def State.portClear (s : State) (c k : Nat) : Bool := !(s.flight.any fun f => f.src == portSrc c k && f.link.isNone)

/-- The command an indirect port serves, by its issue number. -/
def State.portCmd (s : State) (p : Port) : Option (Nat × Nat × Nat) :=
  match p.cmd with
  | some (e, k) => (s.slot e k).map fun y => (e, k, y.seq)
  | none => none

/-- Captures a port at its SECT marker of a cut not yet complete, or of the last one if that was complete before the marker came (R556). -/
def Region.capturePort (r : Region) (c k n : Nat) (p : Port) : Region :=
  if r.multi then r
  else if !serialAbove n r.cutN then
    if n = r.cutN && r.lastSnap.late.contains (8 * c + k) then
      { r with lastSnap := { r.lastSnap with
          late := eraseNat (8 * c + k) r.lastSnap.late
          cores := SMap.set c { SMap.get Core.reset c r.lastSnap.cores with
              ports := vset (SMap.get Core.reset c r.lastSnap.cores).ports k (some p) } r.lastSnap.cores } }
    else r
  else { r with newSnap := { r.newSnap with ports := (n, 8 * c + k, p) :: r.newSnap.ports } }

/-- The captures of cut n. -/
def Snap.portsAt (m : Snap) (n : Nat) : List (Nat × Port) :=
  (m.ports.filter fun p => p.1 == n).foldr (fun p ps => SMap.set p.2.1 p.2.2 ps) []

/-- The captures of cuts after n. -/
def Snap.portsAfter (m : Snap) (n : Nat) : List (Nat × Nat × Port) := m.ports.filter fun p => serialAbove p.1 n

/-- What the next cut starts from after cut n: the captures its markers have made already. -/
def Snap.start (m : Snap) (n : Nat) : Snap := { Snap.empty with ports := m.portsAfter n }

/-- PROG of the command an indirect in port serves, as it delivers its next token: tokens for GATH, bytes for UNSTASH (R45). -/
def State.portProg (s : State) (p : Port) : State :=
  match p.cmd with
  | none => s
  | some (e, k) =>
    match s.slot e k with
    | none => s
    | some y =>
      match y.ins with
      | .unstash _ _ => s.setProg e k (64 * (p.next + 1))
      | _ => s.setProg e k (p.next + 1)

/-- Whether an in port of a draining region has reached the end of its unit, or serves nothing: it inserts TAIL (R361). -/
def Port.drained (p : Port) : Bool := if p.ind then p.cmd.isNone else !p.open_

/-- Under a drain TAIL stands in the place of the next SECT, or of one at the end of the unit (R361). -/
def drainMarkers (ms : List Kind) : List Kind :=
  if ms.contains .sect then ms.map fun m => if m = .sect then .tail else m else if ms.contains .eos then .tail :: ms else ms

/-- An in port delivers its next marker or token. -/
def State.portDeliver (s : State) (c k : Nat) : State :=
  match s.port c k with
  | none => s
  | some p =>
    let rn := p.reg
    match s.region rn with
    | none => s
    | some r =>
      if p.out || r.phase != .running || !s.portClear c k then s
      else
        match p.due with
        | m :: ms =>
          let n := if m.kind = .sect then (p.sectN + 1) % 65536 else p.sectN
          let tok := if m.kind = .sect then { Token.sect n p.ctl with tag := 0 } else m
          let p' := { p with due := ms, sectN := n, open_ := p.open_ && m.kind != .eos, tailed := p.tailed || m.kind == .tail }
          let s := s.setPort c k p'
          let s := if m.kind = .sect then s.modRegion rn fun r => r.capturePort c k n p' else s
          s.portSend c k p tok (if m.kind = .eos || m.kind = .tail then s.portCmd p else none)
        | [] =>
          if p.tailed then s
          else if r.drain && p.drained then
            (s.setPort c k { p with tailed := true }).portSend c k p (Token.bare .tail p.ctl 0) none
          else
          match p.ahead with
          | [] => s
          | t :: ts =>
            let ms := markersAfter p r.secK (shapeRec r p.wtsrx) p.next
            let ms := (if r.drain then drainMarkers ms else ms).map fun m => Token.bare m p.ctl 0
            let s := s.setPort c k { p with ahead := ts, due := ms, next := p.next + 1, count := p.count + 1 }
            let s := s.portProg p
            let s := s.modRegion rn fun r => { r with sectTok := r.sectTok + 1 }
            s.portSend c k p t none

/-- TOKEN_INJECTION: an element's output buffer, or a port by its sender number. -/
def execTokenInjection (e : Nat) (ctl : Bool) (s : State) : Step1 :=
  .next (if e < 2 ^ 20 then s.injectElem e ctl else s.portDeliver ((e - 2 ^ 20) / 8) ((e - 2 ^ 20) % 8))

/-! ### TOKEN_ARRIVAL (R129, R130) -/

/-- What a command's token does to it as it enters its destination: a PIMRD counts sixteen, an MXACC its rows, and an EOS ends a GATH or UNSTASH or
completes an SCLOSE, as the token of an ISAMP does (R259, R266, R298, R318, R470, R514). -/
def State.tokenEntered (s : State) (cmd : Option (Nat × Nat × Nat)) (tok : Token) : State :=
  match cmd with
  | none => s
  | some (e, k, n) =>
    match s.slot e k with
    | none => s
    | some y =>
      if y.seq != n then s
      else
        match y.ins with
        | .pimrd _ _ => s.setSlot e k { y with sub := y.sub + 1, stage := if y.sub + 1 ≥ 16 then 2 else y.stage }
        | .mxacc _ _ =>
          let s := s.setSlot e k { y with lres := y.lres + 1 }
          if (y.lres + 1).toNat = y.opb.toNat then s.performed e k (y.lres + 1) else s
        | .isamp _ _ | .sclose _ _ => s.performed e k y.lres
        | _ => if tok.kind = .eos then s.setSlot e k { y with stage := 2 } else s

/-- Takes the n-th flight off the links. -/
def State.dropFlight (s : State) (n : Nat) : State := { s with flight := s.flight.eraseIdx n }

/-- Whether a region discards a token on arrival: SECT markers of a region whose cuts are all forced (R364). -/
def discards (r : Option Region) (t : Token) : Bool := t.kind == .sect && ((r.map Region.multi).getD false)

/-- An out port takes a token when it holds none that waits; others wait at its link input (log 110, DEDUCED). -/
def State.portTakes (s : State) (c k : Nat) : Bool := ((s.port c k).map fun p => p.waitq.isEmpty).getD true

/-- One token reaches its destination: a queue that has a slot for it, or a port, which at a landing takes all (R129, R130). -/
def State.reach (s : State) (landing : Bool) (dst : Dest) (cmd : Option (Nat × Nat × Nat)) (t : Token) : Option State :=
  if discards (s.regOf dst.elem) t then some s
  else
    match dst with
    | .queue e q => (s.enterQueue e q t).map fun s => s.tokenEntered cmd t
    | .port c k => if landing || s.portTakes c k then some ((s.modPort c k fun p => { p with waitq := p.waitq ++ [t] }).tokenEntered cmd t) else none

/-- The tokens of a flight enter one by one, as far as they find room: what is left, and the state (R149). -/
def State.reachAll (s : State) (landing : Bool) (dst : Dest) (cmd : Option (Nat × Nat × Nat)) (m : LinkMode) : List Token → List Token × State
  | [] => ([], s)
  | t :: ts => match s.reach landing dst cmd (t.unpack m) with | some s => s.reachAll landing dst cmd m ts | none => (t :: ts, s)

/-- Whether a queue is the MXC queue of a matrix node (R473, R475). -/
def State.mxcQueue (s : State) (e q : Nat) : Bool :=
  match s.regOf e with
  | some r => r.rects.any fun m => m.mq == q && r.gridOf e == (m.gx, m.gy)
  | none => false

/-- Whether a flight brings an MXC token to a part from a launch that does not own it (R283). -/
def State.strayMxc (s : State) (f : Flight) : Bool :=
  match f.dst, f.toks with
  | .queue e q, t :: _ => t.kind == .mxc && s.regionOf (srcElem f.src) != s.regionOf e && s.mxcQueue e q
  | _, _ => false

/-- A stray MXC token is a violation of its sender's launch (R283, R382). -/
def State.stray (s : State) (f : Flight) : State :=
  s.raiseFault
    { code := 0x1A, src := 0, reg := (s.regionOf (srcElem f.src)).getD 0, elid := srcElem f.src, tix := 0, slot := 0, addr := 0, opc := 0,
      word := 0, prog := 0, at_ := .none }

/-- The n-th flight goes on: it crosses its next link, or, once it has had its transit and is the first of its lane, its tokens enter. -/
def State.arrive (s : State) (n : Nat) : State :=
  match s.flight[n]? with
  | none => s
  | some f =>
    if f.link.isNone || f.at_ != f.dst.elem then s.crossLink n f
    else if f.ready && f.landed s.cycle && s.netRuns f.dst && !((s.flight.take n).any (sameLane · f)) && !s.heldBack n f then
      if s.strayMxc f then (s.dropFlight n).stray f
      else
      match s.reachAll false f.dst f.cmd f.mode f.toks with
      | ([], t) => t.dropFlight n
      | (ts, t) => { t with flight := t.flight.set n { f with toks := ts } }
    else s

def execTokenArrival (n : Nat) (s : State) : Step1 := .next (s.arrive n)

/-! ### CFG_TOKEN_APPLY (R132 to R135) -/

/-- The fields of a CFG token that are wrong (R135). -/
def cfgBad (x : Elem) (t : Token) : Bool :=
  let w := t.pay.toNat % 2 ^ 32
  let v := t.pay.toNat / 2 ^ 32 % 2 ^ 32
  let ck := bitsOf w 28 4
  let vc := bitsOf w 16 5
  !t.nw || ck > 2 || bitsOf w 21 7 != 0 || bitsOf w 4 12 != 0 || (ck != 2 && bitsOf w 0 4 != 0) || (ck == 2 && vc != 0) ||
    (ck == 0 && (bitsOf v 7 25 != 0 || bitsOf v 0 4 > 11 || bitsOf v 5 2 == 3 ||
      x.reservedSum - x.reservation vc + bitsOf v 5 2 > 48))

/-- Applies a good CFG token (R133). -/
def cfgApply (x : Elem) (t : Token) : Elem :=
  let w := t.pay.toNat % 2 ^ 32
  let v := t.pay.toNat / 2 ^ 32 % 2 ^ 32
  let vc := bitsOf w 16 5
  let c := vget x.chans vc Chan.default
  match bitsOf w 28 4 with
  | 0 => { x with chans := vset x.chans vc { c with fmt := (tyOfCode (BitVec.ofNat 4 (bitsOf v 0 4))).getD .n32, scOn := v.testBit 4, resv := bitsOf v 5 2 } }
  | 1 => { x with chans := vset x.chans vc { c with scale := BitVec.ofNat 32 v } }
  | _ => x.setS (bitsOf w 0 4) (BitVec.ofNat 32 v)

/-- A CFG token that is a head at the start of the cycle is applied and dequeued; a bad one is dequeued and raises PRM (R132, R135). At an MXC
queue it is a token of another kind (R475). -/
def State.applyCfg (s : State) (e q : Nat) : State :=
  match s.standing e q with
  | some t =>
    if t.kind = .cfg && s.runs e && !s.mxcQueue e q then
      let x := s.elem e
      if cfgBad x t then
        (s.setElem e (x.dequeue q)).raiseFault
          { code := 0x0A, src := 0, reg := (s.regionOf e).getD 0, elid := e, tix := 0, slot := 0, addr := 0, opc := 0, word := 0,
            prog := 0, at_ := .none }
      else
        let s := s.setElem e (cfgApply (x.dequeue q) t)
        if bitsOf t.pay.toNat 28 4 ≤ 1 then s.changed (coreOf e) else s
    else s
  | none => s

def execCfgTokenApply (e q : Nat) (s : State) : Step1 := .next (s.applyCfg e q)

/-! ### What moves by the end of a cycle (R126, R127, R132) -/

/-- Every element that runs injects what it can; a data token may stand behind a control token of its lane. -/
def State.injectAll (s : State) : State :=
  ((s.elems.map Prod.fst).filter s.runs).foldl (fun s e => ((s.injectElem e false).injectElem e true).injectElem e false) s

/-- Flights go on in their order, from the i-th: each crosses a link if it can, and enters if it can. -/
def State.sweep (s : State) : Nat → Nat → State
  | 0, _ => s
  | n + 1, i =>
    if i < s.flight.length then
      let t := s.arrive i
      let u := if t.flight.length < s.flight.length then t else t.arrive i
      u.sweep n (if u.flight.length < s.flight.length then i else i + 1)
    else s

/-- Flights go on until none can; the fuel counts sweeps. -/
def State.sweeps : Nat → State → State
  | 0, s => s
  | n + 1, s => let t := s.sweep s.flight.length 0; if t.flight == s.flight then t else State.sweeps n t

/-- CFG tokens that stand at heads are applied. -/
def State.applyCfgs (s : State) : State :=
  ((s.elems.map Prod.fst).filter s.runs).foldl (fun s e => (List.range 32).foldl (fun s q => s.applyCfg e q) s) s

/-- What no choice has moved in the cycle moves at its end, so that a token that meets no busy link and no full queue keeps the transit time
of R127. -/
def State.moveAll (s : State) : State :=
  let s := (s.sweeps (s.flight.length + 1)).injectAll
  (s.sweeps (s.flight.length + 1)).applyCfgs

end Sys2Proof.Machine
end

