-- ==== Sys2Proof/Machine/PortOps.lean ====
section
/-! DEFINITION. Stream ports: SOPEN, SPARM, SCLOSE and SREC (R511 to R516), RFEN (R503 to R505), and the steps PORT_TOKEN_READ and
PORT_TOKEN_WRITE (R96, R200, R513). -/

namespace Sys2Proof.Machine

open Sys2Proof

/-! ### Windows -/

/-- An indirect port: its image record has BASE 0 and STRIDE 0 (R263). -/
def Port.indirect (p : Port) : Bool := p.ind

/-- Opens a window of n tokens from index i0; an in port of an empty window owes EOS alone (R511, R513). -/
def Port.openWindow (p : Port) (i0 : W64) (n : Nat) (byS : Bool) : Port :=
  { p with wbase := p.base, wstride := p.stride, wtsrx := p.tsrx, open_ := true, bySopen := byS, wfst := i0, wcnt := n, cursor := 0, next := 0, count := 0, ahead := [],
           due := if !p.out && n = 0 then [Token.bare .eos p.ctl 0] else [] }

/-- The address of token j of the open window (R96, R513). -/
def Port.addr (p : Port) (j : Nat) : Nat :=
  let i : Int := ((p.wfst.toNat + j : Nat) : Int)
  offsetAdd 64 p.wbase.toNat (i * p.wstride.toInt)

/-- Bytes of a token in memory (R96). -/
def Port.bytes (p : Port) (ctl : Bool) : Nat := if ctl then tyBytes p.ty else 64

/-- LWM: the lowest address the open window has still to read or write, if there is one (R200). -/
def Port.lwm (p : Port) : Option Nat :=
  let j := if p.out then p.next else p.cursor
  if !p.open_ || p.indirect || p.wcnt ≤ j then none else some (min (p.addr j) (p.addr (p.wcnt - 1)))

/-- The token an in port makes of the bytes it reads (R62, R96). -/
def Port.token (p : Port) (bs : List Byte) : Token :=
  if p.ctl then
    if Ty.width p.ty = 64 then ⟨.data, 0, true, true, word512 (natLE bs), false⟩
    else ⟨.data, 0, true, false, word512 (regWord p.ty (natLE bs)).toNat, false⟩
  else dataTok (word512 (natLE bs)) 0

/-! ### PORT_TOKEN_READ (R96, R503) -/

/-- The partition a port's accesses are made for. -/
def State.portPart (s : State) (p : Port) : Nat := ((s.region p.reg).map Region.part).getD 0

/-- The fault of a port (R373): SRC 1, the port in TIX, element 0:0 of its core. -/
def State.failPort (s : State) (c k code addr : Nat) : State :=
  s.raiseFault
    { code := code, src := 1, reg := s.portReg c k, elid := c * 64, tix := k, slot := 0, addr := addr, opc := 0, word := 0,
      prog := 0, at_ := .port c k }

/-- A port may act: its region runs and it is not held or stopped by a drain. -/
def State.portRuns (s : State) (c k : Nat) (out : Bool) : Option Port :=
  match s.port c k, s.region (s.portReg c k) with
  | some p, some r => if p.out == out && r.phase == .running && !p.held && !p.tailed then some p else none
  | _, _ => none

/-- Whether an RFEN of a core holds an in port's reads: from its loop until it completes (R505). -/
def State.fencing (s : State) (c k : Nat) : Bool :=
  s.elems.any fun x => coreOf x.1 == c && x.2.slots.toList.any fun z => match z with
    | some y => (match y.ins with | .rfen _ o => (y.stage == 3 || y.sub == 1) && o.imm.toNat.testBit k | _ => false)
    | none => false

/-- Reads the next token of an in port's window ahead of its delivery. -/
def State.portRead (s : State) (c k : Nat) : State :=
  match s.portRuns c k false with
  | none => s
  | some p =>
    if !p.open_ || p.indirect || p.cursor ≥ p.wcnt || s.fencing c k then s
    else
      let a := p.addr p.cursor
      let part := s.portPart p
      match s.resolveRun c part a (p.bytes p.ctl) .load with
      | .fault code va => s.failPort c k code va
      | .miss _ => s
      | .ok ls =>
        let s := s.fillRun c part a (p.bytes p.ctl)
        s.setPort c k { p with cursor := p.cursor + 1, ahead := p.ahead ++ [p.token (s.readRun a ls)] }

def execPortTokenRead (c k : Nat) (s : State) : Step1 := .next (s.portRead c k)

/-! ### PORT_TOKEN_WRITE (R96, R514) -/

/-- An out port that the markers of its region's last complete cut are still to reach (R364, R556, log 64). -/
def State.portLate (s : State) (c k : Nat) (p : Port) : Bool := (s.region p.reg).any fun r => r.lastSnap.late.contains (8 * c + k)

/-- The writer an out port is: its interval is that of the last SECT to reach it (R364); what it writes before it joins a cut that is complete
is committed (R367, R368). -/
def State.portWriter (s : State) (c k : Nat) (p : Port) : Writer := ⟨some p.reg, p.sectN, !s.portLate c k p⟩

/-- An out port's page types are those of CPY (R192). -/
def Access.portWrite : Access := ⟨[0, 1, 3], .all, true, false⟩

/-- The bytes an out port writes of a token (R96). -/
def outBytes (p : Port) (t : Token) : List Byte :=
  let w := if t.ctl then t.pay.toNat % (if t.nw then 2 ^ 64 else 2 ^ 32) else t.pay.toNat
  bytesLE (p.bytes t.ctl) w

/-- Takes the next token from an out port's queue. -/
def State.portPop (s : State) (c k : Nat) (f : Port → Port) : State :=
  s.modPort c k fun p => f { p with waitq := p.waitq.tail }

/-- Writes the DATA token at the head of an out port's queue, within the windows of a peer (R395). -/
def State.portStore (s : State) (c k : Nat) (p : Port) (t : Token) : State :=
  if p.bySopen && p.next ≥ p.wcnt then s.failPort c k 0x08 0
  else
    let a := p.addr p.next
    let bs := outBytes p t
    let part := s.portPart p
    match s.resolveRun c part a bs.length .portWrite with
    | .fault code va => s.failPort c k code va
    | .miss _ => s
    | .ok ls =>
      let w := s.portWriter c k p
      if farRun ls && p.cut != 2 then (if p.cut = 0 then (s.setPort c k { p with cut := 1 }).askCut w.reg else s)
      else if s.runFull w ls && p.full != 2 then (s.setPort c k { p with full := 1 }).askCut w.reg
      else if !s.canSend (peerBytes ls) then s
      else
        let s := ((s.fillRun c part a bs.length).spend (peerBytes ls)).writeRun { w with hold := w.hold && p.full != 2 } a ls bs
        let s := if farRun ls then s.askSecond w.reg else s
        s.portPop c k fun p => { p with next := p.next + 1, cursor := p.next + 1, count := p.count + 1, cut := 0, full := 0 }

/-- An out port takes its next token: DATA is written, or discarded after an SCLOSE; EOS ends the window; SECT is its shadow; TAIL
ends it for a drain; other markers are passed over (R96, R361, R364, R514). A token that finds no open window waits. -/
def State.portWrite (s : State) (c k : Nat) : State :=
  match s.portRuns c k true with
  | none => s
  | some p =>
    match p.waitq with
    | [] => s
    | t :: _ =>
      match t.kind with
      | .sect =>
        let n := t.pay.toNat % 65536
        (match s.region p.reg with
         | some r =>
           if !serialAbove n r.cutN && !s.portLate c k p then s.portPop c k id
           else (s.portPop c k fun p => { p with sectN := n }).modRegion p.reg fun r => r.capturePort c k n { p with sectN := n, waitq := [] }
         | none => s)
      | .tail => s.portPop c k fun p => { p with tailed := true }
      | .data =>
        if p.indirect then s
        else if p.discard then s.portPop c k fun p => { p with disc := p.disc + 1 }
        else if !p.open_ then s
        else s.portStore c k p t
      | .eos =>
        if p.indirect then s
        else if p.discard then s.portPop c k fun p => { p with discard := false }
        else if !p.open_ then s
        else s.portPop c k fun p => { p with open_ := false }
      | _ => if p.indirect then s else s.portPop c k id

def execPortTokenWrite (c k : Nat) (s : State) : Step1 := .next (s.portWrite c k)

/-! ### The commands (R512 to R516) -/

def isPortOp : Instr → Bool
  | .sopen _ _ | .sparm _ _ | .sclose _ _ | .srec _ _ => true
  | _ => false

/-- The port that a command names. -/
def portNo : Instr → Nat
  | .sopen _ o | .sparm _ o | .sclose _ o | .srec _ o => o.imm.toNat % 8
  | _ => 8

/-- Whether an older command of the element has still to reach the port before a younger one (R516). An SOPEN that waits for its window or
its edges, and an SCLOSE that waits at the port, have reached it; only another SOPEN comes after the first. -/
def State.portBefore (s : State) (e : Nat) (p : Port) (z y : Slot) : Bool :=
  z.seq < y.seq && z.stage == 0 && portNo z.ins == portNo y.ins &&
    match z.ins, y.ins with
    | .sopen _ _, .sopen _ _ => true
    | .sopen _ _, _ => !p.open_ && s.edgesMet e z
    | .sclose _ _, _ => z.sub == 0
    | _, _ => true

/-- A command that reaches its port, in issue order and a cycle after its issue (R516). -/
def State.tryPort (s : State) (e k pn : Nat) (act : Slot → Port → State) : State :=
  s.trySlot e k noBad fun y =>
    match s.port (coreOf e) pn with
    | some p =>
      if s.sentBefore e y && !((s.elem e).slots.toList.any fun z => match z with | some z => s.portBefore e p z y | none => false) then act y p
      else s
    | none => s

/-- SOPEN waits for the window to close and for the element's earlier memory operations, then opens the next (R513). -/
def performSopen (o : FmtE) (e k : Nat) (s : State) : State :=
  s.tryPort e k (o.imm.toNat % 8) fun y p =>
    if p.open_ then s
    else
      let n := countOf y
      let i0 := y.opa.toNat % 2 ^ 32
      (s.setPort (coreOf e) (o.imm.toNat % 8) (p.openWindow (BitVec.ofNat 64 i0) n true)).performed e k (word512 n)
def execSopen (t : TU) (o : FmtE) (s : State) : Step1 :=
  .next (s.fire (.sopen t o) t fun f s =>
    cmdIssue (.sopen t o) (word512 (wordOf f.x o.a)) (word512 (wordOf f.x o.b)) 0 noBad (performSopen o) f s)

/-- SPARM: what it writes governs the next window, and it waits for none (R514). -/
def performSparm (o : FmtE) (e k : Nat) (s : State) : State :=
  s.tryPort e k (o.imm.toNat % 8) fun y p =>
    let w := y.opa.toNat
    let known := (((s.regOf e).map fun r => r.tsr.any fun x => x.1 == w % 256).getD false)
    let (p', ok) :=
      match o.imm.toNat / 8 % 8 with
      | 0 => ({ p with base := BitVec.ofNat 64 w }, true)
      | 1 => ({ p with stride := BitVec.ofNat 32 w }, true)
      | 2 => if known then ({ p with tsrx := w % 256 }, true) else ({ p with tsrx := 255 }, false)
      | _ => ({ p with auto := w % 2 == 1 }, true)
    (s.setPort (coreOf e) (o.imm.toNat % 8) p').performed e k (word512 ok.toNat)
def execSparm (t : TU) (o : FmtE) (s : State) : Step1 :=
  .next (s.fire (.sparm t o) t fun f s =>
    cmdIssue (.sparm t o) (word512 (if o.imm.toNat / 8 % 8 = 0 then pairOf f.x o.a else wordOf f.x o.a)) 0 0 noBad (performSparm o) f s)

/-- DATA tokens of its open window that an out port has taken and not written (R130, R505, R514). -/
def Port.taken (p : Port) : Nat :=
  if p.open_ && !p.indirect then ((p.waitq.takeWhile fun t => t.kind != .eos).filter fun t => t.kind == .data).length else 0

/-- An out port with a token taken and not written. -/
def Port.busy (p : Port) : Bool := p.out && (p.held || p.cut != 0 || p.full != 0 || p.taken != 0)

/-- Whether a SECT is due after the token an in port delivered last (R97). -/
def Port.owesSect (p : Port) : Bool := p.due.any fun m => m.kind == .sect

/-- SCLOSE (R514): an in port drops what it read ahead and delivers EOS, behind a SECT that is due (R97, log 124); an out port waits for what it has taken, closes and
discards up to its next EOS. -/
def performSclose (o : FmtE) (e k : Nat) (s : State) : State :=
  let c := coreOf e
  let pn := o.imm.toNat % 8
  s.tryPort e k pn fun y p =>
    if !p.open_ then s.performed e k 0
    else if p.out then
      let n := if y.sub = 0 then p.count + p.taken + 1 else y.sub
      if p.held || p.cut != 0 || p.full != 0 || p.count + 1 < n then s.setSlot e k { y with sub := n }
      else (s.setPort c pn { p with open_ := false, discard := true }).performed e k (word512 p.count)
    else if p.owesSect then
      (s.setPort c pn { p with ahead := [], due := p.due.filter fun m => m.kind == .sect, cursor := p.wcnt }).setSlot e k { y with sub := 1 }
    else
      let at_ := FaultAt.port c pn
      let s := { s with
        pend := s.pend.filter (fun f => f.at_ != at_), pgfs := s.pgfs.filter (fun f => f.at_ != at_)
        tags := s.tags.map fun (t : PageReq) => if t.at_ == at_ then { t with at_ := .none } else t }
      let p := { p with ahead := [], due := [], held := false, open_ := false, cursor := p.next }
      let s := (s.setPort c pn p).setSlot e k { y with stage := 1, lres := word512 p.count }
      s.portSend c pn p (Token.bare .eos p.ctl 0) (some (e, k, y.seq))
def execSclose (t : TU) (o : FmtE) (s : State) : Step1 :=
  .next (s.fire (.sclose t o) t fun f s => cmdIssue (.sclose t o) 0 0 0 noBad (performSclose o) f s)

/-- SREC reads a field of the port (R515); LWM of a window with nothing left is a free value (log 9). -/
def portField (p : Port) (free g : Nat) : Nat :=
  match g with
  | 0 => p.count % 2 ^ 32
  | 1 => p.wcnt % 2 ^ 32
  | 2 => p.open_.toNat + 2 * p.out.toNat + 4 * p.indirect.toNat + 8 * p.held.toNat + 16 * p.discard.toNat + 32 * p.auto.toNat
  | 3 => p.lwm.getD (Config.freeWord free).toNat
  | 4 => p.base.toNat
  | 5 => p.stride.toNat
  | _ => p.disc % 2 ^ 32
def performSrec (o : FmtE) (e k : Nat) (s : State) : State :=
  s.tryPort e k (o.imm.toNat % 8) fun _ p =>
    let g := o.imm.toNat / 8 % 8
    let s' := s.performed e k (word512 (portField p s.free g))
    if g = 3 && p.lwm.isNone then { s' with free := s.free + 1 } else s'
def execSrec (t : TU) (o : FmtE) (s : State) : Step1 :=
  .next (s.fire (.srec t o) t fun f s => cmdIssue (.srec t o) 0 0 0 noBad (performSrec o) f s)

/-- Whether SREC returns a pair. -/
def srecWide (o : FmtE) : Bool := o.imm.toNat / 8 % 8 == 3 || o.imm.toNat / 8 % 8 == 4

/-! ### RFEN (R505) -/

/-- RFEN: in ports of the mask drop what they read ahead and read nothing until it completes; it waits for out ports. -/
def performRfen (o : FmtE) (e k : Nat) (s : State) : State :=
  s.trySlot e k noBad fun y =>
    let c := coreOf e
    let ks := (List.range 8).filter o.imm.toNat.testBit
    let busy := ks.any fun i => ((s.port c i).map Port.busy).getD false
    let s := ks.foldl (fun s i => s.modPort c i fun p => if p.out then p else { p with ahead := [], cursor := p.next }) s
    if busy then s.setSlot e k { y with sub := 1 } else s.performed e k (word512 (o.imm.toNat % 256))
def execRfen (t : TU) (o : FmtE) (s : State) : Step1 :=
  .next (s.fire (.rfen t o) t fun f s => cmdIssue (.rfen t o) 0 0 0 noBad (performRfen o) f s)

end Sys2Proof.Machine
end

