-- ==== Sys2Proof/Machine/MacOps.lean ====
section
/-! DEFINITION. Bank multiply-accumulate (R252 to R262, R487): PIMAB, PIMLD, PIMMAC and PIMRD, and the step BANK_MAC_PERFORM. -/

namespace Sys2Proof.Machine

open Sys2Proof

/-! ### Issue -/

/-- An address must lie on a native page; a PIMMAC's names the start of a row group and a column chunk (R255). -/
def performMac (o : FmtE) (mac : Bool) (e k : Nat) (s : State) : State :=
  s.trySend e k noBad fun y =>
    let va := copyDst y
    s.toStack e k va .nativeRead fun l s =>
      if mac && (bitsOf va 10 4 != 0 || bitsOf va 0 5 != 0) then s.failSlot e k 0x05 va
      else
        let go (s : State) : State := s.enqueueCmd e k y .mac l.stack o.eq.toNat []
        if mac then s.irrevocable e k y go else go s

/-- Bank MAC commands issue with the address, the vector of B and the selector of C captured; a control-plane head, which a queue fed on
both planes may hold, is read as R61 has a vector operation read it (log 116). -/
def macIssue (i : Instr) (o : FmtE) (mac : Bool) (f : Firing) (s : State) : State :=
  let b : VW :=
    match o.b with
    | .v r => f.x.vreg r.toNat
    | .q q => ((f.x.head q.toNat).map fun t => word512 (joinLanes 16 (headLanes t .h16 true))).getD 0
    | _ => 0
  cmdIssue i (word512 (pairOf f.x o.a)) b (word512 (wordOf f.x o.c)) noBad (performMac o mac) f s

def execPimabEnter (t : TU) (o : FmtE) (s : State) : Step1 :=
  .next (s.fire (.pimabEnter t o) t (macIssue (.pimabEnter t o) o false))
def execPimabLeave (t : TU) (o : FmtE) (s : State) : Step1 :=
  .next (s.fire (.pimabLeave t o) t (macIssue (.pimabLeave t o) o false))
def execPimld (t : TU) (o : FmtE) (s : State) : Step1 := .next (s.fire (.pimld t o) t (macIssue (.pimld t o) o false))
def execPimmac (t : TU) (o : FmtE) (s : State) : Step1 := .next (s.fire (.pimmac t o) t (macIssue (.pimmac t o) o true))

/-- The label of a PIMRD. -/
def pimLabel (o : FmtE) : Nat := o.imm.toNat % 128

/-- A PIMRD or MXACC keeps the places of its n tokens from its issue (R258, R470). -/
def keepPlaces (label n : Nat) (f : Firing) (s : State) : State :=
  match f.x.route label, s.regOf f.e, freeSlot f.x with
  | some rt, some r, some k =>
    { s with flight := s.flight ++ List.replicate n (Flight.place f.e rt.cls (routeDest r rt) (f.e, k, f.seq)) }
  | _, _, _ => s
def execPimrd (t : TU) (o : FmtE) (s : State) : Step1 :=
  .next (s.fire (.pimrd t o) t fun f s => macIssue (.pimrd t o) o false f (keepPlaces (pimLabel o) 16 f s))

/-! ### The sequencer (R253, R256, R257) -/

/-- Accumulator group g of bank b. -/
def accKey (b g : Nat) : Nat := 4 * b + g
def PChan.accOf (p : PChan) (b g : Nat) : VW := SMap.get 0 (accKey b g) p.acc

/-- acc + w × x in f32 from FP16 factors, rounded once to nearest even (R177). -/
def macLane (acc w x : Nat) : Nat :=
  let (p, _) := mulVal (readFloat .h16 w) (readFloat .h16 x)
  let (v, _) := addVal .rne (readFloat .f32 acc) p
  (roundVal .f32 .rne false v).1

/-- One bank of a PIMMAC. -/
def macBank (s : State) (leaf : W64) (va : Nat) (x : VW) (acc : VW) (b : Nat) : VW :=
  let o := va % 65536
  let c := o % 1024 / 32
  let row := 16 * (o / 16384) + (b + 16 - bitsOf leaf.toNat 58 4) % 16
  let a := nativeAddr leaf (1024 * row + 32 * c)
  let w := natLE (s.rowRead a 32)
  let xl := x.toNat / 2 ^ (16 * b) % 65536
  word512 (joinLanes 32 ((List.range 16).map fun j => macLane (acc.toNat / 2 ^ (32 * j) % 2 ^ 32) (w / 2 ^ (16 * j) % 65536) xl))

/-- The L2 lines that hold a PIMMAC's chunks become clean (R260). -/
def cleanChunks (l2 : List (Nat × Bool)) (leaf : W64) (va : Nat) : List (Nat × Bool) :=
  (List.range 16).foldl (fun m i =>
    let line := nativeAddr leaf (va % 65536 / 16384 * 16384 + 1024 * i + va % 1024) / 128
    if (SMap.find line m).isSome then SMap.set line false m else m) l2

/-- Forms the next tokens of a command whose places are kept (R258). -/
def State.formTokens (s : State) (e k : Nat) (toks : List Token) (pack : Bool) : State :=
  let go (m : List Flight × List Token) (f : Flight) : List Flight × List Token :=
    match m.2 with
    | tok :: rest =>
      if !f.ready && f.cmd.map (fun c => (c.1, c.2.1)) == some (e, k) then
        let m1 := linkMode tok pack false
        (m.1 ++ [{ f with toks := [tok.pack m1], mode := m1, beats := tokBeats tok m1, ready := true, due := s.cycle }], rest)
      else (m.1 ++ [f], m.2)
    | [] => (m.1 ++ [f], [])
  { s with flight := (s.flight.foldl go ([], toks)).1 }

/-- Changes a pseudo-channel's state; while a marker cut forms, a command of an element that has not taken its shadow changes what the cut
captures in the same way (R262, R556). -/
def State.modPchan (s : State) (t : Entry) (key : Nat) (f : PChan → PChan) : State :=
  let s := s.setPchan key (f (s.pchan key))
  s.modRegion t.reg fun r =>
    let m := r.newSnap
    if r.forming.isSome && (SMap.find t.elem m.elems).isNone then
      { r with newSnap := { m with pcs := SMap.set key (f (SMap.get PChan.reset key m.pcs)) m.pcs } }
    else r

/-- What a PIMMAC does to the accumulators of group g (R257). -/
def PChan.mac (s : State) (leaf : W64) (va k g : Nat) (p : PChan) : PChan :=
  let x : VW := BitVec.ofNat 512 (vget p.xs k 0).toNat
  { p with acc := (List.range 16).foldl (fun m b => SMap.set (accKey b g) (macBank s leaf va x (p.accOf b g) b) m) p.acc }

/-- Accumulator group g becomes +0 in every bank. -/
def PChan.clear (g : Nat) (p : PChan) : PChan := { p with acc := (List.range 16).foldl (fun m b => SMap.erase (accKey b g) m) p.acc }

/-- Performs the command at the head of a queue (R253 to R259). -/
def serveMac (g q : Nat) (t : Entry) (y : Slot) (s : State) : State :=
  match s.resolve (coreOf t.elem) (s.partOf t.elem) (copyDst y) .nativeRead with
  | .fault c => s.failEntry g q t c (copyDst y)
  | .miss => s
  | .ok l =>
    let key := nativePc l.leaf
    let p := s.pchan key
    let mine := p.holder == some t.reg
    let c := y.opc.toNat
    match y.ins with
    | .pimabEnter _ _ =>
      if p.mode && !mine then s
      else (s.modPchan t key fun _ => ⟨true, some t.reg, Vector.replicate 16 0, []⟩).finishEntry g q t 1
    | .pimabLeave _ _ =>
      if mine then (s.modPchan t key fun _ => PChan.reset).finishEntry g q t 1 else s.finishEntry g q t 0
    | .pimld _ _ =>
      if !mine then s.failEntry g q t 0x12 (copyDst y)
      else (s.modPchan t key fun p => { p with xs := vset p.xs (c % 16) (BitVec.ofNat 256 y.opb.toNat) }).finishEntry g q t 16
    | .pimmac _ _ =>
      if !mine then s.failEntry g q t 0x12 (copyDst y)
      else
        let s := { s with l2 := cleanChunks s.l2 l.leaf (copyDst y) }
        ((s.modPchan t key (PChan.mac s l.leaf (copyDst y) (c % 16) (c / 16 % 4))).finishEntry g q t 16).askSecond (some t.reg)
    | .pimrd _ o =>
      if y.stage = 2 then s.finishEntry g q t 16
      else if t.stage = 2 then s
      else if !mine then s.failEntry g q t 0x12 (copyDst y)
      else
        let gr := c % 4
        let toks := (List.range 16).map fun b => dataTok (p.accOf b gr) 0
        let pack := (((s.elem t.elem).route (pimLabel o)).map Route.pack).getD false
        let s := if o.imm.toNat / 128 % 2 = 1 then s.modPchan t key (PChan.clear gr) else s
        (s.formTokens t.elem t.slot toks pack).setEntry g q { t with stage := 2 }
    | _ => s

def execBankMacPerform (g q : Nat) (s : State) : Step1 :=
  .next (if engineKindOf g == .mac then s.serve g q (serveMac g q) else s)

end Sys2Proof.Machine
end

