-- ==== Sys2Proof/Machine/IndOps.lean ====
section
/-! DEFINITION. Indirect streams (R263 to R269, R445, R510): GATH and SCAT, and the steps GATH_ROW and SCAT_ROW. -/

namespace Sys2Proof.Machine

open Sys2Proof

/-! ### Indirect ports (R263) -/

/-- The port a command names serves it: free, or serving it already. -/
def portFor (p : Port) (t : Entry) : Bool := p.cmd.isNone || p.cmd == some (t.elem, t.slot)

/-- An indirect in port starts to serve a command of n tokens, from a token on. -/
def State.servePort (s : State) (pn : Nat) (t : Entry) (n from_ : Nat) : State :=
  s.modPort (coreOf t.elem) pn fun p =>
    if p.cmd.isSome then p
    else { p.openWindow 0 n false with cmd := some (t.elem, t.slot), cursor := from_, next := from_ }

/-- Takes tokens at an indirect out port up to its next DATA or EOS: markers below EOS, SECT and TAIL are passed over (R267, R317);
the head of what is left. -/
def State.skipMarkers (s : State) (c k : Nat) : Nat → State × Option Token
  | 0 => (s, none)
  | n + 1 =>
    match s.port c k with
    | none => (s, none)
    | some p =>
      match p.waitq with
      | [] => (s, none)
      | t :: _ =>
        if t.kind = .data || t.kind = .eos then (s, some t)
        else if t.kind = .sect || t.kind = .tail then (s.portWrite c k).skipMarkers c k n
        else (s.portPop c k id).skipMarkers c k n

/-- The next DATA or EOS token at an out port, if one has reached it. -/
def State.nextAt (s : State) (c k : Nat) : State × Option Token :=
  s.skipMarkers c k (((s.port c k).map fun p => p.waitq.length + 1).getD 0)

/-! ### Issue (R265) -/

/-- The table base is 64-byte aligned and the index array 4-byte aligned. -/
def indBad (o : FmtE) (y : Slot) : Option (Nat × Nat) :=
  if copyDst y % 64 ≠ 0 then some (0x05, copyDst y)
  else if copySrc y % 4 ≠ 0 then some (0x05, copySrc y)
  else noteBad o y

def performInd (o : FmtE) (e k : Nat) (s : State) : State :=
  s.trySend e k (indBad o) fun y =>
    s.toStack e k (copySrc y) .gathRead fun l s => s.enqueueCmd e k y .ind l.stack o.eq.toNat []
def execGath (t : TU) (o : FmtE) (s : State) : Step1 :=
  .next (s.fire (.gath t o) t (cmdCapture (.gath t o) o (indBad o) (performInd o)))
def execScat (t : TU) (o : FmtE) (s : State) : Step1 :=
  .next (s.fire (.scat t o) t (cmdCapture (.scat t o) o (indBad o) (performInd o)))

/-! ### Rows (R266, R267) -/

/-- The address of the row of an index. -/
def rowAddr (o : FmtE) (y : Slot) (w : Nat) : Nat :=
  let i : Int := if o.ty = .s32 then sxInt w 32 else (w : Int)
  offsetAdd 64 (copyDst y) (i * ((64 * 2 ^ (bitsOf o.imm.toNat 3 3) : Nat) : Int))

/-- The row an index names: its address, or the fault of reading the index (R265). Translations go through the base die's cache. -/
def State.indexRow (s : State) (g q : Nat) (t : Entry) (y : Slot) (o : FmtE) (j : Nat) (act : Nat → State → State) : State :=
  let stack := g % 64
  let xa := (copySrc y + 4 * j) % 2 ^ 64
  s.engAccess g q t (256 + stack) xa 4 .gathRead fun ls s =>
    if ls.any fun x => x.1.stack / 3 != stack / 3 then s.failEntry g q t 0x10 xa
    else
      act (rowAddr o y (natLE (s.readRun xa ls))) s

/-- The row of index j that a command has taken on. -/
def Entry.row (t : Entry) (j : Nat) : Option RowPlan := t.plan.find? fun r => r.j == j

/-- Rows that have been read go ahead to the port in ascending order; what is left (R268). -/
def deliverRows : Nat → Port → List RowPlan → Port × List RowPlan
  | 0, p, rs => (p, rs)
  | n + 1, p, rs =>
    match (rs.find? fun r => r.j == p.cursor).bind RowPlan.tok with
    | none => (p, rs)
    | some tok => deliverRows n { p with cursor := p.cursor + 1, ahead := p.ahead ++ [tok] } (rs.filter fun r => r.j != p.cursor)

/-- GATH reads an index, or the row of an index it has read, of any of its tokens; a read that is held is tried again. Once its EOS has
entered the queue it is done (R266, R268). -/
def gathRow1 (o : FmtE) (g q : Nat) (t : Entry) (y : Slot) (s : State) : State :=
  let c := coreOf t.elem
  let pn := o.imm.toNat % 8
  let n := countOf y
  if t.stage = 2 then s
  else if y.stage = 2 then s.payloadDone g q t (ntfOf o) y.opc n
  else
    match s.port c pn with
    | none => s
    | some p =>
      if !portFor p t then s
      else
        let s := s.servePort pn t n y.prog
        match s.port c pn with
        | none => s
        | some p =>
          if p.cursor ≥ n then s
          else
            let todo := ((List.range (n - p.cursor)).map (p.cursor + ·)).filter fun j => ((t.row j).bind RowPlan.tok).isNone
            let (s, i) := if t.part ≠ 0 then (s, 0) else s.pick todo.length
            let j := if t.part ≠ 0 then t.part - 1 else todo.getD i p.cursor
            let s := s.setEntry g q { t with part := j + 1 }
            match t.row j with
            | none =>
              s.indexRow g q t y o j fun ra s =>
                s.setEntry g q { t with part := 0, plan := t.plan ++ [⟨j, ra, none, none, none, false⟩] }
            | some r =>
              s.engAccess g q t (256 + g % 64) r.addr 64 .gathRead fun ls s =>
                let tok := dataTok (word512 (natLE (s.readRun r.addr ls))) 0
                let (p, rs) := deliverRows n p (t.plan.map fun x => if x.j = j then { x with tok := some tok } else x)
                (s.setPort c pn p).setEntry g q { t with part := 0, plan := rs }

/-- Whether two runs share a byte of a memory. -/
def runsMeet (xs zs : List (Loc × Nat)) : Bool :=
  xs.any fun x => zs.any fun z => x.1.space == z.1.space && x.1.addr < z.1.addr + z.2 && z.1.addr < x.1.addr + x.2

/-- Rows of a SCAT that may be written now: no row before one that is still to be written has a location of it, under whatever address
(R207, R268), and every row before it translates, so that it can be passed. -/
def State.writable (s : State) (g : Nat) (t : Entry) : List RowPlan :=
  let todo := t.plan.filter fun r => !r.done
  let places := todo.map fun r => (r, s.resolveRun (256 + g % 64) (s.partOf t.elem) r.addr 64 .scatWrite)
  (places.filter fun r => places.all fun z =>
    r.1.j ≤ z.1.j || (match r.2, z.2 with | .ok a, .ok b => !runsMeet a b | _, _ => false)).map Prod.fst

/-- PROG counts the rows that are written up to the first that is not (R269). -/
def State.scatDone (s : State) (g q : Nat) (t : Entry) : State :=
  let lead := t.plan.takeWhile RowPlan.done
  match s.slot t.elem t.slot with
  | some y => (s.setProg t.elem t.slot (y.prog + lead.length)).setEntry g q { t with plan := t.plan.drop lead.length }
  | none => s

/-- Writes a row that a SCAT has taken on. -/
def scatWrite (o : FmtE) (g q : Nat) (t : Entry) (r : RowPlan) (s : State) : State :=
  s.engAccess g q t (256 + g % 64) r.addr 64 .scatWrite fun ls s =>
    s.engBudget g q t ls fun s =>
      let s := s.writeRun { s.writer t.elem with hold := t.full != 2 } r.addr ls (bytesLE 64 ((r.tok.map Token.pay).getD 0).toNat)
      let plan := t.plan.map fun x => if x.j = r.j then { x with done := true } else x
      (s.credits t o 6 64).scatDone g q { t with full := 0, plan := plan }

/-- The token a SCAT takes next: one its port holds, or the next at the port, which it then holds. -/
def State.scatToken (s : State) (c pn : Nat) : State × Option Token :=
  match (s.port c pn).map Port.heldq with
  | some (h :: _) => (s, some h)
  | _ =>
    match s.nextAt c pn with
    | (s, some h) => if h.kind = .data then (s.portPop c pn fun p => { p with heldq := [h] }, some h) else (s, some h)
    | r => r

/-- SCAT takes on its next token, whose index it reads, or writes a row it has taken on; its port holds the tokens of 32 rows at most (R267, R268,
R355). -/
def scatRow1 (o : FmtE) (g q : Nat) (t : Entry) (y : Slot) (s : State) : State :=
  let c := coreOf t.elem
  let pn := o.imm.toNat % 8
  let n := countOf y
  if t.stage = 2 then s
  else
    match s.port c pn with
    | none => s
    | some p =>
      if !portFor p t then s
      else
        let s := s.modPort c pn fun p => { p with cmd := some (t.elem, t.slot) }
        if y.prog ≥ n then
          match s.nextAt c pn with
          | (s, none) => s
          | (s, some tok) =>
            if tok.kind = Kind.data then s.failEntry g q t 0x08 0
            else (s.portPop c pn id).payloadDone g q t (ntfOf o) y.opc n
        else
          let rows := s.writable g t
          let j := y.prog + t.plan.length
          let (s', tok) := if t.full = 2 || n ≤ j || 32 ≤ t.plan.length then (s, none) else s.scatToken c pn
          let (s', i) := s'.pick (if tok.isSome && !rows.isEmpty then rows.length + 1 else rows.length)
          match (rows[i]?).orElse fun _ => if tok.isNone then rows.head? else none with
          | some r => scatWrite o g q t r s'
          | none =>
            match tok with
            | none => s'
            | some h =>
              if h.kind != .data then s'.failEntry g q t 0x08 0
              else
                s'.indexRow g q t y o j fun ra s =>
                  (s.modPort c pn fun p => { p with heldq := [] }).setEntry g q
                    { t with plan := t.plan ++ [⟨j, ra, none, none, some h, false⟩] }

/-- A SCAT that stops for a readout writes the rows before one it has written; the tokens of the rest are its port's again (R269, R355). -/
def State.settleScat (s : State) (g q : Nat) (t : Entry) : State :=
  match (s.slot t.elem t.slot).map Slot.ins with
  | some (.scat _ o) =>
    let last := ((t.plan.filter RowPlan.done).map RowPlan.j).foldl max 0
    let s := (t.plan.filter fun r => !r.done && r.j < last).foldl (fun s r =>
      match (s.equeue g q).find? fun x => x.id == t.id with
      | some t =>
        (match s.resolveRun (256 + g % 64) (s.partOf t.elem) r.addr 64 .scatWrite with
         | .ok ls =>
           let s := s.writeRun (s.writer t.elem) r.addr ls (bytesLE 64 ((r.tok.map Token.pay).getD 0).toNat)
           (s.credits t o 6 64).scatDone g q { t with plan := t.plan.map fun x => if x.j = r.j then { x with done := true } else x }
         | _ => s)
      | none => s) s
    (match (s.equeue g q).find? fun x => x.id == t.id with
     | some t =>
       (s.modPort (coreOf t.elem) (o.imm.toNat % 8) fun p => { p with heldq := t.plan.filterMap RowPlan.tok ++ p.heldq }).setEntry g q
         { t with plan := [] }
     | none => s)
  | _ => s

/-- The command at the head of a queue. -/
def State.headIns (s : State) (g q : Nat) : Option Instr :=
  match s.equeue g q with
  | [] => none
  | t :: _ => (s.slot t.elem t.slot).map Slot.ins

def execGathRow (g q : Nat) (s : State) : Step1 :=
  .next (match s.headIns g q with | some (.gath _ o) => s.serve g q (gathRow1 o g q) | _ => s)
def execScatRow (g q : Nat) (s : State) : Step1 :=
  .next (match s.headIns g q with | some (.scat _ o) => s.serve g q (scatRow1 o g q) | _ => s)

end Sys2Proof.Machine
end

