-- ==== Sys2Proof/Machine/StashOps.lean ====
section
/-! DEFINITION. The activation stash (R307 to R323, R536): block codes, STASH and UNSTASH, and the steps STASH_CHUNK and
UNSTASH_CHUNK. -/

namespace Sys2Proof.Machine

open Sys2Proof

/-! ### Block codes (R307 to R312) -/

/-- Magnitude bits and block bytes of a code: C7, or C3. -/
def codeQ (c3 : Bool) : Nat := if c3 then 2 else 6
def codeBytes (c3 : Bool) : Nat := if c3 then 16 else 32

/-- The biased exponent field of a b16 or f32 pattern. -/
def expField (ty : Ty) (w : Nat) : Nat := if ty = .b16 then w / 2 ^ 7 % 256 else w / 2 ^ 23 % 256

/-- A quotient rounded to an integer, ties to even. -/
def rneQuot (n d : Nat) : Nat := n / d + (if roundsUp .rne false (n / d % 2 == 0) (n % d) d false then 1 else 0)

/-- M_k of a value under a stored exponent: |v| / 2^(e+1−q) (R309). -/
def magIndex (ty : Ty) (q e : Nat) (w : Nat) : Nat :=
  match readFloat ty w with
  | .fin _ n d =>
    let p := max e 1 + 1
    if p ≥ 127 + q then rneQuot n (d * 2 ^ (p - 127 - q)) else rneQuot (n * 2 ^ (127 + q - p)) d
  | _ => 0

/-- A block of 32 values encoded: its bits, and whether it is poison (R309, R311). -/
def encodeBlock (c3 : Bool) (ty : Ty) (vs : List Nat) : Nat × Bool :=
  let q := codeQ c3
  let poison := vs.any fun w => match readFloat ty w with | .fin _ _ _ => false | _ => true
  if poison then (255, true)
  else
    let e0 := (vs.map fun w => expField ty w).foldl max 0
    let m0 := vs.map (magIndex ty q e0)
    let (e, ms) :=
      if m0.all fun m => m < 2 ^ q then (e0, m0)
      else if e0 < 254 then (e0 + 1, vs.map (magIndex ty q (e0 + 1)))
      else (e0, m0.map fun m => if m ≥ 2 ^ q then 2 ^ q - 1 else m)
    let fields := List.zipWith (fun m w => m + (if (readFloat ty w).neg then 2 ^ q else 0)) ms vs
    (e + 256 * joinLanes (q + 1) fields, false)

/-- A block reconstructed into a type, and whether it is poison (R312). -/
def decodeBlock (c3 : Bool) (ty : Ty) (b : Nat) : List Nat × Bool :=
  let q := codeQ c3
  let e := b % 256
  if e = 255 then (List.replicate 32 (canonNan ty), true)
  else
    ((List.range 32).map fun k =>
      let f := b / 2 ^ (8 + (q + 1) * k) % 2 ^ (q + 1)
      let m := f % 2 ^ q
      let p := max e 1 + 1
      let v : Val := if p ≥ 127 + q then .fin (f ≥ 2 ^ q) (m * 2 ^ (p - 127 - q)) 1 else .fin (f ≥ 2 ^ q) m (2 ^ (127 + q - p))
      (roundVal ty .rne false v).1, false)

/-- Values in runs of 32, the last filled with +0. -/
def blocksOf (vs : List Nat) : Nat → List (List Nat)
  | 0 => []
  | n + 1 => if vs.isEmpty then [] else (vs.take 32 ++ List.replicate (32 - min 32 vs.length) 0) :: blocksOf (vs.drop 32) n

/-! ### Fields and checks (R315, R316) -/

def stashC3 (o : FmtE) : Bool := o.imm.getLsbD 0
def stashPort (o : FmtE) : Nat := bitsOf o.imm.toNat 1 3
def stashMem (o : FmtE) : Bool := o.imm.getLsbD 4
def stashN (y : Slot) : Nat := y.opb.toNat % 2 ^ 32
def stashSize (y : Slot) : Nat := y.opb.toNat / 2 ^ 32 % 2 ^ 32
def stashBlocks (y : Slot) : Nat := (stashN y + 31) / 32

/-- The checks at issue, in their order. -/
def stashBad (o : FmtE) (mem : Bool) (y : Slot) : Option (Nat × Nat) :=
  let bb := codeBytes (stashC3 o)
  let z := copyDst y
  let d := copySrc y
  if z % bb ≠ 0 then some (0x05, z)
  else if mem && d % tyBytes o.ty != 0 then some (0x05, d)
  else
    match noteBad o y with
    | some f => some f
    | none =>
      if stashN y > 2 ^ 31 - 1 || stashSize y != stashBlocks y * bb then some (0x11, z)
      else if o.ntf.toNat % 2 = 1 && 2 ^ 56 ≤ y.opc.toNat % 2 ^ 64 then some (0x01, y.opc.toNat % 2 ^ 64)
      else if z ≥ 2 ^ 56 then some (0x01, z)
      else if mem && d ≥ 2 ^ 56 then some (0x01, d)
      else none

def performStash (o : FmtE) (mem : Bool) (a : Access) (e k : Nat) (s : State) : State :=
  s.trySend e k (stashBad o mem) fun y =>
    s.toStack e k (copyDst y) a fun l s => s.enqueueCmd e k y .codec l.stack o.eq.toNat []

/-- STASH and UNSTASH issue: Z and a destination, n and the size, and the notify. -/
def stashIssue (i : Instr) (o : FmtE) (mem : Bool) (a : Access) (f : Firing) (s : State) : State :=
  let ga := if mem then groupOf f.x o.a else word512 (pairOf f.x o.a)
  cmdIssue i ga (word512 (pairOf f.x o.b)) (groupOf f.x o.c) (stashBad o mem) (performStash o mem a) f s

def execStash (t : TU) (o : FmtE) (s : State) : Step1 :=
  .next (s.fire (.stash t o) t (stashIssue (.stash t o) o false .stashWrite))
def execUnstash (t : TU) (o : FmtE) (s : State) : Step1 :=
  .next (s.fire (.unstash t o) t (stashIssue (.unstash t o) o (stashMem o) .stashRead))

/-! ### STASH_CHUNK (R317) -/

/-- Sets the launch's STP (R313). -/
def State.setStp (s : State) (r : Nat) (b : Bool) : State := if b then s.modRegion r fun g => { g with stp := true } else s

/-- A run of stash bytes: translated, in the stack of Z (R316). -/
def State.stashAccess (s : State) (g q : Nat) (t : Entry) (va n : Nat) (a : Access) (act : List (Loc × Nat) → State → State) : State :=
  s.engAccess g q t (coreOf t.elem) va n a fun ls s =>
    if ls.any fun x => x.1.stack != g % 64 then s.failEntry g q t 0x10 va else act ls s

/-- Stash bytes bypass the L2 and are never held (R320, R323). -/
def State.rawWrite (s : State) : List (Loc × Nat) → List Byte → State
  | [], _ => s
  | (l, n) :: ls, bs => State.rawWrite (s.put false l.addr (bs.take n)) ls (bs.drop n)

/-- Values of the tokens a STASH holds. -/
def heldValues (ty : Ty) (ts : List Token) : List Nat :=
  (ts.filter fun t => t.kind == .data).flatMap fun t => lanesOf ty t.pay

/-- A STASH takes a token, or writes a chunk once it holds all its values; after the last value EOS must come (R317). -/
def stashChunk1 (o : FmtE) (g q : Nat) (t : Entry) (y : Slot) (s : State) : State :=
  let c := coreOf t.elem
  let pn := stashPort o
  let bb := codeBytes (stashC3 o)
  let total := stashBlocks y
  let b := y.prog / bb
  if t.stage = 2 then s
  else
    match s.port c pn with
    | none => s
    | some p =>
      if !portFor p t then s
      else
        let s := s.modPort c pn fun p => { p with cmd := some (t.elem, t.slot) }
        let want := min (32 * (b + 16)) (stashN y) - 32 * b
        let last := b + 16 ≥ total
        let vals := heldValues o.ty p.heldq
        let ended := p.heldq.any fun h => h.kind == .eos
        if vals.length < want || (last && !ended) then
          match s.nextAt c pn with
          | (s, none) => s
          | (s, some h) =>
            let wrong := if vals.length < want then h.kind == .eos else h.kind == .data
            if wrong then s.failEntry g q t 0x08 0
            else s.portPop c pn fun p => { p with heldq := p.heldq ++ [h] }
        else
          let rs := (blocksOf (vals.take want) 16).map (encodeBlock (stashC3 o) o.ty)
          let bytes := rs.flatMap fun r => bytesLE bb r.1
          let s := s.setStp t.reg (rs.any Prod.snd)
          let write (s : State) : State :=
            let s := s.credits t o 5 bytes.length
            let s := (s.setProg t.elem t.slot (y.prog + bytes.length)).modPort c pn fun p => { p with heldq := [] }
            if last then s.payloadDone g q t (ntfOf o) y.opc (stashN y) else s
          if bytes.isEmpty then write s
          else s.stashAccess g q t (copyDst y + y.prog) bytes.length .stashWrite fun ls s => write (s.rawWrite ls bytes)

def execStashChunk (g q : Nat) (s : State) : Step1 :=
  .next (match s.headIns g q with | some (.stash _ o) => s.serve g q (stashChunk1 o g q) | _ => s)

/-! ### UNSTASH_CHUNK (R318) -/

/-- The values of the blocks from b on, at most n, and whether one was poison. -/
def decodeBytes (o : FmtE) (bs : List Byte) (blocks : Nat) : List Nat × Bool :=
  let bb := codeBytes (stashC3 o)
  let rs := (List.range blocks).map fun i => decodeBlock (stashC3 o) o.ty (natLE ((bs.drop (i * bb)).take bb))
  (rs.flatMap Prod.fst, rs.any Prod.snd)

/-- Values as tokens, lanes past the last +0. -/
def tokensOf (ty : Ty) (vs : List Nat) : Nat → List Token
  | 0 => []
  | n + 1 => if vs.isEmpty then [] else dataTok (packLanes ty (vs.take (Ty.lanes ty))) 0 :: tokensOf ty (vs.drop (Ty.lanes ty)) n

/-- Port mode: a chunk's tokens are read into the port from the token its cursor names. -/
def unstashPort1 (o : FmtE) (g q : Nat) (t : Entry) (y : Slot) (s : State) : State :=
  let c := coreOf t.elem
  let pn := stashPort o
  let n := stashN y
  let ln := Ty.lanes o.ty
  let toks := (n + ln - 1) / ln
  if y.stage = 2 then s.payloadDone g q t (ntfOf o) y.opc n
  else
    match s.port c pn with
    | none => s
    | some p =>
      if !portFor p t then s
      else
        let s := s.servePort pn t toks (y.prog / 64)
        match s.port c pn with
        | none => s
        | some p =>
          if p.cursor ≥ toks then s
          else
            let v0 := p.cursor * ln
            let b := v0 / 32
            let nb := min (16 - b % 16) (stashBlocks y - b)
            let bb := codeBytes (stashC3 o)
            s.stashAccess g q t (copyDst y + b * bb) (nb * bb) .stashRead fun ls s =>
              let (vs, poison) := decodeBytes o (s.readRun (copyDst y + b * bb) ls) nb
              let vs := (vs.take (n - 32 * b)).drop (v0 - 32 * b)
              let ts := tokensOf o.ty vs 32
              (s.setStp t.reg poison).modPort c pn fun p => { p with cursor := p.cursor + ts.length, ahead := p.ahead ++ ts }

/-- Writes what is left of the chunk in the buffer, page by page; PROG advances when all of it is written (R321). What a commit performs it
writes whole and unheld (R367). The fuel counts pages. -/
def unstashWrite (o : FmtE) (g q : Nat) (y : Slot) : Nat → Entry → State → State
  | 0, _, s => s
  | fuel + 1, t, s =>
    let va := (copySrc y + y.prog + t.part) % 2 ^ 64
    let m := min (t.buf.length - t.part) (65536 - va % 65536)
    s.engAccess g q t (coreOf t.elem) va m .unstashWrite fun ds s =>
      s.engBudget g q t ds fun s =>
        let s := s.writeRun { s.writer t.elem with hold := t.full != 2 } va ds ((t.buf.drop t.part).take m)
        if t.part + m < t.buf.length then
          let t := { t with part := t.part + m }
          unstashWrite o g q y fuel t (s.setEntry g q t)
        else
          let done := y.prog + t.buf.length
          let s := (s.credits t o 5 t.buf.length).setProg t.elem t.slot done
          let t := { t with part := 0, buf := [], full := 0 }
          let s := s.setEntry g q t
          if done ≥ stashN y * tyBytes o.ty then s.payloadDone g q t (ntfOf o) y.opc (stashN y) else s

/-- Memory mode: a chunk is read once and decoded into the buffer, where it stays until all of it is written (R312, R320, R321). -/
def unstashMem1 (o : FmtE) (g q : Nat) (t : Entry) (y : Slot) (s : State) : State :=
  let n := stashN y
  let u := tyBytes o.ty
  let bb := codeBytes (stashC3 o)
  let b := y.prog / (32 * u)
  if y.prog ≥ n * u then s.payloadDone g q t (ntfOf o) y.opc n
  else if !t.buf.isEmpty then unstashWrite o g q y 2 t s
  else
    let nb := min 16 (stashBlocks y - b)
    s.stashAccess g q t (copyDst y + b * bb) (nb * bb) .stashRead fun ls s =>
      let (vs, poison) := decodeBytes o (s.readRun (copyDst y + b * bb) ls) nb
      let t := { t with part := 0, buf := (vs.take (n - 32 * b)).flatMap fun v => bytesLE u v }
      unstashWrite o g q y 2 t ((s.setStp t.reg poison).setEntry g q t)

def unstashChunk1 (o : FmtE) (g q : Nat) (t : Entry) (y : Slot) (s : State) : State :=
  if t.stage = 2 then s else if stashMem o then unstashMem1 o g q t y s else unstashPort1 o g q t y s

def execUnstashChunk (g q : Nat) (s : State) : Step1 :=
  .next (match s.headIns g q with | some (.unstash _ o) => s.serve g q (unstashChunk1 o g q) | _ => s)

end Sys2Proof.Machine
end

