-- ==== Sys2Proof/Machine/CollOps.lean ====
section
/-! DEFINITION. Collectives (R395, R430 to R433): COLL, and the step COLL_MATCH, which is given what the other ranks' engines sent. -/

namespace Sys2Proof.Machine

open Sys2Proof

/-! ### Fields and checks -/

def collKind (o : FmtE) : Nat := o.imm.toNat % 4
def collRop (o : FmtE) : Nat := o.imm.toNat / 4 % 4
def collN (y : Slot) : Nat := y.opb.toNat % 2 ^ 32
def collDesc (y : Slot) : Nat := y.opb.toNat / 2 ^ 64 % 2 ^ 64

/-- n and the addresses are multiples of the lane width; a descriptor's of 4 (R433). -/
def collBad (o : FmtE) (y : Slot) : Option (Nat × Nat) :=
  let u := tyBytes o.ty
  if collN y % u ≠ 0 then some (0x05, copyDst y)
  else if copyDst y % u ≠ 0 then some (0x05, copyDst y)
  else if copySrc y % u ≠ 0 then some (0x05, copySrc y)
  else if collDesc y % u ≠ 0 then some (0x05, collDesc y)
  else noteBad o y

/-- A COLL is irrevocable and goes to the collective engine of its die (R369, R430). -/
def performColl (o : FmtE) (e k : Nat) (s : State) : State :=
  s.trySend e k (collBad o) fun y =>
    s.irrevocable e k y fun s =>
      match s.slot e k with
      | some y => s.enqueueCmd e k y .coll (dieOf (coreOf e)) o.eq.toNat []
      | none => s
def execColl (t : TU) (o : FmtE) (s : State) : Step1 :=
  .next (s.fire (.coll t o) t fun f s =>
    cmdIssue (.coll t o) (groupOf f.x o.a) (groupOf f.x o.b) (groupOf f.x o.c) (collBad o) (performColl o) f s)

/-! ### Combination (R175, R432) -/

/-- One step of a reduction, with subnormals kept and rounding to nearest even; MIN and MAX of floats under R163. -/
def collLane (ty : Ty) (rop a b : Nat) : Nat :=
  let ax : Axc := ⟨.rne, false, false, false⟩
  match rop with
  | 0 => if isFl ty then (updateOp 7 ty .rne false a b).1 else wrapint ty (intOf ty a + intOf ty b)
  | 1 => (laneMinMax false ax ty a b).1
  | _ => (laneMinMax true ax ty a b).1

/-- Removes the i-th of a list, with the element. -/
def pickAt (i : Nat) (xs : List Nat) : Nat × List Nat := (xs.getD i 0, xs.eraseIdx i)

/-- Combines values two at a time, the pair the spec leaves open chosen freely each time (R432, log 9). -/
def combineFree (f : Nat → Nat → Nat) (seed : Nat) : Nat → List Nat → Nat
  | 0, xs => xs.headD 0
  | n + 1, xs =>
    if xs.length ≤ 1 then xs.headD 0
    else
      let w := (Config.freeWord (seed + n)).toNat
      let (a, r) := pickAt (w % xs.length) xs
      let (b, r) := pickAt (w / 2 ^ 32 % r.length) r
      combineFree f seed n (f a b :: r)

/-- Combines one lane of every rank: only a float sum of three or more depends on the association. -/
def combineLane (ty : Ty) (rop seed : Nat) (xs : List Nat) : Nat :=
  if isFl ty && rop = 0 && xs.length > 2 then combineFree (collLane ty rop) seed xs.length xs
  else match xs with | [] => 0 | x :: r => r.foldl (collLane ty rop) x

/-- Lane i of a byte string. -/
def byteLane (u i : Nat) (bs : List Byte) : Nat := natLE ((bs.drop (u * i)).take u)

/-! ### COLL_MATCH -/

/-- The group descriptor (R431). -/
structure Group where
  nr   : Nat
  rank : Nat
  gid  : Nat
  mods : List Nat
  deriving DecidableEq, Repr

/-- Bytes of destination a COLL writes in all (R432). -/
def collTotal (o : FmtE) (y : Slot) (gr : Group) : Nat := if collKind o = 1 then gr.nr * collN y else collN y

/-- Bytes each rank supplies. -/
def collSource (o : FmtE) (y : Slot) (gr : Group) : Nat := if collKind o = 2 then gr.nr * collN y else collN y

/-- Bytes [a, a + m) of the destination, from the sources in rank order (R432). -/
def collResult (o : FmtE) (y : Slot) (gr : Group) (seed a m : Nat) (srcs : List (List Byte)) : List Byte :=
  if collKind o = 1 then (srcs.flatMap fun b => b.take (collN y)).drop a |>.take m
  else
    let u := tyBytes o.ty
    let base := if collKind o = 2 then gr.rank * collN y else 0
    ((List.range (m / u)).flatMap fun i =>
      bytesLE u (combineLane o.ty (collRop o) (seed + i * gr.nr) (srcs.map (byteLane u ((base + a) / u + i)))))

/-- Whether a collective's destination is its source, for an all-reduce, or no part of it; any other overlap leaves the destination
unpredictable (R432). -/
def collApart (o : FmtE) (y : Slot) (gr : Group) (ds ss : List (Loc × Nat)) : Bool :=
  (collKind o == 0 && copyDst y == copySrc y) ||
    (!(copyDst y < copySrc y + collSource o y gr && copySrc y < copyDst y + collTotal o y gr) && !runsMeet ds ss)

/-- What a COLL of this module sends of itself, its bytes aside. -/
def collHead (o : FmtE) (y : Slot) (gid num : Nat) : PeerColl := ⟨gid, num, collKind o, collRop o, o.ty, collN y, []⟩

/-- Whether two commands that a group matches agree (R433). -/
def collAgrees (a b : PeerColl) : Bool := a.kind == b.kind && a.rop == b.rop && a.ty == b.ty && a.n == b.n

/-- A COLL starts as its engine first serves it, and takes the next number of its group (R432). -/
def State.startColl (s : State) (t : Entry) (gid : Nat) : State × Entry :=
  match t.num with
  | some _ => (s, t)
  | none =>
    let n := SMap.get 0 gid s.colls
    ({ s with colls := SMap.set gid (n + 1) s.colls }, { t with num := some n })

/-- The next chunk of a COLL that has matched: it sends its source within its receivers' windows, and writes 64 KiB of the destination (R395,
R432). -/
def collChunk (o : FmtE) (peers : List PeerColl) (gr : Group) (g q : Nat) (t : Entry) (y : Slot) (s : State) : State :=
  let c := coreOf t.elem
  let need := collSource o y gr
  let out := if y.prog = 0 then ((gr.mods.eraseIdx gr.rank).filter fun m => m != Config.moduleNumber.toNat).map fun m => (m, need) else []
  if !s.canSend out then s
  else
    s.engAccess g q t c (copySrc y) need .collRead fun ss s =>
      let total := collTotal o y gr
      let m := min 65536 (total - y.prog)
      let dst := (copyDst y + y.prog) % 2 ^ 64
      s.engAccess g q t c dst m .unstashWrite fun ds s =>
        s.engBudget g q t ds fun s =>
          let own := s.readRun (copySrc y) ss
          let sent := peers.map PeerColl.bytes
          let srcs := sent.take gr.rank ++ own :: sent.drop gr.rank
          let bytes := if collApart o y gr ds ss then collResult o y gr s.free y.prog m srcs
            else (List.range m).map fun i => Config.freeByte (s.free + i)
          let s := ({ s with free := s.free + m * gr.nr } : State).spend out
          let s := s.writeRun { s.writer t.elem with hold := t.full != 2 } dst ds bytes
          let s := (s.credits t o 4 m).setProg t.elem t.slot (y.prog + m)
          let t := { t with cut := 2 }
          if y.prog + m ≥ total then (s.setEntry g q t).payloadDone g q t (ntfOf o) y.opc total else s.setEntry g q t

/-- A step of a COLL: what the engines of the other ranks have sent is given in rank order without this one's. It waits until the commands of its
group match in the order they started, and faults where they do not agree with rank 0's (R431 to R433). -/
def collStep (o : FmtE) (peers : List PeerColl) (g q : Nat) (t : Entry) (y : Slot) (s : State) : State :=
  let c := coreOf t.elem
  if t.stage = 2 then s
  else if collN y = 0 then s.payloadDone g q t (ntfOf o) y.opc 0
  else
    s.engAccess g q t c (collDesc y) 16 .collRead fun hs s =>
      let h := s.readRun (collDesc y) hs
      let gr0 : Group := ⟨natLE (h.take 4), natLE ((h.drop 4).take 4), natLE ((h.drop 8).take 4), []⟩
      if gr0.nr < 2 || gr0.nr > 16384 || gr0.rank ≥ gr0.nr then s.failEntry g q t 0x08 (collDesc y)
      else
        s.engAccess g q t c (collDesc y + 16) (2 * gr0.nr) .collRead fun ms s =>
          let mb := s.readRun (collDesc y + 16) ms
          let gr := { gr0 with mods := (List.range gr0.nr).map fun i => natLE ((mb.drop (2 * i)).take 2) }
          let (s, t) := s.startColl t gr.gid
          let s := s.setEntry g q t
          let head := collHead o y gr.gid (t.num.getD 0)
          if gr.mods.any fun m => m ≥ 16384 then s.failEntry g q t 0x08 (collDesc y)
          else if (gr.mods.eraseIdx gr.rank).any fun m => SMap.get 15 m s.wrt == 15 then s.failEntry g q t 0x18 (collDesc y)
          else if peers.length + 1 != gr.nr || peers.any (fun p => p.gid != head.gid || p.num != head.num) then s
          else if gr.rank != 0 && peers.head?.any (fun p => !collAgrees p head) then s.failEntry g q t 0x08 (collDesc y)
          else if peers.any fun p => !collAgrees p head || p.bytes.length != collSource o y gr then s
          else collChunk o peers gr g q t y s

def execCollMatch (g q : Nat) (peers : List PeerColl) (s : State) : Step1 :=
  .next (match s.headIns g q with | some (.coll _ o) => s.serve g q (collStep o peers g q) | _ => s)

end Sys2Proof.Machine
end

