-- ==== Sys2Proof/Machine/MatOps.lean ====
section
/-! DEFINITION. Matrix mode (R270 to R285): MXMODE, MXWLD, MXC and MXACC (R469 to R478), and the steps MMA, SWAPW, FLUSH and FLUSH_MARK. -/

namespace Sys2Proof.Machine

open Sys2Proof

/-! ### Rectangles -/

/-- The rectangle, or part, of the issuing region that holds an element. -/
def State.rectOf (s : State) (e : Nat) : Option (Region × Rect) :=
  match s.regOf e with
  | none => none
  | some r => (r.rects.find? fun m => m.holds (r.gridOf e)).map fun m => (r, m)

/-- Regions placed on the same rectangle of cores as a region: itself and a launch it shares the cores with (R387). -/
def State.together (s : State) (r : Region) : List (Nat × Region) :=
  s.regions.filter fun x => x.2.placed && x.2.x0 == r.x0 && x.2.y0 == r.y0 && x.2.w == r.w && x.2.h == r.h

/-! ### MXMODE (R271, R472 to R474) -/

/-- A bad descriptor (R271, R473). -/
def mxdBad (split : Bool) (y : Slot) : Option (Nat × Nat) :=
  let d := y.opa.toNat % 2 ^ 64
  let w := bitsOf d 0 8
  let h := bitsOf d 8 8
  let srow := bitsOf d 40 8
  if d / 2 ^ 53 != 0 || bitsOf d 21 3 != 0 || w = 0 || w > 128 || h = 0 || h > 128 || bitsOf d 24 16 % 64 != 0 ||
      (if split then srow = 0 || srow ≥ h else srow != 0 || bitsOf d 48 5 != 0) then some (0x0D, 0)
  else none

/-- The rectangle, or the two parts of a split, of a descriptor whose node stands at a place of the grid (R271, R283). -/
def mxRects (d : Nat) (g : Nat × Nat) (split : Bool) : List Rect :=
  let h := bitsOf d 8 8
  let srow := bitsOf d 40 8
  let part (off h mq : Nat) : Rect :=
    { gx := g.1, gy := g.2 + off, top := g.2, w := bitsOf d 0 8, h := h, mxd := BitVec.ofNat 64 d, mq := mq,
      accb := bitsOf d 24 16, mma := none, waves := [], moved := 0, done := 0, since := 0, flush := [], cut := 0 }
  if split then [part 0 srow (bitsOf d 16 5), part srow (h - srow) (bitsOf d 48 5)] else [part 0 h (bitsOf d 16 5)]

/-- Whether a part may be configured: inside the shape, its elements all of one placed region among those that stand together, and in
no other rectangle (R270). -/
def State.rectFree (s : State) (r : Region) (m : Rect) : Bool :=
  m.gx + m.w ≤ 8 * r.w && m.gy + m.h ≤ 8 * r.h &&
    ((s.together r).any fun x => (r.rectElems m).all x.2.hasElem) && (r.rectElems m).all fun e => !(s.elem e).inRect

/-- Configures the elements of a part and hands it to the region that its node belongs to (R473). -/
def State.addRect (s : State) (r : Region) (m : Rect) : State :=
  let south := r.southElems m
  let s := (r.rectElems m).foldl (fun s e => s.modElem e fun x =>
    { x with w1Active := false, inRect := true, accb := if south.contains e then some m.accb else none }) s
  match s.regionOf (r.rectElem m 0 0) with
  | some n => s.modRegion n fun r => { r with rects := r.rects ++ [m] }
  | none => s

/-- The parts that a descriptor names in an element's region. -/
def State.mxParts (s : State) (e : Nat) (split : Bool) (y : Slot) : Option (Region × List Rect) :=
  (s.regOf e).map fun r => (r, mxRects (y.opa.toNat % 2 ^ 64) (r.gridOf e) split)

/-- A split in a shared rectangle of cores is A's alone, at the row where B's begin (R387); elsewhere it is free. -/
def Region.splitOk (r : Region) (split : Bool) (d : Nat) : Bool :=
  !split || (r.rlo == 0 && (r.rhi == 8 * r.h || bitsOf d 40 8 == r.rhi))

/-- The faults of an enter, found at issue: a bad descriptor, parts outside the shape or on other rectangles, or a split that a shared rectangle
does not allow (R270, R271, R387; log 111). -/
def mxEnterBad (s : State) (e : Nat) (split : Bool) (y : Slot) : Option (Nat × Nat) :=
  match mxdBad split y with
  | some f => some f
  | none =>
    match s.mxParts e split y with
    | none => none
    | some (r, ms) =>
      let mine := match ms with | m :: _ => (r.rectElems m).all r.hasElem | [] => false
      if mine && r.splitOk split (y.opa.toNat % 2 ^ 64) && ms.all (s.rectFree r) then none else some (0x0D, 0)

def performMxEnter (split : Bool) (e k : Nat) (s : State) : State :=
  s.trySlot e k (mxEnterBad s e split) fun y =>
    match s.mxParts e split y with
    | none => s
    | some (r, ms) => (ms.foldl (fun s m => s.addRect r m) s).performed e k 1

/-- An enter issues. -/
def mxEnter (i : Instr) (o : FmtE) (split : Bool) (f : Firing) (s : State) : State :=
  cmdIssue i (word512 (pairOf f.x o.a)) 0 0 (mxEnterBad s f.e split) (performMxEnter split) f s
def execMxmodeEnter (t : TU) (o : FmtE) (s : State) : Step1 :=
  .next (s.fire (.mxmodeEnter t o) t (mxEnter (.mxmodeEnter t o) o false))
def execMxmodeEnterSplit (t : TU) (o : FmtE) (s : State) : Step1 :=
  .next (s.fire (.mxmodeEnterSplit t o) t (mxEnter (.mxmodeEnterSplit t o) o true))

/-- Whether every command a part has accepted has been performed (R272). -/
def Rect.quiet (m : Rect) (cycle : Nat) : Bool := !m.busy cycle && m.flush.isEmpty

/-- Leave waits for the rectangle, or both parts, and ends them (R272, R474). -/
def performMxLeave (e k : Nat) (s : State) : State :=
  s.trySlot e k noBad fun _ =>
    match s.rectOf e with
    | none => s.performed e k 0
    | some (r, m) =>
      if r.gridOf e != (m.gx, m.gy) then s.performed e k 0
      else
        let of (z : Rect) : Bool := z.gx == m.gx && z.top == m.top
        let rs := s.together r
        if !(rs.all fun x => (x.2.rects.filter of).all fun z => z.quiet s.cycle) then s
        else
          let s := rs.foldl (fun s x =>
            let zs := x.2.rects.filter of
            let s := zs.foldl (fun s z => (r.rectElems z).foldl (fun s e => s.modElem e fun x => { x with inRect := false }) s) s
            s.modRegion x.1 fun r =>
              { r with rects := r.rects.filter fun z => !of z, cutReq := r.cutReq || zs.any fun z => z.cut == 3 }) s
          s.performed e k 1
def execMxmodeLeave (t : TU) (o : FmtE) (s : State) : Step1 :=
  .next (s.fire (.mxmodeLeave t o) t (cmdIssue (.mxmodeLeave t o) 0 0 0 noBad performMxLeave))

/-! ### MXWLD (R274, R477) -/

/-- Bytes of a weight block (R273). -/
def blockBytes (o : FmtE) : Nat := if o.ty = .l6 then 512 else 256

/-- ALN and MXF of a block's range, found at issue. -/
def mxwldBad (o : FmtE) (y : Slot) : Option (Nat × Nat) :=
  let a := y.opa.toNat % 65536
  if a % 64 ≠ 0 then some (0x05, 0) else if a + blockBytes o > 65536 then some (0x0D, 0) else none

/-- The element a position within the cluster of e names (R476). -/
def clusterElem (e b : Nat) : Nat :=
  let c := coreOf e
  let core := dieOf c * 64 + (c % 64 / 16 * 2 + bitsOf b 6 1) * 8 + (c % 8 / 2 * 2 + bitsOf b 7 1)
  core * 64 + bitsOf b 3 3 * 8 + bitsOf b 0 3

/-- Writes a VW of a block into a weight register at a byte; the rest of it stays. -/
def Elem.setWeight (x : Elem) (one : Bool) (at_ : Nat) (v : VW) : Elem :=
  let mix (w : BitVec 4096) : BitVec 4096 :=
    BitVec.ofNat 4096 (w.toNat / 2 ^ (8 * at_ + 512) * 2 ^ (8 * at_ + 512) + v.toNat * 2 ^ (8 * at_) + w.toNat % 2 ^ (8 * at_))
  if one then { x with w1 := mix x.w1 } else { x with w0 := mix x.w0 }

/-- MXWLD copies one VW of its block per cycle, and gives up a cycle of the source's port for each; it waits before the first one for an MMA that
uses the register it loads (R274, R477). -/
def performMxwld (o : FmtE) (e k : Nat) (s : State) : State :=
  s.trySlot e k (mxwldBad o) fun y =>
    let a := y.opa.toNat % 65536
    let b := y.opb.toNat % 2 ^ 32
    let one := o.imm.toNat.testBit 0
    let mc := o.imm.toNat.testBit 1
    let src := if mc then clusterElem e b else e
    let rc := s.rectOf e
    let ok := !mc || (rc.isSome && b / 256 = 0 && ((s.regOf e).map fun r => r.hasCore (coreOf src)).getD false)
    if !ok then s.failSlot e k 0x0D 0
    else
      let es := match rc with
        | some (r, m) => if mc then (List.range m.w).map fun c => r.rectElem m c ((r.gridOf e).2 - m.gy) else [e]
        | none => [e]
      let busy := match rc with | some (_, m) => m.busy s.cycle | none => false
      if y.sub = 0 && busy && es.any fun t => (s.elem t).w1Active == one then s
      else
        let at_ := 64 * y.sub
        s.portAccess false src e k 64 [a + at_] false fun s =>
          let v := bankRead (s.elem src) (a + at_) 64
          let s := es.foldl (fun s t => s.modElem t fun x => x.setWeight one at_ v) s
          if at_ + 64 < blockBytes o then s.setSlot e k { y with sub := y.sub + 1 } else s.performed e k (word512 (blockBytes o))
def execMxwld (t : TU) (o : FmtE) (s : State) : Step1 :=
  .next (s.fire (.mxwld t o) t fun f s =>
    cmdIssue (.mxwld t o) (word512 (wordOf f.x o.a)) (word512 (wordOf f.x o.b)) 0 (mxwldBad o) (performMxwld o) f s)

/-! ### MXC (R471) -/

def performMxc (e k : Nat) (s : State) : State :=
  match s.slot e k with
  | some y => if y.stage = 0 && !y.held then s.performed e k (word512 (y.opa.toNat % 2 ^ 32)) else s
  | none => s
def execMxc (t : TU) (o : FmtE) (s : State) : Step1 :=
  .next (s.fire (.mxc t o) t fun f s => cmdIssue (.mxc t o) (word512 (pairOf f.x o.a)) 0 0 noBad performMxc f s)

/-- An MXC completes: D receives word 0, the condition is true, and the MXC token enters the output buffer (R276, R471). -/
def State.finishMxc (s : State) (e k : Nat) (d : Dst) : State :=
  match s.slot e k with
  | none => s
  | some y =>
    let t := slotTU y
    let tok : Token := ⟨.mxc, tagOf t y.tagq (s.view e), true, true, word512 (y.opa.toNat % 2 ^ 64), false⟩
    s.completeWith e
      { baseEffect t (some k) y.seq true with
        sregs := scalarWrite .n32 d (y.opa.toNat % 2 ^ 32), toks := [⟨t.ol.toNat, tok⟩], fl := y.fl }

/-! ### MXACC (R470) -/

/-- The ACCB an MXACC captures: past the bank where the element was no south edge. -/
def accbOf (x : Elem) : Nat := x.accb.getD 65536

/-- The faults of MXACC, of rows that lie past the bank too. -/
def mxaccBad (y : Slot) : Option (Nat × Nat) :=
  let f := y.opa.toNat % 2 ^ 32
  let n := y.opb.toNat % 2 ^ 32
  if n = 0 || y.opc.toNat + 64 * (f + n) > 65536 then some (0x0D, 0) else none

/-- Reads, clears under CLR and sends the next row; PROG counts rows. -/
def performMxacc (o : FmtE) (e k : Nat) (s : State) : State :=
  s.trySlot e k mxaccBad fun y =>
    let n := y.opb.toNat % 2 ^ 32
    let clr := o.imm.toNat.testBit 7
    let a := y.opc.toNat + 64 * (y.opa.toNat % 2 ^ 32 + y.prog)
    s.bankAccess e k 64 [a] clr fun s =>
      let tok := dataTok (bankRead (s.elem e) a 64) 0
      let s := if clr then s.bankWrite e a (List.replicate 64 0) else s
      let pack := (((s.elem e).route (pimLabel o)).map Route.pack).getD false
      (s.formTokens e k [tok] pack).setSlot e k { y with prog := y.prog + 1, stage := if y.prog + 1 ≥ n then 1 else 0 }
def execMxacc (t : TU) (o : FmtE) (s : State) : Step1 :=
  .next (s.fire (.mxacc t o) t fun f s =>
    let rows := wordOf f.x o.b
    let ok := rows != 0 && accbOf f.x + 64 * (wordOf f.x o.a + rows) ≤ 65536
    let s := if ok then keepPlaces (pimLabel o) rows f s else s
    cmdIssue (.mxacc t o) (word512 (wordOf f.x o.a)) (word512 rows) (word512 (accbOf f.x)) mxaccBad (performMxacc o) f s)

/-! ### Tokens at a node (R275 to R277, R475) -/

/-- A part of a region by its place in the list, in a region that runs. -/
def State.partAt (s : State) (rn n : Nat) : Option (Region × Rect) :=
  match s.region rn with
  | none => none
  | some r => if r.phase == .running then (r.rects[n]?).map fun m => (r, m) else none

def State.setRect (s : State) (rn n : Nat) (m : Rect) : State := s.modRegion rn fun r => { r with rects := r.rects.set n m }

/-- Whether a token breaks R275, R277, R280 or R473. -/
def State.mxcBad (s : State) (r : Region) (m : Rect) (p : Nat) : Bool :=
  let w0 := p % 2 ^ 32
  let w1 := p / 2 ^ 32 % 2 ^ 32
  match bitsOf w0 28 4 with
  | 0 =>
    let n := bitsOf w0 0 16
    let ab := bitsOf w1 0 16
    let top := m.accb + 64 * n
    bitsOf w0 26 1 != 0 || bitsOf w0 16 8 != 0 || n == 0 || bitsOf w1 30 2 > 1 || bitsOf w1 16 14 != 0 ||
      (if bitsOf w1 30 2 = 1 then ab % 32 != 0 || ab + 32 * n > 65536 else ab != 0 || m.mq == 31) || top > 65536 ||
      (r.southElems m).any fun e =>
        (List.range 4).any fun q => vget (s.elem e).bmode q .scr == .wgt && m.accb < 16384 * (q + 1) && 16384 * q < top
  | 1 => w0 % 2 ^ 28 != 0 || w1 != 0
  | 2 => w0 % 2 ^ 28 != 0 || w1 / 16 != 0
  | _ => true

/-- MXF of a part, raised at its node (R277). -/
def State.failNode (s : State) (rn e : Nat) : State :=
  s.raiseFault
    { code := 0x0D, src := 0, reg := rn, elid := e, tix := 0, slot := 0, addr := 0, opc := 0, word := 0, prog := 0, at_ := .none }

/-- The head of a node's MXC queue, as it stood when the cycle began: a token of another kind, or a bad one, is dequeued and raises MXF (R277,
R475); a good one of the given MOPs is offered unless a cut is forming (R366). -/
def State.nodeTake (s : State) (rn : Nat) (r : Region) (m : Rect) (mops : Nat → Bool) (act : Nat → State → State) : State :=
  let e := r.rectElem m 0 0
  match s.standing e m.mq with
  | some t =>
    let p := t.pay.toNat % 2 ^ 64
    if t.kind ≠ .mxc || s.mxcBad r m p then (s.modElem e fun x => x.dequeue m.mq).failNode rn e
    else if mops (p % 2 ^ 32 / 2 ^ 28) && r.forming.isNone then act p s
    else s
  | none => s

/-- Takes the head. -/
def State.nodeDequeue (s : State) (r : Region) (m : Rect) : State := s.modElem (r.rectElem m 0 0) fun x => x.dequeue m.mq

/-! ### The systolic pass (R278 to R280) -/

/-- Type and K_e of a format (R273, R275). -/
def fmtTy : Nat → Ty
  | 0 => .b16
  | 1 => .e4
  | 2 => .e5
  | _ => .l6
def fmtK : Nat → Nat
  | 0 => 8
  | 1 | 2 => 16
  | _ => 32

/-- The product of L6 codes (R169); NaR is code 0x20. -/
def l6Product (a b : Nat) : Val :=
  let la := a % 32
  let lb := b % 32
  if a % 64 = 32 || b % 64 = 32 then .nan false
  else if la = 0 || lb = 0 then .fin false 0 1
  else .fin ((a / 32 % 2 == 1) != (b / 32 % 2 == 1)) (l6Table ((la + lb) % 4) * 2 ^ ((la + lb) / 4)) (2 ^ (23 + 8))

/-- An exact product of a format. -/
def mxProduct (fmt a b : Nat) : Val :=
  if fmt = 3 then l6Product a b else (mulVal (readFloat (fmtTy fmt) a) (readFloat (fmtTy fmt) b)).1

/-- psum + Σ a[k] × w[k][n], held exactly and rounded once to FP32 (R176, R279). -/
def mxSum (fmt vec w n : Nat) (psum : W32) : W32 :=
  let b := if fmt = 0 then 16 else 8
  let terms := (List.range (fmtK fmt)).map fun k => mxProduct fmt (vec / 2 ^ (b * k) % 2 ^ b) (w / 2 ^ (b * (16 * k + n)) % 2 ^ b)
  BitVec.ofNat 32 (roundVal .f32 .rne false (terms.foldl (fun x t => (addVal .rne x t).1) (readFloat .f32 psum.toNat))).1

/-- The partial sums element (c, row) forms of a vector. -/
def State.cellSums (s : State) (r : Region) (m : Rect) (v : Wave) (c row : Nat) : List W32 :=
  let x := s.elem (r.rectElem m c row)
  let w := (if x.w1Active then x.w1 else x.w0).toNat
  (List.range 16).map fun n => mxSum (mmaFmt v.tok) (v.acts.getD row 0).toNat w n (v.sums.getD (16 * c + n) 0)

/-- Fills what a matrix access to MAP quarters touches. -/
def State.fillFor (s : State) (e a n : Nat) : State := (unfilled (s.elem e) [a, a + (n - 1)]).foldl (fun s g => s.fillGranule e g) s

/-- A matrix pass takes a bank port for the cycle (R281). -/
def State.takePort (s : State) (e : Nat) : State := s.modElem e fun x => { x with portAt := s.cycle + 1 }

/-- Writes accumulator row j of column c (R280); it is not logged (R366). -/
def State.accRow (s : State) (r : Region) (m : Rect) (acc : Bool) (j c : Nat) (sums : List W32) : State :=
  let e := r.rectElem m c (m.h - 1)
  let a := m.accb + 64 * j
  let s := (s.takePort e).fillFor e a 64
  let x := s.elem e
  let old := lanesOf .f32 (bankRead x a 64)
  let new := (List.range 16).map fun n =>
    let p := (sums.getD (16 * c + n) 0).toNat
    if acc then (roundVal .f32 .rne false (addVal .rne (readFloat .f32 (old.getD n 0)) (readFloat .f32 p)).1).1 else p
  let bs := bytesLE 64 (packLanes .f32 new).toNat
  s.bankTake e a 64 { x with bank := Memory.write x.bank a bs }

/-- Markers at the heads that vectors wait for are dequeued (R278). -/
def State.dropMarkers (s : State) (r : Region) (m : Rect) (vs : List Wave) : State :=
  vs.foldl (fun s v =>
    match s.westHead r m v.step with
    | some t => if v.step < m.h && !mmaBank v.tok && t.kind != .data then s.modElem (r.rectElem m 0 v.step) fun x => x.dequeue (m.mq + 1) else s
    | none => s) s

/-- The west element of a row supplies a vector: from its bank, or half of the token at the head of its queue (R278). -/
def State.supply (s : State) (r : Region) (m : Rect) (v : Wave) : State × BitVec 256 :=
  let e := r.rectElem m 0 v.step
  if mmaBank v.tok then
    let a := mmaBase v.tok + 32 * v.m
    let s := (s.takePort e).fillFor e a 32
    (s, BitVec.ofNat 256 (natLE (Memory.read (s.elem e).bank a 32)))
  else
    let half := ((s.westHead r m v.step).map fun t => t.pay.toNat / 2 ^ (256 * (v.m % 2))).getD 0
    (if v.m % 2 = 1 || v.m + 1 = mmaCount v.tok then s.modElem e fun x => x.dequeue (m.mq + 1) else s, BitVec.ofNat 256 half)

/-- Moves one vector by a cycle: the next row's west element supplies it, every element (c, row) that it has reached forms its sums, and
the column whose last sum this is writes its accumulator row (R278 to R280). -/
def State.moveWave (s : State) (r : Region) (m : Rect) (v : Wave) : State × Wave :=
  let (s, v) := if v.step < m.h then let (s, a) := s.supply r m v; (s, { v with acts := v.acts ++ [a] }) else (s, v)
  let sums := (List.range m.w).flatMap fun c =>
    if c ≤ v.step && v.step - c < m.h then s.cellSums r m v c (v.step - c) else (List.range 16).map fun n => v.sums.getD (16 * c + n) 0
  (match m.writes v with | some c => s.accRow r m (mmaAcc v.tok) v.m c sums | none => s, { v with step := v.step + 1, sums := sums })

/-- Moves a pass by one cycle, row 0 supplying or not; a missing head stalls it whole. -/
def State.movePass (s : State) (rn n : Nat) (supply : Bool) : State :=
  match s.partAt rn n with
  | none => s
  | some (r, m) =>
    let vs := m.moving supply
    let m := { m with moved := s.cycle + 1 }
    if vs.isEmpty then s
    else if !vs.all (s.supplied r m) then (s.dropMarkers r m vs).setRect rn n m
    else
      let (s, ws) := vs.foldl (fun p v => let (s, w) := p.1.moveWave r m v; (s, p.2 ++ [w])) (s, [])
      let gone := fun (w : Wave) => w.step + 1 == m.w + m.h
      let mma := match m.mma with
        | some (t, j) => if !supply then some (t, j) else if j + 1 < mmaCount t then some (t, j + 1) else none
        | none => none
      s.setRect rn n { m with waves := ws.filter fun w => !gone w, mma := mma, done := if ws.any gone then s.cycle + 1 else m.done }

/-- Accepts an MMA: the first of a run after a forced cut (R369), a later one while the run goes on. Its first vector is supplied in the next
cycle (R278). -/
def State.acceptMma (s : State) (rn n : Nat) (p : Nat) : State :=
  match s.partAt rn n with
  | none => s
  | some (r, m) =>
    if m.busy s.cycle || m.cut = 2 then
      (s.nodeDequeue r m).setRect rn n
        { m with mma := some (BitVec.ofNat 64 p, 0), moved := s.cycle + 1, cut := 3, since := if m.busy s.cycle then m.since else s.cycle }
    else if m.cut = 0 then (s.setRect rn n { m with cut := 1 }).askCut (some rn)
    else s

/-- MMA: the pass moves by a cycle; the node takes the next MMA if the last activation of the one before entered row 0 in an earlier cycle,
or finds a bad token at its head (R276, R277); and a run that has ended takes its second forced cut. -/
def execMma (rn n : Nat) (s : State) : Step1 :=
  .next (match s.partAt rn n with
    | none => s
    | some (r, m) =>
      if m.cut = 3 && !m.busy s.cycle then (s.setRect rn n { m with cut := 0 }).askSecond (some rn)
      else
        let t := if m.moved = s.cycle + 1 then s else s.movePass rn n true
        let free := m.mma.isNone && m.moved != s.cycle + 1
        t.nodeTake rn r m (fun k => k = 0 && free) fun p s => s.acceptMma rn n p)

/-! ### SWAPW, FLUSH and FLUSH_MARK (R277) -/

def execSwapw (rn n : Nat) (s : State) : Step1 :=
  .next (match s.partAt rn n with
    | none => s
    | some (r, m) =>
      s.nodeTake rn r m (fun k => k = 1 && !m.busy s.cycle) fun _ s =>
        (r.rectElems m).foldl (fun s e => s.modElem e fun x => { x with w1Active := !x.w1Active }) (s.nodeDequeue r m))

def execFlush (rn n : Nat) (s : State) : Step1 :=
  .next (match s.partAt rn n with
    | none => s
    | some (r, m) =>
      s.nodeTake rn r m (fun k => k = 2 && !m.busy s.cycle) fun p s =>
        (s.nodeDequeue r m).setRect rn n { m with flush := m.flush ++ (List.range m.w).map fun c => (c, p / 2 ^ 32 % 16) })

/-- The marks of accepted FLUSHes that find room are made; a full place holds its mark (R224). -/
def execFlushMark (rn n : Nat) (s : State) : Step1 :=
  .next (match s.partAt rn n with
    | none => s
    | some (r, m) =>
      let (s, left) := m.flush.foldl (fun q f =>
        let e := r.rectElem m f.1 (m.h - 1)
        if q.1.roomFor e f.2 then (q.1.modElem e fun x => x.mark f.2, q.2) else (q.1, q.2 ++ [f])) (s, [])
      if m.flush.isEmpty then s else s.setRect rn n { m with flush := left })

end Sys2Proof.Machine
end

