-- ==== Sys2Proof/Machine/RecOps.lean ====
section
/-! DEFINITION. Fault records (R373), the fault rings (R374), FLTS, and accesses the device makes for a partition itself: rings, counters
and launch records. -/

namespace Sys2Proof.Machine

open Sys2Proof

/-! ### Accesses of the device for a partition -/

/-- Rings and counters lie on normal pages, in device or host memory (R329, R354, R383). -/
def Access.ring : Access := ⟨[0], .host, true, true⟩
def Access.ringRead : Access := ⟨[0], .host, false, true⟩
def Access.count : Access := ⟨[0], .host, true, false⟩
def Access.record : Access := ⟨[0, 1, 3], .all, false, false⟩

/-- Reads n bytes for a partition, or the fault's code. -/
def State.ownRead (s : State) (p va n : Nat) (a : Access) : Except Nat (List Byte) :=
  match s.resolveRun noTlb p va n a with
  | .ok ls => .ok (s.readRun va ls)
  | .fault k _ => .error k
  | .miss _ => .error 0x02

/-- Writes bytes for a partition, outside every interval. -/
def State.ownWrite (s : State) (p va : Nat) (bs : List Byte) (a : Access) : Except Nat State :=
  match s.resolveRun noTlb p va bs.length a with
  | .ok ls => .ok (s.writeRun .device va ls bs)
  | .fault k _ => .error k
  | .miss _ => .error 0x02

/-- Raises a vector of a partition. -/
def State.irq (s : State) (p vec : Nat) : State := { s with irqs := s.irqs ++ [⟨p, vec⟩] }

/-! ### FLTS (R374) -/

/-- Adds one to a field of FLTS, saturating: OVF at bit 0 and TRN at bit 12, 12 bits wide; STL at bit 24, 8 bits. -/
def State.countFlts (s : State) (p lo width : Nat) : State :=
  s.modPart p fun x =>
    if bitsOf x.flts.toNat lo width + 1 < 2 ^ width then { x with flts := x.flts + BitVec.ofNat 32 (2 ^ lo) } else x

/-! ### Records (R373) -/

/-- Flags of FLG. -/
def flgT : Nat := 1
def flgRB : Nat := 2
def flgFRZ : Nat := 4
def flgREP : Nat := 8
def flgIRV : Nat := 16
def flgCAN : Nat := 32

/-- The 64 bytes of a record. -/
def FaultRec.bytes (f : FaultRec) : List Byte :=
  bytesLE 2 f.code ++ bytesLE 1 f.flg ++ bytesLE 1 f.src ++ bytesLE 2 f.elid ++ bytesLE 1 f.tix ++ bytesLE 1 f.slot ++
    bytesLE 8 f.addr.toNat ++ bytesLE 8 f.lrec.toNat ++ bytesLE 4 f.cutn ++ bytesLE 4 f.det.toNat ++ bytesLE 16 f.word.toNat ++
    bytesLE 8 f.tns.toNat ++ bytesLE 4 f.prog ++ bytesLE 4 f.rseq

/-- A record with the partition's next sequence number. -/
def State.number (s : State) (p : Nat) (f : FaultRec) : State × FaultRec :=
  let n := (s.part p).rseq
  (s.modPart p fun x => { x with rseq := (n + 1) % 2 ^ 32 }, { f with rseq := n })

/-! ### The module fault ring (R374, R377) -/

/-- A register of PF BAR0 that only holds what was written, by its offset. -/
def State.modReg (s : State) (o : Nat) : Nat := (SMap.get 0 o s.regs).toNat
def State.setModReg (s : State) (o v : Nat) : State := { s with regs := SMap.set o (BitVec.ofNat 64 v) s.regs }

/-- Writes a record at FQT of the module's ring, which stands at a device address of the module's own blocks, if the ring has room (R383,
log 53). -/
def State.moduleWrite (s : State) (f : FaultRec) : Option State :=
  let n := s.modReg 0x4028
  let t := s.modReg 0x4034
  let used := (t + 2 ^ 32 - s.modReg 0x4030) % 2 ^ 32
  let a := s.modReg 0x4020 + 64 * (t % 2 ^ n)
  let mine := fun (b : Block) => b.own == 8 && b.state == .owned
  if s.modReg 0x4020 = 0 || n = 0 || 2 ^ n ≤ used || !devExists (a + 63) || !mine (s.block (blockOf a)) then none
  else
    let s := (s.devWrite .device a f.bytes).setModReg 0x4034 ((t + 1) % 2 ^ 32)
    some (if used = 0 && s.modReg 0x402C / 2 ^ 31 % 2 = 1 then s.irq 8 (s.modReg 0x402C % 256) else s)

/-- Writes the records that wait for the module's ring, oldest first, as far as it takes them; the fuel counts them. -/
def State.flushModule (s : State) : Nat → State
  | 0 => s
  | n + 1 =>
    match s.mfq with
    | [] => s
    | f :: fs => match s.moduleWrite f with | some t => ({ t with mfq := fs }).flushModule n | none => s

/-- Posts a record to the module's ring, behind those that wait. -/
def State.postModule (s : State) (f : FaultRec) : State := ({ s with mfq := s.mfq ++ [f] }).flushModule (s.mfq.length + 1)

/-! ### The partitions' rings (R374) -/

/-- Writes a record at FQT of a partition's ring if it can (R374): a ring that has just become unwritable is reported in the module's
fault ring. -/
def State.ringWrite (s : State) (p : Nat) (f : FaultRec) : State × Bool :=
  let x := s.part p
  let used := (x.fqt - x.fqh).toNat
  if x.fqb = 0 || x.fqsz = 0 || used ≥ 2 ^ x.fqsz then (s, false)
  else
    let a := x.fqb.toNat + 64 * (x.fqt.toNat % 2 ^ x.fqsz)
    match s.ownWrite p a f.bytes .ring with
    | .ok t =>
      let t := t.modPart p fun x => { x with fqt := x.fqt + 1, ringBad := false }
      (if used = 0 && x.fqvec.getLsbD 31 then t.irq p (x.fqvec.toNat % 256) else t, true)
    | .error k =>
      if x.ringBad then (s, false)
      else
        let m : FaultRec :=
          { code := k, flg := 0, src := 4, elid := 0, tix := 0, slot := 0, addr := x.fqb, lrec := 0, cutn := 0, det := 0, word := 0,
            tns := x.tNow, prog := 0, rseq := 0 }
        ((s.modPart p fun x => { x with ringBad := true }).postModule m, false)

/-- Posts a transient record: dropped and counted when the ring has no room (R374). -/
def State.postTransient (s : State) (p : Nat) (f : FaultRec) : State :=
  let (s', g) := s.number p f
  if (s.part p).recs.isEmpty then
    let (t, ok) := s'.ringWrite p g
    if ok then t else { t with parts := (t.modPart p fun x => { x with rseq := (s.part p).rseq }).parts }.countFlts p 0 12
  else s.countFlts p 0 12

/-- The retry has passed: the fault is counted and recorded as transient (R371). -/
def State.transient (s : State) (rn : Nat) (f : FaultRec) : State :=
  match s.region rn with
  | some r => (s.countFlts r.part 12 12).postTransient r.part { f with flg := flgT }
  | none => s

/-- Posts any other record: it waits for the ring behind those that wait. The region, if one is named, stays stopped until it is
written (R374). -/
def State.postRecord (s : State) (p : Nat) (f : FaultRec) (reg : Option Nat) : State × Nat :=
  let (s, g) := s.number p f
  let stop (s : State) : State :=
    let s := s.modPart p fun x => { x with recs := x.recs ++ [(g, reg)] }
    match reg with
    | some r => s.modRegion r fun x => { x with recWait := true, phase := if x.phase = .running then .gated else x.phase }
    | none => s
  if (s.part p).recs.isEmpty then
    let (t, ok) := s.ringWrite p g
    (if ok then t else stop t, g.rseq)
  else (stop s, g.rseq)

/-- A record that waited has been written: its region goes on. -/
def State.recordDone (s : State) (p : Nat) (reg : Option Nat) : State :=
  let still := (s.part p).recs.any fun x => x.2 == reg
  match reg with
  | none => s
  | some r => s.modRegion r fun x =>
    if x.recWait && !still then { x with recWait := false, phase := if x.phase = .gated then .running else x.phase } else x

/-- Writes the records that wait, oldest first, as far as the ring takes them (R374). -/
def State.flushRecs (s : State) (p : Nat) : Nat → State
  | 0 => s
  | n + 1 =>
    match (s.part p).recs with
    | [] => s
    | (f, r) :: rest =>
      let (t, ok) := s.ringWrite p f
      if ok then ((t.modPart p fun x => { x with recs := rest }).recordDone p r).flushRecs p n else t

/-- Tries the ring again: on a write of FQH, FQB or FQSZ, and when an invalidation completes. -/
def State.retryRing (s : State) (p : Nat) : State := s.flushRecs p ((s.part p).recs.length)

end Sys2Proof.Machine
end

