-- ==== Sys2Proof/Machine/IntOps.lean ====
section
/-! DEFINITION. Integrator arrays (R286 to R306, R446 to R449): the nine commands, and the steps DOMAIN_STEP, BUDGET_EXHAUSTED,
EVENT_PLACE_MARK and INTEGRATOR_COMMAND_PERFORM. -/

namespace Sys2Proof.Machine

open Sys2Proof

/-! ### Cells and patch entries (R109, R286, R287) -/

def IArray.setCell (a : IArray) (i : Nat) (c : Cell) : IArray := { a with cells := SMap.set i c a.cells }
def IArray.setDom (a : IArray) (d : Nat) (x : Dom) : IArray := { a with doms := vset a.doms d x }

/-- Fields of a patch entry. -/
def patchWs (p : W64) : Nat := bitsOf p.toNat 55 5
/-- Its sources with their negate bits: DX, then DY0 to DY3. -/
def patchSrcs (p : W64) : List (Nat × Bool) := [44, 33, 22, 11, 0].map fun b => (bitsOf p.toNat b 10, p.getLsbD (b + 10))

/-- A reserved source code (R288). -/
def srcReserved (c : Nat) : Bool := 536 ≤ c && c < 1023

/-- −1, 0 or +1 as ZO codes it (R287). -/
def zoInt (z : BitVec 2) : Int := match z.toNat with | 1 => 1 | 3 => -1 | _ => 0
def zoCode (n : Int) : BitVec 2 := if n > 0 then 1 else if n < 0 then 3 else 0

/-- The cell's save record (R287). -/
def Cell.bytes (c : Cell) : List Byte :=
  bytesLE 4 c.yv.toNat ++ bytesLE 4 c.rs.toNat ++ bytesLE 4 c.ev.toNat ++
    bytesLE 4 (c.zo.toNat * 1024 + patchWs c.patch * 32 + c.hd.toNat)

/-- Whether a record's CTL breaks R287. -/
def ctlBad (w : Nat) : Bool := bitsOf w 0 5 < 8 || bitsOf w 5 5 > 24 || bitsOf w 10 2 = 2 || w / 2 ^ 12 != 0

/-- A cell as a save record gives it (R287): WS goes into its patch entry. -/
def Cell.load (c : Cell) (bs : List Byte) : Cell :=
  let w := natLE bs
  let ctl := bitsOf w 96 32
  { c with
    yv := BitVec.ofNat 32 w, rs := BitVec.ofNat 32 (w / 2 ^ 32), ev := BitVec.ofNat 32 (w / 2 ^ 64)
    zo := BitVec.ofNat 2 (bitsOf ctl 10 2), hd := BitVec.ofNat 5 (bitsOf ctl 0 5)
    patch := BitVec.ofNat 64 (c.patch.toNat - patchWs c.patch * 2 ^ 55 + bitsOf ctl 5 5 * 2 ^ 55) }

/-- The domains whose enabled cells read a feed port (R290). -/
def feedOwners (cells : List (Nat × Cell)) (k : Nat) : List Nat :=
  (cells.filterMap fun x => if (patchSrcs x.2.patch).any fun s => s.1 == 520 + k then x.2.domain else none).eraseDups

/-! ### Time (R291) -/

/-- The step-clock cycle of a main cycle. -/
def stepCycle (cycle : Nat) : Nat := cycle / 2

def Dom.cause (d : Dom) : Nat := bitsOf d.dst.toNat 28 3

/-- Whether a domain is to step, or has stepped, in a step-clock cycle. -/
def Dom.due (d : Dom) (j : Nat) : Bool := d.run && d.next == 0 && d.last != j + 1
def Dom.steps (d : Dom) (j : Nat) : Bool := d.due j || d.last == j + 1

/-- Whether the array of a core is gated: its region does not run, or the capture of a marker cut is awaited (R304, R556). -/
def State.arrGated (s : State) (c : Nat) : Bool :=
  match (s.regionOn c).bind s.region with
  | none => true
  | some r =>
    r.phase != .running ||
      (r.forming.isSome && (r.newSnap.elems.any fun x => coreOf x.1 == c) && (SMap.find c r.newSnap.cores).isNone)

/-- As a step-clock cycle begins, the running domains of the arrays that are not gated come one step-clock cycle nearer to their next
steps. -/
def State.stepClock (s : State) : State :=
  s.cores.foldl (fun s (c, k) =>
    if s.arrGated c || !(k.arr.doms.toList.any Dom.run) then s
    else
      s.setCore c { k with arr := { k.arr with doms := k.arr.doms.map fun d => if d.run then { d with next := d.next - 1 } else d } }) s

/-! ### Stops (R292 to R295, R300) -/

/-- Rewrites the ISTEPs that wait on a core's array. -/
def State.modIsteps (s : State) (c : Nat) (f : Slot → Slot) : State :=
  s.elems.foldl (fun s (e, x) =>
    if coreOf e != c || x.slots.toList.all Option.isNone then s
    else
      let sl := x.slots.map fun y => match y with
        | some z => (match z.ins with | .istep _ _ => if z.stage = 1 then some (f z) else some z | _ => some z)
        | none => none
      if sl = x.slots then s else s.setElem e { x with slots := sl }) s

/-- A domain of a core stops with a cause: the ISTEPs that wait for it note their first stop of it, in bits [7:0] of the late result if it
was an overrun and in bits [15:8] (R295, R300). -/
def State.noteStop (s : State) (c d cause : Nat) : State :=
  s.modIsteps c fun z =>
    if z.opa.getLsbD d && !z.lres.getLsbD (d + 8) then
      { z with lres := z.lres ||| BitVec.ofNat 512 (2 ^ (d + 8) + if cause = 2 ∨ cause = 3 then 2 ^ d else 0) }
    else z

/-- The mask an ISTEP reports: the domains whose stop it noted with an overrun, and, of those it has not seen stop, the ones whose last
stop was an overrun (R300). -/
def istepMask (a : IArray) (z : Slot) : Nat :=
  (((List.range 8).filter fun d => z.opa.getLsbD d &&
    if z.lres.getLsbD (d + 8) then z.lres.getLsbD d else (a.dom d).cause == 2 || (a.dom d).cause == 3).map (2 ^ ·)).sum

/-- An ISTEP whose domains are all stopped reports which stopped on an overrun, and completes at the end of the main cycle that follows. -/
def State.stepStops (s : State) (c : Nat) : State :=
  let a := (s.core c).arr
  s.modIsteps c fun z =>
    if (List.range 8).all fun d => !z.opa.getLsbD d || !(a.dom d).run then
      { z with stage := 2, sub := 2 * stepCycle s.cycle + 2, lres := BitVec.ofNat 512 (istepMask a z) }
    else z

/-- A step of domain d counts for the ISTEPs whose lowest domain it is (R300). -/
def State.countStep (s : State) (c d : Nat) : State :=
  s.modIsteps c fun z =>
    if z.wide && (List.range 8).find? (fun k => z.opa.getLsbD k) == some d then { z with prog := z.prog + 1 } else z

/-- The element and place of an event target in a region (R296). -/
def evtElem (r : Region) (t : W32) : Nat :=
  let n := t.toNat
  coreAt (r.x0 + bitsOf n 10 4) (r.y0 + bitsOf n 14 4) * 64 + bitsOf n 7 3 * 8 + bitsOf n 4 3
def evtPlace (t : W32) : Nat := t.toNat % 16

/-- The main cycle in which a stop of this step-clock cycle marks its place (R292). -/
def State.markCycle (s : State) (c : Nat) (t : W32) : Nat :=
  let at_ := 2 * stepCycle s.cycle + 2
  match (s.regionOn c).bind s.region with
  | some r => let e := evtElem r t; if coreOf e = c then at_ else at_ + hops (c * 64) e
  | none => at_

/-- Stops a domain with a cause (R292, R293): causes 1 to 3 mark the event place. -/
def State.stopDomain (s : State) (c d cause who : Nat) : State :=
  let k := s.core c
  let x := k.arr.dom d
  let marks := if cause = 4 || x.evt.getLsbD 18 then x.marks else x.marks ++ [(x.evt, s.markCycle c x.evt)]
  let x := { x with dst := BitVec.ofNat 32 (cause * 2 ^ 28 + who), marks := marks }
  ((s.setCore c { k with arr := k.arr.setDom d x }).noteStop c d cause).stepStops c

/-- The IOV record of a domain (R295, R373). -/
def State.reportIov (s : State) (c d : Nat) : State :=
  match (s.regionOn c).bind s.region, s.regionOn c with
  | some r, some rn =>
    let x := (s.core c).arr.dom d
    let f := s.faultRec
      { code := 0x0F, src := 3, reg := rn, elid := c * 64, tix := d, slot := 0, addr := x.dst.toNat + d * 2 ^ 32, opc := 0, word := 0,
        prog := x.cnt % 2 ^ 32, at_ := .none }
    (s.postRecord r.part f none).1
  | _, _ => s

/-! ### DOMAIN_STEP (R288 to R290) -/

/-- The value of a source in a step (R288). -/
def srcValue (a : IArray) (j : Nat) (cells : List (Nat × Cell)) (feeds : Vector (BitVec 2) 16) (c : Nat × Bool) : Int :=
  let v : Int :=
    if c.1 < 512 then zoInt (SMap.get Cell.reset c.1 cells).zo
    else if c.1 < 520 then (if (a.dom (c.1 - 512)).steps j then 1 else 0)
    else if c.1 < 536 then zoInt (vget feeds (c.1 - 520) 0)
    else 0
  if c.2 then -v else v

/-- One cell's step, and whether it overruns (R289). -/
def cellStep (val : Nat × Bool → Int) (c : Cell) : Cell × Bool :=
  match (patchSrcs c.patch).map val with
  | dx :: dys =>
    let s : Int := (c.rs.toNat : Int) + dx * c.yv.toInt
    let zo : Int := if s ≥ 2 ^ 32 then 1 else if s < 0 then -1 else 0
    let y : Int := c.yv.toInt + dys.sum * 2 ^ patchWs c.patch
    ({ c with rs := BitVec.ofInt 32 s, zo := zoCode zo, ev := c.ev + BitVec.ofInt 32 zo, yv := BitVec.ofInt 32 y },
      y.natAbs ≥ 2 ^ c.hd.toNat)
  | [] => (c, false)

/-- A step of domain d of a core's array, reading the array as the step-clock cycle began. -/
def State.domainStep (s : State) (c d : Nat) : State :=
  let k := s.core c
  let a := k.arr
  let j := stepCycle s.cycle
  if d ≥ 8 || !((a.dom d).due j) || s.arrGated c then s
  else
    let (cells, feeds) := match a.old with
      | some (i, cs, fs) => if i = j then (cs, fs) else (a.cells, a.fpd)
      | none => (a.cells, a.fpd)
    let mine := cells.filter fun x => x.2.domain == some d
    let new := mine.map fun x => (x.1, cellStep (srcValue a j cells feeds) x.2)
    let burst := (new.filter fun x => x.2.2).map Prod.fst
    let ports := (List.range 16).filter fun f => (feedOwners cells f).contains d
    let late := ports.filter fun f => vget a.fpd2 f false
    let x := a.dom d
    let x := { x with bud := x.bud - 1, next := x.div.toNat, last := j + 1, cnt := x.cnt + 1 }
    let a : IArray :=
      { cells := new.foldl (fun m y => SMap.set y.1 y.2.1 m) a.cells
        fpd := ports.foldl (fun v f => vset v f 0) a.fpd
        fpd2 := ports.foldl (fun v f => vset v f false) a.fpd2
        doms := vset a.doms d x
        old := some (j, cells, feeds) }
    let s := (s.setCore c { k with arr := a }).countStep c d
    match late, burst with
    | f :: _, _ => (s.stopDomain c d 3 f).reportIov c d
    | [], i :: _ => (s.stopDomain c d 2 i).reportIov c d
    | [], [] => s

def execDomainStep (c d : Nat) (s : State) : Step1 := .next (s.domainStep c d)

/-- BUDGET_EXHAUSTED (R292): a domain whose budget a step has brought to 0 stops in that step's cycle. -/
def State.exhaust (s : State) (c d : Nat) : State :=
  let x := (s.core c).arr.dom d
  if d < 8 && x.run && x.bud == 0 then s.stopDomain c d 1 0 else s
def execBudgetExhausted (c d : Nat) (s : State) : Step1 := .next (s.exhaust c d)

/-- A freeze, and a cut that takes its shadow of an array at a step-clock boundary, let the steps of the step-clock cycle they fall in finish
(R304, R305). -/
def State.lastSteps (s : State) (cores : List Nat) : State :=
  let ds := cores.flatMap fun c => (List.range 8).map fun d => (c, d)
  ds.foldl (fun s d => s.exhaust d.1 d.2) (ds.foldl (fun s d => s.domainStep d.1 d.2) s)

/-- EVENT_PLACE_MARK (R292): of the marks a domain's stops still owe, the oldest that is due and whose place has room is made. -/
def State.markEvent (s : State) (c d : Nat) : State :=
  let k := s.core c
  let x := k.arr.dom d
  match (s.regionOn c).bind s.region with
  | none => s
  | some r =>
    if d < 8 && r.phase == .running then
      match x.marks.findIdx? fun m => m.2 ≤ s.cycle && s.roomFor (evtElem r m.1) (evtPlace m.1) with
      | none => s
      | some i =>
        let t := (x.marks.getD i (0, 0)).1
        (s.setCore c { k with arr := k.arr.setDom d { x with marks := x.marks.eraseIdx i } }).modElem (evtElem r t) fun z => z.mark (evtPlace t)
    else s
def execEventPlaceMark (c d : Nat) (s : State) : Step1 := .next (s.markEvent c d)

/-! ### Commands at issue (R296, R297) -/

def irf : Option (Nat × Nat) := some (0x0E, 0)

/-- Whether cells first to first + n − 1 exist. -/
def cellsBad (first n : Nat) : Bool := first + n > 512

def ipatchBad (y : Slot) : Option (Nat × Nat) :=
  let p := BitVec.ofNat 64 y.opa.toNat
  if arg y.opb > 511 || arg y.opc < 8 || arg y.opc > 31 || patchWs p > 24 || (patchSrcs p).any fun s => srcReserved s.1 then irf
  else none

/-- An event target is inside the region's shape, unless it names no place (R297). -/
def icfgBad (shape : Nat × Nat) (y : Slot) : Option (Nat × Nat) :=
  let t := arg y.opc
  if arg y.opa > 7 || arg y.opb = 0 || arg y.opb > 65535 || t / 2 ^ 19 != 0 ||
      (!t.testBit 18 && (bitsOf t 10 4 ≥ shape.1 || bitsOf t 14 4 ≥ shape.2)) then irf
  else none
def isetBad (y : Slot) : Option (Nat × Nat) := if arg y.opb > 511 then irf else none
def igetBad (o : FmtE) (y : Slot) : Option (Nat × Nat) :=
  if arg y.opa > (if o.imm.toNat % 8 ≥ 4 then 7 else 511) then irf else none
def istepBad (y : Slot) : Option (Nat × Nat) := if arg y.opa > 255 then irf else none

/-- ISAVE and IREST: cells, count and bank range. -/
def recsBad (y : Slot) : Option (Nat × Nat) :=
  if arg y.opc = 0 || cellsBad (arg y.opb) (arg y.opc) || arg y.opa % 16 != 0 || arg y.opa + 16 * arg y.opc > 65536 then irf else none

/-- ISAVE into a WGT quarter raises WGQ. -/
def isaveBad (x : Elem) (y : Slot) : Option (Nat × Nat) :=
  match recsBad y with
  | some f => some f
  | none => if (rowsOf (arg y.opa) (16 * arg y.opc)).any fun r => x.quarter (64 * r) == .wgt then some (0x07, 0) else none
def ifeedBad (y : Slot) : Option (Nat × Nat) := if (List.range 16).any fun k => bitsOf (arg y.opa) (2 * k) 2 = 2 then irf else none
def isampBad (y : Slot) : Option (Nat × Nat) :=
  if arg y.opb = 0 || arg y.opb > 16 || cellsBad (arg y.opa) (arg y.opb) then irf else none

/-- SHW and SHH of an element's region. -/
def State.gridShape (s : State) (e : Nat) : Nat × Nat := ((s.regOf e).map fun r => (r.w, r.h)).getD (0, 0)

/-- The faults of a command's captured operands (R297). -/
def State.intBad (s : State) (e : Nat) (y : Slot) : Option (Nat × Nat) :=
  match y.ins with
  | .ipatch _ _ => ipatchBad y
  | .icfg _ _ => icfgBad (s.gridShape e) y
  | .iset _ _ => isetBad y
  | .iget _ o => igetBad o y
  | .istep _ _ => istepBad y
  | .isave _ _ => isaveBad (s.elem e) y
  | .irest _ _ => recsBad y
  | .ifeed _ _ => ifeedBad y
  | .isamp _ _ => isampBad y
  | _ => none

/-- A command that no unit performs in the cycle of its issue. -/
def noPerf (_ _ : Nat) (s : State) : State := s

/-- An integrator command issues; it reaches the array a cycle later (R299). -/
def intIssue (i : Instr) (a b c : VW) (bad : Slot → Option (Nat × Nat)) (f : Firing) (s : State) : State :=
  cmdIssue i a b c bad noPerf f s

/-- An operand read as n32 (R297, R446). -/
def State.arg32 (s : State) (f : Firing) (c : Src) : VW := word512 ((s.read f.e f.x .n32 false 0 c).1.headD 0)

def execIpatch (t : TU) (o : FmtE) (s : State) : Step1 :=
  .next (s.fire (.ipatch t o) t fun f s =>
    intIssue (.ipatch t o) (word512 (pairOf f.x o.a)) (s.arg32 f o.b) (s.arg32 f o.c) ipatchBad f s)
def execIcfg (t : TU) (o : FmtE) (s : State) : Step1 :=
  .next (s.fire (.icfg t o) t fun f s =>
    intIssue (.icfg t o) (s.arg32 f o.a) (s.arg32 f o.b) (s.arg32 f o.c) (icfgBad (s.gridShape f.e)) f s)
def execIset (t : TU) (o : FmtE) (s : State) : Step1 :=
  .next (s.fire (.iset t o) t fun f s => intIssue (.iset t o) (s.arg32 f o.a) (s.arg32 f o.b) 0 isetBad f s)
def execIget (t : TU) (o : FmtE) (s : State) : Step1 :=
  .next (s.fire (.iget t o) t fun f s => intIssue (.iget t o) (s.arg32 f o.a) 0 0 (igetBad o) f s)
def execIstep (t : TU) (o : FmtE) (s : State) : Step1 :=
  .next (s.fire (.istep t o) t fun f s => intIssue (.istep t o) (s.arg32 f o.a) (s.arg32 f o.b) 0 istepBad f s)
def execIsave (t : TU) (o : FmtE) (s : State) : Step1 :=
  .next (s.fire (.isave t o) t fun f s =>
    intIssue (.isave t o) (s.arg32 f o.a) (s.arg32 f o.b) (s.arg32 f o.c) (isaveBad (s.elem f.e)) f s)
def execIrest (t : TU) (o : FmtE) (s : State) : Step1 :=
  .next (s.fire (.irest t o) t fun f s =>
    intIssue (.irest t o) (s.arg32 f o.a) (s.arg32 f o.b) (s.arg32 f o.c) recsBad f s)
def execIfeed (t : TU) (o : FmtE) (s : State) : Step1 :=
  .next (s.fire (.ifeed t o) t fun f s => intIssue (.ifeed t o) (s.arg32 f o.a) 0 0 ifeedBad f s)

/-- ISAMP keeps the place of its token from its issue (R298). -/
def execIsamp (t : TU) (o : FmtE) (s : State) : Step1 :=
  .next (s.fire (.isamp t o) t fun f s =>
    let a := s.arg32 f o.a
    let b := s.arg32 f o.b
    let ok := 1 ≤ arg b && arg b ≤ 16 && !cellsBad (arg a) (arg b)
    let s := if ok then keepPlaces (pimLabel o) 1 f s else s
    intIssue (.isamp t o) a b 0 isampBad f s)

/-! ### Commands at the array (R298 to R300) -/

/-- A command has arrived, and the step-clock cycle ends after any step of it (R299). -/
def State.intReady (s : State) (e : Nat) (y : Slot) : Bool :=
  let c := coreOf e
  let j := stepCycle s.cycle
  s.atArray e y &&
    (s.arrGated c || (s.core c).arr.doms.toList.all fun d => !(d.due j) && !(d.run && d.bud == 0))

/-- YV, RS or EV of a cell. -/
def Cell.field (c : Cell) (k : Nat) : W32 := match k with | 0 => c.yv | 1 => c.rs | _ => c.ev

/-- A change of the array by a command that then completes with a value. -/
def State.arrDone (s : State) (e k : Nat) (a : IArray) (v : Nat) : State :=
  (s.modCore (coreOf e) fun c => { c with arr := a }).performed e k (word512 v)

/-- ISTEP for one domain (R300): its budget is set or the domain is stopped or started. -/
def istepDom (keep : Bool) (b : W32) (d : Dom) : Dom × Bool :=
  let b := if keep then d.bud else b
  if b = 0 then (d, d.run)
  else if d.run then ({ d with bud := b }, false)
  else ({ d with bud := b, dst := 0x80000000, next := 1, cnt := 0 }, false)

/-- ISTEP (R300): its domains are armed, started or stopped; it then waits for them. -/
def State.istep (s : State) (e k : Nat) (y : Slot) (keep : Bool) : State :=
  let c := coreOf e
  let ds := (List.range 8).filter fun d => y.opa.getLsbD d
  let a := (s.core c).arr
  let low := ds.head?
  let counts := match low with
    | some d => let b := if keep then (a.dom d).bud else BitVec.ofNat 32 y.opb.toNat; b != 0
    | none => false
  let (s, stops) := ds.foldl (fun (p : State × Nat) d =>
    let q := p.1.core c
    let (x, stop) := istepDom keep (BitVec.ofNat 32 y.opb.toNat) (q.arr.dom d)
    if stop then (p.1.stopDomain c d 4 0, p.2 + 2 ^ (d + 8)) else (p.1.setCore c { q with arr := q.arr.setDom d x }, p.2)) (s, 0)
  (s.setSlot e k { y with stage := 1, wide := counts, lres := BitVec.ofNat 512 stops }).stepStops c

/-- ISAVE writes its n records to the bank a row at a time, as far as the undo buffer lets it (R303, R366); bs holds the records, read at
one step-clock boundary (R301), and m bounds the rows. -/
def State.saveRecs (s : State) (e k n : Nat) (bs : List Byte) : Nat → State
  | 0 => s
  | m + 1 =>
    match s.slot e k with
    | none => s
    | some y =>
      let a := arg y.opa + 16 * y.sub
      let i := min (n - y.sub) (4 - a / 16 % 4)
      let go := s.portAccess true e e k (16 * i) [a] true fun s =>
        let s := s.bankWrite e a ((bs.drop (16 * y.sub)).take (16 * i))
        if y.sub + i < n then s.setSlot e k { y with sub := y.sub + i, buf := bs } else s.performed e k (word512 n)
      match go.slot e k with
      | some z => if z.sub = y.sub then go else go.saveRecs e k n bs m
      | none => go

/-- Performs an integrator command at the end of a step-clock cycle, or leaves it aside while its domains run (R298, R299); one that is tried
again is checked again (R297). -/
def performInt (e k : Nat) (s : State) : State :=
  match s.slot e k with
  | none => s
  | some y =>
    if y.stage ≠ 0 || y.held || !s.intReady e y then s
    else
      let a := (s.core (coreOf e)).arr
      match s.intBad e y with
      | some (code, va) => s.failSlot e k code va
      | none =>
      match y.ins with
      | .ipatch _ _ =>
        let i := arg y.opb
        let p := BitVec.ofNat 64 y.opa.toNat
        let old := a.cell i
        let new := { old with patch := p, hd := BitVec.ofNat 5 (arg y.opc) }
        let a' := a.setCell i new
        if (List.range 16).any fun f => (feedOwners a'.cells f).length > 1 then s.failSlot e k 0x0E 0
        else if a.idle [old.domain, new.domain] then s.arrDone e k a' 1
        else s
      | .icfg _ _ =>
        let d := arg y.opa
        if a.idle [some d] then
          s.arrDone e k (a.setDom d { a.dom d with div := BitVec.ofNat 32 (arg y.opb), evt := BitVec.ofNat 32 (arg y.opc) }) 1
        else s
      | .iset _ o =>
        let i := arg y.opb
        let x := a.cell i
        let v := BitVec.ofNat 32 (arg y.opa)
        if a.idle [x.domain] then
          s.arrDone e k
            (a.setCell i (match o.imm.toNat % 4 with | 0 => { x with yv := v } | 1 => { x with rs := v } | _ => { x with ev := v })) 1
        else s
      | .iget _ o =>
        let i := arg y.opa
        let v : W32 := match o.imm.toNat % 8 with
          | 3 => BitVec.ofInt 32 (zoInt (a.cell i).zo)
          | 4 => (a.dom i).dst
          | 5 => (a.dom i).bud
          | f => (a.cell i).field f
        s.performed e k (word512 v.toNat)
      | .istep _ o => s.istep e k y (o.imm.getLsbD 0)
      | .isave _ _ =>
        let is := cellRange (arg y.opb) (arg y.opc)
        if !a.idle (is.map fun i => (a.cell i).domain) || !s.edgesMet e y then s
        else
          let bs := if y.sub = 0 then is.flatMap fun i => (a.cell i).bytes else y.buf
          s.saveRecs e k (arg y.opc) bs ((arg y.opa + 16 * arg y.opc - 1) / 64 + 1 - arg y.opa / 64)
      | .irest _ _ =>
        let is := cellRange (arg y.opb) (arg y.opc)
        if !a.idle (is.map fun i => (a.cell i).domain) || !s.edgesMet e y then s
        else
          let as := is.map fun i => arg y.opa + 16 * (i - arg y.opb)
          s.portAccess true e e k 16 as false fun s =>
            let bs := as.map fun b => Memory.read (s.elem e).bank b 16
            if bs.any fun b => ctlBad (bitsOf (natLE b) 96 32) then s.failSlot e k 0x0E 0
            else s.arrDone e k ((is.zip bs).foldl (fun a z => a.setCell z.1 ((a.cell z.1).load z.2)) a) (arg y.opc)
      | .ifeed _ _ =>
        let (a', n) := (List.range 16).foldl (fun (p : IArray × Nat) f =>
          let z := bitsOf (arg y.opa) (2 * f) 2
          if z = 0 || (feedOwners p.1.cells f).isEmpty then p
          else if vget p.1.fpd f 0 != 0 then ({ p.1 with fpd2 := vset p.1.fpd2 f true }, p.2)
          else ({ p.1 with fpd := vset p.1.fpd f (BitVec.ofNat 2 z) }, p.2 + 1)) (a, 0)
        s.arrDone e k a' n
      | .isamp _ o =>
        let v := packLanes .n32 ((cellRange (arg y.opa) (arg y.opb)).map fun i => ((a.cell i).field (bitsOf o.imm.toNat 7 2)).toNat)
        let pack := (((s.elem e).route (pimLabel o)).map Route.pack).getD false
        (s.formTokens e k [dataTok v 0] pack).setSlot e k { y with stage := 1, lres := word512 (arg y.opb) }
      | _ => s

def execIntegratorCommandPerform (e k : Nat) (s : State) : Step1 := .next (performInt e k s)

/-- Whether a domain or an integrator command of a core has something to do before the step-clock cycle ends: what the step makes due. -/
def State.intDue (s : State) (e k : Nat) : Bool :=
  match s.slot e k with
  | some y => isIntOp y.ins && y.stage == 0 && !y.held && s.intReady e y
  | none => false

/-- An ISTEP whose domains have stopped completes at the end of the main cycle after the last stop, with its mask of overruns (R300). -/
def State.finishIstep (s : State) (e k : Nat) (d : Dst) : State :=
  match s.slot e k with
  | some y => if y.stage = 2 && y.sub ≤ s.cycle then s.finishWord e k d false else s
  | none => s

end Sys2Proof.Machine
end

