-- ==== Sys2Proof/Machine/Load.lean ====
section
/-! DEFINITION. Net images: the checks of a transition word against its element (R78, R105, R123), the image file (R100 to R113), the
loader's steps and codes (R116, R117), binding (R111, R114) and the state of a launch start (R92, R104, R178 to R183). -/

namespace Sys2Proof.Machine

open Sys2Proof

/-! ### One word against its element (R78) -/

/-- Load error codes (R117). -/
def errMagic : Nat := 0x01
def errLayout : Nat := 0x02
def errShape : Nat := 0x03
def errHash : Nat := 0x04
def errSign : Nat := 0x05
def errPriv : Nat := 0x06
def errWord : Nat := 0x07
def errPlace : Nat := 0x08
def errRoute : Nat := 0x09
def errChan : Nat := 0x0A
def errPort : Nat := 0x0B
def errIntg : Nat := 0x0C
def errData : Nat := 0x0D
def errRelo : Nat := 0x0E
/-- Not a code: the loading waits for a translation by the host (R194). -/
def errWait : Nat := 256

/-- What a word is checked against: pair mode, sink, labels with a route entry, the core's ports (number, indirect, out), and the queues
whose every route and in port is of the control plane, or of the data plane (log 116). -/
structure WordCtx where
  pair   : Bool
  sink   : Bool
  routes : List Nat
  ports  : List (Nat × Bool × Bool)
  ctl    : List Nat
  dat    : List Nat
  deriving DecidableEq, Repr

/-- The first code of a list of checks that fails. -/
def firstCode (cs : List (Bool × Nat)) : Option Nat := (cs.find? fun c => !c.1).map Prod.snd

/-- A privileged operation (R68, R77). -/
def privileged : Instr → Bool
  | .cfgw _ _ | .frz _ _ | .mxmodeEnterSplit _ _ => true
  | .wrsr _ o => 0x07 ≤ o.imm.toNat && o.imm.toNat ≤ 0x0A
  | _ => false

def privilegedWord : Decoded → Bool
  | .single i => privileged i
  | .pair _ _ _ => false

/-- The ports a word names: number, whether it must be indirect or must not, and its direction if one is asked for (R264, R315, R504,
R512). -/
def portsNamed : Instr → List (Nat × Option Bool × Option Bool)
  | .sopen _ o | .sparm _ o | .sclose _ o => [(o.imm.toNat % 8, some false, none)]
  | .srec _ o => [(o.imm.toNat % 8, none, none)]
  | .rfen _ o => ((List.range 8).filter fun k => o.imm.toNat.testBit k).map fun k => (k, some false, none)
  | .gath _ o => [(o.imm.toNat % 8, some true, some false)]
  | .scat _ o => [(o.imm.toNat % 8, some true, some true)]
  | .stash _ o => [(o.imm.toNat / 2 % 8, some true, some true)]
  | .unstash _ o => if o.imm.toNat.testBit 4 then [] else [(o.imm.toNat / 2 % 8, some true, some false)]
  | _ => []

def portFits (ports : List (Nat × Bool × Bool)) (n : Nat × Option Bool × Option Bool) : Bool :=
  match ports.find? fun p => p.1 == n.1 with
  | none => false
  | some p => (n.2.1.map (· == p.2.1)).getD true && (n.2.2.map (· == p.2.2)).getD true

/-- Labels a word can emit on (R105). -/
def labelsNamed : Decoded → List Nat
  | .pair t _ _ => Wf.labels t
  | .single i =>
    (match layoutOf i with | .a _ t _ => Wf.labels t | .m _ t _ => Wf.labels t | .e _ t _ => Wf.labels t | _ => []) ++
      (match i with | .pimrd _ o | .isamp _ o | .mxacc _ o => [o.imm.toNat % 128] | _ => [])

/-- Whether a word's result token is a scalar for certain, which no class 0 label takes (R123, R141, R142); ctl are the queues that hold
control-plane heads only. A BRMW with no destination is wide on a data-plane head (R414). -/
def scalarToken (ctl : List Nat) (i : Instr) : Bool :=
  match i with
  | .repl _ _ | .mark _ _ | .merge _ _ => false
  | .steer _ o => (match o.c with | .q _ => false | .v _ => false | _ => true)
  | .vred _ _ => true
  | .vscan _ o => o.imm.toNat % 4 != 0
  | .bst _ _ | .bstx _ _ | .st _ _ | .stw _ _ | .red _ _ | .fence _ _ | .pref _ _ | .inv _ _ | .trap _ _ => false
  | .brmw _ o => !(Wf.dV o.d || (Wf.dN o.d && (match o.b with | .q k => !ctl.contains k.toNat | b => Wf.sV b)))
  | i =>
    match layoutOf i with
    | .a _ _ o => !Wf.isVec o
    | .m _ _ o => !Wf.dV o.d
    | .e _ _ _ => true
    | _ => false

/-- Labels of a result token. -/
def resultLabels : Instr → List Nat
  | i => match layoutOf i with | .a _ t _ => Wf.labels t | .m _ t _ => Wf.labels t | .e _ t _ => Wf.labels t | _ => []

/-- The queues that something feeds, and only on the control plane: feeds are pairs of a queue and whether a feed is of that plane. -/
def ctlQueues (feeds : List (Nat × Bool)) : List Nat :=
  (feeds.map Prod.fst).eraseDups.filter fun q => feeds.all fun f => f.1 != q || f.2

/-- The same for the data plane. -/
def datQueues (feeds : List (Nat × Bool)) : List Nat := ctlQueues (feeds.map fun f => (f.1, !f.2))

/-- Sources that take a control-plane head only (R403, R414, R416, R492, R498, R530, R545). -/
def ctlSources : Instr → List Src
  | .atom _ o | .red _ o => [o.b]
  | .bldx _ o | .bstx _ o | .brmw _ o => if Wf.dS o.d then [o.b] else []
  | .qnt _ o => [o.b]
  | .tag _ o => [o.a]
  | .wrsr _ o => [o.a]
  | _ => []

/-- Sources that take a data-plane head only (R254, R487). -/
def datSources : Instr → List Src
  | .pimld _ o => [o.b]
  | _ => []

/-- No source is one of the queues. -/
def noneOf (qs : List Nat) (ss : List Src) : Bool := ss.all fun c => match c with | .q k => !qs.contains k.toNat | _ => true

/-- What a decoded word breaks beyond its own fields. -/
def contextStatus (x : WordCtx) (d : Decoded) : Nat :=
  let own :=
    match d with
    | .pair _ _ _ => x.pair
    | .single i => (match i with | .doneOp _ _ | .sink _ _ => x.sink | _ => true)
  let plane := match d with | .single i => !(scalarToken x.ctl i && (resultLabels i).any fun l => Wf.labelClass l == 0) | _ => true
  let ports := match d with | .single i => (portsNamed i).all (portFits x.ports) | _ => true
  let heads := match d with | .single i => noneOf x.dat (ctlSources i) && noneOf x.ctl (datSources i) | _ => true
  (firstCode [(own, errWord), (heads, errWord), (plane, errRoute), ((labelsNamed d).all x.routes.contains, errRoute), (ports, errPort)]).getD 0

/-- The load code of a word for an element, 0 when it is valid (R23, R78). -/
def wordStatus (x : WordCtx) (w : W128) : Nat :=
  if w = 0 then 0
  else
    match decodeWord w with
    | .error _ => errWord
    | .ok d => if d.wfError.isSome then errWord else contextStatus x d

/-! ### The file (R100 to R113) -/

/-- n bytes of a file at an offset, as a number. -/
def fieldAt (b : List Byte) (off n : Nat) : Nat := natLE ((b.drop off).take n)

structure Sec where
  ty   : Nat
  off  : Nat
  size : Nat
  cnt  : Nat
  deriving DecidableEq, Repr

/-- An element record (R103): its offset in the body, the bytes before its words, and the words of TMASK. -/
structure ElemRec where
  off   : Nat
  hdr   : List Byte
  words : List (Nat × W128)
  deriving DecidableEq, Repr

/-- A DATA or ZERO record (R110): its offset in the body, its header and its bytes. -/
structure DataRec where
  off : Nat
  hdr : List Byte
  bs  : List Byte
  deriving DecidableEq, Repr

/-- A parsed image; the records of fixed size stay bytes. -/
structure Image where
  shw   : Nat
  shh   : Nat
  flags : Nat
  secK  : Nat
  hash  : BitVec 512
  elems : List ElemRec
  rout  : List (List Byte)
  chan  : List (List Byte)
  port  : List (List Byte)
  tsr   : List (List Byte)
  intg  : List (List Byte)
  data  : List DataRec
  zero  : List DataRec
  relo  : List (List Byte)
  /-- The bytes HASH covers, HASH itself as zero (R113). -/
  body  : List Byte
  sign  : Option (List Byte)
  deriving DecidableEq, Repr

/-- Field of a record. -/
def rf (r : List Byte) (off n : Nat) : Nat := fieldAt r off n

/-- Record n of fixed size. -/
def fixedRecs (b : List Byte) (size : Nat) : Nat → List (List Byte)
  | 0 => []
  | n + 1 => b.take size :: fixedRecs (b.drop size) size n

/-- The set bits of TMASK, ascending. -/
def maskBits (m : Nat) : List Nat := (List.range 32).filter m.testBit

/-- Element records, if they fill the body exactly. -/
def elemRecs : Nat → Nat → List Byte → Option (List ElemRec)
  | 0, _, b => if b.isEmpty then some [] else none
  | n + 1, off, b =>
    let ks := maskBits (fieldAt b 8 4)
    let size := 0x30 + 16 * ks.length
    if b.length < size then none
    else
      let ws := (List.range ks.length).map fun i => (ks.getD i 0, BitVec.ofNat 128 (fieldAt b (0x30 + 16 * i) 16))
      (elemRecs n (off + size) (b.drop size)).map (⟨off, b.take 0x30, ws⟩ :: ·)

/-- DATA records, each padded to a multiple of 4 with zeros; a ZERO record is its header alone. -/
def dataRecs (zero : Bool) : Nat → Nat → List Byte → Option (List DataRec)
  | 0, _, b => if b.isEmpty then some [] else none
  | n + 1, off, b =>
    let len := if zero then 0 else fieldAt b 8 4
    let size := 12 + (len + 3) / 4 * 4
    if b.length < size then none
    else
      let r : DataRec := ⟨off, b.take 12, (b.drop 12).take len⟩
      if ((b.take size).drop (12 + len)).all (· == 0) then (dataRecs zero n (off + size) (b.drop size)).map (r :: ·) else none

/-- Sizes of the records of fixed size, by section type. -/
def recSize : Nat → Nat
  | 2 => 16 | 3 => 12 | 4 => 32 | 5 => 16 | 6 => 16 | 8 => 12 | 9 => 16 | _ => 0

/-- The body of a section. -/
def secBody (b : List Byte) (ss : List Sec) (ty : Nat) : List Byte :=
  match ss.find? fun s => s.ty == ty with | some s => (b.drop s.off).take s.size | none => []

def secCnt (ss : List Sec) (ty : Nat) : Nat := ((ss.find? fun s => s.ty == ty).map Sec.cnt).getD 0

/-- Whether the section table obeys R100, R102 and R103. -/
def sectionsOk (fsize : Nat) (stoff nsec : Nat) (ss : List Sec) : Bool :=
  ss.all (fun s => 1 ≤ s.ty && s.ty ≤ 11 && s.off % 16 == 0 && 128 ≤ s.off && s.off + s.size ≤ fsize &&
      (s.off + s.size ≤ stoff || stoff + 16 * nsec ≤ s.off) &&
      (recSize s.ty == 0 || s.size == recSize s.ty * s.cnt) && (s.ty != 11 || s.off + s.size == fsize)) &&
    ss.all (fun a => (ss.filter fun b => b.ty == a.ty).length == 1 && ss.all fun b => !(a.ty < b.ty) || a.off + a.size ≤ b.off) &&
    ss.any (fun s => s.ty == 1)

/-- MAGIC, HSZ and VER of a header (R117). -/
def magicOk (h : List Byte) : Bool := fieldAt h 0 4 == 0x00494E51 && fieldAt h 6 2 == 0x80 && fieldAt h 4 2 == 0x0100

/-- Step 1 of R116: header, section table, record counts and sizes. A header field outside its range reports LAYOUT: the spec names no code
for it (log 114, DESIGN CHOICE). -/
def parseImage (b : List Byte) : Except Nat Image :=
  let u := fieldAt b
  let fsize := u 0x14 4
  let flags := u 0x0A 2
  let nsec := u 0x0C 2
  let stoff := u 0x10 4
  let ss := (List.range nsec).map fun i =>
    (⟨u (stoff + 16 * i) 2, u (stoff + 16 * i + 4) 4, u (stoff + 16 * i + 8) 4, u (stoff + 16 * i + 12) 4⟩ : Sec)
  let pads := (List.range nsec).all fun i => u (stoff + 16 * i + 2) 2 == 0
  if !magicOk b then .error errMagic
  else if b.length < 128 || u 8 1 < 1 || u 8 1 > 16 || u 9 1 < 1 || u 9 1 > 16 || flags ≥ 8 || nsec < 1 || nsec > 11 || u 0x0E 2 != 0 ||
      stoff < 128 || stoff + 16 * nsec > fsize || fsize != b.length || u 0x18 1 < 4 || u 0x18 1 > 24 || u 0x19 7 != 0 ||
      !pads || !sectionsOk fsize stoff nsec ss || flags.testBit 1 != (ss.any fun s => s.ty == 11) then .error errLayout
  else
    match elemRecs (secCnt ss 1) 0 (secBody b ss 1), dataRecs false (secCnt ss 7) 0 (secBody b ss 7),
        dataRecs true (secCnt ss 8) 0 (secBody b ss 8) with
    | some es, some ds, some zs =>
      let sign := if flags.testBit 1 then some (secBody b ss 11) else none
      let hashed := b.take (fsize - ((sign.map List.length).getD 0))
      let fixed := fun ty => fixedRecs (secBody b ss ty) (recSize ty) (secCnt ss ty)
      .ok { shw := u 8 1, shh := u 9 1, flags := flags, secK := u 0x18 1, hash := BitVec.ofNat 512 (u 0x40 64), elems := es,
            rout := fixed 2, chan := fixed 3, port := fixed 4, tsr := fixed 5, intg := fixed 6, data := ds, zero := zs,
            relo := fixed 9, body := hashed.take 0x40 ++ List.replicate 64 0 ++ hashed.drop 0x80, sign := sign }
    | _, _, _ => .error errLayout

/-! ### Records (step 6 of R116) -/

/-- Region-relative number of a core or element of a record: 16·y + x, and 64 times that plus EXY. -/
def relCore (x y : Nat) : Nat := 16 * y + x
def relElem (x y exy : Nat) : Nat := 64 * relCore x y + exy % 64

/-- X, Y and EXY that begin a record, as a number. -/
def recElem (r : List Byte) : Nat := relElem (rf r 0 1) (rf r 1 1) (rf r 2 1)
def recCore (r : List Byte) : Nat := relCore (rf r 0 1) (rf r 1 1)

/-- Whether a core of a record lies in the region. -/
def Image.inside (im : Image) (x y : Nat) : Bool := x < im.shw && y < im.shh

/-- The order (y, x, ey, ex) of element records. -/
def elemOrder (r : List Byte) : Nat := ((rf r 1 1 * 256 + rf r 0 1) * 8 + rf r 2 1 % 8) * 8 + rf r 2 1 / 8 % 8

/-- BMODE of an element, one quarter. -/
def ElemRec.qmode (r : ElemRec) (q : Nat) : Nat := rf r.hdr 4 1 / 4 ^ q % 4

/-- A port record is indirect when BASE and STRIDE are 0 and BASE is not relocated (R263). -/
def Image.portIndirect (im : Image) (i : Nat) (r : List Byte) : Bool :=
  rf r 8 4 == 0 && rf r 0x10 8 == 0 && !(im.relo.any fun k => rf k 0 1 == 1 && rf k 4 4 == 32 * i + 0x10)

/-- Ports of a core: number, indirect, out. -/
def Image.portsOf (im : Image) (core : Nat) : List (Nat × Bool × Bool) :=
  (im.port.zipIdx.filter fun r => recCore r.1 == core).map fun r => (rf r.1 2 1, im.portIndirect r.2 r.1, rf r.1 3 1 == 1)

/-- Labels with a route record in an element. -/
def Image.labelsOf (im : Image) (elem : Nat) : List Nat := (im.rout.filter fun r => recElem r == elem).map fun r => rf r 3 1

/-- What feeds the queues of an element: route records and in ports, each with whether it is of the control plane; an indirect in port
delivers on the data plane (R263). -/
def Image.feedsOf (im : Image) (elem : Nat) : List (Nat × Bool) :=
  (im.rout.filter fun r => rf r 4 1 == 0 && relElem (rf r 5 1) (rf r 6 1) (rf r 7 1) == elem).map (fun r => (rf r 8 1, decide (32 ≤ rf r 3 1))) ++
    (im.port.zipIdx.filter fun r => rf r.1 3 1 == 0 && 64 * recCore r.1 + rf r.1 4 1 == elem).map fun r =>
      (rf r.1 5 1, rf r.1 0xC 1 == 1 && !im.portIndirect r.2 r.1)

/-- The first breach of an element record, its words last; rows are those the launch may configure (R387). -/
def Image.elemCode (im : Image) (rows : Nat × Nat) (r : ElemRec) : Option Nat :=
  let h := r.hdr
  let y := 8 * rf h 1 1 + rf h 2 1 % 8
  let places := (List.range 16).all fun k =>
    let c := rf h (0x10 + 2 * k) 1
    1 ≤ c && c ≤ 15 && rf h (0x11 + 2 * k) 1 ≤ c
  let e := recElem h
  let ctx : WordCtx :=
    ⟨rf h 3 1 % 2 == 1, rf h 3 1 / 2 % 2 == 1, im.labelsOf e, im.portsOf (recCore h), ctlQueues (im.feedsOf e), datQueues (im.feedsOf e)⟩
  (firstCode [
    (im.inside (rf h 0 1) (rf h 1 1) && rows.1 ≤ y && y < rows.2, errShape),
    (rf h 2 1 < 64 && rf h 3 1 < 4 && rf h 5 3 == 0 && rf h 0xC 4 == 0, errLayout),
    (places, errPlace)]).or
    (r.words.findSome? fun w => if wordStatus ctx w.2 = 0 then none else some (wordStatus ctx w.2))

/-- The first breach of a route record (R94, R105, R122). -/
def Image.routCode (im : Image) (rows : Nat × Nat) (r : List Byte) : Option Nat :=
  let row := fun y exy => 8 * y + exy % 8
  let dk := rf r 4 1
  let inRows := dk == 1 || (rows.1 ≤ row (rf r 6 1) (rf r 7 1) && row (rf r 6 1) (rf r 7 1) < rows.2)
  let port := (im.portsOf (relCore (rf r 5 1) (rf r 6 1))).find? fun p => p.1 == rf r 7 1
  firstCode [
    (im.inside (rf r 0 1) (rf r 1 1) && rf r 2 1 < 64, errRoute),
    (rf r 3 1 < 96, errRoute),
    (dk ≤ 1 && im.inside (rf r 5 1) (rf r 6 1) && inRows, errRoute),
    (dk == 0 || (match port with | some p => p.2.2 | none => false), errPort),
    (if dk == 0 then rf r 7 1 < 64 && rf r 8 1 < 32 else rf r 8 1 == 0, errRoute),
    (rf r 9 1 < 16 && (if rf r 9 1 / 8 == 1 then rf r 0xA 1 < 32 else rf r 0xA 1 == 0) && rf r 0xB 5 == 0, errRoute),
    ((im.rout.filter fun k => recElem k == recElem r && rf k 3 1 == rf r 3 1).length == 1, errRoute)]

/-- The first breach of a channel record (R106, R129). -/
def Image.chanCode (im : Image) (r : List Byte) : Option Nat :=
  let mine := im.chan.filter fun k => recElem k == recElem r
  firstCode [
    (im.inside (rf r 0 1) (rf r 1 1) && rf r 2 1 < 64 && rf r 3 1 < 32 && rf r 4 1 ≤ 11 && rf r 5 1 < 8 && rf r 5 1 / 2 ≤ 2 &&
      rf r 6 2 == 0, errChan),
    ((mine.filter fun k => rf k 3 1 == rf r 3 1).length == 1, errChan),
    ((mine.map fun k => rf k 5 1 / 2 % 4).sum ≤ 48, errChan)]

/-- The first breach of a port record (R107). -/
def Image.portCode (im : Image) (r : List Byte) : Option Nat :=
  let out := rf r 3 1 == 1
  let x := rf r 7 1
  firstCode [
    (im.inside (rf r 0 1) (rf r 1 1) && rf r 2 1 < 8 && rf r 3 1 ≤ 1, errPort),
    (if out then rf r 4 1 == 0 && rf r 5 1 == 0 else rf r 4 1 < 64 && rf r 5 1 < 32, errPort),
    (rf r 6 1 ≤ 13, errPort),
    (x == 0xFF || im.tsr.any fun t => rf t 0 1 == x, errPort),
    (if out then rf r 0xC 1 == 0 else rf r 0xC 1 ≤ 1, errPort),
    (rf r 0xD 3 == 0 && rf r 0x18 8 == 0, errPort),
    ((im.port.filter fun k => recCore k == recCore r && rf k 2 1 == rf r 2 1).length == 1, errPort)]

/-- Whether a field of the TSR body is relocated. -/
def Image.relocated (im : Image) (kind tgt : Nat) : Bool := im.relo.any fun k => rf k 0 1 == kind && rf k 4 4 == tgt

/-- The first breach of a shape record (R108). -/
def Image.tsrCode (im : Image) (i : Nat) (r : List Byte) : Option Nat :=
  firstCode [
    (rf r 0 1 ≤ 63 && rf r 1 3 == 0, errPort),
    (rf r 4 4 != 0 || im.relocated 3 (16 * i + 4), errPort),
    (rf r 8 4 != 0 || im.relocated 3 (16 * i + 8), errPort),
    (rf r 0xC 4 == 0, errPort),
    ((im.tsr.filter fun k => rf k 0 1 == rf r 0 1).length == 1, errPort)]

/-- DX and DY0 to DY3 of a patch entry. -/
def patchSources (p : Nat) : List Nat := [bitsOf p 44 10, bitsOf p 33 10, bitsOf p 22 10, bitsOf p 11 10, bitsOf p 0 10]

/-- Domains of the enabled cells of a core that read a feed (R290). -/
def Image.feedDoms (im : Image) (core feed : Nat) : List Nat :=
  ((im.intg.filter fun k =>
      rf k 0 1 == 1 && relCore (rf k 1 1) (rf k 2 1) == core && rf k 8 8 / 2 ^ 63 == 1 && (patchSources (rf k 8 8)).contains feed).map
    fun k => bitsOf (rf k 8 8) 60 3).eraseDups

/-- The first breach of an integrator record (R99, R109, R288, R290). -/
def Image.intgCode (im : Image) (r : List Byte) : Option Nat :=
  let core := relCore (rf r 1 1) (rf r 2 1)
  let same := fun (k : List Byte) => rf k 0 1 == rf r 0 1 && relCore (rf k 1 1) (rf k 2 1) == core
  let here := im.inside (rf r 1 1) (rf r 2 1)
  if rf r 0 1 = 1 then
    let p := rf r 8 8
    firstCode [
      (here && 8 ≤ rf r 3 1 && rf r 3 1 ≤ 31 && rf r 4 2 < 512 && rf r 6 2 == 0, errIntg),
      (bitsOf p 55 5 ≤ 24 && (patchSources p).all fun x => x ≤ 535 || x == 1023, errIntg),
      ((im.intg.filter fun k => same k && rf k 4 2 == rf r 4 2).length == 1, errIntg),
      ((List.range 16).all fun f => (im.feedDoms core (520 + f)).length ≤ 1, errIntg)]
  else
    firstCode [
      (rf r 0 1 == 2 && here && rf r 3 1 < 8 && rf r 4 2 != 0 && rf r 6 1 < 64 && rf r 7 1 < 16 &&
        im.inside (rf r 0xC 1) (rf r 0xD 1) && rf r 0xE 2 == 0, errIntg),
      ((im.intg.filter fun k => same k && rf k 3 1 == rf r 3 1).length == 1, errIntg)]

/-- Bank range of a DATA or ZERO record. -/
def DataRec.range (zero : Bool) (r : DataRec) : Nat × Nat := (rf r.hdr 4 4, if zero then rf r.hdr 8 4 else r.bs.length)

/-- Ranges of one element in the sections DATA and ZERO. -/
def Image.rangesOf (im : Image) (elem : Nat) : List (Nat × Nat) :=
  (im.data.filter fun r => recElem r.hdr == elem).map (DataRec.range false) ++
    (im.zero.filter fun r => recElem r.hdr == elem).map (DataRec.range true)

/-- Whether a range touches only SCR quarters (R98). -/
def Image.scrOnly (im : Image) (elem : Nat) (r : Nat × Nat) : Bool :=
  match im.elems.find? fun k => recElem k.hdr == elem with
  | none => true
  | some k => (List.range 4).all fun q => k.qmode q == 0 || r.2 == 0 || r.1 + r.2 ≤ 16384 * q || 16384 * (q + 1) ≤ r.1

/-- The first breach of a DATA or ZERO record (R98, R110). An empty range strictly inside another one overlaps it (log 129, DESIGN
CHOICE). -/
def Image.dataCode (im : Image) (zero : Bool) (r : DataRec) : Option Nat :=
  let e := recElem r.hdr
  let g := r.range zero
  firstCode [
    (im.inside (rf r.hdr 0 1) (rf r.hdr 1 1) && rf r.hdr 2 1 < 64 && rf r.hdr 3 1 == 0, errData),
    (g.1 + g.2 ≤ 65536 && im.scrOnly e g, errData),
    (((im.rangesOf e).filter fun o => g.1 < o.1 + o.2 && o.1 < g.1 + g.2).length ≤ 1, errData)]

/-- The first breach of a relocation record (R111). -/
def Image.reloCode (im : Image) (r : List Byte) : Option Nat :=
  let kind := rf r 0 1
  let tgt := rf r 4 4
  let wide := kind == 1 || kind == 2 || kind == 4
  let fits :=
    match kind with
    | 1 => rf r 1 1 == 4 && tgt % 32 == 0x10 && tgt / 32 < im.port.length
    | 2 => rf r 1 1 == 1 && (match im.elems.find? fun k => k.off == tgt with | some k => k.qmode (rf r 2 1) != 0 | none => false)
    | 3 => rf r 1 1 == 5 && (tgt % 16 == 4 || tgt % 16 == 8) && tgt / 16 < im.tsr.length
    | 4 | 5 => rf r 1 1 == 7 && im.data.any fun d => d.off + 12 ≤ tgt && tgt + (if wide then 8 else 4) ≤ d.off + 12 + d.bs.length
    | _ => false
  firstCode [
    (1 ≤ kind && kind ≤ 5 && (if kind == 2 then rf r 2 1 < 4 else rf r 2 1 == 0) && rf r 3 1 == 0, errRelo),
    (fits, errRelo),
    (rf r 8 4 % (if wide then 8 else 4) == 0, errRelo)]

/-- A quarter that is not SCR takes its base from a relocation (R93, R111). One without fails with RELO after all records: the spec names
neither a code nor a place in the order (log 114, DESIGN CHOICE). -/
def Image.basesOk (im : Image) : Bool :=
  im.elems.all fun k => (List.range 4).all fun q =>
    k.qmode q == 0 || im.relo.any fun r => rf r 0 1 == 2 && rf r 2 1 == q && rf r 4 4 == k.off

/-- Step 6 of R116: the first breach in the order of sections, records, fields and words. -/
def Image.step6 (im : Image) (rows : Nat × Nat) : Option Nat :=
  let key := fun (r : ElemRec) => elemOrder r.hdr
  (im.elems.zipIdx.findSome? fun r =>
    let rising : Bool := match im.elems[r.2 - 1]? with | some p => r.2 == 0 || decide (key p < key r.1) | none => true
    bif rising then im.elemCode rows r.1 else some errLayout).or <|
      (im.rout.findSome? (im.routCode rows)).or <| (im.chan.findSome? im.chanCode).or <| (im.port.findSome? im.portCode).or <|
        (im.tsr.zipIdx.findSome? fun r => im.tsrCode r.2 r.1).or <| (im.intg.findSome? im.intgCode).or <|
          (im.data.findSome? (im.dataCode false)).or <| (im.zero.findSome? (im.dataCode true)).or <|
            (im.relo.findSome? im.reloCode).or (if im.basesOk then none else some errRelo)

/-- Whether an image holds a privileged operation (R77). -/
def Image.privContent (im : Image) : Bool :=
  im.elems.any fun r => r.words.any fun w => match decodeWord w.2 with | .ok d => privilegedWord d | .error _ => false

/-- Step 4 of R116: a signature is verified where one is present, and required under PRIV or on a signed-only queue (R113). -/
def Image.signOk (im : Image) (signedOnly : Bool) : Bool :=
  match im.sign with
  | none => !(signedOnly || im.flags.testBit 0)
  | some b =>
    b.length == 0x20 + 4627 && fieldAt b 0x10 4 == 4627 && fieldAt b 0x14 12 == 0 &&
      Config.signatureOk (b.take 16) (b.drop 0x20) im.hash

/-- Steps 2 to 6 of R116: 0, or the code of the first failure. -/
def Image.check (im : Image) (shw shh : Nat) (signedOnly privQueue : Bool) (rows : Nat × Nat) : Nat :=
  (firstCode [
    (im.shw == shw && im.shh == shh, errShape),
    (Config.sha3 im.body == im.hash, errHash),
    (im.signOk signedOnly, errSign),
    (if im.flags.testBit 0 then privQueue else !im.privContent, errPriv)]).or (im.step6 rows) |>.getD 0

/-! ### Binding (R111, R114, R179) -/

/-- What a launch start binds. -/
structure Bound where
  /-- Region core, port number and the port. -/
  ports : List (Nat × Nat × Port)
  tsr   : List (Nat × Nat × Nat)
  /-- Region element, quarter, base and device address. -/
  qs    : List (Nat × Nat × W64 × W64)
  /-- Region element, bank address and bytes. -/
  data  : List (Nat × Nat × List Byte)
  deriving DecidableEq, Repr

/-- The exact sum of a relocation, if its word can be read (R111, R114). -/
def State.relocSum (s : State) (p : Nat) (rec : LaunchRec) (r : List Byte) : Option Int :=
  let kind := rf r 0 1
  let n := if kind == 1 || kind == 2 || kind == 4 then 8 else 4
  let off := rf r 8 4
  if off + n > rec.pbsz then none
  else
    match s.ownRead p (rec.pb.toNat + off) n .record with
    | .ok bs => some ((natLE bs : Nat) + sxInt (rf r 0xC 4) 32)
    | .error _ => none

/-- The sum for a field, or its stored value where it is not relocated. Of two relocation records of one field the first binds, and of two
of the same DATA bytes the last is written last (log 129, DESIGN CHOICE). -/
def State.boundField (s : State) (p : Nat) (rec : LaunchRec) (im : Image) (kind tgt stored : Nat) : Option Int :=
  match im.relo.find? fun k => rf k 0 1 == kind && rf k 4 4 == tgt with
  | some r => s.relocSum p rec r
  | none => some stored

/-- A port of a record, with its base bound (R107, R511); an indirect in port delivers on the data plane whatever its PPL (R263). -/
def Image.mkPort (im : Image) (i : Nat) (r : List Byte) (base : W64) : Port :=
  { out := rf r 3 1 == 1, exy := rf r 4 1, vc := rf r 5 1, ty := (tyOfCode (BitVec.ofNat 4 (rf r 6 1))).getD .s32,
    ctl := rf r 0xC 1 == 1 && !im.portIndirect i r, imgBase := base, imgStride := BitVec.ofNat 32 (rf r 8 4), imgTsrx := rf r 7 1, base := base,
    stride := BitVec.ofNat 32 (rf r 8 4), tsrx := rf r 7 1, ind := im.portIndirect i r, reg := 0, wbase := base,
    wstride := BitVec.ofNat 32 (rf r 8 4), wtsrx := rf r 7 1, open_ := false, bySopen := false,
    discard := false, auto := true, wcnt := 0, wfst := 0, disc := 0, cursor := 0, next := 0, ahead := [], due := [], waitq := [],
    heldq := [], held := false, cut := 0, full := 0, sectN := 0, count := 0, cmd := none, tailed := false }

/-- Binds a list, or fails whole. -/
def bindAll {α β : Type} (f : α → Option β) : List α → Option (List β)
  | [] => some []
  | x :: xs => match f x, bindAll f xs with | some y, some ys => some (y :: ys) | _, _ => none

/-- Binds the bases of MAP, RNG and WGT quarters of an image placed at a core, each translated for its own core; none may lie in a range
that is bound to an RNG quarter (R179, R194). -/
def State.bindQuarters (s : State) (p : Nat) (rec : LaunchRec) (im : Image) (x0 y0 : Nat) :
    List (ElemRec × Nat) → List (Nat × Nat) → Option (List (Nat × Nat × W64 × W64))
  | [], _ => some []
  | (k, q) :: rest, rng =>
    let r := im.relo.find? fun r => rf r 0 1 == 2 && rf r 2 1 == q && rf r 4 4 == k.off
    match r.bind (s.relocSum p rec) with
    | none => none
    | some sum =>
      let base := BitVec.ofInt 64 sum
      let c := recElem k.hdr / 64
      match s.resolve (coreAt (x0 + c % 16) (y0 + c / 16)) p base.toNat .quarter with
      | .ok l =>
        if base.toNat % 16384 != 0 || (SMap.find (l.addr / 128) s.lent).isSome || rng.any (fun g => g.1 == l.addr) then none
        else
          (s.bindQuarters p rec im x0 y0 rest (if k.qmode q == 2 then (l.addr, 0) :: rng else rng)).map
            ((recElem k.hdr, q, base, BitVec.ofNat 64 l.addr) :: ·)
      | _ => none

/-- Whether the host has still to translate the base of a quarter for its PASID (R194). -/
def State.quartersWait (s : State) (p : Nat) (rec : LaunchRec) (im : Image) (x0 y0 : Nat) : Bool :=
  im.elems.any fun k => (List.range 4).any fun q =>
    k.qmode q != 0 &&
      match (im.relo.find? fun r => rf r 0 1 == 2 && rf r 2 1 == q && rf r 4 4 == k.off).bind (s.relocSum p rec) with
      | none => false
      | some sum =>
        let c := recElem k.hdr / 64
        s.resolve (coreAt (x0 + c % 16) (y0 + c / 16)) p (BitVec.ofInt 64 sum).toNat .quarter == .miss

/-- DATA bytes with relocations of kinds 4 and 5 (R111). -/
def State.bindData (s : State) (p : Nat) (rec : LaunchRec) (im : Image) (d : DataRec) : Option (Nat × Nat × List Byte) :=
  let mine := im.relo.filter fun r => (rf r 0 1 == 4 || rf r 0 1 == 5) && d.off + 12 ≤ rf r 4 4 && rf r 4 4 < d.off + 12 + d.bs.length
  match bindAll (fun r => (s.relocSum p rec r).map fun v => (r, v)) mine with
  | none => none
  | some vs =>
    let put := fun (bs : List Byte) (rv : List Byte × Int) =>
      let n := if rf rv.1 0 1 == 4 then 8 else 4
      let o := rf rv.1 4 4 - d.off - 12
      bs.take o ++ bytesLE n (rv.2 % (2 ^ (8 * n) : Int)).toNat ++ bs.drop (o + n)
    some (recElem d.hdr, rf d.hdr 4 4, vs.foldl put d.bs)

/-- Binds an image for a launch: kinds 4 and 5 at a cold placement only (R114). -/
def State.bindImage (s : State) (p : Nat) (rec : LaunchRec) (im : Image) (x0 y0 : Nat) (cold : Bool) : Option Bound :=
  let ports := bindAll (fun (r : List Byte × Nat) =>
    (s.boundField p rec im 1 (32 * r.2 + 0x10) (rf r.1 0x10 8)).map fun v =>
      (recCore r.1, rf r.1 2 1, im.mkPort r.2 r.1 (BitVec.ofInt 64 v))) im.port.zipIdx
  let side := fun i off (r : List Byte) =>
    match s.boundField p rec im 3 (16 * i + off) (rf r off 4) with
    | some v => if 1 ≤ v && v < 2 ^ 32 then some v.toNat else none
    | none => none
  let tsr := bindAll (fun (r : List Byte × Nat) =>
    match side r.2 4 r.1, side r.2 8 r.1 with | some c, some w => some (rf r.1 0 1, c, w) | _, _ => none) im.tsr.zipIdx
  let qs := s.bindQuarters p rec im x0 y0 ((im.elems.flatMap fun k => (List.range 4).map fun q => (k, q)).filter fun x => x.1.qmode x.2 != 0) []
  let data := if cold then bindAll (s.bindData p rec im) im.data else some []
  match ports, tsr, qs, data with
  | some a, some b, some c, some d => some ⟨a, b, c, d⟩
  | _, _, _, _ => none

/-! ### Elements and cores of a placement -/

/-- The element, and core, of a region by region-relative number. -/
def Region.absCore (r : Region) (k : Nat) : Nat := coreAt (r.x0 + k % 16) (r.y0 + k / 16)
def Region.absElem (r : Region) (k : Nat) : Nat := r.absCore (k / 64) * 64 + k % 64
def Region.relElem (r : Region) (e : Nat) : Nat := Machine.relElem (r.coreX (coreOf e)) (r.coreY (coreOf e)) (e % 64)

/-- A quarter mode by code (R103). -/
def qmodeOf : Nat → QMode
  | 0 => .scr | 1 => .map | 2 => .rng | _ => .wgt

/-- The record of an element. -/
def Image.elemRec (im : Image) (k : Nat) : Option ElemRec := im.elems.find? fun r => recElem r.hdr == k

/-- Initial place counts of an element (R92, R95, R104). -/
def Image.initOf (im : Image) (k : Nat) : Vector (BitVec 4) 16 :=
  match im.elemRec k with
  | none => Vector.replicate 16 0
  | some r => Vector.ofFn fun i => BitVec.ofNat 4 (rf r.hdr (0x11 + 2 * i.val) 1)

/-- A route entry of its record. -/
def mkRoute (r : List Byte) : Route :=
  ⟨rf r 4 1 == 1, rf r 5 1, rf r 6 1, rf r 7 1, rf r 8 1, rf r 9 1 % 2 == 1, rf r 9 1 / 2 % 4,
    if rf r 9 1 / 8 % 2 = 1 then some (rf r 0xA 1) else none⟩

/-- A channel entry of its record. -/
def mkChan (r : List Byte) : Chan :=
  ⟨(tyOfCode (BitVec.ofNat 4 (rf r 4 1))).getD .n32, rf r 5 1 % 2 == 1, rf r 5 1 / 2 % 4, BitVec.ofNat 32 (rf r 8 4)⟩

/-- What a cold placement streams to an element: words, places, routes, channels, modes, and a bank cleared and filled from DATA
(R98, R104, R116). Records of other sections for an element without an ELEM record are applied to it all the same (log 129, DESIGN
CHOICE). -/
def Image.coldElem (im : Image) (elid k : Nat) (data : List (Nat × Nat × List Byte)) : Elem :=
  let b := Elem.reset elid
  let routes := (im.rout.filter fun r => recElem r == k).foldl (fun m r => SMap.set (rf r 3 1) (mkRoute r) m) []
  let chans := (im.chan.filter fun r => recElem r == k).foldl (fun m r => vset m (rf r 3 1) (mkChan r)) b.chans
  let bank := (data.filter fun d => d.1 == k).foldl (fun m d => Memory.write m d.2.1 d.2.2) []
  match im.elemRec k with
  | none => { b with routes := routes, chans := chans, bank := bank }
  | some r =>
    { b with
      routes := routes, chans := chans, bank := bank
      pool := r.words.foldl (fun m w => vset m w.1 w.2) b.pool
      cap := Vector.ofFn fun i => BitVec.ofNat 4 (rf r.hdr (0x10 + 2 * i.val) 1)
      bmode := Vector.ofFn fun i => qmodeOf (r.qmode i.val)
      pairMode := rf r.hdr 3 1 % 2 == 1
      sink := rf r.hdr 3 1 / 2 % 2 == 1 }

/-- The launch-start state of R92 over a kept configuration and bank; a unit start keeps counters, chains and section numbers too
(R332). -/
def Elem.restart (x : Elem) (elid : Nat) (init : Vector (BitVec 4) 16) (unit : Bool) : Elem :=
  let b := Elem.reset elid
  let y :=
    { b with
      cnt := init, cap := x.cap, pool := x.pool, routes := x.routes, chans := x.chans, bank := x.bank, bmode := x.bmode,
      qbase := x.qbase, qphys := x.qphys, wgtBase := x.wgtBase, filled := x.filled, dirty := x.dirty, pairMode := x.pairMode,
      sink := x.sink, nseq := x.nseq, injD := x.injD, injC := x.injC }
  if unit then
    { y with
      cseq := x.cseq, pcFire := x.pcFire, pcStall := x.pcStall, pcBeat := x.pcBeat, pcW := x.pcW, accb := x.accb,
      posted := x.posted, shadowN := x.shadowN, markN := x.markN, undo := x.undo }
  else y

/-- A core's integrator array of an image (R109, R296, R306). -/
def Image.arrayOf (im : Image) (core : Nat) : IArray :=
  let mine := im.intg.filter fun r => relCore (rf r 1 1) (rf r 2 1) == core
  mine.foldl (fun a r =>
    if rf r 0 1 = 1 then
      { a with cells := SMap.set (rf r 4 2) { Cell.reset with hd := BitVec.ofNat 5 (rf r 3 1), patch := BitVec.ofNat 64 (rf r 8 8) } a.cells }
    else
      let evt := rf r 7 1 + rf r 6 1 % 8 * 2 ^ 4 + rf r 6 1 / 8 % 8 * 2 ^ 7 + rf r 0xC 1 * 2 ^ 10 + rf r 0xD 1 * 2 ^ 14
      { a with doms := vset a.doms (rf r 3 1) ⟨BitVec.ofNat 32 (rf r 4 2), BitVec.ofNat 32 (rf r 8 4), BitVec.ofNat 32 evt, 0, 0, 0, 0, []⟩ })
    IArray.reset

/-- Clears an element's ZERO ranges (R98). -/
def clearZero (zero : List (Nat × Nat × Nat)) (k : Nat) (x : Elem) : Elem :=
  (zero.filter fun z => z.1 == k).foldl (fun x z => { x with bank := Memory.write x.bank z.2.1 (List.replicate z.2.2 0) }) x

/-- Binds a quarter of an element at launch start: a MAP quarter has nothing filled, an RNG quarter takes its range, and a WGT quarter is
loaded when its base is not the one it holds (R180, R181, R183). -/
def State.startQuarter (s : State) (e q : Nat) (base phys : W64) : State :=
  let s := s.fillTlb (coreOf e) (s.partOf e) base.toNat
  let x := s.elem e
  let x := { x with qbase := vset x.qbase q base, qphys := vset x.qphys q phys }
  let load := fun (x : Elem) => { x with bank := Memory.write x.bank (16384 * q) (s.devRead phys.toNat 16384) }
  match vget x.bmode q .scr with
  | .scr => s.setElem e x
  | .map =>
    s.setElem e { x with filled := x.filled.filter fun g => g.1 / 32 != q, dirty := x.dirty.filter fun o => o / 16384 != q,
                         bank := x.bank.filter fun c => c.1 / 16384 != q }
  | .rng =>
    let s := s.recall phys.toNat 16384
    let s := s.setElem e { load x with filled := (s.elem e).filled, dirty := (s.elem e).dirty }
    { s with lent := (List.range 128).foldl (fun m i => SMap.set (phys.toNat / 128 + i) (e, q) m) s.lent }
  | .wgt =>
    if vget x.wgtBase q none = some base then s.setElem e x
    else s.setElem e { load x with wgtBase := vset x.wgtBase q (some base) }

/-- The core state of a launch start (R92, R184, R306); a unit start keeps what the ports' SPARMs have written (R511). -/
def Core.restart (c : Core) (ports : Vector (Option Port) 8) (arr : IArray) (img : Option (BitVec 512 × Nat × Nat)) : Core :=
  { Core.reset with tlb := c.tlb, ports := ports, arr := arr, img := img }

/-- Places a bound image: a cold placement configures every element of the region, and either kind brings elements and cores to the
launch-start state (R92, R104, R115, R118). Ports of the other launch of a shared rectangle stay (R387). -/
def State.startImage (s : State) (rn : Nat) (r : Region) (im : Image) (b : Bound) (cold : Bool) : State :=
  let s := r.elems.foldl (fun s e =>
    let k := r.relElem e
    let x := if cold then im.coldElem e k b.data else s.elem e
    s.setElem e (clearZero r.zero k (x.restart e (im.initOf k) false))) s
  let s := r.cores.foldl (fun s c =>
    let k := relCore (r.coreX c) (r.coreY c)
    let own := (b.ports.filter fun p => p.1 == k).foldl (fun m p => vset m p.2.1 (some { p.2.2 with reg := rn })) (Vector.replicate 8 none)
    s.modCore c fun x =>
      let img := if cold then some (im.hash, r.coreX c, r.coreY c) else x.img
      r.joinCore rn c x (x.restart own (im.arrayOf k) img)) s
  b.qs.foldl (fun s q => s.startQuarter (r.absElem q.1) q.2.1 q.2.2.1 q.2.2.2) s

/-- Whether a placement is warm (R115). -/
def State.warm (s : State) (r : Region) (hash : BitVec 512) : Bool :=
  r.cores.all fun c => (s.core c).img == some (hash, r.coreX c, r.coreY c)

/-- Reads an image: the header first, then as many bytes as FSIZE says (R101). -/
def State.readImage (s : State) (p : Nat) (img : W64) : Except Nat (List Byte) :=
  match s.ownRead p img.toNat 128 .record with
  | .error _ => .error errMagic
  | .ok h =>
    if !magicOk h then .error errMagic
    else
      match s.ownRead p img.toNat (max 128 (fieldAt h 0x14 4)) .record with
      | .error _ => .error errLayout
      | .ok b => .ok b

end Sys2Proof.Machine
end

