-- ==== Sys2Proof/Machine/SysOps.lean ====
section
/-! DEFINITION. Special registers (R68): RDSR (R496, R497), WRSR (R545 to R547) and TIME (R532, R533); CFGW (R423 to R425); watches: WAITA
(R224, R251, R543, R544) and the step WATCH_MARK. -/

namespace Sys2Proof.Machine

open Sys2Proof

/-! ### Special registers -/

/-- The registers of a partition that a WRSR writes. -/
def Part.specials (p : Part) : List W32 := [p.flts, p.fltTmo, p.qflr, p.pmig]

/-- A register of a partition as a cycle began (R29, R497). -/
def Part.began (p : Part) (cycle i : Nat) : W32 := (if p.before.1 = cycle + 1 then p.before.2 else p.specials).getD i 0

/-- A register of R68, by number, with the element as it stood at some moment. -/
def State.specialReg (s : State) (e : Nat) (x : Elem) (n : Nat) : Nat :=
  let p := s.part (s.partOf e)
  match n with
  | 0x00 => e
  | 0x01 => coreOf e
  | 0x02 => (s.regionOf e).getD 0
  | 0x03 => x.tagr.toNat
  | 0x04 => x.axc.toNat
  | 0x05 => x.axs.toNat
  | 0x06 => x.lfsr.toNat
  | 0x07 => p.flts.toNat
  | 0x08 => p.fltTmo.toNat
  | 0x09 => p.qflr.toNat
  | 0x0A => p.pmig.toNat
  | 0x0B => x.pcFire.toNat
  | 0x0C => x.pcStall.toNat
  | 0x0D => x.pcBeat.toNat
  | _ => 0

/-- Whether a register of R68 is 64 bits wide. -/
def wideReg (n : Nat) : Bool := 0x0B ≤ n

/-- A register of R68 as RDSR reads it: as its issue cycle began (R497). -/
def State.readSpecial (s : State) (e : Nat) (x : Elem) (n : Nat) : Nat :=
  if 0x07 ≤ n && n ≤ 0x0A then ((s.part (s.partOf e)).began s.cycle (n - 7)).toNat else s.specialReg e x n

/-- RDSR reads at the start of its issue cycle and completes a cycle later (R497). -/
def execRdsr (t : TU) (o : FmtE) (s : State) : Step1 :=
  .next (s.fire (.rdsr t o) t fun f s =>
    let v := s.readSpecial f.e f.x o.imm.toNat
    let (s, k) := s.takeSlot f (.rdsr t o) 0 0 0 flNone 0
    s.performed f.e k (word512 v))

/-- A multi-cycle operation that needs nothing outside its element, or only its completion: it is performed when it is tried. -/
def performNow (e k : Nat) (s : State) : State := s.trySlot e k noBad fun _ => s.performed e k 0

/-- A field written zero is cleared, and keeps its value otherwise (R546). -/
def clearField (old v lo width : Nat) : Nat := if bitsOf v lo width = 0 then 0 else bitsOf old lo width * 2 ^ lo

/-- FLTS and QFLR as a write leaves them (R374, R347, R546). -/
def fltsWritten (old v : Nat) : W32 := BitVec.ofNat 32 (clearField old v 0 12 + clearField old v 12 12 + clearField old v 24 8)
def qflrWritten (old v : Nat) : W32 := BitVec.ofNat 32 (clearField old v 16 16 + clearField old v 0 1)

/-- A WRSR of a register of the partition (R547). -/
def Part.writeSpecial (p : Part) (n v : Nat) : Part :=
  match n with
  | 0x07 => { p with flts := fltsWritten p.flts.toNat v }
  | 0x08 => { p with fltTmo := if v = 0 then 1 else BitVec.ofNat 32 v }
  | 0x09 => { p with qflr := qflrWritten p.qflr.toNat v }
  | 0x0A => { p with pmig := BitVec.ofNat 32 v }
  | _ => p

/-- The operand of a WRSR: an s register or pair, a control-plane head, or zero (R545). -/
def wrsrOperand (f : Firing) (o : FmtE) (s : State) : Nat :=
  if wideReg o.imm.toNat then pairOf f.x o.a else (s.read f.e f.x .n32 false 0 o.a).1.headD 0

def execWrsr (t : TU) (o : FmtE) (s : State) : Step1 :=
  .next (s.fire (.wrsr t o) t fun f s => cmdIssue (.wrsr t o) (word512 (wrsrOperand f o s)) 0 0 noBad performNow f s)

/-- The effect of a completing command: its value, as D and token, under a condition. -/
def State.wordEffect (s : State) (e k : Nat) (y : Slot) (d : Dst) (wide : Bool) (v : Nat) (cond : Bool) (spec : List (Nat × W64)) :
    Effect :=
  let t := slotTU y
  let r : Res := ⟨if wide then .s64 else .n32, false, [v % (if wide then 2 ^ 64 else 2 ^ 32)], flNone⟩
  let q := resEffect t (some k) y.seq d (tagOf t y.tagq (s.view e)) cond r
  { q with fl := y.fl, spec := spec }

/-- WRSR completes once its token has room: it swaps the register, as it then stands, with its operand (R34, R546). -/
def State.finishWrsr (s : State) (e k : Nat) (o : FmtE) : State :=
  match s.slot e k with
  | none => s
  | some y =>
    let n := o.imm.toNat
    let x := s.elem e
    let old := s.specialReg e x n
    let v := y.opa.toNat
    let own := n ≤ 0x06 || 0x0B ≤ n
    let ef := s.wordEffect e k y o.d (wideReg n) old (old != 0) (if own then [(n, BitVec.ofNat 64 v)] else [])
    if x.bufferRoom ef.toks && !x.behind ef.seq ef.toks then
      let s := s.completeWith e ef
      if own then s
      else s.modPart (s.partOf e) fun p =>
        { p.writeSpecial n v with before := if p.before.1 = s.cycle + 1 then p.before else (s.cycle + 1, p.specials) }
    else s.completeWith e ef

/-! ### TIME -/

/-- T of a partition one cycle on, 10/19 ns (R391): whole nanoseconds and nineteenths. -/
def Part.tick (p : Part) : Part :=
  if !p.en || p.pause then p
  else if p.frac + 10 < 19 then { p with frac := p.frac + 10 }
  else { p with frac := p.frac + 10 - 19, tNow := p.tNow + 1 }

def execTime (t : TU) (o : FmtE) (s : State) : Step1 :=
  .next (s.fire (.time t o) t fun f s =>
    let (s, k) := s.takeSlot f (.time t o) 0 0 0 flNone 0
    s.performed f.e k 0)

/-- TIME returns T at the end of the cycle it completes in (R532). -/
def State.finishTime (s : State) (e k : Nat) (o : FmtE) : State :=
  match s.slot e k with
  | none => s
  | some y =>
    let v := (s.part (s.partOf e)).tick.tNow.toNat
    s.completeWith e (s.wordEffect e k y o.d true v (v != 0) [])

/-! ### CFGW -/

/-- The target a CFGW names, in a region, if it is one of its elements, and the transition index (R423). -/
def cfgwTarget (r : Region) (b : Nat) : Option (Nat × Nat) :=
  let tx := bitsOf b 11 4
  let ty := bitsOf b 15 4
  let e := coreAt (r.x0 + tx) (r.y0 + ty) * 64 + bitsOf b 8 3 * 8 + bitsOf b 5 3
  if b < 2 ^ 19 && tx < r.w && ty < r.h && r.hasElem e then some (e, b % 32) else none

/-- What feeds the queues of a placed element. -/
def State.feedsOf (s : State) (e : Nat) : List (Nat × Bool) :=
  match s.regOf e with
  | none => []
  | some r =>
    (r.elems.flatMap fun g => (s.elem g).routes.filterMap fun t =>
      match routeDest r t.2 with | .queue h q => if h = e then some (q, decide (32 ≤ t.1)) else none | .port _ _ => none) ++
    r.cores.flatMap fun c => (List.range 8).filterMap fun k =>
      match s.port c k with | some p => if !p.out && c * 64 + p.exy == e then some (p.vc, p.ctl) else none | none => none

/-- What a word is checked against in a placed element (R424). -/
def State.wordCtx (s : State) (e : Nat) : WordCtx :=
  let x := s.elem e
  let ports := (List.range 8).filterMap fun k => (s.port (coreOf e) k).map fun p => (k, p.ind, p.out)
  ⟨x.pairMode, x.sink, x.routes.map Prod.fst, ports, ctlQueues (s.feedsOf e), datQueues (s.feedsOf e)⟩

def isCfgw : Instr → Bool
  | .cfgw _ _ => true
  | _ => false

def execCfgw (t : TU) (o : FmtE) (s : State) : Step1 :=
  .next (s.fire (.cfgw t o) t fun f s =>
    cmdIssue (.cfgw t o) (groupOf f.x o.a) (word512 (wordOf f.x o.b)) 0 noBad performNow f s)

/-- The code a CFGW returns for a word: where all it breaks is that a vector result is on a label of class 1 or 2, R424 names ROUTE for what the
loader rejects with WORD (R78, R123; log 136). -/
def cfgwStatus (x : WordCtx) (w : W128) : Nat :=
  match if w = 0 then none else (decodeWord w).toOption with
  | none => wordStatus x w
  | some d =>
    if d.wfError = some .labelClass && (labelsNamed d).all (fun l => Wf.labelClass l < 3) && contextStatus x d != errWord then errRoute
    else wordStatus x w

/-- CFGW completes when its target has answered and its token has room: a good word is written and governs from the next cycle; CFGWs of
one element take effect in issue order (R34, R35, R424). -/
def State.finishCfgw (s : State) (e k : Nat) (o : FmtE) : State :=
  match s.slot e k, s.regOf e with
  | some y, some r =>
    let w : W128 := BitVec.ofNat 128 y.opa.toNat
    let older := (s.elem e).slots.toList.any fun z => match z with | some z => z.seq < y.seq && isCfgw z.ins | none => false
    if older then s
    else
      match cfgwTarget r y.opb.toNat with
      | none => s.completeWith e (s.wordEffect e k y o.d false errShape true [])
      | some (g, i) =>
        let st := cfgwStatus (s.wordCtx g) w
        let ef := s.wordEffect e k y o.d false st (st != 0) []
        let now := (s.elem e).bufferRoom ef.toks && !(s.elem e).behind ef.seq ef.toks
        let s := if st = 0 && now then (s.modElem g fun x => { x with pool := vset x.pool i w }).changed (coreOf g) else s
        s.completeWith e ef
  | _, _ => s

/-! ### Watches -/

/-- ALN of a watch (R216). -/
def waitaBad (y : Slot) : Option (Nat × Nat) := if y.opa.toNat % 4 ≠ 0 then some (0x05, y.opa.toNat) else none

/-- Arms a watch in a free slot and tests its word at once; a line in a filled MAP granule is recalled first (R224, R544). -/
def performWaita (o : FmtE) (e k : Nat) (s : State) : State :=
  s.trySlot e k waitaBad fun y =>
    let a := y.opa.toNat
    s.elemAccess e k a 4 .watch fun ls s =>
      match ls, (List.range 4).find? fun i => (vget (s.elem e).watch i none).isNone with
      | (l, _) :: _, some i =>
        let pa := l.at a 0
        let s := s.recall pa 4
        let w : Watch := ⟨a, pa, l.ptype == 3, BitVec.ofNat 32 y.opb.toNat, o.imm.toNat.testBit 4, o.imm.toNat % 16, none⟩
        let s := s.modElem e fun x => { x with watch := vset x.watch i (some w) }
        (s.testElem pa 4 e).performed e k (word512 i)
      | _, _ => s

def execWaita (t : TU) (o : FmtE) (s : State) : Step1 :=
  .next (s.fire (.waita t o) t fun f s =>
    cmdIssue (.waita t o) (word512 (pairOf f.x o.a)) (word512 (wordOf f.x o.b)) 0 waitaBad (performWaita o) f s)

/-- WAITA completes with its watch slot; its condition is true (R543). -/
def State.finishWaita (s : State) (e k : Nat) (o : FmtE) : State :=
  match s.slot e k with
  | none => s
  | some y => s.completeWith e (s.wordEffect e k y o.d false y.lres.toNat true [])

/-- A watch is due: satisfied in an earlier cycle, its place with room (R224). -/
def State.watchDue (s : State) (e w : Nat) : Option Watch :=
  match vget (s.elem e).watch w none with
  | some a => (match a.due with | some d => if d ≤ s.cycle && s.roomFor e a.place then some a else none | none => none)
  | none => none

/-- Marks the place of a satisfied watch and frees its slot (R224). -/
def State.watchMark1 (s : State) (e w : Nat) : State :=
  match s.watchDue e w with
  | none => s
  | some a => if s.runs e then s.setElem e { (s.elem e).mark a.place with watch := vset (s.elem e).watch w none } else s

def execWatchMark (e w : Nat) (s : State) : Step1 := .next (s.watchMark1 e w)

end Sys2Proof.Machine
end

