-- ==== Sys2Proof/Machine/SchedOps.lean ====
section
/-! DEFINITION. Launch queues (R324 to R327), units and their arming (R331, R333), RPULL (R336, R507), LNCH (R335, R460), FRZ (R443, R444), the
save pool (R354), and the step SPARSE_UPDATE (R217, R218). -/

namespace Sys2Proof.Machine

open Sys2Proof

/-! ### Queues -/

def Part.queue (p : Part) (q : Nat) : LQueue := SMap.get LQueue.reset q p.queues
def State.queue (s : State) (p q : Nat) : LQueue := (s.part p).queue q
def State.setQueue (s : State) (p q : Nat) (x : LQueue) : State := s.modPart p fun y => { y with queues := SMap.set q x y.queues }

/-- Fields of QCTL (R326). -/
def LQueue.en (q : LQueue) : Bool := q.ctl.getLsbD 31
def LQueue.sgn (q : LQueue) : Bool := q.ctl.getLsbD 30
def LQueue.prv (q : LQueue) : Bool := q.ctl.getLsbD 29
def LQueue.dev (q : LQueue) : Bool := q.ctl.getLsbD 28
def LQueue.vec (q : LQueue) : Nat := bitsOf q.ctl.toNat 16 8
def LQueue.pri (q : LQueue) : Nat := bitsOf q.ctl.toNat 0 5

/-- Entries waiting, and whether the ring is full (R324). -/
def LQueue.used (q : LQueue) : Nat := (q.tail - q.head).toNat
def LQueue.full (q : LQueue) : Bool := q.used == 2 ^ q.rsz

/-- Address of entry i (R324). -/
def LQueue.entryAddr (q : LQueue) (i : W32) : Nat := (q.ring.toNat + 8 * (i.toNat % 2 ^ q.rsz)) % 2 ^ 64

/-! ### Units (R331) -/

def LaunchRec.unitBase (l : LaunchRec) (j : Nat) : W64 := l.rbase + BitVec.ofNat 64 (j * l.grain)
def LaunchRec.unitCount (l : LaunchRec) (j : Nat) : Nat := min l.grain (l.rcnt - j * l.grain)

/-- A port at a unit start: any open window closes without EOS, and the unit window opens under AUTO (R511). An indirect port has no
window, and the command it serves goes on (R263, R337). -/
def Port.arm (p : Port) (base : W64) (n cutN : Nat) : Port :=
  let p := { p with sectN := if p.out then p.sectN else cutN }
  if p.ind then p
  else
    let p := { p with open_ := false, bySopen := false, ahead := [], due := [] }
    if p.auto then p.openWindow base n false else p

/-- Arms unit j in every element and port of a region in one cycle; SINK counts and reports start again (R332, R336, R337). -/
def State.armUnit (s : State) (rn j : Nat) : State :=
  match s.region rn with
  | none => s
  | some r =>
    let base := r.launch.unitBase j
    let n := r.launch.unitCount j
    let s := s.setRegion rn { r with unit := j, ixBase := base, ixCnt := n, unitDone := false, unitRel := false, ccu := false }
    r.cores.foldl (fun s c =>
      s.modCore c fun k =>
        let own := fun n => r.hasElem (c * 64 + n % 8 * 8 + n / 8)
        { k with
          sinks := k.sinks.filter fun x => !own x.1, rep := k.rep.filter fun n => !own n
          ports := k.ports.map fun p => p.map fun p => if p.reg = rn then p.arm base n r.cutN else p }) s

/-! ### RPULL (R336, R507) -/

/-- RPULL reaches the booking office and asks for its forced cut (R336, R369). -/
def performRpull (e k : Nat) (s : State) : State :=
  s.trySlot e k noBad fun y =>
    if y.cut != 0 then s
    else
      match s.regionOf e with
      | some rn => (s.slotCut e k y).modRegion rn fun r => { r with pulls := r.pulls ++ [(e, k)] }
      | none => s

/-- Serves the RPULLs that their cut has released, in the order they came: each waits for the current unit, then arms the pool's next one in
one cycle or returns 0 (R336, R350). -/
def State.servePulls (s : State) (rn : Nat) : List (Nat × Nat) → State
  | [] => s
  | (e, k) :: rest =>
    match s.region rn, s.slot e k with
    | some r, some y =>
      let out := fun (s : State) => s.modRegion rn fun r => { r with pulls := r.pulls.erase (e, k) }
      let waits := match y.ins with | .rpull _ _ => y.stage = 0 && !y.held | _ => false
      if !waits then (out s).servePulls rn rest
      else if y.cut != 2 || !r.unitDone then s.servePulls rn rest
      else
        match r.pool with
        | none => ((out s).performed e k 0).servePulls rn rest
        | some p =>
          if p.next ≥ r.launch.units then
            ((((out s).modRegion rn fun r => { r with poolDone := true }).performed e k 0).askSecond (some rn)).servePulls rn rest
          else
            let s := ((out s).modRegion rn fun r => { r with pool := some { p with next := p.next + 1 } }).armUnit rn p.next
            ((s.performed e k (word512 (r.launch.unitCount p.next))).askSecond (some rn)).servePulls rn rest
    | _, _ => s.servePulls rn rest

def execRpull (t : TU) (o : FmtE) (s : State) : Step1 :=
  .next (s.fire (.rpull t o) t (cmdIssue (.rpull t o) 0 0 0 noBad performRpull))

/-! ### LNCH (R335, R460) -/

/-- Writes an entry at TAIL and advances it: what LNCH and an append do once the ring's page is resolved. -/
def State.pushEntry (s : State) (p q : Nat) (ls : List (Loc × Nat)) (rec : Nat) : State :=
  let x := s.queue p q
  (s.writeRun .device (x.entryAddr x.tail) ls (bytesLE 8 rec)).setQueue p q { x with tail := x.tail + 1 }

/-- LNCH follows every earlier memory operation of its element and a forced cut, and writes its entry if the queue takes it. -/
def performLnch (e k : Nat) (s : State) : State :=
  s.trySlot e k noBad fun y =>
    if y.cut != 2 then (if y.cut = 0 then s.slotCut e k y else s)
    else
      let p := s.partOf e
      let qn := y.opb.toNat % 64
      let q := s.queue p qn
      if !(q.en && q.dev && !q.full) then (s.performed e k 0).askSecond (s.regionOf e)
      else
        s.elemAccess e k (q.entryAddr q.tail) 8 .ring fun ls s =>
          ((s.pushEntry p qn ls (y.opa.toNat % 2 ^ 64)).performed e k 1).askSecond (s.regionOf e)

def execLnch (t : TU) (o : FmtE) (s : State) : Step1 :=
  .next (s.fire (.lnch t o) t fun f s =>
    cmdIssue (.lnch t o) (word512 (pairOf f.x o.a)) (word512 (wordOf f.x o.b)) 0 noBad performLnch f s)

/-! ### The save pool (R354) -/

/-- Bytes of a region's save area, the engine area as it stands, with room for every token on its links (R355, R358). -/
def State.saveBytes (s : State) (rn : Nat) (r : Region) : Nat :=
  let cs := r.w * r.h
  let cmds := (s.engines.map fun g => (g.2.qs.toList.map fun q => (q.filter fun t => t.reg == rn).length).sum).sum
  let pcs := (s.pchans.filter fun p => p.2.holder == some rn).length
  0x1000 + cs * 0x50000 + 64 * cs * 0x12000 + 64 * cmds + 12352 * pcs + 64 * r.rects.length +
    88 * ((s.flight.filter fun f => s.destReg f.dst == some rn).map fun f => f.toks.length).sum

/-- A list in an order, equal entries as they stood. -/
def insertBy {α : Type} (le : α → α → Bool) (x : α) : List α → List α
  | [] => [x]
  | y :: ys => if le x y then x :: y :: ys else y :: insertBy le x ys
def sortBy {α : Type} (le : α → α → Bool) (xs : List α) : List α := xs.foldr (insertBy le) []

def unitsOf (n : Nat) : Nat := (n + 65535) / 65536

/-- First-fit over the pool's 64 KiB units. -/
def Part.saveFit (p : Part) (n : Nat) : Option Nat :=
  let free := fun a => p.saves.all fun x => a + n ≤ x.1 || x.1 + x.2 ≤ a
  (sortBy (fun a b => a ≤ b) (0 :: p.saves.map fun x => x.1 + x.2)).find? fun a => free a && a + n ≤ p.svs.toNat / 65536

/-- Takes a save area for a region, if the pool has room. -/
def State.takeSave (s : State) (rn : Nat) : Option State :=
  match s.region rn with
  | none => none
  | some r =>
    if r.save.isSome then some s
    else
      let n := unitsOf (s.saveBytes rn r)
      ((s.part r.part).saveFit n).map fun a =>
        (s.modPart r.part fun p => { p with saves := (a, n) :: p.saves }).modRegion rn fun r => { r with save := some a }

/-- Frees a region's save area (R354). -/
def State.freeSave (s : State) (rn : Nat) : State :=
  match s.region rn with
  | none => s
  | some r =>
    match r.save with
    | none => s
    | some a => (s.modPart r.part fun p => { p with saves := p.saves.filter fun x => x.1 != a }).modRegion rn fun r => { r with save := none, saveAt := none }

/-! ### FRZ (R443, R444) -/

/-- The region a FRZ names: its own, or a placed region of the partition by REGN. -/
def State.frzTarget (s : State) (e : Nat) (o : FmtE) (y : Slot) : Option Nat :=
  if o.imm.toNat.testBit 0 then s.regionOf e
  else
    let n := y.opa.toNat % 2 ^ 32
    match s.region n with
    | some r => if r.placed && r.phase != .stopped && r.phase != .closed && r.part == s.partOf e then some n else none
    | none => none

/-- FRZ asks the region's signal box for a freeze, which takes its save area at once (R354): D is 0 if there is nothing to freeze or no room to
save it. -/
def performFrz (o : FmtE) (e k : Nat) (s : State) : State :=
  s.trySlot e k noBad fun y =>
    match s.frzTarget e o y with
    | none => s.performed e k 0
    | some n =>
      match s.takeSave n with
      | none => s.performed e k 0
      | some s => (s.setSlot e k { y with stage := 1 }).modRegion n fun r => { r with frz := r.frz ++ [(e, k)] }

def execFrz (t : TU) (o : FmtE) (s : State) : Step1 :=
  .next (s.fire (.frz t o) t fun f s => cmdIssue (.frz t o) (word512 (wordOf f.x o.a)) 0 0 noBad (performFrz o) f s)

/-! ### SPARSE_UPDATE (R217, R218) -/

/-- Whether an update is placed on its chain: every ATOM and CAS with CHN ≠ 0, and a RED written .ord. -/
def onChain (y : Slot) : Bool := y.chn != 0

/-- Whether an update is the next of its chain: none earlier waits in the unit, and none sits in a siding. -/
def State.chainFirst (s : State) (n e : Nat) (y : Slot) : Bool :=
  !onChain y || !((s.updates.take n ++ s.sided).any fun u => u.1 == e && u.2.chn == y.chn)

/-- Whether an update stands in the window of 32 of its home slice's unit; one that a commit performs needs none (R217, R367). -/
def State.inWindow (s : State) (n : Nat) (y : Slot) : Bool :=
  y.full == 2 || ((s.updates.take n).filter fun u => u.2.sub == y.sub).length < 32

/-- Two REDs that use one of add, min and max, and are on no chain, may become one if they meet (R217). -/
def mergeable (a b : Slot) : Bool :=
  match a.ins, b.ins with
  | .red _ o, .red _ o' => a.chn = 0 && b.chn = 0 && o.mod == o'.mod && o.ty == o'.ty && [0, 1, 2, 7].contains (o.mod.toNat % 8)
  | _, _ => false

/-- The location of an update in device memory, as it translates now. -/
def State.updatePlace (s : State) (e : Nat) (y : Slot) : Option Nat :=
  match updateFmt y with
  | none => none
  | some o =>
    match s.resolve (coreOf e) (s.partOf e) (eaOf o y) .store with
    | .ok l => if l.space = .dev then some (l.at (eaOf o y) 0) else none
    | _ => none

/-- The other REDs of the window that may be merged with the n-th update, by index: to its location, of whatever region (R217), and waiting
for the same cut. -/
def State.merges (s : State) (n e : Nat) (y : Slot) : List Nat :=
  (List.range s.updates.length).filter fun i =>
    i != n &&
      match s.updates[i]? with
      | some (d, z) =>
        s.inWindow i z && z.cut == y.cut && z.full == y.full && mergeable y z && (s.updatePlace e y).isSome && s.updatePlace d z == s.updatePlace e y
      | none => false

/-- The lines of a merged update are held for each of its writers (R367). -/
def State.holdAll (s : State) (us : List (Nat × Slot)) (ls : List (Loc × Nat)) : State :=
  us.foldl (fun s u =>
    ls.foldl (fun s x =>
      if x.1.ptype = 3 || u.2.full = 2 then s else (linesOf x.1.addr x.2).foldl (State.holdLine · (s.writer u.1) ·) s) s) s

/-- Operands become one operand: two of them, in either order, become one until one is left; the numbers choose (R175, R217). -/
def mergeTree (op : Nat → Nat → Nat) : List Nat → List Nat → Nat
  | [], vs => vs.headD 0
  | c :: cs, vs =>
    if vs.length < 2 then vs.headD 0
    else
      let rest := vs.eraseIdx (c % vs.length)
      let j := c / 2 ^ 16 % rest.length
      mergeTree op cs (op (vs.getD (c % vs.length) 0) (rest.getD j 0) :: rest.eraseIdx j)

/-- The slot of an update that returns a value is answered (R215). -/
def State.answerUpdate (s : State) (e : Nat) (y : Slot) (old : Nat) : State :=
  match y.ins with
  | .red _ _ => s
  | _ =>
    match (List.range 8).find? fun k => match s.slot e k with | some z => z.seq == y.seq && z.stage == 1 | none => false with
    | some k => s.performed e k (BitVec.ofNat 512 old)
    | none => s

/-- The fault of an update token on its way to the siding, or in it (R218, R373). -/
def State.sideFault (s : State) (e : Nat) (y : Slot) (code : Nat) : FaultSrc :=
  { s.slotFault e 0 y code (match updateFmt y with | some o => eaOf o y | none => 0) with src := 5 }

/-- Sided tokens that are applied: their faults have not recurred (R371). -/
def State.applied (s : State) (us : List (Nat × Slot)) : State :=
  us.foldl (fun s u => match u.2.side with | some f => s.transient ((s.regionOf u.1).getD 0) f | none => s) s

/-- Performs the n-th update of the unit, merged with what the unit chooses (a free value), or diverts it to the siding of its port: when
its row is under repair, or its page has gone (R217, R218). -/
def State.sparseUpdate1 (s : State) (n : Nat) (repair : Bool) : State :=
  match s.updates[n]? with
  | none => s
  | some (e, y) =>
    if !s.chainFirst n e y || !s.inWindow n y then s
    else
      match updateFmt y with
      | none => s
      | some o =>
        let side := fun (code : Nat) =>
          let f := s.faultRec (s.sideFault e y code)
          if s.sidingFull y then s else { s with updates := s.updates.eraseIdx n, sided := s.sided ++ [(e, { y with side := some f })] }
        let a := eaOf o y
        let m := tyBytes o.ty
        if repair then side 0x17
        else
          match s.resolveRun (coreOf e) (s.partOf e) a m .store with
          | .ok ls =>
            let w := s.writer e
            if s.runFull w ls && y.full != 2 then
              ({ s with updates := s.updates.set n (e, { y with full := 1 }) }).askCut w.reg
            else
              let all := s.merges n e y
              let with_ := all.filter fun i => (Config.freeWord s.free).toNat.testBit i
              let us := (n :: with_).filterMap fun i => s.updates[i]?
              let vs := us.map fun u => u.2.opb.toNat
              let v := if with_.isEmpty then y.opb
                else BitVec.ofNat 512 (mergeTree (fun a b => (updateOp (o.mod.toNat % 8) o.ty .rne false a b).1)
                  ((List.range vs.length).map fun i => (Config.freeWord (s.free + 1 + i)).toNat) vs)
              let s := if all.isEmpty then s else { s with free := s.free + 1 + vs.length }
              let (t, old) := (if with_.isEmpty then s else s.holdAll us ls).updateAt e { y with opb := v } a m ls
              let rest := if with_.isEmpty then t.updates.eraseIdx n
                else (t.updates.zipIdx.filter fun u => u.2 != n && !with_.contains u.2).map Prod.fst
              (({ t with updates := rest }).answerUpdate e y old).applied us
          | .fault c _ => side c
          | .miss _ => side 0x02

def execSparseUpdate (n : Nat) (repair : Bool) (s : State) : Step1 := .next (s.sparseUpdate1 n repair)

end Sys2Proof.Machine
end

