-- ==== Sys2Proof/Machine/Perform.lean ====
section
/-! DEFINITION. Performing what a slot holds, completing it, and the steps FIRING_COMPLETION (R30, R31), OUTPUT_BUFFER_ENTRY (R34) and
ENGINE_QUEUE_ENTRY (R220, R234). -/

namespace Sys2Proof.Machine

open Sys2Proof

/-! ### Performing the operation of a slot -/

/-- Lanes of the multi-cycle operations of format A. -/
def aluLane (i : Instr) (m : BitVec 4) (x : Axc) (ty : Ty) (a b : Nat) : LaneRes × Bool :=
  match i with
  | .div _ _ => laneDiv x ty m a b
  | .rcp _ _ => (laneRcp x ty m a, false)
  | .rsq _ _ => (laneRsq x ty m a, false)
  | .sqrt _ _ => (laneSqrt x ty m a, false)
  | .exp2 _ _ => (laneExp2 x ty m a, false)
  | .log2 _ _ => (laneLog2 x ty m a, false)
  | _ => ((0, flNone), false)

/-- The format of a multi-cycle operation of format A. -/
def aluFmt : Instr → Option FmtA
  | .div _ o | .rcp _ o | .rsq _ o | .sqrt _ o | .exp2 _ o | .log2 _ o => some o
  | _ => none

/-- Memory operations and bank operations. -/
def attemptM (i : Instr) (e k : Nat) (s : State) : State :=
  match i with
  | .bld _ o => performBld o e k s
  | .bst _ o => performBst o e k s
  | .bldx _ o => performBldx o e k s
  | .bstx _ o => performBstx o e k s
  | .brmw _ o => performBrmw o e k s
  | .bcas _ o => performBcas o e k s
  | .ld _ o => performLd o e k s
  | .st _ o => performSt o e k s
  | .ldo _ o => performLdo o e k s
  | .ldw _ o => performLdw o e k s
  | .stw _ o => performStw o e k s
  | .atom _ o => performUpdate o e k s
  | .red _ o => performRed o e k s
  | .cas _ o => performUpdate o e k s
  | .fence _ _ => performFence e k s
  | .pref _ o => performPref o e k s
  | .inv _ _ => performInv e k s
  | _ => s

/-- Commands of engines. -/
def attemptEng (i : Instr) (e k : Nat) (s : State) : State :=
  match i with
  | .gath _ o => performInd o e k s
  | .scat _ o => performInd o e k s
  | .cpy _ o => performCopyCmd o (noteBad o) e k s
  | .fill _ o => performCopyCmd o (fillBad o) e k s
  | .note _ o => performCopyCmd o noteCmdBad e k s
  | .qfen _ o => performQfen o e k s
  | .rcopy _ o => performRow o true e k s
  | .rzero _ o => performRow o false e k s
  | .stash _ o => performStash o false .stashWrite e k s
  | .unstash _ o => performStash o (stashMem o) .stashRead e k s
  | .coll _ o => performColl o e k s
  | .pimabEnter _ o => performMac o false e k s
  | .pimabLeave _ o => performMac o false e k s
  | .pimld _ o => performMac o false e k s
  | .pimmac _ o => performMac o true e k s
  | .pimrd _ o => performMac o false e k s
  | _ => s

/-- Every other command. -/
def attemptCmd (i : Instr) (e k : Nat) (s : State) : State :=
  match i with
  | .sopen _ o => performSopen o e k s
  | .sparm _ o => performSparm o e k s
  | .sclose _ o => performSclose o e k s
  | .srec _ o => performSrec o e k s
  | .rfen _ o => performRfen o e k s
  | .bari _ o => performBari o e k s
  | .bara _ o => performBara o e k s
  | .barw _ o => performBarw o e k s
  | .bart _ o => performBart o e k s
  | .barq _ o => performBarq o e k s
  | .mxmodeEnter _ _ => performMxEnter false e k s
  | .mxmodeEnterSplit _ _ => performMxEnter true e k s
  | .mxmodeLeave _ _ => performMxLeave e k s
  | .mxwld _ o => performMxwld o e k s
  | .mxc _ _ => performMxc e k s
  | .mxacc _ o => performMxacc o e k s
  | .waita _ o => performWaita o e k s
  | .wrsr _ _ | .cfgw _ _ => performNow e k s
  | .frz _ o => performFrz o e k s
  | .rpull _ _ => performRpull e k s
  | .lnch _ _ => performLnch e k s
  | i => if isIntOp i then performInt e k s else s

/-- Tries the operation of a slot again: what a unit does when it comes to it. -/
def State.attempt (s : State) (e k : Nat) : State :=
  match s.slot e k with
  | none => s
  | some y =>
    match layoutOf y.ins with
    | .m _ _ _ => attemptM y.ins e k s
    | _ => if (engineOf y.ins).isSome then attemptEng y.ins e k s else attemptCmd y.ins e k s

/-! ### Completing -/

/-- Completes the firing of a slot whose operation has been performed (R31, R37). -/
def State.finishFiring (s : State) (e k : Nat) (y : Slot) : State :=
  match y.ins with
  | .bld _ o | .ld _ o | .ldo _ o | .brmw _ o => s.finishLoad e k o.ty o.d (y.wide || Dst.isV o.d)
  | .bldx _ o => s.finishLoad e k o.ty o.d (bldxVec o y)
  | .bcas _ o | .ldw _ o | .atom _ o | .cas _ o => s.finishLoad e k o.ty o.d false
  | .bst _ _ | .bstx _ _ | .st _ _ | .stw _ _ | .red _ _ | .fence _ _ | .pref _ _ | .inv _ _ => s.finishNone e k
  | .barw _ o => s.finishBarw e k o
  | .barq _ o => s.finishWord e k o.d (o.imm.toNat / 32 % 4 == 2)
  | .srec _ o => s.finishWord e k o.d (o.imm.toNat / 8 == 3 || o.imm.toNat / 8 == 4)
  | .istep _ o => s.finishIstep e k o.d
  | .mxc _ o => s.finishMxc e k o.d
  | .rdsr _ o => s.finishWord e k o.d (wideReg o.imm.toNat)
  | .wrsr _ o => s.finishWrsr e k o
  | .time _ o => s.finishTime e k o
  | .cfgw _ o => s.finishCfgw e k o
  | .waita _ o => s.finishWaita e k o
  | i =>
    match aluFmt i, layoutOf i with
    | some o, _ => s.finishAlu e k o (aluLane i o.mod)
    | none, .e _ _ o => s.finishWord e k o.d false
    | none, _ => s

/-- Whether a slot's firing may complete now: it has been performed, or its own rule says whether, and it is its turn. -/
def State.mayFinish (s : State) (e k : Nat) (y : Slot) : Bool :=
  (y.stage == 3 || (aluFmt y.ins).isSome || (match y.ins with | .barw _ _ | .istep _ _ | .mxc _ _ => true | _ => false)) && s.inTurn e k y

def execFiringCompletion (e k : Nat) (s : State) : Step1 :=
  .next (match s.slot e k with
    | some y => if s.mayFinish e k y then s.finishFiring e k y else s
    | none => s)

/-- The effect that waits for the output buffer, of slot k, or with k = 8 of a firing without a slot. -/
def Elem.waitingOf (x : Elem) (k : Nat) : Option Effect := x.waiting.find? fun w => w.slot == (if k < 8 then some k else none)

/-- Whether an effect finds room in the output buffer now, in issue order among the completions of the cycle (R32, R34). -/
def State.mayEnter (s : State) (e : Nat) (f : Effect) : Bool :=
  let x := s.elem e
  x.bufferRoom f.toks && !x.behind f.seq f.toks && !(x.lastDone.1 == s.cycle && f.seq < x.lastDone.2)

/-- A completion that waited enters the output buffer and is applied, in issue order among the completions of the cycle (R32, R34). That
of a slot completes anew: its value and flags are those of the cycle it is applied in (R151, log 22). -/
def State.enterBuffer (s : State) (e k : Nat) : State :=
  let x := s.elem e
  match x.waitingOf k with
  | none => s
  | some f =>
    let f := x.again f
    if s.mayEnter e f then
      let s := s.setElem e { x with waiting := x.waiting.filter fun w => w.seq != f.seq }
      match s.slot e k with
      | some y => s.finishFiring e k y
      | none => s.modElem e fun x => applyAll s.cycle x f
    else s

def execOutputBufferEntry (e k : Nat) (s : State) : Step1 := .next (if s.runs e then s.enterBuffer e k else s)

/-- A command that waits in its firing slot reaches its engine's queue (R220). -/
def execEngineQueueEntry (e k : Nat) (s : State) : Step1 :=
  .next (match s.slot e k with
    | some y => if (engineOf y.ins).isSome && y.stage == 0 && s.runs e then s.attempt e k else s
    | none => s)

/-! ### Serving an engine -/

/-- Serves queue q of an engine: the next chunk, row, block or index of its head. -/
def State.serveEngine (s : State) (g q : Nat) : Step1 :=
  match engineKindOf g with
  | .copy => execCopyChunk g q s
  | .row => execRowTransfer g q s
  | .mac => execBankMacPerform g q s
  | .ind =>
    (match s.headIns g q with
     | some (.scat _ _) => execScatRow g q s
     | _ => execGathRow g q s)
  | .codec =>
    (match s.headIns g q with
     | some (.unstash _ _) => execUnstashChunk g q s
     | _ => execStashChunk g q s)
  | .coll => execCollMatch g q [] s

/-- The next state of a step that has one. -/
def nextOr (o : Step1) (s : State) : State :=
  match o with | .next t => t | _ => s

end Sys2Proof.Machine
end

