-- ==== Sys2Proof/Machine/SaveArea.lean ====
section
/-! DEFINITION. The bytes of a save area (R44 to R46, R226, R287, R355 to R358, R362). -/

namespace Sys2Proof.Machine

open Sys2Proof

/-! ### Laying out fields -/

/-- Fields at rising offsets, zeros between them, up to a size. -/
def layOut (size : Nat) (fs : List (Nat × List Byte)) : List Byte :=
  let bs := fs.foldl (fun acc f => acc ++ List.replicate (f.1 - acc.length) 0 ++ f.2) []
  bs ++ List.replicate (size - bs.length) 0

/-- A number of n bits at a bit position. -/
def fieldBits (lo v : Nat) : Nat := v * 2 ^ lo

/-! ### The marking block (R44 to R46) -/

/-- Sixteen 4-bit counts, p0 lowest. -/
def nibbles (v : Vector (BitVec 4) 16) : Nat := joinLanes 4 (v.toList.map BitVec.toNat)

def SlotSt.code : SlotSt → Nat
  | .held => 0
  | .late => 1
  | .engine => 2

/-- Whether an operation writes no value, so that its steering condition is true from its issue (R37). -/
def writesNone : Instr → Bool
  | .bst _ _ | .bstx _ _ | .st _ _ | .stw _ _ | .red _ _ | .fence _ _ | .pref _ _ | .inv _ _ => true
  | _ => false

/-- Operations whose value, and so their condition, is formed only as they complete (R424, R532, R546). -/
def formedLate : Instr → Bool
  | .time _ _ | .wrsr _ _ | .cfgw _ _ => true
  | _ => false

/-- The steering condition of a slot's firing, where it is known (R37, R45); that of a WAITA is true (R543). -/
def Slot.known (y : Slot) : Option Bool :=
  if writesNone y.ins || (match y.ins with | .waita _ _ => true | _ => false) then some true
  else if y.stage = 3 && !formedLate y.ins then
    let w := match layoutOf y.ins with | .m _ _ o => Ty.width o.ty | _ => 64
    some (y.lres.toNat % 2 ^ w != 0)
  else none

/-- A firing-slot record (R45). -/
def slotBytes (y : Option Slot) : List Byte :=
  match y with
  | none => List.replicate 0x140 0
  | some y =>
    let hdr := fieldBits 63 1 + fieldBits 58 y.tix + fieldBits 56 y.st.code + fieldBits 55 y.known.isSome.toNat +
      fieldBits 54 (y.known.getD false).toNat +
      fieldBits 51 y.chn + (if y.chn = 0 then 0 else y.cseq.toNat)
    layOut 0x140 [
      (0x000, bytesLE 8 hdr), (0x008, bytesLE 8 y.prog), (0x010, bytesLE 16 y.word.toNat), (0x020, bytesLE 64 y.opa.toNat),
      (0x060, bytesLE 64 y.opb.toNat), (0x0A0, bytesLE 64 y.opc.toNat), (0x0E0, bytesLE 64 (if y.st = .late then y.lres.toNat else 0))]

def Kind.code : Kind → Nat
  | .data => 0 | .eor => 1 | .eot => 2 | .eos => 3 | .sect => 4 | .tail => 5 | .mxc => 6 | .cfg => 7

/-- A queue-slot header (R46). -/
def tokenHeader (vc pos : Nat) (t : Token) : Nat :=
  fieldBits 63 1 + fieldBits 58 vc + fieldBits 55 t.kind.code + fieldBits 52 t.tag.toNat + fieldBits 45 pos + fieldBits 44 t.nw.toNat

/-- The tokens of one plane of every queue, with VC and position. R46 gives the 48 and the 64 slots no numbering; the tokens stand in them
from the first on, queue by queue (log 125, DESIGN CHOICE). -/
def planeTokens (x : Elem) (ctl : Bool) : List (Nat × Nat × Token) :=
  (List.range 32).flatMap fun q =>
    ((x.queue q).zipIdx.filter fun t => t.1.ctl == ctl).map fun t => (q, t.2, t.1)

/-- The marking block of an element (R44). -/
def markingBytes (x : Elem) : List Byte :=
  let ds := planeTokens x false
  let cs := planeTokens x true
  let hdrs := fun (ts : List (Nat × Nat × Token)) => ts.flatMap fun t => bytesLE 8 (tokenHeader t.1 t.2.1 t.2.2)
  let slotv := ((List.range 8).map fun k => if (vget x.slots k none).isSome then 2 ^ k else 0).sum
  layOut 0x2000 [
    (0x0000, bytesLE 8 (nibbles x.cnt)), (0x0008, bytesLE 8 (nibbles x.resv)),
    (0x0010, x.lfp.toList.map fun p => BitVec.ofNat 8 p.toNat), (0x0018, bytesLE 8 slotv),
    (0x0020, x.slots.toList.flatMap slotBytes),
    (0x0A20, hdrs ds), (0x0BA0, ds.flatMap fun t => bytesLE 64 t.2.2.pay.toNat),
    (0x17A0, hdrs cs), (0x19A0, cs.flatMap fun t => bytesLE 8 t.2.2.pay.toNat)]

/-! ### The element state block (R356) -/

def QMode.code : QMode → Nat
  | .scr => 0 | .map => 1 | .rng => 2 | .wgt => 3

def routeBytes (r : Option Route) : List Byte :=
  match r with
  | none => List.replicate 8 0
  | some r =>
    let b := fun (n : Nat) => BitVec.ofNat 8 n
    [b r.port.toNat, b r.dx, b r.dy, b r.de, b r.dvc, b (r.pack.toNat + 2 * r.cls + 8 * r.tap.isSome.toNat), b (r.tap.getD 0), b 1]

def chanBytes (c : Chan) : List Byte :=
  bytesLE 1 (codeOfTy c.fmt).toNat ++ bytesLE 1 (c.scOn.toNat + 2 * c.resv) ++ bytesLE 2 0 ++ bytesLE 4 c.scale.toNat

def watchBytes (w : Option Watch) : List Byte :=
  match w with
  | none => List.replicate 16 0
  | some w => bytesLE 8 w.addr ++ bytesLE 4 w.value.toNat ++ bytesLE 4 (fieldBits 31 1 + fieldBits 4 w.ne.toNat + w.place)

/-- An element state block. -/
def elemBytes (x : Elem) : List Byte :=
  let ecfg := x.pairMode.toNat + 2 * x.sink.toNat + 4 * joinLanes 2 (x.bmode.toList.map QMode.code) + fieldBits 10 x.w1Active.toNat +
    fieldBits 11 x.inRect.toNat
  layOut 0x1000 [
    (0x000, x.pool.toList.flatMap fun w => bytesLE 16 w.toNat),
    (0x200, (List.range 128).flatMap fun l => routeBytes (SMap.find l x.routes)),
    (0x600, x.chans.toList.flatMap chanBytes),
    (0x700, x.s.toList.flatMap fun w => bytesLE 4 w.toNat),
    (0x740, bytesLE 4 x.axc.toNat ++ bytesLE 4 x.axs.toNat ++ bytesLE 4 x.tagr.toNat ++ bytesLE 4 x.lfsr.toNat),
    (0x750, x.cseq.toList.flatMap fun w => bytesLE 4 w.toNat),
    (0x770, bytesLE 8 x.pcFire.toNat ++ bytesLE 8 x.pcStall.toNat ++ bytesLE 8 x.pcBeat.toNat),
    (0x788, bytesLE 8 (nibbles x.cap)),
    (0x790, bytesLE 4 ecfg),
    (0x7C0, x.watch.toList.flatMap watchBytes),
    (0x800, x.v.toList.flatMap fun w => bytesLE 64 w.toNat),
    (0xC00, bytesLE 512 x.w0.toNat),
    (0xE00, bytesLE 512 x.w1.toNat)]

/-- A bank image: SCR and RNG quarters whole, the bytes of MAP and WGT quarters zero (R357). -/
def bankBytes (x : Elem) : List Byte :=
  (List.range 4).flatMap fun q =>
    match vget x.bmode q .scr with
    | .scr | .rng => Memory.read x.bank (16384 * q) 16384
    | _ => List.replicate 16384 0

/-- An element record (R357). -/
def recordBytes (x : Elem) : List Byte := markingBytes x ++ bankBytes x

/-! ### The core block (R355) -/

def barBytes (b : Bar) : List Byte :=
  bytesLE 16 (fieldBits 64 b.pend.toNat + fieldBits 48 b.exp.toNat + fieldBits 32 b.arr.toNat + fieldBits 31 b.ph.toNat +
    fieldBits 30 b.arm.toNat)

/-- A port record (R355, R511). -/
def portBytes (p : Option Port) : List Byte :=
  match p with
  | none => List.replicate 0x1000 0
  | some p =>
    let lwm := (p.lwm).getD 0
    let wst := p.open_.toNat + 2 * p.bySopen.toNat + 4 * p.discard.toNat + 8 * p.auto.toNat
    layOut 0x1000 [
      (0x00, bytesLE 8 p.cursor), (0x08, bytesLE 8 lwm), (0x10, bytesLE 8 p.next), (0x18, bytesLE 8 p.base.toNat),
      (0x20, bytesLE 4 p.stride.toNat), (0x24, bytesLE 1 p.tsrx), (0x25, bytesLE 1 wst), (0x28, bytesLE 8 p.wcnt),
      (0x30, bytesLE 4 p.wfst.toNat), (0x34, bytesLE 4 p.disc),
      (0x40, (p.heldq.take 32).flatMap fun t => bytesLE 8 (tokenHeader 0 0 t) ++ bytesLE 64 t.pay.toNat)]

/-- A cell save record (R287). -/
def cellBytes (c : Cell) : List Byte :=
  bytesLE 4 c.yv.toNat ++ bytesLE 4 c.rs.toNat ++ bytesLE 4 c.ev.toNat ++
    bytesLE 4 (fieldBits 10 c.zo.toNat + fieldBits 5 (bitsOf c.patch.toNat 55 5) + c.hd.toNat)

def domBytes (d : Dom) : List Byte :=
  bytesLE 4 d.div.toNat ++ bytesLE 4 d.bud.toNat ++ bytesLE 4 d.evt.toNat ++ bytesLE 4 d.dst.toNat ++ bytesLE 4 d.next ++
    List.replicate 12 0

/-- A tile-buffer record (R355). -/
def tileBytes (pos : Nat) (t : Nat × Nat × Token) : List Byte :=
  bytesLE 8 (tokenHeader t.2.1 (pos % 128) t.2.2 + fieldBits 38 t.1 + fieldBits 37 t.2.2.ctl.toNat) ++ List.replicate 8 0 ++
    bytesLE 64 t.2.2.pay.toNat

/-- A core block; elems gives its elements by number 8·ey + ex. -/
def coreBytes (k : Core) (elems : List Elem) : List Byte :=
  let cell := fun i => SMap.get Cell.reset i k.arr.cells
  let rep := (k.rep.map fun n => 2 ^ n).sum
  let fpd := joinLanes 2 (k.arr.fpd.toList.map BitVec.toNat)
  layOut 0x50000 [
    (0x00000, elems.flatMap elemBytes),
    (0x40000, k.bars.toList.flatMap barBytes),
    (0x40200, (List.range 64).map fun n => BitVec.ofNat 8 (SMap.get 0 n k.sinks)),
    (0x40240, bytesLE 8 rep),
    (0x40400, k.ports.toList.flatMap portBytes),
    (0x48400, (List.range 512).flatMap fun i => cellBytes (cell i)),
    (0x4A400, (List.range 512).flatMap fun i => bytesLE 8 (cell i).patch.toNat),
    (0x4B400, k.arr.doms.toList.flatMap domBytes ++ bytesLE 4 fpd),
    (0x4C000, bytesLE 4 k.tile.length ++ List.replicate 12 0 ++ (k.tile.zipIdx.flatMap fun t => tileBytes t.2 t.1))]

/-! ### The area -/

/-- KIND of a save area (R355): 1 freeze, 2 drain, 3 cut release. -/
def Region.saveKind (r : Region) : Nat := if r.why == .drain then 2 else if r.why == .cutRelease then 3 else 1

/-- The tokens of flights that find no slot, by core, with destination element, VC and token. -/
def homeless (fs : List Flight) (c : Nat) : List (Nat × Nat × Token) :=
  fs.flatMap fun f =>
    match f.dst with
    | .queue e q => if coreOf e = c && f.ready then f.tokens.map fun t => (elemNo e, q, t) else []
    | .port _ _ => []

/-- The tile buffer of a core as a readout finds it: the first 204 tokens that found no slot (R352). -/
def tileOf (fs : List Flight) (c : Nat) : List (Nat × Nat × Token) := (homeless fs c).take 204

/-- Tokens of a captured region that found its tile buffers full, with their cores (R352, R358). -/
def Snap.overflow (n : Snap) (cs : List Nat) : List (Nat × Nat × Nat × Token) :=
  cs.flatMap fun c => ((homeless n.links c).drop 204).map fun t => (c, t)

/-- The X and A state of a pseudo-channel, 12 KiB: X0 to X15 of each bank, then A0 to A3 of each bank (log 26). -/
def pcBytes (p : PChan) : List Byte :=
  ((List.range 16).flatMap fun _ => p.xs.toList.flatMap fun x => bytesLE 32 x.toNat) ++
    (List.range 64).flatMap fun k => bytesLE 64 (SMap.get 0 k p.acc).toNat

/-- The 64 bytes of a record of the engine area: where its fields stand is open (log 26, free value). -/
def record64 (what : Nat) (fields : List Nat) : List Byte := (List.range 64).map fun k => Config.recordByte what fields k

/-- A command's record: engine kind, die and stack, EQ, issuing element and firing slot (R358). -/
def cmdRecord (t : Nat × Nat × Entry) : List Byte := record64 0 [t.1 % 512 / 64, t.1 % 64, t.2.1, t.2.2.elem, t.2.2.slot]

/-- A rectangle's record: the state of R284: MXD, the node's position, the active-register bits, the next vector of its MMA, and the place of
the command in its queue (R358). -/
def rectRecord (r : Region) (n : Snap) (m : Rect) : List Byte :=
  let actives := (List.range (m.w * m.h)).map fun i =>
    (((SMap.find (r.rectElem m (i % m.w) (i / m.w)) n.elems).map Elem.w1Active).getD false).toNat
  record64 2 ([m.mxd.toNat, m.gx, m.gy, joinLanes 1 actives, (m.mma.map Prod.snd).getD 0] ++ (m.mma.map fun x => x.1.toNat).toList ++ [m.mq])

/-- The engine area (R358): one record a command, a pseudo-channel, a rectangle and a token that found no tile buffer. -/
def engBytes (r : Region) (n : Snap) : List Byte :=
  n.cmds.flatMap cmdRecord ++
    (n.pcs.flatMap fun p => record64 1 [p.1 / 64, p.1 % 64] ++ pcBytes p.2) ++
    n.rects.flatMap (rectRecord r n) ++
    ((n.overflow r.cores).zipIdx.flatMap fun t =>
      bytesLE 8 (r.coreY t.1.1 * r.w + r.coreX t.1.1) ++ tileBytes t.2 t.1.2)

/-- Where the engine area begins, and its size. -/
def Region.engOffset (r : Region) : Nat := 0x1000 + r.w * r.h * 0x50000 + 64 * (r.w * r.h) * 0x12000
def Snap.engSize (n : Snap) (r : Region) : Nat :=
  64 * n.cmds.length + 12352 * n.pcs.length + 64 * n.rects.length + 88 * (n.overflow r.cores).length

/-- The region header (R355). -/
def headerBytes (r : Region) (n : Snap) : List Byte :=
  layOut 0x1000 [
    (0x000, bytesLE 4 0x00565351), (0x004, bytesLE 2 0x0100), (0x006, bytesLE 1 r.saveKind), (0x008, bytesLE 1 r.w),
    (0x009, bytesLE 1 r.h), (0x00C, bytesLE 4 r.cutN), (0x010, bytesLE 8 r.launch.addr), (0x018, bytesLE 8 r.unit),
    (0x020, bytesLE 4 r.ixBase.toNat ++ bytesLE 4 r.ixCnt ++ bytesLE 4 r.launch.grain ++ bytesLE 4 r.unit),
    (0x030, bytesLE 4 n.stp.toNat), (0x034, bytesLE 4 r.engOffset), (0x038, bytesLE 4 (n.engSize r)),
    (0x040, bytesLE 64 r.hash.toNat), (0x080, bytesLE 4 (r.ixBase.toNat / 2 ^ 32))]

/-- The pieces of a save area with their offsets: header, core blocks, element records and engine area (R355). A drain writes only the parts
that R362 names, and the pseudo-channels it leaves (R262, log 126). -/
def saveParts (r : Region) (n : Snap) : List (Nat × List Byte) :=
  let core := fun c => SMap.get Core.reset c n.cores
  let elem := fun e => SMap.get (Elem.reset e) e n.elems
  let cs := r.cores.zipIdx
  let es := (r.cores.flatMap fun c => (List.range 64).map fun i => c * 64 + i % 8 * 8 + i / 8).zipIdx
  let blocks := cs.map fun c => (0x1000 + 0x50000 * c.2, coreBytes (core c.1) ((List.range 64).map fun i => elem (c.1 * 64 + i % 8 * 8 + i / 8)))
  let at_ := fun (i : Nat) => 0x1000 + 0x50000 * cs.length + 0x12000 * i
  let whole := blocks ++ es.map (fun e => (at_ e.2, recordBytes (elem e.1))) ++
    [(r.engOffset, engBytes r n)]
  let drained :=
    cs.flatMap (fun c =>
      let o := 0x1000 + 0x50000 * c.2
      let k := core c.1
      ((List.range 64).flatMap fun i =>
        let b := elemBytes (elem (c.1 * 64 + i % 8 * 8 + i / 8))
        [(o + 0x1000 * i + 0x700, (b.drop 0x700).take 0x6C), (o + 0x1000 * i + 0x800, (b.drop 0x800).take 0x400)]) ++
      [(o + 0x40000, k.bars.toList.flatMap barBytes), (o + 0x40200, ((coreBytes k []).drop 0x40200).take 0x48),
       (o + 0x40400, k.ports.toList.flatMap portBytes)]) ++
      es.map (fun e => (at_ e.2, markingBytes (elem e.1))) ++
      [(r.engOffset, engBytes r n)]
  (0, headerBytes r n) :: (if r.why == .drain then drained else whole)

/-- Normal pages hold save areas (R354). -/
def Access.save : Access := ⟨[0], .all, true, false⟩

/-- The part of some pieces that lies in bytes [lo, hi). -/
def clip (lo hi : Nat) (ps : List (Nat × List Byte)) : List (Nat × List Byte) :=
  ps.filterMap fun p =>
    let a := max lo p.1
    let bs := (p.2.drop (a - p.1)).take (hi - a)
    if bs.isEmpty then none else some (a, bs)

/-- Writes the 64 KiB unit of a region's save area that begins at a byte of it (R392); a page that cannot be written takes nothing (log 26). -/
def State.writeUnit (s : State) (r : Region) (n : Snap) (at_ : Nat) : State :=
  match r.save with
  | none => s
  | some a =>
    let base := (s.part r.part).svb.toNat + 65536 * a
    (clip at_ (at_ + 65536) (saveParts r n)).foldl (fun s p => match s.ownWrite r.part (base + p.1) p.2 .save with | .ok t => t | .error _ => s) s

end Sys2Proof.Machine
end

