-- ==== Sys2Proof/Machine/SaveRead.lean ====
section
/-! DEFINITION. A restore's reading of a save area (R44 to R46, R355 to R359): what the area's bytes say replaces what the model kept of the
region, which supplies what no byte of the area holds (log 25). -/

namespace Sys2Proof.Machine

open Sys2Proof

/-- Vectors and bytes of a run of fields. -/
def fieldsAt {n : Nat} (b : List Byte) (off size : Nat) : Vector Nat n := Vector.ofFn fun i => fieldAt b (off + size * i.val) size
def bytesAt (b : List Byte) (off n : Nat) : List Byte := (b.drop off).take n

/-- Sixteen 4-bit counts (R44). -/
def nibblesOf (v : Nat) : Vector (BitVec 4) 16 := Vector.ofFn fun i => BitVec.ofNat 4 (bitsOf v (4 * i.val) 4)

/-! ### Queues from their headers (R46) -/

def kindOfCode (n : Nat) : Kind := [Kind.data, .eor, .eot, .eos, .sect, .tail, .mxc, .cfg].getD n .data

/-- The token of a header and payload, with its queue and position, if the slot holds one. -/
def savedToken (ctl : Bool) (hdr pay : Nat) : Option (Nat × Nat × Token) :=
  if bitsOf hdr 63 1 = 0 then none
  else
    some (bitsOf hdr 58 5, bitsOf hdr 45 7,
      ⟨kindOfCode (bitsOf hdr 55 3), BitVec.ofNat 3 (bitsOf hdr 52 3), ctl, ctl && bitsOf hdr 44 1 == 1, BitVec.ofNat 512 pay, false⟩)

/-- The tokens of a marking block, of both slot arrays. -/
def savedTokens (mk : List Byte) : List (Nat × Nat × Token) :=
  ((List.range 48).filterMap fun i => savedToken false (fieldAt mk (0x0A20 + 8 * i) 8) (fieldAt mk (0x0BA0 + 64 * i) 64)) ++
    (List.range 64).filterMap fun i => savedToken true (fieldAt mk (0x17A0 + 8 * i) 8) (fieldAt mk (0x19A0 + 8 * i) 8)

/-- Rebuilds each queue from the positions of its tokens; each takes a reserved slot while there is one. -/
def Elem.rebuildQueues (x : Elem) (mk : List Byte) : Elem :=
  let ts := savedTokens mk
  let ordered := (List.range 32).flatMap fun q => (List.range 112).flatMap fun p => ts.filter fun t => t.1 == q && t.2.1 == p
  ordered.foldl (fun x t => x.enqueue t.1 { t.2.2 with shr := (x.slotFor t.1 t.2.2).getD false })
    { x with queues := Vector.replicate 32 [] }

/-! ### Firing slots (R45) -/

def slotStOf : Nat → SlotSt
  | 1 => .late | 2 => .engine | _ => .held

/-- The operation of a transition word. -/
def wordInstr (w : W128) : Option Instr :=
  match decodeWord w with | .ok (.single i) => some i | .ok (.pair _ i _) => some i | .error _ => none

/-- A slot of a record, over the slot that was captured there; one whose word is none leaves the slot empty. -/
def savedSlot (b : List Byte) (old : Option Slot) : Option Slot :=
  let h := fieldAt b 0 8
  let w := BitVec.ofNat 128 (fieldAt b 0x10 16)
  if bitsOf h 63 1 = 0 then none
  else
    (wordInstr w).map fun i =>
      let st := slotStOf (bitsOf h 56 2)
      let base : Slot := old.getD
        { tix := 0, word := 0, ins := i, st := st, chn := 0, cseq := 0, prog := 0, opa := 0, opb := 0, opc := 0, lres := 0, seq := 0, tagq := 0
          fl := flNone, wide := false, stage := 0, cut := 0, full := 0, held := false, sub := 0, buf := [], passed := 0, side := none, dec := [] }
      let vec := fun (o : Nat) => BitVec.ofNat 512 (fieldAt b o 64)
      { base with
        tix := bitsOf h 58 5, word := w, ins := if w = base.word then base.ins else i, st := st, chn := bitsOf h 51 3
        cseq := if bitsOf h 51 3 = 0 then base.cseq else BitVec.ofNat 32 (bitsOf h 0 32)
        prog := fieldAt b 0x08 8, opa := vec 0x20, opb := vec 0x60, opc := vec 0xA0, lres := if st = .late then vec 0xE0 else base.lres
        stage := if st = base.st then base.stage else if st = .late then 3 else 0 }

/-- What a marking block says of an element (R44, R47). -/
def Elem.loadMarking (x : Elem) (b : List Byte) : Elem :=
  { x.rebuildQueues b with
    cnt := nibblesOf (fieldAt b 0 8), resv := nibblesOf (fieldAt b 8 8)
    lfp := Vector.ofFn fun i => BitVec.ofNat 5 (fieldAt b (0x10 + i.val) 1)
    slots := Vector.ofFn fun i => savedSlot (bytesAt b (0x20 + 0x140 * i.val) 0x140) (vget x.slots i.val none) }

/-! ### Element state blocks and banks (R356, R357) -/

def savedRoute (b : List Byte) : Option Route :=
  let f := fieldAt b 5 1
  if fieldAt b 7 1 % 2 = 0 then none
  else
    some ⟨fieldAt b 0 1 % 2 == 1, fieldAt b 1 1, fieldAt b 2 1, fieldAt b 3 1, fieldAt b 4 1, f % 2 == 1, f / 2 % 4,
      if f / 8 % 2 = 1 then some (fieldAt b 6 1) else none⟩

def savedChan (b : List Byte) : Chan :=
  ⟨(tyOfCode (BitVec.ofNat 4 (fieldAt b 0 1))).getD .n32, fieldAt b 1 1 % 2 == 1, fieldAt b 1 1 / 2 % 4, BitVec.ofNat 32 (fieldAt b 4 4)⟩

/-- A watch of a record; its word is translated when the element is put back (R224). -/
def savedWatch (b : List Byte) (old : Option Watch) : Option Watch :=
  let k := fieldAt b 0xC 4
  let a := fieldAt b 0 8
  if bitsOf k 31 1 = 0 then none
  else
    let due := match old with | some w => if w.addr = a then w.due else none | none => none
    let at_ := match old with | some w => if w.addr = a then (w.phys, w.raw) else (0, false) | none => (0, false)
    some ⟨a, at_.1, at_.2, BitVec.ofNat 32 (fieldAt b 8 4), bitsOf k 4 1 == 1, bitsOf k 0 4, due⟩

/-- What an element state block says. -/
def Elem.loadState (x : Elem) (b : List Byte) : Elem :=
  let ecfg := fieldAt b 0x790 4
  { x with
    pool := (fieldsAt b 0 16).map (BitVec.ofNat 128)
    routes := (List.range 128).filterMap fun l => (savedRoute (bytesAt b (0x200 + 8 * l) 8)).map fun r => (l, r)
    chans := Vector.ofFn fun i => savedChan (bytesAt b (0x600 + 8 * i.val) 8)
    s := (fieldsAt b 0x700 4).map (BitVec.ofNat 32)
    axc := BitVec.ofNat 32 (fieldAt b 0x740 4), axs := BitVec.ofNat 32 (fieldAt b 0x744 4)
    tagr := BitVec.ofNat 32 (fieldAt b 0x748 4), lfsr := BitVec.ofNat 32 (fieldAt b 0x74C 4)
    cseq := (fieldsAt b 0x750 4).map (BitVec.ofNat 32)
    pcFire := BitVec.ofNat 64 (fieldAt b 0x770 8), pcStall := BitVec.ofNat 64 (fieldAt b 0x778 8)
    pcBeat := BitVec.ofNat 64 (fieldAt b 0x780 8), cap := nibblesOf (fieldAt b 0x788 8)
    pairMode := ecfg.testBit 0, sink := ecfg.testBit 1, bmode := Vector.ofFn fun i => qmodeOf (bitsOf ecfg (2 + 2 * i.val) 2)
    w1Active := ecfg.testBit 10, inRect := ecfg.testBit 11
    watch := Vector.ofFn fun i => savedWatch (bytesAt b (0x7C0 + 16 * i.val) 16) (vget x.watch i.val none)
    v := (fieldsAt b 0x800 64).map (BitVec.ofNat 512)
    w0 := BitVec.ofNat 4096 (fieldAt b 0xC00 512), w1 := BitVec.ofNat 4096 (fieldAt b 0xE00 512) }

/-- A bank from its image: SCR and RNG quarters; the bytes of the others are zero (R357). -/
def Elem.loadBank (x : Elem) (b : List Byte) : Elem :=
  { x with bank := (List.range 4).foldl (fun m q =>
      match vget x.bmode q .scr with
      | .scr | .rng => Memory.write m (16384 * q) (bytesAt b (16384 * q) 16384)
      | _ => Memory.write m (16384 * q) (List.replicate 16384 0)) x.bank }

/-! ### Core blocks (R226, R287, R355) -/

/-- A barrier of its record; what it holds besides stands. -/
def savedBar (b : List Byte) (old : Bar) : Bar :=
  let v := fieldAt b 0 16
  { old with
    pend := BitVec.ofNat 64 (bitsOf v 64 64), exp := BitVec.ofNat 16 (bitsOf v 48 16), arr := BitVec.ofNat 16 (bitsOf v 32 16)
    ph := bitsOf v 31 1 == 1, arm := bitsOf v 30 1 == 1 }

/-- The tokens a port record holds. -/
def savedHeld (b : List Byte) : List Token :=
  (List.range 32).filterMap fun i => (savedToken false (fieldAt b (0x40 + 72 * i) 8) (fieldAt b (0x48 + 72 * i) 64)).map fun t => t.2.2

/-- A port of its record. -/
def savedPort (b : List Byte) (p : Port) : Port :=
  let w := fieldAt b 0x25 1
  { p with
    cursor := fieldAt b 0 8, next := fieldAt b 0x10 8, base := BitVec.ofNat 64 (fieldAt b 0x18 8), stride := BitVec.ofNat 32 (fieldAt b 0x20 4)
    tsrx := fieldAt b 0x24 1, open_ := w.testBit 0, bySopen := w.testBit 1, discard := w.testBit 2, auto := w.testBit 3
    wcnt := fieldAt b 0x28 8, wfst := BitVec.ofNat 64 (bitsOf p.wfst.toNat 32 32 * 2 ^ 32 + fieldAt b 0x30 4), disc := fieldAt b 0x34 4
    heldq := savedHeld b }

/-- A cell of its record and its patch entry (R287). -/
def savedCell (b : List Byte) (patch : Nat) : Cell :=
  let k := fieldAt b 0xC 4
  ⟨BitVec.ofNat 32 (fieldAt b 0 4), BitVec.ofNat 32 (fieldAt b 4 4), BitVec.ofNat 32 (fieldAt b 8 4), BitVec.ofNat 2 (bitsOf k 10 2),
    BitVec.ofNat 5 (bitsOf k 0 5), BitVec.ofNat 64 patch⟩

def savedDom (b : List Byte) (d : Dom) : Dom :=
  { d with
    div := BitVec.ofNat 32 (fieldAt b 0 4), bud := BitVec.ofNat 32 (fieldAt b 4 4), evt := BitVec.ofNat 32 (fieldAt b 8 4)
    dst := BitVec.ofNat 32 (fieldAt b 0xC 4), next := fieldAt b 0x10 4 }

/-- An integrator array of a core block; marks of second deliveries have no byte there, and stand. -/
def IArray.load (a : IArray) (b : List Byte) : IArray :=
  { a with
    cells := ((List.range 512).map fun i => (i, savedCell (bytesAt b (0x48400 + 16 * i) 16) (fieldAt b (0x4A400 + 8 * i) 8))).filter fun c =>
      c.2 != Cell.reset
    doms := Vector.ofFn fun i => savedDom (bytesAt b (0x4B400 + 32 * i.val) 32) (vget a.doms i.val ⟨1, 0, 0x40000, 0, 0, 0, 0, []⟩)
    fpd := Vector.ofFn fun i => BitVec.ofNat 2 (bitsOf (fieldAt b 0x4B500 4) (2 * i.val) 2) }

/-- What a core block says of a core. -/
def Core.load (k : Core) (b : List Byte) : Core :=
  { k with
    bars := Vector.ofFn fun i => savedBar (bytesAt b (0x40000 + 16 * i.val) 16) (vget k.bars i.val Bar.zero)
    sinks := ((List.range 64).map fun n => (n, fieldAt b (0x40200 + n) 1)).filter fun x => x.2 != 0
    rep := (List.range 64).filter fun n => (fieldAt b 0x40240 8).testBit n
    ports := Vector.ofFn fun i => (vget k.ports i.val none).map (savedPort (bytesAt b (0x40400 + 0x1000 * i.val) 0x1000))
    arr := k.arr.load b }

/-- The token of a tile-buffer record (R355). -/
def savedTile (b : List Byte) : Option Token :=
  let h := fieldAt b 0 8
  let ctl := bitsOf h 37 1 == 1
  (savedToken ctl h (fieldAt b 0x10 64)).map fun t => t.2.2

/-- Flights of a core that found no slot, with the tokens of its records in their place, and what is left of those (R352, R359). -/
def retake (c : Nat) : List Flight → List Token → List Flight
  | [], _ => []
  | f :: fs, ts =>
    match f.dst with
    | .queue e _ =>
      if coreOf e = c && f.ready then
        { f with mode := .raw, toks := f.tokens.zipIdx.map fun t => ts.getD t.2 t.1 } :: retake c fs (ts.drop f.toks.length)
      else f :: retake c fs ts
    | .port _ _ => f :: retake c fs ts

/-- X0 to X15 and the accumulators of a pseudo-channel's record (log 26). -/
def savedPc (p : PChan) (b : List Byte) : PChan :=
  { p with
    xs := Vector.ofFn fun i => BitVec.ofNat 256 (fieldAt b (32 * i.val) 32)
    acc := ((List.range 64).map fun k => (k, BitVec.ofNat 512 (fieldAt b (8192 + 64 * k) 64))).filter fun a => a.2 != 0 }

/-! ### The whole area (R359) -/

/-- n bytes of a region's save area. -/
def State.areaRead (s : State) (r : Region) (off n : Nat) : Option (List Byte) :=
  match r.save with
  | none => none
  | some a => match s.ownRead r.part ((s.part r.part).svb.toNat + 65536 * a + off) n .record with | .ok bs => some bs | .error _ => none

/-- What a run of bytes of the area says of something kept; what cannot be read stands. -/
def State.areaOf {α : Type} (s : State) (r : Region) (off n : Nat) (f : α → List Byte → α) (x : α) : α :=
  match s.areaRead r off n with | some b => f x b | none => x

/-- A watch at the place its address leads to now. -/
def State.placeWatch (s : State) (c p : Nat) (old : Option Watch) (w : Watch) : Watch :=
  if (old.map Watch.addr) = some w.addr then w
  else match s.resolve c p w.addr .watch with | .ok l => { w with phys := l.at w.addr 0, raw := l.ptype == 3 } | _ => w

/-- An element of a saved region as its save area has it. -/
def State.savedElem (s : State) (r : Region) (e : Nat) (x : Elem) : Elem :=
  let c := r.coreY (coreOf e) * r.w + r.coreX (coreOf e)
  let rec_ := 0x1000 + 0x50000 * (r.w * r.h) + 0x12000 * (64 * c + elemNo e)
  let y := s.areaOf r (0x1000 + 0x50000 * c + 0x1000 * elemNo e) 0x1000 Elem.loadState x
  let y := s.areaOf r rec_ 0x2000 Elem.loadMarking y
  let y := s.areaOf r (rec_ + 0x2000) 0x10000 Elem.loadBank y
  { y with watch := Vector.ofFn fun i => (vget y.watch i.val none).map (s.placeWatch (coreOf e) r.part (vget x.watch i.val none)) }

/-- A core of a saved region as its save area has it. -/
def State.savedCore (s : State) (r : Region) (c : Nat) (k : Core) : Core :=
  s.areaOf r (0x1000 + 0x50000 * (r.coreY c * r.w + r.coreX c)) 0x50000 Core.load k

/-- The tokens of a core's tile buffer, and then of its overflow records, as the area has them. -/
def State.savedTiles (s : State) (r : Region) (n : Snap) (c : Nat) : List Token :=
  let at_ := 0x1000 + 0x50000 * (r.coreY c * r.w + r.coreX c) + 0x4C000
  let recs := n.overflow r.cores
  let past := r.engOffset + 64 * n.cmds.length + 12352 * n.pcs.length + 64 * n.rects.length
  let toks := fun (offs : List Nat) => offs.filterMap fun o => (s.areaRead r o 80).bind savedTile
  toks ((List.range (tileOf n.links c).length).map fun i => at_ + 16 + 80 * i) ++
    toks ((recs.zipIdx.filter fun t => t.1.1 == c).map fun t => past + 88 * t.2 + 8)

/-- What was saved of a region, as its area has it (R359, log 25). -/
def State.savedSnap (s : State) (r : Region) : Snap :=
  let n := r.lastSnap
  { n with
    elems := n.elems.map fun e => (e.1, s.savedElem r e.1 e.2)
    cores := n.cores.map fun c => (c.1, s.savedCore r c.1 c.2)
    links := r.cores.foldl (fun fs c => retake c fs (s.savedTiles r n c)) n.links
    pcs := n.pcs.zipIdx.map fun p => (p.1.1, s.areaOf r (r.engOffset + 64 * n.cmds.length + 12352 * p.2 + 64) 12288 savedPc p.1.2)
    stp := (s.areaOf r 0x30 4 (fun _ b => fieldAt b 0 4 % 2 == 1) n.stp) }

/-- The cut and the unit of a region as its save area's header has them (R355). -/
def State.savedUnit (s : State) (r : Region) : Region :=
  s.areaOf r 0 0x84 (fun (r : Region) b =>
    { r with
      cutN := fieldAt b 0xC 4 % 65536, unit := fieldAt b 0x18 8, ixCnt := fieldAt b 0x24 4
      ixBase := BitVec.ofNat 64 (fieldAt b 0x20 4 + 2 ^ 32 * fieldAt b 0x80 4) }) r

/-- The checks of a restore against the area it reads (R359). -/
def State.saveGood (s : State) (r : Region) : Bool :=
  match r.save with
  | none => false
  | some a =>
    match s.ownRead r.part ((s.part r.part).svb.toNat + 65536 * a) 0x84 .record with
    | .error _ => false
    | .ok h =>
      fieldAt h 0 4 == 0x00565351 && fieldAt h 4 2 == 0x0100 && fieldAt h 8 1 == r.w && fieldAt h 9 1 == r.h &&
        BitVec.ofNat 512 (fieldAt h 0x40 64) == r.hash

end Sys2Proof.Machine
end

