-- ==== Sys2Proof/Machine/CutOps.lean ====
section
/-! DEFINITION. Section cuts (R363 to R368, R555, R556), rollback (R370), freeze and its readout (R351 to R354), drain (R361) and their
steps. -/

namespace Sys2Proof.Machine

open Sys2Proof

/-! ### What belongs to a region -/

def State.dropEntries (s : State) (rn : Nat) : State :=
  { s with engines := s.engines.map fun g => (g.1, { g.2 with qs := g.2.qs.map fun es => es.filter fun t => t.reg != rn }) }

/-- Pseudo-channels a region holds (R262). -/
def State.pcsOf (s : State) (rn : Nat) : List (Nat × PChan) := s.pchans.filter fun p => p.2.holder == some rn

/-- Whether a matrix rectangle of a region is busy (R366). -/
def State.rectsBusy (s : State) (r : Region) : Bool := r.rects.any fun m => m.busy s.cycle

/-- Whether an irrevocable operation of a region is in progress: its second cut has not been taken, or an MMA run, a slot, a posted
operation or an engine command has taken its first and been sent (R369). -/
def State.irrevocable1 (s : State) (rn : Nat) (r : Region) : Bool :=
  r.irr || s.rectsBusy r || (r.rects.any fun m => m.cut == 3) ||
    (r.elems.any fun e =>
      ((s.elem e).slots.toList.any fun y => match y with | some z => z.cut == 2 && z.stage != 0 && z.stage != 3 | none => false) ||
        (s.elem e).posted.any fun y => y.cut == 2) ||
    (s.entriesOf rn).any fun t => t.2.2.cut == 2

/-! ### Capture -/

/-- Everything a region holds, at one moment (R355, R366). -/
def State.capture (s : State) (rn : Nat) (r : Region) : Snap :=
  { elems := r.elems.map fun e => (e, s.elem e)
    cores := r.cores.map fun c => (c, s.core c)
    cmds := s.entriesOf rn
    rects := r.rects
    links := s.flight.filter fun f => s.destReg f.dst == some rn
    ports := r.newSnap.portsAfter r.cutN
    ups := s.updates.filter fun u => r.hasElem u.1
    pcs := if r.phase == .configured then r.lastSnap.pcs else s.pcsOf rn
    late := []
    stp := r.stp
    sided := s.sided.filter fun u => r.hasElem u.1 }

/-! ### Commit (R368) -/

/-- Commits the intervals that a test names: held lines and undo rows are released, presence bits become visible, watches of other
regions are tested and deferred notifies are performed; at a marker cut one to a host or peer page waits for a forced cut (R367, R368,
R555). -/
def State.commit (s : State) (rn : Nat) (forced : Bool) (yes : Nat → Bool) : State :=
  match s.region rn with
  | none => s
  | some r =>
    let held := ((r.hold.filter fun h => yes h.interval).flatMap Held.words).map Prod.fst
    let words := (r.defPres.filter fun d => yes d.1).map Prod.snd
    let notes := r.defNote.filter fun n => yes n.interval
    let s := s.setRegion rn
      { r with
        hold := r.hold.filter fun h => !yes h.interval
        defPres := r.defPres.filter fun d => !yes d.1
        clrPres := r.clrPres.filter fun d => !yes d.1 }
    let s := r.elems.foldl (fun s e =>
      if (s.elem e).undo.isEmpty then s else s.modElem e fun x => { x with undo := x.undo.filter fun u => !yes u.interval }) s
    let s := words.foldl State.answer s
    let s := held.foldl (fun s w => s.testWatches (4 * w) 4) s
    notes.foldl (fun s n => s.makeNote rn forced n) s

/-! ### Landing (R352, R365) -/

/-- The link over which a token comes into its destination's element (R126). -/
def lastLink (src dst : Nat) : Nat :=
  let x := elemX (srcElem src); let y := elemY (srcElem src); let u := elemX dst; let v := elemY dst
  if y < v then 4 * elemAt u (v - 1) + 2
  else if v < y then 4 * elemAt u (v + 1) + 3
  else if x < u then 4 * elemAt (u - 1) v
  else if u < x then 4 * elemAt (u + 1) v + 1
  else 65536 + src

/-- A flight at the link input of its destination. -/
def Flight.land (cycle : Nat) (f : Flight) : Flight :=
  if f.ready then { f with at_ := f.dst.elem, link := some (lastLink f.src f.dst.elem), due := min f.due cycle } else f

/-- The tokens of an output buffer go onto the links. -/
def State.drainOut (s : State) (e : Nat) : State :=
  match s.regOf e with
  | none => s
  | some r =>
    let s := (s.elem e).out.foldl (fun s (st, o) =>
      let x := s.elem e
      match x.route o.label with
      | none => s
      | some rt =>
        let run := !o.tok.ctl && rt.pack && o.tok.kind == .data && SMap.find o.label x.sent == some o.tok.pay
        let f := Flight.start e rt.cls (routeDest r rt) [o.tok] (linkMode o.tok rt.pack run) s.cycle none
        let sent := if o.tok.ctl || o.tok.kind != .data then SMap.erase o.label x.sent else SMap.set o.label o.tok.pay x.sent
        let s := { s with flight := s.flight.insertIdx (lanePos st f s.flight) f }.setElem e ({ x with sent := sent }.count1 s.cycle 2 f.beats)
        if o.tok.kind == .eos && rt.tap.isSome then s.tapArrival e (coreOf e) (rt.tap.getD 0) else s) s
    if (s.elem e).out.isEmpty then s else s.modElem e fun x => { x with out := [] }

/-- Output buffers empty onto the links, and completions that wait for them finish, oldest first; the fuel counts completions. -/
def State.emptyBuffer (s : State) (e : Nat) : Nat → State
  | 0 => s.drainOut e
  | n + 1 =>
    let s := s.drainOut e
    let ws := (s.elem e).waiting
    match ws.find? fun w => ws.all fun v => w.seq ≤ v.seq with
    | none => s
    | some f =>
      let f := (s.elem e).again f
      let s := s.modElem e fun x => { x with waiting := x.waiting.filter fun w => w.seq != f.seq }
      let s := match f.slot with
        | some k => (match s.slot e k with | some y => s.finishFiring e k y | none => s)
        | none => s.modElem e fun x => applyAll s.cycle x f
      s.emptyBuffer e n

/-- Tokens of a region on the links enter their queues or ports in order, as far as they find room, from the i-th flight on. -/
def State.landFrom (s : State) (rn : Nat) : Nat → Nat → State
  | 0, _ => s
  | n + 1, i =>
    match s.flight[i]? with
    | none => s
    | some f =>
      if s.destReg f.dst != some rn || !f.ready || (s.flight.take i).any (sameLane f) then s.landFrom rn n (i + 1)
      else
        match s.reachAll true f.dst f.cmd f.mode f.toks with
        | ([], t) => (t.dropFlight i).landFrom rn n i
        | (ts, t) => { t with flight := t.flight.set i { f with toks := ts } }.landFrom rn n (i + 1)

/-- Every token on a link reaches its destination; one that finds no slot stands in the tile buffer or at the link input (R352). -/
def State.landAll (s : State) (rn : Nat) : State :=
  let s := if s.flight.any fun f => s.destReg f.dst == some rn then
      { s with flight := s.flight.map fun f => if s.destReg f.dst == some rn then f.land s.cycle else f } else s
  s.landFrom rn s.flight.length 0

/-- Step 2 of R352, which a forced cut takes too (R365). -/
def State.land (s : State) (rn : Nat) (r : Region) : State :=
  r.cores.foldl State.countTaps ((r.elems.foldl (fun s e => s.emptyBuffer e (s.elem e).waiting.length) s).landAll rn)

/-! ### Forced cuts (R365) -/

/-- What waits for a forced cut to release held lines may be performed. -/
def released (n : Nat) : Nat := if n = 1 then 2 else n

/-- Performs, unheld, what waits for a forced cut to release held lines: part of the commit (R367). -/
def State.performHeld (s : State) (rn : Nat) (r : Region) : State :=
  let s := r.elems.foldl (fun s e =>
    ((s.elem e).posted.filter fun y => y.full == 1).foldl (fun s y =>
      performPosted e y.seq (s.modElem e fun x =>
        { x with posted := x.posted.map fun z => if z.seq = y.seq then { z with full := released z.full } else z })) s) s
  let s := (s.updates.filter fun u => u.2.full == 1 && r.hasElem u.1).foldl (fun s u =>
    match s.updates.findIdx? fun v => v.1 == u.1 && v.2.seq == u.2.seq with
    | some i => ({ s with updates := s.updates.modify i fun v => (v.1, { v.2 with full := released v.2.full }) } : State).sparseUpdate1 i false
    | none => s) s
  let s := ((s.entriesOf rn).filter fun t => t.2.2.full == 1).foldl (fun s t =>
    let en := s.engine t.1
    let es := (vget en.qs t.2.1 []).map fun u => if u.id = t.2.2.id then { u with full := released u.full } else u
    let s := s.setEngine t.1 { en with turn := t.2.1, qs := vset en.qs t.2.1 es }
    nextOr (s.serveEngine t.1 t.2.1) s) s
  r.cores.foldl (fun s c =>
    (List.range 8).foldl (fun s k =>
      match s.port c k with
      | some p => if p.full = 1 && p.reg == rn then (s.setPort c k { p with full := released p.full }).portWrite c k else s
      | none => s) s) s

/-- The state of a forced cut after it is complete: what was asked for has been taken. -/
def cutTaken (c : Nat) : Nat := if c = 1 then 2 else c

/-- Every element, port, engine command and rectangle takes the shadow of a forced cut (R365). -/
def State.shadowAll (s : State) (rn n : Nat) : State :=
  match s.region rn with
  | none => s
  | some r =>
    let s := r.elems.foldl (fun s e =>
      s.modElem e fun x =>
        { x with
          shadowN := n
          slots := x.slots.map fun y => y.map fun z => { z with cut := cutTaken z.cut, full := 0 }
          posted := x.posted.map fun z => { z with cut := cutTaken z.cut, full := 0 } }) s
    let s := r.cores.foldl (fun s c =>
      s.modCore c fun k =>
        { k with ports := k.ports.map fun p => p.map fun p => if p.reg != rn then p else
            { p with cut := cutTaken p.cut, full := 0, sectN := if p.out then n else p.sectN } }) s
    let upd := fun (u : Nat × Slot) => if r.hasElem u.1 then (u.1, { u.2 with cut := cutTaken u.2.cut, full := 0 }) else u
    let ent := fun (t : Entry) => if t.reg = rn then { t with cut := cutTaken t.cut, full := 0 } else t
    let eng := fun (g : Nat × Engine) => (g.1, { g.2 with qs := g.2.qs.map fun es => es.map ent })
    let s := { s with updates := s.updates.map upd, engines := s.engines.map eng }
    s.modRegion rn fun r => { r with rects := r.rects.map fun m => if m.cut = 1 then { m with cut := 2 } else m }

/-- An ERLS of the current unit whose element has performed its earlier memory operations (R338). -/
def State.erlsReady (s : State) (r : Region) (x : Nat × Nat × Nat) : Bool :=
  x.2.2 == r.unit && !r.unitRel && (s.outstanding x.1).all fun y => !(y.seq < x.2.1 && isMemOp y.ins)

/-- Releases the current unit, once (R338). -/
def Region.releaseUnit (r : Region) : Region := if r.unitRel then r else { r with unitRel := true, nrel := r.nrel + 1 }

/-- Adds to a 64-bit counter of a launch: the value before, or nothing where the page takes no write (R329, R343). -/
def State.counterAdd (s : State) (p addr : Nat) (d : Int) : State × Option Nat :=
  match s.ownRead p addr 8 .count with
  | .error _ => (s, none)
  | .ok bs =>
    let v := natLE bs
    match s.ownWrite p addr (bytesLE 8 (((v : Int) + d) % (2 ^ 64 : Int)).toNat) .count with
    | .error _ => (s, none)
    | .ok t => (t, some v)

/-- The CCU release of a completed unit (R343). -/
def State.unitCount1 (s : State) (rn : Nat) : State :=
  match s.region rn with
  | none => s
  | some r =>
    if !r.ccu then s
    else
      let s := s.setRegion rn { r.releaseUnit with ccu := false }
      if r.launch.ccu = 0 then s else (s.counterAdd r.part r.launch.ccu 1).1

/-- Whether a forced cut is due: one is asked for, or an ERLS waits only for its cut. -/
def State.cutDue (s : State) (r : Region) : Bool := r.cutReq || r.erls.any (s.erlsReady r)

/-- A forced cut: every token lands, the open intervals commit, what waited for room is performed, and every element takes its shadow
in one cycle; then what the cut preceded acts, but for RPULLs: releases and CCU writes of persistent launches (R338, R365, R367, R369). -/
def State.cutForced (s : State) (rn : Nat) : State :=
  match s.region rn with
  | none => s
  | some r =>
    let n := (r.cutN + 1) % 65536
    let s := ((s.lastSteps r.cores).land rn r).modRegion rn fun r => { r with cutReq := false, irr := false, sectTok := 0 }
    let s := (s.commit rn true fun _ => true).performHeld rn r
    let s := s.shadowAll rn n
    match s.region rn with
    | none => s
    | some r =>
      let r := { r with cutN := n, forming := none, newSnap := r.newSnap.start n, lastFlt := [] }
      let s := s.setRegion rn { r with lastSnap := s.capture rn r }
      let late := r.erls.any (s.erlsReady r)
      let s := if r.unitDone || late then s.modRegion rn fun r => { r.releaseUnit with erls := [] } else s
      let s := if late then s.askSecond (some rn) else s
      if r.ccu && r.launch.pers then (s.unitCount1 rn).askSecond (some rn) else s

/-- A forced cut of a region that runs on; the RPULLs that waited for it are served (R336, R369). -/
def State.takeForced (s : State) (rn : Nat) : State :=
  let s := s.cutForced rn
  match s.region rn with
  | none => s
  | some r => s.servePulls rn r.pulls

/-- FORCED_CUT: only while no MMA of the region is in progress (R366). -/
def State.forcedCut1 (s : State) (rn : Nat) : State :=
  match s.region rn with
  | some r => if r.phase = .running && s.cutDue r && !s.rectsBusy r then s.takeForced rn else s
  | none => s

def execForcedCut (rn : Nat) (s : State) : Step1 := .next (s.forcedCut1 rn)

/-- Whether a forming marker cut has run out of time (R365). -/
def State.cutLate (s : State) (r : Region) : Bool := r.forming.isSome && !r.cutReq && r.formAt + 65536 ≤ s.cycle

def execMarkerCutTimeout (rn : Nat) (s : State) : Step1 :=
  .next (match s.region rn with
    | some r => if s.cutLate r then s.askCut (some rn) else s
    | none => s)

/-- Whether a region with a multi-sender section input has counted its tokens (R365). -/
def Region.tokensDue (r : Region) : Bool := r.multi && 2 ^ r.secK ≤ r.sectTok

def execSectionTokenCount (rn : Nat) (s : State) : Step1 :=
  .next (match s.region rn with
    | some r => if r.tokensDue then s.setRegion rn { r with sectTok := 0, cutReq := true } else s
    | none => s)

/-! ### Marker cuts (R363, R364) -/

/-- Trigger and update of an element's valid transitions. -/
def Elem.valid (x : Elem) : List TU :=
  (x.pool.toList.filter fun w => w.getLsbD 127).map fun w =>
    decodeTU (BitVec.ofNat 32 (w.toNat / 2 ^ 96)) (BitVec.ofNat 32 (w.toNat / 2 ^ 64))

/-- Section inputs of an element (R364). -/
def Elem.sectionInputs (x : Elem) : List Nat := (x.valid.flatMap required).eraseDups

/-- Labels that SECT and TAIL are forwarded on (R361). -/
def Elem.forwardLabels (x : Elem) : List Nat := (x.valid.flatMap Wf.labels).eraseDups

/-- The number of a SECT that has stood at the head of a queue through the cycle (R364). -/
def State.sectHead (s : State) (e q : Nat) : Option Nat :=
  match s.standing e q with
  | some t => if t.kind = .sect then some (t.pay.toNat % 65536) else none
  | none => none

/-- The shadow an element may take now: its section inputs all show one SECT above the last cut, or, with none, the number being
formed since an earlier cycle (R364). -/
def State.shadowDue (s : State) (e : Nat) : Option (Nat × Nat) :=
  match s.regionOf e with
  | none => none
  | some rn =>
    match s.region rn with
    | none => none
    | some r =>
      if r.phase != .running || r.multi || s.rectsBusy r || (SMap.find e r.newSnap.elems).isSome then none
      else
        match (s.elem e).sectionInputs with
        | [] => (match r.forming with | some n => if r.formAt < s.cycle then some (rn, n) else none | none => none)
        | q :: qs =>
          match s.sectHead e q with
          | none => none
          | some n =>
            if qs.all (fun k => s.sectHead e k == some n) && serialAbove n r.cutN && (r.forming.getD n == n) then some (rn, n) else none

/-- The part of an element that its shadow of a marker cut holds: queues up to the SECT markers, and nothing that it has already
emitted (R366). -/
def shadowOf (x : Elem) : Elem :=
  { x with queues := x.queues.map fun ts => ts.takeWhile fun t => t.kind != .sect, out := [] }

/-- A core without the tap arrivals of elements that are past their shadows: a rollback sends their tokens anew (R556). -/
def Core.untapped (k : Core) : Core := { k with bars := k.bars.map fun b => { b with cutT := 0 } }

/-- An element takes its shadow: it dequeues the markers and forwards them behind what it has emitted; its engine commands are
captured, its core's signal box and array with the core's last element, and the region's pseudo-channels with its first (R364, R556);
from then on a command of an element without a shadow acts on what is captured too. The array stands at a step-clock boundary (R305). -/
def State.takeShadow (s : State) (e rn n : Nat) : State :=
  let s := s.lastSteps [coreOf e]
  let x := s.elem e
  let y := x.sectionInputs.foldl Elem.dequeue x
  let y := { y with shadowN := n }
  let kept := shadowOf { x with shadowN := n }
  let y := y.emit (y.forwardLabels.map fun l => ⟨l, Token.sect n (ctlLabel l)⟩)
  let s := s.setElem e y
  let mine := (s.entriesOf rn).filter fun t => t.2.2.elem == e
  let s := s.modRegion rn fun r =>
    let m := r.newSnap
    let elems := SMap.set e kept m.elems
    let c := coreOf e
    let last := r.elems.all fun z => coreOf z != c || (SMap.find z elems).isSome
    { r with
      forming := some n
      formAt := if r.forming.isSome then r.formAt else s.cycle
      newSnap :=
        { m with
          elems := elems
          cores := if last then SMap.set c (s.core c).untapped m.cores else m.cores
          cmds := m.cmds ++ mine
          ups := m.ups ++ s.updates.filter fun u => u.1 == e
          sided := m.sided ++ s.sided.filter fun u => u.1 == e
          pcs := if m.elems.isEmpty then s.pcsOf rn else m.pcs } }
  if s.cutWaits e then s else s.countTaps (coreOf e)

def execSectionShadow (e : Nat) (s : State) : Step1 :=
  .next (match s.shadowDue e with | some (rn, n) => s.takeShadow e rn n | none => s)

/-- A stale SECT that is a head is dequeued with no other effect (R363). -/
def State.staleHead (s : State) (e q : Nat) : Bool :=
  match s.sectHead e q with
  | some n => !s.mxcQueue e q && (match s.regOf e with | some r => r.phase == .running && !serialAbove n r.cutN | none => false)
  | none => false

def execStaleSectDiscard (e q : Nat) (s : State) : Step1 :=
  .next (if s.staleHead e q then s.modElem e fun x => x.dequeue q else s)

/-- Out ports that the region's labels feed. -/
def State.fedPorts (s : State) (r : Region) : List (Nat × Nat) :=
  (r.elems.flatMap fun e =>
    let x := s.elem e
    x.forwardLabels.filterMap fun l =>
      match x.route l with
      | some rt => (match routeDest r rt with | .port c k => some (c, k) | _ => none)
      | none => none).eraseDups

/-- Whether a forming cut is complete: every element has shadowed it (R364). -/
def Region.cutComplete (r : Region) : Bool :=
  r.phase == .running && r.forming.isSome && r.elems.all fun e => (SMap.find e r.newSnap.elems).isSome

/-- Ports of a captured core as they stood at their markers. -/
def withPorts (ports : List (Nat × Port)) (c : Nat) (k : Core) : Core :=
  { k with ports := Vector.ofFn fun i => match SMap.find (8 * c + i.val) ports with | some p => some p | none => vget k.ports i.val none }

/-- CUT_COMPLETION: the interval before the cut commits and the shadows of the last cut go (R364, R368). An out port that the markers are still
to reach takes its shadow when they do (R364, R556, log 64). -/
def State.completeCut (s : State) (rn : Nat) : State :=
  match s.region rn with
  | none => s
  | some r =>
    if !r.cutComplete then s
    else
      let n := r.forming.getD 0
      let m := r.newSnap
      let late := ((s.fedPorts r).map fun p => 8 * p.1 + p.2).filter fun p => (SMap.find p (m.portsAt n)).isNone
      let snap := { m with cores := m.cores.map (fun c => (c.1, withPorts (m.portsAt n) c.1 c.2)), ports := [], late := late, rects := r.rects, stp := r.stp, pcs := m.pcs.filter fun p => p.2.holder == some rn }
      let s := s.setRegion rn { r with cutN := n, lastSnap := snap, forming := none, newSnap := m.start n, lastFlt := [] }
      (s.commit rn false fun i => i != n).modRegion rn fun r => { r with cutReq := r.cutReq || !r.defNote.isEmpty }

def execCutCompletion (rn : Nat) (s : State) : Step1 := .next (s.completeCut rn)

/-! ### Rollback (R370) -/

/-- Faults and translations of a region that wait go; a page request stays in the tag table without its access (R375). -/
def State.dropFaults (s : State) (rn : Nat) : State :=
  { s with
    pend := s.pend.filter fun p => p.reg != rn
    pgfs := s.pgfs.filter fun p => p.reg != rn
    tags := s.tags.map fun t => if t.reg == rn then { t with at_ := .none } else t }

/-- The signal boxes forget the arrivals and waits of a region's elements that they hold (R231, R387). -/
def State.unbox (s : State) (r : Region) : State :=
  s.cores.foldl (fun s c =>
    if (s.core c.1).bars.toList.any fun b => (b.heldB.any fun h => r.hasElem h.1) || b.waits.any fun w => r.hasElem w.elem then
      s.modCore c.1 fun k =>
        { k with bars := k.bars.map fun b =>
            { b with heldB := b.heldB.filter fun h => !r.hasElem h.1, waits := b.waits.filter fun w => !r.hasElem w.elem } }
    else s) s

/-- Removes everything of a region that moves or waits outside its elements: tokens, updates accepted, engine commands, faults and
translations that wait. -/
def State.abandon (s : State) (rn : Nat) (r : Region) : State :=
  { (s.dropEntries rn).unbox r with
    flight := s.flight.filter fun f => s.destReg f.dst != some rn
    updates := s.updates.filter fun u => !r.hasElem u.1 }.dropFaults rn

/-- Restores held lines and logged rows to their pre-images, newest first, and presence bits (R370). A granule filled since the cut is
unfilled again, since its rows hold what they held before the fill (R180). -/
def State.undoWrites (s : State) (rn : Nat) (r : Region) : State :=
  let s := s.setRegion rn { r with hold := [], defPres := [], defNote := [], clrPres := [] }
  let s := r.hold.reverse.foldl (fun s h => s.devWrite .device (128 * h.line) (bytesLE 128 h.pre.toNat)) s
  let s := r.elems.foldl (fun s e =>
    s.modElem e fun x =>
      let y := x.undo.reverse.foldl (fun x u => { x with bank := Memory.write x.bank (64 * u.row) (bytesLE 64 u.pre.toNat) }) x
      let fills := (x.undo.filter UndoRow.fill).map fun u => u.row / 8
      { y with
        filled := y.filled.filter fun g => !fills.contains g.1, dirty := y.dirty.filter fun a => !fills.contains (a / 512), undo := [] }) s
  let pres := (r.defPres.map Prod.snd).foldl (fun p w => eraseNat w p) s.pres
  { s with pres := (r.clrPres.map Prod.snd).foldl (fun p w => insertNat w p) pres }

/-- Whether an element's update, by its issue number, is in the sparse-update unit or in a siding. -/
def State.sentOn (s : State) (e n : Nat) : Bool := (s.updates ++ s.sided).any fun u => u.1 == e && u.2.seq == n

/-- A slot of a shadow as it runs again: not held, and an operation whose answer was still to come sent anew, but for an update whose
token stands elsewhere (R218, R353, R370). The tokens of the rows that an MXACC has read have entered, or are sent anew (R470). -/
def resend (there : Nat → Bool) (y : Slot) : Slot :=
  let again := match y.ins with
    | .ldw _ _ | .atom _ _ | .cas _ _ | .frz _ _ => y.stage == 1 && !there y.seq
    | _ => false
  let anew := again || y.stage == 0
  let lres := match y.ins with | .mxacc _ _ => BitVec.ofNat 512 y.prog | _ => if anew then 0 else y.lres
  { y with
    held := false, stage := if again then 0 else y.stage, sub := if anew then 0 else y.sub, lres := if y.stage = 3 then y.lres else lres, buf := []
    cut := match y.ins with | .rpull _ _ => 0 | _ => y.cut }

/-- The reservations of the firings that have issued and not completed: those in slots, and a single-cycle one that waits for the output
buffer (R47). -/
def Elem.rebuilt (x : Elem) : Vector (BitVec 4) 16 :=
  let held := (x.slots.toList.flatMap fun y => match y with | some z => reserves (slotTU z) | none => []) ++
    x.waiting.flatMap fun w => if w.slot.isNone then w.frees else []
  Vector.ofFn fun i => BitVec.ofNat 4 (held.count i.val)

/-- An element reloaded from a shadow: configuration, bank, counters and issue numbers stand; a rollback sets the pointers to 31 and
rebuilds the reservations (R47, R366, R370). -/
def reload (there : Nat → Bool) (now shadow : Elem) (ptr : Bool) : Elem :=
  { shadow with
    pool := now.pool, routes := now.routes, chans := now.chans, bank := now.bank, bmode := now.bmode, qbase := now.qbase,
    qphys := now.qphys, wgtBase := now.wgtBase, filled := now.filled, dirty := now.dirty, pcFire := now.pcFire,
    pcStall := now.pcStall, pcBeat := now.pcBeat, pcW := now.pcW, nseq := now.nseq, injD := now.injD, injC := now.injC,
    lastDone := now.lastDone, undo := [], stuck := false, sent := []
    slots := shadow.slots.map fun y => y.map (resend there)
    posted := (shadow.posted.filter fun y => !there y.seq).map fun y => { y with held := false }
    resv := if ptr then shadow.resv else shadow.rebuilt
    lfp := if ptr then shadow.lfp else Vector.replicate 8 31 }

/-- The places in order that the tokens of a PIMRD, MXACC or ISAMP keep, for those of a shadow that have not formed them (R258, R298,
R470). -/
def State.placesOf (s : State) (r : Region) (e k : Nat) (y : Slot) : List Flight :=
  let n := match y.ins with
    | .pimrd _ _ => if y.sub = 0 then 16 else 0
    | .mxacc _ _ => if y.stage = 0 then y.opb.toNat - y.prog else 0
    | .isamp _ _ => if y.stage = 0 then 1 else 0
    | _ => 0
  let lbl := match y.ins with | .pimrd _ o | .mxacc _ o | .isamp _ o => pimLabel o | _ => 0
  match (s.elem e).route lbl with
  | some rt => List.replicate n (Flight.place e rt.cls (routeDest r rt) (e, k, y.seq))
  | none => []

def State.replace (s : State) (r : Region) : State :=
  let fs := r.elems.flatMap fun e =>
    (List.range 8).flatMap fun k => match s.slot e k with | some y => s.placesOf r e k y | none => []
  let there := fun (f : Flight) => s.flight.any fun g => g.cmd == f.cmd && !g.ready
  { s with flight := s.flight ++ fs.filter fun f => !there f }

/-- Puts the engine commands of a shadow back into their queues at their PROG; a notify that waited is formed anew (R367, R370). One that finds
16 commands in its queue, or another of its element waiting for that, waits in its firing slot (R220, R234). -/
def State.resendCmds (s : State) (cmds : List (Nat × Nat × Entry)) : State :=
  cmds.foldl (fun s t =>
    let x := t.2.2
    let again := { x with held := false, part := 0, buf := [], full := 0, stage := min x.stage 1 }
    let t' := match (s.slot x.elem x.slot).map Slot.ins with | some (.scat _ _) => again | _ => { again with plan := [] }
    match s.slot x.elem x.slot with
    | none => s
    | some y =>
      if (s.equeue t.1 t.2.1).length < 16 && s.firstOf x.elem y (fun i => (engineOf i).isSome) then
        s.setEqueue t.1 t.2.1 (s.equeue t.1 t.2.1 ++ [t'])
      else s.setSlot x.elem x.slot { y with stage := 0 }) s

/-- Whether the box that a slot's BARA or BARW has reached still keeps it. -/
def State.boxKeeps (s : State) (e k : Nat) (y : Slot) : Bool :=
  match y.ins with
  | .bara _ o => (s.bar (baraCore o e y) (barNo o)).heldB.contains (e, k)
  | .barw _ o => (s.bar (coreOf e) (barNo o)).waits.any fun w => w.elem == e && w.slot == k
  | _ => true

/-- Barrier commands of a region that were not performed and that no box keeps are issued again (R353). -/
def State.rebar (s : State) (r : Region) : State :=
  r.elems.foldl (fun s e =>
    (List.range 8).foldl (fun s k =>
      match s.slot e k with
      | some y => if y.stage == 1 && !s.boxKeeps e k y then s.setSlot e k { y with stage := 0 } else s
      | none => s) s) s

/-- An in port reads again from its cursor; an indirect one starts its command's delivery again at the command's PROG (R269, R322,
R370). -/
def State.rewindPort (s : State) (p : Port) : Port :=
  if p.out then p
  else if !p.ind then { p with cursor := p.next, ahead := [] }
  else
    match p.cmd with
    | none => p
    | some (e, k) =>
      match s.slot e k with
      | none => p
      | some y => let n := (match y.ins with | .unstash _ _ => y.prog / 64 | _ => y.prog); { p with next := n, cursor := n, ahead := [] }

/-- Leaves the pseudo-channels a region holds (R262). -/
def State.leavePcs (s : State) (rn : Nat) : State :=
  { s with pchans := s.pchans.filter fun p => p.2.holder != some rn }

/-- Whether the pseudo-channels of a captured state are free for its region (R256, R262). -/
def State.pcsFree (s : State) (rn : Nat) (n : Snap) : Bool :=
  n.pcs.all fun c => (s.pchan c.1).holder.isNone || (s.pchan c.1).holder == some rn

/-- A region enters the pseudo-channels of a captured state again and reloads them, if no other launch holds one (R262). -/
def State.enterPcs (s : State) (rn : Nat) (n : Snap) : State :=
  if s.pcsFree rn n then { s with pchans := n.pcs.foldl (fun m p => SMap.set p.1 { p.2 with holder := some rn } m) s.pchans } else s

/-- Registers a region's watches anew, each tested at once (R224). -/
def State.rewatch (s : State) (r : Region) : State :=
  r.elems.foldl (fun s e =>
    (s.elem e).watch.toList.foldl (fun s w => match w with | some w => s.testElem w.phys 4 e | none => s) s) s

/-- The update tokens of a captured state go back to their unit, but for one that sits in a siding; a token that the siding has given back
since goes ahead (R218, R370). -/
def State.retoken (s : State) (n : Snap) : State :=
  let gone := fun (u : Nat × Slot) => !s.sentOn u.1 u.2.seq
  { s with updates := n.sided.filter gone ++ s.updates ++ (n.ups.filter gone).map fun (u : Nat × Slot) => (u.1, { u.2 with held := false }) }

/-- Loads a captured region in place: elements, cores, pseudo-channels, rectangles, commands and tokens. An out port that the markers of the cut
had not reached stands as it is, with the tokens of the cut that it is still to take. -/
def State.loadSnap (s : State) (rn : Nat) (n : Snap) (ptr : Bool) : State :=
  match s.region rn with
  | none => s
  | some r =>
    let s := s.retoken n
    let s := n.elems.foldl (fun s x => s.setElem x.1 (reload (s.sentOn x.1) (s.elem x.1) x.2 ptr)) s
    let s := n.cores.foldl (fun s c =>
      s.modCore c.1 fun k =>
        r.joinCore rn c.1 k
          { c.2 with
            ro := k.ro, tlb := k.tlb, img := k.img, tile := []
            ports := Vector.ofFn fun i =>
              (if n.late.contains (8 * c.1 + i.val) then vget k.ports i.val none else vget c.2.ports i.val none).map fun p => { p with held := false } }) s
    let s := (s.leavePcs rn).enterPcs rn n
    let s := s.modRegion rn fun r => { r with rects := n.rects, stp := n.stp }
    let s := { s with flight := s.flight ++ n.links }
    let s := s.resendCmds n.cmds
    let s := r.cores.foldl (fun s c => s.modCore c fun k => { k with ports := k.ports.map fun (p : Option Port) => p.map fun p => if p.reg = rn then s.rewindPort p else p }) s
    ((s.rebar r).replace r).rewatch r

/-- Tokens up to the marker of a cut. -/
def uptoSect (n : Nat) (ts : List Token) : List Token :=
  let ahead := ts.takeWhile fun t => !(t.kind == .sect && t.pay.toNat % 65536 == n)
  ahead ++ (ts.drop ahead.length).take 1

/-- The gating of a rollback (R370): what was emitted before the markers of the cut belongs to it, so those tokens reach the out ports that the
markers are still to reach, as in R352; what is behind the markers goes (R556, log 64). -/
def State.landLate (s : State) (rn : Nat) (r : Region) : State :=
  if r.lastSnap.late.isEmpty then s
  else r.lastSnap.late.foldl (fun s i => s.modPort (i / 8) (i % 8) fun p => { p with waitq := uptoSect r.cutN p.waitq }) (s.land rn r)

/-- Rolls a region back to its last complete cut (R370); a region that cannot enter its pseudo-channels again waits for them (R262). -/
def State.rollback (s : State) (rn : Nat) : State :=
  match s.region rn with
  | none => s
  | some r0 =>
    let s := s.landLate rn r0
    let r := (s.region rn).getD r0
    let s := s.abandon rn r
    let s := s.undoWrites rn r
    let s := s.modRegion rn fun r =>
      { r with
        forming := none, newSnap := r.lastSnap.start r.cutN, cutReq := false, irr := false, sectTok := 0, frz := r.frz.filter fun x => !r.hasElem x.1, pulls := []
        erls := r.erls.filter fun x => match SMap.find x.1 r.lastSnap.elems with | some y => x.2.1 < y.nseq | none => false }
    let s := s.loadSnap rn r.lastSnap false
    let s := s.modRegion rn fun r => if r.unitDone && !s.allReported r then { r with unitDone := false, ccu := false } else r
    if s.pcsFree rn r.lastSnap then s else s.modRegion rn fun r => { r with phase := .configured }

/-! ### Freeze (R351 to R353) -/

/-- Every vector that row 0 has supplied finishes through every row, as tokens that land supply the lower rows (R284). -/
def State.finishWaves (s : State) (rn : Nat) : Nat → State
  | 0 => s
  | n + 1 =>
    match s.region rn with
    | none => s
    | some r =>
      if r.rects.all fun m => m.waves.isEmpty then s
      else
        let s := (List.range r.rects.length).foldl (fun s i =>
          match s.partAt rn i with
          | some (_, m) => if m.waves.isEmpty then s else s.movePass rn i false
          | none => s) s
        (s.landAll rn).finishWaves rn n

/-- Cycles the supplied vectors need at most, markers at their heads among them. -/
def Region.waveBound (r : Region) : Nat := (r.rects.map fun m => 49 * (m.w + m.h + m.waves.length)).sum

/-- The rows that the SCATs of a captured region had taken on are tokens of their ports again (R355). -/
def Snap.heldBack (n : Snap) : Snap :=
  let scats := n.cmds.filterMap fun t =>
    match ((SMap.find t.2.2.elem n.elems).bind fun x => vget x.slots t.2.2.slot none).map Slot.ins with
    | some (.scat _ o) => some (coreOf t.2.2.elem, o.imm.toNat % 8, t.2.2.plan.filterMap RowPlan.tok)
    | _ => none
  { n with
    cores := n.cores.map fun c =>
      (c.1, { c.2 with ports := Vector.ofFn fun i =>
        let toks := (scats.filter fun x => x.1 == c.1 && x.2.1 == i.val).flatMap fun x => x.2.2
        (vget c.2.ports i.val none).map fun p => { p with heldq := toks ++ p.heldq } })
    cmds := n.cmds.map fun t => (t.1, t.2.1, { t.2.2 with plan := [], part := 0, buf := [] }) }

/-- The tile buffers of a captured region's cores, as a readout finds them (R352). -/
def Snap.tiled (n : Snap) : Snap := { n with cores := n.cores.map fun c => (c.1, { c.2 with tile := tileOf n.links c.1 }) }

/-- Steps 1 to 4 of R352: the last steps of the arrays (R304), landing, the cut, and the gating of the clock. Commands and tokens leave for the capture. -/
def State.stopRegion (s : State) (rn : Nat) (why : FreezeWhy) : State :=
  match s.region rn with
  | none => s
  | some r =>
    let own := r.frz.filter fun x => r.hasElem x.1
    let s := own.foldl (fun s x =>
      match s.slot x.1 x.2 with
      | some y => (match y.ins with | .frz _ o => (s.performed x.1 x.2 1).finishWord x.1 x.2 o.d false | _ => s)
      | none => s) s
    let s := s.modRegion rn fun r => { r with frz := r.frz.filter fun x => !r.hasElem x.1 }
    let s := ((s.lastSteps r.cores).land rn r).finishWaves rn r.waveBound
    let s := (s.entriesOf rn).foldl (fun s t => s.settleScat t.1 t.2.1 t.2.2) s
    let s := s.cutForced rn
    match s.region rn with
    | none => s
    | some r =>
      let sn := r.lastSnap.tiled
      let s := { (s.dropEntries rn).unbox r with flight := s.flight.filter fun f => s.destReg f.dst != some rn }.dropFaults rn
      s.setRegion rn { r with phase := .stopped, why := why, stamp := s.cycle, cutReq := false, lastSnap := sn }

/-- Whether a region can be frozen now. -/
def Region.freezable (r : Region) : Bool := r.phase == .running || r.phase == .gated || r.phase == .configured

/-- The other launch of a shared rectangle: a freeze of either freezes the other (R387). -/
def State.sharers (s : State) (rn : Nat) (r : Region) : List Nat :=
  (s.regions.filter fun g =>
    g.1 != rn && g.2.freezable && g.2.x0 == r.x0 && g.2.y0 == r.y0 && g.2.w == r.w && g.2.h == r.h).map Prod.fst

def State.stopShared (s : State) (rn : Nat) (r : Region) (why : FreezeWhy) : State :=
  (s.sharers rn r).foldl (fun s k => ((s.takeSave k).getD s).stopRegion k why) (s.stopRegion rn why)

/-- A freeze that is never refused for want of room (R354); a launch that completes is not frozen (R350). -/
def State.freezeNow (s : State) (rn : Nat) (why : FreezeWhy) : State :=
  match s.region rn with
  | some r => if r.freezable && !s.launchDone rn r then ((s.takeSave rn).getD s).stopShared rn r why else s
  | none => s

/-- A freeze that needs a save area (R354); a launch that completes is not frozen (R350). -/
def State.freezeIf (s : State) (rn : Nat) (why : FreezeWhy) : State :=
  match s.region rn with
  | some r => if r.freezable && !s.launchDone rn r then (match s.takeSave rn with | some t => t.stopShared rn r why | none => s) else s
  | none => s

/-- FREEZE, for the driver or a FRZ: not started without a save area (R354). -/
def State.freeze1 (s : State) (rn : Nat) : State :=
  match s.region rn with
  | some r => s.freezeIf rn (if r.frz.isEmpty then .driver else .frz)
  | none => s

def execFreeze (rn : Nat) (s : State) : Step1 := .next (s.freeze1 rn)

/-! ### SAVE_READOUT (R352 to R357) -/

/-- Returns the ranges of an element's RNG quarters to memory (R181, log 27). -/
def State.returnRng (s : State) (e : Nat) : State :=
  (List.range 4).foldl (fun s q =>
    let x := s.elem e
    if vget x.bmode q .scr = .rng && s.lent.any (fun l => l.2 == (e, q)) then
      let s := { s with lent := s.lent.filter fun l => l.2 != (e, q) }
      s.devWrite .device (vget x.qphys q 0).toNat (Memory.read x.bank (16384 * q) 16384)
    else s) s

/-- Writes back every dirty granule of an element and unfills its MAP quarters (R180, R357). -/
def State.returnMap (s : State) (e : Nat) : State := (s.elem e).filled.foldl (fun s g => s.writeBack e g) s

/-- Frees a region's elements and cores: nothing of the launch runs, waits or watches there, and the configuration stays (R115). -/
def State.vacate (s : State) (rn : Nat) (r : Region) : State :=
  let s := r.elems.foldl (fun s e =>
    s.modElem e fun x => { x.restart e (Vector.replicate 16 0) false with filled := [], dirty := [] }) s
  r.cores.foldl (fun s c =>
    let alone := !(s.regions.any fun g => g.2.part != r.part && g.2.hasCore c)
    s.modCore c fun k =>
      let bare := k.restart (Vector.replicate 8 none) IArray.reset k.img
      if alone then bare else { r.joinCore rn c k bare with ro := k.ro }) s

/-- Answers the FRZ firings that wait for a region (R444). -/
def State.answerFrz (s : State) (rn v : Nat) : State :=
  match s.region rn with
  | none => s
  | some r => r.frz.foldl (fun s x => s.performed x.1 x.2 (word512 v)) (s.setRegion rn { r with frz := [] })

/-- Operations that the memory ports have accepted and not performed (R353). -/
def State.accepted (s : State) (r : Region) : Bool :=
  (r.elems.any fun e => !(s.elem e).posted.isEmpty) || s.updates.any fun u => r.hasElem u.1

/-- A captured element with the values its memory operations returned since (R353); an LDW that still waits is issued again. -/
def lateSlots (there : Nat → Bool) (now kept : Elem) : Elem :=
  { kept with
    slots := Vector.ofFn fun i =>
      match vget kept.slots i.val none, vget now.slots i.val none with
      | some a, some b => some (if a.seq == b.seq && b.stage == 3 then { a with stage := 3, st := .late, lres := b.lres } else resend there a)
      | a, _ => a.map (resend there)
    posted := [] }

/-- The last unit of a save area is written: the region's cores are free (R352, R353). -/
def State.readOut (s : State) (rn : Nat) (r : Region) : State :=
  let s := { (s.leavePcs rn).vacate rn r with sided := s.sided.filter fun u => !r.hasElem u.1 }
  let s := s.modRegion rn fun r =>
    { r with phase := if r.why == .drain then .drained else .frozen, saveT := s.cycle - r.stamp, saveAt := none, rects := [], hold := [],
             defPres := [], defNote := [], clrPres := [] }
  s.answerFrz rn 1

/-- What a readout begins with: quarters go back to memory, and the captured state takes the values that have come since (R353, R357). -/
def State.readFirst (s : State) (rn : Nat) : State :=
  match s.region rn with
  | none => s
  | some r =>
    let s := r.elems.foldl (fun s e => (s.returnMap e).returnRng e) s
    let n := r.lastSnap
    let elems := if r.why == .cutRelease then n.elems else n.elems.map fun x => (x.1, lateSlots (s.sentOn x.1) (s.elem x.1) x.2)
    let banks := elems.map fun x => (x.1, { x.2 with bank := (s.elem x.1).bank, filled := [], dirty := [] })
    s.modRegion rn fun r =>
      { r with saveAt := some 0
               lastSnap := { n with elems := banks, ups := if r.why == .cutRelease then n.ups else [], sided := s.sided.filter fun u => r.hasElem u.1 } }

/-- SAVE_READOUT: the next 64 KiB unit of a stopped region's state goes to its save area, and after the last its cores are free; regions that
wait for an area take theirs in the order they stopped, and a pause stops the stream between two units (R352, R354, R392). -/
def State.readout (s : State) (rn : Nat) : State :=
  match s.region rn with
  | none => s
  | some r =>
    let older := s.regions.any fun g => g.2.part == r.part && g.2.phase == .stopped && g.2.save.isNone && g.2.stamp < r.stamp
    if r.phase != .stopped || s.accepted r || ((s.part r.part).pause && r.why != .pause) || (r.save.isNone && older) then s
    else
      match s.takeSave rn with
      | none => s
      | some s =>
        let s := if r.saveAt.isNone then s.readFirst rn else s
        match s.region rn with
        | none => s
        | some r =>
          let at_ := r.saveAt.getD 0
          let s := s.writeUnit r r.lastSnap at_
          if at_ + 65536 < r.engOffset + r.lastSnap.engSize r then s.modRegion rn fun r => { r with saveAt := some (at_ + 65536) }
          else s.readOut rn r

def execSaveReadout (rn : Nat) (s : State) : Step1 := .next (s.readout rn)

/-! ### Drain (R361) -/

/-- A drain starts and takes its save area, if the pool has room (R354): in ports stop at their next SECT insertion point or at the end of their unit. -/
def execDrain (rn : Nat) (s : State) : Step1 :=
  .next (match s.region rn with
    | some r => if r.phase = .running && !r.drain then ((s.takeSave rn).getD s).modRegion rn fun r => { r with drain := true } else s
    | none => s)

/-- The first TAIL of a drain has reached the signal box: some port has sent one, or some element has passed one on. -/
def State.tailSeen (s : State) (r : Region) : Bool :=
  r.drain && (r.cores.any fun c => (s.core c).ports.toList.any fun p => match p with | some p => p.tailed | none => false)

/-- A region without in ports: the tail lamp starts at its elements without section inputs. -/
def State.noInPorts (s : State) (r : Region) : Bool :=
  r.cores.all fun c => (s.core c).ports.toList.all fun p => match p with | some p => p.out | none => true

/-- Whether an element may pass the tail lamp on: TAIL stands at the head of each of its section inputs (R361). -/
def State.tailDue (s : State) (e : Nat) : Bool :=
  match s.regOf e with
  | none => false
  | some r =>
    let x := s.elem e
    let tail := fun q => match s.standing e q with | some t => t.kind == .tail | none => false
    r.drain && r.phase == .running && !x.tailed &&
      (match x.sectionInputs with | [] => s.tailSeen r || s.noInPorts r | qs => qs.all tail)

def execTailLampPass (e : Nat) (s : State) : Step1 :=
  .next (if s.tailDue e then
      s.modElem e fun x =>
        let y := x.sectionInputs.foldl Elem.dequeue x
        { y.emit (y.forwardLabels.map fun l => ⟨l, Token.bare .tail (ctlLabel l) 0⟩) with tailed := true }
    else s)

/-- Leaves matrix mode in every rectangle of a region (R272, R285). -/
def State.leaveMatrix (s : State) (rn : Nat) : State :=
  match s.region rn with
  | none => s
  | some r =>
    let s := s.setRegion rn { r with rects := [] }
    r.elems.foldl (fun s e => if (s.elem e).inRect then s.modElem e fun x => { x with inRect := false } else s) s

/-- Whether a drain is complete (R361). -/
def State.drainDone (s : State) (rn : Nat) (r : Region) : Bool :=
  r.drain && r.phase == .running && s.idle rn r &&
    r.cores.all fun c => (s.core c).ports.toList.all fun p => match p with | some p => !p.out || p.tailed | none => true

/-- DRAIN_COMPLETION: the open interval commits and the region stops for its readout (R361, R362). -/
def execDrainCompletion (rn : Nat) (s : State) : Step1 :=
  .next (match s.region rn with
    | some r => if s.drainDone rn r && !s.launchDone rn r then (s.leaveMatrix rn).stopRegion rn .drain else s
    | none => s)

end Sys2Proof.Machine
end

