-- ==== Sys2Proof/Machine/LaunchOps.lean ====
section
/-! DEFINITION. Launch records (R328 to R330), the counter chain (R343), release and successors (R344), the end of a launch (R342), unit
starts (R332, R337), cancel (R348, R349), the queue registers (R326, R327), and their steps. -/

namespace Sys2Proof.Machine

open Sys2Proof

/-! ### Records -/

/-- Fields of a launch record (R328). -/
def parseRecord (a : Nat) (b : List Byte) : LaunchRec :=
  let u := fieldAt b
  let f := u 0x0B 1
  { addr := a, img := BitVec.ofNat 64 (u 0 8), shw := u 8 1, shh := u 9 1, pri := u 0x0A 1, intr := f.testBit 2,
    cof := f.testBit 1, pers := f.testBit 0, grain := u 0x0C 4, rbase := BitVec.ofNat 64 (u 0x10 8), rcnt := u 0x18 8,
    pb := BitVec.ofNat 64 (u 0x20 8), pbsz := u 0x28 4, depc := u 0x2C 4, ccu := u 0x30 8, ccl := u 0x38 8, ccg := u 0x40 8,
    ccp := u 0x48 8, ccj := u 0x50 8, sq := u 0x5C 1, nsuc := u 0x5D 1, quant := u 0x60 4,
    succ := (List.range (min 3 (u 0x5D 1))).map fun i => u (0x68 + 8 * i) 8 }

/-- A counter is an aligned word on a normal page (R329). -/
def Access.counter : Access := ⟨[0], .host, false, false⟩
def State.counterOk (s : State) (p a : Nat) : Bool :=
  a == 0 || (a % 8 == 0 && match s.resolve noTlb p a .counter with | .ok _ => true | _ => false)

/-- The bytes of a record, if they can be read. -/
def State.recordBytes? (s : State) (p a : Nat) : Option (List Byte) :=
  match s.ownRead p a 128 .record with | .ok b => some b | .error _ => none

/-- Whether a record passes the dispatcher's check (R330). -/
def State.recordOk (s : State) (p a : Nat) (b : List Byte) : Bool :=
  let l := parseRecord a b
  let u := fieldAt b
  a % 128 == 0 && 1 ≤ l.shw && l.shw ≤ 16 && 1 ≤ l.shh && l.shh ≤ 16 && l.grain != 0 && l.pri ≤ 23 && l.nsuc ≤ 3 && l.sq ≤ 63 &&
    u 0x0B 1 < 8 && u 0x5E 2 == 0 && u 0x64 4 == 0 && l.rcnt < 2 ^ 63 && l.depc == 0 &&
    ((List.range 3).all fun i => i < l.nsuc || u (0x68 + 8 * i) 8 == 0) &&
    [l.ccu, l.ccl, l.ccg, l.ccp, l.ccj].all (s.counterOk p)

/-! ### Heads -/

/-- HEAD moves past entries that a cancel has removed; the fuel counts entries. -/
def LQueue.settle (q : LQueue) : Nat → LQueue
  | 0 => q
  | n + 1 =>
    if q.used != 0 && q.gone.contains q.head.toNat then
      ({ q with gone := q.gone.filter fun i => i != q.head.toNat, head := q.head + 1 } : LQueue).settle n
    else q

/-- HEAD advances when the launch at it completes (R339). -/
def State.popHead (s : State) (p q : Nat) : State :=
  let x := s.queue p q
  s.setQueue p q (({ x with head := x.head + 1 } : LQueue).settle x.gone.length)

/-- A launch of a queue is placed or frozen (R325, R339). -/
def State.launchOf (s : State) (p q : Nat) : Option (Nat × Region) :=
  s.regions.find? fun g => g.2.part == p && g.2.queue == q && g.2.phase != .closed

/-- The record address in entry i of a queue. -/
def State.entryAt (s : State) (p : Nat) (q : LQueue) (i : W32) : Option Nat :=
  match s.ownRead p (q.entryAddr i) 8 .ringRead with | .ok b => some (natLE b) | .error _ => none

/-- Entries between HEAD and TAIL that no cancel has removed, by index; past the launch that is placed or frozen. -/
def State.waitingEntries (s : State) (p qn : Nat) : List (Nat × Nat) :=
  let q := s.queue p qn
  if !q.en then []
  else
    ((List.range q.used).drop (s.launchOf p qn).isSome.toNat).filterMap fun i =>
      let k := q.head + BitVec.ofNat 32 i
      if q.gone.contains k.toNat then none else (s.entryAt p q k).map fun a => (k.toNat, a)

/-! ### The counter chain (R343) -/

/-- Ranges lent to a region's RNG quarters (R181). -/
def State.lends (s : State) (r : Region) : Bool := s.lent.any fun l => r.hasElem l.2.1

/-- A region's ranges return and its cores are free (R181, R342). -/
def State.freeRegion (s : State) (rn : Nat) : State :=
  match s.region rn with
  | none => s
  | some r =>
    let s := r.elems.foldl State.returnRng s
    { s with regions := SMap.erase rn s.regions }

/-- The completion counter of a graph has been released: closed regions of it return their ranges (R181). -/
def State.closeGraph (s : State) (p a : Nat) : State :=
  (s.regions.filter fun g => g.2.phase == .closed && g.2.part == p && g.2.launch.ccg == a).foldl (fun s g => s.freeRegion g.1) s

/-- The CNT record of a counter (R343, R373), of core 0 where no region is placed. -/
def State.postCnt (s : State) (p : Nat) (l : LaunchRec) (rn : Option Nat) (a : Nat) : State :=
  let c := ((rn.bind s.region).map fun r => coreAt r.x0 r.y0).getD 0
  let f : FaultRec :=
    { code := 0x15, flg := 0, src := 4, elid := 64 * c, tix := 0, slot := 0, addr := BitVec.ofNat 64 a,
      lrec := BitVec.ofNat 64 l.addr, cutn := ((rn.bind s.region).map Region.cutN).getD 0, det := 0, word := 0,
      tns := (s.part p).tNow, prog := 0, rseq := 0 }
  (s.postRecord p f none).1

/-- The chain over the levels that remain: address, and whether it is the graph's. -/
def State.chainGo (s : State) (p : Nat) (l : LaunchRec) (rn : Option Nat) : List (Nat × Bool) → State
  | [] => s
  | (a, graph) :: rest =>
    if a = 0 then s.chainGo p l rn rest
    else
      match s.counterAdd p a (-1) with
      | (s, some 0) => s.postCnt p l rn a
      | (s, some 1) => (if graph then s.closeGraph p a else s).chainGo p l rn rest
      | (s, _) => s

/-- STATUS and the counters of a launch that ends, and its interrupt after the last counter write (R330, R343). -/
def State.endLaunch (s : State) (p q : Nat) (l : LaunchRec) (rn : Option Nat) (status : Nat) : State :=
  let s := match s.ownWrite p (l.addr + 0x58) (bytesLE 4 status) .copyWrite with | .ok t => t | .error _ => s
  let s := s.chainGo p l rn [(l.ccl, false), (l.ccg, true), (l.ccp, false), (l.ccj, false)]
  if l.intr then s.irq p (s.queue p q).vec else s

/-! ### Release and successors (R344) -/

/-- Decrements the DEPC of one successor; at zero the record waits to be appended to its queue. -/
def State.decrement (s : State) (p a : Nat) : State :=
  match s.ownRead p (a + 0x2C) 4 .record with
  | .error _ => s
  | .ok b =>
    match s.ownWrite p (a + 0x2C) (bytesLE 4 (natLE b + (2 ^ 32 - 1))) .copyWrite with
    | .error _ => s
    | .ok s =>
      if natLE b != 1 then s
      else
        match s.ownRead p (a + 0x5C) 1 .record with
        | .ok q => s.modPart p fun x => { x with appends := x.appends ++ [(natLE q % 64, a)] }
        | .error _ => s

def State.releaseRec (s : State) (p : Nat) (l : LaunchRec) : State := l.succ.foldl (fun s a => s.decrement p a) s

/-- Whether a launch is released: every unit has been, and a persistent launch's pool is empty. -/
def Region.released (r : Region) : Bool :=
  r.launch.units ≤ r.nrel && match r.pool with | some p => r.launch.units ≤ p.next | none => true

/-- A released launch releases its successors, once (R344, R350). -/
def State.releaseRegion (s : State) (rn : Nat) : State :=
  match s.region rn with
  | some r =>
    if r.released && !r.succRel && r.phase != .closed then (s.setRegion rn { r with succRel := true }).releaseRec r.part r.launch else s
  | none => s

/-- Launches of a partition that an ERLS has released and whose successors have not been told. -/
def State.releaseDue (s : State) (p : Nat) : List Nat :=
  (s.regions.filter fun g => g.2.part == p && g.2.released && !g.2.succRel && g.2.phase != .closed).map Prod.fst

/-- The first append whose queue takes it now: enabled and not full, its ring's page writable. -/
def State.appendDue (s : State) (p : Nat) : Option (Nat × Nat × List (Loc × Nat)) :=
  (s.part p).appends.findSome? fun (q, a) =>
    let x := s.queue p q
    if !x.en || x.full then none
    else match s.resolveRun noTlb p (x.entryAddr x.tail) 8 .ring with | .ok ls => some (q, a, ls) | _ => none

/-- SUCCESSOR_APPEND: released launches tell their successors, and the oldest append that finds room is made. -/
def execSuccessorAppend (p : Nat) (s : State) : Step1 :=
  .next (match s.releaseDue p with
    | rn :: _ => s.releaseRegion rn
    | [] =>
      match s.appendDue p with
      | none => s
      | some (q, a, ls) => (s.pushEntry p q ls a).modPart p fun x => { x with appends := x.appends.erase (q, a) })

/-! ### The end of a launch (R342) -/

/-- Whether an out port with an open window holds tokens, whose DATA it has still to write (R130, R337, R342). -/
def Port.owes (p : Port) : Bool := p.out && p.open_ && !p.indirect && !p.tailed && !p.waitq.isEmpty

/-- Writes of a region that memory has accepted and not performed, its sidings among them. -/
def State.writing (s : State) (r : Region) : Bool := s.accepted r || s.sided.any fun u => r.hasElem u.1

/-- Writes of a region that are not performed, those of the tokens that its out ports hold among them. -/
def State.unwritten (s : State) (rn : Nat) (r : Region) : Bool :=
  s.writing r || r.cores.any fun c => (List.range 8).any fun k => match s.port c k with | some p => p.reg == rn && p.owes | none => false

/-- A region leaves its cores: engine state, matrix mode, tokens and watches go, and dirty granules are written back. -/
def State.clearRegion (s : State) (rn : Nat) (r : Region) : State :=
  let s := r.elems.foldl State.returnMap s
  (((s.leavePcs rn).leaveMatrix rn).abandon rn r).vacate rn r

/-- The counters of a region that ends, and its cores (R181, R342, R343): now says that its ranges return at once. -/
def State.closeRegion (s : State) (rn : Nat) (r : Region) (status : Nat) (now : Bool) : State :=
  let s := ((s.freeSave rn).answerFrz rn 0).modRegion rn fun g => { g with phase := .closed, pool := none }
  let s := s.endLaunch r.part r.queue r.launch (some rn) status
  let s := if now || r.launch.ccg = 0 || !s.lends r then s.freeRegion rn else s
  s.popHead r.part r.queue

/-- LAUNCH_COMPLETION: the open interval commits, everything the launch holds is left, and STATUS and the counters are written. -/
def execLaunchCompletion (rn : Nat) (s : State) : Step1 :=
  .next (match s.region rn with
    | none => s
    | some r =>
      if !s.launchDone rn r || s.unwritten rn r then s
      else
        let s := (((s.commit rn true fun _ => true).performHeld rn r).unitCount1 rn).releaseRegion rn
        (s.clearRegion rn r).closeRegion rn r 0 false)

/-! ### UNIT_START (R332, R337) -/

/-- Whether a unit's work is done and its writes are performed, and another unit remains; its tokens land with the cut (R337). -/
def State.unitOver (s : State) (rn : Nat) (r : Region) : Bool :=
  r.phase == .running && !r.launch.pers && r.unitDone && r.unit + 1 < r.launch.units && s.idle rn r && !s.writing r

/-- The launch-start state of a unit start in every element and core; tokens that have not entered a queue are discarded (R92, R332, R337). -/
def State.resetUnit (s : State) (rn : Nat) (r : Region) : State :=
  let s := s.leaveMatrix rn
  let s := r.elems.foldl (fun s e =>
    let k := r.relElem e
    s.modElem e fun x => clearZero r.zero k (x.restart e (SMap.get (Vector.replicate 16 0) k r.init) true)) s
  let s := { s.dropFaults rn with flight := s.flight.filter fun f => s.destReg f.dst != some rn }
  r.cores.foldl (fun s c =>
    let arr := SMap.get IArray.reset (relCore (r.coreX c) (r.coreY c)) r.arrs
    s.modCore c fun k =>
      let ports := k.ports.map fun p => p.map fun p =>
        if p.reg = rn then { p with waitq := [], heldq := [], cmd := none, held := false, cut := 0, full := 0, tailed := false } else p
      r.joinCore rn c k { k.restart ports arr k.img with ro := k.ro }) s

/-- UNIT_START: every token lands, and once the out ports have written theirs (R337, steps 3 and 4), the forced cut before the CCU release, the release, the reset, and the arming of the next unit under a cut of its own. -/
def execUnitStart (rn : Nat) (s : State) : Step1 :=
  .next (match s.region rn with
    | none => s
    | some r =>
      if !s.unitOver rn r then s
      else if (s.land rn r).unwritten rn r then s.land rn r
      else
        let s := (s.takeForced rn).unitCount1 rn
        match s.region rn with
        | none => s
        | some r =>
          let n := (r.cutN + 1) % 65536
          let s := (s.resetUnit rn r).shadowAll rn n
          let s := s.modRegion rn fun g => { g with cutN := n, forming := none, newSnap := Snap.empty, cutReq := false, irr := false, sectTok := 0, erls := [], pulls := [] }
          let s := s.armUnit rn (r.unit + 1)
          match s.region rn with
          | none => s
          | some r => s.setRegion rn { r with lastSnap := s.capture rn r })

/-! ### Cancel (R348, R349) -/

/-- The counter a level names in a record. -/
def LaunchRec.counter (l : LaunchRec) (level : Nat) : Nat :=
  match level with | 1 => l.ccl | 2 => l.ccg | 3 => l.ccp | _ => l.ccj

/-- A record by address, if it can be read. -/
def State.record? (s : State) (p a : Nat) : Option LaunchRec := (s.recordBytes? p a).map (parseRecord a)

/-- Launches of a partition that the dispatcher knows: placed, frozen, queued or about to be appended. -/
def State.known (s : State) (p : Nat) : List LaunchRec :=
  ((s.regions.filter fun g => g.2.part == p && g.2.phase != .closed).map fun g => g.2.launch) ++
    ((List.range 64).flatMap fun q => (s.waitingEntries p q).filterMap fun e => s.record? p e.2) ++
      (s.part p).appends.filterMap fun x => s.record? p x.2

/-- The record of a launch: as it was read when it was placed, else as memory holds it. -/
def State.recOf (s : State) (p a : Nat) : Option LaunchRec :=
  match s.regions.find? fun g => g.2.part == p && g.2.launch.addr == a && g.2.phase != .closed with
  | some g => some g.2.launch
  | none => s.record? p a

/-- Records and all their successors, transitively, each once; the fuel bounds the records of an address space. -/
def State.successors (s : State) (p : Nat) : Nat → List Nat → List Nat → List Nat
  | 0, _, seen => seen
  | _ + 1, [], seen => seen
  | n + 1, a :: todo, seen =>
    if seen.contains a then s.successors p n todo seen
    else s.successors p n (todo ++ ((s.recOf p a).map LaunchRec.succ).getD []) (seen ++ [a])

/-- Removes every entry of a record from the queues, and from the appends that wait. -/
def State.unqueue (s : State) (p a : Nat) : State :=
  let s := (List.range 64).foldl (fun s q =>
    let mine := (s.waitingEntries p q).filter fun e => e.2 == a
    if mine.isEmpty then s
    else
      let x := s.queue p q
      let x := { x with gone := x.gone ++ mine.map Prod.fst }
      s.setQueue p q (if (s.launchOf p q).isNone then x.settle x.gone.length else x)) s
  s.modPart p fun x => { x with appends := x.appends.filter fun y => y.2 != a }

/-- Stops a placed or frozen launch: a placed one rolls back its open interval, and its saved state goes (R348). -/
def State.cancelRegion (s : State) (rn : Nat) (r : Region) (status : Nat) : State :=
  let s := if r.phase = .running || r.phase = .gated then s.rollback rn else s
  let s := { s.freeSave rn with vios := s.vios.filter fun v => v.2 != VioAt.region r.part r.queue }
  if r.placed then (s.clearRegion rn r).closeRegion rn r status true
  else
    let s := (s.answerFrz rn 0).endLaunch r.part r.queue r.launch (some rn) status
    ({ s with regions := SMap.erase rn s.regions }).popHead r.part r.queue

/-- Cancels one launch of a partition by its record, wherever it is; one that has run or completes now is past cancelling (R350). -/
def State.cancelRec (s : State) (p a status : Nat) : State :=
  match s.regions.find? fun g => g.2.part == p && g.2.launch.addr == a && g.2.phase != .closed with
  | some g => if s.launchDone g.1 g.2 then s else s.cancelRegion g.1 g.2 status
  | none =>
    match s.record? p a with
    | none => s.unqueue p a
    | some l =>
      let q := (List.range 64).find? fun q => (s.waitingEntries p q).any fun e => e.2 == a
      let waits := q.isSome || ((s.part p).appends.any fun x => x.2 == a) || l.depc != 0
      if waits then (s.unqueue p a).endLaunch p (q.getD l.sq) l none status else s

/-- Cancels launches and their successors, the first ones with a status of their own. -/
def State.cancelAll (s : State) (p : Nat) (sel : List Nat) (status : Nat) : State :=
  (s.successors p (2 ^ 50) sel []).foldl (fun s a => s.cancelRec p a (if sel.contains a then status else 0x20)) s

/-- CANCEL: a write of CNL (R348). -/
def execCancel (p : Nat) (v : W32) (s : State) : Step1 :=
  .next (
    let c := (s.part p).cna.toNat
    if c = 0 || v = 0 || v > 4 then s
    else
      let l := s.known p
      let near := (s.successors p (2 ^ 50) (l.map LaunchRec.addr) []).filterMap (s.recOf p)
      s.cancelAll p ((near.filter fun l => l.counter v.toNat == c).map LaunchRec.addr) 0x20)

/-! ### The queue registers (R326, R327) -/

/-- QUEUE_TAIL_WRITE: a TAIL outside the ring, or behind the present one, is ignored, and so is one on a device-fed queue. -/
def execQueueTailWrite (p q : Nat) (v : W32) (s : State) : Step1 :=
  .next (
    let x := s.queue p q
    if x.dev || 2 ^ x.rsz < (v - x.head).toNat || (v - x.head).toNat < x.used then s else s.setQueue p q { x with tail := v })

/-- The defined bits of QCTL. -/
def qctlMask : W32 := 0xF0FF001F

/-- QCTL_WRITE: taken only while EN is 0; setting EN zeroes HEAD and TAIL. -/
def execQctlWrite (p q : Nat) (v : W32) (s : State) : Step1 :=
  .next (
    let x := s.queue p q
    if x.en then s
    else
      let y := { x with ctl := v &&& qctlMask }
      s.setQueue p q (if y.en then { y with head := 0, tail := 0, gone := [] } else y))

end Sys2Proof.Machine
end

