-- ==== Sys2Proof/Machine/FaultOps.lean ====
section
/-! DEFINITION. Faults (R371, R372), translation requests and their answers (R197, R198, R375), cut releases (R376), violations (R382), the
fault ring's registers (R374), invalidations (R195), eviction and migration (R200, R201), and their steps. -/

namespace Sys2Proof.Machine

open Sys2Proof

/-! ### Retry (R371) -/

/-- Serves one queue of an engine whatever its turn. -/
def State.serveAlone (s : State) (g q : Nat) : State :=
  let en := s.engine g
  nextOr ((s.setEngine g { en with turn := q }).serveEngine g q) s

/-- Performs again what a fault holds; a firing without a slot has nothing of its own to perform. -/
def State.again (s : State) (f : PendFault) : State :=
  match f.at_ with
  | .slot e k =>
    (match s.slot e k with
     | some y => if (aluFmt y.ins).isSome then s.finishFiring e k y else s.attempt e k
     | none => s)
  | .entry g q id =>
    (match (s.region f.reg).bind fun r => r.defNote.find? fun n => n.at_ == .entry g q id with
     | some n => if ((s.equeue g q).any fun t => t.id == id && t.stage == 2) then s.makeNote f.reg false n else s
     | none => s.serveAlone g q)
  | .port c k => if ((s.port c k).map Port.out).getD false then s.portWrite c k else s.portRead c k
  | .posted e n => performPosted e n s
  | .tap c b => s.tapArrival (c * 64) c b
  | _ => s

/-- What shows whether a retry has passed the point of its fault. -/
def State.point (s : State) (a : FaultAt) : List Nat :=
  match a with
  | .slot e k =>
    (match s.slot e k with
     | some y => [y.seq, y.stage, y.prog, y.sub, ((s.elem e).waiting.any fun w => w.slot == some k).toNat]
     | none => [])
  | .entry g q id =>
    (match (s.equeue g q).find? fun t => t.id == id with
     | some t => [t.stage, t.part, ((s.slot t.elem t.slot).map Slot.prog).getD 0]
     | none => [])
  | .port c k => (match s.port c k with | some p => [p.next, p.cursor, p.ahead.length, p.waitq.length] | none => [])
  | .posted e n => (match (s.elem e).posted.find? fun y => y.seq == n with | some y => [y.sub] | none => [])
  | .tap c b => [(s.bar c b).arr.toNat, (s.bar c b).heldT, (s.bar c b).cutT]
  | _ => []

/-- Whether the firing of a fault without a slot faults again: its heads still mismatch, or it is a TRAP or forwards a head on the
wrong plane. A soft error recurs only as an event of its own. -/
def State.issueRecurs (s : State) (f : PendFault) (e : Nat) : Bool :=
  if f.frec.code == 0x16 then false
  else if f.frec.code != 0x08 then true
  else
    let w := f.frec.word
    Machine.shapeOf (decodeTU (BitVec.ofNat 32 (w.toNat / 2 ^ 96)) (BitVec.ofNat 32 (w.toNat / 2 ^ 64))) (s.elem e) == Shape.mismatch

/-! ### Lasting faults (R372) -/

/-- Where a fault counts as the same: element and transition of a firing or an engine command, port, or barrier (R372). -/
def faultPlace (f : FaultRec) (a : FaultAt) : FaultAt :=
  if f.src = 0 || f.src = 2 || f.src = 5 then .issue f.elid f.tix else if f.src = 1 then .port (f.elid / 64) f.tix else a

/-- A lasting fault: cancel under COF, freeze while an irrevocable operation is in progress or on a recurrence, else rollback; and its
record (R349, R369, R372). -/
def State.lasting (s : State) (rn : Nat) (f : FaultRec) (a : FaultAt) : State :=
  match s.region rn with
  | none => s
  | some r =>
    let place := faultPlace f a
    let before := r.lastFlt
    let post (s : State) (flg : Nat) : State :=
      (s.postRecord r.part { f with flg := flg, cutn := r.cutN } (some rn)).1
    if !r.freezable then (s.postRecord r.part { f with cutn := r.cutN } none).1
    else if r.launch.cof then
      (s.postRecord r.part { f with flg := flgCAN, cutn := r.cutN } none).1.cancelAll r.part [r.launch.addr] 0x21
    else if s.irrevocable1 rn r then post (s.freezeNow rn .irrevocable) (flgFRZ + flgIRV)
    else if r.lastFlt.contains (f.code, place) then post (s.freezeNow rn .recur) (flgFRZ + flgREP)
    else post ((s.rollback rn).modRegion rn fun r => { r with lastFlt := (f.code, place) :: before }) flgRB

/-! ### Violations (R382) -/

/-- A violation's record goes to both rings, and its master waits for the hypervisor. -/
def State.postVio (s : State) (p : Nat) (f : FaultRec) (reg : Option Nat) (what : VioAt) : State :=
  let (s, n) := s.postRecord p f reg
  let s := s.postModule { f with rseq := n }
  { s with vios := s.vios ++ [(n, what)] }

/-- A violation freezes its master: the engine queue, or the region. -/
def State.violation (s : State) (f : PendFault) : State :=
  match s.region f.reg with
  | none => s
  | some r =>
    match f.at_ with
    | .entry g q id => s.postVio r.part { f.frec with flg := 0, cutn := r.cutN } none (.queue g q id)
    | _ => (s.freezeNow f.reg .violation).postVio r.part { f.frec with flg := flgFRZ, cutn := r.cutN } (some f.reg) (.region r.part r.queue)

/-- VIO_RELEASE: the hypervisor names a record by its RSEQ; the oldest master frozen under it goes on. -/
def execVioRelease (v : W32) (s : State) : Step1 :=
  .next (match s.vios.find? fun x => x.1 == v.toNat with
    | none => s
    | some x =>
      let s := { s with vios := s.vios.erase x }
      match x.2 with
      | .region _ _ => s
      | .queue g q id => s.hold (.entry g q id) false
      | .func f => { s with funcs := vset s.funcs f { vget s.funcs f ⟨0, .unlocked, false⟩ with stopped := false } })

/-! ### Translation requests (R197, R375) -/

/-- Forgets that a PASID page has no translation. -/
def State.forget (s : State) (p va : Nat) : State := { s with noMap := s.noMap.filter fun x => x.2.1 != tlbKey p va false }

/-- The lowest tag that is not in use, of 256. -/
def State.freeTag (s : State) : Option Nat := (List.range 256).find? fun t => s.tags.all fun x => x.tag != t

/-- A translation fault becomes a request: a record in the partition's ring, or for a PASID a page request, if a tag is free. -/
def State.request (s : State) (f : PendFault) : Option State :=
  match s.region f.reg with
  | none => some s
  | some r =>
    let p := s.part r.part
    match p.pasid with
    | none =>
      let (s, n) := s.postRecord r.part f.frec none
      some { s with pgfs := s.pgfs ++ [⟨n, r.part, f.reg, f.at_, f.frec, f.cycle⟩] }
    | some id =>
      match s.freeTag with
      | none => none
      | some t =>
        let va := f.frec.addr.toNat
        let s := s.forget r.part va
        some { s with tags := s.tags ++
          [⟨t, p.fn, (vget s.funcs p.fn ⟨0, .unlocked, false⟩).gen, id, va / 65536, f.reg, f.at_, f.frec, f.cycle, none⟩] }

/-! ### FAULT_RETRY -/

/-- A fault that is not retried: it acts in the cycle it is raised in (R135, R371). -/
def PendFault.atOnce (f : PendFault) : Bool := f.frec.code == 0x02 || f.frec.code == 0x1A || f.at_ == .none

/-- Whether a fault's step is due: its region runs, or is gone. -/
def State.faultDue (s : State) (f : PendFault) : Bool :=
  (match s.region f.reg with | some r => r.phase == .running | none => true) && (f.atOnce || f.cycle < s.cycle) &&
    (f.frec.code != 0x02 || (s.request f).isSome)

/-- The n-th pending fault's step: a request, a violation, or the retry; what neither passes nor faults again is retried later. -/
def State.faultStep (s : State) (n : Nat) : State :=
  match s.pend[n]? with
  | none => s
  | some f =>
    if !s.faultDue f then s
    else
      let s0 := { s with pend := s.pend.eraseIdx n }
      if (s.region f.reg).isNone then s0
      else if f.frec.code == 0x02 then (s0.request f).getD s
      else if f.frec.code == 0x1A then s0.violation f
      else
        match f.at_ with
        | .none => s0.lasting f.reg f.frec f.at_
        | .issue e _ =>
          if s.issueRecurs f e then s0.lasting f.reg f.frec f.at_ else (s0.hold f.at_ false).transient f.reg f.frec
        | a =>
          let t := (s0.hold a false).again f
          if t.faulted a then { t with pend := t.pend.filter fun x => x.at_ != a }.lasting f.reg f.frec a
          else if t.point a != s0.point a then t.transient f.reg f.frec
          else let t := t.hold a true; { t with pend := t.pend ++ [{ f with cycle := s.cycle }] }

def execFaultRetry (n : Nat) (s : State) : Step1 := .next (s.faultStep n)

/-! ### Answers (R198, R375) -/

/-- The cycle in which FLTTMO expires for a fault, 1,900 cycles to a microsecond (R199). -/
def State.expiry (s : State) (p cycle : Nat) : Nat := cycle + 1900 * (s.part p).fltTmo.toNat

/-- The page of an access is mapped again: it is retried with the new translation, which enters the TLB. -/
def State.mapped (s : State) (p : Nat) (f : PendFault) : State :=
  let va := f.frec.addr.toNat
  let (first, n) := leafPages va (match walk s p va with | .ok w => w.2 | .error _ => false)
  let s := { s with pinned := s.pinned.filter fun x => !(x.1 == p && first ≤ x.2 && x.2 < first + n) }
  ((s.fillTlb (f.frec.elid / 64) p va).hold f.at_ false).again f

/-- PGRSP_WRITE: an answer that comes in the cycle of expiry only leaves its translation. -/
def execPgrspWrite (p : Nat) (v : W64) (s : State) : Step1 :=
  .next (match s.pgfs.find? fun f => f.part == p && f.rseq == v.toNat % 2 ^ 32 with
    | none => s
    | some f =>
      let g : PendFault := ⟨f.reg, f.frec, f.at_, f.cycle⟩
      let bad := v.getLsbD 32
      if s.expiry p f.cycle ≤ s.cycle then (if bad then s else s.fillTlb (f.frec.elid / 64) p f.frec.addr.toNat)
      else
        let s := { s with pgfs := s.pgfs.filter fun x => x != f }
        if bad then s.lasting f.reg f.frec f.at_ else s.mapped p g)

/-- The enabled partition that a function is bound to. -/
def State.partOfFn (s : State) (fn : Nat) : Option Nat :=
  (List.range 8).find? fun p => (s.part p).en && (s.part p).fn == fn

/-- A function, with its generation. -/
def State.func (s : State) (f : Nat) : Func := vget s.funcs f ⟨0, .unlocked, false⟩

/-- A held access whose request has gone asks again. -/
def State.askAgain (s : State) (t : PageReq) : State :=
  if t.at_ = .none then s else { s with pend := s.pend ++ [⟨t.reg, t.frec, t.at_, t.cycle⟩] }

/-- PAGE_RESPONSE: accepted if tag, function and generation bit all match, and counted as stale otherwise (R375); one that comes in the
cycle of expiry does not stop the cut release (R198). -/
def execPageResponse (tag fn : Nat) (g ok : Bool) (s : State) : Step1 :=
  .next (match s.tags.find? fun t => t.tag == tag && t.fn == fn && t.gen.testBit 0 == g with
    | none => (match s.partOfFn fn with | some p => s.countFlts p 24 8 | none => s)
    | some t =>
      let s' := { s with tags := s.tags.filter fun x => x.tag != tag }
      if t.retired.isSome then
        let s' := s'.askAgain t
        (match s.partOfFn fn with | some p => s'.countFlts p 24 8 | none => s')
      else if (s.func fn).gen.testBit 0 != g then (match s.partOfFn fn with | some p => s.countFlts p 24 8 | none => s)
      else if t.at_ == .none then s'
      else if s.expiry (((s.region t.reg).map Region.part).getD 0) t.cycle ≤ s.cycle then s
      else if ok then (s'.hold t.at_ false).again ⟨t.reg, t.frec, t.at_, t.cycle⟩
      else s'.lasting t.reg t.frec t.at_)

/-- FUNCTION_LEVEL_RESET: GEN goes up and the function's requests are retired. -/
def execFunctionLevelReset (f : Nat) (s : State) : Step1 :=
  .next (if 9 ≤ f then s
    else
      { s with
        funcs := vset s.funcs f { s.func f with gen := (s.func f).gen + 1 }
        tags := s.tags.map fun t => if t.fn == f && t.retired.isNone then { t with retired := some s.cycle } else t })

/-- RETIRED_TAG_TIMEOUT: 1 s after the reset, 1.9 × 10^9 cycles, a retired tag frees; its access asks again. -/
def execRetiredTagTimeout (tag : Nat) (s : State) : Step1 :=
  .next (match s.tags.find? fun t => t.tag == tag with
    | some t =>
      (match t.retired with
       | some c =>
         if c + 1900000000 ≤ s.cycle then
           { s with tags := s.tags.filter fun x => x.tag != tag }.askAgain t
         else s
       | none => s)
    | none => s)

/-! ### CUT_RELEASE (R198, R376) -/

/-- Rolls a region back to its last complete cut, whose state, with pointers at 31, is read out to a save area of KIND 3 (R47, R376). -/
def State.releaseCut (s : State) (rn : Nat) : State :=
  let s := s.rollback rn
  match s.region rn with
  | none => s
  | some r =>
    let ups := s.updates.filter fun u => r.hasElem u.1
    let s := s.abandon rn r
    let late := r.lastSnap.late.filterMap fun i => (s.port (i / 8) (i % 8)).map fun p => (i, p)
    let there : Snap := { r.lastSnap with late := [], cores := r.lastSnap.cores.map fun (c : Nat × Core) => (c.1, withPorts late c.1 c.2) }
    let cut := { there.heldBack.tiled with ups := ups }
    let elems := cut.elems.map fun x => (x.1, { x.2 with lfp := Vector.replicate 8 31, resv := x.2.rebuilt })
    let s := s.setRegion rn
      { r with
        phase := .stopped, why := .cutRelease, stamp := s.cycle, frz := r.frz.filter fun x => !r.hasElem x.1
        lastSnap := { cut with elems := elems } }
    let s := r.elems.foldl (fun s e => if (s.elem e).posted.isEmpty then s else s.modElem e fun x => { x with posted := [] }) s
    (s.takeSave rn).getD s

/-- The oldest access of a region that has waited FLTTMO for its translation. -/
def State.lateFault (s : State) (rn : Nat) (r : Region) : Option FaultRec :=
  ((s.pgfs.filter fun f => f.reg == rn && s.expiry r.part f.cycle ≤ s.cycle).map Pgf.frec ++
    (s.tags.filter fun t => t.reg == rn && t.at_ != .none && s.expiry r.part t.cycle ≤ s.cycle).map PageReq.frec).head?

def execCutRelease (rn : Nat) (s : State) : Step1 :=
  .next (match s.region rn with
    | none => s
    | some r =>
      if !r.freezable || s.launchDone rn r then s
      else
        match s.lateFault rn r with
        | none => s
        | some f =>
          let t := s.releaseCut rn
          (t.postRecord r.part { f with code := 0x19, flg := flgRB + flgFRZ, cutn := r.cutN } (some rn)).1)

/-! ### Sidings, memory and link errors (R218, R372, R395) -/

/-- Whether a sided token is the first of its chain in the siding. -/
def State.sidedFirst (s : State) (n e : Nat) (y : Slot) : Bool :=
  y.chn == 0 || !((s.sided.take n).any fun u => u.1 == e && u.2.chn == y.chn)

/-- SIDED_TOKEN_REENTRY: after repair the token goes ahead of every other of its chain; a repair that fails is a lasting MEM. -/
def execSidedTokenReentry (n : Nat) (ok : Bool) (s : State) : Step1 :=
  .next (match s.sided[n]? with
    | none => s
    | some (e, y) =>
      if !s.sidedFirst n e y then s
      else
        let t := { s with sided := s.sided.eraseIdx n }
        if ok then { t with updates := (e, y) :: t.updates }
        else
          let f := s.sideFault e y 0x17
          t.lasting f.reg (s.faultRec f) (.sided n))

/-- The address a slot's operation faults at: that of a global memory operation, or zero. -/
def slotAddr (y : Slot) : Nat :=
  match y.ins with
  | .ld _ o | .st _ o | .ldo _ o | .ldw _ o | .stw _ o | .atom _ o | .red _ o | .cas _ o => eaOf o y
  | _ => 0

/-- An error that meets an operation: the operation is held and tried again, and an error that meets the retry is lasting (R371, R372). -/
def State.meets (s : State) (a : FaultAt) (code : Nat) (raise : State → State) : State :=
  match s.pend.find? fun f => f.at_ == a with
  | some f =>
    if f.frec.code == code && f.cycle < s.cycle then
      { s with pend := s.pend.filter fun (x : PendFault) => x.at_ != a }.lasting f.reg f.frec f.at_
    else s
  | none => raise s

/-- An error that meets the operation of a slot that has not been sent on. -/
def State.slotError (s : State) (e k code : Nat) (y : Slot) : State :=
  s.meets (.slot e k) code fun s => if y.stage = 0 && s.runs e then s.failSlot e k code (slotAddr y) else s

/-- One that meets the chunk, row or index of the engine command of a slot. -/
def State.entryError (s : State) (t : Nat × Nat × Entry) (code : Nat) (y : Slot) : State :=
  s.meets (.entry t.1 t.2.1 t.2.2.id) code fun s =>
    if !t.2.2.held && s.runs t.2.2.elem then s.failEntry t.1 t.2.1 t.2.2 code ((copyDst y + y.prog) % 2 ^ 64) else s

/-- One that meets a posted operation after its firing has completed (R522). -/
def State.postedError (s : State) (e n code : Nat) : State :=
  match (s.elem e).posted.find? fun y => y.seq == n with
  | none => s
  | some y => s.meets (.posted e n) code fun s => if !y.held && s.runs e then s.raiseFault (s.postedFault e y code (slotAddr y)) else s

/-- One that meets the next access of a port. -/
def State.portError (s : State) (c k code : Nat) : State :=
  match s.port c k with
  | none => s
  | some p =>
    let a := p.addr (if p.out then p.next else p.cursor)
    s.meets (.port c k) code fun s => if p.open_ && !p.ind && (s.portRuns c k p.out).isSome then s.failPort c k code a else s

/-- One that meets the words or registers of an element as its next transition is read: the transition waits for the retry. -/
def State.sramError (s : State) (e : Nat) : State :=
  match (s.elem e).stuck, s.fetch e with
  | false, some u =>
    if s.canTurn e then
      s.raiseFault
        { code := 0x16, src := 0, reg := (s.regionOf e).getD 0, elid := e, tix := u.tix, slot := 0, addr := 0, opc := 0, word := u.word, prog := 0,
          at_ := .issue e u.tix }
    else s
  | _, _ =>
    match s.pend.find? fun f => f.frec.code == 0x16 && f.frec.elid == e && (match f.at_ with | .issue _ _ => true | _ => false) with
    | some f => s.meets f.at_ 0x16 id
    | none => s

/-- One that meets a tile buffer's tokens as they are written out or go on: nothing of it can be tried again, so it is lasting (R371, log
133, DESIGN CHOICE). -/
def State.tileError (s : State) (c : Nat) : State :=
  match s.regionOn c with
  | none => s
  | some rn =>
    if (s.region rn).any fun r => r.phase == .stopped && !(homeless r.lastSnap.links c).isEmpty then
      s.raiseFault
        { code := 0x16, src := 4, reg := rn, elid := c * 64, tix := 0, slot := 0, addr := 0, opc := 0, word := 0, prog := 0, at_ := .none }
    else s

/-- UNCORRECTABLE_ERROR: SER in SRAM, L2 or a tile buffer, MEM in DRAM, where it is met (R372): at the operation of slot k of element e, there or in
its engine; with k = 8 at the element's next transition, and from 9 up at the posted operation of issue number k − 9; at port k of core e
− 2^20; and at the tile buffer of core e − 2^21. -/
def execUncorrectableError (e k : Nat) (dram : Bool) (s : State) : Step1 :=
  let code := if dram then 0x17 else 0x16
  .next (
    if 2 ^ 21 ≤ e then (if dram then s else s.tileError (e - 2 ^ 21))
    else if 2 ^ 20 ≤ e then s.portError (e - 2 ^ 20) k code
    else if k = 8 then (if dram then s else s.sramError e)
    else if 8 < k then s.postedError e (k - 9) code
    else
      match s.slot e k with
      | none => s
      | some y =>
        match (s.entriesOf ((s.regionOf e).getD 0)).find? fun t => t.2.2.elem == e && t.2.2.slot == k with
        | some t => s.entryError t code y
        | none => if dram && (match layoutOf y.ins with | .m _ _ _ => false | _ => true) then s else s.slotError e k code y)

/-- Whether an address leads to a peer. -/
def State.toPeer (s : State) (e p va : Nat) : Bool :=
  match s.xlat (coreOf e) p va false with | .ok l => (match l.space with | .peer _ => true | _ => false) | _ => false

/-- LNK: an error that outlasts the replay of a Wekan link, met by an access to a peer (R395): of a slot, of its engine command, or of port k of
core e − 2^20. -/
def execLnk (e k : Nat) (s : State) : Step1 :=
  .next (
    if 2 ^ 20 ≤ e then
      let c := e - 2 ^ 20
      match s.port c k with
      | none => s
      | some p => if s.toPeer (c * 64) (s.portPart p) (p.addr (if p.out then p.next else p.cursor)) then s.portError c k 0x18 else s
    else
      match s.slot e k with
      | none => s
      | some y =>
        if (match layoutOf y.ins with | .m _ _ _ => true | _ => false) && s.toPeer e (s.partOf e) (slotAddr y) then s.slotError e k 0x18 y
        else
          match (s.entriesOf ((s.regionOf e).getD 0)).find? fun t => t.2.2.elem == e && t.2.2.slot == k with
          | none => s
          | some t =>
            let va := (copyDst y + y.prog) % 2 ^ 64
            let src := (copySrc y + y.prog) % 2 ^ 64
            let far := match y.ins with
              | .cpy _ _ => s.toPeer e (s.partOf e) va || s.toPeer e (s.partOf e) src
              | .fill _ _ => s.toPeer e (s.partOf e) va
              | .coll _ _ => true
              | _ => false
            if far then s.entryError t 0x18 y else s)

/-! ### Barriers -/

/-- BARRIER_PHASE_FLIP (R229). -/
def execBarrierPhaseFlip (c b : Nat) (s : State) : Step1 :=
  .next (if (s.bar c b).flips s.cycle then s.flipBar c b else s)

/-! ### The ring's registers (R354, R374) -/

def execFqhWrite (p : Nat) (v : W32) (s : State) : Step1 := .next ((s.modPart p fun x => { x with fqh := v }).retryRing p)

/-- The ring is 64-byte aligned: the low six bits are not kept. -/
def execFqbWrite (p : Nat) (v : W64) (s : State) : Step1 := .next ((s.modPart p fun x => { x with fqb := v &&& ~~~63 }).retryRing p)

def execFqszWrite (p : Nat) (v : W32) (s : State) : Step1 :=
  .next (let n := v.toNat; ((if n = 0 || (4 ≤ n && n ≤ 16) then s.modPart p fun x => { x with fqsz := n } else s)).retryRing p)

/-- FLTS_CLEAR: fields written zero are cleared (R354, R546). -/
def execFltsClear (p : Nat) (v : W32) (s : State) : Step1 :=
  .next (s.modPart p fun x => { x with flts := fltsWritten x.flts.toNat v.toNat })

/-! ### Invalidation (R195, R378) -/

def execIvgoWrite (p : Nat) (v : W32) (s : State) : Step1 :=
  .next (s.modPart p fun x => if v.getLsbD 0 && !x.ivgo then { x with ivgo := true } else x)

/-- Whether a cached leaf covers a page of [first, first + n), or n = 0 names the whole table. -/
def covers (p first n key : Nat) : Bool :=
  let k := key % 2 ^ 42
  key / 2 ^ 42 == p &&
    (n == 0 ||
      (if k % 2 = 1 then k / 2 * 32 < first + n && first < k / 2 * 32 + 32 else first ≤ k / 2 && k / 2 < first + n))

/-- Drops every cached translation of a run of 64 KiB pages of a partition. -/
def State.invalidate (s : State) (p first n : Nat) : State :=
  let keep := fun (m : List (Nat × W64)) => m.filter fun x => !covers p first n x.1
  { s with
    cores := s.cores.map fun c => (c.1, { c.2 with tlb := keep c.2.tlb })
    baseTlb := s.baseTlb.map fun c => (c.1, keep c.2)
    noMap := s.noMap.filter fun x => !covers p first n x.2.1
    pinned := s.pinned.filter fun x => !(x.1 == p && (n == 0 || (first ≤ x.2 && x.2 < first + n))) }

/-- Accesses of a partition that have translated and are not performed or held: what memory has accepted, and the rows of an engine command (R195,
R244). -/
def State.partBusy (s : State) (p : Nat) : Bool :=
  s.regions.any fun g => g.2.part == p && g.2.placed &&
    (s.accepted g.2 || (s.entriesOf g.1).any fun t => !t.2.2.held && t.2.2.plan.any fun r => !r.done && (r.dst.isSome || r.src.isSome))

/-- INVALIDATION_COMPLETION: every cached copy goes, every access that used one has been performed, and the ring is tried again. -/
def execInvalidationCompletion (p : Nat) (s : State) : Step1 :=
  .next (
    let x := s.part p
    if !x.ivgo || s.partBusy p then s
    else ((s.invalidate p (x.iva.toNat / 65536) x.ivn.toNat).modPart p fun x => { x with ivgo := false }).retryRing p)

/-! ### Eviction and migration (R200 to R202) -/

/-- The lowest LWM over the open windows of a partition. -/
def State.minLwm (s : State) (p : Nat) : Option Nat :=
  ((s.regions.filter fun g => g.2.part == p && g.2.placed).flatMap fun g =>
    g.2.cores.flatMap fun c => (s.core c).ports.toList.filterMap fun q => q.bind Port.lwm).min?

/-- Whether one of some pages of a partition backs a bank quarter. -/
def State.boundPages (s : State) (p first n : Nat) : Bool :=
  s.regions.any fun g => g.2.part == p && g.2.placed && g.2.elems.any fun e =>
    (List.range 4).any fun q =>
      let b := (vget (s.elem e).qbase q 0).toNat / 65536
      vget (s.elem e).bmode q .scr != .scr && first ≤ b && b < first + n

/-- PAGE_EVICTION: the evictor frees a page of device memory, whole, that lies wholly below every window and is bound to no quarter; an access to it then
faults. -/
def execPageEviction (p va : Nat) (s : State) : Step1 :=
  .next (
    match s.minLwm p, walk s p va with
    | some l, .ok (w, big) =>
      let (first, n) := leafPages va big
      if bitsOf w.toNat 62 2 = 0 && (first + n) * 65536 ≤ l && !s.boundPages p first n && !s.pinned.contains (p, va / 65536) then
        let s := s.invalidate p first n
        { s with pinned := s.pinned ++ (List.range n).map fun i => (p, first + i) }
      else s
    | _, _ => s)

/-- The count of migrations of a page, or its pin, by partition, page and size. -/
def migrKey (p va : Nat) (big : Bool) : Nat := p * 2 ^ 42 + (if big then va / 2 ^ 21 * 2 + 1 else va / 2 ^ 16 * 2)

/-- Ends the windows of 1.0 s that are over: a page's count, and its pin, go. -/
def State.closeWindows (s : State) : State := { s with migr := s.migr.filter fun m => s.cycle < m.2.2 + 1900000000 }

/-- PAGE_MIGRATION: at most four in a window; a fifth pins the page until the window ends, and PMIG counts the pinning (R201). -/
def execPageMigration (p va : Nat) (s : State) : Step1 :=
  let s := s.closeWindows
  .next (match walk s p va with
    | .error _ => s
    | .ok w =>
      if bitsOf w.1.toNat 62 2 = 1 then s
      else
        let (first, n) := leafPages va w.2
        match s.migr.find? fun m => m.1 == migrKey p va w.2 with
        | none => ({ s with migr := s.migr ++ [(migrKey p va w.2, 1, s.cycle)] }).invalidate p first n
        | some m =>
          if m.2.1 < 4 then
            ({ s with migr := s.migr.map fun (x : Nat × Nat × Nat) => if x.1 = m.1 then (x.1, x.2.1 + 1, x.2.2) else x }).invalidate p first n
          else if m.2.1 = 4 then
            ({ s with migr := s.migr.map fun (x : Nat × Nat × Nat) => if x.1 = m.1 then (x.1, 5, x.2.2) else x }).modPart p fun x => { x with pmig := x.pmig + 1 }
          else s)

/-- MIGRATION_WINDOW_END: 1.0 s after the first migration of its window a page's count, and its pin, end. -/
def execMigrationWindowEnd (p va : Nat) (s : State) : Step1 :=
  .next { s with migr := s.migr.filter fun m =>
      !((m.1 == migrKey p va false || m.1 == migrKey p va true) && m.2.2 + 1900000000 ≤ s.cycle) }

end Sys2Proof.Machine
end

