-- ==== Sys2Proof/Machine/PlaceOps.lean ====
section
/-! DEFINITION. The dispatcher: readiness and selection (R339), placement (R340, R387), loading (R114 to R118), quanta and pre-emption (R346,
R347), restore (R359 to R362), and the steps DISPATCH, REGION_RELEASE, QUANTUM_EXPIRY and RESTORE. -/

namespace Sys2Proof.Machine

open Sys2Proof

/-! ### What is ready -/

/-- A launch the dispatcher may serve: its queue, effective priority, shape, whether it takes a pool, the frozen region it resumes, and
whether it ends without being placed. -/
structure Ready where
  q    : Nat
  pri  : Nat
  w    : Nat
  h    : Nat
  pers : Bool
  reg  : Option Nat
  now  : Bool
  deriving DecidableEq, Repr

/-- Whether a range that an RNG quarter of a saved region takes is lent to another: the restore waits until it comes back (R181, log 27). -/
def State.rangeLent (s : State) (r : Region) : Bool :=
  r.phase == .frozen && !s.lent.isEmpty && r.lastSnap.elems.any fun x =>
    (List.range 4).any fun q =>
      vget x.2.bmode q .scr == .rng &&
        match s.resolve noTlb r.part (vget x.2.qbase q 0).toNat .quarter with | .ok l => s.lentRun l.addr 16384 | _ => false

/-- Whether a frozen launch may be restored: no violation holds it, its record has been written, its save area passes its checks and the ranges of
its RNG quarters are free (R181, R359, R374, R382). -/
def State.restorable (s : State) (r : Region) : Bool :=
  !r.recWait && s.saveGood r && !s.rangeLent r && s.vios.all fun v => v.2 != .region r.part r.queue

/-- The record that a frozen launch keeps, or a drained one reads again, whose shape is that of its restore (R362). -/
def State.launchNow (s : State) (r : Region) : LaunchRec :=
  if r.phase == .drained then
    match s.recordBytes? r.part r.launch.addr with
    | some b => if s.recordOk r.part r.launch.addr b then parseRecord r.launch.addr b else r.launch
    | none => r.launch
  else r.launch

/-- The ready launch of a queue, if it has one (R339). -/
def State.readyOf (s : State) (p qn : Nat) : Option Ready :=
  let q := s.queue p qn
  if !q.en then none
  else
    match s.launchOf p qn with
    | some (rn, r) =>
      if (r.phase == .frozen || r.phase == .drained) && s.restorable r then
        let l := s.launchNow r
        some ⟨qn, min l.pri q.pri, l.shw, l.shh, l.pers && r.pool.isNone, some rn, false⟩
      else none
    | none =>
      if q.used = 0 then none
      else
        match (s.entryAt p q q.head).bind fun a => (s.recordBytes? p a).map fun b => (a, b) with
        | none => some ⟨qn, q.pri, 1, 1, false, none, true⟩
        | some (a, b) =>
          let l := parseRecord a b
          some ⟨qn, min l.pri q.pri, l.shw, l.shh, l.pers, none, !s.recordOk p a b || l.rcnt == 0⟩

/-- Whether a partition's queues dispatch: enabled, not paused, its function not stopped (R382, R392). -/
def State.dispatches (s : State) (p : Nat) : Bool := (s.part p).en && !(s.part p).pause && !(s.func (s.part p).fn).stopped

/-! ### Where it fits (R340, R387) -/

/-- A share entry, decoded (R387). -/
structure Share where
  x    : Nat
  y    : Nat
  w    : Nat
  h    : Nat
  a    : Nat
  b    : Nat
  srow : Nat
  deriving DecidableEq, Repr

def shareOf (w : W128) : Option Share :=
  let f := fun (lo n : Nat) => bitsOf w.toNat lo n
  if f 31 1 = 1 then some ⟨gridX (f 0 8), gridY (f 0 8), f 8 8, f 16 8, f 28 3, f 24 3, f 32 16⟩ else none

/-- Shares of a partition, and whether one holds a place of the grid. -/
def State.shares (s : State) (p : Nat) : List Share := (s.shtab.toList.filterMap shareOf).filter fun x => x.a == p || x.b == p
def Share.covers (x : Share) (gx gy : Nat) : Bool := x.x ≤ gx && gx < x.x + x.w && x.y ≤ gy && gy < x.y + x.h

/-- The share that a rectangle is, and the element rows a launch of it may configure. -/
def State.shareAt (s : State) (p x y w h : Nat) : Option Share :=
  (s.shares p).find? fun k => k.x == x && k.y == y && k.w == w && k.h == h
def shareRows (sh : Option Share) (p h : Nat) : Nat × Nat :=
  match sh with | none => (0, 8 * h) | some k => if k.a = p then (0, k.srow) else (k.srow, 8 * h)

/-- Whether a core is free for a partition, leaving out the regions of a list; on a shared core only the partition's own count. -/
def State.coreFree (s : State) (p c : Nat) (shared : Bool) (but : List Nat) : Bool :=
  s.regions.all fun g => but.contains g.1 || !g.2.hasCore c || (shared && g.2.part != p)

/-- Whether a launch fits at a place: cores owned and free, a share met exactly or not at all, and a pool for a persistent one (R333,
R340, R387). -/
def State.placeable (s : State) (p : Nat) (k : Ready) (x y : Nat) (but : List Nat) : Bool :=
  let sh := s.shareAt p x y k.w k.h
  x + k.w ≤ 16 && y + k.h ≤ 16 &&
    ((List.range (k.w * k.h)).all fun i =>
      let gx := x + i % k.w; let gy := y + i / k.w
      let c := coreAt gx gy
      (s.part p).pcor.getLsbD c && s.coreFree p c sh.isSome but && (sh.isSome || !(s.shares p).any fun e => e.covers gx gy)) &&
    (!k.pers || ((s.regions.filter fun g => (g.2.pool.map Pool.die) == some (dieOf (coreAt x y))).length < 64))

/-- Whether a launch fits anywhere. -/
def State.fits (s : State) (p : Nat) (k : Ready) (but : List Nat) : Bool :=
  (List.range 256).any fun i => s.placeable p k (i % 16) (i / 16) but

/-- The ready launches of the highest effective priority, round-robin from the queue after the one that the dispatcher of a die last served at
it (R3, R339, log 117). -/
def State.topReady (s : State) (p die : Nat) : List Ready :=
  if !s.dispatches p then []
  else
    let rs := (List.range 64).filterMap (s.readyOf p)
    match (rs.map Ready.pri).max? with
    | none => []
    | some pri =>
      let turn := SMap.get 63 (32 * die + pri) (s.part p).turn
      let of := rs.filter fun k => k.pri == pri
      (of.filter fun k => turn < k.q) ++ of.filter fun k => k.q ≤ turn

/-- The launch the dispatcher of a die selects: a launch that cannot be placed blocks every lower priority (R339). -/
def State.chosen (s : State) (p die : Nat) : Option Ready := (s.topReady p die).find? fun k => k.now || s.fits p k []

/-! ### Quanta (R346, R347) -/

/-- The floor of a quantum in cycles, from the last freeze and restore of the shape, or 2 µs a core. -/
def Part.floor (x : Part) (w h : Nat) : Nat := 2 * SMap.get (3800 * (w * h)) (32 * w + h) x.times

/-- QFLR after one more raise. -/
def qflrRaised (v : W32) : W32 := BitVec.ofNat 32 (min (v.toNat / 2 ^ 16 + 1) 65535 * 2 ^ 16 + 1)

/-- A quantum starts, raised to the floor of its shape. -/
def State.startQuantum (s : State) (rn : Nat) : State :=
  match s.region rn with
  | none => s
  | some r =>
    let n := 1900 * r.launch.quant
    let m := (s.part r.part).floor r.w r.h
    if r.launch.quant = 0 then s
    else if n < m then
      (s.modPart r.part fun x => { x with qflr := qflrRaised x.qflr }).setRegion rn { r with quantAt := s.cycle + m }
    else s.setRegion rn { r with quantAt := s.cycle + n }

/-! ### Placing -/

/-- The lowest region number that is not in use. -/
def State.newRegion (s : State) : Nat := ((List.range (s.regions.length + 1)).find? fun n => (s.region n).isNone).getD 0

/-- Senders of a queue: route entries and in ports that deliver to it (R364). -/
def State.senders (s : State) (r : Region) (e q : Nat) : Nat :=
  (r.elems.map fun k => ((s.elem k).routes.filter fun x => routeDest r x.2 == .queue e q).length).sum +
    ((s.core (coreOf e)).ports.toList.filter fun p =>
      match p with | some p => !p.out && p.exy == e % 64 && p.vc == q && s.regionOf e == some p.reg | none => false).length

/-- Whether a section input of a region has more than one sender. -/
def State.multiSender (s : State) (r : Region) : Bool :=
  r.elems.any fun e => (s.elem e).sectionInputs.any fun q => 1 < s.senders r e q

/-- The region of a launch as it is placed. -/
def newRegionOf (p q : Nat) (l : LaunchRec) (im : Image) (b : Bound) (x y : Nat) (rows : Nat × Nat) (cycle : Nat) : Region :=
  { part := p, queue := q, launch := l, x0 := x, y0 := y, w := l.shw, h := l.shh, rlo := rows.1, rhi := rows.2, phase := .configured,
    priv := im.flags.testBit 0, hash := im.hash, secK := im.secK, sinks := im.elems.any fun r => rf r.hdr 3 1 / 2 % 2 == 1,
    multi := false, tsr := b.tsr, zero := im.zero.map fun z => (recElem z.hdr, rf z.hdr 4 4, rf z.hdr 8 4),
    init := im.elems.foldl (fun m r => SMap.set (recElem r.hdr) (im.initOf (recElem r.hdr)) m) [],
    arrs := im.intg.foldl (fun m r => SMap.set (relCore (rf r 1 1) (rf r 2 1)) (im.arrayOf (relCore (rf r 1 1) (rf r 2 1))) m) [],
    unit := 0, ixBase := 0, ixCnt := 0, stp := false, unitDone := false, unitRel := false, doneAt := 0, ccu := false, erls := [], pulls := [],
    nrel := 0, succRel := false, poolDone := false, pool := if l.pers then some ⟨dieOf (coreAt x y), 1⟩ else none, cutN := 0,
    forming := none, formAt := 0, newSnap := Snap.empty, lastSnap := Snap.empty, cutReq := false, irr := false, sectTok := 0,
    hold := [], defPres := [], defNote := [], clrPres := [], rects := [], lastFlt := [], placedAt := cycle, quantAt := 0,
    stamp := cycle, saveT := 0, drain := false, why := .driver, save := none, saveAt := none, frz := [], recWait := false }

/-- What loading gives: the code of the load error, or that it waits for a translation; or the image, what it binds, and whether the placement is
cold. -/
def State.loadImage (s : State) (p : Nat) (q : LQueue) (l : LaunchRec) (x y : Nat) : Except Nat (Image × Bound × Bool) :=
  match s.readImage p l.img with
  | .error c => .error c
  | .ok b =>
    match parseImage b with
    | .error c => .error c
    | .ok im =>
      let rows := shareRows (s.shareAt p x y l.shw l.shh) p l.shh
      let c := im.check l.shw l.shh q.sgn q.prv rows
      if c ≠ 0 then .error c
      else
        let r := newRegionOf p 0 l im ⟨[], [], [], []⟩ x y rows s.cycle
        let cold := !s.warm r im.hash
        if s.quartersWait p l im x y then .error errWait
        else
          match s.bindImage p l im x y cold with
          | none => .error errRelo
          | some b => .ok (im, b, cold)

/-- The dispatcher of a die has served a queue at a priority. -/
def State.served (s : State) (p die pri q : Nat) : State := s.modPart p fun x => { x with turn := SMap.set (32 * die + pri) q x.turn }

/-- The die whose dispatcher places a launch at a place: that of its region core (0, 0) (R3, R340, log 117). -/
def dieAt (x y : Nat) : Nat := dieOf (coreAt x y)

/-- A launch that ends at dispatch: an empty one is released too (R330, R331). -/
def State.endAtHead (s : State) (p q : Nat) : State :=
  match s.entryAt p (s.queue p q) (s.queue p q).head with
  | none => s.popHead p q
  | some a =>
    match s.recordBytes? p a with
    | none => s.popHead p q
    | some b =>
      let l := parseRecord a b
      if s.recordOk p a b then ((s.endLaunch p q l none 0).releaseRec p l).popHead p q
      else (s.endLaunch p q l none 0x10).popHead p q

/-- The placement of the launch at the head of a queue waits for the host to translate the base of a quarter (R194). -/
def State.placeWaits (s : State) (p q x y : Nat) : Bool :=
  match (s.entryAt p (s.queue p q) (s.queue p q).head).bind (s.record? p) with
  | none => false
  | some l => match s.loadImage p (s.queue p q) l x y with | .error c => c == errWait | .ok _ => false

/-- Places the launch at the head of a queue: loaded and bound, or failed with its code (R117, R330). -/
def State.placeHead (s : State) (p q x y : Nat) : State :=
  match (s.entryAt p (s.queue p q) (s.queue p q).head).bind (s.record? p) with
  | none => s
  | some l =>
    match s.loadImage p (s.queue p q) l x y with
    | .error c => (s.endLaunch p q l none c).popHead p q
    | .ok (im, b, cold) =>
      let rn := s.newRegion
      let r := newRegionOf p q l im b x y (shareRows (s.shareAt p x y l.shw l.shh) p l.shh) s.cycle
      let s := { s with regions := SMap.set rn r s.regions }
      let s := s.startImage rn r im b cold
      let s := s.setRegion rn { r with multi := s.multiSender r }
      (s.armUnit rn 0).startQuantum rn

/-- Running launches of a partition with their effective priority, in the order they are pre-empted (R346). -/
def State.victims (s : State) (p : Nat) : List (Nat × Region × Nat) :=
  let vs := (s.regions.filter fun g => g.2.part == p && g.2.phase == .running).map fun g =>
    (g.1, g.2, min g.2.launch.pri (s.queue p g.2.queue).pri)
  sortBy (fun a b => a.2.2 < b.2.2 || (a.2.2 == b.2.2 && b.2.1.placedAt ≤ a.2.1.placedAt)) (vs.filter fun v => (s.takeSave v.1).isSome && !s.launchDone v.1 v.2.1)

/-- Regions of a partition on their way out of their cores. -/
def State.leaving (s : State) (p : Nat) : List Nat :=
  (s.regions.filter fun g => g.2.part == p && g.2.phase == .stopped).map Prod.fst

/-- Freezes one launch of lower priority for the first ready launch that fits nowhere and that the freezing of such launches makes room
for (R346). -/
def State.preempt (s : State) (p die : Nat) : State :=
  let out := s.leaving p
  let low := fun (k : Ready) => (s.victims p).filter fun v => v.2.2 < k.pri
  match (s.topReady p die).find? fun k => !s.fits p k out && s.fits p k (out ++ (low k).map Prod.fst) with
  | none => s
  | some k => match low k with | v :: _ => s.freezeIf v.1 .preempt | [] => s

/-- DISPATCH: the dispatcher of the die of a place serves the launch it selects there; if the highest priority is blocked, makes room for it. -/
def execDispatch (p x y : Nat) (s : State) : Step1 :=
  .next (match s.chosen p (dieAt x y) with
    | none => s.preempt p (dieAt x y)
    | some k =>
      if k.reg.isSome then s
      else if k.now then (s.endAtHead p k.q).served p (dieAt x y) k.pri k.q
      else if s.placeable p k x y [] && !s.placeWaits p k.q x y then (s.placeHead p k.q x y).served p (dieAt x y) k.pri k.q
      else s)

/-- REGION_RELEASE: every element begins to fire in one cycle, once every sided token of the launch has been applied and it holds its
pseudo-channels again; the released state is the region's last complete cut (R118, R262, R359, R360, R363). -/
def execRegionRelease (rn : Nat) (s : State) : Step1 :=
  .next (match s.region rn with
    | none => s
    | some r =>
      if r.phase != .configured || (s.sided ++ s.updates).any (fun u => r.hasElem u.1) || !s.pcsFree rn r.lastSnap then s
      else
        let s := s.enterPcs rn r.lastSnap
        let s := if r.saveT = 0 then s else s.modPart r.part fun x =>
          { x with times := SMap.set (32 * r.w + r.h) (r.saveT + (s.cycle - r.stamp)) x.times }
        s.setRegion rn { r with phase := .running, saveT := 0, lastSnap := s.capture rn r })

/-- Whether a ready launch of a region's own priority cannot be placed without its cores, not even where launches of lower priority
stand (R346). -/
def State.yields (s : State) (rn : Nat) (r : Region) : Bool :=
  let pri := min r.launch.pri (s.queue r.part r.queue).pri
  let low := (s.victims r.part).filter fun v => v.2.2 < pri
  let peers := (s.victims r.part).filter fun v => v.2.2 == pri && v.2.1.launch.quant != 0 && v.2.1.quantAt ≤ s.cycle
  let out := s.leaving r.part ++ low.map Prod.fst
  (s.topReady r.part 0).any fun k =>
    k.pri == pri && !k.now && !s.fits r.part k out && s.fits r.part k (rn :: out ++ peers.map Prod.fst)

/-- QUANTUM_EXPIRY: freezes the launch for one of equal priority, or starts the quantum again. -/
def execQuantumExpiry (rn : Nat) (s : State) : Step1 :=
  .next (match s.region rn with
    | none => s
    | some r =>
      if r.phase != .running || r.launch.quant = 0 || s.cycle < r.quantAt || s.launchDone rn r then s
      else if s.yields rn r && (s.takeSave rn).isSome then s.freezeIf rn .preempt
      else s.startQuantum rn)

/-! ### RESTORE (R359 to R362) -/

/-- A move of a region from one rectangle to another: cores, elements and senders. A token that found no slot goes to the link input of its
destination. -/
def Region.moveCore (r : Region) (x y c : Nat) : Nat := coreAt (gridX c - r.x0 + x) (gridY c - r.y0 + y)
def Region.moveElem (r : Region) (x y e : Nat) : Nat := r.moveCore x y (coreOf e) * 64 + e % 64
def Region.moveSrc (r : Region) (x y n : Nat) : Nat :=
  if n < 2 ^ 20 then r.moveElem x y n else 2 ^ 20 + 8 * r.moveCore x y ((n - 2 ^ 20) / 8) + n % 8

def Region.moveFlight (r : Region) (x y : Nat) (f : Flight) : Flight :=
  let src := r.moveSrc x y f.src
  let dst := match f.dst with | .queue e q => Dest.queue (r.moveElem x y e) q | .port c k => .port (r.moveCore x y c) k
  { f with
    src := src, dst := dst, at_ := r.moveElem x y f.at_, link := f.link.map fun _ => lastLink src dst.elem
    cmd := f.cmd.map fun k => (r.moveElem x y k.1, k.2) }

def Region.moveBar (r : Region) (x y : Nat) (b : Bar) : Bar :=
  { b with
    heldB := b.heldB.map fun h => (r.moveElem x y h.1, h.2)
    waits := b.waits.map fun w => { w with elem := r.moveElem x y w.elem } }

def Region.movePort (r : Region) (x y : Nat) (p : Port) : Port := { p with cmd := p.cmd.map fun k => (r.moveElem x y k.1, k.2) }

/-- A command goes to the copy engine of its element's cluster and the collectives of its die; a stack's engine stays (R234, R359). -/
def Region.moveCmd (r : Region) (x y : Nat) (t : Nat × Nat × Entry) : Nat × Nat × Entry :=
  let e := r.moveElem x y t.2.2.elem
  let g := match engineKindOf t.1 with
    | .copy => engineKey r.part .copy (clusterOf (coreOf e))
    | .coll => engineKey r.part .coll (dieOf (coreOf e))
    | _ => t.1
  (g, t.2.1, { t.2.2 with elem := e })

/-- A saved state as it stands on the new rectangle. -/
def Region.moveSnap (r : Region) (x y : Nat) (n : Snap) : Snap :=
  { n with
    elems := n.elems.map fun e => (r.moveElem x y e.1, e.2)
    cores := n.cores.map fun c =>
      (r.moveCore x y c.1,
       { c.2 with bars := c.2.bars.map (r.moveBar x y), ports := c.2.ports.map fun p => p.map (r.movePort x y) })
    cmds := n.cmds.map (r.moveCmd x y)
    links := n.links.map (r.moveFlight x y)
    ports := []
    ups := n.ups.map fun u => (r.moveElem x y u.1, u.2)
    sided := n.sided.map fun u => (r.moveElem x y u.1, u.2) }

/-- Binds the quarters of a restored element again: ranges are lent anew, WGT quarters loaded, MAP quarters unfilled (R183, R357). -/
def State.rebind (s : State) (p e : Nat) : State :=
  (List.range 4).foldl (fun s q =>
    let x := s.elem e
    let base := vget x.qbase q 0
    if vget x.bmode q .scr = .scr then s
    else
      let phys := match s.resolve (coreOf e) p base.toNat .quarter with | .ok l => BitVec.ofNat 64 l.addr | _ => vget x.qphys q 0
      s.startQuarter e q base phys) s

/-- Puts a frozen region on a rectangle (R359). -/
def State.restoreFrozen (s : State) (rn : Nat) (r : Region) (x y : Nat) : State :=
  let r := s.savedUnit r
  let n := r.moveSnap x y (s.savedSnap r)
  let g := { r with x0 := x, y0 := y, phase := .configured }
  let erls := r.erls.map fun a => (r.moveElem x y a.1, a.2)
  let s := s.setRegion rn { r with x0 := x, y0 := y, phase := .configured, lastSnap := n, erls := erls, pulls := [], stamp := s.cycle, placedAt := s.cycle, lastFlt := [] }
  let s := n.elems.foldl (fun s e => s.setElem e.1 { e.2 with wgtBase := Vector.replicate 4 none, filled := [], dirty := [] }) s
  let s := n.cores.foldl (fun s c =>
    s.modCore c.1 fun k => g.joinCore rn c.1 k { c.2 with ro := [], tlb := k.tlb }) s
  let s := n.elems.foldl (fun s e => s.rebind r.part e.1) s
  let s := { s with sided := s.sided ++ n.sided }.loadSnap rn n true
  (s.freeSave rn).startQuantum rn

/-- A drained element over its launch-start state: marking, registers, chains; pointers are 31 (R47, R362). -/
def drainedElem (x saved : Elem) : Elem :=
  { x with
    cnt := saved.cnt, resv := saved.resv, queues := saved.queues, s := saved.s, v := saved.v, axc := saved.axc, axs := saved.axs,
    tagr := saved.tagr, lfsr := saved.lfsr, cseq := saved.cseq, lfp := Vector.replicate 8 31 }

/-- A drained port over the newly bound one. -/
def drainedPort (now saved : Port) : Port :=
  { saved with
    reg := now.reg, imgBase := now.imgBase, imgStride := now.imgStride, imgTsrx := now.imgTsrx, held := false, cut := 0, full := 0, cmd := none,
    waitq := [], heldq := [], tailed := false }

/-- The saved parts of a drained region of the same shape, over an image just placed (R362). -/
def State.overlay1 (s : State) (rn : Nat) (r : Region) (n : Snap) : State :=
  let s := n.elems.foldl (fun s e => if r.hasElem e.1 then s.modElem e.1 fun x => drainedElem x e.2 else s) s
  n.cores.foldl (fun s c =>
    s.modCore c.1 fun k =>
      r.joinCore rn c.1 k
        { k with
          bars := c.2.bars, sinks := c.2.sinks, rep := c.2.rep
          ports := Vector.ofFn fun i =>
            match vget k.ports i.val none, vget c.2.ports i.val none with
            | some a, some b => some (if a.reg = rn then drainedPort a b else a)
            | a, _ => a }) s

/-- The port indices of a drained region of another shape, by port number and core position (R362). -/
def State.overlayPorts (s : State) (rn : Nat) (old new : Region) (n : Snap) : State :=
  n.cores.foldl (fun s c =>
    let rx := gridX c.1 - old.x0; let ry := gridY c.1 - old.y0
    if new.w ≤ rx || new.h ≤ ry then s
    else
      s.modCore (coreAt (new.x0 + rx) (new.y0 + ry)) fun k =>
        { k with ports := Vector.ofFn fun i =>
            match vget k.ports i.val none, vget c.2.ports i.val none with
            | some a, some b => some (if a.reg = rn then { a with next := b.next, cursor := b.next } else a)
            | a, _ => a }) s

/-- Puts a drained region on a rectangle: its record is read again and its image placed, and the saved parts are written over it
(R362). A record or image that no longer passes ends the launch. -/
def State.restoreDrained (s : State) (rn : Nat) (r : Region) (x y : Nat) : State :=
  let fail (s : State) (l : LaunchRec) (c : Nat) : State :=
    let s := (s.freeSave rn).endLaunch r.part r.queue l (some rn) c
    ({ s with regions := SMap.erase rn s.regions }).popHead r.part r.queue
  match (s.recordBytes? r.part r.launch.addr).map fun b => (s.recordOk r.part r.launch.addr b, parseRecord r.launch.addr b) with
  | none => fail s r.launch 0x10
  | some (false, l) => fail s l 0x10
  | some (true, l) =>
    match s.loadImage r.part (s.queue r.part r.queue) l x y with
    | .error c => fail s l c
    | .ok (im, b, cold) =>
      let g := newRegionOf r.part r.queue l im b x y (shareRows (s.shareAt r.part x y l.shw l.shh) r.part l.shh) s.cycle
      let g := { g with cutN := r.cutN, nrel := r.nrel, succRel := r.succRel, poolDone := r.poolDone, pool := r.pool, saveT := r.saveT }
      let same := l.shw == r.w && l.shh == r.h
      let kept := s.savedSnap r
      let n := r.moveSnap x y kept
      let s := s.freeSave rn
      let s := g.elems.foldl (fun s e => s.modElem e fun x => { x with wgtBase := Vector.replicate 4 none }) (s.setRegion rn g)
      let s := s.startImage rn g im b cold
      let s := (s.setRegion rn { g with lastSnap := { Snap.empty with pcs := n.pcs }, multi := s.multiSender g }).armUnit rn r.unit
      let s := if same then s.overlay1 rn g n else s.overlayPorts rn r g kept
      let s := if same then s.modRegion rn fun k => { k with unitDone := r.unitDone, unitRel := r.unitRel, ccu := r.ccu, stp := r.stp } else s
      { s with sided := s.sided ++ n.sided }.startQuantum rn

/-- A restore waits for the host to translate the base of a quarter as a placement does (R194). -/
def State.restoreWaits (s : State) (r : Region) (x y : Nat) : Bool :=
  if r.phase = .drained then
    match s.loadImage r.part (s.queue r.part r.queue) (s.launchNow r) x y with | .error c => c == errWait | .ok _ => false
  else
    r.lastSnap.elems.any fun k => (List.range 4).any fun q =>
      vget k.2.bmode q .scr != .scr && s.resolve (r.moveCore x y (coreOf k.1)) r.part (vget k.2.qbase q 0).toNat .quarter == .miss

/-- RESTORE: the selected launch, on a rectangle of its shape that is free. -/
def execRestore (rn x y : Nat) (s : State) : Step1 :=
  .next (match s.region rn with
    | none => s
    | some r =>
      match s.chosen r.part (dieAt x y) with
      | none => s
      | some k =>
        if k.reg != some rn || !s.placeable r.part k x y [] || s.restoreWaits r x y then s
        else
          match r.phase with
          | .frozen => (s.restoreFrozen rn r x y).served r.part (dieAt x y) k.pri k.q
          | .drained => (s.restoreDrained rn r x y).served r.part (dieAt x y) k.pri k.q
          | _ => s)

end Sys2Proof.Machine
end

