-- ==== Sys2Proof/Machine/DevOps.lean ====
section
/-! DEFINITION. The device as the hypervisor, drivers and peers see it: blocks and mailboxes (R383 to R385), partitions (R379 to R381, R388 to
R392), registers (R325, R354, R377, R378), the BAR2 aperture (R394), TDISP (R393), links (R395 to R397), keys, firmware and reset
(R389, R398, R399), and their steps. -/

namespace Sys2Proof.Machine

open Sys2Proof

/-! ### What a block holds of its donor (R385) -/

def inBlock (b a : Nat) : Bool := devExists a && blockOf a == b

/-- Whether a virtual page leads into a block. -/
def State.pageIn (s : State) (p b va : Nat) : Bool :=
  match walk s p va with | .ok w => let l := leafLoc w.1 w.2 va; l.space == .dev && inBlock b l.addr | .error _ => false

/-- Whether a run of bytes leads into a block, page by page. -/
def State.runIn (s : State) (p b va n : Nat) : Bool :=
  n != 0 && (List.range ((va % 65536 + n - 1) / 65536 + 1)).any fun i => s.pageIn p b (va + 65536 * i)

/-- Tables that a table of n entries points to. -/
def State.tablesOf (s : State) (p t n : Nat) : List Nat :=
  (List.range n).filterMap fun i =>
    match tableEntry s p t i with
    | .ok w => (match nextTable w with | .ok a => some a | .error _ => none)
    | .error _ => none

/-- Whether a block holds a table of a partition that a pointer, or PTB, names. -/
def State.tableIn (s : State) (p b : Nat) : Bool :=
  let l4 := (s.part p).ptb.toNat
  let l3 := s.tablesOf p l4 8192
  let l2 := l3.flatMap fun t => s.tablesOf p t 8192
  let l1 := l2.flatMap fun t => (s.tablesOf p t 512)
  (l4 :: (l3 ++ l2 ++ l1)).any (inBlock b)

/-- Whether a cached leaf leads into a block. -/
def leafIn (p b : Nat) (x : Nat × W64) : Bool :=
  x.1 / 2 ^ 42 == p &&
    let l := leafLoc x.2 (x.1 % 2 == 1) 0
    l.space == .dev && inBlock b l.addr

/-- Whether a command of an engine works in a block: its operands, its notify word or a row it has taken on lie in it. -/
def State.entryIn (s : State) (p b : Nat) (t : Entry) : Bool :=
  let run := s.runIn p b
  (t.plan.any fun r => ([r.dst, r.src].filterMap id).any fun l => l.space == .dev && inBlock b l.addr) ||
    match s.slot t.elem t.slot with
    | none => false
    | some y =>
      let n := countOf y
      let note := fun (o : FmtE) => o.ntf.toNat % 2 == 1 && run (y.opc.toNat % 2 ^ 64) 4
      match y.ins with
      | .cpy _ o => run (copyDst y) n || run (copySrc y) n || note o
      | .fill _ o => run (copyDst y) n || note o
      | .rcopy _ o => run (copyDst y) (1024 * n) || run (copySrc y) (1024 * n) || note o
      | .rzero _ o => run (copyDst y) (1024 * n) || note o
      | .note _ _ => run (copyDst y) 4
      | .stash _ o => run (copyDst y) (stashSize y) || note o
      | .unstash _ o => run (copyDst y) (stashSize y) || (stashMem o && run (copySrc y) (stashN y * tyBytes o.ty)) || note o
      | .gath _ o | .scat _ o =>
        run (copySrc y) (4 * n) || note o ||
          ((List.range n).any fun j =>
            match s.resolveRun noTlb p ((copySrc y + 4 * j) % 2 ^ 64) 4 .gathRead with
            | .ok ls => run (rowAddr o y (natLE (s.readRun ((copySrc y + 4 * j) % 2 ^ 64) ls))) 64
            | _ => false)
      | .coll _ o =>
        let gr : Group := ⟨(match s.ownRead p (collDesc y) 4 .collRead with | .ok bs => natLE bs | .error _ => 1), 0, 0, []⟩
        run (copyDst y) (collTotal o y gr) || run (copySrc y) (collSource o y gr) || run (collDesc y) (16 + 2 * gr.nr) || note o
      | .pimmac _ _ | .pimld _ _ | .pimrd _ _ | .pimabEnter _ _ | .pimabLeave _ _ => run (copyDst y) 1
      | _ => false

/-- Whether a block still holds something of its donor, so that a hot-remove is refused. -/
def State.blockUsed (s : State) (p b : Nat) : Bool :=
  let x := s.part p
  let rs := s.regions.filter fun g => g.2.part == p
  let es := rs.flatMap fun g => if g.2.placed then g.2.elems else []
  (s.cores.any fun c => c.2.tlb.any (leafIn p b)) || (s.baseTlb.any fun c => c.2.any (leafIn p b)) || s.tableIn p b ||
    (rs.any fun g => g.2.hold.any fun h => inBlock b (128 * h.line)) ||
    (es.any fun e => (List.range 4).any fun q =>
      vget (s.elem e).bmode q .scr != .scr && inBlock b (vget (s.elem e).qphys q 0).toNat) ||
    (es.any fun e => (s.elem e).filled.any fun g => inBlock b g.2) ||
    s.runIn p b x.svb.toNat x.svs.toNat ||
    (x.queues.any fun q => q.2.en && s.runIn p b q.2.ring.toNat (8 * 2 ^ q.2.rsz)) ||
    (x.fqb != 0 && x.fqsz != 0 && s.runIn p b x.fqb.toNat (64 * 2 ^ x.fqsz)) ||
    (rs.any fun g => (s.entriesOf g.1).any fun t => s.entryIn p b t.2.2) ||
    (es.any fun e =>
      ((s.elem e).slots.toList.any fun y =>
        match y with
        | some z => (match z.ins with | .ldw _ _ => z.stage == 1 && inBlock b z.sub | _ => false)
        | none => false) ||
      (s.elem e).watch.toList.any fun w => match w with | some w => inBlock b w.phys | none => false)

/-! ### Mailboxes and block commands (R384, R385) -/

def msgType (m : W128) : Nat := bitsOf m.toNat 0 8
def msgSeq (m : W128) : Nat := bitsOf m.toNat 16 16
def msgBlock (m : W128) : Nat := bitsOf m.toNat 32 32

def State.setBlock (s : State) (b : Nat) (x : Block) : State := { s with blocks := SMap.set b x s.blocks }

/-- BLKCMD after a command: its fields, BSY, and ERR when the step is refused. -/
def blkWord (cmd b part : Nat) (busy err : Bool) : W64 :=
  BitVec.ofNat 64 (b % 512 + cmd * 2 ^ 12 + part % 8 * 2 ^ 16 + (if err then 2 ^ 30 else 0) + (if busy then 2 ^ 31 else 0))

/-- A refused step leaves the block unchanged and sets ERR. -/
def State.blkRefuse (s : State) : State := { s with blkCmd := s.blkCmd ||| 0x40000000 }

/-- A message to a partition is put in MBI and raises MBV. -/
def State.deliver (s : State) (p : Nat) (m : W128) : State :=
  let s := s.modPart p fun x => { x with mbi := m }
  if (s.part p).mbv.getLsbD 31 then s.irq p ((s.part p).mbv.toNat % 256) else s

/-- A message from the hypervisor: a notice of a block the partition owns, or the grant of one that is offered to it. -/
def State.toPartition (s : State) (p : Nat) (m : W128) : State :=
  let b := s.block (msgBlock m)
  match msgType m with
  | 1 => if b.state = .owned && b.own = p then (s.setBlock (msgBlock m) { b with notice := some (msgSeq m) }).deliver p m else s.blkRefuse
  | 4 => if b.state = .offered && b.own = p then s.deliver p m else s.blkRefuse
  | _ => s.deliver p m

/-- A message from a partition: acknowledge or refuse a notice by its SEQ, or take an offered block. -/
def State.fromPartition (s : State) (p : Nat) (m : W128) : State :=
  let s := s.modPart p fun x => { x with mbo := m }
  let b := s.block (msgBlock m)
  let noticed := b.state == .owned && b.own == p && b.notice == some (msgSeq m)
  match msgType m with
  | 2 => if noticed then s.setBlock (msgBlock m) { b with state := .removing, notice := none } else s.blkRefuse
  | 3 => if noticed then s.setBlock (msgBlock m) { b with notice := none } else s.blkRefuse
  | 5 => if b.state = .offered && b.own = p then s.setBlock (msgBlock m) { b with state := .owned } else s.blkRefuse
  | _ => s

def execNotice (p : Nat) (m : W128) (s : State) : Step1 := .next (if msgType m = 1 then s.toPartition p m else s)
def execAcknowledge (p : Nat) (m : W128) (s : State) : Step1 := .next (if msgType m = 2 then s.fromPartition p m else s)
def execRefuse (p : Nat) (m : W128) (s : State) : Step1 := .next (if msgType m = 3 then s.fromPartition p m else s)
def execGrant (p : Nat) (m : W128) (s : State) : Step1 := .next (if msgType m = 4 then s.toPartition p m else s)
def execHotAdd (p : Nat) (m : W128) (s : State) : Step1 := .next (if msgType m = 5 then s.fromPartition p m else s)

/-- A word of a 16-byte message. -/
def msgSet (m : W128) (i : Nat) (w : W32) : W128 := (m &&& ~~~(0xFFFFFFFF#128 <<< (32 * i))) ||| (w.setWidth 128 <<< (32 * i))

/-- A write of word i of MBI or MBO; word 0 comes last and sends the message (R385). -/
def State.mailWrite (s : State) (p : Nat) (toDriver : Bool) (i : Nat) (w : W32) : State :=
  let x := s.part p
  match toDriver, i with
  | true, 0 => s.toPartition p (msgSet x.mbi 0 w)
  | true, _ => s.modPart p fun x => { x with mbi := msgSet x.mbi i w }
  | false, 0 => s.fromPartition p (msgSet x.mbo 0 w)
  | false, _ => s.modPart p fun x => { x with mbo := msgSet x.mbo i w }

/-- A write of BLKCMD: ignored while BSY, else the command runs, refused unless its test holds. -/
def State.blkCommand (s : State) (cmd b part : Nat) (ok busy : Bool) (act : State → State) : State :=
  if s.blkCmd.getLsbD 31 then s
  else if ok && b < 288 then act { s with blkCmd := blkWord cmd b part busy false }
  else { s with blkCmd := blkWord cmd b part false true }

/-- Hot-remove: a block in removal that holds nothing of its donor leaves it. -/
def State.hotRemove (s : State) (b part : Nat) : State :=
  let x := s.block b
  s.blkCommand 1 b part (x.state == .removing && !s.blockUsed x.own b) false fun s => s.setBlock b { x with state := .scrubbing, own := 15 }
def execHotRemove (b : Nat) (s : State) : Step1 := .next (s.hotRemove b 0)

/-- Scrub: runs until every row of the block is zero. -/
def State.scrub1 (s : State) (b part : Nat) : State := s.blkCommand 2 b part ((s.block b).state == .scrubbing) true fun s => s
def execScrub (b : Nat) (s : State) : Step1 := .next (s.scrub1 b 0)

/-- The end of a scrub: rows read zero, and the block is free; its normal pages read as free values under
the receiver's key until they are written. -/
def execScrubCompletion (b : Nat) (s : State) : Step1 :=
  .next (
    let w := s.blkCmd.toNat
    if !(s.blkCmd.getLsbD 31 && bitsOf w 12 3 == 2 && bitsOf w 0 9 == b) then s
    else
      let s := s.setBlock b { s.block b with state := .free }
      { s with
        mem := s.mem.filter fun c => !inBlock b c.1
        l2 := s.l2.filter fun l => !inBlock b (128 * l.1)
        pres := s.pres.filter fun w => !inBlock b (4 * w)
        enc := s.enc.filter fun l => !inBlock b (128 * l.1)
        scrubs := insertNat b s.scrubs
        blkCmd := blkWord 2 b (bitsOf w 16 3) false false })

/-- Offer: a free block is offered to a partition. -/
def State.offer1 (s : State) (b p : Nat) : State :=
  let x := s.block b
  s.blkCommand 3 b p (x.state == .free && p < 8) false fun s => s.setBlock b { x with state := .offered, own := p }
def execOffer (b p : Nat) (s : State) : Step1 := .next (s.offer1 b p)

/-- Assign to the module: a free block becomes the module's. -/
def State.assign1 (s : State) (b part : Nat) : State :=
  let x := s.block b
  s.blkCommand 4 b part (x.state == .free) false fun s => s.setBlock b { x with state := .owned, own := 8 }
def execAssignToModule (b : Nat) (s : State) : Step1 := .next (s.assign1 b 0)

/-! ### Partitions (R379 to R392) -/

/-- Number of ones of a word of 14 bits. -/
def ownedVcs (x : Part) : Nat := ((List.range 14).filter x.pvc.getLsbD).length

/-- The conditions of R379 on setting EN. -/
def State.canEnable (s : State) (p : Nat) : Bool :=
  let x := s.part p
  let others := (List.range 8).filter fun k => k != p && (s.part k).en
  others.all (fun k => (s.part k).pvc &&& x.pvc &&& 0x3FFF == 0) &&
    ((List.range 4).all fun c => let v := bitsOf x.pmap.toNat (4 * c) 4; v < 14 && x.pvc.getLsbD v) &&
    2 ≤ x.pslt && x.pslt ≤ 8 &&
    x.pslt * ownedVcs x + (others.map fun k => (s.part k).pslt * ownedVcs (s.part k)).sum ≤ 56 &&
    others.all fun k => ((s.part k).fn != x.fn || x.fn == 0) && (s.part k).key != x.key

/-- EN is set if it may be; a partition that starts has QFLR and PMIG at zero (R202, R347). Whether the driver of its VF uses a PASID, and
which, is a free value, under which nothing is cached yet (R393, log 28). -/
def State.enable1 (s : State) (p : Nat) : State :=
  if !(s.part p).en && s.canEnable p then
    let id := if (s.part p).fn = 0 then none else (Config.driverPasid s.free).map fun n => n % 2 ^ 20
    let s := (if id = (s.part p).pasid then s else s.invalidate p 0 0).modPart p fun x => { x with en := true, qflr := 0, pmig := 0, pasid := id }
    if (s.part p).fn = 0 then s else { s with free := s.free + 1 }
  else s
def execPartitionEnable (p : Nat) (s : State) : Step1 := .next (s.enable1 p)

/-- Placed regions of a partition. -/
def State.placedOf (s : State) (p : Nat) : List Nat :=
  (s.regions.filter fun g => g.2.part == p && g.2.placed).map Prod.fst

/-- A region is frozen as by a violation: its record goes to both rings, and it waits for the hypervisor (R382, R390, log 98). A launch that
completes is past it (R350). -/
def State.expel (s : State) (p rn : Nat) : State :=
  match s.region rn with
  | none => s
  | some r =>
    if s.launchDone rn r then s else
    let f : FaultRec :=
      { code := 0x1A, flg := flgFRZ, src := 6, elid := 0, tix := 0, slot := 0, addr := 0, lrec := BitVec.ofNat 64 r.launch.addr, cutn := r.cutN
        det := 0, word := 0, tns := (s.part p).tNow, prog := 0, rseq := 0 }
    (s.freezeNow rn .disable).postVio p f (some rn) (.region p r.queue)

/-- EN is cleared; every region still placed is frozen as by a violation (R390). -/
def State.disable1 (s : State) (p : Nat) : State :=
  if !(s.part p).en then s
  else ((s.placedOf p).foldl (fun s rn => s.expel p rn) s).modPart p fun x => { x with en := false }
def execPartitionDisable (p : Nat) (s : State) : Step1 := .next (s.disable1 p)

/-- A save stream that a pause stops between two units keeps its pointer in the area's header; the region of an earlier pause is one that
was being frozen when this one came (R392). -/
def State.markStream (s : State) (rn : Nat) : State :=
  match s.region rn with
  | some r =>
    if r.phase != .stopped then s
    else
      let s := s.setRegion rn { r with why := if r.why == .pause then .driver else r.why }
      (match r.save with
       | some a =>
         (match s.ownWrite r.part ((s.part r.part).svb.toNat + 65536 * a + 0x3C) (bytesLE 4 (r.saveAt.getD 0)) .save with
          | .ok t => t | .error _ => s)
       | none => s)
  | none => s

/-- PAUSE is set: save streams under way stop, and every placed region is frozen (R392). -/
def State.pause1 (s : State) (p : Nat) : State :=
  if (s.part p).pause then s
  else
    let rs := s.placedOf p
    let s := rs.foldl State.markStream s
    (rs.foldl (fun s rn => s.freezeNow rn .pause) s).modPart p fun x => { x with pause := true }
def execPauseSet (p : Nat) (s : State) : Step1 := .next (s.pause1 p)
def State.unpause1 (s : State) (p : Nat) : State := s.modPart p fun x => { x with pause := false }
def execPauseClear (p : Nat) (s : State) : Step1 := .next (s.unpause1 p)

/-- MAINT changes only while no region is placed (R388). -/
def State.maint1 (s : State) (p : Nat) (m : Bool) : State :=
  if (s.placedOf p).isEmpty then s.modPart p fun x => { x with maint := m } else s
def execMaintWrite (p : Nat) (m : Bool) (s : State) : Step1 := .next (s.maint1 p m)

/-- Whether a core may be both partitions' (R387). -/
def State.sharedCore (s : State) (p k c : Nat) : Bool :=
  (s.shares p).any fun x => (x.a == k || x.b == k) && x.covers (gridX c) (gridY c)

/-- A write of PCOR: ignored if it makes a core two enabled partitions' outside a share; regions on cores it clears get a cut release
without a record (R381). -/
def State.pcor1 (s : State) (p : Nat) (v : BitVec 256) : State :=
  let clash := (s.part p).en && (List.range 8).any fun k =>
    k != p && (s.part k).en && (List.range 256).any fun c => v.getLsbD c && (s.part k).pcor.getLsbD c && !s.sharedCore p k c
  if clash then s
  else
    let hit := s.regions.filter fun g => g.2.part == p && g.2.freezable && g.2.cores.any fun c => !v.getLsbD c
    (hit.foldl (fun s g => s.releaseCut g.1) s).modPart p fun x => { x with pcor := v }
def execPcorWrite (p : Nat) (v : BitVec 256) (s : State) : Step1 := .next (s.pcor1 p v)

/-- T is set only while PAUSE is 1 (R378, R391). -/
def State.tnow1 (s : State) (p : Nat) (v : W64) : State :=
  s.modPart p fun x => if x.pause then { x with tNow := v, frac := 0 } else x
def execTnowWrite (p : Nat) (v : W64) (s : State) : Step1 := .next (s.tnow1 p v)

/-! ### Links (R395 to R397) -/

/-- WRT: a reserved value stores 15 (R396). -/
def State.wrt1 (s : State) (m : Nat) (v : BitVec 4) : State :=
  if 16384 ≤ m then s
  else if v.toNat < 12 then { s with wrt := SMap.set m v.toNat s.wrt }
  else { s with wrt := SMap.erase m s.wrt }
def execWrtWrite (m : Nat) (v : BitVec 4) (s : State) : Step1 := .next (s.wrt1 m v)

/-- WINDOW_GRANT: a receiver grants units of 4 KiB (R395). -/
def execWindowGrant (m n : Nat) (s : State) : Step1 :=
  .next { s with windows := SMap.set m (SMap.get 0 m s.windows + 4096 * n) s.windows }

/-- The die that carries a Wekan port: FDn has W(3n) to W(3n+2) (R3); and the port that leads toward a module (R396). -/
def linkDie (w : Nat) : Nat := w / 3
def State.linkTo (s : State) (m : Nat) : Option Nat := let w := SMap.get 15 m s.wrt; if w < 12 then some w else none

/-- Whether a run of bytes of device memory exists. -/
def runExists (a n : Nat) : Bool := devExists a && (n == 0 || devExists (a + n - 1))

/-- What an update of a peer leaves over an old value, and nothing where a CAS does not match (R214, R215). -/
def peerNew (k : PeerOp) (bs : List Byte) (old : Nat) : Option Nat :=
  match k with
  | .atom op ty _ => some (updateOp (op % 8) ty .rne false old (natLE bs)).1
  | .cas ty _ => if old = natLE (bs.take (tyBytes ty)) then some (natLE (bs.drop (tyBytes ty))) else none
  | _ => none

/-- An update of a peer of n bytes, as one write at its home; it returns the old value (R405). -/
def State.peerUpdate (s : State) (k : PeerOp) (bs : List Byte) (a n : Nat) : State :=
  if a % n = 0 && runExists a n then
    let old := natLE (s.devRead a n)
    let s := { s with peerOut := bytesLE n old }
    match peerNew k bs old with | some v => s.devWrite .device a (bytesLE n v) | none => s
  else s

/-- PEER_ACCESS: a peer's access is performed at its home as any other agent's; a read and an update return bytes (R205, R397). -/
def execPeerAccess (k : PeerOp) (bs : List Byte) (s : State) : Step1 :=
  .next (match k with
    | .write a => if runExists a bs.length then s.devWrite .device a bs else s
    | .read a n => if runExists a n then { s with peerOut := s.devRead a n } else s
    | .atom _ ty a | .cas ty a => s.peerUpdate k bs a (tyBytes ty))

/-! ### The BAR2 aperture and TDISP (R393, R394) -/

/-- Whether a function's window and aperture accept accesses. -/
def State.accepts (s : State) (f : Nat) : Bool :=
  f == 0 ||
    match (s.func f).tdisp with
    | .run => true
    | .unlocked => !Config.trustedHost f
    | _ => false

/-- The virtual address of an aperture offset. -/
def State.barAddr (s : State) (p off : Nat) : Nat := (s.part p).apb.toNat + off

/-- A violation through a function stops it: bus mastering and dispatching end until its record is released (R382). -/
def State.stopFunc (s : State) (p f addr : Nat) : State :=
  let r : FaultRec :=
    { code := 0x1A, flg := 0, src := 6, elid := 0, tix := 0, slot := 0, addr := BitVec.ofNat 64 addr, lrec := 0, cutn := 0, det := 0,
      word := 0, tns := (s.part p).tNow, prog := 0, rseq := 0 }
  { s.postVio p r none (.func f) with funcs := vset s.funcs f { s.func f with stopped := true } }

/-- HOST_BAR2_READ: the bytes, or a completer abort. -/
def execHostBar2Read (f off n : Nat) (s : State) : Step1 :=
  .next (match s.partOfFn f with
    | none => { s with hostIn := none }
    | some p =>
      if !s.accepts f || 2 ^ 36 < off + n then { s with hostIn := none }
      else
        let va := s.barAddr p off
        match s.resolveRun noTlb p va n .load with
        | .ok ls => { s with hostIn := some (s.readRun va ls) }
        | .fault 0x1A a => { s.stopFunc p f a with hostIn := none }
        | _ => { s with hostIn := none })

/-- HOST_BAR2_WRITE: performed, or dropped and counted in FLTS.OVF. -/
def execHostBar2Write (f off : Nat) (bs : List Byte) (s : State) : Step1 :=
  .next (match s.partOfFn f with
    | none => s
    | some p =>
      if !s.accepts f || 2 ^ 36 < off + bs.length then s
      else
        let va := s.barAddr p off
        match s.resolveRun noTlb p va bs.length .store with
        | .ok ls => s.writeRun .device va ls bs
        | .fault 0x1A a => (s.stopFunc p f a).countFlts p 0 12
        | _ => s.countFlts p 0 12)

/-- A VF moves to ERROR and is stopped as by a violation (R394). -/
def State.tdispFail (s : State) (f : Nat) : State :=
  if f = 0 || 9 ≤ f then s
  else
    let s := { s with funcs := vset s.funcs f { s.func f with tdisp := .error } }
    match s.partOfFn f with | some p => s.stopFunc p f 0 | none => s
def execTdispError (f : Nat) (s : State) : Step1 := .next (s.tdispFail f)

/-- A VF moves to another state of TDISP: 0 unlocked, 1 locked, 2 run (R393). -/
def execTdispStateChange (f t : Nat) (s : State) : Step1 :=
  .next (if f = 0 || 9 ≤ f then s
    else
      match t with
      | 0 => { s with funcs := vset s.funcs f { s.func f with tdisp := .unlocked } }
      | 1 => { s with funcs := vset s.funcs f { s.func f with tdisp := .locked } }
      | 2 => { s with funcs := vset s.funcs f { s.func f with tdisp := .run } }
      | _ => s.tdispFail f)

/-! ### ATS (R194, R393) -/

/-- ATS_TRANSLATION_RESPONSE: the answer to a request of a cache for a partition's PASID, which c names as cache + 512 × partition: a good leaf
enters the cache; with any other the page has no translation, which only the accesses that wait for it learn. -/
def execAtsTranslationResponse (c va : Nat) (leaf : W64) (s : State) : Step1 :=
  .next (
    let p := c / 512
    let k := c % 512
    if 8 ≤ p || (s.part p).pasid.isNone then s
    else
      let big := leaf.getLsbD 4
      let key := tlbKey p va false
      let s := { s with noMap := s.noMap.filter fun x => !(x.1 == k && x.2.1 == key) }
      if leafOk leaf big then
        let m := s.tlbOf k
        let m := if m.length < 1024 || k ≥ 256 then m else m.tail
        s.setTlb k (SMap.set (tlbKey p va big) leaf m)
      else { s with noMap := s.noMap ++ [(k, key, s.cycle)] })

/-- ATS_INVALIDATION: completed under R195. -/
def execAtsInvalidation (f va n : Nat) (s : State) : Step1 :=
  .next (match s.partOfFn f with
    | some p => if (s.part p).pasid.isSome && !s.partBusy p then s.invalidate p (va / 65536) n else s
    | none => s)

/-! ### Registers (R325, R354, R377 to R379, R387, R396, R399) -/

/-- A write in a queue window; pf is a write through PF BAR0. -/
def State.windowWrite (s : State) (p off : Nat) (v : W64) (pf : Bool) : State :=
  let w := BitVec.ofNat 32 v.toNat
  let mod := s.modPart p
  if off < 0x1000 then
    let qn := off / 64
    let q := s.queue p qn
    match off % 64 with
    | 0x00 => if q.en then s else s.setQueue p qn { q with ring := v &&& ~~~63 }
    | 0x08 => if q.en || w.toNat < 4 || 16 < w.toNat then s else s.setQueue p qn { q with rsz := w.toNat }
    | 0x0C => nextOr (execQctlWrite p qn w s) s
    | 0x14 => nextOr (execQueueTailWrite p qn w s) s
    | _ => s
  else
    match off with
    | 0x1000 => mod fun x => { x with cna := v }
    | 0x1008 => nextOr (execCancel p w s) s
    | 0x1010 => nextOr (execFltsClear p w s) s
    | 0x1018 => nextOr (execPgrspWrite p v s) s
    | 0x1020 => nextOr (execFqbWrite p v s) s
    | 0x1028 => nextOr (execFqszWrite p w s) s
    | 0x102C => mod fun x => { x with fqvec := w &&& 0x800000FF }
    | 0x1030 => nextOr (execFqhWrite p w s) s
    | 0x1040 => mod fun x => { x with svb := v &&& ~~~0xFFFF }
    | 0x1048 => mod fun x => { x with svs := v &&& ~~~0xFFFF }
    | 0x1100 | 0x1104 | 0x1108 | 0x110C => if pf then s.mailWrite p true ((off - 0x1100) / 4) w else s
    | 0x1110 | 0x1114 | 0x1118 | 0x111C => s.mailWrite p false ((off - 0x1110) / 4) w
    | 0x1120 => mod fun x => { x with mbv := w &&& 0x800000FF }
    | 0x1200 => mod fun x => { x with tofs := v }
    | 0x1208 => if pf then s.tnow1 p v else s
    | 0x1300 => mod fun x => if x.ivgo then x else { x with iva := v &&& ~~~0xFFFF }
    | 0x1308 => mod fun x => if x.ivgo then x else { x with ivn := w }
    | 0x130C => nextOr (execIvgoWrite p w s) s
    | 0x1400 => mod fun x => { x with apb := v &&& ~~~0xFFFF }
    | _ => s

/-- A write of PCTL: only MAINT, PAUSE and the clearing of EN are taken while EN is 1 (R379, R388, R390, R392). -/
def State.pctlWrite (s : State) (p : Nat) (v : W32) : State :=
  let x := s.part p
  let s := if x.en then s else s.modPart p fun x => { x with key := bitsOf v.toNat 8 4, fn := bitsOf v.toNat 0 4 }
  let s := if v.getLsbD 30 != x.maint then s.maint1 p (v.getLsbD 30) else s
  let s := if v.getLsbD 29 && !x.pause then s.pause1 p else if !v.getLsbD 29 && x.pause then s.unpause1 p else s
  if v.getLsbD 31 && !x.en then s.enable1 p else if !v.getLsbD 31 && x.en then s.disable1 p else s

/-- A write of a partition entry. -/
def State.ptabWrite (s : State) (p o : Nat) (v : W64) : State :=
  let w := BitVec.ofNat 32 v.toNat
  let closed (f : Part → Part) : State := s.modPart p fun x => if x.en then x else f x
  match o with
  | 0x00 => s.pctlWrite p w
  | 0x04 => closed fun x => { x with pvc := w &&& 0x3FFF }
  | 0x08 => closed fun x => { x with pmap := w &&& 0xFFFF }
  | 0x0C => closed fun x => { x with pslt := w.toNat % 16 }
  | 0x10 => closed fun x => { x with ptb := v }
  | _ =>
    if o < 0x20 || o % 8 ≠ 0 then s
    else
      let k := 64 * ((o - 0x20) / 8)
      let old := (s.part p).pcor
      s.pcor1 p ((old &&& ~~~((BitVec.ofNat 256 (2 ^ 64 - 1)) <<< k)) ||| ((BitVec.ofNat 256 v.toNat) <<< k))

/-- A write of BLKCMD (R384). -/
def State.blkWrite (s : State) (v : Nat) : State :=
  if v / 2 ^ 31 % 2 = 0 then s
  else
    let b := bitsOf v 0 9
    let part := bitsOf v 16 3
    match bitsOf v 12 3 with
    | 1 => s.hotRemove b part
    | 2 => s.scrub1 b part
    | 3 => s.offer1 b part
    | 4 => s.assign1 b part
    | n => s.blkCommand n b part false false id

/-- A write of the module ring's registers, as of a partition's (R354, R374, R377). -/
def State.mfqWrite (s : State) (off v : Nat) : State :=
  let w := v % 2 ^ 32
  let s := match off with
    | 0x4020 => s.setModReg off (v / 64 * 64)
    | 0x4028 => if w = 0 || (4 ≤ w && w ≤ 16) then s.setModReg off w else s
    | 0x402C => s.setModReg off (w / 2 ^ 31 * 2 ^ 31 + w % 256)
    | _ => s.setModReg off w
  s.flushModule s.mfq.length

/-- A write in PF BAR0 (R377); reserved offsets are ignored. -/
def State.pfWrite (s : State) (off : Nat) (v : W64) : State :=
  if 0x1000 ≤ off && off < 0x1200 then s.ptabWrite ((off - 0x1000) / 0x40) (off % 0x40) v
  else if off = 0x2200 then s.blkWrite (v.toNat % 2 ^ 32)
  else if 0x3000 ≤ off && off < 0x3040 && off % 8 = 0 then
    let i := (off - 0x3000) / 16
    let w := vget s.shtab i 0
    { s with shtab := vset s.shtab i (if off % 16 = 0 then (w.extractLsb' 64 64).append v else v.append (w.extractLsb' 0 64)) }
  else if off = 0x4080 then nextOr (execVioRelease (BitVec.ofNat 32 v.toNat) s) s
  else if [0x4020, 0x4028, 0x402C, 0x4030].contains off then s.mfqWrite off v.toNat
  else if off = 0x5000 then (if 800 ≤ v.toNat % 2 ^ 32 && v.toNat % 2 ^ 32 ≤ 3000 then { s with plim := BitVec.ofNat 32 v.toNat } else s)
  else if 0x6000 ≤ off && off < 0x8000 then
    (List.range 16).foldl (fun s i => s.wrt1 (2 * (off - 0x6000) + i) (BitVec.ofNat 4 (bitsOf v.toNat (4 * i) 4))) s
  else if 0x1000000 ≤ off && off < 0x1800000 then
    s.windowWrite ((off - 0x1000000) / 0x100000) ((off - 0x1000000) % 0x100000) v true
  else s

/-- REGISTER_WRITE: through PF BAR0, or through a VF's window of its partition (R377, R394). -/
def execRegisterWrite (f off : Nat) (v : W64) (s : State) : Step1 :=
  .next (if f = 0 then s.pfWrite off v
    else
      match s.partOfFn f with
      | some p => if s.accepts f then s.windowWrite p off v false else s
      | none => s)

/-- QSTS of a queue: [0] a launch of it is placed or frozen, [1] full, [2] its launch is stopped and waits for room in the save pool
(R325). -/
def State.qsts (s : State) (p q : Nat) : W32 :=
  let stuck := match s.launchOf p q with | some (rn, r) => r.phase == Phase.stopped && (s.takeSave rn).isNone | none => false
  BitVec.ofNat 32 ((s.launchOf p q).isSome.toNat + 2 * (s.queue p q).full.toNat + 4 * stuck.toNat)

/-! ### Reads of registers (R325, R354, R377, R378, R396, R399); reserved offsets read as zero -/

/-- The byte of some registers, each at an offset, at an offset. -/
def regByte (rs : List (Nat × List Byte)) (off : Nat) : Byte :=
  (rs.findSome? fun r => if r.1 ≤ off then r.2[off - r.1]? else none).getD 0

/-- The registers of a launch queue block (R325). -/
def State.queueRegs (s : State) (p q : Nat) : List (Nat × List Byte) :=
  let x := s.queue p q
  [(0x00, bytesLE 8 x.ring.toNat), (0x08, bytesLE 4 x.rsz), (0x0C, bytesLE 4 x.ctl.toNat), (0x10, bytesLE 4 x.head.toNat),
   (0x14, bytesLE 4 x.tail.toNat), (0x18, bytesLE 4 (s.qsts p q).toNat)]

/-- The other registers of a queue window; CNL and PGRSP are written only (R348, R354, R378). -/
def State.windowRegs (s : State) (p : Nat) : List (Nat × List Byte) :=
  let x := s.part p
  [(0x1000, bytesLE 8 x.cna.toNat), (0x1010, bytesLE 4 x.flts.toNat), (0x1020, bytesLE 8 x.fqb.toNat), (0x1028, bytesLE 4 x.fqsz),
   (0x102C, bytesLE 4 x.fqvec.toNat), (0x1030, bytesLE 4 x.fqh.toNat), (0x1034, bytesLE 4 x.fqt.toNat), (0x1040, bytesLE 8 x.svb.toNat),
   (0x1048, bytesLE 8 x.svs.toNat), (0x1100, bytesLE 16 x.mbi.toNat), (0x1110, bytesLE 16 x.mbo.toNat), (0x1120, bytesLE 4 x.mbv.toNat),
   (0x1200, bytesLE 8 x.tofs.toNat), (0x1208, bytesLE 8 x.tNow.toNat), (0x1300, bytesLE 8 x.iva.toNat), (0x1308, bytesLE 4 x.ivn.toNat),
   (0x130C, bytesLE 4 x.ivgo.toNat), (0x1400, bytesLE 8 x.apb.toNat)]

/-- A byte of a queue window; until the module is ready it reads zero (R398). -/
def State.windowByte (s : State) (p off : Nat) : Byte :=
  if !s.ready then 0
  else if off < 0x1000 then regByte (s.queueRegs p (off / 64)) (off % 64)
  else regByte (s.windowRegs p) off

/-- The bytes of a partition entry, and of a block's ownership (R379, R383). -/
def partBytes (x : Part) : List Byte :=
  bytesLE 4 (x.fn + 2 ^ 8 * x.key + 2 ^ 29 * x.pause.toNat + 2 ^ 30 * x.maint.toNat + 2 ^ 31 * x.en.toNat) ++ bytesLE 4 x.pvc.toNat ++
    bytesLE 4 x.pmap.toNat ++ bytesLE 4 x.pslt ++ bytesLE 8 x.ptb.toNat ++ bytesLE 8 0 ++ bytesLE 32 x.pcor.toNat
def Block.code (x : Block) : Nat :=
  x.own + 16 * (match x.state with | .owned => 0 | .removing => 1 | .scrubbing => 2 | .free => 3 | .offered => 4)

/-- A byte of PF BAR0 (R377, R383, R384, R387, R396, R399). -/
def State.pfByte (s : State) (off : Nat) : Byte :=
  if 0x1000 ≤ off && off < 0x1200 then (partBytes (s.part ((off - 0x1000) / 0x40))).getD (off % 0x40) 0
  else if 0x2000 ≤ off && off < 0x2120 then BitVec.ofNat 8 (s.block (off - 0x2000)).code
  else if 0x3000 ≤ off && off < 0x3040 then BitVec.ofNat 8 ((vget s.shtab ((off - 0x3000) / 16) 0).toNat / 2 ^ (8 * (off % 16)))
  else if 0x6000 ≤ off && off < 0x8000 then
    let m := 2 * (off - 0x6000)
    BitVec.ofNat 8 (SMap.get 15 m s.wrt + 16 * SMap.get 15 (m + 1) s.wrt)
  else if (0x5010 ≤ off && off < 0x5014) || (0x5020 ≤ off && off < 0x5050) then Config.telemetry s.cycle (off - 0x5000)
  else if 0x1000000 ≤ off && off < 0x1800000 then s.windowByte ((off - 0x1000000) / 0x100000) (off % 0x100000)
  else
    let reg := fun o n => (o, bytesLE n (s.modReg o))
    regByte [(0x10, bytesLE 4 s.ready.toNat), (0x2200, bytesLE 4 s.blkCmd.toNat), reg 0x4020 8, reg 0x4028 4, reg 0x402C 4, reg 0x4030 4,
      reg 0x4034 4, (0x5000, bytesLE 4 s.plim.toNat)] off

/-- What a host read of n bytes of a function's BAR0 gives: the PF its map, a VF the queue window of its partition, and nothing where the
function accepts no access (R377, R394). -/
def State.registerRead (s : State) (f off n : Nat) : Option (List Byte) :=
  if f = 0 then some ((List.range n).map fun i => s.pfByte (off + i))
  else
    match s.partOfFn f with
    | some p => if s.accepts f then some ((List.range n).map fun i => s.windowByte p (off + i)) else none
    | none => none

/-! ### Keys, firmware and reset (R389, R398) -/

/-- KEY_GENERATION: a slot that no enabled partition names gets a fresh key. -/
def execKeyGeneration (k : Nat) (s : State) : Step1 :=
  .next (if 16 ≤ k || (List.range 8).any (fun p => (s.part p).en && (s.part p).key == k) then s
    else { s with keys := vset s.keys k (vget s.keys k 0 + 1) })

/-- ATTESTATION_REPORT: measurements of the firmware and of the keys of privileged images, partition table, block ownership and the host's nonce, signed. -/
def execAttestationReport (nonce : List Byte) (s : State) : Step1 :=
  .next (
    let body := bytesLE 64 (Config.sha3 s.fw).toNat ++ (Config.imageKeys.flatMap fun k => bytesLE 64 (Config.sha3 k).toNat) ++ s.parts.toList.flatMap partBytes ++
      ((List.range 288).map fun b => BitVec.ofNat 8 (s.block b).code) ++ nonce
    { s with report := body ++ Config.sign body })

/-- Whether a firmware image passes its signature. -/
def fwGood (img sig key : List Byte) : Bool := Config.signatureOk key sig (Config.sha3 img)

/-- MODULE_RESET: bring-up from the kept firmware image; what fails its signature leads to the recovery path. What stands outside the
module stays. -/
def execModuleReset (s : State) : Step1 :=
  .next (
    let ok := fwGood s.fw s.fwSig s.fwKey
    { State.reset with
      agenda := s.agenda, free := s.free, hostMem := s.hostMem, peerMem := s.peerMem, irqs := s.irqs, hostIn := s.hostIn, peerOut := s.peerOut
      fw := s.fw, fwSig := s.fwSig, fwKey := s.fwKey, ready := ok, recovery := !ok })

/-- RECOVERY_IMAGE: the recovery path takes only a signed image. -/
def execRecoveryImage (img sig key : List Byte) (s : State) : Step1 :=
  .next (if s.recovery && fwGood img sig key then { s with fw := img, fwSig := sig, fwKey := key, recovery := false, ready := true } else s)

end Sys2Proof.Machine
end

