-- ==== Sys2Proof/Machine/PairOps.lean ====
section
/-! DEFINITION. The halves of a pair (R40, R73 to R75). A pair fires as two steps of the model within one firing: the scalar half
computes and leaves its result in pairDone, and the vector half then issues and completes the pair (log 13). -/

namespace Sys2Proof.Machine

open Sys2Proof

/-- The source a 6-bit half operand names (R73). -/
def halfSrc (c : BitVec 6) : Src :=
  if c.toNat < 16 then .s (c.setWidth 4) else if c.toNat < 32 then .v (c.setWidth 4) else .q (c.setWidth 5)

/-- IMM5 extended to a type (R75). -/
def halfImm (ty : Ty) (i : BitVec 5) : Nat :=
  if Ty.signed ty then offsetAdd (Ty.width ty) 0 (sxInt i.toNat 5) else i.toNat

/-- The lanes of a half's operand, vector or scalar by its half. -/
def halfRead (f : Firing) (s : State) (ty : Ty) (vec : Bool) (c : BitVec 6) : List Nat × Fl :=
  s.read f.e f.x ty vec 0 (halfSrc c)

/-- IMM5 in every lane. -/
def halfNum (ty : Ty) (vec : Bool) (i : BitVec 5) : List Nat := List.replicate (if vec then Ty.lanes ty else 1) (halfImm ty i)

/-- MOD of a half: float rounding is AXC's default and integers do not saturate (R75). -/
def halfMod (ty : Ty) : BitVec 4 := if Ty.isInt ty then 0 else 7

/-- What a half computes: a function of its firing and of whether it is the vector half. -/
abbrev HalfRun := Firing → State → Bool → List Nat × Fl

def unary (g : Axc → Ty → Nat → LaneRes) (h : HalfU) : HalfRun := fun f s vec =>
  let (a, fa) := halfRead f s h.ty vec h.a
  let (y, fl) := mapRes (g (axcOf f.x.axc) (Ty.work h.ty)) a
  (y, fa ||| fl)

def unaryImm (g : Axc → Ty → Nat → LaneRes) (h : HalfI) : HalfRun := fun f _ vec =>
  mapRes (g (axcOf f.x.axc) h.ty) (halfNum h.ty vec h.i)

def binary (g : Axc → Ty → Nat → Nat → LaneRes) (h : HalfR) : HalfRun := fun f s vec =>
  let (a, fa) := halfRead f s h.ty vec h.a
  let (b, fb) := halfRead f s h.ty vec h.b
  let (y, fl) := mapRes2 (g (axcOf f.x.axc) (Ty.work h.ty)) a b
  (y, fa ||| fb ||| fl)

def binaryImm (g : Axc → Ty → Nat → Nat → LaneRes) (h : HalfI) : HalfRun := fun f s vec =>
  let (a, fa) := halfRead f s h.ty vec h.a
  let (y, fl) := mapRes2 (g (axcOf f.x.axc) h.ty) a (halfNum h.ty vec h.i)
  (y, fa ||| fl)

/-- CMP and STEER compare as CMP does (R75, R525). -/
def compareHalf (h : HalfC) : HalfRun := fun f s vec =>
  let (a, fa) := halfRead f s h.ty vec h.a
  let (b, fb) := halfRead f s h.ty vec h.b
  let (y, fl) := mapRes2 (laneCmp (axcOf f.x.axc) (Ty.work h.ty) h.c) a b
  (y, fa ||| fb ||| fl)

/-- VBCAST of lane i mod n (R538, R539). -/
def bcastHalf (h : HalfR) : HalfRun := fun f s _ =>
  let n := Ty.lanes h.ty
  let i := (halfRead f s h.ty false h.b).1.headD 0
  (List.replicate n (lane (halfRead f s h.ty true h.a).1 (i % n)), flNone)

def bcastHalfImm (h : HalfI) : HalfRun := fun f s _ =>
  let n := Ty.lanes h.ty
  (List.replicate n (lane (halfRead f s h.ty true h.a).1 (halfImm h.ty h.i % n)), flNone)

/-- The scalar half: shape checks of the firing, then its result is kept for the vector half. -/
def State.scalarHalf (s : State) (vh : Instr) (t : TU) (w : Ty) (d : Nat) (g : HalfRun) : State :=
  let skip : PairHalf := ⟨vh, 0, 0, flNone, true, true⟩
  match s.firing t with
  | none => s
  | some f =>
    match Machine.shapeOf f.t f.x with
    | .mismatch => { s.raiseFault (faultOf f 0x08 0 8 (.issue f.e f.tix)) with pairDone := some skip }
    | .discard q => { s.discardFiring f q with pairDone := some skip }
    | .marker k => { s.markerFiring f k with pairDone := some skip }
    | .plain =>
      let (y, fl) := g f s false
      let v := y.headD 0
      { s with pairDone := some ⟨vh, d, regWord w v, fl, v != 0, false⟩ }

/-- The vector half: the pair issues and completes; its token is the vector result, its condition the scalar half's (R40). -/
def State.vectorHalf (s : State) (p : PairHalf) (t : TU) (w : Ty) (d : Nat) (g : HalfRun) : State :=
  let s := { s with pairDone := none }
  if p.skip then s
  else
    match s.firing t with
    | none => s
    | some f =>
      let (y, fl) := g f s true
      let v := packLanes w y
      let b := baseEffect f.t none f.seq p.cnd
      (s.issue f).completeWith f.e { b with
        sregs := [(p.d, p.val)], vregs := [(d, v)], fl := p.fl ||| fl
        toks := if f.t.ole then [⟨labelOf f.t p.cnd, dataTok v f.tag⟩] else [] }

/-- A half by its destination; w is the type its lanes work in. -/
def State.half (s : State) (w : Ty) (d : BitVec 5) (g : HalfRun) : State :=
  match s.cur with
  | none => s
  | some c =>
    match decodeWord c.word with
    | .ok (.pair t _ vh) =>
      if d.toNat < 16 then s.scalarHalf vh t w d.toNat g
      else match s.pairDone with
        | none => s
        | some p => s.vectorHalf p t w (d.toNat - 16) g
    | _ => s

/-! ### Two-source halves -/

def execPairAdd (h : HalfR) (s : State) : Step1 := .next (s.half (Ty.work h.ty) h.d (binary (fun x w => laneAdd x w (halfMod w)) h))
def execPairAddImm (h : HalfI) (s : State) : Step1 := .next (s.half h.ty h.d (binaryImm (fun x w => laneAdd x w (halfMod w)) h))
def execPairAdds (h : HalfR) (s : State) : Step1 := .next (s.half (Ty.work h.ty) h.d (binary (fun _ w => laneAdds w) h))
def execPairAddsImm (h : HalfI) (s : State) : Step1 := .next (s.half h.ty h.d (binaryImm (fun _ w => laneAdds w) h))
def execPairSub (h : HalfR) (s : State) : Step1 := .next (s.half (Ty.work h.ty) h.d (binary (fun x w => laneSub x w (halfMod w)) h))
def execPairSubImm (h : HalfI) (s : State) : Step1 := .next (s.half h.ty h.d (binaryImm (fun x w => laneSub x w (halfMod w)) h))
def execPairSubs (h : HalfR) (s : State) : Step1 := .next (s.half (Ty.work h.ty) h.d (binary (fun _ w => laneSubs w) h))
def execPairSubsImm (h : HalfI) (s : State) : Step1 := .next (s.half h.ty h.d (binaryImm (fun _ w => laneSubs w) h))
def execPairMul (h : HalfR) (s : State) : Step1 := .next (s.half (Ty.work h.ty) h.d (binary (fun x w => laneMul x w (halfMod w)) h))
def execPairMulImm (h : HalfI) (s : State) : Step1 := .next (s.half h.ty h.d (binaryImm (fun x w => laneMul x w (halfMod w)) h))
def execPairMulh (h : HalfR) (s : State) : Step1 := .next (s.half (Ty.work h.ty) h.d (binary (fun _ w => laneMulh w) h))
def execPairMulhImm (h : HalfI) (s : State) : Step1 := .next (s.half h.ty h.d (binaryImm (fun _ w => laneMulh w) h))
def execPairMin (h : HalfR) (s : State) : Step1 := .next (s.half (Ty.work h.ty) h.d (binary (fun x w => laneMinMax false x w) h))
def execPairMinImm (h : HalfI) (s : State) : Step1 := .next (s.half h.ty h.d (binaryImm (fun x w => laneMinMax false x w) h))
def execPairMax (h : HalfR) (s : State) : Step1 := .next (s.half (Ty.work h.ty) h.d (binary (fun x w => laneMinMax true x w) h))
def execPairMaxImm (h : HalfI) (s : State) : Step1 := .next (s.half h.ty h.d (binaryImm (fun x w => laneMinMax true x w) h))
def execPairAnd (h : HalfR) (s : State) : Step1 := .next (s.half (Ty.work h.ty) h.d (binary (fun _ _ => laneAnd) h))
def execPairAndImm (h : HalfI) (s : State) : Step1 := .next (s.half h.ty h.d (binaryImm (fun _ _ => laneAnd) h))
def execPairAndn (h : HalfR) (s : State) : Step1 := .next (s.half (Ty.work h.ty) h.d (binary (fun _ w => laneAndn w) h))
def execPairAndnImm (h : HalfI) (s : State) : Step1 := .next (s.half h.ty h.d (binaryImm (fun _ w => laneAndn w) h))
def execPairOr (h : HalfR) (s : State) : Step1 := .next (s.half (Ty.work h.ty) h.d (binary (fun _ _ => laneOr) h))
def execPairOrImm (h : HalfI) (s : State) : Step1 := .next (s.half h.ty h.d (binaryImm (fun _ _ => laneOr) h))
def execPairXor (h : HalfR) (s : State) : Step1 := .next (s.half (Ty.work h.ty) h.d (binary (fun _ _ => laneXor) h))
def execPairXorImm (h : HalfI) (s : State) : Step1 := .next (s.half h.ty h.d (binaryImm (fun _ _ => laneXor) h))
def execPairShl (h : HalfR) (s : State) : Step1 := .next (s.half (Ty.work h.ty) h.d (binary (fun _ w => laneShl w 0) h))
def execPairShlImm (h : HalfI) (s : State) : Step1 := .next (s.half h.ty h.d (binaryImm (fun _ w => laneShl w 0) h))
def execPairShr (h : HalfR) (s : State) : Step1 := .next (s.half (Ty.work h.ty) h.d (binary (fun _ w => laneShr w) h))
def execPairShrImm (h : HalfI) (s : State) : Step1 := .next (s.half h.ty h.d (binaryImm (fun _ w => laneShr w) h))
def execPairSar (h : HalfR) (s : State) : Step1 := .next (s.half (Ty.work h.ty) h.d (binary (fun _ w => laneSar w) h))
def execPairSarImm (h : HalfI) (s : State) : Step1 := .next (s.half h.ty h.d (binaryImm (fun _ w => laneSar w) h))
def execPairRot (h : HalfR) (s : State) : Step1 := .next (s.half (Ty.work h.ty) h.d (binary (fun _ w => laneRot w) h))
def execPairRotImm (h : HalfI) (s : State) : Step1 := .next (s.half h.ty h.d (binaryImm (fun _ w => laneRot w) h))

/-! ### One-source halves; the number of an immediate form is the source -/

def execPairMov (h : HalfU) (s : State) : Step1 := .next (s.half (Ty.work h.ty) h.d (unary (fun _ _ a => (a, flNone)) h))
def execPairMovImm (h : HalfI) (s : State) : Step1 := .next (s.half h.ty h.d (unaryImm (fun _ _ a => (a, flNone)) h))
def execPairAbs (h : HalfU) (s : State) : Step1 := .next (s.half (Ty.work h.ty) h.d (unary (fun _ w a => laneAbs w 0 a) h))
def execPairNeg (h : HalfU) (s : State) : Step1 := .next (s.half (Ty.work h.ty) h.d (unary (fun _ w a => laneNeg w 0 a) h))
def execPairClz (h : HalfU) (s : State) : Step1 := .next (s.half (Ty.work h.ty) h.d (unary (fun _ w a => laneClz w a) h))
def execPairClzImm (h : HalfI) (s : State) : Step1 := .next (s.half h.ty h.d (unaryImm (fun _ w a => laneClz w a) h))
def execPairPopc (h : HalfU) (s : State) : Step1 := .next (s.half (Ty.work h.ty) h.d (unary (fun _ w a => lanePopc w a) h))
def execPairPopcImm (h : HalfI) (s : State) : Step1 := .next (s.half h.ty h.d (unaryImm (fun _ w a => lanePopc w a) h))

/-! ### CMP, STEER and VBCAST -/

def execPairCmp (h : HalfC) (s : State) : Step1 := .next (s.half (Ty.work h.ty) h.d (compareHalf h))
def execPairSteer (h : HalfC) (s : State) : Step1 := .next (s.half (Ty.work h.ty) h.d (compareHalf h))
def execPairVbcast (h : HalfR) (s : State) : Step1 := .next (s.half h.ty h.d (bcastHalf h))
def execPairVbcastImm (h : HalfI) (s : State) : Step1 := .next (s.half h.ty h.d (bcastHalfImm h))

end Sys2Proof.Machine
end

