-- ==== Sys2Proof/Machine/Dispatch.lean ====
section
/-! DEFINITION. The meaning of every instruction: one arm per constructor, each one direct call. -/

namespace Sys2Proof.Machine

open Sys2Proof

def exec (i : Instr) (s : State) : Host.Outcome State Fault Refusal :=
  match i with
  | .nop t o => Sys2Proof.Machine.execNop t o s
  | .emit t o => Sys2Proof.Machine.execEmit t o s
  | .steer t o => Sys2Proof.Machine.execSteer t o s
  | .merge t o => Sys2Proof.Machine.execMerge t o s
  | .repl t o => Sys2Proof.Machine.execRepl t o s
  | .mark t o => Sys2Proof.Machine.execMark t o s
  | .sink t o => Sys2Proof.Machine.execSink t o s
  | .doneOp t o => Sys2Proof.Machine.execDoneOp t o s
  | .erls t o => Sys2Proof.Machine.execErls t o s
  | .pset t o => Sys2Proof.Machine.execPset t o s
  | .padd t o => Sys2Proof.Machine.execPadd t o s
  | .prd t o => Sys2Proof.Machine.execPrd t o s
  | .tag t o => Sys2Proof.Machine.execTag t o s
  | .rpull t o => Sys2Proof.Machine.execRpull t o s
  | .lnch t o => Sys2Proof.Machine.execLnch t o s
  | .trap t o => Sys2Proof.Machine.execTrap t o s
  | .mov t o => Sys2Proof.Machine.execMov t o s
  | .movi t o => Sys2Proof.Machine.execMovi t o s
  | .movh t o => Sys2Proof.Machine.execMovh t o s
  | .sel t o => Sys2Proof.Machine.execSel t o s
  | .cmp t o => Sys2Proof.Machine.execCmp t o s
  | .add t o => Sys2Proof.Machine.execAdd t o s
  | .adds t o => Sys2Proof.Machine.execAdds t o s
  | .sub t o => Sys2Proof.Machine.execSub t o s
  | .subs t o => Sys2Proof.Machine.execSubs t o s
  | .mul t o => Sys2Proof.Machine.execMul t o s
  | .mulh t o => Sys2Proof.Machine.execMulh t o s
  | .fma t o => Sys2Proof.Machine.execFma t o s
  | .div t o => Sys2Proof.Machine.execDiv t o s
  | .min t o => Sys2Proof.Machine.execMin t o s
  | .max t o => Sys2Proof.Machine.execMax t o s
  | .clamp t o => Sys2Proof.Machine.execClamp t o s
  | .abs t o => Sys2Proof.Machine.execAbs t o s
  | .neg t o => Sys2Proof.Machine.execNeg t o s
  | .andOp t o => Sys2Proof.Machine.execAndOp t o s
  | .andn t o => Sys2Proof.Machine.execAndn t o s
  | .orOp t o => Sys2Proof.Machine.execOrOp t o s
  | .xor t o => Sys2Proof.Machine.execXor t o s
  | .shl t o => Sys2Proof.Machine.execShl t o s
  | .shr t o => Sys2Proof.Machine.execShr t o s
  | .sar t o => Sys2Proof.Machine.execSar t o s
  | .rot t o => Sys2Proof.Machine.execRot t o s
  | .clz t o => Sys2Proof.Machine.execClz t o s
  | .popc t o => Sys2Proof.Machine.execPopc t o s
  | .cvt t o => Sys2Proof.Machine.execCvt t o s
  | .qnt t o => Sys2Proof.Machine.execQnt t o s
  | .rcp t o => Sys2Proof.Machine.execRcp t o s
  | .rsq t o => Sys2Proof.Machine.execRsq t o s
  | .sqrt t o => Sys2Proof.Machine.execSqrt t o s
  | .exp2 t o => Sys2Proof.Machine.execExp2 t o s
  | .log2 t o => Sys2Proof.Machine.execLog2 t o s
  | .vbcast t o => Sys2Proof.Machine.execVbcast t o s
  | .vperm t o => Sys2Proof.Machine.execVperm t o s
  | .vzip t o => Sys2Proof.Machine.execVzip t o s
  | .vuzp t o => Sys2Proof.Machine.execVuzp t o s
  | .vtrn t o => Sys2Proof.Machine.execVtrn t o s
  | .vpack t o => Sys2Proof.Machine.execVpack t o s
  | .vunpk t o => Sys2Proof.Machine.execVunpk t o s
  | .vcmpr t o => Sys2Proof.Machine.execVcmpr t o s
  | .vxpd t o => Sys2Proof.Machine.execVxpd t o s
  | .vred t o => Sys2Proof.Machine.execVred t o s
  | .vscan t o => Sys2Proof.Machine.execVscan t o s
  | .bld t o => Sys2Proof.Machine.execBld t o s
  | .bst t o => Sys2Proof.Machine.execBst t o s
  | .bldx t o => Sys2Proof.Machine.execBldx t o s
  | .bstx t o => Sys2Proof.Machine.execBstx t o s
  | .brmw t o => Sys2Proof.Machine.execBrmw t o s
  | .bcas t o => Sys2Proof.Machine.execBcas t o s
  | .ld t o => Sys2Proof.Machine.execLd t o s
  | .st t o => Sys2Proof.Machine.execSt t o s
  | .ldo t o => Sys2Proof.Machine.execLdo t o s
  | .ldw t o => Sys2Proof.Machine.execLdw t o s
  | .stw t o => Sys2Proof.Machine.execStw t o s
  | .atom t o => Sys2Proof.Machine.execAtom t o s
  | .red t o => Sys2Proof.Machine.execRed t o s
  | .cas t o => Sys2Proof.Machine.execCas t o s
  | .fence t o => Sys2Proof.Machine.execFence t o s
  | .pref t o => Sys2Proof.Machine.execPref t o s
  | .inv t o => Sys2Proof.Machine.execInv t o s
  | .sopen t o => Sys2Proof.Machine.execSopen t o s
  | .sparm t o => Sys2Proof.Machine.execSparm t o s
  | .sclose t o => Sys2Proof.Machine.execSclose t o s
  | .srec t o => Sys2Proof.Machine.execSrec t o s
  | .rfen t o => Sys2Proof.Machine.execRfen t o s
  | .gath t o => Sys2Proof.Machine.execGath t o s
  | .scat t o => Sys2Proof.Machine.execScat t o s
  | .cpy t o => Sys2Proof.Machine.execCpy t o s
  | .fill t o => Sys2Proof.Machine.execFill t o s
  | .qfen t o => Sys2Proof.Machine.execQfen t o s
  | .rcopy t o => Sys2Proof.Machine.execRcopy t o s
  | .rzero t o => Sys2Proof.Machine.execRzero t o s
  | .stash t o => Sys2Proof.Machine.execStash t o s
  | .unstash t o => Sys2Proof.Machine.execUnstash t o s
  | .coll t o => Sys2Proof.Machine.execColl t o s
  | .pimabEnter t o => Sys2Proof.Machine.execPimabEnter t o s
  | .pimabLeave t o => Sys2Proof.Machine.execPimabLeave t o s
  | .pimld t o => Sys2Proof.Machine.execPimld t o s
  | .pimmac t o => Sys2Proof.Machine.execPimmac t o s
  | .pimrd t o => Sys2Proof.Machine.execPimrd t o s
  | .mxmodeEnter t o => Sys2Proof.Machine.execMxmodeEnter t o s
  | .mxmodeEnterSplit t o => Sys2Proof.Machine.execMxmodeEnterSplit t o s
  | .mxmodeLeave t o => Sys2Proof.Machine.execMxmodeLeave t o s
  | .mxwld t o => Sys2Proof.Machine.execMxwld t o s
  | .mxc t o => Sys2Proof.Machine.execMxc t o s
  | .mxacc t o => Sys2Proof.Machine.execMxacc t o s
  | .ipatch t o => Sys2Proof.Machine.execIpatch t o s
  | .icfg t o => Sys2Proof.Machine.execIcfg t o s
  | .iset t o => Sys2Proof.Machine.execIset t o s
  | .iget t o => Sys2Proof.Machine.execIget t o s
  | .istep t o => Sys2Proof.Machine.execIstep t o s
  | .isave t o => Sys2Proof.Machine.execIsave t o s
  | .irest t o => Sys2Proof.Machine.execIrest t o s
  | .ifeed t o => Sys2Proof.Machine.execIfeed t o s
  | .isamp t o => Sys2Proof.Machine.execIsamp t o s
  | .bari t o => Sys2Proof.Machine.execBari t o s
  | .bara t o => Sys2Proof.Machine.execBara t o s
  | .barw t o => Sys2Proof.Machine.execBarw t o s
  | .bart t o => Sys2Proof.Machine.execBart t o s
  | .barq t o => Sys2Proof.Machine.execBarq t o s
  | .waita t o => Sys2Proof.Machine.execWaita t o s
  | .note t o => Sys2Proof.Machine.execNote t o s
  | .rdsr t o => Sys2Proof.Machine.execRdsr t o s
  | .wrsr t o => Sys2Proof.Machine.execWrsr t o s
  | .time t o => Sys2Proof.Machine.execTime t o s
  | .cfgw t o => Sys2Proof.Machine.execCfgw t o s
  | .frz t o => Sys2Proof.Machine.execFrz t o s
  | .pairMov h => Sys2Proof.Machine.execPairMov h s
  | .pairMovImm h => Sys2Proof.Machine.execPairMovImm h s
  | .pairAdd h => Sys2Proof.Machine.execPairAdd h s
  | .pairAddImm h => Sys2Proof.Machine.execPairAddImm h s
  | .pairAdds h => Sys2Proof.Machine.execPairAdds h s
  | .pairAddsImm h => Sys2Proof.Machine.execPairAddsImm h s
  | .pairSub h => Sys2Proof.Machine.execPairSub h s
  | .pairSubImm h => Sys2Proof.Machine.execPairSubImm h s
  | .pairSubs h => Sys2Proof.Machine.execPairSubs h s
  | .pairSubsImm h => Sys2Proof.Machine.execPairSubsImm h s
  | .pairMul h => Sys2Proof.Machine.execPairMul h s
  | .pairMulImm h => Sys2Proof.Machine.execPairMulImm h s
  | .pairMulh h => Sys2Proof.Machine.execPairMulh h s
  | .pairMulhImm h => Sys2Proof.Machine.execPairMulhImm h s
  | .pairMin h => Sys2Proof.Machine.execPairMin h s
  | .pairMinImm h => Sys2Proof.Machine.execPairMinImm h s
  | .pairMax h => Sys2Proof.Machine.execPairMax h s
  | .pairMaxImm h => Sys2Proof.Machine.execPairMaxImm h s
  | .pairAbs h => Sys2Proof.Machine.execPairAbs h s
  | .pairNeg h => Sys2Proof.Machine.execPairNeg h s
  | .pairAnd h => Sys2Proof.Machine.execPairAnd h s
  | .pairAndImm h => Sys2Proof.Machine.execPairAndImm h s
  | .pairAndn h => Sys2Proof.Machine.execPairAndn h s
  | .pairAndnImm h => Sys2Proof.Machine.execPairAndnImm h s
  | .pairOr h => Sys2Proof.Machine.execPairOr h s
  | .pairOrImm h => Sys2Proof.Machine.execPairOrImm h s
  | .pairXor h => Sys2Proof.Machine.execPairXor h s
  | .pairXorImm h => Sys2Proof.Machine.execPairXorImm h s
  | .pairShl h => Sys2Proof.Machine.execPairShl h s
  | .pairShlImm h => Sys2Proof.Machine.execPairShlImm h s
  | .pairShr h => Sys2Proof.Machine.execPairShr h s
  | .pairShrImm h => Sys2Proof.Machine.execPairShrImm h s
  | .pairSar h => Sys2Proof.Machine.execPairSar h s
  | .pairSarImm h => Sys2Proof.Machine.execPairSarImm h s
  | .pairRot h => Sys2Proof.Machine.execPairRot h s
  | .pairRotImm h => Sys2Proof.Machine.execPairRotImm h s
  | .pairClz h => Sys2Proof.Machine.execPairClz h s
  | .pairClzImm h => Sys2Proof.Machine.execPairClzImm h s
  | .pairPopc h => Sys2Proof.Machine.execPairPopc h s
  | .pairPopcImm h => Sys2Proof.Machine.execPairPopcImm h s
  | .pairCmp h => Sys2Proof.Machine.execPairCmp h s
  | .pairSteer h => Sys2Proof.Machine.execPairSteer h s
  | .pairVbcast h => Sys2Proof.Machine.execPairVbcast h s
  | .pairVbcastImm h => Sys2Proof.Machine.execPairVbcastImm h s
  | .firingCompletion e k => Sys2Proof.Machine.execFiringCompletion e k s
  | .outputBufferEntry e k => Sys2Proof.Machine.execOutputBufferEntry e k s
  | .tokenInjection e ctl => Sys2Proof.Machine.execTokenInjection e ctl s
  | .tokenArrival n => Sys2Proof.Machine.execTokenArrival n s
  | .cfgTokenApply e q => Sys2Proof.Machine.execCfgTokenApply e q s
  | .faultRetry n => Sys2Proof.Machine.execFaultRetry n s
  | .pgrspWrite p v => Sys2Proof.Machine.execPgrspWrite p v s
  | .cutRelease r => Sys2Proof.Machine.execCutRelease r s
  | .pageResponse tag fn g ok => Sys2Proof.Machine.execPageResponse tag fn g ok s
  | .functionLevelReset f => Sys2Proof.Machine.execFunctionLevelReset f s
  | .retiredTagTimeout tag => Sys2Proof.Machine.execRetiredTagTimeout tag s
  | .sidedTokenReentry n ok => Sys2Proof.Machine.execSidedTokenReentry n ok s
  | .sparseUpdate n repair => Sys2Proof.Machine.execSparseUpdate n repair s
  | .watchMark e w => Sys2Proof.Machine.execWatchMark e w s
  | .barrierPhaseFlip c b => Sys2Proof.Machine.execBarrierPhaseFlip c b s
  | .engineQueueEntry e k => Sys2Proof.Machine.execEngineQueueEntry e k s
  | .copyChunk g q => Sys2Proof.Machine.execCopyChunk g q s
  | .rowTransfer g q => Sys2Proof.Machine.execRowTransfer g q s
  | .bankMacPerform g q => Sys2Proof.Machine.execBankMacPerform g q s
  | .gathRow g q => Sys2Proof.Machine.execGathRow g q s
  | .scatRow g q => Sys2Proof.Machine.execScatRow g q s
  | .stashChunk g q => Sys2Proof.Machine.execStashChunk g q s
  | .unstashChunk g q => Sys2Proof.Machine.execUnstashChunk g q s
  | .collMatch g q peers => Sys2Proof.Machine.execCollMatch g q peers s
  | .portTokenRead c k => Sys2Proof.Machine.execPortTokenRead c k s
  | .portTokenWrite c k => Sys2Proof.Machine.execPortTokenWrite c k s
  | .pageEviction p va => Sys2Proof.Machine.execPageEviction p va s
  | .pageMigration p va => Sys2Proof.Machine.execPageMigration p va s
  | .migrationWindowEnd p va => Sys2Proof.Machine.execMigrationWindowEnd p va s
  | .domainStep c d => Sys2Proof.Machine.execDomainStep c d s
  | .budgetExhausted c d => Sys2Proof.Machine.execBudgetExhausted c d s
  | .eventPlaceMark c d => Sys2Proof.Machine.execEventPlaceMark c d s
  | .integratorCommandPerform e k => Sys2Proof.Machine.execIntegratorCommandPerform e k s
  | .mma r n => Sys2Proof.Machine.execMma r n s
  | .swapw r n => Sys2Proof.Machine.execSwapw r n s
  | .flush r n => Sys2Proof.Machine.execFlush r n s
  | .flushMark r n => Sys2Proof.Machine.execFlushMark r n s
  | .dispatch p x y => Sys2Proof.Machine.execDispatch p x y s
  | .regionRelease r => Sys2Proof.Machine.execRegionRelease r s
  | .unitStart r => Sys2Proof.Machine.execUnitStart r s
  | .launchCompletion r => Sys2Proof.Machine.execLaunchCompletion r s
  | .successorAppend p => Sys2Proof.Machine.execSuccessorAppend p s
  | .quantumExpiry r => Sys2Proof.Machine.execQuantumExpiry r s
  | .freeze r => Sys2Proof.Machine.execFreeze r s
  | .saveReadout r => Sys2Proof.Machine.execSaveReadout r s
  | .restore r x y => Sys2Proof.Machine.execRestore r x y s
  | .drain r => Sys2Proof.Machine.execDrain r s
  | .tailLampPass e => Sys2Proof.Machine.execTailLampPass e s
  | .drainCompletion r => Sys2Proof.Machine.execDrainCompletion r s
  | .sectionShadow e => Sys2Proof.Machine.execSectionShadow e s
  | .staleSectDiscard e q => Sys2Proof.Machine.execStaleSectDiscard e q s
  | .cutCompletion r => Sys2Proof.Machine.execCutCompletion r s
  | .forcedCut r => Sys2Proof.Machine.execForcedCut r s
  | .markerCutTimeout r => Sys2Proof.Machine.execMarkerCutTimeout r s
  | .sectionTokenCount r => Sys2Proof.Machine.execSectionTokenCount r s
  | .vioRelease v => Sys2Proof.Machine.execVioRelease v s
  | .queueTailWrite p q v => Sys2Proof.Machine.execQueueTailWrite p q v s
  | .qctlWrite p q v => Sys2Proof.Machine.execQctlWrite p q v s
  | .cancel p v => Sys2Proof.Machine.execCancel p v s
  | .fqhWrite p v => Sys2Proof.Machine.execFqhWrite p v s
  | .fqbWrite p v => Sys2Proof.Machine.execFqbWrite p v s
  | .fqszWrite p v => Sys2Proof.Machine.execFqszWrite p v s
  | .fltsClear p v => Sys2Proof.Machine.execFltsClear p v s
  | .ivgoWrite p v => Sys2Proof.Machine.execIvgoWrite p v s
  | .invalidationCompletion p => Sys2Proof.Machine.execInvalidationCompletion p s
  | .notice p m => Sys2Proof.Machine.execNotice p m s
  | .acknowledge p m => Sys2Proof.Machine.execAcknowledge p m s
  | .refuse p m => Sys2Proof.Machine.execRefuse p m s
  | .grant p m => Sys2Proof.Machine.execGrant p m s
  | .hotAdd p m => Sys2Proof.Machine.execHotAdd p m s
  | .hotRemove b => Sys2Proof.Machine.execHotRemove b s
  | .scrub b => Sys2Proof.Machine.execScrub b s
  | .scrubCompletion b => Sys2Proof.Machine.execScrubCompletion b s
  | .offer b p => Sys2Proof.Machine.execOffer b p s
  | .assignToModule b => Sys2Proof.Machine.execAssignToModule b s
  | .partitionEnable p => Sys2Proof.Machine.execPartitionEnable p s
  | .partitionDisable p => Sys2Proof.Machine.execPartitionDisable p s
  | .pauseSet p => Sys2Proof.Machine.execPauseSet p s
  | .pauseClear p => Sys2Proof.Machine.execPauseClear p s
  | .maintWrite p m => Sys2Proof.Machine.execMaintWrite p m s
  | .pcorWrite p v => Sys2Proof.Machine.execPcorWrite p v s
  | .tnowWrite p v => Sys2Proof.Machine.execTnowWrite p v s
  | .wrtWrite m v => Sys2Proof.Machine.execWrtWrite m v s
  | .registerWrite f off v => Sys2Proof.Machine.execRegisterWrite f off v s
  | .hostBar2Read f off n => Sys2Proof.Machine.execHostBar2Read f off n s
  | .hostBar2Write f off bs => Sys2Proof.Machine.execHostBar2Write f off bs s
  | .tdispError f => Sys2Proof.Machine.execTdispError f s
  | .peerAccess a bs => Sys2Proof.Machine.execPeerAccess a bs s
  | .windowGrant m n => Sys2Proof.Machine.execWindowGrant m n s
  | .lnk e k => Sys2Proof.Machine.execLnk e k s
  | .uncorrectableError e k dram => Sys2Proof.Machine.execUncorrectableError e k dram s
  | .moduleReset => Sys2Proof.Machine.execModuleReset s
  | .atsTranslationResponse c va leaf => Sys2Proof.Machine.execAtsTranslationResponse c va leaf s
  | .atsInvalidation f va n => Sys2Proof.Machine.execAtsInvalidation f va n s
  | .tdispStateChange f t => Sys2Proof.Machine.execTdispStateChange f t s
  | .keyGeneration k => Sys2Proof.Machine.execKeyGeneration k s
  | .attestationReport nonce => Sys2Proof.Machine.execAttestationReport nonce s
  | .recoveryImage img sig key => Sys2Proof.Machine.execRecoveryImage img sig key s

end Sys2Proof.Machine
end

