-- ==== Sys2Proof/Machine/Turn.lean ====
section
/-! DEFINITION. What the step chooses from: an element's turn to fire (R24, R27), the events that fall due by themselves, the order in
which an empty agenda takes the rest, and the end of a cycle (log 1). A cycle has two phases (log 29): its work, in which firings issue and
complete, operations are performed and tokens move, and then what acts between cycles: cuts, freezes, scheduling, and the outside world. -/

namespace Sys2Proof.Machine

open Sys2Proof

/-! ### A turn -/

/-- A firing begins. -/
def State.begin (s : State) (c : Cur) : State := { s with cur := some c, issued := s.issued ++ [c.elem] }

/-- What winning leaves in the element, in whose state before the firing's part the count of issues was n: the last-fired pointer of its
priority at its transition, and one firing counted if it issued, which one whose heads mismatch does not (R27, R144, R497). -/
def State.settle (s : State) (n : Nat) (c : Cur) : State :=
  s.modElem c.elem fun x =>
    { (if x.nseq = n then x else x.count1 s.cycle 0 1) with lfp := vset x.lfp (c.word.toNat / 2 ^ 124 % 8) (BitVec.ofNat 5 c.tix) }

/-- The end of a firing's part: the scalar half of a pair is followed by its vector half, and anything else ends the turn. -/
def State.closeTurn (s : State) (n : Nat) (c : Cur) : State :=
  let t := s.settle n c
  if t.pairDone.isSome then t else { t with cur := none }

/-! ### What falls due -/

/-- The first of a list that satisfies a test. -/
def firstDue {α : Type} (xs : List α) (test : α → Bool) (f : α → Instr) : Option Instr := (xs.find? test).map f

/-- Elements that are listed and run. -/
def State.running (s : State) : List Nat := (s.elems.map Prod.fst).filter s.runs

/-- Elements that run, each with an index below n. -/
def State.each (s : State) (n : Nat) : List (Nat × Nat) := s.running.flatMap fun e => (List.range n).map fun k => (e, k)

/-- Cores that are listed, each with an index below n. -/
def State.eachCore (s : State) (n : Nat) : List (Nat × Nat) := s.cores.flatMap fun c => (List.range n).map fun k => (c.1, k)

/-- Matrix rectangles of running regions, as region and index. -/
def State.eachRect (s : State) : List (Nat × Nat) :=
  s.regions.flatMap fun g => if g.2.phase == .running then (List.range g.2.rects.length).map fun n => (g.1, n) else []

/-- Whether something holds of a region by number. -/
def State.when (s : State) (rn : Nat) (test : Region → Bool) : Bool :=
  match s.region rn with | some r => test r | none => false

/-- The flip test at the end of a cycle, after all that the signal boxes apply in it (R229, R410). -/
def State.dueFlip (s : State) : Option Instr :=
  firstDue (s.eachCore 32) (fun p => (s.bar p.1 p.2).flips s.cycle) fun p => .barrierPhaseFlip p.1 p.2

/-- Marks that are due (R224, R277, R292). -/
def State.dueMark (s : State) : Option Instr :=
  (firstDue (s.each 4) (fun p => (s.watchDue p.1 p.2).isSome) fun p => .watchMark p.1 p.2) <|>
  (firstDue (s.eachCore 8) (fun p => !((s.core p.1).arr.dom p.2).marks.isEmpty && s.markEvent p.1 p.2 != s)
    fun p => .eventPlaceMark p.1 p.2) <|>
  (firstDue s.eachRect
    (fun p => s.when p.1 fun r => match r.rects[p.2]? with | some m => m.flush.any (fun f => s.roomFor (r.rectElem m f.1 (m.h - 1)) f.2) | none => false)
    fun p => .flushMark p.1 p.2)

/-- Steps of integrator domains and commands at the end of a step-clock cycle (R288 to R299). -/
def State.dueArray (s : State) : Option Instr :=
  if s.cycle % 2 = 0 then none
  else
    (firstDue (s.eachCore 8) (fun p => ((s.core p.1).arr.dom p.2).due (stepCycle s.cycle) && !s.arrGated p.1)
      fun p => .domainStep p.1 p.2) <|>
    (firstDue (s.eachCore 8)
      (fun p => ((s.core p.1).arr.dom p.2).run && ((s.core p.1).arr.dom p.2).bud == 0 && !s.arrGated p.1)
      fun p => .budgetExhausted p.1 p.2) <|>
    (firstDue (s.each 8) (fun p => s.intDue p.1 p.2 && performInt p.1 p.2 s != s) fun p => .integratorCommandPerform p.1 p.2)

/-- Puts a numbered thing in its place among others in rising order. -/
def insertSeq {α : Type} (a : Nat × α) : List (Nat × α) → List (Nat × α)
  | [] => [a]
  | b :: bs => if a.1 ≤ b.1 then a :: b :: bs else b :: insertSeq a bs

/-- What an element may complete now, by issue number, oldest first (R32): completions that waited for the output buffer, and slots whose
operation has been performed or is performed as its firing completes. -/
def State.candidates (s : State) (e : Nat) : List (Nat × Choice) :=
  (List.range 9).foldl (fun cs k =>
    match (s.elem e).waitingOf k, s.slot e k with
    | some f, _ => insertSeq (f.seq, .event (.outputBufferEntry e k)) cs
    | none, some y =>
      if s.mayFinish e k y then insertSeq (y.seq, .event (.firingCompletion e k)) cs
      else (match y.ins with | .brmw _ _ => insertSeq (y.seq, .perform e k) cs | _ => cs)
    | none, none => cs) []

/-- Whether the cycle of a completion is fixed, and is this one: that of one that waited and now finds room (R34), of an ISTEP after the last
stop of its domains (R300), of a BARW, whose place is marked in the cycle after the phase differs (R229), and those of MXC, RDSR and TIME,
a cycle after issue (R471, R497, R532). -/
def State.mustFinish (s : State) (i : Instr) : Bool :=
  match i with
  | .outputBufferEntry e k => (match (s.elem e).waitingOf k with | some f => s.mayEnter e f | none => false)
  | .firingCompletion e k =>
    (match s.slot e k with
     | some y =>
       (match y.ins with
        | .istep _ _ => y.stage == 2 && y.sub ≤ s.cycle
        | .barw _ o => s.finishBarw e k o != s
        | .mxc _ _ | .rdsr _ _ | .time _ _ => true
        | _ => false)
     | none => false)
  | _ => false

/-- The oldest completion of an element that must happen in this cycle, with its issue number. -/
def State.dueFinish (s : State) (e : Nat) : Option (Nat × Instr) :=
  (s.candidates e).findSome? fun c =>
    match c.2 with | .event i => if s.mustFinish i then some (c.1, i) else none | _ => none

/-- A stream port command that its port takes: they reach it a cycle after issue (R516). -/
def State.duePort (s : State) : Option (Nat × Nat) :=
  (s.each 8).find? fun p => match s.slot p.1 p.2 with
    | some y => isPortOp y.ins && y.stage == 0 && !y.held && s.attempt p.1 p.2 != s
    | none => false

/-- Cuts, drains, freezes and ends of launches (R342 to R376). -/
def State.dueRegion (s : State) : Option Instr :=
  let rs := s.regions.map Prod.fst
  (firstDue s.running (fun e => (s.shadowDue e).isSome) .sectionShadow) <|>
  (firstDue (s.each 32) (fun p => s.staleHead p.1 p.2) fun p => .staleSectDiscard p.1 p.2) <|>
  (firstDue s.running s.tailDue .tailLampPass) <|>
  (firstDue rs (fun n => s.when n fun r => r.tokensDue && r.phase == .running) .sectionTokenCount) <|>
  (firstDue rs (fun n => s.when n s.cutLate) .markerCutTimeout) <|>
  (firstDue rs (fun n => s.when n fun r => r.phase == .running && s.cutDue r && !s.rectsBusy r) .forcedCut) <|>
  (firstDue rs (fun n => s.when n Region.cutComplete) .cutCompletion) <|>
  (firstDue rs (fun n => s.when n fun r => s.launchDone n r && !s.unwritten n r) .launchCompletion) <|>
  (firstDue (List.range 8) (fun p => !(s.releaseDue p).isEmpty || (s.appendDue p).isSome) .successorAppend) <|>
  (firstDue rs (fun n => s.when n fun r => r.freezable && (s.lateFault n r).isSome) .cutRelease) <|>
  (firstDue rs (fun n => s.when n fun r => !r.frz.isEmpty && r.freezable && (s.takeSave n).isSome) .freeze) <|>
  (firstDue rs (fun n => s.when n (s.drainDone n)) .drainCompletion) <|>
  (firstDue rs (fun n => s.when n fun r => r.phase == .running && r.launch.quant != 0 && r.quantAt ≤ s.cycle) .quantumExpiry)

/-- Whether a choice changed nothing but turns of engines. -/
def State.sameBut (s t : State) : Bool :=
  { s with engines := s.engines.map fun (g : Nat × Engine) => (g.1, { g.2 with turn := 0 }) } ==
    { t with engines := t.engines.map fun (g : Nat × Engine) => (g.1, { g.2 with turn := 0 }) }

/-- Passes of matrix rectangles that move in this cycle, runs that have ended, and what a node does with its head (R276 to R278, R369). -/
def State.dueMatrix (s : State) : Option Instr :=
  (s.eachRect.flatMap fun p => [(.mma p.1 p.2, execMma p.1 p.2 s), (.swapw p.1 p.2, execSwapw p.1 p.2 s), (.flush p.1 p.2, execFlush p.1 p.2 s)]).findSome?
    fun (c : Instr × Step1) => if s.sameBut (nextOr c.2 s) then none else some c.1

/-- A pending fault whose retry, request or violation is due (R371). -/
def State.dueFault (s : State) : Option Instr :=
  firstDue (List.range s.pend.length) (fun n => match s.pend[n]? with | some f => s.faultDue f | none => false) .faultRetry

/-- The next event that the part makes by itself between cycles. -/
def State.dueLate (s : State) : Option Instr := s.dueFlip <|> s.dueFault <|> s.dueRegion

/-- The next element whose turn is due: one that may issue and has a transition enabled. -/
def State.dueTurn (s : State) : Option Nat := s.running.find? fun e => s.canTurn e && (s.fetch e).isSome

/-! ### What an empty agenda takes (log 1) -/

/-- Completions and output-buffer entries. -/
def State.completions (s : State) : List Choice := s.running.flatMap fun e => (s.candidates e).map Prod.snd

/-- Operations of slots and posted writes that are still to be performed. -/
def State.performs (s : State) : List Choice :=
  (s.each 8).filterMap (fun p => match s.slot p.1 p.2 with
    | some y => if y.stage < 3 && !y.held then some (.perform p.1 p.2) else none
    | none => none) ++
  s.running.flatMap (fun e => (s.elem e).posted.map fun y => .performPosted e y.seq) ++
  (List.range s.updates.length).map (fun n => .event (.sparseUpdate n false)) ++
  (List.range s.sided.length).map (fun n => .event (.sidedTokenReentry n true))

/-- The event that serves queue q of an engine. -/
def State.serving (s : State) (g q : Nat) : Instr :=
  match engineKindOf g with
  | .copy => .copyChunk g q
  | .row => .rowTransfer g q
  | .mac => .bankMacPerform g q
  | .ind => (match s.headIns g q with | some (.scat _ _) => .scatRow g q | _ => .gathRow g q)
  | .codec => (match s.headIns g q with | some (.unstash _ _) => .unstashChunk g q | _ => .stashChunk g q)
  | .coll => .collMatch g q []

/-- Ports and engines; tokens move as the work of the cycle ends. -/
def State.movements (s : State) : List Choice :=
  (s.eachCore 8).flatMap (fun p => match s.port p.1 p.2 with
    | some q => if q.out then [.event (.portTokenWrite p.1 p.2)]
      else [.event (.tokenInjection (2 ^ 20 + 8 * p.1 + p.2) true), .event (.portTokenRead p.1 p.2)]
    | none => []) ++
  s.engines.filterMap (fun g => (nextQueue g.2).map fun q => .event (s.serving g.1 q))

/-- Places of the grid of cores. -/
def places : List (Nat × Nat) := (List.range 16).flatMap fun x => (List.range 16).map fun y => (x, y)

/-- Scheduling: unit starts, readouts, releases, dispatches and restores, and what a register write has started. -/
def State.schedules (s : State) : List Choice :=
  s.regions.flatMap (fun g => [.event (.unitStart g.1), .event (.saveReadout g.1), .event (.regionRelease g.1)]) ++
  (List.range 8).flatMap (fun p =>
    (List.range 4).flatMap fun d =>
      let here := places.filter fun z => dieAt z.1 z.2 == d
      match s.chosen p d with
      | none => if (s.topReady p d).isEmpty then [] else [.event (.dispatch p (8 * (d % 2)) (8 * (d / 2)))]
      | some k =>
        match k.reg with
        | none => if k.now then [.event (.dispatch p (8 * (d % 2)) (8 * (d / 2)))] else here.map fun z => .event (.dispatch p z.1 z.2)
        | some rn => here.map fun z => .event (.restore rn z.1 z.2)) ++
  (List.range 8).flatMap (fun p => if (s.part p).ivgo then [.event (.invalidationCompletion p)] else []) ++
  s.blocks.filterMap (fun b => if b.2.state == .scrubbing then some (.event (.scrubCompletion b.1)) else none)

/-! ### The end of a cycle -/

/-- The cycles that PC_STALL counts: a completion waited for the output buffer (R34), a bank operation for the port
(R281), or power withheld the issue (R399). -/
def State.countStalls (s : State) : State :=
  s.running.foldl (fun s e =>
    let x := s.elem e
    if !x.waiting.isEmpty || x.portWait == s.cycle + 1 || s.withheld.contains e then s.modElem e fun x => x.count1 s.cycle 1 1 else s) s

/-- The work of a cycle ends: what can move has moved, and stalls are counted (R34, R126, R127). -/
def State.endWork (s : State) : State := { s.moveAll.countStalls with closing := true }

/-- The next cycle: time runs on, elements start from their present state, arrivals held at a barrier that a BARI has
set count, and a step-clock cycle begins on every even main cycle (R28, R291, R391, R410). -/
def State.nextCycle (s : State) : State :=
  let links := s.links.filter fun l => s.cycle + 1 < l.2
  let s := s.settleBars
  let s := { s with
    cycle := s.cycle + 1, starts := [], issued := [], withheld := [], arrived := [], closing := false, links := links, parts := s.parts.map Part.tick
    noMap := s.noMap.filter fun x => x.2.2 = s.cycle }
  if s.cycle % 2 = 0 then s.stepClock else s

/-- Steps that are part of the work of a cycle; every other step acts between cycles (log 29). -/
def workEvent (i : Instr) : Bool :=
  match i with
  | .tokenInjection _ _ | .tokenArrival _ | .cfgTokenApply _ _ | .firingCompletion _ _ | .outputBufferEntry _ _ | .engineQueueEntry _ _
  | .sparseUpdate _ _ | .sidedTokenReentry _ _ | .copyChunk _ _ | .rowTransfer _ _ | .bankMacPerform _ _ | .gathRow _ _ | .scatRow _ _
  | .stashChunk _ _ | .unstashChunk _ _ | .collMatch _ _ _ | .portTokenRead _ _ | .portTokenWrite _ _ | .domainStep _ _
  | .budgetExhausted _ _ | .integratorCommandPerform _ _ | .mma _ _ | .swapw _ _ | .flush _ _ | .watchMark _ _
  | .eventPlaceMark _ _ | .flushMark _ _ => true
  | _ => false

/-- Whether a choice waits for the work of the cycle to be over. -/
def Choice.late (c : Choice) : Bool := match c with | .event i => !workEvent i | _ => false

/-- The completion that must come before a choice: before an element's turn the oldest that is due of it, and before a completion of it one
that is older (R32). -/
def State.dueBefore (s : State) (c : Choice) : Option Instr :=
  match c with
  | .turn e _ => (s.dueFinish e).map Prod.snd
  | .event (.firingCompletion e k) =>
    (s.dueFinish e).bind fun d => if ((s.slot e k).map fun y => decide (d.1 < y.seq)).getD false then some d.2 else none
  | .event (.outputBufferEntry e k) =>
    (s.dueFinish e).bind fun d => if (((s.elem e).waitingOf k).map fun f => decide (d.1 < f.seq)).getD false then some d.2 else none
  | _ => none

/-- Queues whose heads could not go on lose their turns. -/
def State.rotate (s : State) : State :=
  { s with engines := s.engines.map fun (g : Nat × Engine) =>
      (g.1, match nextQueue g.2 with | some q => { g.2 with turn := (q + 1) % 8 } | none => g.2) }

/-! ### One instruction placed for the next step (log 12) -/

/-- A launch of one unit. -/
def soloLaunch : LaunchRec :=
  { addr := 0, img := 0, shw := 1, shh := 1, pri := 0, intr := false, cof := false, pers := false, grain := 1, rbase := 0, rcnt := 1,
    pb := 0, pbsz := 0, depc := 0, ccu := 0, ccl := 0, ccg := 0, ccp := 0, ccj := 0, sq := 0, nsuc := 0, quant := 0, succ := [] }

/-- A running region of one core at the north-west corner of the module. -/
def soloRegion : Region :=
  { part := 0, queue := 0, launch := soloLaunch, x0 := 0, y0 := 0, w := 1, h := 1, rlo := 0, rhi := 8, phase := .running, priv := false,
    hash := 0, secK := 0, sinks := false, multi := false, tsr := [], zero := [], init := [], arrs := [], unit := 0, ixBase := 0,
    ixCnt := 1, stp := false, unitDone := false, unitRel := false, doneAt := 0, ccu := false, erls := [], pulls := [], nrel := 0, succRel := false,
    poolDone := false, pool := none, cutN := 0, forming := none, formAt := 0, newSnap := Snap.empty, lastSnap := Snap.empty,
    cutReq := false, irr := false, sectTok := 0, hold := [], defPres := [], defNote := [], clrPres := [], rects := [], lastFlt := [],
    placedAt := 0, quantAt := 0, stamp := 0, saveT := 0, drain := false, why := .driver, save := none, saveAt := none, frz := [], recWait := false }

/-- The transition word that bits of a table row stand for: a pair half beside a neutral other half, an operation under the plain
trigger and update, or a whole word. -/
def tableWord (nbits w : Nat) : W128 :=
  let h := BitVec.ofNat 32 w
  if nbits ≤ 32 then
    encodeT plainTU ++ encodeU plainTU true ++
      (if h.getLsbD 21 then (encodeHalf 0 .n32 0 0 0 0 ++ h : W64) else (h ++ encodeHalf 0 .n32 16 16 0 0 : W64))
  else if nbits ≤ 64 then encodeT plainTU ++ encodeU plainTU false ++ BitVec.ofNat 64 w
  else BitVec.ofNat 128 w

/-- A word as transition 0 of an element, with what its trigger asks: a mark in each enabling place, a token in each required queue. -/
def soloElem (word : W128) (x : Elem) : Elem :=
  let t := decodeTU (word.extractLsb' 96 32) (word.extractLsb' 64 32)
  let en := (if t.eae then [t.epa.toNat] else []) ++ (if t.ebe then [t.epb.toNat] else [])
  let tok : Token := { Token.bare .data true (BitVec.ofNat 3 x.tagr.toNat) with nw := true }
  { x with
    pool := vset (Vector.replicate 32 0) 0 word
    lfp := Vector.replicate 8 31, slots := Vector.replicate 8 none, resv := Vector.replicate 16 0, cap := Vector.replicate 16 15
    cnt := Vector.ofFn fun i => if en.contains i.val then 1 else 0
    queues := (required t).foldl (fun q k => vset q k [tok]) (Vector.replicate 32 [])
    waiting := [], out := [], stuck := false }

/-- The step of a vector half comes after its scalar half: here the neutral half has left the value it read. -/
def soloHalf (word : W128) (x : Elem) : Option PairHalf :=
  match decodeWord word with
  | .ok (.pair _ _ vh) => some ⟨vh, 0, x.sreg 0, flNone, x.sreg 0 != 0, false⟩
  | _ => none

end Sys2Proof.Machine
end

