-- ==== Sys2Proof/Machine/Step.lean ====
section
/-! DEFINITION. The step (log 1). The vector half of a pair whose scalar half has run comes first; then the choice at the head of the
agenda, in the phase of the cycle that it belongs to (log 29); an empty agenda takes what the part does next by itself. -/

namespace Sys2Proof.Machine

open Sys2Proof

/-- What follows a meaning. -/
def andThen (o : Host.Outcome State Fault Refusal) (f : State → State) : Host.Outcome State Fault Refusal :=
  match o with
  | .next s => .next (f s)
  | .fault r => .fault r
  | .refused r => .refused r

/-- An element's turn: the transition that the trump order picks runs, a pair by its scalar half. -/
def turn (e : Nat) (prompt : Bool) (s : State) : Host.Outcome State Fault Refusal :=
  if s.canTurn e then
    match s.fetch e with
    | none => .next s
    | some c =>
      let c := { c with prompt := prompt }
      match decodeWord c.word with
      | .error _ => .fault (.undecodable e c.tix)
      | .ok (.single i) => andThen (exec i (s.begin c)) fun t => t.closeTurn (s.elem e).nseq c
      | .ok (.pair _ sc _) => andThen (exec sc (s.begin c)) fun t => t.closeTurn (s.elem e).nseq c
  else .next s

/-- A choice is made. -/
def choose (c : Choice) (s : State) : Host.Outcome State Fault Refusal :=
  match c with
  | .turn e prompt => turn e prompt s
  | .event i => if layoutOf i = .none then exec i s else .next s
  | .perform e k => .next (if s.runs e then s.attempt e k else s)
  | .performPosted e n => .next (if s.runs e then performPosted e n s else s)
  | .withhold e =>
    .next (if s.runs e && !s.issued.contains e && (SMap.find e s.starts).isNone then { s with withheld := insertNat e s.withheld } else s)
  | .tick => .next s.nextCycle

/-- The first of some choices that changes the state. -/
def firstChange (s : State) : List Choice → Option (Host.Outcome State Fault Refusal)
  | [] => none
  | c :: cs =>
    match choose c s with
    | .next t => if s.sameBut t then firstChange s cs else some (.next t)
    | o => some o

/-- What must happen before the work of the cycle may end: steps and commands of arrays, the turn of an element that has a transition
enabled, completions and port commands that are due, matrix passes, and then marks (R27, R224, R278, R291, R300, R516). -/
def must (s : State) : Option (Host.Outcome State Fault Refusal) :=
  match s.dueArray <|> (s.running.findSome? s.dueFinish).map Prod.snd with
  | some i => some (exec i s)
  | none =>
    match s.duePort, s.dueTurn with
    | some p, _ => some (.next (s.attempt p.1 p.2))
    | none, some e => some (turn e true s)
    | none, none => (s.dueMatrix <|> s.dueMark).map fun i => exec i s

/-- The cycle goes on by itself: what must happen in its phase, then the next phase. -/
def onward (s : State) : Host.Outcome State Fault Refusal :=
  if s.closing then match s.dueLate with | some i => exec i s | none => .next s.nextCycle
  else match must s with | some o => o | none => .next s.endWork

/-- With an empty agenda everything happens as soon as it can: tokens leave, completions, what must happen, performing and movement; then,
between cycles, what falls due and scheduling. -/
def auto (s : State) : Host.Outcome State Fault Refusal :=
  if s.closing then
    match s.dueLate with
    | some i => exec i s
    | none => (firstChange s s.schedules).getD (.next s.rotate.nextCycle)
  else if !s.sameBut s.injectAll then .next s.injectAll
  else
    match firstChange s s.completions with
    | some o => o
    | none =>
      match must s with
      | some o => o
      | none => (firstChange s (s.performs ++ s.movements)).getD (.next s.endWork)

/-- A choice at the head of the agenda: a tick ends the cycle once nothing is due in it, a choice of the other phase lets the cycle go on, flips come first
between cycles, and a completion whose cycle is fixed comes before another act of its element. -/
def agendaStep (s : State) (c : Choice) (rest : List Choice) : Host.Outcome State Fault Refusal :=
  if c = .tick then (if s.closing && s.dueLate.isNone then .next ({ s with agenda := rest }).nextCycle else onward s)
  else if c.late != s.closing || (s.closing && s.dueFlip.isSome) then onward s
  else
    match s.dueBefore c with
    | some i => exec i s
    | none => choose c { s with agenda := rest }

def step (s : State) : Host.Outcome State Fault Refusal :=
  match s.pairDone, s.cur with
  | some p, some c => andThen (exec p.vh s) fun t => { t.closeTurn (s.elem c.elem).nseq c with cur := none, pairDone := none }
  | _, _ =>
    match s.agenda with
    | [] => auto s
    | c :: rest => agendaStep s c rest

/-- s with the instruction placed where the next step fetches it (log 12): in element 0 of a running region of one core, whose turn is
the next choice; a vector half after its neutral scalar half. -/
def State.withFetchWord (s : State) (nbits w : Nat) : State :=
  let word := tableWord nbits w
  let x := soloElem word (s.elem 0)
  let vector := nbits ≤ 32 && (BitVec.ofNat 32 w).getLsbD 21
  { s with
    regions := SMap.set 0 soloRegion s.regions
    elems := SMap.set 0 x s.elems
    starts := [], issued := [], withheld := [], arrived := [], closing := false, agenda := [.turn 0 true]
    cur := if vector then some ⟨0, 0, word, true⟩ else none
    pairDone := if vector then soloHalf word x else none }

end Sys2Proof.Machine
end

