-- ==== Sys2Proof/Safety.lean ====
section
/-! DEFINITION. What a safe run is, and the words the statements are written in: the firing a step runs, what an issue, a completion
and a result leave of an element, and what stays. -/

namespace Sys2Proof.Machine

open Sys2Proof

/-! ### Runs -/

/-- A step goes on: neither a fault nor a refusal. -/
def Safe (s : State) : Prop := ∃ t, step s = .next t

/-- The memories are in their canonical form (R185). -/
def State.MemOk (s : State) : Prop := Memory.wf s.mem ∧ Memory.wf s.hostMem ∧ Memory.wf s.peerMem

/-- Nothing but one element differs. -/
def OnlyElem (s s' : State) (e : Nat) : Prop := s' = s.setElem e (s'.elem e)

/-! ### The firing of a step -/

/-- f is the firing the step runs under trigger and update t, and its heads make it an ordinary firing (R29, R139 to R145). -/
def Ordinary (s : State) (t : TU) (f : Firing) : Prop := s.firing t = some f ∧ shapeOf t f.x = .plain

/-- f is the firing the step runs, and its heads are markers of kind k (R139). -/
def Marking (s : State) (t : TU) (f : Firing) (k : Kind) : Prop := s.firing t = some f ∧ shapeOf t f.x = .marker k

/-- The output buffer of an element takes two tokens more of each plane, and nothing waits for it (R34). -/
def Roomy (s : State) (e : Nat) : Prop :=
  (∀ ctl, ((s.elem e).outOf ctl).length ≤ 2) ∧ (s.elem e).waiting = []

/-- Whether units take the commands of this step at once. -/
def Prompt (s : State) (b : Bool) : Prop := s.cur.map Cur.prompt = some b

/-- Nothing of an element is outstanding, and no cut of its region is forming. -/
def Alone (s : State) (e : Nat) : Prop :=
  (∀ k < 8, s.slot e k = none) ∧ (s.elem e).posted = [] ∧ s.updates = [] ∧ s.sided = [] ∧
    ∀ r, s.regOf e = some r → r.forming = none

/-! ### What a completion leaves of an element (R29, R31, R36) -/

/-- Everything of an element but what a firing without a slot changes: registers, places, queues, output buffer, flags, its count of
issues and the note of its last completion. -/
def Elem.still (x : Elem) : Elem :=
  { x with
    s := Vector.replicate 16 0, v := Vector.replicate 16 0, cnt := Vector.replicate 16 0, resv := Vector.replicate 16 0
    queues := Vector.replicate 32 [], out := [], axs := 0, nseq := 0, lastDone := (0, 0) }

/-- x has fired and completed, giving y: enabling places lose their marks and output places of the condition gain theirs, heads are
dequeued, tokens enter the output buffer, flags accumulate, and all else stands. -/
structure Fired (x y : Elem) (t : TU) (cond : Bool) (toks : List OutTok) (fl : W32) : Prop where
  places : ∀ p < 16, vget y.cnt p 0 =
    vget x.cnt p 0 - BitVec.ofNat 4 ((consumes t).count p) + BitVec.ofNat 4 ((marksOf t cond).count p)
  resv : y.resv = x.resv
  queues : ∀ q < 32, y.queue q = (x.queue q).drop ((dequeues t).count q)
  out : y.out = x.out ++ toks.map fun o => (x.nseq + 1, o)
  flags : y.axs = x.axs ||| fl
  issues : y.nseq = x.nseq + 1
  still : y.still = x.still

/-- The firing f of s has completed in s' with the given condition, tokens and flags; no register and no other part of the machine
changes. -/
structure Completes (s s' : State) (f : Firing) (cond : Bool) (toks : List OutTok) (fl : W32) : Prop where
  only : OnlyElem s s' f.e
  fired : Fired (s.elem f.e) (s'.elem f.e) f.t cond toks fl
  sregs : (s'.elem f.e).s = (s.elem f.e).s
  vregs : (s'.elem f.e).v = (s.elem f.e).v

/-! ### Results (R37 to R39, R62, R63, R120) -/

/-- Register s[n] after a result r is written to D: a 64-bit value fills the pair, any other value its one register in its layout. -/
def destS (r : Res) (d : Dst) (n : Nat) (old : W32) : W32 :=
  if r.vec then old
  else
    match d with
    | .s k =>
      if Ty.width r.ty = 64 then
        (if n = k.toNat then BitVec.ofNat 32 (r.vals.headD 0)
         else if n = k.toNat + 1 then BitVec.ofNat 32 (r.vals.headD 0 / 2 ^ 32) else old)
      else if n = k.toNat then regWord r.ty (r.vals.headD 0) else old
    | _ => old

/-- Register v[n] after a result r is written to D. -/
def destV (r : Res) (d : Dst) (n : Nat) (old : VW) : VW :=
  if r.vec then (match d with | .v k => if n = k.toNat then packLanes r.ty r.vals else old | _ => old) else old

/-- The result token: a vector on the data plane, a scalar on the control plane, on OL or OL + 1 by the condition, of its label's kind; none
without OLE. -/
def resToks (t : TU) (tag : BitVec 3) (cond : Bool) (r : Res) : List OutTok :=
  if t.ole then
    [classed ⟨labelOf t cond, if r.vec then dataTok (packLanes r.ty r.vals) tag else scalarTok r.ty (r.vals.headD 0) tag⟩]
  else []

/-- The firing f of s has completed in s' with result r written to D under a condition; no other register and no other part of the
machine changes. -/
structure Results (s s' : State) (f : Firing) (d : Dst) (cond : Bool) (r : Res) : Prop where
  only : OnlyElem s s' f.e
  fired : Fired (s.elem f.e) (s'.elem f.e) f.t cond (resToks f.t f.tag cond r) r.fl
  sregs : ∀ n < 16, (s'.elem f.e).sreg n = destS r d n ((s.elem f.e).sreg n)
  vregs : ∀ n < 16, (s'.elem f.e).vreg n = destV r d n ((s.elem f.e).vreg n)

/-- The lanes and flags of an operand of format A, as it stood at the start of the cycle (R24, R80). -/
def operand (s : State) (f : Firing) (o : FmtA) (c : Src) : List Nat × Fl := s.read f.e f.x o.ty (vecOp o) o.imm c

/-! ### Issue into a slot (R29, R30, R45) -/

/-- Everything of an element but what an issue into a slot changes. -/
def Elem.unissued (x : Elem) : Elem :=
  { x with
    cnt := Vector.replicate 16 0, resv := Vector.replicate 16 0, queues := Vector.replicate 32 []
    slots := Vector.replicate 8 none, cseq := Vector.replicate 7 0, nseq := 0 }

/-- x has issued into slot k, giving y: enabling places lose their marks, output places are reserved, heads are dequeued, the chain's
counter goes on, and all else stands. -/
structure Issued (x y : Elem) (t : TU) (k chn : Nat) : Prop where
  places : ∀ p < 16, vget y.cnt p 0 = vget x.cnt p 0 - BitVec.ofNat 4 ((consumes t).count p)
  resv : ∀ p < 16, vget y.resv p 0 = vget x.resv p 0 + BitVec.ofNat 4 ((reserves t).count p)
  queues : ∀ q < 32, y.queue q = (x.queue q).drop ((dequeues t).count q)
  slots : ∀ j < 8, j ≠ k → vget y.slots j none = vget x.slots j none
  chain : ∀ j < 7, vget y.cseq j 0 = if j + 1 = chn then vget x.cseq j 0 + 1 else vget x.cseq j 0
  issues : y.nseq = x.nseq + 1
  still : y.unissued = x.unissued

/-- The firing f of s stands in its slot k in s' with its captured operands, and no other part of the machine changes. -/
structure Takes (s s' : State) (f : Firing) (i : Instr) (k : Nat) (a b c : VW) (chn : Nat) : Prop where
  only : OnlyElem s s' f.e
  issued : Issued (s.elem f.e) (s'.elem f.e) f.t k chn
  slot : ∃ y, s'.slot f.e k = some y ∧ y.ins = i ∧ y.tix = f.tix ∧ y.word = f.word ∧ y.seq = f.seq ∧ y.stage = 0 ∧
    y.opa = a ∧ y.opb = b ∧ y.opc = c ∧ y.chn = chn ∧ y.cseq = (if chn = 0 then 0 else vget (s.elem f.e).cseq (chn - 1) 0)

/-- Slot k holds a performed operation of i with late result v (R45). -/
def Performed (s : State) (e k : Nat) (i : Instr) (v : VW) : Prop :=
  ∃ y, s.slot e k = some y ∧ y.ins = i ∧ y.stage = 3 ∧ y.lres = v

/-! ### Faults of a firing (R371, R373) -/

/-- s' is s with element e held and a fault of its firing f pending: its record names code, element, transition, word and address. -/
structure Raised (s s' : State) (f : Firing) (code addr : Nat) : Prop where
  only : s' = { s.setElem f.e { s.elem f.e with stuck := true } with pend := s'.pend }
  pend : ∃ r, s'.pend = s.pend ++ [⟨f.reg, r, .issue f.e f.tix, s.cycle⟩] ∧ r.code = code ∧ r.flg = 0 ∧ r.elid = f.e ∧ r.tix = f.tix ∧
    r.addr = BitVec.ofNat 64 addr ∧ r.word = f.word

/-- The firing f of s has issued in s', without a slot, and is held for a fault of the given code and address (R29, R371): what it consumes,
dequeues and reserves is as issue leaves it. -/
structure IssueRaised (s s' : State) (f : Firing) (code addr : Nat) : Prop where
  only : s' = { s.setElem f.e (s'.elem f.e) with pend := s'.pend }
  issued : Issued (s.elem f.e) { s'.elem f.e with stuck := (s.elem f.e).stuck } f.t 8 0
  stuck : (s'.elem f.e).stuck = true
  pend : ∃ r, s'.pend = s.pend ++ [⟨f.reg, r, .issue f.e f.tix, s.cycle⟩] ∧ r.code = code ∧ r.flg = 0 ∧ r.elid = f.e ∧ r.tix = f.tix ∧
    r.addr = BitVec.ofNat 64 addr ∧ r.word = f.word

/-! ### Halves of a pair (R40, R73 to R75) -/

/-- The trigger and update of an operation that fires by itself. -/
def triggerOf (i : Instr) : Option TU :=
  match layoutOf i with
  | .a _ t _ => some t
  | .m _ t _ => some t
  | .e _ t _ => some t
  | _ => none

/-- A pair of trigger t with vector half vh is firing as f. -/
def PairFiring (s : State) (t : TU) (f : Firing) (vh : Instr) : Prop :=
  Ordinary s t f ∧ ∃ c sc, s.cur = some c ∧ decodeWord c.word = .ok (.pair t sc vh)

/-- What half i, working in type w with destination d and lanes and flags y, does: as a scalar half it leaves its result for the
vector half, and as a vector half it completes the pair, the scalar result in s, its own in v and, under OLE, on the label the scalar
half's condition chooses. -/
def HalfRule (i : Instr) (w : Ty) (d : BitVec 5) (y : Firing → State → Bool → List Nat × Fl) : Prop :=
  ∀ (s : State) (t : TU) (f : Firing) (vh : Instr), PairFiring s t f vh →
    (d.toNat < 16 →
      exec i s = .next { s with pairDone := some ⟨vh, d.toNat, regWord w ((y f s false).1.headD 0), (y f s false).2,
        (y f s false).1.headD 0 != 0, false⟩ }) ∧
    (16 ≤ d.toNat → Roomy s f.e → ∀ p, s.pairDone = some p → p.skip = false →
      ∃ s', exec i s = .next s' ∧
        (let r := y f s true
         s' = ({ s with pairDone := none } : State).setElem f.e (s'.elem f.e) ∧
         Fired (s.elem f.e) (s'.elem f.e) t p.cnd (if t.ole then [⟨labelOf t p.cnd, dataTok (packLanes w r.1) f.tag⟩] else [])
           (p.fl ||| r.2) ∧
         (∀ n < 16, (s'.elem f.e).sreg n = if n = p.d then p.val else (s.elem f.e).sreg n) ∧
         ∀ n < 16, (s'.elem f.e).vreg n = if n = d.toNat - 16 then packLanes w r.1 else (s.elem f.e).vreg n))

/-! ### Operations in a slot -/

/-- An ordinary firing whose units take its operation at once, of an element with nothing outstanding; k is its slot. -/
def ReadyIn (s : State) (t : TU) (f : Firing) (k : Nat) : Prop :=
  Ordinary s t f ∧ freeSlot f.x = some k ∧ Prompt s true ∧ Alone s f.e

/-- The bytes bs stand at a in m', and every other byte is m's. -/
def Stored (m m' : List Host.Cell) (a : Nat) (bs : List Byte) : Prop :=
  (∀ i < bs.length, Memory.byte m' (a + i) = bs.getD i 0) ∧ ∀ b, (b < a ∨ a + bs.length ≤ b) → Memory.byte m' b = Memory.byte m b

/-- No memory and no register of element e differs, and nothing has been emitted. -/
structure Quiet (s s' : State) (e : Nat) : Prop where
  mem : s'.mem = s.mem ∧ s'.hostMem = s.hostMem ∧ s'.peerMem = s.peerMem
  regs : (s'.elem e).s = (s.elem e).s ∧ (s'.elem e).v = (s.elem e).v
  toks : (s'.elem e).out = (s.elem e).out
  flags : (s'.elem e).axs = (s.elem e).axs

/-- The firing f of s has issued into slot k in s', held for a fault of the given code and address. -/
structure SlotRaised (s s' : State) (f : Firing) (k chn code addr : Nat) : Prop where
  only : s' = { s.setElem f.e (s'.elem f.e) with pend := s'.pend }
  issued : Issued (s.elem f.e) (s'.elem f.e) f.t k chn
  slot : ∃ y, s'.slot f.e k = some y ∧ y.held = true ∧ y.stage = 0
  pend : ∃ r, s'.pend = s.pend ++ [⟨(s.regionOf f.e).getD 0, r, .slot f.e k, s.cycle⟩] ∧ r.code = code ∧ r.elid = f.e ∧ r.tix = f.tix ∧
    r.slot = k ∧ r.addr = BitVec.ofNat 64 addr ∧ r.word = f.word

/-- A fault of the given code and address is pending on slot k of e. -/
def Pending (s' : State) (e k code addr : Nat) : Prop :=
  ∃ p ∈ s'.pend, p.at_ = .slot e k ∧ p.frec.code = code ∧ p.frec.addr = BitVec.ofNat 64 addr ∧ p.cycle = s'.cycle

/-- Slot k of e has completed in s' with an optional result written to D under a condition, and flags; no other part of the machine
changes. -/
structure Finished (s s' : State) (e k : Nat) (y : Slot) (d : Dst) (cond : Bool) (r : Option Res) (fl : W32) : Prop where
  only : OnlyElem s s' e
  slot : s'.slot e k = none
  slots : ∀ j < 8, j ≠ k → s'.slot e j = s.slot e j
  places : ∀ p < 16, vget (s'.elem e).cnt p 0 = vget (s.elem e).cnt p 0 + BitVec.ofNat 4 ((marksOf (slotTU y) cond).count p)
  resv : ∀ p < 16, vget (s'.elem e).resv p 0 = vget (s.elem e).resv p 0 - BitVec.ofNat 4 ((reserves (slotTU y)).count p)
  queues : (s'.elem e).queues = (s.elem e).queues
  toks : (s'.elem e).out = (s.elem e).out ++ (match r with
    | some r => resToks (slotTU y) (tagOf (slotTU y) y.tagq (s.view e)) cond r
    | none => []).map fun o => ((s.elem e).nseq, o)
  flags : (s'.elem e).axs = (s.elem e).axs ||| fl
  sregs : ∀ n < 16, (s'.elem e).sreg n = match r with | some r => destS r d n ((s.elem e).sreg n) | none => (s.elem e).sreg n
  vregs : ∀ n < 16, (s'.elem e).vreg n = match r with | some r => destV r d n ((s.elem e).vreg n) | none => (s.elem e).vreg n

/-- The 64-bit address of a memory operation (R65). -/
def effAddr (f : Firing) (o : FmtM) : Nat := offsetAdd 64 (pairOf f.x o.a) (sxInt o.off.toNat 20)

/-- The bank address of a bank operation (R414). -/
def bankAddr (f : Firing) (o : FmtM) : Nat := offsetAdd 16 (wordOf f.x o.a % 65536) (sxInt o.off.toNat 20)

/-- No matrix pass takes the bank port of element e in this cycle (R281). -/
def NoPass (s : State) (e : Nat) : Prop :=
  (s.elem e).portAt ≠ s.cycle + 1 ∧ ∀ r, s.regOf e = some r → ∀ m ∈ r.rects,
    m.moved = s.cycle + 1 ∨ ∀ v ∈ m.moving true, (r.waveBanks m v).contains e = false

/-- The bank of element e can take accesses of n bytes at some addresses: no matrix pass has its port, what they touch of MAP quarters is filled,
and the undo buffer has room for what they write (R180, R281, R366). -/
def PortClear (s : State) (e n : Nat) (as : List Nat) (write : Bool) : Prop :=
  let x := s.elem e
  NoPass s e ∧ unfilled x (as.flatMap fun a => [a, a + (n - 1)]) = [] ∧ undoRoom x (if write then as.flatMap fun a => rowsOf a n else []) = true ∧
    (write = true → ∀ a ∈ as, x.quarter a ≠ .wgt)

/-- It takes them at once: no integrator command and no earlier access has the port either (R303, R419). -/
def PortFree (s : State) (e n : Nat) (as : List Nat) (write : Bool) : Prop :=
  PortClear s e n as write ∧ (s.elem e).bankAt ≤ s.cycle ∧ s.arrayWants e = false

/-- n bytes of HBM from a that no bank stands in for, their lines last written under the key they are read with, if they have been written
(R180, R181, R196). -/
def State.Clear (s : State) (tag : Nat → Nat) (a n : Nat) : Prop :=
  s.lent = [] ∧ (∀ x ∈ s.elems, x.2.filled = []) ∧ ∀ b, a ≤ b → b < a + n → ∀ t, s.lineTag (b / 128) = some t → t = tag b

/-- A run that lies in one page of device memory, but not of native rows, and is its owner's own. -/
def PlainRun (s : State) (ls : List (Loc × Nat)) (l : Loc) (n : Nat) : Prop :=
  s.Clear s.keyTag l.addr n ∧ ls = [(l, n)] ∧ l.space = .dev ∧ l.ptype ≠ 3

/-! ### Engines (R234, R235) -/

/-- Queue q of engine g has its turn; t is its head and y the slot of the firing that holds it; it is neither held nor waits for a cut, its own or
the one that frees the held-line budget, its
payload is not performed, and its region runs. -/
structure Served (s : State) (g q : Nat) (t : Entry) (y : Slot) : Prop where
  turn : nextQueue (s.engine g) = some q
  head : ∃ ts, s.equeue g q = t :: ts ∧ ∀ z ∈ ts, z.id ≠ t.id
  slot : s.slot t.elem t.slot = some y
  free : t.held = false ∧ t.cut ≠ 1 ∧ t.full ≠ 1 ∧ t.stage ≠ 2 ∧ s.runs t.elem = true ∧ t.slot < 8

/-- The command t of queue q of engine g has done its work in s': it is no longer in the queue and its firing may complete with value v. -/
def Served.Done (s s' : State) (g q : Nat) (t : Entry) (y : Slot) (v : Nat) : Prop :=
  (s'.equeue g q).head?.map Entry.id ≠ some t.id ∧ s'.equeue g q = (s.equeue g q).tail ∧ Performed s' t.elem t.slot y.ins (word512 v)

/-- The command t of queue q goes on: it still heads its queue, and its slot counts n. -/
def Served.Goes (s' : State) (g q : Nat) (t : Entry) (n : Nat) : Prop :=
  ((s'.equeue g q).head?.map Entry.id = some t.id) ∧ ∃ y, s'.slot t.elem t.slot = some y ∧ y.prog = n

/-! ### Rollback (R370, R372) -/

/-- A lasting fault of a code and place rolls region rn back: it runs, its launch is not COF, nothing irrevocable is in progress, the fault
is not the one that rolled it back last, the pseudo-channels of its cut are free for it, the markers of its cut have reached every out port
(else what was emitted before them lands first, log 64), and no ring is set up for its record, which therefore waits. -/
structure Rollable (s : State) (rn : Nat) (r : Region) (code : Nat) (place : FaultAt) : Prop where
  region : s.region rn = some r
  runs : r.phase = .running
  noCof : r.launch.cof = false
  part : r.part < 8
  revocable : s.irrevocable1 rn r = false
  fresh : r.lastFlt.contains (code, place) = false
  pcs : s.pcsFree rn r.lastSnap = true
  ring : (s.part r.part).fqb = 0
  reached : r.lastSnap.late = []
  sorted : r.lastSnap.elems.Pairwise fun x y => x.1 < y.1

/-- Region rn stands in s' as its last complete cut left it, stopped until the record of the fault is written: its elements have the cut's
registers, places and queues, no line is held, nothing of it is pending, and the record says that it was rolled back. -/
structure RolledBack (s s' : State) (rn : Nat) (r : Region) (code : Nat) (place : FaultAt) : Prop where
  region : ∃ g, s'.region rn = some g ∧ g.phase = .gated ∧ g.recWait = true ∧ g.lastFlt = (code, place) :: r.lastFlt ∧
    g.rects = r.lastSnap.rects ∧ g.cutN = r.cutN ∧ g.hold = []
  elems : ∀ e x, SMap.find e r.lastSnap.elems = some x →
    (s'.elem e).s = x.s ∧ (s'.elem e).v = x.v ∧ (s'.elem e).cnt = x.cnt ∧ (s'.elem e).queues = x.queues
  record : ∃ f, (s'.part r.part).recs = (s.part r.part).recs ++ [(f, some rn)] ∧ f.code = code ∧ f.flg = 2 ∧ f.cutn = r.cutN
  waits : ∀ p ∈ s'.pend, p.reg ≠ rn

/-- The fields of FLTS of partition p but those named stand. -/
def Counted (s s' : State) (p lo width : Nat) : Prop :=
  bitsOf (s'.part p).flts.toNat lo width = min (bitsOf (s.part p).flts.toNat lo width + 1) (2 ^ width - 1)

/-- No translation cache holds a leaf of pages [first, first + n) of partition p, or, with n = 0, of any page of it (R195). -/
def Uncached (s : State) (p first n : Nat) : Prop := ∀ c, ∀ x ∈ s.tlbOf c, covers p first n x.1 = false

/-- Region rn is stopped in s' for the given reason, its state captured (R351, R352). -/
def Stopped (s s' : State) (rn : Nat) (why : FreezeWhy) : Prop :=
  ∃ g, s'.region rn = some g ∧ g.phase = .stopped ∧ g.why = why ∧ g.stamp = s.cycle

end Sys2Proof.Machine
end

