-- ==== Sys2Proof/Certificates/Slice0/Obligations.lean ====
section
/-! DEFINITION. The statements for the provers. -/

open Sys2Proof Sys2Proof.Machine

/-! ### Firings without a slot -/

/-- Each of these two-source operations completes in its issue cycle: every lane of the result is its lane function of the same lanes of A
and B as they stood at the start of the cycle, under AXC as it then stood, written to D and emitted, and nothing else of the machine
changes but what issue and completion change (R29, R30, R31, R401). -/
def Claims.TwoSourceOperations : Prop :=
  ∀ p ∈ ([(.add, laneAdd), (.adds, fun _ w _ => laneAdds w), (.sub, laneSub), (.subs, fun _ w _ => laneSubs w), (.mul, laneMul),
      (.mulh, fun _ w _ => laneMulh w), (.min, fun x w _ => laneMinMax false x w), (.max, fun x w _ => laneMinMax true x w),
      (.andOp, fun _ _ _ => laneAnd), (.andn, fun _ w _ => laneAndn w), (.orOp, fun _ _ _ => laneOr), (.xor, fun _ _ _ => laneXor),
      (.shl, fun _ w m => laneShl w m), (.shr, fun _ w _ => laneShr w), (.sar, fun _ w _ => laneSar w), (.rot, fun _ w _ => laneRot w)] :
      List ((TU → FmtA → Instr) × (Axc → Ty → BitVec 4 → Nat → Nat → LaneRes))),
    ∀ (s : State) (t : TU) (o : FmtA) (f : Firing), Ordinary s t f → Roomy s f.e →
      ∃ s', exec (p.1 t o) s = .next s' ∧
        (let a := operand s f o o.a
         let b := operand s f o o.b
         let y := mapRes2 (p.2 (axcOf f.x.axc) (Ty.work o.ty) o.mod) a.1 b.1
         let r : Res := ⟨Ty.work o.ty, vecOp o, y.1, a.2 ||| b.2 ||| y.2⟩
         Results s s' f o.d r.nonzero r)

/-- The same of the operations of one source (R29, R30, R31, R401, R467). -/
def Claims.OneSourceOperations : Prop :=
  ∀ p ∈ ([(.mov, fun _ _ _ a => (a, flNone)), (.abs, fun _ w m => laneAbs w m), (.neg, fun _ w m => laneNeg w m),
      (.clz, fun _ w _ => laneClz w), (.popc, fun _ w _ => lanePopc w)] :
      List ((TU → FmtA → Instr) × (Axc → Ty → BitVec 4 → Nat → LaneRes))),
    ∀ (s : State) (t : TU) (o : FmtA) (f : Firing), Ordinary s t f → Roomy s f.e →
      ∃ s', exec (p.1 t o) s = .next s' ∧
        (let a := operand s f o o.a
         let y := mapRes (p.2 (axcOf f.x.axc) (Ty.work o.ty) o.mod) a.1
         let r : Res := ⟨Ty.work o.ty, vecOp o, y.1, a.2 ||| y.2⟩
         Results s s' f o.d r.nonzero r)

/-- FMA and CLAMP: the same of three sources (R427, R442). -/
def Claims.ThreeSourceOperations : Prop :=
  ∀ p ∈ ([(.fma, laneFma), (.clamp, fun x w _ => laneClamp x w)] :
      List ((TU → FmtA → Instr) × (Axc → Ty → BitVec 4 → Nat → Nat → Nat → LaneRes))),
    ∀ (s : State) (t : TU) (o : FmtA) (f : Firing), Ordinary s t f → Roomy s f.e →
      ∃ s', exec (p.1 t o) s = .next s' ∧
        (let a := operand s f o o.a
         let b := operand s f o o.b
         let c := operand s f o o.c
         let y := List.zipWith (fun ab c => p.2 (axcOf f.x.axc) (Ty.work o.ty) o.mod ab.1 ab.2 c) (a.1.zip b.1) c.1
         let r : Res := ⟨Ty.work o.ty, vecOp o, y.map Prod.fst, a.2 ||| b.2 ||| c.2 ||| y.foldl (fun f r => f ||| r.2) flNone⟩
         Results s s' f o.d r.nonzero r)

/-- The element-wise operations of one, two and three sources (R29 to R31, R401, R427, R442). -/
def Obligations.ElementwiseOperations : Prop :=
  Claims.TwoSourceOperations ∧ Claims.OneSourceOperations ∧ Claims.ThreeSourceOperations

/-- SEL gives each lane of A where C's lane is not zero and of B where it is, and CMP gives 1 where the condition holds of the lanes and 0
elsewhere, the condition of the firing being lane 0 of the comparison (R429, R517). -/
def Claims.SelectAndCompare : Prop :=
  ∀ (s : State) (t : TU) (o : FmtA) (f : Firing), Ordinary s t f → Roomy s f.e →
    (o.ty ≠ .b1 → ∃ s', exec (.sel t o) s = .next s' ∧
      (let a := operand s f o o.a
       let b := operand s f o o.b
       let c := s.read f.e f.x (Ty.work o.ty) (vecOp o) o.imm o.c
       let y := List.zipWith (fun (ab : Nat × Nat) (c : Nat) => if c ≠ 0 then ab.1 else ab.2) (a.1.zip b.1) c.1
       let r : Res := ⟨Ty.work o.ty, vecOp o, y, a.2 ||| b.2⟩
       Results s s' f o.d r.nonzero r)) ∧
    (o.ty = .b1 → ∃ s', exec (.sel t o) s = .next s' ∧
      (let a := operand s f o o.a
       let b := operand s f o o.b
       let c := s.read f.e f.x .b1 (vecOp o) o.imm o.c
       let y := List.zipWith (fun (ab : Nat × Nat) (c : Nat) => (ab.1 &&& c) ||| (ab.2 &&& (c ^^^ (2 ^ 64 - 1)))) (a.1.zip b.1) c.1
       let r : Res := ⟨.b1, vecOp o, y, a.2 ||| b.2⟩
       Results s s' f o.d r.nonzero r)) ∧
    ∃ s', exec (.cmp t o) s = .next s' ∧
      (let a := operand s f o o.a
       let b := operand s f o o.b
       let w := Ty.work o.ty
       let y := mapRes2 (laneCmp (axcOf f.x.axc) w o.mod) a.1 b.1
       let r : Res := ⟨if vecOp o then w else if Ty.width w = 64 then .s64 else .n32, vecOp o, y.1, a.2 ||| b.2 ||| y.2⟩
       Results s s' f o.d (y.1.headD 0 % 2 == 1) r)

/-- EMIT and MOVI pass a value on, MOVH replaces the upper part of each lane of D, REPL makes a vector of one scalar, and PRD reads the
count of a place as the cycle began (R136, R439, R467, R486, R502). -/
def Claims.MovesAndReads : Prop :=
  ∀ (s : State) (t : TU) (o : FmtA) (f : Firing), Ordinary s t f → Roomy s f.e →
    (∃ s', exec (.emit t o) s = .next s' ∧
      (let a := operand s f o o.a
       let r : Res := ⟨Ty.work o.ty, vecOp o, a.1, a.2⟩
       Results s s' f o.d r.nonzero r)) ∧
    (∃ s', exec (.movi t o) s = .next s' ∧
      (let r : Res := ⟨o.ty, vecOp o, List.replicate (if vecOp o then Ty.lanes o.ty else 1) (immOf o.ty o.imm), flNone⟩
       Results s s' f o.d r.nonzero r)) ∧
    (∃ s', exec (.movh t o) s = .next s' ∧
      (let a := operand s f o (dstSrc o.d)
       let r : Res := ⟨o.ty, vecOp o, a.1.map (movhLane o.ty o.imm), a.2⟩
       Results s s' f o.d r.nonzero r)) ∧
    (o.ty ≠ .b1 → ∃ s', exec (.repl t o) s = .next s' ∧
      (let a := s.read f.e f.x o.ty false o.imm o.a
       let r : Res := ⟨Ty.work o.ty, true, List.replicate (Ty.lanes (Ty.work o.ty)) (a.1.headD 0), a.2⟩
       Results s s' f o.d r.nonzero r)) ∧
    (o.ty = .b1 → ∃ s', exec (.repl t o) s = .next s' ∧
      (let a := s.read f.e f.x .b1 false o.imm o.a
       let r : Res := ⟨.b1, true, [if a.1.headD 0 % 2 = 1 then 2 ^ 64 - 1 else 0], a.2⟩
       Results s s' f o.d r.nonzero r)) ∧
    ∃ s', exec (.prd t o) s = .next s' ∧
      (let p := (match o.a with | .imm => o.imm.toNat | a => (s.read f.e f.x .n32 false o.imm a).1.headD 0) % 16
       let r : Res := ⟨.n32, false, [f.x.count p], flNone⟩
       Results s s' f o.d r.nonzero r)

/-- SEL, CMP, and the operations that pass a value on (R136, R429, R439, R467, R486, R502, R517). -/
def Obligations.SelectCompareAndMove : Prop :=
  Claims.SelectAndCompare ∧ Claims.MovesAndReads

/-- The lane movers complete with the lanes of their table of R539, and no flag. -/
def Obligations.LaneMovers : Prop :=
  ∀ p ∈ ([(.vbcast, fun s o f => List.replicate (Ty.lanes o.ty)
        (lane (dataLanes o f s o.a) ((indexLanes o f s o.b).headD 0 % Ty.lanes o.ty))),
      (.vperm, fun s o f => permLanes (Ty.lanes o.ty) (dataLanes o f s o.a) (indexLanes o f s o.b)
        (match o.c with | .zero => none | c => some (dataLanes o f s c))),
      (.vzip, fun s o f => zipLanes (Ty.lanes o.ty) (halfOf o f s o.c) (dataLanes o f s o.a) (dataLanes o f s o.b)),
      (.vuzp, fun s o f => uzpLanes (Ty.lanes o.ty) (halfOf o f s o.c) (dataLanes o f s o.a) (dataLanes o f s o.b)),
      (.vtrn, fun s o f => trnLanes (Ty.lanes o.ty) (halfOf o f s o.c) (dataLanes o f s o.a) (dataLanes o f s o.b)),
      (.vpack, fun s o f => (dataLanes o f s o.a).take (Ty.lanes o.ty / 2) ++ (dataLanes o f s o.b).take (Ty.lanes o.ty / 2)),
      (.vunpk, fun s o f => unpkLanes (Ty.lanes o.ty) (halfOf o f s o.b) (dataLanes o f s o.a)),
      (.vcmpr, fun s o f => cmprLanes (maskOf o f s o.b) (dataLanes o f s o.a) (dataLanes o f s o.c)),
      (.vxpd, fun s o f => xpdLanes (maskOf o f s o.b) 0 (dataLanes o f s o.a) (dataLanes o f s o.c))] :
      List ((TU → FmtA → Instr) × (State → FmtA → Firing → List Nat))),
    ∀ (s : State) (t : TU) (o : FmtA) (f : Firing), Ordinary s t f → Roomy s f.e →
      ∃ s', exec (p.1 t o) s = .next s' ∧
        (let r : Res := ⟨o.ty, true, p.2 s o f, flNone⟩
         Results s s' f o.d r.nonzero r)

/-- VRED adds the lanes by the tree of R173 and VSCAN forms their running sums; a level form adds to D instead and emits nothing (R143,
R541, R542). -/
def Obligations.Reductions : Prop :=
  ∀ (s : State) (t : TU) (o : FmtA) (f : Firing), Ordinary s t f → Roomy s f.e →
    (let w := Ty.work o.ty
     let add := laneAdd (axcOf f.x.axc) w o.mod
     let a := s.read f.e f.x o.ty true o.imm o.a
     let old := (s.read f.e f.x w false o.imm (dstSrc o.d)).1.headD 0
     (o.imm.toNat % 4 = 0 →
       (∃ s', exec (.vred t o) s = .next s' ∧
         (let x := treeSum add 7 a.1
          let r : Res := ⟨w, false, [x.1], a.2 ||| x.2⟩
          Results s s' f o.d r.nonzero r)) ∧
       ∃ s', exec (.vscan t o) s = .next s' ∧
         (let y := scanSum add a.1
          let r : Res := ⟨w, true, y.1, a.2 ||| y.2⟩
          Results s s' f o.d r.nonzero r)) ∧
     (o.imm.toNat % 4 ≠ 0 →
       (∃ s', exec (.vred t o) s = .next s' ∧
         (s'.elem f.e).out = (s.elem f.e).out ∧
         ∀ n < 16, (s'.elem f.e).sreg n = destS ⟨w, false, [(add old (treeSum add 7 a.1).1).1], flNone⟩ o.d n ((s.elem f.e).sreg n)) ∧
       ∃ s', exec (.vscan t o) s = .next s' ∧
         (s'.elem f.e).out = (s.elem f.e).out ∧
         ∀ n < 16, (s'.elem f.e).sreg n = destS ⟨w, false, [(scanFrom add old a.1).1.getLastD 0], flNone⟩ o.d n ((s.elem f.e).sreg n)))

/-! ### Markers, faults of issue and the net -/

/-- Whatever the operation, one that is not of R140 makes a marker firing when its heads are markers of one kind: it issues and completes
with its condition true, one token of that kind on OL, no result and no flag (R139, R140). -/
def Obligations.MarkerFirings : Prop :=
  ∀ (i : Instr) (s : State) (t : TU) (f : Firing) (k : Kind), triggerOf i = some t → Marking s t f k → ownMarkers i = false →
    Roomy s f.e →
      ∃ s', exec i s = .next s' ∧
        Completes s s' f true (if t.ole then [⟨t.ol.toNat, Token.bare k (ctlLabel t.ol.toNat) f.tag⟩] else []) flNone

/-- Heads of different kinds raise MIX and issue nothing (R144, R371); with DREX set and one of them EOS, the DATA head is discarded
and XS is set instead (R145). -/
def Obligations.MixedHeads : Prop :=
  ∀ (i : Instr) (s : State) (t : TU) (f : Firing), triggerOf i = some t → s.firing t = some f →
    (shapeOf t f.x = .mismatch → ∃ s', exec i s = .next s' ∧ Raised s s' f 0x08 0) ∧
    ∀ q < 32, shapeOf t f.x = .discard q → ∃ s', exec i s = .next s' ∧ OnlyElem s s' f.e ∧
      s'.elem f.e = { s.elem f.e with
        queues := vset (s.elem f.e).queues q ((s.elem f.e).queue q).tail
        axs := (s.elem f.e).axs ||| flXS
        nseq := (s.elem f.e).nseq + 1
        lastDone := (s.cycle, f.seq + 1) }

/-- NOP completes with nothing but its marks (R481), and MARK with its marker, the next section number of the element going with a
SECT (R463). -/
def Claims.NopAndMark : Prop :=
  ∀ (s : State) (t : TU) (o : FmtA) (f : Firing), Ordinary s t f → Roomy s f.e →
    (∃ s', exec (.nop t o) s = .next s' ∧ Completes s s' f true [] flNone) ∧
    ∃ s', exec (.mark t o) s = .next s' ∧ OnlyElem s s' f.e ∧
      (let l := t.ol.toNat
       let n := (serialLater f.x.shadowN f.x.markN + 1) % 65536
       let kinds := [(1, Token.bare .eor (ctlLabel l) f.tag), (2, Token.bare .eot (ctlLabel l) f.tag), (3, Token.bare .eos (ctlLabel l) f.tag),
         (4, ({ Token.sect n (ctlLabel l) with tag := f.tag } : Token))]
       (∀ p ∈ kinds, o.imm.toNat % 8 = p.1 →
         (s'.elem f.e).out = (s.elem f.e).out ++ [((s.elem f.e).nseq + 1, ⟨l, p.2⟩)]) ∧
       (s'.elem f.e).markN = (if o.imm.toNat % 8 = 4 then n else (s.elem f.e).markN) ∧
       (s'.elem f.e).s = (s.elem f.e).s ∧ (s'.elem f.e).v = (s.elem f.e).v ∧ (s'.elem f.e).axs = (s.elem f.e).axs)

/-- STEER sends its passenger on OL where its comparison holds and on OL + 1 where it does not, writes the comparison to D, and sends a
marker on both; a queue head of the wrong plane raises PLN of a firing that has issued (R29, R141, R525). -/
def Claims.Steering : Prop :=
  ∀ (s : State) (t : TU) (o : FmtA) (f : Firing), s.firing t = some f → Roomy s f.e →
    (shapeOf t f.x = .plain →
      let c := steerCmp o f s
      let p := passenger o f s
      let wrong := (∃ k, o.c = .q k) ∧ p.ctl ≠ ctlLabel t.ol.toNat
      (wrong → ∃ s', exec (.steer t o) s = .next s' ∧ IssueRaised s s' f 0x09 0) ∧
      (¬ wrong → ∃ s', exec (.steer t o) s = .next s' ∧ OnlyElem s s' f.e ∧
        Fired (s.elem f.e) (s'.elem f.e) t (c.1 != 0) [⟨t.ol.toNat + (if t.ols && c.1 == 0 then 1 else 0), p⟩] c.2 ∧
        (∀ n < 16, (s'.elem f.e).sreg n =
          destS ⟨if Ty.width o.ty = 64 then .s64 else .n32, false, [c.1], flNone⟩ o.d n ((s.elem f.e).sreg n)) ∧
        (s'.elem f.e).v = (s.elem f.e).v)) ∧
    ∀ k, shapeOf t f.x = .marker k → ∃ s', exec (.steer t o) s = .next s' ∧
      Completes s s' f true [⟨t.ol.toNat, Token.bare k (ctlLabel t.ol.toNat) f.tag⟩,
        ⟨t.ol.toNat + 1, Token.bare k (ctlLabel (t.ol.toNat + 1)) f.tag⟩] flNone

/-- MERGE passes the head of A on with its tag, on OL for DATA and, under OLS, on OL + 1 for a marker; a head of the wrong plane raises PLN
of a firing that has issued (R29, R142). -/
def Claims.Merging : Prop :=
  ∀ (s : State) (t : TU) (o : FmtA) (f : Firing) (k : BitVec 5) (h : Token), s.firing t = some f → Roomy s f.e →
    (shapeOf t f.x = .plain ∨ ∃ m, shapeOf t f.x = .marker m) → o.a = .q k → f.x.head k.toNat = some h →
    (h.ctl ≠ ctlLabel t.ol.toNat → ∃ s', exec (.merge t o) s = .next s' ∧ IssueRaised s s' f 0x09 0) ∧
    (h.ctl = ctlLabel t.ol.toNat → ∃ s', exec (.merge t o) s = .next s' ∧
      Completes s s' f (h.kind == .data)
        [⟨t.ol.toNat + (if t.ols && h.kind != .data then 1 else 0), { h with tag := f.tag, shr := false }⟩] flNone)

/-- STEER and MERGE (R141, R142, R525). -/
def Obligations.SteeringAndMerging : Prop :=
  Claims.Steering ∧ Claims.Merging

/-- SINK counts its firings and reports at the one its immediate names, DONE reports at once, and ERLS asks for the release of the unit; the
last report of a unit completes it (R337, R338, R438, R518). -/
def Claims.Reporting : Prop :=
  ∀ (s : State) (t : TU) (o : FmtA) (f : Firing), Ordinary s t f → Roomy s f.e →
    (let c := coreOf f.e
     let n := elemNo f.e
     ∃ a, Completes s a f true [] flNone ∧
      (∃ s', exec (.doneOp t o) s = .next s' ∧ s'.elem f.e = a.elem f.e ∧
        (s'.core c).rep = insertNat n (s.core c).rep ∧
        (∀ r, s.region f.reg = some r → s.regionOf f.e = some f.reg → r.sinks = true → r.unitDone = false →
          s'.region f.reg = some (if s'.allReported r then
            { r with unitDone := true, doneAt := s.cycle, ccu := true, cutReq := true } else r))) ∧
      (∃ s', exec (.sink t o) s = .next s' ∧ s'.elem f.e = a.elem f.e ∧
        s'.sinkCount f.e = s.sinkCount f.e + 1 ∧
        (s'.core c).rep = (if s.sinkCount f.e + 1 = o.imm.toNat % 256 then insertNat n (s.core c).rep else (s.core c).rep)) ∧
      (∃ s', exec (.erls t o) s = .next s' ∧ s'.elem f.e = a.elem f.e ∧
        ∀ r, s.region f.reg = some r →
          s'.region f.reg = some (if r.unitRel then r else { r with erls := r.erls ++ [(f.e, f.seq, r.unit)] })))

/-- NOP, MARK, SINK, DONE and ERLS (R337, R338, R438, R463, R481, R518). -/
def Obligations.NopMarkAndReports : Prop :=
  Claims.NopAndMark ∧ Claims.Reporting

/-- PSET and PADD put a count into a place, clamped to its capacity less its reservations and never below zero, before the firing's own
outputs; D takes the count and a clamp sets SA (R486). -/
def Obligations.PlaceCounts : Prop :=
  ∀ p ∈ ([(.pset, 0), (.padd, 32)] : List ((TU → FmtA → Instr) × Nat)),
    ∀ (s : State) (t : TU) (o : FmtA) (f : Firing), Ordinary s t f → Roomy s f.e → (∀ d, o.d ≠ .v d) →
      ∃ s', exec (p.1 t o) s = .next s' ∧ OnlyElem s s' f.e ∧
        (let k := o.imm.toNat % 16
         let x := issueElem t (s.elem f.e)
         let code := o.imm.toNat / 16 % 32
         let goal : Int := if p.2 = 32 then x.count k + sxInt code 5 else code
         let lim : Int := (x.capacity k - x.reserved k : Nat)
         let v := min (max goal 0) lim
         vget (s'.elem f.e).cnt k 0 = BitVec.ofNat 4 (v.toNat + (marksOf t (v != 0)).count k) ∧
         (∀ j < 16, j ≠ k → vget (s'.elem f.e).cnt j 0 = vget x.cnt j 0 + BitVec.ofNat 4 ((marksOf t (v != 0)).count j)) ∧
         (∀ n < 16, (s'.elem f.e).sreg n = destS ⟨.n32, false, [v.toNat], flNone⟩ o.d n ((s.elem f.e).sreg n)) ∧
         (s'.elem f.e).axs = (s.elem f.e).axs ||| (if v = goal then flNone else flSA) ∧
         (s'.elem f.e).v = (s.elem f.e).v)

/-- TAG writes the tag register, with or without its old value in the sum, and D; TRAP consumes and dequeues, marks and sends nothing, and
raises TRP with its operand in the upper and its immediate in the lower half of ADDR (R531, R535). -/
def Obligations.TagAndTrap : Prop :=
  (∀ (s : State) (t : TU) (o : FmtA) (f : Firing), Ordinary s t f → Roomy s f.e →
    ∃ s', exec (.tag t o) s = .next s' ∧ OnlyElem s s' f.e ∧
      (let a := match o.a with | .zero => 0 | a => (s.read f.e f.x .n32 false o.imm a).1.headD 0
       let n := ((if o.imm.getLsbD 3 then f.x.tagr.toNat else 0) + a + o.imm.toNat) % 8
       (s'.elem f.e).tagr = BitVec.ofNat 32 n ∧
       (∀ k < 16, (s'.elem f.e).sreg k = destS ⟨.n32, false, [n], flNone⟩ o.d k ((s.elem f.e).sreg k)) ∧
       (s'.elem f.e).v = (s.elem f.e).v ∧ (s'.elem f.e).axs = (s.elem f.e).axs)) ∧
  ∀ (s : State) (t : TU) (o : FmtE) (f : Firing), Ordinary s t f → Roomy s f.e →
    ∃ s', exec (.trap t o) s = .next s' ∧
      (∃ r, s'.pend = s.pend ++ [⟨f.reg, r, .issue f.e f.tix, s.cycle⟩] ∧ r.code = 0x0C ∧ r.elid = f.e ∧ r.tix = f.tix ∧ r.word = f.word ∧
        r.addr = BitVec.ofNat 64 (wordOf f.x o.a * 2 ^ 32 + o.imm.toNat)) ∧
      (s'.elem f.e).stuck = true ∧ (s'.elem f.e).out = (s.elem f.e).out ∧
      (s'.elem f.e).s = (s.elem f.e).s ∧ (s'.elem f.e).v = (s.elem f.e).v ∧ (s'.elem f.e).resv = (s.elem f.e).resv ∧
      (∀ k < 16, vget (s'.elem f.e).cnt k 0 = vget (s.elem f.e).cnt k 0 - BitVec.ofNat 4 ((consumes t).count k)) ∧
      ∀ q < 32, (s'.elem f.e).queue q = ((s.elem f.e).queue q).drop ((dequeues t).count q)

/-- CVT and QNT convert the first lanes both types have, one after another under the LFSR, which keeps the last value they leave it, and zero
the rest (R165, R436, R493). -/
def Obligations.Conversions : Prop :=
  ∀ p ∈ ([(.cvt, fun ax o sty l x _ => laneCvt ax sty o.ty o.mod l x), (.qnt, fun ax o sty l x b => laneQnt ax sty o.ty o.mod l x b)] :
      List ((TU → FmtA → Instr) × (Axc → FmtA → Ty → W32 → Nat → Nat → ConvRes))),
    ∀ (s : State) (t : TU) (o : FmtA) (f : Firing), Ordinary s t f → Roomy s f.e →
      ∃ s', exec (p.1 t o) s = .next s' ∧ OnlyElem s s' f.e ∧
        (let sty := (Wf.cvtSty o.imm).getD .n32
         let a := s.read f.e f.x sty (vecOp o) o.imm o.a
         let b := (s.read f.e f.x .f32 false o.imm o.b).1.headD 0
         let m := if vecOp o then min (Ty.lanes sty) (Ty.lanes o.ty) else 1
         let y := convLanes (fun l x => p.2 (axcOf f.x.axc) o (Ty.work sty) l x b) f.x.lfsr (a.1.take m)
         let r : Res := ⟨o.ty, vecOp o, y.1 ++ List.replicate ((if vecOp o then Ty.lanes o.ty else 1) - m) 0, a.2 ||| y.2.1⟩
         (s'.elem f.e).lfsr = (if y.2.2 = f.x.lfsr then (s.elem f.e).lfsr else y.2.2) ∧
         (∀ n < 16, (s'.elem f.e).sreg n = destS r o.d n ((s.elem f.e).sreg n)) ∧
         (∀ n < 16, (s'.elem f.e).vreg n = destV r o.d n ((s.elem f.e).vreg n)) ∧
         (s'.elem f.e).axs = (s.elem f.e).axs ||| r.fl ∧
         (s'.elem f.e).out = (s.elem f.e).out ++ (resToks t f.tag r.nonzero r).map fun o => ((s.elem f.e).nseq + 1, o))

/-! ### Pairs -/

/-- Each half of arithmetic, of two registers or of a register and IMM5, is its lane function over its operands (R75, R40). -/
def Claims.PairArithmetic : Prop :=
  (∀ p ∈ ([(.pairAdd, fun x w => laneAdd x w (halfMod w)), (.pairAdds, fun _ w => laneAdds w), (.pairSub, fun x w => laneSub x w (halfMod w)),
      (.pairSubs, fun _ w => laneSubs w), (.pairMul, fun x w => laneMul x w (halfMod w)), (.pairMulh, fun _ w => laneMulh w),
      (.pairMin, fun x w => laneMinMax false x w), (.pairMax, fun x w => laneMinMax true x w)] :
      List ((HalfR → Instr) × (Axc → Ty → Nat → Nat → LaneRes))),
    ∀ h : HalfR, HalfRule (p.1 h) (Ty.work h.ty) h.d fun f s vec =>
      let a := halfRead f s h.ty vec h.a
      let b := halfRead f s h.ty vec h.b
      let y := mapRes2 (p.2 (axcOf f.x.axc) (Ty.work h.ty)) a.1 b.1
      (y.1, a.2 ||| b.2 ||| y.2)) ∧
  ∀ p ∈ ([(.pairAddImm, fun x w => laneAdd x w (halfMod w)), (.pairAddsImm, fun _ w => laneAdds w),
      (.pairSubImm, fun x w => laneSub x w (halfMod w)), (.pairSubsImm, fun _ w => laneSubs w),
      (.pairMulImm, fun x w => laneMul x w (halfMod w)), (.pairMulhImm, fun _ w => laneMulh w),
      (.pairMinImm, fun x w => laneMinMax false x w), (.pairMaxImm, fun x w => laneMinMax true x w)] :
      List ((HalfI → Instr) × (Axc → Ty → Nat → Nat → LaneRes))),
    ∀ h : HalfI, HalfRule (p.1 h) h.ty h.d fun f s vec =>
      let a := halfRead f s h.ty vec h.a
      let y := mapRes2 (p.2 (axcOf f.x.axc) h.ty) a.1 (halfNum h.ty vec h.i)
      (y.1, a.2 ||| y.2)

/-- The same of logic and shifts. -/
def Claims.PairLogic : Prop :=
  (∀ p ∈ ([(.pairAnd, fun _ _ => laneAnd), (.pairAndn, fun _ w => laneAndn w), (.pairOr, fun _ _ => laneOr), (.pairXor, fun _ _ => laneXor),
      (.pairShl, fun _ w => laneShl w 0), (.pairShr, fun _ w => laneShr w), (.pairSar, fun _ w => laneSar w),
      (.pairRot, fun _ w => laneRot w)] : List ((HalfR → Instr) × (Axc → Ty → Nat → Nat → LaneRes))),
    ∀ h : HalfR, HalfRule (p.1 h) (Ty.work h.ty) h.d fun f s vec =>
      let a := halfRead f s h.ty vec h.a
      let b := halfRead f s h.ty vec h.b
      let y := mapRes2 (p.2 (axcOf f.x.axc) (Ty.work h.ty)) a.1 b.1
      (y.1, a.2 ||| b.2 ||| y.2)) ∧
  ∀ p ∈ ([(.pairAndImm, fun _ _ => laneAnd), (.pairAndnImm, fun _ w => laneAndn w), (.pairOrImm, fun _ _ => laneOr),
      (.pairXorImm, fun _ _ => laneXor), (.pairShlImm, fun _ w => laneShl w 0), (.pairShrImm, fun _ w => laneShr w),
      (.pairSarImm, fun _ w => laneSar w), (.pairRotImm, fun _ w => laneRot w)] : List ((HalfI → Instr) × (Axc → Ty → Nat → Nat → LaneRes))),
    ∀ h : HalfI, HalfRule (p.1 h) h.ty h.d fun f s vec =>
      let a := halfRead f s h.ty vec h.a
      let y := mapRes2 (p.2 (axcOf f.x.axc) h.ty) a.1 (halfNum h.ty vec h.i)
      (y.1, a.2 ||| y.2)

/-- The halves of one source, of a comparison, and of a broadcast (R75, R525, R538). -/
def Claims.PairOthers : Prop :=
  (∀ p ∈ ([(.pairMov, fun _ _ a => (a, flNone)), (.pairAbs, fun _ w a => laneAbs w 0 a), (.pairNeg, fun _ w a => laneNeg w 0 a),
      (.pairClz, fun _ w => laneClz w), (.pairPopc, fun _ w => lanePopc w)] : List ((HalfU → Instr) × (Axc → Ty → Nat → LaneRes))),
    ∀ h : HalfU, HalfRule (p.1 h) (Ty.work h.ty) h.d fun f s vec =>
      let a := halfRead f s h.ty vec h.a
      let y := mapRes (p.2 (axcOf f.x.axc) (Ty.work h.ty)) a.1
      (y.1, a.2 ||| y.2)) ∧
  (∀ p ∈ ([(.pairMovImm, fun _ _ a => (a, flNone)), (.pairClzImm, fun _ w => laneClz w), (.pairPopcImm, fun _ w => lanePopc w)] :
      List ((HalfI → Instr) × (Axc → Ty → Nat → LaneRes))),
    ∀ h : HalfI, HalfRule (p.1 h) h.ty h.d fun f _ vec => mapRes (p.2 (axcOf f.x.axc) h.ty) (halfNum h.ty vec h.i)) ∧
  (∀ p ∈ ([.pairCmp, .pairSteer] : List (HalfC → Instr)),
    ∀ h : HalfC, HalfRule (p h) (Ty.work h.ty) h.d fun f s vec =>
      let a := halfRead f s h.ty vec h.a
      let b := halfRead f s h.ty vec h.b
      let y := mapRes2 (laneCmp (axcOf f.x.axc) (Ty.work h.ty) h.c) a.1 b.1
      (y.1, a.2 ||| b.2 ||| y.2)) ∧
  (∀ h : HalfR, HalfRule (.pairVbcast h) h.ty h.d fun f s _ =>
    (List.replicate (Ty.lanes h.ty)
      (lane (halfRead f s h.ty true h.a).1 ((halfRead f s h.ty false h.b).1.headD 0 % Ty.lanes h.ty)), flNone)) ∧
  ∀ h : HalfI, HalfRule (.pairVbcastImm h) h.ty h.d fun f s _ =>
    (List.replicate (Ty.lanes h.ty) (lane (halfRead f s h.ty true h.a).1 (halfImm h.ty h.i % Ty.lanes h.ty)), flNone)

/-- Every half of a pair (R40, R75, R525, R538). -/
def Obligations.PairHalves : Prop :=
  Claims.PairArithmetic ∧ Claims.PairLogic ∧ Claims.PairOthers

/-! ### Issue into a slot -/

/-- A memory or bank operation that no unit takes at once issues into the lowest free slot with its base, its second operand and the
register it stores captured, and the chain its CHN names counts it (R45, R209, R353). -/
def Claims.MemoryIssue : Prop :=
  ∀ p ∈ ([(.ld, fun _ _ _ => 0), (.st, fun _ _ _ => 0), (.ldo, fun _ _ _ => 0), (.ldw, fun _ _ _ => 0), (.stw, fun _ _ _ => 0),
      (.fence, fun _ _ _ => 0), (.pref, fun _ _ _ => 0), (.inv, fun _ _ _ => 0),
      (.atom, fun s f o => word512 ((s.read f.e f.x o.ty false 0 o.b).1.headD 0)),
      (.red, fun s f o => word512 ((s.read f.e f.x o.ty false 0 o.b).1.headD 0)), (.cas, fun _ f o => groupOf f.x o.b)] :
      List ((TU → FmtM → Instr) × (State → Firing → FmtM → VW))),
    ∀ (s : State) (t : TU) (o : FmtM) (f : Firing) (k : Nat), Ordinary s t f → freeSlot f.x = some k → Prompt s false →
      (p.1 t o ∈ [.ldw t o, .stw t o, .atom t o, .red t o, .cas t o] → effAddr f o % tyBytes o.ty = 0) →
      ∃ s', exec (p.1 t o) s = .next s' ∧
        Takes s s' f (p.1 t o) k (word512 (pairOf f.x o.a)) (p.2 s f o) (storedOf f.x o.ty o.d) o.chn.toNat

/-- The atomics and word operations raise ALN with their address when it is not a multiple of their width, whether or not their unit takes
them at once; what issue changes stays changed, and the firing waits in its slot (R216, R371). -/
def Claims.MisalignedAtomics : Prop :=
  ∀ p ∈ ([.ldw, .stw, .atom, .red, .cas] : List (TU → FmtM → Instr)),
    ∀ (s : State) (t : TU) (o : FmtM) (f : Firing) (k : Nat), Ordinary s t f → freeSlot f.x = some k →
      effAddr f o % tyBytes o.ty ≠ 0 →
      ∃ s', exec (p t o) s = .next s' ∧ SlotRaised s s' f k o.chn.toNat 0x05 (effAddr f o)

/-- Issue of a memory or bank operation, and what a misaligned atomic raises (R45, R209, R216, R353, R371). -/
def Obligations.MemoryIssue : Prop :=
  Claims.MemoryIssue ∧ Claims.MisalignedAtomics

/-- A command of format E that no unit takes at once, and an integrator or stream port command in any case, issues into the lowest free slot with its
operands captured; one whose operands break a rule that is checked at issue raises that fault instead (R216, R223, R240, R244, R265, R271,
R297, R299, R315, R353, R433). -/
def Obligations.CommandIssue : Prop :=
  ∀ p ∈ ([(.cpy, fun f o _ => (groupOf f.x o.a, word512 (wordOf f.x o.b), groupOf f.x o.c), fun _ _ o => noteBad o),
      (.fill, fun f o _ => (groupOf f.x o.a, word512 (wordOf f.x o.b), groupOf f.x o.c), fun _ _ o => fillBad o),
      (.note, fun f o _ => (groupOf f.x o.a, word512 (wordOf f.x o.b), groupOf f.x o.c), fun _ _ _ => noteCmdBad),
      (.gath, fun f o _ => (groupOf f.x o.a, word512 (wordOf f.x o.b), groupOf f.x o.c), fun _ _ o => indBad o),
      (.scat, fun f o _ => (groupOf f.x o.a, word512 (wordOf f.x o.b), groupOf f.x o.c), fun _ _ o => indBad o),
      (.rcopy, fun f o _ => (groupOf f.x o.a, word512 (wordOf f.x o.b), groupOf f.x o.c), fun _ _ o => rowBad o true),
      (.rzero, fun f o _ => (word512 (pairOf f.x o.a), word512 (wordOf f.x o.b), groupOf f.x o.c), fun _ _ o => rowBad o false),
      (.qfen, fun _ _ _ => (0, 0, 0), fun _ _ _ => noBad),
      (.stash, fun f o _ => (word512 (pairOf f.x o.a), word512 (pairOf f.x o.b), groupOf f.x o.c), fun _ _ o => stashBad o false),
      (.unstash, fun f o _ => (if stashMem o then groupOf f.x o.a else word512 (pairOf f.x o.a), word512 (pairOf f.x o.b), groupOf f.x o.c),
        fun _ _ o => stashBad o (stashMem o)),
      (.coll, fun f o _ => (groupOf f.x o.a, groupOf f.x o.b, groupOf f.x o.c), fun _ _ o => collBad o),
      (.sopen, fun f o _ => (word512 (wordOf f.x o.a), word512 (wordOf f.x o.b), 0), fun _ _ _ => noBad),
      (.sparm, fun f o _ => (word512 (if o.imm.toNat / 8 % 8 = 0 then pairOf f.x o.a else wordOf f.x o.a), 0, 0), fun _ _ _ => noBad),
      (.sclose, fun _ _ _ => (0, 0, 0), fun _ _ _ => noBad), (.srec, fun _ _ _ => (0, 0, 0), fun _ _ _ => noBad),
      (.rfen, fun _ _ _ => (0, 0, 0), fun _ _ _ => noBad),
      (.bari, fun f o _ => (word512 (wordOf f.x o.a), 0, 0), fun _ _ _ => noBad),
      (.bara, fun f o _ => (word512 (wordOf f.x o.a), 0, 0), fun _ _ _ => noBad),
      (.barw, fun f o _ => (word512 (wordOf f.x o.a), 0, 0), fun _ _ _ => noBad),
      (.bart, fun f o _ => (word512 (if o.ty = .s64 then pairOf f.x o.a else wordOf f.x o.a), 0, 0), fun _ _ _ => noBad),
      (.barq, fun _ _ _ => (0, 0, 0), fun _ _ _ => noBad),
      (.mxmodeEnter, fun f o _ => (word512 (pairOf f.x o.a), 0, 0), fun s f _ => mxEnterBad s f.e false),
      (.mxmodeEnterSplit, fun f o _ => (word512 (pairOf f.x o.a), 0, 0), fun s f _ => mxEnterBad s f.e true),
      (.mxmodeLeave, fun _ _ _ => (0, 0, 0), fun _ _ _ => noBad),
      (.mxwld, fun f o _ => (word512 (wordOf f.x o.a), word512 (wordOf f.x o.b), 0), fun _ _ o => mxwldBad o),
      (.mxc, fun f o _ => (word512 (pairOf f.x o.a), 0, 0), fun _ _ _ => noBad),
      (.waita, fun f o _ => (word512 (pairOf f.x o.a), word512 (wordOf f.x o.b), 0), fun _ _ _ => waitaBad),
      (.wrsr, fun f o s => (word512 (if wideReg o.imm.toNat then pairOf f.x o.a else (s.read f.e f.x .n32 false 0 o.a).1.headD 0), 0, 0),
        fun _ _ _ => noBad),
      (.cfgw, fun f o _ => (groupOf f.x o.a, word512 (wordOf f.x o.b), 0), fun _ _ _ => noBad),
      (.frz, fun f o _ => (word512 (wordOf f.x o.a), 0, 0), fun _ _ _ => noBad), (.rpull, fun _ _ _ => (0, 0, 0), fun _ _ _ => noBad),
      (.lnch, fun f o _ => (word512 (pairOf f.x o.a), word512 (wordOf f.x o.b), 0), fun _ _ _ => noBad),
      (.ipatch, fun f o s => (word512 (pairOf f.x o.a), s.arg32 f o.b, s.arg32 f o.c), fun _ _ _ => ipatchBad),
      (.icfg, fun f o s => (s.arg32 f o.a, s.arg32 f o.b, s.arg32 f o.c), fun s f _ => icfgBad (s.gridShape f.e)),
      (.iset, fun f o s => (s.arg32 f o.a, s.arg32 f o.b, 0), fun _ _ _ => isetBad),
      (.iget, fun f o s => (s.arg32 f o.a, 0, 0), fun _ _ o => igetBad o),
      (.istep, fun f o s => (s.arg32 f o.a, s.arg32 f o.b, 0), fun _ _ _ => istepBad),
      (.isave, fun f o s => (s.arg32 f o.a, s.arg32 f o.b, s.arg32 f o.c), fun s f _ => isaveBad (s.elem f.e)),
      (.irest, fun f o s => (s.arg32 f o.a, s.arg32 f o.b, s.arg32 f o.c), fun _ _ _ => recsBad),
      (.ifeed, fun f o s => (s.arg32 f o.a, 0, 0), fun _ _ _ => ifeedBad)] :
      List ((TU → FmtE → Instr) × (Firing → FmtE → State → VW × VW × VW) ×
        (State → Firing → FmtE → Slot → Option (Nat × Nat)))),
    ∀ (s : State) (t : TU) (o : FmtE) (f : Firing) (k : Nat), Ordinary s t f → freeSlot f.x = some k →
      (let c := p.2.1 f o s
       let bad := p.2.2 s f o
       ((∀ y : Slot, y.opa = c.1 → y.opb = c.2.1 → y.opc = c.2.2 → bad y = none) → (Prompt s false ∨ isIntOp (p.1 t o) = true ∨ isPortOp (p.1 t o) = true) →
         ∃ s', exec (p.1 t o) s = .next s' ∧ Takes s s' f (p.1 t o) k c.1 c.2.1 c.2.2 0) ∧
       ∀ code addr, (∀ y : Slot, y.opa = c.1 → y.opb = c.2.1 → y.opc = c.2.2 → bad y = some (code, addr)) →
         ∃ s', exec (p.1 t o) s = .next s' ∧ SlotRaised s s' f k 0 code addr)

/-- PIMAB, PIMLD and PIMMAC issue with the address, a vector and a selector captured; PIMRD, MXACC and ISAMP issue so too, and the places of
their tokens, sixteen, the rows, and one, are kept on the links from their issue (R254, R258, R298, R470). -/
def Obligations.PlaceKeepingIssue : Prop :=
  ∀ (s : State) (t : TU) (o : FmtE) (f : Firing) (k : Nat), Ordinary s t f → freeSlot f.x = some k → Prompt s false →
    (let v : VW := match o.b with
       | .v r => f.x.vreg r.toNat
       | .q q => ((f.x.head q.toNat).map fun h => word512 (joinLanes 16 (headLanes h .h16 true))).getD 0
       | _ => 0
     let kept (n : Nat) (s : State) : State :=
       match f.x.route (o.imm.toNat % 128), s.regOf f.e with
       | some rt, some r =>
         { s with flight := s.flight ++ List.replicate n (Flight.place f.e rt.cls (routeDest r rt) (f.e, k, f.seq)) }
       | _, _ => s
     (∀ p ∈ ([.pimabEnter, .pimabLeave, .pimld, .pimmac] : List (TU → FmtE → Instr)),
       ∃ s', exec (p t o) s = .next s' ∧ Takes s s' f (p t o) k (word512 (pairOf f.x o.a)) v (word512 (wordOf f.x o.c)) 0) ∧
     (∃ s', exec (.pimrd t o) s = .next s' ∧
       Takes (kept 16 s) s' f (.pimrd t o) k (word512 (pairOf f.x o.a)) v (word512 (wordOf f.x o.c)) 0) ∧
     (∀ b, f.x.accb = some b → wordOf f.x o.b ≠ 0 → b + 64 * (wordOf f.x o.a + wordOf f.x o.b) ≤ 65536 →
       ∃ s', exec (.mxacc t o) s = .next s' ∧
         Takes (kept (wordOf f.x o.b) s) s' f (.mxacc t o) k (word512 (wordOf f.x o.a)) (word512 (wordOf f.x o.b)) (word512 b) 0) ∧
     (1 ≤ arg (s.arg32 f o.b) → arg (s.arg32 f o.b) ≤ 16 → arg (s.arg32 f o.a) + arg (s.arg32 f o.b) ≤ 512 →
       ∃ s', exec (.isamp t o) s = .next s' ∧
         Takes (kept 1 s) s' f (.isamp t o) k (s.arg32 f o.a) (s.arg32 f o.b) 0 0))

/-! ### Banks -/

/-- A BLD or BLDX whose unit takes it at once reads its bytes of the bank: one access at the base, or one for each index lane; nothing of
any memory, bank or register changes until it completes (R413 to R416). -/
def Claims.BankLoads : Prop :=
  ∀ (s : State) (t : TU) (o : FmtM) (f : Firing) (k : Nat), ReadyIn s t f k →
    (let a := bankAddr f o
     let wide := Dst.isV o.d
     let n := if wide then 64 else tyBytes o.ty
     let x := s.elem f.e
     (a % n = 0 → PortFree s f.e n [a] false →
       ∃ s', exec (.bld t o) s = .next s' ∧ Quiet s s' f.e ∧ (s'.elem f.e).bank = x.bank ∧
         Performed s' f.e k (.bld t o) (word512 (natLE (Memory.read x.bank a n)))) ∧
     (let w := wideSrc f.x o.b
      let m := if w then tyBytes o.ty else n
      let i := indexCapture o f s
      let as := if w then (lanesOf o.ty i).map fun j => (a + j * tyBytes o.ty) % 65536
        else [offsetAdd 16 a (sxInt i.toNat 32 * (m : Int))]
      a % m = 0 → PortFree s f.e m as false →
        ∃ s', exec (.bldx t o) s = .next s' ∧ Quiet s s' f.e ∧ (s'.elem f.e).bank = x.bank ∧
          Performed s' f.e k (.bldx t o)
            (word512 (joinLanes (8 * m) (as.map fun a => natLE (Memory.read x.bank a m) % 2 ^ 512)))))

/-- A BST whose unit takes it at once writes the low bytes of D at its base and no other byte of the bank, and a BSTX writes its lanes at
their addresses in lane order; a misaligned base raises ALN and a write into a WGT quarter raises WGQ (R182, R413, R414, R416). -/
def Claims.BankStores : Prop :=
  ∀ (s : State) (t : TU) (o : FmtM) (f : Firing) (k : Nat), ReadyIn s t f k →
    (let a := bankAddr f o
     let wide := Dst.isV o.d
     let n := if wide then 64 else tyBytes o.ty
     let d := storedOf f.x o.ty o.d
     let x := s.elem f.e
     (a % n = 0 → PortFree s f.e n [a] true →
       ∃ s', exec (.bst t o) s = .next s' ∧ Quiet s s' f.e ∧ Stored x.bank (s'.elem f.e).bank a (bytesLE n d.toNat) ∧
         Performed s' f.e k (.bst t o) 0) ∧
     (a % n ≠ 0 → ∃ s', exec (.bst t o) s = .next s' ∧ SlotRaised s s' f k o.chn.toNat 0x05 0) ∧
     (a % n = 0 → x.quarter a = .wgt → ∃ s', exec (.bst t o) s = .next s' ∧ SlotRaised s s' f k o.chn.toNat 0x07 0) ∧
     (let w := wideSrc f.x o.b
      let m := if w then tyBytes o.ty else n
      let i := indexCapture o f s
      let as := if w then (lanesOf o.ty i).map fun j => (a + j * tyBytes o.ty) % 65536
        else [offsetAdd 16 a (sxInt i.toNat 32 * (m : Int))]
      a % m = 0 → PortFree s f.e m as true →
        ∃ s', exec (.bstx t o) s = .next s' ∧ Quiet s s' f.e ∧ Performed s' f.e k (.bstx t o) 0 ∧
          (s'.elem f.e).bank = ((List.range as.length).zip as).foldl
            (fun b ja => Memory.write b ja.2 (bytesLE m (d.toNat / 2 ^ (8 * m * ja.1)))) x.bank))

/-- A BRMW whose unit takes it at once writes the operation of old value and operand, lane by lane, and returns the old value; a BCAS writes
its new value where the old one is the comparand, and returns the old one (R417). -/
def Claims.BankUpdatesTaken : Prop :=
  ∀ (s : State) (t : TU) (o : FmtM) (f : Firing) (k : Nat), ReadyIn s t f k →
    (let a := bankAddr f o
     let x := s.elem f.e
     (let wide := Dst.isV o.d || wideSrc f.x o.b
      let n := if wide then 64 else tyBytes o.ty
      let old := Memory.read x.bank a n
      let ax := axcOf f.x.axc
      let b := lanesOf o.ty (packLanes o.ty (s.read f.e f.x o.ty wide 0 o.b).1)
      let ys := List.zipWith (updateOp (o.mod.toNat % 8) o.ty ax.rm ax.ftz)
        ((lanesOf o.ty (word512 (natLE old))).take (if wide then Ty.lanes o.ty else 1)) b
      a % n = 0 → PortFree s f.e n [a] true → o.mod.toNat % 8 ≠ 7 →
        ∃ s', exec (.brmw t o) s = .next s' ∧ Quiet s s' f.e ∧
          Stored x.bank (s'.elem f.e).bank a (bytesLE n (packLanes o.ty (ys.map Prod.fst)).toNat) ∧
          ∃ y, s'.slot f.e k = some y ∧ y.stage = 3 ∧ y.lres = word512 (natLE old) ∧
            y.fl = ys.foldl (fun f r => f ||| r.2) flNone) ∧
     (let n := tyBytes o.ty
      let old := natLE (Memory.read x.bank a n)
      let g := groupCas o.ty (groupOf f.x o.b)
      a % n = 0 → PortFree s f.e n [a] true →
        ∃ s', exec (.bcas t o) s = .next s' ∧ Quiet s s' f.e ∧ Performed s' f.e k (.bcas t o) (word512 old) ∧
          (old = g.1 → Stored x.bank (s'.elem f.e).bank a (bytesLE n g.2)) ∧
          (old ≠ g.1 → (s'.elem f.e).bank = x.bank)))

/-- The fadd of a BRMW is performed in the cycle its firing completes in, under the AXC of that cycle: it writes the sum of old value and
operand, lane by lane, returns the old value to D, raises the flags of the sums and frees its slot (R151, R417). -/
def Claims.BankSums : Prop :=
  ∀ (s : State) (e k : Nat) (y : Slot) (t : TU) (o : FmtM), k < 8 → s.slot e k = some y → y.ins = .brmw t o → o.mod.toNat % 8 = 7 →
    y.stage = 0 → s.inTurn e k y = true → s.edgesMet e y = true → Roomy s e →
    (let x := s.elem e
     let a := bankBase o y
     let n := if y.wide then 64 else tyBytes o.ty
     let ax := axcOf (s.view e).axc
     let old := word512 (natLE (Memory.read x.bank a n))
     let ys := List.zipWith (updateOp 7 o.ty ax.rm ax.ftz) ((lanesOf o.ty old).take (if y.wide then Ty.lanes o.ty else 1)) (lanesOf o.ty y.opb)
     let vec := y.wide || Dst.isV o.d
     let r : Res := ⟨o.ty, vec, if vec then lanesOf o.ty old else [old.toNat % 2 ^ Ty.width o.ty], flNone⟩
     a % n = 0 → PortFree s e n [a] true →
       ∃ s', choose (.perform e k) s = .next s' ∧ s'.slot e k = none ∧
         Stored x.bank (s'.elem e).bank a (bytesLE n (packLanes o.ty (ys.map Prod.fst)).toNat) ∧
         (s'.elem e).axs = x.axs ||| (y.fl ||| ys.foldl (fun f r => f ||| r.2) flNone) ∧
         (∀ i < 16, (s'.elem e).sreg i = destS r o.d i (x.sreg i)) ∧ ∀ i < 16, (s'.elem e).vreg i = destV r o.d i (x.vreg i))

/-- BRMW and BCAS (R151, R417). -/
def Claims.BankUpdates : Prop :=
  Claims.BankUpdatesTaken ∧ Claims.BankSums

/-- The six bank operations on their port (R182, R413 to R417). -/
def Obligations.BankOperations : Prop :=
  Claims.BankLoads ∧ Claims.BankStores ∧ Claims.BankUpdates

/-! ### Global memory -/

/-- An aligned LD and an LDO that are taken at once read their bytes at their home; an LD that is not aligned has read its first byte and
reads the others one at a time, and an LDO that spans two lines has read those of the first. An LDO reads a line that the buffer of the core
holds there, whatever memory holds (R205, R452, R455; log 41). -/
def Claims.Loads : Prop :=
  ∀ (s : State) (t : TU) (o : FmtM) (f : Firing) (k : Nat), ReadyIn s t f k →
    (let a := effAddr f o
     let n := if Dst.isV o.d then 64 else tyBytes o.ty
     let run (n : Nat) := s.resolveRun (coreOf f.e) (s.partOf f.e) a n .load
     (∀ ls, a % n = 0 → run n = .ok ls →
       ∃ s', exec (.ld t o) s = .next s' ∧ Quiet s s' f.e ∧ Performed s' f.e k (.ld t o) (word512 (natLE (s.readRun a ls)))) ∧
     (∀ ls, a % n ≠ 0 → run 1 = .ok ls →
       ∃ s', exec (.ld t o) s = .next s' ∧ Quiet s s' f.e ∧
         ∃ y, s'.slot f.e k = some y ∧ y.stage = 0 ∧ y.prog = 0 ∧ y.sub = 1 ∧ y.lres = word512 (natLE (s.readRun a ls))) ∧
     (∀ ls l, run n = .ok ls → PlainRun s ls l n → (s.core (coreOf f.e)).ro = [] →
       (a % 128 + n ≤ 128 → ∃ s', exec (.ldo t o) s = .next s' ∧ Quiet s s' f.e ∧
         Performed s' f.e k (.ldo t o) (word512 (natLE (Memory.read s.mem l.addr n)))) ∧
       (128 < a % 128 + n → ∃ s', exec (.ldo t o) s = .next s' ∧ Quiet s s' f.e ∧
         ∃ y, s'.slot f.e k = some y ∧ y.stage = 0 ∧ y.sub = 128 - a % 128 ∧
           y.lres = word512 (natLE (Memory.read s.mem l.addr (128 - a % 128))))) ∧
     (∀ ls l b, run n = .ok ls → ls = [(l, n)] → l.space = .dev → l.ptype ≠ 3 →
       SMap.find (l.addr / 128) (s.core (coreOf f.e)).ro = some b → a % 128 + n ≤ 128 →
       ∃ s', exec (.ldo t o) s = .next s' ∧ Quiet s s' f.e ∧
         Performed s' f.e k (.ldo t o)
           (word512 (natLE ((List.range n).map fun i => BitVec.ofNat 8 (b.toNat / 2 ^ (8 * ((l.addr + i) % 128))))))) ∧
     (∀ code va, a % n = 0 → run n = .fault code va →
       ∃ s', exec (.ld t o) s = .next s' ∧ SlotRaised s s' f k o.chn.toNat code va))

/-- An LDW returns its word once the word's presence bit is set and waits for it otherwise; a FENCE, a PREF and an INV that have nothing to
wait for are performed, PREF touching nothing but tags of the L2 and INV emptying the read-only buffer of the core (R213, R450, R458,
R490). -/
def Claims.WordReadsAndHints : Prop :=
  ∀ (s : State) (t : TU) (o : FmtM) (f : Firing) (k : Nat), ReadyIn s t f k →
    (let a := effAddr f o
     let c := coreOf f.e
     (∀ l n ls, a % tyBytes o.ty = 0 → s.resolveRun c (s.partOf f.e) a 4 .wordRead = .ok ((l, n) :: ls) →
       (s.present (s.regionOf f.e) (l.addr / 4) = true →
         ∃ s', exec (.ldw t o) s = .next s' ∧ Quiet s s' f.e ∧ Performed s' f.e k (.ldw t o) (word512 (natLE (s.devRead l.addr 4)))) ∧
       (s.present (s.regionOf f.e) (l.addr / 4) = false →
         ∃ s', exec (.ldw t o) s = .next s' ∧ Quiet s s' f.e ∧
           ∃ y, s'.slot f.e k = some y ∧ y.stage = 1 ∧ y.sub = l.addr)) ∧
     (∃ s', exec (.fence t o) s = .next s' ∧ Quiet s s' f.e ∧ Performed s' f.e k (.fence t o) 0 ∧ s'.cores = s.cores) ∧
     (∃ s', exec (.pref t o) s = .next s' ∧ Quiet s s' f.e ∧ Performed s' f.e k (.pref t o) 0 ∧ s'.cores = s.cores ∧
       ∀ l, SMap.find (l.addr / 128) s.lent = none → s.resolve c (s.partOf f.e) a .gathRead = .ok l →
         (SMap.find (l.addr / 128) s'.l2).isSome = true) ∧
     (∃ s', exec (.inv t o) s = .next s' ∧ Quiet s s' f.e ∧ Performed s' f.e k (.inv t o) 0 ∧
       s'.core c = { s.core c with ro := [] }))

/-- LD, LDO, LDW, FENCE, PREF and INV (R205, R213, R450, R452, R455, R458, R490). -/
def Obligations.LoadsAndHints : Prop :=
  Claims.Loads ∧ Claims.WordReadsAndHints

/-- An ST or STW that is taken at once is accepted, so that its firing may complete, and is performed later: it stands last among the posted
operations of its element, and no byte has changed. A write of host or peer memory waits for a forced cut first (R206, R369, R521, R526,
R555). -/
def Claims.StoresAccepted : Prop :=
  ∀ (s : State) (t : TU) (o : FmtM) (f : Firing) (k : Nat), ReadyIn s t f k →
    (let a := effAddr f o
     let n := if Dst.isV o.d then 64 else tyBytes o.ty
     let c := coreOf f.e
     (∀ ls, s.resolveRun c (s.partOf f.e) a n .store = .ok ls → farRun ls = false →
       ∃ s', exec (.st t o) s = .next s' ∧ Quiet s s' f.e ∧ Performed s' f.e k (.st t o) 0 ∧
         ∃ y, (s'.elem f.e).posted = (s.elem f.e).posted ++ [y] ∧ y.ins = .st t o ∧ y.seq = f.seq ∧
           y.opa = word512 (pairOf f.x o.a) ∧ y.opc = storedOf f.x o.ty o.d) ∧
     (∀ ls m r, s.resolveRun c (s.partOf f.e) a n .store = .ok ls → farRun ls = true → s.regionOf f.e = some m → s.region m = some r →
       ∃ s', exec (.st t o) s = .next s' ∧ Quiet s s' f.e ∧ (s'.elem f.e).posted = (s.elem f.e).posted ∧
         (∃ y, s'.slot f.e k = some y ∧ y.stage = 0 ∧ y.cut = 1) ∧ s'.region m = some { r with cutReq := true }) ∧
     (∀ ls, a % tyBytes o.ty = 0 → s.resolveRun c (s.partOf f.e) a 4 .wordWrite = .ok ls →
       ∃ s', exec (.stw t o) s = .next s' ∧ Quiet s s' f.e ∧ Performed s' f.e k (.stw t o) 0 ∧
         ∃ y, (s'.elem f.e).posted = (s.elem f.e).posted ++ [y] ∧ y.ins = .stw t o ∧ y.seq = f.seq ∧
           y.opa = word512 (pairOf f.x o.a) ∧ y.opc = storedOf f.x o.ty o.d))

/-- When a posted operation is performed, an aligned ST changes exactly its bytes at its address, and an STW exactly its word, whose presence
bit it sets; a word that is present already raises DWR and keeps its value (R213, R521, R526). -/
def Claims.StoresPerformed : Prop :=
  ∀ (s : State) (e : Nat) (y : Slot) (t : TU) (o : FmtM) (l : Loc), s.runs e = true →
    ((s.elem e).posted.find? fun z => z.seq == y.seq) = some y → y.held = false → s.edgesMet e y = true → y.cut ≠ 2 →
    (let a := offsetAdd 64 (y.opa.toNat % 2 ^ 64) (sxInt o.off.toNat 20)
     let n := if Dst.isV o.d then 64 else tyBytes o.ty
     (∀ ls, y.ins = .st t o → y.sub = 0 → a % n = 0 → s.resolveRun (coreOf e) (s.partOf e) a n .store = .ok ls → PlainRun s ls l n →
       s.runFull (s.writer e) ls = false →
       ∃ s', choose (.performPosted e y.seq) s = .next s' ∧ Stored s.mem s'.mem l.addr (bytesLE n y.opc.toNat) ∧
         s'.hostMem = s.hostMem ∧ s'.peerMem = s.peerMem ∧ (s'.elem e).posted = (s.elem e).posted.filter fun z => z.seq != y.seq) ∧
     (∀ ls, y.ins = .stw t o → s.resolveRun (coreOf e) (s.partOf e) a 4 .wordWrite = .ok ls → PlainRun s ls l 4 →
       s.pendingPresence (s.regionOf e) (l.addr / 4) = false →
       (s.pres.contains (l.addr / 4) = false → s.runFull (s.writer e) ls = false →
         ∃ s', choose (.performPosted e y.seq) s = .next s' ∧ Stored s.mem s'.mem l.addr (bytesLE 4 y.opc.toNat) ∧
           s'.hostMem = s.hostMem ∧ s'.peerMem = s.peerMem ∧ s'.pres.contains (l.addr / 4) = true) ∧
       (s.pres.contains (l.addr / 4) = true →
         ∃ s', choose (.performPosted e y.seq) s = .next s' ∧ s'.mem = s.mem ∧ s'.pres = s.pres ∧
           ∃ p ∈ s'.pend, p.at_ = .posted e y.seq ∧ p.frec.code = 0x06)))

/-- ST and STW, accepted and performed (R206, R213, R369, R521, R526, R555). -/
def Obligations.Stores : Prop :=
  Claims.StoresAccepted ∧ Claims.StoresPerformed

/-- An ATOM or CAS of device memory that is taken at once is sent to the sparse-update unit, and its firing waits for the old value; a RED is
accepted and performed as far as its firing goes, and goes to the unit later, when all that is ordered before it has been performed and its port's
siding has room (R206, R215, R217, R218, R499). -/
def Claims.UpdatesSent : Prop :=
  (∀ (s : State) (t : TU) (o : FmtM) (f : Firing) (k : Nat), ReadyIn s t f k →
    ∀ ls, effAddr f o % tyBytes o.ty = 0 → s.resolveRun (coreOf f.e) (s.partOf f.e) (effAddr f o) (tyBytes o.ty) .store = .ok ls →
      (ls.all fun x => x.1.space == .dev) = true →
      (∀ i ∈ [Instr.atom t o, .cas t o], ∃ s', exec i s = .next s' ∧ Quiet s s' f.e ∧
        (∃ y, s'.updates = s.updates ++ [(f.e, y)] ∧ y.ins = i ∧ y.seq = f.seq ∧ y.opa = word512 (pairOf f.x o.a)) ∧
        ∃ y, s'.slot f.e k = some y ∧ y.stage = 1) ∧
      ∃ s', exec (.red t o) s = .next s' ∧ Quiet s s' f.e ∧ s'.updates = s.updates ∧ Performed s' f.e k (.red t o) 0 ∧
        ∃ y, (s'.elem f.e).posted = (s.elem f.e).posted ++ [y] ∧ y.ins = .red t o ∧ y.seq = f.seq ∧ y.opa = word512 (pairOf f.x o.a)) ∧
  ∀ (s : State) (e : Nat) (y : Slot) (t : TU) (o : FmtM), s.runs e = true →
    ((s.elem e).posted.find? fun z => z.seq == y.seq) = some y → y.held = false → s.edgesMet e y = true → y.ins = .red t o →
    y.sub ≠ farSlice →
    ((s.sided.filter fun u => u.2.sub == y.sub).length < 16 → ∃ s', choose (.performPosted e y.seq) s = .next s' ∧ Quiet s s' e ∧
      s'.updates = s.updates ++ [(e, y)] ∧ (s'.elem e).posted = (s.elem e).posted.filter fun z => z.seq != y.seq) ∧
    (16 ≤ (s.sided.filter fun u => u.2.sub == y.sub).length → choose (.performPosted e y.seq) s = .next s)

/-- When the sparse-update unit performs an update of device memory of its window that has nothing to merge with and has not been diverted,
exactly its bytes change, to what its operation gives of the old value, and an ATOM or CAS is answered with that old value; a CAS whose
comparand differs changes nothing (R215, R217). An update of a row under repair goes to its port's siding, if that holds fewer than 16, and
changes nothing (R218). -/
def Claims.UpdatesPerformed : Prop :=
  ∀ (s : State) (n e : Nat) (y : Slot) (o : FmtM) (l : Loc), s.updates[n]? = some (e, y) → s.chainFirst n e y = true →
    s.inWindow n y = true → updateFmt y = some o →
    (let a := eaOf o y
     let m := tyBytes o.ty
     let old := natLE (Memory.read s.mem l.addr m)
     (∀ ls, s.resolveRun (coreOf e) (s.partOf e) a m .store = .ok ls → PlainRun s ls l m → s.runFull (s.writer e) ls = false →
       (∀ z ∈ s.updates.eraseIdx n, mergeable y z.2 = false) → y.side = none →
       ∃ s', exec (.sparseUpdate n false) s = .next s' ∧ s'.updates = s.updates.eraseIdx n ∧ s'.sided = s.sided ∧
         s'.hostMem = s.hostMem ∧ s'.peerMem = s.peerMem ∧
         (match updateNew y old with
          | some v => Stored s.mem s'.mem l.addr (bytesLE m v)
          | none => s'.mem = s.mem) ∧
         ((∀ t o, y.ins ≠ .red t o) → ∀ k < 8, ∀ z, s.slot e k = some z → z.seq = y.seq → z.stage = 1 →
           (∀ j < k, ∀ w, s.slot e j = some w → w.seq ≠ y.seq) → Performed s' e k z.ins (word512 old))) ∧
     ((s.sided.filter fun u => u.2.sub == y.sub).length < 16 →
       ∃ f : FaultRec, f.code = 0x17 ∧ exec (.sparseUpdate n true) s = .next
         { s with updates := s.updates.eraseIdx n, sided := s.sided ++ [(e, { y with side := some f })] }))

/-- ATOM, RED and CAS, sent and performed (R206, R215, R217, R218, R499). -/
def Obligations.Updates : Prop :=
  Claims.UpdatesSent ∧ Claims.UpdatesPerformed

/-! ### Completion of a slot -/

/-- A slot's firing that may complete writes its value to D, emits it, marks its places by its condition, releases its reservations and
frees its slot: a load its bytes as its type, and a store nothing (R31, R37, R415). -/
def Claims.MemoryCompletion : Prop :=
  ∀ (s : State) (e k : Nat) (y : Slot) (t : TU) (o : FmtM), k < 8 → s.slot e k = some y → s.mayFinish e k y = true → Roomy s e →
    (∀ p ∈ ([(.bld, y.wide || Dst.isV o.d), (.bldx, y.wide || Dst.isV o.d), (.brmw, y.wide || Dst.isV o.d), (.ld, y.wide || Dst.isV o.d),
        (.ldo, y.wide || Dst.isV o.d), (.bcas, false), (.ldw, false), (.atom, false), (.cas, false)] : List ((TU → FmtM → Instr) × Bool)),
      y.ins = p.1 t o → ∃ s', exec (.firingCompletion e k) s = .next s' ∧
        (let r : Res := ⟨o.ty, p.2, if p.2 then lanesOf o.ty y.lres else [y.lres.toNat % 2 ^ Ty.width o.ty], flNone⟩
         Finished s s' e k y o.d r.nonzero (some r) y.fl)) ∧
    ∀ p ∈ ([.bst, .bstx, .st, .stw, .red, .fence, .pref, .inv] : List (TU → FmtM → Instr)),
      y.ins = p t o → ∃ s', exec (.firingCompletion e k) s = .next s' ∧ Finished s s' e k y .none true none y.fl

/-- A command that may complete returns its word, or its pair of words where its field is 64 bits wide, and its condition follows the value
(R31, R37, R120). -/
def Claims.CommandCompletion : Prop :=
  ∀ p ∈ ([(.cpy, fun _ => false), (.fill, fun _ => false), (.qfen, fun _ => false), (.note, fun _ => false), (.rcopy, fun _ => false),
      (.rzero, fun _ => false), (.gath, fun _ => false), (.scat, fun _ => false), (.stash, fun _ => false), (.unstash, fun _ => false),
      (.coll, fun _ => false), (.pimabEnter, fun _ => false), (.pimabLeave, fun _ => false), (.pimld, fun _ => false),
      (.pimmac, fun _ => false), (.pimrd, fun _ => false), (.sopen, fun _ => false), (.sparm, fun _ => false), (.sclose, fun _ => false),
      (.rfen, fun _ => false), (.bari, fun _ => false), (.bara, fun _ => false), (.bart, fun _ => false), (.mxmodeEnter, fun _ => false),
      (.mxmodeEnterSplit, fun _ => false), (.mxmodeLeave, fun _ => false), (.mxwld, fun _ => false), (.mxacc, fun _ => false),
      (.frz, fun _ => false), (.rpull, fun _ => false), (.lnch, fun _ => false), (.ipatch, fun _ => false), (.icfg, fun _ => false),
      (.iset, fun _ => false), (.iget, fun _ => false), (.isave, fun _ => false), (.irest, fun _ => false), (.ifeed, fun _ => false),
      (.isamp, fun _ => false), (.barq, fun o => o.imm.toNat / 32 % 4 == 2),
      (.srec, fun o => o.imm.toNat / 8 == 3 || o.imm.toNat / 8 == 4), (.rdsr, fun o => 0x0B ≤ o.imm.toNat)] :
      List ((TU → FmtE → Instr) × (FmtE → Bool))),
    ∀ (s : State) (e k : Nat) (y : Slot) (t : TU) (o : FmtE), k < 8 → s.slot e k = some y → s.mayFinish e k y = true → Roomy s e →
      y.ins = p.1 t o → ∃ s', exec (.firingCompletion e k) s = .next s' ∧
        (let r : Res := ⟨if p.2 o then .s64 else .n32, false, [y.lres.toNat % (if p.2 o then 2 ^ 64 else 2 ^ 32)], flNone⟩
         Finished s s' e k y o.d r.nonzero (some r) y.fl)

/-- What a completing operation of a slot leaves (R31, R37, R120, R415). -/
def Obligations.SlotCompletion : Prop :=
  Claims.MemoryCompletion ∧ Claims.CommandCompletion

/-- DIV, RCP, RSQ, SQRT, EXP2 and LOG2 run: each takes the lowest free slot with its operands captured as the cycle began, and when that
slot may complete, in whatever state, the firing completes with every lane its lane function gives of the captured lanes, a head of type vc decoded
by its channel's entry at issue, under the AXC of the completion, written to D and emitted. An integer division by zero under TDZ raises DBZ instead and sets DZ (R29, R30, R132, R151, R159, R353). -/
def Obligations.MultiCycleArithmetic : Prop :=
  ∀ p ∈ ([(.div, true, laneDiv), (.rcp, false, fun x ty m a _ => (laneRcp x ty m a, false)),
      (.rsq, false, fun x ty m a _ => (laneRsq x ty m a, false)), (.sqrt, false, fun x ty m a _ => (laneSqrt x ty m a, false)),
      (.exp2, false, fun x ty m a _ => (laneExp2 x ty m a, false)), (.log2, false, fun x ty m a _ => (laneLog2 x ty m a, false))] :
      List ((TU → FmtA → Instr) × Bool × (Axc → Ty → BitVec 4 → Nat → Nat → LaneRes × Bool))),
    ∀ (s : State) (t : TU) (o : FmtA) (f : Firing) (k : Nat), Ordinary s t f → freeSlot f.x = some k →
      (let w := Ty.work o.ty
       let a := s.capture1 f o o.a
       let b := if p.2.1 then s.capture1 f o o.b else 0
       ∃ s1, exec (p.1 t o) s = .next s1 ∧ Takes s s1 f (p.1 t o) k a b 0 0 ∧
         ∀ (s2 : State) (y : Slot), s2.slot f.e k = s1.slot f.e k → s2.slot f.e k = some y → s2.mayFinish f.e k y = true →
           Roomy s2 f.e →
           (let x := s2.view f.e
            let entry (c : Src) : Chan := match c with | .q k => vget f.x.chans k.toNat Chan.default | _ => Chan.default
            let u := slotLanes (axcOf x.axc) (entry o.a) o o.a a
            let v := slotLanes (axcOf x.axc) (entry o.b) o o.b b
            let rs := List.zipWith (p.2.2 (axcOf x.axc) w o.mod) u.1 v.1
            let fl := rs.foldl (fun f r => f ||| r.1.2) (u.2 ||| v.2)
            let r : Res := ⟨w, vecOp o, rs.map fun r => r.1.1, fl⟩
            (rs.any Prod.snd = false →
              ∃ s3, exec (.firingCompletion f.e k) s2 = .next s3 ∧ Finished s2 s3 f.e k y o.d r.nonzero (some r) fl) ∧
            (rs.any Prod.snd = true → ∃ s3, exec (.firingCompletion f.e k) s2 = .next s3 ∧ Pending s3 f.e k 0x0B 0 ∧
              (s3.elem f.e).axs = (s2.elem f.e).axs ||| flDZ ∧ (s3.elem f.e).s = (s2.elem f.e).s ∧
              (s3.elem f.e).v = (s2.elem f.e).v ∧ (s3.elem f.e).out = (s2.elem f.e).out ∧ s3.mem = s2.mem)))

/-- A completion that waits for the output buffer is applied once there is room, no older one of its planes waits and no younger one has
completed in the cycle, and not before. One of a firing without a slot is applied whole as it was formed; one of a slot completes anew, a load
with its value and a store with none (R31, R32, R34, R151). -/
def Obligations.BufferEntry : Prop :=
  ∀ (s : State) (e k : Nat) (w : Effect), s.runs e = true → (s.elem e).waitingOf k = some w →
    (let x := s.elem e
     let now := x.bufferRoom (x.again w).toks && !x.behind w.seq (x.again w).toks && !(x.lastDone.1 == s.cycle && w.seq < x.lastDone.2)
     (now = false → exec (.outputBufferEntry e k) s = .next s) ∧
     (now = true → s.slot e k = none → w.sets = [] → w.spec = [] → ∃ s', exec (.outputBufferEntry e k) s = .next s' ∧ OnlyElem s s' e ∧
       (s'.elem e).waiting = x.waiting.filter (fun z => z.seq != w.seq) ∧
       (s'.elem e).out = x.out ++ w.toks.map (fun o => (x.nseq, o)) ∧ (s'.elem e).axs = x.axs ||| w.fl ∧
       ∀ p < 16, vget (s'.elem e).cnt p 0 = vget x.cnt p 0 + BitVec.ofNat 4 (w.marks.count p)) ∧
     ∀ (y : Slot) (t : TU) (o : FmtM), now = true → k < 8 → s.slot e k = some y → x.waiting = [w] → (∀ ctl, (x.outOf ctl).length ≤ 2) →
       (y.ins = .ld t o → ∃ s', exec (.outputBufferEntry e k) s = .next s' ∧ (s'.elem e).waiting = [] ∧
         (let vec := y.wide || Dst.isV o.d
          let r : Res := ⟨o.ty, vec, if vec then lanesOf o.ty y.lres else [y.lres.toNat % 2 ^ Ty.width o.ty], flNone⟩
          Finished s s' e k y o.d r.nonzero (some r) y.fl)) ∧
       (y.ins = .st t o → ∃ s', exec (.outputBufferEntry e k) s = .next s' ∧ (s'.elem e).waiting = [] ∧
         Finished s s' e k y .none true none y.fl))

/-! ### Barriers -/

/-- At a signal box whose turn in the cycle has come to the element (R410), BARI sets EXP, clears ARR and PEND and arms; BART adds to PEND; BARA counts an arrival, waits in a full phase, and may name another
core's barrier only in maintenance mode and in its own cluster; BARW registers; BARQ reads. BARI of a count outside 1 to 65,535, and BART or
BARA of a barrier that is not armed, raise BAR, in their turn at the box as well (R227, R228, R230, R231, R409, R410). -/
def Claims.BarrierCommands : Prop :=
  ∀ (s : State) (t : TU) (o : FmtE) (f : Firing) (k : Nat), ReadyIn s t f k →
    (let c := coreOf f.e
     let n := o.imm.toNat % 32
     let b := s.bar c n
     let x := wordOf f.x o.a
     let put (s' : State) (c : Nat) (b : Bar) : Prop := s'.bar c n = b ∧ (∀ j, j ≠ n → s'.bar c j = s.bar c j) ∧ Quiet s s' f.e
     s.boxTurn c (elemNo f.e) = true →
     (1 ≤ x → x ≤ 65535 → ∃ s', exec (.bari t o) s = .next s' ∧
       put s' c { b with exp := BitVec.ofNat 16 x, arr := 0, pend := 0, arm := true } ∧ Performed s' f.e k (.bari t o) 1) ∧
     (x = 0 ∨ 65535 < x → ∃ s', exec (.bari t o) s = .next s' ∧ SlotRaised (s.boxUse c (elemNo f.e)) s' f k 0 0x13 0) ∧
     (b.arm = true → ∃ s', exec (.bart t o) s = .next s' ∧
       put s' c { b with pend := b.pend + BitVec.ofNat 64 (if o.ty = .s64 then pairOf f.x o.a else x) } ∧
       Performed s' f.e k (.bart t o) 1) ∧
     (b.arm = false → ∃ s', exec (.bart t o) s = .next s' ∧ SlotRaised (s.boxUse c (elemNo f.e)) s' f k 0 0x13 0) ∧
     (let g := match o.a with | .s _ => x % 256 | _ => c
      let d := s.bar g n
      let may := g = c ∨ ((s.part (s.partOf f.e)).maint = true ∧ clusterOf g = clusterOf c)
      s.boxTurn g (boxKey f.e g) = true →
      (¬ may → ∃ s', exec (.bara t o) s = .next s' ∧ SlotRaised s s' f k 0 0x14 0) ∧
      (may → d.arm = true → d.arr ≠ d.exp → ∃ s', exec (.bara t o) s = .next s' ∧ put s' g { d with arr := d.arr + 1 } ∧
        Performed s' f.e k (.bara t o) (word512 (d.arr.toNat + 1))) ∧
      (may → d.arm = true → d.arr = d.exp → ∃ s', exec (.bara t o) s = .next s' ∧ put s' g { d with heldB := d.heldB ++ [(f.e, k)] } ∧
        ∃ y, s'.slot f.e k = some y ∧ y.stage = 1) ∧
      (may → d.arm = false → ∃ s', exec (.bara t o) s = .next s' ∧ SlotRaised (s.boxUse g (boxKey f.e g)) s' f k 0 0x13 0)) ∧
     (b.waits.length < 64 → ∃ s', exec (.barw t o) s = .next s' ∧
       put s' c { b with waits := b.waits ++ [⟨f.e, k, x % 2 = 1, o.imm.toNat / 32 % 16, if b.ph ≠ (x % 2 = 1 : Bool) then some s.cycle else none⟩] } ∧
       ∃ y, s'.slot f.e k = some y ∧ y.stage = 1) ∧
     ∃ s', exec (.barq t o) s = .next s' ∧ put s' c b ∧
       Performed s' f.e k (.barq t o) (word512 (match o.imm.toNat / 32 % 4 with
         | 0 => b.exp.toNat * 65536 + b.arr.toNat
         | 1 => b.ph.toNat * 2 ^ 31 + b.arm.toNat * 2 ^ 30
         | _ => b.pend.toNat)))

/-- A barrier flips only when armed, with ARR = EXP and PEND = 0 (R229): PH toggles, ARR clears, and every registered BARW whose phase now
differs is due in the next cycle. A due BARW whose place has room marks it, completes with PH, and leaves the barrier (R224, R409). -/
def Claims.BarrierFlip : Prop :=
  ∀ (s : State) (c n : Nat), n < 32 →
    (let b := s.bar c n
     (b.arm = true → b.arr = b.exp → b.pend = 0 → b.flipAt ≠ s.cycle + 1 → b.heldB = [] → b.heldT = 0 →
       ∃ s', exec (.barrierPhaseFlip c n) s = .next s' ∧
         s'.bar c n = { b with
           ph := !b.ph, arr := 0, flipAt := s.cycle + 1
           waits := b.waits.map fun w => if w.ph ≠ !b.ph ∧ w.due = none then { w with due := some (s.cycle + 1) } else w }) ∧
     (b.arm = false ∨ b.arr ≠ b.exp ∨ b.pend ≠ 0 → exec (.barrierPhaseFlip c n) s = .next s)) ∧
    ∀ (e k : Nat) (y : Slot) (w : BarWait) (t : TU) (o : FmtE), k < 8 → e / 64 = c → s.slot e k = some y → y.ins = .barw t o →
      s.mayFinish e k y = true → o.imm.toNat % 32 = n → Roomy s e →
      ((s.bar c n).waits.find? fun w => w.elem == e && w.slot == k) = some w → w.due = some s.cycle → w.place < 16 →
      s.roomFor e w.place = true →
      ∃ s', exec (.firingCompletion e k) s = .next s' ∧ s'.slot e k = none ∧
        (s'.bar c n).waits = (s.bar c n).waits.filter (fun w => !(w.elem == e && w.slot == k)) ∧
        (let r : Res := ⟨.n32, false, [(s.bar c n).ph.toNat], flNone⟩
         (∀ i < 16, (s'.elem e).sreg i = destS r o.d i ((s.elem e).sreg i)) ∧
         vget (s'.elem e).cnt w.place 0 =
           vget (s.elem e).cnt w.place 0 + 1 + BitVec.ofNat 4 ((marksOf (slotTU y) r.nonzero).count w.place))

/-- Barriers, their commands and their flip (R224, R227 to R231, R409, R410). -/
def Obligations.Barriers : Prop :=
  Claims.BarrierCommands ∧ Claims.BarrierFlip

/-! ### Engines -/

/-- A command for an engine that its element may send and its queue of sixteen has room for stands last in that queue, of the partition, as
an entry not yet started, and its slot says so (R220, R234, R554). CPY, FILL, NOTE and QFEN go to the cluster's copy engine; GATH, SCAT,
STASH, UNSTASH, PIMAB, PIMLD and PIMRD to the stack their address translates to; RCOPY, RZERO, PIMMAC and COLL ask for a forced cut
first (R369). -/
def Claims.EngineCommands : Prop :=
  ∀ (s : State) (t : TU) (o : FmtE) (f : Firing) (k : Nat), ReadyIn s t f k →
    (let c := coreOf f.e
     let p := s.partOf f.e
     let queued (s s' : State) (g : Nat) (i : Instr) : Prop :=
       Quiet s s' f.e ∧
       (∃ z, s'.equeue g o.eq.toNat = s.equeue g o.eq.toNat ++ [z] ∧ z.id = s.nextId ∧ z.elem = f.e ∧ z.slot = k ∧ z.stage = 0 ∧
         z.held = false ∧ z.reg = (s.regionOf f.e).getD 0) ∧
       s'.nextId = s.nextId + 1 ∧ ∃ y, s'.slot f.e k = some y ∧ y.ins = i ∧ y.stage = 1 ∧ y.st = .engine ∧ y.seq = f.seq
     let waits (s' : State) (i : Instr) : Prop :=
       Quiet s s' f.e ∧ s'.engines = s.engines ∧ (∃ y, s'.slot f.e k = some y ∧ y.ins = i ∧ y.stage = 0 ∧ y.cut = 1) ∧
       ∀ n r, s.regionOf f.e = some n → s.region n = some r → s'.region n = some { r with cutReq := true }
     let room (g : Nat) : Prop := (s.equeue g o.eq.toNat).length < 16
     let ga := (groupOf f.x o.a).toNat
     let z := pairOf f.x o.a
     let stack (va : Nat) (a : Access) (l : Loc) : Prop := s.resolve c p va a = .ok l ∧ l.space = .dev
     (let g := engineKey p .copy (clusterOf c)
      (room g → (∀ y : Slot, y.opc = groupOf f.x o.c → noteBad o y = none) → ∃ s', exec (.cpy t o) s = .next s' ∧ queued s s' g (.cpy t o)) ∧
      (room g → (∀ y : Slot, y.opa = groupOf f.x o.a → y.opb = word512 (wordOf f.x o.b) → y.opc = groupOf f.x o.c → fillBad o y = none) →
        ∃ s', exec (.fill t o) s = .next s' ∧ queued s s' g (.fill t o)) ∧
      (room g → ga % 4 = 0 → ∃ s', exec (.note t o) s = .next s' ∧ queued s s' g (.note t o)) ∧
      (room g → ∃ s', exec (.qfen t o) s = .next s' ∧ queued s s' g (.qfen t o))) ∧
     (∀ l, stack (ga / 2 ^ 64 % 2 ^ 64) .gathRead l → room (engineKey p .ind l.stack) →
       (∀ y : Slot, y.opa = groupOf f.x o.a → y.opc = groupOf f.x o.c → indBad o y = none) →
       (∃ s', exec (.gath t o) s = .next s' ∧ queued s s' (engineKey p .ind l.stack) (.gath t o)) ∧
       ∃ s', exec (.scat t o) s = .next s' ∧ queued s s' (engineKey p .ind l.stack) (.scat t o)) ∧
     (∀ l, stack z .stashWrite l → room (engineKey p .codec l.stack) →
       (∀ y : Slot, y.opa = word512 z → y.opb = word512 (pairOf f.x o.b) → y.opc = groupOf f.x o.c → stashBad o false y = none) →
       ∃ s', exec (.stash t o) s = .next s' ∧ queued s s' (engineKey p .codec l.stack) (.stash t o)) ∧
     (let w := if stashMem o then groupOf f.x o.a else word512 z
      ∀ l, stack (w.toNat % 2 ^ 64) .stashRead l → room (engineKey p .codec l.stack) →
       (∀ y : Slot, y.opa = w → y.opb = word512 (pairOf f.x o.b) → y.opc = groupOf f.x o.c → stashBad o (stashMem o) y = none) →
       ∃ s', exec (.unstash t o) s = .next s' ∧ queued s s' (engineKey p .codec l.stack) (.unstash t o)) ∧
     (∀ l, stack z .nativeRead l → room (engineKey p .mac l.stack) →
       (∀ q ∈ ([.pimabEnter, .pimabLeave, .pimld] : List (TU → FmtE → Instr)),
         ∃ s', exec (q t o) s = .next s' ∧ queued s s' (engineKey p .mac l.stack) (q t o)) ∧
       ∃ s', exec (.pimrd t o) s = .next s' ∧ queued s s' (engineKey p .mac l.stack) (.pimrd t o)) ∧
     (∀ l, stack z .nativeRead l → z / 2 ^ 10 % 16 = 0 → z % 32 = 0 → ∃ s', exec (.pimmac t o) s = .next s' ∧ waits s' (.pimmac t o)) ∧
     (∀ l, stack (ga % 2 ^ 64) .nativeWrite l → (∀ y : Slot, y.opa = groupOf f.x o.a → y.opc = groupOf f.x o.c → rowBad o true y = none) →
       ∃ s', exec (.rcopy t o) s = .next s' ∧ waits s' (.rcopy t o)) ∧
     (∀ l, stack z .nativeWrite l → (∀ y : Slot, y.opa = word512 z → y.opc = groupOf f.x o.c → rowBad o false y = none) →
       ∃ s', exec (.rzero t o) s = .next s' ∧ waits s' (.rzero t o)) ∧
     ((∀ y : Slot, y.opa = groupOf f.x o.a → y.opb = groupOf f.x o.b → y.opc = groupOf f.x o.c → collBad o y = none) →
       ∃ s', exec (.coll t o) s = .next s' ∧ waits s' (.coll t o)))

/-- A command that waited in its slot for its forced cut enters its queue when it comes to it again (R220, R369). -/
def Claims.QueueEntry : Prop :=
  ∀ (s : State) (e k : Nat) (y : Slot) (t : TU) (o : FmtE) (l : Loc), k < 8 → s.slot e k = some y → y.stage = 0 → y.held = false →
    s.runs e = true → s.firstOf e y (fun i => engineOf i == some .row) = true → s.fenced e y (fenceNeed e .row l.stack) = false →
    y.ins = .rcopy t o → y.cut = 2 → rowBad o true y = none → s.resolve (coreOf e) (s.partOf e) (copyDst y) .nativeWrite = .ok l →
    l.space = .dev →
    (let g := engineKey (s.partOf e) .row l.stack
     ((s.equeue g o.eq.toNat).length < 16 → ∃ s', exec (.engineQueueEntry e k) s = .next s' ∧ Quiet s s' e ∧
       (∃ z, s'.equeue g o.eq.toNat = s.equeue g o.eq.toNat ++ [z] ∧ z.elem = e ∧ z.slot = k ∧ z.stage = 0 ∧ z.cut = 2) ∧
       s'.slot e k = some { y with stage := 1 }) ∧
     (16 ≤ (s.equeue g o.eq.toNat).length → ∃ s', exec (.engineQueueEntry e k) s = .next s' ∧ Quiet s s' e ∧
       s'.engines = s.engines ∧ s'.slot e k = some y))

/-- Commands enter the queues of their engines (R220, R234, R369, R554). -/
def Obligations.EngineQueues : Prop :=
  Claims.EngineCommands ∧ Claims.QueueEntry

/-- A copy engine moves the next chunk of at most 64 KiB of a CPY, or of the pattern of a FILL: exactly those bytes of the destination change,
PROG counts them, and the last chunk of a command without a notify lets its firing complete with its count (R236 to R240). -/
def Obligations.CopyChunks : Prop :=
  ∀ (s : State) (g q : Nat) (e : Entry) (y : Slot) (t : TU) (o : FmtE) (l : Loc), engineKindOf g = .copy → Served s g q e y →
    (s.tlbOf (coreOf e.elem)).length ≤ 1000 →
    (let n := countOf y
     let m := min 65536 (n - y.prog)
     let dst := (copyDst y + y.prog) % 2 ^ 64
     let src := (copySrc y + y.prog) % 2 ^ 64
     let c := coreOf e.elem
     let after (s' : State) (bs : List Byte) : Prop :=
       Stored s.mem s'.mem l.addr bs ∧ s'.hostMem = s.hostMem ∧ s'.peerMem = s.peerMem ∧
       (y.prog + m < n → Served.Goes s' g q e (y.prog + m)) ∧
       (n ≤ y.prog + m → o.ntf.toNat % 2 = 0 → Served.Done s s' g q e y n)
     ∀ ds, y.prog < n → s.resolveRun c (s.partOf e.elem) dst m .copyWrite = .ok ds → PlainRun s ds l m →
       s.runFull (s.writer e.elem) ds = false →
       (∀ rs, y.ins = .cpy t o → s.resolveRun c (s.partOf e.elem) src m .copyRead = .ok rs → (s.readRun src rs).length = m →
         ∃ s', exec (.copyChunk g q) s = .next s' ∧ after s' (s.readRun src rs)) ∧
       (y.ins = .fill t o → ∃ s', exec (.copyChunk g q) s = .next s' ∧
         after s' ((List.range m).map fun i => BitVec.ofNat 8 (copySrc y % 2 ^ 32 / 2 ^ (8 * (i % 4))))))

/-- A sequencer zeroes or copies the next row of 1 KiB to the place it translated to when its group of at most sixteen was sent, after every row
of the group has been found good; a row that translates to another stack raises STK and nothing is written (R244, R245, R248). -/
def Obligations.RowTransfers : Prop :=
  ∀ (s : State) (g q : Nat) (e : Entry) (y : Slot) (t : TU) (o : FmtE), engineKindOf g = .row → Served s g q e y → y.prog % 1024 = 0 →
    (let n := countOf y
     let i := y.prog / 1024
     let group (copy : Bool) : Except (Option (Nat × Nat)) (List RowPlan) :=
       if e.plan = [] then
         s.groupPlan (coreOf e.elem) (s.partOf e.elem) (g % 64) (copyDst y) (copySrc y) copy i (min (16 - i % 16) (n - i))
       else .ok e.plan
     let after (s' : State) (l : Loc) (rest : List RowPlan) (bs : List Byte) : Prop :=
       Stored s.mem s'.mem l.addr bs ∧ s'.hostMem = s.hostMem ∧ s'.peerMem = s.peerMem ∧
       (i + 1 < n → Served.Goes s' g q e (y.prog + 1024) ∧ (s'.equeue g q).head?.map Entry.plan = some rest) ∧
       (n ≤ i + 1 → o.ntf.toNat % 2 = 0 → Served.Done s s' g q e y n)
     i < n →
       (∀ r rest l, y.ins = .rzero t o → group false = .ok (r :: rest) → r.dst = some l → r.src = none → s.Clear (fun _ => 0) l.addr 1024 →
         ∃ s', exec (.rowTransfer g q) s = .next s' ∧ after s' l rest (List.replicate 1024 0)) ∧
       (∀ r rest l m, y.ins = .rcopy t o → group true = .ok (r :: rest) → r.dst = some l → r.src = some m → m.addr ≠ l.addr →
         s.Clear (fun _ => 0) l.addr 1024 → s.Clear (fun _ => 0) m.addr 1024 →
         ∃ s', exec (.rowTransfer g q) s = .next s' ∧ after s' l rest (Memory.read s.mem m.addr 1024)) ∧
       (∀ va, y.ins = .rzero t o → group false = .error (some (0x10, va)) →
         ∃ s', exec (.rowTransfer g q) s = .next s' ∧ s'.mem = s.mem ∧
           ∃ r ∈ s'.pend, r.at_ = .entry g q e.id ∧ r.frec.code = 0x10 ∧ r.frec.src = 2))

/-- Bank MAC: an enter takes a free pseudo-channel with X and accumulators zero and is held off by another holder, a leave by the holder frees
it, PIMLD writes one X, PIMMAC adds one product to every lane of every bank's accumulator, PIMRD forms its sixteen tokens; PIMLD, PIMMAC and PIMRD of
another than the holder raise PIM (R252 to R259, R487). -/
def Obligations.BankMac : Prop :=
  ∀ (s : State) (g q : Nat) (e : Entry) (y : Slot) (t : TU) (o : FmtE) (l : Loc), engineKindOf g = .mac → Served s g q e y →
    s.resolve (coreOf e.elem) (s.partOf e.elem) (copyDst y) .nativeRead = .ok l →
    (let key := nativePc l.leaf
     let p := s.pchan key
     let c := y.opc.toNat
     (y.ins = .pimabEnter t o → (p.mode = false ∨ p.holder = some e.reg) → ∃ s', exec (.bankMacPerform g q) s = .next s' ∧
       s'.pchan key = ⟨true, some e.reg, Vector.replicate 16 0, []⟩ ∧ Served.Done s s' g q e y 1) ∧
     (y.ins = .pimabEnter t o → p.mode = true → p.holder ≠ some e.reg → ∃ s', exec (.bankMacPerform g q) s = .next s' ∧
       s'.pchans = s.pchans ∧ s'.equeue g q = s.equeue g q) ∧
     (y.ins = .pimabLeave t o → p.holder = some e.reg → ∃ s', exec (.bankMacPerform g q) s = .next s' ∧ s'.pchan key = PChan.reset ∧
       Served.Done s s' g q e y 1) ∧
     (y.ins = .pimabLeave t o → p.holder ≠ some e.reg → ∃ s', exec (.bankMacPerform g q) s = .next s' ∧ s'.pchans = s.pchans ∧
       Served.Done s s' g q e y 0) ∧
     (y.ins = .pimld t o → p.holder = some e.reg → ∃ s', exec (.bankMacPerform g q) s = .next s' ∧
       s'.pchan key = { p with xs := vset p.xs (c % 16) (BitVec.ofNat 256 y.opb.toNat) } ∧ Served.Done s s' g q e y 16) ∧
     (y.ins = .pimmac t o → p.holder = some e.reg → ∃ s', exec (.bankMacPerform g q) s = .next s' ∧
       Served.Done s s' g q e y 16 ∧ (s'.pchan key).xs = p.xs ∧
       ∀ b < 16, ∀ j < 4, (s'.pchan key).accOf b j =
         if j = c / 16 % 4 then macBank s l.leaf (copyDst y) (word512 (vget p.xs (c % 16) 0).toNat) (p.accOf b j) b else p.accOf b j) ∧
     (y.ins = .pimrd t o → y.stage ≠ 2 → p.holder = some e.reg → p.acc.Pairwise (fun a b => a.1 < b.1) → ∃ s', exec (.bankMacPerform g q) s = .next s' ∧
       (s'.pchan key).xs = p.xs ∧ s'.flight.length = s.flight.length ∧
       ∀ b < 16, ∀ j < 4, (s'.pchan key).accOf b j = if o.imm.toNat / 128 % 2 = 1 ∧ j = c % 4 then 0 else p.accOf b j) ∧
     ((y.ins = .pimld t o ∨ y.ins = .pimmac t o ∨ (y.ins = .pimrd t o ∧ y.stage ≠ 2)) → p.holder ≠ some e.reg →
       ∃ s', exec (.bankMacPerform g q) s = .next s' ∧ s'.pchans = s.pchans ∧
         ∃ r ∈ s'.pend, r.at_ = .entry g q e.id ∧ r.frec.code = 0x12 ∧ r.frec.addr = BitVec.ofNat 64 (copyDst y)))

/-- A GATH reads the index of a token of its choice, and in another turn the 64 bytes of the row it names, and its port delivers rows in
ascending order; a SCAT takes on the row that its next token's index names, and in another turn writes the token there and nowhere else
(R266 to R268). -/
def Obligations.IndirectRows : Prop :=
  ∀ (s : State) (g q : Nat) (e : Entry) (y : Slot) (t : TU) (o : FmtE) (p : Port), Served s g q e y →
    s.port (coreOf e.elem) (o.imm.toNat % 8) = some p → p.cmd = some (e.elem, e.slot) →
    (let c := coreOf e.elem
     let b := 256 + g % 64
     let w := s.partOf e.elem
     let n := countOf y
     let row (j : Nat) (xs : List (Loc × Nat)) : Nat :=
       let i := natLE (s.readRun ((copySrc y + 4 * j) % 2 ^ 64) xs)
       offsetAdd 64 (copyDst y) ((if o.ty = .s32 then sxInt i 32 else (i : Int)) * ((64 * 2 ^ (o.imm.toNat / 8 % 8) : Nat) : Int))
     let index (j : Nat) (xs : List (Loc × Nat)) : Prop :=
       s.resolveRun b w ((copySrc y + 4 * j) % 2 ^ 64) 4 .gathRead = .ok xs ∧ (xs.all fun x => x.1.stack / 3 == g % 64 / 3) = true
     let head (s' : State) (z : Entry) : Prop := (s'.equeue g q).head? = some z
     let todo := ((List.range (n - p.cursor)).map (p.cursor + ·)).filter fun j => ((e.row j).bind RowPlan.tok).isNone
     (∀ j, y.ins = .gath t o → y.stage ≠ 2 → p.cursor < n → e.part = j + 1 ∨ (e.part = 0 ∧ todo = [j]) →
       (∀ xs, e.row j = none → index j xs → ∃ s', exec (.gathRow g q) s = .next s' ∧ s'.mem = s.mem ∧
         s'.port c (o.imm.toNat % 8) = some p ∧ head s' { e with part := 0, plan := e.plan ++ [⟨j, row j xs, none, none, none, false⟩] }) ∧
       (∀ r rs, e.plan = [r] → r.j = j → s.resolveRun b w r.addr 64 .gathRead = .ok rs →
         (let tok := dataTok (word512 (natLE (s.readRun r.addr rs))) 0
          ∃ s', exec (.gathRow g q) s = .next s' ∧ s'.mem = s.mem ∧
            (j = p.cursor → s'.port c (o.imm.toNat % 8) = some { p with cursor := p.cursor + 1, ahead := p.ahead ++ [tok] } ∧
              head s' { e with part := 0, plan := [] }) ∧
            (j ≠ p.cursor → s'.port c (o.imm.toNat % 8) = some p ∧ head s' { e with part := 0, plan := [{ r with tok := some tok }] })))) ∧
     (∀ xs h hs, y.ins = .scat t o → y.prog < n → e.full ≠ 2 → e.plan = [] → p.heldq = h :: hs → h.kind = .data → index y.prog xs →
       ∃ s', exec (.scatRow g q) s = .next s' ∧ s'.mem = s.mem ∧ s'.port c (o.imm.toNat % 8) = some { p with heldq := [] } ∧
         head s' { e with plan := [⟨y.prog, row y.prog xs, none, none, some h, false⟩] }) ∧
     ∀ r h rs l, y.ins = .scat t o → y.prog < n → n = y.prog + 1 ∨ (p.heldq = [] ∧ p.waitq = []) → e.plan = [r] → r.done = false →
       r.tok = some h → s.resolveRun b w r.addr 64 .scatWrite = .ok rs → PlainRun s rs l 64 → s.runFull (s.writer e.elem) rs = false →
       ∃ s', exec (.scatRow g q) s = .next s' ∧ Stored s.mem s'.mem l.addr (bytesLE 64 h.pay.toNat) ∧
         Served.Goes s' g q e (y.prog + 1) ∧ (s'.equeue g q).head?.map Entry.plan = some [])

/-- A STASH takes the next token of its port until it holds its chunk, and then writes the blocks of it; an UNSTASH to memory decodes its next
chunk and writes its values; poison sets STP of the region (R309 to R313, R317, R318). -/
def Obligations.StashChunks : Prop :=
  ∀ (s : State) (g q : Nat) (e : Entry) (y : Slot) (t : TU) (o : FmtE) (p : Port) (l : Loc), Served s g q e y →
    (let c := coreOf e.elem
     let bb := codeBytes (stashC3 o)
     let b := y.prog / bb
     let want := min (32 * (b + 16)) (stashN y) - 32 * b
     let vals := heldValues o.ty p.heldq
     (y.ins = .stash t o → s.port c (stashPort o) = some p → p.cmd = some (e.elem, e.slot) →
       (∀ h w, vals.length < want → p.waitq = h :: w → h.kind = .data →
         ∃ s', exec (.stashChunk g q) s = .next s' ∧ s'.mem = s.mem ∧
           s'.port c (stashPort o) = some { p with waitq := w, heldq := p.heldq ++ [h] }) ∧
       (∀ ls, want ≤ vals.length → 0 < want → b + 16 < stashBlocks y →
         (let rs := (blocksOf (vals.take want) 16).map (encodeBlock (stashC3 o) o.ty)
          let bytes := rs.flatMap fun r => bytesLE bb r.1
          s.resolveRun c (s.partOf e.elem) (copyDst y + y.prog) bytes.length .stashWrite = .ok ls → ls = [(l, bytes.length)] →
            l.stack = g % 64 → s.Clear s.keyTag l.addr bytes.length →
            ∃ s', exec (.stashChunk g q) s = .next s' ∧ Stored s.mem s'.mem l.addr bytes ∧
              Served.Goes s' g q e (y.prog + bytes.length) ∧ s'.port c (stashPort o) = some { p with heldq := [] } ∧
              ∀ r, s.region e.reg = some r → (s'.region e.reg).map Region.stp = some (r.stp || rs.any Prod.snd)))) ∧
     (∀ ss ds z, y.ins = .unstash t o → (s.tlbOf c).length ≤ 1000 → stashMem o = true → y.prog < stashN y * tyBytes o.ty → e.buf = [] →
       (let u := tyBytes o.ty
        let b := y.prog / (32 * u)
        let nb := min 16 (stashBlocks y - b)
        let va := (copySrc y + y.prog) % 2 ^ 64
        s.resolveRun c (s.partOf e.elem) (copyDst y + b * bb) (nb * bb) .stashRead = .ok ss → (∀ x ∈ ss, x.1.stack = g % 64) →
          (let v := decodeBytes o (s.readRun (copyDst y + b * bb) ss) nb
           let bytes := (v.1.take (stashN y - 32 * b)).flatMap fun v => bytesLE u v
           va % 65536 + bytes.length ≤ 65536 → s.resolveRun c (s.partOf e.elem) va bytes.length .unstashWrite = .ok ds →
           PlainRun s ds z bytes.length → s.runFull (s.writer e.elem) ds = false → y.prog + bytes.length < stashN y * u →
           ∃ s', exec (.unstashChunk g q) s = .next s' ∧ Stored s.mem s'.mem z.addr bytes ∧
             Served.Goes s' g q e (y.prog + bytes.length) ∧
             ∀ r, s.region e.reg = some r → (s'.region e.reg).map Region.stp = some (r.stp || v.2)))))

/-- A collective of two or more ranks whose group's commands of its number have come from every peer, agree with it and have sent their sources,
and whose destination and source do not overlap but for an all-reduce in place, writes the next 64 KiB of its result, the sources taken in rank
order, and exactly there. It writes nothing while a peer's command has another number of the group; a command that does not agree with rank 0's,
and a descriptor whose rank is not below its count, raise MIX (R395, R430 to R433). -/
def Obligations.Collectives : Prop :=
  ∀ (s : State) (g q : Nat) (e : Entry) (y : Slot) (t : TU) (o : FmtE) (l : Loc) (peers : List PeerColl), Served s g q e y →
    y.ins = .coll t o → 0 < collN y → s.tlbOf (coreOf e.elem) = [] → s.pinned = [] →
    (let c := coreOf e.elem
     let w := s.partOf e.elem
     let mix (s' : State) : Prop := s'.mem = s.mem ∧ ∃ r ∈ s'.pend, r.at_ = .entry g q e.id ∧ r.frec.code = 0x08
     ∀ hs, s.resolveRun c w (collDesc y) 16 .collRead = .ok hs →
       (let h := s.readRun (collDesc y) hs
        let nr := natLE (h.take 4)
        let rank := natLE ((h.drop 4).take 4)
        let gid := natLE ((h.drop 8).take 4)
        let num := e.num.getD (SMap.get 0 gid s.colls)
        let agrees (p : PeerColl) : Prop := p.kind = collKind o ∧ p.rop = collRop o ∧ p.ty = o.ty ∧ p.n = collN y
        (nr ≤ rank → ∃ s', exec (.collMatch g q peers) s = .next s' ∧ mix s') ∧
        ∀ ms, 2 ≤ nr → nr ≤ 16384 → rank < nr → s.resolveRun c w (collDesc y + 16) (2 * nr) .collRead = .ok ms →
          (let mb := s.readRun (collDesc y + 16) ms
           let gr : Group := ⟨nr, rank, gid, (List.range nr).map fun i => natLE ((mb.drop (2 * i)).take 2)⟩
           let total := collTotal o y gr
           let need := collSource o y gr
           let m := min 65536 (total - y.prog)
           let dst := (copyDst y + y.prog) % 2 ^ 64
           (∀ i ∈ gr.mods, i < 16384) → (∀ i ∈ gr.mods.eraseIdx rank, SMap.get 15 i s.wrt ≠ 15) → peers.length + 1 = nr →
           ((∃ p ∈ peers, p.gid ≠ gid ∨ p.num ≠ num) → ∃ s', exec (.collMatch g q peers) s = .next s' ∧ s'.mem = s.mem ∧ s'.pend = s.pend) ∧
           ((∀ p ∈ peers, p.gid = gid ∧ p.num = num) →
             (rank ≠ 0 → (∃ p, peers.head? = some p ∧ ¬ agrees p) → ∃ s', exec (.collMatch g q peers) s = .next s' ∧ mix s') ∧
             ∀ ss ds, (∀ p ∈ peers, agrees p ∧ p.bytes.length = need) →
               s.canSend (if y.prog = 0 then ((gr.mods.eraseIdx rank).filter fun i => i != Config.moduleNumber.toNat).map fun i => (i, need) else []) =
                 true →
               s.resolveRun c w (copySrc y) need .collRead = .ok ss →
               s.resolveRun c w dst m .unstashWrite = .ok ds → PlainRun s ds l m → s.runFull (s.writer e.elem) ds = false →
               y.prog < total → collApart o y gr ds ss = true →
               (let sent := peers.map PeerColl.bytes
                let bytes := collResult o y gr s.free y.prog m (sent.take rank ++ s.readRun (copySrc y) ss :: sent.drop rank)
                bytes.length = m →
                ∃ s', exec (.collMatch g q peers) s = .next s' ∧ Stored s.mem s'.mem l.addr bytes ∧
                  (y.prog + m < total → Served.Goes s' g q e (y.prog + m)) ∧
                  (total ≤ y.prog + m → o.ntf.toNat % 2 = 0 → Served.Done s s' g q e y total))))))

/-! ### Ports -/

/-- A stream port command reaches its port a cycle after its issue, and not before. SOPEN opens a closed port on its indices and is held off by an
open window; SPARM sets base, stride or shape of the windows to come, or AUTO; SREC reads a field; SCLOSE of a closed port returns 0, waits for what an out port has taken
and closes it with the count of what it has written, and makes an in port send EOS, behind a SECT that is due (R97, R503, R512 to R516). -/
def Claims.PortCommandsTaken : Prop :=
  ∀ (s : State) (e k : Nat) (y : Slot) (t : TU) (o : FmtE) (p : Port), k < 8 → s.slot e k = some y → y.stage = 0 → y.held = false →
    y.sub = 0 → s.runs e = true → s.edgesMet e y = true → s.port (coreOf e) (o.imm.toNat % 8) = some p →
    (∀ j < 8, ∀ z, s.slot e j = some z → s.portBefore e p z y = false) →
    (let c := coreOf e
     let n := o.imm.toNat % 8
     let x := y.opa.toNat % 2 ^ 32
     let v := y.opb.toNat % 2 ^ 32
     let put (s' : State) (q : Port) : Prop := s'.port c n = some q ∧ (∀ j, j ≠ n → s'.port c j = s.port c j) ∧ Quiet s s' e
     (s.sentBefore e y = false → isPortOp y.ins = true → choose (.perform e k) s = .next s) ∧
     (s.sentBefore e y = true →
       (y.ins = .sopen t o → p.open_ = false → ∃ s', choose (.perform e k) s = .next s' ∧
         put s' { p with
           wbase := p.base, wstride := p.stride, wtsrx := p.tsrx, open_ := true, bySopen := true, wfst := BitVec.ofNat 64 x, wcnt := v, cursor := 0, next := 0, count := 0, ahead := []
           due := if p.out = false ∧ v = 0 then [Token.bare .eos p.ctl 0] else [] } ∧
         Performed s' e k (.sopen t o) (word512 v)) ∧
       (y.ins = .sopen t o → p.open_ = true → choose (.perform e k) s = .next s) ∧
       (y.ins = .sparm t o → o.imm.toNat / 8 % 8 = 0 → ∃ s', choose (.perform e k) s = .next s' ∧
         put s' { p with base := BitVec.ofNat 64 y.opa.toNat } ∧ Performed s' e k (.sparm t o) 1) ∧
       (y.ins = .sparm t o → o.imm.toNat / 8 % 8 = 1 → ∃ s', choose (.perform e k) s = .next s' ∧
         put s' { p with stride := BitVec.ofNat 32 x } ∧ Performed s' e k (.sparm t o) 1) ∧
       (∀ r, y.ins = .sparm t o → s.regOf e = some r → o.imm.toNat / 8 % 8 = 2 →
         (let known := r.tsr.any fun z => z.1 == x % 256
          ∃ s', choose (.perform e k) s = .next s' ∧ put s' { p with tsrx := if known then x % 256 else 255 } ∧
            Performed s' e k (.sparm t o) (if known then 1 else 0))) ∧
       (y.ins = .sparm t o → o.imm.toNat / 8 % 8 = 3 → ∃ s', choose (.perform e k) s = .next s' ∧ put s' { p with auto := x % 2 == 1 } ∧
         Performed s' e k (.sparm t o) 1) ∧
       (∀ g ∈ ([(0, p.count % 2 ^ 32), (1, p.wcnt % 2 ^ 32),
           (2, p.open_.toNat + 2 * p.out.toNat + 4 * p.indirect.toNat + 8 * p.held.toNat + 16 * p.discard.toNat + 32 * p.auto.toNat),
           (4, p.base.toNat), (5, p.stride.toNat), (6, p.disc % 2 ^ 32)] : List (Nat × Nat)),
         y.ins = .srec t o → o.imm.toNat / 8 % 8 = g.1 →
         ∃ s', choose (.perform e k) s = .next s' ∧ put s' p ∧ Performed s' e k (.srec t o) (word512 g.2)) ∧
       (let j := if p.out then p.next else p.cursor
        y.ins = .srec t o → p.open_ = true → p.indirect = false → j < p.wcnt → o.imm.toNat / 8 % 8 = 3 →
        ∃ s', choose (.perform e k) s = .next s' ∧ put s' p ∧
          Performed s' e k (.srec t o) (word512 (min (p.addr j) (p.addr (p.wcnt - 1))))) ∧
       (y.ins = .sclose t o → p.open_ = false → ∃ s', choose (.perform e k) s = .next s' ∧ put s' p ∧ Performed s' e k (.sclose t o) 0) ∧
       (y.ins = .sclose t o → p.open_ = true → p.busy = true → ∃ s', choose (.perform e k) s = .next s' ∧ put s' p ∧
         ∃ z, s'.slot e k = some z ∧ z.stage = 0) ∧
       (y.ins = .sclose t o → p.open_ = true → p.out = true → p.busy = false → ∃ s', choose (.perform e k) s = .next s' ∧
         put s' { p with open_ := false, discard := true } ∧ Performed s' e k (.sclose t o) (word512 p.count)) ∧
       (y.ins = .sclose t o → p.open_ = true → p.out = false → p.owesSect = true → ∃ s', choose (.perform e k) s = .next s' ∧
         put s' { p with ahead := [], due := p.due.filter fun m => m.kind == .sect, cursor := p.wcnt } ∧
         s'.slot e k = some { y with sub := 1 }) ∧
       (y.ins = .sclose t o → p.open_ = true → p.out = false → p.owesSect = false → ∃ s', choose (.perform e k) s = .next s' ∧
         put s' { p with ahead := [], due := [], held := false, open_ := false, cursor := p.next } ∧
         (∃ z, s'.flight = s.flight ++ [z] ∧ z.dst = .queue (c * 64 + p.exy) p.vc ∧ z.toks = [Token.bare .eos p.ctl 0]) ∧
         ∃ z, s'.slot e k = some z ∧ z.stage = 1 ∧ z.lres = word512 p.count)))

/-- RFEN waits for out ports of its mask with tokens taken and not written, and drops what in ports of it have read ahead; those read nothing from
then on until it completes (R503, R505). -/
def Claims.PortFence : Prop :=
  ∀ (s : State) (t : TU) (o : FmtE) (f : Firing) (k : Nat), ReadyIn s t f k →
    (let c := coreOf f.e
     let busy := ∃ j q, o.imm.toNat.testBit j = true ∧ j < 8 ∧ s.port c j = some q ∧ q.busy = true
     ∃ s', exec (.rfen t o) s = .next s' ∧ Quiet s s' f.e ∧
       (¬ busy → Performed s' f.e k (.rfen t o) (word512 (o.imm.toNat % 256))) ∧
       (busy → ∃ y, s'.slot f.e k = some y ∧ y.stage = 0) ∧
       ∀ j < 8, ∀ q, s.port c j = some q →
         s'.port c j = some (if o.imm.toNat.testBit j && !q.out then { q with ahead := [], cursor := q.next } else q) ∧
           (o.imm.toNat.testBit j = true → s'.fencing c j = true ∧ (q.out = false → exec (.portTokenRead c j) s' = .next s')))

/-- SOPEN, SCLOSE, SPARM, SREC and RFEN at their ports (R503, R505, R512 to R516). -/
def Obligations.PortCommands : Prop :=
  Claims.PortCommandsTaken ∧ Claims.PortFence

/-- An in port reads the next token of its open window from base + (first + j) × stride and delivers it to its queue, with the markers due after
it following; an out port writes a DATA token to such an address, ends its window at EOS and drops tokens while it discards (R96, R97, R513,
R514). -/
def Obligations.PortTokens : Prop :=
  ∀ (s : State) (c k rn : Nat) (p : Port) (r : Region), k < 8 → s.port c k = some p → p.reg = rn → s.region rn = some r →
    r.phase = .running → p.held = false → p.tailed = false →
    (let a (j : Nat) : Nat := offsetAdd 64 p.wbase.toNat (((p.wfst.toNat + j : Nat) : Int) * p.wstride.toInt)
     let n (ctl : Bool) : Nat := if ctl then tyBytes p.ty else 64
     (∀ ls, p.out = false → p.open_ = true → p.ind = false → s.fencing c k = false → p.cursor < p.wcnt →
       s.resolveRun c r.part (a p.cursor) (n p.ctl) .load = .ok ls →
       ∃ s', exec (.portTokenRead c k) s = .next s' ∧ s'.mem = s.mem ∧ s'.port c k = some { p with
         cursor := p.cursor + 1, ahead := p.ahead ++ [p.token (s.readRun (a p.cursor) ls)] }) ∧
     (∀ u us, p.out = false → p.due = [] → p.ahead = u :: us → r.drain = false → p.cmd = none →
       s.portClear c k = true →
       ∃ s', exec (.tokenInjection (2 ^ 20 + 8 * c + k) true) s = .next s' ∧
         s'.port c k = some { p with
           ahead := us, next := p.next + 1, count := p.count + 1
           due := (markersAfter p r.secK (shapeRec r p.wtsrx) p.next).map fun m => Token.bare m p.ctl 0 } ∧
         ∃ z, s'.flight = s.flight ++ [z] ∧ z.toks = [u] ∧ z.dst = .queue (c * 64 + p.exy) p.vc ∧ z.src = portSrc c k) ∧
     (∀ u us ls l, p.out = true → p.waitq = u :: us → u.kind = .data → p.ind = false → p.discard = false → p.open_ = true →
       (p.bySopen = true → p.next < p.wcnt) →
       s.resolveRun c r.part (a p.next) (n u.ctl) .portWrite = .ok ls → PlainRun s ls l (n u.ctl) →
       s.runFull (s.portWriter c k p) ls = false →
       ∃ s', exec (.portTokenWrite c k) s = .next s' ∧ Stored s.mem s'.mem l.addr (outBytes p u) ∧
         s'.port c k = some { p with waitq := us, next := p.next + 1, cursor := p.next + 1, count := p.count + 1, cut := 0, full := 0 }) ∧
     (∀ u us, p.out = true → p.waitq = u :: us → u.kind = .eos → p.ind = false → p.discard = false → p.open_ = true →
       ∃ s', exec (.portTokenWrite c k) s = .next s' ∧ s'.mem = s.mem ∧ s'.port c k = some { p with waitq := us, open_ := false }) ∧
     ∀ u us, p.out = true → p.waitq = u :: us → u.kind = .data → p.ind = false → p.discard = true →
       ∃ s', exec (.portTokenWrite c k) s = .next s' ∧ s'.mem = s.mem ∧ s'.port c k = some { p with waitq := us, disc := p.disc + 1 })

/-! ### Tokens -/

/-- An element sends the oldest token of a plane over the first link towards the destination its label's route names, when that link is free,
its input has room and it is the turn of its VC there; a token that has had its transit and that nothing holds back enters its queue, last, in a slot of its plane, and
without a slot it waits; a CFG token that stands at the head of a queue as the cycle begins is applied, or raises PRM, but for one at an MXC
queue (R124 to R135, R380, R475). -/
def Obligations.TokenTransport : Prop :=
  (∀ (s : State) (e st : Nat) (ctl : Bool) (o : OutTok) (rest : List (Nat × OutTok)) (rt : Route) (r : Region), e < 2 ^ 20 →
    (s.elem e).outOf ctl = (st, o) :: rest → o.tok.kind ≠ .data → o.tok.kind ≠ .eos → (s.view e).outOf ctl ≠ [] →
    (if ctl then (s.elem e).injC else (s.elem e).injD) ≠ s.cycle + 1 → s.netRuns (.queue e 0) = true →
    (s.elem e).route o.label = some rt → s.regOf e = some r → (s.elem e).olderInLane r ctl rt = false →
    (∀ z ∈ s.flight, z.ready = true ∧ z.src ≠ e) →
    (let f := Flight.start e rt.cls (routeDest r rt) [o.tok] .raw s.cycle none
     let n := nextLink e e (routeDest r rt).elem
     s.netRuns (routeDest r rt) = true → s.linkFree n.2.1 ctl = true → s.poolRoom n.2.1 f = true → s.linkTurn e n.2.1 ctl (s.vcOf f) = true →
     ∃ s', exec (.tokenInjection e ctl) s = .next s' ∧ (s'.elem e).outOf ctl = rest ∧ (s'.elem e).outOf (!ctl) = (s.elem e).outOf (!ctl) ∧
       s'.flight = s.flight ++ [{ f with at_ := n.1, link := some n.2.1, due := s.cycle + n.2.2 }] ∧ s'.linkFree n.2.1 ctl = false ∧
       SMap.get 15 (2 * n.2.1 + ctl.toNat) s'.linkVc = s.vcOf f)) ∧
  (∀ (s : State) (n e q : Nat) (z : Flight) (u : Token), q < 32 → s.flight[n]? = some z → z.dst = .queue e q → z.ready = true → z.at_ = e →
    z.toks = [u] → z.cmd = none → u.kind ≠ .sect → u.kind ≠ .mxc → z.landed s.cycle = true → s.netRuns (.queue e q) = true →
    (∀ w ∈ s.flight.take n, sameLane w z = false) → s.heldBack n z = false →
    (let v := u.unpack z.mode
     (∀ b, (s.storage e).slotFor q v = some b → ∃ s', exec (.tokenArrival n) s = .next s' ∧ s'.flight = s.flight.eraseIdx n ∧
       (s'.elem e).queue q = (s.elem e).queue q ++ [{ v with shr := b }] ∧ (∀ p < 32, p ≠ q → (s'.elem e).queue p = (s.elem e).queue p) ∧
       OnlyElem { s with flight := s'.flight, arrived := s'.arrived } s' e) ∧
     ((s.storage e).slotFor q v = none → exec (.tokenArrival n) s = .next s))) ∧
  ∀ (s : State) (e q : Nat) (u : Token) (us : List Token), q < 32 → (s.elem e).queue q = u :: us → s.standing e q = some u →
    u.kind = .cfg → s.runs e = true →
    (s.mxcQueue e q = true → exec (.cfgTokenApply e q) s = .next s) ∧
    (s.mxcQueue e q = false →
     let w := u.pay.toNat % 2 ^ 32
     let v := u.pay.toNat / 2 ^ 32 % 2 ^ 32
     (cfgBad (s.elem e) u = true → ∃ s', exec (.cfgTokenApply e q) s = .next s' ∧ (s'.elem e).queue q = us ∧
       (s'.elem e).chans = (s.elem e).chans ∧ (s'.elem e).s = (s.elem e).s ∧ ∃ f ∈ s'.pend, f.frec.code = 0x0A) ∧
     (cfgBad (s.elem e) u = false → ∃ s', exec (.cfgTokenApply e q) s = .next s' ∧ (s'.elem e).queue q = us ∧ s'.pend = s.pend ∧
       (w / 2 ^ 28 = 1 → (s'.elem e).s = (s.elem e).s ∧
         (vget (s'.elem e).chans (w / 2 ^ 16 % 32) Chan.default).scale = BitVec.ofNat 32 v) ∧
       (w / 2 ^ 28 = 2 → (s'.elem e).chans = (s.elem e).chans ∧
         ∀ i < 16, (s'.elem e).sreg i = if i = w % 16 then BitVec.ofNat 32 v else (s.elem e).sreg i)))

/-! ### Matrix mode -/

/-- MXMODE configures a rectangle, or both parts of a split one, or raises MXF for a bad descriptor; a leave at the node of a quiet rectangle ends it; MXWLD
writes the first VW of its block into the chosen weight register and touches nothing else of it; MXC passes its first word on (R270 to R274, R471 to R477). -/
def Claims.MatrixCommands : Prop :=
  ∀ (s : State) (t : TU) (o : FmtE) (f : Firing) (k rn : Nat) (r : Region), ReadyIn s t f k → s.regionOf f.e = some rn → s.region rn = some r →
    s.regOf f.e = some r →
    (let d := pairOf f.x o.a
     let g := r.gridOf f.e
     (∀ q ∈ ([(.mxmodeEnter, false), (.mxmodeEnterSplit, true)] : List ((TU → FmtE → Instr) × Bool)),
       ((∀ y : Slot, y.opa = word512 d → mxEnterBad s f.e q.2 y = none) →
        (∀ m ∈ mxRects d g q.2, s.regionOf (r.rectElem m 0 0) = some rn) →
        ∃ s', exec (q.1 t o) s = .next s' ∧ s'.region rn = some { r with rects := r.rects ++ mxRects d g q.2 } ∧ s'.mem = s.mem ∧
          Performed s' f.e k (q.1 t o) 1 ∧
          ∀ m ∈ mxRects d g q.2, ∀ e ∈ r.rectElems m, (s'.elem e).inRect = true ∧ (s'.elem e).w1Active = false) ∧
       ((∀ y : Slot, y.opa = word512 d → mxEnterBad s f.e q.2 y = some (0x0D, 0)) →
        ∃ s', exec (q.1 t o) s = .next s' ∧ SlotRaised s s' f k 0 0x0D 0)) ∧
     (r.rects = [] → ∃ s', exec (.mxmodeLeave t o) s = .next s' ∧ Performed s' f.e k (.mxmodeLeave t o) 0 ∧ s'.regions = s.regions) ∧
     (∀ m, r.rects = [m] → s.regions = [(rn, r)] → r.placed = true → m.holds g = true → g = (m.gx, m.gy) → m.quiet s.cycle = true →
       ∃ s', exec (.mxmodeLeave t o) s = .next s' ∧ Performed s' f.e k (.mxmodeLeave t o) 1 ∧ (s'.region rn).map Region.rects = some [] ∧
         ∀ e ∈ r.rectElems m, (s'.elem e).inRect = false) ∧
     (let a := wordOf f.x o.a % 65536
      let n := if o.ty = .l6 then 512 else 256
      let x := s.elem f.e
      o.imm.toNat.testBit 1 = false → r.rects = [] → a % 64 = 0 → a + n ≤ 65536 → PortFree s f.e 64 [a] false →
        ∃ s', exec (.mxwld t o) s = .next s' ∧ Quiet s s' f.e ∧ (∃ y, s'.slot f.e k = some y ∧ y.stage = 0 ∧ y.sub = 1) ∧
          (let w (x : Elem) : BitVec 4096 := if o.imm.toNat.testBit 0 then x.w1 else x.w0
           let u (x : Elem) : BitVec 4096 := if o.imm.toNat.testBit 0 then x.w0 else x.w1
           (w (s'.elem f.e)).toNat % 2 ^ 512 = natLE (Memory.read x.bank a 64) ∧
           (w (s'.elem f.e)).toNat / 2 ^ 512 = (w x).toNat / 2 ^ 512 ∧ u (s'.elem f.e) = u x)) ∧
     ∃ s', exec (.mxc t o) s = .next s' ∧ Quiet s s' f.e ∧ Performed s' f.e k (.mxc t o) (word512 (d % 2 ^ 32)))

/-- An MXWLD goes on by one VW of its block whenever the port of its bank takes it, and the last one completes it with the bytes of the block; the
rest of the register and the other register stand (R273, R477). -/
def Claims.WeightLoads : Prop :=
  ∀ (s : State) (e k : Nat) (y : Slot) (t : TU) (o : FmtE), k < 8 → s.slot e k = some y → y.ins = .mxwld t o → y.stage = 0 → y.held = false →
    s.runs e = true → s.edgesMet e y = true → mxwldBad o y = none → o.imm.toNat.testBit 1 = false → s.rectOf e = none →
    (let n := if o.ty = .l6 then 512 else 256
     let i := y.sub
     let a := y.opa.toNat % 65536 + 64 * i
     let w (x : Elem) : BitVec 4096 := if o.imm.toNat.testBit 0 then x.w1 else x.w0
     let u (x : Elem) : BitVec 4096 := if o.imm.toNat.testBit 0 then x.w0 else x.w1
     let piece (v : BitVec 4096) (j : Nat) : Nat := v.toNat / 2 ^ (512 * j) % 2 ^ 512
     64 * i < n → PortFree s e 64 [a] false →
       ∃ s', choose (.perform e k) s = .next s' ∧ Quiet s s' e ∧ u (s'.elem e) = u (s.elem e) ∧
         (∀ j < 8, piece (w (s'.elem e)) j = if j = i then natLE (Memory.read (s.elem e).bank a 64) else piece (w (s.elem e)) j) ∧
         (64 * i + 64 < n → s'.slot e k = some { y with sub := i + 1 }) ∧ (n ≤ 64 * i + 64 → Performed s' e k y.ins (word512 n)))

/-- An MXC completes with an MXC token of its pair on OL and its first word in D; an MXACC that its bank takes sends its first row and, under CLR,
zeroes exactly that row of the bank (R276, R470, R471). -/
def Claims.MatrixTokens : Prop :=
  (∀ (s : State) (e k : Nat) (y : Slot) (t : TU) (o : FmtE), k < 8 → s.slot e k = some y → s.mayFinish e k y = true → Roomy s e →
    y.ins = .mxc t o →
    ∃ s', exec (.firingCompletion e k) s = .next s' ∧ OnlyElem s s' e ∧ s'.slot e k = none ∧
      (∀ n < 16, (s'.elem e).sreg n = destS ⟨.n32, false, [y.opa.toNat % 2 ^ 32], flNone⟩ o.d n ((s.elem e).sreg n)) ∧
      (s'.elem e).out = (s.elem e).out ++ [((s.elem e).nseq, ⟨(slotTU y).ol.toNat,
        ⟨.mxc, tagOf (slotTU y) y.tagq (s.view e), true, true, word512 (y.opa.toNat % 2 ^ 64), false⟩⟩)]) ∧
  ∀ (s : State) (t : TU) (o : FmtE) (f : Firing) (k b : Nat), ReadyIn s t f k → f.x.accb = some b →
    (let x := s.elem f.e
     let row := wordOf f.x o.a
     let n := wordOf f.x o.b
     let a := b + 64 * row
     let clr := o.imm.toNat.testBit 7
     n ≠ 0 → b + 64 * (row + n) ≤ 65536 → PortFree s f.e 64 [a] clr →
       ∃ s', exec (.mxacc t o) s = .next s' ∧ s'.mem = s.mem ∧
         (∃ y, s'.slot f.e k = some y ∧ y.prog = 1 ∧ y.stage = if n = 1 then 1 else 0) ∧
         (clr = true → Stored x.bank (s'.elem f.e).bank a (List.replicate 64 0)) ∧ (clr = false → (s'.elem f.e).bank = x.bank))

/-- MXMODE, MXWLD, MXC and MXACC (R270 to R276, R470 to R477). -/
def Obligations.MatrixOperations : Prop :=
  Claims.MatrixCommands ∧ Claims.WeightLoads ∧ Claims.MatrixTokens

/-! ### Integrator arrays -/

/-- An integrator command that its array takes, its operands checked again: IPATCH, ICFG and ISET set a cell or domain that is stopped and are left aside while it runs,
IGET reads, and IFEED presents its nonzero increments to ports that someone reads (R297 to R299, R446 to R449). -/
def Claims.IntegratorCommands : Prop :=
  ∀ (s : State) (e k : Nat) (y : Slot) (t : TU) (o : FmtE), k < 8 → s.slot e k = some y → y.stage = 0 → y.held = false →
    s.intReady e y = true →
    (∀ code va, s.intBad e y = some (code, va) → isIntOp y.ins = true →
      ∃ s', exec (.integratorCommandPerform e k) s = .next s' ∧ Pending s' e k code va ∧ s'.cores = s.cores) ∧
    (s.intBad e y = none →
     let c := coreOf e
     let a := (s.core c).arr
     let put (s' : State) (a : IArray) (v : Nat) : Prop :=
       (s'.core c).arr = a ∧ Quiet s s' e ∧ Performed s' e k y.ins (word512 v)
     (let i := arg y.opb
      let new : Cell := { a.cell i with patch := BitVec.ofNat 64 y.opa.toNat, hd := BitVec.ofNat 5 (arg y.opc) }
      let one := ∀ f < 16, (feedOwners (a.setCell i new).cells f).length ≤ 1
      y.ins = .ipatch t o →
       (one → a.idle [(a.cell i).domain, new.domain] = true →
         ∃ s', exec (.integratorCommandPerform e k) s = .next s' ∧ put s' (a.setCell i new) 1) ∧
       (one → a.idle [(a.cell i).domain, new.domain] = false → exec (.integratorCommandPerform e k) s = .next s) ∧
       (¬ one → ∃ s', exec (.integratorCommandPerform e k) s = .next s' ∧ Pending s' e k 0x0E 0 ∧ s'.cores = s.cores)) ∧
     (let d := arg y.opa
      y.ins = .icfg t o →
       ((a.dom d).run = false → ∃ s', exec (.integratorCommandPerform e k) s = .next s' ∧
         put s' (a.setDom d { a.dom d with div := BitVec.ofNat 32 (arg y.opb), evt := BitVec.ofNat 32 (arg y.opc) }) 1) ∧
       ((a.dom d).run = true → exec (.integratorCommandPerform e k) s = .next s)) ∧
     (let i := arg y.opb
      let v := BitVec.ofNat 32 (arg y.opa)
      y.ins = .iset t o → a.idle [(a.cell i).domain] = true →
       ∃ s', exec (.integratorCommandPerform e k) s = .next s' ∧
         put s' (a.setCell i (if o.imm.toNat % 4 = 0 then { a.cell i with yv := v }
           else if o.imm.toNat % 4 = 1 then { a.cell i with rs := v } else { a.cell i with ev := v })) 1) ∧
     (∀ q ∈ ([(0, (a.cell (arg y.opa)).yv), (1, (a.cell (arg y.opa)).rs), (2, (a.cell (arg y.opa)).ev),
         (3, BitVec.ofInt 32 (zoInt (a.cell (arg y.opa)).zo)), (4, (a.dom (arg y.opa)).dst), (5, (a.dom (arg y.opa)).bud)] : List (Nat × W32)),
       y.ins = .iget t o → o.imm.toNat % 8 = q.1 → ∃ s', exec (.integratorCommandPerform e k) s = .next s' ∧ put s' a q.2.toNat) ∧
     (∀ p z, y.ins = .ifeed t o → p < 16 → arg y.opa = z * 2 ^ (2 * p) → (z = 1 ∨ z = 3) →
       (feedOwners a.cells p = [] → ∃ s', exec (.integratorCommandPerform e k) s = .next s' ∧ put s' a 0) ∧
       (feedOwners a.cells p ≠ [] → vget a.fpd p 0 = 0 →
         ∃ s', exec (.integratorCommandPerform e k) s = .next s' ∧ put s' { a with fpd := vset a.fpd p (BitVec.ofNat 2 z) } 1) ∧
       (feedOwners a.cells p ≠ [] → vget a.fpd p 0 ≠ 0 →
         ∃ s', exec (.integratorCommandPerform e k) s = .next s' ∧ put s' { a with fpd2 := vset a.fpd2 p true } 0)))

/-- ISAVE writes the record of its cell at its bank address and IREST reads one, ISAMP forms its vector of fields, and ISTEP starts a stopped
domain, whose first step comes with the next step-clock cycle (R287, R291, R298, R300, R303). -/
def Claims.IntegratorTransfers : Prop :=
  ∀ (s : State) (e k : Nat) (y : Slot) (t : TU) (o : FmtE), k < 8 → s.slot e k = some y → y.stage = 0 → y.held = false →
    s.intReady e y = true → s.intBad e y = none →
    (let c := coreOf e
     let a := (s.core c).arr
     let i := arg y.opb
     let b := arg y.opa
     let x := s.elem e
     (y.ins = .isave t o → arg y.opc = 1 → y.sub = 0 → s.edgesMet e y = true → a.idle [(a.cell i).domain] = true → PortClear s e 16 [b] true →
       ∃ s', exec (.integratorCommandPerform e k) s = .next s' ∧ Stored x.bank (s'.elem e).bank b (a.cell i).bytes ∧ Quiet s s' e ∧
         (s'.core c).arr = a ∧ Performed s' e k y.ins 1) ∧
     (y.ins = .irest t o → arg y.opc = 1 → s.edgesMet e y = true → a.idle [(a.cell i).domain] = true → PortClear s e 16 [b] false →
       (let bs := Memory.read x.bank b 16
        (ctlBad (natLE bs / 2 ^ 96 % 2 ^ 32) = false → ∃ s', exec (.integratorCommandPerform e k) s = .next s' ∧
          (s'.core c).arr = a.setCell i ((a.cell i).load bs) ∧ Quiet s s' e ∧ Performed s' e k y.ins 1) ∧
        (ctlBad (natLE bs / 2 ^ 96 % 2 ^ 32) = true → ∃ s', exec (.integratorCommandPerform e k) s = .next s' ∧
          s'.cores = s.cores ∧ Pending s' e k 0x0E 0))) ∧
     (y.ins = .isamp t o → ∃ s', exec (.integratorCommandPerform e k) s = .next s' ∧ Quiet s s' e ∧ s'.flight.length = s.flight.length ∧
       ∃ z, s'.slot e k = some z ∧ z.stage = 1 ∧ z.lres = word512 (arg y.opb)) ∧
     (∀ d, d < 8 → s.elems.Pairwise (fun x y => x.1 < y.1) → y.ins = .istep t o → y.opa = word512 (2 ^ d) → (a.dom d).run = false → arg y.opb ≠ 0 → o.imm.getLsbD 0 = false →
       y.opb = word512 (arg y.opb) →
       ∃ s', exec (.integratorCommandPerform e k) s = .next s' ∧ Quiet s s' e ∧
         (s'.core c).arr.dom d = { a.dom d with bud := BitVec.ofNat 32 (arg y.opb), dst := 0x80000000, next := 1, cnt := 0 } ∧
         ∃ z, s'.slot e k = some z ∧ z.stage = 1))

/-- The integrator commands at their array (R287, R291, R296 to R303, R446 to R449). -/
def Obligations.IntegratorOperations : Prop :=
  Claims.IntegratorCommands ∧ Claims.IntegratorTransfers

/-- A step of a running domain takes one from its budget and gives every enabled cell of it the step of R289 on the sources as the step-clock
cycle began; a domain whose budget is 0 stops with cause 1, and a stop with an event target marks its place once it is due (R288 to R293). -/
def Obligations.IntegratorSteps : Prop :=
  ∀ (s : State) (c d : Nat), d < 8 →
    (let a := (s.core c).arr
     let x := a.dom d
     (x.due (stepCycle s.cycle) = true → s.arrGated c = false → a.old = none → (∀ f < 16, vget a.fpd2 f false = false) →
       (let val := srcValue a (stepCycle s.cycle) a.cells a.fpd
        (∀ z ∈ a.cells, z.2.domain = some d → (cellStep val z.2).2 = false) →
        ∃ s', exec (.domainStep c d) s = .next s' ∧ s'.mem = s.mem ∧
          (s'.core c).arr.dom d = { x with bud := x.bud - 1, next := x.div.toNat, last := stepCycle s.cycle + 1, cnt := x.cnt + 1 } ∧
          (∀ j < 8, j ≠ d → (s'.core c).arr.dom j = a.dom j) ∧
          ∀ i z, SMap.find i a.cells = some z → a.cells.Pairwise (fun x y => x.1 < y.1) →
            (s'.core c).arr.cell i = if z.domain = some d then (cellStep val z).1 else z)) ∧
     (x.due (stepCycle s.cycle) = false → exec (.domainStep c d) s = .next s) ∧
     (x.run = true → x.bud = 0 → ∃ s', exec (.budgetExhausted c d) s = .next s' ∧ ((s'.core c).arr.dom d).dst = 0x10000000 ∧
       ((s'.core c).arr.dom d).marks = if x.evt.getLsbD 18 then x.marks else x.marks ++ [(x.evt, s.markCycle c x.evt)]) ∧
     (x.run = false → exec (.budgetExhausted c d) s = .next s) ∧
     ∀ r e at_ ms, (s.regionOn c).bind s.region = some r → r.phase = .running → x.marks = (e, at_) :: ms → at_ ≤ s.cycle →
       s.roomFor (evtElem r e) (evtPlace e) = true →
       ∃ s', exec (.eventPlaceMark c d) s = .next s' ∧ ((s'.core c).arr.dom d).marks = ms ∧
         (s'.elem (evtElem r e)).cnt = vset (s.elem (evtElem r e)).cnt (evtPlace e) (vget (s.elem (evtElem r e)).cnt (evtPlace e) 0 + 1))

/-! ### System commands -/

/-- RDSR holds its register as it stood as the cycle began, and TIME needs nothing more; WAITA arms a free watch on its word; a WRSR and a CFGW are
performed; a FRZ that names nothing to freeze returns 0 at once, and one of its own region takes the save area; RPULL and LNCH ask for a forced cut first (R224, R336, R369, R423, R443,
R460, R496, R532, R543, R545). -/
def Obligations.SystemCommands : Prop :=
  ∀ (s : State) (t : TU) (o : FmtE) (f : Firing) (k rn : Nat) (r : Region), ReadyIn s t f k → s.regionOf f.e = some rn → s.region rn = some r →
    (let x := s.elem f.e
     let was (i : Nat) : W32 := (s.part (s.partOf f.e)).began s.cycle i
     let cut (s' : State) (ps : List (Nat × Nat)) : Prop :=
       Quiet s s' f.e ∧ (∃ y, s'.slot f.e k = some y ∧ y.stage = 0 ∧ y.cut = 1) ∧ s'.region rn = some { r with cutReq := true, pulls := ps }
     (∀ q ∈ ([(0x00, f.e), (0x01, f.e / 64), (0x02, rn), (0x03, f.x.tagr.toNat), (0x04, f.x.axc.toNat), (0x05, f.x.axs.toNat),
         (0x06, f.x.lfsr.toNat), (0x0B, f.x.pcFire.toNat), (0x0C, f.x.pcStall.toNat), (0x0D, f.x.pcBeat.toNat),
         (0x07, (was 0).toNat), (0x08, (was 1).toNat), (0x09, (was 2).toNat), (0x0A, (was 3).toNat)] : List (Nat × Nat)),
       o.imm.toNat = q.1 → ∃ s', exec (.rdsr t o) s = .next s' ∧ Quiet s s' f.e ∧ Performed s' f.e k (.rdsr t o) (word512 q.2)) ∧
     (∃ s', exec (.time t o) s = .next s' ∧ Quiet s s' f.e ∧ Performed s' f.e k (.time t o) 0) ∧
     (∃ s', exec (.wrsr t o) s = .next s' ∧ Quiet s s' f.e ∧ s'.parts = s.parts ∧ Performed s' f.e k (.wrsr t o) 0) ∧
     (∃ s', exec (.cfgw t o) s = .next s' ∧ Quiet s s' f.e ∧ (s'.elem f.e).pool = x.pool ∧ Performed s' f.e k (.cfgw t o) 0) ∧
     (let a := pairOf f.x o.a
      (a % 4 ≠ 0 → ∃ s', exec (.waita t o) s = .next s' ∧ SlotRaised s s' f k 0 0x05 a) ∧
      ∀ i l m ls, a % 4 = 0 → (∀ z ∈ s.elems, z.2.filled = []) → s.resolveRun (coreOf f.e) (s.partOf f.e) a 4 .watch = .ok ((l, m) :: ls) →
        ((List.range 4).find? fun i => (vget x.watch i none).isNone) = some i →
        ∃ s', exec (.waita t o) s = .next s' ∧ Quiet s s' f.e ∧ Performed s' f.e k (.waita t o) (word512 i) ∧
          ∃ w, vget (s'.elem f.e).watch i none = some w ∧ w.addr = a ∧ w.phys = l.at a 0 ∧ w.value = BitVec.ofNat 32 (wordOf f.x o.b) ∧
            w.ne = o.imm.toNat.testBit 4 ∧ w.place = o.imm.toNat % 16) ∧
     (o.imm.toNat.testBit 0 = false → s.region (wordOf f.x o.a) = none →
       ∃ s', exec (.frz t o) s = .next s' ∧ Quiet s s' f.e ∧ s'.regions = s.regions ∧ Performed s' f.e k (.frz t o) 0) ∧
     (o.imm.toNat.testBit 0 = true → r.save = none → (s.part r.part).saves = [] → unitsOf (s.saveBytes rn r) ≤ (s.part r.part).svs.toNat / 65536 →
       ∃ s', exec (.frz t o) s = .next s' ∧ Quiet s s' f.e ∧ (∃ y, s'.slot f.e k = some y ∧ y.stage = 1) ∧
         s'.region rn = some { r with save := some 0, frz := r.frz ++ [(f.e, k)] } ∧
         (r.part < 8 → (s'.part r.part).saves = [(0, unitsOf (s.saveBytes rn r))])) ∧
     (∃ s', exec (.rpull t o) s = .next s' ∧ cut s' (r.pulls ++ [(f.e, k)])) ∧
     ∃ s', exec (.lnch t o) s = .next s' ∧ cut s' r.pulls)

/-- WRSR completes by exchanging its register with its operand, TIME with T of the partition one cycle on, CFGW with the status of its word, which a
good word gives its target's transition and a bad word does not, and WAITA with its watch (R424, R425, R532, R543, R546). -/
def Claims.SystemCompletion : Prop :=
  ∀ (s : State) (e k : Nat) (y : Slot) (t : TU) (o : FmtE), k < 8 → s.slot e k = some y → s.mayFinish e k y = true → Roomy s e →
    (let back (s' : State) (wide : Bool) (v : Nat) : Prop :=
       s'.slot e k = none ∧
         ∀ n < 16, (s'.elem e).sreg n = destS ⟨if wide then .s64 else .n32, false, [v % (if wide then 2 ^ 64 else 2 ^ 32)], flNone⟩ o.d n
           ((s.elem e).sreg n)
     (∀ q ∈ ([(0x03, (s.elem e).tagr, fun x => x.tagr, 7), (0x04, (s.elem e).axc, fun x => x.axc, axcMask)] :
         List (Nat × W32 × (Elem → W32) × W32)), y.ins = .wrsr t o → o.imm.toNat = q.1 → y.opa.toNat < 2 ^ 32 →
       ∃ s', exec (.firingCompletion e k) s = .next s' ∧ back s' false q.2.1.toNat ∧ s'.parts = s.parts ∧
         q.2.2.1 (s'.elem e) = BitVec.ofNat 32 y.opa.toNat &&& q.2.2.2) ∧
     (y.ins = .wrsr t o → o.imm.toNat = 0x0A → s.partOf e < 8 →
       ∃ s', exec (.firingCompletion e k) s = .next s' ∧ back s' false (s.part (s.partOf e)).pmig.toNat ∧
         s'.part (s.partOf e) = { s.part (s.partOf e) with
           pmig := BitVec.ofNat 32 y.opa.toNat, before := (s'.part (s.partOf e)).before }) ∧
     (y.ins = .time t o → ∃ s', exec (.firingCompletion e k) s = .next s' ∧ OnlyElem s s' e ∧
       back s' true (s.part (s.partOf e)).tick.tNow.toNat) ∧
     (y.ins = .waita t o → ∃ s', exec (.firingCompletion e k) s = .next s' ∧ OnlyElem s s' e ∧ back s' false y.lres.toNat) ∧
     ∀ r g i, s.regOf e = some r → y.ins = .cfgw t o → (∀ j < 8, ∀ z, s.slot e j = some z → z.seq < y.seq → isCfgw z.ins = false) →
       cfgwTarget r y.opb.toNat = some (g, i) → g ≠ e → i < 32 →
       (let w := BitVec.ofNat 128 y.opa.toNat
        let st := cfgwStatus (s.wordCtx g) w
        ∃ s', exec (.firingCompletion e k) s = .next s' ∧ back s' false st ∧
          (st = 0 → (s'.elem g).pool = vset (s.elem g).pool i w ∧ s'.elem g = { s.elem g with pool := (s'.elem g).pool }) ∧
          (st ≠ 0 → s'.elem g = s.elem g)))

/-- A watch whose word meets its condition when it is armed is due in the next cycle; a due watch whose place has room marks it and frees its slot,
and one whose place is full waits (R224). -/
def Claims.WatchMarks : Prop :=
  ∀ (s : State) (e i : Nat) (w : Watch) (d : Nat), i < 4 → vget (s.elem e).watch i none = some w → w.due = some d → s.runs e = true →
    (d ≤ s.cycle → s.roomFor e w.place = true → ∃ s', exec (.watchMark e i) s = .next s' ∧ OnlyElem s s' e ∧
      s'.elem e = { s.elem e with
        watch := vset (s.elem e).watch i none
        cnt := vset (s.elem e).cnt w.place (vget (s.elem e).cnt w.place 0 + 1) }) ∧
    (s.roomFor e w.place = false ∨ s.cycle < d → exec (.watchMark e i) s = .next s)

/-- WRSR, TIME, CFGW and WAITA complete, and a watch marks its place (R224, R424, R425, R532, R543, R546). -/
def Obligations.SystemCompletions : Prop :=
  Claims.SystemCompletion ∧ Claims.WatchMarks


/-! ### Faults and their answers -/

/-- The step of a pending fault: a translation fault becomes a record that waits for its answer, a violation stops its region and is told to
both rings (the module's not set up, its record waits), a firing whose heads no longer differ is released and counted as transient, one whose heads still differ rolls its region back
(R135, R197, R371, R372, R382). An error of memory holds the operation it hits until its retry, and a sided token goes ahead after repair
(R218, R395). -/
def Obligations.FaultSteps : Prop :=
  (∀ (s : State) (n : Nat) (f : PendFault) (r : Region), s.pend[n]? = some f → s.region f.reg = some r → r.phase = .running → r.part < 8 →
    (f.frec.code = 0x02 → (s.part r.part).pasid = none → ∃ s', exec (.faultRetry n) s = .next s' ∧
      s'.pend = s.pend.eraseIdx n ∧
      s'.pgfs = s.pgfs ++ [⟨(s.part r.part).rseq, r.part, f.reg, f.at_, f.frec, f.cycle⟩]) ∧
    (f.frec.code = 0x1A → (∀ g q i, f.at_ ≠ .entry g q i) → s.launchDone f.reg r = false → s.modReg 0x4020 = 0 → ∃ s', exec (.faultRetry n) s = .next s' ∧
      Stopped s s' f.reg .violation ∧
      ∃ m, s'.mfq.getLast? = some m ∧ m.code = 0x1A ∧ m.flg = 4 ∧ m.addr = f.frec.addr ∧
        s'.vios = s.vios ++ [(m.rseq, .region r.part r.queue)]) ∧
    ((f.frec.code ≠ 0x02 ∧ f.frec.code ≠ 0x1A) → f.at_ = .none → Rollable s f.reg r f.frec.code (faultPlace f.frec f.at_) →
      ∃ s', exec (.faultRetry n) s = .next s' ∧ RolledBack s s' f.reg r f.frec.code (faultPlace f.frec f.at_)) ∧
    (∀ e k, f.at_ = .issue e k → f.frec.code = 0x08 → f.cycle < s.cycle →
      (s.issueRecurs f e = true → Rollable s f.reg r 0x08 (faultPlace f.frec f.at_) →
        ∃ s', exec (.faultRetry n) s = .next s' ∧ RolledBack s s' f.reg r 0x08 (faultPlace f.frec f.at_)) ∧
      (s.issueRecurs f e = false → ∃ s', exec (.faultRetry n) s = .next s' ∧
        s'.pend = s.pend.eraseIdx n ∧ (s'.elem e).stuck = false ∧ Counted s s' r.part 12 12))) ∧
  (∀ (s : State) (n e : Nat) (y : Slot) (rn : Nat) (r : Region), s.sided[n]? = some (e, y) → s.sidedFirst n e y = true →
    s.regionOf e = some rn →
    (∃ s', exec (.sidedTokenReentry n true) s = .next s' ∧
      s' = { s with sided := s.sided.eraseIdx n, updates := (e, y) :: s.updates }) ∧
    (Rollable s rn r 0x17 (.issue e y.tix) → ∃ s', exec (.sidedTokenReentry n false) s = .next s' ∧
      RolledBack s s' rn r 0x17 (.issue e y.tix))) ∧
  ∀ (s : State) (e k : Nat) (y : Slot), e < 2 ^ 20 → k < 8 → s.slot e k = some y → (∃ z t o, layoutOf y.ins = .m z t o) →
    (∀ t ∈ s.entriesOf ((s.regionOf e).getD 0), ¬(t.2.2.elem = e ∧ t.2.2.slot = k)) →
    (let hit (s' : State) (code : Nat) : Prop :=
       Quiet s s' e ∧ Pending s' e k code (slotAddr y) ∧ ∃ z, s'.slot e k = some z ∧ z = { y with held := true }
     (∀ f ∈ s.pend, f.at_ ≠ .slot e k) → y.stage = 0 → s.runs e = true →
       (∀ b, ∃ s', exec (.uncorrectableError e k b) s = .next s' ∧ hit s' (if b then 0x17 else 0x16)) ∧
       (s.toPeer e (s.partOf e) (slotAddr y) = true → ∃ s', exec (.lnk e k) s = .next s' ∧ hit s' 0x18)) ∧
    ∀ f r b, s.pend.find? (fun g => g.at_ == .slot e k) = some f → f.frec.code = (if b then 0x17 else 0x16) → f.cycle < s.cycle →
      Rollable s f.reg r f.frec.code (faultPlace f.frec f.at_) →
      ∃ s', exec (.uncorrectableError e k b) s = .next s' ∧ RolledBack s s' f.reg r f.frec.code (faultPlace f.frec f.at_)

/-- The answer to a translation fault ends its wait, with the page's pin if it is mapped and as a lasting fault if it is not; one that comes
after FLTTMO changes no wait, and the region whose access waited longer is stopped with a record of its own (R197 to R199, R376). A response
to a page request is counted as stale unless its tag stands, and a reset of a function retires its requests (R375). -/
def Obligations.TranslationAnswers : Prop :=
  (∀ (s : State) (p : Nat) (v : W64) (f : Pgf), (s.pgfs.find? fun f => f.part == p && f.rseq == v.toNat % 2 ^ 32) = some f →
    (s.cycle < s.expiry p f.cycle → v.getLsbD 32 = false → ∃ s', exec (.pgrspWrite p v) s = .next s' ∧
      s'.pgfs = s.pgfs.filter (fun g => g != f) ∧ (p, f.frec.addr.toNat / 65536) ∉ s'.pinned) ∧
    (∀ r, s.cycle < s.expiry p f.cycle → v.getLsbD 32 = true → Rollable s f.reg r f.frec.code (faultPlace f.frec f.at_) →
      ∃ s', exec (.pgrspWrite p v) s = .next s' ∧ RolledBack s s' f.reg r f.frec.code (faultPlace f.frec f.at_)) ∧
    (s.expiry p f.cycle ≤ s.cycle → ∃ s', exec (.pgrspWrite p v) s = .next s' ∧ s'.pgfs = s.pgfs ∧ s'.pend = s.pend ∧
      s'.elems = s.elems)) ∧
  (∀ (s : State) (tag fn : Nat) (g ok : Bool), 
    (∀ p, s.tags.find? (fun t => t.tag == tag && t.fn == fn && t.gen.testBit 0 == g) = none → s.partOfFn fn = some p → p < 8 →
      ∃ s', exec (.pageResponse tag fn g ok) s = .next s' ∧ s'.tags = s.tags ∧ Counted s s' p 24 8) ∧
    (∀ t, s.tags.find? (fun t => t.tag == tag && t.fn == fn && t.gen.testBit 0 == g) = some t →
      (t.retired.isSome = true → t.at_ ≠ .none → ∃ s', exec (.pageResponse tag fn g ok) s = .next s' ∧
        s'.tags = s.tags.filter (fun x => x.tag != tag) ∧ s'.pend = s.pend ++ [⟨t.reg, t.frec, t.at_, t.cycle⟩]) ∧
      (t.retired = none → (s.func fn).gen.testBit 0 = g →
        (let late := s.expiry (((s.region t.reg).map Region.part).getD 0) t.cycle
        (t.at_ = .none → ∃ s', exec (.pageResponse tag fn g ok) s = .next s' ∧
          s' = { s with tags := s.tags.filter fun x => x.tag != tag }) ∧
        (t.at_ ≠ .none → late ≤ s.cycle → exec (.pageResponse tag fn g ok) s = .next s) ∧
        (∀ r, ok = false → t.at_ ≠ .none → s.cycle < late → Rollable s t.reg r t.frec.code (faultPlace t.frec t.at_) →
          ∃ s', exec (.pageResponse tag fn g ok) s = .next s' ∧ RolledBack s s' t.reg r t.frec.code (faultPlace t.frec t.at_)) ∧
        (ok = true → t.at_ ≠ .none → s.cycle < late → ∃ s', exec (.pageResponse tag fn g ok) s = .next s' ∧
          s'.tags = s.tags.filter fun x => x.tag != tag))))) ∧
  (∀ (s : State) (f : Nat), f < 9 → ∃ s', exec (.functionLevelReset f) s = .next s' ∧ (s'.func f).gen = (s.func f).gen + 1 ∧
    (s'.func f).tdisp = (s.func f).tdisp ∧ (∀ g, g ≠ f → s'.func g = s.func g) ∧
    s'.tags = s.tags.map fun t => if t.fn = f ∧ t.retired = none then { t with retired := some s.cycle } else t) ∧
  (∀ (s : State) (tag : Nat) (t : PageReq) (c : Nat), s.tags.find? (fun t => t.tag == tag) = some t → t.retired = some c →
    (c + 1900000000 ≤ s.cycle → t.at_ ≠ .none → ∃ s', exec (.retiredTagTimeout tag) s = .next s' ∧
      s'.tags = s.tags.filter (fun x => x.tag != tag) ∧ s'.pend = s.pend ++ [⟨t.reg, t.frec, t.at_, t.cycle⟩]) ∧
    (s.cycle < c + 1900000000 → exec (.retiredTagTimeout tag) s = .next s)) ∧
  (∀ (s : State) (rn : Nat) (r : Region), s.region rn = some r →
    (s.lateFault rn r = none → exec (.cutRelease rn) s = .next s) ∧
    ∀ f, r.freezable = true → s.launchDone rn r = false → s.lateFault rn r = some f → r.part < 8 → (s.part r.part).fqb = 0 →
      ∃ s', exec (.cutRelease rn) s = .next s' ∧ Stopped s s' rn .cutRelease ∧ (∀ x ∈ s'.pgfs, x.reg ≠ rn) ∧
        ∃ g, (s'.part r.part).recs = (s.part r.part).recs ++ [(g, some rn)] ∧ g.code = 0x19 ∧ g.flg = 6 ∧ g.addr = f.addr) ∧
  (∀ (s : State) (c va : Nat) (leaf : W64),
    (let p := c / 512
     let k := c % 512
     let big := leaf.getLsbD 4
     p < 8 → (s.part p).pasid ≠ none →
     (leafOk leaf big = true → ∃ s', exec (.atsTranslationResponse c va leaf) s = .next s' ∧
       SMap.find (tlbKey p va big) (s'.tlbOf k) = some leaf) ∧
     (leafOk leaf big = false → ∃ s', exec (.atsTranslationResponse c va leaf) s = .next s' ∧ s'.cores = s.cores ∧ s'.baseTlb = s.baseTlb ∧
       (k, tlbKey p va false, s.cycle) ∈ s'.noMap))) ∧
  ∀ (s : State) (f va n p : Nat), s.partOfFn f = some p → (s.part p).pasid ≠ none →
    (s.partBusy p = false → ∃ s', exec (.atsInvalidation f va n) s = .next s' ∧ Uncached s' p (va / 65536) n ∧ s'.parts = s.parts) ∧
    (s.partBusy p = true → exec (.atsInvalidation f va n) s = .next s)

/-- IVGO starts an invalidation, which completes once no access that used an old translation is left, with every cached copy gone (R195).
The evictor frees a page of device memory, of 64 KiB or 2 MiB, that lies whole below every window and backs no quarter, and an access to it then
faults (R200); a page migrates four times in a window, and the fifth migration pins it (R201, R202). -/
def Obligations.TranslationsRemoved : Prop :=
  (∀ (s : State) (p : Nat) (v : W32), p < 8 → ∃ s', exec (.ivgoWrite p v) s = .next s' ∧
    (s'.part p).ivgo = ((s.part p).ivgo || v.getLsbD 0) ∧ (s'.part p).iva = (s.part p).iva ∧ (s'.part p).ivn = (s.part p).ivn) ∧
  (∀ (s : State) (p : Nat), p < 8 →
    ((s.part p).ivgo = true → s.partBusy p = false → ∃ s', exec (.invalidationCompletion p) s = .next s' ∧ (s'.part p).ivgo = false ∧
      Uncached s' p ((s.part p).iva.toNat / 65536) (s.part p).ivn.toNat) ∧
    ((s.part p).ivgo = false ∨ s.partBusy p = true → exec (.invalidationCompletion p) s = .next s)) ∧
  (∀ (s : State) (p va l : Nat) (w : W64 × Bool), s.minLwm p = some l → walk s p va = .ok w →
    (let first := (leafPages va w.2).1
     let n := (leafPages va w.2).2
     (bitsOf w.1.toNat 62 2 = 0 → (first + n) * 65536 ≤ l → s.boundPages p first n = false → (p, va / 65536) ∉ s.pinned →
       ∃ s', exec (.pageEviction p va) s = .next s' ∧ Uncached s' p first n ∧ (∀ i < n, (p, first + i) ∈ s'.pinned) ∧
       ∀ c, va < 2 ^ 56 → (s.part p).pasid = none → s'.xlat c p va false = .fault 0x02) ∧
     (bitsOf w.1.toNat 62 2 ≠ 0 ∨ l < (first + n) * 65536 ∨ s.boundPages p first n = true → exec (.pageEviction p va) s = .next s))) ∧
  (∀ (s : State) (p va : Nat) (w : W64 × Bool), walk s p va = .ok w → bitsOf w.1.toNat 62 2 ≠ 1 →
    (let k := migrKey p va w.2
     let gone (s' : State) : Prop := Uncached s' p (leafPages va w.2).1 (leafPages va w.2).2
     let here (s : State) := s.migr.find? fun m => m.1 == k
     ((∀ m ∈ s.migr, m.1 = k → m.2.2 + 1900000000 ≤ s.cycle) → ∃ s', exec (.pageMigration p va) s = .next s' ∧
       here s' = some (k, 1, s.cycle) ∧ gone s') ∧
     ∀ n c, here s = some (k, n, c) → s.cycle < c + 1900000000 →
       (n < 4 → ∃ s', exec (.pageMigration p va) s = .next s' ∧ here s' = some (k, n + 1, c) ∧ gone s') ∧
       (n = 4 → p < 8 → ∃ s', exec (.pageMigration p va) s = .next s' ∧ here s' = some (k, 5, c) ∧
         (s'.part p).pmig = (s.part p).pmig + 1 ∧ s'.cores = s.cores) ∧
       (4 < n → ∃ s', exec (.pageMigration p va) s = .next s' ∧ here s' = some (k, n, c) ∧ s'.cores = s.cores))) ∧
  ∀ (s : State) (p va : Nat), ∃ s', exec (.migrationWindowEnd p va) s = .next s' ∧
    ∀ m, m ∈ s'.migr ↔ m ∈ s.migr ∧ (m.1 = migrKey p va false ∨ m.1 = migrKey p va true → s.cycle < m.2.2 + 1900000000)

/-! ### Matrix passes -/

/-- The node of a quiet rectangle takes an MMA once its run's forced cut has been taken, a SWAPW that turns every element to its other weights
and a FLUSH that owes a mark to every element of the south edge; a token of another kind and a bad one go and raise MXF; a vector enters at row 0 and moves by one row and one column a cycle: an
element that it reaches forms its sums, and the last of a column writes or adds to the accumulators (R276 to R280, R369). -/
def Obligations.MatrixSteps : Prop :=
  ∀ (s : State) (rn n : Nat) (r : Region) (m : Rect), s.partAt rn n = some (r, m) → m.mq < 32 → 0 < m.w → 0 < m.h →
    (let e := r.rectElem m 0 0
     let south (c : Nat) := r.rectElem m c (m.h - 1)
     let weights (g : Nat) : Nat := (if (s.elem g).w1Active then (s.elem g).w1 else (s.elem g).w0).toNat
     let put (s' : State) (m' : Rect) : Prop := s'.region rn = some { r with rects := r.rects.set n m' }
     let queued (p : Nat) (us : List Token) : Prop :=
       ∃ u, (s.elem e).queue m.mq = u :: us ∧ s.standing e m.mq = some u ∧ u.kind = .mxc ∧ u.pay.toNat % 2 ^ 64 = p ∧ s.mxcBad r m p = false
     let still := m.mma = none ∧ m.waves = [] ∧ m.done ≤ s.cycle
     (∀ p us, queued p us → r.forming = none → still →
       (p % 2 ^ 32 / 2 ^ 28 = 1 → (r.rectElems m).Nodup → ∃ s', exec (.swapw rn n) s = .next s' ∧ (s'.elem e).queue m.mq = us ∧
         ∀ g ∈ r.rectElems m, (s'.elem g).w1Active = !(s.elem g).w1Active ∧ (s'.elem g).w0 = (s.elem g).w0 ∧ (s'.elem g).w1 = (s.elem g).w1) ∧
       (p % 2 ^ 32 / 2 ^ 28 = 2 → ∃ s', exec (.flush rn n) s = .next s' ∧ (s'.elem e).queue m.mq = us ∧
         put s' { m with flush := m.flush ++ (List.range m.w).map fun c => (c, p / 2 ^ 32 % 16) }) ∧
       (p % 2 ^ 32 / 2 ^ 28 = 0 → m.moved ≠ s.cycle + 1 →
         (m.cut = 2 → ∃ s', exec (.mma rn n) s = .next s' ∧ (s'.elem e).queue m.mq = us ∧
           put s' { m with mma := some (BitVec.ofNat 64 p, 0), moved := s.cycle + 1, cut := 3, since := s.cycle }) ∧
         (m.cut = 0 → ∃ s', exec (.mma rn n) s = .next s' ∧ s'.elems = s.elems ∧
           s'.region rn = some { r with rects := r.rects.set n { m with cut := 1 }, cutReq := true }))) ∧
     (∀ u us, (s.elem e).queue m.mq = u :: us → s.standing e m.mq = some u → (u.kind ≠ .mxc ∨ s.mxcBad r m (u.pay.toNat % 2 ^ 64) = true) →
       ∀ i ∈ ([.swapw rn n, .flush rn n] : List Instr), ∃ s', exec i s = .next s' ∧ (s'.elem e).queue m.mq = us ∧
       ∃ f ∈ s'.pend, f.at_ = .none ∧ f.frec.code = 0x0D ∧ f.frec.elid = e) ∧
     (still → m.cut = 3 → ∃ s', exec (.mma rn n) s = .next s' ∧ s'.elems = s.elems ∧
       s'.region rn = some { r with rects := r.rects.set n { m with cut := 0 }, cutReq := true, irr := true }) ∧
     (∀ t j, m.mma = some (t, j) → m.waves = [] → mmaBank t = true → m.h ≠ 1 → m.moved ≠ s.cycle + 1 → s.standing e m.mq = none →
       (let a := mmaBase t + 32 * j
        let act := BitVec.ofNat 256 (natLE (Memory.read (s.elem e).bank a 32))
        unfilled (s.elem e) [a, a + 31] = [] → ∃ s' v, exec (.mma rn n) s = .next s' ∧
          s'.elem e = { s.elem e with portAt := s.cycle + 1 } ∧ (∀ g, g ≠ e → s'.elem g = s.elem g) ∧
          put s' { m with moved := s.cycle + 1, waves := [v], mma := if j + 1 < mmaCount t then some (t, j + 1) else none } ∧
          v.tok = t ∧ v.m = j ∧ v.step = 1 ∧ v.acts = [act] ∧
          ∀ c < m.w, ∀ i < 16, v.sums.getD (16 * c + i) 0 = if c = 0 then mxSum (mmaFmt t) act.toNat (weights e) i 0 else 0)) ∧
     (∀ v, m.mma = none → m.waves = [v] → mmaBank v.tok = true → v.step + 1 < m.w + m.h → m.moved ≠ s.cycle + 1 → s.standing e m.mq = none →
       (let west := r.rectElem m 0 v.step
        let a := mmaBase v.tok + 32 * v.m
        let b := m.accb + 64 * v.m
        let acts := if v.step < m.h then v.acts ++ [BitVec.ofNat 256 (natLE (Memory.read (s.elem west).bank a 32))] else v.acts
        let sum (c i : Nat) : W32 :=
          let old := v.sums.getD (16 * c + i) 0
          if c ≤ v.step ∧ v.step - c < m.h then
            mxSum (mmaFmt v.tok) (acts.getD (v.step - c) 0).toNat (weights (r.rectElem m c (v.step - c))) i old
          else old
        (v.step < m.h → unfilled (s.elem west) [a, a + 31] = []) →
        (∀ c, m.writes v = some c → unfilled (s.elem (south c)) [b, b + 63] = []) →
          ∃ s' vs, exec (.mma rn n) s = .next s' ∧
            put s' { m with moved := s.cycle + 1, waves := vs, done := if v.step + 2 = m.w + m.h then s.cycle + 1 else m.done } ∧
            (v.step + 2 = m.w + m.h → vs = []) ∧
            (v.step + 2 ≠ m.w + m.h → ∃ z, vs = [z] ∧ z.tok = v.tok ∧ z.m = v.m ∧ z.step = v.step + 1 ∧ z.acts = acts ∧
              ∀ c < m.w, ∀ i < 16, z.sums.getD (16 * c + i) 0 = sum c i) ∧
            ∀ c, m.writes v = some c →
              (let old := lanesOf .f32 (word512 (natLE (Memory.read (s.elem (south c)).bank b 64)))
               let new := (List.range 16).map fun i =>
                 let p := (sum c i).toNat
                 if mmaAcc v.tok then (roundVal .f32 .rne false (addVal .rne (readFloat .f32 (old.getD i 0)) (readFloat .f32 p)).1).1 else p
               Stored (s.elem (south c)).bank (s'.elem (south c)).bank b (bytesLE 64 (packLanes .f32 new).toNat)))) ∧
     (m.flush.Nodup → (r.southElems m).Nodup → (∀ f ∈ m.flush, f.1 < m.w ∧ f.2 < 16) → ∃ s', exec (.flushMark rn n) s = .next s' ∧
       put s' { m with flush := m.flush.filter fun f => !s.roomFor (south f.1) f.2 } ∧
       ∀ f ∈ m.flush, vget (s'.elem (south f.1)).cnt f.2 0 =
         if s.roomFor (south f.1) f.2 then vget (s.elem (south f.1)).cnt f.2 0 + 1 else vget (s.elem (south f.1)).cnt f.2 0))


/-! ### Dispatch, units and the end of a launch -/

/-- The dispatcher of a place's die places the launch it has selected on a rectangle that is free, with its first unit armed, or ends it with
the code of its load error, or at once if its record fails the check, and remembers the queue it served; it places nothing where there is no
room, or while a translation is awaited (R3, R117, R194, R330, R339, R340). A configured region begins to run once no update of it waits and its pseudo-channels are free (R118, R262, R359). An expired quantum freezes its launch for one
of equal priority, or starts again (R346, R347). A frozen launch that is selected stands where it is put, with the registers, places and
queues that its save area holds, and the cut and unit of the area's header; one whose save area fails its checks is not selected (R46, R355, R359). -/
def Obligations.Dispatching : Prop :=
  (∀ (s : State) (p x y : Nat) (k : Ready), s.chosen p (dieAt x y) = some k → p < 8 →
    (let q := s.queue p k.q
     let served (s' : State) : Prop := SMap.find (32 * dieAt x y + k.pri) (s'.part p).turn = some k.q
     (∀ l, k.reg = none → k.now = false → s.placeable p k x y [] = true → (s.entryAt p q q.head).bind (s.record? p) = some l →
       (s.loadImage p q l x y = .error errWait → exec (.dispatch p x y) s = .next s) ∧
       (∀ c, c ≠ errWait → s.loadImage p q l x y = .error c → q.gone = [] → ∃ s', exec (.dispatch p x y) s = .next s' ∧ served s' ∧
         (s'.queue p k.q).head = q.head + 1) ∧
       (∀ im b cold, s.loadImage p q l x y = .ok (im, b, cold) → ∃ s', exec (.dispatch p x y) s = .next s' ∧ served s' ∧
         ∃ g, s'.region s.newRegion = some g ∧ g.part = p ∧ g.queue = k.q ∧ g.launch = l ∧ g.x0 = x ∧ g.y0 = y ∧ g.w = l.shw ∧
           g.h = l.shh ∧ g.phase = .configured ∧ g.unit = 0 ∧ g.ixBase = l.rbase ∧ g.ixCnt = min l.grain l.rcnt ∧ g.cutN = 0)) ∧
     (k.reg = none → k.now = false → s.placeable p k x y [] = false → exec (.dispatch p x y) s = .next s) ∧
     (k.reg = none → k.now = true → q.gone = [] → ∃ s', exec (.dispatch p x y) s = .next s' ∧ served s' ∧
       (s'.queue p k.q).head = q.head + 1) ∧
     ∀ a b ls z, k.reg = none → k.now = true → s.entryAt p q q.head = some a → s.recordBytes? p a = some b → s.recordOk p a b = false →
       (let l := parseRecord a b
        l.ccl = 0 → l.ccg = 0 → l.ccp = 0 → l.ccj = 0 → s.resolveRun noTlb p (a + 0x58) 4 .copyWrite = .ok ls → PlainRun s ls z 4 →
          ∃ s', exec (.dispatch p x y) s = .next s' ∧ Stored s.mem s'.mem z.addr (bytesLE 4 0x10)))) ∧
  (∀ (s : State) (rn : Nat) (r : Region), s.region rn = some r → r.phase = .configured →
    ((∀ u ∈ s.sided ++ s.updates, r.hasElem u.1 = false) → s.pcsFree rn r.lastSnap = true → ∃ s', exec (.regionRelease rn) s = .next s' ∧ s'.elems = s.elems ∧
      ∃ g, s'.region rn = some g ∧ g = { r with phase := .running, saveT := 0, lastSnap := g.lastSnap } ∧
        g.lastSnap.elems = r.elems.map fun e => (e, s.elem e)) ∧
    (∀ u ∈ s.sided ++ s.updates, r.hasElem u.1 = true → exec (.regionRelease rn) s = .next s) ∧
    (s.pcsFree rn r.lastSnap = false → exec (.regionRelease rn) s = .next s)) ∧
  (∀ (s : State) (rn : Nat) (r : Region), s.region rn = some r → r.phase = .running → r.launch.quant ≠ 0 → r.part < 8 →
    s.launchDone rn r = false →
    (let n := 1900 * r.launch.quant
     let m := (s.part r.part).floor r.w r.h
     (s.cycle < r.quantAt → exec (.quantumExpiry rn) s = .next s) ∧
     (r.quantAt ≤ s.cycle → s.yields rn r = false → ∃ s', exec (.quantumExpiry rn) s = .next s' ∧
       s'.region rn = some { r with quantAt := s.cycle + max n m } ∧
       (s'.part r.part).qflr = if n < m then qflrRaised (s.part r.part).qflr else (s.part r.part).qflr) ∧
     (r.quantAt ≤ s.cycle → s.takeSave rn = none → ∃ s', exec (.quantumExpiry rn) s = .next s' ∧
       s'.region rn = some { r with quantAt := s.cycle + max n m }) ∧
     (∀ u, r.quantAt ≤ s.cycle → s.yields rn r = true → s.takeSave rn = some u → ∃ s', exec (.quantumExpiry rn) s = .next s' ∧
       Stopped s s' rn .preempt))) ∧
  (∀ (s : State) (p q rn : Nat) (r : Region), s.launchOf p q = some (rn, r) → s.saveGood r = false → s.readyOf p q = none) ∧
  ∀ (s : State) (rn x y : Nat) (r : Region) (k : Ready), s.region rn = some r → s.chosen r.part (dieAt x y) = some k → k.reg = some rn →
    r.part < 8 →
    (s.placeable r.part k x y [] = false ∨ s.restoreWaits r x y = true → exec (.restore rn x y) s = .next s) ∧
    (s.placeable r.part k x y [] = true → s.restoreWaits r x y = false → r.phase = .frozen →
      (r.lastSnap.elems.map fun z => r.moveElem x y z.1).Nodup →
      (let was := s.savedUnit r
       ∃ s', exec (.restore rn x y) s = .next s' ∧ SMap.find (32 * dieAt x y + k.pri) (s'.part r.part).turn = some k.q ∧
        (∃ g, s'.region rn = some g ∧ g.phase = .configured ∧ g.x0 = x ∧ g.y0 = y ∧ g.unit = was.unit ∧ g.cutN = was.cutN ∧
          g.launch = r.launch ∧ g.save = none) ∧
        ∀ z ∈ r.lastSnap.elems,
          (let e := s'.elem (r.moveElem x y z.1)
           let kept := s.savedElem was z.1 z.2
           e.s = kept.s ∧ e.v = kept.v ∧ e.cnt = kept.cnt ∧ e.queues = kept.queues ∧ e.axs = kept.axs ∧ e.lfp = kept.lfp)))

/-- When a unit's work is done and another remains, its tokens land, and once the out ports have written theirs a forced cut precedes its release and another the start of the next unit, whose elements
are in the launch-start state (R332, R337, R343). A launch that is done leaves its cores and its queue goes on (R342). Released launches tell
their successors, and one whose queue has room is appended to it (R344). A cancel of a counter ends every launch that names it (R348). -/
def Obligations.LaunchProgress : Prop :=
  (∀ (s : State) (rn : Nat) (r : Region), s.region rn = some r →
    (s.unitOver rn r = false → exec (.unitStart rn) s = .next s) ∧
    (s.unitOver rn r = true → (s.land rn r).unwritten rn r = true → exec (.unitStart rn) s = .next (s.land rn r)) ∧
    (s.unitOver rn r = true → (s.land rn r).unwritten rn r = false → r.pulls = [] → ∃ s', exec (.unitStart rn) s = .next s' ∧
      (∃ g, s'.region rn = some g ∧ g.unit = r.unit + 1 ∧ g.ixBase = r.launch.unitBase (r.unit + 1) ∧
        g.ixCnt = r.launch.unitCount (r.unit + 1) ∧ g.unitDone = false ∧ g.unitRel = false ∧ g.cutN = (r.cutN + 2) % 65536 ∧
        g.forming = none ∧ g.cutReq = false ∧ g.phase = .running) ∧
      ∀ e ∈ r.elems, (s'.elem e).s = Vector.replicate 16 0 ∧ (s'.elem e).v = Vector.replicate 16 0 ∧
        (s'.elem e).slots = Vector.replicate 8 none ∧ (s'.elem e).queues = Vector.replicate 32 [] ∧
        (s'.elem e).cnt = SMap.get (Vector.replicate 16 0) (r.relElem e) r.init)) ∧
  (∀ (s : State) (rn : Nat) (r : Region), s.region rn = some r → s.regions = [(rn, r)] → r.part < 8 → (s.queue r.part r.queue).gone = [] →
    (s.launchDone rn r = false ∨ s.unwritten rn r = true → exec (.launchCompletion rn) s = .next s) ∧
    (s.launchDone rn r = true → s.unwritten rn r = false → r.launch.ccg = 0 → ∃ s', exec (.launchCompletion rn) s = .next s' ∧
      s'.region rn = none ∧ (s'.queue r.part r.queue).head = (s.queue r.part r.queue).head + 1)) ∧
  (∀ (s : State) (p : Nat), p < 8 →
    (∀ rn rest r, s.releaseDue p = rn :: rest → s.region rn = some r → r.released = true → r.succRel = false → r.phase ≠ .closed →
      ∃ s', exec (.successorAppend p) s = .next s' ∧ s'.region rn = some { r with succRel := true } ∧
        ∀ a b ls z, r.part = p → r.launch.succ = [a] → s.ownRead p (a + 0x2C) 4 .record = .ok b →
          s.resolveRun noTlb p (a + 0x2C) 4 .copyWrite = .ok ls → PlainRun s ls z 4 →
          Stored s.mem s'.mem z.addr (bytesLE 4 (natLE b + (2 ^ 32 - 1))) ∧
          (natLE b ≠ 1 → (s'.part p).appends = (s.part p).appends)) ∧
    (∀ q a ls, s.releaseDue p = [] → s.appendDue p = some (q, a, ls) → ∃ s', exec (.successorAppend p) s = .next s' ∧
      (s'.queue p q).tail = (s.queue p q).tail + 1 ∧ (s'.queue p q).head = (s.queue p q).head ∧
      (s'.part p).appends = (s.part p).appends.erase (q, a) ∧ ∀ z, PlainRun s ls z 8 → Stored s.mem s'.mem z.addr (bytesLE 8 a)) ∧
    (s.releaseDue p = [] → s.appendDue p = none → exec (.successorAppend p) s = .next s)) ∧
  ∀ (s : State) (p : Nat) (v : W32),
    ((s.part p).cna = 0 ∨ v = 0 ∨ 4 < v → exec (.cancel p v) s = .next s) ∧
    ∀ rn r, p < 8 → (s.part p).cna ≠ 0 → 0 < v → v ≤ 4 → s.regions = [(rn, r)] → r.part = p → r.phase ≠ .closed → s.launchDone rn r = false → r.launch.succ = [] →
      (s.part p).queues = [] → (s.part p).appends = [] → r.launch.counter v.toNat = (s.part p).cna.toNat →
      ∃ s', exec (.cancel p v) s = .next s' ∧ s'.region rn = none ∧ (s'.queue p r.queue).head = 1

/-! ### Cuts, freezes and drains -/

/-- An element takes the shadow of a marker cut by dequeuing the markers of its section inputs and sending them on; a stale SECT only goes; a
cut that every element has shadowed is complete, and the interval before it commits (R361, R363, R364, R366, R368). A forced cut
numbers every element in one cycle; it is asked for by a marker cut that is late and by a count of tokens (R365). -/
def Obligations.Cuts : Prop :=
  (∀ (s : State) (e : Nat),
    (s.shadowDue e = none → exec (.sectionShadow e) s = .next s) ∧
    ∀ rn n r, s.shadowDue e = some (rn, n) → s.region rn = some r → ∃ s', exec (.sectionShadow e) s = .next s' ∧
      (let x := s.elem e
       let sent := x.forwardLabels.map fun l => (⟨l, Token.sect n (ctlLabel l)⟩ : OutTok)
       (s'.elem e).shadowN = n ∧ (∀ q < 32, (s'.elem e).queue q = if q ∈ x.sectionInputs then (x.queue q).tail else x.queue q) ∧
       (s'.elem e).out = x.out ++ sent.map (fun o => (x.nseq, o)) ∧ (s'.elem e).s = x.s ∧ (s'.elem e).v = x.v ∧
       ∃ g, s'.region rn = some g ∧ g.forming = some n ∧ g.cutN = r.cutN ∧ g.hold = r.hold ∧
         SMap.find e g.newSnap.elems = some (shadowOf { x with shadowN := n }))) ∧
  (∀ (s : State) (e q : Nat), q < 32 →
    (s.staleHead e q = false → exec (.staleSectDiscard e q) s = .next s) ∧
    (s.staleHead e q = true → ∃ s', exec (.staleSectDiscard e q) s = .next s' ∧ OnlyElem s s' e ∧
      s'.elem e = { s.elem e with queues := vset (s.elem e).queues q ((s.elem e).queue q).tail })) ∧
  (∀ (s : State) (rn : Nat) (r : Region), s.region rn = some r →
    (r.cutComplete = false → exec (.cutCompletion rn) s = .next s) ∧
    ∀ n, r.cutComplete = true → r.forming = some n → r.defNote = [] → ∃ s', exec (.cutCompletion rn) s = .next s' ∧
      (∃ g, s'.region rn = some g ∧ g.cutN = n ∧ g.forming = none ∧ g.hold = r.hold.filter (fun h => h.interval = n) ∧
        g.defPres = r.defPres.filter (fun d => d.1 = n) ∧ g.lastSnap.elems = r.newSnap.elems) ∧
      (∀ e ∈ r.elems, (s'.elem e).undo = (s.elem e).undo.filter fun u => u.interval = n) ∧ s'.mem = s.mem) ∧
  (∀ (s : State) (rn : Nat) (r : Region), s.region rn = some r →
    (r.phase ≠ .running ∨ s.cutDue r = false ∨ s.rectsBusy r = true → exec (.forcedCut rn) s = .next s) ∧
    (r.phase = .running → s.cutDue r = true → s.rectsBusy r = false → ∃ s', exec (.forcedCut rn) s = .next s' ∧
      (∃ g, s'.region rn = some g ∧ g.cutN = (r.cutN + 1) % 65536 ∧ g.forming = none ∧ g.lastFlt = [] ∧
        g.lastSnap.elems.map Prod.fst = r.elems ∧
        (r.defNote = [] → (∀ e ∈ r.elems, (s.elem e).posted = []) → s.updates = [] → s.engines = [] →
          (∀ c ∈ r.cores, ∀ k < 8, s.port c k = none) → g.hold = [] ∧ g.defPres = [])) ∧
      ∀ e ∈ r.elems, (s'.elem e).shadowN = (r.cutN + 1) % 65536)) ∧
  ∀ (s : State) (rn : Nat) (r : Region), s.region rn = some r →
    (s.cutLate r = true → ∃ s', exec (.markerCutTimeout rn) s = .next s' ∧ s' = s.setRegion rn { r with cutReq := true }) ∧
    (s.cutLate r = false → exec (.markerCutTimeout rn) s = .next s) ∧
    (r.tokensDue = true → ∃ s', exec (.sectionTokenCount rn) s = .next s' ∧ s' = s.setRegion rn { r with sectTok := 0, cutReq := true }) ∧
    (r.tokensDue = false → exec (.sectionTokenCount rn) s = .next s)

/-- A freeze stops its region with everything of it captured, unless the pool has no room for it; the readout writes the save area, one 64 KiB
unit a step, and frees the cores after the last (R351 to R354, R392). A drain lets TAIL run through every element, which passes it on with its section inputs' tails taken, and stops the
region when the last is done (R361, R362). -/
def Obligations.FreezesAndDrains : Prop :=
  (∀ (s : State) (rn : Nat) (r : Region), s.region rn = some r →
    (r.freezable = false ∨ s.launchDone rn r = true ∨ s.takeSave rn = none → exec (.freeze rn) s = .next s) ∧
    ∀ u, r.freezable = true → s.launchDone rn r = false → s.takeSave rn = some u → ∃ s', exec (.freeze rn) s = .next s' ∧
      Stopped s s' rn (if r.frz = [] then .driver else .frz) ∧
      (s.sharers rn r = [] → (∀ f ∈ s'.pend, f.reg ≠ rn) ∧ (∀ f ∈ s'.flight, s'.destReg f.dst ≠ some rn) ∧ s'.entriesOf rn = [])) ∧
  (∀ (s : State) (rn : Nat) (r : Region), s.region rn = some r →
    (let older := ∃ g ∈ s.regions, g.2.part = r.part ∧ g.2.phase = .stopped ∧ g.2.save = none ∧ g.2.stamp < r.stamp
    (r.phase ≠ .stopped ∨ s.accepted r = true ∨ s.takeSave rn = none ∨ ((s.part r.part).pause = true ∧ r.why ≠ .pause) ∨
        (r.save = none ∧ older) →
      exec (.saveReadout rn) s = .next s) ∧
    (r.phase = .stopped → s.accepted r = false → ((s.part r.part).pause = false ∨ r.why = .pause) → (r.save ≠ none ∨ ¬ older) →
      s.takeSave rn ≠ none →
      (let unit := r.saveAt.getD 0
       (unit + 65536 < r.engOffset + r.lastSnap.engSize r → ∃ s', exec (.saveReadout rn) s = .next s' ∧
         ∃ g, s'.region rn = some g ∧ g.phase = .stopped ∧ g.saveAt = some (unit + 65536) ∧ g.save ≠ none) ∧
       (r.engOffset + r.lastSnap.engSize r ≤ unit + 65536 → ∃ s', exec (.saveReadout rn) s = .next s' ∧
         (∃ g, s'.region rn = some g ∧ g.phase = (if r.why = .drain then .drained else .frozen) ∧ g.saveAt = none ∧ g.rects = [] ∧
           g.hold = [] ∧ g.saveT = s.cycle - r.stamp ∧ g.cutN = r.cutN ∧ g.unit = r.unit) ∧
         (∀ e ∈ r.elems, r.frz = [] → (s'.elem e).slots = Vector.replicate 8 none ∧ (s'.elem e).queues = Vector.replicate 32 [] ∧
           (s'.elem e).filled = []) ∧ s'.pcsOf rn = []) ∧
       ∀ a bs ls z, r.save = some a → r.saveAt ≠ none → clip unit (unit + 65536) (saveParts r r.lastSnap) = [(unit, bs)] →
         s.resolveRun noTlb r.part ((s.part r.part).svb.toNat + 65536 * a + unit) bs.length .save = .ok ls → PlainRun s ls z bs.length →
         ∃ s', exec (.saveReadout rn) s = .next s' ∧ Stored s.mem s'.mem z.addr bs)))) ∧
  (∀ (s : State) (rn : Nat) (r : Region), s.region rn = some r →
    (r.phase = .running → r.drain = false → ∃ s', exec (.drain rn) s = .next s' ∧ s'.elems = s.elems ∧
      (s.takeSave rn = none → s' = s.setRegion rn { r with drain := true }) ∧
      ∀ u, s.takeSave rn = some u → ∃ g, s'.region rn = some g ∧ g = { r with drain := true, save := g.save } ∧ g.save ≠ none) ∧
    (r.phase ≠ .running ∨ r.drain = true → exec (.drain rn) s = .next s) ∧
    (s.drainDone rn r = false ∨ s.launchDone rn r = true → exec (.drainCompletion rn) s = .next s) ∧
    (s.drainDone rn r = true → s.launchDone rn r = false → ∃ s', exec (.drainCompletion rn) s = .next s' ∧
      ∃ g, s'.region rn = some g ∧ g.phase = .stopped ∧ g.why = .drain ∧ g.drain = true)) ∧
  ∀ (s : State) (e : Nat),
    (s.tailDue e = false → exec (.tailLampPass e) s = .next s) ∧
    (s.tailDue e = true → ∃ s', exec (.tailLampPass e) s = .next s' ∧ OnlyElem s s' e ∧
      (let x := s.elem e
       let sent := x.forwardLabels.map fun l => (⟨l, Token.bare .tail (ctlLabel l) 0⟩ : OutTok)
       (s'.elem e).tailed = true ∧ (∀ q < 32, (s'.elem e).queue q = if q ∈ x.sectionInputs then (x.queue q).tail else x.queue q) ∧
       (s'.elem e).out = x.out ++ sent.map (fun o => (x.nseq, o)) ∧ (s'.elem e).s = x.s ∧ (s'.elem e).v = x.v))


/-! ### The device -/

/-- A queue takes a TAIL inside its ring and its control only while it is not enabled; the fault ring takes its registers and at once what
waits for it; a field of FLTS written zero is cleared; a queue's registers read as they stand; and the hypervisor lets a stopped master go on by its
record's number (R325, R326, R327,
R354, R374, R382). A register is written through PF BAR0, or through the window of a function that accepts accesses (R377, R378, R394,
R399). -/
def Obligations.Registers : Prop :=
  ∀ (s : State) (p : Nat), p < 8 →
    (let x := s.part p
     (∀ (q : Nat) (v : W32),
       (let y := s.queue p q
        let ok := y.dev = false ∧ (v - y.head).toNat ≤ 2 ^ y.rsz ∧ y.used ≤ (v - y.head).toNat
        (ok → ∃ s', exec (.queueTailWrite p q v) s = .next s' ∧ s'.queue p q = { y with tail := v } ∧
          ∀ k, k ≠ q → s'.queue p k = s.queue p k) ∧
        (¬ ok → exec (.queueTailWrite p q v) s = .next s) ∧
        (y.en = true → exec (.qctlWrite p q v) s = .next s) ∧
        (y.en = false → v.getLsbD 31 = false → ∃ s', exec (.qctlWrite p q v) s = .next s' ∧
          s'.queue p q = { y with ctl := v &&& 0xF0FF001F }) ∧
        (y.en = false → v.getLsbD 31 = true → ∃ s', exec (.qctlWrite p q v) s = .next s' ∧
          s'.queue p q = { y with ctl := v &&& 0xF0FF001F, head := 0, tail := 0, gone := [] }))) ∧
     (x.recs = [] →
       (∀ v, ∃ s', exec (.fqhWrite p v) s = .next s' ∧ s'.part p = { x with fqh := v } ∧ s'.mem = s.mem) ∧
       (∀ v, ∃ s', exec (.fqbWrite p v) s = .next s' ∧ s'.part p = { x with fqb := v &&& ~~~63 } ∧ s'.mem = s.mem) ∧
       (∀ v, v.toNat = 0 ∨ (4 ≤ v.toNat ∧ v.toNat ≤ 16) → ∃ s', exec (.fqszWrite p v) s = .next s' ∧
         s'.part p = { x with fqsz := v.toNat }) ∧
       ∀ v, ¬ (v.toNat = 0 ∨ (4 ≤ v.toNat ∧ v.toNat ≤ 16)) → ∃ s', exec (.fqszWrite p v) s = .next s' ∧ s'.part p = x) ∧
     (∀ v f ls z, x.recs = [(f, none)] → x.fqb ≠ 0 → x.fqsz ≠ 0 → (x.fqt - v).toNat < 2 ^ x.fqsz →
       s.resolveRun noTlb p (x.fqb.toNat + 64 * (x.fqt.toNat % 2 ^ x.fqsz)) 64 .ring = .ok ls → PlainRun s ls z 64 →
       ∃ s', exec (.fqhWrite p v) s = .next s' ∧ Stored s.mem s'.mem z.addr f.bytes ∧
         s'.part p = { x with fqh := v, fqt := x.fqt + 1, ringBad := false, recs := [] }) ∧
     (∀ v : W32, ∃ s', exec (.fltsClear p v) s = .next s' ∧
       ∀ f ∈ [(0, 12), (12, 12), (24, 8)], bitsOf (s'.part p).flts.toNat f.1 f.2 =
         if bitsOf v.toNat f.1 f.2 = 0 then 0 else bitsOf x.flts.toNat f.1 f.2) ∧
     (∀ q < 64, s.ready = true →
       (let at_ := 0x1000000 + 0x100000 * p + 0x40 * q
        ∀ f ∈ ([(0x10, (s.queue p q).head.toNat), (0x14, (s.queue p q).tail.toNat), (0x18, (s.qsts p q).toNat), (0x1C, 0)] : List (Nat × Nat)),
          s.registerRead 0 (at_ + f.1) 4 = some (bytesLE 4 f.2))) ∧
     (∀ v : W32, (s.vios.find? fun y => y.1 == v.toNat) = none → exec (.vioRelease v) s = .next s) ∧
     (∀ (v : W32) a b, (s.vios.find? fun y => y.1 == v.toNat) = some (v.toNat, .region a b) → ∃ s', exec (.vioRelease v) s = .next s' ∧
       s' = { s with vios := s.vios.erase (v.toNat, .region a b) }) ∧
     (∀ (v : W32) f, f < 9 → (s.vios.find? fun y => y.1 == v.toNat) = some (v.toNat, .func f) → ∃ s', exec (.vioRelease v) s = .next s' ∧
       s'.vios = s.vios.erase (v.toNat, .func f) ∧ s'.func f = { s.func f with stopped := false }) ∧
     (∀ (v : W64),
       (800 ≤ v.toNat % 2 ^ 32 → v.toNat % 2 ^ 32 ≤ 3000 → ∃ s', exec (.registerWrite 0 0x5000 v) s = .next s' ∧
         s' = { s with plim := BitVec.ofNat 32 v.toNat }) ∧
       (¬ (800 ≤ v.toNat % 2 ^ 32 ∧ v.toNat % 2 ^ 32 ≤ 3000) → exec (.registerWrite 0 0x5000 v) s = .next s) ∧
       (∃ s', exec (.registerWrite 0 (0x1000000 + 0x100000 * p + 0x1040) v) s = .next s' ∧
         s'.part p = { x with svb := v &&& ~~~0xFFFF } ∧ s'.mem = s.mem) ∧
       (∀ k ∈ [1, 2, 3], ∃ s', exec (.registerWrite 0 (0x1000000 + 0x100000 * p + 0x1110 + 4 * k) v) s = .next s' ∧
         s'.part p = { x with mbo := msgSet x.mbo k (BitVec.ofNat 32 v.toNat) } ∧ s'.blocks = s.blocks) ∧
       (x.en = true → exec (.registerWrite 0 (0x1000 + 0x40 * p + 0x10) v) s = .next (s.setPart p x)) ∧
       (x.en = false → ∃ s', exec (.registerWrite 0 (0x1000 + 0x40 * p + 0x10) v) s = .next s' ∧ s'.part p = { x with ptb := v }) ∧
       ∀ f, f ≠ 0 → s.partOfFn f = some p →
         (s.accepts f = true → ∃ s', exec (.registerWrite f 0x1000 v) s = .next s' ∧ s'.part p = { x with cna := v }) ∧
         (s.accepts f = false → exec (.registerWrite f 0x1000 v) s = .next s)))

/-- A move of a block from one partition to another: a notice to its owner, its answer by the same SEQ, the hot-remove of a block that holds
nothing of its donor, a scrub that leaves every row of it zero, an offer and its acceptance, or the block's assignment to the module. Each step
is refused with ERR unless the block is in the state the previous step leaves it in (R383 to R385). -/
def Obligations.BlockMoves : Prop :=
  (∀ (s : State) (p : Nat) (m : W128), p < 8 →
    (let n := msgBlock m
     let b := s.block n
     let told (s' : State) : Prop :=
       (s'.part p).mbi = m ∧
         s'.irqs = s.irqs ++ (if (s.part p).mbv.getLsbD 31 then [⟨p, (s.part p).mbv.toNat % 256⟩] else [])
     let refused (s' : State) : Prop := s'.blocks = s.blocks ∧ s'.blkCmd.getLsbD 30 = true ∧ s'.mem = s.mem
     let becomes (s' : State) (y : Block) : Prop := s'.block n = y ∧ (∀ k, k ≠ n → s'.block k = s.block k) ∧ s'.blkCmd = s.blkCmd
     let noticed := b.state = .owned ∧ b.own = p ∧ b.notice = some (msgSeq m)
     (msgType m = 1 → b.state = .owned ∧ b.own = p → ∃ s', exec (.notice p m) s = .next s' ∧ told s' ∧
       becomes s' { b with notice := some (msgSeq m) }) ∧
     (msgType m = 1 → ¬ (b.state = .owned ∧ b.own = p) → ∃ s', exec (.notice p m) s = .next s' ∧ refused s') ∧
     (msgType m = 2 → noticed → ∃ s', exec (.acknowledge p m) s = .next s' ∧ (s'.part p).mbo = m ∧
       becomes s' { b with state := .removing, notice := none }) ∧
     (msgType m = 2 → ¬ noticed → ∃ s', exec (.acknowledge p m) s = .next s' ∧ refused s') ∧
     (msgType m = 3 → noticed → ∃ s', exec (.refuse p m) s = .next s' ∧ (s'.part p).mbo = m ∧ becomes s' { b with notice := none }) ∧
     (msgType m = 3 → ¬ noticed → ∃ s', exec (.refuse p m) s = .next s' ∧ refused s') ∧
     (msgType m = 4 → b.state = .offered ∧ b.own = p → ∃ s', exec (.grant p m) s = .next s' ∧ told s' ∧ s'.blocks = s.blocks) ∧
     (msgType m = 4 → ¬ (b.state = .offered ∧ b.own = p) → ∃ s', exec (.grant p m) s = .next s' ∧ refused s') ∧
     (msgType m = 5 → b.state = .offered ∧ b.own = p → ∃ s', exec (.hotAdd p m) s = .next s' ∧ becomes s' { b with state := .owned }) ∧
     (msgType m = 5 → ¬ (b.state = .offered ∧ b.own = p) → ∃ s', exec (.hotAdd p m) s = .next s' ∧ refused s'))) ∧
  ∀ (s : State) (n : Nat), n < 288 →
    (let b := s.block n
     let becomes (s' : State) (y : Block) : Prop := s'.block n = y ∧ (∀ k, k ≠ n → s'.block k = s.block k) ∧ s'.blkCmd.getLsbD 30 = false
     let refused (s' : State) : Prop := s'.blocks = s.blocks ∧ s'.blkCmd.getLsbD 30 = true
     (s.blkCmd.getLsbD 31 = true → ∀ i ∈ ([.hotRemove n, .scrub n, .offer n 0, .assignToModule n] : List Instr), exec i s = .next s) ∧
     (s.blkCmd.getLsbD 31 = false →
       (b.state = .removing → s.blockUsed b.own n = false → ∃ s', exec (.hotRemove n) s = .next s' ∧
         becomes s' { b with state := .scrubbing, own := 15 }) ∧
       (b.state ≠ .removing ∨ s.blockUsed b.own n = true → ∃ s', exec (.hotRemove n) s = .next s' ∧ refused s') ∧
       (b.state = .scrubbing → ∃ s', exec (.scrub n) s = .next s' ∧ becomes s' b ∧ s'.blkCmd.getLsbD 31 = true ∧ s'.mem = s.mem) ∧
       (b.state ≠ .scrubbing → ∃ s', exec (.scrub n) s = .next s' ∧ refused s') ∧
       (∀ p < 8, b.state = .free → ∃ s', exec (.offer n p) s = .next s' ∧ becomes s' { b with state := .offered, own := p }) ∧
       (∀ p, b.state ≠ .free → ∃ s', exec (.offer n p) s = .next s' ∧ refused s') ∧
       (b.state = .free → ∃ s', exec (.assignToModule n) s = .next s' ∧ becomes s' { b with state := .owned, own := 8 }) ∧
       (b.state ≠ .free → ∃ s', exec (.assignToModule n) s = .next s' ∧ refused s')) ∧
     (s.blkCmd.getLsbD 31 = true → bitsOf s.blkCmd.toNat 12 3 = 2 → bitsOf s.blkCmd.toNat 0 9 = n →
       ∃ s', exec (.scrubCompletion n) s = .next s' ∧ becomes s' { b with state := .free } ∧ s'.blkCmd.getLsbD 31 = false ∧
         (∀ a, inBlock n a = true → Memory.byte s'.mem a = 0) ∧ (∀ a, inBlock n a = false → Memory.byte s'.mem a = Memory.byte s.mem a)))

/-- A partition is enabled only under the conditions of R379, and disabled with its placed regions frozen as by a violation, which the
hypervisor releases (R382, R390); PAUSE freezes them too and
T then stands and can be set (R391, R392); MAINT changes only with none placed (R388); a core taken from PCOR is left by a cut release, and a
core of another enabled partition is not given (R381). -/
def Obligations.PartitionControl : Prop :=
  ∀ (s : State) (p : Nat), p < 8 →
    (let x := s.part p
     let frozen (s' : State) (why : FreezeWhy) : Prop :=
       ∀ rn ∈ s.placedOf p, ∀ r, s.region rn = some r → r.freezable = true →
         (r.lastUnit = false ∨ (s.regions = [(rn, r)] ∧ s.launchDone rn r = false)) →
         ∃ g, s'.region rn = some g ∧ g.phase = .stopped ∧ g.stamp = s.cycle ∧ (s.regions = [(rn, r)] → g.why = why)
     (x.en = false → s.canEnable p = true → ∃ s', exec (.partitionEnable p) s = .next s' ∧
       s'.part p = { x with en := true, qflr := 0, pmig := 0, pasid := (s'.part p).pasid } ∧ (x.fn = 0 → (s'.part p).pasid = none) ∧ (∀ k, k ≠ p → s'.part k = s.part k) ∧ s'.regions = s.regions) ∧
     (x.en = true ∨ s.canEnable p = false → exec (.partitionEnable p) s = .next s) ∧
     (x.en = true → ∃ s', exec (.partitionDisable p) s = .next s' ∧ (s'.part p).en = false ∧ frozen s' .disable ∧
       ∀ rn r, s.regions = [(rn, r)] → r.part = p → r.placed = true → s.launchDone rn r = false →
         ∃ n, s'.vios = s.vios ++ [(n, .region p r.queue)]) ∧
     (x.en = false → exec (.partitionDisable p) s = .next s) ∧
     (x.pause = false → ∃ s', exec (.pauseSet p) s = .next s' ∧ (s'.part p).pause = true ∧ (s'.part p).tick = s'.part p ∧ frozen s' .pause) ∧
     (x.pause = true → exec (.pauseSet p) s = .next s) ∧
     (∃ s', exec (.pauseClear p) s = .next s' ∧ s'.part p = { x with pause := false } ∧ s'.regions = s.regions) ∧
     (∀ m, s.placedOf p = [] → ∃ s', exec (.maintWrite p m) s = .next s' ∧ s'.part p = { x with maint := m }) ∧
     (∀ m, s.placedOf p ≠ [] → exec (.maintWrite p m) s = .next s) ∧
     (∀ v : BitVec 256,
       (let clash := x.en = true ∧ ∃ k < 8, k ≠ p ∧ (s.part k).en = true ∧
          ∃ c < 256, v.getLsbD c = true ∧ (s.part k).pcor.getLsbD c = true ∧ s.sharedCore p k c = false
        (clash → exec (.pcorWrite p v) s = .next s) ∧
        (¬ clash → ∃ s', exec (.pcorWrite p v) s = .next s' ∧ (s'.part p).pcor = v ∧
          ∀ rn r, s.regions = [(rn, r)] → r.part = p → r.freezable = true → (∃ c ∈ r.cores, v.getLsbD c = false) →
            Stopped s s' rn .cutRelease))) ∧
     ∀ v : W64, ∃ s', exec (.tnowWrite p v) s = .next s' ∧
       s'.part p = if x.pause then { x with tNow := v, frac := 0 } else x)

/-- The module's outside: a write of a route stores 15 for a reserved value (R396), a window grows by what its receiver grants (R395), a peer's
accesses are performed at their home, an update of an aligned word as one that returns the old value (R205, R397, R405), the aperture of a function that accepts accesses reads and writes its partition's addresses and
counts what it drops (R393, R394), and a function that fails is stopped as by a violation (R382, R394). -/
def Obligations.Outside : Prop :=
  (∀ (s : State) (m : Nat) (v : BitVec 4), m < 16384 →
    (v.toNat < 12 → ∃ s', exec (.wrtWrite m v) s = .next s' ∧ SMap.get 15 m s'.wrt = v.toNat) ∧
    (12 ≤ v.toNat → s.wrt.Pairwise (fun a b => a.1 < b.1) → ∃ s', exec (.wrtWrite m v) s = .next s' ∧ SMap.get 15 m s'.wrt = 15)) ∧
  (∀ (s : State) (m n : Nat), ∃ s', exec (.windowGrant m n) s = .next s' ∧
    SMap.get 0 m s'.windows = SMap.get 0 m s.windows + 4096 * n ∧ s'.wrt = s.wrt) ∧
  (∀ (s : State) (a : Nat) (bs : List Byte),
    (s.Clear s.keyTag a bs.length → runExists a bs.length = true →
      ∃ s', exec (.peerAccess (.write a) bs) s = .next s' ∧ Stored s.mem s'.mem a bs ∧ s'.hostMem = s.hostMem) ∧
    (runExists a bs.length = false → exec (.peerAccess (.write a) bs) s = .next s) ∧
    (∀ n, runExists a n = true → exec (.peerAccess (.read a n) bs) s = .next { s with peerOut := s.devRead a n }) ∧
    ∀ ty op,
      (let n := tyBytes ty
       let old := natLE (s.devRead a n)
       (¬ (a % n = 0 ∧ runExists a n = true) → exec (.peerAccess (.atom op ty a) bs) s = .next s ∧ exec (.peerAccess (.cas ty a) bs) s = .next s) ∧
       (a % n = 0 → runExists a n = true → s.Clear s.keyTag a n →
         (∃ s', exec (.peerAccess (.atom op ty a) bs) s = .next s' ∧ s'.peerOut = bytesLE n old ∧
           Stored s.mem s'.mem a (bytesLE n (updateOp (op % 8) ty .rne false old (natLE bs)).1)) ∧
         (old = natLE (bs.take n) → ∃ s', exec (.peerAccess (.cas ty a) bs) s = .next s' ∧ s'.peerOut = bytesLE n old ∧
           Stored s.mem s'.mem a (bytesLE n (natLE (bs.drop n)))) ∧
         (old ≠ natLE (bs.take n) → exec (.peerAccess (.cas ty a) bs) s = .next { s with peerOut := bytesLE n old })))) ∧
  (∀ (s : State) (f p off n : Nat), s.partOfFn f = some p →
    (let va := (s.part p).apb.toNat + off
     (s.accepts f = false → exec (.hostBar2Read f off n) s = .next { s with hostIn := none }) ∧
     (∀ ls, s.accepts f = true → off + n ≤ 2 ^ 36 → s.resolveRun noTlb p va n .load = .ok ls →
       ∃ s', exec (.hostBar2Read f off n) s = .next s' ∧ s' = { s with hostIn := some (s.readRun va ls) }) ∧
     (∀ code a, s.accepts f = true → off + n ≤ 2 ^ 36 → s.resolveRun noTlb p va n .load = .fault code a → code ≠ 0x1A →
       ∃ s', exec (.hostBar2Read f off n) s = .next s' ∧ s' = { s with hostIn := none }))) ∧
  (∀ (s : State) (f p off : Nat) (bs : List Byte), s.partOfFn f = some p → p < 8 →
    (let va := (s.part p).apb.toNat + off
     (s.accepts f = false → exec (.hostBar2Write f off bs) s = .next s) ∧
     (∀ ls l, s.accepts f = true → off + bs.length ≤ 2 ^ 36 → s.resolveRun noTlb p va bs.length .store = .ok ls →
       PlainRun s ls l bs.length → ∃ s', exec (.hostBar2Write f off bs) s = .next s' ∧ Stored s.mem s'.mem l.addr bs) ∧
     (∀ code a, s.accepts f = true → off + bs.length ≤ 2 ^ 36 → s.resolveRun noTlb p va bs.length .store = .fault code a → code ≠ 0x1A →
       ∃ s', exec (.hostBar2Write f off bs) s = .next s' ∧ s'.mem = s.mem ∧ Counted s s' p 0 12))) ∧
  ∀ (s : State) (f : Nat), 1 ≤ f → f ≤ 8 →
    (∀ i ∈ ([.tdispError f, .tdispStateChange f 3] : List Instr),
      (∃ s', exec i s = .next s' ∧ (s'.func f).tdisp = .error) ∧
      ∀ p, s.partOfFn f = some p → ∃ s', exec i s = .next s' ∧ s'.func f = { s.func f with tdisp := .error, stopped := true } ∧
        s'.vios = s.vios ++ [((s.part p).rseq, .func f)] ∧ (s.modReg 0x4020 = 0 → ∃ m, s'.mfq.getLast? = some m ∧ m.code = 0x1A ∧ m.src = 6)) ∧
    ∀ t ∈ ([(0, .unlocked), (1, .locked), (2, .run)] : List (Nat × Tdisp)),
      ∃ s', exec (.tdispStateChange f t.1) s = .next s' ∧ s'.func f = { s.func f with tdisp := t.2 } ∧ ∀ g, g ≠ f → s'.func g = s.func g

/-- A module reset brings every element, core, partition and block to its state at reset and keeps what stands outside the module and the
firmware, which runs if its signature holds; the recovery path takes only an image whose signature holds; a key slot that an enabled partition
names keeps its key; and an attestation report begins with the firmware's measurement, carries the nonce, and ends with its signature (R389,
R398). -/
def Obligations.ModuleControl : Prop :=
  (∀ s : State, ∃ s', exec .moduleReset s = .next s' ∧
    (∀ e, s'.elem e = Elem.reset e) ∧ (∀ c, s'.core c = Core.reset) ∧ (∀ p < 8, s'.part p = Part.reset) ∧ s'.regions = [] ∧ s'.mem = [] ∧
    s'.pres = [] ∧ s'.flight = [] ∧ s'.pend = [] ∧ (∀ b, s'.block b = ⟨.owned, 0, none⟩) ∧ s'.hostMem = s.hostMem ∧ s'.peerMem = s.peerMem ∧
    s'.fw = s.fw ∧ s'.ready = fwGood s.fw s.fwSig s.fwKey ∧ s'.recovery = !fwGood s.fw s.fwSig s.fwKey) ∧
  (∀ (s : State) (img sig key : List Byte), ∃ s', exec (.recoveryImage img sig key) s = .next s' ∧
    s' = if s.recovery = true ∧ fwGood img sig key = true then
      { s with fw := img, fwSig := sig, fwKey := key, recovery := false, ready := true } else s) ∧
  (∀ (s : State) (k : Nat),
    (k < 16 → (∀ p < 8, (s.part p).en = true → (s.part p).key ≠ k) → ∃ s', exec (.keyGeneration k) s = .next s' ∧
      vget s'.keys k 0 = vget s.keys k 0 + 1 ∧ s'.parts = s.parts) ∧
    (∀ p < 8, (s.part p).en = true → (s.part p).key = k → exec (.keyGeneration k) s = .next s)) ∧
  ∀ (s : State) (nonce : List Byte), ∃ s', exec (.attestationReport nonce) s = .next s' ∧ s'.mem = s.mem ∧
    ∃ body, s'.report = body ++ Config.sign body ∧ body.take 64 = bytesLE 64 (Config.sha3 s.fw).toNat ∧
      nonce <:+ body ∧ body.length = 64 + 64 * Config.imageKeys.length + 8 * 64 + 288 + nonce.length

/-! ### Words -/

/-- Decoding and encoding are inverse: a well-formed instruction is what is read from its encoding, a pair of halves from the word that
holds both, and a word that decodes is the encoding of what it decodes to, to its last bit (R50 to R76). -/
def Obligations.EncodeDecode : Prop :=
  (∀ i : Instr, i.wf = true → ∀ c, encode i = some c → decodeCode c = .ok (.single i)) ∧
  (∀ (t : TU) (sc vh : Instr) (a b : W32), sc.wf = true → vh.wf = true → encode sc = some (.half a) → encode vh = some (.half b) →
    decodeWord (encodeT t ++ encodeU t true ++ (a ++ b)) = .ok (.pair t sc vh)) ∧
  (∀ (w : W128) (i : Instr), decodeWord w = .ok (.single i) → encode i = some (.word w)) ∧
  ∀ (w : W128) (t : TU) (sc vh : Instr), decodeWord w = .ok (.pair t sc vh) →
    ∃ a b, encode sc = some (.half a) ∧ encode vh = some (.half b) ∧ w = encodeT t ++ encodeU t true ++ (a ++ b)

/-- Words that the spec writes out decode to the instructions it gives for them: t0, t1 and t2 of COUNT3, stored bytes and all, and the
operations of eight entries. Words it reserves are refused by name (R23, R26, R50, R55, R58, R69, R76, R92). -/
def Obligations.DecodeWords : Prop :=
  (let t0 : TU := { plainTU with pri := 1, ca := true, op1 := 1, o1e := true, op2 := 2, o2e := true, cho := 1 }
   let t1 : TU := { plainTU with epa := 1, ca := true, op1 := 0, o1e := true }
   let t2 : TU := { plainTU with epa := 2, ca := true, op1 := 3, o1e := true, ol := 33, ole := true }
   decodeWord 0x90800000819500001400414082400003 = .ok (.single (.cmp t0 ⟨.s32, .s 1, .s 2, .imm, .zero, 2, 3⟩)) ∧
     decodeBytes [0x01, 0x00, 0x00, 0x82, 0x40, 0x81, 0x00, 0x15, 0x00, 0x00, 0x80, 0x80, 0x00, 0x00, 0x80, 0x81] =
       .ok (.single (.add t1 ⟨.s32, .s 2, .s 2, .imm, .zero, 0, 1⟩)) ∧
     decodeWord 0x82800000838043001008014182000000 = .ok (.single (.mov t2 ⟨.s32, .none, .s 2, .zero, .zero, 0, 0⟩))) ∧
  (∀ t : TU,
    decodeO t 0x7360E08482000085 = .ok (.mxacc t ⟨.f32, .s 3, .zero, .s 4, .zero, 0, 0, 0, 0x85⟩) ∧
    decodeO t 0x7208034182000000 = .ok (.mxc t ⟨.s32, .none, .s 6, .zero, .zero, 0, 0, 0, 0⟩) ∧
    decodeO t 0x5C0820C182040001 = .ok (.rfen t ⟨.s32, .none, .zero, .zero, .zero, 0, 0, 4, 1⟩) ∧
    decodeO t 0x910820C182000005 = .ok (.wrsr t ⟨.s32, .none, .zero, .zero, .zero, 0, 0, 0, 5⟩) ∧
    decodeO t 0x0E00C00282040000 = .ok (.lnch t ⟨.s32, .s 3, .s 0, .s 2, .zero, 0, 0, 4, 0⟩) ∧
    decodeO t 0x0D00E0C182000000 = .ok (.rpull t ⟨.s32, .s 3, .zero, .zero, .zero, 0, 0, 0, 0⟩) ∧
    decodeO t 0x5E080202821401C3 = .ok (.scat t ⟨.s32, .none, .s 4, .s 2, .zero, 0, 2, 4, 0x1C3⟩) ∧
    decodeO t 0x5108044100000100 = .ok (.pref t ⟨.s32, .none, .s 8, .zero, 0, 0, 0, 0, 0x100⟩) ∧
    decodeO t 0x5300000000000000 = .error .reservedOpcode ∧
    decodeO t 0x10F0000000000000 = .error .reservedType ∧
    decodeO t 0x1008800000000000 = .error .reservedDestination ∧
    decodeO t 0x10003F8000000000 = .error .reservedSource) ∧
  decodeWord 0 = .error .notValid ∧ decodeWord 1 = .error .strayBits ∧
  decodeWord 0x80000000000000020000000000000000 = .error .reservedField ∧ decodeBytes [0] = .error .length

/-! ### Steps -/

/-- The turn at the head of the agenda runs the instruction that the bits of the transition chosen by the trump order decode to, around
it the issue and the end of the turn; a pair runs its scalar half, and its vector half in the next step; an event at the head of the
agenda is that event; a turn that may not issue changes nothing. A completion of the element whose cycle is fixed comes first, and so does one before a younger completion; and a cycle
in which nothing is left to do ends with a tick (R27, R40, R50, log 1, log 13, log 29). -/
def Obligations.StepRunsDecoded : Prop :=
  (∀ (s : State) (e : Nat) (p : Bool) (rest : List Choice), s.pairDone = none → s.agenda = .turn e p :: rest → s.closing = false →
    (let u := { s with agenda := rest }
     (∀ (c : Cur) (i : Instr), s.dueFinish e = none → u.canTurn e = true → u.fetch e = some c →
       (let d := { c with prompt := p }
        (decodeWord c.word = .ok (.single i) ∨ (∃ t vh, decodeWord c.word = .ok (.pair t i vh)) →
          step s = andThen (exec i (u.begin d)) fun t => t.closeTurn (u.elem e).nseq d))) ∧
     (s.dueFinish e = none → u.canTurn e = false ∨ u.fetch e = none → step s = .next u) ∧
     ∀ d, s.dueFinish e = some d → step s = exec d.2 s)) ∧
  (∀ (s : State) (h : PairHalf) (c : Cur), s.pairDone = some h → s.cur = some c →
    step s = andThen (exec h.vh s) fun t => { t.closeTurn (s.elem c.elem).nseq c with cur := none, pairDone := none }) ∧
  (∀ (s : State) (i : Instr) (rest : List Choice), s.pairDone = none → s.agenda = .event i :: rest → layoutOf i = .none →
    workEvent i = !s.closing → (s.closing = true → s.dueFlip = none) →
    (s.dueBefore (.event i) = none → step s = exec i { s with agenda := rest }) ∧ ∀ d, s.dueBefore (.event i) = some d → step s = exec d s) ∧
  ∀ (s : State) (rest : List Choice), s.pairDone = none → s.agenda = .tick :: rest → s.closing = true → s.dueLate = none →
    step s = .next ({ s with agenda := rest } : State).nextCycle

/-- Among the enabled transitions of an element, each listed once, the trump order picks one of the highest priority, and of those the
first found upward from one above that priority's last-fired pointer, wrapping. Winning sets that priority's pointer to the winner's index
and no other pointer, whether it issues or raises SHP or PLN, and an element that has issued in a cycle has no second turn in it (R27). -/
def Obligations.TrumpOrder : Prop :=
  (∀ (s : State) (e : Nat) (x : Elem),
    ((s.enabledList e x).Pairwise fun a b => a.1 < b.1) ∧ ∀ a ∈ s.enabledList e x, a.1 < 32 ∧ a.2 < 8) ∧
  (∀ (x : Elem) (en : List (Nat × Nat)) (k pri : Nat), (en.Pairwise fun a b => a.1 < b.1) → (∀ a ∈ en, a.1 < 32) →
    let far := fun j : Nat => (j + 31 - (vget x.lfp pri 31).toNat) % 32
    (trump x en = some (k, pri) ↔
      (k, pri) ∈ en ∧ (∀ a ∈ en, a.2 ≤ pri) ∧ ∀ a ∈ en, a.2 = pri → far k ≤ far a.1)) ∧
  (∀ (x : Elem) (en : List (Nat × Nat)), trump x en = none ↔ en = []) ∧
  (∀ (s : State) (e : Nat) (c : Cur), s.fetch e = some c →
    c.elem = e ∧ trump (s.view e) (s.enabledList e (s.view e)) = some (c.tix, c.word.toNat / 2 ^ 124 % 8)) ∧
  (∀ (s : State) (n : Nat) (c : Cur), ∀ p < 8,
    vget ((s.closeTurn n c).elem c.elem).lfp p 0 =
      if p = c.word.toNat / 2 ^ 124 % 8 then BitVec.ofNat 5 c.tix else vget (s.elem c.elem).lfp p 0) ∧
  ∀ (s : State) (c : Cur), c.elem ∈ (s.begin c).issued ∧ (c.elem ∈ s.issued → s.canTurn c.elem = false)

/-- Every step that goes on keeps the three memories in canonical form: addresses strictly rising, and no entry equal to what an unlisted
address reads as (R185, log 5, log 6). -/
def Obligations.MemoryInvariant : Prop := ∀ s s' : State, s.MemOk → step s = .next s' → s'.MemOk

/-- Right after reset memory is in canonical form and every byte of it reads zero; nothing is launched,
in flight or pending, no launch queue is enabled, and the registers hold the values the spec gives for reset; every element that nothing
has placed holds no valid transition and its last-fired pointers at 31 (R47, R51, R185, R198, R199, R202, R347, R379, R384, R396, R398). -/
def Obligations.ResetState : Prop :=
  State.reset.MemOk ∧ (∀ a, Memory.byte State.reset.mem a = 0) ∧
  State.reset.regions = [] ∧ State.reset.flight = [] ∧ State.reset.pend = [] ∧ State.reset.pgfs = [] ∧ State.reset.tags = [] ∧
  State.reset.ready = false ∧
  (∀ p < 8, let x := State.reset.part p
    x.en = false ∧ x.maint = false ∧ x.pause = false ∧ x.pslt = 0 ∧ x.fltTmo = 1000 ∧ x.flts = 0 ∧ x.pmig = 0 ∧ x.qflr = 0 ∧ x.queues = []) ∧
  State.reset.blkCmd = 0 ∧ State.reset.wrt = [] ∧
  ∀ e, (∀ k < 32, decodeWord (vget (State.reset.elem e).pool k 0) = .error .notValid) ∧
    (∀ p < 8, vget (State.reset.elem e).lfp p 0 = 31) ∧ ∀ k < 8, State.reset.slot e k = none

/-! ### Integer lanes -/

/-- ABS and NEG of integers. Of a signed minimum both give the minimum when wrapping and the maximum with SA under .sat, and NEG of an
unsigned x gives 2^width − x when wrapping, and under .sat 0 with SA unless x is 0; otherwise the absolute value and the negative
(R158). -/
def Obligations.AbsoluteAndNegative : Prop :=
  ∀ (s : State) (t : TU) (o : FmtA) (f : Firing), Ordinary s t f → Roomy s f.e → Wf.isInt64 o.ty = true →
    let w := Ty.width o.ty
    let sat := o.mod == 1
    let xs := (operand s f o o.a).1
    let least (x : Nat) : Bool := Ty.signed o.ty && x == 2 ^ (w - 1)
    let result (y : Nat → Nat) (sa : Nat → Bool) : Res := ⟨o.ty, vecOp o, xs.map y, if xs.any sa then flSA else flNone⟩
    (let r := result
        (fun x => if least x && sat then 2 ^ (w - 1) - 1 else if Ty.signed o.ty && 2 ^ (w - 1) ≤ x then 2 ^ w - x else x)
        fun x => sat && least x
     ∃ s', exec (.abs t o) s = .next s' ∧ Results s s' f o.d r.nonzero r) ∧
    (let r := result
        (fun x => if sat && !Ty.signed o.ty then 0 else if least x && sat then 2 ^ (w - 1) - 1 else (2 ^ w - x) % 2 ^ w)
        fun x => sat && (if Ty.signed o.ty then least x else x != 0)
     ∃ s', exec (.neg t o) s = .next s' ∧ Results s s' f o.d r.nonzero r)

/-- CLZ counts the leading zero bits of each lane's pattern, from 0 to the width, writes the count as a value of the type and sets no
flag: of a count c the pattern lies below 2^(width − c), and not below half of that unless c is the width (R428). -/
def Obligations.LeadingZeros : Prop :=
  ∀ (s : State) (t : TU) (o : FmtA) (f : Firing), Ordinary s t f → Roomy s f.e → Wf.isInt64 o.ty = true →
    ∃ s' cs, exec (.clz t o) s = .next s' ∧
      (let w := Ty.width o.ty
       let xs := (operand s f o o.a).1
       let r : Res := ⟨o.ty, vecOp o, cs, flNone⟩
       Results s s' f o.d r.nonzero r ∧ (s'.elem f.e).axs = (s.elem f.e).axs ∧ cs.length = xs.length ∧
       ∀ (k x c : Nat), xs[k]? = some x → cs[k]? = some c → c ≤ w ∧ x < 2 ^ (w - c) ∧ (c < w → 2 ^ (w - c - 1) ≤ x))

/-- The shifts and the rotation of each lane's pattern by the low bits of the lane of B that number its bits. SHR brings in zeros, SAR
copies of the top bit for every type, and ROT turns to the left. SHL under .sat gives the limit of the type on A's side and sets SA when a
bit shifted out, or for a signed type the resulting sign bit, differs from the original sign (R157, R506, R509). -/
def Obligations.ShiftsAndRotation : Prop :=
  ∀ (s : State) (t : TU) (o : FmtA) (f : Firing), Ordinary s t f → Roomy s f.e → Wf.isInt64 o.ty = true →
    let w := Ty.width o.ty
    let xs := (operand s f o o.a).1
    let ys := (operand s f o o.b).1
    let result (g : BitVec w → Nat → BitVec w) (sa : BitVec w → Nat → Bool) : Res :=
      ⟨o.ty, vecOp o, List.zipWith (fun a b => (g (BitVec.ofNat w a) (b % w)).toNat) xs ys,
        if (List.zipWith (fun a b => sa (BitVec.ofNat w a) (b % w)) xs ys).any id then flSA else flNone⟩
    let lost (a : BitVec w) (c : Nat) : Bool := o.mod == 1 &&
      if Ty.signed o.ty then (List.range (c + 1)).any fun j => a.getLsbD (w - 1 - j) != a.getLsbD (w - 1)
      else (List.range c).any fun j => a.getLsbD (w - 1 - j)
    let limit (a : BitVec w) : BitVec w :=
      if Ty.signed o.ty then (if a.getLsbD (w - 1) then BitVec.ofNat w (2 ^ (w - 1)) else BitVec.ofNat w (2 ^ (w - 1) - 1))
      else BitVec.allOnes w
    (let r := result (fun a c => if lost a c then limit a else a <<< c) lost
     ∃ s', exec (.shl t o) s = .next s' ∧ Results s s' f o.d r.nonzero r) ∧
    (let r := result (fun a c => a >>> c) fun _ _ => false
     ∃ s', exec (.shr t o) s = .next s' ∧ Results s s' f o.d r.nonzero r) ∧
    (let r := result (fun a c => a.sshiftRight c) fun _ _ => false
     ∃ s', exec (.sar t o) s = .next s' ∧ Results s s' f o.d r.nonzero r) ∧
    (let r := result (fun a c => a.rotateLeft c) fun _ _ => false
     ∃ s', exec (.rot t o) s = .next s' ∧ Results s s' f o.d r.nonzero r)
end

