-- ==== Sys2Proof/Laws/Encoding.lean ====
section
/-! SUPPORT. The encoder and the decoder agree, field by field and format by format. -/

namespace Sys2Proof

theorem tyOfCode_codeOfTy (t : Ty) : tyOfCode (codeOfTy t) = some t := by cases t <;> rfl

theorem specialOfCode_codeOfSpecial (x : Special) : srcOfCode (codeOfSpecial x) = some (.spec x) := by cases x <;> rfl

theorem srcOfCode_codeOfSrc (s : Src) : srcOfCode (codeOfSrc s) = some s := by
  cases s with
  | s r => revert r; decide
  | v r => revert r; decide
  | q k => revert k; decide
  | imm => rfl
  | zero => rfl
  | spec x => cases x <;> rfl

theorem dstOfCode_codeOfDst (d : Dst) : dstOfCode (codeOfDst d) = some d := by
  cases d with
  | s r => revert r; decide
  | v r => revert r; decide
  | none => rfl

/-! ### Fields of a word -/

/-- The upper part of two joined vectors. -/
theorem extract_upper {m n : Nat} (a : BitVec m) (b : BitVec n) (k l : Nat) (h : n ≤ k) :
    (a ++ b).extractLsb' k l = a.extractLsb' (k - n) l := by
  apply BitVec.eq_of_getLsbD_eq
  intro i hi
  have h1 : ¬ k + i < n := by omega
  have h2 : k + i - n = k - n + i := by omega
  simp [BitVec.getLsbD_extractLsb', BitVec.getLsbD_append, h1, h2, hi]

/-- The lower part of two joined vectors. -/
theorem extract_lower {m n : Nat} (a : BitVec m) (b : BitVec n) (k l : Nat) (h : k + l ≤ n) :
    (a ++ b).extractLsb' k l = b.extractLsb' k l := by
  apply BitVec.eq_of_getLsbD_eq
  intro i hi
  have h1 : k + i < n := by omega
  simp [BitVec.getLsbD_extractLsb', BitVec.getLsbD_append, h1, hi]

theorem extract_all {n : Nat} (a : BitVec n) : a.extractLsb' 0 n = a := by
  apply BitVec.eq_of_getLsbD_eq
  intro i hi
  simp [BitVec.getLsbD_extractLsb', hi]

theorem getLsbD_upper {m n : Nat} (a : BitVec m) (b : BitVec n) (k : Nat) (h : n ≤ k) : (a ++ b).getLsbD k = a.getLsbD (k - n) := by
  have h1 : ¬ k < n := by omega
  simp [BitVec.getLsbD_append, h1]

theorem getLsbD_lower {m n : Nat} (a : BitVec m) (b : BitVec n) (k : Nat) (h : k < n) : (a ++ b).getLsbD k = b.getLsbD k := by
  simp [BitVec.getLsbD_append, h]

/-- Reads a field of a word written as fields side by side. -/
theorem bit1_getLsbD (b : Bool) : (bit1 b).getLsbD 0 = b := by cases b <;> rfl

theorem decodeA_encodeA (op : BitVec 8) (o : FmtA) : decodeA (encodeA op o) = .ok o := by
  obtain ⟨ty, d, a, b, c, m, i⟩ := o
  simp (disch := omega) only [decodeA, encodeA, extract_upper, extract_lower, Nat.sub_self, extract_all, Nat.reduceSub,
    tyOfCode_codeOfTy, dstOfCode_codeOfDst, srcOfCode_codeOfSrc, need]
  rfl

theorem opcode_encodeA (op : BitVec 8) (o : FmtA) : (encodeA op o).extractLsb' 56 8 = op := by
  simp (disch := omega) only [encodeA, extract_upper, extract_all, Nat.reduceSub]

theorem decodeM_encodeM (op : BitVec 8) (o : FmtM) : decodeM (encodeM op o) = .ok o := by
  obtain ⟨ty, d, a, b, ch, sc, od, m, f⟩ := o
  simp (disch := omega) only [decodeM, encodeM, extract_upper, extract_lower, Nat.sub_self, extract_all, Nat.reduceSub,
    tyOfCode_codeOfTy, dstOfCode_codeOfDst, srcOfCode_codeOfSrc, need]
  rfl

theorem opcode_encodeM (op : BitVec 8) (o : FmtM) : (encodeM op o).extractLsb' 56 8 = op := by
  simp (disch := omega) only [encodeM, extract_upper, extract_all, Nat.reduceSub]

theorem decodeE_encodeE (op : BitVec 8) (o : FmtE) : decodeE (encodeE op o) = .ok o := by
  obtain ⟨ty, d, a, b, c, e, n, sc, i⟩ := o
  simp (disch := omega) only [decodeE, encodeE, extract_upper, extract_lower, Nat.sub_self, extract_all, Nat.reduceSub,
    tyOfCode_codeOfTy, dstOfCode_codeOfDst, srcOfCode_codeOfSrc, need]
  rfl

theorem opcode_encodeE (op : BitVec 8) (o : FmtE) : (encodeE op o).extractLsb' 56 8 = op := by
  simp (disch := omega) only [encodeE, extract_upper, extract_all, Nat.reduceSub]

theorem decodeHalf_encodeHalf (sop : BitVec 6) (ty : Ty) (d : BitVec 5) (a b : BitVec 6) (i : BitVec 5) :
    decodeHalf (encodeHalf sop ty d a b i) = ofSop sop.toNat ty d a b i := by
  simp (disch := omega) only [decodeHalf, encodeHalf, extract_upper, extract_lower, Nat.sub_self, extract_all, Nat.reduceSub,
    tyOfCode_codeOfTy, need]
  rfl

/-! ### Trigger and update -/

theorem decodeTU_encode (t : TU) (pair : Bool) : decodeTU (encodeT t) (encodeU t pair) = t := by
  obtain ⟨pri, epa, eae, epb, ebe, ipi, iie, qa, qae, qb, qbe, tgt, ca, cb, dqa, dqb, op1, o1e, op2, o2e, cho, ol, ole, otg, ols⟩ := t
  simp (disch := omega) only [decodeTU, encodeT, encodeU, bitAt, extract_upper, extract_lower, getLsbD_upper, getLsbD_lower,
    Nat.sub_self, extract_all, Nat.reduceSub, bit1_getLsbD]

theorem pair_encodeU (t : TU) (pair : Bool) : (encodeU t pair).getLsbD 0 = pair := by
  simp (disch := omega) only [encodeU, getLsbD_lower, bit1_getLsbD]

theorem reserved_encodeU (t : TU) (pair : Bool) : (encodeU t pair).extractLsb' 1 3 = 0 := by
  simp (disch := omega) only [encodeU, extract_upper, extract_lower, Nat.sub_self, extract_all, Nat.reduceSub]
  rfl

theorem valid_encodeT (t : TU) : (encodeT t).getLsbD 31 = true := by
  simp (disch := omega) only [encodeT, getLsbD_upper, Nat.reduceSub]
  rfl

/-! ### Words -/

/-- A word of fields decodes by its PAIR bit. -/
theorem decodeWord_fields (t : TU) (pair : Bool) (w : W64) :
    decodeWord (encodeT t ++ encodeU t pair ++ w) =
      if pair then (do
        let sc ← decodeHalf (w.extractLsb' 32 32)
        let vh ← decodeHalf (w.extractLsb' 0 32)
        return .pair t sc vh)
      else (decodeO t w).map .single := by
  have h1 : bitAt (encodeT t ++ encodeU t pair ++ w) 127 = true := by
    simp (disch := omega) only [bitAt, getLsbD_upper, Nat.reduceSub, valid_encodeT]
  have h2 : (encodeT t ++ encodeU t pair ++ w).extractLsb' 65 3 = 0 := by
    rw [extract_upper _ _ _ _ (by omega), extract_lower _ _ _ _ (by omega)]
    exact reserved_encodeU t pair
  have h3 : (encodeT t ++ encodeU t pair ++ w).extractLsb' 96 32 = encodeT t := by
    simp (disch := omega) only [extract_upper, extract_all, Nat.reduceSub]
  have h4 : (encodeT t ++ encodeU t pair ++ w).extractLsb' 64 32 = encodeU t pair := by
    simp (disch := omega) only [extract_upper, extract_lower, Nat.sub_self, extract_all, Nat.reduceSub]
  have h5 : bitAt (encodeT t ++ encodeU t pair ++ w) 64 = pair := by
    simp (disch := omega) only [bitAt, getLsbD_upper, getLsbD_lower, Nat.sub_self, Nat.reduceSub, pair_encodeU]
  have h6 : (encodeT t ++ encodeU t pair ++ w).extractLsb' 32 32 = w.extractLsb' 32 32 := extract_lower _ _ _ _ (by omega)
  have h7 : (encodeT t ++ encodeU t pair ++ w).extractLsb' 0 32 = w.extractLsb' 0 32 := extract_lower _ _ _ _ (by omega)
  have h8 : (encodeT t ++ encodeU t pair ++ w).extractLsb' 0 64 = w := by
    rw [extract_lower _ _ _ _ (by omega), extract_all]
  unfold decodeWord
  rw [h1, h2, h3, h4, h5, h6, h7, h8, decodeTU_encode]
  rfl

/-- A word of format A decodes to the instruction of its opcode. -/
theorem decode_a (op : BitVec 8) (t : TU) (o : FmtA) (i : Instr) (h : op.toNat ≤ 0x0C ∨ (0x10 ≤ op.toNat ∧ op.toNat ≤ 0x3D))
    (hi : ofOpA op.toNat t o = some i) : decodeWord (encodeT t ++ encodeU t false ++ encodeA op o) = .ok (.single i) := by
  rw [decodeWord_fields]
  simp only [decodeO, opcode_encodeA, h, decodeA_encodeA, if_true, Except.bind, hi, need]
  rfl

/-- A word of format M decodes to the instruction of its opcode. -/
theorem decode_m (op : BitVec 8) (t : TU) (o : FmtM) (i : Instr) (h : 0x40 ≤ op.toNat ∧ op.toNat ≤ 0x52)
    (hi : ofOpM op.toNat t o = some i) : decodeWord (encodeT t ++ encodeU t false ++ encodeM op o) = .ok (.single i) := by
  have h1 : ¬ (op.toNat ≤ 0x0C ∨ (0x10 ≤ op.toNat ∧ op.toNat ≤ 0x3D)) := by omega
  rw [decodeWord_fields]
  simp only [decodeO, opcode_encodeM, h1, h, decodeM_encodeM, if_true, if_false, Except.bind, hi, need, and_self]
  rfl

/-- A word of format E decodes to the instruction of its opcode. -/
theorem decode_e (op : BitVec 8) (t : TU) (o : FmtE) (i : Instr)
    (h : ¬ (op.toNat ≤ 0x0C ∨ (0x10 ≤ op.toNat ∧ op.toNat ≤ 0x3D)) ∧ ¬ (0x40 ≤ op.toNat ∧ op.toNat ≤ 0x52))
    (hi : ofOpE op.toNat t o = some i) : decodeWord (encodeT t ++ encodeU t false ++ encodeE op o) = .ok (.single i) := by
  rw [decodeWord_fields]
  simp only [decodeO, opcode_encodeE, h.1, h.2, decodeE_encodeE, if_false, Except.bind, hi, need]
  rfl

end Sys2Proof
end

