-- ==== Sys2Proof/Laws/State.lean ====
section
/-! SUPPORT. What each update of the state leaves: one lemma a field. -/

namespace Sys2Proof.Machine

open Sys2Proof

/-! ### setElem -/

@[simp] theorem State.setElem_cycle (s : State) (e : Nat) (x : Elem) : (s.setElem e x).cycle = s.cycle := rfl
@[simp] theorem State.setElem_agenda (s : State) (e : Nat) (x : Elem) : (s.setElem e x).agenda = s.agenda := rfl
@[simp] theorem State.setElem_cur (s : State) (e : Nat) (x : Elem) : (s.setElem e x).cur = s.cur := rfl
@[simp] theorem State.setElem_pairDone (s : State) (e : Nat) (x : Elem) : (s.setElem e x).pairDone = s.pairDone := rfl
@[simp] theorem State.setElem_issued (s : State) (e : Nat) (x : Elem) : (s.setElem e x).issued = s.issued := rfl
@[simp] theorem State.setElem_withheld (s : State) (e : Nat) (x : Elem) : (s.setElem e x).withheld = s.withheld := rfl
@[simp] theorem State.setElem_arrived (s : State) (e : Nat) (x : Elem) : (s.setElem e x).arrived = s.arrived := rfl
@[simp] theorem State.setElem_closing (s : State) (e : Nat) (x : Elem) : (s.setElem e x).closing = s.closing := rfl
@[simp] theorem State.setElem_free (s : State) (e : Nat) (x : Elem) : (s.setElem e x).free = s.free := rfl
@[simp] theorem State.setElem_nextId (s : State) (e : Nat) (x : Elem) : (s.setElem e x).nextId = s.nextId := rfl
@[simp] theorem State.setElem_cores (s : State) (e : Nat) (x : Elem) : (s.setElem e x).cores = s.cores := rfl
@[simp] theorem State.setElem_regions (s : State) (e : Nat) (x : Elem) : (s.setElem e x).regions = s.regions := rfl
@[simp] theorem State.setElem_engines (s : State) (e : Nat) (x : Elem) : (s.setElem e x).engines = s.engines := rfl
@[simp] theorem State.setElem_pchans (s : State) (e : Nat) (x : Elem) : (s.setElem e x).pchans = s.pchans := rfl
@[simp] theorem State.setElem_mem (s : State) (e : Nat) (x : Elem) : (s.setElem e x).mem = s.mem := rfl
@[simp] theorem State.setElem_pres (s : State) (e : Nat) (x : Elem) : (s.setElem e x).pres = s.pres := rfl
@[simp] theorem State.setElem_hostMem (s : State) (e : Nat) (x : Elem) : (s.setElem e x).hostMem = s.hostMem := rfl
@[simp] theorem State.setElem_peerMem (s : State) (e : Nat) (x : Elem) : (s.setElem e x).peerMem = s.peerMem := rfl
@[simp] theorem State.setElem_l2 (s : State) (e : Nat) (x : Elem) : (s.setElem e x).l2 = s.l2 := rfl
@[simp] theorem State.setElem_baseTlb (s : State) (e : Nat) (x : Elem) : (s.setElem e x).baseTlb = s.baseTlb := rfl
@[simp] theorem State.setElem_noMap (s : State) (e : Nat) (x : Elem) : (s.setElem e x).noMap = s.noMap := rfl
@[simp] theorem State.setElem_lent (s : State) (e : Nat) (x : Elem) : (s.setElem e x).lent = s.lent := rfl
@[simp] theorem State.setElem_flight (s : State) (e : Nat) (x : Elem) : (s.setElem e x).flight = s.flight := rfl
@[simp] theorem State.setElem_links (s : State) (e : Nat) (x : Elem) : (s.setElem e x).links = s.links := rfl
@[simp] theorem State.setElem_linkVc (s : State) (e : Nat) (x : Elem) : (s.setElem e x).linkVc = s.linkVc := rfl
@[simp] theorem State.setElem_updates (s : State) (e : Nat) (x : Elem) : (s.setElem e x).updates = s.updates := rfl
@[simp] theorem State.setElem_sided (s : State) (e : Nat) (x : Elem) : (s.setElem e x).sided = s.sided := rfl
@[simp] theorem State.setElem_pend (s : State) (e : Nat) (x : Elem) : (s.setElem e x).pend = s.pend := rfl
@[simp] theorem State.setElem_pgfs (s : State) (e : Nat) (x : Elem) : (s.setElem e x).pgfs = s.pgfs := rfl
@[simp] theorem State.setElem_tags (s : State) (e : Nat) (x : Elem) : (s.setElem e x).tags = s.tags := rfl
@[simp] theorem State.setElem_parts (s : State) (e : Nat) (x : Elem) : (s.setElem e x).parts = s.parts := rfl
@[simp] theorem State.setElem_funcs (s : State) (e : Nat) (x : Elem) : (s.setElem e x).funcs = s.funcs := rfl
@[simp] theorem State.setElem_blocks (s : State) (e : Nat) (x : Elem) : (s.setElem e x).blocks = s.blocks := rfl
@[simp] theorem State.setElem_enc (s : State) (e : Nat) (x : Elem) : (s.setElem e x).enc = s.enc := rfl
@[simp] theorem State.setElem_scrubs (s : State) (e : Nat) (x : Elem) : (s.setElem e x).scrubs = s.scrubs := rfl
@[simp] theorem State.setElem_blkCmd (s : State) (e : Nat) (x : Elem) : (s.setElem e x).blkCmd = s.blkCmd := rfl
@[simp] theorem State.setElem_shtab (s : State) (e : Nat) (x : Elem) : (s.setElem e x).shtab = s.shtab := rfl
@[simp] theorem State.setElem_mfq (s : State) (e : Nat) (x : Elem) : (s.setElem e x).mfq = s.mfq := rfl
@[simp] theorem State.setElem_vios (s : State) (e : Nat) (x : Elem) : (s.setElem e x).vios = s.vios := rfl
@[simp] theorem State.setElem_plim (s : State) (e : Nat) (x : Elem) : (s.setElem e x).plim = s.plim := rfl
@[simp] theorem State.setElem_ready (s : State) (e : Nat) (x : Elem) : (s.setElem e x).ready = s.ready := rfl
@[simp] theorem State.setElem_recovery (s : State) (e : Nat) (x : Elem) : (s.setElem e x).recovery = s.recovery := rfl
@[simp] theorem State.setElem_fw (s : State) (e : Nat) (x : Elem) : (s.setElem e x).fw = s.fw := rfl
@[simp] theorem State.setElem_fwSig (s : State) (e : Nat) (x : Elem) : (s.setElem e x).fwSig = s.fwSig := rfl
@[simp] theorem State.setElem_fwKey (s : State) (e : Nat) (x : Elem) : (s.setElem e x).fwKey = s.fwKey := rfl
@[simp] theorem State.setElem_hostIn (s : State) (e : Nat) (x : Elem) : (s.setElem e x).hostIn = s.hostIn := rfl
@[simp] theorem State.setElem_peerOut (s : State) (e : Nat) (x : Elem) : (s.setElem e x).peerOut = s.peerOut := rfl
@[simp] theorem State.setElem_report (s : State) (e : Nat) (x : Elem) : (s.setElem e x).report = s.report := rfl
@[simp] theorem State.setElem_wrt (s : State) (e : Nat) (x : Elem) : (s.setElem e x).wrt = s.wrt := rfl
@[simp] theorem State.setElem_windows (s : State) (e : Nat) (x : Elem) : (s.setElem e x).windows = s.windows := rfl
@[simp] theorem State.setElem_colls (s : State) (e : Nat) (x : Elem) : (s.setElem e x).colls = s.colls := rfl
@[simp] theorem State.setElem_keys (s : State) (e : Nat) (x : Elem) : (s.setElem e x).keys = s.keys := rfl
@[simp] theorem State.setElem_migr (s : State) (e : Nat) (x : Elem) : (s.setElem e x).migr = s.migr := rfl
@[simp] theorem State.setElem_pinned (s : State) (e : Nat) (x : Elem) : (s.setElem e x).pinned = s.pinned := rfl
@[simp] theorem State.setElem_irqs (s : State) (e : Nat) (x : Elem) : (s.setElem e x).irqs = s.irqs := rfl
@[simp] theorem State.setElem_regs (s : State) (e : Nat) (x : Elem) : (s.setElem e x).regs = s.regs := rfl

/-! ### setCore -/

@[simp] theorem State.setCore_cycle (s : State) (c : Nat) (x : Core) : (s.setCore c x).cycle = s.cycle := rfl
@[simp] theorem State.setCore_agenda (s : State) (c : Nat) (x : Core) : (s.setCore c x).agenda = s.agenda := rfl
@[simp] theorem State.setCore_cur (s : State) (c : Nat) (x : Core) : (s.setCore c x).cur = s.cur := rfl
@[simp] theorem State.setCore_pairDone (s : State) (c : Nat) (x : Core) : (s.setCore c x).pairDone = s.pairDone := rfl
@[simp] theorem State.setCore_starts (s : State) (c : Nat) (x : Core) : (s.setCore c x).starts = s.starts := rfl
@[simp] theorem State.setCore_issued (s : State) (c : Nat) (x : Core) : (s.setCore c x).issued = s.issued := rfl
@[simp] theorem State.setCore_withheld (s : State) (c : Nat) (x : Core) : (s.setCore c x).withheld = s.withheld := rfl
@[simp] theorem State.setCore_arrived (s : State) (c : Nat) (x : Core) : (s.setCore c x).arrived = s.arrived := rfl
@[simp] theorem State.setCore_closing (s : State) (c : Nat) (x : Core) : (s.setCore c x).closing = s.closing := rfl
@[simp] theorem State.setCore_free (s : State) (c : Nat) (x : Core) : (s.setCore c x).free = s.free := rfl
@[simp] theorem State.setCore_nextId (s : State) (c : Nat) (x : Core) : (s.setCore c x).nextId = s.nextId := rfl
@[simp] theorem State.setCore_elems (s : State) (c : Nat) (x : Core) : (s.setCore c x).elems = s.elems := rfl
@[simp] theorem State.setCore_regions (s : State) (c : Nat) (x : Core) : (s.setCore c x).regions = s.regions := rfl
@[simp] theorem State.setCore_engines (s : State) (c : Nat) (x : Core) : (s.setCore c x).engines = s.engines := rfl
@[simp] theorem State.setCore_pchans (s : State) (c : Nat) (x : Core) : (s.setCore c x).pchans = s.pchans := rfl
@[simp] theorem State.setCore_mem (s : State) (c : Nat) (x : Core) : (s.setCore c x).mem = s.mem := rfl
@[simp] theorem State.setCore_pres (s : State) (c : Nat) (x : Core) : (s.setCore c x).pres = s.pres := rfl
@[simp] theorem State.setCore_hostMem (s : State) (c : Nat) (x : Core) : (s.setCore c x).hostMem = s.hostMem := rfl
@[simp] theorem State.setCore_peerMem (s : State) (c : Nat) (x : Core) : (s.setCore c x).peerMem = s.peerMem := rfl
@[simp] theorem State.setCore_l2 (s : State) (c : Nat) (x : Core) : (s.setCore c x).l2 = s.l2 := rfl
@[simp] theorem State.setCore_baseTlb (s : State) (c : Nat) (x : Core) : (s.setCore c x).baseTlb = s.baseTlb := rfl
@[simp] theorem State.setCore_noMap (s : State) (c : Nat) (x : Core) : (s.setCore c x).noMap = s.noMap := rfl
@[simp] theorem State.setCore_lent (s : State) (c : Nat) (x : Core) : (s.setCore c x).lent = s.lent := rfl
@[simp] theorem State.setCore_flight (s : State) (c : Nat) (x : Core) : (s.setCore c x).flight = s.flight := rfl
@[simp] theorem State.setCore_links (s : State) (c : Nat) (x : Core) : (s.setCore c x).links = s.links := rfl
@[simp] theorem State.setCore_linkVc (s : State) (c : Nat) (x : Core) : (s.setCore c x).linkVc = s.linkVc := rfl
@[simp] theorem State.setCore_updates (s : State) (c : Nat) (x : Core) : (s.setCore c x).updates = s.updates := rfl
@[simp] theorem State.setCore_sided (s : State) (c : Nat) (x : Core) : (s.setCore c x).sided = s.sided := rfl
@[simp] theorem State.setCore_pend (s : State) (c : Nat) (x : Core) : (s.setCore c x).pend = s.pend := rfl
@[simp] theorem State.setCore_pgfs (s : State) (c : Nat) (x : Core) : (s.setCore c x).pgfs = s.pgfs := rfl
@[simp] theorem State.setCore_tags (s : State) (c : Nat) (x : Core) : (s.setCore c x).tags = s.tags := rfl
@[simp] theorem State.setCore_parts (s : State) (c : Nat) (x : Core) : (s.setCore c x).parts = s.parts := rfl
@[simp] theorem State.setCore_funcs (s : State) (c : Nat) (x : Core) : (s.setCore c x).funcs = s.funcs := rfl
@[simp] theorem State.setCore_blocks (s : State) (c : Nat) (x : Core) : (s.setCore c x).blocks = s.blocks := rfl
@[simp] theorem State.setCore_enc (s : State) (c : Nat) (x : Core) : (s.setCore c x).enc = s.enc := rfl
@[simp] theorem State.setCore_scrubs (s : State) (c : Nat) (x : Core) : (s.setCore c x).scrubs = s.scrubs := rfl
@[simp] theorem State.setCore_blkCmd (s : State) (c : Nat) (x : Core) : (s.setCore c x).blkCmd = s.blkCmd := rfl
@[simp] theorem State.setCore_shtab (s : State) (c : Nat) (x : Core) : (s.setCore c x).shtab = s.shtab := rfl
@[simp] theorem State.setCore_mfq (s : State) (c : Nat) (x : Core) : (s.setCore c x).mfq = s.mfq := rfl
@[simp] theorem State.setCore_vios (s : State) (c : Nat) (x : Core) : (s.setCore c x).vios = s.vios := rfl
@[simp] theorem State.setCore_plim (s : State) (c : Nat) (x : Core) : (s.setCore c x).plim = s.plim := rfl
@[simp] theorem State.setCore_ready (s : State) (c : Nat) (x : Core) : (s.setCore c x).ready = s.ready := rfl
@[simp] theorem State.setCore_recovery (s : State) (c : Nat) (x : Core) : (s.setCore c x).recovery = s.recovery := rfl
@[simp] theorem State.setCore_fw (s : State) (c : Nat) (x : Core) : (s.setCore c x).fw = s.fw := rfl
@[simp] theorem State.setCore_fwSig (s : State) (c : Nat) (x : Core) : (s.setCore c x).fwSig = s.fwSig := rfl
@[simp] theorem State.setCore_fwKey (s : State) (c : Nat) (x : Core) : (s.setCore c x).fwKey = s.fwKey := rfl
@[simp] theorem State.setCore_hostIn (s : State) (c : Nat) (x : Core) : (s.setCore c x).hostIn = s.hostIn := rfl
@[simp] theorem State.setCore_peerOut (s : State) (c : Nat) (x : Core) : (s.setCore c x).peerOut = s.peerOut := rfl
@[simp] theorem State.setCore_report (s : State) (c : Nat) (x : Core) : (s.setCore c x).report = s.report := rfl
@[simp] theorem State.setCore_wrt (s : State) (c : Nat) (x : Core) : (s.setCore c x).wrt = s.wrt := rfl
@[simp] theorem State.setCore_windows (s : State) (c : Nat) (x : Core) : (s.setCore c x).windows = s.windows := rfl
@[simp] theorem State.setCore_colls (s : State) (c : Nat) (x : Core) : (s.setCore c x).colls = s.colls := rfl
@[simp] theorem State.setCore_keys (s : State) (c : Nat) (x : Core) : (s.setCore c x).keys = s.keys := rfl
@[simp] theorem State.setCore_migr (s : State) (c : Nat) (x : Core) : (s.setCore c x).migr = s.migr := rfl
@[simp] theorem State.setCore_pinned (s : State) (c : Nat) (x : Core) : (s.setCore c x).pinned = s.pinned := rfl
@[simp] theorem State.setCore_irqs (s : State) (c : Nat) (x : Core) : (s.setCore c x).irqs = s.irqs := rfl
@[simp] theorem State.setCore_regs (s : State) (c : Nat) (x : Core) : (s.setCore c x).regs = s.regs := rfl

/-! ### setRegion -/

@[simp] theorem State.setRegion_cycle (s : State) (n : Nat) (x : Region) : (s.setRegion n x).cycle = s.cycle := rfl
@[simp] theorem State.setRegion_agenda (s : State) (n : Nat) (x : Region) : (s.setRegion n x).agenda = s.agenda := rfl
@[simp] theorem State.setRegion_cur (s : State) (n : Nat) (x : Region) : (s.setRegion n x).cur = s.cur := rfl
@[simp] theorem State.setRegion_pairDone (s : State) (n : Nat) (x : Region) : (s.setRegion n x).pairDone = s.pairDone := rfl
@[simp] theorem State.setRegion_starts (s : State) (n : Nat) (x : Region) : (s.setRegion n x).starts = s.starts := rfl
@[simp] theorem State.setRegion_issued (s : State) (n : Nat) (x : Region) : (s.setRegion n x).issued = s.issued := rfl
@[simp] theorem State.setRegion_withheld (s : State) (n : Nat) (x : Region) : (s.setRegion n x).withheld = s.withheld := rfl
@[simp] theorem State.setRegion_arrived (s : State) (n : Nat) (x : Region) : (s.setRegion n x).arrived = s.arrived := rfl
@[simp] theorem State.setRegion_closing (s : State) (n : Nat) (x : Region) : (s.setRegion n x).closing = s.closing := rfl
@[simp] theorem State.setRegion_free (s : State) (n : Nat) (x : Region) : (s.setRegion n x).free = s.free := rfl
@[simp] theorem State.setRegion_nextId (s : State) (n : Nat) (x : Region) : (s.setRegion n x).nextId = s.nextId := rfl
@[simp] theorem State.setRegion_elems (s : State) (n : Nat) (x : Region) : (s.setRegion n x).elems = s.elems := rfl
@[simp] theorem State.setRegion_cores (s : State) (n : Nat) (x : Region) : (s.setRegion n x).cores = s.cores := rfl
@[simp] theorem State.setRegion_engines (s : State) (n : Nat) (x : Region) : (s.setRegion n x).engines = s.engines := rfl
@[simp] theorem State.setRegion_pchans (s : State) (n : Nat) (x : Region) : (s.setRegion n x).pchans = s.pchans := rfl
@[simp] theorem State.setRegion_mem (s : State) (n : Nat) (x : Region) : (s.setRegion n x).mem = s.mem := rfl
@[simp] theorem State.setRegion_pres (s : State) (n : Nat) (x : Region) : (s.setRegion n x).pres = s.pres := rfl
@[simp] theorem State.setRegion_hostMem (s : State) (n : Nat) (x : Region) : (s.setRegion n x).hostMem = s.hostMem := rfl
@[simp] theorem State.setRegion_peerMem (s : State) (n : Nat) (x : Region) : (s.setRegion n x).peerMem = s.peerMem := rfl
@[simp] theorem State.setRegion_l2 (s : State) (n : Nat) (x : Region) : (s.setRegion n x).l2 = s.l2 := rfl
@[simp] theorem State.setRegion_baseTlb (s : State) (n : Nat) (x : Region) : (s.setRegion n x).baseTlb = s.baseTlb := rfl
@[simp] theorem State.setRegion_noMap (s : State) (n : Nat) (x : Region) : (s.setRegion n x).noMap = s.noMap := rfl
@[simp] theorem State.setRegion_lent (s : State) (n : Nat) (x : Region) : (s.setRegion n x).lent = s.lent := rfl
@[simp] theorem State.setRegion_flight (s : State) (n : Nat) (x : Region) : (s.setRegion n x).flight = s.flight := rfl
@[simp] theorem State.setRegion_links (s : State) (n : Nat) (x : Region) : (s.setRegion n x).links = s.links := rfl
@[simp] theorem State.setRegion_linkVc (s : State) (n : Nat) (x : Region) : (s.setRegion n x).linkVc = s.linkVc := rfl
@[simp] theorem State.setRegion_updates (s : State) (n : Nat) (x : Region) : (s.setRegion n x).updates = s.updates := rfl
@[simp] theorem State.setRegion_sided (s : State) (n : Nat) (x : Region) : (s.setRegion n x).sided = s.sided := rfl
@[simp] theorem State.setRegion_pend (s : State) (n : Nat) (x : Region) : (s.setRegion n x).pend = s.pend := rfl
@[simp] theorem State.setRegion_pgfs (s : State) (n : Nat) (x : Region) : (s.setRegion n x).pgfs = s.pgfs := rfl
@[simp] theorem State.setRegion_tags (s : State) (n : Nat) (x : Region) : (s.setRegion n x).tags = s.tags := rfl
@[simp] theorem State.setRegion_parts (s : State) (n : Nat) (x : Region) : (s.setRegion n x).parts = s.parts := rfl
@[simp] theorem State.setRegion_funcs (s : State) (n : Nat) (x : Region) : (s.setRegion n x).funcs = s.funcs := rfl
@[simp] theorem State.setRegion_blocks (s : State) (n : Nat) (x : Region) : (s.setRegion n x).blocks = s.blocks := rfl
@[simp] theorem State.setRegion_enc (s : State) (n : Nat) (x : Region) : (s.setRegion n x).enc = s.enc := rfl
@[simp] theorem State.setRegion_scrubs (s : State) (n : Nat) (x : Region) : (s.setRegion n x).scrubs = s.scrubs := rfl
@[simp] theorem State.setRegion_blkCmd (s : State) (n : Nat) (x : Region) : (s.setRegion n x).blkCmd = s.blkCmd := rfl
@[simp] theorem State.setRegion_shtab (s : State) (n : Nat) (x : Region) : (s.setRegion n x).shtab = s.shtab := rfl
@[simp] theorem State.setRegion_mfq (s : State) (n : Nat) (x : Region) : (s.setRegion n x).mfq = s.mfq := rfl
@[simp] theorem State.setRegion_vios (s : State) (n : Nat) (x : Region) : (s.setRegion n x).vios = s.vios := rfl
@[simp] theorem State.setRegion_plim (s : State) (n : Nat) (x : Region) : (s.setRegion n x).plim = s.plim := rfl
@[simp] theorem State.setRegion_ready (s : State) (n : Nat) (x : Region) : (s.setRegion n x).ready = s.ready := rfl
@[simp] theorem State.setRegion_recovery (s : State) (n : Nat) (x : Region) : (s.setRegion n x).recovery = s.recovery := rfl
@[simp] theorem State.setRegion_fw (s : State) (n : Nat) (x : Region) : (s.setRegion n x).fw = s.fw := rfl
@[simp] theorem State.setRegion_fwSig (s : State) (n : Nat) (x : Region) : (s.setRegion n x).fwSig = s.fwSig := rfl
@[simp] theorem State.setRegion_fwKey (s : State) (n : Nat) (x : Region) : (s.setRegion n x).fwKey = s.fwKey := rfl
@[simp] theorem State.setRegion_hostIn (s : State) (n : Nat) (x : Region) : (s.setRegion n x).hostIn = s.hostIn := rfl
@[simp] theorem State.setRegion_peerOut (s : State) (n : Nat) (x : Region) : (s.setRegion n x).peerOut = s.peerOut := rfl
@[simp] theorem State.setRegion_report (s : State) (n : Nat) (x : Region) : (s.setRegion n x).report = s.report := rfl
@[simp] theorem State.setRegion_wrt (s : State) (n : Nat) (x : Region) : (s.setRegion n x).wrt = s.wrt := rfl
@[simp] theorem State.setRegion_windows (s : State) (n : Nat) (x : Region) : (s.setRegion n x).windows = s.windows := rfl
@[simp] theorem State.setRegion_colls (s : State) (n : Nat) (x : Region) : (s.setRegion n x).colls = s.colls := rfl
@[simp] theorem State.setRegion_keys (s : State) (n : Nat) (x : Region) : (s.setRegion n x).keys = s.keys := rfl
@[simp] theorem State.setRegion_migr (s : State) (n : Nat) (x : Region) : (s.setRegion n x).migr = s.migr := rfl
@[simp] theorem State.setRegion_pinned (s : State) (n : Nat) (x : Region) : (s.setRegion n x).pinned = s.pinned := rfl
@[simp] theorem State.setRegion_irqs (s : State) (n : Nat) (x : Region) : (s.setRegion n x).irqs = s.irqs := rfl
@[simp] theorem State.setRegion_regs (s : State) (n : Nat) (x : Region) : (s.setRegion n x).regs = s.regs := rfl

/-! ### setEngine -/

@[simp] theorem State.setEngine_cycle (s : State) (g : Nat) (x : Engine) : (s.setEngine g x).cycle = s.cycle := rfl
@[simp] theorem State.setEngine_agenda (s : State) (g : Nat) (x : Engine) : (s.setEngine g x).agenda = s.agenda := rfl
@[simp] theorem State.setEngine_cur (s : State) (g : Nat) (x : Engine) : (s.setEngine g x).cur = s.cur := rfl
@[simp] theorem State.setEngine_pairDone (s : State) (g : Nat) (x : Engine) : (s.setEngine g x).pairDone = s.pairDone := rfl
@[simp] theorem State.setEngine_starts (s : State) (g : Nat) (x : Engine) : (s.setEngine g x).starts = s.starts := rfl
@[simp] theorem State.setEngine_issued (s : State) (g : Nat) (x : Engine) : (s.setEngine g x).issued = s.issued := rfl
@[simp] theorem State.setEngine_withheld (s : State) (g : Nat) (x : Engine) : (s.setEngine g x).withheld = s.withheld := rfl
@[simp] theorem State.setEngine_arrived (s : State) (g : Nat) (x : Engine) : (s.setEngine g x).arrived = s.arrived := rfl
@[simp] theorem State.setEngine_closing (s : State) (g : Nat) (x : Engine) : (s.setEngine g x).closing = s.closing := rfl
@[simp] theorem State.setEngine_free (s : State) (g : Nat) (x : Engine) : (s.setEngine g x).free = s.free := rfl
@[simp] theorem State.setEngine_nextId (s : State) (g : Nat) (x : Engine) : (s.setEngine g x).nextId = s.nextId := rfl
@[simp] theorem State.setEngine_elems (s : State) (g : Nat) (x : Engine) : (s.setEngine g x).elems = s.elems := rfl
@[simp] theorem State.setEngine_cores (s : State) (g : Nat) (x : Engine) : (s.setEngine g x).cores = s.cores := rfl
@[simp] theorem State.setEngine_regions (s : State) (g : Nat) (x : Engine) : (s.setEngine g x).regions = s.regions := rfl
@[simp] theorem State.setEngine_pchans (s : State) (g : Nat) (x : Engine) : (s.setEngine g x).pchans = s.pchans := rfl
@[simp] theorem State.setEngine_mem (s : State) (g : Nat) (x : Engine) : (s.setEngine g x).mem = s.mem := rfl
@[simp] theorem State.setEngine_pres (s : State) (g : Nat) (x : Engine) : (s.setEngine g x).pres = s.pres := rfl
@[simp] theorem State.setEngine_hostMem (s : State) (g : Nat) (x : Engine) : (s.setEngine g x).hostMem = s.hostMem := rfl
@[simp] theorem State.setEngine_peerMem (s : State) (g : Nat) (x : Engine) : (s.setEngine g x).peerMem = s.peerMem := rfl
@[simp] theorem State.setEngine_l2 (s : State) (g : Nat) (x : Engine) : (s.setEngine g x).l2 = s.l2 := rfl
@[simp] theorem State.setEngine_baseTlb (s : State) (g : Nat) (x : Engine) : (s.setEngine g x).baseTlb = s.baseTlb := rfl
@[simp] theorem State.setEngine_noMap (s : State) (g : Nat) (x : Engine) : (s.setEngine g x).noMap = s.noMap := rfl
@[simp] theorem State.setEngine_lent (s : State) (g : Nat) (x : Engine) : (s.setEngine g x).lent = s.lent := rfl
@[simp] theorem State.setEngine_flight (s : State) (g : Nat) (x : Engine) : (s.setEngine g x).flight = s.flight := rfl
@[simp] theorem State.setEngine_links (s : State) (g : Nat) (x : Engine) : (s.setEngine g x).links = s.links := rfl
@[simp] theorem State.setEngine_linkVc (s : State) (g : Nat) (x : Engine) : (s.setEngine g x).linkVc = s.linkVc := rfl
@[simp] theorem State.setEngine_updates (s : State) (g : Nat) (x : Engine) : (s.setEngine g x).updates = s.updates := rfl
@[simp] theorem State.setEngine_sided (s : State) (g : Nat) (x : Engine) : (s.setEngine g x).sided = s.sided := rfl
@[simp] theorem State.setEngine_pend (s : State) (g : Nat) (x : Engine) : (s.setEngine g x).pend = s.pend := rfl
@[simp] theorem State.setEngine_pgfs (s : State) (g : Nat) (x : Engine) : (s.setEngine g x).pgfs = s.pgfs := rfl
@[simp] theorem State.setEngine_tags (s : State) (g : Nat) (x : Engine) : (s.setEngine g x).tags = s.tags := rfl
@[simp] theorem State.setEngine_parts (s : State) (g : Nat) (x : Engine) : (s.setEngine g x).parts = s.parts := rfl
@[simp] theorem State.setEngine_funcs (s : State) (g : Nat) (x : Engine) : (s.setEngine g x).funcs = s.funcs := rfl
@[simp] theorem State.setEngine_blocks (s : State) (g : Nat) (x : Engine) : (s.setEngine g x).blocks = s.blocks := rfl
@[simp] theorem State.setEngine_enc (s : State) (g : Nat) (x : Engine) : (s.setEngine g x).enc = s.enc := rfl
@[simp] theorem State.setEngine_scrubs (s : State) (g : Nat) (x : Engine) : (s.setEngine g x).scrubs = s.scrubs := rfl
@[simp] theorem State.setEngine_blkCmd (s : State) (g : Nat) (x : Engine) : (s.setEngine g x).blkCmd = s.blkCmd := rfl
@[simp] theorem State.setEngine_shtab (s : State) (g : Nat) (x : Engine) : (s.setEngine g x).shtab = s.shtab := rfl
@[simp] theorem State.setEngine_mfq (s : State) (g : Nat) (x : Engine) : (s.setEngine g x).mfq = s.mfq := rfl
@[simp] theorem State.setEngine_vios (s : State) (g : Nat) (x : Engine) : (s.setEngine g x).vios = s.vios := rfl
@[simp] theorem State.setEngine_plim (s : State) (g : Nat) (x : Engine) : (s.setEngine g x).plim = s.plim := rfl
@[simp] theorem State.setEngine_ready (s : State) (g : Nat) (x : Engine) : (s.setEngine g x).ready = s.ready := rfl
@[simp] theorem State.setEngine_recovery (s : State) (g : Nat) (x : Engine) : (s.setEngine g x).recovery = s.recovery := rfl
@[simp] theorem State.setEngine_fw (s : State) (g : Nat) (x : Engine) : (s.setEngine g x).fw = s.fw := rfl
@[simp] theorem State.setEngine_fwSig (s : State) (g : Nat) (x : Engine) : (s.setEngine g x).fwSig = s.fwSig := rfl
@[simp] theorem State.setEngine_fwKey (s : State) (g : Nat) (x : Engine) : (s.setEngine g x).fwKey = s.fwKey := rfl
@[simp] theorem State.setEngine_hostIn (s : State) (g : Nat) (x : Engine) : (s.setEngine g x).hostIn = s.hostIn := rfl
@[simp] theorem State.setEngine_peerOut (s : State) (g : Nat) (x : Engine) : (s.setEngine g x).peerOut = s.peerOut := rfl
@[simp] theorem State.setEngine_report (s : State) (g : Nat) (x : Engine) : (s.setEngine g x).report = s.report := rfl
@[simp] theorem State.setEngine_wrt (s : State) (g : Nat) (x : Engine) : (s.setEngine g x).wrt = s.wrt := rfl
@[simp] theorem State.setEngine_windows (s : State) (g : Nat) (x : Engine) : (s.setEngine g x).windows = s.windows := rfl
@[simp] theorem State.setEngine_colls (s : State) (g : Nat) (x : Engine) : (s.setEngine g x).colls = s.colls := rfl
@[simp] theorem State.setEngine_keys (s : State) (g : Nat) (x : Engine) : (s.setEngine g x).keys = s.keys := rfl
@[simp] theorem State.setEngine_migr (s : State) (g : Nat) (x : Engine) : (s.setEngine g x).migr = s.migr := rfl
@[simp] theorem State.setEngine_pinned (s : State) (g : Nat) (x : Engine) : (s.setEngine g x).pinned = s.pinned := rfl
@[simp] theorem State.setEngine_irqs (s : State) (g : Nat) (x : Engine) : (s.setEngine g x).irqs = s.irqs := rfl
@[simp] theorem State.setEngine_regs (s : State) (g : Nat) (x : Engine) : (s.setEngine g x).regs = s.regs := rfl

/-! ### setPchan -/

@[simp] theorem State.setPchan_cycle (s : State) (k : Nat) (x : PChan) : (s.setPchan k x).cycle = s.cycle := rfl
@[simp] theorem State.setPchan_agenda (s : State) (k : Nat) (x : PChan) : (s.setPchan k x).agenda = s.agenda := rfl
@[simp] theorem State.setPchan_cur (s : State) (k : Nat) (x : PChan) : (s.setPchan k x).cur = s.cur := rfl
@[simp] theorem State.setPchan_pairDone (s : State) (k : Nat) (x : PChan) : (s.setPchan k x).pairDone = s.pairDone := rfl
@[simp] theorem State.setPchan_starts (s : State) (k : Nat) (x : PChan) : (s.setPchan k x).starts = s.starts := rfl
@[simp] theorem State.setPchan_issued (s : State) (k : Nat) (x : PChan) : (s.setPchan k x).issued = s.issued := rfl
@[simp] theorem State.setPchan_withheld (s : State) (k : Nat) (x : PChan) : (s.setPchan k x).withheld = s.withheld := rfl
@[simp] theorem State.setPchan_arrived (s : State) (k : Nat) (x : PChan) : (s.setPchan k x).arrived = s.arrived := rfl
@[simp] theorem State.setPchan_closing (s : State) (k : Nat) (x : PChan) : (s.setPchan k x).closing = s.closing := rfl
@[simp] theorem State.setPchan_free (s : State) (k : Nat) (x : PChan) : (s.setPchan k x).free = s.free := rfl
@[simp] theorem State.setPchan_nextId (s : State) (k : Nat) (x : PChan) : (s.setPchan k x).nextId = s.nextId := rfl
@[simp] theorem State.setPchan_elems (s : State) (k : Nat) (x : PChan) : (s.setPchan k x).elems = s.elems := rfl
@[simp] theorem State.setPchan_cores (s : State) (k : Nat) (x : PChan) : (s.setPchan k x).cores = s.cores := rfl
@[simp] theorem State.setPchan_regions (s : State) (k : Nat) (x : PChan) : (s.setPchan k x).regions = s.regions := rfl
@[simp] theorem State.setPchan_engines (s : State) (k : Nat) (x : PChan) : (s.setPchan k x).engines = s.engines := rfl
@[simp] theorem State.setPchan_mem (s : State) (k : Nat) (x : PChan) : (s.setPchan k x).mem = s.mem := rfl
@[simp] theorem State.setPchan_pres (s : State) (k : Nat) (x : PChan) : (s.setPchan k x).pres = s.pres := rfl
@[simp] theorem State.setPchan_hostMem (s : State) (k : Nat) (x : PChan) : (s.setPchan k x).hostMem = s.hostMem := rfl
@[simp] theorem State.setPchan_peerMem (s : State) (k : Nat) (x : PChan) : (s.setPchan k x).peerMem = s.peerMem := rfl
@[simp] theorem State.setPchan_l2 (s : State) (k : Nat) (x : PChan) : (s.setPchan k x).l2 = s.l2 := rfl
@[simp] theorem State.setPchan_baseTlb (s : State) (k : Nat) (x : PChan) : (s.setPchan k x).baseTlb = s.baseTlb := rfl
@[simp] theorem State.setPchan_noMap (s : State) (k : Nat) (x : PChan) : (s.setPchan k x).noMap = s.noMap := rfl
@[simp] theorem State.setPchan_lent (s : State) (k : Nat) (x : PChan) : (s.setPchan k x).lent = s.lent := rfl
@[simp] theorem State.setPchan_flight (s : State) (k : Nat) (x : PChan) : (s.setPchan k x).flight = s.flight := rfl
@[simp] theorem State.setPchan_links (s : State) (k : Nat) (x : PChan) : (s.setPchan k x).links = s.links := rfl
@[simp] theorem State.setPchan_linkVc (s : State) (k : Nat) (x : PChan) : (s.setPchan k x).linkVc = s.linkVc := rfl
@[simp] theorem State.setPchan_updates (s : State) (k : Nat) (x : PChan) : (s.setPchan k x).updates = s.updates := rfl
@[simp] theorem State.setPchan_sided (s : State) (k : Nat) (x : PChan) : (s.setPchan k x).sided = s.sided := rfl
@[simp] theorem State.setPchan_pend (s : State) (k : Nat) (x : PChan) : (s.setPchan k x).pend = s.pend := rfl
@[simp] theorem State.setPchan_pgfs (s : State) (k : Nat) (x : PChan) : (s.setPchan k x).pgfs = s.pgfs := rfl
@[simp] theorem State.setPchan_tags (s : State) (k : Nat) (x : PChan) : (s.setPchan k x).tags = s.tags := rfl
@[simp] theorem State.setPchan_parts (s : State) (k : Nat) (x : PChan) : (s.setPchan k x).parts = s.parts := rfl
@[simp] theorem State.setPchan_funcs (s : State) (k : Nat) (x : PChan) : (s.setPchan k x).funcs = s.funcs := rfl
@[simp] theorem State.setPchan_blocks (s : State) (k : Nat) (x : PChan) : (s.setPchan k x).blocks = s.blocks := rfl
@[simp] theorem State.setPchan_enc (s : State) (k : Nat) (x : PChan) : (s.setPchan k x).enc = s.enc := rfl
@[simp] theorem State.setPchan_scrubs (s : State) (k : Nat) (x : PChan) : (s.setPchan k x).scrubs = s.scrubs := rfl
@[simp] theorem State.setPchan_blkCmd (s : State) (k : Nat) (x : PChan) : (s.setPchan k x).blkCmd = s.blkCmd := rfl
@[simp] theorem State.setPchan_shtab (s : State) (k : Nat) (x : PChan) : (s.setPchan k x).shtab = s.shtab := rfl
@[simp] theorem State.setPchan_mfq (s : State) (k : Nat) (x : PChan) : (s.setPchan k x).mfq = s.mfq := rfl
@[simp] theorem State.setPchan_vios (s : State) (k : Nat) (x : PChan) : (s.setPchan k x).vios = s.vios := rfl
@[simp] theorem State.setPchan_plim (s : State) (k : Nat) (x : PChan) : (s.setPchan k x).plim = s.plim := rfl
@[simp] theorem State.setPchan_ready (s : State) (k : Nat) (x : PChan) : (s.setPchan k x).ready = s.ready := rfl
@[simp] theorem State.setPchan_recovery (s : State) (k : Nat) (x : PChan) : (s.setPchan k x).recovery = s.recovery := rfl
@[simp] theorem State.setPchan_fw (s : State) (k : Nat) (x : PChan) : (s.setPchan k x).fw = s.fw := rfl
@[simp] theorem State.setPchan_fwSig (s : State) (k : Nat) (x : PChan) : (s.setPchan k x).fwSig = s.fwSig := rfl
@[simp] theorem State.setPchan_fwKey (s : State) (k : Nat) (x : PChan) : (s.setPchan k x).fwKey = s.fwKey := rfl
@[simp] theorem State.setPchan_hostIn (s : State) (k : Nat) (x : PChan) : (s.setPchan k x).hostIn = s.hostIn := rfl
@[simp] theorem State.setPchan_peerOut (s : State) (k : Nat) (x : PChan) : (s.setPchan k x).peerOut = s.peerOut := rfl
@[simp] theorem State.setPchan_report (s : State) (k : Nat) (x : PChan) : (s.setPchan k x).report = s.report := rfl
@[simp] theorem State.setPchan_wrt (s : State) (k : Nat) (x : PChan) : (s.setPchan k x).wrt = s.wrt := rfl
@[simp] theorem State.setPchan_windows (s : State) (k : Nat) (x : PChan) : (s.setPchan k x).windows = s.windows := rfl
@[simp] theorem State.setPchan_colls (s : State) (k : Nat) (x : PChan) : (s.setPchan k x).colls = s.colls := rfl
@[simp] theorem State.setPchan_keys (s : State) (k : Nat) (x : PChan) : (s.setPchan k x).keys = s.keys := rfl
@[simp] theorem State.setPchan_migr (s : State) (k : Nat) (x : PChan) : (s.setPchan k x).migr = s.migr := rfl
@[simp] theorem State.setPchan_pinned (s : State) (k : Nat) (x : PChan) : (s.setPchan k x).pinned = s.pinned := rfl
@[simp] theorem State.setPchan_irqs (s : State) (k : Nat) (x : PChan) : (s.setPchan k x).irqs = s.irqs := rfl
@[simp] theorem State.setPchan_regs (s : State) (k : Nat) (x : PChan) : (s.setPchan k x).regs = s.regs := rfl

/-! ### setPart -/

@[simp] theorem State.setPart_cycle (s : State) (p : Nat) (x : Part) : (s.setPart p x).cycle = s.cycle := rfl
@[simp] theorem State.setPart_agenda (s : State) (p : Nat) (x : Part) : (s.setPart p x).agenda = s.agenda := rfl
@[simp] theorem State.setPart_cur (s : State) (p : Nat) (x : Part) : (s.setPart p x).cur = s.cur := rfl
@[simp] theorem State.setPart_pairDone (s : State) (p : Nat) (x : Part) : (s.setPart p x).pairDone = s.pairDone := rfl
@[simp] theorem State.setPart_starts (s : State) (p : Nat) (x : Part) : (s.setPart p x).starts = s.starts := rfl
@[simp] theorem State.setPart_issued (s : State) (p : Nat) (x : Part) : (s.setPart p x).issued = s.issued := rfl
@[simp] theorem State.setPart_withheld (s : State) (p : Nat) (x : Part) : (s.setPart p x).withheld = s.withheld := rfl
@[simp] theorem State.setPart_arrived (s : State) (p : Nat) (x : Part) : (s.setPart p x).arrived = s.arrived := rfl
@[simp] theorem State.setPart_closing (s : State) (p : Nat) (x : Part) : (s.setPart p x).closing = s.closing := rfl
@[simp] theorem State.setPart_free (s : State) (p : Nat) (x : Part) : (s.setPart p x).free = s.free := rfl
@[simp] theorem State.setPart_nextId (s : State) (p : Nat) (x : Part) : (s.setPart p x).nextId = s.nextId := rfl
@[simp] theorem State.setPart_elems (s : State) (p : Nat) (x : Part) : (s.setPart p x).elems = s.elems := rfl
@[simp] theorem State.setPart_cores (s : State) (p : Nat) (x : Part) : (s.setPart p x).cores = s.cores := rfl
@[simp] theorem State.setPart_regions (s : State) (p : Nat) (x : Part) : (s.setPart p x).regions = s.regions := rfl
@[simp] theorem State.setPart_engines (s : State) (p : Nat) (x : Part) : (s.setPart p x).engines = s.engines := rfl
@[simp] theorem State.setPart_pchans (s : State) (p : Nat) (x : Part) : (s.setPart p x).pchans = s.pchans := rfl
@[simp] theorem State.setPart_mem (s : State) (p : Nat) (x : Part) : (s.setPart p x).mem = s.mem := rfl
@[simp] theorem State.setPart_pres (s : State) (p : Nat) (x : Part) : (s.setPart p x).pres = s.pres := rfl
@[simp] theorem State.setPart_hostMem (s : State) (p : Nat) (x : Part) : (s.setPart p x).hostMem = s.hostMem := rfl
@[simp] theorem State.setPart_peerMem (s : State) (p : Nat) (x : Part) : (s.setPart p x).peerMem = s.peerMem := rfl
@[simp] theorem State.setPart_l2 (s : State) (p : Nat) (x : Part) : (s.setPart p x).l2 = s.l2 := rfl
@[simp] theorem State.setPart_baseTlb (s : State) (p : Nat) (x : Part) : (s.setPart p x).baseTlb = s.baseTlb := rfl
@[simp] theorem State.setPart_noMap (s : State) (p : Nat) (x : Part) : (s.setPart p x).noMap = s.noMap := rfl
@[simp] theorem State.setPart_lent (s : State) (p : Nat) (x : Part) : (s.setPart p x).lent = s.lent := rfl
@[simp] theorem State.setPart_flight (s : State) (p : Nat) (x : Part) : (s.setPart p x).flight = s.flight := rfl
@[simp] theorem State.setPart_links (s : State) (p : Nat) (x : Part) : (s.setPart p x).links = s.links := rfl
@[simp] theorem State.setPart_linkVc (s : State) (p : Nat) (x : Part) : (s.setPart p x).linkVc = s.linkVc := rfl
@[simp] theorem State.setPart_updates (s : State) (p : Nat) (x : Part) : (s.setPart p x).updates = s.updates := rfl
@[simp] theorem State.setPart_sided (s : State) (p : Nat) (x : Part) : (s.setPart p x).sided = s.sided := rfl
@[simp] theorem State.setPart_pend (s : State) (p : Nat) (x : Part) : (s.setPart p x).pend = s.pend := rfl
@[simp] theorem State.setPart_pgfs (s : State) (p : Nat) (x : Part) : (s.setPart p x).pgfs = s.pgfs := rfl
@[simp] theorem State.setPart_tags (s : State) (p : Nat) (x : Part) : (s.setPart p x).tags = s.tags := rfl
@[simp] theorem State.setPart_funcs (s : State) (p : Nat) (x : Part) : (s.setPart p x).funcs = s.funcs := rfl
@[simp] theorem State.setPart_blocks (s : State) (p : Nat) (x : Part) : (s.setPart p x).blocks = s.blocks := rfl
@[simp] theorem State.setPart_enc (s : State) (p : Nat) (x : Part) : (s.setPart p x).enc = s.enc := rfl
@[simp] theorem State.setPart_scrubs (s : State) (p : Nat) (x : Part) : (s.setPart p x).scrubs = s.scrubs := rfl
@[simp] theorem State.setPart_blkCmd (s : State) (p : Nat) (x : Part) : (s.setPart p x).blkCmd = s.blkCmd := rfl
@[simp] theorem State.setPart_shtab (s : State) (p : Nat) (x : Part) : (s.setPart p x).shtab = s.shtab := rfl
@[simp] theorem State.setPart_mfq (s : State) (p : Nat) (x : Part) : (s.setPart p x).mfq = s.mfq := rfl
@[simp] theorem State.setPart_vios (s : State) (p : Nat) (x : Part) : (s.setPart p x).vios = s.vios := rfl
@[simp] theorem State.setPart_plim (s : State) (p : Nat) (x : Part) : (s.setPart p x).plim = s.plim := rfl
@[simp] theorem State.setPart_ready (s : State) (p : Nat) (x : Part) : (s.setPart p x).ready = s.ready := rfl
@[simp] theorem State.setPart_recovery (s : State) (p : Nat) (x : Part) : (s.setPart p x).recovery = s.recovery := rfl
@[simp] theorem State.setPart_fw (s : State) (p : Nat) (x : Part) : (s.setPart p x).fw = s.fw := rfl
@[simp] theorem State.setPart_fwSig (s : State) (p : Nat) (x : Part) : (s.setPart p x).fwSig = s.fwSig := rfl
@[simp] theorem State.setPart_fwKey (s : State) (p : Nat) (x : Part) : (s.setPart p x).fwKey = s.fwKey := rfl
@[simp] theorem State.setPart_hostIn (s : State) (p : Nat) (x : Part) : (s.setPart p x).hostIn = s.hostIn := rfl
@[simp] theorem State.setPart_peerOut (s : State) (p : Nat) (x : Part) : (s.setPart p x).peerOut = s.peerOut := rfl
@[simp] theorem State.setPart_report (s : State) (p : Nat) (x : Part) : (s.setPart p x).report = s.report := rfl
@[simp] theorem State.setPart_wrt (s : State) (p : Nat) (x : Part) : (s.setPart p x).wrt = s.wrt := rfl
@[simp] theorem State.setPart_windows (s : State) (p : Nat) (x : Part) : (s.setPart p x).windows = s.windows := rfl
@[simp] theorem State.setPart_colls (s : State) (p : Nat) (x : Part) : (s.setPart p x).colls = s.colls := rfl
@[simp] theorem State.setPart_keys (s : State) (p : Nat) (x : Part) : (s.setPart p x).keys = s.keys := rfl
@[simp] theorem State.setPart_migr (s : State) (p : Nat) (x : Part) : (s.setPart p x).migr = s.migr := rfl
@[simp] theorem State.setPart_pinned (s : State) (p : Nat) (x : Part) : (s.setPart p x).pinned = s.pinned := rfl
@[simp] theorem State.setPart_irqs (s : State) (p : Nat) (x : Part) : (s.setPart p x).irqs = s.irqs := rfl
@[simp] theorem State.setPart_regs (s : State) (p : Nat) (x : Part) : (s.setPart p x).regs = s.regs := rfl

/-! ### Elem.setS -/

@[simp] theorem Elem.setS_cnt (x : Elem) (r : Nat) (w : W32) : (x.setS r w).cnt = x.cnt := rfl
@[simp] theorem Elem.setS_resv (x : Elem) (r : Nat) (w : W32) : (x.setS r w).resv = x.resv := rfl
@[simp] theorem Elem.setS_cap (x : Elem) (r : Nat) (w : W32) : (x.setS r w).cap = x.cap := rfl
@[simp] theorem Elem.setS_lfp (x : Elem) (r : Nat) (w : W32) : (x.setS r w).lfp = x.lfp := rfl
@[simp] theorem Elem.setS_slots (x : Elem) (r : Nat) (w : W32) : (x.setS r w).slots = x.slots := rfl
@[simp] theorem Elem.setS_queues (x : Elem) (r : Nat) (w : W32) : (x.setS r w).queues = x.queues := rfl
@[simp] theorem Elem.setS_pool (x : Elem) (r : Nat) (w : W32) : (x.setS r w).pool = x.pool := rfl
@[simp] theorem Elem.setS_v (x : Elem) (r : Nat) (w : W32) : (x.setS r w).v = x.v := rfl
@[simp] theorem Elem.setS_w0 (x : Elem) (r : Nat) (w : W32) : (x.setS r w).w0 = x.w0 := rfl
@[simp] theorem Elem.setS_w1 (x : Elem) (r : Nat) (w : W32) : (x.setS r w).w1 = x.w1 := rfl
@[simp] theorem Elem.setS_routes (x : Elem) (r : Nat) (w : W32) : (x.setS r w).routes = x.routes := rfl
@[simp] theorem Elem.setS_chans (x : Elem) (r : Nat) (w : W32) : (x.setS r w).chans = x.chans := rfl
@[simp] theorem Elem.setS_axc (x : Elem) (r : Nat) (w : W32) : (x.setS r w).axc = x.axc := rfl
@[simp] theorem Elem.setS_axs (x : Elem) (r : Nat) (w : W32) : (x.setS r w).axs = x.axs := rfl
@[simp] theorem Elem.setS_tagr (x : Elem) (r : Nat) (w : W32) : (x.setS r w).tagr = x.tagr := rfl
@[simp] theorem Elem.setS_lfsr (x : Elem) (r : Nat) (w : W32) : (x.setS r w).lfsr = x.lfsr := rfl
@[simp] theorem Elem.setS_cseq (x : Elem) (r : Nat) (w : W32) : (x.setS r w).cseq = x.cseq := rfl
@[simp] theorem Elem.setS_pcFire (x : Elem) (r : Nat) (w : W32) : (x.setS r w).pcFire = x.pcFire := rfl
@[simp] theorem Elem.setS_pcStall (x : Elem) (r : Nat) (w : W32) : (x.setS r w).pcStall = x.pcStall := rfl
@[simp] theorem Elem.setS_pcBeat (x : Elem) (r : Nat) (w : W32) : (x.setS r w).pcBeat = x.pcBeat := rfl
@[simp] theorem Elem.setS_pcW (x : Elem) (r : Nat) (w : W32) : (x.setS r w).pcW = x.pcW := rfl
@[simp] theorem Elem.setS_bank (x : Elem) (r : Nat) (w : W32) : (x.setS r w).bank = x.bank := rfl
@[simp] theorem Elem.setS_bmode (x : Elem) (r : Nat) (w : W32) : (x.setS r w).bmode = x.bmode := rfl
@[simp] theorem Elem.setS_qbase (x : Elem) (r : Nat) (w : W32) : (x.setS r w).qbase = x.qbase := rfl
@[simp] theorem Elem.setS_qphys (x : Elem) (r : Nat) (w : W32) : (x.setS r w).qphys = x.qphys := rfl
@[simp] theorem Elem.setS_wgtBase (x : Elem) (r : Nat) (w : W32) : (x.setS r w).wgtBase = x.wgtBase := rfl
@[simp] theorem Elem.setS_filled (x : Elem) (r : Nat) (w : W32) : (x.setS r w).filled = x.filled := rfl
@[simp] theorem Elem.setS_dirty (x : Elem) (r : Nat) (w : W32) : (x.setS r w).dirty = x.dirty := rfl
@[simp] theorem Elem.setS_watch (x : Elem) (r : Nat) (w : W32) : (x.setS r w).watch = x.watch := rfl
@[simp] theorem Elem.setS_pairMode (x : Elem) (r : Nat) (w : W32) : (x.setS r w).pairMode = x.pairMode := rfl
@[simp] theorem Elem.setS_sink (x : Elem) (r : Nat) (w : W32) : (x.setS r w).sink = x.sink := rfl
@[simp] theorem Elem.setS_w1Active (x : Elem) (r : Nat) (w : W32) : (x.setS r w).w1Active = x.w1Active := rfl
@[simp] theorem Elem.setS_inRect (x : Elem) (r : Nat) (w : W32) : (x.setS r w).inRect = x.inRect := rfl
@[simp] theorem Elem.setS_accb (x : Elem) (r : Nat) (w : W32) : (x.setS r w).accb = x.accb := rfl
@[simp] theorem Elem.setS_out (x : Elem) (r : Nat) (w : W32) : (x.setS r w).out = x.out := rfl
@[simp] theorem Elem.setS_waiting (x : Elem) (r : Nat) (w : W32) : (x.setS r w).waiting = x.waiting := rfl
@[simp] theorem Elem.setS_injD (x : Elem) (r : Nat) (w : W32) : (x.setS r w).injD = x.injD := rfl
@[simp] theorem Elem.setS_injC (x : Elem) (r : Nat) (w : W32) : (x.setS r w).injC = x.injC := rfl
@[simp] theorem Elem.setS_stuck (x : Elem) (r : Nat) (w : W32) : (x.setS r w).stuck = x.stuck := rfl
@[simp] theorem Elem.setS_posted (x : Elem) (r : Nat) (w : W32) : (x.setS r w).posted = x.posted := rfl
@[simp] theorem Elem.setS_nseq (x : Elem) (r : Nat) (w : W32) : (x.setS r w).nseq = x.nseq := rfl
@[simp] theorem Elem.setS_lastDone (x : Elem) (r : Nat) (w : W32) : (x.setS r w).lastDone = x.lastDone := rfl
@[simp] theorem Elem.setS_sent (x : Elem) (r : Nat) (w : W32) : (x.setS r w).sent = x.sent := rfl
@[simp] theorem Elem.setS_shadowN (x : Elem) (r : Nat) (w : W32) : (x.setS r w).shadowN = x.shadowN := rfl
@[simp] theorem Elem.setS_markN (x : Elem) (r : Nat) (w : W32) : (x.setS r w).markN = x.markN := rfl
@[simp] theorem Elem.setS_undo (x : Elem) (r : Nat) (w : W32) : (x.setS r w).undo = x.undo := rfl
@[simp] theorem Elem.setS_tailed (x : Elem) (r : Nat) (w : W32) : (x.setS r w).tailed = x.tailed := rfl
@[simp] theorem Elem.setS_portAt (x : Elem) (r : Nat) (w : W32) : (x.setS r w).portAt = x.portAt := rfl
@[simp] theorem Elem.setS_portWait (x : Elem) (r : Nat) (w : W32) : (x.setS r w).portWait = x.portWait := rfl
@[simp] theorem Elem.setS_bankAt (x : Elem) (r : Nat) (w : W32) : (x.setS r w).bankAt = x.bankAt := rfl

/-! ### Elem.setV -/

@[simp] theorem Elem.setV_cnt (x : Elem) (r : Nat) (w : VW) : (x.setV r w).cnt = x.cnt := rfl
@[simp] theorem Elem.setV_resv (x : Elem) (r : Nat) (w : VW) : (x.setV r w).resv = x.resv := rfl
@[simp] theorem Elem.setV_cap (x : Elem) (r : Nat) (w : VW) : (x.setV r w).cap = x.cap := rfl
@[simp] theorem Elem.setV_lfp (x : Elem) (r : Nat) (w : VW) : (x.setV r w).lfp = x.lfp := rfl
@[simp] theorem Elem.setV_slots (x : Elem) (r : Nat) (w : VW) : (x.setV r w).slots = x.slots := rfl
@[simp] theorem Elem.setV_queues (x : Elem) (r : Nat) (w : VW) : (x.setV r w).queues = x.queues := rfl
@[simp] theorem Elem.setV_pool (x : Elem) (r : Nat) (w : VW) : (x.setV r w).pool = x.pool := rfl
@[simp] theorem Elem.setV_s (x : Elem) (r : Nat) (w : VW) : (x.setV r w).s = x.s := rfl
@[simp] theorem Elem.setV_w0 (x : Elem) (r : Nat) (w : VW) : (x.setV r w).w0 = x.w0 := rfl
@[simp] theorem Elem.setV_w1 (x : Elem) (r : Nat) (w : VW) : (x.setV r w).w1 = x.w1 := rfl
@[simp] theorem Elem.setV_routes (x : Elem) (r : Nat) (w : VW) : (x.setV r w).routes = x.routes := rfl
@[simp] theorem Elem.setV_chans (x : Elem) (r : Nat) (w : VW) : (x.setV r w).chans = x.chans := rfl
@[simp] theorem Elem.setV_axc (x : Elem) (r : Nat) (w : VW) : (x.setV r w).axc = x.axc := rfl
@[simp] theorem Elem.setV_axs (x : Elem) (r : Nat) (w : VW) : (x.setV r w).axs = x.axs := rfl
@[simp] theorem Elem.setV_tagr (x : Elem) (r : Nat) (w : VW) : (x.setV r w).tagr = x.tagr := rfl
@[simp] theorem Elem.setV_lfsr (x : Elem) (r : Nat) (w : VW) : (x.setV r w).lfsr = x.lfsr := rfl
@[simp] theorem Elem.setV_cseq (x : Elem) (r : Nat) (w : VW) : (x.setV r w).cseq = x.cseq := rfl
@[simp] theorem Elem.setV_pcFire (x : Elem) (r : Nat) (w : VW) : (x.setV r w).pcFire = x.pcFire := rfl
@[simp] theorem Elem.setV_pcStall (x : Elem) (r : Nat) (w : VW) : (x.setV r w).pcStall = x.pcStall := rfl
@[simp] theorem Elem.setV_pcBeat (x : Elem) (r : Nat) (w : VW) : (x.setV r w).pcBeat = x.pcBeat := rfl
@[simp] theorem Elem.setV_pcW (x : Elem) (r : Nat) (w : VW) : (x.setV r w).pcW = x.pcW := rfl
@[simp] theorem Elem.setV_bank (x : Elem) (r : Nat) (w : VW) : (x.setV r w).bank = x.bank := rfl
@[simp] theorem Elem.setV_bmode (x : Elem) (r : Nat) (w : VW) : (x.setV r w).bmode = x.bmode := rfl
@[simp] theorem Elem.setV_qbase (x : Elem) (r : Nat) (w : VW) : (x.setV r w).qbase = x.qbase := rfl
@[simp] theorem Elem.setV_qphys (x : Elem) (r : Nat) (w : VW) : (x.setV r w).qphys = x.qphys := rfl
@[simp] theorem Elem.setV_wgtBase (x : Elem) (r : Nat) (w : VW) : (x.setV r w).wgtBase = x.wgtBase := rfl
@[simp] theorem Elem.setV_filled (x : Elem) (r : Nat) (w : VW) : (x.setV r w).filled = x.filled := rfl
@[simp] theorem Elem.setV_dirty (x : Elem) (r : Nat) (w : VW) : (x.setV r w).dirty = x.dirty := rfl
@[simp] theorem Elem.setV_watch (x : Elem) (r : Nat) (w : VW) : (x.setV r w).watch = x.watch := rfl
@[simp] theorem Elem.setV_pairMode (x : Elem) (r : Nat) (w : VW) : (x.setV r w).pairMode = x.pairMode := rfl
@[simp] theorem Elem.setV_sink (x : Elem) (r : Nat) (w : VW) : (x.setV r w).sink = x.sink := rfl
@[simp] theorem Elem.setV_w1Active (x : Elem) (r : Nat) (w : VW) : (x.setV r w).w1Active = x.w1Active := rfl
@[simp] theorem Elem.setV_inRect (x : Elem) (r : Nat) (w : VW) : (x.setV r w).inRect = x.inRect := rfl
@[simp] theorem Elem.setV_accb (x : Elem) (r : Nat) (w : VW) : (x.setV r w).accb = x.accb := rfl
@[simp] theorem Elem.setV_out (x : Elem) (r : Nat) (w : VW) : (x.setV r w).out = x.out := rfl
@[simp] theorem Elem.setV_waiting (x : Elem) (r : Nat) (w : VW) : (x.setV r w).waiting = x.waiting := rfl
@[simp] theorem Elem.setV_injD (x : Elem) (r : Nat) (w : VW) : (x.setV r w).injD = x.injD := rfl
@[simp] theorem Elem.setV_injC (x : Elem) (r : Nat) (w : VW) : (x.setV r w).injC = x.injC := rfl
@[simp] theorem Elem.setV_stuck (x : Elem) (r : Nat) (w : VW) : (x.setV r w).stuck = x.stuck := rfl
@[simp] theorem Elem.setV_posted (x : Elem) (r : Nat) (w : VW) : (x.setV r w).posted = x.posted := rfl
@[simp] theorem Elem.setV_nseq (x : Elem) (r : Nat) (w : VW) : (x.setV r w).nseq = x.nseq := rfl
@[simp] theorem Elem.setV_lastDone (x : Elem) (r : Nat) (w : VW) : (x.setV r w).lastDone = x.lastDone := rfl
@[simp] theorem Elem.setV_sent (x : Elem) (r : Nat) (w : VW) : (x.setV r w).sent = x.sent := rfl
@[simp] theorem Elem.setV_shadowN (x : Elem) (r : Nat) (w : VW) : (x.setV r w).shadowN = x.shadowN := rfl
@[simp] theorem Elem.setV_markN (x : Elem) (r : Nat) (w : VW) : (x.setV r w).markN = x.markN := rfl
@[simp] theorem Elem.setV_undo (x : Elem) (r : Nat) (w : VW) : (x.setV r w).undo = x.undo := rfl
@[simp] theorem Elem.setV_tailed (x : Elem) (r : Nat) (w : VW) : (x.setV r w).tailed = x.tailed := rfl
@[simp] theorem Elem.setV_portAt (x : Elem) (r : Nat) (w : VW) : (x.setV r w).portAt = x.portAt := rfl
@[simp] theorem Elem.setV_portWait (x : Elem) (r : Nat) (w : VW) : (x.setV r w).portWait = x.portWait := rfl
@[simp] theorem Elem.setV_bankAt (x : Elem) (r : Nat) (w : VW) : (x.setV r w).bankAt = x.bankAt := rfl

/-! ### Elem.mark -/

@[simp] theorem Elem.mark_resv (x : Elem) (p : Nat) : (x.mark p).resv = x.resv := rfl
@[simp] theorem Elem.mark_cap (x : Elem) (p : Nat) : (x.mark p).cap = x.cap := rfl
@[simp] theorem Elem.mark_lfp (x : Elem) (p : Nat) : (x.mark p).lfp = x.lfp := rfl
@[simp] theorem Elem.mark_slots (x : Elem) (p : Nat) : (x.mark p).slots = x.slots := rfl
@[simp] theorem Elem.mark_queues (x : Elem) (p : Nat) : (x.mark p).queues = x.queues := rfl
@[simp] theorem Elem.mark_pool (x : Elem) (p : Nat) : (x.mark p).pool = x.pool := rfl
@[simp] theorem Elem.mark_s (x : Elem) (p : Nat) : (x.mark p).s = x.s := rfl
@[simp] theorem Elem.mark_v (x : Elem) (p : Nat) : (x.mark p).v = x.v := rfl
@[simp] theorem Elem.mark_w0 (x : Elem) (p : Nat) : (x.mark p).w0 = x.w0 := rfl
@[simp] theorem Elem.mark_w1 (x : Elem) (p : Nat) : (x.mark p).w1 = x.w1 := rfl
@[simp] theorem Elem.mark_routes (x : Elem) (p : Nat) : (x.mark p).routes = x.routes := rfl
@[simp] theorem Elem.mark_chans (x : Elem) (p : Nat) : (x.mark p).chans = x.chans := rfl
@[simp] theorem Elem.mark_axc (x : Elem) (p : Nat) : (x.mark p).axc = x.axc := rfl
@[simp] theorem Elem.mark_axs (x : Elem) (p : Nat) : (x.mark p).axs = x.axs := rfl
@[simp] theorem Elem.mark_tagr (x : Elem) (p : Nat) : (x.mark p).tagr = x.tagr := rfl
@[simp] theorem Elem.mark_lfsr (x : Elem) (p : Nat) : (x.mark p).lfsr = x.lfsr := rfl
@[simp] theorem Elem.mark_cseq (x : Elem) (p : Nat) : (x.mark p).cseq = x.cseq := rfl
@[simp] theorem Elem.mark_pcFire (x : Elem) (p : Nat) : (x.mark p).pcFire = x.pcFire := rfl
@[simp] theorem Elem.mark_pcStall (x : Elem) (p : Nat) : (x.mark p).pcStall = x.pcStall := rfl
@[simp] theorem Elem.mark_pcBeat (x : Elem) (p : Nat) : (x.mark p).pcBeat = x.pcBeat := rfl
@[simp] theorem Elem.mark_pcW (x : Elem) (p : Nat) : (x.mark p).pcW = x.pcW := rfl
@[simp] theorem Elem.mark_bank (x : Elem) (p : Nat) : (x.mark p).bank = x.bank := rfl
@[simp] theorem Elem.mark_bmode (x : Elem) (p : Nat) : (x.mark p).bmode = x.bmode := rfl
@[simp] theorem Elem.mark_qbase (x : Elem) (p : Nat) : (x.mark p).qbase = x.qbase := rfl
@[simp] theorem Elem.mark_qphys (x : Elem) (p : Nat) : (x.mark p).qphys = x.qphys := rfl
@[simp] theorem Elem.mark_wgtBase (x : Elem) (p : Nat) : (x.mark p).wgtBase = x.wgtBase := rfl
@[simp] theorem Elem.mark_filled (x : Elem) (p : Nat) : (x.mark p).filled = x.filled := rfl
@[simp] theorem Elem.mark_dirty (x : Elem) (p : Nat) : (x.mark p).dirty = x.dirty := rfl
@[simp] theorem Elem.mark_watch (x : Elem) (p : Nat) : (x.mark p).watch = x.watch := rfl
@[simp] theorem Elem.mark_pairMode (x : Elem) (p : Nat) : (x.mark p).pairMode = x.pairMode := rfl
@[simp] theorem Elem.mark_sink (x : Elem) (p : Nat) : (x.mark p).sink = x.sink := rfl
@[simp] theorem Elem.mark_w1Active (x : Elem) (p : Nat) : (x.mark p).w1Active = x.w1Active := rfl
@[simp] theorem Elem.mark_inRect (x : Elem) (p : Nat) : (x.mark p).inRect = x.inRect := rfl
@[simp] theorem Elem.mark_accb (x : Elem) (p : Nat) : (x.mark p).accb = x.accb := rfl
@[simp] theorem Elem.mark_out (x : Elem) (p : Nat) : (x.mark p).out = x.out := rfl
@[simp] theorem Elem.mark_waiting (x : Elem) (p : Nat) : (x.mark p).waiting = x.waiting := rfl
@[simp] theorem Elem.mark_injD (x : Elem) (p : Nat) : (x.mark p).injD = x.injD := rfl
@[simp] theorem Elem.mark_injC (x : Elem) (p : Nat) : (x.mark p).injC = x.injC := rfl
@[simp] theorem Elem.mark_stuck (x : Elem) (p : Nat) : (x.mark p).stuck = x.stuck := rfl
@[simp] theorem Elem.mark_posted (x : Elem) (p : Nat) : (x.mark p).posted = x.posted := rfl
@[simp] theorem Elem.mark_nseq (x : Elem) (p : Nat) : (x.mark p).nseq = x.nseq := rfl
@[simp] theorem Elem.mark_lastDone (x : Elem) (p : Nat) : (x.mark p).lastDone = x.lastDone := rfl
@[simp] theorem Elem.mark_sent (x : Elem) (p : Nat) : (x.mark p).sent = x.sent := rfl
@[simp] theorem Elem.mark_shadowN (x : Elem) (p : Nat) : (x.mark p).shadowN = x.shadowN := rfl
@[simp] theorem Elem.mark_markN (x : Elem) (p : Nat) : (x.mark p).markN = x.markN := rfl
@[simp] theorem Elem.mark_undo (x : Elem) (p : Nat) : (x.mark p).undo = x.undo := rfl
@[simp] theorem Elem.mark_tailed (x : Elem) (p : Nat) : (x.mark p).tailed = x.tailed := rfl
@[simp] theorem Elem.mark_portAt (x : Elem) (p : Nat) : (x.mark p).portAt = x.portAt := rfl
@[simp] theorem Elem.mark_portWait (x : Elem) (p : Nat) : (x.mark p).portWait = x.portWait := rfl
@[simp] theorem Elem.mark_bankAt (x : Elem) (p : Nat) : (x.mark p).bankAt = x.bankAt := rfl

/-! ### Elem.consume -/

@[simp] theorem Elem.consume_resv (x : Elem) (p : Nat) : (x.consume p).resv = x.resv := rfl
@[simp] theorem Elem.consume_cap (x : Elem) (p : Nat) : (x.consume p).cap = x.cap := rfl
@[simp] theorem Elem.consume_lfp (x : Elem) (p : Nat) : (x.consume p).lfp = x.lfp := rfl
@[simp] theorem Elem.consume_slots (x : Elem) (p : Nat) : (x.consume p).slots = x.slots := rfl
@[simp] theorem Elem.consume_queues (x : Elem) (p : Nat) : (x.consume p).queues = x.queues := rfl
@[simp] theorem Elem.consume_pool (x : Elem) (p : Nat) : (x.consume p).pool = x.pool := rfl
@[simp] theorem Elem.consume_s (x : Elem) (p : Nat) : (x.consume p).s = x.s := rfl
@[simp] theorem Elem.consume_v (x : Elem) (p : Nat) : (x.consume p).v = x.v := rfl
@[simp] theorem Elem.consume_w0 (x : Elem) (p : Nat) : (x.consume p).w0 = x.w0 := rfl
@[simp] theorem Elem.consume_w1 (x : Elem) (p : Nat) : (x.consume p).w1 = x.w1 := rfl
@[simp] theorem Elem.consume_routes (x : Elem) (p : Nat) : (x.consume p).routes = x.routes := rfl
@[simp] theorem Elem.consume_chans (x : Elem) (p : Nat) : (x.consume p).chans = x.chans := rfl
@[simp] theorem Elem.consume_axc (x : Elem) (p : Nat) : (x.consume p).axc = x.axc := rfl
@[simp] theorem Elem.consume_axs (x : Elem) (p : Nat) : (x.consume p).axs = x.axs := rfl
@[simp] theorem Elem.consume_tagr (x : Elem) (p : Nat) : (x.consume p).tagr = x.tagr := rfl
@[simp] theorem Elem.consume_lfsr (x : Elem) (p : Nat) : (x.consume p).lfsr = x.lfsr := rfl
@[simp] theorem Elem.consume_cseq (x : Elem) (p : Nat) : (x.consume p).cseq = x.cseq := rfl
@[simp] theorem Elem.consume_pcFire (x : Elem) (p : Nat) : (x.consume p).pcFire = x.pcFire := rfl
@[simp] theorem Elem.consume_pcStall (x : Elem) (p : Nat) : (x.consume p).pcStall = x.pcStall := rfl
@[simp] theorem Elem.consume_pcBeat (x : Elem) (p : Nat) : (x.consume p).pcBeat = x.pcBeat := rfl
@[simp] theorem Elem.consume_pcW (x : Elem) (p : Nat) : (x.consume p).pcW = x.pcW := rfl
@[simp] theorem Elem.consume_bank (x : Elem) (p : Nat) : (x.consume p).bank = x.bank := rfl
@[simp] theorem Elem.consume_bmode (x : Elem) (p : Nat) : (x.consume p).bmode = x.bmode := rfl
@[simp] theorem Elem.consume_qbase (x : Elem) (p : Nat) : (x.consume p).qbase = x.qbase := rfl
@[simp] theorem Elem.consume_qphys (x : Elem) (p : Nat) : (x.consume p).qphys = x.qphys := rfl
@[simp] theorem Elem.consume_wgtBase (x : Elem) (p : Nat) : (x.consume p).wgtBase = x.wgtBase := rfl
@[simp] theorem Elem.consume_filled (x : Elem) (p : Nat) : (x.consume p).filled = x.filled := rfl
@[simp] theorem Elem.consume_dirty (x : Elem) (p : Nat) : (x.consume p).dirty = x.dirty := rfl
@[simp] theorem Elem.consume_watch (x : Elem) (p : Nat) : (x.consume p).watch = x.watch := rfl
@[simp] theorem Elem.consume_pairMode (x : Elem) (p : Nat) : (x.consume p).pairMode = x.pairMode := rfl
@[simp] theorem Elem.consume_sink (x : Elem) (p : Nat) : (x.consume p).sink = x.sink := rfl
@[simp] theorem Elem.consume_w1Active (x : Elem) (p : Nat) : (x.consume p).w1Active = x.w1Active := rfl
@[simp] theorem Elem.consume_inRect (x : Elem) (p : Nat) : (x.consume p).inRect = x.inRect := rfl
@[simp] theorem Elem.consume_accb (x : Elem) (p : Nat) : (x.consume p).accb = x.accb := rfl
@[simp] theorem Elem.consume_out (x : Elem) (p : Nat) : (x.consume p).out = x.out := rfl
@[simp] theorem Elem.consume_waiting (x : Elem) (p : Nat) : (x.consume p).waiting = x.waiting := rfl
@[simp] theorem Elem.consume_injD (x : Elem) (p : Nat) : (x.consume p).injD = x.injD := rfl
@[simp] theorem Elem.consume_injC (x : Elem) (p : Nat) : (x.consume p).injC = x.injC := rfl
@[simp] theorem Elem.consume_stuck (x : Elem) (p : Nat) : (x.consume p).stuck = x.stuck := rfl
@[simp] theorem Elem.consume_posted (x : Elem) (p : Nat) : (x.consume p).posted = x.posted := rfl
@[simp] theorem Elem.consume_nseq (x : Elem) (p : Nat) : (x.consume p).nseq = x.nseq := rfl
@[simp] theorem Elem.consume_lastDone (x : Elem) (p : Nat) : (x.consume p).lastDone = x.lastDone := rfl
@[simp] theorem Elem.consume_sent (x : Elem) (p : Nat) : (x.consume p).sent = x.sent := rfl
@[simp] theorem Elem.consume_shadowN (x : Elem) (p : Nat) : (x.consume p).shadowN = x.shadowN := rfl
@[simp] theorem Elem.consume_markN (x : Elem) (p : Nat) : (x.consume p).markN = x.markN := rfl
@[simp] theorem Elem.consume_undo (x : Elem) (p : Nat) : (x.consume p).undo = x.undo := rfl
@[simp] theorem Elem.consume_tailed (x : Elem) (p : Nat) : (x.consume p).tailed = x.tailed := rfl
@[simp] theorem Elem.consume_portAt (x : Elem) (p : Nat) : (x.consume p).portAt = x.portAt := rfl
@[simp] theorem Elem.consume_portWait (x : Elem) (p : Nat) : (x.consume p).portWait = x.portWait := rfl
@[simp] theorem Elem.consume_bankAt (x : Elem) (p : Nat) : (x.consume p).bankAt = x.bankAt := rfl

/-! ### Elem.reserve -/

@[simp] theorem Elem.reserve_cnt (x : Elem) (p : Nat) : (x.reserve p).cnt = x.cnt := rfl
@[simp] theorem Elem.reserve_cap (x : Elem) (p : Nat) : (x.reserve p).cap = x.cap := rfl
@[simp] theorem Elem.reserve_lfp (x : Elem) (p : Nat) : (x.reserve p).lfp = x.lfp := rfl
@[simp] theorem Elem.reserve_slots (x : Elem) (p : Nat) : (x.reserve p).slots = x.slots := rfl
@[simp] theorem Elem.reserve_queues (x : Elem) (p : Nat) : (x.reserve p).queues = x.queues := rfl
@[simp] theorem Elem.reserve_pool (x : Elem) (p : Nat) : (x.reserve p).pool = x.pool := rfl
@[simp] theorem Elem.reserve_s (x : Elem) (p : Nat) : (x.reserve p).s = x.s := rfl
@[simp] theorem Elem.reserve_v (x : Elem) (p : Nat) : (x.reserve p).v = x.v := rfl
@[simp] theorem Elem.reserve_w0 (x : Elem) (p : Nat) : (x.reserve p).w0 = x.w0 := rfl
@[simp] theorem Elem.reserve_w1 (x : Elem) (p : Nat) : (x.reserve p).w1 = x.w1 := rfl
@[simp] theorem Elem.reserve_routes (x : Elem) (p : Nat) : (x.reserve p).routes = x.routes := rfl
@[simp] theorem Elem.reserve_chans (x : Elem) (p : Nat) : (x.reserve p).chans = x.chans := rfl
@[simp] theorem Elem.reserve_axc (x : Elem) (p : Nat) : (x.reserve p).axc = x.axc := rfl
@[simp] theorem Elem.reserve_axs (x : Elem) (p : Nat) : (x.reserve p).axs = x.axs := rfl
@[simp] theorem Elem.reserve_tagr (x : Elem) (p : Nat) : (x.reserve p).tagr = x.tagr := rfl
@[simp] theorem Elem.reserve_lfsr (x : Elem) (p : Nat) : (x.reserve p).lfsr = x.lfsr := rfl
@[simp] theorem Elem.reserve_cseq (x : Elem) (p : Nat) : (x.reserve p).cseq = x.cseq := rfl
@[simp] theorem Elem.reserve_pcFire (x : Elem) (p : Nat) : (x.reserve p).pcFire = x.pcFire := rfl
@[simp] theorem Elem.reserve_pcStall (x : Elem) (p : Nat) : (x.reserve p).pcStall = x.pcStall := rfl
@[simp] theorem Elem.reserve_pcBeat (x : Elem) (p : Nat) : (x.reserve p).pcBeat = x.pcBeat := rfl
@[simp] theorem Elem.reserve_pcW (x : Elem) (p : Nat) : (x.reserve p).pcW = x.pcW := rfl
@[simp] theorem Elem.reserve_bank (x : Elem) (p : Nat) : (x.reserve p).bank = x.bank := rfl
@[simp] theorem Elem.reserve_bmode (x : Elem) (p : Nat) : (x.reserve p).bmode = x.bmode := rfl
@[simp] theorem Elem.reserve_qbase (x : Elem) (p : Nat) : (x.reserve p).qbase = x.qbase := rfl
@[simp] theorem Elem.reserve_qphys (x : Elem) (p : Nat) : (x.reserve p).qphys = x.qphys := rfl
@[simp] theorem Elem.reserve_wgtBase (x : Elem) (p : Nat) : (x.reserve p).wgtBase = x.wgtBase := rfl
@[simp] theorem Elem.reserve_filled (x : Elem) (p : Nat) : (x.reserve p).filled = x.filled := rfl
@[simp] theorem Elem.reserve_dirty (x : Elem) (p : Nat) : (x.reserve p).dirty = x.dirty := rfl
@[simp] theorem Elem.reserve_watch (x : Elem) (p : Nat) : (x.reserve p).watch = x.watch := rfl
@[simp] theorem Elem.reserve_pairMode (x : Elem) (p : Nat) : (x.reserve p).pairMode = x.pairMode := rfl
@[simp] theorem Elem.reserve_sink (x : Elem) (p : Nat) : (x.reserve p).sink = x.sink := rfl
@[simp] theorem Elem.reserve_w1Active (x : Elem) (p : Nat) : (x.reserve p).w1Active = x.w1Active := rfl
@[simp] theorem Elem.reserve_inRect (x : Elem) (p : Nat) : (x.reserve p).inRect = x.inRect := rfl
@[simp] theorem Elem.reserve_accb (x : Elem) (p : Nat) : (x.reserve p).accb = x.accb := rfl
@[simp] theorem Elem.reserve_out (x : Elem) (p : Nat) : (x.reserve p).out = x.out := rfl
@[simp] theorem Elem.reserve_waiting (x : Elem) (p : Nat) : (x.reserve p).waiting = x.waiting := rfl
@[simp] theorem Elem.reserve_injD (x : Elem) (p : Nat) : (x.reserve p).injD = x.injD := rfl
@[simp] theorem Elem.reserve_injC (x : Elem) (p : Nat) : (x.reserve p).injC = x.injC := rfl
@[simp] theorem Elem.reserve_stuck (x : Elem) (p : Nat) : (x.reserve p).stuck = x.stuck := rfl
@[simp] theorem Elem.reserve_posted (x : Elem) (p : Nat) : (x.reserve p).posted = x.posted := rfl
@[simp] theorem Elem.reserve_nseq (x : Elem) (p : Nat) : (x.reserve p).nseq = x.nseq := rfl
@[simp] theorem Elem.reserve_lastDone (x : Elem) (p : Nat) : (x.reserve p).lastDone = x.lastDone := rfl
@[simp] theorem Elem.reserve_sent (x : Elem) (p : Nat) : (x.reserve p).sent = x.sent := rfl
@[simp] theorem Elem.reserve_shadowN (x : Elem) (p : Nat) : (x.reserve p).shadowN = x.shadowN := rfl
@[simp] theorem Elem.reserve_markN (x : Elem) (p : Nat) : (x.reserve p).markN = x.markN := rfl
@[simp] theorem Elem.reserve_undo (x : Elem) (p : Nat) : (x.reserve p).undo = x.undo := rfl
@[simp] theorem Elem.reserve_tailed (x : Elem) (p : Nat) : (x.reserve p).tailed = x.tailed := rfl
@[simp] theorem Elem.reserve_portAt (x : Elem) (p : Nat) : (x.reserve p).portAt = x.portAt := rfl
@[simp] theorem Elem.reserve_portWait (x : Elem) (p : Nat) : (x.reserve p).portWait = x.portWait := rfl
@[simp] theorem Elem.reserve_bankAt (x : Elem) (p : Nat) : (x.reserve p).bankAt = x.bankAt := rfl

/-! ### Elem.release -/

@[simp] theorem Elem.release_cnt (x : Elem) (p : Nat) : (x.release p).cnt = x.cnt := rfl
@[simp] theorem Elem.release_cap (x : Elem) (p : Nat) : (x.release p).cap = x.cap := rfl
@[simp] theorem Elem.release_lfp (x : Elem) (p : Nat) : (x.release p).lfp = x.lfp := rfl
@[simp] theorem Elem.release_slots (x : Elem) (p : Nat) : (x.release p).slots = x.slots := rfl
@[simp] theorem Elem.release_queues (x : Elem) (p : Nat) : (x.release p).queues = x.queues := rfl
@[simp] theorem Elem.release_pool (x : Elem) (p : Nat) : (x.release p).pool = x.pool := rfl
@[simp] theorem Elem.release_s (x : Elem) (p : Nat) : (x.release p).s = x.s := rfl
@[simp] theorem Elem.release_v (x : Elem) (p : Nat) : (x.release p).v = x.v := rfl
@[simp] theorem Elem.release_w0 (x : Elem) (p : Nat) : (x.release p).w0 = x.w0 := rfl
@[simp] theorem Elem.release_w1 (x : Elem) (p : Nat) : (x.release p).w1 = x.w1 := rfl
@[simp] theorem Elem.release_routes (x : Elem) (p : Nat) : (x.release p).routes = x.routes := rfl
@[simp] theorem Elem.release_chans (x : Elem) (p : Nat) : (x.release p).chans = x.chans := rfl
@[simp] theorem Elem.release_axc (x : Elem) (p : Nat) : (x.release p).axc = x.axc := rfl
@[simp] theorem Elem.release_axs (x : Elem) (p : Nat) : (x.release p).axs = x.axs := rfl
@[simp] theorem Elem.release_tagr (x : Elem) (p : Nat) : (x.release p).tagr = x.tagr := rfl
@[simp] theorem Elem.release_lfsr (x : Elem) (p : Nat) : (x.release p).lfsr = x.lfsr := rfl
@[simp] theorem Elem.release_cseq (x : Elem) (p : Nat) : (x.release p).cseq = x.cseq := rfl
@[simp] theorem Elem.release_pcFire (x : Elem) (p : Nat) : (x.release p).pcFire = x.pcFire := rfl
@[simp] theorem Elem.release_pcStall (x : Elem) (p : Nat) : (x.release p).pcStall = x.pcStall := rfl
@[simp] theorem Elem.release_pcBeat (x : Elem) (p : Nat) : (x.release p).pcBeat = x.pcBeat := rfl
@[simp] theorem Elem.release_pcW (x : Elem) (p : Nat) : (x.release p).pcW = x.pcW := rfl
@[simp] theorem Elem.release_bank (x : Elem) (p : Nat) : (x.release p).bank = x.bank := rfl
@[simp] theorem Elem.release_bmode (x : Elem) (p : Nat) : (x.release p).bmode = x.bmode := rfl
@[simp] theorem Elem.release_qbase (x : Elem) (p : Nat) : (x.release p).qbase = x.qbase := rfl
@[simp] theorem Elem.release_qphys (x : Elem) (p : Nat) : (x.release p).qphys = x.qphys := rfl
@[simp] theorem Elem.release_wgtBase (x : Elem) (p : Nat) : (x.release p).wgtBase = x.wgtBase := rfl
@[simp] theorem Elem.release_filled (x : Elem) (p : Nat) : (x.release p).filled = x.filled := rfl
@[simp] theorem Elem.release_dirty (x : Elem) (p : Nat) : (x.release p).dirty = x.dirty := rfl
@[simp] theorem Elem.release_watch (x : Elem) (p : Nat) : (x.release p).watch = x.watch := rfl
@[simp] theorem Elem.release_pairMode (x : Elem) (p : Nat) : (x.release p).pairMode = x.pairMode := rfl
@[simp] theorem Elem.release_sink (x : Elem) (p : Nat) : (x.release p).sink = x.sink := rfl
@[simp] theorem Elem.release_w1Active (x : Elem) (p : Nat) : (x.release p).w1Active = x.w1Active := rfl
@[simp] theorem Elem.release_inRect (x : Elem) (p : Nat) : (x.release p).inRect = x.inRect := rfl
@[simp] theorem Elem.release_accb (x : Elem) (p : Nat) : (x.release p).accb = x.accb := rfl
@[simp] theorem Elem.release_out (x : Elem) (p : Nat) : (x.release p).out = x.out := rfl
@[simp] theorem Elem.release_waiting (x : Elem) (p : Nat) : (x.release p).waiting = x.waiting := rfl
@[simp] theorem Elem.release_injD (x : Elem) (p : Nat) : (x.release p).injD = x.injD := rfl
@[simp] theorem Elem.release_injC (x : Elem) (p : Nat) : (x.release p).injC = x.injC := rfl
@[simp] theorem Elem.release_stuck (x : Elem) (p : Nat) : (x.release p).stuck = x.stuck := rfl
@[simp] theorem Elem.release_posted (x : Elem) (p : Nat) : (x.release p).posted = x.posted := rfl
@[simp] theorem Elem.release_nseq (x : Elem) (p : Nat) : (x.release p).nseq = x.nseq := rfl
@[simp] theorem Elem.release_lastDone (x : Elem) (p : Nat) : (x.release p).lastDone = x.lastDone := rfl
@[simp] theorem Elem.release_sent (x : Elem) (p : Nat) : (x.release p).sent = x.sent := rfl
@[simp] theorem Elem.release_shadowN (x : Elem) (p : Nat) : (x.release p).shadowN = x.shadowN := rfl
@[simp] theorem Elem.release_markN (x : Elem) (p : Nat) : (x.release p).markN = x.markN := rfl
@[simp] theorem Elem.release_undo (x : Elem) (p : Nat) : (x.release p).undo = x.undo := rfl
@[simp] theorem Elem.release_tailed (x : Elem) (p : Nat) : (x.release p).tailed = x.tailed := rfl
@[simp] theorem Elem.release_portAt (x : Elem) (p : Nat) : (x.release p).portAt = x.portAt := rfl
@[simp] theorem Elem.release_portWait (x : Elem) (p : Nat) : (x.release p).portWait = x.portWait := rfl
@[simp] theorem Elem.release_bankAt (x : Elem) (p : Nat) : (x.release p).bankAt = x.bankAt := rfl

/-! ### Elem.dequeue -/

@[simp] theorem Elem.dequeue_cnt (x : Elem) (q : Nat) : (x.dequeue q).cnt = x.cnt := rfl
@[simp] theorem Elem.dequeue_resv (x : Elem) (q : Nat) : (x.dequeue q).resv = x.resv := rfl
@[simp] theorem Elem.dequeue_cap (x : Elem) (q : Nat) : (x.dequeue q).cap = x.cap := rfl
@[simp] theorem Elem.dequeue_lfp (x : Elem) (q : Nat) : (x.dequeue q).lfp = x.lfp := rfl
@[simp] theorem Elem.dequeue_slots (x : Elem) (q : Nat) : (x.dequeue q).slots = x.slots := rfl
@[simp] theorem Elem.dequeue_pool (x : Elem) (q : Nat) : (x.dequeue q).pool = x.pool := rfl
@[simp] theorem Elem.dequeue_s (x : Elem) (q : Nat) : (x.dequeue q).s = x.s := rfl
@[simp] theorem Elem.dequeue_v (x : Elem) (q : Nat) : (x.dequeue q).v = x.v := rfl
@[simp] theorem Elem.dequeue_w0 (x : Elem) (q : Nat) : (x.dequeue q).w0 = x.w0 := rfl
@[simp] theorem Elem.dequeue_w1 (x : Elem) (q : Nat) : (x.dequeue q).w1 = x.w1 := rfl
@[simp] theorem Elem.dequeue_routes (x : Elem) (q : Nat) : (x.dequeue q).routes = x.routes := rfl
@[simp] theorem Elem.dequeue_chans (x : Elem) (q : Nat) : (x.dequeue q).chans = x.chans := rfl
@[simp] theorem Elem.dequeue_axc (x : Elem) (q : Nat) : (x.dequeue q).axc = x.axc := rfl
@[simp] theorem Elem.dequeue_axs (x : Elem) (q : Nat) : (x.dequeue q).axs = x.axs := rfl
@[simp] theorem Elem.dequeue_tagr (x : Elem) (q : Nat) : (x.dequeue q).tagr = x.tagr := rfl
@[simp] theorem Elem.dequeue_lfsr (x : Elem) (q : Nat) : (x.dequeue q).lfsr = x.lfsr := rfl
@[simp] theorem Elem.dequeue_cseq (x : Elem) (q : Nat) : (x.dequeue q).cseq = x.cseq := rfl
@[simp] theorem Elem.dequeue_pcFire (x : Elem) (q : Nat) : (x.dequeue q).pcFire = x.pcFire := rfl
@[simp] theorem Elem.dequeue_pcStall (x : Elem) (q : Nat) : (x.dequeue q).pcStall = x.pcStall := rfl
@[simp] theorem Elem.dequeue_pcBeat (x : Elem) (q : Nat) : (x.dequeue q).pcBeat = x.pcBeat := rfl
@[simp] theorem Elem.dequeue_pcW (x : Elem) (q : Nat) : (x.dequeue q).pcW = x.pcW := rfl
@[simp] theorem Elem.dequeue_bank (x : Elem) (q : Nat) : (x.dequeue q).bank = x.bank := rfl
@[simp] theorem Elem.dequeue_bmode (x : Elem) (q : Nat) : (x.dequeue q).bmode = x.bmode := rfl
@[simp] theorem Elem.dequeue_qbase (x : Elem) (q : Nat) : (x.dequeue q).qbase = x.qbase := rfl
@[simp] theorem Elem.dequeue_qphys (x : Elem) (q : Nat) : (x.dequeue q).qphys = x.qphys := rfl
@[simp] theorem Elem.dequeue_wgtBase (x : Elem) (q : Nat) : (x.dequeue q).wgtBase = x.wgtBase := rfl
@[simp] theorem Elem.dequeue_filled (x : Elem) (q : Nat) : (x.dequeue q).filled = x.filled := rfl
@[simp] theorem Elem.dequeue_dirty (x : Elem) (q : Nat) : (x.dequeue q).dirty = x.dirty := rfl
@[simp] theorem Elem.dequeue_watch (x : Elem) (q : Nat) : (x.dequeue q).watch = x.watch := rfl
@[simp] theorem Elem.dequeue_pairMode (x : Elem) (q : Nat) : (x.dequeue q).pairMode = x.pairMode := rfl
@[simp] theorem Elem.dequeue_sink (x : Elem) (q : Nat) : (x.dequeue q).sink = x.sink := rfl
@[simp] theorem Elem.dequeue_w1Active (x : Elem) (q : Nat) : (x.dequeue q).w1Active = x.w1Active := rfl
@[simp] theorem Elem.dequeue_inRect (x : Elem) (q : Nat) : (x.dequeue q).inRect = x.inRect := rfl
@[simp] theorem Elem.dequeue_accb (x : Elem) (q : Nat) : (x.dequeue q).accb = x.accb := rfl
@[simp] theorem Elem.dequeue_out (x : Elem) (q : Nat) : (x.dequeue q).out = x.out := rfl
@[simp] theorem Elem.dequeue_waiting (x : Elem) (q : Nat) : (x.dequeue q).waiting = x.waiting := rfl
@[simp] theorem Elem.dequeue_injD (x : Elem) (q : Nat) : (x.dequeue q).injD = x.injD := rfl
@[simp] theorem Elem.dequeue_injC (x : Elem) (q : Nat) : (x.dequeue q).injC = x.injC := rfl
@[simp] theorem Elem.dequeue_stuck (x : Elem) (q : Nat) : (x.dequeue q).stuck = x.stuck := rfl
@[simp] theorem Elem.dequeue_posted (x : Elem) (q : Nat) : (x.dequeue q).posted = x.posted := rfl
@[simp] theorem Elem.dequeue_nseq (x : Elem) (q : Nat) : (x.dequeue q).nseq = x.nseq := rfl
@[simp] theorem Elem.dequeue_lastDone (x : Elem) (q : Nat) : (x.dequeue q).lastDone = x.lastDone := rfl
@[simp] theorem Elem.dequeue_sent (x : Elem) (q : Nat) : (x.dequeue q).sent = x.sent := rfl
@[simp] theorem Elem.dequeue_shadowN (x : Elem) (q : Nat) : (x.dequeue q).shadowN = x.shadowN := rfl
@[simp] theorem Elem.dequeue_markN (x : Elem) (q : Nat) : (x.dequeue q).markN = x.markN := rfl
@[simp] theorem Elem.dequeue_undo (x : Elem) (q : Nat) : (x.dequeue q).undo = x.undo := rfl
@[simp] theorem Elem.dequeue_tailed (x : Elem) (q : Nat) : (x.dequeue q).tailed = x.tailed := rfl
@[simp] theorem Elem.dequeue_portAt (x : Elem) (q : Nat) : (x.dequeue q).portAt = x.portAt := rfl
@[simp] theorem Elem.dequeue_portWait (x : Elem) (q : Nat) : (x.dequeue q).portWait = x.portWait := rfl
@[simp] theorem Elem.dequeue_bankAt (x : Elem) (q : Nat) : (x.dequeue q).bankAt = x.bankAt := rfl

/-! ### Elem.enqueue -/

@[simp] theorem Elem.enqueue_cnt (x : Elem) (q : Nat) (t : Token) : (x.enqueue q t).cnt = x.cnt := rfl
@[simp] theorem Elem.enqueue_resv (x : Elem) (q : Nat) (t : Token) : (x.enqueue q t).resv = x.resv := rfl
@[simp] theorem Elem.enqueue_cap (x : Elem) (q : Nat) (t : Token) : (x.enqueue q t).cap = x.cap := rfl
@[simp] theorem Elem.enqueue_lfp (x : Elem) (q : Nat) (t : Token) : (x.enqueue q t).lfp = x.lfp := rfl
@[simp] theorem Elem.enqueue_slots (x : Elem) (q : Nat) (t : Token) : (x.enqueue q t).slots = x.slots := rfl
@[simp] theorem Elem.enqueue_pool (x : Elem) (q : Nat) (t : Token) : (x.enqueue q t).pool = x.pool := rfl
@[simp] theorem Elem.enqueue_s (x : Elem) (q : Nat) (t : Token) : (x.enqueue q t).s = x.s := rfl
@[simp] theorem Elem.enqueue_v (x : Elem) (q : Nat) (t : Token) : (x.enqueue q t).v = x.v := rfl
@[simp] theorem Elem.enqueue_w0 (x : Elem) (q : Nat) (t : Token) : (x.enqueue q t).w0 = x.w0 := rfl
@[simp] theorem Elem.enqueue_w1 (x : Elem) (q : Nat) (t : Token) : (x.enqueue q t).w1 = x.w1 := rfl
@[simp] theorem Elem.enqueue_routes (x : Elem) (q : Nat) (t : Token) : (x.enqueue q t).routes = x.routes := rfl
@[simp] theorem Elem.enqueue_chans (x : Elem) (q : Nat) (t : Token) : (x.enqueue q t).chans = x.chans := rfl
@[simp] theorem Elem.enqueue_axc (x : Elem) (q : Nat) (t : Token) : (x.enqueue q t).axc = x.axc := rfl
@[simp] theorem Elem.enqueue_axs (x : Elem) (q : Nat) (t : Token) : (x.enqueue q t).axs = x.axs := rfl
@[simp] theorem Elem.enqueue_tagr (x : Elem) (q : Nat) (t : Token) : (x.enqueue q t).tagr = x.tagr := rfl
@[simp] theorem Elem.enqueue_lfsr (x : Elem) (q : Nat) (t : Token) : (x.enqueue q t).lfsr = x.lfsr := rfl
@[simp] theorem Elem.enqueue_cseq (x : Elem) (q : Nat) (t : Token) : (x.enqueue q t).cseq = x.cseq := rfl
@[simp] theorem Elem.enqueue_pcFire (x : Elem) (q : Nat) (t : Token) : (x.enqueue q t).pcFire = x.pcFire := rfl
@[simp] theorem Elem.enqueue_pcStall (x : Elem) (q : Nat) (t : Token) : (x.enqueue q t).pcStall = x.pcStall := rfl
@[simp] theorem Elem.enqueue_pcBeat (x : Elem) (q : Nat) (t : Token) : (x.enqueue q t).pcBeat = x.pcBeat := rfl
@[simp] theorem Elem.enqueue_pcW (x : Elem) (q : Nat) (t : Token) : (x.enqueue q t).pcW = x.pcW := rfl
@[simp] theorem Elem.enqueue_bank (x : Elem) (q : Nat) (t : Token) : (x.enqueue q t).bank = x.bank := rfl
@[simp] theorem Elem.enqueue_bmode (x : Elem) (q : Nat) (t : Token) : (x.enqueue q t).bmode = x.bmode := rfl
@[simp] theorem Elem.enqueue_qbase (x : Elem) (q : Nat) (t : Token) : (x.enqueue q t).qbase = x.qbase := rfl
@[simp] theorem Elem.enqueue_qphys (x : Elem) (q : Nat) (t : Token) : (x.enqueue q t).qphys = x.qphys := rfl
@[simp] theorem Elem.enqueue_wgtBase (x : Elem) (q : Nat) (t : Token) : (x.enqueue q t).wgtBase = x.wgtBase := rfl
@[simp] theorem Elem.enqueue_filled (x : Elem) (q : Nat) (t : Token) : (x.enqueue q t).filled = x.filled := rfl
@[simp] theorem Elem.enqueue_dirty (x : Elem) (q : Nat) (t : Token) : (x.enqueue q t).dirty = x.dirty := rfl
@[simp] theorem Elem.enqueue_watch (x : Elem) (q : Nat) (t : Token) : (x.enqueue q t).watch = x.watch := rfl
@[simp] theorem Elem.enqueue_pairMode (x : Elem) (q : Nat) (t : Token) : (x.enqueue q t).pairMode = x.pairMode := rfl
@[simp] theorem Elem.enqueue_sink (x : Elem) (q : Nat) (t : Token) : (x.enqueue q t).sink = x.sink := rfl
@[simp] theorem Elem.enqueue_w1Active (x : Elem) (q : Nat) (t : Token) : (x.enqueue q t).w1Active = x.w1Active := rfl
@[simp] theorem Elem.enqueue_inRect (x : Elem) (q : Nat) (t : Token) : (x.enqueue q t).inRect = x.inRect := rfl
@[simp] theorem Elem.enqueue_accb (x : Elem) (q : Nat) (t : Token) : (x.enqueue q t).accb = x.accb := rfl
@[simp] theorem Elem.enqueue_out (x : Elem) (q : Nat) (t : Token) : (x.enqueue q t).out = x.out := rfl
@[simp] theorem Elem.enqueue_waiting (x : Elem) (q : Nat) (t : Token) : (x.enqueue q t).waiting = x.waiting := rfl
@[simp] theorem Elem.enqueue_injD (x : Elem) (q : Nat) (t : Token) : (x.enqueue q t).injD = x.injD := rfl
@[simp] theorem Elem.enqueue_injC (x : Elem) (q : Nat) (t : Token) : (x.enqueue q t).injC = x.injC := rfl
@[simp] theorem Elem.enqueue_stuck (x : Elem) (q : Nat) (t : Token) : (x.enqueue q t).stuck = x.stuck := rfl
@[simp] theorem Elem.enqueue_posted (x : Elem) (q : Nat) (t : Token) : (x.enqueue q t).posted = x.posted := rfl
@[simp] theorem Elem.enqueue_nseq (x : Elem) (q : Nat) (t : Token) : (x.enqueue q t).nseq = x.nseq := rfl
@[simp] theorem Elem.enqueue_lastDone (x : Elem) (q : Nat) (t : Token) : (x.enqueue q t).lastDone = x.lastDone := rfl
@[simp] theorem Elem.enqueue_sent (x : Elem) (q : Nat) (t : Token) : (x.enqueue q t).sent = x.sent := rfl
@[simp] theorem Elem.enqueue_shadowN (x : Elem) (q : Nat) (t : Token) : (x.enqueue q t).shadowN = x.shadowN := rfl
@[simp] theorem Elem.enqueue_markN (x : Elem) (q : Nat) (t : Token) : (x.enqueue q t).markN = x.markN := rfl
@[simp] theorem Elem.enqueue_undo (x : Elem) (q : Nat) (t : Token) : (x.enqueue q t).undo = x.undo := rfl
@[simp] theorem Elem.enqueue_tailed (x : Elem) (q : Nat) (t : Token) : (x.enqueue q t).tailed = x.tailed := rfl
@[simp] theorem Elem.enqueue_portAt (x : Elem) (q : Nat) (t : Token) : (x.enqueue q t).portAt = x.portAt := rfl
@[simp] theorem Elem.enqueue_portWait (x : Elem) (q : Nat) (t : Token) : (x.enqueue q t).portWait = x.portWait := rfl
@[simp] theorem Elem.enqueue_bankAt (x : Elem) (q : Nat) (t : Token) : (x.enqueue q t).bankAt = x.bankAt := rfl

/-! ### Elem.emit -/

@[simp] theorem Elem.emit_cnt (x : Elem) (ts : List OutTok) : (x.emit ts).cnt = x.cnt := rfl
@[simp] theorem Elem.emit_resv (x : Elem) (ts : List OutTok) : (x.emit ts).resv = x.resv := rfl
@[simp] theorem Elem.emit_cap (x : Elem) (ts : List OutTok) : (x.emit ts).cap = x.cap := rfl
@[simp] theorem Elem.emit_lfp (x : Elem) (ts : List OutTok) : (x.emit ts).lfp = x.lfp := rfl
@[simp] theorem Elem.emit_slots (x : Elem) (ts : List OutTok) : (x.emit ts).slots = x.slots := rfl
@[simp] theorem Elem.emit_queues (x : Elem) (ts : List OutTok) : (x.emit ts).queues = x.queues := rfl
@[simp] theorem Elem.emit_pool (x : Elem) (ts : List OutTok) : (x.emit ts).pool = x.pool := rfl
@[simp] theorem Elem.emit_s (x : Elem) (ts : List OutTok) : (x.emit ts).s = x.s := rfl
@[simp] theorem Elem.emit_v (x : Elem) (ts : List OutTok) : (x.emit ts).v = x.v := rfl
@[simp] theorem Elem.emit_w0 (x : Elem) (ts : List OutTok) : (x.emit ts).w0 = x.w0 := rfl
@[simp] theorem Elem.emit_w1 (x : Elem) (ts : List OutTok) : (x.emit ts).w1 = x.w1 := rfl
@[simp] theorem Elem.emit_routes (x : Elem) (ts : List OutTok) : (x.emit ts).routes = x.routes := rfl
@[simp] theorem Elem.emit_chans (x : Elem) (ts : List OutTok) : (x.emit ts).chans = x.chans := rfl
@[simp] theorem Elem.emit_axc (x : Elem) (ts : List OutTok) : (x.emit ts).axc = x.axc := rfl
@[simp] theorem Elem.emit_axs (x : Elem) (ts : List OutTok) : (x.emit ts).axs = x.axs := rfl
@[simp] theorem Elem.emit_tagr (x : Elem) (ts : List OutTok) : (x.emit ts).tagr = x.tagr := rfl
@[simp] theorem Elem.emit_lfsr (x : Elem) (ts : List OutTok) : (x.emit ts).lfsr = x.lfsr := rfl
@[simp] theorem Elem.emit_cseq (x : Elem) (ts : List OutTok) : (x.emit ts).cseq = x.cseq := rfl
@[simp] theorem Elem.emit_pcFire (x : Elem) (ts : List OutTok) : (x.emit ts).pcFire = x.pcFire := rfl
@[simp] theorem Elem.emit_pcStall (x : Elem) (ts : List OutTok) : (x.emit ts).pcStall = x.pcStall := rfl
@[simp] theorem Elem.emit_pcBeat (x : Elem) (ts : List OutTok) : (x.emit ts).pcBeat = x.pcBeat := rfl
@[simp] theorem Elem.emit_pcW (x : Elem) (ts : List OutTok) : (x.emit ts).pcW = x.pcW := rfl
@[simp] theorem Elem.emit_bank (x : Elem) (ts : List OutTok) : (x.emit ts).bank = x.bank := rfl
@[simp] theorem Elem.emit_bmode (x : Elem) (ts : List OutTok) : (x.emit ts).bmode = x.bmode := rfl
@[simp] theorem Elem.emit_qbase (x : Elem) (ts : List OutTok) : (x.emit ts).qbase = x.qbase := rfl
@[simp] theorem Elem.emit_qphys (x : Elem) (ts : List OutTok) : (x.emit ts).qphys = x.qphys := rfl
@[simp] theorem Elem.emit_wgtBase (x : Elem) (ts : List OutTok) : (x.emit ts).wgtBase = x.wgtBase := rfl
@[simp] theorem Elem.emit_filled (x : Elem) (ts : List OutTok) : (x.emit ts).filled = x.filled := rfl
@[simp] theorem Elem.emit_dirty (x : Elem) (ts : List OutTok) : (x.emit ts).dirty = x.dirty := rfl
@[simp] theorem Elem.emit_watch (x : Elem) (ts : List OutTok) : (x.emit ts).watch = x.watch := rfl
@[simp] theorem Elem.emit_pairMode (x : Elem) (ts : List OutTok) : (x.emit ts).pairMode = x.pairMode := rfl
@[simp] theorem Elem.emit_sink (x : Elem) (ts : List OutTok) : (x.emit ts).sink = x.sink := rfl
@[simp] theorem Elem.emit_w1Active (x : Elem) (ts : List OutTok) : (x.emit ts).w1Active = x.w1Active := rfl
@[simp] theorem Elem.emit_inRect (x : Elem) (ts : List OutTok) : (x.emit ts).inRect = x.inRect := rfl
@[simp] theorem Elem.emit_accb (x : Elem) (ts : List OutTok) : (x.emit ts).accb = x.accb := rfl
@[simp] theorem Elem.emit_waiting (x : Elem) (ts : List OutTok) : (x.emit ts).waiting = x.waiting := rfl
@[simp] theorem Elem.emit_injD (x : Elem) (ts : List OutTok) : (x.emit ts).injD = x.injD := rfl
@[simp] theorem Elem.emit_injC (x : Elem) (ts : List OutTok) : (x.emit ts).injC = x.injC := rfl
@[simp] theorem Elem.emit_stuck (x : Elem) (ts : List OutTok) : (x.emit ts).stuck = x.stuck := rfl
@[simp] theorem Elem.emit_posted (x : Elem) (ts : List OutTok) : (x.emit ts).posted = x.posted := rfl
@[simp] theorem Elem.emit_nseq (x : Elem) (ts : List OutTok) : (x.emit ts).nseq = x.nseq := rfl
@[simp] theorem Elem.emit_lastDone (x : Elem) (ts : List OutTok) : (x.emit ts).lastDone = x.lastDone := rfl
@[simp] theorem Elem.emit_sent (x : Elem) (ts : List OutTok) : (x.emit ts).sent = x.sent := rfl
@[simp] theorem Elem.emit_shadowN (x : Elem) (ts : List OutTok) : (x.emit ts).shadowN = x.shadowN := rfl
@[simp] theorem Elem.emit_markN (x : Elem) (ts : List OutTok) : (x.emit ts).markN = x.markN := rfl
@[simp] theorem Elem.emit_undo (x : Elem) (ts : List OutTok) : (x.emit ts).undo = x.undo := rfl
@[simp] theorem Elem.emit_tailed (x : Elem) (ts : List OutTok) : (x.emit ts).tailed = x.tailed := rfl
@[simp] theorem Elem.emit_portAt (x : Elem) (ts : List OutTok) : (x.emit ts).portAt = x.portAt := rfl
@[simp] theorem Elem.emit_portWait (x : Elem) (ts : List OutTok) : (x.emit ts).portWait = x.portWait := rfl
@[simp] theorem Elem.emit_bankAt (x : Elem) (ts : List OutTok) : (x.emit ts).bankAt = x.bankAt := rfl

end Sys2Proof.Machine
end

