-- ==== Sys2Proof/Laws/Ops.lean ====
section
/-! SUPPORT. What the named operations do: sparse maps, elements, cores, regions, engines and the element's registers and places. -/

namespace Sys2Proof

/-! ### Sparse maps -/

@[simp] theorem SMap.get_set_self {α : Type} (d : α) (k : Nat) (x : α) (m : List (Nat × α)) : SMap.get d k (SMap.set k x m) = x := by
  induction m with
  | nil => simp [SMap.set, SMap.get]
  | cons p m ih =>
    obtain ⟨j, y⟩ := p
    simp only [SMap.set]
    split
    · simp [SMap.get]
    · split
      · simp [SMap.get]
      · simp_all [SMap.get]

theorem SMap.get_set_ne {α : Type} (d : α) {j k : Nat} (h : j ≠ k) (x : α) (m : List (Nat × α)) :
    SMap.get d j (SMap.set k x m) = SMap.get d j m := by
  induction m with
  | nil => simp [SMap.set, SMap.get, h]
  | cons p m ih =>
    obtain ⟨i, y⟩ := p
    by_cases hk : k = i
    · subst hk; simp [SMap.set, SMap.get, h]
    · by_cases hl : k < i
      · have : SMap.set k x ((i, y) :: m) = (k, x) :: (i, y) :: m := by simp [SMap.set, hk, hl]
        rw [this]
        by_cases hj : j < k
        · have h1 : j ≠ i := by omega
          have h2 : j < i := by omega
          simp [SMap.get, h, hj, h1, h2]
        · rw [SMap.get, if_neg h, if_neg hj]
      · have : SMap.set k x ((i, y) :: m) = (i, y) :: SMap.set k x m := by simp [SMap.set, hk, hl]
        rw [this, SMap.get, SMap.get, ih]

@[simp] theorem SMap.find_set_self {α : Type} (k : Nat) (x : α) (m : List (Nat × α)) : SMap.find k (SMap.set k x m) = some x := by
  induction m with
  | nil => simp [SMap.set, SMap.find]
  | cons p m ih =>
    obtain ⟨j, y⟩ := p
    simp only [SMap.set]
    split
    · simp [SMap.find]
    · split
      · simp [SMap.find]
      · simp_all [SMap.find]

theorem SMap.find_set_ne {α : Type} {j k : Nat} (h : j ≠ k) (x : α) (m : List (Nat × α)) :
    SMap.find j (SMap.set k x m) = SMap.find j m := by
  induction m with
  | nil => simp [SMap.set, SMap.find, h]
  | cons p m ih =>
    obtain ⟨i, y⟩ := p
    by_cases hk : k = i
    · subst hk; simp [SMap.set, SMap.find, h]
    · by_cases hl : k < i
      · have : SMap.set k x ((i, y) :: m) = (k, x) :: (i, y) :: m := by simp [SMap.set, hk, hl]
        rw [this]
        by_cases hj : j < k
        · have h1 : j ≠ i := by omega
          have h2 : j < i := by omega
          simp [SMap.find, h, hj, h1, h2]
        · rw [SMap.find, if_neg h, if_neg hj]
      · have : SMap.set k x ((i, y) :: m) = (i, y) :: SMap.set k x m := by simp [SMap.set, hk, hl]
        rw [this, SMap.find, SMap.find, ih]

/-- The second of two writes at a key stands. -/
@[simp] theorem SMap.set_set {α : Type} (k : Nat) (x y : α) (m : List (Nat × α)) : SMap.set k y (SMap.set k x m) = SMap.set k y m := by
  induction m with
  | nil => simp [SMap.set]
  | cons p m ih =>
    obtain ⟨i, z⟩ := p
    by_cases hk : k = i
    · subst hk; simp [SMap.set]
    · by_cases hl : k < i
      · simp [SMap.set, hk, hl]
      · simp [SMap.set, hk, hl, ih]

/-! ### Vectors -/

@[simp] theorem vget_vset_self {α : Type} {n : Nat} (v : Vector α n) (i : Nat) (x d : α) (h : i < n) : vget (vset v i x) i d = x := by
  simp [vget, vset, h]

theorem vget_vset_ne {α : Type} {n : Nat} (v : Vector α n) {i j : Nat} (x d : α) (h : i ≠ j) :
    vget (vset v i x) j d = vget v j d := by
  unfold vget vset
  split
  · exact Vector.getElem_setIfInBounds_ne _ h
  · rfl

theorem vget_vset {α : Type} {n : Nat} (v : Vector α n) (i j : Nat) (x d : α) :
    vget (vset v i x) j d = if i = j ∧ j < n then x else vget v j d := by
  by_cases h : i = j
  · subst h
    by_cases hn : i < n
    · simp [hn]
    · simp [vget, hn]
  · simp [h, vget_vset_ne v x d h]

/-- A write outside a vector leaves it. -/
theorem vset_out {α : Type} {n : Nat} (v : Vector α n) {i : Nat} (x : α) (h : n ≤ i) : vset v i x = v := by
  ext j hj
  simp [vset, Vector.getElem_setIfInBounds]
  omega

end Sys2Proof

namespace Sys2Proof.Machine

open Sys2Proof

/-! ### Elements, cores, regions and engines -/

@[simp] theorem State.elem_setElem_self (s : State) (e : Nat) (x : Elem) : (s.setElem e x).elem e = x := by
  simp [State.elem, State.setElem]

theorem State.elem_setElem_ne (s : State) {d e : Nat} (h : d ≠ e) (x : Elem) : (s.setElem e x).elem d = s.elem d := by
  simp [State.elem, State.setElem, SMap.get_set_ne _ h]

/-- The second of two changes of an element stands. -/
@[simp] theorem State.setElem_setElem (s : State) (e : Nat) (x y : Elem) : (s.setElem e x).setElem e y = s.setElem e y := by
  cases h : SMap.find e s.starts <;> simp [State.setElem, h]

@[simp] theorem State.modElem_eq (s : State) (e : Nat) (f : Elem → Elem) : s.modElem e f = s.setElem e (f (s.elem e)) := rfl

@[simp] theorem State.core_setElem (s : State) (e c : Nat) (x : Elem) : (s.setElem e x).core c = s.core c := rfl
@[simp] theorem State.region_setElem (s : State) (e n : Nat) (x : Elem) : (s.setElem e x).region n = s.region n := rfl
@[simp] theorem State.regionOf_setElem (s : State) (e d : Nat) (x : Elem) : (s.setElem e x).regionOf d = s.regionOf d := rfl
@[simp] theorem State.regionOn_setElem (s : State) (e c : Nat) (x : Elem) : (s.setElem e x).regionOn c = s.regionOn c := rfl
@[simp] theorem State.regOf_setElem (s : State) (e d : Nat) (x : Elem) : (s.setElem e x).regOf d = s.regOf d := rfl
@[simp] theorem State.runs_setElem (s : State) (e d : Nat) (x : Elem) : (s.setElem e x).runs d = s.runs d := rfl
@[simp] theorem State.engine_setElem (s : State) (e g : Nat) (x : Elem) : (s.setElem e x).engine g = s.engine g := rfl
@[simp] theorem State.part_setElem (s : State) (e p : Nat) (x : Elem) : (s.setElem e x).part p = s.part p := rfl

@[simp] theorem State.core_setCore_self (s : State) (c : Nat) (x : Core) : (s.setCore c x).core c = x := by
  simp [State.core, State.setCore]
theorem State.core_setCore_ne (s : State) {b c : Nat} (h : b ≠ c) (x : Core) : (s.setCore c x).core b = s.core b := by
  simp [State.core, State.setCore, SMap.get_set_ne _ h]
@[simp] theorem State.elem_setCore (s : State) (c e : Nat) (x : Core) : (s.setCore c x).elem e = s.elem e := rfl
@[simp] theorem State.modCore_eq (s : State) (c : Nat) (f : Core → Core) : s.modCore c f = s.setCore c (f (s.core c)) := rfl

@[simp] theorem State.region_setRegion_self (s : State) (n : Nat) (x : Region) : (s.setRegion n x).region n = some x := by
  simp [State.region, State.setRegion]
theorem State.region_setRegion_ne (s : State) {m n : Nat} (h : m ≠ n) (x : Region) : (s.setRegion n x).region m = s.region m := by
  simp [State.region, State.setRegion, SMap.find_set_ne h]
@[simp] theorem State.elem_setRegion (s : State) (n e : Nat) (x : Region) : (s.setRegion n x).elem e = s.elem e := rfl

/-- A region that does not exist is not changed; one that does takes the change. -/
theorem State.modRegion_eq (s : State) (n : Nat) (f : Region → Region) :
    s.modRegion n f = (match s.region n with | some r => s.setRegion n (f r) | none => s) := rfl

@[simp] theorem State.engine_setEngine_self (s : State) (g : Nat) (x : Engine) : (s.setEngine g x).engine g = x := by
  simp [State.engine, State.setEngine]
theorem State.engine_setEngine_ne (s : State) {f g : Nat} (h : f ≠ g) (x : Engine) : (s.setEngine g x).engine f = s.engine f := by
  simp [State.engine, State.setEngine, SMap.get_set_ne _ h]

@[simp] theorem State.part_setPart_self (s : State) (p : Nat) (x : Part) (h : p < 8) : (s.setPart p x).part p = x := by
  simp [State.part, State.setPart, h]
theorem State.part_setPart_ne (s : State) {p q : Nat} (h : p ≠ q) (x : Part) : (s.setPart p x).part q = s.part q := by
  simp [State.part, State.setPart, vget_vset_ne _ _ _ h]

/-! ### Registers and places of an element -/

theorem Elem.sreg_setS (x : Elem) (r d : Nat) (w : W32) : (x.setS d w).sreg r = if d = r ∧ r < 16 then w else x.sreg r := by
  simp [Elem.sreg, Elem.setS, vget_vset]
theorem Elem.vreg_setV (x : Elem) (r d : Nat) (w : VW) : (x.setV d w).vreg r = if d = r ∧ r < 16 then w else x.vreg r := by
  simp [Elem.vreg, Elem.setV, vget_vset]
@[simp] theorem Elem.vreg_setS (x : Elem) (r d : Nat) (w : W32) : (x.setS d w).vreg r = x.vreg r := rfl
@[simp] theorem Elem.sreg_setV (x : Elem) (r d : Nat) (w : VW) : (x.setV d w).sreg r = x.sreg r := rfl

/-! ### Bytes of a memory -/

theorem Memory.mem_cells {a : Nat} {bs : List Byte} {c : Host.Cell} (h : c ∈ Memory.cells a bs) :
    a ≤ c.1 ∧ c.1 < a + bs.length ∧ c.2 ≠ 0 := by
  induction bs generalizing a with
  | nil => simp [Memory.cells] at h
  | cons b bs ih =>
    simp only [Memory.cells] at h
    split at h
    · obtain ⟨h1, h2, h3⟩ := ih h
      simp only [List.length_cons]
      exact ⟨by omega, by omega, h3⟩
    · rename_i hb
      rcases List.mem_cons.1 h with rfl | h
      · exact ⟨Nat.le_refl _, by simp, hb⟩
      · obtain ⟨h1, h2, h3⟩ := ih h
        simp only [List.length_cons]
        exact ⟨by omega, by omega, h3⟩

theorem Memory.cells_sorted (a : Nat) (bs : List Byte) : (Memory.cells a bs).Pairwise fun x y => x.1 < y.1 := by
  induction bs generalizing a with
  | nil => simp [Memory.cells]
  | cons b bs ih =>
    simp only [Memory.cells]
    split
    · exact ih _
    · refine List.pairwise_cons.2 ⟨fun c hc => ?_, ih _⟩
      have := Memory.mem_cells hc
      show a < c.1
      omega

/-- A write keeps the canonical form. -/
theorem Memory.wf_write {m : List Host.Cell} (h : Memory.wf m) (a : Nat) (bs : List Byte) : Memory.wf (Memory.write m a bs) := by
  obtain ⟨hs, hz⟩ := h
  refine ⟨?_, ?_⟩
  · refine List.pairwise_append.2 ⟨hs.filter _, List.pairwise_append.2 ⟨Memory.cells_sorted a bs, hs.filter _, ?_⟩, ?_⟩
    · intro x hx y hy
      have := Memory.mem_cells hx
      have := (List.mem_filter.1 hy).2
      simp only [decide_eq_true_eq] at this
      omega
    · intro x hx y hy
      have hx := (List.mem_filter.1 hx).2
      simp only [decide_eq_true_eq] at hx
      rcases List.mem_append.1 hy with hy | hy
      · have := Memory.mem_cells hy; omega
      · have := (List.mem_filter.1 hy).2
        simp only [decide_eq_true_eq] at this
        omega
  · intro c hc
    rcases List.mem_append.1 hc with hc | hc
    · exact hz c (List.mem_filter.1 hc).1
    · rcases List.mem_append.1 hc with hc | hc
      · exact (Memory.mem_cells hc).2.2
      · exact hz c (List.mem_filter.1 hc).1

/-- Removing cells keeps the canonical form. -/
theorem Memory.wf_filter {m : List Host.Cell} (h : Memory.wf m) (p : Host.Cell → Bool) : Memory.wf (m.filter p) :=
  ⟨h.1.filter _, fun c hc => h.2 c (List.mem_filter.1 hc).1⟩

theorem Memory.wf_nil : Memory.wf [] := ⟨List.Pairwise.nil, by simp⟩

theorem Memory.find_cells_out {a b : Nat} {bs : List Byte} (h : b < a ∨ a + bs.length ≤ b) :
    (Memory.cells a bs).find? (fun c => c.1 == b) = none := by
  rw [List.find?_eq_none]
  intro c hc
  have := Memory.mem_cells hc
  simp
  omega

/-- A byte outside the written run reads as before. -/
theorem Memory.byte_write_out (m : List Host.Cell) (a : Nat) (bs : List Byte) {b : Nat} (h : b < a ∨ a + bs.length ≤ b) :
    Memory.byte (Memory.write m a bs) b = Memory.byte m b := by
  unfold Memory.byte Memory.write
  rw [List.find?_append, List.find?_append, Memory.find_cells_out h]
  have key : ((m.filter fun c => c.1 < a).find? fun c => c.1 == b).or
      ((m.filter fun c => a + bs.length ≤ c.1).find? fun c => c.1 == b) = m.find? fun c => c.1 == b := by
    induction m with
    | nil => rfl
    | cons c m ih =>
      by_cases hc : c.1 = b
      · rcases h with h | h
        · have : c.1 < a := by omega
          simp [List.filter_cons, hc, h]
        · have h1 : ¬ c.1 < a := by omega
          have h2 : ¬ b < a := by omega
          have hnone : (m.filter fun c => c.1 < a).find? (fun c => c.1 == b) = none := by
            rw [List.find?_eq_none]
            intro d hd
            have := (List.mem_filter.1 hd).2
            simp only [decide_eq_true_eq] at this
            simp
            omega
          simp [hc, h2, h, hnone]
      · rw [List.filter_cons, List.filter_cons, List.find?_cons_of_neg (by simpa using hc), ← ih]
        congr 1
        · split
          · rw [List.find?_cons_of_neg (by simpa using hc)]
          · rfl
        · split
          · rw [List.find?_cons_of_neg (by simpa using hc)]
          · rfl
  simp only [Option.none_or]
  rw [key]

theorem Memory.find_filter_in {m : List Host.Cell} {p : Host.Cell → Bool} {b : Nat} (h : ∀ c ∈ m, c.1 = b → p c = false) :
    (m.filter p).find? (fun c => c.1 == b) = none := by
  rw [List.find?_eq_none]
  intro c hc
  have hm := List.mem_filter.1 hc
  by_cases hb : c.1 = b
  · simp [h c hm.1 hb] at hm
  · simpa using hb

theorem Memory.find_cells_in (a : Nat) (bs : List Byte) (i : Nat) (h : i < bs.length) :
    (((Memory.cells a bs).find? fun c => c.1 == a + i).map Prod.snd).getD 0 = bs[i] := by
  induction bs generalizing a i with
  | nil => simp at h
  | cons b bs ih =>
    cases i with
    | zero =>
      simp only [Memory.cells]
      split
      · rename_i hb
        rw [Memory.find_cells_out (by omega)]
        simp [hb]
      · simp
    | succ i =>
      have := ih (a + 1) i (by simpa using h)
      simp only [Memory.cells]
      have he : a + (i + 1) = a + 1 + i := by omega
      split
      · rw [he]; simpa using this
      · rw [List.find?_cons_of_neg (by simp), he]; simpa using this

/-- A byte of the written run reads as written. -/
theorem Memory.byte_write_in (m : List Host.Cell) (a : Nat) (bs : List Byte) (i : Nat) (h : i < bs.length) :
    Memory.byte (Memory.write m a bs) (a + i) = bs[i] := by
  unfold Memory.byte Memory.write
  rw [List.find?_append, List.find?_append, Memory.find_filter_in (p := fun c => c.1 < a) (by intro c _ hc; simp; omega),
    Memory.find_filter_in (p := fun c => a + bs.length ≤ c.1) (by intro c _ hc; simp; omega)]
  simpa using Memory.find_cells_in a bs i h

/-- A read after a write to the same run gives what was written. -/
theorem Memory.read_write (m : List Host.Cell) (a : Nat) (bs : List Byte) : Memory.read (Memory.write m a bs) a bs.length = bs := by
  apply List.ext_getElem
  · simp [Memory.read]
  · intro i h1 h2
    simp [Memory.read, Memory.byte_write_in m a bs i h2]

/-- The number of a run of bytes has its value modulo the width. -/
theorem natLE_bytesLE (n w : Nat) : natLE (bytesLE n w) = w % 256 ^ n := by
  induction n generalizing w with
  | zero => simp [bytesLE, natLE, Nat.mod_one]
  | succ n ih =>
    rw [bytesLE, natLE, ih, BitVec.toNat_ofNat, show 256 ^ (n + 1) = 256 * 256 ^ n from Nat.pow_succ']
    exact (Nat.mod_mul (x := w) (a := 256) (b := 256 ^ n)).symm

@[simp] theorem bytesLE_length (n w : Nat) : (bytesLE n w).length = n := by
  induction n generalizing w with
  | zero => rfl
  | succ n ih => simp [bytesLE, ih]

end Sys2Proof.Machine
end

