-- ==== Sys2Proof/Laws/Fire.lean ====
section
/-! SUPPORT. What issuing and completing a firing do to an element: one lemma for each shared operation. -/

namespace Sys2Proof.Machine

open Sys2Proof

/-! ### Running a firing -/

theorem State.fire_ordinary {s : State} {t : TU} {f : Firing} (h : Ordinary s t f) (i : Instr) (act : Firing → State → State) :
    s.fire i t act = act f s := by
  simp [State.fire, h.1, h.2]

theorem State.fire_marking {s : State} {t : TU} {f : Firing} {k : Kind} (h : Marking s t f k) (i : Instr) (act : Firing → State → State) :
    s.fire i t act = if ownMarkers i then act f s else s.markerFiring f k := by
  simp [State.fire, h.1, h.2]

theorem State.firing_t {s : State} {t : TU} {f : Firing} (h : s.firing t = some f) : f.t = t := by
  obtain ⟨c, -, rfl⟩ := Option.map_eq_some_iff.1 h
  rfl

theorem State.firing_x {s : State} {t : TU} {f : Firing} (h : s.firing t = some f) : f.x = s.view f.e := by
  obtain ⟨c, -, rfl⟩ := Option.map_eq_some_iff.1 h
  rfl

theorem State.firing_seq {s : State} {t : TU} {f : Firing} (h : s.firing t = some f) : f.seq = (s.elem f.e).nseq := by
  obtain ⟨c, -, rfl⟩ := Option.map_eq_some_iff.1 h
  rfl

/-! ### Places and queues of an issue -/

theorem ofNat4_succ (n : Nat) : BitVec.ofNat 4 (n + 1) = BitVec.ofNat 4 n + 1 := by
  simp [BitVec.ofNat_add]

theorem consume_fold (ps : List Nat) (x : Elem) (p : Nat) (hp : p < 16) :
    vget (ps.foldl Elem.consume x).cnt p 0 = vget x.cnt p 0 - BitVec.ofNat 4 (ps.count p) := by
  induction ps generalizing x with
  | nil => simp
  | cons a ps ih =>
    rw [List.foldl_cons, ih]
    by_cases h : a = p
    · subst h
      simp only [Elem.consume, vget_vset_self _ _ _ _ hp, List.count_cons_self, ofNat4_succ]
      rw [BitVec.sub_sub, BitVec.add_comm 1]
    · simp [Elem.consume, vget_vset_ne _ _ _ h, List.count_cons_of_ne h]

theorem mark_fold (ps : List Nat) (x : Elem) (p : Nat) (hp : p < 16) :
    vget (ps.foldl Elem.mark x).cnt p 0 = vget x.cnt p 0 + BitVec.ofNat 4 (ps.count p) := by
  induction ps generalizing x with
  | nil => simp
  | cons a ps ih =>
    rw [List.foldl_cons, ih]
    by_cases h : a = p
    · subst h
      simp only [Elem.mark, vget_vset_self _ _ _ _ hp, List.count_cons_self, ofNat4_succ]
      rw [BitVec.add_assoc, BitVec.add_comm 1]
    · simp [Elem.mark, vget_vset_ne _ _ _ h, List.count_cons_of_ne h]

theorem reserve_fold (ps : List Nat) (x : Elem) (p : Nat) (hp : p < 16) :
    vget (ps.foldl Elem.reserve x).resv p 0 = vget x.resv p 0 + BitVec.ofNat 4 (ps.count p) := by
  induction ps generalizing x with
  | nil => simp
  | cons a ps ih =>
    rw [List.foldl_cons, ih]
    by_cases h : a = p
    · subst h
      simp only [Elem.reserve, vget_vset_self _ _ _ _ hp, List.count_cons_self, ofNat4_succ]
      rw [BitVec.add_assoc, BitVec.add_comm 1]
    · simp [Elem.reserve, vget_vset_ne _ _ _ h, List.count_cons_of_ne h]

theorem release_fold (ps : List Nat) (x : Elem) (p : Nat) (hp : p < 16) :
    vget (ps.foldl Elem.release x).resv p 0 = vget x.resv p 0 - BitVec.ofNat 4 (ps.count p) := by
  induction ps generalizing x with
  | nil => simp
  | cons a ps ih =>
    rw [List.foldl_cons, ih]
    by_cases h : a = p
    · subst h
      simp only [Elem.release, vget_vset_self _ _ _ _ hp, List.count_cons_self, ofNat4_succ]
      rw [BitVec.sub_sub, BitVec.add_comm 1]
    · simp [Elem.release, vget_vset_ne _ _ _ h, List.count_cons_of_ne h]

theorem dequeue_fold (qs : List Nat) (x : Elem) (q : Nat) (hq : q < 32) :
    (qs.foldl Elem.dequeue x).queue q = (x.queue q).drop (qs.count q) := by
  induction qs generalizing x with
  | nil => simp
  | cons a qs ih =>
    rw [List.foldl_cons, ih]
    by_cases h : a = q
    · subst h
      simp [Elem.dequeue, Elem.queue, hq, List.drop_tail]
    · simp [Elem.dequeue, Elem.queue, vget_vset_ne _ _ _ h, List.count_cons_of_ne h]

/-- A fold of updates keeps whatever each keeps. -/
theorem foldl_keep {α β γ : Type} (f : β → α → β) (g : β → γ) (h : ∀ b a, g (f b a) = g b) (as : List α) (b : β) :
    g (as.foldl f b) = g b := by
  induction as generalizing b with
  | nil => rfl
  | cons a as ih => rw [List.foldl_cons, ih, h]

theorem foldl_keep_of {α β γ : Type} (f : β → α → β) (g : β → γ) (as : List α) (h : ∀ b, ∀ a ∈ as, g (f b a) = g b) (b : β) :
    g (as.foldl f b) = g b := by
  induction as generalizing b with
  | nil => rfl
  | cons a as ih =>
    rw [List.foldl_cons, ih fun b a ha => h b a (List.mem_cons_of_mem _ ha), h _ _ (List.mem_cons_self ..)]

/-! ### An issue -/

theorem issueElem_cnt (t : TU) (x : Elem) (p : Nat) (hp : p < 16) :
    vget (issueElem t x).cnt p 0 = vget x.cnt p 0 - BitVec.ofNat 4 ((consumes t).count p) := by
  simp only [issueElem]
  rw [foldl_keep Elem.reserve Elem.cnt fun _ _ => rfl, foldl_keep Elem.dequeue Elem.cnt fun _ _ => rfl, consume_fold _ _ _ hp]

theorem issueElem_resv (t : TU) (x : Elem) (p : Nat) (hp : p < 16) :
    vget (issueElem t x).resv p 0 = vget x.resv p 0 + BitVec.ofNat 4 ((reserves t).count p) := by
  simp only [issueElem]
  rw [reserve_fold _ _ _ hp, foldl_keep Elem.dequeue Elem.resv fun _ _ => rfl, foldl_keep Elem.consume Elem.resv fun _ _ => rfl]

theorem issueElem_queue (t : TU) (x : Elem) (q : Nat) (hq : q < 32) :
    (issueElem t x).queue q = (x.queue q).drop ((dequeues t).count q) := by
  have h1 := foldl_keep Elem.reserve (fun x => x.queue q) (fun _ _ => rfl) (reserves t)
    ((dequeues t).foldl Elem.dequeue ((consumes t).foldl Elem.consume x))
  have h2 := foldl_keep Elem.consume (fun x => x.queue q) (fun _ _ => rfl) (consumes t) x
  have h3 := dequeue_fold (dequeues t) ((consumes t).foldl Elem.consume x) q hq
  simp only [issueElem]
  exact h1.trans (h3.trans (congrArg _ h2))

/-- Whatever consuming, dequeuing, reserving and counting the issue keep, an issue keeps. -/
theorem issueElem_keep {γ : Type} (g : Elem → γ) (h1 : ∀ x p, g (Elem.consume x p) = g x) (h2 : ∀ x q, g (Elem.dequeue x q) = g x)
    (h3 : ∀ x p, g (Elem.reserve x p) = g x) (h4 : ∀ x n, g { x with nseq := n } = g x) (t : TU) (x : Elem) :
    g (issueElem t x) = g x := by
  simp only [issueElem]
  rw [h4, foldl_keep _ g h3, foldl_keep _ g h2, foldl_keep _ g h1]

@[simp] theorem issueElem_still (t : TU) (x : Elem) : (issueElem t x).still = x.still :=
  issueElem_keep Elem.still (fun _ _ => rfl) (fun _ _ => rfl) (fun _ _ => rfl) (fun _ _ => rfl) t x
@[simp] theorem issueElem_unissued (t : TU) (x : Elem) : (issueElem t x).unissued = x.unissued :=
  issueElem_keep Elem.unissued (fun _ _ => rfl) (fun _ _ => rfl) (fun _ _ => rfl) (fun _ _ => rfl) t x
@[simp] theorem issueElem_s (t : TU) (x : Elem) : (issueElem t x).s = x.s :=
  issueElem_keep Elem.s (fun _ _ => rfl) (fun _ _ => rfl) (fun _ _ => rfl) (fun _ _ => rfl) t x
@[simp] theorem issueElem_v (t : TU) (x : Elem) : (issueElem t x).v = x.v :=
  issueElem_keep Elem.v (fun _ _ => rfl) (fun _ _ => rfl) (fun _ _ => rfl) (fun _ _ => rfl) t x
@[simp] theorem issueElem_slots (t : TU) (x : Elem) : (issueElem t x).slots = x.slots :=
  issueElem_keep Elem.slots (fun _ _ => rfl) (fun _ _ => rfl) (fun _ _ => rfl) (fun _ _ => rfl) t x
@[simp] theorem issueElem_cseq (t : TU) (x : Elem) : (issueElem t x).cseq = x.cseq :=
  issueElem_keep Elem.cseq (fun _ _ => rfl) (fun _ _ => rfl) (fun _ _ => rfl) (fun _ _ => rfl) t x
@[simp] theorem issueElem_out (t : TU) (x : Elem) : (issueElem t x).out = x.out :=
  issueElem_keep Elem.out (fun _ _ => rfl) (fun _ _ => rfl) (fun _ _ => rfl) (fun _ _ => rfl) t x
@[simp] theorem issueElem_outOf (t : TU) (x : Elem) (ctl : Bool) : (issueElem t x).outOf ctl = x.outOf ctl := by
  simp [Elem.outOf]
@[simp] theorem issueElem_waiting (t : TU) (x : Elem) : (issueElem t x).waiting = x.waiting :=
  issueElem_keep Elem.waiting (fun _ _ => rfl) (fun _ _ => rfl) (fun _ _ => rfl) (fun _ _ => rfl) t x
@[simp] theorem issueElem_axs (t : TU) (x : Elem) : (issueElem t x).axs = x.axs :=
  issueElem_keep Elem.axs (fun _ _ => rfl) (fun _ _ => rfl) (fun _ _ => rfl) (fun _ _ => rfl) t x
@[simp] theorem issueElem_nseq (t : TU) (x : Elem) : (issueElem t x).nseq = x.nseq + 1 := by
  simp only [issueElem]
  rw [foldl_keep Elem.reserve Elem.nseq fun _ _ => rfl, foldl_keep Elem.dequeue Elem.nseq fun _ _ => rfl,
    foldl_keep Elem.consume Elem.nseq fun _ _ => rfl]

/-! ### A completion -/

/-- What applying an effect keeps if the updates it is made of keep it. -/
theorem apply_keep {γ : Type} (g : Elem → γ) (f : Effect) (h1 : ∀ x, ∀ w ∈ f.sregs, g (Elem.setS x w.1 w.2) = g x)
    (h2 : ∀ x, ∀ w ∈ f.vregs, g (Elem.setV x w.1 w.2) = g x) (h3 : ∀ x p, g (Elem.release x p) = g x)
    (h4 : ∀ x p, g (Elem.mark x p) = g x) (h5 : ∀ x, g (Elem.emit x f.toks) = g x)
    (h6 : ∀ (x : Elem) (a l : W32) (y : Vector (Option Slot) 8), (a = x.axs ||| f.fl ∧ l = f.lfsr.getD x.lfsr ∧
      y = match f.slot with | some k => vset x.slots k none | none => x.slots) → g { x with axs := a, lfsr := l, slots := y } = g x)
    (x : Elem) :
    g (x.apply f) = g x := by
  simp only [Elem.apply]
  refine (h6 _ _ _ _ ⟨rfl, rfl, rfl⟩).trans ((h5 _).trans ?_)
  rw [foldl_keep _ g h4, foldl_keep _ g h3, foldl_keep_of _ g _ h2, foldl_keep_of _ g _ h1]

/-- An effect of a firing that sets nothing but registers, places, tokens and flags. -/
def Effect.bare (f : Effect) : Prop := f.lfsr = none ∧ f.sets = [] ∧ f.spec = []

theorem applyAll_bare {f : Effect} (h : f.bare) (c : Nat) (x : Elem) : applyAll c x f = { x.apply f with lastDone := (c, f.seq + 1) } := by
  simp [applyAll, h.2.1, h.2.2]

/-- The element after an issue and a completion without a slot. -/
theorem fired_apply {t : TU} {x : Elem} {f : Effect} {cond : Bool} (c : Nat) (h : f.bare) (hs : f.slot = none)
    (hm : f.marks = marksOf t cond) (hf : f.frees = reserves t) :
    Fired x (applyAll c (issueElem t x) f) t cond f.toks f.fl := by
  rw [applyAll_bare h]
  refine ⟨fun p hp => ?_, ?_, fun q hq => ?_, ?_, ?_, ?_, ?_⟩
  · simp only [Elem.apply]
    have e1 := foldl_keep_of (fun (x : Elem) (w : Nat × W32) => x.setS w.1 w.2) Elem.cnt f.sregs (fun _ _ _ => rfl) (issueElem t x)
    have e2 := fun y => foldl_keep (fun (x : Elem) (w : Nat × VW) => x.setV w.1 w.2) Elem.cnt (fun _ _ => rfl) f.vregs y
    have e3 := fun y => foldl_keep Elem.release Elem.cnt (fun _ _ => rfl) f.frees y
    show vget (Elem.emit _ _).cnt p 0 = _
    rw [Elem.emit_cnt, mark_fold _ _ _ hp, e3, e2, e1, issueElem_cnt _ _ _ hp, hm]
  · simp only [Elem.apply]
    have e1 := foldl_keep_of (fun (x : Elem) (w : Nat × W32) => x.setS w.1 w.2) Elem.resv f.sregs (fun _ _ _ => rfl) (issueElem t x)
    have e2 := fun y => foldl_keep (fun (x : Elem) (w : Nat × VW) => x.setV w.1 w.2) Elem.resv (fun _ _ => rfl) f.vregs y
    have e3 := fun y => foldl_keep Elem.mark Elem.resv (fun _ _ => rfl) f.marks y
    show (Elem.emit _ _).resv = _
    rw [Elem.emit_resv, e3]
    ext i hi
    have hv := release_fold f.frees (List.foldl (fun (x : Elem) (w : Nat × VW) => x.setV w.1 w.2)
      (List.foldl (fun (x : Elem) (w : Nat × W32) => x.setS w.1 w.2) (issueElem t x) f.sregs) f.vregs) i hi
    rw [e2, e1, issueElem_resv _ _ _ hi, hf, BitVec.add_sub_cancel] at hv
    simp only [vget, hi, dif_pos] at hv
    rw [hf, hv]
  · have k := apply_keep (fun x => x.queue q) f (fun _ _ _ => rfl) (fun _ _ _ => rfl) (fun _ _ => rfl) (fun _ _ => rfl) (fun _ => rfl)
      (fun _ _ _ _ _ => rfl) (issueElem t x)
    exact Eq.trans k (issueElem_queue t x q hq)
  · simp only [Elem.apply]
    have e1 := foldl_keep_of (fun (x : Elem) (w : Nat × W32) => x.setS w.1 w.2) (fun x => (x.out, x.nseq)) f.sregs (fun _ _ _ => rfl)
      (issueElem t x)
    have e2 := fun y => foldl_keep (fun (x : Elem) (w : Nat × VW) => x.setV w.1 w.2) (fun x => (x.out, x.nseq)) (fun _ _ => rfl) f.vregs y
    have e3 := fun y => foldl_keep Elem.release (fun x => (x.out, x.nseq)) (fun _ _ => rfl) f.frees y
    have e4 := fun y => foldl_keep Elem.mark (fun x => (x.out, x.nseq)) (fun _ _ => rfl) f.marks y
    have e := (((e4 _).trans (e3 _)).trans (e2 _)).trans e1
    rw [Prod.ext_iff] at e
    simp only [issueElem_out, issueElem_nseq] at e
    simp only [Elem.emit, e.1, e.2]
  · simp only [Elem.apply]
    have e1 := foldl_keep_of (fun (x : Elem) (w : Nat × W32) => x.setS w.1 w.2) Elem.axs f.sregs (fun _ _ _ => rfl) (issueElem t x)
    have e2 := fun y => foldl_keep (fun (x : Elem) (w : Nat × VW) => x.setV w.1 w.2) Elem.axs (fun _ _ => rfl) f.vregs y
    have e3 := fun y => foldl_keep Elem.release Elem.axs (fun _ _ => rfl) f.frees y
    have e4 := fun y => foldl_keep Elem.mark Elem.axs (fun _ _ => rfl) f.marks y
    rw [Elem.emit_axs, e4, e3, e2, e1, issueElem_axs]
  · have k := apply_keep Elem.nseq f (fun _ _ _ => rfl) (fun _ _ _ => rfl) (fun _ _ => rfl) (fun _ _ => rfl) (fun _ => rfl)
      (fun _ _ _ _ _ => rfl) (issueElem t x)
    exact Eq.trans k (issueElem_nseq t x)
  · have k := apply_keep Elem.still f (fun _ _ _ => rfl) (fun _ _ _ => rfl) (fun _ _ => rfl) (fun _ _ => rfl) (fun _ => rfl)
      (fun x a l y k => by rw [h.1, hs] at k; simp [Elem.still, k.2.1, k.2.2]) (issueElem t x)
    exact Eq.trans k (issueElem_still t x)

/-- Registers after a completion. -/
theorem applyAll_sreg {f : Effect} (h : f.bare) (c : Nat) (t : TU) (x : Elem) :
    (applyAll c (issueElem t x) f).s = (f.sregs.foldl (fun (x : Elem) (w : Nat × W32) => x.setS w.1 w.2) (issueElem t x)).s := by
  rw [applyAll_bare h]
  simp only [Elem.apply]
  have e2 := fun y => foldl_keep (fun (x : Elem) (w : Nat × VW) => x.setV w.1 w.2) Elem.s (fun _ _ => rfl) f.vregs y
  have e3 := fun y => foldl_keep Elem.release Elem.s (fun _ _ => rfl) f.frees y
  have e4 := fun y => foldl_keep Elem.mark Elem.s (fun _ _ => rfl) f.marks y
  rw [Elem.emit_s, e4, e3, e2]

theorem applyAll_vreg {f : Effect} (h : f.bare) (c : Nat) (t : TU) (x : Elem) :
    (applyAll c (issueElem t x) f).v = (f.vregs.foldl (fun (x : Elem) (w : Nat × VW) => x.setV w.1 w.2) (issueElem t x)).v := by
  rw [applyAll_bare h]
  simp only [Elem.apply]
  have e1 := foldl_keep (fun (x : Elem) (w : Nat × W32) => x.setS w.1 w.2) Elem.v (fun _ _ => rfl) f.sregs (issueElem t x)
  have e3 := fun y => foldl_keep Elem.release Elem.v (fun _ _ => rfl) f.frees y
  have e4 := fun y => foldl_keep Elem.mark Elem.v (fun _ _ => rfl) f.marks y
  rw [Elem.emit_v, e4, e3]
  cases f.vregs with
  | nil => exact e1
  | cons w ws =>
    have key : ∀ (ws : List (Nat × VW)) (a b : Elem), a.v = b.v →
        (ws.foldl (fun (x : Elem) (w : Nat × VW) => x.setV w.1 w.2) a).v = (ws.foldl (fun (x : Elem) (w : Nat × VW) => x.setV w.1 w.2) b).v := by
      intro ws
      induction ws with
      | nil => intro a b h; exact h
      | cons w ws ih => intro a b h; exact ih _ _ (by simp [Elem.setV, h])
    exact key (w :: ws) _ _ e1

/-! ### Firings without a slot -/

theorem Roomy.room {s : State} {e : Nat} (h : Roomy s e) {ts : List OutTok} (ht : ts.length ≤ 2) (t : TU) (n : Nat) :
    ((issueElem t (s.elem e)).bufferRoom ts && !(issueElem t (s.elem e)).behind n ts) = true := by
  have hl (ctl : Bool) : (planeToks ctl ts).length ≤ ts.length := List.length_filter_le _ _
  obtain ⟨h1, h3⟩ := h
  have hb : (issueElem t (s.elem e)).bufferRoom ts = true := by
    simp only [Elem.bufferRoom, issueElem_outOf, List.all_eq_true, Bool.or_eq_true, decide_eq_true_eq]
    intro ctl _
    have := h1 ctl
    have := hl ctl
    omega
  simp [hb, Elem.behind, h3]

/-- Issuing and completing at once: one change of one element. -/
theorem completeWith_issue {s : State} {f : Firing} (hr : Roomy s f.e) {ef : Effect} (ht : ef.toks.length ≤ 2) :
    (s.issue f).completeWith f.e ef = s.setElem f.e (applyAll s.cycle (issueElem f.t (s.elem f.e)) ef) := by
  have hk := hr.room ht f.t ef.seq
  simp only [State.issue, State.completeWith, State.modElem_eq, State.elem_setElem_self, State.setElem_setElem, hk, if_true]
  rfl

theorem resEffect_toks (t : TU) (k : Option Nat) (n : Nat) (d : Dst) (tag : BitVec 3) (cond : Bool) (r : Res) :
    (resEffect t k n d tag cond r).toks = resToks t tag cond r := rfl

theorem resToks_length (t : TU) (tag : BitVec 3) (cond : Bool) (r : Res) : (resToks t tag cond r).length ≤ 2 := by
  unfold resToks; split <;> simp

theorem scalar_fold (x : Elem) (ty : Ty) (d : Dst) (v n : Nat) (hn : n < 16) :
    ((scalarWrite ty d v).foldl (fun (x : Elem) (w : Nat × W32) => x.setS w.1 w.2) x).sreg n =
      destS ⟨ty, false, [v], flNone⟩ d n (x.sreg n) := by
  cases d with
  | s k =>
    by_cases hw : Ty.width ty = 64
    · simp only [scalarWrite, destS, hw, if_true, List.foldl_cons, List.foldl_nil, Elem.sreg_setS, List.headD_cons]
      by_cases h1 : n = k.toNat
      · subst h1; simp [hn]
      · have h1' : ¬ k.toNat = n := fun h => h1 h.symm
        by_cases h2 : n = k.toNat + 1
        · subst h2; simp [hn]
        · have h2' : ¬ k.toNat + 1 = n := fun h => h2 h.symm
          simp [h1, h1', h2, h2']
    · simp only [scalarWrite, destS, hw, if_false, List.foldl_cons, List.foldl_nil, Elem.sreg_setS, List.headD_cons]
      by_cases h1 : n = k.toNat
      · subst h1; simp [hn]
      · have h1' : ¬ k.toNat = n := fun h => h1 h.symm
        simp [h1, h1']
  | v k => simp [scalarWrite, destS]
  | none => simp [scalarWrite, destS]

/-- A result effect that may carry other flags than its result. -/
theorem results_of {s : State} {f : Firing} (hr : Roomy s f.e) (d : Dst) (cond : Bool) (r : Res) :
    Results s (s.finish f d cond r) f d cond r := by
  have hb : (resEffect f.t none f.seq d f.tag cond r).bare := ⟨rfl, rfl, rfl⟩
  have he : s.finish f d cond r = s.setElem f.e (applyAll s.cycle (issueElem f.t (s.elem f.e)) (resEffect f.t none f.seq d f.tag cond r)) :=
    completeWith_issue hr (resToks_length _ _ _ _)
  rw [he]
  refine ⟨by simp [OnlyElem], ?_, fun n hn => ?_, fun n hn => ?_⟩
  · rw [State.elem_setElem_self]
    exact fired_apply s.cycle hb rfl rfl rfl
  · rw [State.elem_setElem_self]
    unfold Elem.sreg
    rw [applyAll_sreg hb]
    show Elem.sreg (List.foldl _ _ (if r.vec then [] else scalarWrite r.ty d (r.vals.headD 0))) n = _
    cases hv : r.vec with
    | true => simp [destS, hv, Elem.sreg]
    | false =>
      have := scalar_fold (issueElem f.t (s.elem f.e)) r.ty d (r.vals.headD 0) n hn
      simp only [Bool.false_eq_true, if_false]
      rw [this]
      simp [destS, hv, Elem.sreg]
  · rw [State.elem_setElem_self]
    unfold Elem.vreg
    rw [applyAll_vreg hb]
    show Elem.vreg (List.foldl _ _ (match d with | .v k => if r.vec then [(k.toNat, packLanes r.ty r.vals)] else [] | _ => [])) n = _
    cases hv : r.vec <;> cases d <;> simp [destV, hv, Elem.vreg, Elem.setV, vget_vset, hn]
    rename_i k
    by_cases hk : k.toNat = n
    · subst hk; simp
    · have : ¬ n = k.toNat := fun h => hk h.symm
      simp [hk, this]

/-- A completion of an effect of the firing's own places, without a slot. -/
theorem fired_of {s : State} {f : Firing} (hr : Roomy s f.e) {cond : Bool} {ef : Effect} (hb : ef.bare) (hs : ef.slot = none)
    (hm : ef.marks = marksOf f.t cond) (hf : ef.frees = reserves f.t) (ht : ef.toks.length ≤ 2) :
    OnlyElem s ((s.issue f).completeWith f.e ef) f.e ∧
      Fired (s.elem f.e) (((s.issue f).completeWith f.e ef).elem f.e) f.t cond ef.toks ef.fl := by
  rw [completeWith_issue hr ht]
  refine ⟨by simp [OnlyElem], ?_⟩
  rw [State.elem_setElem_self]
  exact fired_apply s.cycle hb hs hm hf

/-- Registers after such a completion. -/
theorem sregs_of {s : State} {f : Firing} (hr : Roomy s f.e) {ef : Effect} (hb : ef.bare) (ht : ef.toks.length ≤ 2) :
    (((s.issue f).completeWith f.e ef).elem f.e).s =
      (ef.sregs.foldl (fun (x : Elem) (w : Nat × W32) => x.setS w.1 w.2) (issueElem f.t (s.elem f.e))).s := by
  rw [completeWith_issue hr ht, State.elem_setElem_self, applyAll_sreg hb]

theorem vregs_of {s : State} {f : Firing} (hr : Roomy s f.e) {ef : Effect} (hb : ef.bare) (ht : ef.toks.length ≤ 2) :
    (((s.issue f).completeWith f.e ef).elem f.e).v =
      (ef.vregs.foldl (fun (x : Elem) (w : Nat × VW) => x.setV w.1 w.2) (issueElem f.t (s.elem f.e))).v := by
  rw [completeWith_issue hr ht, State.elem_setElem_self, applyAll_vreg hb]

/-- A completion that writes no register. -/
theorem completes_of {s : State} {f : Firing} (hr : Roomy s f.e) (cond : Bool) (toks : List OutTok) (ht : toks.length ≤ 2) :
    Completes s ((s.issue f).completeWith f.e { baseEffect f.t none f.seq cond with toks := toks }) f cond toks flNone := by
  have hb : ({ baseEffect f.t none f.seq cond with toks := toks } : Effect).bare := ⟨rfl, rfl, rfl⟩
  have h := fired_of (cond := cond) hr hb rfl rfl rfl ht
  refine ⟨h.1, h.2, ?_, ?_⟩
  · rw [sregs_of hr hb ht]; exact issueElem_s ..
  · rw [vregs_of hr hb ht]; exact issueElem_v ..

/-- Raising a fault of a firing without a slot. -/
theorem raised_of {s : State} (f : Firing) (code addr : Nat) :
    Raised s (s.raiseFault (faultOf f code addr 8 (.issue f.e f.tix))) f code addr := by
  refine ⟨by simp [State.raiseFault, State.hold, faultOf, State.modElem], ?_⟩
  refine ⟨(s.hold (.issue f.e f.tix) true).faultRec (faultOf f code addr 8 (.issue f.e f.tix)), rfl, ?_⟩
  simp only [State.faultRec]
  split <;> exact ⟨rfl, rfl, rfl, rfl, rfl, rfl⟩

/-- Issue into a slot. -/
theorem takes_of {s : State} {t : TU} {f : Firing} {k : Nat} (h : s.firing t = some f) (hk : freeSlot f.x = some k) (i : Instr)
    (a b c : VW) (fl : Fl) (chn : Nat) : Takes s (s.takeSlot f i a b c fl chn).1 f i k a b c chn := by
  have hk8 : k < 8 := by
    have := List.mem_of_find?_eq_some hk
    simpa using this
  have hs : (s.takeSlot f i a b c fl chn).1 = s.setElem f.e ((s.takeSlot f i a b c fl chn).1.elem f.e) := by
    simp [State.takeSlot, State.issue, State.modElem_eq, State.setElem_setElem]
  refine ⟨hs, ?_, ?_⟩
  · simp only [State.takeSlot, State.issue, State.modElem_eq, State.setElem_setElem, State.elem_setElem_self, hk, Option.getD_some]
    refine ⟨fun p hp => issueElem_cnt _ _ _ hp, fun p hp => issueElem_resv _ _ _ hp, fun q hq => issueElem_queue _ _ _ hq, ?_, ?_,
      issueElem_nseq _ _, ?_⟩
    · intro j _ hj
      simp [vget_vset_ne _ _ _ (Ne.symm hj)]
    · intro j hj
      by_cases hc : chn = 0
      · subst hc; simp
      · simp only [hc, if_false]
        by_cases hj' : j + 1 = chn
        · subst hj'; simp [hj]
        · have : ¬ chn - 1 = j := by omega
          simp [vget_vset_ne _ _ _ this, hj']
    · have := issueElem_unissued f.t (s.elem f.e)
      simpa [Elem.unissued] using this
  · simp only [State.slot, State.takeSlot, State.issue, State.modElem_eq, State.setElem_setElem, State.elem_setElem_self, hk,
      Option.getD_some, vget_vset_self _ _ _ _ hk8, issueElem_cseq]
    exact ⟨_, rfl, rfl, rfl, rfl, rfl, rfl, rfl, rfl, rfl, rfl, rfl⟩

end Sys2Proof.Machine
end

