-- ==== Sys2Proof/Laws/PerInstr.lean ====
section
/-! SUPPORT. For every instruction: a well-formed one is what the decoder reads from its encoding. -/

namespace Sys2Proof.Laws.Encoding

open Sys2Proof

/-- What the decoder reads from the encoding of a well-formed instruction is that instruction; an event has no encoding. -/
def Statement (i : Instr) : Prop := i.wf = true → ∀ c, encode i = some c → decodeCode c = .ok (.single i)

theorem of_a {i : Instr} {op : BitVec 8} {t : TU} {o : FmtA} (hl : layoutOf i = .a op t o)
    (h : op.toNat ≤ 0x0C ∨ (0x10 ≤ op.toNat ∧ op.toNat ≤ 0x3D)) (hi : ofOpA op.toNat t o = some i) : Statement i := by
  intro _ c hc
  simp only [encode, hl, Option.some.injEq] at hc
  subst hc
  exact decode_a op t o i h hi

theorem of_m {i : Instr} {op : BitVec 8} {t : TU} {o : FmtM} (hl : layoutOf i = .m op t o)
    (h : 0x40 ≤ op.toNat ∧ op.toNat ≤ 0x52) (hi : ofOpM op.toNat t o = some i) : Statement i := by
  intro _ c hc
  simp only [encode, hl, Option.some.injEq] at hc
  subst hc
  exact decode_m op t o i h hi

theorem of_e {i : Instr} {op : BitVec 8} {t : TU} {o : FmtE} (hl : layoutOf i = .e op t o)
    (h : ¬ (op.toNat ≤ 0x0C ∨ (0x10 ≤ op.toNat ∧ op.toNat ≤ 0x3D)) ∧ ¬ (0x40 ≤ op.toNat ∧ op.toNat ≤ 0x52))
    (hi : i.wf = true → ofOpE op.toNat t o = some i) : Statement i := by
  intro hw c hc
  simp only [encode, hl, Option.some.injEq] at hc
  subst hc
  exact decode_e op t o i h (hi hw)

theorem of_half {i : Instr} {sop : BitVec 6} {ty : Ty} {d : BitVec 5} {a b : BitVec 6} {k : BitVec 5}
    (hl : layoutOf i = .half sop ty d a b k) (hi : ofSop sop.toNat ty d a b k = .ok i) : Statement i := by
  intro _ c hc
  simp only [encode, hl, Option.some.injEq] at hc
  subst hc
  show (decodeHalf _).map Decoded.single = _
  rw [decodeHalf_encodeHalf, hi]
  rfl

theorem of_none {i : Instr} (hl : layoutOf i = .none) : Statement i := by
  intro _ c hc
  simp [encode, hl] at hc

/-- The check of a format E row includes its immediate. -/
theorem imm_of_checkE {e : Wf.EntryE} {t : TU} {o : FmtE} (h : (Wf.checkE e t o).isNone = true) : e.imm o = true := by
  cases hv : e.imm o with
  | true => rfl
  | false =>
    simp [Wf.checkE, Wf.first, hv] at h
    obtain ⟨_, h⟩ := h
    split at h <;> try simp at h
    split at h <;> try simp at h
    split at h <;> try simp at h
    split at h <;> try simp at h
    split at h <;> try simp at h
    split at h <;> try simp at h
    split at h <;> simp at h

theorem nop (t : TU) (o : FmtA) : Statement (.nop t o) := of_a rfl (by decide) rfl
theorem emit (t : TU) (o : FmtA) : Statement (.emit t o) := of_a rfl (by decide) rfl
theorem steer (t : TU) (o : FmtA) : Statement (.steer t o) := of_a rfl (by decide) rfl
theorem merge (t : TU) (o : FmtA) : Statement (.merge t o) := of_a rfl (by decide) rfl
theorem repl (t : TU) (o : FmtA) : Statement (.repl t o) := of_a rfl (by decide) rfl
theorem mark (t : TU) (o : FmtA) : Statement (.mark t o) := of_a rfl (by decide) rfl
theorem sink (t : TU) (o : FmtA) : Statement (.sink t o) := of_a rfl (by decide) rfl
theorem doneOp (t : TU) (o : FmtA) : Statement (.doneOp t o) := of_a rfl (by decide) rfl
theorem erls (t : TU) (o : FmtA) : Statement (.erls t o) := of_a rfl (by decide) rfl
theorem pset (t : TU) (o : FmtA) : Statement (.pset t o) := of_a rfl (by decide) rfl
theorem padd (t : TU) (o : FmtA) : Statement (.padd t o) := of_a rfl (by decide) rfl
theorem prd (t : TU) (o : FmtA) : Statement (.prd t o) := of_a rfl (by decide) rfl
theorem tag (t : TU) (o : FmtA) : Statement (.tag t o) := of_a rfl (by decide) rfl
theorem rpull (t : TU) (o : FmtE) : Statement (.rpull t o) := of_e rfl (by decide) fun _ => rfl
theorem lnch (t : TU) (o : FmtE) : Statement (.lnch t o) := of_e rfl (by decide) fun _ => rfl
theorem trap (t : TU) (o : FmtE) : Statement (.trap t o) := of_e rfl (by decide) fun _ => rfl
theorem mov (t : TU) (o : FmtA) : Statement (.mov t o) := of_a rfl (by decide) rfl
theorem movi (t : TU) (o : FmtA) : Statement (.movi t o) := of_a rfl (by decide) rfl
theorem movh (t : TU) (o : FmtA) : Statement (.movh t o) := of_a rfl (by decide) rfl
theorem sel (t : TU) (o : FmtA) : Statement (.sel t o) := of_a rfl (by decide) rfl
theorem cmp (t : TU) (o : FmtA) : Statement (.cmp t o) := of_a rfl (by decide) rfl
theorem add (t : TU) (o : FmtA) : Statement (.add t o) := of_a rfl (by decide) rfl
theorem adds (t : TU) (o : FmtA) : Statement (.adds t o) := of_a rfl (by decide) rfl
theorem sub (t : TU) (o : FmtA) : Statement (.sub t o) := of_a rfl (by decide) rfl
theorem subs (t : TU) (o : FmtA) : Statement (.subs t o) := of_a rfl (by decide) rfl
theorem mul (t : TU) (o : FmtA) : Statement (.mul t o) := of_a rfl (by decide) rfl
theorem mulh (t : TU) (o : FmtA) : Statement (.mulh t o) := of_a rfl (by decide) rfl
theorem fma (t : TU) (o : FmtA) : Statement (.fma t o) := of_a rfl (by decide) rfl
theorem div (t : TU) (o : FmtA) : Statement (.div t o) := of_a rfl (by decide) rfl
theorem min (t : TU) (o : FmtA) : Statement (.min t o) := of_a rfl (by decide) rfl
theorem max (t : TU) (o : FmtA) : Statement (.max t o) := of_a rfl (by decide) rfl
theorem clamp (t : TU) (o : FmtA) : Statement (.clamp t o) := of_a rfl (by decide) rfl
theorem abs (t : TU) (o : FmtA) : Statement (.abs t o) := of_a rfl (by decide) rfl
theorem neg (t : TU) (o : FmtA) : Statement (.neg t o) := of_a rfl (by decide) rfl
theorem andOp (t : TU) (o : FmtA) : Statement (.andOp t o) := of_a rfl (by decide) rfl
theorem andn (t : TU) (o : FmtA) : Statement (.andn t o) := of_a rfl (by decide) rfl
theorem orOp (t : TU) (o : FmtA) : Statement (.orOp t o) := of_a rfl (by decide) rfl
theorem xor (t : TU) (o : FmtA) : Statement (.xor t o) := of_a rfl (by decide) rfl
theorem shl (t : TU) (o : FmtA) : Statement (.shl t o) := of_a rfl (by decide) rfl
theorem shr (t : TU) (o : FmtA) : Statement (.shr t o) := of_a rfl (by decide) rfl
theorem sar (t : TU) (o : FmtA) : Statement (.sar t o) := of_a rfl (by decide) rfl
theorem rot (t : TU) (o : FmtA) : Statement (.rot t o) := of_a rfl (by decide) rfl
theorem clz (t : TU) (o : FmtA) : Statement (.clz t o) := of_a rfl (by decide) rfl
theorem popc (t : TU) (o : FmtA) : Statement (.popc t o) := of_a rfl (by decide) rfl
theorem cvt (t : TU) (o : FmtA) : Statement (.cvt t o) := of_a rfl (by decide) rfl
theorem qnt (t : TU) (o : FmtA) : Statement (.qnt t o) := of_a rfl (by decide) rfl
theorem rcp (t : TU) (o : FmtA) : Statement (.rcp t o) := of_a rfl (by decide) rfl
theorem rsq (t : TU) (o : FmtA) : Statement (.rsq t o) := of_a rfl (by decide) rfl
theorem sqrt (t : TU) (o : FmtA) : Statement (.sqrt t o) := of_a rfl (by decide) rfl
theorem exp2 (t : TU) (o : FmtA) : Statement (.exp2 t o) := of_a rfl (by decide) rfl
theorem log2 (t : TU) (o : FmtA) : Statement (.log2 t o) := of_a rfl (by decide) rfl
theorem vbcast (t : TU) (o : FmtA) : Statement (.vbcast t o) := of_a rfl (by decide) rfl
theorem vperm (t : TU) (o : FmtA) : Statement (.vperm t o) := of_a rfl (by decide) rfl
theorem vzip (t : TU) (o : FmtA) : Statement (.vzip t o) := of_a rfl (by decide) rfl
theorem vuzp (t : TU) (o : FmtA) : Statement (.vuzp t o) := of_a rfl (by decide) rfl
theorem vtrn (t : TU) (o : FmtA) : Statement (.vtrn t o) := of_a rfl (by decide) rfl
theorem vpack (t : TU) (o : FmtA) : Statement (.vpack t o) := of_a rfl (by decide) rfl
theorem vunpk (t : TU) (o : FmtA) : Statement (.vunpk t o) := of_a rfl (by decide) rfl
theorem vcmpr (t : TU) (o : FmtA) : Statement (.vcmpr t o) := of_a rfl (by decide) rfl
theorem vxpd (t : TU) (o : FmtA) : Statement (.vxpd t o) := of_a rfl (by decide) rfl
theorem vred (t : TU) (o : FmtA) : Statement (.vred t o) := of_a rfl (by decide) rfl
theorem vscan (t : TU) (o : FmtA) : Statement (.vscan t o) := of_a rfl (by decide) rfl
theorem bld (t : TU) (o : FmtM) : Statement (.bld t o) := of_m rfl (by decide) rfl
theorem bst (t : TU) (o : FmtM) : Statement (.bst t o) := of_m rfl (by decide) rfl
theorem bldx (t : TU) (o : FmtM) : Statement (.bldx t o) := of_m rfl (by decide) rfl
theorem bstx (t : TU) (o : FmtM) : Statement (.bstx t o) := of_m rfl (by decide) rfl
theorem brmw (t : TU) (o : FmtM) : Statement (.brmw t o) := of_m rfl (by decide) rfl
theorem bcas (t : TU) (o : FmtM) : Statement (.bcas t o) := of_m rfl (by decide) rfl
theorem ld (t : TU) (o : FmtM) : Statement (.ld t o) := of_m rfl (by decide) rfl
theorem st (t : TU) (o : FmtM) : Statement (.st t o) := of_m rfl (by decide) rfl
theorem ldo (t : TU) (o : FmtM) : Statement (.ldo t o) := of_m rfl (by decide) rfl
theorem ldw (t : TU) (o : FmtM) : Statement (.ldw t o) := of_m rfl (by decide) rfl
theorem stw (t : TU) (o : FmtM) : Statement (.stw t o) := of_m rfl (by decide) rfl
theorem atom (t : TU) (o : FmtM) : Statement (.atom t o) := of_m rfl (by decide) rfl
theorem red (t : TU) (o : FmtM) : Statement (.red t o) := of_m rfl (by decide) rfl
theorem cas (t : TU) (o : FmtM) : Statement (.cas t o) := of_m rfl (by decide) rfl
theorem fence (t : TU) (o : FmtM) : Statement (.fence t o) := of_m rfl (by decide) rfl
theorem pref (t : TU) (o : FmtM) : Statement (.pref t o) := of_m rfl (by decide) rfl
theorem inv (t : TU) (o : FmtM) : Statement (.inv t o) := of_m rfl (by decide) rfl
theorem sopen (t : TU) (o : FmtE) : Statement (.sopen t o) := of_e rfl (by decide) fun _ => rfl
theorem sparm (t : TU) (o : FmtE) : Statement (.sparm t o) := of_e rfl (by decide) fun _ => rfl
theorem sclose (t : TU) (o : FmtE) : Statement (.sclose t o) := of_e rfl (by decide) fun _ => rfl
theorem srec (t : TU) (o : FmtE) : Statement (.srec t o) := of_e rfl (by decide) fun _ => rfl
theorem rfen (t : TU) (o : FmtE) : Statement (.rfen t o) := of_e rfl (by decide) fun _ => rfl
theorem gath (t : TU) (o : FmtE) : Statement (.gath t o) := of_e rfl (by decide) fun _ => rfl
theorem scat (t : TU) (o : FmtE) : Statement (.scat t o) := of_e rfl (by decide) fun _ => rfl
theorem cpy (t : TU) (o : FmtE) : Statement (.cpy t o) := of_e rfl (by decide) fun _ => rfl
theorem fill (t : TU) (o : FmtE) : Statement (.fill t o) := of_e rfl (by decide) fun _ => rfl
theorem qfen (t : TU) (o : FmtE) : Statement (.qfen t o) := of_e rfl (by decide) fun _ => rfl
theorem rcopy (t : TU) (o : FmtE) : Statement (.rcopy t o) := of_e rfl (by decide) fun _ => rfl
theorem rzero (t : TU) (o : FmtE) : Statement (.rzero t o) := of_e rfl (by decide) fun _ => rfl
theorem stash (t : TU) (o : FmtE) : Statement (.stash t o) := of_e rfl (by decide) fun _ => rfl
theorem unstash (t : TU) (o : FmtE) : Statement (.unstash t o) := of_e rfl (by decide) fun _ => rfl
theorem coll (t : TU) (o : FmtE) : Statement (.coll t o) := of_e rfl (by decide) fun _ => rfl
theorem pimabEnter (t : TU) (o : FmtE) : Statement (.pimabEnter t o) := by
  refine of_e rfl (by decide) fun hw => ?_
  have h := imm_of_checkE (e := _) (show (Wf.checkE _ t o).isNone = true from hw)
  simp only [beq_iff_eq] at h
  simp [ofOpE, h]
theorem pimabLeave (t : TU) (o : FmtE) : Statement (.pimabLeave t o) := by
  refine of_e rfl (by decide) fun hw => ?_
  have h := imm_of_checkE (e := _) (show (Wf.checkE _ t o).isNone = true from hw)
  simp only [beq_iff_eq] at h
  simp [ofOpE, h]
theorem pimld (t : TU) (o : FmtE) : Statement (.pimld t o) := of_e rfl (by decide) fun _ => rfl
theorem pimmac (t : TU) (o : FmtE) : Statement (.pimmac t o) := of_e rfl (by decide) fun _ => rfl
theorem pimrd (t : TU) (o : FmtE) : Statement (.pimrd t o) := of_e rfl (by decide) fun _ => rfl
theorem mxmodeEnter (t : TU) (o : FmtE) : Statement (.mxmodeEnter t o) := by
  refine of_e rfl (by decide) fun hw => ?_
  have h := imm_of_checkE (e := _) (show (Wf.checkE _ t o).isNone = true from hw)
  simp only [beq_iff_eq] at h
  simp [ofOpE, h]
theorem mxmodeEnterSplit (t : TU) (o : FmtE) : Statement (.mxmodeEnterSplit t o) := by
  refine of_e rfl (by decide) fun hw => ?_
  have h := imm_of_checkE (e := _) (show (Wf.checkE _ t o).isNone = true from hw)
  simp only [beq_iff_eq] at h
  simp [ofOpE, h]
theorem mxmodeLeave (t : TU) (o : FmtE) : Statement (.mxmodeLeave t o) := by
  refine of_e rfl (by decide) fun hw => ?_
  have h := imm_of_checkE (e := _) (show (Wf.checkE _ t o).isNone = true from hw)
  simp only [beq_iff_eq] at h
  simp [ofOpE, h]
theorem mxwld (t : TU) (o : FmtE) : Statement (.mxwld t o) := of_e rfl (by decide) fun _ => rfl
theorem mxc (t : TU) (o : FmtE) : Statement (.mxc t o) := of_e rfl (by decide) fun _ => rfl
theorem mxacc (t : TU) (o : FmtE) : Statement (.mxacc t o) := of_e rfl (by decide) fun _ => rfl
theorem ipatch (t : TU) (o : FmtE) : Statement (.ipatch t o) := of_e rfl (by decide) fun _ => rfl
theorem icfg (t : TU) (o : FmtE) : Statement (.icfg t o) := of_e rfl (by decide) fun _ => rfl
theorem iset (t : TU) (o : FmtE) : Statement (.iset t o) := of_e rfl (by decide) fun _ => rfl
theorem iget (t : TU) (o : FmtE) : Statement (.iget t o) := of_e rfl (by decide) fun _ => rfl
theorem istep (t : TU) (o : FmtE) : Statement (.istep t o) := of_e rfl (by decide) fun _ => rfl
theorem isave (t : TU) (o : FmtE) : Statement (.isave t o) := of_e rfl (by decide) fun _ => rfl
theorem irest (t : TU) (o : FmtE) : Statement (.irest t o) := of_e rfl (by decide) fun _ => rfl
theorem ifeed (t : TU) (o : FmtE) : Statement (.ifeed t o) := of_e rfl (by decide) fun _ => rfl
theorem isamp (t : TU) (o : FmtE) : Statement (.isamp t o) := of_e rfl (by decide) fun _ => rfl
theorem bari (t : TU) (o : FmtE) : Statement (.bari t o) := of_e rfl (by decide) fun _ => rfl
theorem bara (t : TU) (o : FmtE) : Statement (.bara t o) := of_e rfl (by decide) fun _ => rfl
theorem barw (t : TU) (o : FmtE) : Statement (.barw t o) := of_e rfl (by decide) fun _ => rfl
theorem bart (t : TU) (o : FmtE) : Statement (.bart t o) := of_e rfl (by decide) fun _ => rfl
theorem barq (t : TU) (o : FmtE) : Statement (.barq t o) := of_e rfl (by decide) fun _ => rfl
theorem waita (t : TU) (o : FmtE) : Statement (.waita t o) := of_e rfl (by decide) fun _ => rfl
theorem note (t : TU) (o : FmtE) : Statement (.note t o) := of_e rfl (by decide) fun _ => rfl
theorem rdsr (t : TU) (o : FmtE) : Statement (.rdsr t o) := of_e rfl (by decide) fun _ => rfl
theorem wrsr (t : TU) (o : FmtE) : Statement (.wrsr t o) := of_e rfl (by decide) fun _ => rfl
theorem time (t : TU) (o : FmtE) : Statement (.time t o) := of_e rfl (by decide) fun _ => rfl
theorem cfgw (t : TU) (o : FmtE) : Statement (.cfgw t o) := of_e rfl (by decide) fun _ => rfl
theorem frz (t : TU) (o : FmtE) : Statement (.frz t o) := of_e rfl (by decide) fun _ => rfl
theorem pairMov (h : HalfU) : Statement (.pairMov h) := of_half rfl rfl
theorem pairMovImm (h : HalfI) : Statement (.pairMovImm h) := of_half rfl rfl
theorem pairAdd (h : HalfR) : Statement (.pairAdd h) := of_half rfl rfl
theorem pairAddImm (h : HalfI) : Statement (.pairAddImm h) := of_half rfl rfl
theorem pairAdds (h : HalfR) : Statement (.pairAdds h) := of_half rfl rfl
theorem pairAddsImm (h : HalfI) : Statement (.pairAddsImm h) := of_half rfl rfl
theorem pairSub (h : HalfR) : Statement (.pairSub h) := of_half rfl rfl
theorem pairSubImm (h : HalfI) : Statement (.pairSubImm h) := of_half rfl rfl
theorem pairSubs (h : HalfR) : Statement (.pairSubs h) := of_half rfl rfl
theorem pairSubsImm (h : HalfI) : Statement (.pairSubsImm h) := of_half rfl rfl
theorem pairMul (h : HalfR) : Statement (.pairMul h) := of_half rfl rfl
theorem pairMulImm (h : HalfI) : Statement (.pairMulImm h) := of_half rfl rfl
theorem pairMulh (h : HalfR) : Statement (.pairMulh h) := of_half rfl rfl
theorem pairMulhImm (h : HalfI) : Statement (.pairMulhImm h) := of_half rfl rfl
theorem pairMin (h : HalfR) : Statement (.pairMin h) := of_half rfl rfl
theorem pairMinImm (h : HalfI) : Statement (.pairMinImm h) := of_half rfl rfl
theorem pairMax (h : HalfR) : Statement (.pairMax h) := of_half rfl rfl
theorem pairMaxImm (h : HalfI) : Statement (.pairMaxImm h) := of_half rfl rfl
theorem pairAbs (h : HalfU) : Statement (.pairAbs h) := of_half rfl rfl
theorem pairNeg (h : HalfU) : Statement (.pairNeg h) := of_half rfl rfl
theorem pairAnd (h : HalfR) : Statement (.pairAnd h) := of_half rfl rfl
theorem pairAndImm (h : HalfI) : Statement (.pairAndImm h) := of_half rfl rfl
theorem pairAndn (h : HalfR) : Statement (.pairAndn h) := of_half rfl rfl
theorem pairAndnImm (h : HalfI) : Statement (.pairAndnImm h) := of_half rfl rfl
theorem pairOr (h : HalfR) : Statement (.pairOr h) := of_half rfl rfl
theorem pairOrImm (h : HalfI) : Statement (.pairOrImm h) := of_half rfl rfl
theorem pairXor (h : HalfR) : Statement (.pairXor h) := of_half rfl rfl
theorem pairXorImm (h : HalfI) : Statement (.pairXorImm h) := of_half rfl rfl
theorem pairShl (h : HalfR) : Statement (.pairShl h) := of_half rfl rfl
theorem pairShlImm (h : HalfI) : Statement (.pairShlImm h) := of_half rfl rfl
theorem pairShr (h : HalfR) : Statement (.pairShr h) := of_half rfl rfl
theorem pairShrImm (h : HalfI) : Statement (.pairShrImm h) := of_half rfl rfl
theorem pairSar (h : HalfR) : Statement (.pairSar h) := of_half rfl rfl
theorem pairSarImm (h : HalfI) : Statement (.pairSarImm h) := of_half rfl rfl
theorem pairRot (h : HalfR) : Statement (.pairRot h) := of_half rfl rfl
theorem pairRotImm (h : HalfI) : Statement (.pairRotImm h) := of_half rfl rfl
theorem pairClz (h : HalfU) : Statement (.pairClz h) := of_half rfl rfl
theorem pairClzImm (h : HalfI) : Statement (.pairClzImm h) := of_half rfl rfl
theorem pairPopc (h : HalfU) : Statement (.pairPopc h) := of_half rfl rfl
theorem pairPopcImm (h : HalfI) : Statement (.pairPopcImm h) := of_half rfl rfl
theorem pairCmp (h : HalfC) : Statement (.pairCmp h) := by
  refine of_half rfl ?_
  obtain ⟨ty, d, a, b, c⟩ := h
  have h1 : c.toNat % 32 < 16 := by have := c.isLt; omega
  have h2 : (c.setWidth 5).setWidth 4 = c := by revert c; decide
  simp [ofSop, h1, h2]
theorem pairSteer (h : HalfC) : Statement (.pairSteer h) := by
  refine of_half rfl ?_
  obtain ⟨ty, d, a, b, c⟩ := h
  have h1 : c.toNat % 32 < 16 := by have := c.isLt; omega
  have h2 : (c.setWidth 5).setWidth 4 = c := by revert c; decide
  simp [ofSop, h1, h2]
theorem pairVbcast (h : HalfR) : Statement (.pairVbcast h) := of_half rfl rfl
theorem pairVbcastImm (h : HalfI) : Statement (.pairVbcastImm h) := of_half rfl rfl
theorem firingCompletion (e k : Nat) : Statement (.firingCompletion e k) := of_none rfl
theorem outputBufferEntry (e k : Nat) : Statement (.outputBufferEntry e k) := of_none rfl
theorem tokenInjection (e : Nat) (ctl : Bool) : Statement (.tokenInjection e ctl) := of_none rfl
theorem tokenArrival (n : Nat) : Statement (.tokenArrival n) := of_none rfl
theorem cfgTokenApply (e q : Nat) : Statement (.cfgTokenApply e q) := of_none rfl
theorem faultRetry (n : Nat) : Statement (.faultRetry n) := of_none rfl
theorem pgrspWrite (p : Nat) (v : W64) : Statement (.pgrspWrite p v) := of_none rfl
theorem cutRelease (r : Nat) : Statement (.cutRelease r) := of_none rfl
theorem pageResponse (tag fn : Nat) (g ok : Bool) : Statement (.pageResponse tag fn g ok) := of_none rfl
theorem functionLevelReset (f : Nat) : Statement (.functionLevelReset f) := of_none rfl
theorem retiredTagTimeout (tag : Nat) : Statement (.retiredTagTimeout tag) := of_none rfl
theorem sidedTokenReentry (n : Nat) (ok : Bool) : Statement (.sidedTokenReentry n ok) := of_none rfl
theorem sparseUpdate (n : Nat) (repair : Bool) : Statement (.sparseUpdate n repair) := of_none rfl
theorem watchMark (e w : Nat) : Statement (.watchMark e w) := of_none rfl
theorem barrierPhaseFlip (c b : Nat) : Statement (.barrierPhaseFlip c b) := of_none rfl
theorem engineQueueEntry (e k : Nat) : Statement (.engineQueueEntry e k) := of_none rfl
theorem copyChunk (g q : Nat) : Statement (.copyChunk g q) := of_none rfl
theorem rowTransfer (g q : Nat) : Statement (.rowTransfer g q) := of_none rfl
theorem bankMacPerform (g q : Nat) : Statement (.bankMacPerform g q) := of_none rfl
theorem gathRow (g q : Nat) : Statement (.gathRow g q) := of_none rfl
theorem scatRow (g q : Nat) : Statement (.scatRow g q) := of_none rfl
theorem stashChunk (g q : Nat) : Statement (.stashChunk g q) := of_none rfl
theorem unstashChunk (g q : Nat) : Statement (.unstashChunk g q) := of_none rfl
theorem collMatch (g q : Nat) (peers : List PeerColl) : Statement (.collMatch g q peers) := of_none rfl
theorem portTokenRead (c k : Nat) : Statement (.portTokenRead c k) := of_none rfl
theorem portTokenWrite (c k : Nat) : Statement (.portTokenWrite c k) := of_none rfl
theorem pageEviction (p va : Nat) : Statement (.pageEviction p va) := of_none rfl
theorem pageMigration (p va : Nat) : Statement (.pageMigration p va) := of_none rfl
theorem migrationWindowEnd (p va : Nat) : Statement (.migrationWindowEnd p va) := of_none rfl
theorem domainStep (c d : Nat) : Statement (.domainStep c d) := of_none rfl
theorem budgetExhausted (c d : Nat) : Statement (.budgetExhausted c d) := of_none rfl
theorem eventPlaceMark (c d : Nat) : Statement (.eventPlaceMark c d) := of_none rfl
theorem integratorCommandPerform (e k : Nat) : Statement (.integratorCommandPerform e k) := of_none rfl
theorem mma (r n : Nat) : Statement (.mma r n) := of_none rfl
theorem swapw (r n : Nat) : Statement (.swapw r n) := of_none rfl
theorem flush (r n : Nat) : Statement (.flush r n) := of_none rfl
theorem flushMark (r n : Nat) : Statement (.flushMark r n) := of_none rfl
theorem dispatch (p x y : Nat) : Statement (.dispatch p x y) := of_none rfl
theorem regionRelease (r : Nat) : Statement (.regionRelease r) := of_none rfl
theorem unitStart (r : Nat) : Statement (.unitStart r) := of_none rfl
theorem launchCompletion (r : Nat) : Statement (.launchCompletion r) := of_none rfl
theorem successorAppend (p : Nat) : Statement (.successorAppend p) := of_none rfl
theorem quantumExpiry (r : Nat) : Statement (.quantumExpiry r) := of_none rfl
theorem freeze (r : Nat) : Statement (.freeze r) := of_none rfl
theorem saveReadout (r : Nat) : Statement (.saveReadout r) := of_none rfl
theorem restore (r x y : Nat) : Statement (.restore r x y) := of_none rfl
theorem drain (r : Nat) : Statement (.drain r) := of_none rfl
theorem tailLampPass (e : Nat) : Statement (.tailLampPass e) := of_none rfl
theorem drainCompletion (r : Nat) : Statement (.drainCompletion r) := of_none rfl
theorem sectionShadow (e : Nat) : Statement (.sectionShadow e) := of_none rfl
theorem staleSectDiscard (e q : Nat) : Statement (.staleSectDiscard e q) := of_none rfl
theorem cutCompletion (r : Nat) : Statement (.cutCompletion r) := of_none rfl
theorem forcedCut (r : Nat) : Statement (.forcedCut r) := of_none rfl
theorem markerCutTimeout (r : Nat) : Statement (.markerCutTimeout r) := of_none rfl
theorem sectionTokenCount (r : Nat) : Statement (.sectionTokenCount r) := of_none rfl
theorem vioRelease (v : W32) : Statement (.vioRelease v) := of_none rfl
theorem queueTailWrite (p q : Nat) (v : W32) : Statement (.queueTailWrite p q v) := of_none rfl
theorem qctlWrite (p q : Nat) (v : W32) : Statement (.qctlWrite p q v) := of_none rfl
theorem cancel (p : Nat) (v : W32) : Statement (.cancel p v) := of_none rfl
theorem fqhWrite (p : Nat) (v : W32) : Statement (.fqhWrite p v) := of_none rfl
theorem fqbWrite (p : Nat) (v : W64) : Statement (.fqbWrite p v) := of_none rfl
theorem fqszWrite (p : Nat) (v : W32) : Statement (.fqszWrite p v) := of_none rfl
theorem fltsClear (p : Nat) (v : W32) : Statement (.fltsClear p v) := of_none rfl
theorem ivgoWrite (p : Nat) (v : W32) : Statement (.ivgoWrite p v) := of_none rfl
theorem invalidationCompletion (p : Nat) : Statement (.invalidationCompletion p) := of_none rfl
theorem notice (p : Nat) (m : W128) : Statement (.notice p m) := of_none rfl
theorem acknowledge (p : Nat) (m : W128) : Statement (.acknowledge p m) := of_none rfl
theorem refuse (p : Nat) (m : W128) : Statement (.refuse p m) := of_none rfl
theorem grant (p : Nat) (m : W128) : Statement (.grant p m) := of_none rfl
theorem hotAdd (p : Nat) (m : W128) : Statement (.hotAdd p m) := of_none rfl
theorem hotRemove (b : Nat) : Statement (.hotRemove b) := of_none rfl
theorem scrub (b : Nat) : Statement (.scrub b) := of_none rfl
theorem scrubCompletion (b : Nat) : Statement (.scrubCompletion b) := of_none rfl
theorem offer (b p : Nat) : Statement (.offer b p) := of_none rfl
theorem assignToModule (b : Nat) : Statement (.assignToModule b) := of_none rfl
theorem partitionEnable (p : Nat) : Statement (.partitionEnable p) := of_none rfl
theorem partitionDisable (p : Nat) : Statement (.partitionDisable p) := of_none rfl
theorem pauseSet (p : Nat) : Statement (.pauseSet p) := of_none rfl
theorem pauseClear (p : Nat) : Statement (.pauseClear p) := of_none rfl
theorem maintWrite (p : Nat) (m : Bool) : Statement (.maintWrite p m) := of_none rfl
theorem pcorWrite (p : Nat) (v : BitVec 256) : Statement (.pcorWrite p v) := of_none rfl
theorem tnowWrite (p : Nat) (v : W64) : Statement (.tnowWrite p v) := of_none rfl
theorem wrtWrite (m : Nat) (v : BitVec 4) : Statement (.wrtWrite m v) := of_none rfl
theorem registerWrite (f off : Nat) (v : W64) : Statement (.registerWrite f off v) := of_none rfl
theorem hostBar2Read (f off n : Nat) : Statement (.hostBar2Read f off n) := of_none rfl
theorem hostBar2Write (f off : Nat) (bs : List Byte) : Statement (.hostBar2Write f off bs) := of_none rfl
theorem tdispError (f : Nat) : Statement (.tdispError f) := of_none rfl
theorem peerAccess (a : PeerOp) (bs : List Byte) : Statement (.peerAccess a bs) := of_none rfl
theorem windowGrant (m n : Nat) : Statement (.windowGrant m n) := of_none rfl
theorem lnk (e k : Nat) : Statement (.lnk e k) := of_none rfl
theorem uncorrectableError (e k : Nat) (dram : Bool) : Statement (.uncorrectableError e k dram) := of_none rfl
theorem moduleReset  : Statement (.moduleReset) := of_none rfl
theorem atsTranslationResponse (c va : Nat) (leaf : W64) : Statement (.atsTranslationResponse c va leaf) := of_none rfl
theorem atsInvalidation (f va n : Nat) : Statement (.atsInvalidation f va n) := of_none rfl
theorem tdispStateChange (f t : Nat) : Statement (.tdispStateChange f t) := of_none rfl
theorem keyGeneration (k : Nat) : Statement (.keyGeneration k) := of_none rfl
theorem attestationReport (nonce : List Byte) : Statement (.attestationReport nonce) := of_none rfl
theorem recoveryImage (img sig key : List Byte) : Statement (.recoveryImage img sig key) := of_none rfl

end Sys2Proof.Laws.Encoding
end

