-- ==== Sys2Proof/Machine/Jimel.lean ====
section
/-! DEFINITION. Jimel source text: lines and words (R81), numbers and expressions (R82), symbols (R83), float values (R82, R89) and
parameter-block addresses (R93, R111). Text is a list of characters. -/

namespace Sys2Proof.Jimel

open Sys2Proof Sys2Proof.Machine

/-- Why jimas takes no line, or no source. -/
inductive AsmError
  /-- A line of more than 1,024 characters (R81). -/
  | tooLong
  /-- A line, part or argument that is not of the form its rule gives. -/
  | malformed
  /-- A number above 2^64 − 1, or no number (R82). -/
  | number
  /-- An operation that overflows, a division by zero, or a shift count outside 0 to 63 (R82). -/
  | arithmetic
  /-- A value outside the field that receives it (R82). -/
  | range
  /-- A symbol spelled against R83. -/
  | symbol
  /-- A name that is not defined where it stands (R83). -/
  | undefined
  /-- A symbol, name or item given twice (R83, R95). -/
  | twice
  /-- Two transitions pinned to one index, or more than 32 (R84). -/
  | indices
  /-- An unknown mnemonic or directive. -/
  | unknown
  /-- A type suffix that is missing or names no type (R87). -/
  | typeName
  /-- A field word that the operation has not, or a missing one (R88, R72). -/
  | word
  /-- An operand that is no operand name or number, or one too many (R87). -/
  | operand
  /-- More than one plain number in a word of format A (R87). -/
  | twoNumbers
  /-- A float immediate that IMM21 does not hold exactly (R89). -/
  | inexact
  /-- A line that stands where it must not (R93, R95). -/
  | place
  deriving DecidableEq, Repr

/-- What a part of the assembler gives. -/
abbrev Asm (α : Type) := Except AsmError α

/-- A check. -/
def must (ok : Bool) (e : AsmError) : Asm Unit := if ok then .ok () else .error e

/-- A value that must be there. -/
def found {α : Type} (e : AsmError) : Option α → Asm α
  | some x => .ok x
  | none => .error e

/-! ### Characters and words -/

abbrev Str := List Char

def isBlank (c : Char) : Bool := c == ' ' || c == '\t' || c == '\r'

/-- Without the blanks at both ends. -/
def trim (s : Str) : Str := ((s.dropWhile isBlank).reverse.dropWhile isBlank).reverse

/-- Everything but symbols is read without regard to case (R81). -/
def lower (s : Str) : Str := s.map Char.toLower

/-- A line without its comment (R81). -/
def stripComment (s : Str) : Str := trim (s.takeWhile (· != ';'))

/-- Splits at a character that stands outside parentheses. -/
def splitAt (sep : Char) : Nat → Str → Str → List Str
  | _, cur, [] => [cur.reverse]
  | d, cur, c :: cs =>
    if c == sep && d == 0 then cur.reverse :: splitAt sep 0 [] cs
    else splitAt sep (if c == '(' then d + 1 else if c == ')' then d - 1 else d) (c :: cur) cs

/-- Arguments apart by commas, each without blanks at its ends; an empty text has none. -/
def args (s : Str) : List Str := if trim s = [] then [] else (splitAt ',' 0 [] s).map trim

/-- The words of a text, apart by blanks. -/
def words (s : Str) : List Str := ((s.map fun c => if isBlank c then ' ' else c).splitOn ' ').filter (· ≠ [])

/-- A first word and what follows it. -/
def firstWord (s : Str) : Str × Str := ((trim s).takeWhile (!isBlank ·), trim ((trim s).dropWhile (!isBlank ·)))

/-- Whether a text is a given word, without regard to case. -/
def isWord (s : Str) (w : String) : Bool := lower s == w.toList

/-- The value of a word in a table, without regard to case. -/
def lookup {α : Type} (s : Str) : List (String × α) → Option α
  | [] => none
  | (w, x) :: m => if isWord s w then some x else lookup s m

/-! ### Numbers (R82) -/

def digitOf (c : Char) : Option Nat :=
  let n := c.toLower.toNat
  if 48 ≤ n && n ≤ 57 then some (n - 48) else if 97 ≤ n && n ≤ 102 then some (n - 87) else none

/-- The number of digits in a base; underscores are ignored and at least one digit stands. An underscore that does not stand between two
digits is ignored too, which R82 neither allows nor forbids (log 128, DESIGN CHOICE). -/
def digits (base : Nat) : Option Nat → Str → Option Nat
  | acc, [] => acc
  | acc, '_' :: cs => digits base acc cs
  | acc, c :: cs =>
    match digitOf c with
    | some d => if d < base then digits base (some (acc.getD 0 * base + d)) cs else none
    | none => none

/-- A number in decimal, hexadecimal or binary. -/
def numeral : Str → Option Nat
  | '0' :: 'x' :: cs => digits 16 none cs
  | '0' :: 'X' :: cs => digits 16 none cs
  | '0' :: 'b' :: cs => digits 2 none cs
  | '0' :: 'B' :: cs => digits 2 none cs
  | cs => if ((cs.head?).map Char.isDigit).getD false then digits 10 none cs else none

/-- A decimal number without sign, leading zero or underscore, as the index of a name. -/
def plainIndex (s : Str) : Option Nat :=
  if s.all Char.isDigit && (s == ['0'] || (s.head?).getD '0' != '0') then digits 10 none s else none

/-- The index of a name of one letter and a number below a bound: p0, q31, L127. -/
def indexed (letter : Char) (bound : Nat) : Str → Option Nat
  | c :: cs =>
    if c.toLower == letter then
      match plainIndex cs with
      | some n => if n < bound then some n else none
      | none => none
    else none
  | [] => none

/-! ### Expressions (R82) -/

/-- A token of an expression. -/
inductive ETok
  | num (n : Nat)
  | name (s : Str)
  | op (c : Char)
  | shl
  | shr
  deriving DecidableEq, Repr

def isNameChar (c : Char) : Bool := c.isAlphanum || c == '_'

/-- A finished word of an expression: a number, or a name. -/
def wordTok (cur : Str) : Option (List ETok) :=
  match cur.reverse with
  | [] => some []
  | c :: cs => if c.isDigit then (numeral (c :: cs)).map fun n => [.num n] else some [.name (c :: cs)]

/-- The tokens of an expression; the first argument holds the word being read, last character first. -/
def tokens : Str → Str → Option (List ETok)
  | cur, [] => wordTok cur
  | cur, '<' :: '<' :: cs => do return (← wordTok cur) ++ .shl :: (← tokens [] cs)
  | cur, '>' :: '>' :: cs => do return (← wordTok cur) ++ .shr :: (← tokens [] cs)
  | cur, c :: cs =>
    if isNameChar c then tokens (c :: cur) cs
    else if isBlank c then do return (← wordTok cur) ++ (← tokens [] cs)
    else if "()+-*/%~&^|".toList.contains c then do return (← wordTok cur) ++ .op c :: (← tokens [] cs)
    else none

/-- A result of 64-bit two's complement; one outside it is an overflow. -/
def fit64 (v : Int) : Asm Int := if -2 ^ 63 ≤ v ∧ v < 2 ^ 63 then .ok v else .error .arithmetic

/-- A number as a 64-bit pattern. -/
def numVal (n : Nat) : Asm Int :=
  if n < 2 ^ 63 then .ok n else if n < 2 ^ 64 then .ok ((n : Int) - 2 ^ 64) else .error .number

/-- A bitwise operation on 64-bit patterns. -/
def bitwise (f : W64 → W64 → W64) (a b : Int) : Int := (f (BitVec.ofInt 64 a) (BitVec.ofInt 64 b)).toInt

/-- The binary operators, loosest first: | ^ & shifts sums products. -/
def opLevel : ETok → Option Nat
  | .op '|' => some 0
  | .op '^' => some 1
  | .op '&' => some 2
  | .shl => some 3
  | .shr => some 3
  | .op '+' => some 4
  | .op '-' => some 4
  | .op '*' => some 5
  | .op '/' => some 5
  | .op '%' => some 5
  | _ => none

/-- A binary operation: division truncates toward zero, and >> keeps the sign (log 104). -/
def binary (o : ETok) (a b : Int) : Asm Int :=
  match o with
  | .op '|' => .ok (bitwise (· ||| ·) a b)
  | .op '^' => .ok (bitwise (· ^^^ ·) a b)
  | .op '&' => .ok (bitwise (· &&& ·) a b)
  | .shl => if 0 ≤ b ∧ b ≤ 63 then fit64 (a * 2 ^ b.toNat) else .error .arithmetic
  | .shr => if 0 ≤ b ∧ b ≤ 63 then .ok (a / 2 ^ b.toNat) else .error .arithmetic
  | .op '+' => fit64 (a + b)
  | .op '-' => fit64 (a - b)
  | .op '*' => fit64 (a * b)
  | .op '/' => if b = 0 then .error .arithmetic else fit64 (a.tdiv b)
  | .op '%' => if b = 0 then .error .arithmetic else fit64 (a.tmod b)
  | _ => .error .malformed

/-- The value at the head of some tokens, at a level: 0 to 5 for the binary operators, 6 for a unary or a single term. With a
value given, the operators of the level that follow it are taken. -/
def evalToks (env : Str → Option Int) : Nat → Nat → Option Int → List ETok → Asm (Int × List ETok)
  | 0, _, _, _ => .error .malformed
  | f + 1, lvl, none, ts =>
    if lvl < 6 then do
      let (a, r) ← evalToks env f (lvl + 1) none ts
      evalToks env f lvl (some a) r
    else
      match ts with
      | .num n :: r => do return (← numVal n, r)
      | .name s :: r => do return (← found .undefined (env s), r)
      | .op '-' :: r => do
        let (a, r) ← evalToks env f 6 none r
        return (← fit64 (-a), r)
      | .op '~' :: r => do
        let (a, r) ← evalToks env f 6 none r
        return (-a - 1, r)
      | .op '(' :: r => do
        match ← evalToks env f 0 none r with
        | (a, .op ')' :: r) => return (a, r)
        | _ => .error .malformed
      | _ => .error .malformed
  | f + 1, lvl, some a, ts =>
    match ts with
    | o :: r =>
      if opLevel o = some lvl then do
        let (b, r) ← evalToks env f (lvl + 1) none r
        evalToks env f lvl (some (← binary o a b)) r
      else .ok (a, ts)
    | [] => .ok (a, [])

/-- The value of an expression. -/
def expr (env : Str → Option Int) (s : Str) : Asm Int := do
  let ts ← found .number (tokens [] s)
  match ← evalToks env (10 * ts.length + 10) 0 none ts with
  | (a, []) => return a
  | _ => .error .malformed

/-- A value in an unsigned field of some bits; one of 64 bits takes any pattern (R82). -/
def unsigned (bits : Nat) (v : Int) : Asm Nat :=
  if bits = 64 then .ok (v % 2 ^ 64).toNat else if 0 ≤ v ∧ v < 2 ^ bits then .ok v.toNat else .error .range

/-- A value in a signed field of some bits, as its pattern (R82). -/
def signed (bits : Nat) (v : Int) : Asm Nat :=
  if -2 ^ (bits - 1) ≤ v ∧ v < 2 ^ (bits - 1) then .ok (v % 2 ^ bits).toNat else .error .range

/-- An expression in a range. -/
def exprIn (env : Str → Option Int) (lo hi : Int) (s : Str) : Asm Nat := do
  let v ← expr env s
  if lo ≤ v ∧ v ≤ hi then return v.toNat else .error .range

/-! ### Float values (R82, R89) -/

/-- A decimal number with an optional point and exponent, as a sign and a quotient. -/
def decimal (s : Str) : Option (Bool × Nat × Nat) :=
  let (neg, s) := match s with
    | '-' :: r => (true, trim r)
    | '+' :: r => (false, trim r)
    | r => (false, r)
  let (man, ex) := (s.takeWhile fun c => c != 'e' && c != 'E', s.dropWhile fun c => c != 'e' && c != 'E')
  let (whole, frac) := (man.takeWhile (· != '.'), (man.dropWhile (· != '.')).drop 1)
  let f := frac.filter (· != '_')
  let (eneg, edig) := match ex.drop 1 with
    | '-' :: r => (true, r)
    | '+' :: r => (false, r)
    | r => (false, r)
  if !(man.all fun c => c.isDigit || c == '_' || c == '.') || frac.contains '.' then none
  else
    match digits 10 none (whole ++ f), if ex = [] then some 0 else digits 10 none edig with
    | some m, some e =>
      some (if eneg then (neg, m, 10 ^ (f.length + e)) else (neg, m * 10 ^ e, 10 ^ f.length))
    | _, _ => none

/-- Whether a text is one number in hexadecimal. -/
def isHex (s : Str) : Bool :=
  match s with
  | '0' :: c :: cs => (c == 'x' || c == 'X') && cs.all isNameChar
  | _ => false

/-- The pattern of a number in a float position: a value in decimal, rounded to the type under RNE, or a pattern in
hexadecimal. Another expression stands for its integer value (log 104). A value past the type's range is outside its field. -/
def floatPattern (env : Str → Option Int) (ty : Ty) (s : Str) : Asm Nat := do
  if isHex s then unsigned (Ty.width ty) (← expr env s)
  else
    let (neg, n, d) ← match decimal s with
      | some q => pure q
      | none => do
        let v ← expr env s
        pure (decide (v < 0), v.natAbs, 1)
    let r := roundMag ty .rne false neg n d false
    must (!r.ovf) .range
    return r.raw

/-! ### Addresses and sizes (R93, R111) -/

/-- An argument that takes an address or a size: a value, or the parameter block's value at an offset, and an addend. -/
inductive Addr
  | val (v : Int)
  | pb (off : Nat) (add : Int)
  deriving DecidableEq, Repr

/-- What the parentheses at the head of a text enclose, and what follows them. -/
def closing : Nat → Str → Option (Str × Str)
  | _, [] => none
  | 0, '(' :: cs => closing 1 cs
  | 0, _ => none
  | 1, ')' :: cs => some ([], cs)
  | d + 1, c :: cs =>
    (closing (if c == '(' then d + 2 else if c == ')' then d else d + 1) cs).map fun p => (c :: p.1, p.2)

/-- Reads `pb(off)`, `pb(off)+n`, `pb(off)-n`, or an expression. -/
def addr (env : Str → Option Int) (s : Str) : Asm Addr := do
  if isWord (s.take 2) "pb" && (trim (s.drop 2)).head? == some '(' then
    let (off, rest) ← found .malformed (closing 0 (trim (s.drop 2)))
    let o ← unsigned 32 (← expr env off)
    match trim rest with
    | [] => return .pb o 0
    | '+' :: t => return .pb o (← expr env t)
    | '-' :: _ => return .pb o (← expr env (trim rest))
    | _ => .error .malformed
  else return .val (← expr env s)

end Sys2Proof.Jimel
end

