-- ==== Sys2Proof/Machine/JimelOp.lean ====
section
/-! DEFINITION. Transition lines of Jimel (R84 to R91): triggers, updates, mnemonics, field words and operands, and the words that jimas
writes for them. -/

namespace Sys2Proof.Jimel

open Sys2Proof Sys2Proof.Machine

/-! ### Names -/

def typeNames : List (String × Ty) :=
  [("s32", .s32), ("n32", .n32), ("s16", .s16), ("n16", .n16), ("s8", .s8), ("n8", .n8), ("f32", .f32), ("b16", .b16),
   ("h16", .h16), ("e4", .e4), ("e5", .e5), ("l6", .l6), ("s64", .s64), ("b1", .b1), ("vc", .vc)]

def specialNames : List (String × Special) :=
  [("elid", .elid), ("core", .core), ("regn", .regn), ("tagr", .tagr), ("lane", .lane), ("ix0", .ix0), ("ix1", .ix1), ("ix2", .ix2),
   ("ix3", .ix3), ("pblo", .pblo), ("pbhi", .pbhi), ("ixh", .ixh)]

/-- The registers of R68 by name. -/
def registerNames : List (String × Nat) :=
  [("elid", 0), ("core", 1), ("regn", 2), ("tagr", 3), ("axc", 4), ("axs", 5), ("lfsr", 6), ("flts", 7), ("flttmo", 8), ("qflr", 9),
   ("pmig", 10), ("pc_fire", 11), ("pc_stall", 12), ("pc_beat", 13)]

/-- The operand names of R87, the idle `_` apart. -/
def srcName (s : Str) : Option Src :=
  match indexed 's' 16 s, indexed 'v' 16 s, indexed 'q' 32 s with
  | some n, _, _ => some (.s (BitVec.ofNat 4 n))
  | _, some n, _ => some (.v (BitVec.ofNat 4 n))
  | _, _, some n => some (.q (BitVec.ofNat 5 n))
  | _, _, _ => if isWord s "zero" then some .zero else (lookup s specialNames).map .spec

def isIdle (s : Str) : Bool := s == ['_']

/-- A destination: an s or v register, or `_`. -/
def dstOp (s : Str) : Asm Dst :=
  if isIdle s then .ok .none
  else
    match srcName s with
    | some (.s r) => .ok (.s r)
    | some (.v r) => .ok (.v r)
    | _ => .error .operand

/-- A source that is a name or `_`, which writes the idle value. -/
def nameOp (s : Str) : Asm Src := if isIdle s then .ok .zero else found .operand (srcName s)

/-- A place or a barrier or a label, by name. -/
def placeOp (s : Str) : Asm Nat := found .operand (indexed 'p' 16 s)
def barrierOp (s : Str) : Asm Nat := found .operand (indexed 'b' 32 s)
def labelOp (s : Str) : Asm Nat := found .operand (indexed 'l' 128 s)

/-! ### Field words -/

/-- Words of which at most one stands, with their values, and the value when none does; with no such value one must stand. -/
structure Group where
  words : List (String × Nat)
  dflt  : Option Nat
  deriving DecidableEq, Repr

def gRound : Group := ⟨[("rne", 0), ("rtz", 1), ("rdn", 2), ("rup", 3), ("dflt", 7)], some 7⟩
def gRoundSr : Group := ⟨[("rne", 0), ("rtz", 1), ("rdn", 2), ("rup", 3), ("sr", 4), ("dflt", 7)], some 7⟩
def gSat : Group := ⟨[("sat", 1)], some 0⟩
def gCond : Group :=
  ⟨[("eq", 0), ("ne", 1), ("lt", 2), ("le", 3), ("gt", 4), ("ge", 5), ("un", 6), ("or", 7)], none⟩
def gLevel : Group := ⟨[("eor", 1), ("eot", 2), ("eos", 3)], some 0⟩
def gMarker : Group := ⟨[("eor", 1), ("eot", 2), ("eos", 3), ("sect", 4)], none⟩
def gChn : Group := ⟨[("ch1", 1), ("ch2", 2), ("ch3", 3), ("ch4", 4), ("ch5", 5), ("ch6", 6), ("ch7", 7)], some 0⟩
def gScp : Group := ⟨[("element", 0), ("core", 1), ("cluster", 2), ("die", 3), ("module", 4), ("system", 5)], some 0⟩
def gOrd : Group := ⟨[("acq", 1), ("rel", 2), ("acqrel", 3)], some 0⟩
def gEq : Group :=
  ⟨[("eq0", 0), ("eq1", 1), ("eq2", 2), ("eq3", 3), ("eq4", 4), ("eq5", 5), ("eq6", 6), ("eq7", 7)], some 0⟩
def gNtf : Group := ⟨[("nw", 1), ("nb", 2), ("nwb", 3)], some 0⟩
/-- The operations of R215. -/
def gUpdate : Group :=
  ⟨[("add", 0), ("min", 1), ("max", 2), ("and", 3), ("or", 4), ("xor", 5), ("swap", 6), ("fadd", 7)], none⟩
/-- One word that may stand, with its value. -/
def gFlag (w : String) (v : Nat) : Group := ⟨[(w, v)], some 0⟩

/-- The value of a group among some words, and the words left. -/
def pick (g : Group) (ws : List Str) : Asm (Nat × List Str) :=
  match ws.filter fun w => (lookup w g.words).isSome with
  | [] => do return (← found .word g.dflt, ws)
  | [w] => do return (← found .word (lookup w g.words), ws.filter (· ≠ w))
  | _ => .error .twice

/-- The values of some groups; no word may be left. -/
def pickAll : List Group → List Str → Asm (List Nat)
  | [], ws => do
    must (ws == []) .word
    return []
  | g :: gs, ws => do
    let (v, ws) ← pick g ws
    return v :: (← pickAll gs ws)

/-- The type at the head of the words after a mnemonic. -/
def pickType (ws : List Str) : Asm (Ty × List Str) :=
  match ws with
  | w :: ws => do return (← found .typeName (lookup w typeNames), ws)
  | [] => .error .typeName

/-! ### Format A -/

/-- How an operation of format A is written. -/
inductive AForm
  /-- `d, a, b, c` with MOD 0. -/
  | plain
  /-- Rounding for float types, saturation for integers (ADD, SUB, MUL). -/
  | arith
  /-- Rounding for float types, nothing for integers. -/
  | round
  /-- Saturation of integers (ABS, NEG, SHL). -/
  | sat
  /-- A condition (CMP, STEER). -/
  | cond
  /-- A lane mover; the sources whose number is zero-extended (R538). -/
  | mover (raw : List Nat)
  /-- VRED and VSCAN. -/
  | reduce
  /-- CVT and QNT: two types. -/
  | convert
  /-- MOVI; MOVH, whose number is bits, signed under s64 (R467). -/
  | immediate (bits : Bool)
  | marker
  | sink
  | placeSet
  | placeAdd
  | placeRead
  | tag
  deriving DecidableEq, Repr

def aOps0 : List (String × Nat × Bool × AForm) :=
  [("nop", 0x00, false, .plain), ("emit", 0x01, true, .plain), ("steer", 0x02, true, .cond), ("merge", 0x03, false, .plain),
   ("repl", 0x04, true, .plain), ("mark", 0x05, false, .marker), ("sink", 0x06, false, .sink), ("done", 0x07, false, .plain),
   ("erls", 0x08, false, .plain), ("pset", 0x09, false, .placeSet), ("padd", 0x0A, false, .placeAdd),
   ("prd", 0x0B, false, .placeRead), ("tag", 0x0C, false, .tag), ("mov", 0x10, true, .plain), ("movi", 0x11, true, .immediate false),
   ("movh", 0x12, true, .immediate true), ("sel", 0x13, true, .plain), ("cmp", 0x14, true, .cond), ("add", 0x15, true, .arith),
   ("adds", 0x16, true, .plain), ("sub", 0x17, true, .arith), ("subs", 0x18, true, .plain), ("mul", 0x19, true, .arith),
   ("mulh", 0x1A, true, .plain)]

def aOps1 : List (String × Nat × Bool × AForm) :=
  [("fma", 0x1B, true, .round), ("div", 0x1C, true, .round), ("min", 0x1D, true, .plain), ("max", 0x1E, true, .plain),
   ("clamp", 0x1F, true, .plain), ("abs", 0x20, true, .sat), ("neg", 0x21, true, .sat), ("and", 0x22, true, .plain),
   ("andn", 0x23, true, .plain), ("or", 0x24, true, .plain), ("xor", 0x25, true, .plain), ("shl", 0x26, true, .sat),
   ("shr", 0x27, true, .plain), ("sar", 0x28, true, .plain), ("rot", 0x29, true, .plain), ("clz", 0x2A, true, .plain),
   ("popc", 0x2B, true, .plain), ("cvt", 0x2C, true, .convert), ("qnt", 0x2D, true, .convert), ("rcp", 0x2E, true, .round),
   ("rsq", 0x2F, true, .round), ("sqrt", 0x30, true, .round), ("exp2", 0x31, true, .round), ("log2", 0x32, true, .round)]

def aOps2 : List (String × Nat × Bool × AForm) :=
  [("vbcast", 0x33, true, .mover [1]), ("vperm", 0x34, true, .mover [1]), ("vzip", 0x35, true, .mover [2]),
   ("vuzp", 0x36, true, .mover [2]), ("vtrn", 0x37, true, .mover [2]), ("vpack", 0x38, true, .mover []),
   ("vunpk", 0x39, true, .mover [1]), ("vcmpr", 0x3A, true, .mover [1]), ("vxpd", 0x3B, true, .mover [1]),
   ("vred", 0x3C, true, .reduce), ("vscan", 0x3D, true, .reduce)]

/-- The operations of format A: opcode (R76), whether a type is written (R87), form. -/
def aOps : List (String × Nat × Bool × AForm) := aOps0 ++ aOps1 ++ aOps2

/-- Float types and vc, which carry a rounding (R72). -/
def rounds (ty : Ty) : Bool := Ty.isIeee ty || ty == .vc

/-- IMM21 of a number under a type (R59, R82, R89). -/
def immediate (env : Str → Option Int) (ty : Ty) (s : Str) : Asm Nat :=
  match ty with
  | .s8 | .s16 | .s32 | .s64 => do signed 21 (← expr env s)
  | .n8 | .n16 | .n32 | .b1 => do unsigned 21 (← expr env s)
  | .l6 => exprIn env 0 63 s
  | _ => do
    let p ← floatPattern env .f32 s
    must (p % 2048 == 0) .inexact
    return p / 2048

/-- A source of format A: a name, `_`, or a number, which sets the field to IMM. -/
def srcOp (env : Str → Option Int) (ty : Ty) (bits : Bool) (s : Str) : Asm (Src × Option Nat) :=
  if isIdle s then .ok (.zero, none)
  else
    match srcName s with
    | some x => .ok (x, none)
    | none => do return (.imm, some (← if bits then do unsigned 21 (← expr env s) else immediate env ty s))

/-- `d, a, b, c` with trailing idle fields left out; the sources numbered in the list read their number as bits. -/
def dabc (env : Str → Option Int) (ty : Ty) (raw : List Nat) (ops : List Str) : Asm FmtA := do
  must (ops.length ≤ 4) .operand
  let at_ := fun (k : Nat) => (ops[k]?).getD ['_']
  let d ← dstOp (at_ 0)
  let (a, x) ← srcOp env ty (raw.contains 0) (at_ 1)
  let (b, y) ← srcOp env ty (raw.contains 1) (at_ 2)
  let (c, z) ← srcOp env ty (raw.contains 2) (at_ 3)
  let nums := [x, y, z].filterMap id
  must (nums.length ≤ 1) .twoNumbers
  return { ty, d, a, b, c, mod := 0, imm := BitVec.ofNat 21 (nums.headD 0) }

/-- A word of format A with its sources idle. -/
def idleA (d : Dst) (imm : Nat) : FmtA := { ty := .s32, d, a := .zero, b := .zero, c := .zero, mod := 0, imm := BitVec.ofNat 21 imm }

/-- The alternative overflow word of a conversion: `.sat` between integers, `.nsat` to e4, e5 and l6 (R435, R171). -/
def gOverflow (dty sty : Ty) : List Group :=
  if Ty.isInt dty && Ty.isInt sty then [gFlag "sat" 8] else if dty == .e4 || dty == .e5 || dty == .l6 then [gFlag "nsat" 8] else []

/-- Operands past the first n with the idle fields that `_` writes there taken away, at most k of them (R87). -/
def trimIdle (n k : Nat) (ops : List Str) : List Str :=
  let rest := ops.drop n
  ops.take n ++ rest.drop (min k (rest.takeWhile isIdle).length)

/-- The operands a form of its own shows, without the idle fields that `_` writes beside them (R87). -/
def AForm.shown (form : AForm) (ops : List Str) : List Str :=
  match form with
  | .marker | .sink => trimIdle 0 4 ops
  | .immediate _ | .placeSet | .placeAdd | .placeRead | .tag =>
    let n := if form == .placeSet || form == .placeAdd then 3 else 2
    if ops.length ≤ n + 3 then trimIdle n 3 (trimIdle 1 3 ops) else ops
  | _ => ops

/-- The fields of an operation of format A. -/
def asmA (env : Str → Option Int) (form : AForm) (ty : Ty) (ws ops : List Str) : Asm FmtA := do
  let withMod := fun (gs : List Group) => do
    let vs ← pickAll gs ws
    return { (← dabc env ty [] ops) with mod := BitVec.ofNat 4 vs.sum }
  match form, form.shown ops with
  | .plain, _ => withMod []
  | .arith, _ => withMod (if rounds ty then [gRound] else [gSat])
  | .round, _ => withMod (if rounds ty then [gRound] else [])
  | .sat, _ => withMod (if rounds ty then [] else [gSat])
  | .cond, _ => withMod [gCond]
  | .mover raw, _ => do
    let _ ← pickAll [] ws
    dabc env ty raw ops
  | .reduce, _ => do
    let vs ← pickAll [if rounds ty then gRound else gSat, gLevel] ws
    let o ← dabc env ty [] ops
    must (o.a != .imm && o.b != .imm && o.c != .imm) .operand
    return { o with mod := BitVec.ofNat 4 (vs.headD 0), imm := BitVec.ofNat 21 ((vs.drop 1).headD 0) }
  | .convert, _ => do
    let (sty, ws) ← pickType ws
    let vs ← pickAll (gRoundSr :: gOverflow ty sty) ws
    let o ← dabc env ty [] ops
    must (o.a != .imm && o.b != .imm && o.c != .imm) .operand
    return { o with mod := BitVec.ofNat 4 vs.sum, imm := (codeOfTy sty).setWidth 21 }
  | .immediate bits, [d, n] => do
    let _ ← pickAll [] ws
    return { idleA (← dstOp d) (← if bits then do (if ty = .s64 then signed else unsigned) 21 (← expr env n) else immediate env ty n) with ty := ty }
  | .marker, [] => do return idleA .none (← pickAll [gMarker] ws).sum
  | .sink, [n] => do
    let _ ← pickAll [] ws
    return idleA .none (← exprIn env 1 255 n)
  | .placeSet, [d, p, n] => do
    let _ ← pickAll [] ws
    return idleA (← dstOp d) ((← placeOp p) + 16 * (← exprIn env 0 15 n))
  | .placeAdd, [d, p, n] => do
    let _ ← pickAll [] ws
    return idleA (← dstOp d) ((← placeOp p) + 16 * (← signed 5 (← expr env n)))
  | .placeRead, [d, p] => do
    let _ ← pickAll [] ws
    match indexed 'p' 16 p with
    | some k => return { idleA (← dstOp d) k with a := .imm }
    | none => return { idleA (← dstOp d) 0 with a := (← nameOp p) }
  | .tag, [d, n] => do
    let add := (← pickAll [gFlag "add" 8] ws).sum
    match srcName n with
    | some x => return { idleA (← dstOp d) add with a := x }
    | none => return idleA (← dstOp d) (add + (← exprIn env 0 7 n))
  | _, _ => .error .operand

/-! ### Format M -/

/-- How an operation of format M is written: whether D, A and B stand, and its own words. -/
structure MForm where
  d : Bool := true
  a : Bool := true
  b : Bool := false
  own : List Group := []
  deriving DecidableEq, Repr

/-- `d, a, off`, and `d, a, b, off` with its own words. -/
def mf : MForm := {}
def mb (own : List Group) : MForm := { b := true, own }

def mOps : List (String × Nat × Bool × MForm) :=
  [("bld", 0x40, true, mf), ("bst", 0x41, true, mf), ("bldx", 0x42, true, mb []), ("bstx", 0x43, true, mb []),
   ("brmw", 0x44, true, mb [gUpdate]), ("bcas", 0x45, true, mb []), ("ld", 0x48, true, mf),
   ("st", 0x49, true, mf), ("ldo", 0x4A, true, mf), ("ldw", 0x4B, true, mf), ("stw", 0x4C, true, mf),
   ("atom", 0x4D, true, mb [gUpdate]), ("red", 0x4E, true, mb [gUpdate, gFlag "ord" 8]),
   ("cas", 0x4F, true, mb []), ("fence", 0x50, false, ⟨false, false, false, []⟩), ("pref", 0x51, false, ⟨false, true, false, []⟩),
   ("inv", 0x52, false, ⟨false, false, false, []⟩)]

/-- A name or `_` at the head of some operands; a number there, no operand, or a field that does not stand leaves the field idle; `_` may
be written for it all the same (R87). -/
def regOp (stands : Bool) (ops : List Str) : Asm (Str × List Str) :=
  match ops with
  | s :: r => .ok (if isIdle s || (stands && (srcName s).isSome) then (s, r) else (['_'], ops))
  | [] => .ok (['_'], [])

/-- The fields of an operation of format M: the number after the last register operand is OFF20 (R87). -/
def asmM (env : Str → Option Int) (f : MForm) (ty : Ty) (ws ops : List Str) : Asm FmtM := do
  let vs ← pickAll ([gChn, gScp, gOrd] ++ f.own) ws
  let (d, ops) ← regOp f.d ops
  let (a, ops) ← regOp f.a ops
  let (b, ops) ← regOp f.b ops
  let off ← match ops with
    | [] => pure 0
    | [n] => if isIdle n then pure 0 else do signed 20 (← expr env n)
    | _ => .error .operand
  return { ty, d := (← dstOp d), a := (← nameOp a), b := (← nameOp b), chn := BitVec.ofNat 3 (vs[0]?.getD 0),
           scp := BitVec.ofNat 3 (vs[1]?.getD 0), ord := BitVec.ofNat 2 (vs[2]?.getD 0),
           mod := BitVec.ofNat 4 (vs.drop 3).sum, off := BitVec.ofNat 20 off }

/-! ### Format E -/

/-- A position of an operand of format E: a field, or bits of IMM16 from a low bit. -/
inductive EPos
  | d
  | a
  /-- A source that may be left out before a barrier (BARA). -/
  | aOpt
  | b
  | c
  /-- A number of some bits. -/
  | num (lo bits : Nat)
  /-- A place, by name or number. -/
  | place (lo : Nat)
  | barrier (lo : Nat)
  /-- The barrier of a notify, which stands under NTF 2 and 3 (R67). -/
  | credit (lo : Nat)
  | label
  | register
  deriving DecidableEq, Repr

/-- Whether a type is written: never, always, or only when it is not TY 0 (BART). -/
inductive ETy
  | none
  | typed
  | optional
  deriving DecidableEq, Repr

/-- How an operation of format E is written: its operands, and its own words with their bits of IMM16. -/
structure EForm where
  ty  : ETy := .none
  pos : List EPos
  own : List Group := []
  deriving DecidableEq, Repr

/-- An operation without a written type, and one with a type: operands and own words. -/
def ef (pos : List EPos) (own : List Group) : EForm := { pos, own }
def et (pos : List EPos) (own : List Group) : EForm := { ty := .typed, pos, own }

/-- One group of words of which one must stand. -/
def oneOf (ws : List (String × Nat)) : Group := ⟨ws, none⟩

def eOps0 : List (String × Nat × EForm) :=
  [("rpull", 0x0D, ef [.d] []), ("lnch", 0x0E, ef [.d, .a, .b] []), ("trap", 0x0F, ef [.d, .a, .num 0 16] []),
   ("sopen", 0x58, ef [.d, .a, .b, .num 0 3] []),
   ("sparm", 0x59, ef [.d, .a, .num 0 3] [oneOf [("base", 0), ("stride", 8), ("tsrx", 16), ("auto", 24)]]),
   ("sclose", 0x5A, ef [.d, .num 0 3] []),
   ("srec", 0x5B, ef [.d, .num 0 3] [oneOf [("cur", 0), ("cnt", 8), ("stat", 16), ("lwm", 24), ("base", 32), ("stride", 40), ("disc", 48)]]),
   ("rfen", 0x5C, ef [.d, .num 0 8] []),
   ("gath", 0x5D, et [.d, .a, .b, .c, .num 0 3, .num 3 3] []),
   ("scat", 0x5E, et [.d, .a, .b, .c, .num 0 3, .num 3 3, .credit 6] [])]

def eOps1 : List (String × Nat × EForm) :=
  [("cpy", 0x60, ef [.d, .a, .b, .c, .credit 0] []),
   ("fill", 0x61, ef [.d, .a, .b, .c, .credit 0] [gFlag "pcl" 0x8000]),
   ("qfen", 0x62, ef [.d, .num 0 8] []), ("rcopy", 0x63, ef [.d, .a, .b, .c, .credit 0] []),
   ("rzero", 0x64, ef [.d, .a, .b, .c, .credit 0] []),
   ("stash", 0x65, et [.d, .a, .b, .c, .num 1 3, .credit 5] [oneOf [("c7", 0), ("c3", 1)]]),
   ("unstash", 0x66, et [.d, .a, .b, .c, .num 1 3] [oneOf [("c7", 0), ("c3", 1)], gFlag "mem" 0x10]),
   ("coll", 0x67, et [.d, .a, .b, .c, .credit 4] [oneOf [("ar", 0), ("ag", 1), ("rs", 2)], ⟨[("add", 0), ("min", 4), ("max", 8)], some 0⟩]),
   ("pimab", 0x68, ef [.d, .a] [oneOf [("enter", 1), ("leave", 0)]]),
   ("pimld", 0x69, et [.d, .a, .b, .c] []), ("pimmac", 0x6A, et [.d, .a, .b, .c] []),
   ("pimrd", 0x6B, et [.d, .a, .b, .c, .label] [gFlag "clr" 0x80])]

def eOps2 : List (String × Nat × EForm) :=
  [("mxmode", 0x70, ef [.d, .a] [oneOf [("enter", 1), ("leave", 0)], gFlag "split" 0x8000]),
   ("mxwld", 0x71, et [.d, .a, .b] [oneOf [("w0", 0), ("w1", 1)], gFlag "mc" 2]),
   ("mxc", 0x72, ef [.d, .a] []), ("mxacc", 0x73, et [.d, .a, .b, .label] [gFlag "clr" 0x80]),
   ("ipatch", 0x78, ef [.d, .a, .b, .c] []), ("icfg", 0x79, ef [.d, .a, .b, .c] []),
   ("iset", 0x7A, ef [.d, .a, .b] [oneOf [("yv", 0), ("rs", 1), ("ev", 2)]]),
   ("iget", 0x7B, ef [.d, .a] [oneOf [("yv", 0), ("rs", 1), ("ev", 2), ("zo", 3), ("dst", 4), ("bud", 5)]]),
   ("istep", 0x7C, ef [.d, .a, .b] [gFlag "keep" 1]), ("isave", 0x7D, ef [.d, .a, .b, .c] []),
   ("irest", 0x7E, ef [.d, .a, .b, .c] []), ("ifeed", 0x7F, ef [.d, .a] []),
   ("isamp", 0x80, ef [.d, .a, .b, .label] [oneOf [("yv", 0), ("rs", 0x80), ("ev", 0x100)]])]

def eOps3 : List (String × Nat × EForm) :=
  [("bari", 0x88, ef [.d, .a, .barrier 0] []), ("bara", 0x89, ef [.d, .aOpt, .barrier 0] []),
   ("barw", 0x8A, ef [.d, .a, .place 5, .barrier 0] []), ("bart", 0x8B, { ef [.d, .a, .barrier 0] [] with ty := .optional }),
   ("barq", 0x8C, ef [.d, .barrier 0] [oneOf [("cnt", 0), ("ph", 0x20), ("pend", 0x40)]]),
   ("waita", 0x8D, ef [.d, .a, .b, .place 0] [oneOf [("eq", 0), ("ne", 0x10)]]),
   ("note", 0x8E, ef [.d, .a] []), ("rdsr", 0x90, ef [.d, .register] []),
   ("wrsr", 0x91, ef [.d, .a, .register] []), ("time", 0x92, ef [.d] []), ("cfgw", 0x93, ef [.d, .a, .b] []),
   ("frz", 0x94, ef [.d, .a] [gFlag "self" 1])]

def eOps : List (String × Nat × EForm) := eOps0 ++ eOps1 ++ eOps2 ++ eOps3

/-- Bits of IMM16 beside those that stand. -/
def orImm (o : FmtE) (v lo : Nat) : FmtE := { o with imm := o.imm ||| BitVec.ofNat 16 (v * 2 ^ lo) }

/-- The operands of format E at their positions; trailing idle fields are left out. -/
def placeOps (env : Str → Option Int) : List EPos → List Str → FmtE → Asm FmtE
  | [], [], o => .ok o
  | [], _ :: _, _ => .error .operand
  | .d :: ps, [], o => placeOps env ps [] o
  | .a :: ps, [], o => placeOps env ps [] o
  | .aOpt :: ps, [], o => placeOps env ps [] o
  | .b :: ps, [], o => placeOps env ps [] o
  | .c :: ps, [], o => placeOps env ps [] o
  | .credit _ :: ps, [], o => do
    must (o.ntf.toNat < 2) .operand
    placeOps env ps [] o
  | _ :: _, [], _ => .error .operand
  | .d :: ps, s :: r, o => do placeOps env ps r { o with d := (← dstOp s) }
  | .a :: ps, s :: r, o => do placeOps env ps r { o with a := (← nameOp s) }
  | .aOpt :: ps, s :: r, o => do
    if r = [] then placeOps env ps (s :: r) o else placeOps env ps r { o with a := (← nameOp s) }
  | .b :: ps, s :: r, o => do placeOps env ps r { o with b := (← nameOp s) }
  | .c :: ps, s :: r, o => do placeOps env ps r { o with c := (← nameOp s) }
  | .num lo bits :: ps, s :: r, o => do placeOps env ps r (orImm o (← unsigned bits (← expr env s)) lo)
  | .place lo :: ps, s :: r, o => do
    let p ← match indexed 'p' 16 s with
      | some k => pure k
      | none => exprIn env 0 15 s
    placeOps env ps r (orImm o p lo)
  | .barrier lo :: ps, s :: r, o => do placeOps env ps r (orImm o (← barrierOp s) lo)
  | .credit lo :: ps, s :: r, o => do
    if isIdle s && o.ntf.toNat < 2 then placeOps env ps r o else placeOps env ps r (orImm o (← barrierOp s) lo)
  | .label :: ps, s :: r, o => do placeOps env ps r (orImm o (← labelOp s) 0)
  | .register :: ps, s :: r, o => do placeOps env ps r (orImm o (← found .operand (lookup s registerNames)) 0)

/-- The fields of an operation of format E: `_` may be written for a field that does not stand (R87). An UNSTASH to memory names a barrier in place of a port (R315). -/
def asmE (env : Str → Option Int) (f : EForm) (ty : Ty) (ws ops : List Str) : Asm FmtE := do
  let vs ← pickAll ([gEq, gNtf, gScp] ++ f.own) ws
  let imm := (vs.drop 3).sum
  let o : FmtE := { ty, d := .none, a := .zero, b := .zero, c := .zero, eq := BitVec.ofNat 3 (vs[0]?.getD 0),
                    ntf := BitVec.ofNat 3 (vs[1]?.getD 0), scp := BitVec.ofNat 3 (vs[2]?.getD 0), imm := BitVec.ofNat 16 imm }
  let pos := if f.own.contains (gFlag "mem" 0x10) && imm / 16 % 2 == 1 then [.d, .a, .b, .c, .credit 5] else f.pos
  let n := (pos.takeWhile fun p => p == .d || p == .a || p == .aOpt || p == .b || p == .c).length
  placeOps env pos (trimIdle n (4 - n) ops) o

/-! ### Pair halves (R73 to R75, R90) -/

/-- The pair operations: SOP, and whether they read one source. -/
def pairOps : List (String × Nat × Bool) :=
  [("mov", 0, true), ("add", 1, false), ("adds", 2, false), ("sub", 3, false), ("subs", 4, false), ("mul", 5, false),
   ("mulh", 6, false), ("min", 7, false), ("max", 8, false), ("abs", 9, true), ("neg", 10, true), ("and", 11, false),
   ("andn", 12, false), ("or", 13, false), ("xor", 14, false), ("shl", 15, false), ("shr", 16, false), ("sar", 17, false),
   ("rot", 18, false), ("clz", 19, true), ("popc", 20, true), ("cmp", 21, false), ("steer", 22, false), ("vbcast", 23, false)]

/-- A register or queue of a pair half, as its code. -/
def pairCode (s : Str) : Option Nat :=
  match srcName s with
  | some (.s r) => some r.toNat
  | some (.v r) => some (16 + r.toNat)
  | some (.q k) => some (32 + k.toNat)
  | _ => none

/-- IMM5 of a number: signed for signed types, unsigned for unsigned ones; float types have no immediate form (R75). -/
def imm5 (env : Str → Option Int) (ty : Ty) (s : Str) : Asm Nat := do
  must (Ty.isInt ty) .operand
  if Ty.signed ty then signed 5 (← expr env s) else unsigned 5 (← expr env s)

/-! ### Operations -/

/-- A mnemonic with its field words, apart by dots, and the operands. -/
def splitOp (s : Str) : List Str × List Str :=
  let (m, r) := firstWord s
  (m.splitOn '.', args r)

/-- The half of a pair that a text stands for. A one-source immediate half leaves A at 0, whose idle value the spec does not give (log 113,
DESIGN CHOICE). -/
def asmHalf (env : Str → Option Int) (s : Str) : Asm Instr := do
  match splitOp s with
  | (m :: ws, d :: ops) => do
    let (sop, one) ← found .unknown (lookup m pairOps)
    let (ty, ws) ← pickType ws
    let cond := sop == 21 || sop == 22
    let c := (← pickAll (if cond then [gCond] else []) ws).sum
    let d ← match ← dstOp d with
      | .s r => pure r.toNat
      | .v r => pure (16 + r.toNat)
      | .none => .error .operand
    let (a, b) ← match one, ops with
      | true, [x] => pure (if (pairCode x).isSome then (x, none) else (['s', '0'], some x))
      | false, [x, y] => pure (x, some y)
      | _, _ => .error .operand
    let a ← found .operand (pairCode a)
    let (sop, b, i) ← match b with
      | none => pure (sop, 0, c)
      | some y =>
        match pairCode y with
        | some k => pure (sop, k, c)
        | none => do
          must (!cond) .operand
          pure (sop + 32, 0, ← imm5 env ty y)
    match ofSop sop ty (BitVec.ofNat 5 d) (BitVec.ofNat 6 a) (BitVec.ofNat 6 b) (BitVec.ofNat 5 i) with
    | .ok h => return h
    | .error _ => .error .operand
  | _ => .error .malformed

/-- The instruction that an operation part without `&&` stands for. `mov.or` is OR with B idle (R91). -/
def asmSingle (env : Str → Option Int) (t : TU) (s : Str) : Asm Instr := do
  let (m, ops) := splitOp s
  match m with
  | [] => .error .malformed
  | m :: ws =>
    if isWord m "mov" && ((ws.head?).map fun w => isWord w "or").getD false then do
      let (ty, ws) ← pickType (ws.drop 1)
      let _ ← pickAll [] ws
      must (ops.length ≤ 2 && (Ty.isInt ty || ty == .b1)) .operand
      found .unknown (ofOpA 0x24 t (← dabc env ty [] ops))
    else
      match lookup m aOps, lookup m mOps, lookup m eOps with
      | some (op, typed, f), _, _ => do
        let (ty, ws) ← if typed then pickType ws else pure (.s32, ws)
        found .unknown (ofOpA op t (← asmA env f ty ws ops))
      | _, some (op, typed, f), _ => do
        let (ty, ws) ← if typed then pickType ws else pure (.s32, ws)
        found .unknown (ofOpM op t (← asmM env f ty ws ops))
      | _, _, some (op, f) => do
        let (ty, ws) ← match f.ty with
          | .none => pure (.s32, ws)
          | .typed => pickType ws
          | .optional => pure (((ws.head?).bind fun w => lookup w typeNames).map (·, ws.drop 1) |>.getD (.s32, ws))
        found .word (ofOpE op t (← asmE env f ty ws ops))
      | _, _, _ => .error .unknown

/-- Splits at the first `&&`. -/
def splitPair : Str → Str → Option (Str × Str)
  | _, [] => none
  | cur, '&' :: '&' :: cs => some (cur.reverse, cs)
  | cur, c :: cs => splitPair (c :: cur) cs

/-! ### Triggers and updates (R85, R86) -/

/-- A trigger that asks for nothing and an update that does nothing. -/
def emptyTU : TU := { plainTU with eae := false }

/-- One item of a trigger. -/
def trigItem (t : TU) (s : Str) : Asm TU :=
  match s with
  | '!' :: r => do
    let k ← placeOp r
    must (!t.iie) .twice
    return { t with ipi := BitVec.ofNat 4 k, iie := true }
  | _ =>
    match indexed 'p' 16 s with
    | some k =>
      if !t.eae then .ok { t with epa := BitVec.ofNat 4 k, eae := true }
      else if !t.ebe then .ok { t with epb := BitVec.ofNat 4 k, ebe := true }
      else .error .twice
    | none => do
      let tagged := isWord (s.dropWhile (· != '=')) "=t"
      let k ← found .operand (indexed 'q' 32 (if tagged then s.takeWhile (· != '=') else s))
      if !t.qae then return { t with qa := BitVec.ofNat 5 k, qae := true, tgt := tagged }
      else if !t.qbe && !tagged then return { t with qb := BitVec.ofNat 5 k, qbe := true }
      else .error .twice

def tagModes : List (String × Nat) := [("h", 0), ("r", 1), ("r1", 2), ("z", 3)]

/-- One item of an update, given whether a `tag=` item has stood. -/
def updItem (t : TU × Bool) (s : Str) : Asm (TU × Bool) :=
  let (t, tagged) := t
  match s with
  | '-' :: r =>
    match indexed 'p' 16 r, indexed 'q' 32 r with
    | some k, _ =>
      if t.eae && t.epa.toNat == k && !t.ca then .ok ({ t with ca := true }, tagged)
      else if t.ebe && t.epb.toNat == k && !t.cb then .ok ({ t with cb := true }, tagged)
      else .error .operand
    | none, some k =>
      if t.qae && t.qa.toNat == k && !t.dqa then .ok ({ t with dqa := true }, tagged)
      else if t.qbe && t.qb.toNat == k && !t.dqb then .ok ({ t with dqb := true }, tagged)
      else .error .operand
    | none, none => .error .operand
  | '+' :: r => do
    let (x, y) := (r.takeWhile fun c => c != '?' && c != '!', r.dropWhile fun c => c != '?' && c != '!')
    let p := BitVec.ofNat 4 (← placeOp x)
    match y with
    | [] =>
      if !t.o1e then return ({ t with op1 := p, o1e := true }, tagged)
      else if !t.o2e && t.cho == 0 then return ({ t with op2 := p, o2e := true }, tagged)
      else .error .twice
    | ['!'] => do
      must (!t.o1e) .twice
      return ({ t with op1 := p, o1e := true, cho := 2 }, tagged)
    | '?' :: z => do
      must (!t.o1e) .twice
      return ({ t with op1 := p, o1e := true, op2 := BitVec.ofNat 4 (← placeOp z), o2e := true, cho := 1 }, tagged)
    | _ => .error .malformed
  | '>' :: r => do
    must (!t.ole) .twice
    let n ← labelOp (r.takeWhile (· != '?'))
    match r.dropWhile (· != '?') with
    | [] => return ({ t with ol := BitVec.ofNat 7 n, ole := true }, tagged)
    | ['?'] => do
      must (n ≤ 126) .range
      return ({ t with ol := BitVec.ofNat 7 n, ole := true, ols := true }, tagged)
    | _ => .error .malformed
  | _ => do
    must (isWord (s.take 4) "tag=") .malformed
    must (!tagged) .twice
    return ({ t with otg := BitVec.ofNat 3 (← found .operand (lookup (s.drop 4) tagModes)) }, true)

/-- The trigger and update fields of their parts; an empty update is a single `-`. -/
def asmTU (pri : Nat) (trig upd : Str) : Asm TU := do
  let t ← (words trig).foldlM trigItem { emptyTU with pri := BitVec.ofNat 3 pri }
  must (words upd ≠ []) .malformed
  if words upd = [['-']] then return t
  else return (← (words upd).foldlM updItem (t, false)).1

/-! ### Transition lines (R84) -/

/-- A transition line: its name, if it has one, and its four parts. -/
structure TLine where
  name : Option Str
  pri  : Str
  trig : Str
  upd  : Str
  op   : Str
  deriving DecidableEq, Repr

/-- The parts before each of the next bars, and what follows the last. -/
def splitBars : Nat → Str → Option (List Str)
  | 0, s => some [s]
  | n + 1, s =>
    if s.contains '|' then (splitBars n ((s.dropWhile (· != '|')).drop 1)).map (s.takeWhile (· != '|') :: ·) else none

/-- Reads the form of a transition line. -/
def readLine (s : Str) : Asm TLine := do
  match splitBars 3 s with
  | some [head, trig, upd, op] => do
    let (name, p) := if head.contains ':' then (some (trim (head.takeWhile (· != ':'))), (head.dropWhile (· != ':')).drop 1)
      else (none, head)
    let (w, pri) := firstWord p
    must (isWord w "pri") .malformed
    return { name, pri, trig, upd, op := trim op }
  | _ => .error .malformed

/-- The word that jimas writes for a transition line (R50, R90). -/
def asmLine (env : Str → Option Int) (l : TLine) : Asm W128 := do
  let t ← asmTU (← exprIn env 0 7 l.pri) l.trig l.upd
  match splitPair [] l.op with
  | some (x, y) => do
    match encode (← asmHalf env (trim x)), encode (← asmHalf env (trim y)) with
    | some (.half a), some (.half b) => return encodeT t ++ encodeU t true ++ a ++ b
    | _, _ => .error .malformed
  | none =>
    match encode (← asmSingle env t l.op) with
    | some (.word w) => return w
    | _ => .error .malformed

end Sys2Proof.Jimel
end

