-- ==== Sys2Proof/Machine/JimelNet.lean ====
section
/-! DEFINITION. Jimel source files: directives (R93 to R99), indices and names of transitions (R83, R84), and the net image file that
jimas writes (R100 to R113). -/

namespace Sys2Proof.Jimel

open Sys2Proof Sys2Proof.Machine

/-! ### What the source configures -/

/-- A transition line of one element, with its line number and the symbols that stood when it was read. -/
structure Line where
  no   : Nat
  line : TLine
  equs : List (Str × Int)
  deriving DecidableEq, Repr

/-- A route (R105): destination column and row of cores, destination element or port, queue, and the options. -/
structure RouteCfg where
  port : Bool
  dx   : Nat
  dy   : Nat
  de   : Nat
  dvc  : Nat
  pack : Bool
  path : Nat
  deriving DecidableEq, Repr

/-- A run of bank bytes with its parameter-block values: place in the run, width in bytes, offset, addend (R98, R111). -/
structure DataRun where
  off  : Nat
  bs   : List Byte
  pbs  : List (Nat × Nat × Nat × Int)
  deriving DecidableEq, Repr

/-- What the element-scope lines give one element. -/
structure ElemCfg where
  lines  : List Line := []
  places : List (Nat × Nat × Nat) := []
  pair   : Bool := false
  sink   : Bool := false
  /-- Mode and base of each quarter. -/
  bmode  : List (Nat × Option (Nat × Int)) := []
  /-- Queue, format, scale and reservation. -/
  vcs    : List (Nat × Nat × Option Nat × Nat) := []
  routes : List (Nat × RouteCfg) := []
  taps   : List (Nat × Nat) := []
  data   : List DataRun := []
  zeros  : List (Nat × Nat) := []
  /-- The location counter (R98). -/
  loc    : Nat := 0
  deriving DecidableEq, Repr

/-- A stream port (R96, R107). -/
structure PortCfg where
  out    : Bool
  dexy   : Nat
  dvc    : Nat
  ty     : Nat
  ctl    : Bool
  tsrx   : Nat
  stride : Nat
  base   : Addr
  deriving DecidableEq, Repr

/-- What the core-scope lines give one core: ports, patches (HD and entry) and domains (their record's bytes from 0x4). -/
structure CoreCfg where
  ports   : List (Nat × PortCfg) := []
  patches : List (Nat × Nat × Nat) := []
  domains : List (Nat × List Byte) := []
  deriving DecidableEq, Repr

/-- A source file as it is read. Elements are keyed in the order of R103, cores by 16·y + x. -/
structure Net where
  name    : Option Str := none
  priv    : Bool := false
  shape   : Option (Nat × Nat) := none
  secK    : Option Nat := none
  signKey : Option Str := none
  tsrs    : List (Nat × Addr × Addr) := []
  equs    : List (Str × Int) := []
  elems   : List (Nat × ElemCfg) := []
  cores   : List (Nat × CoreCfg) := []
  /-- The elements that the last `.elem` selects; none before it. -/
  sel     : Option (List Nat) := none
  ended   : Bool := false
  deriving DecidableEq, Repr

/-- The key of an element, and its core column, core row and EXY. -/
def elemKey (x y ex ey : Nat) : Nat := ((y * 16 + x) * 8 + ey) * 8 + ex
def keyX (k : Nat) : Nat := k / 64 % 16
def keyY (k : Nat) : Nat := k / 1024
def keyEx (k : Nat) : Nat := k % 8
def keyEy (k : Nat) : Nat := k / 8 % 8
def keyExy (k : Nat) : Nat := keyEx k * 8 + keyEy k

/-- The value of a symbol. -/
def equOf (equs : List (Str × Int)) (s : Str) : Option Int := (equs.find? fun e => e.1 == s).map Prod.snd

/-! ### Symbols (R83) -/

def directiveNames : List String :=
  ["net", "end", "shape", "elem", "place", "pairmode", "bankmode", "vc", "route", "tap", "port", "tsr", "patch", "domain", "sink",
   "data", "zero", "align", "equ", "section", "sign"]

/-- The field words of all operations. -/
def fieldWords : List (String × Nat) :=
  [gRoundSr, gSat, gCond, gLevel, gMarker, gChn, gScp, gOrd, gEq, gNtf, gUpdate, gFlag "nsat" 8].flatMap Group.words ++
    mOps.flatMap (fun o => o.2.2.2.own.flatMap Group.words) ++ eOps.flatMap fun o => o.2.2.own.flatMap Group.words

/-- Spelled like a mnemonic, a field word, a directive, an operand name, or a name of a place, label, barrier, domain, cell,
feed port or tick (R83). -/
def reserved (s : Str) : Bool :=
  (lookup s aOps).isSome || (lookup s mOps).isSome || (lookup s eOps).isSome || (lookup s fieldWords).isSome ||
    directiveNames.any (isWord s) || isIdle s || (srcName s).isSome ||
    [('p', 16), ('l', 128), ('b', 32), ('d', 8), ('i', 512), ('f', 16)].any (fun x => (indexed x.1 x.2 s).isSome) ||
    (isWord (s.take 4) "tick" && (indexed 'k' 8 (s.drop 3)).isSome)

/-- A spelling that a symbol may have. -/
def symbolOk (s : Str) : Bool :=
  1 ≤ s.length && s.length ≤ 31 && s.all isNameChar && !((s.head?).map Char.isDigit).getD true && !reserved s

/-! ### Changing the configuration -/

/-- Changes each selected element. -/
def modSel (n : Net) (f : Nat → ElemCfg → Asm ElemCfg) : Asm Net := do
  let sel ← found .place n.sel
  sel.foldlM (fun n k => do return { n with elems := SMap.set k (← f k (SMap.get {} k n.elems)) n.elems }) n

/-- Changes the cores of the selected elements. -/
def modCores (n : Net) (f : CoreCfg → Asm CoreCfg) : Asm Net := do
  let sel ← found .place n.sel
  (sel.map (· / 64)).eraseDups.foldlM (fun n k => do return { n with cores := SMap.set k (← f (SMap.get {} k n.cores)) n.cores }) n

/-- An entry that must not be there yet, put in order of its key (R95). -/
def addNew {α : Type} (k : Nat) (x : α) (m : List (Nat × α)) : Asm (List (Nat × α)) :=
  if (SMap.find k m).isSome then .error .twice else .ok (SMap.set k x m)

/-! ### Arguments -/

/-- One argument of `.elem`: a number or symbol, a range of two, an expression in parentheses, or all below a bound (R93). -/
def selArg (env : Str → Option Int) (all bound : Nat) (s : Str) : Asm (List Nat) := do
  if s = ['*'] then return List.range all
  else
    match ← found .number (tokens [] s) with
    | [a, .op '-', b] => do
      let (x, _) ← evalToks env 10 6 none [a]
      let (y, _) ← evalToks env 10 6 none [b]
      must (0 ≤ x && y < bound) .range
      must (x ≤ y) .malformed
      return (List.range (y.toNat + 1 - x.toNat)).map (x.toNat + ·)
    | ts => do
      must (ts.length == 1 || (closing 0 s).map Prod.snd == some []) .malformed
      return [← exprIn env 0 (bound - 1) s]

/-- A coordinate: absolute, or written with a sign and relative to the sender's (R94). -/
def coord (env : Str → Option Int) (own bound : Nat) (s : Str) : Asm Int := do
  match s with
  | '+' :: r => return own + (← expr env r)
  | '-' :: _ => return own + (← expr env s)
  | _ => do return (← exprIn env 0 (bound - 1) s : Nat)

/-- The destination of a route from an element: coordinates in the region-wide grid carry into the next core (R94). One below 0 has no code
in a record: jimas refuses it (log 115, DESIGN CHOICE). -/
def gridDest (env : Str → Option Int) (k : Nat) (x y ex ey : Str) : Asm (Nat × Nat × Nat) := do
  let gx := 8 * (← coord env (keyX k) 16 x) + (← coord env (keyEx k) 8 ex)
  let gy := 8 * (← coord env (keyY k) 16 y) + (← coord env (keyEy k) 8 ey)
  must (0 ≤ gx && gx < 2048 && 0 ≤ gy && gy < 2048) .range
  return (gx.toNat / 8, gy.toNat / 8, gx.toNat % 8 * 8 + gy.toNat % 8)

/-- The options of a route. -/
def routeOpts (env : Str → Option Int) (o : RouteCfg) : List Str → Asm RouteCfg
  | [] => .ok o
  | s :: r =>
    let (w, v) := firstWord s
    if isWord w "pack" && v == [] then routeOpts env { o with pack := true } r
    else if isWord w "path" then do routeOpts env { o with path := ← exprIn env 0 3 v } r
    else .error .malformed

/-- `.route`: label, then an element and its queue, or a port. -/
def routeArgs (env : Str → Option Int) (k : Nat) : List Str → Asm (Nat × RouteCfg)
  | l :: x :: r => do
    let lab ← labelOp l
    let (w, px) := firstWord x
    if isWord w "port" && px ≠ [] then
      match r with
      | y :: p :: opts => do
        let dx ← coord env (keyX k) 16 px
        let dy ← coord env (keyY k) 16 y
        must (0 ≤ dx && dx < 256 && 0 ≤ dy && dy < 256) .range
        return (lab, ← routeOpts env ⟨true, dx.toNat, dy.toNat, ← exprIn env 0 7 p, 0, false, 0⟩ opts)
      | _ => .error .malformed
    else
      match r with
      | y :: ex :: ey :: q :: opts => do
        let (dx, dy, de) ← gridDest env k x y ex ey
        return (lab, ← routeOpts env ⟨false, dx, dy, de, ← found .operand (indexed 'q' 32 q), false, 0⟩ opts)
      | _ => .error .malformed
  | _ => .error .malformed

/-- A quarter of `.bankmode`: SCR, or another mode and its base (R93). -/
def quarterArg (env : Str → Option Int) (s : Str) : Asm (Nat × Option (Nat × Int)) := do
  let (w, b) := firstWord s
  let m ← found .word (lookup w [("scr", 0), ("map", 1), ("rng", 2), ("wgt", 3)])
  if m = 0 then
    must (b == []) .malformed
    return (0, none)
  else
    match ← addr env b with
    | .pb off add => return (m, some (off, add))
    | .val _ => .error .malformed

/-- A source of a patch: its code, and whether it is negated (R99). -/
def patchSource (s : Str) : Asm Nat := do
  let (neg, s) := match s with
    | '-' :: r => (1, trim r)
    | r => (0, r)
  let tick := if isWord (s.take 4) "tick" then indexed 'k' 8 (s.drop 3) else none
  let code ← match indexed 'i' 512 s, tick, indexed 'f' 16 s with
    | some k, _, _ => pure k
    | _, some k, _ => pure (512 + k)
    | _, _, some k => pure (520 + k)
    | _, _, _ => if isIdle s then pure 1023 else .error .operand
  return neg * 1024 + code

/-- The patch entry of `.patch` (R109): EN, DOM, WS and the five sources. -/
def patchEntry (dom ws : Nat) (srcs : List Nat) : Nat :=
  2 ^ 63 + dom * 2 ^ 60 + ws * 2 ^ 55 + srcs.foldl (fun v s => v * 2 ^ 11 + s) 0

/-- One value of `.data`: its bytes, and the parameter-block value that takes their place at binding (R98). -/
def dataValue (env : Str → Option Int) (ty : Ty) (s : Str) : Asm (List Byte × Option (Nat × Int)) := do
  let n := if ty = .b1 then 8 else Ty.width ty / 8
  match ty with
  | .vc => .error .typeName
  | .f32 | .b16 | .h16 | .e4 | .e5 | .l6 => return (bytesLE n (← floatPattern env ty s), none)
  | _ =>
    match ← addr env s with
    | .val v => return (bytesLE n (← if Ty.signed ty then signed (8 * n) v else unsigned (8 * n) v), none)
    | .pb off add => do
      must (ty == .s64 || ty == .n32) .malformed
      return (bytesLE n 0, some (off, add))

/-- The run of bytes of some values, from a place of the bank. -/
def dataRun (env : Str → Option Int) (ty : Ty) (off : Nat) (vals : List Str) : Asm DataRun :=
  vals.foldlM (fun r s => do
    let (bs, pb) ← dataValue env ty s
    return { r with bs := r.bs ++ bs, pbs := r.pbs ++ (pb.map fun p => (r.bs.length, bs.length, p.1, p.2)).toList }) ⟨off, [], []⟩

/-! ### Directives (R93) -/

/-- A stream port of `.port` (R96). -/
def portArgs (env : Str → Option Int) : List Str → Asm PortCfg
  | dir :: r =>
    if isWord dir "in" then
      match r with
      | ex :: ey :: q :: ty :: plane :: base :: stride :: opt => do
        let tsrx ← match opt with
          | [] => pure 0xFF
          | [s] => do
            must (isWord (firstWord s).1 "tsr") .malformed
            exprIn env 0 63 (firstWord s).2
          | _ => .error .malformed
        let ctl ← found .word (lookup plane [("data", false), ("ctl", true)])
        return { out := false, dexy := (← exprIn env 0 7 ex) * 8 + (← exprIn env 0 7 ey), dvc := ← found .operand (indexed 'q' 32 q),
                 ty := (codeOfTy (← found .typeName (lookup ty typeNames))).toNat, ctl, tsrx,
                 stride := ← signed 32 (← expr env stride), base := ← addr env base }
      | _ => .error .malformed
    else if isWord dir "out" then
      match r with
      | [ty, base, stride] => do
        return { out := true, dexy := 0, dvc := 0, ty := (codeOfTy (← found .typeName (lookup ty typeNames))).toNat, ctl := false,
                 tsrx := 0xFF, stride := ← signed 32 (← expr env stride), base := ← addr env base }
      | _ => .error .malformed
    else .error .word
  | [] => .error .malformed

/-- The bytes of a domain record from its DIV on (R109). -/
def domainBytes (div bud x y ex ey p : Nat) : List Byte :=
  bytesLE 2 div ++ [BitVec.ofNat 8 (ex * 8 + ey), BitVec.ofNat 8 p] ++ bytesLE 4 bud ++ [BitVec.ofNat 8 x, BitVec.ofNat 8 y, 0, 0]

/-- The directives of elements. A `.bankmode` or `.pairmode` given again replaces the first one, and so do `.section` and `.sign` of the
file; the spec says nothing of a repetition (log 128, DESIGN CHOICE). -/
def elemDirective (n : Net) (d : Str) (as : List Str) : Asm Net :=
  let env := equOf n.equs
  if isWord d "place" then
    match as with
    | [p, c, i] => do
      let p ← placeOp p
      let c ← exprIn env 1 15 c
      let i ← exprIn env 0 c i
      modSel n fun _ e => do return { e with places := ← addNew p (c, i) e.places }
    | _ => .error .malformed
  else if isWord d "pairmode" then
    match as with
    | [s] => do
      let on ← found .word (lookup s [("on", true), ("off", false)])
      modSel n fun _ e => .ok { e with pair := on }
    | _ => .error .malformed
  else if isWord d "bankmode" then do
    must (as.length == 4) .malformed
    let qs ← as.mapM (quarterArg env)
    modSel n fun _ e => .ok { e with bmode := qs }
  else if isWord d "vc" then
    match as with
    | [q, ty, sc, r] => do
      let q ← found .operand (indexed 'q' 32 q)
      let ty ← found .typeName (lookup ty typeNames)
      must (ty != .s64 && ty != .b1 && ty != .vc) .typeName
      let sc ← if sc = ['-'] then pure none else some <$> floatPattern env .f32 sc
      let r ← exprIn env 0 2 r
      modSel n fun _ e => do return { e with vcs := ← addNew q ((codeOfTy ty).toNat, sc, r) e.vcs }
    | _ => .error .malformed
  else if isWord d "route" then
    modSel n fun k e => do
      let (l, r) ← routeArgs env k as
      return { e with routes := ← addNew l r e.routes }
  else if isWord d "tap" then
    match as with
    | [l, b] => do
      let l ← labelOp l
      let b ← barrierOp b
      modSel n fun _ e => do return { e with taps := ← addNew l b e.taps }
    | _ => .error .malformed
  else if isWord d "sink" then do
    must (as == []) .malformed
    modSel n fun _ e => .ok { e with sink := true }
  else if isWord d "data" then
    match as with
    | ty :: v :: vs => do
      let ty ← found .typeName (lookup ty typeNames)
      modSel n fun _ e => do
        let r ← dataRun env ty e.loc (v :: vs)
        return { e with data := e.data ++ [r], loc := e.loc + r.bs.length }
    | _ => .error .malformed
  else if isWord d "zero" then
    match as with
    | [c] => do
      let c ← exprIn env 0 (2 ^ 32 - 1) c
      modSel n fun _ e => .ok { e with zeros := e.zeros ++ [(e.loc, c)], loc := e.loc + c }
    | _ => .error .malformed
  else if isWord d "align" then
    match as with
    | [c] => do
      let c ← exprIn env 1 4096 c
      must (2 ^ Nat.log2 c == c) .range
      modSel n fun _ e => .ok { e with loc := (e.loc + c - 1) / c * c }
    | _ => .error .malformed
  else .error .unknown

/-- The directives of cores. -/
def coreDirective (n : Net) (d : Str) (as : List Str) : Asm Net :=
  let env := equOf n.equs
  if isWord d "port" then
    match as with
    | k :: r => do
      let k ← exprIn env 0 7 k
      let p ← portArgs env r
      modCores n fun c => do return { c with ports := ← addNew k p c.ports }
    | [] => .error .malformed
  else if isWord d "patch" then
    match as with
    | [c, d, ws, hd, dx, y0, y1, y2, y3] => do
      let cell ← found .operand (indexed 'i' 512 c)
      let dom ← found .operand (indexed 'd' 8 d)
      let ws ← exprIn env 0 24 ws
      let hd ← exprIn env 8 31 hd
      let srcs ← [dx, y0, y1, y2, y3].mapM patchSource
      modCores n fun c => do return { c with patches := ← addNew cell (hd, patchEntry dom ws srcs) c.patches }
    | _ => .error .malformed
  else if isWord d "domain" then
    match as with
    | [k, div, bud, x, y, ex, ey, p] => do
      let k ← found .operand (indexed 'd' 8 k)
      let div ← exprIn env 1 65535 div
      let bud ← unsigned 32 (← expr env bud)
      let bs := domainBytes div bud (← exprIn env 0 15 x) (← exprIn env 0 15 y) (← exprIn env 0 7 ex) (← exprIn env 0 7 ey) (← placeOp p)
      modCores n fun c => do return { c with domains := ← addNew k bs c.domains }
    | _ => .error .malformed
  else elemDirective n d as

/-- A directive: those of the file, then those of cores and elements (R93, R95). -/
def directive (n : Net) (d : Str) (as : List Str) : Asm Net :=
  let env := equOf n.equs
  if isWord d "net" then
    match as with
    | name :: opt => do
      must (name ≠ [] && name.length ≤ 32 && name.all fun c => 32 < c.toNat && c.toNat < 127) .malformed
      must (opt == [] || opt.map lower == ["priv".toList]) .malformed
      return { n with name := some name, priv := opt ≠ [] }
    | [] => .error .malformed
  else if isWord d "end" then do
    must (as == [] && n.shape.isSome) .place
    return { n with ended := true }
  else if isWord d "shape" then
    match as with
    | [w, h] => do
      must (n.shape.isNone && n.sel.isNone) .place
      return { n with shape := some (← exprIn env 1 16 w, ← exprIn env 1 16 h) }
    | _ => .error .malformed
  else if isWord d "elem" then
    match as with
    | [x, y, ex, ey] => do
      let (w, h) ← found .place n.shape
      let xs ← selArg env w 16 x
      let ys ← selArg env h 16 y
      let exs ← selArg env 8 8 ex
      let eys ← selArg env 8 8 ey
      let sel := ys.flatMap fun y => xs.flatMap fun x => eys.flatMap fun ey => exs.map fun ex => elemKey x y ex ey
      return { n with sel := some sel, elems := sel.foldl (fun m k => SMap.set k (SMap.get {} k m) m) n.elems }
    | _ => .error .malformed
  else if isWord d "tsr" then
    match as with
    | [m, c, r] => do
      let m ← exprIn env 0 255 m
      return { n with tsrs := n.tsrs ++ [(m, ← addr env c, ← addr env r)] }
    | _ => .error .malformed
  else if isWord d "equ" then
    match as with
    | [s, v] => do
      must (symbolOk s) .symbol
      must (equOf n.equs s).isNone .twice
      return { n with equs := n.equs ++ [(s, ← expr env v)] }
    | _ => .error .malformed
  else if isWord d "section" then
    match as with
    | [k] => do return { n with secK := some (← exprIn env 4 24 k) }
    | _ => .error .malformed
  else if isWord d "sign" then
    match as with
    | [k] => .ok { n with signKey := some k }
    | _ => .error .malformed
  else coreDirective n d as

/-- Reads one line (R81, R95): `.net` comes first, and nothing but comments follows `.end`. -/
def readSource (n : Net) (no : Nat) (s : Str) : Asm Net := do
  must (s.length ≤ 1024) .tooLong
  match stripComment s with
  | [] => return n
  | '.' :: r => do
    must (!n.ended) .place
    let (d, as) := firstWord r
    must (n.name.isSome != isWord d "net") .place
    directive n d (args as)
  | t => do
    must (!n.ended && n.name.isSome) .place
    let l ← readLine t
    must ((l.name.map fun x => symbolOk x || (indexed 't' 32 x).isSome).getD true) .symbol
    modSel n fun _ e => .ok { e with lines := e.lines ++ [⟨no, l, n.equs⟩] }

/-- Reads the lines of a file, with the number of the line that an error is in. -/
def readAll : Net → Nat → List Str → Except (Nat × AsmError) Net
  | n, _, [] => .ok n
  | n, no, s :: r =>
    match readSource n no s with
    | .ok n => readAll n (no + 1) r
    | .error e => .error (no, e)

/-! ### Transitions of an element (R83, R84) -/

/-- The index that a name pins; R84 spells it `t3`, and `T3` is taken for the same name (log 128, DESIGN CHOICE). -/
def pinOf (l : Line) : Option Nat := l.line.name.bind (indexed 't' 32)

/-- The lowest index not in a list. -/
def lowestFree (used : List Nat) : Option Nat := (List.range 32).find? fun k => !used.contains k

/-- The index of each line of an element, in source order. -/
def indices : List Nat → List Line → Except (Nat × AsmError) (List (Nat × Line))
  | _, [] => .ok []
  | used, l :: ls =>
    match pinOf l with
    | some k => do return (k, l) :: (← indices used ls)
    | none =>
      match lowestFree used with
      | some k => do return (k, l) :: (← indices (k :: used) ls)
      | none => .error (l.no, .indices)

/-- The indexed lines of an element: no index is pinned twice, and no name stands twice, on which the spec is silent (log 115, DESIGN
CHOICE). -/
def indexLines (ls : List Line) : Except (Nat × AsmError) (List (Nat × Line)) := do
  let pins := ls.filterMap pinOf
  let names := ls.filterMap fun l => l.line.name
  let no := (ls.getLast?.map Line.no).getD 0
  if !pins.Nodup then .error (no, .indices) else if !names.Nodup then .error (no, .twice) else indices pins ls

/-- What an operand of an element's line may name: a symbol defined before it, or a transition of the element. Where a name is both, which
the spec does not settle, the symbol's value stands (log 128, DESIGN CHOICE). -/
def lineEnv (ls : List (Nat × Line)) (l : Line) (s : Str) : Option Int :=
  (equOf l.equs s).or ((ls.find? fun x => x.2.line.name == some s).map fun x => (x.1 : Int))

/-- The words of an element by ascending index. -/
def elemWords (ls : List (Nat × Line)) : Except (Nat × AsmError) (List (Nat × W128)) :=
  ls.foldlM (fun m x =>
    match asmLine (lineEnv ls x.2) x.2.line with
    | .ok w => .ok (SMap.set x.1 w m)
    | .error e => .error (x.2.no, e)) []

/-! ### Records (R103 to R112) -/

/-- A relocation (R111): kind, section, quarter, byte offset of its field, parameter-block offset, addend. -/
structure Relo where
  kind : Nat
  sec  : Nat
  q    : Nat
  tgt  : Nat
  off  : Nat
  add  : Int
  deriving DecidableEq, Repr

def byte (n : Nat) : Byte := BitVec.ofNat 8 n

/-- Some zero bytes, and zeros up to a multiple. -/
def zeros (n : Nat) : List Byte := List.replicate n 0
def padTo (n : Nat) (bs : List Byte) : List Byte := bs ++ zeros ((n - bs.length % n) % n)

/-- X, Y and EXY of a record. -/
def atElem (k : Nat) : List Byte := [byte (keyX k), byte (keyY k), byte (keyExy k)]

/-- An element record (R103). -/
def elemRecord (k : Nat) (e : ElemCfg) (ws : List (Nat × W128)) : List Byte :=
  atElem k ++ [byte (e.pair.toNat + 2 * e.sink.toNat), byte ((e.bmode.zipIdx.map fun q => q.1.1 * 4 ^ q.2).sum), 0, 0, 0] ++
    bytesLE 4 ((ws.map fun w => 2 ^ w.1).sum) ++ zeros 4 ++
    ((List.range 16).flatMap fun p => [byte (SMap.get (1, 0) p e.places).1, byte (SMap.get (1, 0) p e.places).2]) ++
    ws.flatMap fun w => bytesLE 16 w.2.toNat

/-- A route record (R105). -/
def routeRecord (k l : Nat) (r : RouteCfg) (tap : Option Nat) : List Byte :=
  atElem k ++ [byte l, byte r.port.toNat, byte r.dx, byte r.dy, byte r.de, byte r.dvc,
    byte (r.pack.toNat + 2 * r.path + 8 * tap.isSome.toNat), byte (tap.getD 0), 0, 0, 0, 0, 0]

/-- A channel record (R106). -/
def chanRecord (k q : Nat) (v : Nat × Option Nat × Nat) : List Byte :=
  atElem k ++ [byte q, byte v.1, byte (v.2.1.isSome.toNat + 2 * v.2.2), 0, 0] ++ bytesLE 4 (v.2.1.getD 0)

/-- The stored part of an address, and its relocation. -/
def addrNow (a : Addr) (bits : Nat) : Asm Nat := match a with | .val v => unsigned bits v | .pb _ _ => .ok 0
def addrRelo (a : Addr) (kind sec tgt : Nat) : List Relo := match a with | .val _ => [] | .pb o n => [⟨kind, sec, 0, tgt, o, n⟩]

/-- A port record (R107). -/
def portRecord (c k : Nat) (p : PortCfg) : Asm (List Byte) := do
  return [byte (c % 16), byte (c / 16), byte k, byte p.out.toNat, byte p.dexy, byte p.dvc, byte p.ty, byte p.tsrx] ++
    bytesLE 4 p.stride ++ [byte p.ctl.toNat, 0, 0, 0] ++ bytesLE 8 (← addrNow p.base 64) ++ bytesLE 8 0

/-- A shape record (R108). -/
def tsrRecord (t : Nat × Addr × Addr) : Asm (List Byte) := do
  return [byte t.1, 0, 0, 0] ++ bytesLE 4 (← addrNow t.2.1 32) ++ bytesLE 4 (← addrNow t.2.2 32) ++ bytesLE 4 0

/-- The patch and domain records of a core (R109). -/
def intgRecords (c : Nat) (g : CoreCfg) : List (List Byte) :=
  g.patches.map (fun p => [1, byte (c % 16), byte (c / 16), byte p.2.1] ++ bytesLE 2 p.1 ++ [0, 0] ++ bytesLE 8 p.2.2) ++
    g.domains.map fun d => [2, byte (c % 16), byte (c / 16), byte d.1] ++ d.2

/-- A DATA record, padded, and a ZERO record (R110). -/
def dataRecord (k : Nat) (r : DataRun) : List Byte :=
  padTo 4 (atElem k ++ [0] ++ bytesLE 4 r.off ++ bytesLE 4 r.bs.length ++ r.bs)
def zeroRecord (k : Nat) (z : Nat × Nat) : List Byte := atElem k ++ [0] ++ bytesLE 4 z.1 ++ bytesLE 4 z.2

/-- A relocation record (R111). -/
def reloRecord (r : Relo) : Asm (List Byte) := do
  return [byte r.kind, byte r.sec, byte r.q, 0] ++ bytesLE 4 r.tgt ++ bytesLE 4 r.off ++ bytesLE 4 (← signed 32 r.add)

/-- Where each of some records starts. -/
def starts : Nat → List (List Byte) → List Nat
  | _, [] => []
  | o, r :: rs => o :: starts (o + r.length) rs

/-- The symbol table (R112): named transitions, then symbols, and the string pool. -/
def symbBody (ts : List (Nat × Str × Nat)) (equs : List (Str × Int)) : List Byte × Nat :=
  let names := ts.map (fun t => t.2.1) ++ equs.map Prod.fst
  let pool := names.map fun s => s.map (fun c => byte c.toNat) ++ [0]
  let heads := ts.map (fun t => ([1] ++ atElem t.1, t.2.2)) ++ equs.map fun e => ([2, 0, 0, 0], (e.2 % 2 ^ 64).toNat)
  (((heads.zip (starts 0 pool)).flatMap fun h => h.1.1 ++ bytesLE 4 h.2 ++ bytesLE 8 h.1.2) ++ pool.flatten, names.length)

/-! ### The image file (R100 to R102, R113) -/

/-- Bodies one after another from an offset, each on a 16-byte boundary: their table entries, and the bytes. -/
def layOut : Nat → List (Nat × Nat × List Byte) → List Byte × List Byte
  | _, [] => ([], [])
  | o, (ty, cnt, body) :: r =>
    let at_ := (o + 15) / 16 * 16
    let (tab, bs) := layOut (at_ + body.length) r
    (bytesLE 2 ty ++ [0, 0] ++ bytesLE 4 at_ ++ bytesLE 4 body.length ++ bytesLE 4 cnt ++ tab,
     zeros (at_ - o) ++ body ++ bs)

/-- The SIGN body that jimas reserves: KEYID, SLEN and a zero signature (R113). -/
def signBody (key : List Byte) : List Byte :=
  (bytesLE 64 (Config.sha3 key).toNat).take 16 ++ bytesLE 4 4627 ++ zeros 12 ++ zeros 4627

/-- The file of some sections: header, table, bodies, and HASH over all but the SIGN body (R101, R113). -/
def imageFile (n : Net) (w h : Nat) (sinks : Bool) (secs : List (Nat × Nat × List Byte)) (sign : Option (List Byte)) : List Byte :=
  let all := secs ++ (sign.map fun b => (11, 1, b)).toList
  let (tab, bodies) := layOut (128 + 16 * all.length) all
  let name := (n.name.getD []).map fun c => byte c.toNat
  let size := 128 + tab.length + bodies.length
  let head : List Byte := [0x51, 0x4E, 0x49, 0x00, 0x00, 0x01, 0x80, 0x00, byte w, byte h] ++
    bytesLE 2 (n.priv.toNat + 2 * sign.isSome.toNat + 4 * sinks.toNat) ++ bytesLE 2 all.length ++ [0, 0] ++ bytesLE 4 128 ++
    bytesLE 4 size ++ [byte (n.secK.getD 16)] ++ zeros 7 ++ name ++ zeros (32 - name.length)
  let body := tab ++ bodies
  let hashed := (head ++ zeros 64 ++ body).take (size - ((sign.map List.length).getD 0))
  head ++ bytesLE 64 (Config.sha3 hashed).toNat ++ body

/-- A section, if it holds anything. -/
def sec (ty : Nat) (rs : List (List Byte)) : List (Nat × Nat × List Byte) := if rs = [] then [] else [(ty, rs.length, rs.flatten)]

/-- The image of a source that has been read; the public keys are those of the key names. A `.tap` on a label without a `.route` is an
error, which the spec does not say (log 128, DESIGN CHOICE). -/
def assemble (keys : List (Str × List Byte)) (n : Net) (last : Nat) : Except (Nat × AsmError) (List Byte) := do
  let lift := fun {α : Type} (a : Asm α) => (match a with | .ok x => .ok x | .error e => .error (last, e) : Except (Nat × AsmError) α)
  let (w, h) ← lift (found .place n.shape)
  lift (must n.ended .place)
  let es ← n.elems.mapM fun (k, e) => do
    let ls ← indexLines e.lines
    lift (must (e.taps.all fun t => (SMap.find t.1 e.routes).isSome) .undefined)
    return (k, e, ls, ← elemWords ls)
  let elemRecs := es.map fun (k, e, _, ws) => elemRecord k e ws
  let ports := n.cores.flatMap fun (c, g) => g.ports.map fun p => (c, p.1, p.2)
  let portRecs ← lift (ports.mapM fun (c, k, p) => portRecord c k p)
  let tsrRecs ← lift (n.tsrs.mapM tsrRecord)
  let runs := es.flatMap fun (k, e, _, _) => e.data.map (k, ·)
  let dataRecs := runs.map fun (k, r) => dataRecord k r
  let relos :=
    (ports.zipIdx.flatMap fun (p, i) => addrRelo p.2.2.base 1 4 (32 * i + 0x10)) ++
    ((es.zip (starts 0 elemRecs)).flatMap fun ((_, e, _, _), o) => e.bmode.zipIdx.flatMap fun (m, q) =>
      (m.2.map fun b => (⟨2, 1, q, o, b.1, b.2⟩ : Relo)).toList) ++
    (n.tsrs.zipIdx.flatMap fun (t, i) => addrRelo t.2.1 3 5 (16 * i + 4) ++ addrRelo t.2.2 3 5 (16 * i + 8)) ++
    ((runs.zip (starts 0 dataRecs)).flatMap fun ((_, r), o) => r.pbs.map fun (p, len, off, add) =>
      (⟨if len = 8 then 4 else 5, 7, 0, o + 12 + p, off, add⟩ : Relo))
  let reloRecs ← lift (relos.mapM reloRecord)
  let names := es.flatMap fun (k, _, ls, _) => ls.filterMap fun (i, l) => l.line.name.map fun s => (k, s, i)
  let (symb, cnt) := symbBody names n.equs
  let sign ← match n.signKey with
    | none => pure none
    | some k => do
      let key ← lift (found .undefined ((keys.find? fun x => x.1 == k).map Prod.snd))
      pure (some (signBody key))
  return imageFile n w h (es.any fun (_, e, _, _) => e.sink)
    ([(1, elemRecs.length, elemRecs.flatten)] ++
      sec 2 (es.flatMap fun (k, e, _, _) => e.routes.map fun (l, r) => routeRecord k l r (SMap.find l e.taps)) ++
      sec 3 (es.flatMap fun (k, e, _, _) => e.vcs.map fun (q, v) => chanRecord k q v) ++ sec 4 portRecs ++ sec 5 tsrRecs ++
      sec 6 (n.cores.flatMap fun (c, g) => intgRecords c g) ++ sec 7 dataRecs ++
      sec 8 (es.flatMap fun (k, e, _, _) => e.zeros.map (zeroRecord k)) ++ sec 9 reloRecs ++
      (if cnt = 0 then [] else [(10, cnt, symb)])) sign

/-- jimas: the net image file of a source (R81 to R113), or the line an error is in. -/
def jimas (keys : List (Str × List Byte)) (src : List Str) : Except (Nat × AsmError) (List Byte) := do
  assemble keys (← readAll {} 1 src) src.length

end Sys2Proof.Jimel
end

