-- ==== Sys2Proof/Machine/JimelText.lean ====
section
/-! DEFINITION. The Jimel line that stands for a transition word: the inverse of Machine/JimelOp, with OR written `mov.or` where B is 0x41
(R84 to R91). -/

namespace Sys2Proof.Jimel

open Sys2Proof Sys2Proof.Machine

/-! ### Names and numbers -/

/-- A number in decimal. -/
def numText (n : Nat) : Str := (Nat.toDigits 10 n)
def intText (v : Int) : Str := if v < 0 then '-' :: numText v.natAbs else numText v.natAbs

/-- A letter and an index. -/
def nameText (c : Char) (n : Nat) : Str := c :: numText n

/-- The word with a value in a table, if it has one. -/
def wordOf {α : Type} [DecidableEq α] (x : α) (m : List (String × α)) : Option Str :=
  (m.find? fun p => p.2 = x).map fun p => p.1.toList

/-- Parts apart by a text. -/
def joinText (sep : Str) : List Str → Str
  | [] => []
  | [x] => x
  | x :: xs => x ++ sep ++ joinText sep xs

/-- A number as a source of format A under a type: a float's is its pattern in hexadecimal. -/
def immText (ty : Ty) (imm : BitVec 21) : Str :=
  match ty with
  | .s8 | .s16 | .s32 | .s64 => intText imm.toInt
  | .n8 | .n16 | .n32 | .b1 | .l6 => numText imm.toNat
  | _ => "0x".toList ++ Nat.toDigits 16 (imm.toNat * 2048)

def srcText (num : Str) : Src → Str
  | .s r => nameText 's' r.toNat
  | .v r => nameText 'v' r.toNat
  | .q k => nameText 'q' k.toNat
  | .imm => num
  | .zero => ['_']
  | .spec p => (wordOf p specialNames).getD ['_']

def dstText : Dst → Str
  | .s r => nameText 's' r.toNat
  | .v r => nameText 'v' r.toNat
  | .none => ['_']

def typeText (ty : Ty) : Str := (wordOf ty typeNames).getD []

/-- The word of a group for a value; none where the value is the one that is left out. -/
def groupText (v : Nat) (g : Group) : List Str := if g.dflt = some v then [] else (wordOf v g.words).toList

/-- The part of a number that the words of a group fill. -/
def groupBits (v : Nat) (g : Group) : Nat := v &&& (g.words.map Prod.snd).foldl (· ||| ·) 0

/-- Operands without the idle ones at their end. -/
def dropIdle (ops : List Str) : List Str := (ops.reverse.dropWhile (· == ['_'])).reverse

/-- A mnemonic with its words, and operands. -/
def opText (ws ops : List Str) : Str := joinText ['.'] ws ++ (if ops = [] then [] else ' ' :: joinText ", ".toList ops)

/-! ### Formats -/

/-- An operation of format A. -/
def textA (name : String) (typed : Bool) (form : AForm) (o : FmtA) : Str :=
  let head := name.toList :: if typed then [typeText o.ty] else []
  let mod := fun (g : Group) => groupText o.mod.toNat g
  let dabc := fun (raw : List Nat) =>
    let num := fun (k : Nat) => if raw.contains k then numText o.imm.toNat else immText o.ty o.imm
    dropIdle [dstText o.d, srcText (num 0) o.a, srcText (num 1) o.b, srcText (num 2) o.c]
  let p := nameText 'p' (o.imm.toNat % 16)
  match form with
  | .plain => opText head (dabc [])
  | .arith => opText (head ++ mod (if rounds o.ty then gRound else gSat)) (dabc [])
  | .round => opText (head ++ if rounds o.ty then mod gRound else []) (dabc [])
  | .sat => opText (head ++ if rounds o.ty then [] else mod gSat) (dabc [])
  | .cond => opText (head ++ mod gCond) (dabc [])
  | .mover raw => opText head (dabc raw)
  | .reduce => opText (head ++ mod (if rounds o.ty then gRound else gSat) ++ groupText (o.imm.toNat % 4) gLevel) (dabc [])
  | .convert =>
    let sty := (tyOfCode (BitVec.ofNat 4 o.imm.toNat)).getD .s32
    opText (head ++ typeText sty :: groupText (o.mod.toNat % 8) gRoundSr ++
      (gOverflow o.ty sty).flatMap (groupText (o.mod.toNat / 8 * 8))) (dabc [])
  | .immediate bits =>
    opText head [dstText o.d, if bits then (if o.ty = .s64 then intText o.imm.toInt else numText o.imm.toNat) else immText o.ty o.imm]
  | .marker => opText (head ++ groupText o.imm.toNat gMarker) []
  | .sink => opText head [numText o.imm.toNat]
  | .placeSet => opText head [dstText o.d, p, numText (o.imm.toNat / 16)]
  | .placeAdd => opText head [dstText o.d, p, intText (sxInt (o.imm.toNat / 16) 5)]
  | .placeRead => opText head [dstText o.d, if o.a = .imm then p else srcText [] o.a]
  | .tag =>
    opText (head ++ groupText (o.imm.toNat / 8 % 2 * 8) (gFlag "add" 8))
      [dstText o.d, if o.a = .zero then numText (o.imm.toNat % 8) else srcText [] o.a]

/-- An operation of format M. -/
def textM (name : String) (typed : Bool) (form : MForm) (o : FmtM) : Str :=
  let own := form.own.flatMap fun g => groupText (groupBits o.mod.toNat g) g
  let ops := (if form.d then [dstText o.d] else []) ++ (if form.a then [srcText [] o.a] else []) ++
    (if form.b then [srcText [] o.b] else [])
  opText (name.toList :: (if typed then [typeText o.ty] else []) ++ groupText o.chn.toNat gChn ++ groupText o.scp.toNat gScp ++
      groupText o.ord.toNat gOrd ++ own)
    (dropIdle ops ++ if o.off = 0 then [] else [intText o.off.toInt])

/-- An operand of format E at its position. -/
def posText (o : FmtE) : EPos → Str
  | .d => dstText o.d
  | .a => srcText [] o.a
  | .aOpt => srcText [] o.a
  | .b => srcText [] o.b
  | .c => srcText [] o.c
  | .num lo bits => numText (o.imm.toNat / 2 ^ lo % 2 ^ bits)
  | .place lo => nameText 'p' (o.imm.toNat / 2 ^ lo % 16)
  | .barrier lo => nameText 'b' (o.imm.toNat / 2 ^ lo % 32)
  | .credit lo => if o.ntf.toNat < 2 then ['_'] else nameText 'b' (o.imm.toNat / 2 ^ lo % 32)
  | .label => nameText 'l' (o.imm.toNat % 128)
  | .register => (wordOf o.imm.toNat registerNames).getD ['_']

/-- An operation of format E. An UNSTASH to memory names a barrier in place of a port (R315), and BARA may be without a source. -/
def textE (name : String) (form : EForm) (o : FmtE) : Str :=
  let typed : Bool := match form.ty with | .none => false | .typed => true | .optional => o.ty != .s32
  let pos := if form.own.contains (gFlag "mem" 0x10) && o.imm.toNat / 16 % 2 == 1 then [.d, .a, .b, .c, .credit 5] else form.pos
  let pos := pos.filter fun p => p != .aOpt || o.a != .zero
  opText (name.toList :: (if typed then [typeText o.ty] else []) ++ groupText o.eq.toNat gEq ++ groupText o.ntf.toNat gNtf ++
      groupText o.scp.toNat gScp ++ form.own.flatMap fun g => groupText (groupBits o.imm.toNat g) g)
    (dropIdle (pos.map (posText o)))

/-- A half of a pair. -/
def textHalf (sop : Nat) (ty : Ty) (d a b i : Nat) : Str :=
  let dst := if d < 16 then nameText 's' d else nameText 'v' (d - 16)
  let src := fun (c : Nat) => if c < 16 then nameText 's' c else if c < 32 then nameText 'v' (c - 16) else nameText 'q' (c - 32)
  let imm := if Ty.signed ty then intText (sxInt i 5) else numText i
  match pairOps.find? fun p => p.2.1 == sop % 32 with
  | none => []
  | some (name, n, one) =>
    let cond := if n == 21 || n == 22 then groupText i gCond else []
    let ops := if sop < 32 then (if one then [src a] else [src a, src b]) else if one then [imm] else [src a, imm]
    opText (name.toList :: typeText ty :: cond) (dst :: ops)

/-- The operation part of an instruction; an OR whose B is 0x41 is written `mov.or` (R91). -/
def instrText (i : Instr) : Option Str :=
  match layoutOf i with
  | .a op _ o =>
    (aOps.find? fun p => p.2.1 == op.toNat).map fun p =>
      if op = 0x24 && o.b == .zero then textA "mov.or" p.2.2.1 p.2.2.2 o else textA p.1 p.2.2.1 p.2.2.2 o
  | .m op _ o => (mOps.find? fun p => p.2.1 == op.toNat).map fun p => textM p.1 p.2.2.1 p.2.2.2 o
  | .e op _ o => (eOps.find? fun p => p.2.1 == op.toNat).map fun p => textE p.1 p.2.2 o
  | .half sop ty d a b i => some (textHalf sop.toNat ty d.toNat a.toNat b.toNat i.toNat)
  | .none => none

/-! ### Lines -/

/-- The trigger (R85). -/
def trigText (t : TU) : Str :=
  joinText [' '] ((if t.eae then [nameText 'p' t.epa.toNat] else []) ++ (if t.ebe then [nameText 'p' t.epb.toNat] else []) ++
    (if t.iie then ['!' :: nameText 'p' t.ipi.toNat] else []) ++
    (if t.qae then [nameText 'q' t.qa.toNat ++ if t.tgt then "=t".toList else []] else []) ++
    (if t.qbe then [nameText 'q' t.qb.toNat] else []))

/-- The update (R86); an empty one is a single `-`. -/
def updText (t : TU) : Str :=
  let p := fun (k : BitVec 4) => nameText 'p' k.toNat
  let outs :=
    if t.cho = 1 then ['+' :: (p t.op1 ++ '?' :: p t.op2)]
    else if t.cho = 2 then ['+' :: (p t.op1 ++ ['!'])]
    else (if t.o1e then ['+' :: p t.op1] else []) ++ (if t.o2e then ['+' :: p t.op2] else [])
  let items := (if t.ca then ['-' :: p t.epa] else []) ++ (if t.cb then ['-' :: p t.epb] else []) ++
    (if t.dqa then ['-' :: nameText 'q' t.qa.toNat] else []) ++ (if t.dqb then ['-' :: nameText 'q' t.qb.toNat] else []) ++ outs ++
    (if t.ole then ['>' :: (nameText 'l' t.ol.toNat ++ if t.ols then ['?'] else [])] else []) ++
    (if t.otg = 0 then [] else ["tag=".toList ++ (wordOf t.otg.toNat tagModes).getD []])
  if items = [] then ['-'] else joinText [' '] items

/-- The line of a transition word that decodes (R84, R90). -/
def disassemble (w : W128) : Option Str :=
  let line := fun (t : TU) (op : Str) =>
    "pri ".toList ++ numText t.pri.toNat ++ " | ".toList ++ trigText t ++ " | ".toList ++ updText t ++ " | ".toList ++ op
  match decodeWord w with
  | .error _ => none
  | .ok (.pair t x y) => do return line t ((← instrText x) ++ " && ".toList ++ (← instrText y))
  | .ok (.single i) => do
    let op ← instrText i
    return line (decodeTU (w.extractLsb' 96 32) (w.extractLsb' 64 32)) op

end Sys2Proof.Jimel
end

