-- ==== Sys2Proof/Tests/Slice0.lean ====
section
/-! SUPPORT. Tests: words of the spec and what they decode to, ill-formed words and the check that refuses each, worked examples of the
spec on a small state, and for the statements states that meet their hypotheses. -/

namespace Sys2Proof.Tests

open Sys2Proof Sys2Proof.Machine

set_option maxRecDepth 20000
set_option exponentiation.threshold 5000

/-! ### Words written out in the spec -/

/-- Words of format A, as the entries of their operations write them out. -/
theorem test_words_a (t : TU) :
    decodeO t 0x0A0820C1820001F3 = .ok (.padd t ⟨.s32, .none, .zero, .zero, .zero, 0, 0x1F3⟩) ∧
    decodeO t 0x0B01604182000007 = .ok (.prd t ⟨.s32, .s 5, .imm, .zero, .zero, 0, 7⟩) ∧
    decodeO t 0x060820C182000002 = .ok (.sink t ⟨.s32, .none, .zero, .zero, .zero, 0, 2⟩) ∧
    decodeO t 0x050820C182000003 = .ok (.mark t ⟨.s32, .none, .zero, .zero, .zero, 0, 3⟩) ∧
    decodeO t 0x030811C182000000 = .ok (.merge t ⟨.s32, .none, .q 3, .zero, .zero, 0, 0⟩) ∧
    decodeO t 0x02080140408003E8 = .ok (.steer t ⟨.s32, .none, .s 2, .imm, .q 0, 4, 1000⟩) ∧
    decodeO t 0x0C0820C182000009 = .ok (.tag t ⟨.s32, .none, .zero, .zero, .zero, 0, 9⟩) ∧
    decodeO t 0x040801C182000000 = .ok (.repl t ⟨.s32, .none, .s 3, .zero, .zero, 0, 0⟩) ∧
    decodeO t 0x111120C182005678 = .ok (.movi t ⟨.n32, .s 4, .zero, .zero, .zero, 0, 0x5678⟩) ∧
    decodeO t 0x121120C182001234 = .ok (.movh t ⟨.n32, .s 4, .zero, .zero, .zero, 0, 0x1234⟩) ∧
    decodeO t 0x2101A44182000000 = .ok (.neg t ⟨.s32, .s 6, .spec .ix1, .zero, .zero, 0, 0⟩) ∧
    decodeO t 0x2C7488C182000006 = .ok (.cvt t ⟨.b16, .v 2, .v 1, .zero, .zero, 0, 6⟩) ∧
    decodeO t 0x2D90C08282000006 = .ok (.qnt t ⟨.e4, .s 3, .s 1, .s 2, .zero, 0, 6⟩) ∧
    decodeO t 0x280800C082000002 = .ok (.sar t ⟨.s32, .none, .s 1, .imm, .zero, 0, 2⟩) ∧
    decodeO t 0x1304C89228000000 = .ok (.sel t ⟨.s32, .v 3, .v 1, .v 2, .v 4, 0, 0⟩) ∧
    decodeO t 0x250040C0821FFFFF = .ok (.xor t ⟨.s32, .s 1, .s 1, .imm, .zero, 0, 0x1FFFFF⟩) ∧
    decodeO t 0x3504C89280000001 = .ok (.vzip t ⟨.s32, .v 3, .v 1, .v 2, .imm, 0, 1⟩) ∧
    decodeO t 0x3A05488682000000 = .ok (.vcmpr t ⟨.s32, .v 5, .v 1, .s 6, .zero, 0, 0⟩) ∧
    decodeO t 0x3404C89282000000 = .ok (.vperm t ⟨.s32, .v 3, .v 1, .v 2, .zero, 0, 0⟩) ∧
    decodeO t 0x3C61514182E00002 = .ok (.vred t ⟨.f32, .s 5, .q 2, .zero, .zero, 7, 2⟩) :=
  ⟨rfl, rfl, rfl, rfl, rfl, rfl, rfl, rfl, rfl, rfl, rfl, rfl, rfl, rfl, rfl, rfl, rfl, rfl, rfl, rfl⟩

/-- Words of format M. -/
theorem test_words_m (t : TU) :
    decodeO t 0x4800844130000000 = .ok (.ld t ⟨.s32, .s 2, .s 8, .zero, 1, 4, 0, 0, 0⟩) ∧
    decodeO t 0x410460C100000040 = .ok (.bst t ⟨.s32, .v 1, .zero, .zero, 0, 0, 0, 0, 0x40⟩) ∧
    decodeO t 0x4B00474110000000 = .ok (.ldw t ⟨.s32, .s 1, .s 14, .zero, 0, 4, 0, 0, 0⟩) ∧
    decodeO t 0x4C00874110000000 = .ok (.stw t ⟨.s32, .s 2, .s 14, .zero, 0, 4, 0, 0, 0⟩) ∧
    decodeO t 0x4901054110000004 = .ok (.st t ⟨.s32, .s 4, .s 10, .zero, 0, 4, 0, 0, 4⟩) ∧
    decodeO t 0x4D00860012000000 = .ok (.atom t ⟨.s32, .s 2, .s 12, .s 0, 0, 4, 2, 0, 0⟩) ∧
    decodeO t 0x4F00C40411000000 = .ok (.cas t ⟨.s32, .s 3, .s 8, .s 4, 0, 4, 1, 0, 0⟩) ∧
    decodeO t 0x4E08040030800000 = .ok (.red t ⟨.s32, .none, .s 8, .s 0, 1, 4, 0, 8, 0⟩) ∧
    decodeO t 0x500820C110000000 = .ok (.fence t ⟨.s32, .none, .zero, .zero, 0, 4, 0, 0, 0⟩) ∧
    decodeO t 0x520820C120000000 = .ok (.inv t ⟨.s32, .none, .zero, .zero, 1, 0, 0, 0, 0⟩) :=
  ⟨rfl, rfl, rfl, rfl, rfl, rfl, rfl, rfl, rfl, rfl⟩

/-- Words of format E. -/
theorem test_words_e (t : TU) :
    decodeO t 0x0F0801C182000007 = .ok (.trap t ⟨.s32, .none, .s 3, .zero, .zero, 0, 0, 0, 7⟩) ∧
    decodeO t 0x8E08064182420000 = .ok (.note t ⟨.s32, .none, .s 12, .zero, .zero, 1, 0, 2, 0⟩) ∧
    decodeO t 0x620820C182800003 = .ok (.qfen t ⟨.s32, .none, .zero, .zero, .zero, 2, 0, 0, 3⟩) ∧
    decodeO t 0x6408020282040000 = .ok (.rzero t ⟨.s32, .none, .s 4, .s 2, .zero, 0, 0, 4, 0⟩) ∧
    decodeO t 0x6678000282030004 = .ok (.unstash t ⟨.b16, .none, .s 0, .s 2, .zero, 0, 0, 3, 4⟩) ∧
    decodeO t 0x698801200C040000 = .ok (.pimld t ⟨.h16, .none, .s 2, .q 0, .s 6, 0, 0, 4, 0⟩) ∧
    decodeO t 0x6B6801411A040000 = .ok (.pimrd t ⟨.f32, .none, .s 2, .zero, .s 13, 0, 0, 4, 0⟩) ∧
    decodeO t 0x7008024182000001 = .ok (.mxmodeEnter t ⟨.s32, .none, .s 4, .zero, .zero, 0, 0, 0, 1⟩) ∧
    decodeO t 0x7178014182000001 = .ok (.mxwld t ⟨.b16, .none, .s 2, .zero, .zero, 0, 0, 0, 1⟩) ∧
    decodeO t 0x8B08014182000004 = .ok (.bart t ⟨.s32, .none, .s 2, .zero, .zero, 0, 0, 0, 4⟩) ∧
    decodeO t 0x8D08054182000019 = .ok (.waita t ⟨.s32, .none, .s 10, .zero, .zero, 0, 0, 0, 0x19⟩) ∧
    decodeO t 0x900120C182000005 = .ok (.rdsr t ⟨.s32, .s 4, .zero, .zero, .zero, 0, 0, 0, 5⟩) ∧
    decodeO t 0x920120C182000000 = .ok (.time t ⟨.s32, .s 4, .zero, .zero, .zero, 0, 0, 0, 0⟩) ∧
    decodeO t 0x5801430782040000 = .ok (.sopen t ⟨.s32, .s 5, .s 6, .s 7, .zero, 0, 0, 4, 0⟩) ∧
    decodeO t 0x5B00E0C182000002 = .ok (.srec t ⟨.s32, .s 3, .zero, .zero, .zero, 0, 0, 0, 2⟩) :=
  ⟨rfl, rfl, rfl, rfl, rfl, rfl, rfl, rfl, rfl, rfl, rfl, rfl, rfl, rfl, rfl⟩

/-- The halves of the pair of R75, and t4 of OSCILLATE and tA of PLACESHARE with their trigger and update (R51, R52). -/
theorem test_words_whole :
    decodeHalf 0x84020801 = .ok (.pairAddImm ⟨.s32, 1, 1, 1⟩) ∧ decodeHalf 0x21A51A00 = .ok (.pairMax ⟨.f32, 18, 35, 16⟩) ∧
    decodeWord 0x84800080A00041107C01012082000000 = .ok (.single (.istep
      { plainTU with epa := 4, qae := true, ca := true, dqa := true, ol := 32, ole := true, ols := true }
      ⟨.s32, .s 4, .s 2, .q 0, .zero, 0, 0, 0, 0⟩)) ∧
    decodeWord 0x908C0000C0AC00006001800482040000 = .ok (.single (.cpy
      { plainTU with pri := 1, epb := 1, ebe := true, ca := true, cb := true, op1 := 0, o1e := true, op2 := 5, o2e := true }
      ⟨.s32, .s 6, .s 0, .s 4, .zero, 0, 0, 4, 0⟩)) :=
  ⟨rfl, rfl, rfl, rfl⟩

/-! ### Ill-formed words, one for each check (R23, R26, R57, R58, R60, R63, R64, R67, R71, R72, R78) -/

theorem test_wf_accepts : wfError (.add plainTU ⟨.s32, .s 2, .s 2, .imm, .zero, 0, 1⟩) = none := by decide
theorem test_wf_noTrigger : wfError (.nop { plainTU with eae := false } ⟨.s32, .none, .zero, .zero, .zero, 0, 0⟩) = some .noTrigger := by decide
theorem test_wf_samePlace : wfError (.nop { plainTU with ebe := true } ⟨.s32, .none, .zero, .zero, .zero, 0, 0⟩) = some .samePlace := by decide
theorem test_wf_sameQueue :
    wfError (.nop { plainTU with qae := true, qbe := true } ⟨.s32, .none, .zero, .zero, .zero, 0, 0⟩) = some .sameQueue := by decide
theorem test_wf_inhibitor : wfError (.nop { plainTU with iie := true } ⟨.s32, .none, .zero, .zero, .zero, 0, 0⟩) = some .inhibitor := by decide
theorem test_wf_consume : wfError (.nop { plainTU with cb := true } ⟨.s32, .none, .zero, .zero, .zero, 0, 0⟩) = some .consume := by decide
theorem test_wf_tagTest : wfError (.nop { plainTU with tgt := true } ⟨.s32, .none, .zero, .zero, .zero, 0, 0⟩) = some .tagTest := by decide
theorem test_wf_choice : wfError (.nop { plainTU with cho := 3 } ⟨.s32, .none, .zero, .zero, .zero, 0, 0⟩) = some .choice := by decide
theorem test_wf_labelSteer : wfError (.nop { plainTU with ols := true } ⟨.s32, .none, .zero, .zero, .zero, 0, 0⟩) = some .labelSteer := by decide
theorem test_wf_tagMode : wfError (.nop { plainTU with otg := 4 } ⟨.s32, .none, .zero, .zero, .zero, 0, 0⟩) = some .tagMode := by decide
theorem test_wf_type : wfError (.clz plainTU ⟨.f32, .s 2, .s 2, .zero, .zero, 0, 0⟩) = some .type := by decide
theorem test_wf_destination : wfError (.nop plainTU ⟨.s32, .s 1, .zero, .zero, .zero, 0, 0⟩) = some .destination := by decide
theorem test_wf_source : wfError (.nop plainTU ⟨.s32, .none, .s 1, .zero, .zero, 0, 0⟩) = some .source := by decide
theorem test_wf_queueSource : wfError (.mov plainTU ⟨.s32, .s 1, .q 1, .zero, .zero, 0, 0⟩) = some .queueSource := by decide
theorem test_wf_oddPair : wfError (.mov plainTU ⟨.s64, .s 1, .s 2, .zero, .zero, 0, 0⟩) = some .oddPair := by decide
theorem test_wf_vectorSource : wfError (.add plainTU ⟨.s32, .s 1, .v 2, .s 1, .zero, 0, 0⟩) = some .vectorSource := by decide
theorem test_wf_mod : wfError (.clz plainTU ⟨.s32, .s 2, .s 2, .zero, .zero, 1, 0⟩) = some .mod := by decide
theorem test_wf_immediate : wfError (.mov plainTU ⟨.s32, .s 2, .s 2, .zero, .zero, 0, 1⟩) = some .immediate := by decide
theorem test_wf_scope : wfError (.ld plainTU ⟨.s32, .s 2, .s 8, .zero, 0, 6, 0, 0, 0⟩) = some .scope := by decide
theorem test_wf_ord : wfError (.ld plainTU ⟨.s32, .s 2, .s 8, .zero, 0, 4, 3, 0, 0⟩) = some .ord := by decide
theorem test_wf_chain : wfError (.red plainTU ⟨.s32, .none, .s 8, .s 0, 0, 4, 0, 8, 0⟩) = some .chain := by decide
theorem test_wf_notify : wfError (.qfen plainTU ⟨.s32, .none, .zero, .zero, .zero, 0, 1, 0, 3⟩) = some .notify := by decide
theorem test_wf_engineQueue : wfError (.rfen plainTU ⟨.s32, .none, .zero, .zero, .zero, 1, 0, 4, 1⟩) = some .engineQueue := by decide
theorem test_wf_update : wfError (.merge { plainTU with qae := true } ⟨.s32, .none, .q 0, .zero, .zero, 0, 0⟩) = some .update := by decide
theorem test_wf_labelClass :
    wfError (.mov { plainTU with ole := true, ol := 100 } ⟨.s32, .s 1, .s 2, .zero, .zero, 0, 0⟩) = some .labelClass := by decide

/-- The halves of R75 pass; a scalar half with a v destination does not (R75). -/
theorem test_wf_pair :
    pairError plainTU (.pairAddImm ⟨.s32, 1, 1, 1⟩) (.pairMax ⟨.f32, 18, 35, 16⟩) = some .queueSource ∧
    pairError { plainTU with qae := true, qa := 3 } (.pairAddImm ⟨.s32, 1, 1, 1⟩) (.pairMax ⟨.f32, 18, 35, 16⟩) = none ∧
    pairError plainTU (.pairAddImm ⟨.s32, 17, 1, 1⟩) (.pairMax ⟨.f32, 18, 2, 16⟩) = some .destination := by decide

/-! ### Encoding -/

theorem test_encode_add :
    encode (.add { plainTU with epa := 1, ca := true, op1 := 0, o1e := true } ⟨.s32, .s 2, .s 2, .imm, .zero, 0, 1⟩) =
      some (.word 0x81800000808000001500814082000001) := by decide

/-! ### Worked examples of the spec, on lanes -/

/-- ADD and MULH of R155 and R156, the shifts of R157 and R509, ROT of R506. -/
theorem test_integers :
    laneAdd (axcOf 0) .s8 0 100 100 = (0xC8, flNone) ∧ laneAdd (axcOf 0) .s8 1 100 100 = (0x7F, flSA) ∧
    laneAdds .s16 0x7000 0x2000 = (0x7FFF, flSA) ∧ laneMulh .s32 0x40000000 4 = (1, flNone) ∧
    laneMul (axcOf 0) .s32 0 0x40000000 4 = (0, flNone) ∧ laneShl .s32 0 1 33 = (2, flNone) ∧ laneShl .s8 1 0x40 1 = (0x7F, flSA) ∧
    laneSar .s8 0x90 3 = (0xF2, flNone) ∧ laneShr .s8 0x90 3 = (0x12, flNone) ∧ laneShl .n8 1 0x90 1 = (0xFF, flSA) ∧
    laneRot .n8 0x81 1 = (3, flNone) ∧ laneRot .s32 0x80000001 36 = (0x18, flNone) ∧ laneClz .s8 0 = (8, flNone) ∧
    laneClz .n32 0xFF = (24, flNone) ∧ laneAndn .b1 0xFFFFFFFF000000FF 0x0000FFFF0000000F = (0xFFFF0000000000F0, flNone) := by decide

/-- The tie of R402: 1.0 and 2^-8 in b16 give 1.0 and set NX. -/
theorem test_float_tie : laneAdd (axcOf 0) .b16 0 0x3F80 0x3B80 = (0x3F80, flNX) := by decide

/-- CMP of a lane against zero (R429). -/
theorem test_compare : laneCmp (axcOf 0) .b16 4 0x3E80 0 = (1, flNone) := by decide

/-- One step of LFSR (R154), and the sign extension of a narrow scalar in its register (R62). -/
theorem test_lfsr : lfsrStep 3 = 0x80200002 ∧ lfsrStored 0 = 1 ∧ regWord .s8 0xF2 = 0xFFFFFFF2 := by decide

/-! ### Small states -/

/-- A vector of one default with some entries. -/
def vec {α : Type} (n : Nat) (d : α) (xs : List (Nat × α)) : Vector α n := xs.foldl (fun v x => vset v x.1 x.2) (Vector.replicate n d)

/-- The net COUNT3 of R92 in element 0, with the given marks in p0 to p2 and s2; the turn of element 0 is next. -/
def count3 (marks : List (Nat × BitVec 4)) (s2 : W32) : State :=
  { State.reset with
    regions := [(0, soloRegion)], agenda := [.turn 0 true]
    elems := [(0, { Elem.reset 0 with
      pool := vec 32 0 [(0, 0x90800000819500001400414082400003), (1, 0x81800000808000001500814082000001),
        (2, 0x82800000838043001008014182000000)]
      cnt := vec 16 0 marks, s := vec 16 0 [(2, s2)] })] }

/-- What a step leaves of element 0, read by a function. -/
def after {α : Type} (s : State) (g : Elem → α) : Option α := match step s with | .next t => some (g (t.elem 0)) | _ => none

/-- Cycle 0 of the trace of COUNT3: 0 < 3, so p1 is marked, s1 is 1 and the pointer of priority 1 stands at t0. -/
theorem test_count3_t0 :
    after (count3 [(0, 1)] 0) (fun x => (x.sreg 1, x.count 0, x.count 1, x.count 2, (vget x.lfp 1 0).toNat)) = some (1, 0, 1, 0, 0) := by decide
/-- Cycle 6: 3 < 3 is false, so p2 is marked and s1 is 0. -/
theorem test_count3_t0_false :
    after (count3 [(0, 1)] 3) (fun x => (x.sreg 1, x.count 1, x.count 2)) = some (0, 0, 1) := by decide
/-- Cycle 1: t1 adds one and marks p0. -/
theorem test_count3_t1 :
    after (count3 [(1, 1)] 0) (fun x => (x.sreg 2, x.count 0, x.count 1, (vget x.lfp 0 0).toNat)) = some (1, 1, 0, 1) := by decide
/-- Cycle 7: t2 sends the count on L33 and marks p3. -/
theorem test_count3_t2 :
    after (count3 [(2, 1)] 3) (fun x => (x.count 2, x.count 3, x.out.map fun o => (o.2.label, o.2.tok.pay.toNat, o.2.tok.tag.toNat))) =
      some (0, 1, [(33, 3, 0)]) := by decide

/-- Four levels of table of partition 0: pages 0 to 4 are a normal, a presence, a stash and a native page and a page of host memory, and
page 5 has no translation (R188 to R192). -/
def tMem : List Host.Cell :=
  [(0x100000, 0x110001), (0x110000, 0x120001), (0x120000, 0x130001), (0x130000, 0x200001), (0x130008, 0x210021), (0x130010, 0x220041),
    (0x130018, 0x400061), (0x130020, 0x4000000000200001)].foldl (fun m (x : Nat × Nat) => Memory.write m x.1 (bytesLE 8 x.2)) []

/-- An element with room in its places, a mark in p0, and some registers. -/
def tElem (s : List (Nat × W32)) : Elem :=
  { Elem.reset 0 with cnt := vec 16 0 [(0, 1)], cap := Vector.replicate 16 15, s := vec 16 0 s }

/-- Element 0 alone in a running region of partition 0, whose table is tMem and whose save pool is 2 GiB; a firing of it is running, and its units take its command. -/
def tState (x : Elem) : State :=
  { State.reset with
    parts := vset State.reset.parts 0 { Part.reset with en := true, ptb := 0x100000, pslt := 1, svs := 0x80000000 }
    mem := tMem, regions := [(0, soloRegion)], elems := [(0, x)], cur := some ⟨0, 0, 0, true⟩ }

/-- The firing that state runs under t. -/
def tFire (x : Elem) (t : TU) : Firing := ⟨0, x, t, 0, 0, 0, x.nseq⟩

def tok (k : Kind) (ctl : Bool) : Token := Token.bare k ctl 0

/-- A trigger on queue 1, and one on queues 1 and 2. -/
def tQ : TU := { plainTU with qae := true, qa := 1, dqa := true, ol := 32, ole := true, ols := true }
def tQQ : TU := { tQ with qbe := true, qb := 2 }
def tQueues (a b : List Token) : Elem := { tElem [] with queues := vec 32 [] [(1, a), (2, b)] }

theorem tState_ordinary (x : Elem) (h : shapeOf plainTU x = .plain) : Ordinary (tState x) plainTU (tFire x plainTU) := ⟨rfl, h⟩

/-- An ordinary firing whose element has nothing outstanding. -/
theorem tState_ready (x : Elem) (h : shapeOf plainTU x = .plain) (hs : x.slots = Vector.replicate 8 none) (hp : x.posted = []) :
    ReadyIn (tState x) plainTU (tFire x plainTU) 0 := by
  refine ⟨⟨rfl, h⟩, ?_, rfl, ?_, hp, rfl, rfl, ?_⟩
  · show freeSlot x = some 0
    simp [freeSlot, hs, vget, List.range, List.range.loop]
  · intro k hk
    show vget x.slots k none = none
    simp [hs, vget]
  · intro r hr
    have hx : (tState x).regOf 0 = some soloRegion := rfl
    rw [show (tFire x plainTU).e = 0 from rfl, hx] at hr
    cases hr; rfl

/-! ### States that meet the hypotheses: firings without a slot -/

/-- O1 to O4, O8 to O11 and O58 to O60: an ordinary firing with room. The operand forms, types and levels that clauses ask for are free. -/
theorem meet_ordinary :
    Ordinary (tState (tElem [])) plainTU (tFire (tElem []) plainTU) ∧ Roomy (tState (tElem [])) 0 ∧
    Ty.s32 ≠ .b1 ∧ (0 : BitVec 21).toNat % 4 = 0 ∧ (3 : BitVec 21).toNat % 4 ≠ 0 ∧ (∀ d, Dst.s 15 ≠ .v d) ∧ Wf.isInt64 .s8 = true ∧
    Wf.isInt64 .s64 = true :=
  ⟨⟨rfl, rfl⟩, ⟨by decide, rfl⟩, by decide, rfl, by decide, (by intro d h; cases h), rfl, rfl⟩

/-- O8: a DONE whose region has sinks and whose unit has not ended. -/
theorem meet_reporting :
    (let s := { tState (tElem []) with regions := [(0, { soloRegion with sinks := true })] }
     Ordinary s plainTU (tFire (tElem []) plainTU) ∧ Roomy s 0 ∧
       ∃ r, s.region 0 = some r ∧ s.regionOf 0 = some 0 ∧ r.sinks = true ∧ r.unitDone = false) :=
  ⟨⟨rfl, rfl⟩, ⟨by decide, rfl⟩, _, rfl, rfl, rfl, rfl⟩

/-- O5 to O7: heads that are a marker, that differ, that are discarded, and DATA. -/
theorem meet_heads :
    (let x := tQueues [tok .eos true] []
     triggerOf (.add tQ ⟨.s32, .none, .zero, .zero, .zero, 0, 0⟩) = some tQ ∧ Marking (tState x) tQ (tFire x tQ) .eos ∧
       ownMarkers (.add tQ ⟨.s32, .none, .zero, .zero, .zero, 0, 0⟩) = false ∧ Roomy (tState x) 0) ∧
    (let x := tQueues [tok .eos true] [tok .data true]
     (tState x).firing tQQ = some (tFire x tQQ) ∧ shapeOf tQQ x = .mismatch) ∧
    (let x := { tQueues [tok .eos true] [tok .data true] with axc := 0x10000 }
     (tState x).firing tQQ = some (tFire x tQQ) ∧ shapeOf tQQ x = .discard 2) ∧
    (let x := { tQueues [tok .data true] [tok .eos true] with axc := 0x10000 }
     (tState x).firing tQQ = some (tFire x tQQ) ∧ shapeOf tQQ x = .discard 1) :=
  ⟨⟨rfl, ⟨rfl, rfl⟩, rfl, by decide, rfl⟩, ⟨rfl, rfl⟩, ⟨rfl, rfl⟩, ⟨rfl, rfl⟩⟩

/-- O7: a passenger of the wrong plane, one of the right plane, and a marker, for STEER and for MERGE. -/
theorem meet_steering :
    (let o : FmtA := ⟨.s32, .none, .s 2, .imm, .q 1, 4, 1000⟩
     let x := tQueues [tok .data false] []
     let y := tQueues [tok .data true] []
     let z := tQueues [tok .eor true] []
     (shapeOf tQ x = .plain ∧ (∃ k, o.c = .q k) ∧ (passenger o (tFire x tQ) (tState x)).ctl ≠ ctlLabel tQ.ol.toNat ∧ Roomy (tState x) 0) ∧
     (shapeOf tQ y = .plain ∧ (passenger o (tFire y tQ) (tState y)).ctl = ctlLabel tQ.ol.toNat) ∧ shapeOf tQ z = .marker .eor ∧
     (∀ w ∈ [x, y, z], ∃ h, (tState w).firing tQ = some (tFire w tQ) ∧ w.head (1 : BitVec 5).toNat = some h) ∧
     (x.head 1).map Token.ctl ≠ some (ctlLabel tQ.ol.toNat) ∧ (y.head 1).map Token.ctl = some (ctlLabel tQ.ol.toNat)) := by
  refine ⟨⟨rfl, ⟨1, rfl⟩, by decide, by decide, rfl⟩, ⟨rfl, by decide⟩, rfl, ?_, by decide, by decide⟩
  intro w hw
  simp only [List.mem_cons, List.not_mem_nil, or_false] at hw
  rcases hw with rfl | rfl | rfl <;> exact ⟨_, rfl, rfl⟩

/-- O12: a scalar half and, after it, a vector half. -/
theorem meet_pair :
    (let t := { plainTU with qae := true, qa := 3 }
     let x := { tElem [] with queues := vec 32 [] [(3, [tok .data false])] }
     let w := encodeT t ++ encodeU t true ++ (0x84020801#32 ++ 0x21A51A00#32)
     let f : Firing := ⟨0, x, t, 0, w, 0, 0⟩
     let s := { tState x with cur := some ⟨0, 0, w, true⟩ }
     let u := { s with pairDone := some ⟨.pairMax ⟨.f32, 18, 35, 16⟩, 1, 1, 0, true, false⟩ }
     PairFiring s t f (.pairMax ⟨.f32, 18, 35, 16⟩) ∧ (1 : BitVec 5).toNat < 16 ∧
       PairFiring u t f (.pairMax ⟨.f32, 18, 35, 16⟩) ∧ 16 ≤ (18 : BitVec 5).toNat ∧ Roomy u 0 ∧
       ∃ p, u.pairDone = some p ∧ p.skip = false) :=
  ⟨⟨⟨rfl, rfl⟩, _, _, rfl, rfl⟩, by decide, ⟨⟨rfl, rfl⟩, _, _, rfl, rfl⟩, by decide, ⟨by decide, rfl⟩, _, rfl, rfl⟩

/-! ### States that meet the hypotheses: issue into a slot -/

/-- O13 to O15 and O21: an issue that no unit takes, aligned at the top of the address space and misaligned; accb; an ISAMP of sixteen cells. -/
theorem meet_issue :
    (let x := { tElem [(2, 0xFFFFFFFC), (3, 0xFFFFFFFF), (4, 2), (6, 16), (7, 496)] with accb := some 64512 }
     let s := { tState x with cur := some ⟨0, 0, 0, false⟩ }
     let f := tFire x plainTU
     Ordinary s plainTU f ∧ freeSlot x = some 0 ∧ Prompt s false ∧
       effAddr f ⟨.s32, .none, .s 2, .zero, 0, 4, 0, 0, 0⟩ % tyBytes .s32 = 0 ∧
       effAddr f ⟨.s32, .none, .s 4, .zero, 0, 4, 0, 0, 0⟩ % tyBytes .s32 ≠ 0 ∧
       (∃ b, (s.elem 0).accb = some b ∧ wordOf x (.s 6) ≠ 0 ∧ b + 64 * (wordOf x .zero + wordOf x (.s 6)) ≤ 65536) ∧
       1 ≤ arg (s.arg32 f (.s 6)) ∧ arg (s.arg32 f (.s 6)) ≤ 16 ∧ arg (s.arg32 f (.s 7)) + arg (s.arg32 f (.s 6)) ≤ 512) :=
  ⟨⟨rfl, rfl⟩, rfl, rfl, by decide, by decide, ⟨64512, rfl, by decide, by decide⟩, by decide, by decide, by decide⟩

/-- O14: a FILL whose operands are good, one whose destination is misaligned, and an integrator command. -/
theorem meet_command :
    (let o : FmtE := ⟨.s32, .none, .s 4, .s 2, .zero, 0, 0, 4, 0⟩
     let x := tElem [(2, 8)]
     let z := tElem [(2, 8), (4, 2)]
     let s := { tState x with cur := some ⟨0, 0, 0, false⟩ }
     let u := { tState z with cur := some ⟨0, 0, 0, false⟩ }
     Ordinary s plainTU (tFire x plainTU) ∧ Prompt s false ∧ isIntOp (.iset plainTU o) = true ∧
       (∀ y : Slot, y.opa = groupOf x o.a → y.opb = word512 (wordOf x o.b) → y.opc = groupOf x o.c → fillBad o y = none) ∧
       Ordinary u plainTU (tFire z plainTU) ∧
       ∀ y : Slot, y.opa = groupOf z o.a → y.opb = word512 (wordOf z o.b) → y.opc = groupOf z o.c → fillBad o y = some (0x05, 2)) := by
  refine ⟨⟨rfl, rfl⟩, rfl, rfl, ?_, ⟨rfl, rfl⟩, ?_⟩
  · rintro y ha hb hc
    simp only [fillBad, copyDst, countOf, noteBad, ha, hb, hc]
    decide
  · rintro y ha hb hc
    simp only [fillBad, copyDst, countOf, noteBad, ha, hb, hc]
    decide

/-! ### States that meet the hypotheses: banks and memory -/

/-- No matrix pass takes the port of an element of tState: no part of its region is in the mode. -/
theorem tState_noPass (x : Elem) (h : x.portAt = 0) : NoPass (tState x) 0 := by
  refine ⟨by show x.portAt ≠ 1; simp [h], ?_⟩
  intro r hr m hm
  have hx : (tState x).regOf 0 = some soloRegion := rfl
  rw [hx] at hr; cases hr; cases hm

/-- O16: the last word and the last row of the bank, a misaligned base, a WGT quarter, and indices that are a scalar and a vector. -/
theorem meet_banks :
    (let x := tElem [(1, 65532), (2, 2)]
     let f := tFire x plainTU
     let w := { x with bmode := vec 4 .scr [(3, .wgt)] }
     let a (d : Dst) (b : Src) (off : BitVec 20) : FmtM := ⟨.s32, d, .s 1, b, 0, 0, 0, 0, off⟩
     ReadyIn (tState x) plainTU f 0 ∧
     (bankAddr f (a (.s 3) .zero 0) = 65532 ∧ 65532 % 4 = 0 ∧ PortFree (tState x) 0 4 [65532] false ∧ PortFree (tState x) 0 4 [65532] true) ∧
     (bankAddr f (a (.v 3) .zero 0xFFFC4) = 65472 ∧ 65472 % 64 = 0 ∧ PortFree (tState x) 0 64 [65472] true) ∧
     bankAddr f (a (.s 3) .zero 0xFFFFE) % 4 ≠ 0 ∧ w.quarter 65532 = .wgt ∧ ReadyIn (tState w) plainTU (tFire w plainTU) 0 ∧
     (wideSrc x (.s 2) = false ∧ PortFree (tState x) 0 4 [offsetAdd 16 65532 (sxInt (indexCapture (a (.s 3) (.s 2) 0) f (tState x)).toNat 32 * 4)] true) ∧
     (wideSrc x (.v 2) = true ∧ PortFree (tState x) 0 4 ((lanesOf .s32 0).map fun j => (65532 + j * 4) % 65536) true)) := by
  refine ⟨tState_ready _ rfl rfl rfl,
    ⟨by decide, rfl, ⟨⟨tState_noPass _ rfl, by decide, by decide, by simp⟩, by decide, by decide⟩,
      ⟨tState_noPass _ rfl, by decide, by decide, fun _ => by decide⟩, by decide, by decide⟩,
    ⟨by decide, rfl, ⟨tState_noPass _ rfl, by decide, by decide, fun _ => by decide⟩, by decide, by decide⟩, by decide, by decide,
    tState_ready _ rfl rfl rfl,
    ⟨rfl, ⟨tState_noPass _ rfl, by decide, by decide, fun _ => by decide⟩, by decide, by decide⟩, rfl,
    ⟨tState_noPass _ rfl, by decide, by decide, fun _ => by decide⟩, by decide, by decide⟩

/-- Places in the pages of tMem. -/
def tLoc (page addr : Nat) (leaf : W64) : Loc := ⟨.dev, addr, page, false, leaf⟩

/-- Bytes of a state in which no bank stands in for memory and no line has been written. -/
theorem tClear (s : State) (g : Nat → Nat) (a n : Nat) (hl : s.lent = []) (he : (s.elems.all fun x => x.2.filled.isEmpty) = true)
    (hw : s.enc = [] ∧ s.scrubs = []) : s.Clear g a n := by
  refine ⟨hl, by simpa using he, fun b _ _ t h => ?_⟩
  simp [State.lineTag, hw.1, hw.2, SMap.find] at h

/-- O17: an aligned and a misaligned LD, an LDO, a page without translation, an LDW of a word present and one absent, and a PREF. -/
theorem meet_loads :
    (let x := tElem []
     let s := tState x
     let l := tLoc 0 0x200000 0x200001
     let k := tLoc 1 0x210004 0x210021
     ReadyIn s plainTU (tFire x plainTU) 0 ∧
     s.resolveRun 0 0 0 4 .load = .ok [(l, 4)] ∧ PlainRun s [(l, 4)] l 4 ∧ (s.core 0).ro = [] ∧
     s.resolveRun 0 0 2 1 .load = .ok [(tLoc 0 0x200002 0x200001, 1)] ∧ (2 : Nat) % 4 ≠ 0 ∧
     s.resolveRun 0 0 0x50000 4 .load = .fault 0x02 0x50000 ∧
     s.resolveRun 0 0 0x10004 4 .wordRead = .ok [(k, 4)] ∧ s.present (s.regionOf 0) (k.addr / 4) = false ∧
     ({ s with pres := [k.addr / 4] } : State).present (s.regionOf 0) (k.addr / 4) = true ∧
     SMap.find (l.addr / 128) s.lent = none ∧ s.resolve 0 0 0 .gathRead = .ok l) :=
  ⟨tState_ready _ rfl rfl rfl, by decide, ⟨tClear _ _ _ _ rfl rfl ⟨rfl, rfl⟩, rfl, rfl, by decide⟩, rfl, by decide, by decide, by decide, by decide, by decide,
    by decide, by decide, by decide⟩

/-- A slot that holds an operation issued as number n, performed, with a late value. -/
def tSlot (i : Instr) (n : Nat) (a b c v : VW) (stage : Nat) : Slot :=
  { tix := 0, word := 0, ins := i, st := .held, chn := 0, cseq := 0, prog := 0, opa := a, opb := b, opc := c,
    lres := v, seq := n, tagq := 0, fl := 0, wide := false, stage := stage, cut := 0, full := 0, held := false, sub := 0, buf := [], passed := 0, side := none, dec := [] }

/-- O18: stores that are accepted, in a normal, a host and a presence page, and performed, with the word absent and present. -/
theorem meet_stores :
    (let x := tElem []
     let s := tState x
     let st := tSlot (.st plainTU ⟨.s32, .s 1, .zero, .zero, 0, 4, 0, 0, 0⟩) 0 0 0 7 0 0
     let sw := tSlot (.stw plainTU ⟨.s32, .s 1, .zero, .zero, 0, 4, 0, 0, 0⟩) 0 0x10000 0 7 0 0
     let l := tLoc 0 0x200000 0x200001
     let k := tLoc 1 0x210000 0x210021
     ReadyIn s plainTU (tFire x plainTU) 0 ∧
     s.resolveRun 0 0 0 4 .store = .ok [(l, 4)] ∧ farRun [(l, 4)] = false ∧
     (∃ ls, s.resolveRun 0 0 0x40000 4 .store = .ok ls ∧ farRun ls = true ∧ s.regionOf 0 = some 0 ∧ s.region 0 = some soloRegion) ∧
     s.resolveRun 0 0 0x10000 4 .wordWrite = .ok [(k, 4)] ∧
     (∀ y ∈ [st, sw], let u := tState { x with posted := [y] }
       u.runs 0 = true ∧ (u.elem 0).posted.find? (fun z => z.seq == y.seq) = some y ∧ y.held = false ∧ u.edgesMet 0 y = true ∧ y.cut ≠ 2 ∧
       y.sub = 0) ∧
     (let u := tState { x with posted := [st] }
      PlainRun u [(l, 4)] l 4 ∧ u.runFull (u.writer 0) [(l, 4)] = false) ∧
     (let u := tState { x with posted := [sw] }
      PlainRun u [(k, 4)] k 4 ∧ u.pendingPresence (u.regionOf 0) (k.addr / 4) = false ∧ u.pres.contains (k.addr / 4) = false ∧
        u.runFull (u.writer 0) [(k, 4)] = false ∧ ({ u with pres := [k.addr / 4] } : State).pres.contains (k.addr / 4) = true)) := by
  refine ⟨tState_ready _ rfl rfl rfl, by decide, by decide, ⟨_, rfl, rfl, rfl, rfl⟩, by decide, ?_, ⟨⟨tClear _ _ _ _ rfl rfl ⟨rfl, rfl⟩, rfl, rfl, by decide⟩, by decide⟩,
    ⟨tClear _ _ _ _ rfl rfl ⟨rfl, rfl⟩, rfl, rfl, by decide⟩, by decide, by decide, by decide, by decide⟩
  intro y hy
  simp only [List.mem_cons, List.not_mem_nil, or_false] at hy
  rcases hy with rfl | rfl <;> exact ⟨rfl, by decide, rfl, by decide, by decide, rfl⟩

/-- O19: an update that is sent, one that is performed, of an ATOM that still holds its slot, and one that is diverted. -/
theorem meet_updates :
    (let x := tElem []
     let y := tSlot (.atom plainTU ⟨.s32, .s 1, .zero, .s 2, 0, 4, 0, 0, 0⟩) 0 0 5 0 0 0
     let s := tState { x with slots := vec 8 none [(0, some { y with stage := 1 })] }
     let u := { s with updates := [(0, y)] }
     let l := tLoc 0 0x200000 0x200001
     let o : FmtM := ⟨.s32, .s 1, .zero, .s 2, 0, 4, 0, 0, 0⟩
     ReadyIn (tState x) plainTU (tFire x plainTU) 0 ∧ (tState x).resolveRun 0 0 0 4 .store = .ok [(l, 4)] ∧
     ([(l, 4)].all fun x => x.1.space == .dev) = true ∧
     u.updates[0]? = some (0, y) ∧ u.chainFirst 0 0 y = true ∧ updateFmt y = some o ∧ eaOf o y = 0 ∧
     u.resolveRun 0 0 0 4 .store = .ok [(l, 4)] ∧ PlainRun u [(l, 4)] l 4 ∧ u.runFull (u.writer 0) [(l, 4)] = false ∧
     (∀ z ∈ u.updates.eraseIdx 0, mergeable y z.2 = false) ∧ u.inWindow 0 y = true ∧ y.side = none ∧ (∃ z, u.slot 0 0 = some z ∧ z.seq = y.seq ∧ z.stage = 1) ∧
     (u.sided.filter fun v => v.2.sub == y.sub).length < 16 ∧
     (let z := tSlot (.red plainTU o) 0 0 5 0 0 0
      let w (n : Nat) : State := { tState { x with posted := [z] } with sided := List.replicate n (1, z) }
      z.sub ≠ farSlice ∧ ∀ n ∈ [15, 16], (w n).runs 0 = true ∧ ((w n).elem 0).posted.find? (fun v => v.seq == z.seq) = some z ∧
        z.held = false ∧ (w n).edgesMet 0 z = true ∧ ((w n).sided.filter fun v => v.2.sub == z.sub).length = n)) :=
  ⟨tState_ready _ rfl rfl rfl, by decide, by decide, rfl, by decide, rfl, by decide, by decide, ⟨tClear _ _ _ _ rfl rfl ⟨rfl, rfl⟩, rfl, rfl, by decide⟩, by decide,
    (by intro z hz; cases hz), by decide, rfl, ⟨_, rfl, rfl, rfl⟩, by decide, by decide, by decide⟩

/-- O20: slots that may complete: a load, a store and a command. -/
theorem meet_completion :
    (let st (y : Slot) := { tState { tElem [] with slots := vec 8 none [(7, some y)], nseq := 1 } with cur := none }
     ∀ y ∈ [tSlot (.ld plainTU ⟨.s32, .s 1, .zero, .zero, 0, 4, 0, 0, 0⟩) 0 0 0 0 9 3,
         tSlot (.st plainTU ⟨.s32, .s 1, .zero, .zero, 0, 4, 0, 0, 0⟩) 0 0 0 0 0 3,
         tSlot (.barq plainTU ⟨.s32, .s 2, .zero, .zero, .zero, 0, 0, 0, 64⟩) 0 0 0 0 9 3],
       (st y).slot 0 7 = some y ∧ (st y).mayFinish 0 7 y = true ∧ Roomy (st y) 0) := by
  intro st y hy
  simp only [List.mem_cons, List.not_mem_nil, or_false] at hy
  rcases hy with rfl | rfl | rfl <;> exact ⟨rfl, by decide, by decide, rfl⟩

/-- The state a firing leaves, as a later cycle begins on it. -/
def later (i : Instr) (s : State) : State :=
  match exec i s with
  | .next t => { t with cur := none, starts := [], issued := [], cycle := t.cycle + 1 }
  | _ => s

/-- O21: a division that issues, whose slot may complete in the next cycle, with a quotient and, by zero under TDZ, with none. -/
theorem meet_division :
    (let d : FmtA := ⟨.s32, .s 1, .s 2, .s 3, .zero, 0, 0⟩
     let st (b axc : W32) := tState { tElem [(2, 6), (3, b)] with axc := axc }
     ∀ p ∈ [((3 : W32), (0 : W32), false), (0, 0x20, true)], let s := st p.1 p.2.1; let u := later (.div plainTU d) s
       s.firing plainTU = some (tFire (s.elem 0) plainTU) ∧ shapeOf plainTU (s.elem 0) = .plain ∧ freeSlot (s.elem 0) = some 0 ∧
       (∃ y, u.slot 0 0 = some y ∧ u.mayFinish 0 0 y = true ∧
         (let x := u.view 0
          let a := slotLanes (axcOf x.axc) Chan.default d d.a y.opa
          let b := slotLanes (axcOf x.axc) Chan.default d d.b y.opb
          (List.zipWith (laneDiv (axcOf x.axc) .s32 d.mod) a.1 b.1).any Prod.snd = p.2.2)) ∧ Roomy u 0) := by
  intro d st p hp
  simp only [List.mem_cons, List.not_mem_nil, or_false] at hp
  rcases hp with rfl | rfl <;> exact ⟨rfl, rfl, rfl, ⟨_, rfl, by decide, by decide⟩, by decide, rfl⟩

/-- O16: a BRMW of fadd that has issued, whose turn it is. -/
theorem meet_bank_sum :
    (let o : FmtM := ⟨.f32, .s 1, .s 2, .s 3, 0, 0, 7, 0, 0⟩
     let y := tSlot (.brmw plainTU o) 0 64 0x3F800000 0 0 0
     let s := { tState { tElem [] with slots := vec 8 none [(7, some y)], nseq := 1 } with cur := none }
     s.slot 0 7 = some y ∧ s.inTurn 0 7 y = true ∧ s.edgesMet 0 y = true ∧ Roomy s 0 ∧ bankBase o y % 4 = 0 ∧
       PortFree s 0 4 [bankBase o y] true) := by
  refine ⟨rfl, by decide, by decide, ⟨by decide, rfl⟩, by decide, ⟨?_, by decide, by decide, by decide⟩, by decide, by decide⟩
  exact tState_noPass { tElem [] with slots := vec 8 none [(7, some _)], nseq := 1 } rfl

/-- O22: a completion that waits: with the buffer full and with room, of a firing without a slot, and of a load and a store in a slot. -/
theorem meet_buffer :
    (let w : Effect := { baseEffect plainTU none 0 true with toks := [⟨32, tok .data true⟩] }
     let now (s : State) (w : Effect) := (s.elem 0).bufferRoom w.toks && !(s.elem 0).behind w.seq w.toks &&
       !((s.elem 0).lastDone.1 == s.cycle && w.seq < (s.elem 0).lastDone.2)
     let full := tState { tElem [] with waiting := [w], out := List.replicate 4 (0, ⟨32, tok .data true⟩) }
     let free := tState { tElem [] with waiting := [w] }
     let v : Effect := { w with slot := some 7 }
     (full.runs 0 = true ∧ (full.elem 0).waitingOf 8 = some w ∧ now full w = false) ∧
     ((free.elem 0).waitingOf 8 = some w ∧ now free w = true ∧ free.slot 0 8 = none ∧ w.sets = [] ∧ w.spec = []) ∧
     ∀ y ∈ [tSlot (.ld plainTU ⟨.s32, .s 1, .zero, .zero, 0, 4, 0, 0, 0⟩) 0 0 0 0 9 3,
         tSlot (.st plainTU ⟨.s32, .s 1, .zero, .zero, 0, 4, 0, 0, 0⟩) 0 0 0 0 0 3],
       let u := tState { tElem [] with waiting := [v], slots := vec 8 none [(7, some y)] }
       u.runs 0 = true ∧ (u.elem 0).waitingOf 7 = some v ∧ now u v = true ∧ u.slot 0 7 = some y ∧ (u.elem 0).waiting = [v] ∧
         ∀ ctl, ((u.elem 0).outOf ctl).length ≤ 2) := by
  refine ⟨⟨by decide, by decide, by decide⟩, ⟨by decide, by decide, by decide, rfl, rfl⟩, ?_⟩
  intro y hy
  simp only [List.mem_cons, List.not_mem_nil, or_false] at hy
  rcases hy with rfl | rfl <;> exact ⟨by decide, by decide, by decide, rfl, rfl, by decide⟩

/-- O23: a barrier's commands at the ends of their ranges, its flip, and a registered BARW that is due. -/
theorem meet_barriers :
    (let x := tElem [(2, 65535), (3, 65536), (4, 4)]
     let f := tFire x plainTU
     let on : Bar := { Bar.zero with arm := true, exp := 2, arr := 1 }
     let full : Bar := { Bar.zero with arm := true, exp := 2, arr := 2 }
     let w : BarWait := ⟨0, 7, true, 5, some 0⟩
     let st (b : Bar) : State := { tState x with cores := [(0, { Core.reset with bars := vec 32 Bar.zero [(31, b)] })] }
     let y := tSlot (.barw plainTU ⟨.s32, .s 1, .s 2, .zero, .zero, 0, 0, 0, 31 + 32 * 5⟩) 0 0 0 0 0 1
     let u := { st { Bar.zero with waits := [w] } with elems := [(0, { x with slots := vec 8 none [(7, some y)], nseq := 1 })] }
     ReadyIn (tState x) plainTU f 0 ∧ wordOf x (.s 2) = 65535 ∧ 65535 < wordOf x (.s 3) ∧ wordOf x .zero = 0 ∧
     ((st on).bar 0 31).arm = true ∧ ((st Bar.zero).bar 0 31).arm = false ∧ ((st on).bar 0 31).arr ≠ ((st on).bar 0 31).exp ∧
     ((st full).bar 0 31).arr = ((st full).bar 0 31).exp ∧ ((st full).bar 0 31).pend = 0 ∧
     ((st full).bar 0 31).flipAt ≠ (st full).cycle + 1 ∧ ((st full).bar 0 31).heldB = [] ∧ ((st full).bar 0 31).heldT = 0 ∧
     ((st on).bar 0 31).waits.length < 64 ∧
     ¬ (wordOf x (.s 4) % 256 = 0 ∨ ((tState x).part 0).maint = true ∧ clusterOf (wordOf x (.s 4) % 256) = clusterOf 0) ∧
     (st on).boxTurn 0 (elemNo 0) = true ∧ (st on).boxTurn 4 (boxKey 0 4) = true ∧
     u.slot 0 7 = some y ∧ u.mayFinish 0 7 y = true ∧ Roomy u 0 ∧
     ((u.bar 0 31).waits.find? fun w => w.elem == 0 && w.slot == 7) = some w ∧ w.due = some u.cycle ∧ u.roomFor 0 w.place = true) :=
  ⟨tState_ready _ rfl rfl rfl, by decide, by decide, rfl, rfl, rfl, by decide, rfl, rfl, by decide, rfl, rfl, by decide, by decide, by decide, by decide, rfl, by decide,
    ⟨by decide, rfl⟩, by decide, rfl, by decide⟩

/-! ### States that meet the hypotheses: engines, ports, tokens and arrays -/

/-- O24: a command to every engine, at a page of the kind it asks, with its queue empty; and an RCOPY that has its cut, with the queue empty
and full. -/
theorem meet_queues :
    (let x := tElem [(4, 0x30000), (6, 0x20000)]
     let s := tState x
     let f := tFire x plainTU
     let o (a : Src) : FmtE := ⟨.s32, .none, a, .zero, .zero, 4, 0, 0, 0⟩
     let y := { tSlot (.rcopy plainTU (o (.s 4))) 0 0x30000 1 0 0 0 with cut := 2 }
     let u (n : Nat) : State := { tState { x with slots := vec 8 none [(7, some y)], nseq := 1 } with
       engines := [(engineKey 0 .row 0, ⟨vec 8 [] [(4, List.replicate n ⟨9, 1, 0, 0, 0, false, 0, 0, [], 0, [], [], none⟩)], 0⟩)] }
     ReadyIn s plainTU f 0 ∧ (s.equeue (engineKey 0 .copy 0) 4).length < 16 ∧ (groupOf x .zero).toNat % 4 = 0 ∧
     (∀ y : Slot, y.opc = groupOf x .zero → noteBad (o .zero) y = none) ∧
     (∀ y : Slot, y.opa = groupOf x .zero → y.opb = word512 (wordOf x .zero) → y.opc = groupOf x .zero → fillBad (o .zero) y = none) ∧
     (∃ l, s.resolve 0 0 0 .gathRead = .ok l ∧ l.space = .dev ∧ l.stack = 0) ∧
     (∀ y : Slot, y.opa = groupOf x .zero → y.opc = groupOf x .zero → indBad (o .zero) y = none) ∧
     (∀ a ∈ [Access.stashWrite, .stashRead], ∃ l, s.resolve 0 0 (pairOf x (.s 6)) a = .ok l ∧ l.space = .dev ∧ l.stack = 0) ∧
     (∀ y : Slot, y.opa = word512 (pairOf x (.s 6)) → y.opb = word512 (pairOf x .zero) → y.opc = groupOf x .zero →
       stashBad (o (.s 6)) false y = none) ∧
     (∀ a ∈ [Access.nativeRead, .nativeWrite], ∃ l, s.resolve 0 0 (pairOf x (.s 4)) a = .ok l ∧ l.space = .dev ∧ l.stack = 0) ∧
     pairOf x (.s 4) / 2 ^ 10 % 16 = 0 ∧ pairOf x (.s 4) % 32 = 0 ∧ (groupOf x (.s 4)).toNat % 2 ^ 64 = pairOf x (.s 4) ∧
     (∀ y : Slot, y.opa = groupOf x (.s 4) → y.opc = groupOf x .zero → rowBad (o (.s 4)) true y = none) ∧
     (∀ y : Slot, y.opa = word512 (pairOf x (.s 4)) → y.opc = groupOf x .zero → rowBad (o (.s 4)) false y = none) ∧
     (∀ y : Slot, y.opa = groupOf x .zero → y.opb = groupOf x .zero → y.opc = groupOf x .zero → collBad (o .zero) y = none) ∧
     (∀ n ∈ [15, 16], (u n).slot 0 7 = some y ∧ (u n).runs 0 = true ∧ (u n).firstOf 0 y (fun i => engineOf i == some .row) = true ∧
       (u n).fenced 0 y (fenceNeed 0 .row 0) = false ∧ rowBad (o (.s 4)) true y = none ∧
       (u n).resolve 0 0 (copyDst y) .nativeWrite = s.resolve 0 0 (copyDst y) .nativeWrite ∧
       ((u n).equeue (engineKey 0 .row 0) 4).length = n)) := by
  refine ⟨tState_ready _ rfl rfl rfl, by decide, by decide, ?_, ?_, ⟨_, rfl, rfl, by decide⟩, ?_, ?_, ?_, ?_, by decide, by decide, by decide, ?_,
    ?_, ?_, by decide⟩
  all_goals first
    | (intro a ha
       simp only [List.mem_cons, List.not_mem_nil, or_false] at ha
       rcases ha with rfl | rfl <;> exact ⟨_, rfl, rfl, by decide⟩)
    | (intro y h1
       simp only [noteBad, h1]; decide)
    | (intro y h1 h2
       simp only [indBad, rowBad, copyDst, copySrc, noteBad, h1, h2]; decide)
    | (intro y h1 h2 h3
       simp only [fillBad, stashBad, stashSize, stashBlocks, stashN, collBad, collN, collDesc, copyDst, copySrc, countOf, noteBad, h1, h2, h3]
       decide)

/-- The head of queue 4 of an engine of partition 0, whose firing is in slot 7 of element 0. -/
def tEntry : Entry := ⟨0, 0, 7, 0, 0, false, 0, 0, [], 0, [], [], none⟩
def tEngine : Engine := ⟨vec 8 [] [(4, [tEntry])], 5⟩
theorem tEngine_turn : nextQueue tEngine = some 4 := by decide
theorem tEngine_head : vget tEngine.qs 4 [] = [tEntry] := by decide
def tCmd : FmtE := ⟨.s32, .none, .s 4, .s 2, .zero, 4, 0, 0, 0⟩
def tServe (k : EngineKind) (y : Slot) : State :=
  { tState { tElem [] with slots := vec 8 none [(7, some y)], nseq := 1 } with
    engines := [(engineKey 0 k 0, tEngine)], nextId := 1 }

theorem tServe_served (k : EngineKind) (y : Slot) : Served (tServe k y) (engineKey 0 k 0) 4 tEntry y := by
  cases k <;>
    exact ⟨tEngine_turn, ⟨[], tEngine_head, (by intro z hz; cases hz)⟩, rfl, rfl, of_decide_eq_true rfl, of_decide_eq_true rfl, of_decide_eq_true rfl, of_decide_eq_true rfl, of_decide_eq_true rfl⟩

/-- O25: a CPY and a FILL of the last bytes they can name in their pages. -/
theorem meet_copies :
    ∀ i ∈ [Instr.cpy plainTU tCmd, .fill plainTU tCmd],
      (let y := tSlot i 0 (65532 + 2 ^ 64 * 64) 4 0 0 1
       let s := tServe .copy y
       let l := tLoc 0 0x20FFFC 0x200001
       Served s (engineKey 0 .copy 0) 4 tEntry y ∧ engineKindOf (engineKey 0 .copy 0) = .copy ∧ tEntry.cut ≠ 3 ∧
         (s.tlbOf 0).length ≤ 1000 ∧ y.prog < countOf y ∧ s.resolveRun 0 0 65532 4 .copyWrite = .ok [(l, 4)] ∧
         PlainRun s [(l, 4)] l 4 ∧ s.runFull (s.writer 0) [(l, 4)] = false ∧
         ∃ rs, s.resolveRun 0 0 64 4 .copyRead = .ok rs ∧ (s.readRun 64 rs).length = 4) := by
  intro i hi
  simp only [List.mem_cons, List.not_mem_nil, or_false] at hi
  rcases hi with rfl | rfl <;>
    exact ⟨tServe_served _ _, by decide, by decide, by decide, by decide, rfl, ⟨tClear _ _ _ _ rfl rfl ⟨rfl, rfl⟩, rfl, rfl, by decide⟩, rfl, _, rfl, by decide⟩

/-- O26: an RZERO of the last row of a native page, an RCOPY of its first row to it, and one that leaves the stack of its queue. -/
theorem meet_rows :
    (∀ i ∈ [Instr.rzero plainTU tCmd, .rcopy plainTU tCmd],
      (let y := tSlot i 0 (0x3FC00 + 2 ^ 64 * 0x30000) 1 0 0 1
       let s := tServe .row y
       Served s (engineKey 0 .row 0) 4 tEntry y ∧
         (∃ r l, s.groupPlan 0 0 0 (copyDst y) (copySrc y) false 0 1 = .ok [r] ∧ r.dst = some l ∧ r.src = none ∧
           s.Clear (fun _ => 0) l.addr 1024) ∧
         ∃ r l m, s.groupPlan 0 0 0 (copyDst y) (copySrc y) true 0 1 = .ok [r] ∧ r.dst = some l ∧ r.src = some m ∧ m.addr ≠ l.addr ∧
           s.Clear (fun _ => 0) l.addr 1024 ∧ s.Clear (fun _ => 0) m.addr 1024)) ∧
    (let z := tSlot (.rzero plainTU tCmd) 0 0x30000 1 0 0 1
     let u : State := { tServe .row z with engines := [(engineKey 0 .row 1, tEngine)] }
     Served u (engineKey 0 .row 1) 4 tEntry z ∧ u.groupPlan 0 0 1 (copyDst z) (copySrc z) false 0 1 = .error (some (0x10, 0x30000))) := by
  refine ⟨?_, ⟨tEngine_turn, ⟨[], tEngine_head, (by intro z hz; cases hz)⟩, rfl, rfl, by decide, by decide, by decide, by decide, by decide⟩, by decide⟩
  intro i hi
  simp only [List.mem_cons, List.not_mem_nil, or_false] at hi
  rcases hi with rfl | rfl <;>
    exact ⟨tServe_served _ _, ⟨_, _, rfl, rfl, rfl, tClear _ _ _ _ rfl rfl ⟨rfl, rfl⟩⟩, _, _, _, rfl, rfl, rfl, by decide,
      tClear _ _ _ _ rfl rfl ⟨rfl, rfl⟩, tClear _ _ _ _ rfl rfl ⟨rfl, rfl⟩⟩


/-- A bank-MAC command at the head of its queue, with the holder of its pseudo-channel. -/
def tMac (i : Instr) (h : Option Nat) : State :=
  { tServe .mac (tSlot i 0 0x30000 0 63 0 1) with pchans := [(0, ⟨h.isSome, h, Vector.replicate 16 0, [(0, 1)]⟩)] }
/-- O27: a command of each kind at a native page, with its pseudo-channel free, its own and another's. -/
theorem meet_macs :
    ∀ i ∈ [Instr.pimabEnter plainTU tCmd, .pimabLeave plainTU tCmd, .pimld plainTU tCmd, .pimmac plainTU tCmd, .pimrd plainTU tCmd],
      (∀ h ∈ [none, some 0, some 1], Served (tMac i h) (engineKey 0 .mac 0) 4 tEntry (tSlot i 0 0x30000 0 63 0 1) ∧
        ∃ l, (tMac i h).resolve 0 0 (copyDst (tSlot i 0 0x30000 0 63 0 1)) .nativeRead = .ok l ∧ nativePc l.leaf = 0) ∧
      ((tMac i none).pchan 0).mode = false ∧ ((tMac i (some 0)).pchan 0).holder = some tEntry.reg ∧
      ((tMac i (some 1)).pchan 0).holder ≠ some tEntry.reg ∧ ((tMac i (some 1)).pchan 0).mode = true ∧
      ((tMac i (some 0)).pchan 0).acc.Pairwise (fun a b => a.1 < b.1) := by
  intro i hi
  simp only [List.mem_cons, List.not_mem_nil, or_false] at hi
  rcases hi with rfl | rfl | rfl | rfl | rfl <;>
    (refine ⟨?_, by decide, by decide, by decide, by decide, by decide⟩
     intro h hh
     simp only [List.mem_cons, List.not_mem_nil, or_false] at hh
     rcases hh with rfl | rfl | rfl <;>
       exact ⟨⟨tEngine_turn, ⟨[], tEngine_head, (by intro z hz; cases hz)⟩, rfl, rfl, by decide, by decide, by decide, by decide⟩, _, rfl, by decide⟩)

/-- A port of core 0 that delivers to element 1 or that takes tokens, of stride 64 at page 0. -/
def tPort (out : Bool) : Port :=
  { out := out, exy := 1, vc := 0, ty := .s32, ctl := false, reg := 0, imgBase := 0, imgStride := 0, imgTsrx := 0, base := 0, stride := 64, tsrx := 255,
    wbase := 0, wstride := 64, wtsrx := 255,
    ind := false, open_ := true, bySopen := true, discard := false, auto := false, wcnt := 2, wfst := 1022, disc := 0, cursor := 1, next := 1
    ahead := [], due := [], waitq := [], heldq := [], held := false, cut := 0, full := 0, sectN := 0, count := 1, cmd := none
    tailed := false }
def withPort (s : State) (p : Port) : State := { s with cores := [(0, { Core.reset with ports := vec 8 none [(7, some p)] })] }

theorem withPort_served (s : State) (p : Port) (g q : Nat) (t : Entry) (y : Slot) (h : Served s g q t y) : Served (withPort s p) g q t y :=
  ⟨h.turn, h.head, h.slot, h.free⟩

/-- O28: a GATH that reads the index of a token of one row and of its second, and that has an index and fetches its row, in order and ahead of
it; a SCAT that takes on its token's row, and that writes it. -/
theorem meet_indirect :
    (let o : FmtE := ⟨.s32, .none, .s 4, .s 2, .zero, 4, 0, 0, 7⟩
     let ind (p : Port) : Port := { p with ind := true, cmd := some (0, 7), cursor := 0 }
     let st (i : Instr) (n : W32) (p : Port) (e : Entry) : State :=
       { withPort (tServe .ind (tSlot i 0 (2 ^ 64 * 65528) (word512 n.toNat) 0 0 1)) (ind p) with
         engines := [(engineKey 0 .ind 0, ⟨vec 8 [] [(4, [e])], 5⟩)] }
     let w (j : Nat) (u : Option Token) : RowPlan := ⟨j, 0, none, none, u, false⟩
     let l := tLoc 0 0x200000 0x200001
     let h := tok .data false
     let q (hs : List Token) : Port := { tPort true with heldq := hs }
     (∀ v ∈ [((1 : W32), tEntry, 0), (2, { tEntry with part := 2 }, 1)],
       let s := st (.gath plainTU o) v.1 (tPort false) v.2.1
       Served s (engineKey 0 .ind 0) 4 v.2.1 (tSlot (.gath plainTU o) 0 (2 ^ 64 * 65528) (word512 v.1.toNat) 0 0 1) ∧
         s.port 0 7 = some (ind (tPort false)) ∧ v.2.1.row v.2.2 = none ∧
         ∃ xs, s.resolveRun 256 0 (65528 + 4 * v.2.2) 4 .gathRead = .ok xs ∧ (xs.all fun x => x.1.stack / 3 == 0) = true) ∧
     (∀ v ∈ [0, 1],
       let e := { tEntry with part := v + 1, plan := [w v none] }
       let s := st (.gath plainTU o) 2 (tPort false) e
       Served s (engineKey 0 .ind 0) 4 e (tSlot (.gath plainTU o) 0 (2 ^ 64 * 65528) 2 0 0 1) ∧
         ∃ rs, s.resolveRun 256 0 0 64 .gathRead = .ok rs) ∧
     (let s := st (.scat plainTU o) 1 (q [h]) tEntry
      Served s (engineKey 0 .ind 0) 4 tEntry (tSlot (.scat plainTU o) 0 (2 ^ 64 * 65528) 1 0 0 1) ∧
        ∃ xs, s.resolveRun 256 0 65528 4 .gathRead = .ok xs ∧ (xs.all fun x => x.1.stack / 3 == 0) = true) ∧
     (let e := { tEntry with plan := [w 0 (some h)] }
      let s := st (.scat plainTU o) 1 (q []) e
      Served s (engineKey 0 .ind 0) 4 e (tSlot (.scat plainTU o) 0 (2 ^ 64 * 65528) 1 0 0 1) ∧
        s.resolveRun 256 0 0 64 .scatWrite = .ok [(l, 64)] ∧ PlainRun s [(l, 64)] l 64 ∧ s.runFull (s.writer 0) [(l, 64)] = false)) := by
  refine ⟨?_, ?_, ⟨?_, _, rfl, by decide⟩, ?_, rfl, ⟨tClear _ _ _ _ rfl rfl ⟨rfl, rfl⟩, rfl, rfl, by decide⟩, by decide⟩
  · intro v hv
    simp only [List.mem_cons, List.not_mem_nil, or_false] at hv
    rcases hv with rfl | rfl <;>
      exact ⟨⟨by decide, ⟨[], rfl, (by intro z hz; cases hz)⟩, rfl, rfl, by decide, by decide, by decide, by decide⟩, rfl, rfl, _, rfl, by decide⟩
  · intro v hv
    simp only [List.mem_cons, List.not_mem_nil, or_false] at hv
    rcases hv with rfl | rfl <;>
      exact ⟨⟨by decide, ⟨[], rfl, (by intro z hz; cases hz)⟩, rfl, rfl, by decide, by decide, by decide, by decide⟩, _, rfl⟩
  all_goals exact ⟨by decide, ⟨[], rfl, (by intro z hz; cases hz)⟩, rfl, rfl, by decide, by decide, by decide, by decide⟩

/-- O29: a STASH that takes a token, one that writes its first chunk, and an UNSTASH that writes its first chunk to memory. -/
theorem meet_stash :
    (let o : FmtE := ⟨.b16, .none, .s 4, .s 2, .zero, 4, 0, 0, 14⟩
     let m : FmtE := ⟨.b16, .none, .s 4, .s 2, .zero, 4, 0, 0, 16⟩
     let y := tSlot (.stash plainTU o) 0 0x20000 513 0 0 1
     let z := tSlot (.unstash plainTU m) 0 (0x20000 + 2 ^ 64 * 64) 513 0 0 1
     let s (p : Port) := withPort (tServe .codec y) p
     let ind (h w : List Token) : Port := { tPort true with ind := true, cmd := some (0, 7), heldq := h, waitq := w }
     let h := List.replicate 16 (tok .data false)
     (stashPort o = 7 ∧ Served (s (ind [] [tok .data false])) (engineKey 0 .codec 0) 4 tEntry y ∧
       (s (ind [] [tok .data false])).port 0 7 = some (ind [] [tok .data false]) ∧
       (heldValues .b16 []).length < min 512 (stashN y) ∧ (tok .data false).kind = .data) ∧
     (Served (s (ind h [])) (engineKey 0 .codec 0) 4 tEntry y ∧ min 512 (stashN y) ≤ (heldValues .b16 h).length ∧ 16 < stashBlocks y ∧
       ∃ l, (s (ind h [])).resolveRun 0 0 0x20000 512 .stashWrite = .ok [(l, 512)] ∧ l.stack = 0) ∧
     (let u := tServe .codec z
      Served u (engineKey 0 .codec 0) 4 tEntry z ∧ (u.tlbOf 0).length ≤ 1000 ∧ stashMem m = true ∧ z.prog < stashN z * tyBytes .b16 ∧
        (∃ ss, u.resolveRun 0 0 0x20000 512 .stashRead = .ok ss ∧ ∀ x ∈ ss, x.1.stack = 0) ∧
        ∃ ds l, u.resolveRun 0 0 64 1024 .unstashWrite = .ok ds ∧ PlainRun u ds l 1024 ∧ u.runFull (u.writer 0) ds = false ∧
          1024 < stashN z * tyBytes .b16)) := by
  refine ⟨⟨by decide, withPort_served _ _ _ _ _ _ (tServe_served .codec _), rfl, by decide, rfl⟩,
    ⟨withPort_served _ _ _ _ _ _ (tServe_served .codec _), by decide, by decide, _, rfl, by decide⟩,
    tServe_served .codec _, by decide, by decide, by decide, ⟨_, rfl, by decide⟩, _, _, rfl, ⟨tClear _ _ _ _ rfl rfl ⟨rfl, rfl⟩, rfl, rfl, by decide⟩, by decide, by decide⟩

/-- O30: an ALLGATHER of rank 1 of two with a peer that agrees, one that does not and one of another number, and a descriptor whose rank is its
count. -/
theorem meet_coll :
    (let o : FmtE := ⟨.s32, .none, .s 4, .s 8, .zero, 4, 0, 0, 1⟩
     let y := tSlot (.coll plainTU o) 0 (0x100 + 2 ^ 64 * 0x200) (4 + 2 ^ 64 * 0x40) 0 0 1
     let s (rank : Nat) : State := { tServe .coll y with
       mem := Memory.write tMem 0x200040 (bytesLE 16 (2 + 2 ^ 32 * rank) ++ bytesLE 4 (3 + 2 ^ 16 * 5)), wrt := [(3, 0)], windows := [(3, 4096)] }
     let agrees (p : PeerColl) : Prop := p.kind = collKind o ∧ p.rop = collRop o ∧ p.ty = o.ty ∧ p.n = collN y
     let p : PeerColl := ⟨0, 0, 1, 0, .s32, 4, [1, 2, 3, 4]⟩
     (Served (s 2) (engineKey 0 .coll 0) 4 tEntry y ∧ ∃ hs, (s 2).resolveRun 0 0 (collDesc y) 16 .collRead = .ok hs ∧
       natLE (((s 2).readRun (collDesc y) hs).take 4) = 2 ∧ natLE ((((s 2).readRun (collDesc y) hs).drop 4).take 4) = 2) ∧
     (Served (s 1) (engineKey 0 .coll 0) 4 tEntry y ∧ 0 < collN y ∧ (s 1).tlbOf 0 = [] ∧ (s 1).pinned = [] ∧
       tEntry.num.getD (SMap.get 0 0 (s 1).colls) = 0 ∧ agrees p ∧ ¬ agrees { p with kind := 2 } ∧ p.gid = 0 ∧ p.num = 0 ∧
       (let gr : Group := ⟨2, 1, 0, [3, 5]⟩
        p.bytes.length = collSource o y gr ∧
        (s 1).canSend (((gr.mods.eraseIdx 1).filter fun i => i != Config.moduleNumber.toNat).map fun i => (i, collSource o y gr)) = true ∧
        ∃ hs ms ss l, (s 1).resolveRun 0 0 (collDesc y) 16 .collRead = .ok hs ∧
         natLE (((s 1).readRun (collDesc y) hs).take 4) = 2 ∧ natLE ((((s 1).readRun (collDesc y) hs).drop 4).take 4) = 1 ∧
         natLE ((((s 1).readRun (collDesc y) hs).drop 8).take 4) = 0 ∧
         (s 1).resolveRun 0 0 (collDesc y + 16) 4 .collRead = .ok ms ∧
         ((List.range 2).map fun i => natLE ((((s 1).readRun (collDesc y + 16) ms).drop (2 * i)).take 2)) = gr.mods ∧
         (∀ i ∈ gr.mods, i < 16384 ∧ (i ∈ gr.mods.eraseIdx 1 → SMap.get 15 i (s 1).wrt ≠ 15)) ∧
         (s 1).resolveRun 0 0 (copySrc y) (collSource o y gr) .collRead = .ok ss ∧
         (s 1).resolveRun 0 0 0x100 8 .unstashWrite = .ok [(l, 8)] ∧ PlainRun (s 1) [(l, 8)] l 8 ∧
         (s 1).runFull ((s 1).writer 0) [(l, 8)] = false ∧ y.prog < collTotal o y gr ∧ collApart o y gr [(l, 8)] ss = true ∧
         (collResult o y gr (s 1).free 0 8 ([[1, 2, 3, 4]].take 1 ++ (s 1).readRun (copySrc y) ss :: [[1, 2, 3, 4]].drop 1)).length = 8))) := by
  refine ⟨⟨⟨by decide, ⟨[], by decide, (by intro z hz; cases hz)⟩, rfl, rfl, by decide, by decide, by decide, by decide, by decide⟩, _, rfl, by decide, by decide⟩,
    ⟨by decide, ⟨[], by decide, (by intro z hz; cases hz)⟩, rfl, rfl, by decide, by decide, by decide, by decide, by decide⟩, by decide, rfl, rfl, rfl, by decide, by decide, rfl, rfl, by decide, ?_,
      _, _, _, _, rfl, by decide, by decide, by decide, rfl,
    by decide, by decide, rfl, rfl, ⟨tClear _ _ _ _ rfl rfl ⟨rfl, rfl⟩, rfl, rfl, by decide⟩, by decide, by decide, by decide, by decide⟩
  by_cases h : (3 : Nat) = Config.moduleNumber.toNat
  · simp [State.canSend, ← h]
  · simp [State.canSend, h, SMap.get, collSource, collKind, collN]
    decide
/-! ### States that meet the hypotheses: ports, tokens and arrays -/

/-- A region whose image has one shape record. -/
def tRegion : Region := { soloRegion with tsr := [(0, 1, 1)] }
def tPorted (p : Port) : State := { withPort (tState (tElem [])) p with regions := [(0, tRegion)] }

/-- A command at a port: in slot 7 of element 0, issued in this cycle or before. -/
def tSent (p : Port) (y : Slot) (now : Bool) : State :=
  { tPorted p with elems := [(0, { tElem [] with slots := vec 8 none [(7, some y)], nseq := 1 })], cur := none, issued := if now then [0] else [] }

/-- O31: commands to a closed port, an open window of an in port and of an out port with and without a token, and a shape record that is known; and
an RFEN of ports without and with such a token. -/
theorem meet_ports :
    (∀ p : Port, ReadyIn (tPorted p) plainTU (tFire (tElem []) plainTU) 0 ∧ (tPorted p).port 0 7 = some p) ∧
    (∀ b ∈ [false, true], (tPort b).next < (tPort b).wcnt ∧ (tPort b).cursor < (tPort b).wcnt ∧ (tPort b).busy = false ∧ (tPort b).out = b ∧
      (tPort b).open_ = true ∧ (tPort b).indirect = false ∧ ({ tPort b with open_ := false } : Port).open_ = false) ∧
    ({ tPort true with waitq := [tok .data false] } : Port).busy = true ∧ (tPort false).owesSect = false ∧
      ({ tPort false with due := [Token.sect 1 false] } : Port).owesSect = true ∧
    (let o (n : BitVec 16) : FmtE := { tCmd with imm := n }
     let y (i : Instr) := tSlot i 0 0 0 0 0 0
     ∀ z ∈ [y (.sopen plainTU (o 7)), y (.sparm plainTU (o 7)), y (.sparm plainTU (o 15)), y (.sparm plainTU (o 23)), y (.sparm plainTU (o 31)),
         y (.srec plainTU (o 7)), y (.srec plainTU (o 31)), y (.srec plainTU (o 55)), y (.sclose plainTU (o 7))],
       z.stage = 0 ∧ z.held = false ∧ z.sub = 0 ∧ isPortOp z.ins = true ∧
         ∀ now ∈ [false, true], ∀ p ∈ [tPort false, tPort true, { tPort false with open_ := false }, { tPort true with waitq := [tok .data false] }],
           (tSent p z now).slot 0 7 = some z ∧ (tSent p z now).runs 0 = true ∧ ((List.range 8).all fun j => match (tSent p z now).slot 0 j with
               | some w => !(tSent p z now).portBefore 0 p w z | none => true) = true ∧
             (tSent p z now).edgesMet 0 z = true ∧ (tSent p z now).port 0 7 = some p ∧ (tSent p z now).regOf 0 = some tRegion ∧
             (tSent p z now).sentBefore 0 z = !now) := by
  refine ⟨fun p => ⟨?_, rfl⟩, by decide, by decide, by decide, by decide, by decide⟩
  obtain ⟨h1, h2, h3, h4, h5, h6, h7, -⟩ := tState_ready (tElem []) rfl rfl rfl
  refine ⟨h1, h2, h3, h4, h5, h6, h7, ?_⟩
  rintro r ⟨⟩; rfl

/-- O32: an in port that reads its last token and one that delivers it, and an out port with a token, with EOS, and one that discards. -/
theorem meet_port_tokens :
    (let i := tPort false
     let d := { i with ahead := [tok .data false] }
     let o (k : Kind) (b : Bool) : Port := { tPort true with waitq := [tok k false], discard := b }
     let l := tLoc 0 0x20FFC0 0x200001
     (∀ p ∈ [i, d, o .data false, o .eos false, o .data true], (tPorted p).port 0 7 = some p ∧ (tPorted p).regionOn 0 = some 0 ∧
       p.reg = 0 ∧ p.held = false ∧ p.tailed = false ∧ p.ind = false) ∧
     (tPorted i).region 0 = some tRegion ∧ tRegion.phase = .running ∧ tRegion.drain = false ∧ i.cursor < i.wcnt ∧ i.cmd = none ∧ i.due = [] ∧
     offsetAdd 64 0 (((1022 + 1 : Nat) : Int) * (64 : BitVec 32).toInt) = 65472 ∧
     (∃ ls, (tPorted i).resolveRun 0 0 65472 64 .load = .ok ls) ∧
     (tPorted d).portClear 0 7 = true ∧
     (tPorted (o .data false)).resolveRun 0 0 65472 64 .portWrite = .ok [(l, 64)] ∧ PlainRun (tPorted (o .data false)) [(l, 64)] l 64 ∧
     (tPorted (o .data false)).runFull ((tPorted (o .data false)).portWriter 0 7 (o .data false)) [(l, 64)] = false) := by
  refine ⟨by decide, rfl, rfl, rfl, by decide, rfl, rfl, by decide, ⟨_, rfl⟩, by decide, rfl, ⟨tClear _ _ _ _ rfl rfl ⟨rfl, rfl⟩, rfl, rfl, by decide⟩, by decide⟩

/-- O33: a marker that is sent, a token that arrives with room and without, and a good and a bad CFG token. -/
theorem meet_transport :
    (let rt : Route := ⟨false, 0, 0, 1, 31, false, 0, none⟩
     let x := { tElem [] with out := [(0, ⟨32, tok .eor true⟩)], routes := [(32, rt)] }
     let z : Flight := { Flight.start 1 0 (.queue 0 31) [tok .data false] .raw 0 none with at_ := 0, link := some 5 }
     let a (n : Nat) : State := { tState { tElem [] with queues := vec 32 [] [(31, List.replicate n (tok .data false))] } with flight := [z] }
     let c (v : VW) : State := tState { tElem [] with queues := vec 32 [] [(31, [⟨.cfg, 0, true, true, v, false⟩])] }
     let s := tState x
     let n := nextLink 0 0 (routeDest soloRegion rt).elem
     (((s.elem 0).outOf true = [(0, ⟨32, tok .eor true⟩)] ∧ (s.view 0).outOf true ≠ [] ∧ (s.elem 0).injC ≠ s.cycle + 1 ∧ s.netRuns (.queue 0 0) = true ∧
       (s.elem 0).route 32 = some rt ∧ s.regOf 0 = some soloRegion ∧ (s.elem 0).olderInLane soloRegion true rt = false ∧ s.flight = [] ∧
       s.netRuns (routeDest soloRegion rt) = true ∧ s.linkFree n.2.1 true = true ∧
       s.poolRoom n.2.1 (Flight.start 0 0 (routeDest soloRegion rt) [tok .eor true] .raw s.cycle none) = true ∧
       s.linkTurn 0 n.2.1 true (s.vcOf (Flight.start 0 0 (routeDest soloRegion rt) [tok .eor true] .raw s.cycle none)) = true) ∧
     (∀ n ∈ [0, 64], (a n).flight[0]? = some z ∧ z.ready = true ∧ z.at_ = 0 ∧ z.toks = [tok .data false] ∧ z.cmd = none ∧
       z.landed (a n).cycle = true ∧ (a n).netRuns (.queue 0 31) = true ∧ (a n).heldBack 0 z = false ∧
       (((a n).storage 0).slotFor 31 ((tok .data false).unpack z.mode)).isSome = (n == 0)) ∧
     (∀ v ∈ [0x10000000, 0x20000000, 0x30000000], ∃ u, ((c v).elem 0).queue 31 = [u] ∧ (c v).standing 0 31 = some u ∧
       u.kind = .cfg ∧ (c v).runs 0 = true ∧ cfgBad ((c v).elem 0) u = (v == 0x30000000)))) := by
  refine ⟨⟨by decide, by decide, by decide, by decide, by decide, rfl, by decide, rfl, by decide, by decide, by decide, by decide⟩, by decide, ?_⟩
  intro v hv
  simp only [List.mem_cons, List.not_mem_nil, or_false] at hv
  rcases hv with rfl | rfl | rfl <;> exact ⟨_, rfl, rfl, rfl, by decide, by decide⟩

/-- O34: descriptors of a whole core, split into two parts, and bad; a rectangle that is left; a weight block at the end of the bank; MXC and
MXACC. -/
theorem meet_matrix :
    (let x := { tElem [(2, 0x808), (4, 0x201), (5, 0x100), (6, 65280), (9, 1)] with accb := some 65472 }
     let d : Rect := ⟨0, 0, 0, 1, 1, 0x101, 0, 0, none, [], 0, 0, 0, [], 0⟩
     let r := { soloRegion with rects := [d] }
     let s := tState x
     let y := tSlot (.mxc plainTU tCmd) 0 1 0 0 0 3
     let y := { y with word := encodeT { plainTU with ol := 33, ole := true } ++ encodeU { plainTU with ol := 33, ole := true } false ++ 0#64 }
     let u := tState { x with slots := vec 8 none [(7, some y)], nseq := 1 }
     ReadyIn s plainTU (tFire x plainTU) 0 ∧ s.regionOf 0 = some 0 ∧ s.region 0 = some soloRegion ∧ s.regOf 0 = some soloRegion ∧
     (∀ p ∈ [(Src.s 2, false), (.s 4, true)], (∀ y : Slot, y.opa = word512 (pairOf x p.1) → mxEnterBad s 0 p.2 y = none) ∧
       ∀ m ∈ mxRects (pairOf x p.1) (soloRegion.gridOf 0) p.2, s.regionOf (soloRegion.rectElem m 0 0) = some 0) ∧
     (∀ b, ∀ y : Slot, y.opa = word512 (pairOf x .zero) → mxEnterBad s 0 b y = some (0x0D, 0)) ∧
     ReadyIn { s with regions := [(0, r)] } plainTU (tFire x plainTU) 0 ∧ (soloRegion.rects = [] ∧ r.rects = [d] ∧ r.placed = true ∧ d.holds (soloRegion.gridOf 0) = true ∧ soloRegion.gridOf 0 = (d.gx, d.gy) ∧
       d.quiet s.cycle = true) ∧
     (wordOf x (.s 6) % 65536 % 64 = 0 ∧ wordOf x (.s 6) % 65536 + 256 ≤ 65536 ∧ PortFree s 0 64 [wordOf x (.s 6) % 65536] false) ∧
     (let z := tSlot (.mxwld plainTU tCmd) 0 65280 0 0 0 0
      ∀ i ∈ [0, 3], let v := { z with sub := i }; let w := tState { x with slots := vec 8 none [(7, some v)], nseq := 1 }
        w.slot 0 7 = some v ∧ w.runs 0 = true ∧ w.edgesMet 0 v = true ∧ mxwldBad tCmd v = none ∧ w.rectOf 0 = none ∧
          PortFree w 0 64 [65280 + 64 * i] false) ∧
     (u.slot 0 7 = some y ∧ u.mayFinish 0 7 y = true ∧ Roomy u 0 ∧ ctlLabel (slotTU y).ol.toNat = true) ∧
     (s.elem 0).accb = some 65472 ∧ wordOf x (.s 9) ≠ 0 ∧ 65472 + 64 * (wordOf x .zero + wordOf x (.s 9)) ≤ 65536 ∧ PortFree s 0 64 [65472 + 64 * 0] true) := by
  refine ⟨tState_ready _ rfl rfl rfl, rfl, rfl, rfl, ?_, ?_, ?_, by decide,
    ⟨by decide, by decide, ⟨tState_noPass _ rfl, by decide, by decide, by simp⟩, by decide, by decide⟩, ?_, ⟨by decide, by decide, ⟨by decide, rfl⟩, by decide⟩, rfl,
    by decide, by decide, ⟨tState_noPass _ rfl, by decide, by decide, fun _ => by decide⟩, by decide, by decide⟩
  · intro p hp
    simp only [List.mem_cons, List.not_mem_nil, or_false] at hp
    rcases hp with rfl | rfl <;> exact ⟨fun y h => by simp only [mxEnterBad, mxdBad, State.mxParts, h]; decide, by decide⟩
  · intro b y h; cases b <;> (simp only [mxEnterBad, mxdBad, State.mxParts, h]; decide)
  · obtain ⟨h1, h2, h3, h4, h5, h6, h7, -⟩ := tState_ready { tElem [(2, 0x808), (4, 0x201), (5, 0x100), (6, 65280), (9, 1)] with accb := some 65472 } rfl rfl rfl
    refine ⟨h1, h2, h3, h4, h5, h6, h7, ?_⟩
    rintro r ⟨⟩; rfl
  · intro z i hi
    simp only [List.mem_cons, List.not_mem_nil, or_false] at hi
    rcases hi with rfl | rfl <;>
      exact ⟨rfl, by decide, by decide, by decide, by decide, ⟨tState_noPass _ rfl, by decide, by decide, by simp⟩, by decide, by decide⟩

/-! ### States that meet the hypotheses: integrator arrays, system commands and faults -/

/-- An array command in slot 7 of element 0, in the second main cycle of a step-clock cycle, at an array. -/
def tArray (a : IArray) (y : Slot) (bank : List Host.Cell) : State :=
  { tState { tElem [] with slots := vec 8 none [(7, some y)], nseq := 2, bank := bank } with
    cores := [(0, { Core.reset with arr := a })], cycle := 1 }
def tDoms (d : Nat) (x : Dom) : Vector Dom 8 := vset IArray.reset.doms d x
/-- A cell of domain d that reads feed f0 as its first DY source, the other sources being 0. -/
def tCell (d : Nat) : Cell := { Cell.reset with patch := BitVec.ofNat 64 (2 ^ 63 + d * 2 ^ 60 + 1023 * (2 ^ 44 + 2 ^ 22 + 2 ^ 11 + 1) + 520 * 2 ^ 33) }

theorem tArray_noPass (a : IArray) (y : Slot) (b : List Host.Cell) (hr : soloRegion.rects = []) : NoPass (tArray a y b) 0 := by
  refine ⟨by show (0 : Nat) ≠ 2; decide, ?_⟩
  intro r h m hm
  have hx : (tArray a y b).regOf 0 = some soloRegion := rfl
  rw [hx] at h; cases h; rw [hr] at hm; cases hm

/-- O35: commands to an array that is idle, whose domain runs, and whose feed another domain reads; records good and bad; and ISTEP. -/
theorem meet_array_commands :
    (let on : Dom := { IArray.reset.dom 0 with dst := 0x80000000, bud := 1, next := 1 }
     let c (k : Nat) (d : Nat) : IArray := { IArray.reset with cells := [(511, tCell k)], doms := tDoms d on }
     let two : IArray := { IArray.reset with cells := [(0, tCell 1), (511, tCell 0)] }
     let y (i : Instr) (a b c : VW) : Slot := { tSlot i 0 a b c 0 0 with seq := 0 }
     let p := y (.ipatch plainTU tCmd) (word512 (tCell 0).patch.toNat) 511 8
     let o (n : BitVec 16) : FmtE := { tCmd with imm := n }
     let st (a : IArray) (y : Slot) := tArray a y []
     (∀ z ∈ [p, y (.icfg plainTU tCmd) 7 1 0x40000, y (.iset plainTU tCmd) 5 511 0, y (.iget plainTU (o 5)) 7 0 0, y (.ifeed plainTU tCmd) 3 0 0,
         y (.ifeed plainTU tCmd) (word512 (2 ^ 30)) 0 0, y (.isamp plainTU tCmd) 496 16 0, y (.istep plainTU tCmd) 128 9 0],
       (st (c 0 1) z).slot 0 7 = some z ∧ z.stage = 0 ∧ z.held = false ∧ (st (c 0 1) z).intReady 0 z = true ∧
         (st (c 0 1) z).intBad 0 z = none) ∧
     (let z := y (.icfg plainTU tCmd) 7 0 0x40000
      ((st (c 0 1) z).intBad 0 z).isSome = true ∧ isIntOp z.ins = true ∧ (st (c 0 1) z).intReady 0 z = true) ∧
     ((c 0 1).idle [(tCell 0).domain, (tCell 0).domain] = true ∧ (c 0 0).idle [(tCell 0).domain, (tCell 0).domain] = false ∧
       (st (c 0 0) p).intReady 0 p = true ∧ ((c 0 1).dom 7).run = false ∧ ((c 0 7).dom 7).run = true ∧ ((st (c 0 7) p).intReady 0 p = true)) ∧
     (∀ f < 16, (feedOwners ((c 0 1).setCell 511 { (c 0 1).cell 511 with hd := 8 }).cells f).length ≤ 1) ∧
     ¬ (∀ f < 16, (feedOwners (two.setCell 511 (tCell 0)).cells f).length ≤ 1) ∧
     (arg 3 = 3 * 2 ^ (2 * 0) ∧ arg (word512 (2 ^ 30)) = 1 * 2 ^ (2 * 15)) ∧
     (feedOwners (c 0 1).cells 15 = [] ∧ feedOwners (c 0 1).cells 0 ≠ [] ∧ vget (c 0 1).fpd 0 0 = 0) ∧
     (∀ z ∈ [y (.isave plainTU tCmd) 65520 511 1, y (.irest plainTU tCmd) 65520 511 1],
       (let u (b : List Host.Cell) := tArray (c 0 1) z b
        (u []).slot 0 7 = some z ∧ (u []).intReady 0 z = true ∧ (u []).edgesMet 0 z = true ∧ z.sub = 0 ∧ PortClear (u []) 0 16 [65520] true ∧
          PortClear (u []) 0 16 [65520] false ∧ (u []).intBad 0 z = none ∧ ctlBad (natLE (Memory.read ((u []).elem 0).bank 65520 16) / 2 ^ 96 % 2 ^ 32) = true ∧
          ctlBad (natLE (Memory.read ((u [(65532, 8)]).elem 0).bank 65520 16) / 2 ^ 96 % 2 ^ 32) = false)) ∧
     (let z := y (.istep plainTU tCmd) 128 9 0
      (st (c 0 1) z).elems.Pairwise (fun x y => x.1 < y.1) ∧ z.opa = word512 (2 ^ 7) ∧ arg z.opb ≠ 0 ∧ tCmd.imm.getLsbD 0 = false ∧
        z.opb = word512 (arg z.opb))) := by
  refine ⟨by decide, by decide, by decide, by decide, by decide, by decide, by decide, ?_, by decide, by decide, by decide, by decide, by decide⟩
  intro z hz
  simp only [List.mem_cons, List.not_mem_nil, or_false] at hz
  rcases hz with rfl | rfl <;>
    exact ⟨rfl, by decide, by decide, rfl, ⟨tArray_noPass _ _ _ rfl, by decide, by decide, fun _ => by decide⟩,
      ⟨tArray_noPass _ _ _ rfl, by decide, by decide, by simp⟩, by decide, by decide, by decide⟩

/-- O36: a domain that steps, one that is not due, one without budget, and a stop that is due at a place with room. -/
theorem meet_array_steps :
    (let x (bud : W32) (next : Nat) : Dom := { IArray.reset.dom 7 with dst := 0x80000000, bud := bud, next := next, marks := [(0, 1)] }
     let a (bud : W32) (next : Nat) : IArray := { IArray.reset with cells := [(511, tCell 7)], doms := tDoms 7 (x bud next) }
     let s (bud : W32) (next : Nat) := tArray (a bud next) (tSlot (.icfg plainTU tCmd) 0 0 0 0 0 0) []
     ((x 1 0).due (stepCycle 1) = true ∧ (s 1 0).arrGated 0 = false ∧ (a 1 0).old = none ∧ (∀ f < 16, vget (a 1 0).fpd2 f false = false) ∧
       (∀ z ∈ (a 1 0).cells, z.2.domain = some 7 → (cellStep (srcValue (a 1 0) (stepCycle 1) (a 1 0).cells (a 1 0).fpd) z.2).2 = false) ∧
       SMap.find 511 (a 1 0).cells = some (tCell 7) ∧ (a 1 0).cells.Pairwise (fun x y => x.1 < y.1)) ∧
     (x 1 1).due (stepCycle 1) = false ∧ ((x 0 0).run = true ∧ (x 0 0).bud = 0) ∧ (IArray.reset.dom 7).run = false ∧
     ((s 1 0).regionOn 0).bind (s 1 0).region = some soloRegion ∧ (x 1 0).marks = [(0, 1)] ∧ 1 ≤ (s 1 0).cycle ∧
       (s 1 0).roomFor (evtElem soloRegion 0) (evtPlace 0) = true) := by
  refine ⟨by decide, by decide, by decide, by decide, rfl, rfl, by decide, by decide⟩

/-- O37: system commands, with a special register, an aligned and a misaligned watch, and a region that may be frozen or does not exist. -/
theorem meet_system :
    (let x := tElem [(2, 9), (4, 65532), (6, 2)]
     let s := tState x
     ReadyIn s plainTU (tFire x plainTU) 0 ∧ s.regionOf 0 = some 0 ∧ s.region 0 = some soloRegion ∧
     pairOf x (.s 6) % 4 ≠ 0 ∧ pairOf x (.s 4) % 4 = 0 ∧ (∀ z ∈ s.elems, z.2.filled = []) ∧ (∃ l, s.resolveRun 0 0 (pairOf x (.s 4)) 4 .watch = .ok [(l, 4)]) ∧
     ((List.range 4).find? fun i => (vget (s.elem 0).watch i none).isNone) = some 0 ∧
     s.region (wordOf x (.s 2)) = none ∧ soloRegion.save = none ∧ (s.part 0).saves = [] ∧
     unitsOf (s.saveBytes 0 soloRegion) ≤ (s.part 0).svs.toNat / 65536) :=
  ⟨tState_ready _ rfl rfl rfl, rfl, rfl, by decide, by decide, (by intro z hz; cases hz with | head => rfl | tail _ h => cases h), ⟨_, rfl⟩, by decide, by decide, rfl, by decide, by decide⟩

/-- O38: system commands that may complete, a CFGW of a good and of a bad word, and a watch that is due, early, and at a full place. -/
theorem meet_system_done :
    (let o (n : BitVec 16) : FmtE := { tCmd with imm := n }
     let st (y : Slot) := tState { tElem [] with slots := vec 8 none [(7, some y)], nseq := 1 }
     let w (p d : Nat) : Watch := ⟨0, 0x200000, false, 1, false, p, some d⟩
     let u (w : Watch) := tState { tElem [] with watch := vec 4 none [(3, some w)], cnt := vec 16 0 [(15, 15)] }
     (∀ i ∈ [Instr.wrsr plainTU (o 3), .wrsr plainTU (o 4), .wrsr plainTU (o 0x0A), .time plainTU tCmd, .waita plainTU tCmd, .cfgw plainTU tCmd],
       (let y := tSlot i 0 7 63 0 3 3
        (st y).slot 0 7 = some y ∧ (st y).mayFinish 0 7 y = true ∧ Roomy (st y) 0 ∧ y.opa.toNat < 2 ^ 32 ∧ (st y).partOf 0 < 8 ∧
          (st y).regOf 0 = some soloRegion ∧ (∀ j < 8, ∀ z, (st y).slot 0 j = some z → z.seq < y.seq → isCfgw z.ins = false) ∧
          cfgwTarget soloRegion y.opb.toNat = some (1, 31) ∧ cfgwStatus ((st y).wordCtx 1) 0 = 0 ∧ cfgwStatus ((st y).wordCtx 1) 7 ≠ 0)) ∧
     (∀ z ∈ [w 14 0, w 14 1, w 15 0], vget ((u z).elem 0).watch 3 none = some z ∧ (u z).runs 0 = true) ∧
     ((0 : Nat) ≤ (u (w 14 0)).cycle ∧ (u (w 14 0)).roomFor 0 14 = true) ∧ (u (w 14 1)).cycle < 1 ∧ (u (w 15 0)).roomFor 0 15 = false) := by
  refine ⟨?_, by decide, by decide, by decide, by decide⟩
  intro i hi
  simp only [List.mem_cons, List.not_mem_nil, or_false] at hi
  rcases hi with rfl | rfl | rfl | rfl | rfl | rfl <;>
    exact ⟨rfl, by decide, ⟨by decide, rfl⟩, by decide, by decide, rfl,
      (by intro j hj z hz hs; exact absurd hs (by simp [tSlot])), by decide, by decide, by decide⟩

/-- A vector result on label 32, of class 1: WORD for the loader (R123), ROUTE for a CFGW (R424). -/
theorem test_cfgw_label :
    (let i := Instr.add { plainTU with ole := true, ol := 32 } ⟨.s32, .v 1, .v 2, .v 3, .zero, 0, 0⟩
     let x : WordCtx := ⟨false, false, [32], [], [], []⟩
     (match encode i with | some (.word w) => [wordStatus x w, cfgwStatus x w] | _ => []) = [0x07, 0x09]) := by decide
/-! ### States that meet the hypotheses: faults and translations -/

def tRec (code addr : Nat) : FaultRec := ⟨code, 0, 0, 0, 0, 0, BitVec.ofNat 64 addr, 0, 0, 0, 0, 0, 0, 0⟩

/-- A state in which a lasting fault rolls region 0 back. -/
theorem tState_rollable (s : State) (code : Nat) (place : FaultAt) (hr : s.region 0 = some soloRegion) (hi : s.irrevocable1 0 soloRegion = false)
    (hq : (s.part 0).fqb = 0) : Rollable s 0 soloRegion code place :=
  ⟨hr, rfl, rfl, by decide, hi, rfl, rfl, hq, rfl, List.Pairwise.nil⟩

/-- O39: pending faults of each kind, with heads that still differ and that no longer do, a sided token, and loads that errors hit. -/
theorem meet_faults :
    (let w : W128 := encodeT tQQ ++ encodeU tQQ false ++ 0#64
     let p (c : Nat) (a : FaultAt) : PendFault := ⟨0, { tRec c 0x50000 with word := w }, a, 0⟩
     let s (x : Elem) (f : PendFault) : State := { tState x with pend := [f], cycle := 1 }
     let x := tQueues [tok .eos true] [tok .data true]
     (∀ f ∈ [p 0x02 (.slot 0 7), p 0x1A (.slot 0 7), p 0x01 .none, p 0x08 (.issue 0 0)], (s x f).pend[0]? = some f ∧ (s x f).region f.reg = some soloRegion ∧
       f.cycle < (s x f).cycle ∧ Rollable (s x f) 0 soloRegion f.frec.code (faultPlace f.frec f.at_)) ∧
     soloRegion.phase = .running ∧ soloRegion.part < 8 ∧ ((s x (p 0x02 .none)).part 0).pasid = none ∧ (∀ g q i, (p 0x1A (.slot 0 7)).at_ ≠ .entry g q i) ∧
     (s x (p 0x08 .none)).issueRecurs (p 0x08 .none) 0 = true ∧ (s (tElem []) (p 0x08 .none)).issueRecurs (p 0x08 .none) 0 = false ∧
     (let y := tSlot (.ld plainTU ⟨.s32, .s 1, .zero, .zero, 0, 4, 0, 0, 0⟩) 0 0 0 0 0 0
      let z := tSlot (.ld plainTU ⟨.s32, .s 1, .zero, .zero, 0, 4, 0, 0, 0⟩) 0 0x60000 0 0 0 0
      let u := { tState (tElem []) with sided := [(0, y)] }
      let v (y : Slot) (fs : List PendFault) : State := { tState { tElem [] with slots := vec 8 none [(7, some y)], nseq := 1 } with
        pend := fs, cycle := 1, mem := Memory.write tMem 0x130030 (bytesLE 8 0x8000000000000001), wrt := [(0, 0)] }
      (u.sided[0]? = some (0, y) ∧ u.sidedFirst 0 0 y = true ∧ u.regionOf 0 = some 0 ∧ Rollable u 0 soloRegion 0x17 (.issue 0 y.tix)) ∧
      (∀ n ∈ [y, z], (v n []).slot 0 7 = some n ∧ (∃ k t o, layoutOf n.ins = .m k t o) ∧ (v n []).pend = [] ∧ (v n []).runs 0 = true ∧
        n.stage = 0 ∧ (v n []).entriesOf (((v n []).regionOf 0).getD 0) = []) ∧
      (v z []).toPeer 0 ((v z []).partOf 0) (slotAddr z) = true ∧
      ∀ b : Bool, (let f := p (if b then 0x17 else 0x16) (.slot 0 7)
        (v y [f]).pend.find? (fun g => g.at_ == .slot 0 7) = some f ∧ f.cycle < (v y [f]).cycle ∧
          Rollable (v y [f]) f.reg soloRegion f.frec.code (faultPlace f.frec f.at_)))) := by
  refine ⟨?_, rfl, by decide, rfl, nofun, by decide, by decide, ⟨rfl, by decide, rfl, tState_rollable _ _ _ rfl (by decide) rfl⟩, ?_, by decide, ?_⟩
  · intro f hf
    simp only [List.mem_cons, List.not_mem_nil, or_false] at hf
    rcases hf with rfl | rfl | rfl | rfl <;> exact ⟨rfl, rfl, by decide, tState_rollable _ _ _ rfl (by decide) rfl⟩
  · intro y hy
    simp only [List.mem_cons, List.not_mem_nil, or_false] at hy
    rcases hy with rfl | rfl <;> exact ⟨rfl, ⟨_, _, _, rfl⟩, rfl, rfl, rfl, rfl⟩
  · intro b; cases b <;> exact ⟨rfl, by decide, tState_rollable _ _ _ rfl (by decide) rfl⟩

/-- O40: an answer in time and late, requests that stand, are retired and have no access, a stale response, late faults, and translations of a
PASID. -/
theorem meet_answers :
    (let f : Pgf := ⟨7, 0, 0, .slot 0 7, tRec 0x02 0x50000, 0⟩
     let st (c : Nat) : State := { tState (tElem []) with pgfs := [f], cycle := c }
     let q (a : FaultAt) (r : Option Nat) : PageReq := ⟨3, 0, 0, 0, 5, 0, a, tRec 0x02 0x50000, 0, r⟩
     let u (t : PageReq) (c : Nat) : State := { tState (tElem []) with tags := [t], cycle := c }
     let v (leaves : List (Nat × W64)) : State := { tState (tElem []) with
       parts := vset State.reset.parts 0 { Part.reset with en := true, pasid := some 5 }, cores := [(0, { Core.reset with tlb := leaves })] }
     (∀ c ∈ [0, 1899999, 1900000], ((st c).pgfs.find? fun g => g.part == 0 && g.rseq == (7 + 2 ^ 32 : W64).toNat % 2 ^ 32) = some f ∧
       ((7 + 2 ^ 32 : W64).getLsbD 32 = true ∧ (7 : W64).getLsbD 32 = false) ∧ ((st c).expiry 0 f.cycle ≤ (st c).cycle ↔ c = 1900000) ∧
       Rollable (st c) f.reg soloRegion f.frec.code (faultPlace f.frec f.at_)) ∧
     ((u (q .none none) 0).tags.find? (fun t => t.tag == 4 && t.fn == 0 && t.gen.testBit 0 == false) = none ∧ (u (q .none none) 0).partOfFn 0 = some 0) ∧
     (∀ c ∈ [0, 1899999, 1900000], ((u (q (.slot 0 7) none) c).expiry ((((u (q (.slot 0 7) none) c).region 0).map Region.part).getD 0) 0 ≤ c ↔ c = 1900000)) ∧
     (∀ t ∈ [q .none none, q (.slot 0 7) none, q (.slot 0 7) (some 0)], (u t 0).tags.find? (fun t => t.tag == 3 && t.fn == 0 && t.gen.testBit 0 == false) = some t ∧
       ((u t 0).func 0).gen.testBit 0 = false ∧ (u t 0).tags.find? (fun t => t.tag == 3) = some t ∧
       Rollable (u t 0) t.reg soloRegion t.frec.code (faultPlace t.frec t.at_)) ∧
     ((0 + 1900000000 ≤ (u (q (.slot 0 7) (some 0)) 1900000000).cycle) ∧ (u (q (.slot 0 7) (some 0)) 1899999999).cycle < 0 + 1900000000) ∧
     ((st 0).region 0 = some soloRegion ∧ (st 0).lateFault 0 soloRegion = none ∧ (st 1900000).lateFault 0 soloRegion = some f.frec ∧
       soloRegion.freezable = true ∧ ((st 1900000).part 0).fqb = 0) ∧
     ((0 : Nat) / 512 < 8 ∧ ((v []).part 0).pasid ≠ none ∧ leafOk 0x200001 false = true ∧ leafOk 0 false = false ∧ (v []).partOfFn 0 = some 0 ∧
       (v []).partBusy 0 = false) ∧
     { u (q .none none) 0 with updates := [(0, tSlot (.atom plainTU ⟨.s32, .s 1, .zero, .zero, 0, 4, 0, 0, 0⟩) 0 0 0 0 0 1)] }.partBusy 0 = true) := by
  refine ⟨?_, by decide, by decide, ?_, by decide, ⟨by decide, by decide, by decide, by decide, rfl⟩, by decide, by decide⟩
  · intro c hc
    simp only [List.mem_cons, List.not_mem_nil, or_false] at hc
    rcases hc with rfl | rfl | rfl <;> exact ⟨rfl, by decide, by decide, tState_rollable _ _ _ rfl (by decide) rfl⟩
  · intro t ht
    simp only [List.mem_cons, List.not_mem_nil, or_false] at ht
    rcases ht with rfl | rfl | rfl <;> exact ⟨rfl, by decide, by decide, tState_rollable _ _ _ rfl (by decide) rfl⟩

/-- O41: an invalidation that may complete and one that must wait, a page below every window and one above, and a page on its way to its pin. -/
theorem meet_removals :
    (let go (busy : Bool) : State := { tState (tElem []) with
       parts := vset State.reset.parts 0 { Part.reset with ivgo := true }
       updates := if busy then [(0, tSlot (.atom plainTU ⟨.s32, .s 1, .zero, .zero, 0, 4, 0, 0, 0⟩) 0 0 0 0 0 1)] else [] }
     let p : Port := { tPort false with wbase := 0x10000, wfst := 0 }
     let s := tPorted p
     let m (n : Nat) : State := { tState (tElem []) with migr := [(migrKey 0 0 false, n, 0)] }
     (((go false).part 0).ivgo = true ∧ (go false).partBusy 0 = false ∧ (go true).partBusy 0 = true ∧ (Part.reset).ivgo = false) ∧
     (s.minLwm 0 = some 0x10040 ∧ (∃ w, walk s 0 0 = .ok w ∧ w.2 = false ∧ bitsOf w.1.toNat 62 2 = 0) ∧
       (∃ w, walk s 0 0x10000 = .ok w ∧ w.2 = false) ∧ leafPages 0 false = (0, 1) ∧ leafPages 0x10000 false = (1, 1) ∧ s.boundPages 0 0 1 = false ∧
       (0, 0) ∉ s.pinned ∧ (0 + 1) * 65536 ≤ 0x10040 ∧ 0x10040 < (1 + 1) * 65536 ∧ (s.part 0).pasid = none) ∧
     (∃ w, walk (m 0) 0 0 = .ok w ∧ w.2 = false ∧ bitsOf w.1.toNat 62 2 ≠ 1) ∧
     ((tState (tElem [])).migr.find? fun x => x.1 == migrKey 0 0 false) = none ∧
     ∀ n ∈ [1, 3, 4, 5], ((m n).migr.find? fun x => x.1 == migrKey 0 0 false) = some (migrKey 0 0 false, n, 0)) := by
  refine ⟨by decide, ⟨by decide, ⟨_, rfl, rfl, by decide⟩, ⟨_, rfl, rfl⟩, by decide, by decide, by decide, by decide, by decide, by decide, rfl⟩,
    ⟨_, rfl, rfl, by decide⟩, by decide, by decide⟩

/-- A region with one rectangle in element 0, whose MXC queue is q31 and accumulators stand at 65472. -/
def tRect : Rect := ⟨0, 0, 0, 1, 1, 0x101, 31, 65472, none, [], 0, 0, 0, [], 0⟩
def tMatrix (m : Rect) (us : List Token) : State :=
  { tState { tElem [] with queues := vec 32 [] [(31, us)] } with regions := [(0, { soloRegion with rects := [m] })] }
def tMxc (p : Nat) : Token := ⟨.mxc, 0, true, true, word512 p, false⟩

/-- O42: MXC tokens at a rectangle at rest, with the forced cut of a run at each stage, a bad token, a vector that enters, one that reaches the last
accumulators, and marks of a FLUSH. -/
theorem meet_passes :
    (let r (m : Rect) : Region := { soloRegion with rects := [m] }
     let mma := 1 + 2 ^ 62 + 2 ^ 32 * 65504
     let t := BitVec.ofNat 64 mma
     let rest (s : State) (m : Rect) : Prop := s.partAt 0 0 = some (r m, m) ∧ m.mq < 32 ∧ 0 < m.w ∧ 0 < m.h ∧ m.moved ≠ s.cycle + 1
     (∀ c ∈ [0, 2], ∀ p ∈ [2 ^ 28, 2 * 2 ^ 28, mma, 3 * 2 ^ 28],
       (let m := { tRect with cut := c }
        let s := tMatrix m [tMxc p]
        rest s m ∧ (s.elem ((r m).rectElem m 0 0)).queue 31 = [tMxc p] ∧ s.standing ((r m).rectElem m 0 0) 31 = some (tMxc p) ∧
          (tMxc p).kind = .mxc ∧ (tMxc p).pay.toNat % 2 ^ 64 = p ∧ s.mxcBad (r m) m p = (p == 3 * 2 ^ 28) ∧ (r m).forming = none ∧
          m.mma = none ∧ m.waves = [] ∧ m.done ≤ s.cycle ∧ ((r m).rectElems m).Nodup)) ∧
     (let m := { tRect with cut := 3 }
      rest (tMatrix m []) m ∧ m.mma = none ∧ m.waves = [] ∧ m.done ≤ (tMatrix m []).cycle) ∧
     (let m := { tRect with h := 2, mma := some (t, 0) }
      rest (tMatrix m []) m ∧ m.waves = [] ∧ mmaBank t = true ∧ m.h ≠ 1 ∧ (tMatrix m []).standing ((r m).rectElem m 0 0) m.mq = none ∧
        unfilled ((tMatrix m []).elem 0) [mmaBase t + 32 * 0, mmaBase t + 32 * 0 + 31] = []) ∧
     (let v : Wave := ⟨t, 0, 1, [0], []⟩
      let m := { tRect with h := 2, w := 2, waves := [v] }
      let s := tMatrix m []
      rest s m ∧ m.mma = none ∧ mmaBank v.tok = true ∧ v.step + 1 < m.w + m.h ∧ s.standing ((r m).rectElem m 0 0) m.mq = none ∧
        unfilled (s.elem ((r m).rectElem m 0 v.step)) [65504, 65535] = [] ∧ m.writes v = some 0 ∧
        unfilled (s.elem ((r m).rectElem m 0 1)) [65472, 65535] = []) ∧
     (let m := { tRect with flush := [(0, 0), (0, 15)] }
      rest (tMatrix m []) m ∧ m.flush.Nodup ∧ ((r m).southElems m).Nodup ∧ ∀ f ∈ m.flush, f.1 < m.w ∧ f.2 < 16)) := by
  refine ⟨by decide, by decide, by decide, by decide, by decide⟩
/-! ### States that meet the hypotheses: launches, cuts and freezes -/

/-- A partition of core 0 whose queue 0 names a record at address 0x400, with some regions. -/
def tLaunch (mem : List Host.Cell) (rs : List (Nat × Region)) : State :=
  { State.reset with
    parts := vset State.reset.parts 0 { Part.reset with
      en := true, ptb := 0x100000, pcor := 1, pslt := 1, svs := 0x80000000, queues := [(0, { LQueue.reset with ctl := 0x80000000, tail := 1 })] }
    mem := mem, regions := rs }
/-- A record of one core, whose image stands at 0x800, with a grain and one point, and the ring entry that names it. -/
def tRecord (grain : Nat) : List Host.Cell :=
  Memory.write (Memory.write tMem 0x200000 (bytesLE 8 0x400)) 0x200400 (bytesLE 32 (0x800 + 2 ^ 64 * (0x101 + 2 ^ 32 * grain) + 2 ^ 192))
/-- The header of a save area of one core at the start of page 0. -/
def tSaved : List Host.Cell := Memory.write tMem 0x200000 (bytesLE 10 (0x00565351 + 2 ^ 32 * 0x0100 + 2 ^ 64 * 0x101))

/-- O43: a launch whose image does not load, one whose record is bad, one that has no room, a region that is released and one that waits, a
quantum before and at its end, with and without another launch that needs the cores, and a frozen launch that is restored. -/
theorem meet_dispatch :
    (let s := tLaunch (tRecord 1) []
     let k : Ready := ⟨0, 0, 1, 1, false, none, false⟩
     s.chosen 0 (dieAt 0 0) = some k ∧ s.chosen 0 (dieAt 1 0) = some k ∧ (1 : Nat) ≠ errWait ∧ s.placeable 0 k 0 0 [] = true ∧ s.placeable 0 k 1 0 [] = false ∧ (s.queue 0 0).gone = [] ∧
       ∃ l, (s.entryAt 0 (s.queue 0 0) (s.queue 0 0).head).bind (s.record? 0) = some l ∧ s.loadImage 0 (s.queue 0 0) l 0 0 = .error 0x01) ∧
    (let s := tLaunch (tRecord 0) []
     s.chosen 0 (dieAt 0 0) = some ⟨0, 0, 1, 1, false, none, true⟩ ∧ s.entryAt 0 (s.queue 0 0) (s.queue 0 0).head = some 0x400 ∧
       ∃ b l, s.recordBytes? 0 0x400 = some b ∧ s.recordOk 0 0x400 b = false ∧ (parseRecord 0x400 b).ccl = 0 ∧ (parseRecord 0x400 b).ccj = 0 ∧
         s.resolveRun noTlb 0 (0x400 + 0x58) 4 .copyWrite = .ok [(l, 4)] ∧ PlainRun s [(l, 4)] l 4) := by
  refine ⟨⟨by decide, by decide, by decide, by decide, by decide, rfl, _, rfl, rfl⟩, by decide, by decide, _, _, rfl, rfl, by decide, by decide, rfl, tClear _ _ _ _ rfl rfl ⟨rfl, rfl⟩, rfl, rfl, by decide⟩

/-- O43: regions that are released and one that waits, a quantum before and at its end, with and without another launch for the cores. -/
theorem meet_quantum :
    (let r := { soloRegion with phase := .configured }
     let y := tSlot (.atom plainTU ⟨.s32, .s 1, .zero, .zero, 0, 4, 0, 0, 0⟩) 0 0 0 0 0 1
     let s (n : Nat) : State := { tState (tElem []) with regions := [(0, r)], sided := [(n, y)] }
     let h : State := { s 64 with pchans := [(3, ⟨true, some 9, Vector.replicate 16 0, []⟩)] }
     (s 64).region 0 = some r ∧ (∀ u ∈ (s 64).sided ++ (s 64).updates, r.hasElem u.1 = false) ∧ (s 64).pcsFree 0 r.lastSnap = true ∧ (0, y) ∈ (s 0).sided ∧
       r.hasElem 0 = true ∧ h.pcsFree 0 { Snap.empty with pcs := [(3, PChan.reset)] } = false) ∧
    (let r := { soloRegion with launch := { soloLaunch with quant := 1 }, queue := 1, quantAt := 1900 }
     let s (c : Nat) (m : List Host.Cell) : State := { tLaunch m [(0, r)] with cycle := c }
     (s 1899 tMem).region 0 = some r ∧ r.launch.quant ≠ 0 ∧ r.quantAt ≤ (s 1900 tMem).cycle ∧ (s 1899 tMem).cycle < r.quantAt ∧ (s 1899 tMem).launchDone 0 r = false ∧
       (tLaunch tMem [(0, r)]).yields 0 { r with queue := 0 } = false ∧ (s 1900 (tRecord 1)).yields 0 r = true ∧
       ((s 1900 (tRecord 1)).takeSave 0).isSome = true) := by
  refine ⟨by decide, by decide⟩

/-- O43: a frozen launch that is restored, one that finds no room, and one whose save area does not hold it. -/
theorem meet_restore :
    (let x := tElem [(1, 1)]
     let r := { soloRegion with phase := .frozen, save := some 0, lastSnap := { Snap.empty with elems := [(0, x)] } }
     let s (m : List Host.Cell) := tLaunch m [(0, r)]
     let k : Ready := ⟨0, 0, 1, 1, false, some 0, false⟩
     ((s tSaved).chosen 0 (dieAt 0 0) = some k ∧ (s tSaved).restoreWaits r 0 0 = false ∧ (s tSaved).placeable 0 k 0 0 [] = true ∧ (s tSaved).placeable 0 k 1 0 [] = false) ∧
     (let z := { r with lastSnap := { Snap.empty with elems := [(0, { x with bmode := vec 4 .scr [(0, .rng)] })] } }
      let w : State := { s tSaved with regions := [(0, z)], parts := vset (s tSaved).parts 0 { (s tSaved).part 0 with pasid := some 5, svb := 0 } }
      w.restoreWaits z 0 0 = true) ∧
     ((s tMem).launchOf 0 0 = some (0, r) ∧ (s tMem).saveGood r = false) ∧ (r.lastSnap.elems.map fun z => r.moveElem 0 0 z.1).Nodup) := by
  refine ⟨by decide, by decide, by decide, by decide⟩

/-- O44: a unit that is over and one that is not, a launch that is done, one that is not and one with writes to come, a released launch with a
successor, appends with and without room, and a cancel. -/
theorem meet_progress :
    (let u := { soloRegion with unitDone := true, launch := { soloLaunch with rcnt := 2 } }
     let d := { soloRegion with unitDone := true, launch := { soloLaunch with ccg := 0 } }
     let y := tSlot (.atom plainTU ⟨.s32, .s 1, .zero, .zero, 0, 4, 0, 0, 0⟩) 0 0 0 0 0 1
     let s (r : Region) := tLaunch tMem [(0, r)]
     ((s u).unitOver 0 u = true ∧ ((s u).land 0 u).unwritten 0 u = false ∧
       (let p := { tPort true with waitq := [tok .data false] }
        let w := withPort (s u) p
        w.unitOver 0 u = true ∧ (w.land 0 u).unwritten 0 u = true) ∧ (s soloRegion).unitOver 0 soloRegion = false) ∧
     ((s d).launchDone 0 d = true ∧ (s d).unwritten 0 d = false ∧ (s u).launchDone 0 u = false ∧ ({ s d with updates := [(0, y)] } : State).unwritten 0 d = true ∧
       ((s d).queue 0 0).gone = []) ∧
     (let r := { soloRegion with nrel := 1, launch := { soloLaunch with succ := [0x400] } }
      (s r).releaseDue 0 = [0] ∧ r.released = true ∧ r.succRel = false ∧ r.phase ≠ .closed ∧
        ∃ b ls z, (s r).ownRead 0 (0x400 + 0x2C) 4 .record = .ok b ∧ natLE b ≠ 1 ∧ (s r).resolveRun noTlb 0 (0x400 + 0x2C) 4 .copyWrite = .ok ls ∧
          PlainRun (s r) ls z 4) ∧ u.pulls = [] ∧
     (let a (qs : List (Nat × LQueue)) : State := { tLaunch tMem [] with
        parts := vset State.reset.parts 0 { Part.reset with en := true, ptb := 0x100000, queues := qs, appends := [(0, 0x400)] } }
      (a []).releaseDue 0 = [] ∧ (a []).appendDue 0 = none ∧
        ∃ l, (a [(0, { LQueue.reset with ctl := 0x80000000, tail := 15 })]).appendDue 0 = some (0, 0x400, [(l, 8)]) ∧
          PlainRun (a [(0, { LQueue.reset with ctl := 0x80000000, tail := 15 })]) [(l, 8)] l 8) ∧
     (let r := { soloRegion with launch := { soloLaunch with ccj := 0x40 } }
      let s : State := { tLaunch tMem [(0, r)] with parts := vset State.reset.parts 0 { Part.reset with cna := 0x40 } }
      (s.part 0).cna ≠ 0 ∧ (0 : W32) < 4 ∧ r.phase ≠ .closed ∧ s.launchDone 0 r = false ∧ (s.part 0).queues = [] ∧ (s.part 0).appends = [] ∧
        r.launch.counter (4 : W32).toNat = (s.part 0).cna.toNat)) := by
  refine ⟨by decide, by decide, ⟨by decide, by decide, rfl, by decide, _, _, _, rfl, by decide, rfl, tClear _ _ _ _ rfl rfl ⟨rfl, rfl⟩, rfl, rfl, by decide⟩, rfl,
    ⟨by decide, by decide, _, rfl, tClear _ _ _ _ rfl rfl ⟨rfl, rfl⟩, rfl, rfl, by decide⟩, by decide⟩

/-- An element whose one transition requires queue 1, with tokens in it. -/
def tInput (us : List Token) : Elem := { tElem [] with pool := vec 32 0 [(0, encodeT tQ ++ encodeU tQ false ++ 0#64)], queues := vec 32 [] [(1, us)] }

/-- O45: an element that may take a shadow, one that has a stale SECT, a cut that is complete and one that is not, a forced cut, one that is asked
for late, and a count of tokens. -/
theorem meet_cuts :
    (let s (x : Elem) (r : Region) (c : Nat) : State := { tState x with regions := [(0, r)], cycle := c }
     let x := tInput [Token.sect 1 true]
     let z := tInput [Token.sect 0 true]
     let f := { soloRegion with forming := some 1, newSnap := { Snap.empty with elems := (List.range 64).map fun e => (e, tElem []) } }
     let q := { soloRegion with cutReq := true }
     let m := { soloRegion with multi := true, secK := 4, sectTok := 16 }
     ((s x soloRegion 0).shadowDue 0 = some (0, 1) ∧ (s z soloRegion 0).shadowDue 0 = none) ∧
     ((s z soloRegion 0).staleHead 0 1 = true ∧ (s x soloRegion 0).staleHead 0 1 = false) ∧
     (f.cutComplete = true ∧ f.forming = some 1 ∧ f.defNote = [] ∧ soloRegion.cutComplete = false) ∧
     ((s x q 0).cutDue q = true ∧ (s x q 0).rectsBusy q = false ∧ q.defNote = [] ∧ (∀ e ∈ q.elems, ((s x q 0).elem e).posted = []) ∧
       (∀ c ∈ q.cores, ∀ k < 8, (s x q 0).port c k = none) ∧ (s x soloRegion 0).cutDue soloRegion = false) ∧
     ((s x f 65536).cutLate f = true ∧ (s x f 65535).cutLate f = false ∧ m.tokensDue = true ∧ { m with sectTok := 15 }.tokensDue = false)) := by
  refine ⟨by decide, by decide, by decide, by decide, by decide⟩

/-- O46: a region that freezes and one that has no room for it, a readout that may begin and one that waits, and a drain at each stage. -/
theorem meet_freezes :
    (let s (r : Region) (sv : W64) : State := { tState (tInput [Token.bare .tail true 0]) with
       regions := [(0, r)], parts := vset State.reset.parts 0 { Part.reset with en := true, ptb := 0x100000, svs := sv } }
     let z := { soloRegion with w := 0, h := 0, phase := .stopped, save := some 0, saveAt := some 0 }
     let l := tLoc 0 0x200000 0x200001
     let d := { soloRegion with drain := true }
     let t := { soloRegion with phase := .stopped }
     (soloRegion.freezable = true ∧ ((s soloRegion 0x80000000).takeSave 0).isSome = true ∧ (s soloRegion 0).takeSave 0 = none ∧
       (s soloRegion 0x80000000).sharers 0 soloRegion = [] ∧ t.freezable = false ∧ (s soloRegion 0).launchDone 0 soloRegion = false) ∧
     (t.phase = .stopped ∧ (s t 0x80000000).accepted t = false ∧ ((s t 0x80000000).part 0).pause = false ∧ ((s t 0x80000000).takeSave 0).isSome = true ∧
       (s t 0).takeSave 0 = none ∧ t.save = none ∧
       t.saveAt.getD 0 + 65536 < t.engOffset + t.lastSnap.engSize t ∧
       ¬ (5111808 + 65536 < t.engOffset + t.lastSnap.engSize t) ∧
       (¬ ∃ g ∈ (s t 0x80000000).regions, g.2.part = t.part ∧ g.2.phase = .stopped ∧ g.2.save = none ∧ g.2.stamp < t.stamp)) ∧
     ((s d 0).drainDone 0 d = true ∧ (s soloRegion 0).drainDone 0 soloRegion = false ∧ (s d 0).launchDone 0 d = false ∧
       ((s soloRegion 0x80000000).takeSave 0).isSome = true ∧ soloRegion.drain = false) ∧
     ((s d 0).tailDue 0 = true ∧ (s soloRegion 0).tailDue 0 = false) ∧
     (s z 0).accepted z = false ∧ ((s z 0).takeSave 0).isSome = true ∧
       ∃ bs, clip 0 (0 + 65536) (saveParts z z.lastSnap) = [(0, bs)] ∧ bs.length = 4096 ∧
         (s z 0).resolveRun noTlb 0 (((s z 0).part 0).svb.toNat + 65536 * 0 + 0) 4096 .save = .ok [(l, 4096)] ∧ PlainRun (s z 0) [(l, 4096)] l 4096) := by
  refine ⟨by decide, by decide, by decide, by decide, by decide, by decide, _, rfl, by decide, by decide, tClear _ _ _ _ rfl rfl ⟨rfl, rfl⟩, rfl, rfl, by decide⟩
/-! ### States that meet the hypotheses: the device -/

/-- A state whose partition 0 is p, with a device function of its own in RUN and its page table. -/
def tDevice (p : Part) : State :=
  { State.reset with
    parts := vset State.reset.parts 0 p, mem := tMem, funcs := vset State.reset.funcs 1 ⟨0, .run, false⟩ }
def tDriver : Part := { Part.reset with en := true, fn := 1, ptb := 0x100000 }

/-- O47: queue writes that are taken and that are not, a ring that waits for room, violations to release, and register writes through both spaces. -/
theorem meet_registers :
    (let q (c : W32) : State := tDevice { tDriver with queues := [(63, { LQueue.reset with ctl := c })] }
     (((q 0).queue 0 63).dev = false ∧ ((16 : W32) - ((q 0).queue 0 63).head).toNat ≤ 2 ^ ((q 0).queue 0 63).rsz ∧ ((q 0).queue 0 63).used ≤ 16 ∧
       ¬ ((17 : W32) - ((q 0).queue 0 63).head).toNat ≤ 2 ^ ((q 0).queue 0 63).rsz ∧ ((q 0x80000000).queue 0 63).en = true ∧ ((q 0).queue 0 63).en = false) ∧
     (tDriver.recs = [] ∧ (16 : W32).toNat ≤ 16 ∧ ¬ ((17 : W32).toNat = 0 ∨ (4 ≤ (17 : W32).toNat ∧ (17 : W32).toNat ≤ 16))) ∧
     (let x := { tDriver with recs := [(tRec 0x08 0, none)], fqb := 0xFC00, fqsz := 4, fqt := 31, fqh := 15 }
      ∃ l, (x.fqt - (16 : W32)).toNat < 2 ^ x.fqsz ∧
        (tDevice x).resolveRun noTlb 0 (x.fqb.toNat + 64 * (x.fqt.toNat % 2 ^ x.fqsz)) 64 .ring = .ok [(l, 64)] ∧ PlainRun (tDevice x) [(l, 64)] l 64) ∧
     ({ tDevice tDriver with ready := true } : State).ready = true ∧
     (let s (v : List (Nat × VioAt)) : State := { tDevice tDriver with vios := v }
      ((s []).vios.find? fun y => y.1 == (5 : W32).toNat) = none ∧
        ((s [(5, .region 0 1)]).vios.find? fun y => y.1 == (5 : W32).toNat) = some ((5 : W32).toNat, .region 0 1) ∧
        ((s [(5, .func 8)]).vios.find? fun y => y.1 == (5 : W32).toNat) = some ((5 : W32).toNat, .func 8)) ∧
     ((800 : W64).toNat % 2 ^ 32 = 800 ∧ (3000 : W64).toNat % 2 ^ 32 = 3000 ∧ ¬ 800 ≤ (799 : W64).toNat % 2 ^ 32) ∧
     (tDriver.en = true ∧ Part.reset.en = false ∧ (tDevice tDriver).partOfFn 1 = some 0 ∧ (tDevice tDriver).accepts 1 = true ∧
       ({ tDevice tDriver with funcs := vset State.reset.funcs 1 ⟨0, .locked, false⟩ } : State).accepts 1 = false)) := by
  refine ⟨by decide, by decide, ⟨_, by decide, rfl, tClear _ _ _ _ rfl rfl ⟨rfl, rfl⟩, rfl, rfl, by decide⟩, rfl, by decide, by decide, rfl, rfl, by decide, by decide, by decide⟩

/-- O48: every message and command at a block in the state it asks for, and in another. -/
theorem meet_blocks :
    (let s (b : Block) (c : W64) : State := { tDevice Part.reset with blocks := [(287, b)], blkCmd := c }
     let m (t : Nat) : W128 := BitVec.ofNat 128 (t + 2 ^ 16 * 9 + 2 ^ 32 * 287)
     (∀ t ∈ [1, 2, 3, 4, 5], msgType (m t) = t ∧ msgBlock (m t) = 287 ∧ msgSeq (m t) = 9) ∧
     (∀ b ∈ ([⟨.owned, 0, some 9⟩, ⟨.removing, 7, none⟩, ⟨.scrubbing, 15, none⟩, ⟨.free, 15, none⟩, ⟨.offered, 7, none⟩] : List Block),
       (s b 0).block 287 = b ∧ (s b 0).blkCmd.getLsbD 31 = false ∧ (s b 0x8000211F).blkCmd.getLsbD 31 = true) ∧
     (s ⟨.removing, 7, none⟩ 0).blockUsed 7 287 = false ∧
     bitsOf (s ⟨.scrubbing, 15, none⟩ 0x8000211F).blkCmd.toNat 12 3 = 2 ∧ bitsOf (s ⟨.scrubbing, 15, none⟩ 0x8000211F).blkCmd.toNat 0 9 = 287) := by
  refine ⟨by decide, by decide, by decide, by decide, by decide⟩

/-- O49: a partition that may be enabled, one that may not, regions that a disable, a pause and a core release stop, and a core that clashes. -/
theorem meet_partitions :
    (let ok : Part := { Part.reset with pvc := 1, pslt := 2 }
     let s (x : Part) (rs : List (Nat × Region)) : State := { tDevice x with regions := rs }
     ((tDevice ok).canEnable 0 = true ∧ ok.en = false ∧ (tDevice { ok with pslt := 1 }).canEnable 0 = false) ∧
     ((s tDriver [(0, soloRegion)]).placedOf 0 = [0] ∧ (s tDriver []).placedOf 0 = [] ∧ (s tDriver [(0, soloRegion)]).region 0 = some soloRegion ∧
       soloRegion.freezable = true ∧ (s tDriver [(0, soloRegion)]).launchDone 0 soloRegion = false ∧ tDriver.pause = false ∧ { tDriver with pause := true }.pause = true) ∧
     (let u : State := { tDevice tDriver with parts := vset (vset State.reset.parts 0 tDriver) 7 { Part.reset with en := true, pcor := 1 <<< 255 } }
      (u.part 0).en = true ∧ (u.part 7).en = true ∧ (1 <<< 255 : BitVec 256).getLsbD 255 = true ∧ (u.part 7).pcor.getLsbD 255 = true ∧
        u.sharedCore 0 7 255 = false) ∧
     ∃ c ∈ soloRegion.cores, (0 : BitVec 256).getLsbD c = false) := by
  refine ⟨by decide, by decide, by decide, 0, by decide, by decide⟩

/-- O50: route values at their bounds, peer writes, aperture accesses that are performed, fault and are turned away, and a function's partition. -/
theorem meet_outside :
    (let s := tDevice tDriver
     let l := tLoc 0 0x20FFFC 0x200001
     ((11 : BitVec 4).toNat < 12 ∧ 12 ≤ (12 : BitVec 4).toNat ∧ s.wrt.Pairwise (fun a b => a.1 < b.1)) ∧
     (s.Clear s.keyTag 0 4 ∧ runExists 0 [(1 : Byte)].length = true ∧ runExists (2 ^ 44) 1 = false ∧ runExists 0 4 = true ∧ 0 % tyBytes .s32 = 0 ∧
       ¬ (2 % tyBytes .s32 = 0 ∧ runExists 2 (tyBytes .s32) = true) ∧ natLE (s.devRead 0 4) = natLE (([0, 0, 0, 0, 1, 0, 0, 0] : List Byte).take 4) ∧
       natLE (s.devRead 0 4) ≠ natLE (([1, 0, 0, 0, 1, 0, 0, 0] : List Byte).take 4)) ∧
     (s.partOfFn 1 = some 0 ∧ s.accepts 1 = true ∧ (s.part 0).apb.toNat + 65532 = 65532 ∧ 65532 + 4 ≤ 2 ^ 36) ∧
     s.resolveRun noTlb 0 65532 4 .load = .ok [(l, 4)] ∧ s.resolveRun noTlb 0 65532 4 .store = .ok [(l, 4)] ∧ PlainRun s [(l, 4)] l 4 ∧
     s.resolveRun noTlb 0 0x50000 4 .load = .fault 0x02 0x50000 ∧ s.resolveRun noTlb 0 0x50000 4 .store = .fault 0x02 0x50000) := by
  refine ⟨⟨by decide, by decide, List.Pairwise.nil⟩, ⟨tClear _ _ _ _ rfl rfl ⟨rfl, rfl⟩, by decide⟩, by decide, by decide, by decide,
    ⟨tClear _ _ _ _ rfl rfl ⟨rfl, rfl⟩, rfl, rfl, by decide⟩, by decide, by decide⟩

/-- O51: a key slot that no enabled partition names, and one that one does. -/
theorem meet_module :
    (let s := tDevice { tDriver with key := 15 }
     (∀ p < 8, (s.part p).en = true → (s.part p).key ≠ 0) ∧ (s.part 0).en = true ∧ (s.part 0).key = 15) := by
  refine ⟨by decide, by decide, by decide⟩

/-- O52, O54 and O55: an operation and halves with their encodings, a turn that runs one, one that finds nothing enabled, and a pair's second step. -/
theorem meet_steps :
    (let o : FmtA := ⟨.s32, .s 1, .s 2, .imm, .zero, 0, 3⟩
     let h : Instr := .pairMax ⟨.f32, 18, 35, 16⟩
     (Instr.add plainTU o).wf = true ∧ (∃ w, encode (.add plainTU o) = some (.word w) ∧ decodeWord w = .ok (.single (.add plainTU o))) ∧
     h.wf = true ∧ (∃ a, encode h = some (.half a)) ∧ (∃ t sc vh, decodeWord (encodeT plainTU ++ encodeU plainTU true ++ (0x84020801#32 ++ 0x21A51A00#32)) =
       .ok (.pair t sc vh)) ∧
     (let s := count3 [(0, 1)] 0
      s.pairDone = none ∧ s.agenda = [.turn 0 true] ∧ s.closing = false ∧ s.dueFinish 0 = none ∧ ({ s with agenda := [] } : State).canTurn 0 = true ∧
        ∃ c i, ({ s with agenda := [] } : State).fetch 0 = some c ∧ decodeWord c.word = .ok (.single i) ∧
          (({ s with agenda := [] } : State).enabledList 0 (s.view 0)).Pairwise fun a b => a.1 < b.1) ∧
     ({ count3 [] 0 with agenda := [] } : State).fetch 0 = none ∧
     (let s := { tState (tElem []) with pairDone := some ⟨h, 1, 1, 0, true, false⟩ }
      s.pairDone = some ⟨h, 1, 1, 0, true, false⟩ ∧ s.cur = some ⟨0, 0, 0, true⟩) ∧ layoutOf (.sectionShadow 0) = .none) := by
  refine ⟨by decide, ⟨_, rfl, by decide⟩, by decide, ⟨_, rfl⟩, ⟨_, _, _, rfl⟩, ⟨rfl, rfl, rfl, rfl, by decide, _, _, rfl, rfl, by decide⟩, by decide, ⟨rfl, rfl⟩, rfl⟩

/-- O54: a completion whose cycle is fixed at the head of a turn, an event of each phase, and a tick that ends the cycle. -/
theorem meet_agenda :
    (let y := { tSlot (.istep plainTU tCmd) 0 1 5 0 1 2 with sub := 0 }
     let s (a : Choice) (b : Bool) : State := { tState { tElem [] with slots := vec 8 none [(7, some y)], nseq := 1 } with
       agenda := [a], cur := none, closing := b }
     let u (i : Instr) : State := s (.event i) (!workEvent i)
     (s (.turn 0 true) false).pairDone = none ∧ (s (.turn 0 true) false).dueFinish 0 = some (0, .firingCompletion 0 7) ∧
     (∀ i ∈ [Instr.tokenInjection 0 true, .moduleReset], (u i).closing = !workEvent i ∧ layoutOf i = .none ∧
       (u i).dueBefore (.event i) = none ∧ ((u i).closing = true → (u i).dueFlip = none)) ∧
     (let v := { tState { tElem [] with slots := vec 8 none [(6, some { tSlot (.ld plainTU ⟨.s32, .s 1, .zero, .zero, 0, 4, 0, 0, 0⟩) 1 0 0 0 0 3 with sub := 0 }), (7, some y)], nseq := 2 } with
        agenda := [.event (.firingCompletion 0 6)], cur := none }
      v.pairDone = none ∧ layoutOf (.firingCompletion 0 6) = .none ∧ workEvent (.firingCompletion 0 6) = !v.closing ∧
        v.dueBefore (.event (.firingCompletion 0 6)) = some (.firingCompletion 0 7)) ∧
     (s .tick true).closing = true ∧ (s .tick true).dueLate = none) := by
  refine ⟨rfl, by decide, by decide, by decide, rfl, by decide⟩

/-- O56: reset, from which a step goes on, meets the invariant. -/
theorem meet_memory : State.reset.MemOk ∧ Safe State.reset := by
  refine ⟨⟨by decide, by decide, by decide⟩, _, rfl⟩
/-! ### An image that loads -/

/-- The first 64 bytes of an image of one core without elements, and its section table. -/
def tHead : List Byte :=
  bytesLE 64 (0x00494E51 + 2 ^ 32 * 0x0100 + 2 ^ 48 * 0x80 + 2 ^ 64 * 0x101 + 2 ^ 96 + 2 ^ 128 * 128 + 2 ^ 160 * 144 + 2 ^ 192 * 4)
def tTable : List Byte := bytesLE 16 (1 + 2 ^ 32 * 144)
/-- What HASH covers, and the image with its hash. -/
def tBody : List Byte := tHead ++ List.replicate 64 0 ++ tTable
def tHash : Nat := (Config.sha3 tBody).toNat
def tImage : List Byte := tHead ++ bytesLE 64 tHash ++ tTable
def tImageState : State := tLaunch (tRecord 1 ++ tImage.zipIdx.map fun x => (0x200800 + x.2, x.1)) []

theorem tImage_parse : (match parseImage tImage with
    | .ok im => im.shw == 1 && im.shh == 1 && im.flags == 0 && im.elems == [] && im.rout == [] && im.chan == [] && im.port == [] && im.tsr == [] &&
        im.intg == [] && im.data == [] && im.zero == [] && im.relo == [] && im.body == tBody && im.sign == none
    | .error _ => false) = true := by decide

theorem parseImage_hash (b : List Byte) (im : Image) (h : parseImage b = .ok im) : im.hash = BitVec.ofNat 512 (fieldAt b 0x40 64) := by
  unfold parseImage at h
  simp only at h
  split at h
  · cases h
  · split at h
    · cases h
    · split at h
      · cases h; rfl
      · cases h

theorem byte_appended (m : List Host.Cell) (a : Nat) (h : ∀ c ∈ m, c.1 ≠ a) (bs : List Byte) (k j : Nat) (hj : k ≤ j) (hi : a = 0x200800 + j) :
    Memory.byte (m ++ (bs.zipIdx k).map fun x => (0x200800 + x.2, x.1)) a = bs.getD (j - k) 0 := by
  have e : m.find? (fun c => c.1 == a) = none := by
    rw [List.find?_eq_none]; intro c hc; simpa using h c hc
  rw [Memory.byte, List.find?_append, e, Option.none_or]
  induction bs generalizing k with
  | nil => simp
  | cons b bs ih =>
    rw [List.zipIdx_cons, List.map_cons, List.find?_cons]
    by_cases hk : k = j
    · subst hk; simp [hi]
    · have : ((0x200800 + k, b).1 == a) = false := by simp; omega
      rw [this]
      have := ih (k + 1) (by omega)
      rw [show j - k = (j - (k + 1)) + 1 by omega, List.getD_cons_succ]
      exact this

theorem tImage_bytes (n : Nat) (hn : n ≤ 144) : Memory.read tImageState.mem 0x200800 n = tImage.take n := by
  have hl : tImage.length = 144 := by decide
  apply List.ext_getElem (by simp [Memory.read, hl, hn])
  intro i h1 h2
  have hi : i < n := by simp at h2; omega
  have hm : ∀ c ∈ tRecord 1, c.1 < 0x200800 := by decide
  have := byte_appended (tRecord 1) (0x200800 + i) (fun c hc => by have := hm c hc; omega) tImage 0 i (by omega) rfl
  rw [List.getD_eq_getElem _ _ (by omega)] at this
  simp only [Memory.read, List.getElem_map, List.getElem_range, List.getElem_take]
  exact this

/-- O43: an image that loads, at the place the dispatcher finds for its record. -/
theorem meet_load :
    tImageState.chosen 0 (dieAt 0 0) = some ⟨0, 0, 1, 1, false, none, false⟩ ∧ tImageState.placeable 0 ⟨0, 0, 1, 1, false, none, false⟩ 0 0 [] = true ∧
      ∃ l x, (tImageState.entryAt 0 (tImageState.queue 0 0) (tImageState.queue 0 0).head).bind (tImageState.record? 0) = some l ∧
        tImageState.loadImage 0 (tImageState.queue 0 0) l 0 0 = .ok x := by
  refine ⟨by decide, by decide, ?_⟩
  obtain ⟨l, hl, h1, h2, h3⟩ : ∃ l, (tImageState.entryAt 0 (tImageState.queue 0 0) (tImageState.queue 0 0).head).bind (tImageState.record? 0) =
    some l ∧ l.img = 0x800 ∧ l.shw = 1 ∧ l.shh = 1 := ⟨_, rfl, by decide, by decide, by decide⟩
  have hr : tImageState.readImage 0 0x800 = .ok tImage := by
    have e1 : tImageState.ownRead 0 0x800 128 .record = .ok (tImage.take 128) := by
      have : tImageState.resolveRun noTlb 0 0x800 128 .record = .ok [(tLoc 0 0x200800 0x200001, 128)] := by decide
      rw [State.ownRead, this]
      show Except.ok (Memory.read tImageState.mem 0x200800 128 ++ []) = _
      rw [tImage_bytes 128 (by omega), List.append_nil]
    have e2 : tImageState.ownRead 0 0x800 144 .record = .ok (tImage.take 144) := by
      have : tImageState.resolveRun noTlb 0 0x800 144 .record = .ok [(tLoc 0 0x200800 0x200001, 144)] := by decide
      rw [State.ownRead, this]
      show Except.ok (Memory.read tImageState.mem 0x200800 144 ++ []) = _
      rw [tImage_bytes 144 (by omega), List.append_nil]
    have e3 : fieldAt (tImage.take 128) 0x14 4 = 144 := by decide
    have e4 : tImage.take 144 = tImage := List.take_of_length_le (by decide)
    rw [State.readImage, show (0x800 : W64).toNat = 0x800 from rfl, e1]
    have e5 : magicOk (tImage.take 128) = true := by decide
    simp only [e3, e5, show max 128 144 = 144 from rfl, e2, e4, Bool.not_true, Bool.false_eq_true, if_false]
  have hp := tImage_parse
  revert hp
  cases him : parseImage tImage with
  | error c => intro hp; cases hp
  | ok im =>
    intro hp
    simp only [Bool.and_eq_true, beq_iff_eq] at hp
    obtain ⟨⟨⟨⟨⟨⟨⟨⟨⟨⟨⟨⟨⟨a1, a2⟩, a3⟩, a4⟩, a5⟩, a6⟩, a7⟩, a8⟩, a9⟩, b1⟩, b2⟩, b3⟩, b4⟩, b5⟩ := hp
    have hh : im.hash = Config.sha3 tBody := by
      rw [parseImage_hash _ _ him]
      have : fieldAt tImage 0x40 64 = natLE (bytesLE 64 tHash) := by
        have e : (tImage.drop 0x40).take 64 = bytesLE 64 tHash := by
          rw [tImage, List.append_assoc, List.drop_append_of_le_length (by decide), show tHead.drop 0x40 = [] by decide, List.nil_append,
            List.take_append_of_le_length (by decide), List.take_of_length_le (by decide)]
        rw [fieldAt, e]
      rw [this, natLE_bytesLE, tHash, show (256 : Nat) ^ 64 = 2 ^ 512 by norm_num, Nat.mod_eq_of_lt (Config.sha3 tBody).isLt, BitVec.ofNat_toNat]
      simp
    have hc : ∀ rows, im.check 1 1 false false rows = 0 := by
      intro rows
      simp [Image.check, Image.step6, Image.signOk, Image.privContent, Image.basesOk, firstCode, a1, a2, a3, a4, a5, a6, a7, a8, a9, b1, b2, b3, b4, b5, hh]
    have hb : ∀ cold, tImageState.bindImage 0 l im 0 0 cold = some ⟨[], [], [], []⟩ := by
      intro cold
      cases cold <;> simp [State.bindImage, State.bindQuarters, bindAll, a4, a7, a8, b1]
    have : ∃ x, tImageState.loadImage 0 (tImageState.queue 0 0) l 0 0 = .ok x := by
      rw [State.loadImage, h1, hr]
      simp only [him, h2, h3]
      rw [show (tImageState.queue 0 0).sgn = false by decide, show (tImageState.queue 0 0).prv = false by decide, hc]
      have hq : tImageState.quartersWait 0 l im 0 0 = false := by simp [State.quartersWait, a4]
      simp only [ne_eq, not_true_eq_false, if_false, hq, Bool.false_eq_true, hb]
      exact ⟨_, rfl⟩
    obtain ⟨x, hx⟩ := this
    exact ⟨l, x, hl, hx⟩

/-! ### Jimel -/

open Sys2Proof.Jimel

/-- The word that a line stands for, with no symbol. -/
def tJimel (s : String) : Asm W128 := do asmLine (fun _ => none) (← readLine (stripComment s.toList))

/-- The three lines of COUNT3 (03). -/
theorem test_jimel_count3 :
    (tJimel "t0: pri 1 | p0 | -p0 +p1?p2 | cmp.s32.lt s1, s2, 3").toOption = some 0x90800000819500001400414082400003 ∧
      (tJimel "t1: pri 0 | p1 | -p1 +p0 | add.s32 s2, s2, 1").toOption = some 0x81800000808000001500814082000001 ∧
      (tJimel "t2: pri 0 | p2 | -p2 +p3 >L33 | mov.s32 _, s2").toOption = some 0x82800000838043001008014182000000 := by
  decide

/-- t9 of ROWCOPY (R236), t5 of STASHPAIR (R315), and the operation field of RED (R498). -/
theorem test_jimel_commands :
    (tJimel "t9: pri 0 | p9 | -p9 +p10 | rcopy.eq0.nw.module _, s8, s2, s12").toOption = some 0x898000008A80000063080402180C0000 ∧
      (tJimel "t5: pri 0 | p5 | -p5 | stash.b16.c7.eq0.nb.die _, s0, s2, _, 1, b4").toOption =
        some 0x85800000800000006578000282130082 ∧
      ((tJimel "pri 0 | p0 | - | red.s32.add.ord.ch1.module _, s8, s0").toOption.map fun w => w.extractLsb' 0 64) =
        some 0x4E08040030800000#64 := by
  decide

/-- Float immediates (R89), and a number that IMM21 does not take (R548). -/
theorem test_jimel_immediates :
    tJimel "pri 0 | p0 | - | mov.f32 s1, 0.1" = .error .inexact ∧
      ((tJimel "pri 0 | p0 | - | mov.f32 s1, -0.5").toOption.map fun w => (w.extractLsb' 0 21).toNat) = some (0xBF000000 / 2048) ∧
      tJimel "pri 0 | p0 | - | xor.n32 s1, s1, -1" = .error .range ∧
      tJimel "pri 0 | p0 | - | add.s32 s1, 1, 2" = .error .twoNumbers := by
  decide

/-- Expressions (R82): the order of operators, a pattern of 64 bits, division toward zero, and a shift count out of range. -/
theorem test_jimel_expressions :
    expr (fun _ => none) "1 + 2 * 3 << 1 | 0x10".toList = .ok 30 ∧
      expr (fun _ => none) "0xFFFF_FFFF_FFFF_FFFF".toList = .ok (-1) ∧
      expr (fun _ => none) "-7 / 2".toList = .ok (-3) ∧ expr (fun _ => none) "1 << 64".toList = .error .arithmetic ∧
      expr (fun _ => none) "18446744073709551616".toList = .error .number := by
  decide

/-- A transition takes the lowest index that no name pins (R84), whatever stands above it. -/
theorem test_jimel_indices :
    ((indexLines (["tB", "t0", "tC", "t2"].map fun s => ⟨1, ⟨some s.toList, [], [], [], []⟩, []⟩)).toOption.map
      fun l => l.map Prod.fst) = some [1, 0, 3, 2] := by
  decide

end Sys2Proof.Tests
end

section
/-! SUPPORT. What a freeze leaves of the other regions, and what the accesses of the device leave of the launch queues: the frame of the
state, and one lemma for each operation that keeps it. -/

namespace Sys2Proof.Machine

open Sys2Proof

/-! ### The frame -/

/-- What no cut, landing or engine command changes of a region: whose it is, where it stands, and whether, when and why it was stopped. -/
structure Stance where
  part   : Nat
  queue  : Nat
  launch : LaunchRec
  rect   : Nat × Nat × Nat × Nat
  rows   : Nat × Nat
  phase  : Phase
  why    : FreezeWhy
  stamp  : Nat

def Region.stance (r : Region) : Stance :=
  ⟨r.part, r.queue, r.launch, (r.x0, r.y0, r.w, r.h), (r.rlo, r.rhi), r.phase, r.why, r.stamp⟩

/-- The cycle, the stance of every region, and the queues of every partition with the appends that wait for them. -/
structure Frame where
  cycle  : Nat
  stance : Nat → Option Stance
  queues : Nat → List (Nat × LQueue)
  waits  : Nat → List (Nat × Nat)

def State.frame (s : State) : Frame :=
  ⟨s.cycle, fun n => (s.region n).map Region.stance, fun p => (s.part p).queues, fun p => (s.part p).appends⟩

theorem State.cycle_of_frame {s t : State} (h : t.frame = s.frame) : t.cycle = s.cycle := congrArg Frame.cycle h

theorem State.stance_of_frame {s t : State} (h : t.frame = s.frame) (n : Nat) :
    (t.region n).map Region.stance = (s.region n).map Region.stance := congrFun (congrArg Frame.stance h) n

theorem State.queue_of_frame {s t : State} (h : t.frame = s.frame) (p q : Nat) : t.queue p q = s.queue p q :=
  congrArg (SMap.get LQueue.reset q) (congrFun (congrArg Frame.queues h) p)

/-- A region that stands before an operation that keeps the frame stands after it. -/
theorem State.region_of_frame {s t : State} (h : t.frame = s.frame) {n : Nat} {r : Region} (hr : s.region n = some r) :
    ∃ g, t.region n = some g ∧ g.stance = r.stance := by
  have := State.stance_of_frame h n
  rw [hr, Option.map_some] at this
  exact Option.map_eq_some_iff.1 this

@[simp] theorem State.frame_ite (c : Prop) [Decidable c] (s t : State) : (if c then s else t).frame = if c then s.frame else t.frame :=
  apply_ite State.frame c s t

/-- A projection that every step of a fold keeps is kept by the fold. -/
theorem State.foldl_keeps {α β : Type} (π : State → β) {f : State → α → State} (h : ∀ s a, π (f s a) = π s) (xs : List α)
    (s : State) : π (xs.foldl f s) = π s := by
  induction xs generalizing s with
  | nil => rfl
  | cons a xs ih => exact (ih (f s a)).trans (h s a)

@[simp] theorem State.frame_foldl {α : Type} {f : State → α → State} (h : ∀ s a, (f s a).frame = s.frame) (xs : List α) (s : State) :
    (xs.foldl f s).frame = s.frame :=
  State.foldl_keeps State.frame h xs s

/-! ### Fields outside the frame -/

@[simp] theorem State.frame_setElem (s : State) (e : Nat) (x : Elem) : (s.setElem e x).frame = s.frame := (rfl)
@[simp] theorem State.frame_setCore (s : State) (c : Nat) (x : Core) : (s.setCore c x).frame = s.frame := (rfl)
@[simp] theorem State.frame_setEngine (s : State) (g : Nat) (x : Engine) : (s.setEngine g x).frame = s.frame := (rfl)
@[simp] theorem State.frame_setPchan (s : State) (k : Nat) (x : PChan) : (s.setPchan k x).frame = s.frame := (rfl)
@[simp] theorem State.frame_flight (s : State) (x : List Flight) : ({ s with flight := x } : State).frame = s.frame := (rfl)
@[simp] theorem State.frame_l2 (s : State) (x : List (Nat × Bool)) : ({ s with l2 := x } : State).frame = s.frame := (rfl)
@[simp] theorem State.frame_free (s : State) (x : Nat) : ({ s with free := x } : State).frame = s.frame := (rfl)
@[simp] theorem State.frame_pres (s : State) (x : List Nat) : ({ s with pres := x } : State).frame = s.frame := (rfl)
@[simp] theorem State.frame_updates (s : State) (x : List (Nat × Slot)) : ({ s with updates := x } : State).frame = s.frame := (rfl)
@[simp] theorem State.frame_mfq (s : State) (x : List FaultRec) : ({ s with mfq := x } : State).frame = s.frame := (rfl)

/-- A region that takes a change of the same stance. -/
theorem State.frame_setRegion {s : State} {n : Nat} {r x : Region} (hr : s.region n = some r) (hx : x.stance = r.stance) :
    (s.setRegion n x).frame = s.frame := by
  have h : ∀ m, ((s.setRegion n x).region m).map Region.stance = (s.region m).map Region.stance := by
    intro m
    by_cases hm : m = n
    · rw [hm, State.region_setRegion_self, hr, Option.map_some, Option.map_some, hx]
    · rw [State.region_setRegion_ne s hm]
  exact congrArg (fun f => (⟨s.cycle, f, _, _⟩ : Frame)) (funext h)

theorem State.frame_modRegion (s : State) (n : Nat) (f : Region → Region) (h : ∀ r, (f r).stance = r.stance := by exact fun _ => rfl) :
    (s.modRegion n f).frame = s.frame := by
  unfold State.modRegion
  split
  · rename_i r hr
    exact State.frame_setRegion hr (h r)
  · rfl

theorem State.frame_modPart (s : State) (p : Nat) (f : Part → Part) (hq : ∀ x, (f x).queues = x.queues := by exact fun _ => rfl)
    (ha : ∀ x, (f x).appends = x.appends := by exact fun _ => rfl) : (s.modPart p f).frame = s.frame := by
  have h : ∀ k, (s.modPart p f).part k = if p = k ∧ k < 8 then f (s.part p) else s.part k := fun k => vget_vset ..
  have h1 : ∀ k, ((s.modPart p f).part k).queues = (s.part k).queues := by
    intro k
    rw [h]
    split
    · rename_i hk
      rw [hq, hk.1]
    · rfl
  have h2 : ∀ k, ((s.modPart p f).part k).appends = (s.part k).appends := by
    intro k
    rw [h]
    split
    · rename_i hk
      rw [ha, hk.1]
    · rfl
  have h3 : (s.modPart p f).region = s.region := rfl
  simp only [State.frame, h1, h2, h3]
  rfl

@[simp] theorem State.frame_setPort (s : State) (c k : Nat) (p : Port) : (s.setPort c k p).frame = s.frame := (rfl)
@[simp] theorem State.frame_setBar (s : State) (c b : Nat) (x : Bar) : (s.setBar c b x).frame = s.frame := (rfl)
@[simp] theorem State.frame_setSlot (s : State) (e k : Nat) (y : Slot) : (s.setSlot e k y).frame = s.frame := (rfl)
@[simp] theorem State.frame_setEntry (s : State) (g q : Nat) (t : Entry) : (s.setEntry g q t).frame = s.frame := (rfl)
@[simp] theorem State.frame_dropEntry (s : State) (g q : Nat) (t : Entry) : (s.dropEntry g q t).frame = s.frame := (rfl)
@[simp] theorem State.frame_irq (s : State) (p v : Nat) : (s.irq p v).frame = s.frame := (rfl)
@[simp] theorem State.frame_setModReg (s : State) (o v : Nat) : (s.setModReg o v).frame = s.frame := (rfl)
@[simp] theorem State.frame_dropEntries (s : State) (rn : Nat) : (s.dropEntries rn).frame = s.frame := (rfl)
@[simp] theorem State.frame_dropFaults (s : State) (rn : Nat) : (s.dropFaults rn).frame = s.frame := (rfl)
@[simp] theorem State.frame_l2Put (s : State) (d : Bool) (l : Nat) : (s.l2Put d l).frame = s.frame := (rfl)
@[simp] theorem State.frame_put (s : State) (raw : Bool) (a : Nat) (bs : List Byte) : (s.put raw a bs).frame = s.frame := (rfl)
@[simp] theorem State.frame_changed (s : State) (c : Nat) : (s.changed c).frame = s.frame := (rfl)
@[simp] theorem State.frame_boxUse (s : State) (c k : Nat) : (s.boxUse c k).frame = s.frame := (rfl)
@[simp] theorem State.frame_credit (s : State) (c k n : Nat) : (s.credit c k n).frame = s.frame := (rfl)
@[simp] theorem State.frame_completeWith (s : State) (e : Nat) (f : Effect) : (s.completeWith e f).frame = s.frame := (rfl)
@[simp] theorem State.frame_dropPosted (s : State) (e : Nat) (y : Slot) : (s.dropPosted e y).frame = s.frame := (rfl)
@[simp] theorem State.frame_setPosted (s : State) (e : Nat) (y : Slot) : (s.setPosted e y).frame = s.frame := (rfl)
@[simp] theorem State.frame_takePort (s : State) (e : Nat) : (s.takePort e).frame = s.frame := (rfl)
@[simp] theorem State.frame_formTokens (s : State) (e k : Nat) (ts : List Token) (p : Bool) : (s.formTokens e k ts p).frame = s.frame := (rfl)

@[simp] theorem State.frame_modPort (s : State) (c k : Nat) (f : Port → Port) : (s.modPort c k f).frame = s.frame := by
  unfold State.modPort
  split <;> rfl

@[simp] theorem State.frame_portPop (s : State) (c k : Nat) (f : Port → Port) : (s.portPop c k f).frame = s.frame := s.frame_modPort c k _

@[simp] theorem State.frame_credits (s : State) (t : Entry) (o : FmtE) (b n : Nat) : (s.credits t o b n).frame = s.frame := by
  simp [State.credits]

@[simp] theorem State.frame_setProg (s : State) (e k n : Nat) : (s.setProg e k n).frame = s.frame := by
  unfold State.setProg
  split <;> rfl

@[simp] theorem State.frame_performed (s : State) (e k : Nat) (v : VW) : (s.performed e k v).frame = s.frame := by
  unfold State.performed
  split <;> rfl

@[simp] theorem State.frame_setTlb (s : State) (c : Nat) (m : List (Nat × W64)) : (s.setTlb c m).frame = s.frame := by
  unfold State.setTlb
  split <;> rfl

@[simp] theorem State.frame_spend (s : State) (xs : List (Nat × Nat)) : (s.spend xs).frame = s.frame := by
  unfold State.spend
  split <;> rfl

@[simp] theorem State.frame_pick (s : State) (n : Nat) : (s.pick n).1.frame = s.frame := by
  unfold State.pick
  split <;> rfl

@[simp] theorem State.frame_startColl (s : State) (t : Entry) (g : Nat) : (s.startColl t g).1.frame = s.frame := by
  unfold State.startColl
  split <;> rfl

/-! ### Translation and faults -/

@[simp] theorem State.frame_fillTlb (s : State) (c p va : Nat) : (s.fillTlb c p va).frame = s.frame := by
  unfold State.fillTlb
  dsimp only
  split
  · rfl
  · split
    · exact State.frame_setTlb ..
    · rfl

@[simp] theorem State.frame_fillRun (s : State) (c p va n : Nat) : (s.fillRun c p va n).frame = s.frame := by
  simp [State.fillRun]

@[simp] theorem State.frame_hold (s : State) (a : FaultAt) (h : Bool) : (s.hold a h).frame = s.frame := by
  cases a <;> simp [State.hold]

@[simp] theorem State.frame_raiseFault (s : State) (f : FaultSrc) : (s.raiseFault f).frame = s.frame := s.frame_hold f.at_ true

@[simp] theorem State.frame_failEntry (s : State) (g q : Nat) (t : Entry) (c a : Nat) : (s.failEntry g q t c a).frame = s.frame := by
  unfold State.failEntry
  split
  · rfl
  · exact s.frame_raiseFault _

@[simp] theorem State.frame_failSlot (s : State) (e k c a : Nat) : (s.failSlot e k c a).frame = s.frame := by
  unfold State.failSlot
  split
  · rfl
  · exact s.frame_raiseFault _

@[simp] theorem State.frame_failPort (s : State) (c k code a : Nat) : (s.failPort c k code a).frame = s.frame := s.frame_raiseFault _

@[simp] theorem State.frame_askCut (s : State) (r : Option Nat) : (s.askCut r).frame = s.frame := by
  cases r with
  | none => rfl
  | some r =>
    unfold State.askCut
    exact s.frame_modRegion r _

@[simp] theorem State.frame_askSecond (s : State) (r : Option Nat) : (s.askSecond r).frame = s.frame := by
  cases r with
  | none => rfl
  | some r =>
    unfold State.askSecond
    exact s.frame_modRegion r _

/-! ### Writes at the home -/

@[simp] theorem State.frame_writeBack (s : State) (e : Nat) (g : Nat × Nat) : (s.writeBack e g).frame = s.frame := by
  simp [State.writeBack]

@[simp] theorem State.frame_recall (s : State) (a n : Nat) : (s.recall a n).frame = s.frame := by
  simp [State.recall]

@[simp] theorem State.frame_holdLine (s : State) (w : Writer) (l : Nat) : (s.holdLine w l).frame = s.frame := by
  unfold State.holdLine
  split
  · rfl
  · split
    · rfl
    · refine s.frame_modRegion _ _ fun r => ?_
      split <;> rfl

theorem SMap.find_map {α β : Type} (f : Nat → α → β) (k : Nat) (m : List (Nat × α)) :
    SMap.find k (m.map fun g => (g.1, f g.1 g.2)) = (SMap.find k m).map (f k) := by
  induction m with
  | nil => rfl
  | cons p m ih =>
    simp only [List.map_cons, SMap.find, ih]
    split
    · rename_i h
      rw [h, Option.map_some]
    · split <;> rfl

/-- Regions that all change without a change of stance. -/
theorem State.frame_mapRegions (s : State) (f : Nat → Region → Region) (h : ∀ n r, (f n r).stance = r.stance) :
    ({ s with regions := s.regions.map fun g => (g.1, f g.1 g.2) } : State).frame = s.frame := by
  refine congrArg (fun z => (⟨s.cycle, z, _, _⟩ : Frame)) (funext fun n => ?_)
  refine (congrArg (Option.map Region.stance) (SMap.find_map f n s.regions)).trans ?_
  rw [Option.map_map]
  exact Option.map_congr fun g _ => h n g

@[simp] theorem State.frame_ownWords (s : State) (w : Writer) (a n : Nat) : (s.ownWords w a n).frame = s.frame := by
  unfold State.ownWords
  extract_lets now one
  have hone : ∀ k g, (one k g).stance = g.stance := fun k g => by
    show (if some k == w.reg && w.hold then _ else _ : Region).stance = _
    split <;> rfl
  split
  · rfl
  · refine s.frame_mapRegions (fun k g => if g.hold.isEmpty then g else one k g) fun k g => ?_
    split
    · rfl
    · exact hone k g

@[simp] theorem State.frame_homePut (s : State) (w : Writer) (raw : Bool) (a : Nat) (bs : List Byte) :
    (s.homePut w raw a bs).frame = s.frame := by
  unfold State.homePut
  extract_lets t u v
  have hu : u.frame = s.frame := by simp [u, t]
  have hv : v.frame = u.frame := by
    show (if u.lent.isEmpty then _ else _ : State).frame = _
    split
    · exact u.frame_put raw a bs
    · refine State.frame_foldl (fun s x => ?_) _ u
      dsimp only
      split <;> rfl
  simp [hv, hu]

@[simp] theorem State.frame_testElem (s : State) (a n e : Nat) : (s.testElem a n e).frame = s.frame := by
  unfold State.testElem
  dsimp only
  split
  · rfl
  · split <;> rfl

@[simp] theorem State.frame_testWatches (s : State) (a n : Nat) : (s.testWatches a n).frame = s.frame := by
  simp [State.testWatches]

@[simp] theorem State.frame_devWrite (s : State) (w : Writer) (a : Nat) (bs : List Byte) : (s.devWrite w a bs).frame = s.frame := by
  simp [State.devWrite]

/-- The rows of a native write, each with the bytes that are left for those behind it. -/
theorem State.frame_homePuts (w : Writer) (rs : List (Nat × Nat)) (s : State) (bs : List Byte) :
    (rs.foldl (fun (m : State × List Byte) r => (m.1.homePut w true r.1 (m.2.take r.2), m.2.drop r.2)) (s, bs)).1.frame = s.frame := by
  induction rs generalizing s bs with
  | nil => rfl
  | cons r rs ih => exact (ih _ _).trans (s.frame_homePut w true r.1 _)

@[simp] theorem State.frame_rowWrite (s : State) (w : Writer) (rs : List (Nat × Nat)) (bs : List Byte) :
    (s.rowWrite w rs bs).frame = s.frame := by
  unfold State.rowWrite
  simp [State.frame_homePuts]

@[simp] theorem State.frame_writeLoc (s : State) (w : Writer) (va : Nat) (l : Loc) (bs : List Byte) :
    (s.writeLoc w va l bs).frame = s.frame := by
  unfold State.writeLoc
  split
  · split
    · exact s.frame_rowWrite ..
    · exact s.frame_devWrite ..
  · rfl
  · rfl

@[simp] theorem State.frame_writeRun (s : State) (w : Writer) (va : Nat) (ls : List (Loc × Nat)) (bs : List Byte) :
    (s.writeRun w va ls bs).frame = s.frame := by
  induction ls generalizing s va bs with
  | nil => rfl
  | cons x ls ih => exact (ih _ _ _).trans (s.frame_writeLoc ..)

@[simp] theorem State.frame_rawWrite (s : State) (ls : List (Loc × Nat)) (bs : List Byte) : (s.rawWrite ls bs).frame = s.frame := by
  induction ls generalizing s bs with
  | nil => rfl
  | cons x ls ih => exact (ih _ _).trans (s.frame_put ..)

theorem State.frame_ownWrite {s t : State} {p va : Nat} {bs : List Byte} {a : Access} (h : s.ownWrite p va bs a = .ok t) :
    t.frame = s.frame := by
  unfold State.ownWrite at h
  split at h
  · cases h
    exact s.frame_writeRun ..
  · cases h
  · cases h

@[simp] theorem State.frame_counterAdd (s : State) (p a : Nat) (d : Int) : (s.counterAdd p a d).1.frame = s.frame := by
  unfold State.counterAdd
  split
  · rfl
  · dsimp only
    split
    · rfl
    · rename_i t h
      exact State.frame_ownWrite h

/-! ### Records -/

@[simp] theorem State.frame_countFlts (s : State) (p lo w : Nat) : (s.countFlts p lo w).frame = s.frame := by
  unfold State.countFlts
  refine s.frame_modPart p _ (fun x => ?_) (fun x => ?_)
  · split <;> rfl
  · split <;> rfl

theorem State.frame_moduleWrite {s t : State} {f : FaultRec} (h : s.moduleWrite f = some t) : t.frame = s.frame := by
  unfold State.moduleWrite at h
  dsimp only at h
  split at h
  · cases h
  · cases h
    simp

@[simp] theorem State.frame_flushModule (s : State) (n : Nat) : (s.flushModule n).frame = s.frame := by
  induction n generalizing s with
  | zero => rfl
  | succ n ih =>
    unfold State.flushModule
    split
    · rfl
    · split
      · rename_i t h
        exact (ih _).trans ((State.frame_mfq t _).trans (State.frame_moduleWrite h))
      · rfl

@[simp] theorem State.frame_postModule (s : State) (f : FaultRec) : (s.postModule f).frame = s.frame :=
  (State.frame_flushModule _ _).trans (s.frame_mfq _)

@[simp] theorem State.frame_ringWrite (s : State) (p : Nat) (f : FaultRec) : (s.ringWrite p f).1.frame = s.frame := by
  unfold State.ringWrite
  dsimp only
  split
  · rfl
  · split
    · rename_i t h
      have ht := (t.frame_modPart p fun x => { x with fqt := x.fqt + 1, ringBad := false }).trans (State.frame_ownWrite h)
      split <;> exact ht
    · split
      · rfl
      · exact (State.frame_postModule _ _).trans (s.frame_modPart p _)

@[simp] theorem State.frame_number (s : State) (p : Nat) (f : FaultRec) : (s.number p f).1.frame = s.frame := by
  unfold State.number
  exact s.frame_modPart p _

@[simp] theorem State.frame_postTransient (s : State) (p : Nat) (f : FaultRec) : (s.postTransient p f).frame = s.frame := by
  unfold State.postTransient
  dsimp only
  split
  · split
    · simp
    · refine (State.frame_countFlts _ p 0 12).trans ?_
      refine Eq.trans (State.frame_modPart _ p fun x => { x with rseq := (s.part p).rseq }) ?_
      simp
  · simp

@[simp] theorem State.frame_transient (s : State) (rn : Nat) (f : FaultRec) : (s.transient rn f).frame = s.frame := by
  unfold State.transient
  split
  · simp
  · rfl

/-- A record that stops no region. -/
@[simp] theorem State.frame_postRecord (s : State) (p : Nat) (f : FaultRec) : (s.postRecord p f none).1.frame = s.frame := by
  unfold State.postRecord
  dsimp only
  have hw : ∀ t : State, (t.modPart p fun x => { x with recs := x.recs ++ [((s.number p f).2, none)] }).frame = t.frame :=
    fun t => t.frame_modPart p _
  split <;> simp [hw]

end Sys2Proof.Machine
end

section
/-! SUPPORT. The engines, the posted operations, the updates and the ports keep the frame. -/

namespace Sys2Proof.Machine

open Sys2Proof

/-! ### What every engine shares -/

@[simp] theorem State.frame_freePort (s : State) (t : Entry) : (s.freePort t).frame = s.frame := by
  simp [State.freePort]

@[simp] theorem State.frame_finishEntry (s : State) (g q : Nat) (t : Entry) (v : Nat) : (s.finishEntry g q t v).frame = s.frame := by
  unfold State.finishEntry
  split
  · rfl
  · simp

@[simp] theorem State.frame_payloadDone (s : State) (g q : Nat) (t : Entry) (n : Nat) (c : VW) (v : Nat) :
    (s.payloadDone g q t n c v).frame = s.frame := by
  unfold State.payloadDone
  split
  · extract_lets u v
    refine (State.frame_modRegion _ t.reg _).trans ?_
    show (match u.slot t.elem t.slot with | some y => _ | none => u : State).frame = _
    split <;> rfl
  · simp

theorem State.frame_engAccess {s : State} {g q : Nat} {t : Entry} {c va n : Nat} {a : Access} {act : List (Loc × Nat) → State → State}
    (h : ∀ ls s, (act ls s).frame = s.frame) : (s.engAccess g q t c va n a act).frame = s.frame := by
  unfold State.engAccess
  split
  · exact s.frame_failEntry ..
  · rfl
  · exact (h ..).trans (s.frame_fillRun ..)

theorem State.frame_engFar {s : State} {g q : Nat} {t : Entry} {ls : List (Loc × Nat)} {act : State → State}
    (h : ∀ s, (act s).frame = s.frame) : (s.engFar g q t ls act).frame = s.frame := by
  unfold State.engFar
  split
  · simp
  · exact h s

theorem State.frame_engBudget {s : State} {g q : Nat} {t : Entry} {ls : List (Loc × Nat)} {act : State → State}
    (h : ∀ s, (act s).frame = s.frame) : (s.engBudget g q t ls act).frame = s.frame := by
  unfold State.engBudget
  split
  · simp
  · exact h s

theorem State.frame_serve {s : State} {g q : Nat} {act : Entry → Slot → State → State} (h : ∀ t y s, (act t y s).frame = s.frame) :
    (s.serve g q act).frame = s.frame := by
  unfold State.serve
  dsimp only
  split
  · rfl
  · split
    · rfl
    · split
      · rfl
      · split
        · rfl
        · exact h ..

@[simp] theorem State.frame_makeNote (s : State) (r : Nat) (forced : Bool) (n : DefNote) : (s.makeNote r forced n).frame = s.frame := by
  unfold State.makeNote
  split
  · split
    · exact s.frame_modRegion r _
    · split
      · rfl
      · refine State.frame_engAccess fun ls s => ?_
        have hm : ∀ u : State, (u.modRegion r fun x => { x with defNote := x.defNote.filter fun m => m.at_ != n.at_ }).frame = u.frame :=
          fun u => u.frame_modRegion r _
        split
        · simp
        · simp [hm]
  · rfl

/-! ### The copy engine and the row sequencer -/

@[simp] theorem State.frame_clearPresence (s : State) (e : Nat) (ls : List (Loc × Nat)) : (s.clearPresence e ls).frame = s.frame := by
  unfold State.clearPresence
  extract_lets words was u w
  split
  · exact u.frame_modRegion _ _
  · rfl

theorem frame_copyChunk (o : FmtE) (fill : Bool) (g q : Nat) (t : Entry) (y : Slot) (s : State) :
    (copyChunk o fill g q t y s).frame = s.frame := by
  unfold copyChunk
  extract_lets n c m dst src t1 go
  have hgo : ∀ bs s, (go bs s).frame = s.frame := by
    intro bs s
    refine State.frame_engAccess fun ls s => State.frame_engFar fun s => State.frame_engBudget fun s => ?_
    split
    · rfl
    · simp
  split
  · rfl
  · split
    · simp
    · split
      · exact hgo _ s
      · exact State.frame_engAccess fun rs s => hgo _ s

theorem frame_serveCopy (g q : Nat) (t : Entry) (y : Slot) (s : State) : (serveCopy g q t y s).frame = s.frame := by
  unfold serveCopy
  split
  · exact frame_copyChunk ..
  · exact frame_copyChunk ..
  · simp
  · simp
  · rfl

@[simp] theorem State.frame_rowCopy (s : State) (w : Writer) (l : Loc) (m : Option Loc) : (s.rowCopy w l m).frame = s.frame := by
  unfold State.rowCopy
  extract_lets u bs v
  have hu : u.frame = s.frame := by cases m <;> rfl
  have hv : v.frame = u.frame := u.frame_rowWrite ..
  split
  · exact hu
  · exact (v.frame_l2 _).trans (hv.trans hu)

theorem frame_rowTransfer1 (o : FmtE) (copy : Bool) (g q : Nat) (t : Entry) (y : Slot) (s : State) :
    (rowTransfer1 o copy g q t y s).frame = s.frame := by
  unfold rowTransfer1
  dsimp only
  split
  · rfl
  · split
    · simp
    · split
      · simp
      · rfl
      · rfl
      · split
        · rfl
        · simp

theorem frame_serveRow (g q : Nat) (t : Entry) (y : Slot) (s : State) : (serveRow g q t y s).frame = s.frame := by
  unfold serveRow
  split
  · exact frame_rowTransfer1 ..
  · exact frame_rowTransfer1 ..
  · rfl

/-! ### Bank multiply-accumulate -/

@[simp] theorem State.frame_modPchan (s : State) (t : Entry) (k : Nat) (f : PChan → PChan) : (s.modPchan t k f).frame = s.frame := by
  unfold State.modPchan
  refine (State.frame_modRegion _ t.reg _ fun r => ?_).trans (s.frame_setPchan k _)
  dsimp only
  split <;> rfl

theorem frame_serveMac (g q : Nat) (t : Entry) (y : Slot) (s : State) : (serveMac g q t y s).frame = s.frame := by
  unfold serveMac
  split
  · simp
  · rfl
  · dsimp only
    split
    · simp
    · simp
    · simp
    · simp
    · simp
    · rfl

/-! ### Ports -/

@[simp] theorem State.frame_portStore (s : State) (c k : Nat) (p : Port) (t : Token) : (s.portStore c k p t).frame = s.frame := by
  unfold State.portStore
  split
  · simp
  · extract_lets a bs part
    split
    · simp
    · rfl
    · simp

theorem Region.stance_capturePort (r : Region) (c k n : Nat) (p : Port) : (r.capturePort c k n p).stance = r.stance := by
  unfold Region.capturePort
  split
  · rfl
  · split
    · split <;> rfl
    · rfl

@[simp] theorem State.frame_portWrite (s : State) (c k : Nat) : (s.portWrite c k).frame = s.frame := by
  unfold State.portWrite
  split
  · rfl
  · split
    · rfl
    · split
      · split
        · dsimp only
          split
          · simp
          · exact (State.frame_modRegion _ _ _ fun r => r.stance_capturePort ..).trans (s.frame_portPop c k _)
        · rfl
      all_goals simp

@[simp] theorem State.frame_skipMarkers (s : State) (c k n : Nat) : (s.skipMarkers c k n).1.frame = s.frame := by
  induction n generalizing s with
  | zero => rfl
  | succ n ih =>
    unfold State.skipMarkers
    split
    · rfl
    · split
      · rfl
      · split
        · rfl
        · split
          · exact (ih _).trans (s.frame_portWrite c k)
          · exact (ih _).trans (s.frame_portPop c k id)

@[simp] theorem State.frame_nextAt (s : State) (c k : Nat) : (s.nextAt c k).1.frame = s.frame := s.frame_skipMarkers c k _

@[simp] theorem State.frame_servePort (s : State) (pn : Nat) (t : Entry) (n f : Nat) : (s.servePort pn t n f).frame = s.frame :=
  s.frame_modPort _ pn _

/-! ### The codecs -/

@[simp] theorem State.frame_setStp (s : State) (r : Nat) (b : Bool) : (s.setStp r b).frame = s.frame := by
  unfold State.setStp
  split
  · exact s.frame_modRegion r _
  · rfl

theorem State.frame_stashAccess {s : State} {g q : Nat} {t : Entry} {va n : Nat} {a : Access} {act : List (Loc × Nat) → State → State}
    (h : ∀ ls s, (act ls s).frame = s.frame) : (s.stashAccess g q t va n a act).frame = s.frame := by
  refine State.frame_engAccess fun ls s => ?_
  split
  · simp
  · exact h ls s

theorem frame_stashChunk1 (o : FmtE) (g q : Nat) (t : Entry) (y : Slot) (s : State) : (stashChunk1 o g q t y s).frame = s.frame := by
  unfold stashChunk1
  dsimp only
  split
  · rfl
  · split
    · rfl
    · split
      · rfl
      · split
        · have hn := State.frame_nextAt (s.modPort (coreOf t.elem) (stashPort o) fun p => { p with cmd := some (t.elem, t.slot) }) (coreOf t.elem)
            (stashPort o)
          rw [State.frame_modPort] at hn
          split
          · rename_i h
            rw [h] at hn
            exact hn
          · rename_i h
            rw [h] at hn
            simp [hn]
        · split
          · simp
          · refine (State.frame_stashAccess fun ls s => ?_).trans ?_
            · simp
            · simp

theorem frame_unstashPort1 (o : FmtE) (g q : Nat) (t : Entry) (y : Slot) (s : State) : (unstashPort1 o g q t y s).frame = s.frame := by
  unfold unstashPort1
  dsimp only
  split
  · simp
  · split
    · rfl
    · split
      · rfl
      · split
        · simp
        · split
          · simp
          · refine (State.frame_stashAccess fun ls s => ?_).trans ?_
            · simp
            · simp

theorem frame_unstashWrite (o : FmtE) (g q : Nat) (y : Slot) (n : Nat) (t : Entry) (s : State) :
    (unstashWrite o g q y n t s).frame = s.frame := by
  induction n generalizing t s with
  | zero => rfl
  | succ n ih =>
    unfold unstashWrite
    refine State.frame_engAccess fun ds s => State.frame_engBudget fun s => ?_
    split
    · simp [ih]
    · simp

theorem frame_unstashMem1 (o : FmtE) (g q : Nat) (t : Entry) (y : Slot) (s : State) : (unstashMem1 o g q t y s).frame = s.frame := by
  unfold unstashMem1
  extract_lets n u bb b nb
  split
  · simp
  · split
    · exact frame_unstashWrite ..
    · refine State.frame_stashAccess fun ls s => ?_
      simp [frame_unstashWrite]

theorem frame_unstashChunk1 (o : FmtE) (g q : Nat) (t : Entry) (y : Slot) (s : State) : (unstashChunk1 o g q t y s).frame = s.frame := by
  unfold unstashChunk1
  split
  · rfl
  · split
    · exact frame_unstashMem1 ..
    · exact frame_unstashPort1 ..

/-! ### Gather and scatter -/

theorem State.frame_indexRow {s : State} {g q : Nat} {t : Entry} {y : Slot} {o : FmtE} {j : Nat} {act : Nat → State → State}
    (h : ∀ a s, (act a s).frame = s.frame) : (s.indexRow g q t y o j act).frame = s.frame := by
  refine State.frame_engAccess fun ls s => ?_
  split
  · simp
  · exact h _ s

theorem frame_gathRow1 (o : FmtE) (g q : Nat) (t : Entry) (y : Slot) (s : State) : (gathRow1 o g q t y s).frame = s.frame := by
  unfold gathRow1
  dsimp only
  split
  · rfl
  · split
    · simp
    · split
      · rfl
      · split
        · rfl
        · generalize hu : s.servePort _ t _ y.prog = u
          have hf : u.frame = s.frame := by rw [← hu, State.frame_servePort]
          split
          · exact hf
          · split
            · exact hf
            · generalize hv : (if t.part ≠ 0 then (u, 0) else u.pick _) = v
              have hp : v.1.frame = s.frame := by
                rw [← hv]
                split
                · exact hf
                · exact (u.frame_pick _).trans hf
              split
              · refine (State.frame_indexRow fun a s => ?_).trans ?_
                · simp
                · simp [hp]
              · refine (State.frame_engAccess fun ls s => ?_).trans ?_
                · simp
                · simp [hp]

@[simp] theorem State.frame_scatDone (s : State) (g q : Nat) (t : Entry) : (s.scatDone g q t).frame = s.frame := by
  unfold State.scatDone
  extract_lets lead
  split
  · simp
  · rfl

theorem frame_scatWrite (o : FmtE) (g q : Nat) (t : Entry) (r : RowPlan) (s : State) : (scatWrite o g q t r s).frame = s.frame := by
  refine State.frame_engAccess fun ls s => State.frame_engBudget fun s => ?_
  simp

@[simp] theorem State.frame_scatToken (s : State) (c pn : Nat) : (s.scatToken c pn).1.frame = s.frame := by
  unfold State.scatToken
  split
  · rfl
  · have hn := s.frame_nextAt c pn
    split
    · rename_i h
      rw [h] at hn
      split
      · simp [hn]
      · exact hn
    · exact hn

theorem frame_scatRow1 (o : FmtE) (g q : Nat) (t : Entry) (y : Slot) (s : State) : (scatRow1 o g q t y s).frame = s.frame := by
  unfold scatRow1
  dsimp only
  split
  · rfl
  · split
    · rfl
    · split
      · rfl
      · generalize hu : (s.modPort (coreOf t.elem) (o.imm.toNat % 8) fun p => { p with cmd := some (t.elem, t.slot) }) = u
        have hf : u.frame = s.frame := by rw [← hu, State.frame_modPort]
        split
        · have hn := u.frame_nextAt (coreOf t.elem) (o.imm.toNat % 8)
          split
          · rename_i h
            rw [h] at hn
            exact hn.trans hf
          · rename_i h
            rw [h] at hn
            simp [hn, hf]
        · generalize hv : (if t.full = 2 || countOf y ≤ y.prog + t.plan.length || 32 ≤ t.plan.length then (u, none)
            else u.scatToken (coreOf t.elem) (o.imm.toNat % 8)) = v
          have hv : v.1.frame = s.frame := by
            rw [← hv]
            split
            · exact hf
            · exact (u.frame_scatToken _ _).trans hf
          generalize hw : v.1.pick _ = w
          have hw : w.1.frame = s.frame := by rw [← hw, State.frame_pick, hv]
          split
          · exact (frame_scatWrite ..).trans hw
          · split
            · exact hw
            · split
              · exact (w.1.frame_failEntry ..).trans hw
              · refine (State.frame_indexRow fun a s => ?_).trans hw
                simp

/-! ### Collectives -/

theorem frame_collChunk (o : FmtE) (ps : List PeerColl) (gr : Group) (g q : Nat) (t : Entry) (y : Slot) (s : State) :
    (collChunk o ps gr g q t y s).frame = s.frame := by
  unfold collChunk
  extract_lets c need out
  split
  · rfl
  · refine State.frame_engAccess fun ss s => State.frame_engAccess fun ds s => State.frame_engBudget fun s => ?_
    simp

theorem frame_collStep (o : FmtE) (ps : List PeerColl) (g q : Nat) (t : Entry) (y : Slot) (s : State) :
    (collStep o ps g q t y s).frame = s.frame := by
  unfold collStep
  extract_lets c
  split
  · rfl
  · split
    · simp
    · refine State.frame_engAccess fun hs s => ?_
      extract_lets h gr0
      split
      · simp
      · refine State.frame_engAccess fun ms s => ?_
        simp [frame_collChunk]

end Sys2Proof.Machine
end

section
/-! SUPPORT. Updates, arrays, completions, landing, matrix passes and cuts keep the frame; so a freeze changes no region but its own. -/

namespace Sys2Proof.Machine

open Sys2Proof

/-! ### What serves an engine -/

theorem State.frame_serveEngine (s : State) (g q : Nat) : (nextOr (s.serveEngine g q) s).frame = s.frame := by
  unfold State.serveEngine
  split
  · show (if _ then s.serve g q _ else s).frame = _
    split
    · exact State.frame_serve (frame_serveCopy g q)
    · rfl
  · show (if _ then s.serve g q _ else s).frame = _
    split
    · exact State.frame_serve (frame_serveRow g q)
    · rfl
  · show (if _ then s.serve g q _ else s).frame = _
    split
    · exact State.frame_serve (frame_serveMac g q)
    · rfl
  · split
    · show (match s.headIns g q with | some (.scat _ o) => s.serve g q (scatRow1 o g q) | _ => s : State).frame = _
      split
      · exact State.frame_serve (frame_scatRow1 _ g q)
      · rfl
    · show (match s.headIns g q with | some (.gath _ o) => s.serve g q (gathRow1 o g q) | _ => s : State).frame = _
      split
      · exact State.frame_serve (frame_gathRow1 _ g q)
      · rfl
  · split
    · show (match s.headIns g q with | some (.unstash _ o) => s.serve g q (unstashChunk1 o g q) | _ => s : State).frame = _
      split
      · exact State.frame_serve (frame_unstashChunk1 _ g q)
      · rfl
    · show (match s.headIns g q with | some (.stash _ o) => s.serve g q (stashChunk1 o g q) | _ => s : State).frame = _
      split
      · exact State.frame_serve (frame_stashChunk1 _ g q)
      · rfl
  · show (match s.headIns g q with | some (.coll _ o) => s.serve g q (collStep o [] g q) | _ => s : State).frame = _
    split
    · exact State.frame_serve (frame_collStep _ [] g q)
    · rfl

/-! ### Updates and posted operations -/

@[simp] theorem State.frame_answerUpdate (s : State) (e : Nat) (y : Slot) (old : Nat) : (s.answerUpdate e y old).frame = s.frame := by
  unfold State.answerUpdate
  split
  · rfl
  · split
    · simp
    · rfl

@[simp] theorem State.frame_applied (s : State) (us : List (Nat × Slot)) : (s.applied us).frame = s.frame := by
  refine State.frame_foldl (fun s u => ?_) us s
  split
  · simp
  · rfl

@[simp] theorem State.frame_holdAll (s : State) (us : List (Nat × Slot)) (ls : List (Loc × Nat)) : (s.holdAll us ls).frame = s.frame := by
  refine State.frame_foldl (fun s u => State.frame_foldl (fun s x => ?_) ls s) us s
  split
  · rfl
  · simp

@[simp] theorem State.frame_updateAt (s : State) (e : Nat) (y : Slot) (va n : Nat) (ls : List (Loc × Nat)) :
    (s.updateAt e y va n ls).1.frame = s.frame := by
  unfold State.updateAt
  dsimp only
  split
  · simp
  · rfl

@[simp] theorem State.frame_sparseUpdate1 (s : State) (n : Nat) (repair : Bool) : (s.sparseUpdate1 n repair).frame = s.frame := by
  unfold State.sparseUpdate1
  split
  · rfl
  · split
    · rfl
    · split
      · rfl
      · extract_lets side a m w all with_ us vs v s1
        have hside : ∀ code, (side code).frame = s.frame := fun code => by
          simp only [side]
          split <;> rfl
        split
        · exact hside _
        · split
          · split
            · simp
            · have h1 : s1.frame = s.frame := by
                simp only [s1]
                split <;> rfl
              split
              rename_i ls _ _ _ t old ht
              have h2 : t.frame = s.frame := by
                rw [show t = _ from (congrArg Prod.fst ht).symm]
                simp [h1]
              simp [h2]
          · exact hside _
          · exact hside _

@[simp] theorem State.frame_afterFar (s : State) (e : Nat) (y : Slot) : (s.afterFar e y).frame = s.frame := by
  simp [State.afterFar]

@[simp] theorem State.frame_answer (s : State) (w : Nat) : (s.answer w).frame = s.frame := by
  refine State.frame_foldl (fun s x => ?_) s.elems s
  dsimp only
  split
  · rfl
  · split
    · rfl
    · split <;> rfl

theorem frame_postRed (o : FmtM) (e : Nat) (y : Slot) (s : State) : (postRed o e y s).frame = s.frame := by
  unfold postRed
  split
  · split <;> rfl
  · split
    · simp
    · rfl
    · simp

theorem frame_postSt (o : FmtM) (e : Nat) (y : Slot) (s : State) : (postSt o e y s).frame = s.frame := by
  unfold postSt
  dsimp only
  split
  · simp
  · rfl
  · simp

theorem frame_postStw (o : FmtM) (e : Nat) (y : Slot) (s : State) : (postStw o e y s).frame = s.frame := by
  unfold postStw
  dsimp only
  split
  · simp
  · rfl
  · split
    · rfl
    · split
      · rfl
      · split
        · simp
        · split
          · simp
          · refine (State.frame_answer _ _).trans ((State.frame_dropPosted _ e y).trans ((State.frame_writeRun ..).trans ?_))
            split
            · split
              · rfl
              · exact (State.frame_modRegion _ _ _).trans (s.frame_pres _)
            · rfl

@[simp] theorem frame_performPosted (e n : Nat) (s : State) : (performPosted e n s).frame = s.frame := by
  unfold performPosted
  split
  · rfl
  · split
    · rfl
    · split
      · exact frame_postSt ..
      · exact frame_postStw ..
      · exact frame_postRed ..
      · rfl

theorem State.frame_performHeld (s : State) (rn : Nat) (r : Region) : (s.performHeld rn r).frame = s.frame := by
  unfold State.performHeld
  extract_lets s1 s2 s3
  have h1 : s1.frame = s.frame := by simp [s1]
  have h2 : s2.frame = s1.frame := State.frame_foldl (fun s u => by split <;> simp) _ s1
  have h3 : s3.frame = s2.frame := State.frame_foldl (fun s t => (State.frame_serveEngine _ _ _).trans (s.frame_setEngine _ _)) _ s2
  refine (State.frame_foldl (fun s c => State.frame_foldl (fun s k => ?_) _ s) _ s3).trans (h3.trans (h2.trans h1))
  split
  · simp
  · rfl

/-! ### Integrator arrays -/

@[simp] theorem State.frame_modIsteps (s : State) (c : Nat) (f : Slot → Slot) : (s.modIsteps c f).frame = s.frame := by
  refine State.frame_foldl (fun s x => ?_) s.elems s
  dsimp only
  split
  · rfl
  · split <;> rfl

@[simp] theorem State.frame_stopDomain (s : State) (c d cause who : Nat) : (s.stopDomain c d cause who).frame = s.frame := by
  simp [State.stopDomain, State.stepStops, State.noteStop]

@[simp] theorem State.frame_reportIov (s : State) (c d : Nat) : (s.reportIov c d).frame = s.frame := by
  unfold State.reportIov
  split
  · exact s.frame_postRecord ..
  · rfl

@[simp] theorem State.frame_domainStep (s : State) (c d : Nat) : (s.domainStep c d).frame = s.frame := by
  unfold State.domainStep
  dsimp only
  split
  · rfl
  · split
    · simp [State.countStep]
    · simp [State.countStep]
    · simp [State.countStep]

@[simp] theorem State.frame_exhaust (s : State) (c d : Nat) : (s.exhaust c d).frame = s.frame := by
  simp [State.exhaust]

@[simp] theorem State.frame_lastSteps (s : State) (cs : List Nat) : (s.lastSteps cs).frame = s.frame := by
  simp [State.lastSteps]

/-! ### Completions -/

@[simp] theorem State.frame_finishSlot (s : State) (e k : Nat) (d : Dst) (r : Option Res) (sp : List (Nat × W64)) :
    (s.finishSlot e k d r sp).frame = s.frame := by
  unfold State.finishSlot
  split
  · rfl
  · rfl

@[simp] theorem State.frame_finishWord (s : State) (e k : Nat) (d : Dst) (w : Bool) : (s.finishWord e k d w).frame = s.frame := by
  unfold State.finishWord
  split
  · rfl
  · simp

@[simp] theorem State.frame_finishAlu (s : State) (e k : Nat) (o : FmtA) (g : Axc → Ty → Nat → Nat → LaneRes × Bool) :
    (s.finishAlu e k o g).frame = s.frame := by
  unfold State.finishAlu
  split
  · rfl
  · dsimp only
    split
    · simp
    · simp

theorem Part.queues_writeSpecial (x : Part) (n v : Nat) : (x.writeSpecial n v).queues = x.queues := by
  unfold Part.writeSpecial
  split <;> rfl

theorem Part.appends_writeSpecial (x : Part) (n v : Nat) : (x.writeSpecial n v).appends = x.appends := by
  unfold Part.writeSpecial
  split <;> rfl

@[simp] theorem State.frame_finishWrsr (s : State) (e k : Nat) (o : FmtE) : (s.finishWrsr e k o).frame = s.frame := by
  unfold State.finishWrsr
  split
  · rfl
  · extract_lets n x old v own ef u
    split
    · split
      · rfl
      · exact u.frame_modPart _ _ (fun x => x.queues_writeSpecial n v) fun x => x.appends_writeSpecial n v
    · rfl

@[simp] theorem State.frame_finishCfgw (s : State) (e k : Nat) (o : FmtE) : (s.finishCfgw e k o).frame = s.frame := by
  unfold State.finishCfgw
  split
  · dsimp only
    split
    · rfl
    · split
      · rfl
      · simp
  · rfl

@[simp] theorem State.frame_finishBarw (s : State) (e k : Nat) (o : FmtE) : (s.finishBarw e k o).frame = s.frame := by
  unfold State.finishBarw
  dsimp only
  split
  · rfl
  · simp

@[simp] theorem State.frame_finishLoad (s : State) (e k : Nat) (ty : Ty) (d : Dst) (w : Bool) : (s.finishLoad e k ty d w).frame = s.frame := by
  unfold State.finishLoad
  split
  · rfl
  · simp

@[simp] theorem State.frame_finishIstep (s : State) (e k : Nat) (d : Dst) : (s.finishIstep e k d).frame = s.frame := by
  unfold State.finishIstep
  split
  · simp
  · rfl

@[simp] theorem State.frame_finishMxc (s : State) (e k : Nat) (d : Dst) : (s.finishMxc e k d).frame = s.frame := by
  unfold State.finishMxc
  split <;> rfl

@[simp] theorem State.frame_finishTime (s : State) (e k : Nat) (o : FmtE) : (s.finishTime e k o).frame = s.frame := by
  unfold State.finishTime
  split <;> rfl

@[simp] theorem State.frame_finishWaita (s : State) (e k : Nat) (o : FmtE) : (s.finishWaita e k o).frame = s.frame := by
  unfold State.finishWaita
  split <;> rfl

@[simp] theorem State.frame_finishNone (s : State) (e k : Nat) : (s.finishNone e k).frame = s.frame := by
  unfold State.finishNone
  simp

@[simp] theorem State.frame_finishFiring (s : State) (e k : Nat) (y : Slot) : (s.finishFiring e k y).frame = s.frame := by
  unfold State.finishFiring
  split
  case h_28 =>
    split
    · simp
    · simp
    · rfl
  all_goals simp

/-! ### Landing (R352, R365) -/

@[simp] theorem State.frame_tapCount (s : State) (c k : Nat) : (s.tapCount c k).frame = s.frame := by
  simp [State.tapCount]

@[simp] theorem State.frame_tapArrival (s : State) (e c k : Nat) : (s.tapArrival e c k).frame = s.frame := by
  simp [State.tapArrival]

@[simp] theorem State.frame_drainOut (s : State) (e : Nat) : (s.drainOut e).frame = s.frame := by
  unfold State.drainOut
  split
  · rfl
  · extract_lets u
    have hu : u.frame = s.frame := by
      refine State.frame_foldl (fun s x => ?_) _ s
      dsimp only
      split
      · rfl
      · split
        · exact (State.frame_tapArrival _ e _ _).trans ((State.frame_setElem _ e _).trans (s.frame_flight _))
        · rfl
    simp [hu]

@[simp] theorem State.frame_emptyBuffer (s : State) (e n : Nat) : (s.emptyBuffer e n).frame = s.frame := by
  induction n generalizing s with
  | zero => exact s.frame_drainOut e
  | succ n ih =>
    unfold State.emptyBuffer
    dsimp only
    split
    · simp
    · rw [ih]
      split
      · split
        · simp
        · simp
      · simp

theorem State.frame_enterQueue {s t : State} {e q : Nat} {tok : Token} (h : s.enterQueue e q tok = some t) : t.frame = s.frame := by
  obtain ⟨b, -, rfl⟩ := Option.map_eq_some_iff.1 h
  rfl

@[simp] theorem State.frame_tokenEntered (s : State) (cmd : Option (Nat × Nat × Nat)) (tok : Token) :
    (s.tokenEntered cmd tok).frame = s.frame := by
  unfold State.tokenEntered
  split
  · rfl
  · split
    · rfl
    · split
      · rfl
      · split
        · exact s.frame_setSlot ..
        · dsimp only
          split
          · exact (State.frame_performed _ _ _ _).trans (s.frame_setSlot ..)
          · exact s.frame_setSlot ..
        · exact s.frame_performed ..
        · exact s.frame_performed ..
        · split
          · exact s.frame_setSlot ..
          · rfl

theorem State.frame_reach {s t : State} {l : Bool} {d : Dest} {cmd : Option (Nat × Nat × Nat)} {tok : Token}
    (h : s.reach l d cmd tok = some t) : t.frame = s.frame := by
  unfold State.reach at h
  split at h
  · cases h
    rfl
  · split at h
    · obtain ⟨u, hu, rfl⟩ := Option.map_eq_some_iff.1 h
      exact (u.frame_tokenEntered cmd tok).trans (State.frame_enterQueue hu)
    · split at h
      · cases h
        simp
      · cases h

@[simp] theorem State.frame_reachAll (s : State) (l : Bool) (d : Dest) (cmd : Option (Nat × Nat × Nat)) (m : LinkMode) (ts : List Token) :
    (s.reachAll l d cmd m ts).2.frame = s.frame := by
  induction ts generalizing s with
  | nil => rfl
  | cons t ts ih =>
    unfold State.reachAll
    split
    · rename_i u h
      exact (ih u).trans (State.frame_reach h)
    · rfl

@[simp] theorem State.frame_landFrom (s : State) (rn n i : Nat) : (s.landFrom rn n i).frame = s.frame := by
  induction n generalizing s i with
  | zero => rfl
  | succ n ih =>
    unfold State.landFrom
    split
    · rfl
    · rename_i f _
      split
      · exact ih s _
      · have hr := s.frame_reachAll true f.dst f.cmd f.mode f.toks
        split
        · rename_i t h
          rw [h] at hr
          exact (ih _ _).trans hr
        · rename_i ts t _ h
          rw [h] at hr
          exact (ih _ _).trans ((t.frame_flight _).trans hr)

@[simp] theorem State.frame_landAll (s : State) (rn : Nat) : (s.landAll rn).frame = s.frame := by
  simp [State.landAll]

@[simp] theorem State.frame_countTaps (s : State) (c : Nat) : (s.countTaps c).frame = s.frame := by
  refine State.frame_foldl (fun s k => ?_) _ s
  simp

@[simp] theorem State.frame_land (s : State) (rn : Nat) (r : Region) : (s.land rn r).frame = s.frame := by
  simp [State.land]

/-! ### Matrix passes -/

@[simp] theorem State.frame_bankTake (s : State) (e a n : Nat) (y : Elem) : (s.bankTake e a n y).frame = s.frame := by
  unfold State.bankTake
  dsimp only
  split
  · split
    · simp
    · rfl
  · simp
  · rfl

@[simp] theorem State.frame_fillFor (s : State) (e a n : Nat) : (s.fillFor e a n).frame = s.frame := by
  refine State.frame_foldl (fun s g => ?_) _ s
  unfold State.fillGranule
  split
  · simp
  · rfl

@[simp] theorem State.frame_accRow (s : State) (r : Region) (m : Rect) (acc : Bool) (j c : Nat) (ws : List W32) :
    (s.accRow r m acc j c ws).frame = s.frame := by
  simp [State.accRow]

@[simp] theorem State.frame_supply (s : State) (r : Region) (m : Rect) (v : Wave) : (s.supply r m v).1.frame = s.frame := by
  unfold State.supply
  dsimp only
  split
  · simp
  · simp

@[simp] theorem State.frame_moveWave (s : State) (r : Region) (m : Rect) (v : Wave) : (s.moveWave r m v).1.frame = s.frame := by
  unfold State.moveWave
  generalize hp : (if v.step < m.h then _ else (s, v)) = p
  have hp : p.1.frame = s.frame := by
    rw [← hp]
    split
    · exact s.frame_supply r m v
    · rfl
  dsimp only
  split
  · exact (p.1.frame_accRow ..).trans hp
  · exact hp

@[simp] theorem State.frame_dropMarkers (s : State) (r : Region) (m : Rect) (vs : List Wave) : (s.dropMarkers r m vs).frame = s.frame := by
  refine State.frame_foldl (fun s v => ?_) vs s
  split
  · simp
  · rfl

@[simp] theorem State.frame_setRect (s : State) (rn n : Nat) (m : Rect) : (s.setRect rn n m).frame = s.frame :=
  s.frame_modRegion rn _

/-- Vectors move one after the other. -/
theorem State.frame_moveWaves (r : Region) (m : Rect) (vs : List Wave) (s : State) (ws : List Wave) :
    (vs.foldl (fun p v => let (s, w) := p.1.moveWave r m v; (s, p.2 ++ [w])) (s, ws)).1.frame = s.frame := by
  induction vs generalizing s ws with
  | nil => rfl
  | cons v vs ih => exact (ih _ _).trans (s.frame_moveWave r m v)

@[simp] theorem State.frame_movePass (s : State) (rn n : Nat) (sup : Bool) : (s.movePass rn n sup).frame = s.frame := by
  unfold State.movePass
  split
  · rfl
  · extract_lets vs m'
    split
    · rfl
    · split
      · simp
      · simp [State.frame_moveWaves]

@[simp] theorem State.frame_finishWaves (s : State) (rn n : Nat) : (s.finishWaves rn n).frame = s.frame := by
  induction n generalizing s with
  | zero => rfl
  | succ n ih =>
    unfold State.finishWaves
    split
    · rfl
    · split
      · rfl
      · refine (ih _).trans ((State.frame_landAll _ rn).trans (State.frame_foldl (fun s i => ?_) _ s))
        split
        · simp
        · rfl

@[simp] theorem State.frame_settleScat (s : State) (g q : Nat) (t : Entry) : (s.settleScat g q t).frame = s.frame := by
  unfold State.settleScat
  split
  · extract_lets last u
    have hu : u.frame = s.frame := by
      refine State.frame_foldl (fun s r => ?_) _ s
      split
      · split
        · simp
        · rfl
      · rfl
    split
    · simp [hu]
    · exact hu
  · rfl

/-! ### Cuts -/

@[simp] theorem State.frame_commit (s : State) (rn : Nat) (forced : Bool) (yes : Nat → Bool) : (s.commit rn forced yes).frame = s.frame := by
  unfold State.commit
  split
  · rfl
  · rename_i r hr
    dsimp only
    have hn : ∀ (ns : List DefNote) (t : State), (ns.foldl (fun s n => s.makeNote rn forced n) t).frame = t.frame :=
      State.frame_foldl fun s n => s.frame_makeNote rn forced n
    have hw : ∀ (ws : List Nat) (t : State), (ws.foldl (fun s w => s.testWatches (4 * w) 4) t).frame = t.frame :=
      State.frame_foldl fun s w => s.frame_testWatches (4 * w) 4
    have ha : ∀ (ws : List Nat) (t : State), (ws.foldl State.answer t).frame = t.frame := State.frame_foldl State.frame_answer
    rw [hn, hw, ha, State.frame_foldl]
    · exact State.frame_setRegion hr rfl
    · intro s e
      simp

@[simp] theorem State.frame_shadowAll (s : State) (rn n : Nat) : (s.shadowAll rn n).frame = s.frame := by
  unfold State.shadowAll
  split
  · rfl
  · extract_lets s1 s2 upd ent eng s3
    have h1 : s1.frame = s.frame := by simp [s1]
    have h2 : s2.frame = s1.frame := by simp [s2]
    exact (s3.frame_modRegion rn _).trans (h2.trans h1)

theorem Region.stance_releaseUnit (r : Region) : r.releaseUnit.stance = r.stance := by
  unfold Region.releaseUnit
  split <;> rfl

@[simp] theorem State.frame_unitCount1 (s : State) (rn : Nat) : (s.unitCount1 rn).frame = s.frame := by
  unfold State.unitCount1
  split
  · rfl
  · rename_i r hr
    split
    · rfl
    · extract_lets r1 u
      have hu : u.frame = s.frame := State.frame_setRegion hr (r.stance_releaseUnit.trans rfl)
      simp [hu]

@[simp] theorem State.frame_cutForced (s : State) (rn : Nat) : (s.cutForced rn).frame = s.frame := by
  unfold State.cutForced
  split
  · rfl
  · rename_i r hr
    extract_lets n s1 s2 s3
    have h1 : s1.frame = s.frame := (State.frame_modRegion _ rn _).trans (by simp)
    have h2 : s2.frame = s1.frame := (State.frame_performHeld ..).trans (s1.frame_commit ..)
    have h3 : s3.frame = s.frame := (s2.frame_shadowAll rn n).trans (h2.trans h1)
    split
    · exact h3
    · rename_i r3 hr3
      extract_lets r4 s4 late s5 s6
      have h4 : s4.frame = s.frame := by
        refine (State.frame_setRegion (x := { r4 with lastSnap := s3.capture rn r4 }) hr3 ?_).trans h3
        rfl
      have h5 : s5.frame = s4.frame := by
        simp only [s5]
        split
        · exact s4.frame_modRegion rn _ fun r => r.stance_releaseUnit
        · rfl
      have h6 : s6.frame = s5.frame := by simp [s6]
      simp [h6, h5, h4]

@[simp] theorem State.frame_unbox (s : State) (r : Region) : (s.unbox r).frame = s.frame := by
  refine State.frame_foldl (fun s c => ?_) s.cores s
  split <;> rfl

end Sys2Proof.Machine
end

section
/-! SUPPORT. A stop of a region, and a freeze that may be refused: what they say of the region and of the others (R352, R354, R387). -/

namespace Sys2Proof.Machine

open Sys2Proof

/-! ### Stops -/

/-- What a stop does to a region's own FRZ firings. -/
def State.endFrz (s : State) (own : List (Nat × Nat)) : State :=
  own.foldl (fun s x =>
    match s.slot x.1 x.2 with
    | some y => (match y.ins with | .frz _ o => (s.performed x.1 x.2 1).finishWord x.1 x.2 o.d false | _ => s)
    | none => s) s

@[simp] theorem State.frame_endFrz (s : State) (own : List (Nat × Nat)) : (s.endFrz own).frame = s.frame := by
  refine State.frame_foldl (fun s x => ?_) own s
  split
  · split
    · simp
    · rfl
  · rfl

/-- The state a stop captures: landed, settled and cut. -/
def State.captured (s : State) (rn : Nat) (r : Region) : State :=
  let s := (s.endFrz (r.frz.filter fun x => r.hasElem x.1)).modRegion rn fun r => { r with frz := r.frz.filter fun x => !r.hasElem x.1 }
  let s := ((s.lastSteps r.cores).land rn r).finishWaves rn r.waveBound
  ((s.entriesOf rn).foldl (fun s t => s.settleScat t.1 t.2.1 t.2.2) s).cutForced rn

theorem State.frame_captured (s : State) (rn : Nat) (r : Region) : (s.captured rn r).frame = s.frame := by
  unfold State.captured
  dsimp only
  refine (State.frame_cutForced _ rn).trans ((State.frame_foldl (fun s t => s.frame_settleScat ..) _ _).trans ?_)
  refine (State.frame_finishWaves ..).trans ((State.frame_land ..).trans ((State.frame_lastSteps ..).trans ?_))
  exact (State.frame_modRegion _ rn _).trans (s.frame_endFrz _)

theorem State.stopRegion_of_region {s : State} {rn : Nat} {r : Region} (h : s.region rn = some r) (why : FreezeWhy) :
    ∃ (u : State) (g : Region), u.frame = s.frame ∧ s.stopRegion rn why = u.setRegion rn g ∧ g.phase = .stopped ∧ g.why = why ∧
      g.stamp = s.cycle := by
  have hc : (s.captured rn r).frame = s.frame := s.frame_captured rn r
  obtain ⟨g, hg, -⟩ := State.region_of_frame hc h
  let u := { ((s.captured rn r).dropEntries rn).unbox g with
    flight := (s.captured rn r).flight.filter fun f => (s.captured rn r).destReg f.dst != some rn }.dropFaults rn
  have hu : u.frame = s.frame :=
    (State.frame_dropFaults _ rn).trans ((State.frame_flight _ _).trans ((State.frame_unbox _ g).trans ((State.frame_dropEntries _ rn).trans hc)))
  refine ⟨u, { g with phase := .stopped, why := why, stamp := u.cycle, cutReq := false, lastSnap := g.lastSnap.tiled }, hu, ?_, rfl, rfl,
    State.cycle_of_frame hu⟩
  have hm : s.stopRegion rn why = (match s.region rn with | none => s | some r => match (s.captured rn r).region rn with
    | none => s.captured rn r
    | some g =>
      let sn := g.lastSnap.tiled
      let t := { ((s.captured rn r).dropEntries rn).unbox g with
        flight := (s.captured rn r).flight.filter fun f => (s.captured rn r).destReg f.dst != some rn }.dropFaults rn
      t.setRegion rn { g with phase := .stopped, why := why, stamp := t.cycle, cutReq := false, lastSnap := sn }) := rfl
  rw [hm, h]
  dsimp only
  rw [hg]

theorem State.cycle_stopRegion (s : State) (rn : Nat) (why : FreezeWhy) : (s.stopRegion rn why).cycle = s.cycle := by
  cases h : s.region rn with
  | none => simp [State.stopRegion, h]
  | some r =>
    obtain ⟨u, g, hu, he, -⟩ := State.stopRegion_of_region h why
    rw [he]
    exact (State.cycle_of_frame hu : u.cycle = s.cycle)

theorem State.stance_stopRegion_ne (s : State) {k n : Nat} (why : FreezeWhy) (hn : n ≠ k) :
    ((s.stopRegion k why).region n).map Region.stance = (s.region n).map Region.stance := by
  cases h : s.region k with
  | none => simp [State.stopRegion, h]
  | some r =>
    obtain ⟨u, g, hu, he, -⟩ := State.stopRegion_of_region h why
    rw [he, State.region_setRegion_ne u hn, State.stance_of_frame hu]

/-! ### Freezes -/

theorem State.frame_takeSave {s t : State} {rn : Nat} (h : s.takeSave rn = some t) : t.frame = s.frame := by
  unfold State.takeSave at h
  split at h
  · cases h
  · rename_i r _
    split at h
    · cases h
      rfl
    · obtain ⟨a, -, rfl⟩ := Option.map_eq_some_iff.1 h
      exact (State.frame_modRegion _ rn _).trans (s.frame_modPart r.part _)

/-- The region a freeze stops beside another leaves that one as it stood. -/
theorem State.stop_sharer (s : State) {k n : Nat} (why : FreezeWhy) (hn : n ≠ k) :
    (((s.takeSave k).getD s).stopRegion k why).cycle = s.cycle ∧
      ((((s.takeSave k).getD s).stopRegion k why).region n).map Region.stance = (s.region n).map Region.stance := by
  have ht : ((s.takeSave k).getD s).frame = s.frame := by
    cases h : s.takeSave k with
    | none => rfl
    | some t => exact State.frame_takeSave h
  exact ⟨(State.cycle_stopRegion _ k why).trans (State.cycle_of_frame ht),
    (State.stance_stopRegion_ne _ why hn).trans (State.stance_of_frame ht n)⟩

theorem State.stance_stopSharers (why : FreezeWhy) {n : Nat} (ks : List Nat) (hks : n ∉ ks) (s : State) :
    ((ks.foldl (fun s k => ((s.takeSave k).getD s).stopRegion k why) s).region n).map Region.stance =
      (s.region n).map Region.stance := by
  induction ks generalizing s with
  | nil => rfl
  | cons k ks ih =>
    rw [List.mem_cons, not_or] at hks
    exact (ih hks.2 _).trans (s.stop_sharer why hks.1).2

theorem State.not_mem_sharers (s : State) (rn : Nat) (r : Region) : rn ∉ s.sharers rn r := by
  simp [State.sharers]

/-- A freeze that finds room stops its region at once (R352, R354). -/
theorem State.stopped_freezeIf {s u : State} {rn : Nat} {r : Region} (hr : s.region rn = some r) (hf : r.freezable = true)
    (hd : s.launchDone rn r = false) (hu : s.takeSave rn = some u) (why : FreezeWhy) : Stopped s (s.freezeIf rn why) rn why := by
  have he : s.freezeIf rn why = u.stopShared rn r why := by
    simp [State.freezeIf, hr, hf, hd, hu]
  have hfu : u.frame = s.frame := State.frame_takeSave hu
  obtain ⟨ru, hru, -⟩ := State.region_of_frame hfu hr
  obtain ⟨t, g, -, ht, hphase, hwhy, hstamp⟩ := State.stopRegion_of_region hru why
  have hg : ((u.stopRegion rn why).region rn).map Region.stance = some g.stance := by
    rw [ht, State.region_setRegion_self, Option.map_some]
  have hs := State.stance_stopSharers why (u.sharers rn r) (u.not_mem_sharers rn r) (u.stopRegion rn why)
  obtain ⟨g', hg', hst⟩ := Option.map_eq_some_iff.1 (hs.trans hg)
  rw [he]
  exact ⟨g', hg', (congrArg Stance.phase hst).trans hphase, (congrArg Stance.why hst).trans hwhy,
    (congrArg Stance.stamp hst).trans (hstamp.trans (State.cycle_of_frame hfu))⟩

end Sys2Proof.Machine
end

section
/-! SUPPORT. Quanta and releases: the clauses of the dispatcher's statement that speak of one placed region. -/

namespace Sys2Proof.Machine

open Sys2Proof

theorem exec_dispatch (p x y : Nat) (s : State) : exec (.dispatch p x y) s = execDispatch p x y s := rfl
theorem exec_regionRelease (rn : Nat) (s : State) : exec (.regionRelease rn) s = execRegionRelease rn s := rfl
theorem exec_quantumExpiry (rn : Nat) (s : State) : exec (.quantumExpiry rn) s = execQuantumExpiry rn s := rfl
theorem exec_restore (rn x y : Nat) (s : State) : exec (.restore rn x y) s = execRestore rn x y s := rfl

theorem State.part_setRegion (s : State) (n p : Nat) (x : Region) : (s.setRegion n x).part p = s.part p := rfl

/-! ### Quanta (R346, R347) -/

/-- A quantum that starts runs to the longer of its own length and its shape's floor. -/
theorem State.region_startQuantum {s : State} {rn : Nat} {r : Region} (hr : s.region rn = some r) (hq : r.launch.quant ≠ 0) :
    (s.startQuantum rn).region rn =
      some { r with quantAt := s.cycle + max (1900 * r.launch.quant) ((s.part r.part).floor r.w r.h) } := by
  simp only [State.startQuantum, hr, hq, if_false]
  split
  · rename_i h
    rw [State.region_setRegion_self, max_eq_right h.le]
  · rename_i h
    rw [State.region_setRegion_self, max_eq_left (not_lt.1 h)]

theorem State.qflr_startQuantum {s : State} {rn : Nat} {r : Region} (hr : s.region rn = some r) (hq : r.launch.quant ≠ 0) (hp : r.part < 8) :
    ((s.startQuantum rn).part r.part).qflr =
      if 1900 * r.launch.quant < (s.part r.part).floor r.w r.h then qflrRaised (s.part r.part).qflr else (s.part r.part).qflr := by
  simp only [State.startQuantum, hr, hq, if_false]
  split
  · rw [State.part_setRegion, State.modPart, State.part_setPart_self _ _ _ hp]
  · rfl

theorem quantumExpiry_running {s : State} {rn : Nat} {r : Region} (hr : s.region rn = some r) (hphase : r.phase = .running)
    (hq : r.launch.quant ≠ 0) (hd : s.launchDone rn r = false) (hat : r.quantAt ≤ s.cycle) :
    exec (.quantumExpiry rn) s =
      .next (if s.yields rn r && (s.takeSave rn).isSome then s.freezeIf rn .preempt else s.startQuantum rn) := by
  simp [exec_quantumExpiry, execQuantumExpiry, hr, hphase, hq, hd, hat]

theorem quantumExpiry_early {s : State} {rn : Nat} {r : Region} (hr : s.region rn = some r) (hat : s.cycle < r.quantAt) :
    exec (.quantumExpiry rn) s = .next s := by
  simp [exec_quantumExpiry, execQuantumExpiry, hr, hat]

/-! ### Releases of configured regions (R118, R262) -/

@[simp] theorem State.elems_enterPcs (s : State) (rn : Nat) (n : Snap) : (s.enterPcs rn n).elems = s.elems := by
  unfold State.enterPcs
  split <;> rfl

theorem State.elem_congr {s t : State} (h : t.elems = s.elems) (e : Nat) : t.elem e = s.elem e := by
  rw [State.elem, State.elem, h]

/-- A configured region runs with what its elements hold as its last cut, once nothing keeps it from doing so. -/
theorem regionRelease_runs {s : State} {rn : Nat} {r : Region} (hr : s.region rn = some r) (hphase : r.phase = .configured)
    (hu : ∀ u ∈ s.sided ++ s.updates, r.hasElem u.1 = false) (hp : s.pcsFree rn r.lastSnap = true) :
    ∃ u : State, u.elems = s.elems ∧
      exec (.regionRelease rn) s = .next (u.setRegion rn { r with phase := .running, saveT := 0, lastSnap := u.capture rn r }) := by
  have h : (s.sided ++ s.updates).any (fun u => r.hasElem u.1) = false := List.any_eq_false.2 fun u hm => by simp [hu u hm]
  have he : exec (.regionRelease rn) s = .next (
      let t := s.enterPcs rn r.lastSnap
      let t := if r.saveT = 0 then t else t.modPart r.part fun x =>
        { x with times := SMap.set (32 * r.w + r.h) (r.saveT + (t.cycle - r.stamp)) x.times }
      t.setRegion rn { r with phase := .running, saveT := 0, lastSnap := t.capture rn r }) := by
    simp [exec_regionRelease, execRegionRelease, hr, h, hp, hphase]
  refine ⟨_, ?_, he⟩
  split
  · exact s.elems_enterPcs rn _
  · exact s.elems_enterPcs rn _

theorem regionRelease_waits {s : State} {rn : Nat} {r : Region} (hr : s.region rn = some r) {u : Nat × Slot}
    (hu : u ∈ s.sided ++ s.updates) (he : r.hasElem u.1 = true) : exec (.regionRelease rn) s = .next s := by
  have h : (s.sided ++ s.updates).any (fun u => r.hasElem u.1) = true := List.any_eq_true.2 ⟨u, hu, he⟩
  simp only [exec_regionRelease, execRegionRelease, hr, h, Bool.or_true, Bool.true_or, if_true]

theorem regionRelease_pcsTaken {s : State} {rn : Nat} {r : Region} (hr : s.region rn = some r) (hp : s.pcsFree rn r.lastSnap = false) :
    exec (.regionRelease rn) s = .next s := by
  simp only [exec_regionRelease, execRegionRelease, hr, hp, Bool.not_false, Bool.or_true, if_true]

/-! ### Save areas that fail their checks (R355) -/

theorem State.readyOf_badSave {s : State} {p q rn : Nat} {r : Region} (hl : s.launchOf p q = some (rn, r)) (hg : s.saveGood r = false) :
    s.readyOf p q = none := by
  have hn : s.restorable r = false := by
    simp [State.restorable, hg]
  unfold State.readyOf
  simp [hl, hn]

end Sys2Proof.Machine
end

section
/-! SUPPORT. A restore of a frozen region: the region stands where it is put, and its elements hold what its save area holds (R355, R359). -/

namespace Sys2Proof.Machine

open Sys2Proof

/-! ### What leaves the regions as they are -/

@[simp] theorem State.regions_setTlb (s : State) (c : Nat) (m : List (Nat × W64)) : (s.setTlb c m).regions = s.regions := by
  unfold State.setTlb
  split <;> rfl

@[simp] theorem State.regions_fillTlb (s : State) (c p va : Nat) : (s.fillTlb c p va).regions = s.regions := by
  unfold State.fillTlb
  dsimp only
  split
  · rfl
  · split
    · exact s.regions_setTlb ..
    · rfl

theorem State.regions_writeBack (s : State) (e : Nat) (g : Nat × Nat) : (s.writeBack e g).regions = s.regions :=
  State.foldl_keeps State.regions (by intros; rfl) _ s

@[simp] theorem State.regions_recall (s : State) (a n : Nat) : (s.recall a n).regions = s.regions := by
  refine State.foldl_keeps State.regions (fun s x => State.foldl_keeps State.regions (fun s g => ?_) _ s) _ s
  split
  · exact s.regions_writeBack ..
  · rfl

@[simp] theorem State.regions_startQuarter (s : State) (e q : Nat) (base phys : W64) : (s.startQuarter e q base phys).regions = s.regions := by
  unfold State.startQuarter
  dsimp only
  split
  · simp
  · simp
  · simp
  · split <;> simp

@[simp] theorem State.regions_rebind (s : State) (p e : Nat) : (s.rebind p e).regions = s.regions := by
  refine State.foldl_keeps State.regions (fun s q => ?_) _ s
  dsimp only
  split
  · rfl
  · exact s.regions_startQuarter ..

theorem State.region_congr {s t : State} (h : t.regions = s.regions) (n : Nat) : t.region n = s.region n := by
  rw [State.region, State.region, h]

/-! ### What leaves the regions and what the elements hold as they are -/

/-- What a restore gives back of an element as its save area holds it. -/
structure Contents where
  s      : Vector W32 16
  v      : Vector VW 16
  cnt    : Vector (BitVec 4) 16
  queues : Vector (List Token) 32
  axs    : W32
  lfp    : Vector (BitVec 5) 8

def Elem.contents (x : Elem) : Contents := ⟨x.s, x.v, x.cnt, x.queues, x.axs, x.lfp⟩

theorem Elem.contents_inj {x y : Elem} (h : x.contents = y.contents) :
    x.s = y.s ∧ x.v = y.v ∧ x.cnt = y.cnt ∧ x.queues = y.queues ∧ x.axs = y.axs ∧ x.lfp = y.lfp := by
  simpa [Elem.contents] using h

/-- What each element holds. -/
def State.contents (s : State) (e : Nat) : Contents := (s.elem e).contents

/-- The regions, and what each element holds. -/
def State.holdings (s : State) : List (Nat × Region) × (Nat → Contents) := (s.regions, s.contents)

theorem State.contents_setElem {s : State} {e : Nat} {x : Elem} (h : x.contents = s.contents e) : (s.setElem e x).contents = s.contents := by
  funext d
  by_cases hd : d = e
  · rw [hd, State.contents, State.elem_setElem_self, h]
  · rw [State.contents, State.elem_setElem_ne s hd, State.contents]

theorem State.holdings_setElem {s : State} {e : Nat} {x : Elem} (h : x.contents = s.contents e) : (s.setElem e x).holdings = s.holdings :=
  Prod.ext rfl (State.contents_setElem h)

theorem State.holdings_setSlot (s : State) (e k : Nat) (y : Slot) : (s.setSlot e k y).holdings = s.holdings :=
  State.holdings_setElem rfl

theorem State.holdings_testElem (s : State) (a n e : Nat) : (s.testElem a n e).holdings = s.holdings := by
  unfold State.testElem
  dsimp only
  split
  · rfl
  · split
    · rfl
    · exact State.holdings_setElem rfl

theorem State.holdings_rewatch (s : State) (r : Region) : (s.rewatch r).holdings = s.holdings := by
  refine State.foldl_keeps State.holdings (fun s e => State.foldl_keeps State.holdings (fun s w => ?_) _ s) _ s
  split
  · exact s.holdings_testElem ..
  · rfl

theorem State.holdings_rebar (s : State) (r : Region) : (s.rebar r).holdings = s.holdings := by
  refine State.foldl_keeps State.holdings (fun s e => State.foldl_keeps State.holdings (fun s k => ?_) _ s) _ s
  split
  · split
    · exact s.holdings_setSlot ..
    · rfl
  · rfl

theorem State.holdings_replace (s : State) (r : Region) : (s.replace r).holdings = s.holdings := rfl

theorem State.holdings_resendCmds (s : State) (cs : List (Nat × Nat × Entry)) : (s.resendCmds cs).holdings = s.holdings := by
  refine State.foldl_keeps State.holdings (fun s t => ?_) cs s
  dsimp only
  split
  · rfl
  · split
    · rfl
    · exact s.holdings_setSlot ..

theorem State.holdings_enterPcs (s : State) (rn : Nat) (n : Snap) : (s.enterPcs rn n).holdings = s.holdings := by
  unfold State.enterPcs
  split <;> rfl

theorem State.holdings_setRegion {s t : State} (h : t.holdings = s.holdings) (n : Nat) (x : Region) :
    (t.setRegion n x).holdings = (s.setRegion n x).holdings := by
  obtain ⟨hr, hc⟩ := Prod.ext_iff.1 h
  exact Prod.ext (congrArg (SMap.set n x) hr) hc

/-! ### Loading a captured state -/

/-- The elements of a captured state are loaded. -/
def State.loadElems (s : State) (ns : List (Nat × Elem)) (ptr : Bool) : State :=
  ns.foldl (fun s x => s.setElem x.1 (reload (s.sentOn x.1) (s.elem x.1) x.2 ptr)) s

theorem State.regions_loadElems (s : State) (ns : List (Nat × Elem)) (ptr : Bool) : (s.loadElems ns ptr).regions = s.regions :=
  State.foldl_keeps State.regions (by intros; rfl) ns s

theorem State.contents_loadElems_of_not_mem (ns : List (Nat × Elem)) (ptr : Bool) {e : Nat} (he : e ∉ ns.map Prod.fst) (s : State) :
    (s.loadElems ns ptr).contents e = s.contents e := by
  induction ns generalizing s with
  | nil => rfl
  | cons x ns ih =>
    rw [List.map_cons, List.mem_cons, not_or] at he
    refine (ih he.2 _).trans ?_
    rw [State.contents, State.elem_setElem_ne s he.1, State.contents]

/-- Each element of a captured state holds what it held there. -/
theorem State.contents_loadElems {ns : List (Nat × Elem)} (hn : (ns.map Prod.fst).Nodup) {z : Nat × Elem} (hz : z ∈ ns) (s : State) :
    (s.loadElems ns true).contents z.1 = z.2.contents := by
  induction ns generalizing s with
  | nil => cases hz
  | cons x ns ih =>
    rw [List.map_cons, List.nodup_cons] at hn
    rcases List.mem_cons.1 hz with rfl | hz
    · refine (State.contents_loadElems_of_not_mem ns true hn.1 _).trans ?_
      rw [State.contents, State.elem_setElem_self]
      rfl
    · exact ih hn.2 hz _

/-- The rest of a captured state, loaded behind its elements. -/
def State.loadRest (s : State) (rn : Nat) (r : Region) (n : Snap) : State :=
  let s := n.cores.foldl (fun s c =>
    s.modCore c.1 fun k =>
      r.joinCore rn c.1 k
        { c.2 with
          ro := k.ro, tlb := k.tlb, img := k.img, tile := []
          ports := Vector.ofFn fun i =>
            (if n.late.contains (8 * c.1 + i.val) then vget k.ports i.val none else vget c.2.ports i.val none).map fun p =>
              { p with held := false } }) s
  let s := (s.leavePcs rn).enterPcs rn n
  let s := s.modRegion rn fun r => { r with rects := n.rects, stp := n.stp }
  let s := { s with flight := s.flight ++ n.links }
  let s := s.resendCmds n.cmds
  let s := r.cores.foldl (fun s c =>
    s.modCore c fun k =>
      { k with ports := k.ports.map fun (p : Option Port) => p.map fun p => if p.reg = rn then s.rewindPort p else p }) s
  ((s.rebar r).replace r).rewatch r

theorem State.loadSnap_of_region {s : State} {rn : Nat} {r : Region} (hr : s.region rn = some r) (n : Snap) (ptr : Bool) :
    s.loadSnap rn n ptr = ((s.retoken n).loadElems n.elems ptr).loadRest rn r n := by
  unfold State.loadSnap
  rw [hr]
  rfl

theorem State.holdings_loadRest {s : State} {rn : Nat} {r : Region} (hr : s.region rn = some r) (n : Snap) :
    (s.loadRest rn r n).holdings = (s.setRegion rn { r with rects := n.rects, stp := n.stp }).holdings := by
  unfold State.loadRest
  extract_lets s1 s2 s3 s4 s5 s6
  have h2 : s2.holdings = s.holdings :=
    (State.holdings_enterPcs _ rn n).trans (State.foldl_keeps State.holdings (by intros; rfl) n.cores s)
  have hreg : s2.regions = s.regions := congrArg Prod.fst h2
  have h3 : s3.holdings = (s.setRegion rn { r with rects := n.rects, stp := n.stp }).holdings := by
    have hr2 : s2.region rn = some r := (State.region_congr hreg rn).trans hr
    have e3 : s3 = s2.setRegion rn { r with rects := n.rects, stp := n.stp } := by
      simp only [s3, State.modRegion_eq, hr2]
    rw [e3]
    exact State.holdings_setRegion h2 rn _
  have h6 : s6.holdings = s5.holdings := State.foldl_keeps State.holdings (by intros; rfl) _ s5
  calc _ = s6.holdings := (State.holdings_rewatch _ r).trans ((State.holdings_replace _ r).trans (s6.holdings_rebar r))
    _ = s3.holdings := h6.trans (s4.holdings_resendCmds _)
    _ = _ := h3

theorem State.region_loadSnap {s : State} {rn : Nat} {r : Region} (hr : s.region rn = some r) (n : Snap) (ptr : Bool) :
    (s.loadSnap rn n ptr).region rn = some { r with rects := n.rects, stp := n.stp } := by
  have h : ((s.retoken n).loadElems n.elems ptr).region rn = some r :=
    (State.region_congr (State.regions_loadElems _ n.elems ptr) rn).trans hr
  rw [State.loadSnap_of_region hr, State.region_congr (congrArg Prod.fst (State.holdings_loadRest h n)), State.region_setRegion_self]

theorem State.contents_loadSnap {s : State} {rn : Nat} {r : Region} (hr : s.region rn = some r) {n : Snap} (hn : (n.elems.map Prod.fst).Nodup)
    {z : Nat × Elem} (hz : z ∈ n.elems) : (s.loadSnap rn n true).contents z.1 = z.2.contents := by
  have h : ((s.retoken n).loadElems n.elems true).region rn = some r :=
    (State.region_congr (State.regions_loadElems _ n.elems true) rn).trans hr
  rw [State.loadSnap_of_region hr]
  exact (congrFun (congrArg Prod.snd (State.holdings_loadRest h n)) z.1).trans (State.contents_loadElems hn hz _)

/-! ### The save area given back, and a quantum -/

theorem State.contents_modRegion (s : State) (n : Nat) (f : Region → Region) : (s.modRegion n f).contents = s.contents := by
  unfold State.modRegion
  split <;> rfl

theorem State.contents_freeSave (s : State) (rn : Nat) : (s.freeSave rn).contents = s.contents := by
  unfold State.freeSave
  split
  · rfl
  · split
    · rfl
    · exact State.contents_modRegion ..

theorem State.region_freeSave {s : State} {rn : Nat} {r : Region} (hr : s.region rn = some r) :
    ∃ a, (s.freeSave rn).region rn = some { r with save := none, saveAt := a } := by
  unfold State.freeSave
  rw [hr]
  dsimp only
  split
  · rename_i hs
    refine ⟨r.saveAt, hr.trans ?_⟩
    rw [← hs]
  · have hp : ∀ f, (s.modPart r.part f).region rn = some r := fun f => hr
    rw [State.modRegion_eq, hp]
    exact ⟨none, State.region_setRegion_self ..⟩

theorem State.contents_startQuantum (s : State) (rn : Nat) : (s.startQuantum rn).contents = s.contents := by
  unfold State.startQuantum
  split
  · rfl
  · dsimp only
    split
    · rfl
    · split <;> rfl

/-- A quantum that starts changes nothing of its region but when it ends. -/
theorem State.region_startQuantum_at {s : State} {rn : Nat} {r : Region} (hr : s.region rn = some r) :
    ∃ n, (s.startQuantum rn).region rn = some { r with quantAt := n } := by
  by_cases hq : r.launch.quant = 0
  · refine ⟨r.quantAt, ?_⟩
    simp [State.startQuantum, hr, hq]
  · exact ⟨_, State.region_startQuantum hr hq⟩

/-- The dispatcher of a die remembers the queue it has served. -/
theorem State.turn_served (s : State) {p : Nat} (hp : p < 8) (die pri q : Nat) :
    SMap.find (32 * die + pri) ((s.served p die pri q).part p).turn = some q := by
  rw [State.served, State.modPart, State.part_setPart_self _ _ _ hp, SMap.find_set_self]

theorem State.elem_served (s : State) (p die pri q e : Nat) : (s.served p die pri q).elem e = s.elem e := rfl

/-! ### The frozen region -/

theorem State.lastSnap_savedUnit (s : State) (r : Region) : (s.savedUnit r).lastSnap = r.lastSnap := by
  unfold State.savedUnit State.areaOf
  split <;> rfl

theorem State.launch_savedUnit (s : State) (r : Region) : (s.savedUnit r).launch = r.launch := by
  unfold State.savedUnit State.areaOf
  split <;> rfl

theorem State.moveElem_savedUnit (s : State) (r : Region) (x y : Nat) : (s.savedUnit r).moveElem x y = r.moveElem x y := by
  unfold State.savedUnit State.areaOf
  split <;> rfl

/-- The saved elements of a frozen region, where they are put. -/
theorem State.elems_moved (s : State) (r : Region) (x y : Nat) :
    (r.moveSnap x y (s.savedSnap r)).elems = r.lastSnap.elems.map fun z => (r.moveElem x y z.1, s.savedElem r z.1 z.2) := by
  simp [Region.moveSnap, State.savedSnap]

/-- A frozen region on its new rectangle, with its elements as they were saved. -/
theorem State.restoreFrozen_stands (s : State) (rn : Nat) (r : Region) (x y : Nat)
    (hn : (r.lastSnap.elems.map fun z => r.moveElem x y z.1).Nodup) :
    (∃ g, (s.restoreFrozen rn r x y).region rn = some g ∧ g.phase = .configured ∧ g.x0 = x ∧ g.y0 = y ∧
      g.unit = (s.savedUnit r).unit ∧ g.cutN = (s.savedUnit r).cutN ∧ g.launch = r.launch ∧ g.save = none) ∧
    ∀ z ∈ r.lastSnap.elems, (s.restoreFrozen rn r x y).contents (r.moveElem x y z.1) = (s.savedElem (s.savedUnit r) z.1 z.2).contents := by
  have he := s.elems_moved (s.savedUnit r) x y
  rw [s.lastSnap_savedUnit, s.moveElem_savedUnit] at he
  unfold State.restoreFrozen
  extract_lets was n g erls s1 s2 s3 s4 s5
  have hr1 : s1.region rn = some _ := State.region_setRegion_self ..
  have h4 : s4.regions = s1.regions :=
    (State.foldl_keeps State.regions (fun s e => s.regions_rebind ..) _ s3).trans
      ((State.foldl_keeps State.regions (by intros; rfl) _ s2).trans (State.foldl_keeps State.regions (by intros; rfl) _ s1))
  have hr4 := (State.region_congr h4 rn).trans hr1
  have hr5 : s5.region rn = some _ := State.region_loadSnap (s := { s4 with sided := s4.sided ++ n.sided }) hr4 n true
  constructor
  · obtain ⟨a, hr6⟩ := State.region_freeSave hr5
    obtain ⟨t, hr7⟩ := State.region_startQuantum_at hr6
    exact ⟨_, hr7, rfl, rfl, rfl, rfl, rfl, s.launch_savedUnit r, rfl⟩
  · intro z hz
    have hkeys : (n.elems.map Prod.fst).Nodup := by
      rw [he, List.map_map]
      exact hn
    have hmem : (r.moveElem x y z.1, s.savedElem was z.1 z.2) ∈ n.elems := by
      rw [he]
      exact List.mem_map_of_mem hz
    rw [State.contents_startQuantum, State.contents_freeSave]
    exact State.contents_loadSnap (s := { s4 with sided := s4.sided ++ n.sided }) hr4 hkeys hmem

/-! ### The step (R359) -/

theorem restore_waits {s : State} {rn x y : Nat} {r : Region} {k : Ready} (hr : s.region rn = some r)
    (hk : s.chosen r.part (dieAt x y) = some k) (h : s.placeable r.part k x y [] = false ∨ s.restoreWaits r x y = true) :
    exec (.restore rn x y) s = .next s := by
  have hc : (k.reg != some rn || !s.placeable r.part k x y [] || s.restoreWaits r x y) = true := by
    rcases h with h | h <;> simp [h]
  simp only [exec_restore, execRestore, hr, hk, hc, if_true]

theorem restore_frozen {s : State} {rn x y : Nat} {r : Region} {k : Ready} (hr : s.region rn = some r)
    (hk : s.chosen r.part (dieAt x y) = some k) (hreg : k.reg = some rn) (hp : s.placeable r.part k x y [] = true)
    (hw : s.restoreWaits r x y = false) (hphase : r.phase = .frozen) :
    exec (.restore rn x y) s = .next ((s.restoreFrozen rn r x y).served r.part (dieAt x y) k.pri k.q) := by
  simp [exec_restore, execRestore, hr, hk, hreg, hp, hw, hphase]

end Sys2Proof.Machine
end

section
/-! SUPPORT. A dispatch: the launch at the head of a queue is placed or ended, and the queue goes on (R330, R339, R340). -/

namespace Sys2Proof.Machine

open Sys2Proof

/-! ### What leaves the queues as they are -/

theorem State.queue_eq_of_frame {s t : State} (h : t.frame = s.frame) : t.queue = s.queue :=
  funext fun p => funext fun q => State.queue_of_frame h p q

theorem State.queue_returnRng (s : State) (e : Nat) : (s.returnRng e).queue = s.queue := by
  refine State.foldl_keeps State.queue (fun s q => ?_) _ s
  dsimp only
  split
  · exact State.queue_eq_of_frame (State.frame_devWrite _ _ _ _)
  · rfl

theorem State.queue_freeRegion (s : State) (rn : Nat) : (s.freeRegion rn).queue = s.queue := by
  unfold State.freeRegion
  split
  · rfl
  · exact State.foldl_keeps State.queue State.queue_returnRng _ s

theorem State.queue_closeGraph (s : State) (p a : Nat) : (s.closeGraph p a).queue = s.queue := by
  refine State.foldl_keeps State.queue (fun s g => ?_) _ s
  exact s.queue_freeRegion g.1

theorem State.queue_chainGo (p : Nat) (l : LaunchRec) (rn : Option Nat) (cs : List (Nat × Bool)) (s : State) :
    (s.chainGo p l rn cs).queue = s.queue := by
  induction cs generalizing s with
  | nil => rfl
  | cons c cs ih =>
    obtain ⟨a, graph⟩ := c
    have hadd : (s.counterAdd p a (-1)).1.queue = s.queue := State.queue_eq_of_frame (s.frame_counterAdd p a _)
    unfold State.chainGo
    split
    · exact ih s
    · split
      · rename_i t he
        rw [he] at hadd
        exact (State.queue_eq_of_frame (t.frame_postRecord ..)).trans hadd
      · rename_i t he
        rw [he] at hadd
        refine (ih _).trans ?_
        split
        · exact (t.queue_closeGraph p a).trans hadd
        · exact hadd
      · rename_i t _ _ _ he
        rw [he] at hadd
        exact hadd

theorem State.queue_endLaunch (s : State) (p q : Nat) (l : LaunchRec) (rn : Option Nat) (status : Nat) :
    (s.endLaunch p q l rn status).queue = s.queue := by
  unfold State.endLaunch
  extract_lets t u
  have ht : t.queue = s.queue := by
    simp only [t]
    split
    · rename_i h
      exact State.queue_eq_of_frame (State.frame_ownWrite h)
    · rfl
  have hu : u.queue = s.queue := (State.queue_chainGo p l rn _ t).trans ht
  split
  · exact hu
  · exact hu

/-- A launch that waits to be appended changes no queue yet. -/
theorem State.queue_modPart_appends (s : State) (p : Nat) (f : Part → List (Nat × Nat)) :
    (s.modPart p fun x => { x with appends := f x }).queue = s.queue := by
  funext k q
  have h : (s.modPart p fun x => { x with appends := f x }).part k =
      if p = k ∧ k < 8 then { s.part p with appends := f (s.part p) } else s.part k := vget_vset ..
  rw [State.queue, h]
  split
  · rename_i hk
    rw [← hk.1]
    rfl
  · rfl

theorem State.queue_decrement (s : State) (p a : Nat) : (s.decrement p a).queue = s.queue := by
  unfold State.decrement
  split
  · rfl
  · split
    · rfl
    · rename_i t h
      have ht : t.queue = s.queue := State.queue_eq_of_frame (State.frame_ownWrite h)
      split
      · exact ht
      · split
        · exact (t.queue_modPart_appends p _).trans ht
        · exact ht

theorem State.queue_releaseRec (s : State) (p : Nat) (l : LaunchRec) : (s.releaseRec p l).queue = s.queue :=
  State.foldl_keeps State.queue (fun s a => s.queue_decrement p a) l.succ s

/-! ### The head of a queue goes on -/

theorem State.queue_setQueue_self (s : State) {p : Nat} (hp : p < 8) (q : Nat) (x : LQueue) : (s.setQueue p q x).queue p q = x := by
  rw [State.setQueue, State.queue, State.modPart, State.part_setPart_self _ _ _ hp]
  exact SMap.get_set_self ..

theorem State.queue_served (s : State) (p die pri q : Nat) : (s.served p die pri q).queue = s.queue := by
  funext k n
  have h : (s.served p die pri q).part k =
      if p = k ∧ k < 8 then { s.part p with turn := SMap.set (32 * die + pri) q (s.part p).turn } else s.part k := vget_vset ..
  rw [State.queue, h]
  split
  · rename_i hk
    rw [← hk.1]
    rfl
  · rfl

/-- With no later entry of the queue gone, its head moves by one. -/
theorem State.head_popHead {s t : State} (h : t.queue = s.queue) {p : Nat} (hp : p < 8) (q : Nat) (hg : (s.queue p q).gone = []) :
    ((t.popHead p q).queue p q).head = (s.queue p q).head + 1 := by
  have hq : t.queue p q = s.queue p q := congrFun (congrFun h p) q
  rw [State.popHead, hq, hg]
  exact congrArg LQueue.head (t.queue_setQueue_self hp q _)

theorem State.head_endAtHead (s : State) {p : Nat} (hp : p < 8) (q : Nat) (hg : (s.queue p q).gone = []) :
    ((s.endAtHead p q).queue p q).head = (s.queue p q).head + 1 := by
  unfold State.endAtHead
  split
  · exact State.head_popHead rfl hp q hg
  · split
    · exact State.head_popHead rfl hp q hg
    · dsimp only
      split
      · exact State.head_popHead ((State.queue_releaseRec ..).trans (s.queue_endLaunch ..)) hp q hg
      · exact State.head_popHead (s.queue_endLaunch ..) hp q hg

/-! ### The launch at the head (R117, R330) -/

section
variable {s : State} {p q x y : Nat} {l : LaunchRec} (hl : (s.entryAt p (s.queue p q) (s.queue p q).head).bind (s.record? p) = some l)
include hl

theorem State.placeWaits_of_error {c : Nat} (hc : s.loadImage p (s.queue p q) l x y = .error c) :
    s.placeWaits p q x y = (c == errWait) := by
  rw [State.placeWaits, hl]
  dsimp only
  rw [hc]

theorem State.placeWaits_of_ok {im : Image × Bound × Bool} (hi : s.loadImage p (s.queue p q) l x y = .ok im) :
    s.placeWaits p q x y = false := by
  rw [State.placeWaits, hl]
  dsimp only
  rw [hi]

theorem State.placeHead_of_error {c : Nat} (hc : s.loadImage p (s.queue p q) l x y = .error c) :
    s.placeHead p q x y = (s.endLaunch p q l none c).popHead p q := by
  rw [State.placeHead, hl]
  dsimp only
  rw [hc]

end

/-- A region whose unit is armed has that unit and its range of indices. -/
theorem State.region_armUnit {s : State} {rn : Nat} {r : Region} (hr : s.region rn = some r) (j : Nat) :
    (s.armUnit rn j).region rn =
      some { r with
        unit := j, ixBase := r.launch.unitBase j, ixCnt := r.launch.unitCount j, unitDone := false, unitRel := false, ccu := false } := by
  unfold State.armUnit
  rw [hr]
  dsimp only
  exact (State.region_congr (State.foldl_keeps State.regions (by intros; rfl) _ _) rn).trans (State.region_setRegion_self ..)

theorem LaunchRec.unitBase_zero (l : LaunchRec) : l.unitBase 0 = l.rbase := by
  simp [LaunchRec.unitBase]

theorem LaunchRec.unitCount_zero (l : LaunchRec) : l.unitCount 0 = min l.grain l.rcnt := by
  simp [LaunchRec.unitCount]

/-- A launch that is placed is a configured region on its rectangle, with its first unit armed. -/
theorem State.region_placeHead {s : State} {p q x y : Nat} {l : LaunchRec} {im : Image} {b : Bound} {cold : Bool}
    (hl : (s.entryAt p (s.queue p q) (s.queue p q).head).bind (s.record? p) = some l)
    (hi : s.loadImage p (s.queue p q) l x y = .ok (im, b, cold)) :
    ∃ g, (s.placeHead p q x y).region s.newRegion = some g ∧ g.part = p ∧ g.queue = q ∧ g.launch = l ∧ g.x0 = x ∧ g.y0 = y ∧
      g.w = l.shw ∧ g.h = l.shh ∧ g.phase = .configured ∧ g.unit = 0 ∧ g.ixBase = l.rbase ∧ g.ixCnt = min l.grain l.rcnt ∧ g.cutN = 0 := by
  rw [State.placeHead, hl]
  dsimp only
  rw [hi]
  dsimp only
  obtain ⟨n, hn⟩ := State.region_startQuantum_at (State.region_armUnit (State.region_setRegion_self _ s.newRegion _) 0)
  exact ⟨_, hn, rfl, rfl, rfl, rfl, rfl, rfl, rfl, rfl, rfl, l.unitBase_zero, l.unitCount_zero, rfl⟩

/-! ### The step -/

section
variable {s : State} {p x y : Nat} {k : Ready} (hk : s.chosen p (dieAt x y) = some k) (hreg : k.reg = none)
include hk hreg

theorem dispatch_now (hnow : k.now = true) :
    exec (.dispatch p x y) s = .next ((s.endAtHead p k.q).served p (dieAt x y) k.pri k.q) := by
  simp [exec_dispatch, execDispatch, hk, hreg, hnow]

theorem dispatch_place (hnow : k.now = false) (hp : s.placeable p k x y [] = true) (hw : s.placeWaits p k.q x y = false) :
    exec (.dispatch p x y) s = .next ((s.placeHead p k.q x y).served p (dieAt x y) k.pri k.q) := by
  simp [exec_dispatch, execDispatch, hk, hreg, hnow, hp, hw]

theorem dispatch_noRoom (hnow : k.now = false) (hp : s.placeable p k x y [] = false) : exec (.dispatch p x y) s = .next s := by
  simp [exec_dispatch, execDispatch, hk, hreg, hnow, hp]

theorem dispatch_waits (hnow : k.now = false) (hw : s.placeWaits p k.q x y = true) : exec (.dispatch p x y) s = .next s := by
  simp [exec_dispatch, execDispatch, hk, hreg, hnow, hw]

end

end Sys2Proof.Machine
end

section
/-! SUPPORT. A write of device memory whose lines hold no other key's bytes stores its bytes and changes no other (R180, R196). -/

namespace Sys2Proof.Machine

open Sys2Proof

/-! ### What leaves the memory as it is -/

/-- A state without its regions. -/
def State.body (s : State) : State := { s with regions := [] }

theorem State.body_modRegion (s : State) (n : Nat) (f : Region → Region) : (s.modRegion n f).body = s.body := by
  unfold State.modRegion
  split <;> rfl

theorem State.body_holdLine (s : State) (w : Writer) (l : Nat) : (s.holdLine w l).body = s.body := by
  unfold State.holdLine
  split
  · rfl
  · split
    · rfl
    · exact State.body_modRegion ..

theorem State.body_ownWords (s : State) (w : Writer) (a n : Nat) : (s.ownWords w a n).body = s.body := by
  unfold State.ownWords
  dsimp only
  split <;> rfl

/-- With no granule of a bank in place of memory, nothing is written back. -/
theorem State.recall_eq_self {s : State} (hf : ∀ x ∈ s.elems, x.2.filled = []) (a n : Nat) : s.recall a n = s := by
  unfold State.recall
  generalize s.elems = xs at hf
  induction xs with
  | nil => rfl
  | cons x xs ih =>
    have hx : x.2.filled = [] := hf x List.mem_cons_self
    obtain ⟨e, y⟩ := x
    rw [List.foldl_cons]
    dsimp only
    rw [hx]
    exact ih fun y hy => hf y (List.mem_cons_of_mem _ hy)

theorem State.mem_homePut {s : State} (hl : s.lent = []) (hf : ∀ x ∈ s.elems, x.2.filled = []) (w : Writer) (raw : Bool) (a : Nat)
    (bs : List Byte) : (s.homePut w raw a bs).mem = (s.put raw a bs).mem := by
  unfold State.homePut
  rw [State.recall_eq_self hf]
  extract_lets s0 t u
  have hb : t.body = s.body :=
    (State.body_ownWords ..).trans (State.foldl_keeps State.body (fun s l => s.body_holdLine w l) _ s)
  have hlent : t.lent = [] := by
    have h : t.body.lent = s.body.lent := by rw [hb]
    exact h.trans hl
  have hu : u = t.put raw a bs := by
    simp [u, hlent]
  refine (State.foldl_keeps State.mem (by intros; rfl) _ u).trans ?_
  have h : (t.body.put raw a bs).mem = (s.body.put raw a bs).mem := by rw [hb]
  rw [hu]
  exact h

theorem State.mem_testElem (s : State) (a n e : Nat) : (s.testElem a n e).mem = s.mem := by
  unfold State.testElem
  dsimp only
  split
  · rfl
  · split <;> rfl

theorem State.mem_testWatches (s : State) (a n : Nat) : (s.testWatches a n).mem = s.mem := by
  unfold State.testWatches
  refine State.foldl_keeps State.mem (fun s x => ?_) s.elems s
  exact s.mem_testElem a n x.1

/-! ### A write under one key -/

theorem State.mem_put {s : State} {a : Nat} {bs : List Byte} (h : ∀ l ∈ [a / 128, (a + bs.length - 1) / 128], s.foreign (s.keyTag a) l = false) :
    (s.put false a bs).mem = Memory.write s.mem a bs := by
  have hm : (([a / 128, (a + bs.length - 1) / 128].filter fun l => !(a ≤ 128 * l && 128 * l + 128 ≤ a + bs.length)).filter
      (s.foreign (s.keyTag a))) = [] := by
    rw [List.filter_eq_nil_iff]
    intro l hm
    simp [h l (List.mem_filter.1 hm).1]
  unfold State.put
  dsimp only
  rw [if_neg Bool.false_ne_true, hm, ite_self]
  rfl

theorem stored_write (m : List Host.Cell) (a : Nat) (bs : List Byte) : Stored m (Memory.write m a bs) a bs := by
  refine ⟨fun i hi => ?_, fun b hb => Memory.byte_write_out m a bs hb⟩
  rw [Memory.byte_write_in m a bs i hi, List.getD_eq_getElem _ _ hi]

theorem State.keyTag_congr (s : State) {a b : Nat} (h : blockOf b = blockOf a) : s.keyTag b = s.keyTag a := by
  rw [State.keyTag, State.keyTag, h]

/-- The bytes of a run that stays in one page have one block, and so one key. -/
theorem blockOf_of_page {a b n : Nat} (hp : a % 65536 + n ≤ 65536) (ha : a ≤ b) (hb : b < a + n) : blockOf b = blockOf a := by
  unfold blockOf
  omega

/-- No line of a clear run in one page is under another key. -/
theorem State.foreign_eq_false {s : State} {a n : Nat} (hc : s.Clear s.keyTag a n) (hp : a % 65536 + n ≤ 65536) (hn : 0 < n) :
    ∀ l ∈ [a / 128, (a + n - 1) / 128], s.foreign (s.keyTag a) l = false := by
  obtain ⟨-, -, htag⟩ := hc
  have h : ∀ b, a ≤ b → b < a + n → s.foreign (s.keyTag a) (b / 128) = false := fun b ha hb => by
    unfold State.foreign
    split
    · rename_i t ht
      have hk := s.keyTag_congr (blockOf_of_page hp ha hb)
      simp [htag b ha hb t ht, hk]
    · rfl
  intro l hl
  rcases List.mem_pair.1 hl with rfl | rfl
  · exact h a le_rfl (by omega)
  · exact h _ (by omega) (by omega)

theorem State.stored_devWrite {s : State} {a : Nat} {bs : List Byte} (hc : s.Clear s.keyTag a bs.length) (hp : a % 65536 + bs.length ≤ 65536)
    (hn : 0 < bs.length) (w : Writer) : Stored s.mem (s.devWrite w a bs).mem a bs := by
  rw [State.devWrite, State.mem_testWatches, State.mem_homePut hc.1 hc.2.1, State.mem_put (State.foreign_eq_false hc hp hn)]
  exact stored_write ..

/-! ### Runs in one page -/

/-- A place is at its address's offset in a page, unless it lies in native rows. -/
theorem addr_leafLoc {w : W64} {big : Bool} {va : Nat} (h : (leafLoc w big va).ptype ≠ 3) : (leafLoc w big va).addr % 65536 = va % 65536 := by
  have ht : (bitsOf w.toNat 5 2 == 3) = false := beq_eq_false_iff_ne.2 h
  simp only [leafLoc, ht]
  cases big
  · simp
  · simp

/-- What a translation answers is the place its leaf gives. -/
theorem State.leafLoc_of_xlat {s : State} {c p va : Nat} {ring : Bool} {l : Loc} (h : s.xlat c p va ring = .ok l) :
    ∃ w : W64 × Bool, l = leafLoc w.1 w.2 va := by
  unfold State.xlat at h
  split at h
  · cases h
  · extract_lets finish at h
    have hfin : ∀ w, finish w = .ok l → ∃ w : W64 × Bool, l = leafLoc w.1 w.2 va := fun w hw => by
      simp only [finish] at hw
      split at hw
      · cases hw
      · split at hw
        · cases hw
        · cases hw
          exact ⟨w, rfl⟩
    split at h
    · exact hfin _ h
    · split at h
      · cases h
      · split at h
        · cases h
        · split at h
          · cases h
          · split at h
            · exact hfin _ h
            · cases h

theorem State.xlat_of_resolve {s : State} {c p va : Nat} {a : Access} {l : Loc} (h : s.resolve c p va a = .ok l) :
    s.xlat c p va a.toRing = .ok l := by
  unfold State.resolve at h
  split at h
  · rename_i k hk
    split at h
    · cases h
    · cases h
      exact hk
  · exact h

/-- A run of one piece lies in the page of its first byte. -/
theorem State.resolve_of_resolveRun {s : State} {c p va n : Nat} {a : Access} {l : Loc} (hn : n ≠ 0)
    (h : s.resolveRun c p va n a = .ok [(l, n)]) : s.resolve c p va a = .ok l ∧ va % 65536 + n ≤ 65536 := by
  unfold State.resolveRun State.resolveGo at h
  rw [if_neg hn] at h
  dsimp only at h
  split at h
  · cases h
  · cases h
  · rename_i k hk
    split at h
    · simp only [Run.ok.injEq, List.cons.injEq, Prod.mk.injEq] at h
      obtain ⟨⟨rfl, hmin⟩, -⟩ := h
      exact ⟨hk, by omega⟩
    · rename_i hne
      exact absurd h (hne _)

/-- A run that is plain lies in one page of memory. -/
theorem PlainRun.page {s : State} {c p va n : Nat} {a : Access} {ls : List (Loc × Nat)} {z : Loc} (h : PlainRun s ls z n) (hn : n ≠ 0)
    (hr : s.resolveRun c p va n a = .ok ls) : z.addr % 65536 + n ≤ 65536 := by
  obtain ⟨-, rfl, -, ht⟩ := h
  obtain ⟨hz, hp⟩ := State.resolve_of_resolveRun hn hr
  obtain ⟨w, rfl⟩ := State.leafLoc_of_xlat (State.xlat_of_resolve hz)
  rw [addr_leafLoc ht]
  exact hp

/-- A write of a plain run stores its bytes. -/
theorem State.stored_ownWrite {s : State} {p va : Nat} {bs : List Byte} {a : Access} {ls : List (Loc × Nat)} {z : Loc} (hn : bs.length ≠ 0)
    (hr : s.resolveRun noTlb p va bs.length a = .ok ls) (h : PlainRun s ls z bs.length) :
    ∃ t, s.ownWrite p va bs a = .ok t ∧ Stored s.mem t.mem z.addr bs := by
  have hp := h.page hn hr
  obtain ⟨hc, rfl, hdev, ht⟩ := h
  refine ⟨s.devWrite .device z.addr bs, ?_, State.stored_devWrite hc hp (Nat.pos_of_ne_zero hn) _⟩
  simp [State.ownWrite, hr, State.writeRun, State.writeLoc, hdev, ht]

/-! ### The status of a launch whose record fails its check (R330, R339) -/

/-- A launch with no counters ends with its status stored at its record. -/
theorem State.mem_endLaunch {s t : State} {p q status : Nat} {l : LaunchRec} {rn : Option Nat}
    (h : s.ownWrite p (l.addr + 0x58) (bytesLE 4 status) .copyWrite = .ok t) (hccl : l.ccl = 0) (hccg : l.ccg = 0) (hccp : l.ccp = 0)
    (hccj : l.ccj = 0) : (s.endLaunch p q l rn status).mem = t.mem := by
  have hchain : t.chainGo p l rn [(l.ccl, false), (l.ccg, true), (l.ccp, false), (l.ccj, false)] = t := by
    simp [State.chainGo, hccl, hccg, hccp, hccj]
  unfold State.endLaunch
  rw [h]
  dsimp only
  rw [hchain]
  split <;> rfl

theorem State.endAtHead_of_badRecord {s : State} {p q a : Nat} {b : List Byte} (he : s.entryAt p (s.queue p q) (s.queue p q).head = some a)
    (hb : s.recordBytes? p a = some b) (hbad : s.recordOk p a b = false) :
    s.endAtHead p q = (s.endLaunch p q (parseRecord a b) none 0x10).popHead p q := by
  simp [State.endAtHead, he, hb, hbad]

theorem State.stored_badRecord {s : State} {p q a : Nat} {b : List Byte} {ls : List (Loc × Nat)} {z : Loc} (die pri : Nat)
    (he : s.entryAt p (s.queue p q) (s.queue p q).head = some a) (hb : s.recordBytes? p a = some b) (hbad : s.recordOk p a b = false)
    (hccl : (parseRecord a b).ccl = 0) (hccg : (parseRecord a b).ccg = 0) (hccp : (parseRecord a b).ccp = 0)
    (hccj : (parseRecord a b).ccj = 0) (hr : s.resolveRun noTlb p (a + 0x58) 4 .copyWrite = .ok ls) (hz : PlainRun s ls z 4) :
    Stored s.mem ((s.endAtHead p q).served p die pri q).mem z.addr (bytesLE 4 0x10) := by
  have hlen : (bytesLE 4 0x10).length = 4 := bytesLE_length 4 0x10
  rw [← hlen] at hr hz
  obtain ⟨t, ht, hst⟩ := State.stored_ownWrite (by simp) hr hz
  have hm : ((s.endAtHead p q).served p die pri q).mem = t.mem := by
    rw [State.endAtHead_of_badRecord he hb hbad]
    exact State.mem_endLaunch (l := parseRecord a b) ht hccl hccg hccp hccj
  rw [hm]
  exact hst

end Sys2Proof.Machine
end

section
/-! SUPPORT. The statement of the dispatcher, from the lemmas of its clauses. -/

namespace Sys2Proof.Machine

open Sys2Proof

/-- Settles O43: each clause is the rule of its step (DISPATCH, REGION_RELEASE, QUANTUM_EXPIRY, RESTORE) with what the operations of that
step keep of the regions, the queues and the elements. That a launch is loaded only where it can be placed (log 83), that the turn is the
die's dispatcher's (log 117), and that a restore takes its save area, or else the captured state, in one step (log 25, log 29) are the
model's choices, which the clauses take over. -/
theorem dispatching : Obligations.Dispatching := by
  unfold Obligations.Dispatching
  refine ⟨?dispatch, ?release, ?quantum, ?badSave, ?restore⟩
  case dispatch =>
    intro s p x y k hk hp
    refine ⟨fun l hreg hnow hroom hl => ⟨fun hwait => ?_, fun c hc hload hgone => ?_, fun im b cold hload => ?_⟩,
      fun hreg hnow hroom => dispatch_noRoom hk hreg hnow hroom, fun hreg hnow hgone => ?_,
      fun a b ls z hreg hnow he hb hbad hccl hccg hccp hccj hr hz => ?_⟩
    · exact dispatch_waits hk hreg hnow ((State.placeWaits_of_error hl hwait).trans (beq_self_eq_true _))
    · refine ⟨_, dispatch_place hk hreg hnow hroom ((State.placeWaits_of_error hl hload).trans (beq_eq_false_iff_ne.2 hc)),
        State.turn_served _ hp .., ?_⟩
      rw [State.queue_served, State.placeHead_of_error hl hload]
      exact State.head_popHead (s.queue_endLaunch ..) hp k.q hgone
    · exact ⟨_, dispatch_place hk hreg hnow hroom (State.placeWaits_of_ok hl hload), State.turn_served _ hp ..,
        State.region_placeHead hl hload⟩
    · refine ⟨_, dispatch_now hk hreg hnow, State.turn_served _ hp .., ?_⟩
      rw [State.queue_served]
      exact s.head_endAtHead hp k.q hgone
    · exact ⟨_, dispatch_now hk hreg hnow, State.stored_badRecord _ _ he hb hbad hccl hccg hccp hccj hr hz⟩
  case release =>
    intro s rn r hr hphase
    refine ⟨fun hu hfree => ?_, fun u hu he => regionRelease_waits hr hu he, fun hfree => regionRelease_pcsTaken hr hfree⟩
    obtain ⟨t, ht, he⟩ := regionRelease_runs hr hphase hu hfree
    exact ⟨_, he, ht, _, State.region_setRegion_self .., rfl, List.map_congr_left fun e _ => by rw [State.elem_congr ht]⟩
  case quantum =>
    intro s rn r hr hphase hq hp hdone
    refine ⟨fun hat => quantumExpiry_early hr hat, fun hat hy => ?_, fun hat hsave => ?_, fun u hat hy hsave => ?_⟩
    · refine ⟨_, ?_, State.region_startQuantum hr hq, State.qflr_startQuantum hr hq hp⟩
      rw [quantumExpiry_running hr hphase hq hdone hat, hy, Bool.false_and, if_neg Bool.false_ne_true]
    · refine ⟨_, ?_, State.region_startQuantum hr hq⟩
      rw [quantumExpiry_running hr hphase hq hdone hat, hsave, Option.isSome_none, Bool.and_false, if_neg Bool.false_ne_true]
    · refine ⟨_, ?_, State.stopped_freezeIf hr (by simp [Region.freezable, hphase]) hdone hsave .preempt⟩
      rw [quantumExpiry_running hr hphase hq hdone hat, hy, hsave, Option.isSome_some, Bool.and_self, if_pos rfl]
  case badSave =>
    intro s p q rn r hl hg
    exact State.readyOf_badSave hl hg
  case restore =>
    intro s rn x y r k hr hk hreg hp
    refine ⟨fun h => restore_waits hr hk h, fun hroom hw hphase hn => ?_⟩
    obtain ⟨hregion, helems⟩ := s.restoreFrozen_stands rn r x y hn
    refine ⟨_, restore_frozen hr hk hreg hroom hw hphase, State.turn_served _ hp .., hregion, fun z hz => ?_⟩
    dsimp only
    rw [State.elem_served]
    exact Elem.contents_inj (helems z hz)

end Sys2Proof.Machine
end

section
/-! SUPPORT. Firings that issue and complete at once: the element-wise operations, STEER and MERGE. -/

namespace Sys2Proof.Machine

open Sys2Proof

/-! ### Element-wise operations (R29 to R31, R401, R427, R442) -/

/-- An ordinary firing that runs an action with a result has that result. -/
theorem exec_results {s : State} {t : TU} {f : Firing} (h : Ordinary s t f) {i : Instr} {act : Firing → State → State}
    (hi : exec i s = .next (s.fire i t act)) {d : Dst} {cond : Bool} {r : Res} (hact : Results s (act f s) f d cond r) :
    ∃ s', exec i s = .next s' ∧ Results s s' f d cond r :=
  ⟨_, hi, by rwa [State.fire_ordinary h]⟩

theorem exec_oneSrc {s : State} {t : TU} {f : Firing} (h : Ordinary s t f) (hr : Roomy s f.e) {i : Instr} {g : Axc → Ty → Nat → LaneRes}
    {o : FmtA} (hi : exec i s = .next (s.fire i t (oneSrc g o))) :
    ∃ s', exec i s = .next s' ∧
      (let a := operand s f o o.a
       let y := mapRes (g (axcOf f.x.axc) (Ty.work o.ty)) a.1
       let r : Res := ⟨Ty.work o.ty, vecOp o, y.1, a.2 ||| y.2⟩
       Results s s' f o.d r.nonzero r) :=
  exec_results h hi (results_of hr ..)

theorem exec_twoSrc {s : State} {t : TU} {f : Firing} (h : Ordinary s t f) (hr : Roomy s f.e) {i : Instr}
    {g : Axc → Ty → Nat → Nat → LaneRes} {o : FmtA} (hi : exec i s = .next (s.fire i t (twoSrc g o))) :
    ∃ s', exec i s = .next s' ∧
      (let a := operand s f o o.a
       let b := operand s f o o.b
       let y := mapRes2 (g (axcOf f.x.axc) (Ty.work o.ty)) a.1 b.1
       let r : Res := ⟨Ty.work o.ty, vecOp o, y.1, a.2 ||| b.2 ||| y.2⟩
       Results s s' f o.d r.nonzero r) :=
  exec_results h hi (results_of hr ..)

theorem exec_threeSrc {s : State} {t : TU} {f : Firing} (h : Ordinary s t f) (hr : Roomy s f.e) {i : Instr}
    {g : Axc → Ty → Nat → Nat → Nat → LaneRes} {o : FmtA} (hi : exec i s = .next (s.fire i t (threeSrc g o))) :
    ∃ s', exec i s = .next s' ∧
      (let a := operand s f o o.a
       let b := operand s f o o.b
       let c := operand s f o o.c
       let y := List.zipWith (fun ab c => g (axcOf f.x.axc) (Ty.work o.ty) ab.1 ab.2 c) (a.1.zip b.1) c.1
       let r : Res := ⟨Ty.work o.ty, vecOp o, y.map Prod.fst, a.2 ||| b.2 ||| c.2 ||| y.foldl (fun f r => f ||| r.2) flNone⟩
       Results s s' f o.d r.nonzero r) :=
  exec_results h hi (results_of hr ..)

theorem oneSourceOperations : Claims.OneSourceOperations := by
  refine fun p hp s t o f h hr => exec_oneSrc (g := fun x w => p.2 x w o.mod) h hr ?_
  clear h hr
  revert p
  simp only [List.forall_mem_cons, List.not_mem_nil, false_implies, implies_true, and_true]
  and_intros <;> rfl

theorem twoSourceOperations : Claims.TwoSourceOperations := by
  refine fun p hp s t o f h hr => exec_twoSrc (g := fun x w => p.2 x w o.mod) h hr ?_
  clear h hr
  revert p
  simp only [List.forall_mem_cons, List.not_mem_nil, false_implies, implies_true, and_true]
  and_intros <;> rfl

theorem threeSourceOperations : Claims.ThreeSourceOperations := by
  refine fun p hp s t o f h hr => exec_threeSrc (g := fun x w => p.2 x w o.mod) h hr ?_
  clear h hr
  revert p
  simp only [List.forall_mem_cons, List.not_mem_nil, false_implies, implies_true, and_true]
  and_intros <;> rfl

/-- Settles O1: every operation of the three lists is the shared action of its number of sources under its lane function. -/
theorem elementwiseOperations : Obligations.ElementwiseOperations :=
  ⟨twoSourceOperations, oneSourceOperations, threeSourceOperations⟩

/-! ### Faults of a firing that has issued (R29, R371) -/

theorem State.hold_issued (s : State) (f : Firing) :
    (s.issue f).hold (.issue f.e f.tix) true = s.setElem f.e { issueElem f.t (s.elem f.e) with stuck := true } := by
  simp only [State.hold, State.issue, State.modElem_eq, State.setElem_setElem, State.elem_setElem_self]

theorem issueRaised_of {s : State} (f : Firing) (code addr : Nat) :
    IssueRaised s ((s.issue f).raiseFault (faultOf f code addr 8 (.issue f.e f.tix))) f code addr := by
  have hh := s.hold_issued f
  have he : ((s.issue f).raiseFault (faultOf f code addr 8 (.issue f.e f.tix))).elem f.e =
      { issueElem f.t (s.elem f.e) with stuck := true } :=
    (congrArg (State.elem · f.e) hh).trans (State.elem_setElem_self ..)
  refine ⟨?_, ?_, by rw [he], ?_⟩
  · rw [he, ← hh]
    rfl
  · rw [he]
    refine ⟨fun p hp => issueElem_cnt _ _ _ hp, fun p hp => issueElem_resv _ _ _ hp, fun q hq => issueElem_queue _ _ _ hq,
      fun j _ _ => by simp, fun j _ => by simp, issueElem_nseq _ _, ?_⟩
    exact congrArg (fun x : Elem => { x with stuck := (s.elem f.e).stuck }) (issueElem_unissued f.t (s.elem f.e))
  · refine ⟨((s.issue f).hold (.issue f.e f.tix) true).faultRec (faultOf f code addr 8 (.issue f.e f.tix)), rfl, ?_⟩
    simp only [State.faultRec]
    split <;> exact ⟨rfl, rfl, rfl, rfl, rfl, rfl⟩

/-! ### Operations that pass markers on themselves (R140) -/

theorem State.fire_ownMarkers {s : State} {t : TU} {f : Firing} (h : s.firing t = some f)
    (hshape : shapeOf t f.x = .plain ∨ ∃ k, shapeOf t f.x = .marker k) {i : Instr} (hi : ownMarkers i = true)
    (act : Firing → State → State) : s.fire i t act = act f s := by
  obtain hp | ⟨k, hk⟩ := hshape
  · exact State.fire_ordinary ⟨h, hp⟩ i act
  · rw [State.fire_marking ⟨h, hk⟩, if_pos hi]

theorem exec_steer {s : State} {t : TU} {f : Firing} (h : s.firing t = some f)
    (hshape : shapeOf t f.x = .plain ∨ ∃ k, shapeOf t f.x = .marker k) (o : FmtA) : exec (.steer t o) s = .next (steerAct o f s) :=
  congrArg Host.Outcome.next (State.fire_ownMarkers h hshape (i := .steer t o) rfl (steerAct o))

theorem exec_merge {s : State} {t : TU} {f : Firing} (h : s.firing t = some f)
    (hshape : shapeOf t f.x = .plain ∨ ∃ k, shapeOf t f.x = .marker k) (o : FmtA) : exec (.merge t o) s = .next (mergeAct o f s) :=
  congrArg Host.Outcome.next (State.fire_ownMarkers h hshape (i := .merge t o) rfl (mergeAct o))

theorem labelOf_bne_zero (t : TU) (c : Nat) : labelOf t (c != 0) = t.ol.toNat + (if t.ols && c == 0 then 1 else 0) := by
  simp [labelOf, bne]

theorem labelOf_kind (t : TU) (k : Kind) : labelOf t (k == .data) = t.ol.toNat + (if t.ols && k != .data then 1 else 0) := rfl

theorem Elem.sreg_congr {x y : Elem} (h : x.s = y.s) (n : Nat) : x.sreg n = y.sreg n := by
  unfold Elem.sreg
  rw [h]

theorem Elem.vreg_congr {x y : Elem} (h : x.v = y.v) (n : Nat) : x.vreg n = y.vreg n := by
  unfold Elem.vreg
  rw [h]

/-! ### STEER (R141, R525) -/

section
variable {o : FmtA} {f : Firing} {s : State}

theorem steerAct_marker {k : Kind} (h : shapeOf f.t f.x = .marker k) :
    steerAct o f s = (s.issue f).completeWith f.e { baseEffect f.t none f.seq true with
      toks := [⟨f.t.ol.toNat, Token.bare k (ctlLabel f.t.ol.toNat) f.tag⟩,
        ⟨f.t.ol.toNat + 1, Token.bare k (ctlLabel (f.t.ol.toNat + 1)) f.tag⟩] } := by
  simp only [steerAct, h]

theorem steerAct_wrongPlane (h : shapeOf f.t f.x = .plain) {k : BitVec 5} (hc : o.c = .q k)
    (hp : (passenger o f s).ctl ≠ ctlLabel f.t.ol.toNat) :
    steerAct o f s = (s.issue f).raiseFault (faultOf f 0x09 0 8 (.issue f.e f.tix)) := by
  simp [steerAct, h, hc, hp]

/-- The effect of a STEER that sends its passenger. -/
def steerEffect (o : FmtA) (f : Firing) (s : State) : Effect :=
  let c := steerCmp o f s
  { baseEffect f.t none f.seq (c.1 != 0) with
    sregs := scalarWrite (if Ty.width o.ty = 64 then .s64 else .n32) o.d c.1
    fl := c.2
    toks := [⟨labelOf f.t (c.1 != 0), passenger o f s⟩] }

theorem steerAct_passenger (h : shapeOf f.t f.x = .plain) (hp : ¬((∃ k, o.c = .q k) ∧ (passenger o f s).ctl ≠ ctlLabel f.t.ol.toNat)) :
    steerAct o f s = (s.issue f).completeWith f.e (steerEffect o f s) := by
  have hq : ((match o.c with | .q _ => true | _ => false) && (passenger o f s).ctl != ctlLabel f.t.ol.toNat) = false := by
    rw [Bool.eq_false_iff]
    intro hb
    rw [Bool.and_eq_true, bne_iff_ne] at hb
    refine hp ⟨?_, hb.2⟩
    cases hc : o.c <;> simp_all
  simp only [steerAct, h]
  rw [if_neg (Bool.not_eq_true _ ▸ hq)]
  rfl

end

theorem steering : Claims.Steering := by
  intro s t o f hf hr
  obtain rfl := State.firing_t hf
  refine ⟨fun hshape => ⟨fun ⟨⟨k, hk⟩, hp⟩ => ?_, fun hw => ?_⟩, fun k hk => ?_⟩
  · refine ⟨_, exec_steer hf (.inl hshape) o, ?_⟩
    rw [steerAct_wrongPlane hshape hk hp]
    exact issueRaised_of f 0x09 0
  · refine ⟨_, exec_steer hf (.inl hshape) o, ?_⟩
    rw [steerAct_passenger hshape hw]
    have hb : (steerEffect o f s).bare := ⟨rfl, rfl, rfl⟩
    have hl : (steerEffect o f s).toks.length ≤ 2 := Nat.le_succ 1
    obtain ⟨honly, hfired⟩ := fired_of hr hb rfl rfl rfl hl
    refine ⟨honly, ?_, fun n hn => ?_, ?_⟩
    · rw [← labelOf_bne_zero]
      exact hfired
    · rw [Elem.sreg_congr (sregs_of hr hb hl), Elem.sreg_congr (issueElem_s f.t (s.elem f.e)).symm]
      exact scalar_fold _ _ _ _ n hn
    · exact (vregs_of hr hb hl).trans (issueElem_v ..)
  · refine ⟨_, exec_steer hf (.inr ⟨k, hk⟩) o, ?_⟩
    rw [steerAct_marker hk]
    exact completes_of hr true [_, _] (Nat.le_refl 2)

/-! ### MERGE (R142) -/

section
variable {o : FmtA} {f : Firing} {s : State} {k : BitVec 5} {h : Token} (ha : o.a = .q k) (hh : f.x.head k.toNat = some h)
include ha hh

theorem mergeAct_wrongPlane (hp : h.ctl ≠ ctlLabel f.t.ol.toNat) :
    mergeAct o f s = (s.issue f).raiseFault (faultOf f 0x09 0 8 (.issue f.e f.tix)) := by
  simp [mergeAct, ha, hh, hp]

theorem mergeAct_head (hp : h.ctl = ctlLabel f.t.ol.toNat) :
    mergeAct o f s = (s.issue f).completeWith f.e { baseEffect f.t none f.seq (h.kind == .data) with
      toks := [⟨labelOf f.t (h.kind == .data), { h with tag := f.tag, shr := false }⟩] } := by
  simp [mergeAct, ha, hh, hp]

end

theorem merging : Claims.Merging := by
  intro s t o f k h hf hr hshape ha hh
  obtain rfl := State.firing_t hf
  refine ⟨fun hp => ?_, fun hp => ?_⟩
  · refine ⟨_, exec_merge hf hshape o, ?_⟩
    rw [mergeAct_wrongPlane ha hh hp]
    exact issueRaised_of f 0x09 0
  · refine ⟨_, exec_merge hf hshape o, ?_⟩
    rw [mergeAct_head ha hh hp, ← labelOf_kind]
    exact completes_of hr _ [_] (Nat.le_succ 1)

/-- Settles O7: STEER and MERGE run their action on ordinary and on marker heads alike, and a head of the wrong plane faults after the
issue. -/
theorem steeringAndMerging : Obligations.SteeringAndMerging := ⟨steering, merging⟩

end Sys2Proof.Machine
end

section
/-! SUPPORT. The halves of a pair: what the scalar half leaves, and how the vector half completes the firing. -/

namespace Sys2Proof.Machine

open Sys2Proof

/-! ### The two halves (R40, log 13) -/

theorem State.half_scalar {s : State} {t : TU} {f : Firing} {vh : Instr} (h : PairFiring s t f vh) (w : Ty) {d : BitVec 5}
    (hd : d.toNat < 16) (g : HalfRun) : s.half w d g = s.scalarHalf vh t w d.toNat g := by
  obtain ⟨-, c, sc, hc, hw⟩ := h
  simp only [State.half, hc, hw, hd, if_true]

theorem State.half_vector {s : State} {t : TU} {f : Firing} {vh : Instr} (h : PairFiring s t f vh) (w : Ty) {d : BitVec 5}
    (hd : 16 ≤ d.toNat) {p : PairHalf} (hp : s.pairDone = some p) (g : HalfRun) :
    s.half w d g = s.vectorHalf p t w (d.toNat - 16) g := by
  obtain ⟨-, c, sc, hc, hw⟩ := h
  simp only [State.half, hc, hw, hp, if_neg (Nat.not_lt.2 hd)]

theorem State.scalarHalf_ordinary {s : State} {t : TU} {f : Firing} (h : Ordinary s t f) (vh : Instr) (w : Ty) (d : Nat) (g : HalfRun) :
    s.scalarHalf vh t w d g = { s with pairDone := some ⟨vh, d, regWord w ((g f s false).1.headD 0), (g f s false).2,
      (g f s false).1.headD 0 != 0, false⟩ } := by
  simp only [State.scalarHalf, h.1, State.firing_t h.1, h.2]

/-- The state as the vector half begins to complete the pair. -/
def State.unpaired (s : State) : State := { s with pairDone := none }

/-- What the vector half completes the pair with: the scalar half's write and condition, and its own lanes. -/
def pairEffect (f : Firing) (p : PairHalf) (w : Ty) (d : Nat) (r : List Nat × Fl) : Effect :=
  { baseEffect f.t none f.seq p.cnd with
    sregs := [(p.d, p.val)], vregs := [(d, packLanes w r.1)], fl := p.fl ||| r.2
    toks := if f.t.ole then [⟨labelOf f.t p.cnd, dataTok (packLanes w r.1) f.tag⟩] else [] }

theorem State.vectorHalf_ordinary {s : State} {t : TU} {f : Firing} (h : Ordinary s t f) {p : PairHalf} (hp : p.skip = false) (w : Ty)
    (d : Nat) (g : HalfRun) :
    s.vectorHalf p t w d g = (s.unpaired.issue f).completeWith f.e (pairEffect f p w d (g f s.unpaired true)) := by
  have hf : s.unpaired.firing t = some f := h.1
  simp only [State.vectorHalf, hp, Bool.false_eq_true, if_false]
  split
  case h_1 hn => exact absurd (hn.symm.trans hf) (Option.some_ne_none f).symm
  case h_2 g hg =>
    obtain rfl := Option.some.inj (hg.symm.trans hf)
    rfl

/-- A half whose run does not read what the other half has left obeys its rule. -/
theorem halfRule_of {i : Instr} {w : Ty} {d : BitVec 5} {g : HalfRun} (hi : ∀ s, exec i s = .next (s.half w d g))
    (hg : ∀ f s, g f s.unpaired true = g f s true) : HalfRule i w d g := by
  intro s t f vh h
  refine ⟨fun hd => ?_, fun hd hr p hp hskip => ?_⟩
  · rw [hi, State.half_scalar h w hd, State.scalarHalf_ordinary h.1]
  · have ht : f.t = t := State.firing_t h.1.1
    have hb : (pairEffect f p w (d.toNat - 16) (g f s true)).bare := ⟨rfl, rfl, rfl⟩
    have hl : (pairEffect f p w (d.toNat - 16) (g f s true)).toks.length ≤ 2 := by
      unfold pairEffect
      dsimp only
      split <;> simp
    have hr' : Roomy s.unpaired f.e := hr
    obtain ⟨honly, hfired⟩ := fired_of hr' (cond := p.cnd) hb rfl rfl rfl hl
    refine ⟨_, ?_, honly, ht ▸ hfired, fun n hn => ?_, fun n hn => ?_⟩
    · rw [hi, State.half_vector h w hd hp, State.vectorHalf_ordinary h.1 hskip, hg]
    · rw [Elem.sreg_congr (sregs_of hr' hb hl)]
      refine (Elem.sreg_setS _ n p.d p.val).trans ?_
      rw [Elem.sreg_congr (issueElem_s ..)]
      simp only [hn, and_true, eq_comm]
      rfl
    · rw [Elem.vreg_congr (vregs_of hr' hb hl)]
      refine (Elem.vreg_setV _ n (d.toNat - 16) _).trans ?_
      rw [Elem.vreg_congr (issueElem_v ..)]
      simp only [hn, and_true, eq_comm]
      rfl

/-! ### Operands of a half (R73, R75) -/

theorem State.read_unpaired (s : State) (e : Nat) (x : Elem) (ty : Ty) (vec : Bool) (imm : BitVec 21) (c : Src) :
    s.unpaired.read e x ty vec imm c = s.read e x ty vec imm c := rfl

@[simp] theorem halfRead_unpaired (f : Firing) (s : State) (ty : Ty) (vec : Bool) (c : BitVec 6) :
    halfRead f s.unpaired ty vec c = halfRead f s ty vec c := s.read_unpaired ..

section
variable (f : Firing) (s : State)

theorem unary_unpaired (g : Axc → Ty → Nat → LaneRes) (h : HalfU) : unary g h f s.unpaired true = unary g h f s true := by
  simp [unary]
theorem unaryImm_unpaired (g : Axc → Ty → Nat → LaneRes) (h : HalfI) : unaryImm g h f s.unpaired true = unaryImm g h f s true := rfl
theorem binary_unpaired (g : Axc → Ty → Nat → Nat → LaneRes) (h : HalfR) : binary g h f s.unpaired true = binary g h f s true := by
  simp [binary]
theorem binaryImm_unpaired (g : Axc → Ty → Nat → Nat → LaneRes) (h : HalfI) :
    binaryImm g h f s.unpaired true = binaryImm g h f s true := by
  simp [binaryImm]
theorem compareHalf_unpaired (h : HalfC) : compareHalf h f s.unpaired true = compareHalf h f s true := by
  simp [compareHalf]
theorem bcastHalf_unpaired (h : HalfR) : bcastHalf h f s.unpaired true = bcastHalf h f s true := by
  simp [bcastHalf]
theorem bcastHalfImm_unpaired (h : HalfI) : bcastHalfImm h f s.unpaired true = bcastHalfImm h f s true := by
  simp [bcastHalfImm]

end

/-! ### The halves by their form -/

theorem halfRule_binary {i : Instr} {g : Axc → Ty → Nat → Nat → LaneRes} {h : HalfR}
    (hi : ∀ s, exec i s = .next (s.half (Ty.work h.ty) h.d (binary g h))) : HalfRule i (Ty.work h.ty) h.d (binary g h) :=
  halfRule_of hi fun f s => binary_unpaired f s g h

theorem halfRule_binaryImm {i : Instr} {g : Axc → Ty → Nat → Nat → LaneRes} {h : HalfI}
    (hi : ∀ s, exec i s = .next (s.half h.ty h.d (binaryImm g h))) : HalfRule i h.ty h.d (binaryImm g h) :=
  halfRule_of hi fun f s => binaryImm_unpaired f s g h

theorem halfRule_unary {i : Instr} {g : Axc → Ty → Nat → LaneRes} {h : HalfU}
    (hi : ∀ s, exec i s = .next (s.half (Ty.work h.ty) h.d (unary g h))) : HalfRule i (Ty.work h.ty) h.d (unary g h) :=
  halfRule_of hi fun f s => unary_unpaired f s g h

theorem halfRule_unaryImm {i : Instr} {g : Axc → Ty → Nat → LaneRes} {h : HalfI}
    (hi : ∀ s, exec i s = .next (s.half h.ty h.d (unaryImm g h))) : HalfRule i h.ty h.d (unaryImm g h) :=
  halfRule_of hi fun f s => unaryImm_unpaired f s g h

theorem pairArithmetic : Claims.PairArithmetic := by
  refine ⟨fun p hp h => halfRule_binary (g := p.2) ?registers, fun p hp h => halfRule_binaryImm (g := p.2) ?immediates⟩
  case registers =>
    revert p
    simp only [List.forall_mem_cons, List.not_mem_nil, false_implies, implies_true, and_true]
    and_intros <;> exact fun _ => rfl
  case immediates =>
    revert p
    simp only [List.forall_mem_cons, List.not_mem_nil, false_implies, implies_true, and_true]
    and_intros <;> exact fun _ => rfl

theorem pairLogic : Claims.PairLogic := by
  refine ⟨fun p hp h => halfRule_binary (g := p.2) ?registers, fun p hp h => halfRule_binaryImm (g := p.2) ?immediates⟩
  case registers =>
    revert p
    simp only [List.forall_mem_cons, List.not_mem_nil, false_implies, implies_true, and_true]
    and_intros <;> exact fun _ => rfl
  case immediates =>
    revert p
    simp only [List.forall_mem_cons, List.not_mem_nil, false_implies, implies_true, and_true]
    and_intros <;> exact fun _ => rfl

theorem pairOthers : Claims.PairOthers := by
  refine ⟨fun p hp h => halfRule_unary (g := p.2) ?register, fun p hp h => halfRule_unaryImm (g := p.2) ?immediate,
    fun p hp h => halfRule_of (g := compareHalf h) ?compare fun f s => compareHalf_unpaired f s h,
    fun h => halfRule_of (g := bcastHalf h) (fun _ => rfl) fun f s => bcastHalf_unpaired f s h,
    fun h => halfRule_of (g := bcastHalfImm h) (fun _ => rfl) fun f s => bcastHalfImm_unpaired f s h⟩
  case register =>
    revert p
    simp only [List.forall_mem_cons, List.not_mem_nil, false_implies, implies_true, and_true]
    and_intros <;> exact fun _ => rfl
  case immediate =>
    revert p
    simp only [List.forall_mem_cons, List.not_mem_nil, false_implies, implies_true, and_true]
    and_intros <;> exact fun _ => rfl
  case compare =>
    revert p
    simp only [List.forall_mem_cons, List.not_mem_nil, false_implies, implies_true, and_true]
    and_intros <;> exact fun _ => rfl

/-- Settles O12: each half runs one of the forms of a half under its lane function, and every form obeys the rule of halves. That a pair
runs as two steps, the first of which leaves its result in pairDone, is the model's choice (log 13), which the rule takes over. -/
theorem pairHalves : Obligations.PairHalves := ⟨pairArithmetic, pairLogic, pairOthers⟩

end Sys2Proof.Machine
end

section
/-! SUPPORT. The issue of a memory operation into its slot, and the fault of one that is not aligned. -/

namespace Sys2Proof.Machine

open Sys2Proof

/-! ### Addresses (R65) -/

theorem pairOf_lt (x : Elem) (c : Src) : pairOf x c < 2 ^ 64 := by
  cases c with
  | s r => exact BitVec.isLt _
  | _ => exact Nat.two_pow_pos 64

theorem word512_toNat_mod {n : Nat} (h : n < 2 ^ 64) : (word512 n).toNat % 2 ^ 64 = n := by
  rw [word512, ← BitVec.toNat_setWidth, BitVec.setWidth_ofNat_of_le (by decide), BitVec.toNat_ofNat, Nat.mod_eq_of_lt h]

/-- A slot that has captured the base of its firing holds the firing's address. -/
theorem eaOf_captured {y : Slot} {f : Firing} {o : FmtM} (h : y.opa = word512 (pairOf f.x o.a)) : eaOf o y = effAddr f o := by
  rw [eaOf, h, word512_toNat_mod (pairOf_lt f.x o.a)]
  rfl

theorem alnBad_aligned {y : Slot} {f : Firing} {o : FmtM} (h : y.opa = word512 (pairOf f.x o.a)) (ha : effAddr f o % tyBytes o.ty = 0) :
    alnBad o y = none := by
  rw [alnBad, eaOf_captured h, if_neg (not_not.2 ha)]

theorem alnBad_misaligned {y : Slot} {f : Firing} {o : FmtM} (h : y.opa = word512 (pairOf f.x o.a)) (ha : effAddr f o % tyBytes o.ty ≠ 0) :
    alnBad o y = some (0x05, effAddr f o) := by
  rw [alnBad, eaOf_captured h, if_pos ha]

/-! ### Issue into a slot -/

theorem freeSlot_lt {x : Elem} {k : Nat} (h : freeSlot x = some k) : k < 8 := List.mem_range.1 (List.mem_of_find?_eq_some h)

theorem State.promptly_bad {s : State} {e k : Nat} {y : Slot} (hy : s.slot e k = some y) {bad : Slot → Option (Nat × Nat)} {c a : Nat}
    (hb : bad y = some (c, a)) (act : State → State) : s.promptly e k bad act = s.failSlot e k c a := by
  simp only [State.promptly, hy, hb]

/-- A sound operation that no unit takes at once stays as it was issued. -/
theorem State.promptly_waits {s : State} {e k : Nat} {y : Slot} (hy : s.slot e k = some y) {bad : Slot → Option (Nat × Nat)}
    (hb : bad y = none) (hp : Prompt s false) (act : State → State) : s.promptly e k bad act = s := by
  obtain ⟨c, hc, hf⟩ := Option.map_eq_some_iff.1 hp
  simp only [State.promptly, hy, hb, hc, hf, Bool.false_eq_true, if_false]

theorem memIssue_eq {s : State} {f : Firing} {k : Nat} (hk : freeSlot f.x = some k) (i : Instr) (o : FmtM) (b : VW)
    (bad : Slot → Option (Nat × Nat)) (perf : Nat → Nat → State → State) :
    memIssue i o b bad perf f s =
      (s.takeSlot f i (word512 (pairOf f.x o.a)) b (storedOf f.x o.ty o.d) flNone o.chn.toNat).1.promptly f.e k bad (perf f.e k) :=
  congrArg (fun j => (s.takeSlot f i _ b _ flNone _).1.promptly f.e j bad (perf f.e j)) (congrArg (Option.getD · 0) hk)

/-- An operation without a fault at issue, that no unit takes at once, takes its slot. -/
theorem memIssue_takes {s : State} {t : TU} {f : Firing} {k : Nat} (h : s.firing t = some f) (hk : freeSlot f.x = some k)
    (hp : Prompt s false) (i : Instr) (o : FmtM) (b : VW) {bad : Slot → Option (Nat × Nat)}
    (hb : ∀ y : Slot, y.opa = word512 (pairOf f.x o.a) → bad y = none) (perf : Nat → Nat → State → State) :
    Takes s (memIssue i o b bad perf f s) f i k (word512 (pairOf f.x o.a)) b (storedOf f.x o.ty o.d) o.chn.toNat := by
  have ht := takes_of h hk i (word512 (pairOf f.x o.a)) b (storedOf f.x o.ty o.d) flNone o.chn.toNat
  obtain ⟨y, hy, -, -, -, -, -, hopa, -⟩ := ht.slot
  rw [memIssue_eq hk, State.promptly_waits hy (hb y hopa) hp]
  exact ht

/-! ### A fault at issue (R216, R371) -/

/-- What an issue into slot k leaves does not depend on what then stands in the slot. -/
theorem Issued.vset_slots {x y : Elem} {t : TU} {k chn : Nat} (h : Issued x y t k chn) (z : Option Slot) :
    Issued x { y with slots := vset y.slots k z } t k chn where
  places := h.places
  resv := h.resv
  queues := h.queues
  slots j hj hjk := (vget_vset_ne _ _ _ hjk.symm).trans (h.slots j hj hjk)
  chain := h.chain
  issues := h.issues
  still := h.still

theorem State.faultRec_src (s : State) (f : FaultSrc) :
    let r := s.faultRec f
    r.code = f.code ∧ r.elid = f.elid ∧ r.tix = f.tix ∧ r.slot = f.slot ∧ r.addr = BitVec.ofNat 64 f.addr ∧ r.word = f.word := by
  simp only [State.faultRec]
  split <;> exact ⟨rfl, rfl, rfl, rfl, rfl, rfl⟩

theorem State.failSlot_eq {s : State} {e k : Nat} {y : Slot} (hy : s.slot e k = some y) (code addr : Nat) :
    s.failSlot e k code addr =
      let u := s.setSlot e k { y with held := true }
      { u with pend := s.pend ++ [⟨(s.regionOf e).getD 0, u.faultRec (s.slotFault e k y code addr), .slot e k, s.cycle⟩] } := by
  have hh : s.hold (.slot e k) true = s.setSlot e k { y with held := true } := by
    have hy' : vget (s.elem e).slots k none = some y := hy
    simp only [State.hold, State.setSlot, State.modElem_eq, hy']
  have hf : s.failSlot e k code addr = s.raiseFault (s.slotFault e k y code addr) := by
    simp only [State.failSlot, hy]
  rw [hf]
  unfold State.raiseFault
  exact congrArg (fun u : State => { u with
    pend := u.pend ++ [(⟨(s.regionOf e).getD 0, u.faultRec (s.slotFault e k y code addr), .slot e k, u.cycle⟩ : PendFault)] }) hh

theorem slotRaised_of {s u : State} {f : Firing} {i : Instr} {k : Nat} {a b c : VW} {chn : Nat} (h : Takes s u f i k a b c chn) (hk : k < 8)
    (code addr : Nat) : SlotRaised s (u.failSlot f.e k code addr) f k chn code addr := by
  obtain ⟨y, hy, hins, htix, hword, hseq, hstage, hrest⟩ := h.slot
  have hu : u.setSlot f.e k { y with held := true } =
      s.setElem f.e { u.elem f.e with slots := vset (u.elem f.e).slots k (some { y with held := true }) } := by
    show u.setElem f.e _ = _
    rw [h.only]
    rw [State.setElem_setElem, State.elem_setElem_self]
  have hu' := State.failSlot_eq hy code addr
  have he : (u.failSlot f.e k code addr).elem f.e = { u.elem f.e with slots := vset (u.elem f.e).slots k (some { y with held := true }) } := by
    rw [hu']
    exact (congrArg (State.elem · f.e) hu).trans (State.elem_setElem_self ..)
  have hpend : u.pend = s.pend := h.only ▸ rfl
  have hreg : u.regionOf f.e = s.regionOf f.e := h.only ▸ rfl
  have hcyc : u.cycle = s.cycle := h.only ▸ rfl
  refine ⟨?_, ?_, ?_, ?_⟩
  · rw [he, ← hu, hu']
  · rw [he]
    exact h.issued.vset_slots _
  · refine ⟨{ y with held := true }, ?_, rfl, hstage⟩
    unfold State.slot
    rw [he]
    exact vget_vset_self _ _ _ _ hk
  · refine ⟨_, by rw [hu', hpend, hreg, hcyc], ?_⟩
    obtain ⟨h1, h2, h3, h4, h5, h6⟩ := (u.setSlot f.e k { y with held := true }).faultRec_src (u.slotFault f.e k y code addr)
    exact ⟨h1, h2, h3.trans htix, h4, h5, h6.trans hword⟩

/-- An operation with a fault at issue takes its slot and is held there, whether or not its unit would take it at once. -/
theorem memIssue_raises {s : State} {t : TU} {f : Firing} {k : Nat} (h : s.firing t = some f) (hk : freeSlot f.x = some k)
    (i : Instr) (o : FmtM) (b : VW) {bad : Slot → Option (Nat × Nat)} {code addr : Nat}
    (hb : ∀ y : Slot, y.opa = word512 (pairOf f.x o.a) → bad y = some (code, addr)) (perf : Nat → Nat → State → State) :
    SlotRaised s (memIssue i o b bad perf f s) f k o.chn.toNat code addr := by
  have ht := takes_of h hk i (word512 (pairOf f.x o.a)) b (storedOf f.x o.ty o.d) flNone o.chn.toNat
  obtain ⟨y, hy, -, -, -, -, -, hopa, -⟩ := ht.slot
  rw [memIssue_eq hk, State.promptly_bad hy (hb y hopa)]
  exact slotRaised_of ht (freeSlot_lt hk) code addr

/-! ### The memory operations (R209, R216, R353) -/

section
variable {s : State} {t : TU} {o : FmtM} {f : Firing} {k : Nat} {i : Instr} {b : State → Firing → VW} {perf : Nat → Nat → State → State}
  (h : Ordinary s t f) (hk : freeSlot f.x = some k)
include h hk

theorem exec_memIssue_takes {bad : Slot → Option (Nat × Nat)} (hp : Prompt s false)
    (hb : ∀ y : Slot, y.opa = word512 (pairOf f.x o.a) → bad y = none)
    (hi : exec i s = .next (s.fire i t fun f s => memIssue i o (b s f) bad perf f s)) :
    ∃ s', exec i s = .next s' ∧ Takes s s' f i k (word512 (pairOf f.x o.a)) (b s f) (storedOf f.x o.ty o.d) o.chn.toNat := by
  refine ⟨_, hi, ?_⟩
  rw [State.fire_ordinary h]
  exact memIssue_takes h.1 hk hp i o (b s f) hb perf

theorem exec_memIssue_misaligned (ha : effAddr f o % tyBytes o.ty ≠ 0)
    (hi : exec i s = .next (s.fire i t fun f s => memIssue i o (b s f) (alnBad o) perf f s)) :
    ∃ s', exec i s = .next s' ∧ SlotRaised s s' f k o.chn.toNat 0x05 (effAddr f o) := by
  refine ⟨_, hi, ?_⟩
  rw [State.fire_ordinary h]
  exact memIssue_raises h.1 hk i o (b s f) (fun _ hy => alnBad_misaligned hy ha) perf

end

theorem memoryIssue_waits : Claims.MemoryIssue := by
  intro p hp s t o f k h hk hprompt
  revert p
  simp only [List.forall_mem_cons, List.not_mem_nil, false_implies, implies_true, and_true]
  have plain {i perf} := exec_memIssue_takes (o := o) (i := i) (b := fun _ _ => 0) (perf := perf) h hk hprompt (bad := noBad) fun _ _ => rfl
  have aligned (b) {i perf} (ha : effAddr f o % tyBytes o.ty = 0) :=
    exec_memIssue_takes (i := i) (b := b) (perf := perf) h hk hprompt fun _ hy => alnBad_aligned hy ha
  refine ⟨fun _ => plain rfl, fun _ => plain rfl, fun _ => plain rfl, fun ha => ?ldw, fun ha => ?stw, fun _ => plain rfl, fun _ => plain rfl,
    fun _ => plain rfl, fun ha => ?atom, fun ha => ?red, fun ha => ?cas⟩
  case ldw => exact aligned (fun _ _ => 0) (ha (by simp)) rfl
  case stw => exact aligned (fun _ _ => 0) (ha (by simp)) rfl
  case atom => exact aligned (fun s f => updateOperand o f s) (ha (by simp)) rfl
  case red => exact aligned (fun s f => updateOperand o f s) (ha (by simp)) rfl
  case cas => exact aligned (fun _ f => groupOf f.x o.b) (ha (by simp)) rfl

theorem misalignedAtomics : Claims.MisalignedAtomics := by
  intro p hp s t o f k h hk ha
  revert p
  simp only [List.forall_mem_cons, List.not_mem_nil, false_implies, implies_true, and_true]
  have raises {i b perf} := exec_memIssue_misaligned (i := i) (b := b) (perf := perf) h hk ha
  exact ⟨raises rfl, raises rfl, raises rfl, raises rfl, raises rfl⟩

/-- Settles O13: every memory operation issues through one shared action, which leaves a sound operation in its slot and holds a
misaligned one there. -/
theorem memoryIssue : Obligations.MemoryIssue := ⟨memoryIssue_waits, misalignedAtomics⟩

end Sys2Proof.Machine
end

section
/-! SUPPORT. Completions of a slot: what applying an effect leaves of an element, and the completion of a slot with a result or with none. -/

namespace Sys2Proof.Machine

open Sys2Proof

/-! ### An effect applied to an element (R31) -/

section
variable (x : Elem) (f : Effect)

/-- Writes of registers keep whatever each keeps. -/
theorem regs_foldl_keep {γ : Type} (g : Elem → γ) (hs : ∀ (x : Elem) n w, g (x.setS n w) = g x) (hv : ∀ (x : Elem) n w, g (x.setV n w) = g x) :
    g (f.vregs.foldl (fun (x : Elem) (w : Nat × VW) => x.setV w.1 w.2)
      (f.sregs.foldl (fun (x : Elem) (w : Nat × W32) => x.setS w.1 w.2) x)) = g x := by
  rw [foldl_keep (fun (x : Elem) (w : Nat × VW) => x.setV w.1 w.2) g fun x w => hv x w.1 w.2,
    foldl_keep (fun (x : Elem) (w : Nat × W32) => x.setS w.1 w.2) g fun x w => hs x w.1 w.2]

theorem Elem.apply_cnt {p : Nat} (hp : p < 16) : vget (x.apply f).cnt p 0 = vget x.cnt p 0 + BitVec.ofNat 4 (f.marks.count p) := by
  simp only [Elem.apply, Elem.emit_cnt]
  rw [mark_fold _ _ _ hp, foldl_keep Elem.release Elem.cnt fun _ _ => rfl,
    regs_foldl_keep x f Elem.cnt (fun _ _ _ => rfl) fun _ _ _ => rfl]

theorem Elem.apply_resv {p : Nat} (hp : p < 16) : vget (x.apply f).resv p 0 = vget x.resv p 0 - BitVec.ofNat 4 (f.frees.count p) := by
  simp only [Elem.apply, Elem.emit_resv]
  rw [foldl_keep Elem.mark Elem.resv fun _ _ => rfl, release_fold _ _ _ hp,
    regs_foldl_keep x f Elem.resv (fun _ _ _ => rfl) fun _ _ _ => rfl]

/-- What the registers, places and slots of an element leave as it is, but for the output buffer and the flags. -/
theorem Elem.apply_queues : (x.apply f).queues = x.queues :=
  apply_keep Elem.queues f (fun _ _ _ => rfl) (fun _ _ _ => rfl) (fun _ _ => rfl) (fun _ _ => rfl) (fun _ => rfl) (fun _ _ _ _ _ => rfl) x

theorem Elem.apply_waiting : (x.apply f).waiting = x.waiting :=
  apply_keep Elem.waiting f (fun _ _ _ => rfl) (fun _ _ _ => rfl) (fun _ _ => rfl) (fun _ _ => rfl) (fun _ => rfl) (fun _ _ _ _ _ => rfl) x

theorem Elem.apply_out : (x.apply f).out = x.out ++ f.toks.map fun o => (x.nseq, o) := by
  simp only [Elem.apply, Elem.emit]
  rw [foldl_keep Elem.mark Elem.out fun _ _ => rfl, foldl_keep Elem.release Elem.out fun _ _ => rfl,
    regs_foldl_keep x f Elem.out (fun _ _ _ => rfl) fun _ _ _ => rfl, foldl_keep Elem.mark Elem.nseq fun _ _ => rfl,
    foldl_keep Elem.release Elem.nseq fun _ _ => rfl, regs_foldl_keep x f Elem.nseq (fun _ _ _ => rfl) fun _ _ _ => rfl]

theorem Elem.apply_axs : (x.apply f).axs = x.axs ||| f.fl := by
  simp only [Elem.apply, Elem.emit_axs]
  rw [foldl_keep Elem.mark Elem.axs fun _ _ => rfl, foldl_keep Elem.release Elem.axs fun _ _ => rfl,
    regs_foldl_keep x f Elem.axs (fun _ _ _ => rfl) fun _ _ _ => rfl]

theorem Elem.apply_slots {k : Nat} (h : f.slot = some k) : (x.apply f).slots = vset x.slots k none := by
  simp only [Elem.apply, Elem.emit_slots, h]
  rw [foldl_keep Elem.mark Elem.slots fun _ _ => rfl, foldl_keep Elem.release Elem.slots fun _ _ => rfl,
    regs_foldl_keep x f Elem.slots (fun _ _ _ => rfl) fun _ _ _ => rfl]

theorem Elem.apply_s : (x.apply f).s = (f.sregs.foldl (fun (x : Elem) (w : Nat × W32) => x.setS w.1 w.2) x).s := by
  simp only [Elem.apply, Elem.emit_s]
  rw [foldl_keep Elem.mark Elem.s fun _ _ => rfl, foldl_keep Elem.release Elem.s fun _ _ => rfl,
    foldl_keep (fun (x : Elem) (w : Nat × VW) => x.setV w.1 w.2) Elem.s fun _ _ => rfl]

theorem Elem.apply_v :
    (x.apply f).v = (f.vregs.foldl (fun (x : Elem) (w : Nat × VW) => x.setV w.1 w.2)
      (f.sregs.foldl (fun (x : Elem) (w : Nat × W32) => x.setS w.1 w.2) x)).v := by
  simp only [Elem.apply, Elem.emit_v]
  rw [foldl_keep Elem.mark Elem.v fun _ _ => rfl, foldl_keep Elem.release Elem.v fun _ _ => rfl]

end

/-! ### The register writes of a result (R37, R62, R63) -/

section
variable (t : TU) (k : Option Nat) (n : Nat) (d : Dst) (tag : BitVec 3) (cond : Bool) (r : Res) (x : Elem) {m : Nat} (hm : m < 16)
include hm

theorem sreg_resEffect :
    ((resEffect t k n d tag cond r).sregs.foldl (fun (x : Elem) (w : Nat × W32) => x.setS w.1 w.2) x).sreg m = destS r d m (x.sreg m) := by
  cases hv : r.vec with
  | true => simp [resEffect, destS, hv]
  | false =>
    have h := scalar_fold x r.ty d (r.vals.headD 0) m hm
    simpa [resEffect, destS, hv] using h

theorem vreg_resEffect :
    ((resEffect t k n d tag cond r).vregs.foldl (fun (x : Elem) (w : Nat × VW) => x.setV w.1 w.2) x).vreg m = destV r d m (x.vreg m) := by
  cases hv : r.vec with
  | false => cases d <;> simp [resEffect, destV, hv]
  | true =>
    cases d with
    | v c => simp [resEffect, destV, hv, Elem.vreg_setV, hm, @eq_comm Nat m]
    | s c => simp [resEffect, destV, hv]
    | none => simp [resEffect, destV, hv]

end

/-! ### A slot completes (R31, R37) -/

/-- The condition of a completion: that of its result, and true without one. -/
def condOf : Option Res → Bool
  | some r => r.nonzero
  | none => true

/-- What slot k completes with, with a result or with none. -/
def State.slotEffect (s : State) (e k : Nat) (y : Slot) (d : Dst) : Option Res → Effect
  | some r => { resEffect (slotTU y) (some k) y.seq d (tagOf (slotTU y) y.tagq (s.view e)) r.nonzero r with fl := r.fl ||| y.fl }
  | none => { baseEffect (slotTU y) (some k) y.seq true with fl := y.fl }

/-- The flags of a completion. -/
def flOf (y : Slot) : Option Res → Fl
  | some r => r.fl ||| y.fl
  | none => y.fl

section
variable {s : State} {e k : Nat} {y : Slot} (hy : s.slot e k = some y)

include hy in
theorem State.finishSlot_eq (d : Dst) (r : Option Res) : s.finishSlot e k d r [] = s.completeWith e (s.slotEffect e k y d r) := by
  simp only [State.finishSlot, hy]
  cases r <;> rfl

theorem State.slotEffect_bare (d : Dst) (r : Option Res) : (s.slotEffect e k y d r).bare := by
  cases r <;> exact ⟨rfl, rfl, rfl⟩

theorem State.slotEffect_slot (d : Dst) (r : Option Res) : (s.slotEffect e k y d r).slot = some k := by
  cases r <;> rfl

theorem State.slotEffect_toks_length (d : Dst) (r : Option Res) : (s.slotEffect e k y d r).toks.length ≤ 2 := by
  cases r with
  | some r => exact resToks_length ..
  | none => exact Nat.zero_le 2

/-- With room in the output buffer a completion is applied at once. -/
theorem State.completeWith_roomy (hr : Roomy s e) {ef : Effect} (ht : ef.toks.length ≤ 2) :
    s.completeWith e ef = s.setElem e (applyAll s.cycle (s.elem e) ef) := by
  have hroom := hr.room ht plainTU ef.seq
  have hk : ((s.elem e).bufferRoom ef.toks && !(s.elem e).behind ef.seq ef.toks) = true := by
    simpa only [Elem.bufferRoom, Elem.behind, issueElem_outOf, issueElem_waiting] using hroom
  simp only [State.completeWith, State.modElem_eq, hk, if_true]

include hy in
theorem State.finishSlot_roomy (hr : Roomy s e) (d : Dst) (r : Option Res) :
    s.finishSlot e k d r [] = s.setElem e { (s.elem e).apply (s.slotEffect e k y d r) with
      lastDone := (s.cycle, (s.slotEffect e k y d r).seq + 1) } := by
  rw [State.finishSlot_eq hy, State.completeWith_roomy hr (s.slotEffect_toks_length d r), applyAll_bare (s.slotEffect_bare d r)]

include hy in
theorem finished_finishSlot (hk : k < 8) (hr : Roomy s e) (d : Dst) (r : Option Res) :
    Finished s (s.finishSlot e k d r []) e k y d (condOf r) r (flOf y r) := by
  rw [State.finishSlot_roomy hy hr]
  refine ⟨?only, ?slot, ?slots, ?places, ?resv, ?queues, ?toks, ?flags, ?sregs, ?vregs⟩
  case only => simp [OnlyElem]
  all_goals simp only [State.slot, State.elem_setElem_self]
  case slot =>
    rw [Elem.apply_slots _ _ (s.slotEffect_slot d r)]
    exact vget_vset_self _ _ _ _ hk
  case slots =>
    intro j _ hj
    rw [Elem.apply_slots _ _ (s.slotEffect_slot d r)]
    exact vget_vset_ne _ _ _ hj.symm
  case places =>
    intro p hp
    cases r <;> exact Elem.apply_cnt _ _ hp
  case resv =>
    intro p hp
    cases r <;> exact Elem.apply_resv _ _ hp
  case queues => exact Elem.apply_queues ..
  case toks => cases r <;> exact Elem.apply_out ..
  case flags => cases r <;> exact Elem.apply_axs ..
  case sregs =>
    intro n hn
    cases r with
    | some r =>
      refine (Elem.sreg_congr (Elem.apply_s ..) n).trans ?_
      exact sreg_resEffect (slotTU y) (some k) y.seq d (tagOf (slotTU y) y.tagq (s.view e)) r.nonzero r _ hn
    | none => exact Elem.sreg_congr (Elem.apply_s ..) n
  case vregs =>
    intro n hn
    cases r with
    | some r =>
      refine (Elem.vreg_congr (Elem.apply_v ..) n).trans ((vreg_resEffect (slotTU y) (some k) y.seq d
        (tagOf (slotTU y) y.tagq (s.view e)) r.nonzero r _ hn).trans ?_)
      exact congrArg _ (foldl_keep (fun (x : Elem) (w : Nat × W32) => x.setS w.1 w.2) (Elem.vreg · n) (fun _ _ => rfl) ..)
    | none => exact Elem.vreg_congr (Elem.apply_v ..) n

include hy in
theorem State.waiting_finishSlot (hr : Roomy s e) (d : Dst) (r : Option Res) : ((s.finishSlot e k d r []).elem e).waiting = [] := by
  rw [State.finishSlot_roomy hy hr, State.elem_setElem_self]
  exact (Elem.apply_waiting ..).trans hr.2

end

/-! ### What completes a slot, by its operation (R37, R120, R415) -/

section
variable {s : State} {e k : Nat} {y : Slot} (hk : k < 8) (hy : s.slot e k = some y) (hr : Roomy s e)

include hy in
theorem exec_firingCompletion (hm : s.mayFinish e k y = true) : exec (.firingCompletion e k) s = .next (s.finishFiring e k y) := by
  have h : exec (.firingCompletion e k) s = execFiringCompletion e k s := rfl
  rw [h, execFiringCompletion, hy]
  simp only [hm, if_true]

include hk hy hr

theorem finished_finishLoad (ty : Ty) (d : Dst) (wide : Bool) :
    let r := loadRes ty wide y.lres
    Finished s (s.finishLoad e k ty d wide) e k y d r.nonzero (some r) y.fl := by
  have h := finished_finishSlot hy hk hr d (some (loadRes ty wide y.lres))
  have hfl : flOf y (some (loadRes ty wide y.lres)) = y.fl := BitVec.zero_or
  simp only [State.finishLoad, hy]
  exact hfl ▸ h

theorem finished_finishNone : Finished s (s.finishNone e k) e k y .none true none y.fl := finished_finishSlot hy hk hr .none none

theorem finished_finishWord (d : Dst) (wide : Bool) :
    let r : Res := ⟨if wide then .s64 else .n32, false, [y.lres.toNat % (if wide then 2 ^ 64 else 2 ^ 32)], flNone⟩
    Finished s (s.finishWord e k d wide) e k y d r.nonzero (some r) y.fl := by
  intro r
  have h := finished_finishSlot hy hk hr d (some r)
  have hfl : flOf y (some r) = y.fl := BitVec.zero_or
  simp only [State.finishWord, hy]
  exact hfl ▸ h

end

/-! ### The operations of a slot (R31, R37, R120, R415) -/

theorem memoryCompletion : Claims.MemoryCompletion := by
  intro s e k y t o hk hy hm hr
  refine ⟨fun p hp hins => ?value, fun p hp hins => ?nothing⟩
  case value =>
    have hload : s.finishFiring e k y = s.finishLoad e k o.ty o.d p.2 := by
      revert p
      simp only [List.forall_mem_cons, List.not_mem_nil, false_implies, implies_true, and_true]
      and_intros <;> intro hins <;> simp only [State.finishFiring, bldxVec, hins]
    exact ⟨_, exec_firingCompletion hy hm, hload ▸ finished_finishLoad hk hy hr o.ty o.d p.2⟩
  case nothing =>
    have hnone : s.finishFiring e k y = s.finishNone e k := by
      revert p
      simp only [List.forall_mem_cons, List.not_mem_nil, false_implies, implies_true, and_true]
      and_intros <;> intro hins <;> simp only [State.finishFiring, hins]
    exact ⟨_, exec_firingCompletion hy hm, hnone ▸ finished_finishNone hk hy hr⟩

theorem commandCompletion : Claims.CommandCompletion := by
  intro p hp s e k y t o hk hy hm hr hins
  have hword : s.finishFiring e k y = s.finishWord e k o.d (p.2 o) := by
    revert p
    simp only [List.forall_mem_cons, List.not_mem_nil, false_implies, implies_true, and_true]
    and_intros <;> intro hins <;> simp only [State.finishFiring, aluFmt, layoutOf, wideReg, hins]
  exact ⟨_, exec_firingCompletion hy hm, hword ▸ finished_finishWord hk hy hr o.d (p.2 o)⟩

/-- Settles O20: the completion of a slot is a load's, a store's or a command's by its operation, and each is the completion of a slot with
its result, or with none. -/
theorem slotCompletion : Obligations.SlotCompletion := ⟨memoryCompletion, commandCompletion⟩

end Sys2Proof.Machine
end

section
/-! SUPPORT. The multi-cycle operations of format A: their issue into a slot, and the lanes of their completion. -/

namespace Sys2Proof.Machine

open Sys2Proof

/-! ### What the slot of a multi-cycle operation captures (R29, R132, R353) -/

/-- The channel entry a source is read under. -/
def chanOf (x : Elem) : Src → Chan
  | .q k => vget x.chans k.toNat Chan.default
  | _ => Chan.default

theorem vcEntries_of_layout {x : Elem} {i : Instr} {op : BitVec 8} {t : TU} {o : FmtA} (hl : layoutOf i = .a op t o) (ho : o.ty = .vc) :
    vcEntries x i = [chanOf x o.a, chanOf x o.b] := by
  rw [vcEntries, hl]
  exact if_pos ho

theorem slotLanes_of_ne_vc {o : FmtA} (ho : o.ty ≠ .vc) (ax : Axc) (ch ch' : Chan) (c : Src) (w : VW) :
    slotLanes ax ch o c w = slotLanes ax ch' o c w := by
  unfold slotLanes
  extract_lets n
  split
  · contradiction
  · rfl

/-- The lanes of the two sources of a slot, by the channel entries it captured. -/
theorem slotLanes_vcEntries {x : Elem} {i : Instr} {op : BitVec 8} {t : TU} {o : FmtA} (hl : layoutOf i = .a op t o) (ax : Axc) (w : VW) :
    slotLanes ax ((vcEntries x i).getD 0 Chan.default) o o.a w = slotLanes ax (chanOf x o.a) o o.a w ∧
      slotLanes ax ((vcEntries x i).getD 1 Chan.default) o o.b w = slotLanes ax (chanOf x o.b) o o.b w := by
  by_cases ho : o.ty = .vc
  · rw [vcEntries_of_layout hl ho]
    exact ⟨rfl, rfl⟩
  · exact ⟨slotLanes_of_ne_vc ho .., slotLanes_of_ne_vc ho ..⟩

theorem State.slot_takeSlot {s : State} {f : Firing} {k : Nat} (hk : freeSlot f.x = some k) (i : Instr) (a b c : VW) (fl : Fl) (chn : Nat) :
    ∃ y, (s.takeSlot f i a b c fl chn).1.slot f.e k = some y ∧ y.ins = i ∧ y.opa = a ∧ y.opb = b ∧ y.fl = fl ∧ y.dec = vcEntries f.x i := by
  simp only [State.slot, State.takeSlot, State.issue, State.modElem_eq, State.setElem_setElem, State.elem_setElem_self, hk,
    Option.getD_some, vget_vset_self _ _ _ _ (freeSlot_lt hk)]
  exact ⟨_, rfl, rfl, rfl, rfl, rfl, rfl⟩

/-! ### The completion (R151, R159) -/

section
variable {s : State} {e k : Nat} {y : Slot} (hy : s.slot e k = some y) (o : FmtA) (g : Axc → Ty → Nat → Nat → LaneRes × Bool)
include hy

theorem State.finishAlu_eq :
    s.finishAlu e k o g =
      let ax := axcOf (s.view e).axc
      let u := slotLanes ax (y.dec.getD 0 Chan.default) o o.a y.opa
      let v := slotLanes ax (y.dec.getD 1 Chan.default) o o.b y.opb
      let rs := List.zipWith (g ax (Ty.work o.ty)) u.1 v.1
      if rs.any Prod.snd then
        (s.modElem e fun x => { x with axs := x.axs ||| flDZ, lastDone := (s.cycle, y.seq + 1) }).failSlot e k 0x0B 0
      else
        s.finishSlot e k o.d (some ⟨Ty.work o.ty, vecOp o, rs.map fun r => r.1.1, rs.foldl (fun f r => f ||| r.1.2) (u.2 ||| v.2)⟩) [] := by
  simp only [State.finishAlu, hy]

end

/-- A slot that divides by zero is held for its fault, and its element has DZ; nothing is written and nothing leaves. -/
theorem failSlot_divZero {s : State} {e k : Nat} {y : Slot} (hy : s.slot e k = some y) (code addr : Nat) :
    let s' := (s.modElem e fun x => { x with axs := x.axs ||| flDZ, lastDone := (s.cycle, y.seq + 1) }).failSlot e k code addr
    Pending s' e k code addr ∧ (s'.elem e).axs = (s.elem e).axs ||| flDZ ∧ (s'.elem e).s = (s.elem e).s ∧ (s'.elem e).v = (s.elem e).v ∧
      (s'.elem e).out = (s.elem e).out ∧ s'.mem = s.mem := by
  intro s'
  let u := s.modElem e fun x => { x with axs := x.axs ||| flDZ, lastDone := (s.cycle, y.seq + 1) }
  have hu : u.slot e k = some y := by simpa [u, State.slot] using hy
  have h : s' = _ := State.failSlot_eq hu code addr
  have he : s'.elem e = { u.elem e with slots := vset (u.elem e).slots k (some { y with held := true }) } := by
    rw [h]
    exact State.elem_setElem_self ..
  have hue : u.elem e = { s.elem e with axs := (s.elem e).axs ||| flDZ, lastDone := (s.cycle, y.seq + 1) } := State.elem_setElem_self ..
  refine ⟨?_, by rw [he, hue], by rw [he, hue], by rw [he, hue], by rw [he, hue], by rw [h]; rfl⟩
  obtain ⟨h1, -, -, -, h5, -⟩ := (u.setSlot e k { y with held := true }).faultRec_src (u.slotFault e k y code addr)
  refine ⟨_, by rw [h]; exact List.mem_append_right _ (List.mem_singleton_self _), rfl, h1, h5, ?_⟩
  rw [h]
  rfl

/-! ### Issue and completion together -/

/-- i is a multi-cycle operation of format A with a lane function: it issues through the shared action of a slot, its second source
captured or not, and completes lane by lane. -/
structure MultiCycle (i : Instr) (t : TU) (o : FmtA) (two : Bool) (lane : Axc → Ty → BitVec 4 → Nat → Nat → LaneRes × Bool) : Prop where
  layout : ∃ op, layoutOf i = .a op t o
  issues : ∀ s, exec i s = .next (s.fire i t (slotAct i o two))
  finishes : ∀ (s : State) (e k : Nat) (y : Slot), y.ins = i → s.finishFiring e k y = s.finishAlu e k o fun x w => lane x w o.mod

/-- The completion of a slot that stands as a multi-cycle operation has left it. -/
theorem MultiCycle.finishFiring_eq {i : Instr} {t : TU} {o : FmtA} {two : Bool} {lane : Axc → Ty → BitVec 4 → Nat → Nat → LaneRes × Bool}
    (m : MultiCycle i t o two lane) {s s2 : State} {f : Firing} {k : Nat} (hk : freeSlot f.x = some k) {a b : VW} {y : Slot}
    (hy : s2.slot f.e k = some y) (hsame : s2.slot f.e k = (s.takeSlot f i a b 0 flNone 0).1.slot f.e k) :
    y.fl = flNone ∧ s2.finishFiring f.e k y =
      let ax := axcOf (s2.view f.e).axc
      let u := slotLanes ax (chanOf f.x o.a) o o.a a
      let v := slotLanes ax (chanOf f.x o.b) o o.b b
      let rs := List.zipWith (lane ax (Ty.work o.ty) o.mod) u.1 v.1
      if rs.any Prod.snd then
        (s2.modElem f.e fun x => { x with axs := x.axs ||| flDZ, lastDone := (s2.cycle, y.seq + 1) }).failSlot f.e k 0x0B 0
      else
        s2.finishSlot f.e k o.d
          (some ⟨Ty.work o.ty, vecOp o, rs.map fun r => r.1.1, rs.foldl (fun f r => f ||| r.1.2) (u.2 ||| v.2)⟩) [] := by
  obtain ⟨z, hz, hins, hopa, hopb, hfl, hdec⟩ := s.slot_takeSlot hk i a b 0 flNone 0
  obtain rfl : y = z := Option.some.inj (hy.symm.trans (hsame.trans hz))
  obtain ⟨op, hl⟩ := m.layout
  refine ⟨hfl, ?_⟩
  rw [m.finishes s2 f.e k y hins, State.finishAlu_eq hy, hdec, hopa, hopb]
  simp only [slotLanes_vcEntries hl]

/-- Settles O21: each of the six operations issues through the shared action of a slot, and completes with its lane function of the lanes
that the slot has captured. -/
theorem multiCycleArithmetic : Obligations.MultiCycleArithmetic := by
  intro p hp s t o f k h hk
  have m : MultiCycle (p.1 t o) t o p.2.1 p.2.2 := by
    clear h
    revert p
    simp only [List.forall_mem_cons, List.not_mem_nil, false_implies, implies_true, and_true]
    and_intros <;> refine ⟨⟨_, rfl⟩, fun _ => rfl, fun s e k y hins => ?_⟩ <;> simp only [State.finishFiring, hins, aluFmt] <;> rfl
  intro w a b
  have hs1 : exec (p.1 t o) s = .next (s.takeSlot f (p.1 t o) a b 0 flNone 0).1 := by
    rw [m.issues, State.fire_ordinary h]
    rfl
  refine ⟨_, hs1, takes_of h.1 hk (p.1 t o) a b 0 flNone 0, fun s2 y hsame hy hm hr => ?_⟩
  obtain ⟨hfl, hfin⟩ := m.finishFiring_eq hk hy hsame
  intro x entry u v rs fl r
  refine ⟨fun hrs => ⟨_, exec_firingCompletion hy hm, ?_⟩, fun hrs => ⟨_, exec_firingCompletion hy hm, ?_⟩⟩
  · have hf : flOf y (some r) = fl := by
      show fl ||| y.fl = fl
      rw [hfl]
      exact BitVec.or_zero
    have hd : Finished s2 (s2.finishSlot f.e k o.d (some r) []) f.e k y o.d r.nonzero (some r) fl :=
      hf ▸ finished_finishSlot hy (freeSlot_lt hk) hr o.d (some r)
    have hz : s2.finishFiring f.e k y = s2.finishSlot f.e k o.d (some r) [] := hfin.trans (if_neg (Bool.not_eq_true _ ▸ hrs))
    exact hz ▸ hd
  · have hz : s2.finishFiring f.e k y = _ := hfin.trans (if_pos hrs)
    exact hz ▸ failSlot_divZero hy 0x0B 0

end Sys2Proof.Machine
end

section
/-! SUPPORT. Completions that waited for the output buffer. -/

namespace Sys2Proof.Machine

open Sys2Proof

/-! ### Entering the output buffer (R32, R34) -/

theorem Elem.again_seq (x : Elem) (w : Effect) : (x.again w).seq = w.seq := by
  unfold Elem.again
  split <;> rfl

theorem Elem.again_of_sets_nil {w : Effect} (h : w.sets = []) (x : Elem) : x.again w = w := by
  unfold Elem.again
  rw [h]

/-- The element without the effect that has entered. -/
def Elem.released (x : Elem) (w : Effect) : Elem := { x with waiting := x.waiting.filter fun z => z.seq != w.seq }

theorem State.slot_released (s : State) (e k : Nat) (w : Effect) : (s.setElem e ((s.elem e).released w)).slot e k = s.slot e k := by
  unfold State.slot
  rw [State.elem_setElem_self]
  rfl

section
variable {s : State} {e k : Nat} {w : Effect} (hw : (s.elem e).waitingOf k = some w)
include hw

theorem State.enterBuffer_waits (h : s.mayEnter e ((s.elem e).again w) = false) : s.enterBuffer e k = s := by
  simp only [State.enterBuffer, hw, h, Bool.false_eq_true, if_false]

theorem State.enterBuffer_slot (h : s.mayEnter e ((s.elem e).again w) = true) {y : Slot} (hy : s.slot e k = some y) :
    s.enterBuffer e k = (s.setElem e ((s.elem e).released w)).finishFiring e k y := by
  have hs := (s.slot_released e k w).trans hy
  unfold Elem.released at hs ⊢
  simp only [State.enterBuffer, hw, h, if_true, Elem.again_seq, hs]

theorem State.enterBuffer_bare (h : s.mayEnter e ((s.elem e).again w) = true) (hs : s.slot e k = none) :
    s.enterBuffer e k = s.setElem e (applyAll s.cycle ((s.elem e).released w) ((s.elem e).again w)) := by
  have hs := (s.slot_released e k w).trans hs
  unfold Elem.released at hs ⊢
  simp only [State.enterBuffer, hw, h, if_true, Elem.again_seq, hs, State.modElem_eq, State.elem_setElem_self, State.setElem_setElem,
    State.setElem_cycle]

end

theorem exec_outputBufferEntry {s : State} {e : Nat} (h : s.runs e = true) (k : Nat) :
    exec (.outputBufferEntry e k) s = .next (s.enterBuffer e k) :=
  congrArg Host.Outcome.next (if_pos h)

/-! ### A completion that sees nothing of what has waited -/

theorem State.view_setElem_self (s : State) (e : Nat) (x : Elem) : (s.setElem e x).view e = s.view e := by
  unfold State.view State.setElem
  cases h : SMap.find e s.starts with
  | some z => simp [h]
  | none => simp [State.elem]

/-- A slot that completes after an effect has left the wait completes as from the state in which it waited. -/
theorem Finished.of_released {s s' : State} {e k : Nat} {w : Effect} {y : Slot} {d : Dst} {cond : Bool} {r : Option Res} {fl : W32}
    (h : Finished (s.setElem e ((s.elem e).released w)) s' e k y d cond r fl) : Finished s s' e k y d cond r fl := by
  have he : (s.setElem e ((s.elem e).released w)).elem e = (s.elem e).released w := State.elem_setElem_self ..
  have keep {γ : Type} (g : Elem → γ) (hg : g ((s.elem e).released w) = g (s.elem e) := by exact rfl) :
      g ((s.setElem e ((s.elem e).released w)).elem e) = g (s.elem e) := (congrArg g he).trans hg
  refine ⟨?only, h.slot, ?slots, ?places, ?resv, ?queues, ?toks, ?flags, ?sregs, ?vregs⟩
  case only => exact h.only.trans (State.setElem_setElem ..)
  case slots => exact fun j hj hne => (h.slots j hj hne).trans (s.slot_released e j w)
  case places => exact fun p hp => (h.places p hp).trans (keep (fun x : Elem => vget x.cnt p 0 + _))
  case resv => exact fun p hp => (h.resv p hp).trans (keep (fun x : Elem => vget x.resv p 0 - _))
  case queues => exact h.queues.trans (keep Elem.queues)
  case toks =>
    have htoks := h.toks
    rw [State.view_setElem_self, he] at htoks
    exact htoks
  case flags => exact h.flags.trans (keep (fun x : Elem => x.axs ||| fl))
  case sregs =>
    intro n hn
    cases r with
    | some r => exact (h.sregs n hn).trans (keep (fun x : Elem => destS r d n (x.sreg n)))
    | none => exact (h.sregs n hn).trans (keep (Elem.sreg · n))
  case vregs =>
    intro n hn
    cases r with
    | some r => exact (h.vregs n hn).trans (keep (fun x : Elem => destV r d n (x.vreg n)))
    | none => exact (h.vregs n hn).trans (keep (Elem.vreg · n))

/-- Once the only effect that waited has entered, an element with room completes at once. -/
theorem roomy_released {s : State} {e : Nat} {w : Effect} (hwait : (s.elem e).waiting = [w]) (hroom : ∀ ctl, ((s.elem e).outOf ctl).length ≤ 2) :
    Roomy (s.setElem e ((s.elem e).released w)) e := by
  unfold Roomy
  rw [State.elem_setElem_self]
  exact ⟨hroom, by simp [Elem.released, hwait]⟩

/-- Settles O22: what waits with a slot runs the completion of its operation anew, and what waits without one is applied as it was formed.
That a slot computes anew and a firing without a slot keeps its values is the model's choice (log 22), which the statement takes over. -/
theorem bufferEntry : Obligations.BufferEntry := by
  intro s e k w hrun hw x now
  have hnow : s.mayEnter e (x.again w) = now := by simp only [State.mayEnter, Elem.again_seq, now, x]
  refine ⟨fun h => ?waits, fun h hs hsets hspec => ?bare, fun y t o h hk hy hwait hroom => ⟨fun hins => ?load, fun hins => ?store⟩⟩
  case waits => rw [exec_outputBufferEntry hrun, State.enterBuffer_waits hw (hnow.trans h)]
  case bare =>
    have hent := State.enterBuffer_bare hw (hnow.trans h) hs
    refine ⟨_, exec_outputBufferEntry hrun k, ?_⟩
    rw [hent, Elem.again_of_sets_nil hsets]
    have hap (c : Nat) (z : Elem) : applyAll c z w = { z.apply w with lastDone := (c, w.seq + 1) } := by simp [applyAll, hsets, hspec]
    rw [hap, State.elem_setElem_self]
    refine ⟨by simp [OnlyElem], Elem.apply_waiting .., Elem.apply_out .., Elem.apply_axs .., fun p hp => Elem.apply_cnt _ _ hp⟩
  all_goals
    have hr := roomy_released hwait hroom
    have hs := (s.slot_released e k w).trans hy
    refine ⟨_, exec_outputBufferEntry hrun k, ?_⟩
    rw [State.enterBuffer_slot hw (hnow.trans h) hy]
  case load =>
    have hfin : ∀ u : State, u.finishFiring e k y = u.finishLoad e k o.ty o.d (y.wide || Dst.isV o.d) := fun u => by
      simp only [State.finishFiring, hins]
    rw [hfin]
    refine ⟨?_, (finished_finishLoad hk hs hr o.ty o.d (y.wide || Dst.isV o.d)).of_released⟩
    simp only [State.finishLoad, hs]
    exact State.waiting_finishSlot hs hr _ _
  case store =>
    have hfin : ∀ u : State, u.finishFiring e k y = u.finishNone e k := fun u => by simp only [State.finishFiring, hins]
    rw [hfin]
    exact ⟨State.waiting_finishSlot hs hr _ _, (finished_finishNone hk hs hr).of_released⟩

end Sys2Proof.Machine
end

section
/-! SUPPORT. The trump order: the transition it picks, and the pointer it moves. -/

namespace Sys2Proof.Machine

open Sys2Proof

/-! ### The enabled transitions (R24, R27) -/

/-- The place of transition k in the list of the enabled ones, if it is one. -/
def State.enabledAt (s : State) (e : Nat) (x : Elem) (k : Nat) : Option (Nat × Nat) :=
  let w := vget x.pool k 0
  if w.getLsbD 127 then
    match decodeWord w with
    | .ok d => if s.enabledOn e x d then some (k, w.toNat / 2 ^ 124 % 8) else none
    | .error _ =>
      if triggered (decodeTU (w.extractLsb' 96 32) (w.extractLsb' 64 32)) x then some (k, w.toNat / 2 ^ 124 % 8) else none
  else none

theorem State.enabledList_eq (s : State) (e : Nat) (x : Elem) : s.enabledList e x = (List.range 32).filterMap (s.enabledAt e x) := rfl

theorem State.eq_of_enabledAt {s : State} {e : Nat} {x : Elem} {k : Nat} {a : Nat × Nat} (h : s.enabledAt e x k = some a) :
    a = (k, (vget x.pool k 0).toNat / 2 ^ 124 % 8) := by
  unfold State.enabledAt at h
  dsimp only at h
  split at h
  · split at h
    · split at h
      · exact (Option.some.inj h).symm
      · cases h
    · split at h
      · exact (Option.some.inj h).symm
      · cases h
  · cases h

theorem State.mem_enabledList {s : State} {e : Nat} {x : Elem} {a : Nat × Nat} (h : a ∈ s.enabledList e x) :
    a.1 < 32 ∧ a.2 = (vget x.pool a.1 0).toNat / 2 ^ 124 % 8 := by
  rw [State.enabledList_eq, List.mem_filterMap] at h
  obtain ⟨k, hk, ha⟩ := h
  obtain rfl := State.eq_of_enabledAt ha
  exact ⟨List.mem_range.1 hk, rfl⟩

theorem State.enabledList_sorted (s : State) (e : Nat) (x : Elem) : (s.enabledList e x).Pairwise fun a b => a.1 < b.1 := by
  rw [State.enabledList_eq, List.pairwise_filterMap]
  refine List.pairwise_lt_range.imp fun {j k} hjk a ha b hb => ?_
  rw [State.eq_of_enabledAt ha, State.eq_of_enabledAt hb]
  exact hjk

/-! ### The winner (R27) -/

/-- How far transition j stands from the first above the last-fired pointer. -/
def farFrom (last j : Nat) : Nat := (j + 31 - last) % 32

theorem farFrom_inj {last j k : Nat} (hj : j < 32) (hk : k < 32) (hl : last < 32) (h : farFrom last j = farFrom last k) : j = k := by
  unfold farFrom at h
  omega

theorem lfp_lt (x : Elem) (p : Nat) : (vget x.lfp p 31).toNat < 32 := BitVec.isLt _

/-- The transitions of one priority, those above the pointer first. -/
def ring (last pri : Nat) (en : List (Nat × Nat)) : List (Nat × Nat) :=
  let of := en.filter fun k => k.2 == pri
  (of.filter fun k => last < k.1) ++ of

theorem trump_eq (x : Elem) (en : List (Nat × Nat)) :
    trump x en = (en.map Prod.snd).max?.bind fun pri => (ring (vget x.lfp pri 31).toNat pri en).head? := by
  unfold trump ring
  cases (en.map Prod.snd).max? with
  | none => rfl
  | some pri =>
    dsimp only [Option.bind_some]
    split
    · rename_i h
      rw [h, List.head?_cons]
    · rename_i h
      rw [h, List.head?_nil]

theorem mem_ring {last pri : Nat} {en : List (Nat × Nat)} {a : Nat × Nat} : a ∈ ring last pri en ↔ a ∈ en ∧ a.2 = pri := by
  simp only [ring, List.mem_append, List.mem_filter, beq_iff_eq, decide_eq_true_eq]
  exact ⟨fun h => h.elim And.left id, Or.inr⟩

theorem head_le_of_sorted {l : List (Nat × Nat)} (hs : l.Pairwise fun a b => a.1 < b.1) {a b : Nat × Nat} (ha : l.head? = some a)
    (hb : b ∈ l) : a.1 ≤ b.1 := by
  obtain ⟨t, rfl⟩ := List.head?_eq_some_iff.1 ha
  obtain rfl | hb := List.mem_cons.1 hb
  · exact Nat.le_refl _
  · exact Nat.le_of_lt (List.rel_of_pairwise_cons hs hb)

section
variable {last pri : Nat} {en : List (Nat × Nat)} (hl : last < 32) (hs : en.Pairwise fun a b => a.1 < b.1) (hen : ∀ a ∈ en, a.1 < 32)
include hl hs hen

/-- The head of the ring stands nearest above the pointer: above it where anything is, and else lowest. -/
theorem farFrom_ring_head {a : Nat × Nat} (ha : (ring last pri en).head? = some a) {b : Nat × Nat} (hb : b ∈ en) (hpri : b.2 = pri) :
    farFrom last a.1 ≤ farFrom last b.1 := by
  have hbof : b ∈ en.filter fun k => k.2 == pri := List.mem_filter.2 ⟨hb, beq_iff_eq.2 hpri⟩
  have hof := hs.filter fun k => k.2 == pri
  have ha32 : a.1 < 32 := hen a (mem_ring.1 (List.mem_of_head? ha)).1
  have hb32 : b.1 < 32 := hen b hb
  unfold ring at ha
  cases hafter : ((en.filter fun k => k.2 == pri).filter fun k => last < k.1).head? with
  | none =>
    have hnil := List.head?_eq_none_iff.1 hafter
    dsimp only at ha
    rw [hnil, List.nil_append] at ha
    have hle := head_le_of_sorted hof ha hbof
    have hbl : ¬ last < b.1 := fun h => List.filter_eq_nil_iff.1 hnil b hbof (decide_eq_true h)
    unfold farFrom
    omega
  | some c =>
    dsimp only at ha
    rw [List.head?_append, hafter, Option.some_or] at ha
    obtain rfl := Option.some.inj ha
    have hc := List.mem_filter.1 (List.mem_of_head? hafter)
    have hlc : last < c.1 := of_decide_eq_true hc.2
    by_cases hbl : last < b.1
    · have hle := head_le_of_sorted (hof.filter _) hafter (List.mem_filter.2 ⟨hbof, decide_eq_true hbl⟩)
      unfold farFrom
      omega
    · unfold farFrom
      omega

theorem ring_head_iff {a : Nat × Nat} : (ring last pri en).head? = some a ↔
    a ∈ en ∧ a.2 = pri ∧ ∀ b ∈ en, b.2 = pri → farFrom last a.1 ≤ farFrom last b.1 := by
  constructor
  · intro h
    obtain ⟨ha, hp⟩ := mem_ring.1 (List.mem_of_head? h)
    exact ⟨ha, hp, fun b hb hbp => farFrom_ring_head hl hs hen h hb hbp⟩
  · rintro ⟨ha, hp, hmin⟩
    have hmem : a ∈ ring last pri en := mem_ring.2 ⟨ha, hp⟩
    obtain ⟨c, hc⟩ : ∃ c, (ring last pri en).head? = some c := Option.isSome_iff_exists.1 (List.isSome_head?.2 (List.ne_nil_of_mem hmem))
    obtain ⟨hcen, hcp⟩ := mem_ring.1 (List.mem_of_head? hc)
    have hfar := Nat.le_antisymm (farFrom_ring_head hl hs hen hc ha hp) (hmin c hcen hcp)
    have h1 : c.1 = a.1 := farFrom_inj (hen c hcen) (hen a ha) hl hfar
    rw [hc, Prod.ext h1 (hcp.trans hp.symm)]

end

theorem trump_eq_some_iff (x : Elem) {en : List (Nat × Nat)} {k pri : Nat} (hs : en.Pairwise fun a b => a.1 < b.1) (hen : ∀ a ∈ en, a.1 < 32) :
    trump x en = some (k, pri) ↔ (k, pri) ∈ en ∧ (∀ a ∈ en, a.2 ≤ pri) ∧
      ∀ a ∈ en, a.2 = pri → farFrom (vget x.lfp pri 31).toNat k ≤ farFrom (vget x.lfp pri 31).toNat a.1 := by
  have hring (p : Nat) := ring_head_iff (pri := p) (a := (k, pri)) (lfp_lt x p) hs hen
  rw [trump_eq, Option.bind_eq_some_iff]
  constructor
  · rintro ⟨p, hp, hhead⟩
    obtain ⟨hmem, rfl, hmin⟩ := (hring p).1 hhead
    exact ⟨hmem, fun a ha => (List.max?_eq_some_iff.1 hp).2 a.2 (List.mem_map_of_mem ha), hmin⟩
  · rintro ⟨hmem, htop, hmin⟩
    refine ⟨pri, List.max?_eq_some_iff.2 ⟨List.mem_map_of_mem (f := Prod.snd) hmem, fun p hp => ?_⟩, (hring pri).2 ⟨hmem, rfl, hmin⟩⟩
    obtain ⟨a, ha, rfl⟩ := List.mem_map.1 hp
    exact htop a ha

theorem trump_eq_none_iff (x : Elem) (en : List (Nat × Nat)) : trump x en = none ↔ en = [] := by
  rw [trump_eq, Option.bind_eq_none_iff]
  constructor
  · intro h
    cases hp : (en.map Prod.snd).max? with
    | none => exact List.map_eq_nil_iff.1 (List.max?_eq_none_iff.1 hp)
    | some pri =>
      obtain ⟨a, ha, hap⟩ := List.mem_map.1 (List.max?_eq_some_iff.1 hp).1
      have hmem : a ∈ ring (vget x.lfp pri 31).toNat pri en := mem_ring.2 ⟨ha, hap⟩
      rw [List.head?_eq_none_iff.1 (h pri hp)] at hmem
      exact absurd hmem List.not_mem_nil
  · rintro rfl p hp
    cases hp

/-! ### Winning (R27) -/

theorem State.fetch_eq_some {s : State} {e : Nat} {c : Cur} (h : s.fetch e = some c) :
    c.elem = e ∧ trump (s.view e) (s.enabledList e (s.view e)) = some (c.tix, c.word.toNat / 2 ^ 124 % 8) := by
  obtain ⟨⟨k, pri⟩, ht, rfl⟩ := Option.map_eq_some_iff.1 h
  have hmem := (trump_eq_some_iff _ (s.enabledList_sorted ..) fun a ha => (State.mem_enabledList ha).1).1 ht
  have hpri : pri = _ := (State.mem_enabledList hmem.1).2
  exact ⟨rfl, hpri ▸ ht⟩

theorem State.elem_closeTurn (s : State) (n e : Nat) (c : Cur) : (s.closeTurn n c).elem e = (s.settle n c).elem e := by
  unfold State.closeTurn
  dsimp only
  split <;> rfl

theorem State.lfp_settle (s : State) (n : Nat) (c : Cur) : ((s.settle n c).elem c.elem).lfp =
    vset (s.elem c.elem).lfp (c.word.toNat / 2 ^ 124 % 8) (BitVec.ofNat 5 c.tix) := by
  unfold State.settle
  rw [State.modElem_eq, State.elem_setElem_self]

/-- Settles O55: the head of the transitions of the highest priority, those above its last-fired pointer first, is the first from the
pointer upward, and the end of a turn moves that pointer alone. -/
theorem trumpOrder : Obligations.TrumpOrder := by
  refine ⟨fun s e x => ⟨s.enabledList_sorted e x, fun a ha => ?_⟩, fun x en k pri hs hen => trump_eq_some_iff x hs hen, trump_eq_none_iff,
    fun s e c h => State.fetch_eq_some h, fun s n c p hp => ?_, fun s c => ⟨?_, fun hc => ?_⟩⟩
  · obtain ⟨h1, h2⟩ := State.mem_enabledList ha
    exact ⟨h1, h2 ▸ Nat.mod_lt _ (by decide)⟩
  · rw [State.elem_closeTurn, State.lfp_settle, vget_vset]
    simp only [hp, and_true, eq_comm]
  · exact List.mem_append_right _ (List.mem_singleton_self _)
  · simp [State.canTurn, hc]

end Sys2Proof.Machine
end

section
/-! SUPPORT. What a step runs: a turn, the vector half of a pair, an event and a tick. -/

namespace Sys2Proof.Machine

open Sys2Proof

/-! ### A turn (R27, R40, R50) -/

section
variable {s : State} {e : Nat} {p : Bool}

theorem turn_refused (h : s.canTurn e = false ∨ s.fetch e = none) : turn e p s = .next s := by
  unfold turn
  cases hc : s.canTurn e with
  | false => rfl
  | true =>
    have hf : s.fetch e = none := h.resolve_left (by simp [hc])
    simp only [if_true, hf]

variable {c : Cur} {i : Instr} (hc : s.canTurn e = true) (hf : s.fetch e = some c)
include hc hf

theorem turn_single (hw : decodeWord c.word = .ok (.single i)) :
    turn e p s = andThen (exec i (s.begin { c with prompt := p })) fun t => t.closeTurn (s.elem e).nseq { c with prompt := p } := by
  simp only [turn, hc, if_true, hf, hw]

theorem turn_pair {t : TU} {vh : Instr} (hw : decodeWord c.word = .ok (.pair t i vh)) :
    turn e p s = andThen (exec i (s.begin { c with prompt := p })) fun t => t.closeTurn (s.elem e).nseq { c with prompt := p } := by
  simp only [turn, hc, if_true, hf, hw]

end

/-! ### The head of the agenda (log 1, log 29) -/

section
variable {s : State} (hpair : s.pairDone = none) {c : Choice} {rest : List Choice} (hag : s.agenda = c :: rest)
include hpair hag

theorem step_agenda : step s = agendaStep s c rest := by
  simp only [step, hpair, hag]

/-- A choice of the phase of the cycle is made, unless a completion comes first. -/
theorem step_choice (htick : c ≠ .tick) (hlate : c.late = s.closing) (hflip : s.closing = true → s.dueFlip = none) :
    (s.dueBefore c = none → step s = choose c { s with agenda := rest }) ∧ ∀ i, s.dueBefore c = some i → step s = exec i s := by
  have hphase : (c.late != s.closing || (s.closing && s.dueFlip.isSome)) = false := by
    rw [hlate, bne_self_eq_false, Bool.false_or]
    cases h : s.closing with
    | false => rfl
    | true => rw [hflip h]; rfl
  refine ⟨fun h => ?_, fun i h => ?_⟩ <;>
    simp only [step_agenda hpair hag, agendaStep, if_neg htick, hphase, Bool.false_eq_true, if_false, h]

end

theorem step_tick {s : State} (hpair : s.pairDone = none) {rest : List Choice} (hag : s.agenda = .tick :: rest) (hclosing : s.closing = true)
    (hlate : s.dueLate = none) : step s = .next ({ s with agenda := rest } : State).nextCycle := by
  simp only [step_agenda hpair hag, agendaStep, hclosing, hlate, if_true, Option.isNone_none, Bool.and_self]

theorem step_vectorHalf {s : State} {h : PairHalf} {c : Cur} (hpair : s.pairDone = some h) (hcur : s.cur = some c) :
    step s = andThen (exec h.vh s) fun t => { t.closeTurn (s.elem c.elem).nseq c with cur := none, pairDone := none } := by
  simp only [step, hpair, hcur]

/-- Settles O54: the step makes the choice at the head of the agenda, a turn runs what the chosen transition decodes to, and what comes
before it is the completion that is due. -/
theorem stepRunsDecoded : Obligations.StepRunsDecoded := by
  refine ⟨fun s e p rest hpair hag hclosing => ?turn, fun s h c => step_vectorHalf, fun s i rest hpair hag hi hwork hflip => ?event,
    fun s rest hpair hag => step_tick hpair hag⟩
  case turn =>
    have hlate : (Choice.turn e p).late = s.closing := hclosing.symm
    obtain ⟨hrun, hfirst⟩ := step_choice hpair hag (by simp) hlate fun h => absurd (h.symm.trans hclosing) (by simp)
    have hbefore : s.dueBefore (.turn e p) = (s.dueFinish e).map Prod.snd := rfl
    rw [hbefore] at hrun hfirst
    intro u
    refine ⟨?_, fun hd h => (hrun (by rw [hd, Option.map_none])).trans (turn_refused h),
      fun d hd => hfirst _ (by rw [hd, Option.map_some])⟩
    intro c i hd hc hf d hw
    rw [hrun (by rw [hd, Option.map_none])]
    obtain hw | ⟨t, vh, hw⟩ := hw
    · exact turn_single hc hf hw
    · exact turn_pair hc hf hw
  case event =>
    have hlate : (Choice.event i).late = s.closing := by
      show (!workEvent i) = _
      rw [hwork, Bool.not_not]
    obtain ⟨hrun, hfirst⟩ := step_choice hpair hag (by simp) hlate hflip
    exact ⟨fun h => (hrun h).trans (if_pos hi), hfirst⟩

end Sys2Proof.Machine
end

section
/-! SUPPORT. The words the spec writes out, and the state after reset. -/

namespace Sys2Proof.Machine

open Sys2Proof

/-! ### Words (R23, R26, R50, R55, R58, R69, R76, R92) -/

/-- Settles O53: each word is closed, or closed but for the trigger and update that the decoder passes on, so the decoder
evaluates on it. -/
theorem decodeWords : Obligations.DecodeWords := by
  unfold Obligations.DecodeWords
  refine ⟨⟨?count0, ?count1, ?count2⟩, fun t => ⟨?_, ?_, ?_, ?_, ?_, ?_, ?_, ?_, ?_, ?_, ?_, ?_⟩, ?notValid, ?stray, ?field, ?length⟩
  case count0 | count1 | count2 | notValid | stray | field | length => decide
  all_goals rfl

/-! ### Reset (R47, R51, R185) -/

theorem vget_replicate {α : Type} (n : Nat) (a d : α) {k : Nat} (h : k < n) : vget (Vector.replicate n a) k d = a := by
  simp [vget, h]

theorem State.elem_reset (e : Nat) : State.reset.elem e = Elem.reset e := rfl

theorem State.part_reset {p : Nat} (h : p < 8) : State.reset.part p = Part.reset := vget_replicate 8 _ _ h

theorem Elem.pool_reset (e : Nat) {k : Nat} (h : k < 32) : vget (Elem.reset e).pool k 0 = 0 := vget_replicate 32 _ _ h

theorem Elem.lfp_reset (e : Nat) {p : Nat} (h : p < 8) : vget (Elem.reset e).lfp p 0 = 31 := vget_replicate 8 _ _ h

theorem Elem.slots_reset (e : Nat) {k : Nat} (h : k < 8) : vget (Elem.reset e).slots k none = none := vget_replicate 8 _ _ h

/-- The empty word holds no valid transition (R51). -/
theorem decodeWord_zero : decodeWord 0 = .error .notValid := by decide

/-- Settles O57: the memories are empty, and a partition or an element that nothing has set is its reset value. -/
theorem resetState : Obligations.ResetState := by
  have memories : State.reset.MemOk := ⟨Memory.wf_nil, Memory.wf_nil, Memory.wf_nil⟩
  refine ⟨memories, fun _ => rfl, rfl, rfl, rfl, rfl, rfl, rfl, fun p hp => ?part, rfl, rfl, fun e => ⟨fun k hk => ?pool, fun p hp => ?lfp, fun k hk => ?slot⟩⟩
  case part =>
    rw [State.part_reset hp]
    exact ⟨rfl, rfl, rfl, rfl, rfl, rfl, rfl, rfl, rfl⟩
  case pool => rw [State.elem_reset, Elem.pool_reset e hk, decodeWord_zero]
  case lfp => exact Elem.lfp_reset e hp
  case slot => exact Elem.slots_reset e hk

end Sys2Proof.Machine
end

section
/-! SUPPORT. The encoder and the decoder are inverse, to the last bit: what a decoder reads, the encoder writes back, field by field,
format by format and for a whole word; and what the encoder writes for a well-formed instruction, the decoder reads. -/

namespace Sys2Proof.Laws.Encoding

open Sys2Proof

/-! ### Decoders that succeed -/

theorem need_eq_ok {α : Type} {e : DecodeError} {x : Option α} {y : α} : need e x = .ok y ↔ x = some y := by
  cases x <;> simp [need]

theorem except_bind_eq_ok {ε α β : Type} {x : Except ε α} {f : α → Except ε β} {b : β} :
    x.bind f = .ok b ↔ ∃ a, x = .ok a ∧ f a = .ok b := by
  cases x <;> simp [Except.bind]

theorem except_do_eq_ok {ε α β : Type} {x : Except ε α} {f : α → Except ε β} {b : β} :
    (x >>= f) = .ok b ↔ ∃ a, x = .ok a ∧ f a = .ok b :=
  except_bind_eq_ok

theorem except_map_eq_ok {ε α β : Type} {x : Except ε α} {f : α → β} {b : β} : x.map f = .ok b ↔ ∃ a, x = .ok a ∧ f a = b := by
  cases x <;> simp [Except.map]

theorem except_pure_eq_ok {ε α : Type} {a b : α} : (pure a : Except ε α) = .ok b ↔ a = b := by
  simp [pure, Except.pure]

/-! ### Codes of fields (R55, R56, R58, R69) -/

theorem codeOfTy_of_tyOfCode {c : BitVec 4} {t : Ty} (h : tyOfCode c = some t) : codeOfTy t = c :=
  have all : ∀ c, ∀ t ∈ tyOfCode c, codeOfTy t = c := by decide
  all c t h

theorem codeOfSrc_of_srcOfCode {c : BitVec 7} {s : Src} (h : srcOfCode c = some s) : codeOfSrc s = c :=
  have all : ∀ c, ∀ s ∈ srcOfCode c, codeOfSrc s = c := by decide
  all c s h

theorem codeOfDst_of_dstOfCode {c : BitVec 6} {d : Dst} (h : dstOfCode c = some d) : codeOfDst d = c :=
  have all : ∀ c, ∀ d ∈ dstOfCode c, codeOfDst d = c := by decide
  all c d h

/-! ### A word is its fields side by side -/

theorem bit1_bitAt {n : Nat} (w : BitVec n) (i : Nat) : bit1 (bitAt w i) = w.extractLsb' i 1 := by
  apply BitVec.eq_of_getLsbD_eq
  intro j hj
  obtain rfl : j = 0 := by omega
  simp [bit1, bitAt]

/-- A part of a part of a word. -/
theorem extract_extract {n : Nat} (w : BitVec n) {i j l m : Nat} (h : j + m ≤ l) :
    (w.extractLsb' i l).extractLsb' j m = w.extractLsb' (i + j) m := by
  apply BitVec.eq_of_getLsbD_eq
  intro k hk
  have h1 : j + k < l := by omega
  simp [hk, h1, Nat.add_assoc]

theorem encodeA_of_decodeA {w : W64} {o : FmtA} (h : decodeA w = .ok o) : encodeA (w.extractLsb' 56 8) o = w := by
  simp only [decodeA, except_do_eq_ok, need_eq_ok, except_pure_eq_ok] at h
  obtain ⟨ty, hty, d, hd, a, ha, b, hb, c, hc, rfl⟩ := h
  simp (disch := rfl) only [encodeA, codeOfTy_of_tyOfCode hty, codeOfDst_of_dstOfCode hd, codeOfSrc_of_srcOfCode ha,
    codeOfSrc_of_srcOfCode hb, codeOfSrc_of_srcOfCode hc, BitVec.extractLsb'_append_extractLsb'_eq_extractLsb']
  exact BitVec.extractLsb'_eq_self

theorem encodeM_of_decodeM {w : W64} {o : FmtM} (h : decodeM w = .ok o) : encodeM (w.extractLsb' 56 8) o = w := by
  simp only [decodeM, except_do_eq_ok, need_eq_ok, except_pure_eq_ok] at h
  obtain ⟨ty, hty, d, hd, a, ha, b, hb, rfl⟩ := h
  simp (disch := rfl) only [encodeM, codeOfTy_of_tyOfCode hty, codeOfDst_of_dstOfCode hd, codeOfSrc_of_srcOfCode ha,
    codeOfSrc_of_srcOfCode hb, BitVec.extractLsb'_append_extractLsb'_eq_extractLsb']
  exact BitVec.extractLsb'_eq_self

theorem encodeE_of_decodeE {w : W64} {o : FmtE} (h : decodeE w = .ok o) : encodeE (w.extractLsb' 56 8) o = w := by
  simp only [decodeE, except_do_eq_ok, need_eq_ok, except_pure_eq_ok] at h
  obtain ⟨ty, hty, d, hd, a, ha, b, hb, c, hc, rfl⟩ := h
  simp (disch := rfl) only [encodeE, codeOfTy_of_tyOfCode hty, codeOfDst_of_dstOfCode hd, codeOfSrc_of_srcOfCode ha,
    codeOfSrc_of_srcOfCode hb, codeOfSrc_of_srcOfCode hc, BitVec.extractLsb'_append_extractLsb'_eq_extractLsb']
  exact BitVec.extractLsb'_eq_self

/-- T of the fields that T and U hold: V is the one bit of T that is no field (R51). -/
theorem encodeT_decodeTU {tw uw : W32} (hv : bitAt tw 31 = true) : encodeT (decodeTU tw uw) = tw := by
  have hv' : 1#1 = tw.extractLsb' 31 1 := by rw [← bit1_bitAt, hv]; rfl
  simp (disch := rfl) only [encodeT, decodeTU, hv', bit1_bitAt, BitVec.extractLsb'_append_extractLsb'_eq_extractLsb']
  exact BitVec.extractLsb'_eq_self

/-- U of the fields that T and U hold: U[3:1] are zero, and U[0] is PAIR (R52). -/
theorem encodeU_decodeTU {tw uw : W32} (hz : uw.extractLsb' 1 3 = 0) : encodeU (decodeTU tw uw) (bitAt uw 0) = uw := by
  have hz' : 0#3 = uw.extractLsb' 1 3 := hz.symm
  simp (disch := rfl) only [encodeU, decodeTU, hz', bit1_bitAt, BitVec.extractLsb'_append_extractLsb'_eq_extractLsb']
  exact BitVec.extractLsb'_eq_self

/-! ### Operations (R53, R76) and halves (R73 to R75) -/

theorem layoutOf_of_ofOpA {n : Nat} {t : TU} {o : FmtA} {i : Instr} (h : ofOpA n t o = some i) :
    layoutOf i = .a (BitVec.ofNat 8 n) t o := by
  unfold ofOpA at h
  split at h <;> cases h <;> rfl

theorem layoutOf_of_ofOpM {n : Nat} {t : TU} {o : FmtM} {i : Instr} (h : ofOpM n t o = some i) :
    layoutOf i = .m (BitVec.ofNat 8 n) t o := by
  unfold ofOpM at h
  split at h <;> cases h <;> rfl

/-- PIMAB and MXMODE choose their form by the immediate, which stays in the operation's fields. -/
theorem layoutOf_of_ofOpE {n : Nat} {t : TU} {o : FmtE} {i : Instr} (h : ofOpE n t o = some i) :
    layoutOf i = .e (BitVec.ofNat 8 n) t o := by
  unfold ofOpE at h
  split at h
  case h_19 | h_23 => split_ifs at h <;> cases h <;> rfl
  all_goals cases h <;> rfl

/-- A half that is read only if its idle fields are idle. -/
theorem except_ite_eq_ok {ε α : Type} {p : Prop} [Decidable p] {x y : α} {e : ε} :
    (if p then Except.ok x else .error e) = .ok y ↔ p ∧ x = y := by
  split <;> simp_all

theorem setWidth_setWidth_of_lt : ∀ {c : BitVec 5}, c.toNat < 16 → (c.setWidth 4).setWidth 5 = c := by
  decide

/-- The fields a form does not use are at the idle values that the layout gives them, and a condition fills only the four low bits (R75). -/
theorem layoutOf_of_ofSop {n : Nat} {ty : Ty} {d : BitVec 5} {a b : BitVec 6} {k : BitVec 5} {i : Instr}
    (h : ofSop n ty d a b k = .ok i) : layoutOf i = .half (BitVec.ofNat 6 n) ty d a b k := by
  unfold ofSop at h
  split at h
  case h_45 => cases h
  all_goals obtain ⟨idle, rfl⟩ := except_ite_eq_ok.1 h
  case h_22 | h_23 => simp only [layoutOf, setWidth_setWidth_of_lt idle, BitVec.ofNat_eq_ofNat]
  all_goals simp only [layoutOf, idle, BitVec.ofNat_eq_ofNat]

theorem encode_of_decodeHalf {w : W32} {i : Instr} (h : decodeHalf w = .ok i) : encode i = some (.half w) := by
  simp only [decodeHalf, except_do_eq_ok, need_eq_ok] at h
  obtain ⟨ty, hty, hi⟩ := h
  have hw : encodeHalf (w.extractLsb' 26 6) ty (w.extractLsb' 17 5) (w.extractLsb' 11 6) (w.extractLsb' 5 6) (w.extractLsb' 0 5) = w := by
    simp (disch := rfl) only [encodeHalf, codeOfTy_of_tyOfCode hty, BitVec.extractLsb'_append_extractLsb'_eq_extractLsb']
    exact BitVec.extractLsb'_eq_self
  simp only [encode, layoutOf_of_ofSop hi, BitVec.ofNat_toNat, BitVec.setWidth_eq, hw]

/-- The encoder writes an operation under the fields of T and U that it was read with. -/
theorem encode_of_decodeO {t : TU} {w : W64} {i : Instr} (h : decodeO t w = .ok i) :
    encode i = some (.word (encodeT t ++ encodeU t false ++ w)) := by
  simp only [decodeO] at h
  split_ifs at h
  all_goals
    simp only [except_bind_eq_ok, need_eq_ok] at h
    obtain ⟨o, ho, hi⟩ := h
  · simp only [encode, layoutOf_of_ofOpA hi, BitVec.ofNat_toNat, BitVec.setWidth_eq, encodeA_of_decodeA ho]
  · simp only [encode, layoutOf_of_ofOpM hi, BitVec.ofNat_toNat, BitVec.setWidth_eq, encodeM_of_decodeM ho]
  · simp only [encode, layoutOf_of_ofOpE hi, BitVec.ofNat_toNat, BitVec.setWidth_eq, encodeE_of_decodeE ho]

/-! ### Words (R50 to R53) -/

/-- The trigger and update that a word holds. -/
def wordTU (w : W128) : TU := decodeTU (w.extractLsb' 96 32) (w.extractLsb' 64 32)

/-- What a word that decodes holds under its PAIR bit. -/
inductive WordHolds (w : W128) : Decoded → Prop
  | single {i : Instr} (pair : bitAt w 64 = false) (op : decodeO (wordTU w) (w.extractLsb' 0 64) = .ok i) : WordHolds w (.single i)
  | pair {sc vh : Instr} (pair : bitAt w 64 = true) (scalar : decodeHalf (w.extractLsb' 32 32) = .ok sc)
      (vector : decodeHalf (w.extractLsb' 0 32) = .ok vh) : WordHolds w (.pair (wordTU w) sc vh)

/-- A word decodes only with V set, U[3:1] zero and its operation or halves read. -/
theorem decodeWord_inv {w : W128} {x : Decoded} (h : decodeWord w = .ok x) :
    bitAt w 127 = true ∧ w.extractLsb' 65 3 = 0 ∧ WordHolds w x := by
  unfold decodeWord at h
  split_ifs at h with hv hw hz hp
  all_goals refine ⟨by simpa using hv, not_not.1 hz, ?_⟩
  · simp only [except_do_eq_ok, except_pure_eq_ok] at h
    obtain ⟨sc, hsc, vh, hvh, rfl⟩ := h
    exact .pair hp hsc hvh
  · rw [except_map_eq_ok] at h
    obtain ⟨i, hi, rfl⟩ := h
    exact .single (by simpa using hp) hi

/-- A word with V set and U[3:1] zero is its trigger, its update with its PAIR bit, and its operation. -/
theorem word_eq_fields {w : W128} (hv : bitAt w 127 = true) (hz : w.extractLsb' 65 3 = 0) :
    encodeT (wordTU w) ++ encodeU (wordTU w) (bitAt w 64) ++ w.extractLsb' 0 64 = w := by
  have hv' : bitAt (w.extractLsb' 96 32) 31 = true := by simpa [bitAt] using hv
  have hz' : (w.extractLsb' 64 32).extractLsb' 1 3 = 0 := by rw [extract_extract w (by decide)]; exact hz
  have hp : bitAt (w.extractLsb' 64 32) 0 = bitAt w 64 := by simp [bitAt]
  rw [wordTU, encodeT_decodeTU hv', ← hp, encodeU_decodeTU hz']
  simp (disch := rfl) only [BitVec.extractLsb'_append_extractLsb'_eq_extractLsb']
  exact BitVec.extractLsb'_eq_self

theorem encode_of_decodeWord_single {w : W128} {i : Instr} (h : decodeWord w = .ok (.single i)) : encode i = some (.word w) := by
  obtain ⟨hv, hz, hx⟩ := decodeWord_inv h
  cases hx with
  | single hp hi =>
    have hw := word_eq_fields hv hz
    rw [hp] at hw
    rw [encode_of_decodeO hi, hw]

theorem encode_of_decodeWord_pair {w : W128} {t : TU} {sc vh : Instr} (h : decodeWord w = .ok (.pair t sc vh)) :
    ∃ a b, encode sc = some (.half a) ∧ encode vh = some (.half b) ∧ w = encodeT t ++ encodeU t true ++ (a ++ b) := by
  obtain ⟨hv, hz, hx⟩ := decodeWord_inv h
  cases hx with
  | pair hp hsc hvh =>
    have hw := word_eq_fields hv hz
    have hab : w.extractLsb' 32 32 ++ w.extractLsb' 0 32 = w.extractLsb' 0 64 := BitVec.extractLsb'_append_extractLsb'_eq_extractLsb' rfl
    rw [hp, ← hab] at hw
    exact ⟨_, _, encode_of_decodeHalf hsc, encode_of_decodeHalf hvh, hw.symm⟩

/-! ### Decoding what the encoder writes -/

/-- Every instruction is read from its encoding, by the lemma of its own name: one for each constructor, in the order of `Instr`. -/
theorem decodeCode_encode (i : Instr) : Statement i :=
  i.casesOn
    nop emit steer merge repl mark sink doneOp erls pset padd prd tag rpull lnch trap mov movi movh sel cmp add adds sub subs mul mulh
    fma div min max clamp abs neg andOp andn orOp xor shl shr sar rot clz popc cvt qnt rcp rsq sqrt exp2 log2 vbcast vperm vzip vuzp
    vtrn vpack vunpk vcmpr vxpd vred vscan bld bst bldx bstx brmw bcas ld st ldo ldw stw atom red cas fence pref inv sopen sparm sclose
    srec rfen gath scat cpy fill qfen rcopy rzero stash unstash coll pimabEnter pimabLeave pimld pimmac pimrd mxmodeEnter
    mxmodeEnterSplit mxmodeLeave mxwld mxc mxacc ipatch icfg iset iget istep isave irest ifeed isamp bari bara barw bart barq waita note
    rdsr wrsr time cfgw frz pairMov pairMovImm pairAdd pairAddImm pairAdds pairAddsImm pairSub pairSubImm pairSubs pairSubsImm pairMul
    pairMulImm pairMulh pairMulhImm pairMin pairMinImm pairMax pairMaxImm pairAbs pairNeg pairAnd pairAndImm pairAndn pairAndnImm pairOr
    pairOrImm pairXor pairXorImm pairShl pairShlImm pairShr pairShrImm pairSar pairSarImm pairRot pairRotImm pairClz pairClzImm pairPopc
    pairPopcImm pairCmp pairSteer pairVbcast pairVbcastImm firingCompletion outputBufferEntry tokenInjection tokenArrival cfgTokenApply
    faultRetry pgrspWrite cutRelease pageResponse functionLevelReset retiredTagTimeout sidedTokenReentry sparseUpdate watchMark
    barrierPhaseFlip engineQueueEntry copyChunk rowTransfer bankMacPerform gathRow scatRow stashChunk unstashChunk collMatch
    portTokenRead portTokenWrite pageEviction pageMigration migrationWindowEnd domainStep budgetExhausted eventPlaceMark
    integratorCommandPerform mma swapw flush flushMark dispatch regionRelease unitStart launchCompletion successorAppend quantumExpiry
    freeze saveReadout restore drain tailLampPass drainCompletion sectionShadow staleSectDiscard cutCompletion forcedCut
    markerCutTimeout sectionTokenCount vioRelease queueTailWrite qctlWrite cancel fqhWrite fqbWrite fqszWrite fltsClear ivgoWrite
    invalidationCompletion notice acknowledge refuse grant hotAdd hotRemove scrub scrubCompletion offer assignToModule partitionEnable
    partitionDisable pauseSet pauseClear maintWrite pcorWrite tnowWrite wrtWrite registerWrite hostBar2Read hostBar2Write tdispError
    peerAccess windowGrant lnk uncorrectableError moduleReset atsTranslationResponse atsInvalidation tdispStateChange keyGeneration
    attestationReport recoveryImage

theorem decodeHalf_of_encode {i : Instr} {a : W32} (hw : i.wf = true) (h : encode i = some (.half a)) : decodeHalf a = .ok i := by
  have hd : (decodeHalf a).map Decoded.single = .ok (.single i) := decodeCode_encode i hw _ h
  obtain ⟨j, hj, hji⟩ := except_map_eq_ok.1 hd
  cases hji
  exact hj

theorem decodeWord_of_halves {t : TU} {sc vh : Instr} {a b : W32} (hsc : decodeHalf a = .ok sc) (hvh : decodeHalf b = .ok vh) :
    decodeWord (encodeT t ++ encodeU t true ++ (a ++ b)) = .ok (.pair t sc vh) := by
  have ha : (a ++ b).extractLsb' 32 32 = a := by rw [extract_upper _ _ _ _ (by decide), extract_all]
  have hb : (a ++ b).extractLsb' 0 32 = b := by rw [extract_lower _ _ _ _ (by decide), extract_all]
  rw [decodeWord_fields, if_pos rfl, ha, hb, hsc, hvh]
  rfl

/-- Settles O52: instruction by instruction for what the encoder writes, and field by field, down to every bit, for what the decoder
reads. -/
theorem encodeDecode : Obligations.EncodeDecode := by
  unfold Obligations.EncodeDecode
  refine ⟨decodeCode_encode, fun t sc vh a b wsc wvh hsc hvh => ?pair, fun w i h => encode_of_decodeWord_single h,
    fun w t sc vh h => encode_of_decodeWord_pair h⟩
  case pair => exact decodeWord_of_halves (decodeHalf_of_encode wsc hsc) (decodeHalf_of_encode wvh hvh)

end Sys2Proof.Laws.Encoding
end

section
/-! SUPPORT. What a change of a slot or of a port leaves of the state, and the issue of a command that its unit takes at once. -/

namespace Sys2Proof.Machine

open Sys2Proof

/-! ### Entries of vectors and maps -/

theorem SMap.mem_of_find {α : Type} {k : Nat} {x : α} {m : List (Nat × α)} (h : SMap.find k m = some x) : (k, x) ∈ m := by
  induction m with
  | nil => cases h
  | cons p m ih =>
    rw [SMap.find] at h
    split_ifs at h with hk hl
    · cases h
      exact hk ▸ List.mem_cons_self
    · exact List.mem_cons_of_mem _ (ih h)

theorem SMap.get_eq_getD_find {α : Type} (d : α) (k : Nat) (m : List (Nat × α)) : SMap.get d k m = (SMap.find k m).getD d := by
  induction m with
  | nil => rfl
  | cons p m ih =>
    rw [SMap.get, SMap.find]
    split_ifs
    · rfl
    · rfl
    · exact ih

theorem mem_toList_iff_vget {α : Type} {n : Nat} {v : Vector (Option α) n} {x : α} :
    some x ∈ v.toList ↔ ∃ i < n, vget v i none = some x := by
  rw [Vector.mem_toList_iff, Vector.mem_iff_getElem]
  exact exists_congr fun i => ⟨fun ⟨hi, h⟩ => ⟨hi, by rw [vget, dif_pos hi, h]⟩, fun ⟨hi, h⟩ => ⟨hi, by rwa [vget, dif_pos hi] at h⟩⟩

theorem lt_of_vget_eq_some {α : Type} {n i : Nat} {v : Vector (Option α) n} {x : α} (h : vget v i none = some x) : i < n := by
  by_contra hi
  rw [vget, dif_neg hi] at h
  cases h

/-! ### Slots and ports -/

@[simp] theorem State.slot_setSlot_self (s : State) (e : Nat) {k : Nat} (y : Slot) (h : k < 8) : (s.setSlot e k y).slot e k = some y := by
  simp [State.slot, State.setSlot, h]

@[simp] theorem State.slot_setPort (s : State) (c n e k : Nat) (p : Port) : (s.setPort c n p).slot e k = s.slot e k := rfl

@[simp] theorem State.port_setSlot (s : State) (e k c n : Nat) (y : Slot) : (s.setSlot e k y).port c n = s.port c n := rfl

@[simp] theorem State.port_setPort_self (s : State) (c : Nat) {n : Nat} (p : Port) (h : n < 8) : (s.setPort c n p).port c n = some p := by
  simp [State.port, State.setPort, h]

theorem State.port_setPort_ne (s : State) (c : Nat) {j n : Nat} (p : Port) (h : j ≠ n) : (s.setPort c n p).port c j = s.port c j := by
  simp [State.port, State.setPort, vget_vset_ne _ _ _ h.symm]

theorem State.port_congr {s t : State} (h : t.cores = s.cores) (c n : Nat) : t.port c n = s.port c n := by
  rw [State.port, State.port, State.core, State.core, h]

theorem State.port_lt {s : State} {c n : Nat} {p : Port} (h : s.port c n = some p) : n < 8 := lt_of_vget_eq_some h

theorem State.modPort_eq {s : State} {c n : Nat} {p : Port} (h : s.port c n = some p) (f : Port → Port) :
    s.modPort c n f = s.setPort c n (f p) := by
  simp only [State.modPort, h]

theorem State.port_modPort (s : State) (c n j : Nat) (f : Port → Port) :
    (s.modPort c n f).port c j = if j = n then (s.port c j).map f else s.port c j := by
  by_cases hj : j = n
  · subst hj
    rw [if_pos rfl]
    cases hp : s.port c j with
    | none => simp only [State.modPort, hp, Option.map_none]
    | some p => rw [State.modPort_eq hp, State.port_setPort_self _ _ _ (State.port_lt hp), Option.map_some]
  · rw [if_neg hj]
    cases hp : s.port c n with
    | none => simp only [State.modPort, hp]
    | some p => rw [State.modPort_eq hp, State.port_setPort_ne _ _ _ hj]

theorem State.performed_eq {s : State} {e k : Nat} {y : Slot} (h : s.slot e k = some y) (v : VW) :
    s.performed e k v = s.setSlot e k { y with stage := 3, st := .late, lres := v } := by
  simp only [State.performed, h]

theorem performed_performed {s : State} {e k : Nat} {y : Slot} (hk : k < 8) (h : s.slot e k = some y) (v : VW) :
    Performed (s.performed e k v) e k y.ins v := by
  rw [State.performed_eq h]
  exact ⟨_, State.slot_setSlot_self _ _ _ hk, rfl, rfl, rfl⟩

/-! ### What stays quiet -/

theorem Quiet.trans {s t u : State} {e : Nat} (h : Quiet s t e) (g : Quiet t u e) : Quiet s u e where
  mem := ⟨g.mem.1.trans h.mem.1, g.mem.2.1.trans h.mem.2.1, g.mem.2.2.trans h.mem.2.2⟩
  regs := ⟨g.regs.1.trans h.regs.1, g.regs.2.trans h.regs.2⟩
  toks := g.toks.trans h.toks
  flags := g.flags.trans h.flags

theorem quiet_of_elems {s t : State} (hm : t.mem = s.mem ∧ t.hostMem = s.hostMem ∧ t.peerMem = s.peerMem) (he : t.elems = s.elems) (e : Nat) :
    Quiet s t e := by
  have h := State.elem_congr he e
  exact ⟨hm, ⟨by rw [h], by rw [h]⟩, by rw [h], by rw [h]⟩

theorem quiet_refl (s : State) (e : Nat) : Quiet s s e := quiet_of_elems ⟨rfl, rfl, rfl⟩ rfl e

theorem quiet_setPort (s : State) (c n : Nat) (p : Port) (e : Nat) : Quiet s (s.setPort c n p) e :=
  quiet_of_elems (s := s) (t := s.setPort c n p) ⟨rfl, rfl, rfl⟩ rfl e

theorem quiet_setSlot (s : State) (e k : Nat) (y : Slot) : Quiet s (s.setSlot e k y) e := by
  have h : (s.setSlot e k y).elem e = { s.elem e with slots := vset (s.elem e).slots k (some y) } := State.elem_setElem_self ..
  exact ⟨⟨rfl, rfl, rfl⟩, ⟨by rw [h], by rw [h]⟩, by rw [h], by rw [h]⟩

theorem quiet_performed (s : State) (e k : Nat) (v : VW) : Quiet s (s.performed e k v) e := by
  unfold State.performed
  split
  · exact quiet_refl s e
  · exact quiet_setSlot s e k _

/-- An issue into a slot keeps whatever of an element is not of what it changes. -/
theorem Issued.keeps {x y : Elem} {t : TU} {k chn : Nat} (h : Issued x y t k chn) {γ : Type} (g : Elem → γ)
    (hg : ∀ x : Elem, g x.unissued = g x) : g y = g x :=
  (hg y).symm.trans ((congrArg g h.still).trans (hg x))

/-- An issue into a slot is quiet. -/
theorem Takes.quiet {s u : State} {f : Firing} {i : Instr} {k : Nat} {a b c : VW} {chn : Nat} (h : Takes s u f i k a b c chn) :
    Quiet s u f.e := by
  have hm : u.mem = s.mem ∧ u.hostMem = s.hostMem ∧ u.peerMem = s.peerMem := by
    rw [h.only]
    exact ⟨rfl, rfl, rfl⟩
  have keeps {γ : Type} (g : Elem → γ) := h.issued.keeps g
  exact ⟨hm, ⟨keeps Elem.s fun _ => rfl, keeps Elem.v fun _ => rfl⟩, keeps Elem.out fun _ => rfl, keeps Elem.axs fun _ => rfl⟩

/-! ### What changes of ports and of translation caches keep -/

/-- A state without its cores and the caches of its base dies. -/
def State.coreless (s : State) : State := { s with cores := [], baseTlb := [] }

theorem State.coreless_modPort (s : State) (c n : Nat) (f : Port → Port) : (s.modPort c n f).coreless = s.coreless := by
  unfold State.modPort
  split <;> rfl

theorem State.elems_of_coreless {s t : State} (h : t.coreless = s.coreless) : t.elems = s.elems := by
  show t.coreless.elems = s.coreless.elems
  rw [h]

theorem State.slot_of_coreless {s t : State} (h : t.coreless = s.coreless) (e k : Nat) : t.slot e k = s.slot e k := by
  rw [State.slot, State.slot, State.elem_congr (State.elems_of_coreless h)]

theorem State.mem_of_coreless {s t : State} (h : t.coreless = s.coreless) : t.mem = s.mem := by
  show t.coreless.mem = s.coreless.mem
  rw [h]

theorem quiet_of_coreless {s t : State} (h : t.coreless = s.coreless) (e : Nat) : Quiet s t e := by
  have hm : t.coreless.hostMem = s.coreless.hostMem ∧ t.coreless.peerMem = s.coreless.peerMem := by rw [h]; exact ⟨rfl, rfl⟩
  exact quiet_of_elems ⟨State.mem_of_coreless h, hm⟩ (State.elems_of_coreless h) e

/-! ### A command that its unit takes at once (R29, R30) -/

/-- The operation of a slot is tried once it is sound and what is ordered before it has been performed. -/
theorem State.trySlot_acts {s : State} {e k : Nat} {y : Slot} (hy : s.slot e k = some y) (hstage : y.stage = 0) (hheld : y.held = false)
    {bad : Slot → Option (Nat × Nat)} (hb : bad y = none) (hedges : s.edgesMet e y = true) (act : Slot → State) :
    s.trySlot e k bad act = act y := by
  simp [State.trySlot, hy, hstage, hheld, hb, hedges]

/-- A slot as its firing has just filled it. -/
structure Slot.Fresh (y : Slot) (i : Instr) : Prop where
  ins : y.ins = i
  stage : y.stage = 0
  held : y.held = false
  sub : y.sub = 0

theorem State.slot_takeSlot_fresh {s : State} {f : Firing} {k : Nat} (hk : freeSlot f.x = some k) (i : Instr) (a b c : VW) (fl : Fl) (chn : Nat) :
    ∃ y, (s.takeSlot f i a b c fl chn).1.slot f.e k = some y ∧ y.Fresh i := by
  simp only [State.slot, State.takeSlot, State.issue, State.modElem_eq, State.setElem_setElem, State.elem_setElem_self, hk,
    Option.getD_some, vget_vset_self _ _ _ _ (freeSlot_lt hk)]
  exact ⟨_, rfl, rfl, rfl, rfl, rfl⟩

/-- Of an element with nothing else outstanding, the operation that has just been issued is the only one. -/
theorem Takes.edgesMet {s u : State} {f : Firing} {i : Instr} {k : Nat} {a b c : VW} {chn : Nat} (h : Takes s u f i k a b c chn)
    (ha : Alone s f.e) {y : Slot} (hy : u.slot f.e k = some y) : u.edgesMet f.e y = true := by
  obtain ⟨hslots, hposted, hupdates, hsided, -⟩ := ha
  have hp : (u.elem f.e).posted = [] := (h.issued.keeps Elem.posted fun _ => rfl).trans hposted
  have hu : u.updates = [] := by
    rw [h.only]
    exact hupdates
  have hd : u.sided = [] := by
    rw [h.only]
    exact hsided
  refine List.all_eq_true.2 fun z hz => ?_
  suffices hzy : z = y by simp [hzy]
  simp only [State.outstanding, hp, hu, hd, List.filter_nil, List.map_nil, List.append_nil, List.mem_filter, List.mem_filterMap, id_eq,
    exists_eq_right] at hz
  obtain ⟨j, hj, hjz⟩ := mem_toList_iff_vget.1 hz.1
  by_cases hjk : j = k
  · subst hjk
    exact Option.some.inj (hjz.symm.trans hy)
  · rw [h.issued.slots j hj hjk] at hjz
    exact absurd ((hslots j hj).symm.trans hjz) (by simp)

/-- A sound command of an element with nothing outstanding is performed as it issues: u is the state in which it stands in its slot as y. -/
theorem cmdIssue_performs {s : State} {t : TU} {f : Firing} {k : Nat} (h : ReadyIn s t f k) (i : Instr) (a b c : VW)
    {bad : Slot → Option (Nat × Nat)} (hb : ∀ y, bad y = none) (perf : Nat → Nat → State → State) :
    ∃ u y, cmdIssue i a b c bad perf f s = perf f.e k u ∧ Takes s u f i k a b c 0 ∧ u.slot f.e k = some y ∧ y.Fresh i ∧
      u.edgesMet f.e y = true := by
  obtain ⟨hord, hk, hprompt, halone⟩ := h
  have ht := takes_of hord.1 hk i a b c flNone 0
  obtain ⟨y, hy, hfresh⟩ := State.slot_takeSlot_fresh (s := s) hk i a b c flNone 0
  refine ⟨_, y, ?_, ht, hy, hfresh, ht.edgesMet halone hy⟩
  have hcur : (s.takeSlot f i a b c flNone 0).1.cur = s.cur := by
    rw [ht.only]
    rfl
  obtain ⟨w, hw, hp⟩ := Option.map_eq_some_iff.1 hprompt
  have hslot : (s.takeSlot f i a b c flNone 0).2 = k := congrArg (Option.getD · 0) hk
  simp only [cmdIssue, hslot, State.promptly, hy, hb, hcur, hw, hp, if_true]

end Sys2Proof.Machine
end

section
/-! SUPPORT. The stream port commands at their port: SOPEN, SPARM, SREC and SCLOSE (R512 to R516). -/

namespace Sys2Proof.Machine

open Sys2Proof

/-! ### A command at its port (R516) -/

/-- Slot k of element e holds y, a command that may reach port n of the element's core, which is p: its firing issued in an earlier cycle, and no
older command of the element is still to come before it. -/
structure AtPort (s : State) (e k n : Nat) (y : Slot) (p : Port) : Prop where
  slotNo : k < 8
  slot : s.slot e k = some y
  stage : y.stage = 0
  held : y.held = false
  edges : s.edgesMet e y = true
  port : s.port (coreOf e) n = some p
  sent : s.sentBefore e y = true
  first : ∀ j < 8, ∀ z, s.slot e j = some z → s.portBefore e p z y = false

/-- Port n of e's core is q in s', and no other port, no memory and no register of e differs. -/
def PortPut (s s' : State) (e n : Nat) (q : Port) : Prop :=
  s'.port (coreOf e) n = some q ∧ (∀ j, j ≠ n → s'.port (coreOf e) j = s.port (coreOf e) j) ∧ Quiet s s' e

/-- Before the cycle after its issue a command leaves its port and the rest of the state alone. -/
theorem State.tryPort_early {s : State} {e k : Nat} {y : Slot} (hy : s.slot e k = some y) (h : s.sentBefore e y = false) (n : Nat)
    (act : Slot → Port → State) : s.tryPort e k n act = s := by
  simp only [State.tryPort, State.trySlot, hy, noBad, h, Bool.false_and, Bool.false_eq_true, if_false]
  split
  · rfl
  · split
    · split <;> rfl
    · rfl

theorem choose_command {s : State} {e k : Nat} {y : Slot} {i : Instr} (hr : s.runs e = true) (hy : s.slot e k = some y) (hi : y.ins = i)
    (hl : ∃ op t o, layoutOf i = .e op t o) (he : engineOf i = none) : choose (.perform e k) s = .next (attemptCmd i e k s) := by
  obtain ⟨op, t, o, hl⟩ := hl
  simp [choose, hr, State.attempt, hy, hi, hl, he]

theorem choose_portOp_early {s : State} {e k : Nat} {y : Slot} (hr : s.runs e = true) (hy : s.slot e k = some y) (hi : isPortOp y.ins = true)
    (h : s.sentBefore e y = false) : choose (.perform e k) s = .next s := by
  have early (n : Nat) (act : Slot → Port → State) : (.next (s.tryPort e k n act) : Host.Outcome State Fault Refusal) = .next s :=
    congrArg _ (State.tryPort_early hy h n act)
  unfold isPortOp at hi
  split at hi
  case h_5 => cases hi
  all_goals
    rename_i hins
    exact (choose_command hr hy hins ⟨_, _, _, rfl⟩ rfl).trans (early _ _)

section
variable {s : State} {e k n : Nat} {y : Slot} {p : Port} (h : AtPort s e k n y p)
include h

theorem AtPort.acts (act : Slot → Port → State) : s.tryPort e k n act = act y p := by
  rw [State.tryPort, State.trySlot_acts h.slot h.stage h.held rfl h.edges]
  simp only [h.port, h.sent, Bool.true_and]
  refine if_pos ?_
  rw [Bool.not_eq_true', List.any_eq_false]
  intro z hz
  cases z with
  | none => exact Bool.false_ne_true
  | some z =>
    obtain ⟨j, hj, hjz⟩ := mem_toList_iff_vget.1 hz
    simp [h.first j hj z hjz]

/-- The command changes its port and is performed. -/
theorem AtPort.puts (q : Port) (v : VW) :
    PortPut s ((s.setPort (coreOf e) n q).performed e k v) e n q ∧ Performed ((s.setPort (coreOf e) n q).performed e k v) e k y.ins v := by
  have hs : (s.setPort (coreOf e) n q).slot e k = some y := h.slot
  refine ⟨?_, performed_performed h.slotNo hs v⟩
  have hq : Quiet s ((s.setPort (coreOf e) n q).performed e k v) e := (quiet_setPort ..).trans (quiet_performed ..)
  rw [State.performed_eq hs] at hq ⊢
  exact ⟨State.port_setPort_self _ _ _ (State.port_lt h.port), fun j hj => State.port_setPort_ne _ _ _ hj, hq⟩

/-- The command is performed and leaves its port as it is. -/
theorem AtPort.reads (v : VW) : PortPut s (s.performed e k v) e n p ∧ Performed (s.performed e k v) e k y.ins v := by
  refine ⟨?_, performed_performed h.slotNo h.slot v⟩
  have hq := quiet_performed s e k v
  rw [State.performed_eq h.slot] at hq ⊢
  exact ⟨h.port, fun _ _ => rfl, hq⟩

/-- The command changes its port and stays in its slot as z. -/
theorem AtPort.stays (q : Port) (z : Slot) :
    PortPut s ((s.setPort (coreOf e) n q).setSlot e k z) e n q ∧ ((s.setPort (coreOf e) n q).setSlot e k z).slot e k = some z :=
  ⟨⟨State.port_setPort_self _ _ _ (State.port_lt h.port), fun _ hj => State.port_setPort_ne _ _ _ hj,
    (quiet_setPort ..).trans (quiet_setSlot ..)⟩, State.slot_setSlot_self _ _ _ h.slotNo⟩

/-- The command waits in its slot as z. -/
theorem AtPort.waits (z : Slot) : PortPut s (s.setSlot e k z) e n p ∧ (s.setSlot e k z).slot e k = some z :=
  ⟨⟨h.port, fun _ _ => rfl, quiet_setSlot ..⟩, State.slot_setSlot_self _ _ _ h.slotNo⟩

end

/-! ### The commands (R512 to R515) -/

/-- The window that opens (R511, R513). -/
theorem Port.openWindow_eq (p : Port) (i0 : W64) (n : Nat) :
    p.openWindow i0 n true = { p with
      wbase := p.base, wstride := p.stride, wtsrx := p.tsrx, open_ := true, bySopen := true, wfst := i0, wcnt := n, cursor := 0, next := 0
      count := 0, ahead := [], due := if p.out = false ∧ n = 0 then [Token.bare .eos p.ctl 0] else [] } := by
  simp [Port.openWindow]

theorem Port.lwm_eq_some {p : Port} (ho : p.open_ = true) (hi : p.indirect = false) (hj : (if p.out then p.next else p.cursor) < p.wcnt) :
    p.lwm = some (min (p.addr (if p.out then p.next else p.cursor)) (p.addr (p.wcnt - 1))) := by
  simp [Port.lwm, ho, hi, Nat.not_le.2 hj]

/-- The fields of a port but LWM, by their numbers (R515). -/
def plainFields (p : Port) : List (Nat × Nat) :=
  [(0, p.count % 2 ^ 32), (1, p.wcnt % 2 ^ 32),
    (2, p.open_.toNat + 2 * p.out.toNat + 4 * p.indirect.toNat + 8 * p.held.toNat + 16 * p.discard.toNat + 32 * p.auto.toNat),
    (4, p.base.toNat), (5, p.stride.toNat), (6, p.disc % 2 ^ 32)]

theorem portField_of_mem {p : Port} (free : Nat) {g : Nat × Nat} (h : g ∈ plainFields p) : g.1 ≠ 3 ∧ portField p free g.1 = g.2 := by
  revert g
  simp [plainFields, portField]

/-- What SPARM makes of its port, and whether it found what it names (R514). -/
def sparmOf (o : FmtE) (p : Port) (w : Nat) (known : Bool) : Port × Bool :=
  match o.imm.toNat / 8 % 8 with
  | 0 => ({ p with base := BitVec.ofNat 64 w }, true)
  | 1 => ({ p with stride := BitVec.ofNat 32 w }, true)
  | 2 => if known then ({ p with tsrx := w % 256 }, true) else ({ p with tsrx := 255 }, false)
  | _ => ({ p with auto := w % 2 == 1 }, true)

section
variable {s : State} {e k : Nat} {y : Slot} {o : FmtE} {p : Port} (h : AtPort s e k (o.imm.toNat % 8) y p)
include h

theorem performSopen_closed (ho : p.open_ = false) :
    performSopen o e k s =
      (s.setPort (coreOf e) (o.imm.toNat % 8) (p.openWindow (BitVec.ofNat 64 (y.opa.toNat % 2 ^ 32)) (countOf y) true)).performed e k
        (word512 (countOf y)) := by
  rw [performSopen, h.acts, ho, if_neg Bool.false_ne_true]

theorem performSopen_open (ho : p.open_ = true) : performSopen o e k s = s := by
  rw [performSopen, h.acts, ho, if_pos rfl]

theorem performSparm_eq :
    performSparm o e k s =
      let x := sparmOf o p y.opa.toNat (((s.regOf e).map fun r => r.tsr.any fun x => x.1 == y.opa.toNat % 256).getD false)
      (s.setPort (coreOf e) (o.imm.toNat % 8) x.1).performed e k (word512 x.2.toNat) := by
  rw [performSparm, h.acts]
  rfl

theorem sparm_puts {x : Port × Bool}
    (hx : sparmOf o p y.opa.toNat (((s.regOf e).map fun r => r.tsr.any fun x => x.1 == y.opa.toNat % 256).getD false) = x) :
    PortPut s (performSparm o e k s) e (o.imm.toNat % 8) x.1 ∧ Performed (performSparm o e k s) e k y.ins (word512 x.2.toNat) := by
  rw [performSparm_eq h]
  exact hx ▸ h.puts _ _

/-- Every field but LWM, and LWM of a window with something left, takes no free value. -/
theorem srec_reads (hg : o.imm.toNat / 8 % 8 ≠ 3 ∨ p.lwm.isSome) :
    PortPut s (performSrec o e k s) e (o.imm.toNat % 8) p ∧
      Performed (performSrec o e k s) e k y.ins (word512 (portField p s.free (o.imm.toNat / 8 % 8))) := by
  have hf : (decide (o.imm.toNat / 8 % 8 = 3) && p.lwm.isNone) = false := by
    rcases hg with hg | hg
    · simp [hg]
    · simp [Option.isNone_eq_false_iff.2 hg]
  rw [performSrec, h.acts]
  simp only [hf, Bool.false_eq_true, if_false]
  exact h.reads _

theorem performSclose_closed (ho : p.open_ = false) : performSclose o e k s = s.performed e k 0 := by
  simp only [performSclose, h.acts, ho, Bool.not_false, if_true]

/-- SCLOSE waits while its out port is busy: it keeps the number of tokens that the port has to write first. -/
theorem performSclose_busy (hsub : y.sub = 0) (ho : p.open_ = true) (hb : p.busy = true) :
    performSclose o e k s = s.setSlot e k { y with sub := p.count + p.taken + 1 } := by
  simp only [Port.busy, Bool.and_eq_true, Bool.or_eq_true, bne_iff_ne, ne_eq] at hb
  obtain ⟨hout, hb⟩ := hb
  have hwait : (p.held || p.cut != 0 || p.full != 0 || decide (p.count + 1 < p.count + p.taken + 1)) = true := by
    simp only [Bool.or_eq_true, bne_iff_ne, ne_eq, decide_eq_true_eq]
    exact hb.imp_right fun htaken => by omega
  simp only [performSclose, h.acts, ho, hout, hsub, hwait, Bool.not_true, Bool.false_eq_true, if_false, if_true]

theorem performSclose_out (hsub : y.sub = 0) (ho : p.open_ = true) (hout : p.out = true) (hb : p.busy = false) :
    performSclose o e k s =
      (s.setPort (coreOf e) (o.imm.toNat % 8) { p with open_ := false, discard := true }).performed e k (word512 p.count) := by
  simp only [Port.busy, hout, Bool.true_and, Bool.or_eq_false_iff, bne_eq_false_iff_eq] at hb
  obtain ⟨⟨⟨hheld, hcut⟩, hfull⟩, htaken⟩ := hb
  have hwait : (p.held || p.cut != 0 || p.full != 0 || decide (p.count + 1 < p.count + p.taken + 1)) = false := by
    simp [hheld, hcut, hfull, htaken]
  simp only [performSclose, h.acts, ho, hout, hsub, hwait, Bool.not_true, Bool.false_eq_true, if_false, if_true]

theorem performSclose_sect (ho : p.open_ = true) (hout : p.out = false) (hs : p.owesSect = true) :
    performSclose o e k s =
      (s.setPort (coreOf e) (o.imm.toNat % 8)
        { p with ahead := [], due := p.due.filter fun m => m.kind == .sect, cursor := p.wcnt }).setSlot e k { y with sub := 1 } := by
  simp only [performSclose, h.acts, ho, hout, hs, Bool.not_true, Bool.false_eq_true, if_false, if_true]

/-- An in port that owes no SECT closes and sends EOS, which carries the command that it completes (R514). -/
theorem sclose_sends (ho : p.open_ = true) (hout : p.out = false) (hs : p.owesSect = false) :
    PortPut s (performSclose o e k s) e (o.imm.toNat % 8) { p with ahead := [], due := [], held := false, open_ := false, cursor := p.next } ∧
      (∃ z, (performSclose o e k s).flight = s.flight ++ [z] ∧ z.dst = .queue (coreOf e * 64 + p.exy) p.vc ∧
        z.toks = [Token.bare .eos p.ctl 0]) ∧
      (performSclose o e k s).slot e k = some { y with stage := 1, lres := word512 p.count } := by
  rw [performSclose]
  dsimp only
  rw [h.acts, if_neg (by simp [ho]), if_neg (by simp [hout]), if_neg (by simp [hs])]
  obtain ⟨⟨hport, hports, hmem, hregs, htoks, hflags⟩, hslot⟩ := h.stays
    { p with ahead := [], due := [], held := false, open_ := false, cursor := p.next } { y with stage := 1, lres := word512 p.count }
  exact ⟨⟨hport, hports, hmem, hregs, htoks, hflags⟩, ⟨_, rfl, rfl, rfl⟩, hslot⟩

end

theorem portCommandsTaken : Claims.PortCommandsTaken := by
  intro s e k y t o p hk hy hstage hheld hsub hruns hedges hp hfirst
  refine ⟨fun hsent hi => choose_portOp_early hruns hy hi hsent, fun hsent => ?_⟩
  have h : AtPort s e k (o.imm.toNat % 8) y p := ⟨hk, hy, hstage, hheld, hedges, hp, hsent, hfirst⟩
  have sopen (hi : y.ins = .sopen t o) : choose (.perform e k) s = .next (performSopen o e k s) :=
    choose_command hruns hy hi ⟨_, _, _, rfl⟩ rfl
  have sparm (hi : y.ins = .sparm t o) : choose (.perform e k) s = .next (performSparm o e k s) :=
    choose_command hruns hy hi ⟨_, _, _, rfl⟩ rfl
  have srec (hi : y.ins = .srec t o) : choose (.perform e k) s = .next (performSrec o e k s) :=
    choose_command hruns hy hi ⟨_, _, _, rfl⟩ rfl
  have sclose (hi : y.ins = .sclose t o) : choose (.perform e k) s = .next (performSclose o e k s) :=
    choose_command hruns hy hi ⟨_, _, _, rfl⟩ rfl
  refine ⟨fun hi ho => ⟨_, sopen hi, ?opens⟩, fun hi ho => ?waits, fun hi hg => ⟨_, sparm hi, ?base⟩, fun hi hg => ⟨_, sparm hi, ?stride⟩,
    fun r hi hr hg => ⟨_, sparm hi, ?shape⟩, fun hi hg => ⟨_, sparm hi, ?auto⟩, fun g hg hi hf => ⟨_, srec hi, ?field⟩,
    fun hi ho hind hj hf => ⟨_, srec hi, ?lwm⟩, fun hi ho => ⟨_, sclose hi, ?closed⟩, fun hi ho hb => ⟨_, sclose hi, ?busy⟩,
    fun hi ho hout hb => ⟨_, sclose hi, ?out⟩, fun hi ho hout hs => ⟨_, sclose hi, ?sect⟩, fun hi ho hout hs => ⟨_, sclose hi, ?eos⟩⟩
  case opens =>
    rw [performSopen_closed h ho, ← hi]
    have hput := h.puts (p.openWindow (BitVec.ofNat 64 (y.opa.toNat % 2 ^ 32)) (countOf y) true) (word512 (countOf y))
    rw [Port.openWindow_eq] at hput ⊢
    exact hput
  case waits => rw [sopen hi, performSopen_open h ho]
  case base =>
    rw [← hi]
    exact sparm_puts h (x := (_, true)) (by simp only [sparmOf, hg])
  case stride =>
    rw [← hi, show BitVec.ofNat 32 (y.opa.toNat % 2 ^ 32) = BitVec.ofNat 32 y.opa.toNat from BitVec.eq_of_toNat_eq (by simp)]
    exact sparm_puts h (x := (_, true)) (by simp only [sparmOf, hg])
  case shape =>
    have hx : y.opa.toNat % 2 ^ 32 % 256 = y.opa.toNat % 256 := Nat.mod_mod_of_dvd _ (by decide)
    have hput := sparm_puts h rfl
    simp only [sparmOf, hg, hr, Option.map_some, Option.getD_some] at hput
    rw [hx, ← hi]
    cases hk : r.tsr.any fun x => x.1 == y.opa.toNat % 256 with
    | true =>
      rw [hk] at hput
      exact hput
    | false =>
      rw [hk] at hput
      exact hput
  case auto =>
    rw [← hi, Nat.mod_mod_of_dvd y.opa.toNat (by decide : 2 ∣ 2 ^ 32)]
    exact sparm_puts h (x := (_, true)) (by simp only [sparmOf, hg])
  case field =>
    obtain ⟨hne, hval⟩ := portField_of_mem s.free hg
    have hread := srec_reads h (.inl (hf ▸ hne))
    rw [hf, hval] at hread
    exact hi ▸ hread
  case lwm =>
    have hl := Port.lwm_eq_some ho hind hj
    have hr := srec_reads h (.inr (by rw [hl]; rfl))
    rw [hf, portField, hl, Option.getD_some] at hr
    exact hi ▸ hr
  case closed =>
    rw [performSclose_closed h ho, ← hi]
    exact h.reads 0
  case busy =>
    rw [performSclose_busy h hsub ho hb]
    obtain ⟨hput, hslot⟩ := h.waits { y with sub := p.count + p.taken + 1 }
    exact ⟨hput, _, hslot, hstage⟩
  case out =>
    rw [performSclose_out h hsub ho hout hb, ← hi]
    exact h.puts _ _
  case sect =>
    rw [performSclose_sect h ho hout hs]
    exact h.stays _ _
  case eos =>
    obtain ⟨hput, hflight, hslot⟩ := sclose_sends h ho hout hs
    exact ⟨hput, hflight, _, hslot, rfl, rfl⟩

end Sys2Proof.Machine
end

section
/-! SUPPORT. RFEN: the ports of its mask as it is performed, and the reads that it holds (R503, R505). -/

namespace Sys2Proof.Machine

open Sys2Proof

/-! ### Ports that a fence drops (R505) -/

/-- An in port without what it has read ahead; an out port as it is. -/
def Port.dropAhead (p : Port) : Port := if p.out then p else { p with ahead := [], cursor := p.next }

theorem Port.dropAhead_dropAhead (p : Port) : p.dropAhead.dropAhead = p.dropAhead := by
  unfold Port.dropAhead
  cases h : p.out <;> simp [h]

/-- The state in which RFEN has dropped what the in ports of ks have read ahead. -/
def State.fencePorts (s : State) (c : Nat) (ks : List Nat) : State := ks.foldl (fun s i => s.modPort c i Port.dropAhead) s

theorem State.port_fencePorts (s : State) (c : Nat) (ks : List Nat) (j : Nat) :
    (s.fencePorts c ks).port c j = if j ∈ ks then (s.port c j).map Port.dropAhead else s.port c j := by
  induction ks generalizing s with
  | nil => rfl
  | cons i ks ih =>
    show ((s.modPort c i Port.dropAhead).fencePorts c ks).port c j = _
    rw [ih, State.port_modPort]
    by_cases hj : j = i
    · have hdrop : Port.dropAhead ∘ Port.dropAhead = Port.dropAhead := funext Port.dropAhead_dropAhead
      simp [hj, hdrop]
    · simp [hj]

theorem State.coreless_fencePorts (s : State) (c : Nat) (ks : List Nat) : (s.fencePorts c ks).coreless = s.coreless :=
  State.foldl_keeps State.coreless (fun s i => s.coreless_modPort c i Port.dropAhead) ks s

/-! ### Performing it -/

/-- The ports of RFEN's mask. -/
def fenceMask (o : FmtE) : List Nat := (List.range 8).filter o.imm.toNat.testBit

theorem mem_fenceMask {o : FmtE} {j : Nat} : j ∈ fenceMask o ↔ j < 8 ∧ o.imm.toNat.testBit j = true := by
  rw [fenceMask, List.mem_filter, List.mem_range]

/-- Whether an out port of the mask has tokens taken and not written. -/
def State.fenceBusy (s : State) (c : Nat) (o : FmtE) : Bool := (fenceMask o).any fun i => ((s.port c i).map Port.busy).getD false

theorem State.fenceBusy_iff {s : State} {c : Nat} {o : FmtE} :
    s.fenceBusy c o = true ↔ ∃ j q, o.imm.toNat.testBit j = true ∧ j < 8 ∧ s.port c j = some q ∧ q.busy = true := by
  have hport (j : Nat) : ((s.port c j).map Port.busy).getD false = true ↔ ∃ q, s.port c j = some q ∧ q.busy = true := by
    cases s.port c j <;> simp
  simp only [State.fenceBusy, List.any_eq_true, mem_fenceMask, hport]
  exact ⟨fun ⟨j, ⟨hj, hbit⟩, q, hq, hb⟩ => ⟨j, q, hbit, hj, hq, hb⟩, fun ⟨j, q, hbit, hj, hq, hb⟩ => ⟨j, ⟨hj, hbit⟩, q, hq, hb⟩⟩

theorem performRfen_eq {s : State} {e k : Nat} {y : Slot} {i : Instr} (hy : s.slot e k = some y) (hf : y.Fresh i)
    (he : s.edgesMet e y = true) (o : FmtE) :
    performRfen o e k s =
      if s.fenceBusy (coreOf e) o then (s.fencePorts (coreOf e) (fenceMask o)).setSlot e k { y with sub := 1 }
      else (s.fencePorts (coreOf e) (fenceMask o)).performed e k (word512 (o.imm.toNat % 256)) :=
  State.trySlot_acts hy hf.stage hf.held rfl he _

/-- What RFEN leaves in its slot. -/
def fenceSlot (y : Slot) (busy : Bool) (v : VW) : Slot := if busy then { y with sub := 1 } else { y with stage := 3, st := .late, lres := v }

theorem fenceSlot_ins (y : Slot) (busy : Bool) (v : VW) : (fenceSlot y busy v).ins = y.ins := by
  cases busy <;> rfl

/-- An RFEN that has been performed, or waits, has begun. -/
theorem fenceSlot_begun (y : Slot) (busy : Bool) (v : VW) : (fenceSlot y busy v).stage = 3 ∨ (fenceSlot y busy v).sub = 1 := by
  cases busy
  · exact .inl rfl
  · exact .inr rfl

theorem performRfen_setSlot {s : State} {e k : Nat} {y : Slot} {i : Instr} (hy : s.slot e k = some y) (hf : y.Fresh i)
    (he : s.edgesMet e y = true) (o : FmtE) :
    performRfen o e k s = (s.fencePorts (coreOf e) (fenceMask o)).setSlot e k
      (fenceSlot y (s.fenceBusy (coreOf e) o) (word512 (o.imm.toNat % 256))) := by
  have hy' := (State.slot_of_coreless (s.coreless_fencePorts (coreOf e) (fenceMask o)) e k).trans hy
  rw [performRfen_eq hy hf he, State.performed_eq hy']
  cases s.fenceBusy (coreOf e) o <;> rfl

/-! ### Reads that a fence holds (R503, R505) -/

theorem State.mem_elems_of_slot {s : State} {e k : Nat} {y : Slot} (hk : k < 8) (h : s.slot e k = some y) : (e, s.elem e) ∈ s.elems := by
  cases hf : SMap.find e s.elems with
  | some x =>
    have he : s.elem e = x := by rw [State.elem, SMap.get_eq_getD_find, hf, Option.getD_some]
    exact he ▸ SMap.mem_of_find hf
  | none =>
    have he : s.elem e = Elem.reset e := by rw [State.elem, SMap.get_eq_getD_find, hf, Option.getD_none]
    rw [State.slot, he, Elem.slots_reset e hk] at h
    cases h

/-- An RFEN that has begun and has not completed holds the reads of the in ports of its mask. -/
theorem State.fencing_of_slot {s : State} {e k j : Nat} {y : Slot} {t : TU} {o : FmtE} (hk : k < 8) (hy : s.slot e k = some y)
    (hi : y.ins = .rfen t o) (hs : y.stage = 3 ∨ y.sub = 1) (hj : o.imm.toNat.testBit j = true) : s.fencing (coreOf e) j = true := by
  refine List.any_eq_true.2 ⟨_, State.mem_elems_of_slot hk hy, ?_⟩
  simp only [beq_self_eq_true, Bool.true_and]
  refine List.any_eq_true.2 ⟨some y, mem_toList_iff_vget.2 ⟨k, hk, hy⟩, ?_⟩
  simp [hi, hs, hj]

theorem exec_portTokenRead (c k : Nat) (s : State) : exec (.portTokenRead c k) s = .next (s.portRead c k) := rfl

theorem State.portRead_fenced {s : State} {c k : Nat} (h : s.fencing c k = true) : s.portRead c k = s := by
  unfold State.portRead
  split
  · rfl
  · rw [h, Bool.or_true, if_pos rfl]

theorem portFence : Claims.PortFence := by
  intro s t o f k h
  have ⟨hord, hfree, _⟩ := h
  have hk := freeSlot_lt hfree
  obtain ⟨u, y, hexec, htakes, hy, hfresh, hedges⟩ := cmdIssue_performs h (.rfen t o) 0 0 0 (bad := noBad) (fun _ => rfl) (performRfen o)
  have hport (j : Nat) : u.port (coreOf f.e) j = s.port (coreOf f.e) j := State.port_congr (by rw [htakes.only]; rfl) _ _
  rw [performRfen_setSlot hy hfresh hedges] at hexec
  have hbusy := State.fenceBusy_iff (s := u) (c := coreOf f.e) (o := o)
  simp only [hport] at hbusy
  generalize u.fenceBusy (coreOf f.e) o = b at hexec hbusy
  have hslot := State.slot_setSlot_self (u.fencePorts (coreOf f.e) (fenceMask o)) f.e (fenceSlot y b (word512 (o.imm.toNat % 256))) hk
  have hins := (fenceSlot_ins y b (word512 (o.imm.toNat % 256))).trans hfresh.ins
  refine ⟨_, (congrArg Host.Outcome.next (State.fire_ordinary hord ..)).trans (congrArg Host.Outcome.next hexec), ?quiet, fun hb => ?performed,
    fun hb => ?waits, fun j hj q hq => ⟨?port, fun hbit => ?fenced⟩⟩
  case quiet => exact htakes.quiet.trans ((quiet_of_coreless (u.coreless_fencePorts ..) _).trans (quiet_setSlot ..))
  case performed =>
    obtain rfl : b = false := Bool.eq_false_iff.2 (mt hbusy.1 hb)
    exact ⟨_, hslot, hins, rfl, rfl⟩
  case waits =>
    obtain rfl : b = true := hbusy.2 hb
    exact ⟨_, hslot, hfresh.stage⟩
  case port =>
    rw [State.port_setSlot, State.port_fencePorts, hport, hq]
    simp only [mem_fenceMask, hj, true_and, Option.map_some, Port.dropAhead]
    cases o.imm.toNat.testBit j <;> cases hout : q.out <;> simp
  case fenced =>
    have hfence := State.fencing_of_slot hk hslot hins (fenceSlot_begun ..) hbit
    exact ⟨hfence, fun _ => by rw [exec_portTokenRead, State.portRead_fenced hfence]⟩

/-- Settles O31: a command that may reach its port acts on it by the equation of its operation, and RFEN is performed as it issues. That SCLOSE
sends a SECT that is due before its EOS (log 124), and that a DATA token in an out port's queue counts as taken while its window is open, so
that the port is busy (log 110), are the model's choices, which the clauses take over. -/
theorem portCommands : Obligations.PortCommands := ⟨portCommandsTaken, portFence⟩

end Sys2Proof.Machine
end

section
/-! SUPPORT. The tokens of ports: PORT_TOKEN_READ, TOKEN_INJECTION of a port and PORT_TOKEN_WRITE (R96, R97, R513, R514). -/

namespace Sys2Proof.Machine

open Sys2Proof

/-! ### Translation caches (R194) -/

theorem State.coreless_setTlb (s : State) (c : Nat) (m : List (Nat × W64)) : (s.setTlb c m).coreless = s.coreless := by
  unfold State.setTlb
  split <;> rfl

theorem State.coreless_fillTlb (s : State) (c p va : Nat) : (s.fillTlb c p va).coreless = s.coreless := by
  unfold State.fillTlb
  dsimp only
  split
  · rfl
  · split
    · exact State.coreless_setTlb ..
    · rfl

theorem State.coreless_fillRun (s : State) (c p va n : Nat) : (s.fillRun c p va n).coreless = s.coreless :=
  State.foldl_keeps State.coreless (fun s i => by
    split
    · exact s.coreless_fillTlb ..
    · rfl) _ s

theorem State.port_setTlb (s : State) (c : Nat) (m : List (Nat × W64)) : (s.setTlb c m).port = s.port := by
  unfold State.setTlb
  split
  · funext d k
    by_cases h : d = c
    · subst h
      rw [State.modCore_eq, State.port, State.core_setCore_self]
      rfl
    · rw [State.modCore_eq, State.port, State.core_setCore_ne _ h]
      rfl
  · rfl

theorem State.port_fillTlb (s : State) (c p va : Nat) : (s.fillTlb c p va).port = s.port := by
  unfold State.fillTlb
  dsimp only
  split
  · rfl
  · split
    · exact State.port_setTlb ..
    · rfl

theorem State.port_fillRun (s : State) (c p va n : Nat) : (s.fillRun c p va n).port = s.port :=
  State.foldl_keeps State.port (fun s i => by
    split
    · exact s.port_fillTlb ..
    · rfl) _ s

/-- What a run reads does not depend on cores or translation caches. -/
theorem State.readRun_coreless (s : State) (va : Nat) (ls : List (Loc × Nat)) : s.coreless.readRun va ls = s.readRun va ls := by
  induction ls generalizing va with
  | nil => rfl
  | cons x ls ih => exact congrArg (s.readLoc va x.1 x.2 ++ ·) (ih _)

theorem State.readRun_fillRun (s : State) (c p va n a : Nat) (ls : List (Loc × Nat)) :
    (s.fillRun c p va n).readRun a ls = s.readRun a ls := by
  rw [← State.readRun_coreless, State.coreless_fillRun, State.readRun_coreless]

theorem State.clear_fillRun {s : State} {a n : Nat} (h : s.Clear s.keyTag a n) (c p va m : Nat) :
    (s.fillRun c p va m).Clear (s.fillRun c p va m).keyTag a n := by
  have hc : s.coreless.Clear s.coreless.keyTag a n := h
  rw [← State.coreless_fillRun s c p va m] at hc
  exact hc

/-! ### A write leaves the ports alone -/

theorem State.cores_writeBack (s : State) (e : Nat) (g : Nat × Nat) : (s.writeBack e g).cores = s.cores :=
  State.foldl_keeps State.cores (by intros; rfl) _ s

theorem State.cores_recall (s : State) (a n : Nat) : (s.recall a n).cores = s.cores := by
  refine State.foldl_keeps State.cores (fun s x => ?_) _ s
  refine State.foldl_keeps State.cores (fun s g => ?_) _ s
  split
  · exact s.cores_writeBack ..
  · rfl

theorem State.cores_holdLine (s : State) (w : Writer) (l : Nat) : (s.holdLine w l).cores = s.cores := by
  show (s.holdLine w l).body.cores = s.body.cores
  rw [State.body_holdLine]

theorem State.cores_ownWords (s : State) (w : Writer) (a n : Nat) : (s.ownWords w a n).cores = s.cores := by
  show (s.ownWords w a n).body.cores = s.body.cores
  rw [State.body_ownWords]

theorem State.cores_homePut (s : State) (w : Writer) (raw : Bool) (a : Nat) (bs : List Byte) : (s.homePut w raw a bs).cores = s.cores := by
  unfold State.homePut
  extract_lets s0 t u
  have ht : t.cores = s.cores :=
    (State.cores_ownWords ..).trans ((State.foldl_keeps State.cores (fun s l => s.cores_holdLine w l) _ s0).trans (s.cores_recall ..))
  have hu : u.cores = t.cores := by
    show (if t.lent.isEmpty then _ else _ : State).cores = _
    split
    · rfl
    · refine State.foldl_keeps State.cores (fun s x => ?_) _ t
      dsimp only
      split <;> rfl
  exact (State.foldl_keeps State.cores (by intros; rfl) _ u).trans (hu.trans ht)

theorem State.cores_testWatches (s : State) (a n : Nat) : (s.testWatches a n).cores = s.cores := by
  refine State.foldl_keeps State.cores (fun s x => ?_) s.elems s
  unfold State.testElem
  dsimp only
  split
  · rfl
  · split <;> rfl

theorem State.port_devWrite (s : State) (w : Writer) (a : Nat) (bs : List Byte) (c k : Nat) : (s.devWrite w a bs).port c k = s.port c k :=
  State.port_congr ((State.cores_testWatches ..).trans (s.cores_homePut ..)) c k

/-- A plain run is of device memory: it needs no cut and no window of a peer. -/
theorem PlainRun.near {s : State} {ls : List (Loc × Nat)} {l : Loc} {n : Nat} (h : PlainRun s ls l n) :
    farRun ls = false ∧ peerBytes ls = [] := by
  obtain ⟨-, rfl, hdev, -⟩ := h
  simp [farRun, peerBytes, hdev]

/-- A write of a plain run, after its translations have been kept, stores its bytes and leaves every port. -/
theorem PlainRun.stored_writeRun {s : State} {c p va : Nat} {bs : List Byte} {a : Access} {ls : List (Loc × Nat)} {l : Loc}
    (h : PlainRun s ls l bs.length) (hn : bs.length ≠ 0) (hr : s.resolveRun c p va bs.length a = .ok ls) (w : Writer) :
    let t := (s.fillRun c p va bs.length).writeRun w va ls bs
    Stored s.mem t.mem l.addr bs ∧ t.port = s.port := by
  have hp := h.page hn hr
  obtain ⟨hc, rfl, hdev, ht⟩ := h
  have hw : (s.fillRun c p va bs.length).writeRun w va [(l, bs.length)] bs = (s.fillRun c p va bs.length).devWrite w l.addr bs := by
    simp [State.writeRun, State.writeLoc, hdev, ht]
  rw [hw]
  refine ⟨?_, funext fun d => funext fun k => (State.port_devWrite ..).trans (by rw [State.port_fillRun])⟩
  rw [← State.mem_of_coreless (State.coreless_fillRun s c p va bs.length)]
  exact State.stored_devWrite (State.clear_fillRun hc ..) hp (Nat.pos_of_ne_zero hn) w

/-! ### Ports that may act -/

/-- What a change of a region and a token that is sent leave of the ports, and what flies then. -/
theorem State.port_portSend_modRegion (s : State) (n : Nat) (f : Region → Region) (c k : Nat) (p : Port) (u : Token)
    (cmd : Option (Nat × Nat × Nat)) :
    ((s.modRegion n f).portSend c k p u cmd).port = s.port ∧
      ((s.modRegion n f).portSend c k p u cmd).flight =
        s.flight ++ [Flight.start (portSrc c k) 0 (.queue (c * 64 + p.exy) p.vc) [u] .raw s.cycle cmd] := by
  unfold State.modRegion
  split <;> exact ⟨rfl, rfl⟩

theorem tyBytes_pos (ty : Ty) : 0 < tyBytes ty := by
  cases ty <;> decide

theorem outBytes_length (p : Port) (u : Token) : (outBytes p u).length = p.bytes u.ctl := bytesLE_length ..

theorem outBytes_ne_nil (p : Port) (u : Token) : (outBytes p u).length ≠ 0 := by
  have := tyBytes_pos p.ty
  rw [outBytes_length, Port.bytes]
  split <;> omega

theorem exec_portTokenWrite (c k : Nat) (s : State) : exec (.portTokenWrite c k) s = .next (s.portWrite c k) := rfl

/-- The injection of a port is by its sender number. -/
theorem exec_portInjection {k : Nat} (hk : k < 8) (c : Nat) (s : State) :
    exec (.tokenInjection (2 ^ 20 + 8 * c + k) true) s = .next (s.portDeliver c k) := by
  have he : ¬ 2 ^ 20 + 8 * c + k < 2 ^ 20 := by omega
  have hc : (2 ^ 20 + 8 * c + k - 2 ^ 20) / 8 = c := by omega
  have hm : (2 ^ 20 + 8 * c + k - 2 ^ 20) % 8 = k := by omega
  show (.next (if _ then _ else _) : Step1) = _
  rw [if_neg he, hc, hm]

/-- The markers that become due with the token that p delivers next (R97). -/
def dueAfter (p : Port) (r : Region) : List Token :=
  (markersAfter p r.secK (shapeRec r p.wtsrx) p.next).map fun m => Token.bare m p.ctl 0

/-- Port k of core c is p, neither held nor stopped by a drain, and its region r runs. -/
structure PortLive (s : State) (c k : Nat) (p : Port) (r : Region) : Prop where
  port : s.port c k = some p
  region : s.region p.reg = some r
  phase : r.phase = .running
  held : p.held = false
  tailed : p.tailed = false

section
variable {s : State} {c k : Nat} {p : Port} {r : Region} (h : PortLive s c k p r)
include h

theorem PortLive.portNo : k < 8 := State.port_lt h.port

theorem PortLive.runs : s.portRuns c k p.out = some p := by
  have hr : s.portReg c k = p.reg := by rw [State.portReg, h.port]; rfl
  simp [State.portRuns, h.port, hr, h.region, h.phase, h.held, h.tailed]

theorem PortLive.part : s.portPart p = r.part := by
  rw [State.portPart, h.region]
  rfl

theorem PortLive.portPop (f : Port → Port) : s.portPop c k f = s.setPort c k (f { p with waitq := p.waitq.tail }) :=
  State.modPort_eq h.port _

/-! ### PORT_TOKEN_READ (R96, R513) -/

theorem portRead_reads {ls : List (Loc × Nat)} (hout : p.out = false) (ho : p.open_ = true) (hi : p.ind = false)
    (hf : s.fencing c k = false) (hj : p.cursor < p.wcnt) (hr : s.resolveRun c r.part (p.addr p.cursor) (p.bytes p.ctl) .load = .ok ls) :
    s.portRead c k = (s.fillRun c r.part (p.addr p.cursor) (p.bytes p.ctl)).setPort c k
      { p with cursor := p.cursor + 1, ahead := p.ahead ++ [p.token (s.readRun (p.addr p.cursor) ls)] } := by
  have hruns : s.portRuns c k false = some p := hout ▸ h.runs
  have hgo : (!p.open_ || p.indirect || decide (p.cursor ≥ p.wcnt) || s.fencing c k) = false := by
    simp [ho, Port.indirect, hi, hf, hj]
  simp only [State.portRead, hruns, hgo, h.part, hr, State.readRun_fillRun, Bool.false_eq_true, if_false]

/-! ### TOKEN_INJECTION of a port (R96, R97) -/

theorem portDeliver_delivers {u : Token} {us : List Token} (hout : p.out = false) (hdue : p.due = []) (ha : p.ahead = u :: us)
    (hd : r.drain = false) (hc : p.cmd = none) (hclear : s.portClear c k = true) :
    s.portDeliver c k =
      ((s.setPort c k { p with ahead := us, due := dueAfter p r, next := p.next + 1, count := p.count + 1 }).modRegion p.reg
        fun r => { r with sectTok := r.sectTok + 1 }).portSend c k p u none := by
  have hgo : (p.out || r.phase != .running || !s.portClear c k) = false := by
    simp [hout, h.phase, hclear]
  have hprog (t : State) : t.portProg p = t := by simp only [State.portProg, hc]
  simp only [State.portDeliver, h.port, h.region, hgo, hdue, h.tailed, hd, ha, hprog, Bool.false_and, Bool.false_eq_true, if_false]
  rfl

/-! ### PORT_TOKEN_WRITE (R96, R514) -/

theorem portWrite_stores {u : Token} {us : List Token} {ls : List (Loc × Nat)} {l : Loc} (hout : p.out = true) (hw : p.waitq = u :: us)
    (hu : u.kind = .data) (hi : p.ind = false) (hd : p.discard = false) (ho : p.open_ = true) (hby : p.bySopen = true → p.next < p.wcnt)
    (hr : s.resolveRun c r.part (p.addr p.next) (outBytes p u).length .portWrite = .ok ls) (hplain : PlainRun s ls l (outBytes p u).length)
    (hfull : s.runFull (s.portWriter c k p) ls = false) :
    ∃ w, s.portWrite c k = ((s.fillRun c r.part (p.addr p.next) (outBytes p u).length).writeRun w (p.addr p.next) ls (outBytes p u)).portPop c k
      fun p => { p with next := p.next + 1, cursor := p.next + 1, count := p.count + 1, cut := 0, full := 0 } := by
  have hruns : s.portRuns c k true = some p := hout ▸ h.runs
  have hpast : (p.bySopen && decide (p.next ≥ p.wcnt)) = false := by
    cases hb : p.bySopen
    · rfl
    · simp [hby hb]
  obtain ⟨hfar, hpeer⟩ := hplain.near
  have hstore : s.portWrite c k = s.portStore c k p u := by
    simp [State.portWrite, hruns, hw, hu, Port.indirect, hi, hd, ho]
  refine ⟨{ s.portWriter c k p with hold := (s.portWriter c k p).hold && p.full != 2 }, ?_⟩
  rw [hstore, State.portStore]
  simp [hpast, h.part, hr, hfar, hfull, hpeer, State.canSend, State.spend]

theorem portWrite_eos {u : Token} {us : List Token} (hout : p.out = true) (hw : p.waitq = u :: us) (hu : u.kind = .eos) (hi : p.ind = false)
    (hd : p.discard = false) (ho : p.open_ = true) : s.portWrite c k = s.setPort c k { p with waitq := us, open_ := false } := by
  have hruns : s.portRuns c k true = some p := hout ▸ h.runs
  simp [State.portWrite, hruns, hw, hu, Port.indirect, hi, hd, ho, h.portPop]

theorem portWrite_discards {u : Token} {us : List Token} (hout : p.out = true) (hw : p.waitq = u :: us) (hu : u.kind = .data)
    (hi : p.ind = false) (hd : p.discard = true) : s.portWrite c k = s.setPort c k { p with waitq := us, disc := p.disc + 1 } := by
  have hruns : s.portRuns c k true = some p := hout ▸ h.runs
  simp [State.portWrite, hruns, hw, hu, Port.indirect, hi, hd, h.portPop]

end

/-- Settles O32: each clause is the equation of its step (PORT_TOKEN_READ, TOKEN_INJECTION of a port, PORT_TOKEN_WRITE) for a port that may
act; keeping translations changes neither what is read nor any port, and a plain write stores its bytes and changes no port. That the count
of an in port goes up as its token is sent, and not as it enters its queue, is the model's choice (log 43), which the clause of the
injection takes over. -/
theorem portTokens : Obligations.PortTokens := by
  intro s c k rn p r hk hp hreg hr hphase hheld htailed
  subst hreg
  have h : PortLive s c k p r := ⟨hp, hr, hphase, hheld, htailed⟩
  refine ⟨fun ls hout ho hi hf hj hrun => ⟨_, rfl, ?reads⟩, fun u us hout hdue ha hd hc hclear => ⟨_, exec_portInjection hk c s, ?delivers⟩,
    fun u us ls l hout hw hu hi hd ho hby hrun hplain hfull => ⟨_, rfl, ?stores⟩, fun u us hout hw hu hi hd ho => ⟨_, rfl, ?ends⟩,
    fun u us hout hw hu hi hd => ⟨_, rfl, ?discards⟩⟩
  case reads =>
    rw [portRead_reads h hout ho hi hf hj hrun]
    exact ⟨State.mem_of_coreless (s.coreless_fillRun ..), State.port_setPort_self _ _ _ hk⟩
  case delivers =>
    rw [portDeliver_delivers h hout hdue ha hd hc hclear]
    obtain ⟨hport, hflight⟩ := (s.setPort c k { p with ahead := us, due := dueAfter p r, next := p.next + 1, count := p.count + 1 }
      ).port_portSend_modRegion p.reg (fun r => { r with sectTok := r.sectTok + 1 }) c k p u none
    rw [hport]
    exact ⟨State.port_setPort_self _ _ _ hk, _, hflight, rfl, rfl, rfl⟩
  case stores =>
    have hrun : s.resolveRun c r.part (p.addr p.next) (p.bytes u.ctl) .portWrite = .ok ls := hrun
    have hplain : PlainRun s ls l (p.bytes u.ctl) := hplain
    rw [← outBytes_length] at hrun hplain
    obtain ⟨w, he⟩ := portWrite_stores h hout hw hu hi hd ho hby hrun hplain hfull
    obtain ⟨hstored, hport⟩ := hplain.stored_writeRun (outBytes_ne_nil p u) hrun w
    have hp' := (congrFun₂ hport c k).trans hp
    rw [he, State.portPop, State.modPort_eq hp']
    refine ⟨hstored, (State.port_setPort_self _ _ _ hk).trans ?_⟩
    rw [hw]
    rfl
  case ends =>
    rw [portWrite_eos h hout hw hu hi hd ho]
    exact ⟨rfl, State.port_setPort_self _ _ _ hk⟩
  case discards =>
    rw [portWrite_discards h hout hw hu hi hd]
    exact ⟨rfl, State.port_setPort_self _ _ _ hk⟩

end Sys2Proof.Machine
end

section
/-! SUPPORT. SEL, CMP, the moves and the reductions, and the firings whose heads are markers or differ. -/

namespace Sys2Proof.Machine

open Sys2Proof

/-! ### Selection, comparison and moves (R136, R429, R439, R467, R486, R502, R517) -/

theorem selectAndCompare : Claims.SelectAndCompare := by
  intro s t o f h hr
  refine ⟨fun hb => exec_results h rfl ?sel, fun hb => exec_results h rfl ?selMask, exec_results h rfl (results_of hr ..)⟩
  case sel =>
    simp only [selAct, if_neg hb]
    exact results_of hr ..
  case selMask =>
    have hw : Ty.work o.ty = .b1 := congrArg Ty.work hb
    simp only [selAct, if_pos hb, hw]
    exact results_of hr ..

theorem movesAndReads : Claims.MovesAndReads := by
  intro s t o f h hr
  refine ⟨exec_results h rfl (results_of hr ..), exec_results h rfl (results_of hr ..), exec_results h rfl (results_of hr ..),
    fun hb => exec_results h rfl ?repl, fun hb => exec_results h rfl ?replMask, exec_results h rfl (results_of hr ..)⟩
  case repl =>
    simp only [replAct, if_neg hb]
    exact results_of hr ..
  case replMask =>
    simp only [replAct, if_pos hb]
    rw [hb]
    exact results_of hr ..

/-- Settles O2: each of them runs an action that finishes with its result; SEL and REPL differ by whether the type is b1. -/
theorem selectCompareAndMove : Obligations.SelectCompareAndMove := ⟨selectAndCompare, movesAndReads⟩

/-! ### VRED and VSCAN (R143, R173, R541, R542) -/

/-- The running value of a level form goes to D, and nothing is emitted. -/
theorem levelValue_of {s : State} {f : Firing} (hr : Roomy s f.e) (o : FmtA) (v : Nat) (fl : Fl) :
    ((levelValue o f s v fl).elem f.e).out = (s.elem f.e).out ∧
      ∀ n < 16, ((levelValue o f s v fl).elem f.e).sreg n =
        destS ⟨Ty.work o.ty, false, [v], flNone⟩ o.d n ((s.elem f.e).sreg n) := by
  let r : Res := ⟨Ty.work o.ty, false, [v], fl⟩
  have hb : ({ resEffect f.t none f.seq o.d f.tag r.nonzero r with toks := [] } : Effect).bare := ⟨rfl, rfl, rfl⟩
  obtain ⟨-, hfired⟩ := fired_of hr (cond := r.nonzero) hb rfl rfl rfl (Nat.zero_le 2)
  refine ⟨hfired.out.trans (List.append_nil _), fun n hn => ?_⟩
  rw [Elem.sreg_congr (issueElem_s f.t (s.elem f.e)).symm]
  exact (Elem.sreg_congr (sregs_of hr hb (Nat.zero_le 2)) n).trans (scalar_fold _ _ _ _ n hn)

/-- Settles O4: at level 0 both finish with their sums as the result, and a level form leaves its running value in D. -/
theorem reductions : Obligations.Reductions := by
  intro s t o f h hr
  obtain rfl := State.firing_t h.1
  refine ⟨fun hl => ⟨exec_results h rfl ?vred, exec_results h rfl ?vscan⟩, fun hl => ⟨⟨_, rfl, ?vredLevel⟩, ⟨_, rfl, ?vscanLevel⟩⟩⟩
  case vred =>
    simp only [vredAct, h.2, if_pos hl]
    exact results_of hr ..
  case vscan =>
    simp only [vscanAct, h.2, if_pos hl]
    exact results_of hr ..
  case vredLevel =>
    rw [State.fire_ordinary h]
    simp only [vredAct, h.2, if_neg hl]
    exact levelValue_of hr o _ _
  case vscanLevel =>
    rw [State.fire_ordinary h]
    simp only [vscanAct, h.2, if_neg hl]
    exact levelValue_of hr o _ _

/-! ### Heads that are markers, and heads that differ (R139, R140, R144, R145) -/

/-- Whatever fires by itself runs as a firing under its trigger and update. -/
theorem exec_fire {i : Instr} {t : TU} (h : triggerOf i = some t) : ∃ act, ∀ s, exec i s = .next (s.fire i t act) := by
  cases i <;> simp only [triggerOf, layoutOf, Option.some.injEq, reduceCtorEq] at h <;> subst h <;> exact ⟨_, fun _ => rfl⟩

/-- Settles O5: a firing of markers, of an operation that does not pass them on itself, is the marker firing. -/
theorem markerFirings : Obligations.MarkerFirings := by
  intro i s t f k hi hm ho hr
  obtain ⟨act, hact⟩ := exec_fire hi
  obtain rfl := State.firing_t hm.1
  refine ⟨_, hact s, ?_⟩
  rw [State.fire_marking hm, ho]
  exact completes_of hr true _ (by split <;> simp)

/-- Settles O6: heads that differ hold the element for MIX, and a discard is one change of the element. -/
theorem mixedHeads : Obligations.MixedHeads := by
  intro i s t f hi hf
  obtain ⟨act, hact⟩ := exec_fire hi
  refine ⟨fun hshape => ⟨_, hact s, ?_⟩, fun q _ hshape => ⟨_, hact s, ?_⟩⟩
  · simp only [State.fire, hf, hshape]
    exact raised_of f 0x08 0
  · simp only [State.fire, hf, hshape]
    simp [State.discardFiring, OnlyElem, Elem.dequeue]

end Sys2Proof.Machine
end
section
/-! SUPPORT. Tokens on their way: an element's injection over its first link, the arrival at a queue, and CFG tokens (O33). -/

namespace Sys2Proof.Machine

open Sys2Proof

/-! ### The output buffer (R34, R126) -/

theorem Elem.outOf_ctl {x : Elem} {ctl : Bool} {z : Nat × OutTok} (h : z ∈ x.outOf ctl) : z.2.tok.ctl = ctl :=
  eq_of_beq (List.mem_filter.1 h).2

/-- What a plane of an output buffer holds once its oldest token has left it. -/
theorem filter_dropOut_one (c d : Bool) (ts : List (Nat × OutTok)) :
    (dropOut c 1 ts).filter (fun t => t.2.tok.ctl == d) =
      if c = d then (ts.filter fun t => t.2.tok.ctl == d).tail else ts.filter fun t => t.2.tok.ctl == d := by
  induction ts with
  | nil => simp [dropOut]
  | cons t ts ih =>
    unfold dropOut
    by_cases ht : t.2.tok.ctl = c
    · rw [if_pos ht]
      by_cases hd : c = d
      · simp [dropOut, ht, hd]
      · simp [dropOut, ht, hd]
    · rw [if_neg ht, List.filter_cons, List.filter_cons, ih]
      by_cases hd : c = d
      · subst hd
        simp [ht]
      · simp [hd]

/-- No place of a command stands before a token when all flights are on their way. -/
theorem lanePos_of_ready {fs : List Flight} (h : ∀ z ∈ fs, z.ready = true) (st : Nat) (f : Flight) : lanePos st f fs = fs.length :=
  List.findIdx_eq_length_of_false fun z hz => by simp [h z hz]

theorem linkMode_of_not_data {t : Token} (h : t.kind ≠ .data) (pack run : Bool) : linkMode t pack run = .raw := by
  simp [linkMode, h]

/-- Token o, neither DATA nor EOS, is the oldest of a plane of element e and may be sent in this cycle on route rt of region r. -/
structure Sends (s : State) (e : Nat) (ctl : Bool) (st : Nat) (o : OutTok) (rest : List (Nat × OutTok)) (rt : Route) (r : Region) : Prop where
  oldest : (s.elem e).outOf ctl = (st, o) :: rest
  notData : o.tok.kind ≠ .data
  notEos : o.tok.kind ≠ .eos
  stood : (s.view e).outOf ctl ≠ []
  first : (if ctl then (s.elem e).injC else (s.elem e).injD) ≠ s.cycle + 1
  net : s.netRuns (.queue e 0) = true
  route : (s.elem e).route o.label = some rt
  region : s.regOf e = some r
  alone : (s.elem e).olderInLane r ctl rt = false

/-- The flight of token o of element e, at its sender. -/
def State.sent1 (s : State) (e : Nat) (o : OutTok) (rt : Route) (r : Region) : Flight :=
  Flight.start e rt.cls (routeDest r rt) [o.tok] .raw s.cycle none

section
variable {s : State} {e : Nat} {ctl : Bool} {st : Nat} {o : OutTok} {rest : List (Nat × OutTok)} {rt : Route} {r : Region}
  (h : Sends s e ctl st o rest rt r)
include h

theorem Sends.plane : (s.sent1 e o rt r).ctl = ctl := by
  have hm : (st, o) ∈ (s.elem e).outOf ctl := h.oldest ▸ List.mem_cons_self
  exact Elem.outOf_ctl hm

theorem Sends.sending : s.sending e ctl = some ⟨s.sent1 e o rt r, lanePos st (s.sent1 e o rt r) s.flight, o, rt, 1⟩ := by
  have hn : ¬ (((if ctl then (s.elem e).injC else (s.elem e).injD) == s.cycle + 1) || !s.netRuns (.queue e 0)) = true := by
    simp [h.first, h.net]
  have ht : ((s.elem e).outOf ctl).take ((s.view e).outOf ctl).length = (st, o) :: rest.take (((s.view e).outOf ctl).length - 1) := by
    rw [h.oldest]
    exact List.take_cons (List.length_pos_iff.2 h.stood)
  simp only [State.sending, if_neg hn, ht, h.route, h.region, h.alone]
  simp [h.notData, h.notEos, linkMode_of_not_data, State.sent1]

end

/-! ### The virtual channels of a link (R380) -/

/-- Whether flight f leaves element e by link l on a plane. -/
def Flight.leavesBy (f : Flight) (e l : Nat) (ctl : Bool) : Bool :=
  f.at_ == e && f.ctl == ctl && (nextLink f.src e f.dst.elem).2.1 == l && !(f.link.isSome && e == f.dst.elem)

theorem State.mem_readyVcs {s : State} {e l w : Nat} {ctl : Bool} :
    w ∈ s.readyVcs e l ctl ↔
      (∃ x ∈ s.flight.zipIdx, x.1.leavesBy e l ctl = true ∧ s.crossable x.2 x.1 = true ∧ s.vcOf x.1 = w) ∨
      ∃ d, s.sending e ctl = some d ∧ d.flight.leavesBy e l ctl = true ∧
        ({ s with flight := s.flight.insertIdx d.place d.flight } : State).crossable d.place d.flight = true ∧ s.vcOf d.flight = w := by
  unfold State.readyVcs
  rw [List.mem_append, List.mem_filterMap]
  refine or_congr (exists_congr fun x => and_congr_right fun _ => ?_) ?_
  · rw [Option.ite_none_right_eq_some, Bool.and_eq_true, Option.some_inj, and_assoc]
    rfl
  · cases s.sending e ctl with
    | none => simp
    | some d => simp [Flight.leavesBy, and_assoc, eq_comm (a := w)]

/-! ### A flight more at its sender (R125, R126, R130) -/

/-- The state with a flight more, behind all others. -/
def State.join (s : State) (f : Flight) : State := { s with flight := s.flight ++ [f] }

section
variable {s : State} {f : Flight}

theorem State.heldBack_join (n : Nat) (g : Flight) :
    (s.join f).heldBack n g = (s.heldBack n g || (s.flight.length != n && s.holds s.flight.length n f g)) := by
  show ((s.flight ++ [f]).zipIdx.any fun x => x.2 != n && s.holds x.2 n x.1 g) = _
  simp [State.heldBack, List.zipIdx_append]

/-- A flight that has not crossed a link stands in no link's input. -/
theorem State.poolRoom_join (hf : f.link = none) (l : Nat) (g : Flight) : (s.join f).poolRoom l g = s.poolRoom l g := by
  have h : ((s.flight ++ [f]).filter fun x => x.link == some l && s.vcOf x == s.vcOf g && x.due ≤ s.cycle) =
      s.flight.filter fun x => x.link == some l && s.vcOf x == s.vcOf g && x.due ≤ s.cycle := by
    simp [List.filter_append, hf]
  unfold State.poolRoom
  exact congrArg (fun xs : List Flight => decide (xs.length < (s.part (s.partOf (srcElem g.src))).pslt)) h

/-- A flight more holds others back, and changes nothing else of whether they may cross. -/
theorem State.crossable_join (hf : f.link = none) (n : Nat) (g : Flight) :
    (s.join f).crossable n g = (s.crossable n g && !(s.flight.length != n && s.holds s.flight.length n f g)) := by
  have hr : ∀ d, (s.join f).netRuns d = s.netRuns d := fun _ => rfl
  have hl : ∀ l c, (s.join f).linkFree l c = s.linkFree l c := fun _ _ => rfl
  have hc : (s.join f).cycle = s.cycle := rfl
  simp only [State.crossable, State.poolRoom_join hf, State.heldBack_join, hr, hl, hc, Bool.not_or, Bool.and_assoc]

end

section
variable {s : State} {e : Nat} {ctl : Bool} {st : Nat} {o : OutTok} {rest : List (Nat × OutTok)} {rt : Route} {r : Region}
  (h : Sends s e ctl st o rest rt r)
include h

theorem Sends.join (f : Flight) : Sends (s.join f) e ctl st o rest rt r :=
  ⟨h.oldest, h.notData, h.notEos, h.stood, h.first, h.net, h.route, h.region, h.alone⟩

/-- The virtual channels that are ready with the token's flight are its own and those that were ready without it. -/
theorem Sends.readyVcs_join {l w : Nat} (hw : w ∈ (s.join (s.sent1 e o rt r)).readyVcs e l ctl) :
    w ∈ s.readyVcs e l ctl ∨ w = s.vcOf (s.sent1 e o rt r) := by
  rcases State.mem_readyVcs.1 hw with ⟨⟨g, i⟩, hg, hleaves, hcan, rfl⟩ | ⟨d, hd, -, -, rfl⟩
  · have hz : (g, i) ∈ (s.flight ++ [s.sent1 e o rt r]).zipIdx := hg
    rw [List.zipIdx_append, List.mem_append] at hz
    rcases hz with hz | hz
    · rw [State.crossable_join rfl, Bool.and_eq_true] at hcan
      exact .inl (State.mem_readyVcs.2 (.inl ⟨_, hz, hleaves, hcan.1, rfl⟩))
    · obtain ⟨rfl, -⟩ := Prod.ext_iff.1 (List.mem_singleton.1 hz)
      exact .inr rfl
  · rw [(h.join _).sending] at hd
    obtain rfl := Option.some.inj hd
    exact .inr rfl

/-- The token's turn at its first link does not pass when its own flight stands there. -/
theorem Sends.linkTurn_join {l : Nat} (ht : s.linkTurn e l ctl (s.vcOf (s.sent1 e o rt r)) = true) :
    (s.join (s.sent1 e o rt r)).linkTurn e l ctl (s.vcOf (s.sent1 e o rt r)) = true := by
  have ht := List.all_eq_true.1 ht
  refine List.all_eq_true.2 fun w hw => ?_
  rcases h.readyVcs_join hw with hw | rfl
  · exact ht w hw
  · exact decide_eq_true (Nat.le_refl _)

end

/-- A flight of a sender that has no other at its first link may cross it. -/
theorem State.crossable_sent {s : State} {f : Flight} (hf : f.link = none) (hready : f.ready = true) (hdue : f.due ≤ s.cycle)
    (hnet : s.netRuns f.dst = true) (hfree : s.linkFree (nextLink f.src f.at_ f.dst.elem).2.1 f.ctl = true)
    (hroom : s.poolRoom (nextLink f.src f.at_ f.dst.elem).2.1 f = true) (halone : ∀ z ∈ s.flight, z.src ≠ f.src) :
    (s.join f).crossable s.flight.length f = true := by
  have hb : s.heldBack s.flight.length f = false := by
    refine List.any_eq_false.2 fun x hx => ?_
    have hne : x.1.src ≠ f.src := halone x.1 (List.fst_mem_of_mem_zipIdx hx)
    simp [State.holds, hf, sameLane, hne]
  rw [State.crossable_join hf]
  simp [State.crossable, hready, hdue, hnet, hfree, hroom, hb]

/-- A flight past its next link. -/
def State.beyond (s : State) (f : Flight) : Flight :=
  let n := nextLink f.src f.at_ f.dst.elem
  { f with at_ := n.1, link := some n.2.1, due := s.cycle + n.2.2 }

/-- The flights fs, with the next link of f taken by it. -/
def State.crossed (s : State) (f : Flight) (fs : List Flight) : State :=
  let l := (nextLink f.src f.at_ f.dst.elem).2.1
  { s with
    flight := fs
    links := SMap.set (2 * l + f.ctl.toNat) (s.cycle + f.beats) s.links
    linkVc := SMap.set (2 * l + f.ctl.toNat) (s.vcOf f) s.linkVc }

theorem State.crossLink_crosses {s : State} {n : Nat} {f : Flight} (hc : s.crossable n f = true)
    (ht : s.linkTurn f.at_ (nextLink f.src f.at_ f.dst.elem).2.1 f.ctl (s.vcOf f) = true) :
    s.crossLink n f = s.crossed f (s.flight.set n (s.beyond f)) :=
  if_pos (Bool.and_eq_true_iff.2 ⟨hc, ht⟩)

/-- A flight that has just left its sender crosses its first link. -/
theorem State.crossLink_join {s : State} {f : Flight} (hc : (s.join f).crossable s.flight.length f = true)
    (ht : (s.join f).linkTurn f.at_ (nextLink f.src f.at_ f.dst.elem).2.1 f.ctl (s.vcOf f) = true) :
    (s.join f).crossLink s.flight.length f = s.crossed f (s.flight ++ [s.beyond f]) := by
  have hset : (s.flight ++ [f]).set s.flight.length (s.beyond f) = s.flight ++ [s.beyond f] := by simp
  exact (State.crossLink_crosses hc ht).trans (congrArg (s.crossed f) hset)

theorem Elem.out_count1 (x : Elem) (c k n : Nat) : (x.count1 c k n).out = x.out := by
  unfold Elem.count1
  split
  · rfl
  · split <;> rfl

section
variable {s : State} {e : Nat} {ctl : Bool} {st : Nat} {o : OutTok} {rest : List (Nat × OutTok)} {rt : Route} {r : Region}
  (h : Sends s e ctl st o rest rt r) (hready : ∀ z ∈ s.flight, z.ready = true)
include h hready

/-- An element whose oldest token crosses its first link changes only in its output buffer and its counts of what it has sent. -/
theorem Sends.injectElem {fs : List Flight}
    (hcross : (s.join (s.sent1 e o rt r)).crossLink s.flight.length (s.sent1 e o rt r) = s.crossed (s.sent1 e o rt r) (s.flight ++ fs))
    (hfs : (fs[0]?.bind Flight.link).isNone = false) :
    ∃ y, s.injectElem e ctl = (s.crossed (s.sent1 e o rt r) (s.flight ++ fs)).setElem e y ∧ y.out = dropOut ctl 1 (s.elem e).out := by
  have hj : ({ s with flight := s.flight.insertIdx s.flight.length (s.sent1 e o rt r) } : State) = s.join (s.sent1 e o rt r) := by
    rw [List.insertIdx_length_self]
    rfl
  have hl : ((s.crossed (s.sent1 e o rt r) (s.flight ++ fs)).flight[s.flight.length]?.bind Flight.link).isNone = false := by
    simpa [State.crossed, List.getElem?_append_right] using hfs
  unfold State.injectElem
  rw [h.sending, lanePos_of_ready hready]
  dsimp only
  rw [hj, hcross, hl]
  simp only [Bool.false_eq_true, if_false]
  split
  · exact absurd ‹o.tok.kind = .eos› h.notEos
  · refine ⟨_, rfl, ?_⟩
    rw [Elem.out_count1]
    cases ctl <;> rfl

end

/-- An element sends the oldest token of a plane over the first link on its route (R124 to R126, R380). -/
theorem tokenInjection_sends {s : State} {e : Nat} {ctl : Bool} {st : Nat} {o : OutTok} {rest : List (Nat × OutTok)} {rt : Route} {r : Region}
    (h : Sends s e ctl st o rest rt r) (he : e < 2 ^ 20) (hflight : ∀ z ∈ s.flight, z.ready = true ∧ z.src ≠ e) :
    let f := s.sent1 e o rt r
    let n := nextLink e e (routeDest r rt).elem
    s.netRuns (routeDest r rt) = true → s.linkFree n.2.1 ctl = true → s.poolRoom n.2.1 f = true → s.linkTurn e n.2.1 ctl (s.vcOf f) = true →
    ∃ s', exec (.tokenInjection e ctl) s = .next s' ∧ (s'.elem e).outOf ctl = rest ∧ (s'.elem e).outOf (!ctl) = (s.elem e).outOf (!ctl) ∧
      s'.flight = s.flight ++ [{ f with at_ := n.1, link := some n.2.1, due := s.cycle + n.2.2 }] ∧ s'.linkFree n.2.1 ctl = false ∧
      SMap.get 15 (2 * n.2.1 + ctl.toNat) s'.linkVc = s.vcOf f := by
  intro f n hnet hfree hroom hturn
  have hat : f.at_ = e := if_pos he
  have hn : nextLink f.src f.at_ f.dst.elem = n := by rw [hat]; rfl
  have hbeats : f.beats = 1 := by
    show tokBeats o.tok .raw = 1
    simp [tokBeats, h.notData]
  have hcross := State.crossLink_join (s := s) (f := f)
    (State.crossable_sent rfl rfl (Nat.le_refl _) hnet (by rw [hn, h.plane]; exact hfree) (by rw [hn]; exact hroom)
      fun z hz => (hflight z hz).2)
    (by rw [hn, hat, h.plane]; exact h.linkTurn_join hturn)
  obtain ⟨y, hy, hout⟩ := h.injectElem (fun z hz => (hflight z hz).1) hcross rfl
  have hexec : exec (.tokenInjection e ctl) s = .next (s.injectElem e ctl) := congrArg Host.Outcome.next (if_pos he)
  have helem : (s.injectElem e ctl).elem e = y := by rw [hy, State.elem_setElem_self]
  have hplane (d : Bool) := filter_dropOut_one ctl d (s.elem e).out
  refine ⟨_, hexec, ?_, ?_, ?_, ?_, ?_⟩
  · rw [helem, Elem.outOf, hout, hplane, if_pos rfl]
    exact congrArg List.tail h.oldest
  · rw [helem, Elem.outOf, hout, hplane, if_neg (by simp)]
    rfl
  · rw [hy, State.setElem_flight, State.crossed, State.beyond, hn]
  · rw [hy, State.linkFree, State.setElem_links, State.crossed, hn, h.plane, SMap.get_set_self, hbeats]
    exact decide_eq_false (Nat.not_succ_le_self s.cycle)
  · rw [hy, State.setElem_linkVc, State.crossed, hn, h.plane, SMap.get_set_self]

/-! ### TOKEN_ARRIVAL (R129, R130) -/

theorem Token.kind_unpack (m : LinkMode) (t : Token) : (t.unpack m).kind = t.kind := by
  unfold Token.unpack
  split <;> rfl

/-- What an element holds when a token has entered its queue, last. -/
theorem Elem.queue_enqueue (x : Elem) {q : Nat} (hq : q < 32) (p : Nat) (t : Token) :
    (x.enqueue q t).queue p = if p = q then x.queue q ++ [t] else x.queue p := by
  unfold Elem.queue Elem.enqueue
  rw [vget_vset]
  by_cases h : p = q
  · subst h
    simp [hq, Elem.queue]
  · rw [if_neg h, if_neg fun hp => h hp.1.symm]

/-- A token of no command that is not a section marker is at its queue when the queue takes it. -/
theorem State.reach_queue (s : State) (landing : Bool) (e q : Nat) {t : Token} (ht : t.kind ≠ .sect) :
    s.reach landing (.queue e q) none t = s.enterQueue e q t := by
  have hd : discards (s.regOf e) t = false := by simp [discards, ht]
  simp only [State.reach, Dest.elem, hd, Bool.false_eq_true, if_false]
  cases s.enterQueue e q t <;> rfl

/-- The n-th flight z has brought token u, of no command, to queue q of element e, and nothing holds it back there. -/
structure Lands (s : State) (n e q : Nat) (z : Flight) (u : Token) : Prop where
  nth : s.flight[n]? = some z
  dst : z.dst = .queue e q
  ready : z.ready = true
  at_ : z.at_ = e
  toks : z.toks = [u]
  cmd : z.cmd = none
  notSect : u.kind ≠ .sect
  notMxc : u.kind ≠ .mxc
  landed : z.landed s.cycle = true
  net : s.netRuns (.queue e q) = true
  first : ∀ w ∈ s.flight.take n, sameLane w z = false
  free : s.heldBack n z = false

section
variable {s : State} {n e q : Nat} {z : Flight} {u : Token} (h : Lands s n e q z u)
include h

/-- The flight's token enters its queue if it finds a slot there, and the flight waits otherwise. -/
theorem Lands.arrive :
    s.arrive n = match s.enterQueue e q (u.unpack z.mode) with | some t => t.dropFlight n | none => s := by
  have hlink : z.link.isNone = false := by
    have hl := h.landed
    simp only [Flight.landed, Bool.and_eq_true] at hl
    simpa using hl.1.1
  have hthere : ¬ (z.link.isNone || z.at_ != z.dst.elem) = true := by
    simp [hlink, h.dst, h.at_, Dest.elem]
  have henters : (z.ready && z.landed s.cycle && s.netRuns z.dst && !((s.flight.take n).any (sameLane · z)) && !s.heldBack n z) = true := by
    have hany : (s.flight.take n).any (sameLane · z) = false := List.any_eq_false.2 fun w hw => by simp [h.first w hw]
    simp [h.ready, h.landed, h.dst, h.net, hany, h.free]
  have hstray : ¬ s.strayMxc z = true := by simp [State.strayMxc, h.dst, h.toks, h.notMxc]
  have hset : s.flight.set n { z with toks := [u] } = s.flight := by
    obtain ⟨hn, hget⟩ := List.getElem?_eq_some_iff.1 h.nth
    rw [← h.toks, ← hget]
    exact List.set_getElem_self hn
  have hreach := s.reach_queue false e q (t := u.unpack z.mode) (by rw [Token.kind_unpack]; exact h.notSect)
  have hall : s.reachAll false z.dst z.cmd z.mode z.toks =
      match s.enterQueue e q (u.unpack z.mode) with | some t => ([], t) | none => ([u], s) := by
    rw [h.dst, h.cmd, h.toks, State.reachAll, hreach]
    rfl
  simp only [State.arrive, h.nth, if_neg hthere, if_pos henters, if_neg hstray, hall]
  cases s.enterQueue e q (u.unpack z.mode) with
  | some t => rfl
  | none => exact congrArg (fun fs => ({ s with flight := fs } : State)) hset

/-- A token that finds a slot enters its queue, last, and nothing else changes of its element (R129, R130). -/
theorem Lands.enters (hq : q < 32) {b : Bool} (hb : (s.storage e).slotFor q (u.unpack z.mode) = some b) :
    ∃ s', exec (.tokenArrival n) s = .next s' ∧ s'.flight = s.flight.eraseIdx n ∧
      (s'.elem e).queue q = (s.elem e).queue q ++ [{ u.unpack z.mode with shr := b }] ∧
      (∀ p < 32, p ≠ q → (s'.elem e).queue p = (s.elem e).queue p) ∧
      OnlyElem { s with flight := s'.flight, arrived := s'.arrived } s' e := by
  let v : Token := { u.unpack z.mode with shr := b }
  let s' : State := ({ s.setElem e ((s.elem e).enqueue q v) with arrived := s.arrived ++ [(e, q, v)] } : State).dropFlight n
  have harr : s.arrive n = s' := by
    rw [h.arrive, State.enterQueue, hb]
    rfl
  have helem : s'.elem e = (s.elem e).enqueue q v := s.elem_setElem_self e _
  refine ⟨s', congrArg Host.Outcome.next harr, rfl, ?_, fun p _ hpq => ?_, ?_⟩
  · rw [helem, Elem.queue_enqueue _ hq, if_pos rfl]
  · rw [helem, Elem.queue_enqueue _ hq, if_neg hpq]
  · rw [OnlyElem, helem]
    rfl

/-- A token that finds no slot waits where it is (R130). -/
theorem Lands.waits (hb : (s.storage e).slotFor q (u.unpack z.mode) = none) : exec (.tokenArrival n) s = .next s := by
  have harr : s.arrive n = s := by rw [h.arrive, State.enterQueue, hb]; rfl
  exact congrArg Host.Outcome.next harr

end

/-! ### CFG_TOKEN_APPLY (R132 to R135) -/

theorem Elem.queue_dequeue_self (x : Elem) {q : Nat} (hq : q < 32) : (x.dequeue q).queue q = (x.queue q).tail :=
  vget_vset_self x.queues q _ _ hq

theorem cfgApply_queues (x : Elem) (t : Token) : (cfgApply x t).queues = x.queues := by
  unfold cfgApply
  dsimp only
  split <;> rfl

/-- A CFG token of kind 1 sets the scale of its channel and no S register. -/
theorem cfgApply_scale {x : Elem} {t : Token} (h : t.pay.toNat % 2 ^ 32 / 2 ^ 28 = 1) :
    (cfgApply x t).s = x.s ∧
      (vget (cfgApply x t).chans (t.pay.toNat % 2 ^ 32 / 2 ^ 16 % 32) Chan.default).scale = BitVec.ofNat 32 (t.pay.toNat / 2 ^ 32 % 2 ^ 32) := by
  have hck : bitsOf (t.pay.toNat % 2 ^ 32) 28 4 = 1 := congrArg (· % 2 ^ 4) h
  simp only [cfgApply, hck, true_and]
  exact congrArg Chan.scale (vget_vset_self x.chans _ _ _ (Nat.mod_lt _ (by decide)))

/-- A CFG token of kind 2 sets its S register and no channel. -/
theorem cfgApply_sreg {x : Elem} {t : Token} (h : t.pay.toNat % 2 ^ 32 / 2 ^ 28 = 2) :
    (cfgApply x t).chans = x.chans ∧
      ∀ i < 16, (cfgApply x t).sreg i =
        if i = t.pay.toNat % 2 ^ 32 % 16 then BitVec.ofNat 32 (t.pay.toNat / 2 ^ 32 % 2 ^ 32) else x.sreg i := by
  have hck : bitsOf (t.pay.toNat % 2 ^ 32) 28 4 = 2 := congrArg (· % 2 ^ 4) h
  have hreg : bitsOf (t.pay.toNat % 2 ^ 32) 0 4 = t.pay.toNat % 2 ^ 32 % 16 := by simp [bitsOf]
  simp only [cfgApply, hck, hreg]
  refine ⟨rfl, fun i hi => (vget_vset x.s _ i _ _).trans (if_congr ?_ rfl rfl)⟩
  exact ⟨fun hp => hp.1.symm, fun hp => ⟨hp.symm, hi⟩⟩

/-- A CFG token u of an element that runs stands at the head of its queue as the cycle begins. -/
structure CfgHead (s : State) (e q : Nat) (u : Token) (us : List Token) : Prop where
  queue : (s.elem e).queue q = u :: us
  standing : s.standing e q = some u
  cfg : u.kind = .cfg
  runs : s.runs e = true

section
variable {s : State} {e q : Nat} {u : Token} {us : List Token} (h : CfgHead s e q u us)
include h

theorem CfgHead.dequeue (hq : q < 32) : ((s.elem e).dequeue q).queue q = us := by
  rw [Elem.queue_dequeue_self _ hq, h.queue, List.tail_cons]

/-- At an MXC queue it stays (R475). -/
theorem CfgHead.stays (hm : s.mxcQueue e q = true) : exec (.cfgTokenApply e q) s = .next s := by
  have happ : s.applyCfg e q = s := by simp [State.applyCfg, h.standing, hm]
  exact congrArg Host.Outcome.next happ

/-- With a wrong field it is dequeued and raises PRM (R135). -/
theorem CfgHead.raises (hq : q < 32) (hm : s.mxcQueue e q = false) (hbad : cfgBad (s.elem e) u = true) :
    ∃ s', exec (.cfgTokenApply e q) s = .next s' ∧ (s'.elem e).queue q = us ∧
      (s'.elem e).chans = (s.elem e).chans ∧ (s'.elem e).s = (s.elem e).s ∧ ∃ f ∈ s'.pend, f.frec.code = 0x0A := by
  let x := (s.elem e).dequeue q
  have happ : s.applyCfg e q = (s.setElem e x).raiseFault
      { code := 0x0A, src := 0, reg := (s.regionOf e).getD 0, elid := e, tix := 0, slot := 0, addr := 0, opc := 0, word := 0,
        prog := 0, at_ := .none } := by
    simp [State.applyCfg, h.standing, h.cfg, h.runs, hm, hbad, x]
  refine ⟨_, congrArg Host.Outcome.next happ, ?_⟩
  have helem (f : FaultSrc) (hf : f.at_ = .none) : ((s.setElem e x).raiseFault f).elem e = x := by
    simp only [State.raiseFault, State.hold, hf]
    exact s.elem_setElem_self e x
  rw [helem _ rfl]
  refine ⟨h.dequeue hq, rfl, rfl, _, List.mem_append_right _ (List.mem_singleton_self _), ?_⟩
  obtain ⟨hcode, -⟩ := State.faultRec_src ((s.setElem e x).hold .none true) _
  exact hcode

/-- A good one is dequeued and applied to its element, and raises nothing (R133). -/
theorem CfgHead.applies (hq : q < 32) (hm : s.mxcQueue e q = false) (hgood : cfgBad (s.elem e) u = false) :
    ∃ s', exec (.cfgTokenApply e q) s = .next s' ∧ s'.elem e = cfgApply ((s.elem e).dequeue q) u ∧ (s'.elem e).queue q = us ∧ s'.pend = s.pend := by
  let t := s.setElem e (cfgApply ((s.elem e).dequeue q) u)
  have helem : t.elem e = cfgApply ((s.elem e).dequeue q) u := s.elem_setElem_self e _
  have hqueue : (t.elem e).queue q = us := by
    rw [helem, Elem.queue, cfgApply_queues]
    exact h.dequeue hq
  have happ : s.applyCfg e q = if bitsOf u.pay.toNat 28 4 ≤ 1 then t.changed (coreOf e) else t := by
    simp [State.applyCfg, h.standing, h.cfg, h.runs, hm, hgood, t]
  refine ⟨_, congrArg Host.Outcome.next happ, ?_⟩
  split
  · exact ⟨helem, hqueue, rfl⟩
  · exact ⟨helem, hqueue, rfl⟩

end

/-- Settles O33: injection, arrival and application are each stated once of their step, and the hypotheses of a clause are what
`Sends`, `Lands` and `CfgHead` name. -/
theorem tokenTransport : Obligations.TokenTransport := by
  refine ⟨?injection, ?arrival, ?cfg⟩
  case injection =>
    intro s e st ctl o rest rt r he holdest hdata heos hstood hfirst hnet hroute hregion halone hflight
    exact tokenInjection_sends ⟨holdest, hdata, heos, hstood, hfirst, hnet, hroute, hregion, halone⟩ he hflight
  case arrival =>
    intro s n e q z u hq hnth hdst hready hat htoks hcmd hsect hmxc hland hnet hfirst hheld
    have h : Lands s n e q z u := ⟨hnth, hdst, hready, hat, htoks, hcmd, hsect, hmxc, hland, hnet, hfirst, hheld⟩
    exact ⟨fun b hb => h.enters hq hb, h.waits⟩
  case cfg =>
    intro s e q u us hq hqueue hstanding hkind hruns
    have h : CfgHead s e q u us := ⟨hqueue, hstanding, hkind, hruns⟩
    refine ⟨h.stays, fun hm => ⟨h.raises hq hm, fun hgood => ?_⟩⟩
    obtain ⟨s', hexec, helem, hus, hpend⟩ := h.applies hq hm hgood
    refine ⟨s', hexec, hus, hpend, fun hck => ?_, fun hck => ?_⟩
    · rw [helem]
      exact cfgApply_scale hck
    · rw [helem]
      exact cfgApply_sreg hck

end Sys2Proof.Machine
end

section
/-! SUPPORT. Fault steps: a rollback that its pseudo-channels hold up, because their list is not in the order of its keys (O39). -/

namespace Sys2Proof.Machine

open Sys2Proof

/-! ### A rollback that finds a pseudo-channel taken (R371, R382)

A look-up in a finite map stops at the first key past the one it seeks. With keys 5 and 3 in this order, key 3 is out of its sight while 5 stands
before it: the cut's pseudo-channel 3 passes as free although region 7 holds it. Leaving its pseudo-channels, the rollback drops 5, which region 0 holds,
and then sees 3 taken, so that the region is left where it waits for its pseudo-channels and not at its gate. In a state whose pseudo-channels are in
the order of their keys nothing comes into sight in this way. -/

/-- Region 0, with pseudo-channel 3 in its last cut. -/
def pc3Region : Region := { soloRegion with lastSnap := { Snap.empty with pcs := [(3, PChan.reset)] } }

/-- A fault of region 0 that holds nothing. -/
def looseFault : PendFault := ⟨0, ⟨0x01, 0, 0, 0, 0, 0, 0, 0, 0, 0, 0, 0, 0, 0⟩, .none, 0⟩

/-- The fault is pending; region 0 holds pseudo-channel 5, and behind it region 7 holds pseudo-channel 3. -/
def unsortedState : State :=
  { State.reset with
    regions := [(0, pc3Region)]
    pchans := [(5, { PChan.reset with holder := some 0 }), (3, { PChan.reset with holder := some 7 })]
    pend := [looseFault] }

theorem unsortedState_rollable : Rollable unsortedState 0 pc3Region 0x01 (faultPlace looseFault.frec looseFault.at_) :=
  ⟨rfl, rfl, rfl, by decide, by decide, rfl, rfl, rfl, rfl, List.Pairwise.nil⟩

set_option maxRecDepth 20000 in
theorem unsortedState_faultStep : ((unsortedState.faultStep 0).region looseFault.reg).map Region.phase = some .configured := by decide

theorem exec_faultRetry (n : Nat) (s : State) : exec (.faultRetry n) s = .next (s.faultStep n) := rfl

/-- Refutes O39: the fault that is neither a translation fault nor a violation does not leave its region at the gate, since a rollback can find
a pseudo-channel taken that the state's list hid before. -/
theorem not_faultSteps : ¬ Obligations.FaultSteps := by
  rintro ⟨hpend, -, -⟩
  obtain ⟨-, -, hlasting, -⟩ := hpend unsortedState 0 looseFault pc3Region rfl rfl rfl (by decide)
  obtain ⟨s', hexec, hback⟩ := hlasting ⟨by decide, by decide⟩ rfl unsortedState_rollable
  obtain rfl : unsortedState.faultStep 0 = s' := Host.Outcome.next.inj ((exec_faultRetry 0 unsortedState).symm.trans hexec)
  obtain ⟨g, hregion, hgated, -⟩ := hback.region
  have hphase := unsortedState_faultStep
  rw [hregion, Option.map_some, hgated] at hphase
  exact absurd hphase (by decide)

end Sys2Proof.Machine
end

section
/-! SUPPORT. Lanes of the integer types: ABS and NEG, the shifts and the rotation (R155, R157, R158, R509). -/

namespace Sys2Proof.Machine

open Sys2Proof

/-! ### Flags of lanes -/

/-- SA or no flag. -/
def saIf (b : Bool) : Fl := if b then flSA else flNone

theorem flNone_or (f : Fl) : flNone ||| f = f := BitVec.zero_or

theorem saIf_or (a b : Bool) : saIf a ||| saIf b = saIf (a || b) := by
  cases a <;> cases b <;> rfl

theorem foldl_saIf (bs : List Bool) (b : Bool) : bs.foldl (fun f b => f ||| saIf b) (saIf b) = saIf (b || bs.any id) := by
  induction bs generalizing b with
  | nil => simp
  | cons c bs ih => simp only [List.foldl_cons, saIf_or, ih, List.any_cons, id_eq, Bool.or_assoc]

/-- One source, each lane of which raises at most SA. -/
theorem mapRes_saIf {g : Nat → LaneRes} {y : Nat → Nat} {sa : Nat → Bool} {xs : List Nat} (h : ∀ x ∈ xs, g x = (y x, saIf (sa x))) :
    mapRes g xs = (xs.map y, saIf (xs.any sa)) := by
  have hv : xs.map (fun x => (g x).1) = xs.map y := List.map_congr_left fun x hx => by rw [h x hx]
  have hf : xs.foldl (fun f x => f ||| (g x).2) flNone = saIf (xs.any sa) := by
    have hg : xs.map (fun x => (g x).2) = (xs.map sa).map saIf := by
      rw [List.map_map]
      exact List.map_congr_left fun x hx => by rw [h x hx, Function.comp_apply]
    calc xs.foldl (fun f x => f ||| (g x).2) flNone
        = (xs.map fun x => (g x).2).foldl (· ||| ·) flNone := List.foldl_map.symm
      _ = (xs.map sa).foldl (fun f b => f ||| saIf b) (saIf false) := by rw [hg, List.foldl_map]; rfl
      _ = saIf (xs.any sa) := by rw [foldl_saIf, Bool.false_or, List.any_map]; rfl
  rw [mapRes, hv, hf]

/-- Two sources, each pair of lanes of which raises at most SA. -/
theorem mapRes2_saIf {g : Nat → Nat → LaneRes} {y : Nat → Nat → Nat} {sa : Nat → Nat → Bool} {xs ys : List Nat}
    (h : ∀ a ∈ xs, ∀ b, g a b = (y a b, saIf (sa a b))) :
    mapRes2 g xs ys = (List.zipWith y xs ys, saIf ((List.zipWith sa xs ys).any id)) := by
  have hg : List.zipWith g xs ys = (xs.zip ys).map fun p => (y p.1 p.2, saIf (sa p.1 p.2)) := by
    rw [← List.map_uncurry_zip_eq_zipWith]
    exact List.map_congr_left fun p hp => h p.1 (List.of_mem_zip hp).1 p.2
  have hz {β : Type} (k : Nat → Nat → β) : (xs.zip ys).map (fun p => k p.1 p.2) = List.zipWith k xs ys :=
    List.map_uncurry_zip_eq_zipWith
  have hf : ((xs.zip ys).map fun p => (y p.1 p.2, saIf (sa p.1 p.2))).foldl (fun f r => f ||| r.2) flNone =
      saIf ((List.zipWith sa xs ys).any id) := by
    rw [List.foldl_map, ← hz sa]
    refine Eq.trans ?_ ((foldl_saIf _ false).trans (congrArg saIf (Bool.false_or _)))
    rw [List.foldl_map]
    rfl
  simp only [mapRes2, hg, hf, List.map_map, ← hz y]
  rfl

/-! ### Integer types (R69, R71) -/

theorem Ty.isInt_eq_isInt64 (ty : Ty) : Ty.isInt ty = Wf.isInt64 ty := by cases ty <;> rfl

theorem isFl_of_isInt64 {ty : Ty} (h : Wf.isInt64 ty = true) : isFl ty = false := by
  rw [isFl, Ty.isInt_eq_isInt64, h]
  rfl

theorem Ty.ne_vc_of_isInt64 {ty : Ty} (h : Wf.isInt64 ty = true) : ty ≠ .vc := by
  rintro rfl
  cases h

theorem Ty.work_of_ne_vc {ty : Ty} (h : ty ≠ .vc) : Ty.work ty = ty := by
  cases ty <;> trivial

theorem Ty.width_pos (ty : Ty) : 0 < Ty.width ty := by cases ty <;> decide

theorem Ty.two_pow_width (ty : Ty) : 2 ^ Ty.width ty = 2 * 2 ^ (Ty.width ty - 1) := by
  rw [← Nat.pow_succ', Nat.succ_eq_add_one, Nat.sub_add_cancel (Ty.width_pos ty)]

theorem Ty.lanes_le (ty : Ty) : Ty.lanes ty ≤ 2 ^ Ty.width ty := by
  cases ty <;> decide

/-! ### Operands (R59 to R63) -/

theorem offsetAdd_lt (w a : Nat) (d : Int) : offsetAdd w a d < 2 ^ w := by
  have h : (0 : Int) < 2 ^ w := Int.pow_pos (by decide)
  have h1 := Int.emod_lt_of_pos ((a : Int) + d) h
  have h2 := Int.emod_nonneg ((a : Int) + d) h.ne'
  rw [offsetAdd]
  zify
  rwa [Int.toNat_of_nonneg h2]

theorem immOf_lt {ty : Ty} (h : Wf.isInt64 ty = true) (imm : BitVec 21) : immOf ty imm < 2 ^ Ty.width ty := by
  have himm : immOf ty imm = if Ty.signed ty then offsetAdd (Ty.width ty) 0 (sxInt imm.toNat 21) else imm.toNat % 2 ^ Ty.width ty := by
    cases ty <;> trivial
  rw [himm]
  split
  · exact offsetAdd_lt ..
  · exact Nat.mod_lt _ (Nat.two_pow_pos _)

theorem lanesOf_lt (ty : Ty) (v : VW) : ∀ x ∈ lanesOf ty v, x < 2 ^ Ty.width ty := by
  intro x hx
  obtain ⟨k, -, rfl⟩ := List.mem_map.1 hx
  exact Nat.mod_lt _ (Nat.two_pow_pos _)

theorem headLanes_lt (t : Token) (ty : Ty) (vec : Bool) : ∀ x ∈ headLanes t ty vec, x < 2 ^ Ty.width ty := by
  have hmod (n : Nat) : n % 2 ^ Ty.width ty < 2 ^ Ty.width ty := Nat.mod_lt _ (Nat.two_pow_pos _)
  intro x hx
  unfold headLanes at hx
  split at hx
  · rw [List.eq_of_mem_replicate hx]
    exact Nat.two_pow_pos _
  · split at hx
    · rw [List.eq_of_mem_replicate hx]
      exact hmod _
    · split at hx
      · exact lanesOf_lt ty t.pay x hx
      · rw [List.mem_singleton.1 hx]
        exact hmod _

/-- Every lane of an integer operand is a pattern of its type, and reading it raises no flag. -/
theorem State.read_int (s : State) (e : Nat) (x : Elem) {ty : Ty} (h : Wf.isInt64 ty = true) (vec : Bool) (imm : BitVec 21) (c : Src) :
    (∀ a ∈ (s.read e x ty vec imm c).1, a < 2 ^ Ty.width ty) ∧ (s.read e x ty vec imm c).2 = flNone := by
  have hmod (n : Nat) : n % 2 ^ Ty.width ty < 2 ^ Ty.width ty := Nat.mod_lt _ (Nat.two_pow_pos _)
  have spread {w n : Nat} (hw : w < 2 ^ Ty.width ty) : ∀ a ∈ List.replicate n w, a < 2 ^ Ty.width ty :=
    fun a ha => List.eq_of_mem_replicate ha ▸ hw
  cases c with
  | s r =>
    refine ⟨spread ?_, rfl⟩
    split
    · rename_i hw
      rw [hw]
      exact BitVec.isLt _
    · exact hmod _
  | v r =>
    refine ⟨?_, rfl⟩
    cases vec
    · simpa [State.read] using hmod _
    · exact lanesOf_lt ty _
  | q k =>
    unfold State.read
    dsimp only
    split
    · exact ⟨spread (Nat.two_pow_pos _), rfl⟩
    · rename_i t _
      rw [if_neg (by simpa using Ty.ne_vc_of_isInt64 h)]
      exact ⟨headLanes_lt t ty vec, rfl⟩
  | imm => exact ⟨spread (immOf_lt h imm), rfl⟩
  | zero => exact ⟨spread (Nat.two_pow_pos _), rfl⟩
  | spec p =>
    by_cases hp : p = .lane
    · subst hp
      unfold State.read
      dsimp only
      split
      · exact ⟨fun a ha => (List.mem_range.1 ha).trans_le (Ty.lanes_le ty), rfl⟩
      · exact ⟨spread (Nat.two_pow_pos _), rfl⟩
    · have hr : s.read e x ty vec imm (.spec p) =
          (List.replicate (if vec then Ty.lanes ty else 1) (s.special e x p % 2 ^ Ty.width ty), flNone) := by
        cases p <;> trivial
      rw [hr]
      exact ⟨spread (hmod _), rfl⟩

/-! ### Element-wise operations whose lanes raise at most SA -/

section
variable {s : State} {t : TU} {f : Firing} (h : Ordinary s t f) (hr : Roomy s f.e) {i : Instr} {o : FmtA} (hty : Wf.isInt64 o.ty = true)
include h hr hty

theorem exec_oneSrc_int {g : Axc → Ty → Nat → LaneRes} (hi : exec i s = .next (s.fire i t (oneSrc g o))) {y : Nat → Nat} {sa : Nat → Bool}
    (hg : ∀ a < 2 ^ Ty.width o.ty, g (axcOf f.x.axc) o.ty a = (y a, saIf (sa a))) :
    ∃ s', exec i s = .next s' ∧
      (let xs := (operand s f o o.a).1
       let r : Res := ⟨o.ty, vecOp o, xs.map y, saIf (xs.any sa)⟩
       Results s s' f o.d r.nonzero r) := by
  obtain ⟨hlt, hfl⟩ := s.read_int f.e f.x hty (vecOp o) o.imm o.a
  obtain ⟨s', hs', hres⟩ := exec_oneSrc h hr hi
  refine ⟨s', hs', ?_⟩
  simpa only [Ty.work_of_ne_vc (Ty.ne_vc_of_isInt64 hty), mapRes_saIf fun a ha => hg a (hlt a ha), operand, hfl, flNone_or]
    using hres

theorem exec_twoSrc_int {g : Axc → Ty → Nat → Nat → LaneRes} (hi : exec i s = .next (s.fire i t (twoSrc g o))) {y : Nat → Nat → Nat}
    {sa : Nat → Nat → Bool} (hg : ∀ a < 2 ^ Ty.width o.ty, ∀ b, g (axcOf f.x.axc) o.ty a b = (y a b, saIf (sa a b))) :
    ∃ s', exec i s = .next s' ∧
      (let xs := (operand s f o o.a).1
       let ys := (operand s f o o.b).1
       let r : Res := ⟨o.ty, vecOp o, List.zipWith y xs ys, saIf ((List.zipWith sa xs ys).any id)⟩
       Results s s' f o.d r.nonzero r) := by
  obtain ⟨hlt, hfa⟩ := s.read_int f.e f.x hty (vecOp o) o.imm o.a
  obtain ⟨-, hfb⟩ := s.read_int f.e f.x hty (vecOp o) o.imm o.b
  obtain ⟨s', hs', hres⟩ := exec_twoSrc h hr hi
  refine ⟨s', hs', ?_⟩
  simpa only [Ty.work_of_ne_vc (Ty.ne_vc_of_isInt64 hty), mapRes2_saIf fun a ha => hg a (hlt a ha), operand, hfa, hfb, flNone_or]
    using hres

end

/-! ### Values of patterns (R155) -/

section
variable {ty : Ty} {a : Nat} (ha : a < 2 ^ Ty.width ty)
include ha

theorem wrapint_natCast : wrapint ty a = a := by
  have h : ((a : Int) % (2 ^ Ty.width ty : Int)) = (a % 2 ^ Ty.width ty : Nat) := by push_cast; rfl
  rw [wrapint, h, Int.toNat_natCast, Nat.mod_eq_of_lt ha]

theorem wrapint_neg_natCast : wrapint ty (-(a : Int)) = (2 ^ Ty.width ty - a) % 2 ^ Ty.width ty := by
  have h : (-(a : Int)) % (2 ^ Ty.width ty : Int) = ((2 ^ Ty.width ty - a) % 2 ^ Ty.width ty : Nat) := by
    push_cast [Nat.cast_sub ha.le]
    rw [sub_eq_neg_add, Int.add_emod_right]
  rw [wrapint, h, Int.toNat_natCast]

/-- A pattern that is not of a negative value is its value. -/
theorem intOf_nonneg (hn : Ty.signed ty = false ∨ a < 2 ^ (Ty.width ty - 1)) : intOf ty a = a := by
  simp only [intOf, Nat.mod_eq_of_lt ha]
  refine if_neg ?_
  simp only [Bool.and_eq_true, decide_eq_true_eq]
  rintro ⟨hs, hle⟩
  rcases hn with hn | hn
  · simp [hn] at hs
  · omega

theorem intOf_neg (hs : Ty.signed ty = true) (hn : 2 ^ (Ty.width ty - 1) ≤ a) : intOf ty a = -((2 ^ Ty.width ty - a : Nat) : Int) := by
  simp only [intOf, Nat.mod_eq_of_lt ha, hs, Bool.true_and, hn, decide_true, if_true]
  push_cast [Nat.cast_sub ha.le]
  ring

end

/-- A value of the type is written as it is. -/
theorem fitint_of_mem {ty : Ty} {x : Int} (hl : intMin ty ≤ x) (hu : x ≤ intMax ty) (sat : Bool) : fitint ty sat x = (wrapint ty x, flNone) := by
  cases sat
  · rfl
  · rw [fitint, if_pos rfl, satint, if_neg (not_lt.2 hl), if_neg (not_lt.2 hu)]

theorem fitint_above {ty : Ty} {x : Int} (hl : intMin ty ≤ x) (hx : intMax ty < x) (sat : Bool) :
    fitint ty sat x = (wrapint ty (if sat then intMax ty else x), saIf sat) := by
  cases sat
  · rfl
  · rw [fitint, if_pos rfl, satint, if_neg (not_lt.2 hl), if_pos hx]
    rfl

theorem fitint_below {ty : Ty} {x : Int} (hx : x < intMin ty) (sat : Bool) :
    fitint ty sat x = (wrapint ty (if sat then intMin ty else x), saIf sat) := by
  cases sat
  · rfl
  · rw [fitint, if_pos rfl, satint, if_pos hx]
    rfl

theorem natCast_le_intMax_iff {ty : Ty} {n : Nat} :
    (n : Int) ≤ intMax ty ↔ n < if Ty.signed ty then 2 ^ (Ty.width ty - 1) else 2 ^ Ty.width ty := by
  unfold intMax
  split <;> (rw [Int.le_sub_one_iff]; norm_cast)

theorem intMin_le_neg_iff {ty : Ty} {n : Nat} : intMin ty ≤ -(n : Int) ↔ n ≤ if Ty.signed ty then 2 ^ (Ty.width ty - 1) else 0 := by
  unfold intMin
  split
  · rw [Int.neg_le_neg_iff]
    norm_cast
  · omega

theorem intMin_le_natCast (ty : Ty) (n : Nat) : intMin ty ≤ n :=
  (intMin_le_neg_iff (n := 0).2 (Nat.zero_le _)).trans (Int.natCast_nonneg n)

theorem neg_natCast_le_intMax (ty : Ty) (n : Nat) : -(n : Int) ≤ intMax ty := by
  have h0 : ((0 : Nat) : Int) ≤ intMax ty := natCast_le_intMax_iff.2 (by split <;> exact Nat.two_pow_pos _)
  omega

/-- The greatest value of a signed type, as a pattern. -/
theorem wrapint_intMax {ty : Ty} : wrapint ty (intMax ty) = if Ty.signed ty then 2 ^ (Ty.width ty - 1) - 1 else 2 ^ Ty.width ty - 1 := by
  have hw := Ty.two_pow_width ty
  have hp := Nat.two_pow_pos (Ty.width ty - 1)
  have hmax : intMax ty = ((if Ty.signed ty then 2 ^ (Ty.width ty - 1) - 1 else 2 ^ Ty.width ty - 1 : Nat) : Int) := by
    unfold intMax
    split <;> simp
  rw [hmax]
  refine wrapint_natCast ?_
  split <;> omega

/-! ### ABS and NEG (R158) -/

/-- The least value of a signed type, as a pattern. -/
def isLeast (ty : Ty) (a : Nat) : Bool := Ty.signed ty && a == 2 ^ (Ty.width ty - 1)

section
variable {ty : Ty} {a : Nat} (ha : a < 2 ^ Ty.width ty)
include ha

/-- The opposite of a negative value: only that of the least value lies above the type. -/
theorem fitint_opposite (hs : Ty.signed ty = true) (hle : 2 ^ (Ty.width ty - 1) ≤ a) (sat : Bool) :
    fitint ty sat ((2 ^ Ty.width ty - a : Nat) : Int) =
      (if isLeast ty a && sat then 2 ^ (Ty.width ty - 1) - 1 else 2 ^ Ty.width ty - a, saIf (sat && isLeast ty a)) := by
  have hw := Ty.two_pow_width ty
  have hp := Nat.two_pow_pos (Ty.width ty - 1)
  have hlt : 2 ^ Ty.width ty - a < 2 ^ Ty.width ty := by omega
  by_cases hl : a = 2 ^ (Ty.width ty - 1)
  · have habove : intMax ty < ((2 ^ Ty.width ty - a : Nat) : Int) := by
      rw [← not_le, natCast_le_intMax_iff, hs, if_pos rfl]
      omega
    have hleast : isLeast ty a = true := by simp [isLeast, hs, hl]
    rw [fitint_above (intMin_le_natCast ..) habove, hleast, Bool.true_and, Bool.and_true]
    cases sat
    · exact congrArg (·, saIf false) (wrapint_natCast hlt)
    · exact congrArg (·, saIf true) (wrapint_intMax.trans (by rw [hs]; rfl))
  · have hmem : ((2 ^ Ty.width ty - a : Nat) : Int) ≤ intMax ty := by
      rw [natCast_le_intMax_iff, hs, if_pos rfl]
      omega
    have hleast : isLeast ty a = false := by simp [isLeast, hl]
    rw [fitint_of_mem (intMin_le_natCast ..) hmem, wrapint_natCast hlt, hleast, Bool.and_false]
    rfl

variable (h : Wf.isInt64 ty = true) (m : BitVec 4)
include h

theorem laneAbs_int :
    laneAbs ty m a =
      (if isLeast ty a && m == 1 then 2 ^ (Ty.width ty - 1) - 1 else if Ty.signed ty && 2 ^ (Ty.width ty - 1) ≤ a then 2 ^ Ty.width ty - a else a,
        saIf (m == 1 && isLeast ty a)) := by
  rw [laneAbs, isFl_of_isInt64 h, if_neg Bool.false_ne_true]
  by_cases hneg : Ty.signed ty = true ∧ 2 ^ (Ty.width ty - 1) ≤ a
  · obtain ⟨hs, hle⟩ := hneg
    rw [intOf_neg ha hs hle, Int.natAbs_neg, Int.natAbs_natCast, fitint_opposite ha hs hle]
    simp only [hs, hle, decide_true, Bool.and_self, if_true]
  · have hleast : isLeast ty a = false := by
      simp only [isLeast, Bool.and_eq_false_imp, beq_eq_false_iff_ne]
      exact fun hs hl => hneg ⟨hs, hl.ge⟩
    have hnn : Ty.signed ty = false ∨ a < 2 ^ (Ty.width ty - 1) := by simpa [imp_iff_not_or] using hneg
    have hle : (a : Int) ≤ intMax ty := by
      rw [natCast_le_intMax_iff]
      rcases hnn with hs | hlt
      · rwa [hs]
      · split
        · exact hlt
        · exact ha
    have hc : ¬ (Ty.signed ty && decide (2 ^ (Ty.width ty - 1) ≤ a)) = true := by simpa using hneg
    rw [intOf_nonneg ha hnn, Int.natAbs_natCast, fitint_of_mem (intMin_le_natCast ..) hle, wrapint_natCast ha, hleast, Bool.and_false,
      if_neg hc]
    rfl

theorem laneNeg_int :
    laneNeg ty m a =
      (if m == 1 && !Ty.signed ty then 0 else if isLeast ty a && m == 1 then 2 ^ (Ty.width ty - 1) - 1 else (2 ^ Ty.width ty - a) % 2 ^ Ty.width ty,
        saIf (m == 1 && if Ty.signed ty then isLeast ty a else a != 0)) := by
  rw [laneNeg, isFl_of_isInt64 h, if_neg Bool.false_ne_true]
  cases hs : Ty.signed ty with
  | true =>
    rw [Bool.not_true, Bool.and_false, if_neg Bool.false_ne_true, if_pos rfl]
    by_cases hle : 2 ^ (Ty.width ty - 1) ≤ a
    · have hlt : 2 ^ Ty.width ty - a < 2 ^ Ty.width ty := by
        have := Nat.two_pow_pos (Ty.width ty - 1)
        omega
      rw [intOf_neg ha hs hle, neg_neg, fitint_opposite ha hs hle, Nat.mod_eq_of_lt hlt]
    · have hleast : isLeast ty a = false := by simp [isLeast, (not_le.1 hle).ne]
      have hmem : intMin ty ≤ -(a : Int) := by
        rw [intMin_le_neg_iff, hs, if_pos rfl]
        omega
      rw [intOf_nonneg ha (.inr (not_le.1 hle)), fitint_of_mem hmem (neg_natCast_le_intMax ..), wrapint_neg_natCast ha, hleast, Bool.and_false]
      rfl
  | false =>
    have hleast : isLeast ty a = false := by rw [isLeast, hs, Bool.false_and]
    rw [intOf_nonneg ha (.inl hs), hleast, Bool.not_false, Bool.and_true, Bool.false_and, if_neg Bool.false_ne_true,
      if_neg (c := false = true) Bool.false_ne_true]
    by_cases h0 : a = 0
    · subst h0
      rw [fitint_of_mem (intMin_le_neg_iff.2 (Nat.zero_le _)) (neg_natCast_le_intMax ..), wrapint_neg_natCast ha]
      simp [saIf]
    · have hbelow : -(a : Int) < intMin ty := by
        rw [← not_le, intMin_le_neg_iff, hs, if_neg Bool.false_ne_true]
        omega
      have hmin : intMin ty = ((0 : Nat) : Int) := by rw [intMin, hs]; rfl
      rw [fitint_below hbelow, hmin, bne_iff_ne.2 h0]
      cases m == 1
      · exact congrArg (·, saIf false) (wrapint_neg_natCast ha)
      · exact congrArg (·, saIf true) (wrapint_natCast (Nat.two_pow_pos _))

end

/-- Settles O58: both are the shared action of one source, whose lane function gives each lane its value and SA by the sign of the lane and the
limits of the type. -/
theorem absoluteAndNegative : Obligations.AbsoluteAndNegative := by
  intro s t o f h hr hty w sat xs least result
  exact ⟨exec_oneSrc_int h hr hty rfl fun a ha => laneAbs_int ha hty o.mod, exec_oneSrc_int h hr hty rfl fun a ha => laneNeg_int ha hty o.mod⟩

/-! ### Bits of a pattern that a shift moves (R157) -/

/-- Of n bits from the top one is set unless the pattern lies below what the other bits hold. -/
theorem any_top_bits {w n : Nat} (hn : n ≤ w) (v : BitVec w) :
    ((List.range n).any fun j => v.getLsbD (w - 1 - j)) = decide (2 ^ (w - n) ≤ v.toNat) := by
  rw [Bool.eq_iff_iff, List.any_eq_true, decide_eq_true_iff]
  refine ⟨fun ⟨j, hj, hb⟩ => ?_, fun hle => ?_⟩
  · have hj := List.mem_range.1 hj
    exact (Nat.pow_le_pow_right Nat.two_pos (by omega)).trans (Nat.ge_two_pow_of_testBit hb)
  · by_contra hnone
    refine Nat.not_lt.2 hle (Nat.lt_pow_two_of_testBit _ fun i hi => ?_)
    by_cases hiw : i < w
    · refine Bool.eq_false_iff.2 fun hb => hnone ⟨w - 1 - i, List.mem_range.2 (by omega), ?_⟩
      rwa [show w - 1 - (w - 1 - i) = i by omega]
    · exact BitVec.getLsbD_of_ge v i (not_lt.1 hiw)

/-- Of n bits from the top, at least one, one differs from the top bit unless the pattern, or below a set top bit its complement, lies below
what the other bits hold. -/
theorem any_bits_ne_top {w n : Nat} (h0 : 0 < w) (hn : n ≤ w) (v : BitVec w) :
    ((List.range n).any fun j => v.getLsbD (w - 1 - j) != v.getLsbD (w - 1)) =
      decide (2 ^ (w - n) ≤ (if v.toInt < 0 then ~~~v else v).toNat) := by
  have hm : v.getLsbD (w - 1) = decide (v.toInt < 0) := by rw [← BitVec.msb_eq_getLsbD_last, BitVec.msb_eq_toInt]
  by_cases hneg : v.toInt < 0
  · rw [if_pos hneg, ← any_top_bits hn, hm, decide_eq_true hneg]
    refine congrArg ((List.range n).any ·) (funext fun j => ?_)
    rw [BitVec.getLsbD_not, decide_eq_true (by omega), Bool.true_and, Bool.bne_true]
  · rw [if_neg hneg, ← any_top_bits hn, hm, decide_eq_false hneg]
    simp only [Bool.bne_false]

theorem shl_eq_ofInt {w : Nat} (v : BitVec w) (c : Nat) : v <<< c = BitVec.ofInt w (v.toInt * 2 ^ c) := by
  have h2 : BitVec.ofInt w (2 ^ c) = BitVec.twoPow w c := by
    refine BitVec.eq_of_toNat_eq ?_
    rw [← Nat.cast_ofNat, ← Nat.cast_pow, BitVec.ofInt_natCast, BitVec.toNat_ofNat, BitVec.toNat_twoPow]
  rw [BitVec.ofInt_mul, BitVec.ofInt_toInt, h2, BitVec.shiftLeft_eq_mul_twoPow]

/-- A signed pattern keeps its value under a shift to the left just when it stays between the limits. -/
theorem toInt_shl_eq_iff {w : Nat} (h0 : 0 < w) (v : BitVec w) (c : Nat) :
    (v <<< c).toInt = v.toInt * 2 ^ c ↔ -2 ^ (w - 1) ≤ v.toInt * 2 ^ c ∧ v.toInt * 2 ^ c < 2 ^ (w - 1) := by
  refine ⟨fun h => h ▸ ⟨BitVec.le_toInt _, BitVec.toInt_lt⟩, fun ⟨hl, hu⟩ => ?_⟩
  have hw : (2 ^ w : Nat) = 2 * 2 ^ (w - 1) := by rw [← Nat.pow_succ', Nat.succ_eq_add_one, Nat.sub_add_cancel h0]
  rw [shl_eq_ofInt, BitVec.toInt_ofInt]
  have hp : (2 ^ (w - 1) : Int) = (2 ^ (w - 1) : Nat) := by norm_cast
  exact Int.bmod_eq_of_le (by omega) (by omega)

theorem any_bits_ne_top_iff {w c : Nat} (hc : c < w) (v : BitVec w) :
    ((List.range (c + 1)).any fun j => v.getLsbD (w - 1 - j) != v.getLsbD (w - 1)) = decide ((v <<< c).toInt ≠ v.toInt * 2 ^ c) := by
  have h0 : 0 < w := by omega
  rw [any_bits_ne_top (n := c + 1) h0 hc, decide_eq_decide, ne_eq, toInt_shl_eq_iff h0]
  have hp : (0 : Int) < 2 ^ c := Int.pow_pos (by decide)
  have hsplit : (2 ^ (w - 1) : Int) = 2 ^ (w - (c + 1)) * 2 ^ c := by rw [← pow_add]; congr 1; omega
  have hw : (2 ^ w : Nat) = 2 * 2 ^ (w - 1) := by rw [← Nat.pow_succ', Nat.succ_eq_add_one, Nat.sub_add_cancel h0]
  have hlt := v.isLt
  rw [hsplit, ← neg_mul, mul_le_mul_iff_left₀ hp, mul_lt_mul_iff_left₀ hp]
  have hpos : (0 : Int) < 2 ^ (w - (c + 1)) := Int.pow_pos (by decide)
  by_cases hneg : v.toInt < 0
  · rw [if_pos hneg, BitVec.toNat_not]
    have hv : v.toInt = (v.toNat : Int) - (2 ^ w : Nat) := by
      rw [BitVec.toInt_eq_toNat_cond] at hneg ⊢
      split at hneg
      · omega
      · rw [if_neg ‹_›]
    zify
    rw [Nat.cast_sub (by omega), Nat.cast_sub (by omega)]
    push_cast at hv ⊢
    omega
  · rw [if_neg hneg]
    have hv : v.toInt = v.toNat := by
      rw [BitVec.toInt_eq_toNat_cond] at hneg ⊢
      split at hneg
      · rw [if_pos ‹_›]
      · omega
    zify
    omega

theorem toNat_rotateLeft_add {w c : Nat} (hc : c < w) (v : BitVec w) :
    (v.rotateLeft c).toNat = (v.toNat * 2 ^ c + v.toNat / 2 ^ (w - c)) % 2 ^ w := by
  have hsplit : 2 ^ w = 2 ^ c * 2 ^ (w - c) := by rw [← Nat.pow_add]; congr 1; omega
  have hq : v.toNat / 2 ^ (w - c) < 2 ^ c := Nat.div_lt_of_lt_mul (by rw [Nat.mul_comm, ← hsplit]; exact v.isLt)
  rw [BitVec.toNat_rotateLeft, Nat.mod_eq_of_lt hc, Nat.shiftLeft_eq, Nat.shiftRight_eq_div_pow, Nat.mul_comm v.toNat, hsplit,
    Nat.mul_mod_mul_left, ← Nat.two_pow_add_eq_or_of_lt hq, Nat.mod_mul, Nat.mul_add_mod, Nat.mod_eq_of_lt hq, Nat.mul_add_div (Nat.two_pow_pos c),
    Nat.div_eq_of_lt hq, Nat.add_zero, Nat.add_comm]

/-! ### Patterns as bit vectors (R155) -/

theorem wrapint_eq_toNat (ty : Ty) (x : Int) : wrapint ty x = (BitVec.ofInt (Ty.width ty) x).toNat := by
  rw [BitVec.toNat_ofInt, wrapint]
  push_cast
  rfl

theorem intOf_eq_toInt {ty : Ty} (hs : Ty.signed ty = true) (v : BitVec (Ty.width ty)) : intOf ty v.toNat = v.toInt := by
  have hw := Ty.two_pow_width ty
  rw [BitVec.toInt_eq_toNat_cond]
  by_cases hn : v.toNat < 2 ^ (Ty.width ty - 1)
  · rw [intOf_nonneg v.isLt (.inr hn), if_pos (by omega)]
  · rw [intOf_neg v.isLt hs (not_lt.1 hn), if_neg (by omega), Nat.cast_sub v.isLt.le, neg_sub]

/-! ### The shifts and the rotation (R157, R506, R509) -/

/-- A shift to the left by c loses a bit: one that differs from the sign, which is 0 for an unsigned type, leaves the pattern or becomes its
sign. -/
def shlLoses (ty : Ty) (v : BitVec (Ty.width ty)) (c : Nat) : Bool :=
  if Ty.signed ty then (List.range (c + 1)).any fun j => v.getLsbD (Ty.width ty - 1 - j) != v.getLsbD (Ty.width ty - 1)
  else (List.range c).any fun j => v.getLsbD (Ty.width ty - 1 - j)

/-- The limit of a type on a pattern's side. -/
def shlLimit (ty : Ty) (v : BitVec (Ty.width ty)) : BitVec (Ty.width ty) :=
  if Ty.signed ty then
    (if v.getLsbD (Ty.width ty - 1) then BitVec.ofNat _ (2 ^ (Ty.width ty - 1)) else BitVec.ofNat _ (2 ^ (Ty.width ty - 1) - 1))
  else BitVec.allOnes _

section
variable {ty : Ty} (v : BitVec (Ty.width ty))

theorem shlLoses_unsigned {c : Nat} (hc : c < Ty.width ty) (hs : Ty.signed ty = false) :
    shlLoses ty v c = decide (2 ^ Ty.width ty ≤ v.toNat * 2 ^ c) := by
  have hsplit : 2 ^ Ty.width ty = 2 ^ (Ty.width ty - c) * 2 ^ c := by rw [← Nat.pow_add, Nat.sub_add_cancel hc.le]
  rw [shlLoses, hs, if_neg Bool.false_ne_true, any_top_bits hc.le, hsplit, decide_eq_decide]
  exact (Nat.mul_le_mul_right_iff (Nat.two_pow_pos c)).symm

theorem shlLoses_signed {c : Nat} (hc : c < Ty.width ty) (hs : Ty.signed ty = true) :
    shlLoses ty v c = decide ((v <<< c).toInt ≠ v.toInt * 2 ^ c) := by
  rw [shlLoses, hs, if_pos rfl, any_bits_ne_top_iff hc]

theorem toNat_shlLimit_unsigned (hs : Ty.signed ty = false) : (shlLimit ty v).toNat = 2 ^ Ty.width ty - 1 := by
  rw [shlLimit, hs, if_neg Bool.false_ne_true, BitVec.toNat_allOnes]

theorem toNat_shlLimit_signed (hs : Ty.signed ty = true) :
    (shlLimit ty v).toNat = wrapint ty (if v.toInt ≥ 0 then intMax ty else intMin ty) := by
  have hw := Ty.two_pow_width ty
  have hp := Nat.two_pow_pos (Ty.width ty - 1)
  have hm : v.getLsbD (Ty.width ty - 1) = decide (v.toInt < 0) := by rw [← BitVec.msb_eq_getLsbD_last, BitVec.msb_eq_toInt]
  rw [shlLimit, hs, if_pos rfl, hm]
  by_cases hneg : v.toInt < 0
  · have hmin : intMin ty = -((2 ^ (Ty.width ty - 1) : Nat) : Int) := by
      rw [intMin, hs, if_pos rfl]
      norm_cast
    rw [if_pos (decide_eq_true hneg), if_neg (not_le.2 hneg), hmin, wrapint_neg_natCast (by omega), BitVec.toNat_ofNat]
    congr 1
    omega
  · rw [if_neg (by simpa using hneg), if_pos (not_lt.1 hneg), wrapint_intMax, hs, if_pos rfl, BitVec.toNat_ofNat, Nat.mod_eq_of_lt (by omega)]

theorem laneShl_toNat (m : BitVec 4) (b : Nat) :
    laneShl ty m v.toNat b =
      (let c := b % Ty.width ty
       let lost := m == 1 && shlLoses ty v c
       ((if lost then shlLimit ty v else v <<< c).toNat, saIf lost)) := by
  have hc := Nat.mod_lt b (Ty.width_pos ty)
  have hy : v.toNat * 2 ^ (b % Ty.width ty) % 2 ^ Ty.width ty = (v <<< (b % Ty.width ty)).toNat := by
    rw [BitVec.toNat_shiftLeft, Nat.shiftLeft_eq]
  simp only [laneShl, shiftCount, hy]
  cases hm : m == 1 with
  | false => rfl
  | true =>
    rw [Bool.true_and, if_pos rfl]
    cases hs : Ty.signed ty with
    | true =>
      rw [if_pos rfl, intOf_eq_toInt hs, intOf_eq_toInt hs, shlLoses_signed v hc hs, ← toNat_shlLimit_signed v hs]
      split <;> rename_i hkeeps
      · rw [decide_eq_false (not_not.2 hkeeps)]
        rfl
      · rw [decide_eq_true hkeeps]
        rfl
    | false =>
      rw [if_neg Bool.false_ne_true, shlLoses_unsigned v hc hs, ← toNat_shlLimit_unsigned v hs]
      split <;> rename_i hfits
      · rw [decide_eq_false (not_le.2 hfits)]
        rfl
      · rw [decide_eq_true (not_lt.1 hfits)]
        rfl

theorem laneShr_toNat (b : Nat) : laneShr ty v.toNat b = ((v >>> (b % Ty.width ty)).toNat, saIf false) := by
  rw [laneShr, shiftCount, BitVec.toNat_ushiftRight, Nat.shiftRight_eq_div_pow]
  rfl

theorem laneSar_toNat (b : Nat) : laneSar ty v.toNat b = ((v.sshiftRight (b % Ty.width ty)).toNat, saIf false) := by
  have hw := Ty.two_pow_width ty
  have hv : (if v.toNat ≥ 2 ^ (Ty.width ty - 1) then (v.toNat : Int) - 2 ^ Ty.width ty else v.toNat) = v.toInt := by
    rw [BitVec.toInt_eq_toNat_cond]
    by_cases hn : v.toNat < 2 ^ (Ty.width ty - 1)
    · rw [if_neg (not_le.2 hn), if_pos (by omega)]
    · rw [if_pos (not_lt.1 hn), if_neg (by omega)]
      norm_cast
  have hdiv : v.toInt / (2 ^ (b % Ty.width ty) : Int) = v.toInt >>> (b % Ty.width ty) := by
    rw [Int.shiftRight_eq_div_pow]
    norm_cast
  simp only [laneSar, shiftCount, hv, wrapint_eq_toNat, hdiv, ← BitVec.sshiftRight_eq]
  rfl

theorem laneRot_toNat (b : Nat) : laneRot ty v.toNat b = ((v.rotateLeft (b % Ty.width ty)).toNat, saIf false) := by
  rw [toNat_rotateLeft_add (Nat.mod_lt b (Ty.width_pos ty))]
  rfl

end

/-- A lane function of two sources as one of bit vectors. -/
theorem lane_of_toNat {ty : Ty} {g : Nat → Nat → LaneRes} {y : BitVec (Ty.width ty) → Nat → Nat} {sa : BitVec (Ty.width ty) → Nat → Bool}
    (hg : ∀ v b, g (BitVec.toNat v) b = (y v b, saIf (sa v b))) {a : Nat} (ha : a < 2 ^ Ty.width ty) (b : Nat) :
    g a b = (y (BitVec.ofNat _ a) b, saIf (sa (BitVec.ofNat _ a) b)) := by
  rw [← hg, BitVec.toNat_ofNat, Nat.mod_eq_of_lt ha]

/-- Settles O60: each lane function is its operation on bit vectors of the width, with the low bits of B as its count. -/
theorem shiftsAndRotation : Obligations.ShiftsAndRotation := by
  intro s t o f h hr hty w xs ys result lost limit
  have two {i g y sa} := exec_twoSrc_int (g := g) (i := i) (y := y) (sa := sa) h hr hty
  exact ⟨two rfl fun a ha b => lane_of_toNat (laneShl_toNat · o.mod) ha b, two rfl fun a ha b => lane_of_toNat laneShr_toNat ha b,
    two rfl fun a ha b => lane_of_toNat laneSar_toNat ha b, two rfl fun a ha b => lane_of_toNat laneRot_toNat ha b⟩

end Sys2Proof.Machine
end

section
/-! SUPPORT. CVT and QNT: a completion that may also set LFSR (R165, R436, R493). -/

namespace Sys2Proof.Machine

open Sys2Proof

/-! ### A result with an LFSR (R31, R165) -/

/-- The effect of a result that leaves a value in LFSR, or none. -/
def lfsrEffect (f : Firing) (d : Dst) (r : Res) (l : Option W32) : Effect :=
  { resEffect f.t none f.seq d f.tag r.nonzero r with lfsr := l }

theorem issueElem_lfsr (t : TU) (x : Elem) : (issueElem t x).lfsr = x.lfsr :=
  issueElem_keep Elem.lfsr (fun _ _ => rfl) (fun _ _ => rfl) (fun _ _ => rfl) (fun _ _ => rfl) t x

theorem Elem.apply_lfsr (x : Elem) (f : Effect) : (x.apply f).lfsr = f.lfsr.getD x.lfsr := by
  simp only [Elem.apply, Elem.emit_lfsr]
  rw [foldl_keep Elem.mark Elem.lfsr fun _ _ => rfl, foldl_keep Elem.release Elem.lfsr fun _ _ => rfl,
    regs_foldl_keep x f Elem.lfsr (fun _ _ _ => rfl) fun _ _ _ => rfl]

section
variable {s : State} {f : Firing} (hr : Roomy s f.e) (d : Dst) (r : Res) (l : Option W32)
include hr

theorem elem_lfsrEffect :
    ((s.issue f).completeWith f.e (lfsrEffect f d r l)).elem f.e =
      { (issueElem f.t (s.elem f.e)).apply (lfsrEffect f d r l) with lastDone := (s.cycle, f.seq + 1) } := by
  rw [completeWith_issue hr (ef := lfsrEffect f d r l) (resToks_length ..), State.elem_setElem_self]
  rfl

/-- What a firing that completes at once with a result and an LFSR leaves. -/
theorem lfsrEffect_completes :
    let s' := (s.issue f).completeWith f.e (lfsrEffect f d r l)
    OnlyElem s s' f.e ∧ (s'.elem f.e).lfsr = l.getD (s.elem f.e).lfsr ∧
      (∀ n < 16, (s'.elem f.e).sreg n = destS r d n ((s.elem f.e).sreg n)) ∧
      (∀ n < 16, (s'.elem f.e).vreg n = destV r d n ((s.elem f.e).vreg n)) ∧
      (s'.elem f.e).axs = (s.elem f.e).axs ||| r.fl ∧
      (s'.elem f.e).out = (s.elem f.e).out ++ (resToks f.t f.tag r.nonzero r).map fun o => ((s.elem f.e).nseq + 1, o) := by
  intro s'
  let x := issueElem f.t (s.elem f.e)
  let ef := lfsrEffect f d r l
  have he : s'.elem f.e = { x.apply ef with lastDone := (s.cycle, f.seq + 1) } := elem_lfsrEffect hr d r l
  refine ⟨?only, ?lfsr, fun n hn => ?sregs, fun n hn => ?vregs, ?axs, ?out⟩
  case only =>
    show OnlyElem s ((s.issue f).completeWith f.e ef) f.e
    rw [completeWith_issue hr (ef := ef) (resToks_length ..)]
    simp [OnlyElem]
  case lfsr =>
    rw [he]
    exact (x.apply_lfsr ef).trans (congrArg l.getD (issueElem_lfsr ..))
  case sregs =>
    rw [he]
    refine (Elem.sreg_congr (x.apply_s ef) n).trans ((sreg_resEffect f.t none f.seq d f.tag r.nonzero r x hn).trans ?_)
    exact congrArg _ (Elem.sreg_congr (issueElem_s ..) n)
  case vregs =>
    rw [he]
    refine (Elem.vreg_congr (x.apply_v ef) n).trans ((vreg_resEffect f.t none f.seq d f.tag r.nonzero r _ hn).trans ?_)
    refine congrArg _ ((foldl_keep (fun (x : Elem) (w : Nat × W32) => x.setS w.1 w.2) (Elem.vreg · n) (fun _ _ => rfl) ..).trans ?_)
    exact Elem.vreg_congr (issueElem_v ..) n
  case axs =>
    rw [he]
    exact (x.apply_axs ef).trans (congrArg (· ||| r.fl) (issueElem_axs ..))
  case out =>
    rw [he]
    refine (x.apply_out ef).trans ?_
    rw [issueElem_out, issueElem_nseq]
    rfl

end

/-! ### CVT and QNT (R436, R493) -/

section
variable (q : Bool) (o : FmtA) (f : Firing) (s : State)

/-- The source type of a conversion, and the lanes of it that are converted. -/
def convSty : Ty := (Wf.cvtSty o.imm).getD .n32
def convCount : Nat := if vecOp o then min (Ty.lanes (convSty o)) (Ty.lanes o.ty) else 1

/-- One lane of CVT, or of QNT if q. -/
def convLane (l : W32) (x : Nat) : ConvRes :=
  if q then laneQnt (axcOf f.x.axc) (Ty.work (convSty o)) o.ty o.mod l x ((s.read f.e f.x .f32 false o.imm o.b).1.headD 0)
  else laneCvt (axcOf f.x.axc) (Ty.work (convSty o)) o.ty o.mod l x

/-- The converted lanes with their flags and the LFSR they leave. -/
def convRun : List Nat × Fl × W32 :=
  convLanes (convLane q o f s) f.x.lfsr ((s.read f.e f.x (convSty o) (vecOp o) o.imm o.a).1.take (convCount o))

def convRes : Res :=
  let y := convRun q o f s
  ⟨o.ty, vecOp o, y.1 ++ List.replicate ((if vecOp o then Ty.lanes o.ty else 1) - convCount o) 0,
    (s.read f.e f.x (convSty o) (vecOp o) o.imm o.a).2 ||| y.2.1⟩

theorem convAct_eq :
    convAct q o f s = (s.issue f).completeWith f.e (lfsrEffect f o.d (convRes q o f s)
      (if (convRun q o f s).2.2 = f.x.lfsr then none else some (convRun q o f s).2.2)) := rfl

end

/-- An ordinary firing that runs the action of a conversion. -/
theorem exec_convAct {s : State} {t : TU} {f : Firing} (h : Ordinary s t f) (hr : Roomy s f.e) {i : Instr} {o : FmtA} {q : Bool}
    (hi : exec i s = .next (s.fire i t (convAct q o))) :
    ∃ s', exec i s = .next s' ∧ OnlyElem s s' f.e ∧
      (let l := (convRun q o f s).2.2
       let r := convRes q o f s
       (s'.elem f.e).lfsr = (if l = f.x.lfsr then (s.elem f.e).lfsr else l) ∧
       (∀ n < 16, (s'.elem f.e).sreg n = destS r o.d n ((s.elem f.e).sreg n)) ∧
       (∀ n < 16, (s'.elem f.e).vreg n = destV r o.d n ((s.elem f.e).vreg n)) ∧
       (s'.elem f.e).axs = (s.elem f.e).axs ||| r.fl ∧
       (s'.elem f.e).out = (s.elem f.e).out ++ (resToks t f.tag r.nonzero r).map fun o => ((s.elem f.e).nseq + 1, o)) := by
  obtain rfl := State.firing_t h.1
  refine ⟨_, hi, ?_⟩
  rw [State.fire_ordinary h, convAct_eq]
  obtain ⟨honly, hlfsr, hrest⟩ := lfsrEffect_completes hr o.d (convRes q o f s)
    (if (convRun q o f s).2.2 = f.x.lfsr then none else some (convRun q o f s).2.2)
  refine ⟨honly, hlfsr.trans ?_, hrest⟩
  split <;> rfl

/-- Settles O11: CVT and QNT run one action, which completes with the converted lanes and the LFSR they leave. -/
theorem conversions : Obligations.Conversions := by
  intro p hp s t o f h hr
  revert p
  simp only [List.forall_mem_cons, List.not_mem_nil, false_implies, implies_true, and_true]
  exact ⟨exec_convAct (q := false) h hr rfl, exec_convAct (q := true) h hr rfl⟩

end Sys2Proof.Machine
end

section
/-! SUPPORT. The bank of an element: what a write of it leaves, and an access that finds its port free (R180, R281, R366, R419). -/

namespace Sys2Proof.Machine

open Sys2Proof

/-! ### Watches tested (R224, R544) -/

/-- What a change of its watches keeps of an element, a test of any element keeps of it. -/
theorem State.elem_testElem_keep {γ : Type} (g : Elem → γ) (hg : ∀ (x : Elem) ws, g { x with watch := ws } = g x) (s : State)
    (a n d e : Nat) : g ((s.testElem a n d).elem e) = g (s.elem e) := by
  unfold State.testElem
  dsimp only
  split
  · rfl
  · split
    · rfl
    · by_cases hd : e = d
      · rw [hd, State.elem_setElem_self, hg]
      · rw [State.elem_setElem_ne s hd]

theorem State.elem_testWatches_keep {γ : Type} (g : Elem → γ) (hg : ∀ (x : Elem) ws, g { x with watch := ws } = g x) (s : State)
    (a n e : Nat) : g ((s.testWatches a n).elem e) = g (s.elem e) := by
  unfold State.testWatches
  generalize s.elems = xs
  induction xs generalizing s with
  | nil => rfl
  | cons x xs ih => exact (ih (s.testElem a n x.1)).trans (s.elem_testElem_keep g hg a n x.1 e)

/-- The memories outside the module's elements. -/
def State.mems (s : State) : List Host.Cell × List Host.Cell × List Host.Cell := (s.mem, s.hostMem, s.peerMem)

theorem State.mems_testWatches (s : State) (a n : Nat) : (s.testWatches a n).mems = s.mems := by
  refine State.foldl_keeps State.mems (fun s x => ?_) s.elems s
  unfold State.testElem
  dsimp only
  split
  · rfl
  · split <;> rfl

/-! ### A write of the bank (R180, R366) -/

theorem State.elem_bankTake_keep {γ : Type} (g : Elem → γ) (hw : ∀ (x : Elem) ws, g { x with watch := ws } = g x)
    (hd : ∀ (x : Elem) ds, g { x with dirty := ds } = g x) (s : State) (e a n : Nat) (y : Elem) : g ((s.bankTake e a n y).elem e) = g y := by
  have hself (z : Elem) : g ((s.setElem e z).elem e) = g z := congrArg g (State.elem_setElem_self ..)
  unfold State.bankTake
  dsimp only
  split
  · split
    · exact (State.elem_testWatches_keep g hw ..).trans ((hself _).trans (hd ..))
    · exact (hself _).trans (hd ..)
  · exact (State.elem_testWatches_keep g hw ..).trans (hself _)
  · exact hself _

theorem State.mems_bankTake (s : State) (e a n : Nat) (y : Elem) : (s.bankTake e a n y).mems = s.mems := by
  unfold State.bankTake
  dsimp only
  split
  · split
    · exact State.mems_testWatches ..
    · rfl
  · exact State.mems_testWatches ..
  · rfl

/-- Everything of an element but what a write of its bank changes. -/
def Elem.sansBank (x : Elem) : Elem := { x with bank := [], undo := [], dirty := [], watch := Vector.replicate 4 none }

/-- The bank of element e is m in t; but for what a write of it changes, the element is as in s, and so are the memories. -/
structure Rebanked (s t : State) (e : Nat) (m : List Host.Cell) : Prop where
  mems : t.mems = s.mems
  still : (t.elem e).sansBank = (s.elem e).sansBank
  bank : (t.elem e).bank = m

theorem rebanked_refl (s : State) (e : Nat) : Rebanked s s e (s.elem e).bank := ⟨rfl, rfl, rfl⟩

theorem rebanked_bankWrite (s : State) (e a : Nat) (bs : List Byte) :
    Rebanked s (s.bankWrite e a bs) e (Memory.write (s.elem e).bank a bs) where
  mems := State.mems_bankTake ..
  still := State.elem_bankTake_keep Elem.sansBank (fun _ _ => rfl) (fun _ _ => rfl) ..
  bank := State.elem_bankTake_keep Elem.bank (fun _ _ => rfl) (fun _ _ => rfl) ..

/-- Writes of the bank one after another. -/
theorem rebanked_foldl {α : Type} (addr : α → Nat) (bytes : α → List Byte) (e : Nat) (ws : List α) (s : State) :
    Rebanked s (ws.foldl (fun s w => s.bankWrite e (addr w) (bytes w)) s) e
      (ws.foldl (fun b w => Memory.write b (addr w) (bytes w)) (s.elem e).bank) := by
  induction ws generalizing s with
  | nil => exact rebanked_refl s e
  | cons w ws ih =>
    have h1 := rebanked_bankWrite s e (addr w) (bytes w)
    obtain ⟨hm, hs, hb⟩ := ih (s.bankWrite e (addr w) (bytes w))
    exact ⟨hm.trans h1.mems, hs.trans h1.still, hb.trans (by rw [h1.bank]; rfl)⟩

section
variable {s t : State} {e : Nat} {m : List Host.Cell} (h : Rebanked s t e m)
include h

theorem Rebanked.keeps {γ : Type} (g : Elem → γ) (hg : ∀ x : Elem, g x.sansBank = g x) : g (t.elem e) = g (s.elem e) :=
  (hg _).symm.trans ((congrArg g h.still).trans (hg _))

theorem Rebanked.quiet : Quiet s t e := by
  obtain ⟨h1, h2⟩ := Prod.ext_iff.1 h.mems
  obtain ⟨h2, h3⟩ := Prod.ext_iff.1 h2
  exact ⟨⟨h1, h2, h3⟩, ⟨h.keeps Elem.s fun _ => rfl, h.keeps Elem.v fun _ => rfl⟩, h.keeps Elem.out fun _ => rfl,
    h.keeps Elem.axs fun _ => rfl⟩

theorem Rebanked.slot (k : Nat) : t.slot e k = s.slot e k := h.keeps (fun x => vget x.slots k none) fun _ => rfl

theorem Rebanked.roomy (hr : Roomy s e) : Roomy t e := by
  obtain ⟨hout, hwait⟩ := hr
  refine ⟨fun ctl => ?_, (h.keeps Elem.waiting fun _ => rfl).trans hwait⟩
  rw [h.keeps (fun x => x.outOf ctl) fun _ => rfl]
  exact hout ctl

end

/-! ### An access of a free port (R281, R303, R416, R419) -/

theorem State.portTaken_of_noPass {s : State} {e : Nat} (h : NoPass s e) : s.portTaken e = false := by
  obtain ⟨hat, hrects⟩ := h
  unfold State.portTaken
  rw [beq_eq_false_iff_ne.2 hat, Bool.false_or]
  split
  · rfl
  · rename_i r hr
    refine List.any_eq_false.2 fun m hm => ?_
    rcases hrects r hr m hm with hmoved | hbanks
    · simp [hmoved]
    · have hnone : ((m.moving true).any fun v => (r.waveBanks m v).contains e) = false :=
        List.any_eq_false.2 fun v hv => by rw [hbanks v hv]; exact Bool.false_ne_true
      simp only [hnone, Bool.and_false, Bool.false_eq_true, not_false_eq_true]

/-- The state after an access has taken the port of a bank. -/
def State.portUsed (s : State) (e : Nat) (c : Elem → Nat) : State := s.modElem e fun x => { x with bankAt := c x }

/-- An access that finds the port free acts, and takes the port. -/
theorem State.bankAccess_acts {s : State} {e n : Nat} {as : List Nat} {write : Bool} (h : PortFree s e n as write) (k : Nat)
    (act : State → State) :
    s.bankAccess e k n as write act =
      (act s).portUsed e fun x => max x.bankAt s.cycle + (as.flatMap fun a => rowsOf a n).eraseDups.length := by
  obtain ⟨⟨hpass, hfilled, hroom, -⟩, hat, harray⟩ := h
  have hwait : decide (s.cycle < (s.elem e).bankAt) = false := decide_eq_false (not_lt.2 hat)
  simp only [State.bankAccess, State.portAccess, hfilled, List.findSome?_nil, State.portTaken_of_noPass hpass, Bool.false_eq_true, if_false,
    hwait, harray, Bool.or_self, Bool.and_false, List.foldl_nil, List.isEmpty_nil, hroom, Bool.and_self, if_true]
  rfl

section
variable (s : State) (e : Nat) (c : Elem → Nat)

theorem State.elem_portUsed : (s.portUsed e c).elem e = { s.elem e with bankAt := c (s.elem e) } := State.elem_setElem_self ..

theorem State.elem_portUsed_keep {γ : Type} (g : Elem → γ) (hg : ∀ (x : Elem) n, g { x with bankAt := n } = g x) :
    g ((s.portUsed e c).elem e) = g (s.elem e) := by
  rw [State.elem_portUsed, hg]

theorem quiet_portUsed : Quiet s (s.portUsed e c) e := by
  have keeps {γ : Type} (g : Elem → γ) := s.elem_portUsed_keep e c g
  exact ⟨⟨rfl, rfl, rfl⟩, ⟨keeps Elem.s fun _ _ => rfl, keeps Elem.v fun _ _ => rfl⟩, keeps Elem.out fun _ _ => rfl,
    keeps Elem.axs fun _ _ => rfl⟩

theorem State.slot_portUsed (k : Nat) : (s.portUsed e c).slot e k = s.slot e k :=
  s.elem_portUsed_keep e c (fun x => vget x.slots k none) fun _ _ => rfl

theorem State.bank_portUsed : ((s.portUsed e c).elem e).bank = (s.elem e).bank :=
  s.elem_portUsed_keep e c Elem.bank fun _ _ => rfl

end

theorem State.bank_setSlot (s : State) (e k : Nat) (y : Slot) : ((s.setSlot e k y).elem e).bank = (s.elem e).bank := by
  rw [State.setSlot, State.modElem_eq, State.elem_setElem_self]

theorem State.bank_performed (s : State) (e k : Nat) (v : VW) : ((s.performed e k v).elem e).bank = (s.elem e).bank := by
  unfold State.performed
  split
  · rfl
  · exact State.bank_setSlot ..

end Sys2Proof.Machine
end

section
/-! SUPPORT. The bank operations that their unit takes as they issue: BLD, BLDX, BST, BSTX, BRMW and BCAS (R182, R413 to R417). -/

namespace Sys2Proof.Machine

open Sys2Proof

/-! ### Issue (R353, R414) -/

/-- A slot as the issue of a bank operation has filled it. -/
structure BankSlot (y : Slot) (i : Instr) (f : Firing) (o : FmtM) (b : VW) (wide : Bool) : Prop where
  ins : y.ins = i
  stage : y.stage = 0
  held : y.held = false
  opa : y.opa = word512 (wordOf f.x o.a)
  opb : y.opb = b
  opc : y.opc = storedOf f.x o.ty o.d
  fl : y.fl = flNone
  wide : y.wide = wide

theorem BankSlot.base {y : Slot} {i : Instr} {f : Firing} {o : FmtM} {b : VW} {wide : Bool} (h : BankSlot y i f o b wide) :
    bankBase o y = bankAddr f o := by
  have hmod : (word512 (wordOf f.x o.a)).toNat % 65536 = wordOf f.x o.a % 65536 := by
    rw [word512, BitVec.toNat_ofNat]
    exact Nat.mod_mod_of_dvd _ (Nat.pow_dvd_pow 2 (show 16 ≤ 512 by decide))
  rw [bankBase, h.opa, hmod]
  rfl

/-- An operation in slot k may be noted there once more, under the same firing. -/
theorem Takes.setSlot {s u : State} {f : Firing} {i : Instr} {k : Nat} {a b c : VW} {chn : Nat} (h : Takes s u f i k a b c chn) (hk : k < 8)
    {y : Slot} (hy : u.slot f.e k = some y) (w : Bool) : Takes s (u.setSlot f.e k { y with wide := w }) f i k a b c chn := by
  have he : (u.setSlot f.e k { y with wide := w }).elem f.e =
      { u.elem f.e with slots := vset (u.elem f.e).slots k (some { y with wide := w }) } := State.elem_setElem_self ..
  refine ⟨?_, ?_, { y with wide := w }, State.slot_setSlot_self _ _ _ hk, ?_⟩
  · unfold OnlyElem
    rw [he]
    show u.setElem f.e _ = s.setElem f.e _
    conv_lhs => rw [h.only]
    rw [State.setElem_setElem, State.elem_setElem_self]
  · rw [he]
    exact h.issued.vset_slots _
  · obtain ⟨z, hz, hrest⟩ := h.slot
    obtain rfl : y = z := Option.some.inj (hy.symm.trans hz)
    exact hrest

/-- The issue of a bank operation: u is the state in which it stands in its slot as y. -/
theorem bankIssue_eq {s : State} {t : TU} {f : Firing} {k : Nat} (h : s.firing t = some f) (hk : freeSlot f.x = some k) (i : Instr) (o : FmtM)
    (b : VW) (wide : Bool) (bad : Elem → Slot → Option (Nat × Nat)) (perf : Nat → Nat → State → State) :
    ∃ u y, bankIssue i o b wide bad perf f s = u.promptly f.e k (bad (u.elem f.e)) (perf f.e k) ∧
      Takes s u f i k (word512 (wordOf f.x o.a)) b (storedOf f.x o.ty o.d) o.chn.toNat ∧ u.slot f.e k = some y ∧ BankSlot y i f o b wide := by
  have hk8 := freeSlot_lt hk
  have ht := takes_of h hk i (word512 (wordOf f.x o.a)) b (storedOf f.x o.ty o.d) flNone o.chn.toNat
  obtain ⟨y, hy, hfresh⟩ := State.slot_takeSlot_fresh (s := s) hk i (word512 (wordOf f.x o.a)) b (storedOf f.x o.ty o.d) flNone o.chn.toNat
  obtain ⟨z, hz, -, hopa, hopb, hfl, -⟩ := s.slot_takeSlot hk i (word512 (wordOf f.x o.a)) b (storedOf f.x o.ty o.d) flNone o.chn.toNat
  obtain ⟨v, hv, -, -, -, -, -, -, -, hopc, -⟩ := ht.slot
  obtain rfl : y = z := Option.some.inj (hy.symm.trans hz)
  obtain rfl : y = v := Option.some.inj (hy.symm.trans hv)
  have hslot : (s.takeSlot f i (word512 (wordOf f.x o.a)) b (storedOf f.x o.ty o.d) flNone o.chn.toNat).2 = k :=
    congrArg (Option.getD · 0) hk
  refine ⟨_, { y with wide := wide }, ?_, ht.setSlot hk8 hy wide, State.slot_setSlot_self _ _ _ hk8,
    ⟨hfresh.ins, hfresh.stage, hfresh.held, hopa, hopb, hopc, hfl, rfl⟩⟩
  have hbase : BitVec.ofNat 512 (wordOf f.x o.a) = word512 (wordOf f.x o.a) := rfl
  simp only [bankIssue, hbase, hslot, hy]

/-! ### Faults at issue (R182, R414) -/

section
variable {o : FmtM} {align : Slot → Nat} {as : Slot → List Nat} {w : Bool} {x : Elem} {y : Slot}

theorem bankBad_sound (ha : bankBase o y % align y = 0) (hq : w = true → ∀ a ∈ as y, x.quarter a ≠ .wgt) :
    bankBad o align as w x y = none := by
  rw [bankBad, if_neg (not_not.2 ha), if_neg]
  rw [Bool.and_eq_true, List.any_eq_true]
  rintro ⟨hw, a, ha, hwgt⟩
  exact hq hw a ha (beq_iff_eq.1 hwgt)

theorem bankBad_misaligned (ha : bankBase o y % align y ≠ 0) : bankBad o align as w x y = some (0x05, 0) := if_pos ha

theorem bankBad_wgt (ha : bankBase o y % align y = 0) (hw : w = true) {a : Nat} (hm : a ∈ as y) (hq : x.quarter a = .wgt) :
    bankBad o align as w x y = some (0x07, 0) := by
  rw [bankBad, if_neg (not_not.2 ha), if_pos]
  rw [Bool.and_eq_true, List.any_eq_true]
  exact ⟨hw, a, hm, beq_iff_eq.2 hq⟩

end

/-- A bank operation with a fault at issue takes its slot and is held there. -/
theorem bankIssue_raises {s : State} {t : TU} {f : Firing} {k : Nat} (h : s.firing t = some f) (hk : freeSlot f.x = some k) (i : Instr)
    (o : FmtM) (b : VW) (wide : Bool) {align : Slot → Nat} {as : Slot → List Nat} {w : Bool} {code addr : Nat}
    (hb : ∀ y, BankSlot y i f o b wide → bankBad o align as w (s.elem f.e) y = some (code, addr)) (perf : Nat → Nat → State → State) :
    SlotRaised s (bankIssue i o b wide (bankBad o align as w) perf f s) f k o.chn.toNat code addr := by
  obtain ⟨u, y, heq, ht, hy, hslot⟩ := bankIssue_eq h hk i o b wide (bankBad o align as w) perf
  have hbad := (ht.issued.keeps (fun x => bankBad o align as w x y) fun _ => rfl).trans (hb y hslot)
  rw [heq, State.promptly_bad hy hbad]
  exact slotRaised_of ht (freeSlot_lt hk) code addr

/-! ### The port of an element that has just issued (R281, R303) -/

section
variable {s u : State} {f : Firing} {i : Instr} {k : Nat} {a b c : VW} {chn : Nat} (h : Takes s u f i k a b c chn) (ha : Alone s f.e)
include h ha

theorem Takes.ins_of_mem_slots {z : Slot} (hz : some z ∈ (u.elem f.e).slots.toList) : z.ins = i := by
  obtain ⟨j, hj, hjz⟩ := mem_toList_iff_vget.1 hz
  by_cases hjk : j = k
  · obtain ⟨y, hy, hins, -⟩ := h.slot
    subst hjk
    exact Option.some.inj (hjz.symm.trans hy) ▸ hins
  · rw [h.issued.slots j hj hjk] at hjz
    exact absurd ((ha.1 j hj).symm.trans hjz) (by simp)

theorem Takes.arrayWants (hi : isArrayBank i = false) : u.arrayWants f.e = false := by
  refine List.any_eq_false.2 fun z hz => ?_
  cases z with
  | none => exact Bool.false_ne_true
  | some z => simp [h.ins_of_mem_slots ha hz, hi]

theorem Takes.portFree (hi : isArrayBank i = false) {n : Nat} {as : List Nat} {w : Bool} (hp : PortFree s f.e n as w) :
    PortFree u f.e n as w := by
  obtain ⟨⟨⟨hat, hrects⟩, hfilled, hroom, hquarter⟩, hbank, -⟩ := hp
  have keeps {γ : Type} (g : Elem → γ) := h.issued.keeps g
  have hcycle : u.cycle = s.cycle := by rw [h.only]; rfl
  have hreg : u.regOf f.e = s.regOf f.e := by rw [h.only]; rfl
  refine ⟨⟨⟨?_, ?_⟩, ?_, ?_, fun hw a ha => ?_⟩, ?_, h.arrayWants ha hi⟩
  · rw [keeps Elem.portAt fun _ => rfl, hcycle]
    exact hat
  · rw [hreg, hcycle]
    exact hrects
  · exact (keeps (fun x => unfilled x _) fun _ => rfl).trans hfilled
  · exact (keeps (fun x => undoRoom x _) fun _ => rfl).trans hroom
  · rw [keeps (fun x => x.quarter a) fun _ => rfl]
    exact hquarter hw a ha
  · rw [keeps Elem.bankAt fun _ => rfl, hcycle]
    exact hbank

end

/-! ### An operation taken at once -/

theorem exec_bankIssue {s : State} {t : TU} {f : Firing} (h : Ordinary s t f) {i : Instr} {o : FmtM} (b : Firing → State → VW)
    (wide : Firing → Bool) {bad : Elem → Slot → Option (Nat × Nat)} {perf : Nat → Nat → State → State}
    (hi : exec i s = .next (s.fire i t fun f s => bankIssue i o (b f s) (wide f) bad perf f s)) :
    exec i s = .next (bankIssue i o (b f s) (wide f) bad perf f s) := by
  rw [hi, State.fire_ordinary h]

/-- A sound bank operation acts as it issues, if it finds its port free: u is the state in which it stands in its slot as y. -/
theorem bankIssue_acts {s : State} {t : TU} {f : Firing} {k : Nat} (h : ReadyIn s t f k) {i : Instr} (hi : isArrayBank i = false) {o : FmtM}
    {b : VW} {wide w : Bool} {align n : Slot → Nat} {as : Slot → List Nat} {act : Slot → State → State}
    {perf : Nat → Nat → State → State}
    (hperf : ∀ u : State, perf f.e k u =
      u.trySlot f.e k (bankBad o align as w (u.elem f.e)) fun y => u.bankAccess f.e k (n y) (as y) w (act y))
    (halign : ∀ y, BankSlot y i f o b wide → bankBase o y % align y = 0)
    (hport : ∀ y, BankSlot y i f o b wide → PortFree s f.e (n y) (as y) w) :
    ∃ u y c, bankIssue i o b wide (bankBad o align as w) perf f s = (act y u).portUsed f.e c ∧
      Takes s u f i k (word512 (wordOf f.x o.a)) b (storedOf f.x o.ty o.d) o.chn.toNat ∧ u.slot f.e k = some y ∧
      BankSlot y i f o b wide := by
  obtain ⟨hord, hk, hprompt, halone⟩ := h
  obtain ⟨u, y, heq, ht, hy, hslot⟩ := bankIssue_eq hord.1 hk i o b wide (bankBad o align as w) perf
  have hfree := ht.portFree halone hi (hport y hslot)
  have hbad : bankBad o align as w (u.elem f.e) y = none := bankBad_sound (halign y hslot) hfree.1.2.2.2
  have hcur : u.cur = s.cur := by rw [ht.only]; rfl
  obtain ⟨cur, hw, hp⟩ := Option.map_eq_some_iff.1 hprompt
  have hacts : u.promptly f.e k (bankBad o align as w (u.elem f.e)) (perf f.e k) = perf f.e k u := by
    simp only [State.promptly, hy, hbad, hcur, hw, hp, if_true]
  have htried := State.trySlot_acts hy hslot.stage hslot.held hbad (ht.edgesMet halone hy)
    fun y => u.bankAccess f.e k (n y) (as y) w (act y)
  exact ⟨u, y, _, heq.trans (hacts.trans ((hperf u).trans (htried.trans (State.bankAccess_acts hfree k (act y))))), ht, hy, hslot⟩

theorem Takes.bank {s u : State} {f : Firing} {i : Instr} {k : Nat} {a b c : VW} {chn : Nat} (h : Takes s u f i k a b c chn) :
    (u.elem f.e).bank = (s.elem f.e).bank := h.issued.keeps Elem.bank fun _ => rfl

/-- What an operation that has written its bank, or has not, and is performed with a late result leaves. -/
theorem Takes.accessed {s u v : State} {f : Firing} {i : Instr} {k : Nat} {a b c : VW} {chn : Nat} (h : Takes s u f i k a b c chn)
    (hk : k < 8) {m : List Host.Cell} (hv : Rebanked u v f.e m) {l l' : VW} (hl : l = l') (p : Elem → Nat) :
    let s' := (v.performed f.e k l).portUsed f.e p
    Quiet s s' f.e ∧ (s'.elem f.e).bank = m ∧ Performed s' f.e k i l' := by
  intro s'
  obtain ⟨y, hy, hins, -⟩ := h.slot
  have hy' : v.slot f.e k = some y := (hv.slot k).trans hy
  refine ⟨h.quiet.trans (hv.quiet.trans ((quiet_performed ..).trans (quiet_portUsed ..))), ?_, ?_⟩
  · rw [State.bank_portUsed, State.bank_performed, hv.bank]
  · obtain ⟨z, hz, hzins, hstage, hres⟩ := performed_performed hk hy' l
    exact ⟨z, (State.slot_portUsed ..).trans hz, hzins.trans hins, hstage, hres.trans hl⟩

/-! ### What the slot says of the accesses (R414, R416) -/

section
variable {y : Slot} {i : Instr} {f : Firing} {o : FmtM} {b : VW} {wide : Bool} (h : BankSlot y i f o b wide)
include h

theorem BankSlot.accessBytes : accessBytes o y.wide = if wide then 64 else tyBytes o.ty := by
  rw [h.wide]
  rfl

theorem BankSlot.indexBytes : indexBytes o y = if wide then tyBytes o.ty else if Dst.isV o.d then 64 else tyBytes o.ty := by
  rw [Machine.indexBytes, h.wide]

theorem BankSlot.indexAddrs :
    indexAddrs o y =
      if wide then (lanesOf o.ty b).map fun j => (bankAddr f o + j * tyBytes o.ty) % 65536
      else [offsetAdd 16 (bankAddr f o) (sxInt b.toNat 32 * (Machine.indexBytes o y : Int))] := by
  rw [Machine.indexAddrs, h.wide, h.opb, h.base]

end

theorem bankRead_toNat (x : Elem) (a n : Nat) : (bankRead x a n).toNat = natLE (Memory.read x.bank a n) % 2 ^ 512 := by
  simp only [bankRead, BitVec.toNat_ofNat]

/-! ### Loads (R413, R415, R416) -/

theorem bankLoads : Claims.BankLoads := by
  intro s t o f k h
  have hk := freeSlot_lt h.2.1
  refine ⟨fun ha hp => ?bld, fun ha hp => ?bldx⟩
  case bld =>
    obtain ⟨u, y, p, hs', ht, hy, hslot⟩ := bankIssue_acts h (i := .bld t o) rfl (b := 0) (wide := Dst.isV o.d) (perf := performBld o)
      (fun _ => rfl) (fun y hy => by rw [hy.accessBytes, hy.base]; exact ha) (fun y hy => by rw [hy.accessBytes, hy.base]; exact hp)
    have hbank : Rebanked u u f.e (s.elem f.e).bank := ht.bank ▸ rebanked_refl u f.e
    refine ⟨_, (exec_bankIssue h.1 (fun _ _ => 0) (fun _ => Dst.isV o.d) rfl).trans (congrArg Host.Outcome.next hs'), ht.accessed hk hbank ?_ p⟩
    rw [bankRead, ht.bank, hslot.base, hslot.accessBytes]
    rfl
  case bldx =>
    obtain ⟨u, y, p, hs', ht, hy, hslot⟩ := bankIssue_acts h (i := .bldx t o) rfl (b := indexCapture o f s) (wide := wideSrc f.x o.b)
      (perf := performBldx o) (fun _ => rfl) (fun y hy => by rw [hy.indexBytes, hy.base]; exact ha)
      (fun y hy => by rw [hy.indexAddrs, hy.indexBytes]; exact hp)
    have hbank : Rebanked u u f.e (s.elem f.e).bank := ht.bank ▸ rebanked_refl u f.e
    refine ⟨_, (exec_bankIssue h.1 (fun f s => indexCapture o f s) (fun f => wideSrc f.x o.b) rfl).trans (congrArg Host.Outcome.next hs'),
      ht.accessed hk hbank ?_ p⟩
    simp only [bankRead_toNat, ht.bank, hslot.indexAddrs, hslot.indexBytes]
    rfl

/-! ### Stores (R182, R413, R414, R416) -/

theorem bankStores : Claims.BankStores := by
  intro s t o f k h
  have hk := freeSlot_lt h.2.1
  refine ⟨fun ha hp => ?bst, fun ha => ?aln, fun ha hq => ?wgq, fun ha hp => ?bstx⟩
  case bst =>
    obtain ⟨u, y, p, hs', ht, hy, hslot⟩ := bankIssue_acts h (i := .bst t o) rfl (b := 0) (wide := Dst.isV o.d) (perf := performBst o)
      (fun _ => rfl) (fun y hy => by rw [hy.accessBytes, hy.base]; exact ha) (fun y hy => by rw [hy.accessBytes, hy.base]; exact hp)
    obtain ⟨hquiet, hbank, hperf⟩ := ht.accessed hk (rebanked_bankWrite u f.e (bankBase o y) (bytesLE (accessBytes o y.wide) y.opc.toNat)) rfl p
    refine ⟨_, (exec_bankIssue h.1 (fun _ _ => 0) (fun _ => Dst.isV o.d) rfl).trans (congrArg Host.Outcome.next hs'), hquiet, ?_, hperf⟩
    rw [hbank, ht.bank, hslot.base, hslot.accessBytes, hslot.opc]
    exact stored_write ..
  case aln =>
    have hbad : ∀ y, BankSlot y (.bst t o) f o 0 (Dst.isV o.d) → oneBad o true (s.elem f.e) y = some (0x05, 0) := fun y hy =>
      bankBad_misaligned (by rw [hy.accessBytes, hy.base]; exact ha)
    exact ⟨_, exec_bankIssue h.1 (fun _ _ => 0) (fun _ => Dst.isV o.d) rfl, bankIssue_raises h.1.1 h.2.1 _ o 0 _ hbad _⟩
  case wgq =>
    have hbad : ∀ y, BankSlot y (.bst t o) f o 0 (Dst.isV o.d) → oneBad o true (s.elem f.e) y = some (0x07, 0) := fun y hy =>
      bankBad_wgt (by rw [hy.accessBytes, hy.base]; exact ha) rfl (List.mem_singleton_self _) (hy.base.symm ▸ hq)
    exact ⟨_, exec_bankIssue h.1 (fun _ _ => 0) (fun _ => Dst.isV o.d) rfl, bankIssue_raises h.1.1 h.2.1 _ o 0 _ hbad _⟩
  case bstx =>
    obtain ⟨u, y, p, hs', ht, hy, hslot⟩ := bankIssue_acts h (i := .bstx t o) rfl (b := indexCapture o f s) (wide := wideSrc f.x o.b)
      (perf := performBstx o) (fun _ => rfl) (fun y hy => by rw [hy.indexBytes, hy.base]; exact ha)
      (fun y hy => by rw [hy.indexAddrs, hy.indexBytes]; exact hp)
    obtain ⟨hquiet, hbank, hperf⟩ := ht.accessed hk (rebanked_foldl (fun w : Nat × Nat => w.2)
      (fun w => bytesLE (indexBytes o y) (y.opc.toNat / 2 ^ (8 * indexBytes o y * w.1))) f.e
      ((List.range (indexAddrs o y).length).zip (indexAddrs o y)) u) rfl p
    refine ⟨_, (exec_bankIssue h.1 (fun f s => indexCapture o f s) (fun f => wideSrc f.x o.b) rfl).trans (congrArg Host.Outcome.next hs'),
      hquiet, hperf, hbank.trans ?_⟩
    simp only [ht.bank, hslot.indexAddrs, hslot.indexBytes, hslot.opc]

/-! ### BRMW (R151, R417) -/

/-- The lanes an update writes for an old value and an operand, with their flags. -/
def updateLanes (o : FmtM) (ax : Axc) (wide : Bool) (old b : VW) : List LaneRes :=
  List.zipWith (updateOp (o.mod.toNat % 8) o.ty ax.rm ax.ftz)
    ((lanesOf o.ty old).take (if wide then Ty.lanes o.ty else 1)) (lanesOf o.ty b)

/-- Those of a BRMW in slot y, under the AXC of the cycle. -/
def brmwLanes (o : FmtM) (e : Nat) (y : Slot) (s : State) : List LaneRes :=
  updateLanes o (axcOf (s.view e).axc) y.wide (bankRead (s.elem e) (bankBase o y) (accessBytes o y.wide)) y.opb

/-- The flags of some lanes together. -/
def laneFlags (rs : List LaneRes) : Fl := rs.foldl (fun f r => f ||| r.2) flNone

/-- The bank is written, and the old value and the flags stand in the slot. -/
def brmwWrite (o : FmtM) (e k : Nat) (y : Slot) (s : State) : State :=
  let rs := brmwLanes o e y s
  let v := (s.bankWrite e (bankBase o y) (bytesLE (accessBytes o y.wide) (packLanes o.ty (rs.map Prod.fst)).toNat)).performed e k
    (bankRead (s.elem e) (bankBase o y) (accessBytes o y.wide))
  match v.slot e k with
  | some z => v.setSlot e k { z with fl := z.fl ||| laneFlags rs }
  | none => v

/-- A BRMW in its slot: an fadd waits for the turn of its firing, and is performed if the firing completes. -/
theorem performBrmw_eq (o : FmtM) (e k : Nat) (s : State) :
    performBrmw o e k s = s.trySlot e k (oneBad o true (s.elem e)) fun y =>
      let sums := decide (o.mod.toNat % 8 = 7)
      if sums && !s.inTurn e k y then s
      else
        s.bankAccess e k (accessBytes o y.wide) [bankBase o y] true fun before =>
          let t := brmwWrite o e k y before
          let u := t.finishLoad e k o.ty o.d (y.wide || Dst.isV o.d)
          if !sums then t else if (u.slot e k).isNone then u else before := rfl

theorem performBrmw_plain {o : FmtM} (hm : o.mod.toNat % 8 ≠ 7) (e k : Nat) (s : State) :
    performBrmw o e k s = s.trySlot e k (oneBad o true (s.elem e)) fun y =>
      s.bankAccess e k (accessBytes o y.wide) [bankBase o y] true (brmwWrite o e k y) := by
  simp only [performBrmw_eq, decide_eq_false hm, Bool.false_and, Bool.false_eq_true, if_false, Bool.not_false, if_true]

theorem performBrmw_sums {o : FmtM} (hm : o.mod.toNat % 8 = 7) (e k : Nat) (s : State) :
    performBrmw o e k s = s.trySlot e k (oneBad o true (s.elem e)) fun y =>
      if !s.inTurn e k y then s
      else
        s.bankAccess e k (accessBytes o y.wide) [bankBase o y] true fun before =>
          let u := (brmwWrite o e k y before).finishLoad e k o.ty o.d (y.wide || Dst.isV o.d)
          if (u.slot e k).isNone then u else before := by
  simp only [performBrmw_eq, decide_eq_true hm, Bool.true_and, Bool.not_true, Bool.false_eq_true, if_false]

theorem State.setSlot_setSlot (s : State) (e k : Nat) (y z : Slot) : (s.setSlot e k y).setSlot e k z = s.setSlot e k z := by
  have hv : vset (vset (s.elem e).slots k (some y)) k (some z) = vset (s.elem e).slots k (some z) := Vector.setIfInBounds_setIfInBounds ..
  simp only [State.setSlot, State.modElem_eq, State.setElem_setElem, State.elem_setElem_self, hv]

theorem brmwWrite_eq {s : State} {e k : Nat} (hk : k < 8) {z : Slot} (hz : s.slot e k = some z) (o : FmtM) (y : Slot) :
    ∃ v, Rebanked s v e (Memory.write (s.elem e).bank (bankBase o y)
        (bytesLE (accessBytes o y.wide) (packLanes o.ty ((brmwLanes o e y s).map Prod.fst)).toNat)) ∧
      brmwWrite o e k y s = v.setSlot e k { z with
        stage := 3, st := .late, lres := bankRead (s.elem e) (bankBase o y) (accessBytes o y.wide),
        fl := z.fl ||| laneFlags (brmwLanes o e y s) } := by
  have hv := rebanked_bankWrite s e (bankBase o y) (bytesLE (accessBytes o y.wide) (packLanes o.ty ((brmwLanes o e y s).map Prod.fst)).toNat)
  refine ⟨_, hv, ?_⟩
  simp only [brmwWrite, State.performed_eq ((hv.slot k).trans hz), State.slot_setSlot_self _ _ _ hk, State.setSlot_setSlot]

/-! ### BCAS (R417) -/

/-- The bank after the comparison of a BCAS in slot y. -/
def bcasWrite (o : FmtM) (e : Nat) (y : Slot) (s : State) : State :=
  if (bankRead (s.elem e) (bankBase o y) (tyBytes o.ty)).toNat = (groupCas o.ty y.opb).1 then
    s.bankWrite e (bankBase o y) (bytesLE (tyBytes o.ty) (groupCas o.ty y.opb).2)
  else s

theorem performBcas_eq (o : FmtM) (e k : Nat) (s : State) :
    performBcas o e k s = s.trySlot e k (oneBad o true (s.elem e)) fun y =>
      s.bankAccess e k (tyBytes o.ty) [bankBase o y] true fun s =>
        (bcasWrite o e y s).performed e k (bankRead (s.elem e) (bankBase o y) (tyBytes o.ty)) := rfl

theorem rebanked_bcasWrite {o : FmtM} {e : Nat} {y : Slot} {s : State} {old a : Nat} {g : Nat × Nat} {m : List Host.Cell}
    (hold : (bankRead (s.elem e) (bankBase o y) (tyBytes o.ty)).toNat = old) (ha : bankBase o y = a) (hg : groupCas o.ty y.opb = g)
    (hm : (s.elem e).bank = m) :
    Rebanked s (bcasWrite o e y s) e (if old = g.1 then Memory.write m a (bytesLE (tyBytes o.ty) g.2) else m) := by
  subst hold ha hg hm
  unfold bcasWrite
  split
  · exact rebanked_bankWrite ..
  · exact rebanked_refl ..

theorem natLE_lt (bs : List Byte) : natLE bs < 256 ^ bs.length := by
  induction bs with
  | nil => exact Nat.one_pos
  | cons b bs ih =>
    have hb : b.toNat < 256 := b.isLt
    rw [natLE, List.length_cons, Nat.pow_succ]
    omega

/-- A scalar of the bank is its bytes' number. -/
theorem bankRead_scalar (x : Elem) (a : Nat) (ty : Ty) : (bankRead x a (tyBytes ty)).toNat = natLE (Memory.read x.bank a (tyBytes ty)) := by
  have hlt := natLE_lt (Memory.read x.bank a (tyBytes ty))
  have hlen : (Memory.read x.bank a (tyBytes ty)).length = tyBytes ty := by simp [Memory.read]
  have hty : tyBytes ty ≤ 8 := by cases ty <;> decide
  rw [hlen, show 256 = 2 ^ 8 from rfl, ← Nat.pow_mul] at hlt
  rw [bankRead_toNat]
  exact Nat.mod_eq_of_lt (hlt.trans_le (Nat.pow_le_pow_right Nat.two_pos (by omega)))

/-! ### Updates taken at once -/

theorem bankUpdatesTaken : Claims.BankUpdatesTaken := by
  intro s t o f k h
  have hk := freeSlot_lt h.2.1
  refine ⟨?brmw, fun ha hp => ?bcas⟩
  case brmw =>
    intro wide n old ax b ys ha hp hm
    obtain ⟨u, y, p, hs', ht, hy, hslot⟩ := bankIssue_acts h (i := .brmw t o) rfl (b := packLanes o.ty (s.read f.e f.x o.ty wide 0 o.b).1)
      (wide := wide) (perf := performBrmw o) (fun u => performBrmw_plain hm f.e k u)
      (fun y hy => by rw [hy.accessBytes, hy.base]; exact ha) (fun y hy => by rw [hy.accessBytes, hy.base]; exact hp)
    have hold : bankRead (u.elem f.e) (bankBase o y) (accessBytes o y.wide) = word512 (natLE old) := by
      rw [bankRead, ht.bank, hslot.base, hslot.accessBytes]
      rfl
    have hlanes : brmwLanes o f.e y u = ys := by
      have hview : u.view f.e = f.x := by rw [ht.only, State.view_setElem_self, State.firing_x h.1.1]
      rw [brmwLanes, hview, hold, hslot.wide, hslot.opb]
      rfl
    obtain ⟨v, hv, hw⟩ := brmwWrite_eq hk hy o y
    rw [hw, hlanes, hold, hslot.fl, flNone_or] at hs'
    rw [ht.bank, hlanes, hslot.base, hslot.accessBytes] at hv
    refine ⟨_, (exec_bankIssue h.1 (fun f s => packLanes o.ty (s.read f.e f.x o.ty (brmwWide f.x o) 0 o.b).1) (fun f => brmwWide f.x o)
      rfl).trans (congrArg Host.Outcome.next hs'),
      ht.quiet.trans (hv.quiet.trans ((quiet_setSlot ..).trans (quiet_portUsed ..))), ?_, _,
      (State.slot_portUsed ..).trans (State.slot_setSlot_self _ _ _ hk), rfl, rfl, rfl⟩
    rw [State.bank_portUsed, State.bank_setSlot, hv.bank]
    exact stored_write ..
  case bcas =>
    obtain ⟨u, y, p, hs', ht, hy, hslot⟩ := bankIssue_acts h (i := .bcas t o) rfl (b := groupOf f.x o.b) (wide := false) (perf := performBcas o)
      (fun u => performBcas_eq o f.e k u) (fun y hy => by rw [hy.accessBytes, hy.base]; exact ha) (fun y hy => by rw [hy.base]; exact hp)
    have hold : (bankRead (u.elem f.e) (bankBase o y) (tyBytes o.ty)).toNat =
        natLE (Memory.read (s.elem f.e).bank (bankAddr f o) (tyBytes o.ty)) := by rw [bankRead_scalar, ht.bank, hslot.base]
    have hval : bankRead (u.elem f.e) (bankBase o y) (tyBytes o.ty) =
        word512 (natLE (Memory.read (s.elem f.e).bank (bankAddr f o) (tyBytes o.ty))) := by rw [bankRead, ht.bank, hslot.base]; rfl
    obtain ⟨hquiet, hbank, hperf⟩ := ht.accessed hk (rebanked_bcasWrite hold hslot.base (congrArg _ hslot.opb) ht.bank) hval p
    refine ⟨_, (exec_bankIssue h.1 (fun f _ => groupOf f.x o.b) (fun _ => false) rfl).trans (congrArg Host.Outcome.next hs'), hquiet, hperf,
      fun heq => ?_, fun hne => hbank.trans (if_neg hne)⟩
    rw [hbank.trans (if_pos heq)]
    exact stored_write ..

/-! ### The fadd of a BRMW, as its firing completes (R151, R417) -/

theorem roomy_setSlot {s : State} {e : Nat} (h : Roomy s e) (k : Nat) (y : Slot) : Roomy (s.setSlot e k y) e := by
  have he : (s.setSlot e k y).elem e = { s.elem e with slots := vset (s.elem e).slots k (some y) } := State.elem_setElem_self ..
  obtain ⟨hout, hwait⟩ := h
  refine ⟨fun ctl => ?_, by rw [he]; exact hwait⟩
  rw [he]
  exact hout ctl

theorem Elem.apply_bank (x : Elem) (f : Effect) : (x.apply f).bank = x.bank :=
  apply_keep Elem.bank f (fun _ _ _ => rfl) (fun _ _ _ => rfl) (fun _ _ => rfl) (fun _ _ => rfl) (fun _ => rfl) (fun _ _ _ _ _ => rfl) x

theorem State.bank_finishLoad {s : State} {e k : Nat} {y : Slot} (hy : s.slot e k = some y) (hr : Roomy s e) (ty : Ty) (d : Dst) (wide : Bool) :
    ((s.finishLoad e k ty d wide).elem e).bank = (s.elem e).bank := by
  simp only [State.finishLoad, hy]
  rw [State.finishSlot_roomy hy hr, State.elem_setElem_self]
  exact Elem.apply_bank ..

theorem choose_perform_brmw {s : State} {e k : Nat} {y : Slot} {t : TU} {o : FmtM} (hy : s.slot e k = some y) (hins : y.ins = .brmw t o)
    (hruns : s.runs e = true) : choose (.perform e k) s = .next (performBrmw o e k s) := by
  have hattempt : s.attempt e k = performBrmw o e k s := by
    simp only [State.attempt, hy, hins, layoutOf, attemptM]
  rw [← hattempt]
  exact congrArg Host.Outcome.next (if_pos hruns)

/-- A BRMW of an fadd in its turn, whose firing completes with its write, has written, has completed and has taken the port. -/
theorem performBrmw_completes {s u : State} {e k : Nat} {y : Slot} {o : FmtM} (hm : o.mod.toNat % 8 = 7) (hy : s.slot e k = some y)
    (hstage : y.stage = 0) (hturn : s.inTurn e k y = true) (hedges : s.edgesMet e y = true) (ha : bankBase o y % accessBytes o y.wide = 0)
    (hp : PortFree s e (accessBytes o y.wide) [bankBase o y] true)
    (hu : (brmwWrite o e k y s).finishLoad e k o.ty o.d (y.wide || Dst.isV o.d) = u) (hslot : u.slot e k = none) :
    ∃ c, performBrmw o e k s = u.portUsed e c := by
  have hheld : y.held = false := by
    simp only [State.inTurn, Bool.and_eq_true, Bool.not_eq_true'] at hturn
    exact hturn.1.1.1.1.2
  have hbad : oneBad o true (s.elem e) y = none := bankBad_sound ha hp.1.2.2.2
  refine ⟨fun x => max x.bankAt s.cycle + ([bankBase o y].flatMap fun a => rowsOf a (accessBytes o y.wide)).eraseDups.length, ?_⟩
  rw [performBrmw_sums hm, State.trySlot_acts hy hstage hheld hbad hedges, hturn]
  refine (State.bankAccess_acts hp k _).trans ?_
  simp only [hu, hslot, Option.isNone_none, if_true]

theorem bankSums : Claims.BankSums := by
  intro s e k y t o hk hy hins hm hstage hturn hedges hr x a n ax old ys vec r ha hp
  have hruns : s.runs e = true := by
    simp only [State.inTurn, Bool.and_eq_true] at hturn
    exact hturn.1.1.1.2
  have hlanes : brmwLanes o e y s = ys := by
    rw [brmwLanes, updateLanes, hm]
    rfl
  obtain ⟨v, hv, hw⟩ := brmwWrite_eq hk hy o y
  rw [hlanes] at hv hw
  -- the write leaves z in the slot, and z completes
  let z : Slot := { y with stage := 3, st := .late, lres := old, fl := y.fl ||| laneFlags ys }
  replace hw : brmwWrite o e k y s = v.setSlot e k z := hw
  have hz : (v.setSlot e k z).slot e k = some z := State.slot_setSlot_self _ _ _ hk
  have hroom : Roomy (v.setSlot e k z) e := roomy_setSlot (hv.roomy hr) k z
  obtain ⟨-, hregs, -, hflags⟩ := hv.quiet.trans (quiet_setSlot v e k z)
  have hdone := finished_finishLoad hk hz hroom o.ty o.d vec
  obtain ⟨c, hperf⟩ := performBrmw_completes hm hy hstage hturn hedges ha hp (congrArg (State.finishLoad · e k o.ty o.d vec) hw) hdone.slot
  obtain ⟨-, ⟨hsregs, hvregs⟩, -, haxs⟩ := quiet_portUsed ((v.setSlot e k z).finishLoad e k o.ty o.d vec) e c
  refine ⟨_, (choose_perform_brmw hy hins hruns).trans (congrArg Host.Outcome.next hperf), (State.slot_portUsed ..).trans hdone.slot, ?_, ?_,
    fun i hi => ?_, fun i hi => ?_⟩
  · rw [State.bank_portUsed, State.bank_finishLoad hz hroom, State.bank_setSlot, hv.bank]
    exact stored_write ..
  · exact haxs.trans (hdone.flags.trans (congrArg (· ||| z.fl) hflags))
  · exact (Elem.sreg_congr hsregs i).trans ((hdone.sregs i hi).trans (congrArg (destS r o.d i) (Elem.sreg_congr hregs.1 i)))
  · exact (Elem.vreg_congr hvregs i).trans ((hdone.vregs i hi).trans (congrArg (destV r o.d i) (Elem.vreg_congr hregs.2 i)))

/-- Settles O16: a bank operation that finds its port free acts on the state its issue leaves, and of the element outside its registers a write
of the bank changes the bank alone; a BRMW of an fadd acts in the cycle its firing completes in. -/
theorem bankOperations : Obligations.BankOperations := ⟨bankLoads, bankStores, bankUpdatesTaken, bankSums⟩

end Sys2Proof.Machine
end

section
/-! SUPPORT. Translations that go: an invalidation drops every cached leaf of its pages, and the records written after it bring none back; evictions and
migrations invalidate theirs (O41). -/

namespace Sys2Proof.Machine

open Sys2Proof

/-! ### What the ring of a partition leaves (R194, R374) -/

/-- The translation caches, and whether each partition invalidates. -/
def State.translations (s : State) : List (Nat × Core) × List (Nat × List (Nat × W64)) × (Nat → Bool) :=
  (s.cores, s.baseTlb, fun p => (s.part p).ivgo)

@[simp] theorem State.translations_ite (c : Prop) [Decidable c] (s t : State) :
    (if c then s else t).translations = if c then s.translations else t.translations :=
  apply_ite State.translations c s t

@[simp] theorem State.translations_foldl {α : Type} {f : State → α → State} (h : ∀ s a, (f s a).translations = s.translations) (xs : List α)
    (s : State) : (xs.foldl f s).translations = s.translations :=
  State.foldl_keeps State.translations h xs s

@[simp] theorem State.translations_setModReg (s : State) (o v : Nat) : (s.setModReg o v).translations = s.translations := (rfl)
@[simp] theorem State.translations_irq (s : State) (p v : Nat) : (s.irq p v).translations = s.translations := (rfl)
@[simp] theorem State.translations_mfq (s : State) (x : List FaultRec) : ({ s with mfq := x } : State).translations = s.translations := (rfl)

@[simp] theorem State.translations_modRegion (s : State) (n : Nat) (f : Region → Region) : (s.modRegion n f).translations = s.translations := by
  unfold State.modRegion
  split <;> rfl

theorem State.translations_modPart (s : State) (p : Nat) (f : Part → Part) (h : ∀ x, (f x).ivgo = x.ivgo := by exact fun _ => rfl) :
    (s.modPart p f).translations = s.translations := by
  have hp : ∀ k, ((s.modPart p f).part k).ivgo = (s.part k).ivgo := fun k => by
    have hk : (s.modPart p f).part k = if p = k ∧ k < 8 then f (s.part p) else s.part k := vget_vset ..
    rw [hk]
    split
    · rename_i hk
      rw [h, hk.1]
    · rfl
  exact congrArg (fun g => (s.cores, s.baseTlb, g)) (funext hp)

@[simp] theorem State.translations_writeBack (s : State) (e : Nat) (g : Nat × Nat) : (s.writeBack e g).translations = s.translations :=
  State.foldl_keeps State.translations (by intros; rfl) _ s

@[simp] theorem State.translations_recall (s : State) (a n : Nat) : (s.recall a n).translations = s.translations := by
  refine State.foldl_keeps State.translations (fun s x => ?_) _ s
  refine State.foldl_keeps State.translations (fun s g => ?_) _ s
  split
  · exact s.translations_writeBack ..
  · rfl

@[simp] theorem State.translations_holdLine (s : State) (w : Writer) (l : Nat) : (s.holdLine w l).translations = s.translations := by
  show (s.holdLine w l).body.translations = s.body.translations
  rw [State.body_holdLine]

@[simp] theorem State.translations_ownWords (s : State) (w : Writer) (a n : Nat) : (s.ownWords w a n).translations = s.translations := by
  show (s.ownWords w a n).body.translations = s.body.translations
  rw [State.body_ownWords]

@[simp] theorem State.translations_homePut (s : State) (w : Writer) (raw : Bool) (a : Nat) (bs : List Byte) :
    (s.homePut w raw a bs).translations = s.translations := by
  unfold State.homePut
  extract_lets s0 t u
  have ht : t.translations = s.translations := by
    simp [t, s0]
  have hu : u.translations = t.translations := by
    show (if t.lent.isEmpty then _ else _ : State).translations = _
    split
    · rfl
    · refine State.foldl_keeps State.translations (fun s x => ?_) _ t
      dsimp only
      split <;> rfl
  exact (State.foldl_keeps State.translations (by intros; rfl) _ u).trans (hu.trans ht)

@[simp] theorem State.translations_testWatches (s : State) (a n : Nat) : (s.testWatches a n).translations = s.translations := by
  refine State.foldl_keeps State.translations (fun s x => ?_) s.elems s
  unfold State.testElem
  dsimp only
  split
  · rfl
  · split <;> rfl

@[simp] theorem State.translations_devWrite (s : State) (w : Writer) (a : Nat) (bs : List Byte) :
    (s.devWrite w a bs).translations = s.translations := by
  simp [State.devWrite]

theorem State.translations_homePuts (w : Writer) (rs : List (Nat × Nat)) (s : State) (bs : List Byte) :
    (rs.foldl (fun (m : State × List Byte) r => (m.1.homePut w true r.1 (m.2.take r.2), m.2.drop r.2)) (s, bs)).1.translations =
      s.translations := by
  induction rs generalizing s bs with
  | nil => rfl
  | cons r rs ih => exact (ih _ _).trans (s.translations_homePut w true r.1 _)

@[simp] theorem State.translations_rowWrite (s : State) (w : Writer) (rs : List (Nat × Nat)) (bs : List Byte) :
    (s.rowWrite w rs bs).translations = s.translations := by
  unfold State.rowWrite
  simp [State.translations_homePuts]

@[simp] theorem State.translations_writeLoc (s : State) (w : Writer) (va : Nat) (l : Loc) (bs : List Byte) :
    (s.writeLoc w va l bs).translations = s.translations := by
  unfold State.writeLoc
  split
  · split
    · exact s.translations_rowWrite ..
    · exact s.translations_devWrite ..
  · rfl
  · rfl

@[simp] theorem State.translations_writeRun (s : State) (w : Writer) (va : Nat) (ls : List (Loc × Nat)) (bs : List Byte) :
    (s.writeRun w va ls bs).translations = s.translations := by
  induction ls generalizing s va bs with
  | nil => rfl
  | cons x ls ih => exact (ih _ _ _).trans (s.translations_writeLoc ..)

theorem State.translations_ownWrite {s t : State} {p va : Nat} {bs : List Byte} {a : Access} (h : s.ownWrite p va bs a = .ok t) :
    t.translations = s.translations := by
  unfold State.ownWrite at h
  split at h
  · cases h
    exact s.translations_writeRun ..
  · cases h
  · cases h

theorem State.translations_moduleWrite {s t : State} {f : FaultRec} (h : s.moduleWrite f = some t) : t.translations = s.translations := by
  unfold State.moduleWrite at h
  dsimp only at h
  split at h
  · cases h
  · cases h
    simp

@[simp] theorem State.translations_flushModule (s : State) (n : Nat) : (s.flushModule n).translations = s.translations := by
  induction n generalizing s with
  | zero => rfl
  | succ n ih =>
    unfold State.flushModule
    split
    · rfl
    · split
      · rename_i t h
        exact (ih _).trans ((t.translations_mfq _).trans (State.translations_moduleWrite h))
      · rfl

@[simp] theorem State.translations_postModule (s : State) (f : FaultRec) : (s.postModule f).translations = s.translations :=
  (State.translations_flushModule ..).trans (s.translations_mfq _)

@[simp] theorem State.translations_ringWrite (s : State) (p : Nat) (f : FaultRec) : (s.ringWrite p f).1.translations = s.translations := by
  unfold State.ringWrite
  dsimp only
  split
  · rfl
  · split
    · rename_i t h
      have ht := (t.translations_modPart p fun x => { x with fqt := x.fqt + 1, ringBad := false }).trans (State.translations_ownWrite h)
      split <;> exact ht
    · split
      · rfl
      · exact (State.translations_postModule ..).trans (s.translations_modPart p _)

@[simp] theorem State.translations_recordDone (s : State) (p : Nat) (reg : Option Nat) :
    (s.recordDone p reg).translations = s.translations := by
  cases reg with
  | none => rfl
  | some r => exact s.translations_modRegion r _

@[simp] theorem State.translations_flushRecs (s : State) (p n : Nat) : (s.flushRecs p n).translations = s.translations := by
  induction n generalizing s with
  | zero => rfl
  | succ n ih =>
    unfold State.flushRecs
    split
    · rfl
    · dsimp only
      split
      · exact (ih _).trans ((State.translations_recordDone ..).trans ((State.translations_modPart _ p _).trans (s.translations_ringWrite ..)))
      · exact s.translations_ringWrite ..

@[simp] theorem State.translations_retryRing (s : State) (p : Nat) : (s.retryRing p).translations = s.translations :=
  s.translations_flushRecs ..

/-! ### Invalidation (R195) -/

theorem SMap.get_map {α β : Type} (f : α → β) (d : α) (k : Nat) (m : List (Nat × α)) :
    SMap.get (f d) k (m.map fun g => (g.1, f g.2)) = f (SMap.get d k m) := by
  rw [SMap.get_eq_getD_find, SMap.get_eq_getD_find, SMap.find_map fun _ => f, Option.getD_map]

theorem State.tlbOf_congr {s t : State} (hc : t.cores = s.cores) (hb : t.baseTlb = s.baseTlb) (c : Nat) : t.tlbOf c = s.tlbOf c := by
  rw [State.tlbOf, State.tlbOf, State.core, State.core, hc, hb]

theorem Uncached.congr {s t : State} {p first n : Nat} (h : Uncached s p first n) (hc : t.cores = s.cores) (hb : t.baseTlb = s.baseTlb) :
    Uncached t p first n := fun c => by
  rw [State.tlbOf_congr hc hb]
  exact h c

theorem State.tlbOf_invalidate (s : State) (p first n c : Nat) :
    (s.invalidate p first n).tlbOf c = (s.tlbOf c).filter fun x => !covers p first n x.1 := by
  unfold State.tlbOf
  split
  · exact congrArg Core.tlb
      (SMap.get_map (fun k : Core => { k with tlb := k.tlb.filter fun x => !covers p first n x.1 }) Core.reset c s.cores)
  · exact SMap.get_map (List.filter fun x : Nat × W64 => !covers p first n x.1) [] (c - 256) s.baseTlb

theorem State.uncached_invalidate (s : State) (p first n : Nat) : Uncached (s.invalidate p first n) p first n := fun c x hx => by
  rw [State.tlbOf_invalidate] at hx
  simpa using (List.mem_filter.1 hx).2

theorem State.part_modPart_self (s : State) {p : Nat} (hp : p < 8) (f : Part → Part) : (s.modPart p f).part p = f (s.part p) :=
  vget_vset_self _ _ _ _ hp

/-- IVGO: bit 0 starts an invalidation, and one that runs goes on (R195, R378). -/
theorem ivgoWrite_part (s : State) {p : Nat} (v : W32) (hp : p < 8) : ∃ s', exec (.ivgoWrite p v) s = .next s' ∧
    (s'.part p).ivgo = ((s.part p).ivgo || v.getLsbD 0) ∧ (s'.part p).iva = (s.part p).iva ∧ (s'.part p).ivn = (s.part p).ivn := by
  refine ⟨_, rfl, ?_⟩
  rw [State.part_modPart_self s hp]
  cases hg : (s.part p).ivgo <;> cases hv : v.getLsbD 0 <;> simp [hg]

/-- An invalidation with no access left that used an old translation: every cached copy goes, and what is written to the ring then caches nothing. -/
theorem invalidationCompletion_completes {s : State} {p : Nat} (hp : p < 8) (hgo : (s.part p).ivgo = true) (hbusy : s.partBusy p = false) :
    ∃ s', exec (.invalidationCompletion p) s = .next s' ∧ (s'.part p).ivgo = false ∧
      Uncached s' p ((s.part p).iva.toNat / 65536) (s.part p).ivn.toNat := by
  set u := s.invalidate p ((s.part p).iva.toNat / 65536) (s.part p).ivn.toNat
  set t := u.modPart p fun x => { x with ivgo := false }
  have hkeep := t.translations_retryRing p
  refine ⟨t.retryRing p, ?_, ?_, ?_⟩
  · simp [exec, execInvalidationCompletion, hgo, hbusy, t, u]
  · have hpart : ((t.retryRing p).part p).ivgo = (t.part p).ivgo := congrFun (congrArg (fun x => x.2.2) hkeep) p
    rw [hpart, State.part_modPart_self u hp]
  · exact (s.uncached_invalidate p _ _).congr (congrArg Prod.fst hkeep) (congrArg (fun x => x.2.1) hkeep)

theorem invalidationCompletion_waits {s : State} {p : Nat} (h : (s.part p).ivgo = false ∨ s.partBusy p = true) :
    exec (.invalidationCompletion p) s = .next s := by
  simp only [exec, execInvalidationCompletion]
  rcases h with h | h <;> simp [h]

/-! ### Eviction (R200) -/

theorem leafPages_covers (va : Nat) (big : Bool) :
    (leafPages va big).1 ≤ va / 65536 ∧ va / 65536 < (leafPages va big).1 + (leafPages va big).2 := by
  cases big
  · exact ⟨le_rfl, Nat.lt_succ_self _⟩
  · simp only [leafPages, if_true]
    omega

/-- A run of pages that holds the page of an address covers the leaves that are cached for it, of either size. -/
theorem covers_tlbKey {p va first n : Nat} (hva : va < 2 ^ 56) (h1 : first ≤ va / 65536) (h2 : va / 65536 < first + n)
    (big : Bool) : covers p first n (tlbKey p va big) = true := by
  cases big
  · have hm : tlbKey p va false % 2 ^ 42 = va / 65536 * 2 := by
      simp only [tlbKey, Bool.false_eq_true, if_false]
      omega
    have hd : tlbKey p va false / 2 ^ 42 = p := by
      simp only [tlbKey, Bool.false_eq_true, if_false]
      omega
    have hk : va / 65536 * 2 % 2 ≠ 1 ∧ va / 65536 * 2 / 2 = va / 65536 := by omega
    simp only [covers, hm, hd, hk.1, hk.2, h1, h2, if_false, beq_self_eq_true, decide_true, Bool.and_true, Bool.or_true]
  · have hm : tlbKey p va true % 2 ^ 42 = va / 2 ^ 21 * 2 + 1 := by
      simp only [tlbKey, if_true]
      omega
    have hd : tlbKey p va true / 2 ^ 42 = p := by
      simp only [tlbKey, if_true]
      omega
    have hk : (va / 2 ^ 21 * 2 + 1) % 2 = 1 ∧ (va / 2 ^ 21 * 2 + 1) / 2 * 32 < first + n ∧
        first < (va / 2 ^ 21 * 2 + 1) / 2 * 32 + 32 := by omega
    simp only [covers, hm, hd, hk.1, hk.2.1, hk.2.2, if_true, beq_self_eq_true, decide_true, Bool.and_true, Bool.or_true]

theorem Uncached.cachedLeaf_eq_none {s : State} {p va first n : Nat} (h : Uncached s p first n) (hva : va < 2 ^ 56) (h1 : first ≤ va / 65536) (h2 : va / 65536 < first + n) (c : Nat) : cachedLeaf (s.tlbOf c) p va = none := by
  have hnone : ∀ big, SMap.find (tlbKey p va big) (s.tlbOf c) = none := fun big => by
    refine Option.eq_none_iff_forall_ne_some.2 fun w hw => ?_
    have huncovered := h c _ (SMap.mem_of_find hw)
    rw [covers_tlbKey hva h1 h2 big] at huncovered
    exact Bool.noConfusion huncovered
  simp [cachedLeaf, hnone]

/-- A page that no cache holds and that the evictor has taken is not mapped. -/
theorem State.xlat_pinned {s : State} {p va : Nat} {c : Nat} (hva : va < 2 ^ 56) (hc : cachedLeaf (s.tlbOf c) p va = none)
    (hid : (s.part p).pasid = none) (hpin : (p, va / 65536) ∈ s.pinned) : s.xlat c p va false = .fault 0x02 := by
  have hlow : ¬ va ≥ 2 ^ 56 := by omega
  simp only [State.xlat, hlow, if_false, hc, hid, Option.isSome_none, Bool.false_and, List.contains_iff_mem.2 hpin, if_true, ite_self,
    Bool.false_eq_true]

/-- What an eviction leaves: the pages of the leaf are cached nowhere and stand as evicted. -/
def State.evict (s : State) (p first n : Nat) : State :=
  { s.invalidate p first n with pinned := (s.invalidate p first n).pinned ++ (List.range n).map fun i => (p, first + i) }

theorem State.mem_pinned_evict (s : State) (p first : Nat) {n i : Nat} (hi : i < n) : (p, first + i) ∈ (s.evict p first n).pinned :=
  List.mem_append_right _ (List.mem_map.2 ⟨i, List.mem_range.2 hi, rfl⟩)

theorem State.uncached_evict (s : State) (p first n : Nat) : Uncached (s.evict p first n) p first n :=
  (s.uncached_invalidate p first n).congr rfl rfl

theorem State.xlat_evict {s : State} {p va : Nat} (big : Bool) (c : Nat) (hva : va < 2 ^ 56) (hid : (s.part p).pasid = none) :
    (s.evict p (leafPages va big).1 (leafPages va big).2).xlat c p va false = .fault 0x02 := by
  obtain ⟨h1, h2⟩ := leafPages_covers va big
  refine State.xlat_pinned hva ((s.uncached_evict p _ _).cachedLeaf_eq_none hva h1 h2 c) hid ?_
  have hpage := s.mem_pinned_evict p (leafPages va big).1 (Nat.sub_lt_left_of_lt_add h1 h2)
  rwa [Nat.add_sub_cancel' h1] at hpage

section
variable {s : State} {p va l : Nat} {w : W64 × Bool} (hl : s.minLwm p = some l) (hw : walk s p va = .ok w)
include hl hw

theorem pageEviction_evicts (hdev : bitsOf w.1.toNat 62 2 = 0) (hlow : ((leafPages va w.2).1 + (leafPages va w.2).2) * 65536 ≤ l)
    (hbound : s.boundPages p (leafPages va w.2).1 (leafPages va w.2).2 = false) (hpin : (p, va / 65536) ∉ s.pinned) :
    exec (.pageEviction p va) s = .next (s.evict p (leafPages va w.2).1 (leafPages va w.2).2) := by
  have hnot : s.pinned.contains (p, va / 65536) = false := by simpa using hpin
  simp only [exec, execPageEviction, hl, hw, hdev, hlow, hbound, hnot, decide_true, Bool.not_false, Bool.and_true, if_true]
  rfl

theorem pageEviction_refuses (h : bitsOf w.1.toNat 62 2 ≠ 0 ∨ l < ((leafPages va w.2).1 + (leafPages va w.2).2) * 65536 ∨
    s.boundPages p (leafPages va w.2).1 (leafPages va w.2).2 = true) : exec (.pageEviction p va) s = .next s := by
  simp only [exec, execPageEviction, hl, hw]
  rcases h with h | h | h
  · simp [h]
  · simp [Nat.not_le.2 h]
  · simp [h]
end

/-! ### Migration (R201, R202) -/

theorem State.walk_closeWindows (s : State) (p va : Nat) : walk s.closeWindows p va = walk s p va := rfl

/-- The entry of a page's count. -/
def State.migration (s : State) (k : Nat) : Option (Nat × Nat × Nat) := s.migr.find? fun m => m.1 == k

/-- Once every window of a page is over its count is gone. -/
theorem State.migration_closeWindows_none {s : State} {k : Nat} (h : ∀ m ∈ s.migr, m.1 = k → m.2.2 + 1900000000 ≤ s.cycle) :
    s.closeWindows.migration k = none := by
  refine List.find?_eq_none.2 fun m hm hk => ?_
  obtain ⟨hm, hopen⟩ := List.mem_filter.1 hm
  have hover := h m hm (beq_iff_eq.1 hk)
  have := of_decide_eq_true hopen
  omega

/-- A count in its window stays. -/
theorem State.migration_closeWindows_some {s : State} {k n c : Nat} (h : s.migration k = some (k, n, c)) (hc : s.cycle < c + 1900000000) :
    s.closeWindows.migration k = some (k, n, c) := by
  obtain ⟨hk, as, bs, hsplit, hbefore⟩ := List.find?_eq_some_iff_append.1 h
  have hsplit' : s.closeWindows.migr = as.filter (fun m => s.cycle < m.2.2 + 1900000000) ++ (k, n, c) ::
      bs.filter (fun m => s.cycle < m.2.2 + 1900000000) := by
    show s.migr.filter _ = _
    rw [hsplit, List.filter_append, List.filter_cons_of_pos (by simpa using hc)]
  exact List.find?_eq_some_iff_append.2 ⟨hk, _, _, hsplit', fun m hm => hbefore m (List.mem_of_mem_filter hm)⟩

/-- A count that is set under its key is found under it. -/
theorem State.migration_map {s t : State} {k n c : Nat} (h : s.migration k = some (k, n, c)) {f : Nat × Nat × Nat → Nat × Nat × Nat}
    (hf : ∀ m, (f m).1 = m.1) (ht : t.migr = s.migr.map f) : t.migration k = some (f (k, n, c)) := by
  have hp : (fun m : Nat × Nat × Nat => m.1 == k) ∘ f = fun m => m.1 == k := funext fun m => congrArg (· == k) (hf m)
  rw [State.migration, ht, List.find?_map, hp]
  exact congrArg (Option.map f) h

theorem State.migration_append {s t : State} {k : Nat} (h : s.migration k = none) (n c : Nat) (ht : t.migr = s.migr ++ [(k, n, c)]) :
    t.migration k = some (k, n, c) := by
  rw [State.migration, ht, List.find?_append, show s.migr.find? _ = none from h]
  simp

/-- A migration more of a page, and the pin of a page, in the list of counts. -/
def countOn (k : Nat) (m : Nat × Nat × Nat) : Nat × Nat × Nat := if m.1 = k then (m.1, m.2.1 + 1, m.2.2) else m
def pinAt (k : Nat) (m : Nat × Nat × Nat) : Nat × Nat × Nat := if m.1 = k then (m.1, 5, m.2.2) else m

theorem countOn_fst (k : Nat) (m : Nat × Nat × Nat) : (countOn k m).1 = m.1 := by
  unfold countOn
  split <;> rfl

theorem pinAt_fst (k : Nat) (m : Nat × Nat × Nat) : (pinAt k m).1 = m.1 := by
  unfold pinAt
  split <;> rfl

section
variable {s : State} {p va : Nat} {w : W64 × Bool} (hw : walk s p va = .ok w) (hdev : bitsOf w.1.toNat 62 2 ≠ 1)
include hw hdev

/-- The first migration of a window begins the page's count (R201). -/
theorem pageMigration_first (h : s.closeWindows.migration (migrKey p va w.2) = none) : ∃ s', exec (.pageMigration p va) s = .next s' ∧
    s'.migration (migrKey p va w.2) = some (migrKey p va w.2, 1, s.cycle) ∧ Uncached s' p (leafPages va w.2).1 (leafPages va w.2).2 := by
  have hfind : s.closeWindows.migr.find? (fun m => m.1 == migrKey p va w.2) = none := h
  refine ⟨({ s.closeWindows with migr := s.closeWindows.migr ++ [(migrKey p va w.2, 1, s.cycle)] } : State).invalidate p _ _, ?_,
    State.migration_append h 1 s.cycle rfl, State.uncached_invalidate _ p _ _⟩
  simp only [exec, execPageMigration, State.walk_closeWindows, hw, hdev, if_false, hfind]
  rfl

variable {n c : Nat} (h : s.closeWindows.migration (migrKey p va w.2) = some (migrKey p va w.2, n, c))
include h

/-- The second to the fourth count on. -/
theorem pageMigration_counts (hn : n < 4) : ∃ s', exec (.pageMigration p va) s = .next s' ∧
    s'.migration (migrKey p va w.2) = some (migrKey p va w.2, n + 1, c) ∧ Uncached s' p (leafPages va w.2).1 (leafPages va w.2).2 := by
  have hfind : s.closeWindows.migr.find? (fun m => m.1 == migrKey p va w.2) = _ := h
  refine ⟨({ s.closeWindows with migr := s.closeWindows.migr.map (countOn (migrKey p va w.2)) } : State).invalidate p _ _, ?_,
    (State.migration_map h (countOn_fst _) rfl).trans ?_, State.uncached_invalidate _ p _ _⟩
  · simp only [exec, execPageMigration, State.walk_closeWindows, hw, hdev, if_false, hfind, hn, if_true]
    rfl
  · simp [countOn]

/-- The fifth pins the page, which PMIG counts (R201, R202). -/
theorem pageMigration_pins (hn : n = 4) (hp : p < 8) : ∃ s', exec (.pageMigration p va) s = .next s' ∧
    s'.migration (migrKey p va w.2) = some (migrKey p va w.2, 5, c) ∧ (s'.part p).pmig = (s.part p).pmig + 1 ∧ s'.cores = s.cores := by
  have hfind : s.closeWindows.migr.find? (fun m => m.1 == migrKey p va w.2) = _ := h
  subst hn
  refine ⟨({ s.closeWindows with migr := s.closeWindows.migr.map (pinAt (migrKey p va w.2)) } : State).modPart p fun x =>
      { x with pmig := x.pmig + 1 }, ?_,
    (State.migration_map h (pinAt_fst _) rfl).trans ?_, congrArg Part.pmig (State.part_modPart_self _ hp _), rfl⟩
  · simp only [exec, execPageMigration, State.walk_closeWindows, hw, hdev, if_false, hfind, lt_irrefl, if_true]
    rfl
  · simp [pinAt]

theorem pageMigration_pinned (hn : 4 < n) : ∃ s', exec (.pageMigration p va) s = .next s' ∧
    s'.migration (migrKey p va w.2) = some (migrKey p va w.2, n, c) ∧ s'.cores = s.cores := by
  have hfind : s.closeWindows.migr.find? (fun m => m.1 == migrKey p va w.2) = _ := h
  have hlow : ¬ n < 4 := by omega
  have hne : n ≠ 4 := by omega
  refine ⟨s.closeWindows, ?_, h, rfl⟩
  simp only [exec, execPageMigration, State.walk_closeWindows, hw, hdev, if_false, hfind, hlow, hne]
end

/-- The windows of a page that are over end, at either size, and no other. -/
theorem mem_migr_migrationWindowEnd (s : State) (p va : Nat) : ∃ s', exec (.migrationWindowEnd p va) s = .next s' ∧
    ∀ m, m ∈ s'.migr ↔ m ∈ s.migr ∧ (m.1 = migrKey p va false ∨ m.1 = migrKey p va true → s.cycle < m.2.2 + 1900000000) := by
  refine ⟨_, rfl, fun m => List.mem_filter.trans (and_congr_right fun _ => ?_)⟩
  simp only [Bool.not_eq_true', Bool.and_eq_false_imp, Bool.or_eq_true, beq_iff_eq, decide_eq_false_iff_not, not_le]

/-- Settles O41: an invalidation drops what is cached of its pages, and eviction and migration invalidate the pages of the leaf. -/
theorem translationsRemoved : Obligations.TranslationsRemoved := by
  refine ⟨fun s p v hp => ivgoWrite_part s v hp,
    fun s p hp => ⟨invalidationCompletion_completes hp, invalidationCompletion_waits⟩,
    fun s p va l w hl hw => ⟨fun hdev hlow hbound hpin => ?_, pageEviction_refuses hl hw⟩,
    fun s p va w hw hdev => ⟨fun h => ?_, fun n c h hc => ?_⟩,
    mem_migr_migrationWindowEnd⟩
  · exact ⟨_, pageEviction_evicts hl hw hdev hlow hbound hpin, s.uncached_evict p _ _, fun i hi => s.mem_pinned_evict _ _ hi,
      fun c hva hid => State.xlat_evict w.2 c hva hid⟩
  · exact pageMigration_first hw hdev (State.migration_closeWindows_none h)
  · have hopen := State.migration_closeWindows_some h hc
    exact ⟨pageMigration_counts hw hdev hopen, pageMigration_pins hw hdev hopen, pageMigration_pinned hw hdev hopen⟩

end Sys2Proof.Machine
end

section
/-! SUPPORT. Answers to translation faults: a page that is answered as not mapped, and a rollback that its pseudo-channels hold up (O40). -/

namespace Sys2Proof.Machine

open Sys2Proof

/-! ### An answer whose rollback finds a pseudo-channel taken (R198, R371, R372)

The page of a waiting access is answered as not mapped while the pseudo-channels of `unsortedState` are not in the order of their keys: the fault is
lasting, and its rollback leaves the region where it waits for pseudo-channel 3 and not at its gate, as in the refutation of O39. -/

/-- The access of `looseFault`, which waits in partition 0 under record 0. -/
def loosePgf : Pgf := ⟨0, 0, 0, looseFault.at_, looseFault.frec, 0⟩

def unmappedState : State := { unsortedState with pend := [], pgfs := [loosePgf] }

theorem unmappedState_rollable : Rollable unmappedState 0 pc3Region loosePgf.frec.code (faultPlace loosePgf.frec loosePgf.at_) :=
  ⟨rfl, rfl, rfl, by decide, by decide, rfl, rfl, rfl, rfl, List.Pairwise.nil⟩

/-- An answer in time that says that the page is not mapped makes the fault a lasting one (R198). -/
theorem exec_pgrspWrite_lasting {s : State} {p : Nat} {v : W64} {f : Pgf}
    (hf : (s.pgfs.find? fun f => f.part == p && f.rseq == v.toNat % 2 ^ 32) = some f) (ht : s.cycle < s.expiry p f.cycle)
    (hv : v.getLsbD 32 = true) : exec (.pgrspWrite p v) s =
      .next (({ s with pgfs := s.pgfs.filter fun x => x != f } : State).lasting f.reg f.frec f.at_) := by
  have hlate := Nat.not_le.2 ht
  simp only [exec, execPgrspWrite, hf, hlate, hv, if_false, if_true]

set_option maxRecDepth 20000 in
theorem unmappedState_lasting :
    ((({ unmappedState with pgfs := unmappedState.pgfs.filter fun x => x != loosePgf } : State).lasting loosePgf.reg loosePgf.frec
      loosePgf.at_).region loosePgf.reg).map Region.phase = some .configured := by
  decide

/-- Refutes O40: a lasting fault by a page's answer need not leave its region at the gate, since the rollback can find a pseudo-channel taken that
the state's list hid before. -/
theorem not_translationAnswers : ¬ Obligations.TranslationAnswers := by
  rintro ⟨hanswer, -⟩
  have inTime : unmappedState.cycle < unmappedState.expiry 0 loosePgf.cycle := by decide
  obtain ⟨-, hlasting, -⟩ := hanswer unmappedState 0 0x100000000 loosePgf rfl
  obtain ⟨s', hexec, hback⟩ := hlasting pc3Region inTime (by decide) unmappedState_rollable
  obtain rfl := Host.Outcome.next.inj ((exec_pgrspWrite_lasting rfl inTime (by decide)).symm.trans hexec)
  obtain ⟨g, hregion, hgated, -⟩ := hback.region
  have hphase := unmappedState_lasting
  rw [hregion, Option.map_some, hgated] at hphase
  exact absurd hphase (by decide)

end Sys2Proof.Machine
end

section
/-! SUPPORT. Canonical memories (R185, log 5, log 6; O56). Below, for each operation f of the state and in the order of the model,
`State.MemOk.f` says that f keeps the three memories in canonical form; first what folds, pairs and choices of states keep, and the two
operations that write memory. -/

namespace Sys2Proof.Machine

open Sys2Proof

variable {s : State}

/-- A fold of operations that keep the memories keeps them. -/
theorem State.MemOk.foldl {α : Type} {f : State → α → State} {xs : List α} (h : s.MemOk) (hf : ∀ {s a}, s.MemOk → (f s a).MemOk) :
    (xs.foldl f s).MemOk := by
  induction xs generalizing s with
  | nil => exact h
  | cons a xs ih => exact ih (hf h)

/-- The same of a fold that carries more than the state. -/
theorem State.MemOk.foldl_fst {α β : Type} {b : β} {f : State × β → α → State × β} {xs : List α} (h : s.MemOk)
    (hf : ∀ {p a}, p.1.MemOk → (f p a).1.MemOk) : (xs.foldl f (s, b)).1.MemOk := by
  have keeps : ∀ p : State × β, p.1.MemOk → (xs.foldl f p).1.MemOk := by
    induction xs with
    | nil => exact fun _ h => h
    | cons a xs ih => exact fun p h => ih _ (hf h)
  exact keeps (s, b) h

theorem State.MemOk.getD {o : Option State} (h : s.MemOk) (ho : ∀ {t}, o = some t → t.MemOk) : (o.getD s).MemOk := by
  cases o with
  | none => exact h
  | some t => exact ho rfl

theorem State.MemOk.ite {c : Prop} [Decidable c] {t : State} (hs : s.MemOk) (ht : t.MemOk) : (if c then s else t).MemOk := by
  split <;> assumption

/-- What keeps each of the three memories keeps their form. -/
theorem State.MemOk.of_same {t : State} (h : s.MemOk) (hdev : t.mem = s.mem) (hhost : t.hostMem = s.hostMem)
    (hpeer : t.peerMem = s.peerMem) : t.MemOk := by
  unfold State.MemOk
  rwa [hdev, hhost, hpeer]

/-- The state of a pair that an operation yields. -/
theorem State.MemOk.of_pair {α : Type} {p : State × α} {t : State} {a : α} (he : p = (t, a)) (hp : p.1.MemOk) : t.MemOk := by
  subst he
  exact hp

theorem State.MemOk.ite_fst {α : Type} {c : Prop} [Decidable c] {p q : State × α} (hp : p.1.MemOk) (hq : q.1.MemOk) :
    (if c then p else q).1.MemOk := by
  split <;> assumption

/-- An outcome that goes on does so with the memories in canonical form. -/
def Keeps : Host.Outcome State Fault Refusal → Prop
  | .next t => t.MemOk
  | .fault _ => True
  | .refused _ => True

theorem State.MemOk.pick {n : Nat} (h : s.MemOk) : (s.pick n).1.MemOk := by
  unfold State.pick
  split <;> exact h

theorem State.MemOk.setElem {e : Nat} {x : Elem} (h : s.MemOk) : (s.setElem e x).MemOk := h

theorem State.MemOk.modElem {e : Nat} {f : Elem → Elem} (h : s.MemOk) : (s.modElem e f).MemOk := h.setElem

theorem State.MemOk.setCore {c : Nat} {x : Core} (h : s.MemOk) : (s.setCore c x).MemOk := h

theorem State.MemOk.modCore {c : Nat} {f : Core → Core} (h : s.MemOk) : (s.modCore c f).MemOk := h.setCore

theorem State.MemOk.changed {c : Nat} (h : s.MemOk) : (s.changed c).MemOk := h.modCore

theorem State.MemOk.setRegion {r : Nat} {x : Region} (h : s.MemOk) : (s.setRegion r x).MemOk := h

theorem State.MemOk.modRegion {r : Nat} {f : Region → Region} (h : s.MemOk) : (s.modRegion r f).MemOk := by
  unfold State.modRegion
  split
  · exact h.setRegion
  · exact h

theorem State.MemOk.setEngine {g : Nat} {x : Engine} (h : s.MemOk) : (s.setEngine g x).MemOk := h

theorem State.MemOk.setPchan {k : Nat} {x : PChan} (h : s.MemOk) : (s.setPchan k x).MemOk := h

theorem State.MemOk.setPart {p : Nat} {x : Part} (h : s.MemOk) : (s.setPart p x).MemOk := h

theorem State.MemOk.modPart {p : Nat} {f : Part → Part} (h : s.MemOk) : (s.modPart p f).MemOk := h.setPart

theorem State.MemOk.setPort {c k : Nat} {p : Port} (h : s.MemOk) : (s.setPort c k p).MemOk := h.modCore

theorem State.MemOk.modPort {c k : Nat} {f : Port → Port} (h : s.MemOk) : (s.modPort c k f).MemOk := by
  unfold State.modPort
  split
  · exact h.setPort
  · exact h

theorem State.MemOk.setBar {c b : Nat} {x : Bar} (h : s.MemOk) : (s.setBar c b x).MemOk := h.modCore

theorem State.MemOk.enterQueue {e q : Nat} {t : Token} {u : State} (h : s.MemOk) (hu : s.enterQueue e q t = some u) : u.MemOk := by
  obtain ⟨shr, -, rfl⟩ := Option.map_eq_some_iff.1 hu
  exact h

theorem State.MemOk.hold {a : FaultAt} {b : Bool} (h : s.MemOk) : (s.hold a b).MemOk := by
  unfold State.hold
  dsimp only
  split
  · exact h.modElem
  · exact h.modElem
  · exact h.setEngine
  · exact h.modPort
  · exact h.modElem
  · exact h
  · exact h
  · exact h

theorem State.MemOk.raiseFault {f : FaultSrc} (h : s.MemOk) : (s.raiseFault f).MemOk := h.hold

theorem Memory.wf_foldl_write {α : Type} (a : α → Nat) (bs : α → List Byte) (xs : List α) {m : List Host.Cell} (h : Memory.wf m) :
    Memory.wf (xs.foldl (fun m x => Memory.write m (a x) (bs x)) m) := by
  induction xs generalizing m with
  | nil => exact h
  | cons x xs ih => exact ih (Memory.wf_write h _ _)

/-- Device memory is written here and nowhere else but by the end of a scrub. -/
theorem State.MemOk.put {raw : Bool} {a : Nat} {bs : List Byte} (h : s.MemOk) : (s.put raw a bs).MemOk := by
  obtain ⟨hdev, hhost, hpeer⟩ := h
  exact ⟨Memory.wf_write (Memory.wf_foldl_write _ _ _ hdev) _ _, hhost, hpeer⟩

theorem State.MemOk.l2Put {dirty : Bool} {line : Nat} (h : s.MemOk) : (s.l2Put dirty line).MemOk := h

theorem State.MemOk.setTlb {c : Nat} {m : List (Nat × W64)} (h : s.MemOk) : (s.setTlb c m).MemOk := by
  unfold State.setTlb
  split
  · exact h.modCore
  · exact h

theorem State.MemOk.fillTlb {c p va : Nat} (h : s.MemOk) : (s.fillTlb c p va).MemOk := by
  unfold State.fillTlb
  dsimp only
  split
  · exact h
  · split
    · exact h.setTlb
    · exact h

theorem State.MemOk.fillRun {c p va n : Nat} (h : s.MemOk) : (s.fillRun c p va n).MemOk := by
  unfold State.fillRun
  refine h.foldl fun h => ?_
  split
  · exact h.fillTlb
  · exact h

theorem State.MemOk.writeBack {e : Nat} {g : Nat × Nat} (h : s.MemOk) : (s.writeBack e g).MemOk :=
  (h.foldl fun h => h.put).setElem

theorem State.MemOk.recall {a n : Nat} (h : s.MemOk) : (s.recall a n).MemOk := by
  unfold State.recall
  dsimp only
  refine h.foldl fun h => ?_
  refine h.foldl fun h => ?_
  split
  · exact h.writeBack
  · exact h

theorem State.MemOk.holdLine {w : Writer} {line : Nat} (h : s.MemOk) : (s.holdLine w line).MemOk := by
  unfold State.holdLine
  split
  · exact h
  · split
    · exact h
    · exact h.modRegion

theorem State.MemOk.ownWords {w : Writer} {a n : Nat} (h : s.MemOk) : (s.ownWords w a n).MemOk := by
  unfold State.ownWords
  dsimp only
  split <;> exact h

theorem State.MemOk.testElem {a n e : Nat} (h : s.MemOk) : (s.testElem a n e).MemOk := by
  unfold State.testElem
  dsimp only
  split
  · exact h
  · split
    · exact h
    · exact h.setElem

theorem State.MemOk.testWatches {a n : Nat} (h : s.MemOk) : (s.testWatches a n).MemOk := h.foldl fun h => h.testElem

theorem State.MemOk.homePut {w : Writer} {raw : Bool} {a : Nat} {bs : List Byte} (h : s.MemOk) : (s.homePut w raw a bs).MemOk := by
  unfold State.homePut
  dsimp only
  refine State.MemOk.foldl ?_ fun h => h.l2Put
  split
  · exact ((h.recall.foldl fun h => h.holdLine).ownWords).put
  · refine ((h.recall.foldl fun h => h.holdLine).ownWords).foldl fun h => ?_
    split
    · exact h.modElem
    · exact h.put

theorem State.MemOk.devWrite {w : Writer} {a : Nat} {bs : List Byte} (h : s.MemOk) : (s.devWrite w a bs).MemOk :=
  h.homePut.testWatches

theorem State.MemOk.rowWrite {w : Writer} {rs : List (Nat × Nat)} {bs : List Byte} (h : s.MemOk) : (s.rowWrite w rs bs).MemOk :=
  (h.foldl_fst fun h => h.homePut).foldl fun h => h.testWatches

/-- The host's memory and the peers' are written here and nowhere else. -/
theorem State.MemOk.writeLoc {w : Writer} {va : Nat} {l : Loc} {bs : List Byte} (h : s.MemOk) : (s.writeLoc w va l bs).MemOk := by
  obtain ⟨hdev, hhost, hpeer⟩ := id h
  unfold State.writeLoc
  split
  · split
    · exact h.rowWrite
    · exact h.devWrite
  · exact ⟨hdev, Memory.wf_write hhost _ _, hpeer⟩
  · exact ⟨hdev, hhost, Memory.wf_write hpeer _ _⟩

theorem State.MemOk.writeRun {w : Writer} {va : Nat} {ls : List (Loc × Nat)} {bs : List Byte} (h : s.MemOk) :
    (s.writeRun w va ls bs).MemOk := by
  induction ls generalizing s va bs with
  | nil => exact h
  | cons l ls ih => exact ih h.writeLoc

theorem State.MemOk.spend {xs : List (Nat × Nat)} (h : s.MemOk) : (s.spend xs).MemOk := by
  unfold State.spend
  split <;> exact h

theorem State.MemOk.answer {word : Nat} (h : s.MemOk) : (s.answer word).MemOk := by
  unfold State.answer
  dsimp only
  refine h.foldl fun h => ?_
  split
  · exact h
  · split
    · exact h
    · split
      · exact h
      · exact h.setElem

theorem State.MemOk.askCut {r : Option Nat} (h : s.MemOk) : (s.askCut r).MemOk := by
  unfold State.askCut
  split
  · exact h.modRegion
  · exact h

theorem State.MemOk.askSecond {r : Option Nat} (h : s.MemOk) : (s.askSecond r).MemOk := by
  unfold State.askSecond
  split
  · exact h.modRegion
  · exact h

end Sys2Proof.Machine
end

section
/-! SUPPORT. Canonical memories through a firing, the order of the memory operations and the buses of the network (O56). -/

namespace Sys2Proof.Machine

open Sys2Proof

variable {s : State}

theorem State.MemOk.issue {f : Firing} (h : s.MemOk) : (s.issue f).MemOk := h.modElem

theorem State.MemOk.completeWith {e : Nat} {f : Effect} (h : s.MemOk) : (s.completeWith e f).MemOk := h.modElem

theorem State.MemOk.markerFiring {f : Firing} {k : Kind} (h : s.MemOk) : (s.markerFiring f k).MemOk :=
  h.issue.completeWith

theorem State.MemOk.discardFiring {f : Firing} {q : Nat} (h : s.MemOk) : (s.discardFiring f q).MemOk := h.modElem

theorem State.MemOk.fire {i : Instr} {t : TU} {act : Firing → State → State} (h : s.MemOk) (hact : ∀ {a s}, s.MemOk → (act a s).MemOk) :
    (s.fire i t act).MemOk := by
  unfold State.fire
  split
  · exact h
  · split
    · exact h.raiseFault
    · exact h.discardFiring
    · split
      · exact hact h
      · exact h.markerFiring
    · exact hact h

theorem State.MemOk.finish {f : Firing} {d : Dst} {cond : Bool} {r : Res} (h : s.MemOk) : (s.finish f d cond r).MemOk :=
  h.issue.completeWith

theorem State.MemOk.finishPlain {f : Firing} (h : s.MemOk) : (s.finishPlain f).MemOk := h.issue.completeWith

theorem State.MemOk.takeSlot {f : Firing} {i : Instr} {a b c : VW} {fl : Fl} {chn : Nat} (h : s.MemOk) :
    (s.takeSlot f i a b c fl chn).1.MemOk :=
  h.issue.setElem

theorem State.MemOk.setSlot {e k : Nat} {y : Slot} (h : s.MemOk) : (s.setSlot e k y).MemOk := h.modElem

theorem State.MemOk.failSlot {e k code addr : Nat} (h : s.MemOk) : (s.failSlot e k code addr).MemOk := by
  unfold State.failSlot
  split
  · exact h
  · exact h.raiseFault

theorem State.MemOk.performed {e k : Nat} {v : VW} (h : s.MemOk) : (s.performed e k v).MemOk := by
  unfold State.performed
  split
  · exact h
  · exact h.setSlot

theorem State.MemOk.finishSlot {e k : Nat} {d : Dst} {r : Option Res} {spec : List (Nat × W64)} (h : s.MemOk) :
    (s.finishSlot e k d r spec).MemOk := by
  unfold State.finishSlot
  dsimp only
  split
  · exact h
  · exact h.completeWith

theorem State.MemOk.trySlot {e k : Nat} {bad : Slot → Option (Nat × Nat)} {act : Slot → State} (h : s.MemOk) (hact : ∀ {a}, (act a).MemOk) :
    (s.trySlot e k bad act).MemOk := by
  unfold State.trySlot
  split
  · exact h
  · split
    · exact h
    · split
      · exact h.failSlot
      · split
        · exact hact
        · exact h

theorem State.MemOk.slotCut {e k : Nat} {y : Slot} (h : s.MemOk) : (s.slotCut e k y).MemOk := h.setSlot.askCut

theorem State.MemOk.promptly {e k : Nat} {bad : Slot → Option (Nat × Nat)} {act : State → State} (h : s.MemOk)
    (hact : ∀ {s}, s.MemOk → (act s).MemOk) :
    (s.promptly e k bad act).MemOk := by
  unfold State.promptly
  split
  · exact h
  · split
    · exact h.failSlot
    · split
      · split
        · exact hact h
        · exact h
      · exact h

theorem State.MemOk.report1 {e : Nat} (h : s.MemOk) : (s.report1 e).MemOk := by
  unfold State.report1
  dsimp only
  split
  · exact h.modCore
  · exact h.modCore.modRegion

theorem State.MemOk.bumpSink {e : Nat} (h : s.MemOk) : (s.bumpSink e).MemOk := h.modCore

theorem State.MemOk.emitAct {o : FmtA} {f : Firing} (h : s.MemOk) : (emitAct o f s).MemOk := h.finish

theorem State.MemOk.steerAct {o : FmtA} {f : Firing} (h : s.MemOk) : (steerAct o f s).MemOk := by
  unfold Machine.steerAct
  dsimp only
  split
  · exact h.issue.completeWith
  · exact .ite h.issue.raiseFault h.issue.completeWith

theorem State.MemOk.mergeAct {o : FmtA} {f : Firing} (h : s.MemOk) : (mergeAct o f s).MemOk := by
  unfold Machine.mergeAct
  dsimp only
  split
  · exact h.finishPlain
  · split
    · exact h.issue.raiseFault
    · exact h.issue.completeWith

theorem State.MemOk.replAct {o : FmtA} {f : Firing} (h : s.MemOk) : (replAct o f s).MemOk := h.finish

theorem State.MemOk.markAct {o : FmtA} {f : Firing} (h : s.MemOk) : (markAct o f s).MemOk := h.issue.completeWith

theorem State.MemOk.sinkAct {o : FmtA} {f : Firing} (h : s.MemOk) : (sinkAct o f s).MemOk := by
  unfold Machine.sinkAct
  dsimp only
  split
  · exact h.finishPlain.bumpSink.report1
  · exact h.finishPlain.bumpSink

theorem State.MemOk.erlsAct {f : Firing} (h : s.MemOk) : (erlsAct f s).MemOk := h.finishPlain.modRegion

theorem State.MemOk.placeAct {add : Bool} {o : FmtA} {f : Firing} (h : s.MemOk) : (placeAct add o f s).MemOk :=
  h.issue.completeWith

theorem State.MemOk.prdAct {o : FmtA} {f : Firing} (h : s.MemOk) : (prdAct o f s).MemOk := h.finish

theorem State.MemOk.tagAct {o : FmtA} {f : Firing} (h : s.MemOk) : (tagAct o f s).MemOk := h.issue.completeWith

theorem State.MemOk.trapAct {o : FmtE} {f : Firing} (h : s.MemOk) : (trapAct o f s).MemOk :=
  h.issue.completeWith.raiseFault

end Sys2Proof.Machine
end

section
/-! SUPPORT. Canonical memories through the operations of a cell: its units, its bank, global memory and the barriers (O56). -/

namespace Sys2Proof.Machine

open Sys2Proof

variable {s : State}

theorem State.MemOk.oneSrc {g : Axc → Ty → Nat → LaneRes} {o : FmtA} {f : Firing} (h : s.MemOk) : (oneSrc g o f s).MemOk :=
  h.finish

theorem State.MemOk.twoSrc {g : Axc → Ty → Nat → Nat → LaneRes} {o : FmtA} {f : Firing} (h : s.MemOk) : (twoSrc g o f s).MemOk :=
  h.finish

theorem State.MemOk.threeSrc {g : Axc → Ty → Nat → Nat → Nat → LaneRes} {o : FmtA} {f : Firing} (h : s.MemOk) : (threeSrc g o f s).MemOk :=
  h.finish

theorem State.MemOk.moviAct {o : FmtA} {f : Firing} (h : s.MemOk) : (moviAct o f s).MemOk := h.finish

theorem State.MemOk.movhAct {o : FmtA} {f : Firing} (h : s.MemOk) : (movhAct o f s).MemOk := h.finish

theorem State.MemOk.selAct {o : FmtA} {f : Firing} (h : s.MemOk) : (selAct o f s).MemOk := h.finish

theorem State.MemOk.cmpAct {o : FmtA} {f : Firing} (h : s.MemOk) : (cmpAct o f s).MemOk := h.finish

theorem State.MemOk.convAct {q : Bool} {o : FmtA} {f : Firing} (h : s.MemOk) : (convAct q o f s).MemOk := by
  unfold Machine.convAct
  dsimp only
  split <;> exact h.issue.completeWith

theorem State.MemOk.slotAct {i : Instr} {o : FmtA} {two : Bool} {f : Firing} (h : s.MemOk) : (slotAct i o two f s).MemOk :=
  h.takeSlot

theorem State.MemOk.finishAlu {e k : Nat} {o : FmtA} {g : Axc → Ty → Nat → Nat → LaneRes × Bool} (h : s.MemOk) :
    (s.finishAlu e k o g).MemOk := by
  unfold State.finishAlu
  dsimp only
  split
  · exact h
  · split
    · exact h.modElem.failSlot
    · exact h.finishSlot

theorem State.MemOk.moved {o : FmtA} {f : Firing} {y : List Nat} (h : s.MemOk) : (moved o f s y).MemOk := h.finish

theorem State.MemOk.levelMarker {o : FmtA} {k : Kind} {f : Firing} (h : s.MemOk) : (levelMarker o k f s).MemOk := by
  unfold Machine.levelMarker
  dsimp only
  split <;> exact h.issue.completeWith

theorem State.MemOk.levelValue {o : FmtA} {f : Firing} {v : Nat} {fl : Fl} (h : s.MemOk) : (levelValue o f s v fl).MemOk :=
  h.issue.completeWith

theorem State.MemOk.vredAct {o : FmtA} {f : Firing} (h : s.MemOk) : (vredAct o f s).MemOk := by
  unfold Machine.vredAct
  dsimp only
  split
  · exact h.levelMarker
  · split
    · exact h.finish
    · exact h.levelValue

theorem State.MemOk.vscanAct {o : FmtA} {f : Firing} (h : s.MemOk) : (vscanAct o f s).MemOk := by
  unfold Machine.vscanAct
  dsimp only
  split
  · exact h.levelMarker
  · split
    · exact h.finish
    · exact h.levelValue

theorem State.MemOk.bankTake {e a n : Nat} {y : Elem} (h : s.MemOk) : (s.bankTake e a n y).MemOk := by
  unfold State.bankTake
  dsimp only
  split
  · split
    · exact h.setElem.testWatches
    · exact h.setElem
  · exact h.setElem.testWatches
  · exact h.setElem

theorem State.MemOk.bankWrite {e a : Nat} {bs : List Byte} (h : s.MemOk) : (s.bankWrite e a bs).MemOk := h.bankTake

theorem State.MemOk.fillGranule {e g : Nat} (h : s.MemOk) : (s.fillGranule e g).MemOk := by
  unfold State.fillGranule
  dsimp only
  split
  · exact h.fillTlb.modElem
  · exact h

theorem State.MemOk.unborrow {e g : Nat} (h : s.MemOk) : (s.unborrow e g).MemOk := by
  unfold State.unborrow
  dsimp only
  split
  · exact h
  · split
    · exact h
    · split
      · exact h.setElem.foldl fun h => h.homePut
      · exact (h.setElem.foldl fun h => h.homePut).testWatches

theorem State.MemOk.portAccess {first : Bool} {b e k n : Nat} {as : List Nat} {write : Bool} {act : State → State} (h : s.MemOk)
    (hact : ∀ {s}, s.MemOk → (act s).MemOk) :
    (s.portAccess first b e k n as write act).MemOk := by
  unfold State.portAccess
  dsimp only
  split
  · exact h.failSlot
  · exact h
  · refine .ite ?_ ?_
    · exact h.modElem
    · refine .ite ?_ ?_
      · exact h
      · refine .ite ?_ ?_
        · exact ((hact (h.foldl fun h => .ite h.fillGranule h)).foldl fun h => h.unborrow).modElem
        · exact (h.foldl fun h => .ite h.fillGranule h).askCut

theorem State.MemOk.bankAccess {e k n : Nat} {as : List Nat} {write : Bool} {act : State → State} (h : s.MemOk)
    (hact : ∀ {s}, s.MemOk → (act s).MemOk) :
    (s.bankAccess e k n as write act).MemOk :=
  h.portAccess hact

theorem State.MemOk.bankIssue {i : Instr} {o : FmtM} {b : VW} {wide : Bool} {bad : Elem → Slot → Option (Nat × Nat)}
    {perf : Nat → Nat → State → State} {f : Firing} (h : s.MemOk) (hperf : ∀ {a b s}, s.MemOk → (perf a b s).MemOk) :
    (bankIssue i o b wide bad perf f s).MemOk := by
  unfold Machine.bankIssue
  dsimp only
  refine State.MemOk.promptly ?_ hperf
  split
  · exact h.takeSlot.setSlot
  · exact h.takeSlot

theorem State.MemOk.performBld {o : FmtM} {e k : Nat} (h : s.MemOk) : (performBld o e k s).MemOk :=
  h.trySlot (h.bankAccess fun h => h.performed)

theorem State.MemOk.performBst {o : FmtM} {e k : Nat} (h : s.MemOk) : (performBst o e k s).MemOk :=
  h.trySlot (h.bankAccess fun h => h.bankWrite.performed)

theorem State.MemOk.performBldx {o : FmtM} {e k : Nat} (h : s.MemOk) : (performBldx o e k s).MemOk :=
  h.trySlot (h.bankAccess fun h => h.performed)

theorem State.MemOk.performBstx {o : FmtM} {e k : Nat} (h : s.MemOk) : (performBstx o e k s).MemOk :=
  h.trySlot (h.bankAccess fun h => (h.foldl fun h => h.bankWrite).performed)

theorem State.MemOk.finishLoad {e k : Nat} {ty : Ty} {d : Dst} {wide : Bool} (h : s.MemOk) : (s.finishLoad e k ty d wide).MemOk := by
  unfold State.finishLoad
  split
  · exact h
  · exact h.finishSlot

theorem State.MemOk.finishNone {e k : Nat} (h : s.MemOk) : (s.finishNone e k).MemOk := h.finishSlot

theorem State.MemOk.performBrmw {o : FmtM} {e k : Nat} (h : s.MemOk) : (performBrmw o e k s).MemOk := by
  unfold Machine.performBrmw
  dsimp only
  refine h.trySlot fun {_} => ?_
  refine .ite ?_ ?_
  · exact h
  · refine h.bankAccess fun h => ?_
    refine .ite ?_ ?_
    · split
      · exact h.bankWrite.performed.setSlot
      · exact h.bankWrite.performed
    · refine .ite ?_ ?_
      · refine State.MemOk.finishLoad ?_
        split
        · exact h.bankWrite.performed.setSlot
        · exact h.bankWrite.performed
      · exact h

theorem State.MemOk.performBcas {o : FmtM} {e k : Nat} (h : s.MemOk) : (performBcas o e k s).MemOk := by
  unfold Machine.performBcas
  dsimp only
  refine h.trySlot fun {_} => ?_
  refine h.bankAccess fun h => ?_
  refine State.MemOk.performed ?_
  split
  · exact h.bankWrite
  · exact h

theorem State.MemOk.memIssue {i : Instr} {o : FmtM} {b : VW} {bad : Slot → Option (Nat × Nat)} {perf : Nat → Nat → State → State}
    {f : Firing} (h : s.MemOk) (hperf : ∀ {a b s}, s.MemOk → (perf a b s).MemOk) :
    (memIssue i o b bad perf f s).MemOk :=
  h.takeSlot.promptly hperf

theorem State.MemOk.elemAccess {e k va n : Nat} {a : Access} {act : List (Loc × Nat) → State → State} (h : s.MemOk)
    (hact : ∀ {a s}, s.MemOk → (act a s).MemOk) :
    (s.elemAccess e k va n a act).MemOk := by
  unfold State.elemAccess
  split
  · exact h.failSlot
  · exact h
  · exact hact h.fillRun

theorem State.MemOk.farGate {e k : Nat} {y : Slot} {ls : List (Loc × Nat)} {act : State → State} (h : s.MemOk)
    (hact : ∀ {s}, s.MemOk → (act s).MemOk) :
    (s.farGate e k y ls act).MemOk := by
  unfold State.farGate
  split
  · split
    · exact h.slotCut
    · exact h
  · exact hact h

theorem State.MemOk.afterFar {e : Nat} {y : Slot} (h : s.MemOk) : (s.afterFar e y).MemOk := by
  unfold State.afterFar
  split
  · exact h.askSecond
  · exact h

theorem State.MemOk.performLd {o : FmtM} {e k : Nat} (h : s.MemOk) : (performLd o e k s).MemOk := by
  unfold Machine.performLd
  dsimp only
  refine h.trySlot fun {_} => ?_
  split
  · exact h.elemAccess fun h => h.performed
  · refine h.elemAccess fun h => ?_
    split
    · exact h.setSlot
    · exact h.performed

theorem State.MemOk.accept {e k : Nat} {y : Slot} (h : s.MemOk) : (s.accept e k y).MemOk := h.modElem.performed

theorem State.MemOk.performSt {o : FmtM} {e k : Nat} (h : s.MemOk) : (performSt o e k s).MemOk := by
  unfold Machine.performSt
  split
  · exact h
  · split
    · exact h
    · exact h.elemAccess fun h => h.farGate fun h => h.accept

theorem State.MemOk.setPosted {e : Nat} {y : Slot} (h : s.MemOk) : (s.setPosted e y).MemOk := h.modElem

theorem State.MemOk.dropPosted {e : Nat} {y : Slot} (h : s.MemOk) : (s.dropPosted e y).MemOk := h.modElem

theorem State.MemOk.postSt {o : FmtM} {e : Nat} {y : Slot} (h : s.MemOk) : (postSt o e y s).MemOk := by
  unfold Machine.postSt
  dsimp only
  split
  · exact h.raiseFault
  · exact h
  · split
    · exact h.setPosted.askCut
    · split
      · exact h
      · split
        · exact h.spend.writeRun.setPosted
        · exact h.spend.writeRun.dropPosted.afterFar

theorem State.MemOk.fetchRo {c line : Nat} {raw : Bool} (h : s.MemOk) : (s.fetchRo c line raw).MemOk := by
  unfold State.fetchRo
  dsimp only
  split
  · exact h
  · split
    · exact h.setCore
    · exact h

theorem State.MemOk.roRun {c va : Nat} {ls : List (Loc × Nat)} (h : s.MemOk) : (s.roRun c va ls).1.MemOk := by
  induction ls generalizing s va with
  | nil => exact h
  | cons l ls ih =>
    unfold State.roRun
    split
    · exact ih (h.foldl fun h => h.fetchRo)
    · exact ih h

theorem State.MemOk.ldoPart {o : FmtM} {e k : Nat} {y : Slot} {l : Loc} (h : s.MemOk) : (ldoPart o e k y l s).MemOk := by
  unfold Machine.ldoPart
  extract_lets n a va m
  split
  rename_i hu
  have ht := State.MemOk.of_pair hu h.fillTlb.roRun
  split
  · exact ht.setSlot
  · exact ht.performed

theorem State.MemOk.performLdo {o : FmtM} {e k : Nat} (h : s.MemOk) : (performLdo o e k s).MemOk := by
  unfold Machine.performLdo
  split
  · exact h
  · split
    · split
      · exact h.ldoPart
      · exact h
    · refine h.trySlot fun {_} => ?_
      refine h.elemAccess fun h => ?_
      split
      · exact h.ldoPart
      · exact h

theorem State.MemOk.performLdw {o : FmtM} {e k : Nat} (h : s.MemOk) : (performLdw o e k s).MemOk := by
  unfold Machine.performLdw
  refine h.trySlot fun {_} => ?_
  refine h.elemAccess fun h => ?_
  split
  · split
    · exact h.performed
    · exact h.setSlot
  · exact h

theorem State.MemOk.performStw {o : FmtM} {e k : Nat} (h : s.MemOk) : (performStw o e k s).MemOk :=
  h.trySlot (h.elemAccess fun h => h.accept)

theorem State.MemOk.postStw {o : FmtM} {e : Nat} {y : Slot} (h : s.MemOk) : (postStw o e y s).MemOk := by
  unfold Machine.postStw
  dsimp only
  split
  · exact h.raiseFault
  · exact h
  · split
    · exact h
    · split
      · exact h
      · split
        · exact h.raiseFault
        · split
          · exact h.setPosted.askCut
          · refine .answer (.dropPosted (.writeRun ?_))
            split
            · split
              · exact h
              · exact .modRegion h
            · exact h

theorem State.MemOk.updateAt {e : Nat} {y : Slot} {va n : Nat} {ls : List (Loc × Nat)} (h : s.MemOk) :
    (s.updateAt e y va n ls).1.MemOk := by
  unfold State.updateAt
  dsimp only
  split
  · exact h.writeRun
  · exact h

theorem State.MemOk.performUpdate {o : FmtM} {e k : Nat} (h : s.MemOk) : (performUpdate o e k s).MemOk := by
  unfold Machine.performUpdate
  dsimp only
  refine h.trySlot fun {_} => ?_
  refine h.elemAccess fun h => ?_
  split
  · exact h.failSlot
  · refine h.farGate fun h => ?_
    split
    · split
      · exact h
      · exact h.spend.updateAt.performed.afterFar
    · split
      · exact h
      · exact .setSlot h

theorem State.MemOk.performRed {o : FmtM} {e k : Nat} (h : s.MemOk) : (performRed o e k s).MemOk := by
  unfold Machine.performRed
  split
  · exact h
  · split
    · exact h
    · split
      · exact h.failSlot
      · refine h.elemAccess fun h => ?_
        split
        · exact h.failSlot
        · exact h.farGate fun h => h.accept

theorem State.MemOk.postRed {o : FmtM} {e : Nat} {y : Slot} (h : s.MemOk) : (postRed o e y s).MemOk := by
  unfold Machine.postRed
  dsimp only
  refine .ite ?_ ?_
  · exact .ite h h
  · split
    · exact h.raiseFault
    · exact h
    · exact .ite h h.spend.updateAt.dropPosted.afterFar

theorem State.MemOk.passFence {e : Nat} {y : Slot} (h : s.MemOk) : (s.passFence e y).MemOk := by
  unfold State.passFence
  dsimp only
  split <;> exact h

theorem State.MemOk.performFence {e k : Nat} (h : s.MemOk) : (performFence e k s).MemOk :=
  h.trySlot h.passFence.performed

theorem State.MemOk.performPref {o : FmtM} {e k : Nat} (h : s.MemOk) : (performPref o e k s).MemOk := by
  unfold Machine.performPref
  dsimp only
  split
  · exact h
  · refine State.MemOk.performed ?_
    split
    · split
      · exact h
      · exact h.l2Put
    · exact h

theorem State.MemOk.performInv {e k : Nat} (h : s.MemOk) : (performInv e k s).MemOk := h.trySlot h.modCore.performed

theorem State.MemOk.performPosted {e n : Nat} (h : s.MemOk) : (performPosted e n s).MemOk := by
  unfold Machine.performPosted
  split
  · exact h
  · split
    · exact h
    · split
      · exact h.postSt
      · exact h.postStw
      · exact h.postRed
      · exact h

theorem State.MemOk.settleBar {c k : Nat} (h : s.MemOk) : (s.settleBar c k).MemOk := h.setBar.foldl fun h => h.performed

theorem State.MemOk.settleBars (h : s.MemOk) : (s.settleBars).MemOk := by
  unfold State.settleBars
  refine h.foldl fun h => ?_
  refine h.foldl fun h => ?_
  split
  · exact h.settleBar
  · exact h

theorem State.MemOk.flipBar {c k : Nat} (h : s.MemOk) : (s.flipBar c k).MemOk := h.setBar.settleBar

theorem State.MemOk.credit {c k n : Nat} (h : s.MemOk) : (s.credit c k n).MemOk := h.setBar

theorem State.MemOk.boxUse {c key : Nat} (h : s.MemOk) : (s.boxUse c key).MemOk := h.modCore

theorem State.MemOk.tapCount {c k : Nat} (h : s.MemOk) : (s.tapCount c k).MemOk := by
  unfold State.tapCount
  dsimp only
  split
  · exact h.boxUse.raiseFault
  · split <;> exact h.boxUse.setBar

theorem State.MemOk.tapArrival {e c k : Nat} (h : s.MemOk) : (s.tapArrival e c k).MemOk := by
  unfold State.tapArrival
  dsimp only
  split
  · exact h.setBar
  · exact h.tapCount

theorem State.MemOk.countTaps {c : Nat} (h : s.MemOk) : (s.countTaps c).MemOk := by
  unfold State.countTaps
  dsimp only
  refine h.foldl fun h => ?_
  split
  · exact h
  · exact h.setBar.foldl fun h => h.tapCount

theorem State.MemOk.cmdIssue {i : Instr} {a b c : VW} {bad : Slot → Option (Nat × Nat)} {perf : Nat → Nat → State → State} {f : Firing}
    (h : s.MemOk) (hperf : ∀ {a b s}, s.MemOk → (perf a b s).MemOk) :
    (cmdIssue i a b c bad perf f s).MemOk :=
  h.takeSlot.promptly hperf

theorem State.MemOk.tryBar {e k : Nat} {box : Slot → Nat} {act : Slot → State} (h : s.MemOk) (hact : ∀ {a}, (act a).MemOk) :
    (s.tryBar e k box act).MemOk := by
  unfold State.tryBar
  refine h.trySlot fun {_} => ?_
  split
  · exact hact
  · exact h

theorem State.MemOk.performBari {o : FmtE} {e k : Nat} (h : s.MemOk) : (performBari o e k s).MemOk := by
  unfold Machine.performBari
  dsimp only
  refine h.tryBar fun {_} => ?_
  split
  · exact h.boxUse.failSlot
  · exact h.boxUse.setBar.performed

theorem State.MemOk.performBart {o : FmtE} {e k : Nat} (h : s.MemOk) : (performBart o e k s).MemOk := by
  unfold Machine.performBart
  dsimp only
  refine h.tryBar fun {_} => ?_
  split
  · exact h.boxUse.failSlot
  · exact h.boxUse.setBar.performed

theorem State.MemOk.performBara {o : FmtE} {e k : Nat} (h : s.MemOk) : (performBara o e k s).MemOk := by
  unfold Machine.performBara
  dsimp only
  refine h.tryBar fun {_} => ?_
  split
  · exact h.failSlot
  · split
    · exact h.boxUse.failSlot
    · split
      · exact h.boxUse.setBar.setSlot
      · exact h.boxUse.setBar.performed

theorem State.MemOk.performBarw {o : FmtE} {e k : Nat} (h : s.MemOk) : (performBarw o e k s).MemOk := by
  unfold Machine.performBarw
  dsimp only
  refine h.tryBar fun {_} => ?_
  split
  · exact h
  · exact h.boxUse.setBar.setSlot

theorem State.MemOk.finishBarw {e k : Nat} {o : FmtE} (h : s.MemOk) : (s.finishBarw e k o).MemOk := by
  unfold State.finishBarw
  dsimp only
  split
  · exact h
  · exact .ite (.ite h.setBar.modElem.finishSlot h.finishSlot) h

theorem State.MemOk.performBarq {o : FmtE} {e k : Nat} (h : s.MemOk) : (performBarq o e k s).MemOk :=
  h.tryBar h.boxUse.performed

theorem State.MemOk.finishWord {e k : Nat} {d : Dst} {wide : Bool} (h : s.MemOk) : (s.finishWord e k d wide).MemOk := by
  unfold State.finishWord
  split
  · exact h
  · exact h.finishSlot

end Sys2Proof.Machine
end

section
/-! SUPPORT. Canonical memories through the engines, the stream ports and the movement of tokens (O56). -/

namespace Sys2Proof.Machine

open Sys2Proof

variable {s : State}

theorem State.MemOk.setEqueue {g q : Nat} {es : List Entry} (h : s.MemOk) : (s.setEqueue g q es).MemOk := h.setEngine

theorem State.MemOk.setEntry {g q : Nat} {t : Entry} (h : s.MemOk) : (s.setEntry g q t).MemOk := h.setEqueue

theorem State.MemOk.dropEntry {g q : Nat} {t : Entry} (h : s.MemOk) : (s.dropEntry g q t).MemOk := h.setEqueue

theorem State.MemOk.failEntry {g q : Nat} {t : Entry} {code addr : Nat} (h : s.MemOk) : (s.failEntry g q t code addr).MemOk := by
  unfold State.failEntry
  split
  · exact h
  · exact h.raiseFault

theorem State.MemOk.freePort {t : Entry} (h : s.MemOk) : (s.freePort t).MemOk := h.foldl fun h => h.modPort

theorem State.MemOk.finishEntry {g q : Nat} {t : Entry} {v : Nat} (h : s.MemOk) : (s.finishEntry g q t v).MemOk := by
  unfold State.finishEntry
  split
  · exact h.dropEntry
  · exact h.dropEntry.freePort.performed

theorem State.MemOk.setProg {e k n : Nat} (h : s.MemOk) : (s.setProg e k n).MemOk := by
  unfold State.setProg
  split
  · exact h.setSlot
  · exact h

theorem State.MemOk.serve {g q : Nat} {act : Entry → Slot → State → State} (h : s.MemOk) (hact : ∀ {a b s}, s.MemOk → (act a b s).MemOk) :
    (s.serve g q act).MemOk := by
  unfold State.serve
  dsimp only
  split
  · exact h
  · split
    · exact h
    · split
      · exact h.setEngine
      · split
        · exact h.setEngine
        · exact hact h.setEngine

theorem State.MemOk.engAccess {g q : Nat} {t : Entry} {c va n : Nat} {a : Access} {act : List (Loc × Nat) → State → State} (h : s.MemOk)
    (hact : ∀ {a s}, s.MemOk → (act a s).MemOk) :
    (s.engAccess g q t c va n a act).MemOk := by
  unfold State.engAccess
  split
  · exact h.failEntry
  · exact h
  · exact hact h.fillRun

theorem State.MemOk.engFar {g q : Nat} {t : Entry} {ls : List (Loc × Nat)} {act : State → State} (h : s.MemOk)
    (hact : ∀ {s}, s.MemOk → (act s).MemOk) :
    (s.engFar g q t ls act).MemOk := by
  unfold State.engFar
  split
  · exact h.setEntry.askCut
  · exact hact h

theorem State.MemOk.engBudget {g q : Nat} {t : Entry} {ls : List (Loc × Nat)} {act : State → State} (h : s.MemOk)
    (hact : ∀ {s}, s.MemOk → (act s).MemOk) :
    (s.engBudget g q t ls act).MemOk := by
  unfold State.engBudget
  split
  · exact h.setEntry.askCut
  · exact hact h

theorem State.MemOk.payloadDone {g q : Nat} {t : Entry} {ntf : Nat} {c : VW} {v : Nat} (h : s.MemOk) :
    (s.payloadDone g q t ntf c v).MemOk := by
  unfold State.payloadDone
  dsimp only
  split
  · refine State.MemOk.modRegion ?_
    split
    · exact h.setEntry.setSlot
    · exact h.setEntry
  · split
    · exact h.finishEntry.askSecond
    · exact h.finishEntry

theorem State.MemOk.makeNote {r : Nat} {forced : Bool} {n : DefNote} (h : s.MemOk) : (s.makeNote r forced n).MemOk := by
  unfold State.makeNote
  dsimp only
  split
  · split
    · exact h.modRegion
    · split
      · exact h
      · refine h.engAccess fun h => ?_
        split
        · exact h.askCut
        · split
          · exact h.writeRun.modRegion.finishEntry.askSecond
          · exact h.writeRun.modRegion.finishEntry
  · exact h

theorem State.MemOk.enqueueCmd {e k : Nat} {y : Slot} {kind : EngineKind} {n q : Nat} {waits : List Nat} (h : s.MemOk) :
    (s.enqueueCmd e k y kind n q waits).MemOk := by
  unfold State.enqueueCmd
  dsimp only
  split <;> exact h

theorem State.MemOk.trySend {e k : Nat} {bad : Slot → Option (Nat × Nat)} {act : Slot → State} (h : s.MemOk) (hact : ∀ {a}, (act a).MemOk) :
    (s.trySend e k bad act).MemOk := by
  unfold State.trySend
  split
  · exact h
  · split
    · exact h
    · split
      · exact h.failSlot
      · exact hact

theorem State.MemOk.irrevocable {e k : Nat} {y : Slot} {act : State → State} (h : s.MemOk) (hact : ∀ {s}, s.MemOk → (act s).MemOk) :
    (s.irrevocable e k y act).MemOk := by
  unfold State.irrevocable
  split
  · exact hact h
  · split
    · exact h.slotCut
    · exact h

theorem State.MemOk.credits {t : Entry} {o : FmtE} {bit n : Nat} (h : s.MemOk) : (s.credits t o bit n).MemOk := by
  unfold State.credits
  split
  · exact h.credit
  · exact h

theorem State.MemOk.performCopyCmd {o : FmtE} {bad : Slot → Option (Nat × Nat)} {e k : Nat} (h : s.MemOk) :
    (performCopyCmd o bad e k s).MemOk :=
  h.trySend h.enqueueCmd

theorem State.MemOk.cmdCapture {i : Instr} {o : FmtE} {bad : Slot → Option (Nat × Nat)} {perf : Nat → Nat → State → State} {f : Firing}
    (h : s.MemOk) (hperf : ∀ {a b s}, s.MemOk → (perf a b s).MemOk) :
    (cmdCapture i o bad perf f s).MemOk :=
  h.cmdIssue hperf

theorem State.MemOk.clearPresence {e : Nat} {ls : List (Loc × Nat)} (h : s.MemOk) : (s.clearPresence e ls).MemOk := by
  unfold State.clearPresence
  dsimp only
  split
  · exact .modRegion h
  · exact h

theorem State.MemOk.copyChunk {o : FmtE} {fill : Bool} {g q : Nat} {t : Entry} {y : Slot} (h : s.MemOk) :
    (copyChunk o fill g q t y s).MemOk := by
  unfold Machine.copyChunk
  extract_lets n c m dst src t' go
  have hgo {bs : State → List Byte} {s : State} (h : s.MemOk) : (go bs s).MemOk := by
    refine h.engAccess fun h => h.engFar fun h => h.engBudget fun h => ?_
    split
    · exact h
    · extract_lets w written cleared
      have hw : written.MemOk := h.spend.writeRun
      have hc : cleared.MemOk := .ite hw.clearPresence hw
      split
      · exact hc.credits.setProg.setEntry.payloadDone
      · exact hc.credits.setProg.setEntry
  split
  · exact h
  · split
    · exact h.payloadDone
    · split
      · exact hgo h
      · exact h.engAccess fun h => hgo h

theorem State.MemOk.performQfen {o : FmtE} {e k : Nat} (h : s.MemOk) : (performQfen o e k s).MemOk :=
  h.trySend h.enqueueCmd

theorem State.MemOk.serveCopy {g q : Nat} {t : Entry} {y : Slot} (h : s.MemOk) : (serveCopy g q t y s).MemOk := by
  unfold Machine.serveCopy
  dsimp only
  split
  · exact h.copyChunk
  · exact h.copyChunk
  · split
    · exact h
    · exact h.finishEntry
  · split
    · exact h
    · exact h.payloadDone
  · exact h

theorem State.MemOk.toStack {e k va : Nat} {a : Access} {act : Loc → State → State} (h : s.MemOk)
    (hact : ∀ {a s}, s.MemOk → (act a s).MemOk) :
    (s.toStack e k va a act).MemOk := by
  unfold State.toStack
  split
  · exact h.failSlot
  · exact h
  · split
    · exact hact h.fillTlb
    · exact h.failSlot

theorem State.MemOk.performRow {o : FmtE} {copy : Bool} {e k : Nat} (h : s.MemOk) : (performRow o copy e k s).MemOk :=
  h.trySend (h.toStack fun h => h.irrevocable fun h => h.enqueueCmd)

theorem State.MemOk.rowCopy {w : Writer} {l : Loc} {m : Option Loc} (h : s.MemOk) : (s.rowCopy w l m).MemOk := by
  unfold State.rowCopy
  extract_lets t bs u
  have ht : t.MemOk := by cases m <;> exact h
  have hu : u.MemOk := State.MemOk.rowWrite ht
  clear_value u
  split
  · exact ht
  · exact hu

theorem State.MemOk.rowTransfer1 {o : FmtE} {copy : Bool} {g q : Nat} {t : Entry} {y : Slot} (h : s.MemOk) :
    (rowTransfer1 o copy g q t y s).MemOk := by
  unfold Machine.rowTransfer1
  extract_lets n c p i group filled
  clear_value group
  have hf : filled.MemOk := .ite h.fillRun h
  split
  · exact h
  · split
    · exact h.payloadDone
    · split
      · exact h.failEntry
      · exact h
      · exact h
      · split
        · exact h
        · dsimp only
          split
          · exact hf.rowCopy.credits.setProg.setEntry.payloadDone
          · exact hf.rowCopy.credits.setProg.setEntry

theorem State.MemOk.serveRow {g q : Nat} {t : Entry} {y : Slot} (h : s.MemOk) : (serveRow g q t y s).MemOk := by
  unfold Machine.serveRow
  split
  · exact h.rowTransfer1
  · exact h.rowTransfer1
  · exact h

theorem State.MemOk.execCopyChunk {g q : Nat} (h : s.MemOk) : Keeps (execCopyChunk g q s) := by
  unfold Machine.execCopyChunk
  dsimp only [Keeps]
  split
  · exact h.serve fun h => h.serveCopy
  · exact h

theorem State.MemOk.execRowTransfer {g q : Nat} (h : s.MemOk) : Keeps (execRowTransfer g q s) := by
  unfold Machine.execRowTransfer
  dsimp only [Keeps]
  split
  · exact h.serve fun h => h.serveRow
  · exact h

theorem State.MemOk.crossLink {n : Nat} {f : Flight} (h : s.MemOk) : (s.crossLink n f).MemOk := by
  unfold State.crossLink
  dsimp only
  split
  · exact h
  · exact h

theorem State.MemOk.injectElem {e : Nat} {ctl : Bool} (h : s.MemOk) : (s.injectElem e ctl).MemOk := by
  unfold State.injectElem
  dsimp only
  split
  · exact h
  · split
    · exact h
    · split
      · exact .tapArrival (.setElem (.crossLink h))
      · exact .setElem (.crossLink h)

theorem State.MemOk.portSend {c k : Nat} {p : Port} {t : Token} {cmd : Option (Nat × Nat × Nat)} (h : s.MemOk) :
    (s.portSend c k p t cmd).MemOk :=
  h

theorem State.MemOk.portProg {p : Port} (h : s.MemOk) : (s.portProg p).MemOk := by
  unfold State.portProg
  split
  · exact h
  · split
    · exact h
    · split <;> exact h.setProg

theorem State.MemOk.portDeliver {c k : Nat} (h : s.MemOk) : (s.portDeliver c k).MemOk := by
  unfold State.portDeliver
  dsimp only
  split
  · exact h
  · split
    · exact h
    · split
      · exact h
      · split
        · refine State.MemOk.portSend ?_
          split
          · exact h.setPort.modRegion
          · exact h.setPort
        · split
          · exact h
          · split
            · exact h.setPort.portSend
            · split
              · exact h
              · exact h.setPort.portProg.modRegion.portSend

theorem State.MemOk.execTokenInjection {e : Nat} {ctl : Bool} (h : s.MemOk) : Keeps (execTokenInjection e ctl s) := by
  unfold Machine.execTokenInjection
  dsimp only [Keeps]
  split
  · exact h.injectElem
  · exact h.portDeliver

theorem State.MemOk.tokenEntered {cmd : Option (Nat × Nat × Nat)} {tok : Token} (h : s.MemOk) : (s.tokenEntered cmd tok).MemOk := by
  unfold State.tokenEntered
  dsimp only
  split
  · exact h
  · split
    · exact h
    · split
      · exact h
      · split
        · exact h.setSlot
        · split
          · exact h.setSlot.performed
          · exact h.setSlot
        · exact h.performed
        · exact h.performed
        · split
          · exact h.setSlot
          · exact h

theorem State.MemOk.dropFlight {n : Nat} (h : s.MemOk) : (s.dropFlight n).MemOk := h

theorem State.MemOk.reach {landing : Bool} {dst : Dest} {cmd : Option (Nat × Nat × Nat)} {t : Token} {u : State} (h : s.MemOk)
    (hu : s.reach landing dst cmd t = some u) : u.MemOk := by
  unfold State.reach at hu
  split at hu
  · cases hu
    exact h
  · split at hu
    · obtain ⟨v, hv, rfl⟩ := Option.map_eq_some_iff.1 hu
      exact (h.enterQueue hv).tokenEntered
    · split at hu
      · cases hu
        exact h.modPort.tokenEntered
      · cases hu

theorem State.MemOk.reachAll {landing : Bool} {dst : Dest} {cmd : Option (Nat × Nat × Nat)} {m : LinkMode} {ts : List Token} (h : s.MemOk) :
    (s.reachAll landing dst cmd m ts).2.MemOk := by
  induction ts generalizing s with
  | nil => exact h
  | cons t ts ih =>
    unfold State.reachAll
    split
    · rename_i hu
      exact ih (h.reach hu)
    · exact h

theorem State.MemOk.reachAll_eq {landing : Bool} {dst : Dest} {cmd : Option (Nat × Nat × Nat)} {m : LinkMode}
    {ts us : List Token} {u : State} (h : s.MemOk) (hu : s.reachAll landing dst cmd m ts = (us, u)) : u.MemOk := by
  have keeps := h.reachAll (landing := landing) (dst := dst) (cmd := cmd) (m := m) (ts := ts)
  rwa [hu] at keeps

theorem State.MemOk.stray {f : Flight} (h : s.MemOk) : (s.stray f).MemOk := h.raiseFault

theorem State.MemOk.arrive {n : Nat} (h : s.MemOk) : (s.arrive n).MemOk := by
  unfold State.arrive
  split
  · exact h
  · refine .ite h.crossLink (.ite (.ite h.dropFlight.stray ?_) h)
    split
    · rename_i t ht
      exact (h.reachAll_eq ht).dropFlight
    · rename_i t ht
      have := h.reachAll_eq ht
      exact this

theorem State.MemOk.applyCfg {e q : Nat} (h : s.MemOk) : (s.applyCfg e q).MemOk := by
  unfold State.applyCfg
  dsimp only
  split
  · split
    · split
      · exact h.setElem.raiseFault
      · split
        · exact h.setElem.changed
        · exact h.setElem
    · exact h
  · exact h

theorem State.MemOk.injectAll (h : s.MemOk) : (s.injectAll).MemOk := h.foldl fun h => h.injectElem.injectElem.injectElem

theorem State.MemOk.sweep {n i : Nat} (h : s.MemOk) : (s.sweep n i).MemOk := by
  induction n generalizing s i with
  | zero => exact h
  | succ n ih =>
    unfold State.sweep
    extract_lets t u
    have hu : u.MemOk := by
      show (if t.flight.length < s.flight.length then t else t.arrive i).MemOk
      split
      · exact h.arrive
      · exact h.arrive.arrive
    split
    · exact ih hu
    · exact h

theorem State.MemOk.sweeps {n : Nat} (h : s.MemOk) : (State.sweeps n s).MemOk := by
  induction n generalizing s with
  | zero => exact h
  | succ n ih =>
    unfold State.sweeps
    dsimp only
    split
    · exact h.sweep
    · exact ih h.sweep

theorem State.MemOk.applyCfgs (h : s.MemOk) : (s.applyCfgs).MemOk := h.foldl fun h => h.foldl fun h => h.applyCfg

theorem State.MemOk.moveAll (h : s.MemOk) : (s.moveAll).MemOk := h.sweeps.injectAll.sweeps.applyCfgs

theorem State.MemOk.failPort {c k code addr : Nat} (h : s.MemOk) : (s.failPort c k code addr).MemOk := h.raiseFault

theorem State.MemOk.portRead {c k : Nat} (h : s.MemOk) : (s.portRead c k).MemOk := by
  unfold State.portRead
  dsimp only
  split
  · exact h
  · split
    · exact h
    · split
      · exact h.failPort
      · exact h
      · exact h.fillRun.setPort

theorem State.MemOk.portPop {c k : Nat} {f : Port → Port} (h : s.MemOk) : (s.portPop c k f).MemOk := h.modPort

theorem State.MemOk.portStore {c k : Nat} {p : Port} {t : Token} (h : s.MemOk) : (s.portStore c k p t).MemOk := by
  unfold State.portStore
  dsimp only
  split
  · exact h.failPort
  · split
    · exact h.failPort
    · exact h
    · split
      · split
        · exact h.setPort.askCut
        · exact h
      · split
        · exact h.setPort.askCut
        · split
          · exact h
          · refine State.MemOk.portPop ?_
            split
            · exact h.fillRun.spend.writeRun.askSecond
            · exact h.fillRun.spend.writeRun

theorem State.MemOk.portWrite {c k : Nat} (h : s.MemOk) : (s.portWrite c k).MemOk := by
  unfold State.portWrite
  dsimp only
  split
  · exact h
  · split
    · exact h
    · split
      · split
        · split
          · exact h.portPop
          · exact h.portPop.modRegion
        · exact h
      · exact h.portPop
      · split
        · exact h
        · split
          · exact h.portPop
          · split
            · exact h
            · exact h.portStore
      · split
        · exact h
        · split
          · exact h.portPop
          · split
            · exact h
            · exact h.portPop
      · split
        · exact h
        · exact h.portPop

theorem State.MemOk.tryPort {e k pn : Nat} {act : Slot → Port → State} (h : s.MemOk) (hact : ∀ {a b}, (act a b).MemOk) :
    (s.tryPort e k pn act).MemOk := by
  unfold State.tryPort
  refine h.trySlot fun {_} => ?_
  split
  · split
    · exact hact
    · exact h
  · exact h

theorem State.MemOk.performSopen {o : FmtE} {e k : Nat} (h : s.MemOk) : (performSopen o e k s).MemOk :=
  h.tryPort (.ite h h.setPort.performed)

theorem State.MemOk.performSparm {o : FmtE} {e k : Nat} (h : s.MemOk) : (performSparm o e k s).MemOk :=
  h.tryPort h.setPort.performed

theorem State.MemOk.performSclose {o : FmtE} {e k : Nat} (h : s.MemOk) : (performSclose o e k s).MemOk := by
  unfold Machine.performSclose
  dsimp only
  refine h.tryPort fun {_} => ?_
  refine .ite ?_ ?_
  · exact h.performed
  · refine .ite ?_ ?_
    · exact .ite h.setSlot h.setPort.performed
    · exact .ite h.setPort.setSlot (.portSend (.setSlot (.setPort h)))

theorem State.MemOk.performSrec {o : FmtE} {e k : Nat} (h : s.MemOk) : (performSrec o e k s).MemOk :=
  h.tryPort (.ite h.performed h.performed)

theorem State.MemOk.performRfen {o : FmtE} {e k : Nat} (h : s.MemOk) : (performRfen o e k s).MemOk := by
  unfold Machine.performRfen
  dsimp only
  refine h.trySlot fun {_} => ?_
  split
  · exact (h.foldl fun h => h.modPort).setSlot
  · exact (h.foldl fun h => h.modPort).performed

theorem State.MemOk.performMac {o : FmtE} {mac : Bool} {e k : Nat} (h : s.MemOk) : (performMac o mac e k s).MemOk := by
  unfold Machine.performMac
  dsimp only
  refine h.trySend fun {_} => ?_
  refine h.toStack fun h => ?_
  split
  · exact h.failSlot
  · split
    · exact h.irrevocable fun h => h.enqueueCmd
    · exact h.enqueueCmd

theorem State.MemOk.macIssue {i : Instr} {o : FmtE} {mac : Bool} {f : Firing} (h : s.MemOk) : (macIssue i o mac f s).MemOk :=
  h.cmdIssue fun h => h.performMac

theorem State.MemOk.keepPlaces {label n : Nat} {f : Firing} (h : s.MemOk) : (keepPlaces label n f s).MemOk := by
  unfold Machine.keepPlaces
  split <;> exact h

theorem State.MemOk.formTokens {e k : Nat} {toks : List Token} {pack : Bool} (h : s.MemOk) : (s.formTokens e k toks pack).MemOk :=
  h

theorem State.MemOk.modPchan {t : Entry} {key : Nat} {f : PChan → PChan} (h : s.MemOk) : (s.modPchan t key f).MemOk :=
  h.setPchan.modRegion

theorem State.MemOk.serveMac {g q : Nat} {t : Entry} {y : Slot} (h : s.MemOk) : (serveMac g q t y s).MemOk := by
  unfold Machine.serveMac
  split
  · exact h.failEntry
  · exact h
  · extract_lets key p mine c sm gr toks
    split
    · exact .ite h h.modPchan.finishEntry
    · exact .ite h.modPchan.finishEntry h.finishEntry
    · exact .ite h.failEntry h.modPchan.finishEntry
    · have hm : sm.MemOk := h.of_same rfl rfl rfl
      exact .ite h.failEntry hm.modPchan.finishEntry.askSecond
    · extract_lets pack s'
      have h' : s'.MemOk := .ite h.modPchan h
      exact .ite h.finishEntry (.ite h (.ite h.failEntry h'.formTokens.setEntry))
    · exact h

theorem State.MemOk.execBankMacPerform {g q : Nat} (h : s.MemOk) : Keeps (execBankMacPerform g q s) := by
  unfold Machine.execBankMacPerform
  dsimp only [Keeps]
  split
  · exact h.serve fun h => h.serveMac
  · exact h

theorem State.MemOk.servePort {pn : Nat} {t : Entry} {n from_ : Nat} (h : s.MemOk) : (s.servePort pn t n from_).MemOk :=
  h.modPort

theorem State.MemOk.skipMarkers {c k n : Nat} (h : s.MemOk) : (s.skipMarkers c k n).1.MemOk := by
  induction n generalizing s with
  | zero => exact h
  | succ n ih =>
    unfold State.skipMarkers
    split
    · exact h
    · split
      · exact h
      · split
        · exact h
        · split
          · exact ih h.portWrite
          · exact ih h.portPop

theorem State.MemOk.nextAt {c k : Nat} (h : s.MemOk) : (s.nextAt c k).1.MemOk := h.skipMarkers

theorem State.MemOk.nextAt_eq {c k : Nat} {t : Option Token} {u : State} (h : s.MemOk) (hu : s.nextAt c k = (u, t)) : u.MemOk :=
  .of_pair hu h.nextAt

theorem State.MemOk.performInd {o : FmtE} {e k : Nat} (h : s.MemOk) : (performInd o e k s).MemOk :=
  h.trySend (h.toStack fun h => h.enqueueCmd)

theorem State.MemOk.indexRow {g q : Nat} {t : Entry} {y : Slot} {o : FmtE} {j : Nat} {act : Nat → State → State} (h : s.MemOk)
    (hact : ∀ {a s}, s.MemOk → (act a s).MemOk) :
    (s.indexRow g q t y o j act).MemOk := by
  unfold State.indexRow
  dsimp only
  refine h.engAccess fun h => ?_
  split
  · exact h.failEntry
  · exact hact h

theorem State.MemOk.gathRow1 {o : FmtE} {g q : Nat} {t : Entry} {y : Slot} (h : s.MemOk) : (gathRow1 o g q t y s).MemOk := by
  unfold Machine.gathRow1
  extract_lets c pn n served
  have hs : served.MemOk := h.servePort
  split
  · exact h
  · split
    · exact h.payloadDone
    · split
      · exact h
      · split
        · exact h
        · split
          · exact hs
          · split
            · exact hs
            · extract_lets todo
              split
              rename_i v i hv
              have hv : v.MemOk := .of_pair hv (.ite_fst hs hs.pick)
              dsimp only
              split
              · exact hv.setEntry.indexRow fun h => h.setEntry
              · exact hv.setEntry.engAccess fun h => h.setPort.setEntry

theorem State.MemOk.scatDone {g q : Nat} {t : Entry} (h : s.MemOk) : (s.scatDone g q t).MemOk := by
  unfold State.scatDone
  dsimp only
  split
  · exact h.setProg.setEntry
  · exact h

theorem State.MemOk.scatWrite {o : FmtE} {g q : Nat} {t : Entry} {r : RowPlan} (h : s.MemOk) : (scatWrite o g q t r s).MemOk :=
  h.engAccess fun h => h.engBudget fun h => h.writeRun.credits.scatDone

theorem State.MemOk.scatToken {c pn : Nat} (h : s.MemOk) : (s.scatToken c pn).1.MemOk := by
  unfold State.scatToken
  split
  · exact h
  · split
    · rename_i hu
      split
      · exact (h.nextAt_eq hu).portPop
      · exact h.nextAt_eq hu
    · exact h.nextAt

theorem State.MemOk.scatRow1 {o : FmtE} {g q : Nat} {t : Entry} {y : Slot} (h : s.MemOk) : (scatRow1 o g q t y s).MemOk := by
  unfold Machine.scatRow1
  extract_lets c pn n u rows j
  have hu : u.MemOk := h.modPort
  split
  · exact h
  · split
    · exact h
    · split
      · exact h
      · split
        · split
          · exact hu.nextAt_eq ‹_›
          · rename_i ht
            have hn := hu.nextAt_eq ht
            split
            · exact hn.failEntry
            · exact hn.portPop.payloadDone
        · split
          rename_i v tok hv
          have hv : v.MemOk := .of_pair hv (.ite_fst hu hu.scatToken)
          split
          rename_i w i hw
          have hp : w.MemOk := .of_pair hw hv.pick
          split
          · exact hp.scatWrite
          · split
            · exact hp
            · exact .ite hp.failEntry (hp.indexRow fun h => h.modPort.setEntry)

theorem State.MemOk.settleScat {g q : Nat} {t : Entry} (h : s.MemOk) : (s.settleScat g q t).MemOk := by
  unfold State.settleScat
  split
  · extract_lets last settled
    have hs : settled.MemOk := by
      refine h.foldl fun h => ?_
      split
      · split
        · exact h.writeRun.credits.scatDone
        · exact h
      · exact h
    split
    · exact hs.modPort.setEntry
    · exact hs
  · exact h

theorem State.MemOk.execGathRow {g q : Nat} (h : s.MemOk) : Keeps (execGathRow g q s) := by
  unfold Machine.execGathRow
  dsimp only [Keeps]
  split
  · exact h.serve fun h => h.gathRow1
  · exact h

theorem State.MemOk.execScatRow {g q : Nat} (h : s.MemOk) : Keeps (execScatRow g q s) := by
  unfold Machine.execScatRow
  dsimp only [Keeps]
  split
  · exact h.serve fun h => h.scatRow1
  · exact h

theorem State.MemOk.performStash {o : FmtE} {mem : Bool} {a : Access} {e k : Nat} (h : s.MemOk) : (performStash o mem a e k s).MemOk :=
  h.trySend (h.toStack fun h => h.enqueueCmd)

theorem State.MemOk.stashIssue {i : Instr} {o : FmtE} {mem : Bool} {a : Access} {f : Firing} (h : s.MemOk) :
    (stashIssue i o mem a f s).MemOk :=
  h.cmdIssue fun h => h.performStash

theorem State.MemOk.setStp {r : Nat} {b : Bool} (h : s.MemOk) : (s.setStp r b).MemOk := by
  unfold State.setStp
  split
  · exact h.modRegion
  · exact h

theorem State.MemOk.stashAccess {g q : Nat} {t : Entry} {va n : Nat} {a : Access} {act : List (Loc × Nat) → State → State} (h : s.MemOk)
    (hact : ∀ {a s}, s.MemOk → (act a s).MemOk) :
    (s.stashAccess g q t va n a act).MemOk := by
  unfold State.stashAccess
  refine h.engAccess fun h => ?_
  split
  · exact h.failEntry
  · exact hact h

theorem State.MemOk.rawWrite {ls : List (Loc × Nat)} {bs : List Byte} (h : s.MemOk) : (s.rawWrite ls bs).MemOk := by
  induction ls generalizing s bs with
  | nil => exact h
  | cons l ls ih => exact ih h.put

theorem State.MemOk.stashChunk1 {o : FmtE} {g q : Nat} {t : Entry} {y : Slot} (h : s.MemOk) : (stashChunk1 o g q t y s).MemOk := by
  unfold Machine.stashChunk1
  dsimp only
  refine .ite ?_ ?_
  · exact h
  · split
    · exact h
    · refine .ite ?_ ?_
      · exact h
      · refine .ite ?_ ?_
        · split
          · rename_i t ht
            exact h.modPort.nextAt_eq ht
          · rename_i t _ ht
            refine .ite ?_ ?_
            · exact (h.modPort.nextAt_eq ht).failEntry
            · exact (h.modPort.nextAt_eq ht).portPop
        · refine .ite ?_ ?_
          · refine .ite ?_ ?_
            · exact h.modPort.setStp.credits.setProg.modPort.payloadDone
            · exact h.modPort.setStp.credits.setProg.modPort
          · refine h.modPort.setStp.stashAccess fun h => ?_
            refine .ite ?_ ?_
            · exact h.rawWrite.credits.setProg.modPort.payloadDone
            · exact h.rawWrite.credits.setProg.modPort

theorem State.MemOk.execStashChunk {g q : Nat} (h : s.MemOk) : Keeps (execStashChunk g q s) := by
  unfold Machine.execStashChunk
  dsimp only [Keeps]
  split
  · exact h.serve fun h => h.stashChunk1
  · exact h

theorem State.MemOk.unstashPort1 {o : FmtE} {g q : Nat} {t : Entry} {y : Slot} (h : s.MemOk) : (unstashPort1 o g q t y s).MemOk := by
  unfold Machine.unstashPort1
  dsimp only
  split
  · exact h.payloadDone
  · split
    · exact h
    · split
      · exact h
      · split
        · exact h.servePort
        · split
          · exact h.servePort
          · exact h.servePort.stashAccess fun h => h.setStp.modPort

theorem State.MemOk.unstashWrite {o : FmtE} {g q : Nat} {y : Slot} {n : Nat} {t : Entry} (h : s.MemOk) :
    (unstashWrite o g q y n t s).MemOk := by
  induction n generalizing s t with
  | zero => exact h
  | succ n ih =>
    refine h.engAccess fun h => h.engBudget fun h => ?_
    dsimp only
    split
    · exact ih h.writeRun.setEntry
    · split
      · exact h.writeRun.credits.setProg.setEntry.payloadDone
      · exact h.writeRun.credits.setProg.setEntry

theorem State.MemOk.unstashMem1 {o : FmtE} {g q : Nat} {t : Entry} {y : Slot} (h : s.MemOk) : (unstashMem1 o g q t y s).MemOk := by
  unfold Machine.unstashMem1
  dsimp only
  split
  · exact h.payloadDone
  · split
    · exact h.unstashWrite
    · exact h.stashAccess fun h => h.setStp.setEntry.unstashWrite

theorem State.MemOk.unstashChunk1 {o : FmtE} {g q : Nat} {t : Entry} {y : Slot} (h : s.MemOk) : (unstashChunk1 o g q t y s).MemOk := by
  unfold Machine.unstashChunk1
  split
  · exact h
  · split
    · exact h.unstashMem1
    · exact h.unstashPort1

theorem State.MemOk.execUnstashChunk {g q : Nat} (h : s.MemOk) : Keeps (execUnstashChunk g q s) := by
  unfold Machine.execUnstashChunk
  dsimp only [Keeps]
  split
  · exact h.serve fun h => h.unstashChunk1
  · exact h

theorem State.MemOk.performColl {o : FmtE} {e k : Nat} (h : s.MemOk) : (performColl o e k s).MemOk := by
  unfold Machine.performColl
  refine h.trySend fun {_} => ?_
  refine h.irrevocable fun h => ?_
  split
  · exact h.enqueueCmd
  · exact h

theorem State.MemOk.startColl {t : Entry} {gid : Nat} (h : s.MemOk) : (s.startColl t gid).1.MemOk := by
  unfold State.startColl
  dsimp only
  split <;> exact h

theorem State.MemOk.collChunk {o : FmtE} {peers : List PeerColl} {gr : Group} {g q : Nat} {t : Entry} {y : Slot} (h : s.MemOk) :
    (collChunk o peers gr g q t y s).MemOk := by
  unfold Machine.collChunk
  dsimp only
  refine .ite ?_ ?_
  · exact h
  · refine h.engAccess fun h => h.engAccess fun h => h.engBudget fun h => ?_
    refine .ite ?_ ?_
    · exact .payloadDone (.setEntry (.setProg (.credits (.writeRun (.spend h)))))
    · exact .setEntry (.setProg (.credits (.writeRun (.spend h))))

theorem State.MemOk.collStep {o : FmtE} {peers : List PeerColl} {g q : Nat} {t : Entry} {y : Slot} (h : s.MemOk) :
    (collStep o peers g q t y s).MemOk := by
  unfold Machine.collStep
  dsimp only
  split
  · exact h
  · split
    · exact h.payloadDone
    · refine h.engAccess fun h => ?_
      split
      · exact h.failEntry
      · refine h.engAccess fun h => ?_
        split
        · exact h.startColl.setEntry.failEntry
        · split
          · exact h.startColl.setEntry.failEntry
          · split
            · exact h.startColl.setEntry
            · split
              · exact h.startColl.setEntry.failEntry
              · split
                · exact h.startColl.setEntry
                · exact h.startColl.setEntry.collChunk

theorem State.MemOk.execCollMatch {g q : Nat} {peers : List PeerColl} (h : s.MemOk) : Keeps (execCollMatch g q peers s) := by
  unfold Machine.execCollMatch
  dsimp only [Keeps]
  split
  · exact h.serve fun h => h.collStep
  · exact h

end Sys2Proof.Machine
end

section
/-! SUPPORT. Canonical memories through the matrix passes, the records and the integrator (O56). -/

namespace Sys2Proof.Machine

open Sys2Proof

variable {s : State}

theorem State.MemOk.addRect {r : Region} {m : Rect} (h : s.MemOk) : (s.addRect r m).MemOk := by
  unfold State.addRect
  dsimp only
  split
  · exact (h.foldl fun h => h.modElem).modRegion
  · exact h.foldl fun h => h.modElem

theorem State.MemOk.performMxEnter {split : Bool} {e k : Nat} (h : s.MemOk) : (performMxEnter split e k s).MemOk := by
  unfold Machine.performMxEnter
  refine h.trySlot fun {_} => ?_
  split
  · exact h
  · exact (h.foldl fun h => h.addRect).performed

theorem State.MemOk.mxEnter {i : Instr} {o : FmtE} {split : Bool} {f : Firing} (h : s.MemOk) : (mxEnter i o split f s).MemOk :=
  h.cmdIssue fun h => h.performMxEnter

theorem State.MemOk.performMxLeave {e k : Nat} (h : s.MemOk) : (performMxLeave e k s).MemOk := by
  unfold Machine.performMxLeave
  dsimp only
  refine h.trySlot fun {_} => ?_
  split
  · exact h.performed
  · split
    · exact h.performed
    · split
      · exact h
      · exact (h.foldl fun h => (h.foldl fun h => h.foldl fun h => h.modElem).modRegion).performed

theorem State.MemOk.performMxwld {o : FmtE} {e k : Nat} (h : s.MemOk) : (performMxwld o e k s).MemOk := by
  unfold Machine.performMxwld
  dsimp only
  refine h.trySlot fun {_} => ?_
  refine .ite ?_ ?_
  · exact h.failSlot
  · refine .ite ?_ ?_
    · exact h
    · refine h.portAccess fun h => ?_
      refine .ite ?_ ?_
      · exact (h.foldl fun h => h.modElem).setSlot
      · exact (h.foldl fun h => h.modElem).performed

theorem State.MemOk.performMxc {e k : Nat} (h : s.MemOk) : (performMxc e k s).MemOk := by
  unfold Machine.performMxc
  split
  · split
    · exact h.performed
    · exact h
  · exact h

theorem State.MemOk.finishMxc {e k : Nat} {d : Dst} (h : s.MemOk) : (s.finishMxc e k d).MemOk := by
  unfold State.finishMxc
  dsimp only
  split
  · exact h
  · exact h.completeWith

theorem State.MemOk.performMxacc {o : FmtE} {e k : Nat} (h : s.MemOk) : (performMxacc o e k s).MemOk := by
  unfold Machine.performMxacc
  dsimp only
  refine h.trySlot fun {_} => ?_
  refine h.bankAccess fun h => ?_
  refine .setSlot (.formTokens ?_)
  split
  · exact h.bankWrite
  · exact h

theorem State.MemOk.execMxacc {t : TU} {o : FmtE} (h : s.MemOk) : Keeps (execMxacc t o s) := by
  unfold Machine.execMxacc
  dsimp only [Keeps]
  refine h.fire fun h => ?_
  refine State.MemOk.cmdIssue ?_ fun h => h.performMxacc
  split
  · exact h.keepPlaces
  · exact h

theorem State.MemOk.setRect {rn n : Nat} {m : Rect} (h : s.MemOk) : (s.setRect rn n m).MemOk := h.modRegion

theorem State.MemOk.failNode {rn e : Nat} (h : s.MemOk) : (s.failNode rn e).MemOk := h.raiseFault

theorem State.MemOk.nodeTake {rn : Nat} {r : Region} {m : Rect} {mops : Nat → Bool} {act : Nat → State → State} (h : s.MemOk)
    (hact : ∀ {a s}, s.MemOk → (act a s).MemOk) :
    (s.nodeTake rn r m mops act).MemOk := by
  unfold State.nodeTake
  dsimp only
  split
  · split
    · exact h.modElem.failNode
    · split
      · exact hact h
      · exact h
  · exact h

theorem State.MemOk.nodeDequeue {r : Region} {m : Rect} (h : s.MemOk) : (s.nodeDequeue r m).MemOk := h.modElem

theorem State.MemOk.fillFor {e a n : Nat} (h : s.MemOk) : (s.fillFor e a n).MemOk := h.foldl fun h => h.fillGranule

theorem State.MemOk.takePort {e : Nat} (h : s.MemOk) : (s.takePort e).MemOk := h.modElem

theorem State.MemOk.accRow {r : Region} {m : Rect} {acc : Bool} {j c : Nat} {sums : List W32} (h : s.MemOk) :
    (s.accRow r m acc j c sums).MemOk :=
  h.takePort.fillFor.bankTake

theorem State.MemOk.dropMarkers {r : Region} {m : Rect} {vs : List Wave} (h : s.MemOk) : (s.dropMarkers r m vs).MemOk := by
  unfold State.dropMarkers
  refine h.foldl fun h => ?_
  split
  · split
    · exact h.modElem
    · exact h
  · exact h

theorem State.MemOk.supply {r : Region} {m : Rect} {v : Wave} (h : s.MemOk) : (s.supply r m v).1.MemOk := by
  unfold State.supply
  dsimp only
  split
  · exact h.takePort.fillFor
  · split
    · exact h.modElem
    · exact h

theorem State.MemOk.moveWave {r : Region} {m : Rect} {v : Wave} (h : s.MemOk) : (s.moveWave r m v).1.MemOk := by
  unfold State.moveWave
  dsimp only
  split
  · refine State.MemOk.accRow ?_
    split
    · exact h.supply
    · exact h
  · split
    · exact h.supply
    · exact h

theorem State.MemOk.movePass {rn n : Nat} {supply : Bool} (h : s.MemOk) : (s.movePass rn n supply).MemOk := by
  unfold State.movePass
  split
  · exact h
  · refine .ite h (.ite h.dropMarkers.setRect (State.MemOk.setRect ?_))
    exact h.foldl_fst fun h => State.MemOk.moveWave h

theorem State.MemOk.acceptMma {rn n p : Nat} (h : s.MemOk) : (s.acceptMma rn n p).MemOk := by
  unfold State.acceptMma
  split
  · exact h
  · split
    · exact h.nodeDequeue.setRect
    · split
      · exact h.setRect.askCut
      · exact h

theorem State.MemOk.execMma {rn n : Nat} (h : s.MemOk) : Keeps (execMma rn n s) := by
  unfold Machine.execMma
  dsimp only [Keeps]
  split
  · exact h
  · split
    · exact h.setRect.askSecond
    · refine State.MemOk.nodeTake ?_ fun h => h.acceptMma
      split
      · exact h
      · exact h.movePass

theorem State.MemOk.execSwapw {rn n : Nat} (h : s.MemOk) : Keeps (execSwapw rn n s) := by
  unfold Machine.execSwapw
  dsimp only [Keeps]
  split
  · exact h
  · exact h.nodeTake fun h => h.nodeDequeue.foldl fun h => h.modElem

theorem State.MemOk.execFlush {rn n : Nat} (h : s.MemOk) : Keeps (execFlush rn n s) := by
  unfold Machine.execFlush
  dsimp only [Keeps]
  split
  · exact h
  · exact h.nodeTake fun h => h.nodeDequeue.setRect

theorem State.MemOk.execFlushMark {rn n : Nat} (h : s.MemOk) : Keeps (execFlushMark rn n s) := by
  unfold Machine.execFlushMark
  dsimp only [Keeps]
  split
  · exact h
  · refine .ite ?_ (State.MemOk.setRect ?_)
    all_goals
      refine h.foldl_fst fun h => ?_
      split
      · exact h.modElem
      · exact h

theorem State.MemOk.ownWrite {p va : Nat} {bs : List Byte} {a : Access} {u : State} (h : s.MemOk) (hu : s.ownWrite p va bs a = .ok u) :
    u.MemOk := by
  unfold State.ownWrite at hu
  split at hu
  · cases hu
    exact h.writeRun
  · cases hu
  · cases hu

theorem State.MemOk.irq {p vec : Nat} (h : s.MemOk) : (s.irq p vec).MemOk := h

theorem State.MemOk.countFlts {p lo width : Nat} (h : s.MemOk) : (s.countFlts p lo width).MemOk := h.modPart

theorem State.MemOk.number {p : Nat} {f : FaultRec} (h : s.MemOk) : (s.number p f).1.MemOk := h.modPart

theorem State.MemOk.setModReg {o v : Nat} (h : s.MemOk) : (s.setModReg o v).MemOk := h

theorem State.MemOk.moduleWrite {f : FaultRec} {u : State} (h : s.MemOk) (hu : s.moduleWrite f = some u) : u.MemOk := by
  unfold State.moduleWrite at hu
  dsimp only at hu
  split at hu
  · cases hu
  · cases hu
    split
    · exact h.devWrite.setModReg.irq
    · exact h.devWrite.setModReg

theorem State.MemOk.flushModule {n : Nat} (h : s.MemOk) : (s.flushModule n).MemOk := by
  induction n generalizing s with
  | zero => exact h
  | succ n ih =>
    unfold State.flushModule
    split
    · exact h
    · split
      · rename_i hu
        have ht := h.moduleWrite hu
        exact ih ht
      · exact h

theorem State.MemOk.postModule {f : FaultRec} (h : s.MemOk) : (s.postModule f).MemOk := .flushModule h

theorem State.MemOk.ringWrite {p : Nat} {f : FaultRec} (h : s.MemOk) : (s.ringWrite p f).1.MemOk := by
  unfold State.ringWrite
  dsimp only
  split
  · exact h
  · split
    · rename_i t ht
      split
      · exact ((h.ownWrite ht).modPart).irq
      · exact (h.ownWrite ht).modPart
    · split
      · exact h
      · exact h.modPart.postModule

theorem State.MemOk.postTransient {p : Nat} {f : FaultRec} (h : s.MemOk) : (s.postTransient p f).MemOk := by
  unfold State.postTransient
  dsimp only
  split
  · split
    · exact h.number.ringWrite
    · exact .countFlts h.number.ringWrite
  · exact h.countFlts

theorem State.MemOk.transient {rn : Nat} {f : FaultRec} (h : s.MemOk) : (s.transient rn f).MemOk := by
  unfold State.transient
  split
  · exact h.countFlts.postTransient
  · exact h

theorem State.MemOk.postRecord {p : Nat} {f : FaultRec} {reg : Option Nat} (h : s.MemOk) : (s.postRecord p f reg).1.MemOk := by
  unfold State.postRecord
  dsimp only
  split
  · split
    · exact h.number.ringWrite
    · split
      · exact h.number.ringWrite.modPart.modRegion
      · exact h.number.ringWrite.modPart
  · split
    · exact h.number.modPart.modRegion
    · exact h.number.modPart

theorem State.MemOk.recordDone {p : Nat} {reg : Option Nat} (h : s.MemOk) : (s.recordDone p reg).MemOk := by
  unfold State.recordDone
  dsimp only
  split
  · exact h
  · exact h.modRegion

theorem State.MemOk.flushRecs {p n : Nat} (h : s.MemOk) : (s.flushRecs p n).MemOk := by
  induction n generalizing s with
  | zero => exact h
  | succ n ih =>
    unfold State.flushRecs
    split
    · exact h
    · dsimp only
      split
      · exact ih h.ringWrite.modPart.recordDone
      · exact h.ringWrite

theorem State.MemOk.retryRing {p : Nat} (h : s.MemOk) : (s.retryRing p).MemOk := h.flushRecs

theorem State.MemOk.stepClock (h : s.MemOk) : (s.stepClock).MemOk := by
  unfold State.stepClock
  dsimp only
  refine h.foldl fun h => ?_
  split
  · exact h
  · exact h.setCore

theorem State.MemOk.modIsteps {c : Nat} {f : Slot → Slot} (h : s.MemOk) : (s.modIsteps c f).MemOk := by
  unfold State.modIsteps
  dsimp only
  refine h.foldl fun h => ?_
  split
  · exact h
  · split
    · exact h
    · exact h.setElem

theorem State.MemOk.noteStop {c d cause : Nat} (h : s.MemOk) : (s.noteStop c d cause).MemOk := h.modIsteps

theorem State.MemOk.stepStops {c : Nat} (h : s.MemOk) : (s.stepStops c).MemOk := h.modIsteps

theorem State.MemOk.countStep {c d : Nat} (h : s.MemOk) : (s.countStep c d).MemOk := h.modIsteps

theorem State.MemOk.stopDomain {c d cause who : Nat} (h : s.MemOk) : (s.stopDomain c d cause who).MemOk :=
  h.setCore.noteStop.stepStops

theorem State.MemOk.reportIov {c d : Nat} (h : s.MemOk) : (s.reportIov c d).MemOk := by
  unfold State.reportIov
  dsimp only
  split
  · exact h.postRecord
  · exact h

theorem State.MemOk.domainStep {c d : Nat} (h : s.MemOk) : (s.domainStep c d).MemOk := by
  unfold State.domainStep
  dsimp only
  split
  · exact h
  · split
    · exact h.setCore.countStep.stopDomain.reportIov
    · exact h.setCore.countStep.stopDomain.reportIov
    · exact h.setCore.countStep

theorem State.MemOk.exhaust {c d : Nat} (h : s.MemOk) : (s.exhaust c d).MemOk := by
  unfold State.exhaust
  dsimp only
  split
  · exact h.stopDomain
  · exact h

theorem State.MemOk.lastSteps {cores : List Nat} (h : s.MemOk) : (s.lastSteps cores).MemOk :=
  (h.foldl fun h => h.domainStep).foldl fun h => h.exhaust

theorem State.MemOk.markEvent {c d : Nat} (h : s.MemOk) : (s.markEvent c d).MemOk := by
  unfold State.markEvent
  dsimp only
  split
  · exact h
  · split
    · split
      · exact h
      · exact h.setCore.modElem
    · exact h

theorem State.MemOk.noPerf {i0 i1 : Nat} (h : s.MemOk) : (noPerf i0 i1 s).MemOk := h

theorem State.MemOk.intIssue {i : Instr} {a b c : VW} {bad : Slot → Option (Nat × Nat)} {f : Firing} (h : s.MemOk) :
    (intIssue i a b c bad f s).MemOk :=
  h.cmdIssue fun h => h.noPerf

theorem State.MemOk.execIsamp {t : TU} {o : FmtE} (h : s.MemOk) : Keeps (execIsamp t o s) := by
  unfold Machine.execIsamp
  dsimp only [Keeps]
  refine h.fire fun h => ?_
  refine State.MemOk.intIssue ?_
  split
  · exact h.keepPlaces
  · exact h

theorem State.MemOk.arrDone {e k : Nat} {a : IArray} {v : Nat} (h : s.MemOk) : (s.arrDone e k a v).MemOk :=
  h.modCore.performed

theorem State.MemOk.istep {e k : Nat} {y : Slot} {keep : Bool} (h : s.MemOk) : (s.istep e k y keep).MemOk := by
  unfold State.istep
  dsimp only
  refine .stepStops (.setSlot ?_)
  refine h.foldl_fst fun h => ?_
  split
  · exact h.stopDomain
  · exact h.setCore

theorem State.MemOk.saveRecs {e k n : Nat} {bs : List Byte} {m : Nat} (h : s.MemOk) : (s.saveRecs e k n bs m).MemOk := by
  induction m generalizing s with
  | zero => exact h
  | succ m ih =>
    unfold State.saveRecs
    split
    · exact h
    · extract_lets a i go
      have hgo : go.MemOk := by
        refine h.portAccess fun h => ?_
        dsimp only
        split
        · exact h.bankWrite.setSlot
        · exact h.bankWrite.performed
      split
      · split
        · exact hgo
        · exact ih hgo
      · exact hgo

theorem State.MemOk.performInt {e k : Nat} (h : s.MemOk) : (performInt e k s).MemOk := by
  unfold Machine.performInt
  dsimp only
  split
  · exact h
  · split
    · exact h
    · split
      · exact h.failSlot
      · split
        · split
          · exact h.failSlot
          · split
            · exact h.arrDone
            · exact h
        · split
          · exact h.arrDone
          · exact h
        · split
          · exact h.arrDone
          · exact h
        · exact h.performed
        · exact h.istep
        · split
          · exact h
          · exact h.saveRecs
        · split
          · exact h
          · refine h.portAccess fun h => ?_
            split
            · exact h.failSlot
            · exact h.arrDone
        · exact h.arrDone
        · exact h.formTokens.setSlot
        · exact h

theorem State.MemOk.finishIstep {e k : Nat} {d : Dst} (h : s.MemOk) : (s.finishIstep e k d).MemOk := by
  unfold State.finishIstep
  split
  · split
    · exact h.finishWord
    · exact h
  · exact h

end Sys2Proof.Machine
end

section
/-! SUPPORT. Canonical memories through loading, the system commands and what a slot, an engine and the scheduler perform (O56). -/

namespace Sys2Proof.Machine

open Sys2Proof

variable {s : State}

theorem State.MemOk.startQuarter {e q : Nat} {base phys : W64} (h : s.MemOk) : (s.startQuarter e q base phys).MemOk := by
  unfold State.startQuarter
  dsimp only
  split
  · exact h.fillTlb.setElem
  · exact h.fillTlb.setElem
  · exact h.fillTlb.recall
  · split <;> exact h.fillTlb.setElem

theorem State.MemOk.startImage {rn : Nat} {r : Region} {im : Image} {b : Bound} {cold : Bool} (h : s.MemOk) :
    (s.startImage rn r im b cold).MemOk :=
  ((h.foldl fun h => h.setElem).foldl fun h => h.modCore).foldl fun h => h.startQuarter

theorem State.MemOk.performNow {e k : Nat} (h : s.MemOk) : (performNow e k s).MemOk := h.trySlot h.performed

theorem State.MemOk.finishWrsr {e k : Nat} {o : FmtE} (h : s.MemOk) : (s.finishWrsr e k o).MemOk := by
  unfold State.finishWrsr
  dsimp only
  split
  · exact h
  · exact .ite (.ite h.completeWith h.completeWith.modPart) h.completeWith

theorem State.MemOk.finishTime {e k : Nat} {o : FmtE} (h : s.MemOk) : (s.finishTime e k o).MemOk := by
  unfold State.finishTime
  dsimp only
  split
  · exact h
  · exact h.completeWith

theorem State.MemOk.finishCfgw {e k : Nat} {o : FmtE} (h : s.MemOk) : (s.finishCfgw e k o).MemOk := by
  unfold State.finishCfgw
  dsimp only
  split
  · split
    · exact h
    · split
      · exact h.completeWith
      · refine State.MemOk.completeWith ?_
        split
        · exact h.modElem.changed
        · exact h
  · exact h

theorem State.MemOk.performWaita {o : FmtE} {e k : Nat} (h : s.MemOk) : (performWaita o e k s).MemOk := by
  unfold Machine.performWaita
  dsimp only
  refine h.trySlot fun {_} => ?_
  refine h.elemAccess fun h => ?_
  split
  · exact h.recall.modElem.testElem.performed
  · exact h

theorem State.MemOk.finishWaita {e k : Nat} {o : FmtE} (h : s.MemOk) : (s.finishWaita e k o).MemOk := by
  unfold State.finishWaita
  split
  · exact h
  · exact h.completeWith

theorem State.MemOk.watchMark1 {e w : Nat} (h : s.MemOk) : (s.watchMark1 e w).MemOk := by
  unfold State.watchMark1
  split
  · exact h
  · split
    · exact h.setElem
    · exact h

theorem State.MemOk.setQueue {p q : Nat} {x : LQueue} (h : s.MemOk) : (s.setQueue p q x).MemOk := h.modPart

theorem State.MemOk.armUnit {rn j : Nat} (h : s.MemOk) : (s.armUnit rn j).MemOk := by
  unfold State.armUnit
  dsimp only
  split
  · exact h
  · exact h.setRegion.foldl fun h => h.modCore

theorem State.MemOk.performRpull {e k : Nat} (h : s.MemOk) : (performRpull e k s).MemOk := by
  unfold Machine.performRpull
  refine h.trySlot fun {_} => ?_
  split
  · exact h
  · split
    · exact h.slotCut.modRegion
    · exact h

theorem State.MemOk.servePulls {rn : Nat} {xs : List (Nat × Nat)} (h : s.MemOk) : (s.servePulls rn xs).MemOk := by
  induction xs generalizing s with
  | nil => exact h
  | cons x xs ih =>
    unfold State.servePulls
    split
    · refine .ite (ih h.modRegion) (.ite (ih h) ?_)
      split
      · exact ih h.modRegion.performed
      · exact .ite (ih h.modRegion.modRegion.performed.askSecond) (ih h.modRegion.modRegion.armUnit.performed.askSecond)
    · exact ih h

theorem State.MemOk.pushEntry {p q : Nat} {ls : List (Loc × Nat)} {rec : Nat} (h : s.MemOk) : (s.pushEntry p q ls rec).MemOk :=
  h.writeRun.setQueue

theorem State.MemOk.performLnch {e k : Nat} (h : s.MemOk) : (performLnch e k s).MemOk := by
  unfold Machine.performLnch
  dsimp only
  refine h.trySlot fun {_} => ?_
  split
  · split
    · exact h.slotCut
    · exact h
  · split
    · exact h.performed.askSecond
    · exact h.elemAccess fun h => h.pushEntry.performed.askSecond

theorem State.MemOk.takeSave {rn : Nat} {u : State} (h : s.MemOk) (hu : s.takeSave rn = some u) : u.MemOk := by
  unfold State.takeSave at hu
  split at hu
  · cases hu
  · split at hu
    · cases hu
      exact h
    · obtain ⟨a, -, rfl⟩ := Option.map_eq_some_iff.1 hu
      exact h.modPart.modRegion

theorem State.MemOk.freeSave {rn : Nat} (h : s.MemOk) : (s.freeSave rn).MemOk := by
  unfold State.freeSave
  split
  · exact h
  · split
    · exact h
    · exact h.modPart.modRegion

theorem State.MemOk.performFrz {o : FmtE} {e k : Nat} (h : s.MemOk) : (performFrz o e k s).MemOk := by
  unfold Machine.performFrz
  refine h.trySlot fun {_} => ?_
  split
  · exact h.performed
  · split
    · exact h.performed
    · rename_i t ht
      exact ((h.takeSave ht).setSlot).modRegion

theorem State.MemOk.holdAll {us : List (Nat × Slot)} {ls : List (Loc × Nat)} (h : s.MemOk) : (s.holdAll us ls).MemOk := by
  unfold State.holdAll
  refine h.foldl fun h => ?_
  refine h.foldl fun h => ?_
  split
  · exact h
  · exact h.foldl fun h => h.holdLine

theorem State.MemOk.answerUpdate {e : Nat} {y : Slot} {old : Nat} (h : s.MemOk) : (s.answerUpdate e y old).MemOk := by
  unfold State.answerUpdate
  split
  · exact h
  · split
    · exact h.performed
    · exact h

theorem State.MemOk.applied {us : List (Nat × Slot)} (h : s.MemOk) : (s.applied us).MemOk := by
  unfold State.applied
  refine h.foldl fun h => ?_
  split
  · exact h.transient
  · exact h

theorem State.MemOk.sparseUpdate1 {n : Nat} {repair : Bool} (h : s.MemOk) : (s.sparseUpdate1 n repair).MemOk := by
  unfold State.sparseUpdate1
  dsimp only
  split
  · exact h
  · split
    · exact h
    · split
      · exact h
      · split
        · split <;> exact h
        · split
          · split
            · exact .askCut h
            · refine .applied (.answerUpdate (.updateAt ?_))
              split
              · split <;> exact h
              · refine State.MemOk.holdAll ?_
                split <;> exact h
          · split <;> exact h
          · split <;> exact h

theorem State.MemOk.attemptM {i : Instr} {e k : Nat} (h : s.MemOk) : (attemptM i e k s).MemOk := by
  unfold Machine.attemptM
  split
  · exact h.performBld
  · exact h.performBst
  · exact h.performBldx
  · exact h.performBstx
  · exact h.performBrmw
  · exact h.performBcas
  · exact h.performLd
  · exact h.performSt
  · exact h.performLdo
  · exact h.performLdw
  · exact h.performStw
  · exact h.performUpdate
  · exact h.performRed
  · exact h.performUpdate
  · exact h.performFence
  · exact h.performPref
  · exact h.performInv
  · exact h

theorem State.MemOk.attemptEng {i : Instr} {e k : Nat} (h : s.MemOk) : (attemptEng i e k s).MemOk := by
  unfold Machine.attemptEng
  split
  · exact h.performInd
  · exact h.performInd
  · exact h.performCopyCmd
  · exact h.performCopyCmd
  · exact h.performCopyCmd
  · exact h.performQfen
  · exact h.performRow
  · exact h.performRow
  · exact h.performStash
  · exact h.performStash
  · exact h.performColl
  · exact h.performMac
  · exact h.performMac
  · exact h.performMac
  · exact h.performMac
  · exact h.performMac
  · exact h

theorem State.MemOk.attemptCmd {i : Instr} {e k : Nat} (h : s.MemOk) : (attemptCmd i e k s).MemOk := by
  unfold Machine.attemptCmd
  split
  · exact h.performSopen
  · exact h.performSparm
  · exact h.performSclose
  · exact h.performSrec
  · exact h.performRfen
  · exact h.performBari
  · exact h.performBara
  · exact h.performBarw
  · exact h.performBart
  · exact h.performBarq
  · exact h.performMxEnter
  · exact h.performMxEnter
  · exact h.performMxLeave
  · exact h.performMxwld
  · exact h.performMxc
  · exact h.performMxacc
  · exact h.performWaita
  · exact h.performNow
  · exact h.performNow
  · exact h.performFrz
  · exact h.performRpull
  · exact h.performLnch
  · split
    · exact h.performInt
    · exact h

theorem State.MemOk.attempt {e k : Nat} (h : s.MemOk) : (s.attempt e k).MemOk := by
  unfold State.attempt
  split
  · exact h
  · split
    · exact h.attemptM
    · split
      · exact h.attemptEng
      · exact h.attemptCmd

theorem State.MemOk.finishFiring {e k : Nat} {y : Slot} (h : s.MemOk) : (s.finishFiring e k y).MemOk := by
  unfold State.finishFiring
  split
  · exact h.finishLoad
  · exact h.finishLoad
  · exact h.finishLoad
  · exact h.finishLoad
  · exact h.finishLoad
  · exact h.finishLoad
  · exact h.finishLoad
  · exact h.finishLoad
  · exact h.finishLoad
  · exact h.finishNone
  · exact h.finishNone
  · exact h.finishNone
  · exact h.finishNone
  · exact h.finishNone
  · exact h.finishNone
  · exact h.finishNone
  · exact h.finishNone
  · exact h.finishBarw
  · exact h.finishWord
  · exact h.finishWord
  · exact h.finishIstep
  · exact h.finishMxc
  · exact h.finishWord
  · exact h.finishWrsr
  · exact h.finishTime
  · exact h.finishCfgw
  · exact h.finishWaita
  · split
    · exact h.finishAlu
    · exact h.finishWord
    · exact h

theorem State.MemOk.execFiringCompletion {e k : Nat} (h : s.MemOk) : Keeps (execFiringCompletion e k s) := by
  unfold Machine.execFiringCompletion
  dsimp only [Keeps]
  split
  · split
    · exact h.finishFiring
    · exact h
  · exact h

theorem State.MemOk.enterBuffer {e k : Nat} (h : s.MemOk) : (s.enterBuffer e k).MemOk := by
  unfold State.enterBuffer
  dsimp only
  split
  · exact h
  · split
    · split
      · exact h.setElem.finishFiring
      · exact h.setElem.modElem
    · exact h

theorem State.MemOk.execOutputBufferEntry {e k : Nat} (h : s.MemOk) : Keeps (execOutputBufferEntry e k s) := by
  unfold Machine.execOutputBufferEntry
  dsimp only [Keeps]
  split
  · exact h.enterBuffer
  · exact h

theorem State.MemOk.execEngineQueueEntry {e k : Nat} (h : s.MemOk) : Keeps (execEngineQueueEntry e k s) := by
  unfold Machine.execEngineQueueEntry
  dsimp only [Keeps]
  split
  · split
    · exact h.attempt
    · exact h
  · exact h

theorem State.MemOk.serveEngine {g q : Nat} (h : s.MemOk) : Keeps (s.serveEngine g q) := by
  unfold State.serveEngine
  split
  · exact h.execCopyChunk
  · exact h.execRowTransfer
  · exact h.execBankMacPerform
  · split
    · exact h.execScatRow
    · exact h.execGathRow
  · split
    · exact h.execUnstashChunk
    · exact h.execStashChunk
  · exact h.execCollMatch

theorem State.MemOk.nextOr {o : Step1} (h : s.MemOk) (ho : Keeps o) : (nextOr o s).MemOk := by
  cases o with
  | next t => exact ho
  | fault r => exact h
  | refused r => exact h

end Sys2Proof.Machine
end

section
/-! SUPPORT. Canonical memories through saving, cutting and restoring a region (O56). -/

namespace Sys2Proof.Machine

open Sys2Proof

variable {s : State}

theorem State.MemOk.writeUnit {r : Region} {n : Snap} {at_ : Nat} (h : s.MemOk) : (s.writeUnit r n at_).MemOk := by
  unfold State.writeUnit
  dsimp only
  split
  · exact h
  · refine h.foldl fun h => ?_
    split
    · rename_i t ht
      exact h.ownWrite ht
    · exact h

theorem State.MemOk.dropEntries {rn : Nat} (h : s.MemOk) : (s.dropEntries rn).MemOk := h

theorem State.MemOk.commit {rn : Nat} {forced : Bool} {yes : Nat → Bool} (h : s.MemOk) : (s.commit rn forced yes).MemOk := by
  unfold State.commit
  dsimp only
  split
  · exact h
  · refine State.MemOk.foldl ?_ fun h => h.makeNote
    refine State.MemOk.foldl ?_ fun h => h.testWatches
    refine State.MemOk.foldl ?_ fun h => h.answer
    refine h.setRegion.foldl fun h => ?_
    split
    · exact h
    · exact h.modElem

theorem State.MemOk.drainOut {e : Nat} (h : s.MemOk) : (s.drainOut e).MemOk := by
  unfold State.drainOut
  split
  · exact h
  · extract_lets sent
    have hs : sent.MemOk := by
      refine h.foldl fun h => ?_
      dsimp only
      split
      · exact h
      · exact .ite (.tapArrival (.setElem h)) (.setElem h)
    exact .ite hs hs.modElem

theorem State.MemOk.emptyBuffer {e n : Nat} (h : s.MemOk) : (s.emptyBuffer e n).MemOk := by
  induction n generalizing s with
  | zero => exact h.drainOut
  | succ n ih =>
    unfold State.emptyBuffer
    dsimp only
    split
    · exact h.drainOut
    · refine ih ?_
      split
      · split
        · exact h.drainOut.modElem.finishFiring
        · exact h.drainOut.modElem
      · exact h.drainOut.modElem.modElem

theorem State.MemOk.landFrom {rn n i : Nat} (h : s.MemOk) : (s.landFrom rn n i).MemOk := by
  induction n generalizing s i with
  | zero => exact h
  | succ n ih =>
    unfold State.landFrom
    split
    · exact h
    · split
      · exact ih h
      · split
        · rename_i ht
          exact ih (h.reachAll_eq ht).dropFlight
        · rename_i ht
          have hu := h.reachAll_eq ht
          exact ih hu

theorem State.MemOk.landAll {rn : Nat} (h : s.MemOk) : (s.landAll rn).MemOk := by
  unfold State.landAll
  dsimp only
  refine State.MemOk.landFrom ?_
  split <;> exact h

theorem State.MemOk.land {rn : Nat} {r : Region} (h : s.MemOk) : (s.land rn r).MemOk :=
  ((h.foldl fun h => h.emptyBuffer).landAll).foldl fun h => h.countTaps

theorem State.MemOk.performHeld {rn : Nat} {r : Region} (h : s.MemOk) : (s.performHeld rn r).MemOk := by
  unfold State.performHeld
  dsimp only
  refine State.MemOk.foldl ?_ fun h => ?_
  · refine State.MemOk.foldl ?_ fun h => h.setEngine.nextOr h.setEngine.serveEngine
    refine (h.foldl fun h => h.foldl fun h => h.modElem.performPosted).foldl fun h => ?_
    split
    · exact .sparseUpdate1 h
    · exact h
  · refine h.foldl fun h => ?_
    split
    · split
      · exact h.setPort.portWrite
      · exact h
    · exact h

theorem State.MemOk.shadowAll {rn n : Nat} (h : s.MemOk) : (s.shadowAll rn n).MemOk := by
  unfold State.shadowAll
  dsimp only
  split
  · exact h
  · exact .modRegion ((h.foldl fun h => h.modElem).foldl fun h => h.modCore)

theorem State.MemOk.counterAdd {p addr : Nat} {d : ℤ} (h : s.MemOk) : (s.counterAdd p addr d).1.MemOk := by
  unfold State.counterAdd
  dsimp only
  split
  · exact h
  · split
    · exact h
    · rename_i t ht
      exact h.ownWrite ht

theorem State.MemOk.counterAdd_eq {p a : Nat} {d : Int} {n : Option Nat} {u : State} (h : s.MemOk) (hu : s.counterAdd p a d = (u, n)) :
    u.MemOk :=
  .of_pair hu h.counterAdd

theorem State.MemOk.unitCount1 {rn : Nat} (h : s.MemOk) : (s.unitCount1 rn).MemOk := by
  unfold State.unitCount1
  dsimp only
  split
  · exact h
  · split
    · exact h
    · split
      · exact h.setRegion
      · exact h.setRegion.counterAdd

theorem State.MemOk.cutForced {rn : Nat} (h : s.MemOk) : (s.cutForced rn).MemOk := by
  unfold State.cutForced
  split
  · exact h
  · extract_lets n landed done shadowed
    have hs : shadowed.MemOk := h.lastSteps.land.modRegion.commit.performHeld.shadowAll
    split
    · exact hs
    · extract_lets r0 snapped late released asked
      have hr : released.MemOk := .ite hs.setRegion.modRegion hs.setRegion
      have ha : asked.MemOk := .ite hr.askSecond hr
      exact .ite ha.unitCount1.askSecond ha

theorem State.MemOk.takeForced {rn : Nat} (h : s.MemOk) : (s.takeForced rn).MemOk := by
  unfold State.takeForced
  dsimp only
  split
  · exact h.cutForced
  · exact h.cutForced.servePulls

theorem State.MemOk.forcedCut1 {rn : Nat} (h : s.MemOk) : (s.forcedCut1 rn).MemOk := by
  unfold State.forcedCut1
  split
  · split
    · exact h.takeForced
    · exact h
  · exact h

theorem State.MemOk.execMarkerCutTimeout {rn : Nat} (h : s.MemOk) : Keeps (execMarkerCutTimeout rn s) := by
  unfold Machine.execMarkerCutTimeout
  dsimp only [Keeps]
  split
  · split
    · exact h.askCut
    · exact h
  · exact h

theorem State.MemOk.execSectionTokenCount {rn : Nat} (h : s.MemOk) : Keeps (execSectionTokenCount rn s) := by
  unfold Machine.execSectionTokenCount
  dsimp only [Keeps]
  split
  · split
    · exact h.setRegion
    · exact h
  · exact h

theorem State.MemOk.takeShadow {e rn n : Nat} (h : s.MemOk) : (s.takeShadow e rn n).MemOk := by
  unfold State.takeShadow
  dsimp only
  split
  · exact h.lastSteps.setElem.modRegion
  · exact h.lastSteps.setElem.modRegion.countTaps

theorem State.MemOk.execSectionShadow {e : Nat} (h : s.MemOk) : Keeps (execSectionShadow e s) := by
  unfold Machine.execSectionShadow
  dsimp only [Keeps]
  split
  · exact h.takeShadow
  · exact h

theorem State.MemOk.execStaleSectDiscard {e q : Nat} (h : s.MemOk) : Keeps (execStaleSectDiscard e q s) := by
  unfold Machine.execStaleSectDiscard
  dsimp only [Keeps]
  split
  · exact h.modElem
  · exact h

theorem State.MemOk.completeCut {rn : Nat} (h : s.MemOk) : (s.completeCut rn).MemOk := by
  unfold State.completeCut
  dsimp only
  split
  · exact h
  · split
    · exact h
    · exact h.setRegion.commit.modRegion

theorem State.MemOk.dropFaults {rn : Nat} (h : s.MemOk) : (s.dropFaults rn).MemOk := h

theorem State.MemOk.unbox {r : Region} (h : s.MemOk) : (s.unbox r).MemOk := by
  unfold State.unbox
  refine h.foldl fun h => ?_
  split
  · exact h.modCore
  · exact h

theorem State.MemOk.abandon {rn : Nat} {r : Region} (h : s.MemOk) : (s.abandon rn r).MemOk :=
  .dropFaults h.dropEntries.unbox

theorem State.MemOk.undoWrites {rn : Nat} {r : Region} (h : s.MemOk) : (s.undoWrites rn r).MemOk :=
  (h.setRegion.foldl fun h => h.devWrite).foldl fun h => h.modElem

theorem State.MemOk.replace {r : Region} (h : s.MemOk) : (s.replace r).MemOk := h

theorem State.MemOk.resendCmds {cmds : List (Nat × Nat × Entry)} (h : s.MemOk) : (s.resendCmds cmds).MemOk := by
  unfold State.resendCmds
  dsimp only
  refine h.foldl fun h => ?_
  split
  · exact h
  · split
    · exact h.setEqueue
    · exact h.setSlot

theorem State.MemOk.rebar {r : Region} (h : s.MemOk) : (s.rebar r).MemOk := by
  unfold State.rebar
  refine h.foldl fun h => ?_
  refine h.foldl fun h => ?_
  split
  · split
    · exact h.setSlot
    · exact h
  · exact h

theorem State.MemOk.leavePcs {rn : Nat} (h : s.MemOk) : (s.leavePcs rn).MemOk := h

theorem State.MemOk.enterPcs {rn : Nat} {n : Snap} (h : s.MemOk) : (s.enterPcs rn n).MemOk := by
  unfold State.enterPcs
  split <;> exact h

theorem State.MemOk.rewatch {r : Region} (h : s.MemOk) : (s.rewatch r).MemOk := by
  unfold State.rewatch
  refine h.foldl fun h => ?_
  refine h.foldl fun h => ?_
  split
  · exact h.testElem
  · exact h

theorem State.MemOk.retoken {n : Snap} (h : s.MemOk) : (s.retoken n).MemOk := h

theorem State.MemOk.loadSnap {rn : Nat} {n : Snap} {ptr : Bool} (h : s.MemOk) : (s.loadSnap rn n ptr).MemOk := by
  unfold State.loadSnap
  dsimp only
  split
  · exact h
  · exact .rewatch (.replace (.rebar (.foldl (.resendCmds
      (((((h.retoken.foldl fun h => h.setElem).foldl fun h => h.modCore).leavePcs).enterPcs).modRegion)) fun h => h.modCore)))

theorem State.MemOk.landLate {rn : Nat} {r : Region} (h : s.MemOk) : (s.landLate rn r).MemOk := by
  unfold State.landLate
  split
  · exact h
  · exact h.land.foldl fun h => h.modPort

theorem State.MemOk.rollback {rn : Nat} (h : s.MemOk) : (s.rollback rn).MemOk := by
  unfold State.rollback
  dsimp only
  split
  · exact h
  · split
    · exact h.landLate.abandon.undoWrites.modRegion.loadSnap.modRegion
    · exact h.landLate.abandon.undoWrites.modRegion.loadSnap.modRegion.modRegion

theorem State.MemOk.finishWaves {rn n : Nat} (h : s.MemOk) : (s.finishWaves rn n).MemOk := by
  induction n generalizing s with
  | zero => exact h
  | succ n ih =>
    unfold State.finishWaves
    split
    · exact h
    · split
      · exact h
      · refine ih (State.MemOk.landAll (h.foldl fun h => ?_))
        split
        · split
          · exact h
          · exact h.movePass
        · exact h

theorem State.MemOk.stopRegion {rn : Nat} {why : FreezeWhy} (h : s.MemOk) : (s.stopRegion rn why).MemOk := by
  unfold State.stopRegion
  split
  · exact h
  · extract_lets own answered cleared waves settled cut
    have ha : answered.MemOk := by
      refine h.foldl fun h => ?_
      split
      · split
        · exact h.performed.finishWord
        · exact h
      · exact h
    have hc : cut.MemOk := (ha.modRegion.lastSteps.land.finishWaves.foldl fun h => h.settleScat).cutForced
    split
    · exact hc
    · have hd := hc.dropEntries (rn := rn)
      exact State.MemOk.setRegion (State.MemOk.dropFaults hd.unbox)

theorem State.MemOk.stopShared {rn : Nat} {r : Region} {why : FreezeWhy} (h : s.MemOk) : (s.stopShared rn r why).MemOk :=
  h.stopRegion.foldl fun h => (h.getD fun ht => h.takeSave ht).stopRegion

theorem State.MemOk.freezeNow {rn : Nat} {why : FreezeWhy} (h : s.MemOk) : (s.freezeNow rn why).MemOk := by
  unfold State.freezeNow
  split
  · split
    · exact (h.getD fun ht => h.takeSave ht).stopShared
    · exact h
  · exact h

theorem State.MemOk.freezeIf {rn : Nat} {why : FreezeWhy} (h : s.MemOk) : (s.freezeIf rn why).MemOk := by
  unfold State.freezeIf
  split
  · split
    · split
      · rename_i t ht
        exact (h.takeSave ht).stopShared
      · exact h
    · exact h
  · exact h

theorem State.MemOk.freeze1 {rn : Nat} (h : s.MemOk) : (s.freeze1 rn).MemOk := by
  unfold State.freeze1
  split
  · exact h.freezeIf
  · exact h

theorem State.MemOk.returnRng {e : Nat} (h : s.MemOk) : (s.returnRng e).MemOk := by
  unfold State.returnRng
  dsimp only
  refine h.foldl fun h => ?_
  split
  · exact .devWrite h
  · exact h

theorem State.MemOk.returnMap {e : Nat} (h : s.MemOk) : (s.returnMap e).MemOk := h.foldl fun h => h.writeBack

theorem State.MemOk.vacate {rn : Nat} {r : Region} (h : s.MemOk) : (s.vacate rn r).MemOk :=
  (h.foldl fun h => h.modElem).foldl fun h => h.modCore

theorem State.MemOk.answerFrz {rn v : Nat} (h : s.MemOk) : (s.answerFrz rn v).MemOk := by
  unfold State.answerFrz
  split
  · exact h
  · exact h.setRegion.foldl fun h => h.performed

theorem State.MemOk.readOut {rn : Nat} {r : Region} (h : s.MemOk) : (s.readOut rn r).MemOk :=
  .answerFrz (.modRegion h.leavePcs.vacate)

theorem State.MemOk.readFirst {rn : Nat} (h : s.MemOk) : (s.readFirst rn).MemOk := by
  unfold State.readFirst
  dsimp only
  split
  · exact h
  · exact (h.foldl fun h => h.returnMap.returnRng).modRegion

theorem State.MemOk.readout {rn : Nat} (h : s.MemOk) : (s.readout rn).MemOk := by
  unfold State.readout
  split
  · exact h
  · extract_lets older
    split
    · exact h
    · split
      · exact h
      · rename_i t ht
        extract_lets first
        have hf : first.MemOk := .ite (h.takeSave ht).readFirst (h.takeSave ht)
        split
        · exact hf
        · exact .ite hf.writeUnit.modRegion hf.writeUnit.readOut

theorem State.MemOk.execDrain {rn : Nat} (h : s.MemOk) : Keeps (execDrain rn s) := by
  unfold Machine.execDrain
  dsimp only [Keeps]
  split
  · split
    · exact (h.getD fun ht => h.takeSave ht).modRegion
    · exact h
  · exact h

theorem State.MemOk.execTailLampPass {e : Nat} (h : s.MemOk) : Keeps (execTailLampPass e s) := by
  unfold Machine.execTailLampPass
  dsimp only [Keeps]
  split
  · exact h.modElem
  · exact h

theorem State.MemOk.leaveMatrix {rn : Nat} (h : s.MemOk) : (s.leaveMatrix rn).MemOk := by
  unfold State.leaveMatrix
  dsimp only
  split
  · exact h
  · refine h.setRegion.foldl fun h => ?_
    split
    · exact h.modElem
    · exact h

theorem State.MemOk.execDrainCompletion {rn : Nat} (h : s.MemOk) : Keeps (execDrainCompletion rn s) := by
  unfold Machine.execDrainCompletion
  dsimp only [Keeps]
  split
  · split
    · exact h.leaveMatrix.stopRegion
    · exact h
  · exact h

end Sys2Proof.Machine
end

section
/-! SUPPORT. Canonical memories through the life of a launch (O56). -/

namespace Sys2Proof.Machine

open Sys2Proof

variable {s : State}

theorem State.MemOk.popHead {p q : Nat} (h : s.MemOk) : (s.popHead p q).MemOk := h.setQueue

theorem State.MemOk.freeRegion {rn : Nat} (h : s.MemOk) : (s.freeRegion rn).MemOk := by
  unfold State.freeRegion
  dsimp only
  split
  · exact h
  · exact h.foldl fun h => h.returnRng

theorem State.MemOk.closeGraph {p a : Nat} (h : s.MemOk) : (s.closeGraph p a).MemOk := h.foldl fun h => h.freeRegion

theorem State.MemOk.postCnt {p : Nat} {l : LaunchRec} {rn : Option Nat} {a : Nat} (h : s.MemOk) : (s.postCnt p l rn a).MemOk :=
  h.postRecord

theorem State.MemOk.chainGo {p : Nat} {l : LaunchRec} {rn : Option Nat} {xs : List (Nat × Bool)} (h : s.MemOk) :
    (s.chainGo p l rn xs).MemOk := by
  induction xs generalizing s with
  | nil => exact h
  | cons x xs ih =>
    unfold State.chainGo
    split
    · exact ih h
    · split
      · rename_i hu
        exact (h.counterAdd_eq hu).postCnt
      · rename_i hu
        refine ih ?_
        split
        · exact (h.counterAdd_eq hu).closeGraph
        · exact h.counterAdd_eq hu
      · rename_i hu
        exact h.counterAdd_eq hu

theorem State.MemOk.endLaunch {p q : Nat} {l : LaunchRec} {rn : Option Nat} {status : Nat} (h : s.MemOk) :
    (s.endLaunch p q l rn status).MemOk := by
  unfold State.endLaunch
  extract_lets ended chained
  have he : ended.MemOk := by
    dsimp only [ended]
    split
    · exact h.ownWrite ‹_›
    · exact h
  exact .ite he.chainGo.irq he.chainGo

theorem State.MemOk.decrement {p a : Nat} (h : s.MemOk) : (s.decrement p a).MemOk := by
  unfold State.decrement
  split
  · exact h
  · split
    · exact h
    · rename_i t ht
      split
      · exact h.ownWrite ht
      · split
        · exact (h.ownWrite ht).modPart
        · exact h.ownWrite ht

theorem State.MemOk.releaseRec {p : Nat} {l : LaunchRec} (h : s.MemOk) : (s.releaseRec p l).MemOk :=
  h.foldl fun h => h.decrement

theorem State.MemOk.releaseRegion {rn : Nat} (h : s.MemOk) : (s.releaseRegion rn).MemOk := by
  unfold State.releaseRegion
  split
  · split
    · exact h.setRegion.releaseRec
    · exact h
  · exact h

theorem State.MemOk.execSuccessorAppend {p : Nat} (h : s.MemOk) : Keeps (execSuccessorAppend p s) := by
  unfold Machine.execSuccessorAppend
  dsimp only [Keeps]
  split
  · exact h.releaseRegion
  · split
    · exact h
    · exact h.pushEntry.modPart

theorem State.MemOk.clearRegion {rn : Nat} {r : Region} (h : s.MemOk) : (s.clearRegion rn r).MemOk :=
  ((((h.foldl fun h => h.returnMap).leavePcs).leaveMatrix).abandon).vacate

theorem State.MemOk.closeRegion {rn : Nat} {r : Region} {status : Nat} {now : Bool} (h : s.MemOk) :
    (s.closeRegion rn r status now).MemOk := by
  unfold State.closeRegion
  dsimp only
  refine State.MemOk.popHead ?_
  split
  · exact h.freeSave.answerFrz.modRegion.endLaunch.freeRegion
  · exact h.freeSave.answerFrz.modRegion.endLaunch

theorem State.MemOk.execLaunchCompletion {rn : Nat} (h : s.MemOk) : Keeps (execLaunchCompletion rn s) := by
  unfold Machine.execLaunchCompletion
  dsimp only [Keeps]
  split
  · exact h
  · split
    · exact h
    · exact h.commit.performHeld.unitCount1.releaseRegion.clearRegion.closeRegion

theorem State.MemOk.resetUnit {rn : Nat} {r : Region} (h : s.MemOk) : (s.resetUnit rn r).MemOk :=
  .foldl (h.leaveMatrix.foldl fun h => h.modElem) fun h => h.modCore

theorem State.MemOk.execUnitStart {rn : Nat} (h : s.MemOk) : Keeps (execUnitStart rn s) := by
  unfold Machine.execUnitStart
  dsimp only [Keeps]
  split
  · exact h
  · split
    · exact h
    · split
      · exact h.land
      · split
        · exact h.takeForced.unitCount1
        · split
          · exact h.takeForced.unitCount1.resetUnit.shadowAll.modRegion.armUnit
          · exact h.takeForced.unitCount1.resetUnit.shadowAll.modRegion.armUnit.setRegion

theorem State.MemOk.unqueue {p a : Nat} (h : s.MemOk) : (s.unqueue p a).MemOk := by
  unfold State.unqueue
  dsimp only
  refine State.MemOk.modPart ?_
  refine h.foldl fun h => ?_
  split
  · exact h
  · exact h.setQueue

theorem State.MemOk.cancelRegion {rn : Nat} {r : Region} {status : Nat} (h : s.MemOk) : (s.cancelRegion rn r status).MemOk := by
  unfold State.cancelRegion
  extract_lets back saved freed ended
  have hb : back.MemOk := .ite h.rollback h
  have hs : saved.MemOk := hb.freeSave
  have hf : freed.MemOk := hs
  split
  · exact State.MemOk.closeRegion (State.MemOk.clearRegion hf)
  · have he : ended.MemOk := State.MemOk.endLaunch (State.MemOk.answerFrz hf)
    clear_value ended
    exact State.MemOk.popHead he

theorem State.MemOk.cancelRec {p a status : Nat} (h : s.MemOk) : (s.cancelRec p a status).MemOk := by
  unfold State.cancelRec
  dsimp only
  split
  · split
    · exact h
    · exact h.cancelRegion
  · split
    · exact h.unqueue
    · split
      · exact h.unqueue.endLaunch
      · exact h

theorem State.MemOk.cancelAll {p : Nat} {sel : List Nat} {status : Nat} (h : s.MemOk) : (s.cancelAll p sel status).MemOk :=
  h.foldl fun h => h.cancelRec

theorem State.MemOk.execCancel {p : Nat} {v : W32} (h : s.MemOk) : Keeps (execCancel p v s) := by
  unfold Machine.execCancel
  dsimp only [Keeps]
  split
  · exact h
  · exact h.cancelAll

theorem State.MemOk.execQueueTailWrite {p q : Nat} {v : W32} (h : s.MemOk) : Keeps (execQueueTailWrite p q v s) := by
  unfold Machine.execQueueTailWrite
  dsimp only [Keeps]
  split
  · exact h
  · exact h.setQueue

theorem State.MemOk.execQctlWrite {p q : Nat} {v : W32} (h : s.MemOk) : Keeps (execQctlWrite p q v s) := by
  unfold Machine.execQctlWrite
  dsimp only [Keeps]
  split
  · exact h
  · exact h.setQueue

end Sys2Proof.Machine
end

section
/-! SUPPORT. Canonical memories through faults, translations and the placing of regions (O56). -/

namespace Sys2Proof.Machine

open Sys2Proof

variable {s : State}

theorem State.MemOk.serveAlone {g q : Nat} (h : s.MemOk) : (s.serveAlone g q).MemOk := h.nextOr h.setEngine.serveEngine

theorem State.MemOk.again {f : PendFault} (h : s.MemOk) : (s.again f).MemOk := by
  unfold State.again
  split
  · split
    · split
      · exact h.finishFiring
      · exact h.attempt
    · exact h
  · split
    · split
      · exact h.makeNote
      · exact h
    · exact h.serveAlone
  · split
    · exact h.portWrite
    · exact h.portRead
  · exact h.performPosted
  · exact h.tapArrival
  · exact h

theorem State.MemOk.lasting {rn : Nat} {f : FaultRec} {a : FaultAt} (h : s.MemOk) : (s.lasting rn f a).MemOk := by
  unfold State.lasting
  dsimp only
  split
  · exact h
  · split
    · exact h.postRecord
    · split
      · exact h.postRecord.cancelAll
      · split
        · exact h.freezeNow.postRecord
        · split
          · exact h.freezeNow.postRecord
          · exact h.rollback.modRegion.postRecord

theorem State.MemOk.postVio {p : Nat} {f : FaultRec} {reg : Option Nat} {what : VioAt} (h : s.MemOk) : (s.postVio p f reg what).MemOk :=
  h.postRecord.postModule

theorem State.MemOk.violation {f : PendFault} (h : s.MemOk) : (s.violation f).MemOk := by
  unfold State.violation
  split
  · exact h
  · split
    · exact h.postVio
    · exact h.freezeNow.postVio

theorem State.MemOk.execVioRelease {v : W32} (h : s.MemOk) : Keeps (execVioRelease v s) := by
  unfold Machine.execVioRelease
  dsimp only [Keeps]
  split
  · exact h
  · split
    · exact h
    · exact .hold h
    · exact h

theorem State.MemOk.request {f : PendFault} {u : State} (h : s.MemOk) (hu : s.request f = some u) : u.MemOk := by
  unfold State.request at hu
  split at hu
  · cases hu
    exact h
  · dsimp only at hu
    split at hu
    · cases hu
      exact h.postRecord
    · split at hu
      · cases hu
      · cases hu
        exact h

theorem State.MemOk.faultStep {n : Nat} (h : s.MemOk) : (s.faultStep n).MemOk := by
  unfold State.faultStep
  split
  · exact h
  · extract_lets s0
    have h0 : s0.MemOk := h
    refine .ite h (.ite h0 (.ite (h.getD h0.request) (.ite h0.violation ?_)))
    split
    · exact h0.lasting
    · exact .ite h0.lasting h0.hold.transient
    · extract_lets t
      have ht : t.MemOk := h0.hold.again
      exact .ite (State.MemOk.lasting ht) (.ite ht.transient ht.hold)

theorem State.MemOk.mapped {p : Nat} {f : PendFault} (h : s.MemOk) : (s.mapped p f).MemOk := .again (.hold (.fillTlb h))

theorem State.MemOk.execPgrspWrite {p : Nat} {v : W64} (h : s.MemOk) : Keeps (execPgrspWrite p v s) := by
  unfold Machine.execPgrspWrite
  dsimp only [Keeps]
  split
  · exact h
  · split
    · split
      · exact h
      · exact h.fillTlb
    · split
      · exact .lasting h
      · exact .mapped h

theorem State.MemOk.askAgain {t : PageReq} (h : s.MemOk) : (s.askAgain t).MemOk := by
  unfold State.askAgain
  split <;> exact h

theorem State.MemOk.execPageResponse {tag fn : Nat} {g ok : Bool} (h : s.MemOk) : Keeps (execPageResponse tag fn g ok s) := by
  unfold Machine.execPageResponse
  dsimp only [Keeps]
  split
  · split
    · exact h.countFlts
    · exact h
  · split
    · split
      · exact .countFlts (.askAgain h)
      · exact .askAgain h
    · split
      · split
        · exact h.countFlts
        · exact h
      · split
        · exact h
        · split
          · exact h
          · split
            · exact .again (.hold h)
            · exact .lasting h

theorem State.MemOk.execFunctionLevelReset {f : Nat} (h : s.MemOk) : Keeps (execFunctionLevelReset f s) := by
  unfold Machine.execFunctionLevelReset
  dsimp only [Keeps]
  split <;> exact h

theorem State.MemOk.execRetiredTagTimeout {tag : Nat} (h : s.MemOk) : Keeps (execRetiredTagTimeout tag s) := by
  unfold Machine.execRetiredTagTimeout
  dsimp only [Keeps]
  split
  · split
    · split
      · exact .askAgain h
      · exact h
    · exact h
  · exact h

theorem State.MemOk.releaseCut {rn : Nat} (h : s.MemOk) : (s.releaseCut rn).MemOk := by
  unfold State.releaseCut
  extract_lets t
  have ht : t.MemOk := h.rollback
  split
  · exact ht
  · extract_lets ups u late there cut _ _ _ v w
    have hw : w.MemOk := by
      refine (State.MemOk.setRegion ht.abandon).foldl fun h => ?_
      split
      · exact h
      · exact h.modElem
    exact hw.getD hw.takeSave

theorem State.MemOk.execCutRelease {rn : Nat} (h : s.MemOk) : Keeps (execCutRelease rn s) := by
  unfold Machine.execCutRelease
  dsimp only [Keeps]
  split
  · exact h
  · split
    · exact h
    · split
      · exact h
      · exact h.releaseCut.postRecord

theorem State.MemOk.execSidedTokenReentry {n : Nat} {ok : Bool} (h : s.MemOk) : Keeps (execSidedTokenReentry n ok s) := by
  unfold Machine.execSidedTokenReentry
  dsimp only [Keeps]
  split
  · exact h
  · split
    · exact h
    · split
      · exact h
      · exact .lasting h

theorem State.MemOk.meets {a : FaultAt} {code : Nat} {raise : State → State} (h : s.MemOk) (hraise : ∀ {s}, s.MemOk → (raise s).MemOk) :
    (s.meets a code raise).MemOk := by
  unfold State.meets
  split
  · split
    · exact .lasting h
    · exact h
  · exact hraise h

theorem State.MemOk.slotError {e k code : Nat} {y : Slot} (h : s.MemOk) : (s.slotError e k code y).MemOk := by
  unfold State.slotError
  refine h.meets fun h => ?_
  split
  · exact h.failSlot
  · exact h

theorem State.MemOk.entryError {t : Nat × Nat × Entry} {code : Nat} {y : Slot} (h : s.MemOk) : (s.entryError t code y).MemOk := by
  unfold State.entryError
  refine h.meets fun h => ?_
  split
  · exact h.failEntry
  · exact h

theorem State.MemOk.postedError {e n code : Nat} (h : s.MemOk) : (s.postedError e n code).MemOk := by
  unfold State.postedError
  split
  · exact h
  · refine h.meets fun h => ?_
    split
    · exact h.raiseFault
    · exact h

theorem State.MemOk.portError {c k code : Nat} (h : s.MemOk) : (s.portError c k code).MemOk := by
  unfold State.portError
  dsimp only
  split
  · exact h
  · refine h.meets fun h => ?_
    split
    · exact h.failPort
    · exact h

theorem State.MemOk.sramError {e : Nat} (h : s.MemOk) : (s.sramError e).MemOk := by
  unfold State.sramError
  split
  · split
    · exact h.raiseFault
    · exact h
  · split
    · exact h.meets fun h => h
    · exact h

theorem State.MemOk.tileError {c : Nat} (h : s.MemOk) : (s.tileError c).MemOk := by
  unfold State.tileError
  split
  · exact h
  · split
    · exact h.raiseFault
    · exact h

theorem State.MemOk.execUncorrectableError {e k : Nat} {dram : Bool} (h : s.MemOk) : Keeps (execUncorrectableError e k dram s) := by
  unfold Machine.execUncorrectableError
  dsimp only [Keeps]
  refine .ite ?_ ?_
  · exact .ite h h.tileError
  · refine .ite ?_ ?_
    · exact h.portError
    · refine .ite ?_ ?_
      · exact .ite h h.sramError
      · refine .ite ?_ ?_
        · exact h.postedError
        · split
          · exact h
          · split
            · exact h.entryError
            · exact .ite h h.slotError

theorem State.MemOk.execLnk {e k : Nat} (h : s.MemOk) : Keeps (execLnk e k s) := by
  unfold Machine.execLnk
  dsimp only [Keeps]
  refine .ite ?_ ?_
  · split
    · exact h
    · exact .ite h.portError h
  · split
    · exact h
    · refine .ite ?_ ?_
      · exact h.slotError
      · split
        · exact h
        · exact .ite h.entryError h

theorem State.MemOk.execBarrierPhaseFlip {c b : Nat} (h : s.MemOk) : Keeps (execBarrierPhaseFlip c b s) := by
  unfold Machine.execBarrierPhaseFlip
  dsimp only [Keeps]
  split
  · exact h.flipBar
  · exact h

theorem State.MemOk.execFqszWrite {p : Nat} {v : W32} (h : s.MemOk) : Keeps (execFqszWrite p v s) := by
  unfold Machine.execFqszWrite
  dsimp only [Keeps]
  refine State.MemOk.retryRing ?_
  split
  · exact h.modPart
  · exact h

theorem State.MemOk.invalidate {p first n : Nat} (h : s.MemOk) : (s.invalidate p first n).MemOk := h

theorem State.MemOk.execInvalidationCompletion {p : Nat} (h : s.MemOk) : Keeps (execInvalidationCompletion p s) := by
  unfold Machine.execInvalidationCompletion
  dsimp only [Keeps]
  split
  · exact h
  · exact h.invalidate.modPart.retryRing

theorem State.MemOk.execPageEviction {p va : Nat} (h : s.MemOk) : Keeps (execPageEviction p va s) := by
  unfold Machine.execPageEviction
  dsimp only [Keeps]
  split
  · exact .ite h h
  · exact h

theorem State.MemOk.closeWindows (h : s.MemOk) : (s.closeWindows).MemOk := h

theorem State.MemOk.execPageMigration {p va : Nat} (h : s.MemOk) : Keeps (execPageMigration p va s) := by
  have hc := h.closeWindows
  unfold Machine.execPageMigration
  dsimp only [Keeps]
  split
  · exact hc
  split
  · exact hc
  split
  · exact hc.of_same rfl rfl rfl
  split
  · exact hc.of_same rfl rfl rfl
  split
  · exact hc.of_same rfl rfl rfl
  · exact hc

theorem State.MemOk.startQuantum {rn : Nat} (h : s.MemOk) : (s.startQuantum rn).MemOk := by
  unfold State.startQuantum
  dsimp only
  split
  · exact h
  · split
    · exact h
    · split
      · exact h.modPart.setRegion
      · exact h.setRegion

theorem State.MemOk.served {p die pri q : Nat} (h : s.MemOk) : (s.served p die pri q).MemOk := h.modPart

theorem State.MemOk.endAtHead {p q : Nat} (h : s.MemOk) : (s.endAtHead p q).MemOk := by
  unfold State.endAtHead
  dsimp only
  split
  · exact h.popHead
  · split
    · exact h.popHead
    · split
      · exact h.endLaunch.releaseRec.popHead
      · exact h.endLaunch.popHead

theorem State.MemOk.placeHead {p q x y : Nat} (h : s.MemOk) : (s.placeHead p q x y).MemOk := by
  unfold State.placeHead
  dsimp only
  split
  · exact h
  · split
    · exact h.endLaunch.popHead
    · exact .startQuantum (.armUnit (.setRegion (.startImage h)))

theorem State.MemOk.preempt {p die : Nat} (h : s.MemOk) : (s.preempt p die).MemOk := by
  unfold State.preempt
  dsimp only
  split
  · exact h
  · split
    · exact h.freezeIf
    · exact h

theorem State.MemOk.execDispatch {p x y : Nat} (h : s.MemOk) : Keeps (execDispatch p x y s) := by
  unfold Machine.execDispatch
  dsimp only [Keeps]
  split
  · exact h.preempt
  · split
    · exact h
    · split
      · exact h.endAtHead.served
      · split
        · exact h.placeHead.served
        · exact h

theorem State.MemOk.execRegionRelease {rn : Nat} (h : s.MemOk) : Keeps (execRegionRelease rn s) := by
  unfold Machine.execRegionRelease
  dsimp only [Keeps]
  split
  · exact h
  · split
    · exact h
    · refine State.MemOk.setRegion ?_
      split
      · exact h.enterPcs
      · exact h.enterPcs.modPart

theorem State.MemOk.execQuantumExpiry {rn : Nat} (h : s.MemOk) : Keeps (execQuantumExpiry rn s) := by
  unfold Machine.execQuantumExpiry
  dsimp only [Keeps]
  split
  · exact h
  · split
    · exact h
    · split
      · exact h.freezeIf
      · exact h.startQuantum

theorem State.MemOk.rebind {p e : Nat} (h : s.MemOk) : (s.rebind p e).MemOk := by
  unfold State.rebind
  dsimp only
  refine h.foldl fun h => ?_
  split
  · exact h
  · exact h.startQuarter

theorem State.MemOk.restoreFrozen {rn : Nat} {r : Region} {x y : Nat} (h : s.MemOk) : (s.restoreFrozen rn r x y).MemOk :=
  .startQuantum (.freeSave (.loadSnap (((h.setRegion.foldl fun h => h.setElem).foldl fun h => h.modCore).foldl fun h => h.rebind)))

theorem State.MemOk.overlay1 {rn : Nat} {r : Region} {n : Snap} (h : s.MemOk) : (s.overlay1 rn r n).MemOk := by
  unfold State.overlay1
  dsimp only
  refine State.MemOk.foldl ?_ fun h => h.modCore
  refine h.foldl fun h => ?_
  split
  · exact h.modElem
  · exact h

theorem State.MemOk.overlayPorts {rn : Nat} {old new : Region} {n : Snap} (h : s.MemOk) : (s.overlayPorts rn old new n).MemOk := by
  unfold State.overlayPorts
  dsimp only
  refine h.foldl fun h => ?_
  split
  · exact h
  · exact h.modCore

theorem State.MemOk.restoreDrained {rn : Nat} {r : Region} {x y : Nat} (h : s.MemOk) : (s.restoreDrained rn r x y).MemOk := by
  unfold State.restoreDrained
  dsimp only
  split
  · exact .popHead h.freeSave.endLaunch
  · exact .popHead h.freeSave.endLaunch
  · split
    · exact .popHead h.freeSave.endLaunch
    · refine State.MemOk.startQuantum ?_
      refine .ite ?_ ?_
      · refine State.MemOk.modRegion ?_
        refine .ite ?_ ?_
        · exact ((((h.freeSave.setRegion.foldl fun h => h.modElem).startImage).setRegion).armUnit).overlay1
        · exact ((((h.freeSave.setRegion.foldl fun h => h.modElem).startImage).setRegion).armUnit).overlayPorts
      · refine .ite ?_ ?_
        · exact ((((h.freeSave.setRegion.foldl fun h => h.modElem).startImage).setRegion).armUnit).overlay1
        · exact ((((h.freeSave.setRegion.foldl fun h => h.modElem).startImage).setRegion).armUnit).overlayPorts

theorem State.MemOk.execRestore {rn x y : Nat} (h : s.MemOk) : Keeps (execRestore rn x y s) := by
  unfold Machine.execRestore
  dsimp only [Keeps]
  split
  · exact h
  · split
    · exact h
    · split
      · exact h
      · split
        · exact h.restoreFrozen.served
        · exact h.restoreDrained.served
        · exact h

end Sys2Proof.Machine
end

section
/-! SUPPORT. Canonical memories through the registers of the device, its blocks and what comes from outside (O56). -/

namespace Sys2Proof.Machine

open Sys2Proof

variable {s : State}

theorem State.MemOk.setBlock {b : Nat} {x : Block} (h : s.MemOk) : (s.setBlock b x).MemOk := h

theorem State.MemOk.blkRefuse (h : s.MemOk) : (s.blkRefuse).MemOk := h

theorem State.MemOk.deliver {p : Nat} {m : W128} (h : s.MemOk) : (s.deliver p m).MemOk := by
  unfold State.deliver
  dsimp only
  split
  · exact h.modPart.irq
  · exact h.modPart

theorem State.MemOk.toPartition {p : Nat} {m : W128} (h : s.MemOk) : (s.toPartition p m).MemOk := by
  unfold State.toPartition
  dsimp only
  split
  · split
    · exact h.setBlock.deliver
    · exact h.blkRefuse
  · split
    · exact h.deliver
    · exact h.blkRefuse
  · exact h.deliver

theorem State.MemOk.fromPartition {p : Nat} {m : W128} (h : s.MemOk) : (s.fromPartition p m).MemOk := by
  unfold State.fromPartition
  dsimp only
  split
  · split
    · exact h.modPart.setBlock
    · exact h.modPart.blkRefuse
  · split
    · exact h.modPart.setBlock
    · exact h.modPart.blkRefuse
  · split
    · exact h.modPart.setBlock
    · exact h.modPart.blkRefuse
  · exact h.modPart

theorem State.MemOk.execNotice {p : Nat} {m : W128} (h : s.MemOk) : Keeps (execNotice p m s) := by
  unfold Machine.execNotice
  dsimp only [Keeps]
  split
  · exact h.toPartition
  · exact h

theorem State.MemOk.execAcknowledge {p : Nat} {m : W128} (h : s.MemOk) : Keeps (execAcknowledge p m s) := by
  unfold Machine.execAcknowledge
  dsimp only [Keeps]
  split
  · exact h.fromPartition
  · exact h

theorem State.MemOk.execRefuse {p : Nat} {m : W128} (h : s.MemOk) : Keeps (execRefuse p m s) := by
  unfold Machine.execRefuse
  dsimp only [Keeps]
  split
  · exact h.fromPartition
  · exact h

theorem State.MemOk.execGrant {p : Nat} {m : W128} (h : s.MemOk) : Keeps (execGrant p m s) := by
  unfold Machine.execGrant
  dsimp only [Keeps]
  split
  · exact h.toPartition
  · exact h

theorem State.MemOk.execHotAdd {p : Nat} {m : W128} (h : s.MemOk) : Keeps (execHotAdd p m s) := by
  unfold Machine.execHotAdd
  dsimp only [Keeps]
  split
  · exact h.fromPartition
  · exact h

theorem State.MemOk.mailWrite {p : Nat} {toDriver : Bool} {i : Nat} {w : W32} (h : s.MemOk) : (s.mailWrite p toDriver i w).MemOk := by
  unfold State.mailWrite
  dsimp only
  split
  · exact h.toPartition
  · exact h.modPart
  · exact h.fromPartition
  · exact h.modPart

theorem State.MemOk.blkCommand {cmd b part : Nat} {ok busy : Bool} {act : State → State} (h : s.MemOk)
    (hact : ∀ {s}, s.MemOk → (act s).MemOk) :
    (s.blkCommand cmd b part ok busy act).MemOk := by
  unfold State.blkCommand
  split
  · exact h
  split
  · exact hact (h.of_same rfl rfl rfl)
  · exact h.of_same rfl rfl rfl

theorem State.MemOk.hotRemove {b part : Nat} (h : s.MemOk) : (s.hotRemove b part).MemOk :=
  h.blkCommand fun h => h.setBlock

theorem State.MemOk.scrub1 {b part : Nat} (h : s.MemOk) : (s.scrub1 b part).MemOk := h.blkCommand fun h => h

/-- The end of a scrub takes the cells of a block out of device memory (R385). -/
theorem State.MemOk.execScrubCompletion {b : Nat} (h : s.MemOk) : Keeps (execScrubCompletion b s) := by
  obtain ⟨hdev, hhost, hpeer⟩ := id h
  unfold Machine.execScrubCompletion
  dsimp only [Keeps]
  split
  · exact h
  · exact ⟨Memory.wf_filter hdev _, hhost, hpeer⟩

theorem State.MemOk.offer1 {b p : Nat} (h : s.MemOk) : (s.offer1 b p).MemOk := h.blkCommand fun h => h.setBlock

theorem State.MemOk.assign1 {b part : Nat} (h : s.MemOk) : (s.assign1 b part).MemOk := h.blkCommand fun h => h.setBlock

theorem State.MemOk.enable1 {p : Nat} (h : s.MemOk) : (s.enable1 p).MemOk := by
  unfold State.enable1
  dsimp only
  refine .ite ?_ ?_
  · exact .ite (.modPart (.ite h h.invalidate)) (.ite h h.invalidate)
  · exact h

theorem State.MemOk.expel {p rn : Nat} (h : s.MemOk) : (s.expel p rn).MemOk := by
  unfold State.expel
  dsimp only
  split
  · exact h
  · split
    · exact h
    · exact h.freezeNow.postVio

theorem State.MemOk.disable1 {p : Nat} (h : s.MemOk) : (s.disable1 p).MemOk := by
  unfold State.disable1
  split
  · exact h
  · exact (h.foldl fun h => h.expel).modPart

theorem State.MemOk.markStream {rn : Nat} (h : s.MemOk) : (s.markStream rn).MemOk := by
  unfold State.markStream
  dsimp only
  split
  · split
    · exact h
    · split
      · split
        · rename_i t ht
          exact h.setRegion.ownWrite ht
        · exact h.setRegion
      · exact h.setRegion
  · exact h

theorem State.MemOk.pause1 {p : Nat} (h : s.MemOk) : (s.pause1 p).MemOk := by
  unfold State.pause1
  dsimp only
  split
  · exact h
  · exact ((h.foldl fun h => h.markStream).foldl fun h => h.freezeNow).modPart

theorem State.MemOk.unpause1 {p : Nat} (h : s.MemOk) : (s.unpause1 p).MemOk := h.modPart

theorem State.MemOk.maint1 {p : Nat} {m : Bool} (h : s.MemOk) : (s.maint1 p m).MemOk := by
  unfold State.maint1
  split
  · exact h.modPart
  · exact h

theorem State.MemOk.pcor1 {p : Nat} {v : BitVec 256} (h : s.MemOk) : (s.pcor1 p v).MemOk := by
  unfold State.pcor1
  dsimp only
  split
  · exact h
  · exact (h.foldl fun h => h.releaseCut).modPart

theorem State.MemOk.tnow1 {p : Nat} {v : W64} (h : s.MemOk) : (s.tnow1 p v).MemOk := h.modPart

theorem State.MemOk.wrt1 {m : Nat} {v : BitVec 4} (h : s.MemOk) : (s.wrt1 m v).MemOk := by
  unfold State.wrt1
  split
  · exact h
  · split <;> exact h

theorem State.MemOk.peerUpdate {k : PeerOp} {bs : List Byte} {a n : Nat} (h : s.MemOk) : (s.peerUpdate k bs a n).MemOk := by
  unfold State.peerUpdate
  dsimp only
  split
  · split
    · exact .devWrite h
    · exact h
  · exact h

theorem State.MemOk.execPeerAccess {k : PeerOp} {bs : List Byte} (h : s.MemOk) : Keeps (execPeerAccess k bs s) := by
  unfold Machine.execPeerAccess
  dsimp only [Keeps]
  split
  · split
    · exact h.devWrite
    · exact h
  · split <;> exact h
  · exact h.peerUpdate
  · exact h.peerUpdate

theorem State.MemOk.stopFunc {p f addr : Nat} (h : s.MemOk) : (s.stopFunc p f addr).MemOk := by
  unfold State.stopFunc
  extract_lets r
  exact .of_same (s := s.postVio p r none (.func f)) h.postVio rfl rfl rfl

theorem State.MemOk.execHostBar2Read {f off n : Nat} (h : s.MemOk) : Keeps (execHostBar2Read f off n s) := by
  unfold Machine.execHostBar2Read
  dsimp only [Keeps]
  split
  · exact h
  · refine .ite h ?_
    split
    · exact h
    · rename_i p _ _ a _
      exact .of_same (s := s.stopFunc p f a) h.stopFunc rfl rfl rfl
    · exact h

theorem State.MemOk.execHostBar2Write {f off : Nat} {bs : List Byte} (h : s.MemOk) : Keeps (execHostBar2Write f off bs s) := by
  unfold Machine.execHostBar2Write
  dsimp only [Keeps]
  split
  · exact h
  · split
    · exact h
    · split
      · exact h.writeRun
      · exact h.stopFunc.countFlts
      · exact h.countFlts

theorem State.MemOk.tdispFail {f : Nat} (h : s.MemOk) : (s.tdispFail f).MemOk := by
  unfold State.tdispFail
  dsimp only
  split
  · exact h
  · split
    · exact .stopFunc h
    · exact h

theorem State.MemOk.execTdispStateChange {f t : Nat} (h : s.MemOk) : Keeps (execTdispStateChange f t s) := by
  unfold Machine.execTdispStateChange
  dsimp only [Keeps]
  split
  · exact h
  · split
    · exact h
    · exact h
    · exact h
    · exact h.tdispFail

theorem State.MemOk.execAtsTranslationResponse {c va : Nat} {leaf : W64} (h : s.MemOk) : Keeps
    (execAtsTranslationResponse c va leaf s) := by
  unfold Machine.execAtsTranslationResponse
  dsimp only [Keeps]
  split
  · exact h
  · split
    · exact .setTlb h
    · exact h

theorem State.MemOk.execAtsInvalidation {f va n : Nat} (h : s.MemOk) : Keeps (execAtsInvalidation f va n s) := by
  unfold Machine.execAtsInvalidation
  dsimp only [Keeps]
  split
  · split
    · exact h.invalidate
    · exact h
  · exact h

theorem State.MemOk.windowWrite {p off : Nat} {v : W64} {pf : Bool} (h : s.MemOk) : (s.windowWrite p off v pf).MemOk := by
  unfold State.windowWrite
  dsimp only
  split
  · split
    · split
      · exact h
      · exact h.setQueue
    · split
      · exact h
      · exact h.setQueue
    · exact h.nextOr h.execQctlWrite
    · exact h.nextOr h.execQueueTailWrite
    · exact h
  · split
    · exact h.modPart
    · exact h.nextOr h.execCancel
    · exact h.nextOr h.modPart
    · exact h.nextOr h.execPgrspWrite
    · exact h.nextOr h.modPart.retryRing
    · exact h.nextOr h.execFqszWrite
    · exact h.modPart
    · exact h.nextOr h.modPart.retryRing
    · exact h.modPart
    · exact h.modPart
    · split
      · exact h.mailWrite
      · exact h
    · split
      · exact h.mailWrite
      · exact h
    · split
      · exact h.mailWrite
      · exact h
    · split
      · exact h.mailWrite
      · exact h
    · exact h.mailWrite
    · exact h.mailWrite
    · exact h.mailWrite
    · exact h.mailWrite
    · exact h.modPart
    · exact h.modPart
    · split
      · exact h.tnow1
      · exact h
    · exact h.modPart
    · exact h.modPart
    · exact h.nextOr h.modPart
    · exact h.modPart
    · exact h

theorem State.MemOk.pctlWrite {p : Nat} {v : W32} (h : s.MemOk) : (s.pctlWrite p v).MemOk := by
  unfold State.pctlWrite
  extract_lets x t u w
  have ht : t.MemOk := .ite h h.modPart
  have hu : u.MemOk := .ite ht.maint1 ht
  have hw : w.MemOk := .ite hu.pause1 (.ite hu.unpause1 hu)
  exact .ite hw.enable1 (.ite hw.disable1 hw)

theorem State.MemOk.ptabWrite {p o : Nat} {v : W64} (h : s.MemOk) : (s.ptabWrite p o v).MemOk := by
  unfold State.ptabWrite
  dsimp only
  split
  · exact h.pctlWrite
  · exact h.modPart
  · exact h.modPart
  · exact h.modPart
  · exact h.modPart
  · split
    · exact h
    · exact h.pcor1

theorem State.MemOk.blkWrite {v : Nat} (h : s.MemOk) : (s.blkWrite v).MemOk := by
  unfold State.blkWrite
  dsimp only
  split
  · exact h
  · split
    · exact h.hotRemove
    · exact h.scrub1
    · exact h.offer1
    · exact h.assign1
    · exact h.blkCommand fun h => h

theorem State.MemOk.mfqWrite {off v : Nat} (h : s.MemOk) : (s.mfqWrite off v).MemOk := by
  unfold State.mfqWrite
  dsimp only
  refine State.MemOk.flushModule ?_
  split
  · exact h.setModReg
  · split
    · exact h.setModReg
    · exact h
  · exact h.setModReg
  · exact h.setModReg

theorem State.MemOk.pfWrite {off : Nat} {v : W64} (h : s.MemOk) : (s.pfWrite off v).MemOk := by
  unfold State.pfWrite
  split
  · exact h.ptabWrite
  split
  · exact h.blkWrite
  split
  · exact h.of_same rfl rfl rfl
  split
  · exact h.nextOr h.execVioRelease
  split
  · exact h.mfqWrite
  split
  · exact .ite (h.of_same rfl rfl rfl) h
  split
  · exact h.foldl fun h => h.wrt1
  split
  · exact h.windowWrite
  · exact h

theorem State.MemOk.execRegisterWrite {f off : Nat} {v : W64} (h : s.MemOk) : Keeps (execRegisterWrite f off v s) := by
  unfold Machine.execRegisterWrite
  dsimp only [Keeps]
  split
  · exact h.pfWrite
  · split
    · split
      · exact h.windowWrite
      · exact h
    · exact h

theorem State.MemOk.execKeyGeneration {k : Nat} (h : s.MemOk) : Keeps (execKeyGeneration k s) := by
  unfold Machine.execKeyGeneration
  dsimp only [Keeps]
  split <;> exact h

theorem State.MemOk.execModuleReset (h : s.MemOk) : Keeps (execModuleReset s) :=
  ⟨Memory.wf_nil, h.2⟩

theorem State.MemOk.execRecoveryImage {img sig key : List Byte} (h : s.MemOk) : Keeps (execRecoveryImage img sig key s) := by
  unfold Machine.execRecoveryImage
  dsimp only [Keeps]
  split <;> exact h

end Sys2Proof.Machine
end

section
/-! SUPPORT. Canonical memories through a pair, a turn and a whole step; O56. -/

namespace Sys2Proof.Machine

open Sys2Proof

variable {s : State}

theorem State.MemOk.scalarHalf {vh : Instr} {t : TU} {w : Ty} {d : Nat} {g : HalfRun} (h : s.MemOk) : (s.scalarHalf vh t w d g).MemOk := by
  unfold State.scalarHalf
  split
  · exact h
  · rename_i f _
    split
    · exact State.MemOk.of_same h.raiseFault rfl rfl rfl
    · exact h
    · rename_i k _
      exact .of_same (s := s.markerFiring f k) h.markerFiring rfl rfl rfl
    · exact h

theorem State.MemOk.vectorHalf {p : PairHalf} {t : TU} {w : Ty} {d : Nat} {g : HalfRun} (h : s.MemOk) : (s.vectorHalf p t w d g).MemOk := by
  unfold State.vectorHalf
  dsimp only
  split
  · exact h
  · split
    · exact h
    · exact .completeWith (.issue h)

theorem State.MemOk.half {w : Ty} {d : BitVec 5} {g : HalfRun} (h : s.MemOk) : (s.half w d g).MemOk := by
  unfold State.half
  split
  · exact h
  · split
    · split
      · exact h.scalarHalf
      · split
        · exact h
        · exact h.vectorHalf
    · exact h

/-- Every instruction and every event keeps the memories in canonical form. -/
theorem State.MemOk.exec {i : Instr} (h : s.MemOk) : Keeps (exec i s) := by
  cases i with
  | nop _ _ => exact h.fire fun h => h.finishPlain
  | emit _ _ => exact h.fire fun h => h.emitAct
  | steer _ _ => exact h.fire fun h => h.steerAct
  | merge _ _ => exact h.fire fun h => h.mergeAct
  | repl _ _ => exact h.fire fun h => h.replAct
  | mark _ _ => exact h.fire fun h => h.markAct
  | sink _ _ => exact h.fire fun h => h.sinkAct
  | doneOp _ _ => exact h.fire fun h => h.finishPlain.report1
  | erls _ _ => exact h.fire fun h => h.erlsAct
  | pset _ _ | padd _ _ => exact h.fire fun h => h.placeAct
  | prd _ _ => exact h.fire fun h => h.prdAct
  | tag _ _ => exact h.fire fun h => h.tagAct
  | rpull _ _ => exact h.fire fun h => h.cmdIssue fun h => h.performRpull
  | lnch _ _ => exact h.fire fun h => h.cmdIssue fun h => h.performLnch
  | trap _ _ => exact h.fire fun h => h.trapAct
  | mov _ _ | abs _ _ | neg _ _ | clz _ _ | popc _ _ => exact h.fire fun h => h.oneSrc
  | movi _ _ => exact h.fire fun h => h.moviAct
  | movh _ _ => exact h.fire fun h => h.movhAct
  | sel _ _ => exact h.fire fun h => h.selAct
  | cmp _ _ => exact h.fire fun h => h.cmpAct
  | add _ _ | adds _ _ | sub _ _ | subs _ _ | mul _ _ | mulh _ _ | min _ _ | max _ _ | andOp _ _ | andn _ _ | orOp _ _ | xor _ _ | shl _ _
    | shr _ _ | sar _ _ | rot _ _ => exact h.fire fun h => h.twoSrc
  | fma _ _ | clamp _ _ => exact h.fire fun h => h.threeSrc
  | div _ _ | rcp _ _ | rsq _ _ | sqrt _ _ | exp2 _ _ | log2 _ _ => exact h.fire fun h => h.slotAct
  | cvt _ _ | qnt _ _ => exact h.fire fun h => h.convAct
  | vbcast _ _ | vperm _ _ | vzip _ _ | vuzp _ _ | vtrn _ _ | vpack _ _ | vunpk _ _ | vcmpr _ _ | vxpd _ _ =>
    exact h.fire fun h => h.moved
  | vred _ _ => exact h.fire fun h => h.vredAct
  | vscan _ _ => exact h.fire fun h => h.vscanAct
  | bld _ _ => exact h.fire fun h => h.bankIssue fun h => h.performBld
  | bst _ _ => exact h.fire fun h => h.bankIssue fun h => h.performBst
  | bldx _ _ => exact h.fire fun h => h.bankIssue fun h => h.performBldx
  | bstx _ _ => exact h.fire fun h => h.bankIssue fun h => h.performBstx
  | brmw _ _ => exact h.fire fun h => h.bankIssue fun h => h.performBrmw
  | bcas _ _ => exact h.fire fun h => h.bankIssue fun h => h.performBcas
  | ld _ _ => exact h.fire fun h => h.memIssue fun h => h.performLd
  | st _ _ => exact h.fire fun h => h.memIssue fun h => h.performSt
  | ldo _ _ => exact h.fire fun h => h.memIssue fun h => h.performLdo
  | ldw _ _ => exact h.fire fun h => h.memIssue fun h => h.performLdw
  | stw _ _ => exact h.fire fun h => h.memIssue fun h => h.performStw
  | atom _ _ | cas _ _ => exact h.fire fun h => h.memIssue fun h => h.performUpdate
  | red _ _ => exact h.fire fun h => h.memIssue fun h => h.performRed
  | fence _ _ => exact h.fire fun h => h.memIssue fun h => h.performFence
  | pref _ _ => exact h.fire fun h => h.memIssue fun h => h.performPref
  | inv _ _ => exact h.fire fun h => h.memIssue fun h => h.performInv
  | sopen _ _ => exact h.fire fun h => h.cmdIssue fun h => h.performSopen
  | sparm _ _ => exact h.fire fun h => h.cmdIssue fun h => h.performSparm
  | sclose _ _ => exact h.fire fun h => h.cmdIssue fun h => h.performSclose
  | srec _ _ => exact h.fire fun h => h.cmdIssue fun h => h.performSrec
  | rfen _ _ => exact h.fire fun h => h.cmdIssue fun h => h.performRfen
  | gath _ _ | scat _ _ => exact h.fire fun h => h.cmdCapture fun h => h.performInd
  | cpy _ _ | fill _ _ | note _ _ => exact h.fire fun h => h.cmdCapture fun h => h.performCopyCmd
  | qfen _ _ => exact h.fire fun h => h.cmdIssue fun h => h.performQfen
  | rcopy _ _ => exact h.fire fun h => h.cmdCapture fun h => h.performRow
  | rzero _ _ => exact h.fire fun h => h.cmdIssue fun h => h.performRow
  | stash _ _ | unstash _ _ => exact h.fire fun h => h.stashIssue
  | coll _ _ => exact h.fire fun h => h.cmdIssue fun h => h.performColl
  | pimabEnter _ _ | pimabLeave _ _ | pimld _ _ | pimmac _ _ => exact h.fire fun h => h.macIssue
  | pimrd _ _ => exact h.fire fun h => h.keepPlaces.macIssue
  | mxmodeEnter _ _ | mxmodeEnterSplit _ _ => exact h.fire fun h => h.mxEnter
  | mxmodeLeave _ _ => exact h.fire fun h => h.cmdIssue fun h => h.performMxLeave
  | mxwld _ _ => exact h.fire fun h => h.cmdIssue fun h => h.performMxwld
  | mxc _ _ => exact h.fire fun h => h.cmdIssue fun h => h.performMxc
  | mxacc _ _ => exact h.execMxacc
  | ipatch _ _ | icfg _ _ | iset _ _ | iget _ _ | istep _ _ | isave _ _ | irest _ _ | ifeed _ _ => exact h.fire fun h => h.intIssue
  | isamp _ _ => exact h.execIsamp
  | bari _ _ => exact h.fire fun h => h.cmdIssue fun h => h.performBari
  | bara _ _ => exact h.fire fun h => h.cmdIssue fun h => h.performBara
  | barw _ _ => exact h.fire fun h => h.cmdIssue fun h => h.performBarw
  | bart _ _ => exact h.fire fun h => h.cmdIssue fun h => h.performBart
  | barq _ _ => exact h.fire fun h => h.cmdIssue fun h => h.performBarq
  | waita _ _ => exact h.fire fun h => h.cmdIssue fun h => h.performWaita
  | rdsr _ _ | time _ _ => exact h.fire fun h => h.takeSlot.performed
  | wrsr _ _ | cfgw _ _ => exact h.fire fun h => h.cmdIssue fun h => h.performNow
  | frz _ _ => exact h.fire fun h => h.cmdIssue fun h => h.performFrz
  | pairMov _ | pairMovImm _ | pairAdd _ | pairAddImm _ | pairAdds _ | pairAddsImm _ | pairSub _ | pairSubImm _ | pairSubs _ | pairSubsImm _
    | pairMul _ | pairMulImm _ | pairMulh _ | pairMulhImm _ | pairMin _ | pairMinImm _ | pairMax _ | pairMaxImm _ | pairAbs _ | pairNeg _
    | pairAnd _ | pairAndImm _ | pairAndn _ | pairAndnImm _ | pairOr _ | pairOrImm _ | pairXor _ | pairXorImm _ | pairShl _ | pairShlImm _
    | pairShr _ | pairShrImm _ | pairSar _ | pairSarImm _ | pairRot _ | pairRotImm _ | pairClz _ | pairClzImm _ | pairPopc _ | pairPopcImm _
    | pairCmp _ | pairSteer _ | pairVbcast _ | pairVbcastImm _ => exact h.half
  | firingCompletion _ _ => exact h.execFiringCompletion
  | outputBufferEntry _ _ => exact h.execOutputBufferEntry
  | tokenInjection _ _ => exact h.execTokenInjection
  | tokenArrival _ => exact h.arrive
  | cfgTokenApply _ _ => exact h.applyCfg
  | faultRetry _ => exact h.faultStep
  | pgrspWrite _ _ => exact h.execPgrspWrite
  | cutRelease _ => exact h.execCutRelease
  | pageResponse _ _ _ _ => exact h.execPageResponse
  | functionLevelReset _ => exact h.execFunctionLevelReset
  | retiredTagTimeout _ => exact h.execRetiredTagTimeout
  | sidedTokenReentry _ _ => exact h.execSidedTokenReentry
  | sparseUpdate _ _ => exact h.sparseUpdate1
  | watchMark _ _ => exact h.watchMark1
  | barrierPhaseFlip _ _ => exact h.execBarrierPhaseFlip
  | engineQueueEntry _ _ => exact h.execEngineQueueEntry
  | copyChunk _ _ => exact h.execCopyChunk
  | rowTransfer _ _ => exact h.execRowTransfer
  | bankMacPerform _ _ => exact h.execBankMacPerform
  | gathRow _ _ => exact h.execGathRow
  | scatRow _ _ => exact h.execScatRow
  | stashChunk _ _ => exact h.execStashChunk
  | unstashChunk _ _ => exact h.execUnstashChunk
  | collMatch _ _ _ => exact h.execCollMatch
  | portTokenRead _ _ => exact h.portRead
  | portTokenWrite _ _ => exact h.portWrite
  | pageEviction _ _ => exact h.execPageEviction
  | pageMigration _ _ => exact h.execPageMigration
  | migrationWindowEnd _ _ | windowGrant _ _ | attestationReport _ => exact h
  | domainStep _ _ => exact h.domainStep
  | budgetExhausted _ _ => exact h.exhaust
  | eventPlaceMark _ _ => exact h.markEvent
  | integratorCommandPerform _ _ => exact h.performInt
  | mma _ _ => exact h.execMma
  | swapw _ _ => exact h.execSwapw
  | flush _ _ => exact h.execFlush
  | flushMark _ _ => exact h.execFlushMark
  | dispatch _ _ _ => exact h.execDispatch
  | regionRelease _ => exact h.execRegionRelease
  | unitStart _ => exact h.execUnitStart
  | launchCompletion _ => exact h.execLaunchCompletion
  | successorAppend _ => exact h.execSuccessorAppend
  | quantumExpiry _ => exact h.execQuantumExpiry
  | freeze _ => exact h.freeze1
  | saveReadout _ => exact h.readout
  | restore _ _ _ => exact h.execRestore
  | drain _ => exact h.execDrain
  | tailLampPass _ => exact h.execTailLampPass
  | drainCompletion _ => exact h.execDrainCompletion
  | sectionShadow _ => exact h.execSectionShadow
  | staleSectDiscard _ _ => exact h.execStaleSectDiscard
  | cutCompletion _ => exact h.completeCut
  | forcedCut _ => exact h.forcedCut1
  | markerCutTimeout _ => exact h.execMarkerCutTimeout
  | sectionTokenCount _ => exact h.execSectionTokenCount
  | vioRelease _ => exact h.execVioRelease
  | queueTailWrite _ _ _ => exact h.execQueueTailWrite
  | qctlWrite _ _ _ => exact h.execQctlWrite
  | cancel _ _ => exact h.execCancel
  | fqhWrite _ _ | fqbWrite _ _ => exact h.modPart.retryRing
  | fqszWrite _ _ => exact h.execFqszWrite
  | fltsClear _ _ | ivgoWrite _ _ => exact h.modPart
  | invalidationCompletion _ => exact h.execInvalidationCompletion
  | notice _ _ => exact h.execNotice
  | acknowledge _ _ => exact h.execAcknowledge
  | refuse _ _ => exact h.execRefuse
  | grant _ _ => exact h.execGrant
  | hotAdd _ _ => exact h.execHotAdd
  | hotRemove _ => exact h.hotRemove
  | scrub _ => exact h.scrub1
  | scrubCompletion _ => exact h.execScrubCompletion
  | offer _ _ => exact h.offer1
  | assignToModule _ => exact h.assign1
  | partitionEnable _ => exact h.enable1
  | partitionDisable _ => exact h.disable1
  | pauseSet _ => exact h.pause1
  | pauseClear _ => exact h.unpause1
  | maintWrite _ _ => exact h.maint1
  | pcorWrite _ _ => exact h.pcor1
  | tnowWrite _ _ => exact h.tnow1
  | wrtWrite _ _ => exact h.wrt1
  | registerWrite _ _ _ => exact h.execRegisterWrite
  | hostBar2Read _ _ _ => exact h.execHostBar2Read
  | hostBar2Write _ _ _ => exact h.execHostBar2Write
  | tdispError _ => exact h.tdispFail
  | peerAccess _ _ => exact h.execPeerAccess
  | lnk _ _ => exact h.execLnk
  | uncorrectableError _ _ _ => exact h.execUncorrectableError
  | moduleReset => exact h.execModuleReset
  | atsTranslationResponse _ _ _ => exact h.execAtsTranslationResponse
  | atsInvalidation _ _ _ => exact h.execAtsInvalidation
  | tdispStateChange _ _ => exact h.execTdispStateChange
  | keyGeneration _ => exact h.execKeyGeneration
  | recoveryImage _ _ _ => exact h.execRecoveryImage

theorem State.MemOk.begin {c : Cur} (h : s.MemOk) : (s.begin c).MemOk := h

theorem State.MemOk.settle {n : Nat} {c : Cur} (h : s.MemOk) : (s.settle n c).MemOk := h.modElem

theorem State.MemOk.closeTurn {n : Nat} {c : Cur} (h : s.MemOk) : (s.closeTurn n c).MemOk := .ite h.settle h

theorem State.MemOk.countStalls (h : s.MemOk) : (s.countStalls).MemOk := by
  unfold State.countStalls
  dsimp only
  refine h.foldl fun h => ?_
  split
  · exact h.modElem
  · exact h

theorem State.MemOk.endWork (h : s.MemOk) : (s.endWork).MemOk := by
  unfold State.endWork
  generalize ht : s.moveAll.countStalls = t
  have h : t.MemOk := ht ▸ h.moveAll.countStalls
  exact h

theorem State.MemOk.nextCycle (h : s.MemOk) : (s.nextCycle).MemOk := by
  unfold State.nextCycle
  dsimp only
  split
  · exact .stepClock h.settleBars
  · exact h.settleBars

theorem State.MemOk.rotate (h : s.MemOk) : (s.rotate).MemOk := h

theorem Keeps.andThen {o : Host.Outcome State Fault Refusal} {f : State → State} (ho : Keeps o)
    (hf : ∀ {t}, t.MemOk → (f t).MemOk) : Keeps (andThen o f) := by
  cases o with
  | next t => exact hf ho
  | fault r => exact ho
  | refused r => exact ho

theorem Keeps.getD {o : Option (Host.Outcome State Fault Refusal)} {d : Host.Outcome State Fault Refusal} (hd : Keeps d)
    (ho : ∀ {x}, o = some x → Keeps x) : Keeps (o.getD d) := by
  cases o with
  | none => exact hd
  | some x => exact ho rfl

theorem State.MemOk.turn {e : Nat} {prompt : Bool} (h : s.MemOk) : Keeps (turn e prompt s) := by
  unfold Machine.turn
  split
  · split
    · exact h
    · dsimp only
      split
      · trivial
      · exact Keeps.andThen h.begin.exec fun h => h.closeTurn
      · exact Keeps.andThen h.begin.exec fun h => h.closeTurn
  · exact h

theorem State.MemOk.choose {c : Choice} (h : s.MemOk) : Keeps (choose c s) := by
  cases c with
  | turn e prompt => exact h.turn
  | event i =>
    dsimp only [Machine.choose]
    split
    · exact h.exec
    · exact h
  | perform e k => exact .ite h.attempt h
  | performPosted e n => exact .ite h.performPosted h
  | withhold e => exact .ite h h
  | tick => exact h.nextCycle

theorem State.MemOk.firstChange {cs : List Choice} {o : Host.Outcome State Fault Refusal} (h : s.MemOk)
    (ho : firstChange s cs = some o) : Keeps o := by
  induction cs with
  | nil => cases ho
  | cons c cs ih =>
    have hc := h.choose (c := c)
    unfold Machine.firstChange at ho
    split at ho
    · rename_i heq
      split at ho
      · exact ih ho
      · cases ho
        exact heq ▸ hc
    · cases ho
      exact hc

theorem State.MemOk.must {o : Host.Outcome State Fault Refusal} (h : s.MemOk) (ho : must s = some o) : Keeps o := by
  unfold Machine.must at ho
  split at ho
  · cases ho
    exact h.exec
  · split at ho
    · cases ho
      exact h.attempt
    · cases ho
      exact h.turn
    · obtain ⟨i, -, rfl⟩ := Option.map_eq_some_iff.1 ho
      exact h.exec

theorem State.MemOk.onward (h : s.MemOk) : Keeps (onward s) := by
  unfold Machine.onward
  split
  · split
    · exact h.exec
    · exact h.nextCycle
  · split
    · exact h.must ‹_›
    · exact h.endWork

theorem State.MemOk.auto (h : s.MemOk) : Keeps (auto s) := by
  unfold Machine.auto
  split
  · split
    · exact h.exec
    · exact Keeps.getD h.rotate.nextCycle h.firstChange
  · split
    · exact h.injectAll
    · split
      · exact h.firstChange ‹_›
      · split
        · exact h.must ‹_›
        · exact Keeps.getD h.endWork h.firstChange

theorem State.MemOk.agendaStep {c : Choice} {rest : List Choice} (h : s.MemOk) : Keeps (agendaStep s c rest) := by
  unfold Machine.agendaStep
  split
  · split
    · exact State.MemOk.nextCycle h
    · exact h.onward
  · split
    · exact h.onward
    · split
      · exact h.exec
      · exact State.MemOk.choose h

theorem State.MemOk.step (h : s.MemOk) : Keeps (step s) := by
  unfold Machine.step
  split
  · refine Keeps.andThen h.exec fun h => ?_
    exact State.MemOk.of_same h.closeTurn rfl rfl rfl
  · split
    · exact h.auto
    · exact h.agendaStep

end Sys2Proof.Machine
end
section
/-! SUPPORT. The statement of O56. -/

namespace Sys2Proof.Machine

open Sys2Proof

/-- Settles O56. Every operation of the state keeps the memories in canonical form: only a write by `State.put` or `State.writeLoc`, the end
of a scrub and a reset of the module change one of them at all, and each leaves a canonical memory. -/
theorem memoryInvariant : Obligations.MemoryInvariant := by
  intro s s' h hs
  have keeps := h.step
  rwa [hs] at keeps

end Sys2Proof.Machine
end

section
/-! SUPPORT. A command that its unit takes in the cycle of its issue: the port commands of a firing that the cycle does not list as issued (O14). -/

namespace Sys2Proof.Machine

open Sys2Proof

/-! ### A port command that is performed at its issue (R516)

`State.sentBefore` asks whether the firing issued in an earlier cycle of the list `issued`, which holds the elements whose turn has come in this
one. A state whose list does not hold the element of the running firing has its port command reach the port as it issues, where the
statement asks that the command still stands in its slot. -/

/-- A closed in port of core 0. -/
def closedPort : Port :=
  { out := false, exy := 0, vc := 0, ty := .s32, ctl := false, imgBase := 0, imgStride := 0, imgTsrx := 0, base := 0, stride := 0
    tsrx := 0, ind := false, reg := 0, wbase := 0, wstride := 0, wtsrx := 0, open_ := false, bySopen := false, discard := false
    auto := false, wcnt := 0, wfst := 0, disc := 0, cursor := 0, next := 0, ahead := [], due := [], waitq := [], heldq := []
    held := false, cut := 0, full := 0, sectN := 0, count := 0, cmd := none, tailed := false }

/-- Element 0 fires, and units take its command at once; its core has port 0, and no element is listed as issued. -/
def sendState : State :=
  { State.reset with
    cur := some ⟨0, 0, 0, true⟩
    cores := [(0, { Core.reset with ports := vset Core.reset.ports 0 (some closedPort) })] }

def srecOperands : FmtE := ⟨.s32, .none, .zero, .zero, .zero, 0, 0, 0, 0⟩

def sendFiring : Firing := ⟨0, sendState.view 0, plainTU, 0, 0, 0, 0⟩

theorem exec_srec (t : TU) (o : FmtE) (s : State) :
    exec (.srec t o) s = .next (s.fire (.srec t o) t fun f s => cmdIssue (.srec t o) 0 0 0 noBad (performSrec o) f s) := rfl

set_option maxRecDepth 20000 in
theorem sendState_performs_srec :
    ((sendState.fire (.srec plainTU srecOperands) plainTU fun f s =>
      cmdIssue (.srec plainTU srecOperands) 0 0 0 noBad (performSrec srecOperands) f s).slot 0 0).map Slot.stage = some 3 := by
  decide

/-- Refutes O14: an SREC of a firing that the cycle does not list as issued is performed as it issues, and does not stand in its slot. -/
theorem not_commandIssue : ¬ Obligations.CommandIssue := by
  intro h
  obtain ⟨hstands, -⟩ := h (.srec, fun _ _ _ => (0, 0, 0), fun _ _ _ => noBad) (by simp) sendState plainTU srecOperands sendFiring 0
    ⟨rfl, by decide⟩ (by decide)
  obtain ⟨s', hexec, htakes⟩ := hstands (fun _ _ _ _ => rfl) (.inr (.inr rfl))
  obtain rfl := Host.Outcome.next.inj ((exec_srec _ _ _).symm.trans hexec)
  obtain ⟨y, hslot, -, -, -, -, hstage, -⟩ := htakes.slot
  have hperformed := sendState_performs_srec
  rw [show sendFiring.e = 0 from rfl] at hslot
  rw [hslot, Option.map_some, hstage] at hperformed
  exact absurd hperformed (by decide)

end Sys2Proof.Machine
end

section
/-! SUPPORT. PREF through a cached leaf that no walk yields (O17). -/

namespace Sys2Proof.Machine

open Sys2Proof

/-! ### A prefetch of a native page through a 2 MiB leaf (R191, R193, R490)

PREF names the line it brings in by the place of its address in a page of 64 KiB, `Loc.at`; a native page has no 2 MiB leaf (R191). A state whose
TLB holds such a leaf all the same translates by it, to a place in another line than the one PREF brings in. -/

/-- Element 0 fires, and units take its command at once; its core's TLB holds a 2 MiB leaf of type 3 for the first pages of partition 0. -/
def bigNativeState : State :=
  { State.reset with
    cur := some ⟨0, 0, 0, true⟩
    cores := [(0, { Core.reset with tlb := [(tlbKey 0 0 true, 0x60)] })] }

/-- A PREF of the second page of 64 KiB. -/
def prefOperands : FmtM := ⟨.s32, .none, .zero, .zero, 0, 4, 0, 0, 65536⟩

def prefFiring : Firing := ⟨0, bigNativeState.view 0, plainTU, 0, 0, 0, 0⟩

theorem exec_pref (t : TU) (o : FmtM) (s : State) :
    exec (.pref t o) s = .next (s.fire (.pref t o) t (memIssue (.pref t o) o 0 noBad (performPref o))) := rfl

theorem bigNativeState_ready : ReadyIn bigNativeState plainTU prefFiring 0 :=
  ⟨⟨rfl, by decide⟩, by decide, rfl, by decide, rfl, rfl, rfl, fun r hr => by cases hr⟩

set_option maxRecDepth 20000 in
theorem bigNativeState_resolve : (match bigNativeState.resolve 0 0 65536 .gathRead with | .ok l => some (l.addr / 128) | _ => none) = some 32768 := by
  decide

set_option maxRecDepth 20000 in
theorem bigNativeState_pref :
    SMap.find 32768 (bigNativeState.fire (.pref plainTU prefOperands) plainTU
      (memIssue (.pref plainTU prefOperands) prefOperands 0 noBad (performPref prefOperands))).l2 = none := by
  decide

/-- Refutes O17: PREF through a 2 MiB leaf of type 3 brings in another line than the one its address translates to. -/
theorem not_loadsAndHints : ¬ Obligations.LoadsAndHints := by
  rintro ⟨-, hhints⟩
  obtain ⟨-, -, ⟨s', hexec, -, -, -, hline⟩, -⟩ :=
    hhints bigNativeState plainTU prefOperands prefFiring 0 bigNativeState_ready
  obtain rfl := Host.Outcome.next.inj ((exec_pref _ _ _).symm.trans hexec)
  have hplace := bigNativeState_resolve
  rw [show effAddr prefFiring prefOperands = 65536 by decide] at hline
  split at hplace
  next l hl =>
    have haddr : l.addr / 128 = 32768 := Option.some.inj hplace
    have hsome := hline l rfl hl
    rw [haddr, bigNativeState_pref] at hsome
    exact absurd hsome (by decide)
  next => cases hplace

end Sys2Proof.Machine
end

section
/-! SUPPORT. The completions of the system commands WRSR, TIME, WAITA and CFGW, and the marks of watches (R224, R424, R532, R543, R546). -/

namespace Sys2Proof.Machine

open Sys2Proof

/-! ### A completion that may write special registers (R546) -/

section
variable (cycle : Nat) (x : Elem) (n : Nat) (v : W64)

@[simp] theorem setSpecial_slots : (setSpecial cycle x n v).slots = x.slots := by
  unfold setSpecial
  extract_lets
  split <;> rfl

@[simp] theorem setSpecial_s : (setSpecial cycle x n v).s = x.s := by
  unfold setSpecial
  extract_lets
  split <;> rfl

end

theorem applyAll_slots (cycle : Nat) (x : Elem) {f : Effect} (hsets : f.sets = []) {k : Nat} (hslot : f.slot = some k) :
    (applyAll cycle x f).slots = vset x.slots k none := by
  simp only [applyAll, hsets, List.foldl_nil]
  rw [foldl_keep (fun (x : Elem) (w : Nat × W64) => setSpecial cycle x w.1 w.2) Elem.slots fun x w => setSpecial_slots cycle x w.1 w.2,
    Elem.apply_slots x f hslot]

theorem applyAll_s (cycle : Nat) (x : Elem) {f : Effect} (hsets : f.sets = []) : (applyAll cycle x f).s = (x.apply f).s := by
  simp only [applyAll, hsets, List.foldl_nil]
  rw [foldl_keep (fun (x : Elem) (w : Nat × W64) => setSpecial cycle x w.1 w.2) Elem.s fun x w => setSpecial_s cycle x w.1 w.2]

/-! ### A command completes with a value (R34, R37) -/

/-- The result of a command that returns v. -/
def commandRes (wide : Bool) (v : Nat) : Res := ⟨if wide then .s64 else .n32, false, [v % (if wide then 2 ^ 64 else 2 ^ 32)], flNone⟩

/-- Slot k of e is free in s', and v has been written to D. -/
def Returned (s s' : State) (e k : Nat) (d : Dst) (wide : Bool) (v : Nat) : Prop :=
  s'.slot e k = none ∧ ∀ n < 16, (s'.elem e).sreg n = destS (commandRes wide v) d n ((s.elem e).sreg n)

theorem Returned.congr {s s' t t' : State} {e k : Nat} {d : Dst} {wide : Bool} {v : Nat} (h : Returned s s' e k d wide v)
    (ht : t.elem e = s.elem e) (ht' : t'.elem e = s'.elem e) : Returned t t' e k d wide v := by
  unfold Returned State.slot
  rw [ht, ht']
  exact h

section
variable {s : State} {e : Nat} (hr : Roomy s e) (u : State) (k : Nat) (y : Slot) (d : Dst) (wide : Bool) (v : Nat) (cond : Bool)
  (spec : List (Nat × W64))

theorem State.wordEffect_toks_length : (u.wordEffect e k y d wide v cond spec).toks.length ≤ 2 :=
  resToks_length (slotTU y) (tagOf (slotTU y) y.tagq (u.view e)) cond (commandRes wide v)

include hr in
theorem State.wordEffect_room :
    let ef := u.wordEffect e k y d wide v cond spec
    ((s.elem e).bufferRoom ef.toks && !(s.elem e).behind ef.seq ef.toks) = true := by
  intro ef
  have h := hr.room (u.wordEffect_toks_length (e := e) k y d wide v cond spec) plainTU ef.seq
  simpa only [Elem.bufferRoom, Elem.behind, issueElem_outOf, issueElem_waiting] using h

include hr in
theorem State.completeWith_wordEffect :
    s.completeWith e (u.wordEffect e k y d wide v cond spec) =
      s.setElem e (applyAll s.cycle (s.elem e) (u.wordEffect e k y d wide v cond spec)) :=
  State.completeWith_roomy hr (u.wordEffect_toks_length k y d wide v cond spec)

include hr in
theorem returned_completeWith (hk : k < 8) :
    Returned s (s.completeWith e (u.wordEffect e k y d wide v cond spec)) e k d wide v := by
  rw [State.completeWith_wordEffect hr]
  unfold Returned State.slot
  rw [State.elem_setElem_self]
  refine ⟨?_, fun n hn => ?_⟩
  · rw [applyAll_slots (f := u.wordEffect e k y d wide v cond spec) _ _ rfl rfl]
    exact vget_vset_self _ _ _ _ hk
  · rw [Elem.sreg_congr (applyAll_s (f := u.wordEffect e k y d wide v cond spec) _ _ rfl), Elem.sreg_congr (Elem.apply_s ..)]
    exact sreg_resEffect (slotTU y) (some k) y.seq d (tagOf (slotTU y) y.tagq (u.view e)) cond (commandRes wide v) (s.elem e) hn

end

/-! ### The commands (R424, R532, R543, R546) -/

section
variable {s : State} {e k : Nat} {y : Slot} (o : FmtE) (hk : k < 8) (hy : s.slot e k = some y) (hr : Roomy s e)
include hk hy hr

/-- A WRSR of a register of the element writes it as it returns what it held. -/
theorem finishWrsr_own (hown : (o.imm.toNat ≤ 0x06 || 0x0B ≤ o.imm.toNat) = true) :
    let n := o.imm.toNat
    let s' := s.finishWrsr e k o
    Returned s s' e k o.d (wideReg n) (s.specialReg e (s.elem e) n) ∧ s'.parts = s.parts ∧
      ∃ x, s'.elem e = { setSpecial s.cycle x n (BitVec.ofNat 64 y.opa.toNat) with lastDone := (s'.elem e).lastDone } := by
  intro n s'
  let old := s.specialReg e (s.elem e) n
  let ef := s.wordEffect e k y o.d (wideReg n) old (old != 0) [(n, BitVec.ofNat 64 y.opa.toNat)]
  have h : s' = s.completeWith e ef := by
    simp only [s', State.finishWrsr, hy, hown, if_true, State.wordEffect_room hr]
    rfl
  refine ⟨?_, ?_, (s.elem e).apply ef, ?_⟩
  · rw [h]
    exact returned_completeWith hr s k y o.d _ old _ _ hk
  · rw [h]
    rfl
  · rw [h, State.completeWith_wordEffect hr, State.elem_setElem_self]
    rfl

/-- A WRSR of a register of the partition writes that, and notes what the partition held as the cycle began. -/
theorem finishWrsr_part (hown : (o.imm.toNat ≤ 0x06 || 0x0B ≤ o.imm.toNat) = false) (hp : s.partOf e < 8) :
    let n := o.imm.toNat
    let s' := s.finishWrsr e k o
    Returned s s' e k o.d (wideReg n) (s.specialReg e (s.elem e) n) ∧
      s'.part (s.partOf e) = { (s.part (s.partOf e)).writeSpecial n y.opa.toNat with before := (s'.part (s.partOf e)).before } := by
  intro n s'
  let old := s.specialReg e (s.elem e) n
  let u := s.completeWith e (s.wordEffect e k y o.d (wideReg n) old (old != 0) [])
  have h : s' = u.modPart (u.partOf e) fun p =>
      { p.writeSpecial n y.opa.toNat with before := if p.before.1 = u.cycle + 1 then p.before else (u.cycle + 1, p.specials) } := by
    simp only [s', State.finishWrsr, hy, hown, Bool.false_eq_true, if_false, State.wordEffect_room hr, if_true]
    rfl
  have hback : Returned s u e k o.d (wideReg n) old := returned_completeWith hr s k y o.d _ old _ _ hk
  refine ⟨?_, ?_⟩
  · rw [h]
    exact hback.congr rfl rfl
  · rw [h]
    have hu : u.partOf e = s.partOf e := rfl
    have hpart : u.part (s.partOf e) = s.part (s.partOf e) := rfl
    rw [hu, State.part_modPart_self _ hp, hpart]

theorem finishTime_returns :
    let s' := s.finishTime e k o
    OnlyElem s s' e ∧ Returned s s' e k o.d true (s.part (s.partOf e)).tick.tNow.toNat := by
  intro s'
  have h : s' = s.completeWith e (s.wordEffect e k y o.d true (s.part (s.partOf e)).tick.tNow.toNat
      ((s.part (s.partOf e)).tick.tNow.toNat != 0) []) := by
    simp only [s', State.finishTime, hy]
  rw [h]
  exact ⟨by rw [State.completeWith_wordEffect hr]; simp [OnlyElem], returned_completeWith hr s k y o.d _ _ _ _ hk⟩

theorem finishWaita_returns :
    let s' := s.finishWaita e k o
    OnlyElem s s' e ∧ Returned s s' e k o.d false y.lres.toNat := by
  intro s'
  have h : s' = s.completeWith e (s.wordEffect e k y o.d false y.lres.toNat true []) := by
    simp only [s', State.finishWaita, hy]
  rw [h]
  exact ⟨by rw [State.completeWith_wordEffect hr]; simp [OnlyElem], returned_completeWith hr s k y o.d _ _ _ _ hk⟩

/-- A CFGW of another element writes its target's transition when the word is good. -/
theorem finishCfgw_returns {r : Region} {g i : Nat} (hreg : s.regOf e = some r)
    (hold : ∀ j < 8, ∀ z, s.slot e j = some z → z.seq < y.seq → isCfgw z.ins = false)
    (htarget : cfgwTarget r y.opb.toNat = some (g, i)) (hne : g ≠ e) :
    let s' := s.finishCfgw e k o
    let w := BitVec.ofNat 128 y.opa.toNat
    let st := cfgwStatus (s.wordCtx g) w
    Returned s s' e k o.d false st ∧
      s'.elem g = if st = 0 then { s.elem g with pool := vset (s.elem g).pool i w } else s.elem g := by
  intro s' w st
  let ef := s.wordEffect e k y o.d false st (st != 0) []
  let u := if st = 0 then (s.modElem g fun x => { x with pool := vset x.pool i w }).changed (coreOf g) else s
  have h : s' = u.completeWith e ef := by
    simp only [s', State.finishCfgw, hy, hreg, htarget, State.wordEffect_room hr, Bool.and_true, decide_eq_true_eq]
    rw [if_neg]
    rw [List.any_eq_true]
    rintro ⟨z, hz, holder⟩
    cases z with
    | none => cases holder
    | some z =>
      obtain ⟨j, hj, hjz⟩ := mem_toList_iff_vget.1 hz
      obtain ⟨hseq, hins⟩ := Bool.and_eq_true_iff.1 holder
      exact Bool.false_ne_true ((hold j hj z hjz (of_decide_eq_true hseq)).symm.trans hins)
  have he : u.elem e = s.elem e := by
    unfold u
    split
    · exact State.elem_setElem_ne s hne.symm _
    · rfl
  have hg : u.elem g = if st = 0 then { s.elem g with pool := vset (s.elem g).pool i w } else s.elem g := by
    unfold u
    split
    · exact State.elem_setElem_self ..
    · rfl
  have hru : Roomy u e := by
    unfold Roomy
    rw [he]
    exact hr
  refine ⟨?_, ?_⟩
  · rw [h]
    exact (returned_completeWith hru s k y o.d _ _ _ _ hk).congr he.symm rfl
  · rw [h, State.completeWith_wordEffect hru, State.elem_setElem_ne _ hne, hg]

end

theorem systemCompletion : Claims.SystemCompletion := by
  intro s e k y t o hk hy hm hr back
  have runs {g : State} (h : s.finishFiring e k y = g) : exec (.firingCompletion e k) s = .next g :=
    (exec_firingCompletion hy hm).trans (congrArg _ h)
  refine ⟨fun q hq hins hreg hop => ?wrsr, fun hins hreg hp => ?pmig, fun hins => ?time, fun hins => ?waita,
    fun r g i hr' hins hold htarget hne hi => ?cfgw⟩
  case wrsr =>
    have hfin : s.finishFiring e k y = s.finishWrsr e k o := by simp only [State.finishFiring, hins]
    revert q
    simp only [List.forall_mem_cons, List.not_mem_nil, false_implies, implies_true, and_true]
    have hword : (BitVec.ofNat 64 y.opa.toNat).toNat = y.opa.toNat := by
      rw [BitVec.toNat_ofNat, Nat.mod_eq_of_lt (by omega)]
    refine ⟨fun hreg => ?_, fun hreg => ?_⟩
    all_goals
      obtain ⟨hback, hparts, x, hx⟩ := finishWrsr_own o hk hy hr (by rw [hreg]; rfl)
      rw [hreg] at hback hx
      refine ⟨_, runs hfin, hback, hparts, ?_⟩
    · exact (congrArg Elem.tagr hx).trans (congrArg (BitVec.ofNat 32 · &&& 7) hword)
    · exact (congrArg Elem.axc hx).trans (congrArg (BitVec.ofNat 32 · &&& axcMask) hword)
  case pmig =>
    have hfin : s.finishFiring e k y = s.finishWrsr e k o := by simp only [State.finishFiring, hins]
    obtain ⟨hback, hpart⟩ := finishWrsr_part o hk hy hr (by rw [hreg]; rfl) hp
    rw [hreg] at hback hpart
    exact ⟨_, runs hfin, hback, hpart⟩
  case time =>
    have hfin : s.finishFiring e k y = s.finishTime e k o := by simp only [State.finishFiring, hins]
    exact ⟨_, runs hfin, finishTime_returns o hk hy hr⟩
  case waita =>
    have hfin : s.finishFiring e k y = s.finishWaita e k o := by simp only [State.finishFiring, hins]
    exact ⟨_, runs hfin, finishWaita_returns o hk hy hr⟩
  case cfgw =>
    intro w st
    have hfin : s.finishFiring e k y = s.finishCfgw e k o := by simp only [State.finishFiring, hins]
    obtain ⟨hback, hpool⟩ := finishCfgw_returns o hk hy hr hr' hold htarget hne
    refine ⟨_, runs hfin, hback, fun hst => ?_, fun hst => ?_⟩
    · rw [hpool, if_pos hst]
      exact ⟨rfl, rfl⟩
    · rw [hpool, if_neg hst]

/-! ### Watches (R224) -/

theorem watchMarks : Claims.WatchMarks := by
  intro s e i w d hi hw hdue hruns
  have hexec : exec (.watchMark e i) s = .next (s.watchMark1 e i) := rfl
  rw [hexec]
  have hwatch : s.watchDue e i = if (d ≤ s.cycle && s.roomFor e w.place) = true then some w else none := by
    simp only [State.watchDue, hw, hdue]
  refine ⟨fun hd hroom => ⟨_, rfl, ?_⟩, fun h => congrArg _ ?_⟩
  · rw [if_pos (by rw [hroom, Bool.and_true, decide_eq_true hd])] at hwatch
    simp only [State.watchMark1, hwatch, hruns, if_true, OnlyElem, State.elem_setElem_self, true_and]
    rfl
  · rw [if_neg] at hwatch
    · simp only [State.watchMark1, hwatch]
    · rw [Bool.and_eq_true, decide_eq_true_eq]
      rintro ⟨hd, hroom⟩
      rcases h with h | h
      · exact Bool.false_ne_true (h.symm.trans hroom)
      · exact absurd hd (Nat.not_le.2 h)

/-- Settles O38: a command completes with one effect, which frees its slot and writes its value, and WRSR and CFGW change their register or their
target besides; a watch is marked exactly when it is due and its place has room. -/
theorem systemCompletions : Obligations.SystemCompletions := ⟨systemCompletion, watchMarks⟩

end Sys2Proof.Machine
end

section
/-! SUPPORT. An operation that its unit takes as it issues: the slot it has filled, what its issue leaves of translation, and the forced cut that it
asks for. -/

namespace Sys2Proof.Machine

open Sys2Proof

/-! ### The slot of an issue (R29, R45, R353) -/

/-- A slot as an issue of i has filled it, with its captured operands. -/
structure Slot.Captured (y : Slot) (f : Firing) (i : Instr) (a b c : VW) (chn : Nat) : Prop where
  ins : y.ins = i
  tix : y.tix = f.tix
  seq : y.seq = f.seq
  opa : y.opa = a
  opb : y.opb = b
  opc : y.opc = c
  chn : y.chn = chn
  stage : y.stage = 0
  held : y.held = false
  cut : y.cut = 0
  full : y.full = 0
  sub : y.sub = 0
  prog : y.prog = 0
  st : y.st = if isCommand i then .engine else .held

theorem State.slot_takeSlot_captured {s : State} {f : Firing} {k : Nat} (hk : freeSlot f.x = some k) (i : Instr) (a b c : VW) (fl : Fl) (chn : Nat) :
    ∃ y, (s.takeSlot f i a b c fl chn).1.slot f.e k = some y ∧ y.Captured f i a b c chn := by
  simp only [State.slot, State.takeSlot, State.issue, State.modElem_eq, State.setElem_setElem, State.elem_setElem_self, hk,
    Option.getD_some, vget_vset_self _ _ _ _ (freeSlot_lt hk)]
  exact ⟨_, rfl, rfl, rfl, rfl, rfl, rfl, rfl, rfl, rfl, rfl, rfl, rfl, rfl, rfl, rfl⟩

/-- u is s after the firing f of it has filled slot k with y, and everything ordered before y has been performed. -/
structure Filled (s u : State) (f : Firing) (i : Instr) (k : Nat) (a b c : VW) (chn : Nat) (y : Slot) : Prop where
  takes : Takes s u f i k a b c chn
  lt : k < 8
  slot : u.slot f.e k = some y
  captured : y.Captured f i a b c chn
  edges : u.edgesMet f.e y = true

/-- A sound operation of an element with nothing outstanding acts as it issues. -/
theorem promptly_acts {s : State} {t : TU} {f : Firing} {k : Nat} (h : ReadyIn s t f k) (i : Instr) (a b c : VW) (chn : Nat)
    {bad : Slot → Option (Nat × Nat)} (hb : ∀ y : Slot, y.Captured f i a b c chn → bad y = none) (act : State → State) :
    ∃ u y, (s.takeSlot f i a b c flNone chn).1.promptly f.e k bad act = act u ∧ Filled s u f i k a b c chn y := by
  obtain ⟨hord, hk, hprompt, halone⟩ := h
  have ht := takes_of hord.1 hk i a b c flNone chn
  obtain ⟨y, hy, hcap⟩ := s.slot_takeSlot_captured hk i a b c flNone chn
  refine ⟨_, y, ?_, ht, freeSlot_lt hk, hy, hcap, ht.edgesMet halone hy⟩
  have hcur : (s.takeSlot f i a b c flNone chn).1.cur = s.cur := by
    rw [ht.only]
    rfl
  obtain ⟨w, hw, hp⟩ := Option.map_eq_some_iff.1 hprompt
  simp only [State.promptly, hy, hb y hcap, hcur, hw, hp, if_true]

theorem takeSlot_snd {s : State} {f : Firing} {k : Nat} (hk : freeSlot f.x = some k) (i : Instr) (a b c : VW) (fl : Fl) (chn : Nat) :
    (s.takeSlot f i a b c fl chn).2 = k := congrArg (Option.getD · 0) hk

/-- A sound command acts as it issues. -/
theorem cmdIssue_acts {s : State} {t : TU} {f : Firing} {k : Nat} (h : ReadyIn s t f k) (i : Instr) (a b c : VW)
    {bad : Slot → Option (Nat × Nat)} (hb : ∀ y : Slot, y.Captured f i a b c 0 → bad y = none) (perf : Nat → Nat → State → State) :
    ∃ u y, cmdIssue i a b c bad perf f s = perf f.e k u ∧ Filled s u f i k a b c 0 y := by
  obtain ⟨u, y, hact, hfilled⟩ := promptly_acts h i a b c 0 hb (perf f.e k)
  refine ⟨u, y, ?_, hfilled⟩
  rw [← hact]
  simp only [cmdIssue, takeSlot_snd h.2.1]

theorem exec_cmdIssue_acts {s : State} {t : TU} {f : Firing} {k : Nat} (h : ReadyIn s t f k) {i : Instr} {g : Firing → State → VW × VW × VW}
    {bad : Slot → Option (Nat × Nat)} {perf : Nat → Nat → State → State}
    (hi : exec i s = .next (s.fire i t fun f s => cmdIssue i (g f s).1 (g f s).2.1 (g f s).2.2 bad perf f s))
    (hb : ∀ y : Slot, y.Captured f i (g f s).1 (g f s).2.1 (g f s).2.2 0 → bad y = none) :
    ∃ u y, exec i s = .next (perf f.e k u) ∧ Filled s u f i k (g f s).1 (g f s).2.1 (g f s).2.2 0 y := by
  obtain ⟨u, y, hact, hfilled⟩ := cmdIssue_acts h i _ _ _ hb perf
  exact ⟨u, y, by rw [hi, State.fire_ordinary h.1, hact], hfilled⟩

/-- A sound memory operation acts as it issues. -/
theorem exec_memIssue_acts {s : State} {t : TU} {f : Firing} {k : Nat} (h : ReadyIn s t f k) {i : Instr} {o : FmtM} (b : Firing → State → VW)
    {bad : Slot → Option (Nat × Nat)} {perf : Nat → Nat → State → State}
    (hi : exec i s = .next (s.fire i t fun f s => memIssue i o (b f s) bad perf f s))
    (hb : ∀ y : Slot, y.opa = word512 (pairOf f.x o.a) → bad y = none) :
    ∃ u y, exec i s = .next (perf f.e k u) ∧
      Filled s u f i k (word512 (pairOf f.x o.a)) (b f s) (storedOf f.x o.ty o.d) o.chn.toNat y := by
  obtain ⟨u, y, hact, hfilled⟩ := promptly_acts h i (word512 (pairOf f.x o.a)) (b f s) (storedOf f.x o.ty o.d) o.chn.toNat (bad := bad)
    (fun y hy => hb y hy.opa) (perf f.e k)
  refine ⟨u, y, ?_, hfilled⟩
  rw [hi, State.fire_ordinary h.1, memIssue_eq h.2.1, hact]

/-- Of an element with nothing else outstanding, the operation that has just been issued is the only one. -/
theorem Filled.outstanding {s u : State} {f : Firing} {i : Instr} {k : Nat} {a b c : VW} {chn : Nat} {y : Slot}
    (h : Filled s u f i k a b c chn y) (ha : Alone s f.e) {z : Slot} (hz : z ∈ u.outstanding f.e) : z = y := by
  obtain ⟨hslots, hposted, hupdates, hsided, -⟩ := ha
  have hu : u.updates = [] := (congrArg State.updates h.takes.only).trans hupdates
  have hd : u.sided = [] := (congrArg State.sided h.takes.only).trans hsided
  have hp : (u.elem f.e).posted = [] := (h.takes.issued.keeps Elem.posted fun _ => rfl).trans hposted
  simp only [State.outstanding, hp, hu, hd, List.filter_nil, List.map_nil, List.append_nil, List.mem_filter, List.mem_filterMap, id_eq,
    exists_eq_right] at hz
  obtain ⟨j, hj, hjz⟩ := mem_toList_iff_vget.1 hz.1
  by_cases hjk : j = k
  · subst hjk
    exact Option.some.inj (hjz.symm.trans h.slot)
  · rw [h.takes.issued.slots j hj hjk] at hjz
    exact absurd ((hslots j hj).symm.trans hjz) (by simp)

/-- It is the first of whatever kind. -/
theorem Filled.firstOf {s u : State} {f : Firing} {i : Instr} {k : Nat} {a b c : VW} {chn : Nat} {y : Slot}
    (h : Filled s u f i k a b c chn y) (ha : Alone s f.e) (p : Instr → Bool) : u.firstOf f.e y p = true := by
  refine List.all_eq_true.2 fun z hz => ?_
  cases z with
  | none => rfl
  | some z =>
    obtain ⟨j, hj, hjz⟩ := mem_toList_iff_vget.1 hz
    by_cases hjk : j = k
    · subst hjk
      obtain rfl : z = y := Option.some.inj (hjz.symm.trans h.slot)
      simp
    · rw [h.takes.issued.slots j hj hjk] at hjz
      exact absurd ((ha.1 j hj).symm.trans hjz) (by simp)

theorem Filled.acts {s u : State} {f : Firing} {i : Instr} {k : Nat} {a b c : VW} {chn : Nat} {y : Slot} (h : Filled s u f i k a b c chn y)
    {bad : Slot → Option (Nat × Nat)} (hb : bad y = none) (act : Slot → State) : u.trySlot f.e k bad act = act y :=
  State.trySlot_acts h.slot h.captured.stage h.captured.held hb h.edges act

/-! ### Captured words (R353) -/

theorem word512_toNat {n : Nat} (h : n < 2 ^ 64) : (word512 n).toNat = n := by
  have hmod := word512_toNat_mod h
  rw [word512, BitVec.toNat_ofNat] at hmod ⊢
  rw [Nat.mod_eq_of_lt]
  exact lt_of_lt_of_le h (Nat.pow_le_pow_right (by decide) (by decide))

theorem wordOf_lt (x : Elem) (c : Src) : wordOf x c < 2 ^ 32 := by
  cases c with
  | s r => exact BitVec.isLt _
  | _ => exact Nat.two_pow_pos 32

theorem word512_wordOf (x : Elem) (c : Src) : (word512 (wordOf x c)).toNat = wordOf x c :=
  word512_toNat ((wordOf_lt x c).trans (by decide))

theorem word512_pairOf (x : Elem) (c : Src) : (word512 (pairOf x c)).toNat = pairOf x c := word512_toNat (pairOf_lt x c)

/-! ### A command with a fault at issue (R371) -/

theorem exec_cmdIssue_raises {s : State} {t : TU} {f : Firing} {k : Nat} (h : Ordinary s t f) (hk : freeSlot f.x = some k) {i : Instr}
    {g : Firing → State → VW × VW × VW} {bad : Slot → Option (Nat × Nat)} {perf : Nat → Nat → State → State} {code addr : Nat}
    (hi : exec i s = .next (s.fire i t fun f s => cmdIssue i (g f s).1 (g f s).2.1 (g f s).2.2 bad perf f s))
    (hb : ∀ y : Slot, y.Captured f i (g f s).1 (g f s).2.1 (g f s).2.2 0 → bad y = some (code, addr)) :
    ∃ s', exec i s = .next s' ∧ SlotRaised s s' f k 0 code addr := by
  obtain ⟨y, hy, hcap⟩ := s.slot_takeSlot_captured hk i (g f s).1 (g f s).2.1 (g f s).2.2 flNone 0
  refine ⟨_, hi, ?_⟩
  rw [State.fire_ordinary h]
  simp only [cmdIssue, takeSlot_snd hk]
  rw [State.promptly_bad hy (hb y hcap)]
  exact slotRaised_of (takes_of h.1 hk i (g f s).1 (g f s).2.1 (g f s).2.2 flNone 0) (freeSlot_lt hk) code addr

/-! ### What an issue leaves of the rest of the machine -/

section
variable {s u : State} {f : Firing} {i : Instr} {k : Nat} {a b c : VW} {chn : Nat} (h : Takes s u f i k a b c chn)
include h

/-- What of a state no change of an element touches stands after an issue. -/
theorem Takes.keeps {γ : Type} (g : State → γ) (hg : ∀ (s : State) (e : Nat) (x : Elem), g (s.setElem e x) = g s) : g u = g s :=
  (congrArg g h.only).trans (hg ..)

theorem Takes.regionOf (e : Nat) : u.regionOf e = s.regionOf e := h.keeps (State.regionOf · e) fun _ _ _ => rfl
theorem Takes.regOf (e : Nat) : u.regOf e = s.regOf e := h.keeps (State.regOf · e) fun _ _ _ => rfl
theorem Takes.partOf (e : Nat) : u.partOf e = s.partOf e := h.keeps (State.partOf · e) fun _ _ _ => rfl
theorem Takes.regions : u.regions = s.regions := h.keeps State.regions fun _ _ _ => rfl
theorem Takes.region (n : Nat) : u.region n = s.region n := h.keeps (State.region · n) fun _ _ _ => rfl
theorem Takes.parts : u.parts = s.parts := h.keeps State.parts fun _ _ _ => rfl
theorem Takes.cores : u.cores = s.cores := h.keeps State.cores fun _ _ _ => rfl
theorem Takes.engines : u.engines = s.engines := h.keeps State.engines fun _ _ _ => rfl
theorem Takes.updates : u.updates = s.updates := h.keeps State.updates fun _ _ _ => rfl
theorem Takes.sided : u.sided = s.sided := h.keeps State.sided fun _ _ _ => rfl
theorem Takes.pool : (u.elem f.e).pool = (s.elem f.e).pool := h.issued.keeps Elem.pool fun _ => rfl
theorem Takes.posted : (u.elem f.e).posted = (s.elem f.e).posted := h.issued.keeps Elem.posted fun _ => rfl

end

/-! ### Translation after a change of an element that keeps its banks (R180, R181, R194) -/

theorem SMap.findSome?_set {α β : Type} {d x : α} {k : Nat} {g : Nat × α → Option β} {m : List (Nat × α)} (hd : g (k, d) = none)
    (hx : g (k, x) = g (k, SMap.get d k m)) : (SMap.set k x m).findSome? g = m.findSome? g := by
  induction m with
  | nil =>
    have hnone : g (k, x) = none := hx.trans hd
    simp [SMap.set, hnone]
  | cons p m ih =>
    obtain ⟨j, z⟩ := p
    rw [SMap.get] at hx
    rw [SMap.set]
    by_cases hj : k = j
    · rw [if_pos hj] at hx ⊢
      rw [List.findSome?_cons, List.findSome?_cons, hx, hj]
    · rw [if_neg hj] at hx ⊢
      by_cases hlt : k < j
      · rw [if_pos hlt] at hx ⊢
        rw [List.findSome?_cons, hx, hd]
      · rw [if_neg hlt] at hx ⊢
        rw [List.findSome?_cons, List.findSome?_cons, ih hx]

theorem SMap.all_set {α : Type} {d x : α} {k : Nat} {g : Nat × α → Bool} {m : List (Nat × α)} (hd : g (k, d) = true)
    (hx : g (k, x) = g (k, SMap.get d k m)) : (SMap.set k x m).all g = m.all g := by
  induction m with
  | nil =>
    have htrue : g (k, x) = true := hx.trans hd
    simp [SMap.set, htrue]
  | cons p m ih =>
    obtain ⟨j, z⟩ := p
    rw [SMap.get] at hx
    rw [SMap.set]
    by_cases hj : k = j
    · rw [if_pos hj] at hx ⊢
      rw [List.all_cons, List.all_cons, hx, hj]
    · rw [if_neg hj] at hx ⊢
      by_cases hlt : k < j
      · rw [if_pos hlt] at hx ⊢
        rw [List.all_cons, hx, hd]
        exact Bool.true_and _
      · rw [if_neg hlt] at hx ⊢
        rw [List.all_cons, List.all_cons, ih hx]

section
variable {s : State} {e : Nat} {x : Elem} (hfilled : x.filled = (s.elem e).filled) (hbank : x.bank = (s.elem e).bank)
  (hphys : x.qphys = (s.elem e).qphys)

theorem State.elem_setElem_keep {γ : Type} (g : Elem → γ) (hx : g x = g (s.elem e)) (d : Nat) :
    g ((s.setElem e x).elem d) = g (s.elem d) := by
  by_cases h : d = e
  · subst h
    rw [State.elem_setElem_self, hx]
  · rw [State.elem_setElem_ne _ h]

include hfilled hphys in
theorem State.overlay_setElem (a : Nat) : (s.setElem e x).overlay a = s.overlay a := by
  have hgranule : x.granuleOf a = (s.elem e).granuleOf a := by rw [Elem.granuleOf, Elem.granuleOf, hfilled]
  have hfind : (SMap.set e x s.elems).findSome? (fun p => (p.2.granuleOf a).map fun o => (p.1, o)) =
      s.elems.findSome? fun p => (p.2.granuleOf a).map fun o => (p.1, o) :=
    SMap.findSome?_set (d := Elem.reset e) rfl (by rw [hgranule]; rfl)
  have hquarter (d q : Nat) : vget ((s.setElem e x).elem d).qphys q 0 = vget (s.elem d).qphys q 0 :=
    State.elem_setElem_keep (fun x : Elem => vget x.qphys q 0) (by rw [hphys]) d
  have hlent : (s.setElem e x).lent = s.lent := rfl
  unfold State.overlay
  rw [hlent]
  cases SMap.find (a / 128) s.lent with
  | some q => simp only [hquarter]
  | none => exact hfind

include hfilled hbank hphys

theorem State.byteAs_setElem (tag a : Nat) : (s.setElem e x).byteAs tag a = s.byteAs tag a := by
  have hbanks (d : Nat) : ((s.setElem e x).elem d).bank = (s.elem d).bank := State.elem_setElem_keep Elem.bank hbank d
  unfold State.byteAs
  rw [State.overlay_setElem hfilled hphys]
  simp only [hbanks]
  rfl

theorem State.devRead_setElem (a n : Nat) : (s.setElem e x).devRead a n = s.devRead a n := by
  have hall : ((s.setElem e x).elems.all fun x => x.2.filled.isEmpty) = s.elems.all fun x => x.2.filled.isEmpty :=
    SMap.all_set (d := Elem.reset e) rfl (by rw [hfilled]; rfl)
  have hplain (tag : Nat) : (s.setElem e x).plainRun tag a n = s.plainRun tag a n := by
    unfold State.plainRun
    rw [hall]
    rfl
  have hbyte (b : Nat) : (s.setElem e x).devByte b = s.devByte b := State.byteAs_setElem hfilled hbank hphys ..
  unfold State.devRead
  simp only [hbyte]
  exact if_congr (by rw [← hplain]; rfl) rfl rfl

theorem walk_setElem (p va : Nat) : walk (s.setElem e x) p va = walk s p va := by
  have hentry : tableEntry (s.setElem e x) = tableEntry s := by
    funext p table i
    simp only [tableEntry, State.devRead_setElem hfilled hbank hphys]
    rfl
  unfold walk
  rw [hentry]
  rfl

theorem State.xlat_setElem (c p va : Nat) (ring : Bool) : (s.setElem e x).xlat c p va ring = s.xlat c p va ring := by
  unfold State.xlat
  rw [walk_setElem hfilled hbank hphys]
  rfl

theorem State.resolve_setElem (c p va : Nat) (a : Access) : (s.setElem e x).resolve c p va a = s.resolve c p va a := by
  unfold State.resolve
  rw [State.xlat_setElem hfilled hbank hphys]

theorem State.resolveRun_setElem (c p va n : Nat) (a : Access) : (s.setElem e x).resolveRun c p va n a = s.resolveRun c p va n a := by
  unfold State.resolveRun
  generalize n / 65536 + 2 = fuel
  induction fuel generalizing va n with
  | zero => rfl
  | succ fuel ih => simp only [State.resolveGo, State.resolve_setElem hfilled hbank hphys, ih]

end

section
variable {s u : State} {f : Firing} {i : Instr} {k : Nat} {a b c : VW} {chn : Nat} (h : Takes s u f i k a b c chn)
include h

theorem Takes.resolve (d p va : Nat) (x : Access) : u.resolve d p va x = s.resolve d p va x := by
  rw [h.only]
  exact State.resolve_setElem (h.issued.keeps Elem.filled fun _ => rfl) h.bank (h.issued.keeps Elem.qphys fun _ => rfl) ..

theorem Takes.resolveRun (d p va n : Nat) (x : Access) : u.resolveRun d p va n x = s.resolveRun d p va n x := by
  rw [h.only]
  exact State.resolveRun_setElem (h.issued.keeps Elem.filled fun _ => rfl) h.bank (h.issued.keeps Elem.qphys fun _ => rfl) ..

end

/-- What does not depend on cores and translation caches is the same of two states that differ in them alone. -/
theorem State.coreless_keeps {γ : Type} (g : State → γ) (hg : ∀ s : State, g s.coreless = g s) {s t : State} (h : t.coreless = s.coreless) :
    g t = g s := (hg t).symm.trans ((congrArg g h).trans (hg s))

theorem State.elemAccess_ok {s : State} {e va n : Nat} {a : Access} {ls : List (Loc × Nat)}
    (h : s.resolveRun (coreOf e) (s.partOf e) va n a = .ok ls) (k : Nat) (act : List (Loc × Nat) → State → State) :
    s.elemAccess e k va n a act = act ls (s.fillRun (coreOf e) (s.partOf e) va n) := by
  simp only [State.elemAccess, h]

/-! ### An operation that is performed, or that asks for a forced cut (R45, R369, R555) -/

theorem quiet_setElem {s : State} {e : Nat} {x : Elem} (hs : x.s = (s.elem e).s) (hv : x.v = (s.elem e).v) (ho : x.out = (s.elem e).out)
    (ha : x.axs = (s.elem e).axs) : Quiet s (s.setElem e x) e := by
  have h : (s.setElem e x).elem e = x := State.elem_setElem_self ..
  exact ⟨⟨rfl, rfl, rfl⟩, ⟨by rw [h, hs], by rw [h, hv]⟩, by rw [h, ho], by rw [h, ha]⟩

theorem State.elem_setSlot_keep {γ : Type} (g : Elem → γ) (hg : ∀ (x : Elem) ys, g { x with slots := ys } = g x) (s : State) (e k : Nat)
    (y : Slot) : g ((s.setSlot e k y).elem e) = g (s.elem e) :=
  (congrArg g (State.elem_setElem_self ..)).trans (hg ..)

theorem State.elem_performed_keep {γ : Type} (g : Elem → γ) (hg : ∀ (x : Elem) ys, g { x with slots := ys } = g x) (s : State) (e k : Nat)
    (v : VW) : g ((s.performed e k v).elem e) = g (s.elem e) := by
  unfold State.performed
  split
  · rfl
  · exact State.elem_setSlot_keep g hg ..

/-- What no change of an element touches stands when an operation has been performed. -/
theorem State.performed_keep {γ : Type} (g : State → γ) (hg : ∀ (s : State) (e : Nat) (x : Elem), g (s.setElem e x) = g s) (s : State)
    (e k : Nat) (v : VW) : g (s.performed e k v) = g s := by
  unfold State.performed
  split
  · rfl
  · exact hg ..

section
variable {s u : State} {f : Firing} {i : Instr} {k : Nat} {a b c : VW} {chn : Nat} {y : Slot} (h : Filled s u f i k a b c chn y)
include h

/-- An operation that has changed nothing that shows, and is performed. -/
theorem Filled.performed {v : State} (hq : Quiet u v f.e) (hslot : v.slot f.e k = u.slot f.e k) (w : VW) :
    Quiet s (v.performed f.e k w) f.e ∧ Performed (v.performed f.e k w) f.e k i w := by
  refine ⟨h.takes.quiet.trans (hq.trans (quiet_performed ..)), ?_⟩
  have hp := performed_performed h.lt (hslot.trans h.slot) w
  rwa [h.captured.ins] at hp

/-- An operation of no visible effect that needs nothing is performed as it is tried. -/
theorem Filled.performNow : Quiet s (performNow f.e k u) f.e ∧ Performed (performNow f.e k u) f.e k i 0 := by
  rw [Machine.performNow, h.acts rfl]
  exact h.performed (quiet_refl ..) rfl 0

end

/-! ### A forced cut asked for (R369, R555) -/

theorem State.body_askCut (s : State) (r : Option Nat) : (s.askCut r).body = s.body := by
  unfold State.askCut
  split
  · exact State.body_modRegion ..
  · rfl

theorem State.body_slotCut (s : State) (e k : Nat) (y : Slot) : (s.slotCut e k y).body = (s.setSlot e k { y with cut := 1 }).body :=
  State.body_askCut ..

theorem State.elem_slotCut (s : State) (e k d : Nat) (y : Slot) : (s.slotCut e k y).elem d = (s.setSlot e k { y with cut := 1 }).elem d :=
  State.elem_congr (congrArg State.elems (s.body_slotCut e k y)) d

theorem quiet_of_body {s t : State} (h : t.body = s.body) (e : Nat) : Quiet s t e := by
  have hmems : t.body.mems = s.body.mems := by rw [h]
  have helems : t.body.elems = s.body.elems := by rw [h]
  exact quiet_of_elems (s := s) (t := t) ⟨congrArg (·.1) hmems, congrArg (·.2.1) hmems, congrArg (·.2.2) hmems⟩ helems e

theorem quiet_slotCut (s : State) (e k : Nat) (y : Slot) : Quiet s (s.slotCut e k y) e :=
  (quiet_setSlot s e k { y with cut := 1 }).trans (quiet_of_body (s.body_slotCut e k y) e)

theorem State.region_slotCut {s : State} {e rn : Nat} {r : Region} (hn : s.regionOf e = some rn) (hr : s.region rn = some r) (k : Nat) (y : Slot) :
    (s.slotCut e k y).region rn = some { r with cutReq := true } := by
  have hr' : (s.setSlot e k { y with cut := 1 }).region rn = some r := hr
  simp only [State.slotCut, State.askCut, hn, State.modRegion_eq, hr', State.region_setRegion_self]

/-- Slot k of e holds i and waits for the forced cut that it has asked of its region. -/
structure AsksCut (s s' : State) (e k : Nat) (i : Instr) : Prop where
  quiet : Quiet s s' e
  slot : ∃ y, s'.slot e k = some y ∧ y.ins = i ∧ y.stage = 0 ∧ y.cut = 1
  region : ∀ rn r, s.regionOf e = some rn → s.region rn = some r → s'.region rn = some { r with cutReq := true }
  posted : (s'.elem e).posted = (s.elem e).posted
  engines : s'.engines = s.engines

/-- An operation that has just filled its slot asks for its cut, from whatever caches of translations. -/
theorem Filled.asksCut {s u v : State} {f : Firing} {i : Instr} {k : Nat} {a b c : VW} {chn : Nat} {y : Slot}
    (h : Filled s u f i k a b c chn y) (hv : v.coreless = u.coreless) : AsksCut s (v.slotCut f.e k y) f.e k i where
  quiet := h.takes.quiet.trans ((quiet_of_coreless hv f.e).trans (quiet_slotCut ..))
  slot := by
    refine ⟨{ y with cut := 1 }, ?_, h.captured.ins, h.captured.stage, rfl⟩
    rw [State.slot, State.elem_slotCut]
    exact State.slot_setSlot_self _ _ _ h.lt
  region rn r hn hr := by
    refine State.region_slotCut ?_ ?_ k y
    · exact (State.coreless_keeps (State.regionOf · f.e) (fun _ => rfl) hv).trans ((h.takes.regionOf f.e).trans hn)
    · exact (State.coreless_keeps (State.region · rn) (fun _ => rfl) hv).trans ((h.takes.region rn).trans hr)
  posted := by
    rw [State.elem_slotCut, State.elem_setSlot_keep Elem.posted fun _ _ => rfl, State.elem_congr (State.elems_of_coreless hv), h.takes.posted]
  engines := by
    exact (congrArg State.engines (v.body_slotCut f.e k y)).trans
      ((State.coreless_keeps State.engines (fun _ => rfl) hv).trans h.takes.engines)

end Sys2Proof.Machine
end

section
/-! SUPPORT. The system commands as their units take them: RDSR, TIME, WRSR, CFGW, WAITA, FRZ, RPULL and LNCH (R224, R336, R369, R443, R460, R497). -/

namespace Sys2Proof.Machine

open Sys2Proof

/-! ### RDSR and TIME, performed by their issue (R497, R532) -/

theorem takeSlot_performed {s : State} {t : TU} {f : Firing} {k : Nat} (h : ReadyIn s t f k) (i : Instr) (v : VW) :
    let r := s.takeSlot f i 0 0 0 flNone 0
    Quiet s (r.1.performed f.e r.2 v) f.e ∧ Performed (r.1.performed f.e r.2 v) f.e k i v := by
  obtain ⟨hord, hk, -, -⟩ := h
  obtain ⟨y, hy, hcap⟩ := s.slot_takeSlot_captured hk i 0 0 0 flNone 0
  intro r
  have hslot : r.2 = k := takeSlot_snd hk ..
  rw [hslot]
  refine ⟨(takes_of hord.1 hk i 0 0 0 flNone 0).quiet.trans (quiet_performed ..), ?_⟩
  have hp := performed_performed (freeSlot_lt hk) hy v
  rwa [hcap.ins] at hp

theorem exec_rdsr {s : State} {t : TU} {o : FmtE} {f : Firing} {k : Nat} (h : ReadyIn s t f k) {v : Nat}
    (hv : s.readSpecial f.e f.x o.imm.toNat = v) :
    ∃ s', exec (.rdsr t o) s = .next s' ∧ Quiet s s' f.e ∧ Performed s' f.e k (.rdsr t o) (word512 v) := by
  refine ⟨_, rfl, ?_⟩
  rw [State.fire_ordinary h.1, hv]
  exact takeSlot_performed h (.rdsr t o) (word512 v)

theorem exec_time {s : State} {t : TU} {o : FmtE} {f : Firing} {k : Nat} (h : ReadyIn s t f k) :
    ∃ s', exec (.time t o) s = .next s' ∧ Quiet s s' f.e ∧ Performed s' f.e k (.time t o) 0 := by
  refine ⟨_, rfl, ?_⟩
  rw [State.fire_ordinary h.1]
  exact takeSlot_performed h (.time t o) 0

/-! ### WRSR and CFGW (R424, R545) -/

theorem exec_wrsr {s : State} {t : TU} {o : FmtE} {f : Firing} {k : Nat} (h : ReadyIn s t f k) :
    ∃ s', exec (.wrsr t o) s = .next s' ∧ Quiet s s' f.e ∧ s'.parts = s.parts ∧ Performed s' f.e k (.wrsr t o) 0 := by
  obtain ⟨u, y, hexec, hu⟩ := exec_cmdIssue_acts h (i := .wrsr t o) (g := fun f s => (word512 (wrsrOperand f o s), 0, 0)) rfl fun _ _ => rfl
  obtain ⟨hquiet, hperformed⟩ := hu.performNow
  refine ⟨_, hexec, hquiet, ?_, hperformed⟩
  rw [performNow, hu.acts rfl]
  exact (State.performed_keep State.parts (fun _ _ _ => rfl) ..).trans hu.takes.parts

theorem exec_cfgw {s : State} {t : TU} {o : FmtE} {f : Firing} {k : Nat} (h : ReadyIn s t f k) :
    ∃ s', exec (.cfgw t o) s = .next s' ∧ Quiet s s' f.e ∧ (s'.elem f.e).pool = (s.elem f.e).pool ∧ Performed s' f.e k (.cfgw t o) 0 := by
  obtain ⟨u, y, hexec, hu⟩ := exec_cmdIssue_acts h (i := .cfgw t o) (g := fun f _ => (groupOf f.x o.a, word512 (wordOf f.x o.b), 0)) rfl
    fun _ _ => rfl
  obtain ⟨hquiet, hperformed⟩ := hu.performNow
  refine ⟨_, hexec, hquiet, ?_, hperformed⟩
  rw [performNow, hu.acts rfl]
  exact (State.elem_performed_keep Elem.pool (fun _ _ => rfl) ..).trans hu.takes.pool

/-! ### WAITA (R216, R224, R544) -/

theorem vget_map {α β : Type} {n : Nat} (v : Vector α n) (f : α → β) {i : Nat} (hi : i < n) (d : α) (d' : β) :
    vget (v.map f) i d' = f (vget v i d) := by
  rw [vget, vget, dif_pos hi, dif_pos hi, Vector.getElem_map]

theorem quiet_testElem (s : State) (a n d e : Nat) : Quiet s (s.testElem a n d) e := by
  have hmems : (s.testElem a n d).mems = s.mems := by
    unfold State.testElem
    dsimp only
    split
    · rfl
    · split <;> rfl
  have keep {γ : Type} (g : Elem → γ) (hg : ∀ (x : Elem) ws, g { x with watch := ws } = g x) := s.elem_testElem_keep g hg a n d e
  exact ⟨⟨congrArg (·.1) hmems, congrArg (·.2.1) hmems, congrArg (·.2.2) hmems⟩, ⟨keep Elem.s fun _ _ => rfl, keep Elem.v fun _ _ => rfl⟩,
    keep Elem.out fun _ _ => rfl, keep Elem.axs fun _ _ => rfl⟩

/-- A test of an element's watches makes them due at most. -/
theorem State.watch_testElem (s : State) (a n e : Nat) {i : Nat} {w : Watch} (hi : i < 4) (hw : vget (s.elem e).watch i none = some w) :
    ∃ d, vget ((s.testElem a n e).elem e).watch i none = some { w with due := d } := by
  unfold State.testElem
  dsimp only
  split
  · exact ⟨w.due, hw⟩
  · split
    · exact ⟨w.due, hw⟩
    · rw [State.elem_setElem_self]
      dsimp only
      rw [vget_map _ _ hi none, hw]
      dsimp only
      split
      · exact ⟨_, rfl⟩
      · exact ⟨w.due, rfl⟩

/-- No granule of a bank stands in for memory after a change of an element that fills none. -/
theorem State.unfilled_setElem {s : State} {e : Nat} {x : Elem} (hx : x.filled = (s.elem e).filled) (h : ∀ z ∈ s.elems, z.2.filled = []) :
    ∀ z ∈ (s.setElem e x).elems, z.2.filled = [] := by
  have hall : ((s.setElem e x).elems.all fun z => z.2.filled.isEmpty) = s.elems.all fun z => z.2.filled.isEmpty :=
    SMap.all_set (d := Elem.reset e) rfl (by rw [hx]; rfl)
  have hs : (s.elems.all fun z => z.2.filled.isEmpty) = true := List.all_eq_true.2 fun z hz => by rw [h z hz]; rfl
  exact fun z hz => List.isEmpty_iff.1 (List.all_eq_true.1 (hall.trans hs) z hz)

theorem Takes.unfilled {s u : State} {f : Firing} {i : Instr} {k : Nat} {a b c : VW} {chn : Nat} (h : Takes s u f i k a b c chn)
    (hs : ∀ z ∈ s.elems, z.2.filled = []) : ∀ z ∈ u.elems, z.2.filled = [] := by
  rw [h.only]
  exact State.unfilled_setElem (h.issued.keeps Elem.filled fun _ => rfl) hs

theorem exec_waita_misaligned {s : State} {t : TU} {o : FmtE} {f : Firing} {k : Nat} (h : ReadyIn s t f k) (ha : pairOf f.x o.a % 4 ≠ 0) :
    ∃ s', exec (.waita t o) s = .next s' ∧ SlotRaised s s' f k 0 0x05 (pairOf f.x o.a) :=
  exec_cmdIssue_raises h.1 h.2.1 (g := fun f _ => (word512 (pairOf f.x o.a), word512 (wordOf f.x o.b), 0)) rfl fun y hy => by
    rw [waitaBad, hy.opa, word512_pairOf, if_pos ha]

/-- s with watch w armed in place i of element e, and tested. -/
def State.armWatch (s : State) (e i : Nat) (w : Watch) : State :=
  (s.setElem e { s.elem e with watch := vset (s.elem e).watch i (some w) }).testElem w.phys 4 e

theorem quiet_armWatch (s : State) (e i : Nat) (w : Watch) : Quiet s (s.armWatch e i w) e :=
  Quiet.trans (quiet_setElem (x := { s.elem e with watch := vset (s.elem e).watch i (some w) }) rfl rfl rfl rfl) (quiet_testElem ..)

theorem State.slot_armWatch (s : State) (e i : Nat) (w : Watch) (k : Nat) : (s.armWatch e i w).slot e k = s.slot e k := by
  refine (State.elem_testElem_keep (fun x => vget x.slots k none) (fun _ _ => rfl) _ w.phys 4 e e).trans ?_
  rw [State.elem_setElem_self]
  rfl

theorem State.watch_armWatch (s : State) (e : Nat) {i : Nat} (w : Watch) (hi : i < 4) :
    ∃ d, vget ((s.armWatch e i w).elem e).watch i none = some { w with due := d } := by
  refine State.watch_testElem _ w.phys 4 e hi ?_
  rw [State.elem_setElem_self]
  exact vget_vset_self _ _ _ _ hi

/-- The watch that a WAITA arms. -/
def watchOf (f : Firing) (o : FmtE) (l : Loc) : Watch :=
  ⟨pairOf f.x o.a, l.at (pairOf f.x o.a) 0, l.ptype == 3, BitVec.ofNat 32 (wordOf f.x o.b), o.imm.toNat.testBit 4, o.imm.toNat % 16, none⟩

section
variable {s : State} {t : TU} {o : FmtE} {f : Firing} {k i m : Nat} {l : Loc} {ls : List (Loc × Nat)}

theorem performWaita_eq {u : State} {y : Slot}
    (hu : Filled s u f (.waita t o) k (word512 (pairOf f.x o.a)) (word512 (wordOf f.x o.b)) 0 0 y)
    (ha : pairOf f.x o.a % 4 = 0) (hf : ∀ z ∈ s.elems, z.2.filled = [])
    (hr : s.resolveRun (coreOf f.e) (s.partOf f.e) (pairOf f.x o.a) 4 .watch = .ok ((l, m) :: ls))
    (hfree : ((List.range 4).find? fun i => (vget (s.elem f.e).watch i none).isNone) = some i) :
    performWaita o f.e k u =
      ((u.fillRun (coreOf f.e) (u.partOf f.e) (pairOf f.x o.a) 4).armWatch f.e i (watchOf f o l)).performed f.e k (word512 i) := by
  have hopa : y.opa.toNat = pairOf f.x o.a := by rw [hu.captured.opa, word512_pairOf]
  have hopb : y.opb.toNat = wordOf f.x o.b := by rw [hu.captured.opb, word512_wordOf]
  have hbad : waitaBad y = none := by rw [waitaBad, hopa, if_neg (not_not.2 ha)]
  have hru : u.resolveRun (coreOf f.e) (u.partOf f.e) (pairOf f.x o.a) 4 .watch = .ok ((l, m) :: ls) := by
    rw [hu.takes.resolveRun, hu.takes.partOf, hr]
  rw [performWaita, hu.acts hbad]
  dsimp only
  rw [hopa, hopb, State.elemAccess_ok hru]
  have hv : (u.fillRun (coreOf f.e) (u.partOf f.e) (pairOf f.x o.a) 4).coreless = u.coreless := State.coreless_fillRun ..
  generalize u.fillRun (coreOf f.e) (u.partOf f.e) (pairOf f.x o.a) 4 = v at hv
  have hwatch : (v.elem f.e).watch = (s.elem f.e).watch := by
    rw [State.elem_congr (State.elems_of_coreless hv)]
    exact hu.takes.issued.keeps Elem.watch fun _ => rfl
  have hrecall : v.recall (l.at (pairOf f.x o.a) 0) 4 = v := by
    refine State.recall_eq_self ?_ _ _
    rw [State.elems_of_coreless hv]
    exact hu.takes.unfilled hf
  simp only [hwatch, hfree, hrecall]
  rfl

theorem exec_waita_arms (h : ReadyIn s t f k) (ha : pairOf f.x o.a % 4 = 0) (hf : ∀ z ∈ s.elems, z.2.filled = [])
    (hr : s.resolveRun (coreOf f.e) (s.partOf f.e) (pairOf f.x o.a) 4 .watch = .ok ((l, m) :: ls))
    (hfree : ((List.range 4).find? fun i => (vget (s.elem f.e).watch i none).isNone) = some i) :
    ∃ s', exec (.waita t o) s = .next s' ∧ Quiet s s' f.e ∧ Performed s' f.e k (.waita t o) (word512 i) ∧
      ∃ d, vget (s'.elem f.e).watch i none = some { watchOf f o l with due := d } := by
  have hi : i < 4 := List.mem_range.1 (List.mem_of_find?_eq_some hfree)
  obtain ⟨u, y, hexec, hu⟩ := exec_cmdIssue_acts h (i := .waita t o)
    (g := fun f _ => (word512 (pairOf f.x o.a), word512 (wordOf f.x o.b), 0)) (bad := waitaBad) rfl fun y hy => by
      rw [waitaBad, hy.opa, word512_pairOf, if_neg (not_not.2 ha)]
  rw [performWaita_eq hu ha hf hr hfree] at hexec
  have hv : (u.fillRun (coreOf f.e) (u.partOf f.e) (pairOf f.x o.a) 4).coreless = u.coreless := State.coreless_fillRun ..
  generalize u.fillRun (coreOf f.e) (u.partOf f.e) (pairOf f.x o.a) 4 = v at hv hexec
  obtain ⟨hquiet, hperformed⟩ := hu.performed ((quiet_of_coreless hv f.e).trans (quiet_armWatch v f.e i (watchOf f o l)))
    ((v.slot_armWatch f.e i _ k).trans (State.slot_of_coreless hv ..)) (word512 i)
  obtain ⟨d, hd⟩ := v.watch_armWatch f.e (watchOf f o l) hi
  exact ⟨_, hexec, hquiet, hperformed, d, (State.elem_performed_keep (fun x => vget x.watch i none) (fun _ _ => rfl) ..).trans hd⟩

end

/-! ### FRZ (R354, R443) -/

theorem exec_frz_nothing {s : State} {t : TU} {o : FmtE} {f : Firing} {k : Nat} (h : ReadyIn s t f k) (hbit : o.imm.toNat.testBit 0 = false)
    (hnone : s.region (wordOf f.x o.a) = none) :
    ∃ s', exec (.frz t o) s = .next s' ∧ Quiet s s' f.e ∧ s'.regions = s.regions ∧ Performed s' f.e k (.frz t o) 0 := by
  obtain ⟨u, y, hexec, hu⟩ := exec_cmdIssue_acts h (i := .frz t o) (g := fun f _ => (word512 (wordOf f.x o.a), 0, 0)) rfl fun _ _ => rfl
  have htarget : u.frzTarget f.e o y = none := by
    have hn : y.opa.toNat % 2 ^ 32 = wordOf f.x o.a := by rw [hu.captured.opa, word512_wordOf, Nat.mod_eq_of_lt (wordOf_lt ..)]
    have hr : u.region (wordOf f.x o.a) = none := by rw [hu.takes.region, hnone]
    simp only [State.frzTarget, hbit, Bool.false_eq_true, if_false, hn, hr]
  have hact : performFrz o f.e k u = u.performed f.e k 0 := by
    rw [performFrz, hu.acts rfl]
    simp only [htarget]
  obtain ⟨hquiet, hperformed⟩ := hu.performed (quiet_refl ..) rfl 0
  exact ⟨_, hexec.trans (congrArg _ hact), hquiet,
    (State.performed_keep State.regions (fun _ _ _ => rfl) ..).trans hu.takes.regions, hperformed⟩

/-- The first area of a save pool from which none is taken. -/
theorem Part.saveFit_empty {p : Part} {n : Nat} (hp : p.saves = []) (hn : n ≤ p.svs.toNat / 65536) : p.saveFit n = some 0 := by
  simp [Part.saveFit, hp, sortBy, insertBy, hn]

/-- s with the first area of its save pool taken for region rn. -/
def State.savedFirst (s : State) (rn : Nat) (r : Region) : State :=
  (s.modPart r.part fun p => { p with saves := [(0, unitsOf (s.saveBytes rn r))] }).setRegion rn { r with save := some 0 }

theorem State.takeSave_first {s : State} {rn : Nat} {r : Region} (hr : s.region rn = some r) (hsave : r.save = none)
    (hp : (s.part r.part).saves = []) (hn : unitsOf (s.saveBytes rn r) ≤ (s.part r.part).svs.toNat / 65536) :
    s.takeSave rn = some (s.savedFirst rn r) := by
  have hr' (q : Part) : (s.setPart r.part q).region rn = some r := hr
  simp only [State.takeSave, hr, hsave, Option.isSome_none, Bool.false_eq_true, if_false, Part.saveFit_empty hp hn, Option.map_some,
    State.savedFirst, State.modPart, State.modRegion_eq, hr', hp]

theorem exec_frz_own {s : State} {t : TU} {o : FmtE} {f : Firing} {k rn : Nat} {r : Region} (h : ReadyIn s t f k)
    (hn : s.regionOf f.e = some rn) (hr : s.region rn = some r) (hbit : o.imm.toNat.testBit 0 = true) (hsave : r.save = none)
    (hp : (s.part r.part).saves = []) (hfit : unitsOf (s.saveBytes rn r) ≤ (s.part r.part).svs.toNat / 65536) :
    ∃ s', exec (.frz t o) s = .next s' ∧ Quiet s s' f.e ∧ (∃ y, s'.slot f.e k = some y ∧ y.stage = 1) ∧
      s'.region rn = some { r with save := some 0, frz := r.frz ++ [(f.e, k)] } ∧
      (r.part < 8 → (s'.part r.part).saves = [(0, unitsOf (s.saveBytes rn r))]) := by
  obtain ⟨u, y, hexec, hu⟩ := exec_cmdIssue_acts h (i := .frz t o) (g := fun f _ => (word512 (wordOf f.x o.a), 0, 0)) rfl fun _ _ => rfl
  have htarget : u.frzTarget f.e o y = some rn := by
    simp only [State.frzTarget, hbit, if_true]
    rw [hu.takes.regionOf, hn]
  have hbytes : u.saveBytes rn r = s.saveBytes rn r := hu.takes.keeps (State.saveBytes · rn r) fun _ _ _ => rfl
  have hpart : u.part r.part = s.part r.part := hu.takes.keeps (State.part · r.part) fun _ _ _ => rfl
  have hu' := State.takeSave_first ((hu.takes.region rn).trans hr) hsave (by rw [hpart, hp]) (by rw [hbytes, hpart]; exact hfit)
  let v := (u.savedFirst rn r).setSlot f.e k { y with stage := 1 }
  have hv : v.region rn = some { r with save := some 0 } := State.region_setRegion_self ..
  have hact : performFrz o f.e k u = v.setRegion rn { r with save := some 0, frz := r.frz ++ [(f.e, k)] } := by
    rw [performFrz, hu.acts rfl]
    simp only [htarget, hu', State.modRegion_eq]
    rw [show ((u.savedFirst rn r).setSlot f.e k { y with stage := 1 }).region rn = some { r with save := some 0 } from hv]
  refine ⟨_, hexec.trans (congrArg _ hact), ?_, ⟨_, State.slot_setSlot_self _ _ _ hu.lt, rfl⟩, State.region_setRegion_self .., fun hp8 => ?_⟩
  · have hq : Quiet (u.savedFirst rn r) v f.e := quiet_setSlot ..
    have hq0 : Quiet u (u.savedFirst rn r) f.e := quiet_of_elems (s := u) (t := u.savedFirst rn r) ⟨rfl, rfl, rfl⟩ rfl f.e
    have hq' := hu.takes.quiet.trans (hq0.trans hq)
    exact ⟨hq'.mem, hq'.regs, hq'.toks, hq'.flags⟩
  · have hsaves : ((u.savedFirst rn r).part r.part).saves = [(0, unitsOf (u.saveBytes rn r))] :=
      congrArg Part.saves (State.part_modPart_self u hp8 fun p => { p with saves := [(0, unitsOf (u.saveBytes rn r))] })
    rw [hbytes] at hsaves
    exact hsaves

/-! ### RPULL and LNCH (R336, R369, R460) -/

theorem exec_rpull {s : State} {t : TU} {o : FmtE} {f : Firing} {k rn : Nat} {r : Region} (h : ReadyIn s t f k)
    (hn : s.regionOf f.e = some rn) (hr : s.region rn = some r) :
    ∃ s', exec (.rpull t o) s = .next s' ∧ Quiet s s' f.e ∧ (∃ y, s'.slot f.e k = some y ∧ y.stage = 0 ∧ y.cut = 1) ∧
      s'.region rn = some { r with cutReq := true, pulls := r.pulls ++ [(f.e, k)] } := by
  obtain ⟨u, y, hexec, hu⟩ := exec_cmdIssue_acts h (i := .rpull t o) (g := fun _ _ => (0, 0, 0)) rfl fun _ _ => rfl
  have hasks : AsksCut s (u.slotCut f.e k y) f.e k (.rpull t o) := hu.asksCut rfl
  have hact : performRpull f.e k u =
      (u.slotCut f.e k y).setRegion rn { r with cutReq := true, pulls := r.pulls ++ [(f.e, k)] } := by
    have hn' : u.regionOf f.e = some rn := by rw [hu.takes.regionOf, hn]
    rw [performRpull, hu.acts rfl]
    simp only [hu.captured.cut, hn', State.modRegion_eq, hasks.region rn r hn hr]
    rfl
  obtain ⟨z, hz, -, hstage, hcut⟩ := hasks.slot
  refine ⟨_, hexec.trans (congrArg _ hact), ?_, ⟨z, hz, hstage, hcut⟩, State.region_setRegion_self ..⟩
  have hq := hasks.quiet
  exact ⟨hq.mem, hq.regs, hq.toks, hq.flags⟩

theorem exec_lnch {s : State} {t : TU} {o : FmtE} {f : Firing} {k : Nat} (h : ReadyIn s t f k) :
    ∃ s', exec (.lnch t o) s = .next s' ∧ AsksCut s s' f.e k (.lnch t o) := by
  obtain ⟨u, y, hexec, hu⟩ := exec_cmdIssue_acts h (i := .lnch t o)
    (g := fun f _ => (word512 (pairOf f.x o.a), word512 (wordOf f.x o.b), 0)) rfl fun _ _ => rfl
  have hact : performLnch f.e k u = u.slotCut f.e k y := by
    rw [performLnch, hu.acts rfl]
    simp only [hu.captured.cut]
    rfl
  exact ⟨_, hexec.trans (congrArg _ hact), hu.asksCut rfl⟩

/-- Settles O37: each command issues into its slot and its unit takes it there: RDSR, TIME, WRSR and CFGW are performed, WAITA arms its watch, FRZ
takes its area or has nothing to freeze, and RPULL and LNCH ask for their cut. -/
theorem systemCommands : Obligations.SystemCommands := by
  intro s t o f k rn r h hn hr
  refine ⟨?rdsr, exec_time h, exec_wrsr h, exec_cfgw h,
    ⟨exec_waita_misaligned h, fun i l m ls ha hf hrun hfree => ?waita⟩,
    exec_frz_nothing h, exec_frz_own h hn hr, exec_rpull h hn hr, ?lnch⟩
  case rdsr =>
    have hreg : (s.regionOf f.e).getD 0 = rn := by rw [hn, Option.getD_some]
    simp only [List.forall_mem_cons, List.not_mem_nil, false_implies, implies_true, and_true]
    refine ⟨fun hi => exec_rdsr h ?_, fun hi => exec_rdsr h ?_, fun hi => exec_rdsr h ?_, fun hi => exec_rdsr h ?_, fun hi => exec_rdsr h ?_,
      fun hi => exec_rdsr h ?_, fun hi => exec_rdsr h ?_, fun hi => exec_rdsr h ?_, fun hi => exec_rdsr h ?_, fun hi => exec_rdsr h ?_,
      fun hi => exec_rdsr h ?_, fun hi => exec_rdsr h ?_, fun hi => exec_rdsr h ?_, fun hi => exec_rdsr h ?_⟩
    case refine_3 => rw [hi]; exact hreg
    all_goals rw [hi]; rfl
  case waita =>
    obtain ⟨s', hexec, hquiet, hperformed, d, hd⟩ := exec_waita_arms h ha hf hrun hfree
    exact ⟨s', hexec, hquiet, hperformed, _, hd, rfl, rfl, rfl, rfl, rfl⟩
  case lnch =>
    obtain ⟨s', hexec, hasks⟩ := exec_lnch (o := o) h
    obtain ⟨z, hz, -, hstage, hcut⟩ := hasks.slot
    exact ⟨s', hexec, hasks.quiet, ⟨z, hz, hstage, hcut⟩, hasks.region rn r hn hr⟩

end Sys2Proof.Machine
end

section
/-! SUPPORT. Barriers: the commands at a signal box whose turn has come, the flip, and a BARW that is due (R224, R227 to R231, R409, R410). -/

namespace Sys2Proof.Machine

open Sys2Proof

/-! ### Barriers of a core -/

@[simp] theorem State.bar_setBar_self (s : State) (c : Nat) {n : Nat} (b : Bar) (h : n < 32) : (s.setBar c n b).bar c n = b := by
  simp [State.bar, State.setBar, h]

theorem State.bar_setBar_ne (s : State) (c : Nat) {j n : Nat} (b : Bar) (h : j ≠ n) : (s.setBar c n b).bar c j = s.bar c j := by
  simp [State.bar, State.setBar, vget_vset_ne _ _ _ h.symm]

@[simp] theorem State.bar_boxUse (s : State) (c key d n : Nat) : (s.boxUse c key).bar d n = s.bar d n := by
  unfold State.bar State.boxUse
  rw [State.modCore_eq]
  by_cases h : d = c
  · rw [h, State.core_setCore_self]
  · rw [State.core_setCore_ne _ h]

theorem quiet_boxUse (s : State) (c key e : Nat) : Quiet s (s.boxUse c key) e := quiet_of_coreless (s := s) (t := s.boxUse c key) rfl e

theorem quiet_setBar (s : State) (c n : Nat) (b : Bar) (e : Nat) : Quiet s (s.setBar c n b) e := quiet_of_coreless (s := s) (t := s.setBar c n b) rfl e

theorem barNo_lt (o : FmtE) : barNo o < 32 := Nat.mod_lt _ (by decide)

/-! ### A command whose turn at a box has come (R227, R410, R556) -/

theorem boxKey_own {e c : Nat} (h : coreOf e = c) : boxKey e c = elemNo e := if_pos h

theorem State.cutWaits_eq_false {s : State} {e : Nat} (h : ∀ r, s.regOf e = some r → r.forming = none) : s.cutWaits e = false := by
  unfold State.cutWaits
  cases hr : s.regOf e with
  | none => rfl
  | some r => simp only [h r hr]

section
variable {s u : State} {f : Firing} {i : Instr} {k : Nat} {a b c : VW} {chn : Nat} {y : Slot} (h : Filled s u f i k a b c chn y)
  (ha : Alone s f.e)
include h ha

theorem Filled.boxActs {box : Slot → Nat} (hturn : s.boxTurn (box y) (boxKey f.e (box y)) = true) (act : Slot → State) :
    u.tryBar f.e k box act = act y := by
  have hcut : u.cutWaits f.e = false := State.cutWaits_eq_false fun r hr => ha.2.2.2.2 r (by rwa [← h.takes.regOf])
  have hturn' : u.boxTurn (box y) (boxKey f.e (box y)) = true :=
    (h.takes.keeps (State.boxTurn · (box y) (boxKey f.e (box y))) fun _ _ _ => rfl).trans hturn
  rw [State.tryBar, h.acts rfl]
  simp only [h.firstOf ha, hcut, hturn', Bool.not_false, Bool.and_self, if_true]

end

/-! ### What a command leaves of its barrier -/

/-- Barrier n of core c is b in s', no other barrier of it has changed, and nothing of element e shows. -/
structure BarPut (s s' : State) (e c n : Nat) (b : Bar) : Prop where
  bar : s'.bar c n = b
  others : ∀ j, j ≠ n → s'.bar c j = s.bar c j
  quiet : Quiet s s' e

section
variable {s u : State} {f : Firing} {i : Instr} {k : Nat} {x y z : VW} {chn : Nat} {sl : Slot} (h : Filled s u f i k x y z chn sl)
include h

theorem Filled.bar (c n : Nat) : u.bar c n = s.bar c n := h.takes.keeps (State.bar · c n) fun _ _ _ => rfl

theorem Filled.barPut (c key : Nat) {n : Nat} (hn : n < 32) (b : Bar) :
    BarPut s ((u.boxUse c key).setBar c n b) f.e c n b where
  bar := State.bar_setBar_self _ _ _ hn
  others j hj := by rw [State.bar_setBar_ne _ _ _ hj, State.bar_boxUse, h.bar]
  quiet := h.takes.quiet.trans ((quiet_boxUse ..).trans (quiet_setBar ..))

theorem Filled.barPerformed {v : State} {c n : Nat} {b : Bar} (hv : BarPut s v f.e c n b) (hslot : v.slot f.e k = u.slot f.e k) (w : VW) :
    BarPut s (v.performed f.e k w) f.e c n b ∧ Performed (v.performed f.e k w) f.e k i w := by
  have keep (j : Nat) : (v.performed f.e k w).bar c j = v.bar c j := State.performed_keep (State.bar · c j) (fun _ _ _ => rfl) ..
  refine ⟨⟨(keep n).trans hv.bar, fun j hj => (keep j).trans (hv.others j hj), hv.quiet.trans (quiet_performed ..)⟩, ?_⟩
  have hp := performed_performed h.lt (hslot.trans h.slot) w
  rwa [h.captured.ins] at hp

theorem Filled.barWaits {v : State} {c n : Nat} {b : Bar} (hv : BarPut s v f.e c n b) (y : Slot) :
    BarPut s (v.setSlot f.e k y) f.e c n b ∧ (v.setSlot f.e k y).slot f.e k = some y :=
  ⟨⟨hv.bar, hv.others, hv.quiet.trans (quiet_setSlot ..)⟩, State.slot_setSlot_self _ _ _ h.lt⟩

/-- A command that its box faults. -/
theorem Filled.boxRaises (c key code addr : Nat) : SlotRaised (s.boxUse c key) ((u.boxUse c key).failSlot f.e k code addr) f k chn code addr := by
  have ht : Takes (s.boxUse c key) (u.boxUse c key) f i k x y z chn := by
    refine ⟨?_, h.takes.issued, h.takes.slot⟩
    show u.boxUse c key = (s.boxUse c key).setElem f.e (u.elem f.e)
    conv_lhs => rw [h.takes.only]
    rfl
  exact slotRaised_of ht h.lt code addr

end

/-! ### The commands (R409) -/

section
variable {s : State} {t : TU} {o : FmtE} {f : Firing} {k : Nat} (h : ReadyIn s t f k)
include h

theorem exec_bari_acts (hturn : s.boxTurn (coreOf f.e) (elemNo f.e) = true) :
    ∃ u y, Filled s u f (.bari t o) k (word512 (wordOf f.x o.a)) 0 0 0 y ∧
      exec (.bari t o) s = .next (
        let x := wordOf f.x o.a
        let c := coreOf f.e
        let v := u.boxUse c (elemNo f.e)
        if x = 0 || x > 65535 then v.failSlot f.e k 0x13 0
        else (v.setBar c (barNo o) { s.bar c (barNo o) with exp := BitVec.ofNat 16 x, arr := 0, pend := 0, arm := true }).performed f.e k 1) := by
  obtain ⟨u, y, hexec, hu⟩ := exec_cmdIssue_acts h (i := .bari t o) (g := fun f _ => (word512 (wordOf f.x o.a), 0, 0)) rfl fun _ _ => rfl
  refine ⟨u, y, hu, hexec.trans (congrArg _ ?_)⟩
  have hx : y.opa.toNat % 2 ^ 32 = wordOf f.x o.a := by rw [hu.captured.opa, word512_wordOf, Nat.mod_eq_of_lt (wordOf_lt ..)]
  rw [performBari, hu.boxActs h.2.2.2 (by rw [boxKey_own rfl, hturn])]
  simp only [hx, State.bar_boxUse, hu.bar]

theorem exec_bart_acts (hturn : s.boxTurn (coreOf f.e) (elemNo f.e) = true) :
    let n := if o.ty = .s64 then pairOf f.x o.a else wordOf f.x o.a
    ∃ u y, Filled s u f (.bart t o) k (word512 n) 0 0 0 y ∧
      exec (.bart t o) s = .next (
        let c := coreOf f.e
        let v := u.boxUse c (elemNo f.e)
        let b := s.bar c (barNo o)
        if !b.arm then v.failSlot f.e k 0x13 0
        else (v.setBar c (barNo o) { b with pend := b.pend + BitVec.ofNat 64 n }).performed f.e k 1) := by
  intro n
  obtain ⟨u, y, hexec, hu⟩ := exec_cmdIssue_acts h (i := .bart t o)
    (g := fun f _ => (word512 (if o.ty = .s64 then pairOf f.x o.a else wordOf f.x o.a), 0, 0)) rfl fun _ _ => rfl
  refine ⟨u, y, hu, hexec.trans (congrArg _ ?_)⟩
  have hx : y.opa.toNat = n := by
    rw [hu.captured.opa]
    refine word512_toNat ?_
    split
    · exact pairOf_lt ..
    · exact (wordOf_lt ..).trans (by decide)
  rw [performBart, hu.boxActs h.2.2.2 (by rw [boxKey_own rfl, hturn])]
  simp only [hx, State.bar_boxUse, hu.bar]

/-- The core whose barrier the BARA of a firing names. -/
def Firing.baraCore (f : Firing) (o : FmtE) : Nat := match o.a with | .s _ => wordOf f.x o.a % 256 | _ => coreOf f.e

theorem exec_bara_acts (hturn : s.boxTurn (f.baraCore o) (boxKey f.e (f.baraCore o)) = true) :
    ∃ u y, Filled s u f (.bara t o) k (word512 (wordOf f.x o.a)) 0 0 0 y ∧
      exec (.bara t o) s = .next (
        let own := coreOf f.e
        let c := f.baraCore o
        let v := u.boxUse c (boxKey f.e c)
        let b := s.bar c (barNo o)
        if c ≠ own && !((s.part (s.partOf f.e)).maint && clusterOf c == clusterOf own) then u.failSlot f.e k 0x14 0
        else if !b.arm then v.failSlot f.e k 0x13 0
        else if b.arr = b.exp then (v.setBar c (barNo o) { b with heldB := b.heldB ++ [(f.e, k)] }).setSlot f.e k { y with stage := 1 }
        else (v.setBar c (barNo o) { b with arr := b.arr + 1 }).performed f.e k (word512 (b.arr.toNat + 1))) := by
  obtain ⟨u, y, hexec, hu⟩ := exec_cmdIssue_acts h (i := .bara t o) (g := fun f _ => (word512 (wordOf f.x o.a), 0, 0)) rfl fun _ _ => rfl
  refine ⟨u, y, hu, hexec.trans (congrArg _ ?_)⟩
  have hc : Machine.baraCore o f.e y = f.baraCore o := by
    cases ha : o.a <;> simp [Machine.baraCore, Firing.baraCore, ha, hu.captured.opa, word512_wordOf]
  have hpart : u.part (u.partOf f.e) = s.part (s.partOf f.e) := by
    rw [hu.takes.partOf]
    exact hu.takes.keeps (State.part · (s.partOf f.e)) fun _ _ _ => rfl
  rw [performBara, hu.boxActs h.2.2.2 (by rw [hc, hturn])]
  simp only [hc, State.bar_boxUse, hu.bar, hpart]

theorem exec_barw_acts (hturn : s.boxTurn (coreOf f.e) (elemNo f.e) = true) (hroom : (s.bar (coreOf f.e) (barNo o)).waits.length < 64) :
    ∃ u y, Filled s u f (.barw t o) k (word512 (wordOf f.x o.a)) 0 0 0 y ∧
      exec (.barw t o) s = .next (
        let c := coreOf f.e
        let b := s.bar c (barNo o)
        let ph : Bool := wordOf f.x o.a % 2 = 1
        let w : BarWait := ⟨f.e, k, ph, o.imm.toNat / 32 % 16, if b.ph ≠ ph then some s.cycle else none⟩
        ((u.boxUse c (elemNo f.e)).setBar c (barNo o) { b with waits := b.waits ++ [w] }).setSlot f.e k { y with stage := 1 }) := by
  obtain ⟨u, y, hexec, hu⟩ := exec_cmdIssue_acts h (i := .barw t o) (g := fun f _ => (word512 (wordOf f.x o.a), 0, 0)) rfl fun _ _ => rfl
  refine ⟨u, y, hu, hexec.trans (congrArg _ ?_)⟩
  have hph : y.opa.getLsbD 0 = decide (wordOf f.x o.a % 2 = 1) := by
    rw [BitVec.getLsbD, hu.captured.opa, word512_wordOf, Nat.testBit_zero]
  have hcycle : u.cycle = s.cycle := hu.takes.keeps State.cycle fun _ _ _ => rfl
  rw [performBarw, hu.boxActs h.2.2.2 (by rw [boxKey_own rfl, hturn])]
  simp only [hu.bar, ge_iff_le, Nat.not_le.2 hroom, if_false, hph, hcycle, bne_iff_ne]

/-- What BARQ reads of a barrier. -/
def Bar.field (b : Bar) (g : Nat) : Nat :=
  match g with
  | 0 => b.exp.toNat * 65536 + b.arr.toNat
  | 1 => b.ph.toNat * 2 ^ 31 + b.arm.toNat * 2 ^ 30
  | _ => b.pend.toNat

theorem exec_barq_acts (hturn : s.boxTurn (coreOf f.e) (elemNo f.e) = true) :
    ∃ u y, Filled s u f (.barq t o) k 0 0 0 0 y ∧
      exec (.barq t o) s = .next ((u.boxUse (coreOf f.e) (elemNo f.e)).performed f.e k
        (word512 ((s.bar (coreOf f.e) (barNo o)).field (o.imm.toNat / 32 % 4)))) := by
  obtain ⟨u, y, hexec, hu⟩ := exec_cmdIssue_acts h (i := .barq t o) (g := fun _ _ => (0, 0, 0)) rfl fun _ _ => rfl
  refine ⟨u, y, hu, hexec.trans (congrArg _ ?_)⟩
  rw [performBarq, hu.boxActs h.2.2.2 (by rw [boxKey_own rfl, hturn])]
  simp only [State.bar_boxUse, hu.bar]
  rfl

end

theorem barrierCommands : Claims.BarrierCommands := by
  intro s t o f k h
  extract_lets c n b x put g d may
  intro hturn
  have hput {s' : State} {d : Nat} {b : Bar} (hb : BarPut s s' f.e d n b) : put s' d b := ⟨hb.bar, hb.others, hb.quiet⟩
  refine ⟨fun h1 hx => ?bari, fun hx => ?bariFault, fun harm => ?bart, fun harm => ?bartFault, ?bara, fun hroom => ?barw, ?barq⟩
  case bari =>
    obtain ⟨u, y, hu, hexec⟩ := exec_bari_acts h hturn
    have hgood : ¬ (decide (x = 0) || decide (x > 65535)) = true := by simp; omega
    obtain ⟨hbar, hperformed⟩ := hu.barPerformed (hu.barPut c (elemNo f.e) (barNo_lt o)
      { b with exp := BitVec.ofNat 16 x, arr := 0, pend := 0, arm := true }) rfl 1
    exact ⟨_, hexec.trans (congrArg _ (if_neg hgood)), hput hbar, hperformed⟩
  case bariFault =>
    obtain ⟨u, y, hu, hexec⟩ := exec_bari_acts h hturn
    have hbad : (decide (x = 0) || decide (x > 65535)) = true := by simpa using hx
    exact ⟨_, hexec.trans (congrArg _ (if_pos hbad)), hu.boxRaises c (elemNo f.e) 0x13 0⟩
  case bart =>
    obtain ⟨u, y, hu, hexec⟩ := exec_bart_acts h hturn
    have hgood : ¬ (!b.arm) = true := by simp [harm]
    obtain ⟨hbar, hperformed⟩ := hu.barPerformed (hu.barPut c (elemNo f.e) (barNo_lt o)
      { b with pend := b.pend + BitVec.ofNat 64 (if o.ty = .s64 then pairOf f.x o.a else x) }) rfl 1
    exact ⟨_, hexec.trans (congrArg _ (if_neg hgood)), hput hbar, hperformed⟩
  case bartFault =>
    obtain ⟨u, y, hu, hexec⟩ := exec_bart_acts h hturn
    have hbad : (!b.arm) = true := by simp [harm]
    exact ⟨_, hexec.trans (congrArg _ (if_pos hbad)), hu.boxRaises c (elemNo f.e) 0x13 0⟩
  case bara =>
    intro hturn
    have hg : f.baraCore o = g := rfl
    obtain ⟨u, y, hu, hexec⟩ := exec_bara_acts (o := o) h hturn
    have hd : s.bar g (barNo o) = d := rfl
    simp only [hg, hd] at hexec
    have hmay : may ↔ ¬ (decide (g ≠ c) && !((s.part (s.partOf f.e)).maint && clusterOf g == clusterOf c)) = true := by
      simp only [may, Bool.and_eq_true, decide_eq_true_eq, Bool.not_eq_true', Bool.and_eq_false_iff, beq_eq_false_iff_ne, ne_eq]
      grind
    refine ⟨fun hno => ?outside, fun hyes harm hroom => ?counts, fun hyes harm hfull => ?waits, fun hyes harm => ?unarmed⟩
    case outside =>
      refine ⟨_, hexec.trans (congrArg _ (if_pos (not_not.1 fun hn => hno (hmay.2 hn)))), ?_⟩
      exact slotRaised_of hu.takes hu.lt 0x14 0
    all_goals rw [if_neg (hmay.1 hyes)] at hexec
    case counts =>
      rw [if_neg (by simp [harm]), if_neg hroom] at hexec
      obtain ⟨hbar, hperformed⟩ := hu.barPerformed (hu.barPut g (boxKey f.e g) (barNo_lt o) { d with arr := d.arr + 1 }) rfl
        (word512 (d.arr.toNat + 1))
      exact ⟨_, hexec, hput hbar, hperformed⟩
    case waits =>
      rw [if_neg (by simp [harm]), if_pos hfull] at hexec
      obtain ⟨hbar, hslot⟩ := hu.barWaits (hu.barPut g (boxKey f.e g) (barNo_lt o) { d with heldB := d.heldB ++ [(f.e, k)] })
        { y with stage := 1 }
      exact ⟨_, hexec, hput hbar, _, hslot, rfl⟩
    case unarmed =>
      rw [if_pos (by simp [harm])] at hexec
      exact ⟨_, hexec, hu.boxRaises g (boxKey f.e g) 0x13 0⟩
  case barw =>
    obtain ⟨u, y, hu, hexec⟩ := exec_barw_acts (o := o) h hturn hroom
    obtain ⟨hbar, hslot⟩ := hu.barWaits (hu.barPut c (elemNo f.e) (barNo_lt o) { b with waits := b.waits ++
      [⟨f.e, k, x % 2 = 1, o.imm.toNat / 32 % 16, if b.ph ≠ (x % 2 = 1 : Bool) then some s.cycle else none⟩] }) { y with stage := 1 }
    exact ⟨_, hexec, hput hbar, _, hslot, rfl⟩
  case barq =>
    obtain ⟨u, y, hu, hexec⟩ := exec_barq_acts (o := o) h hturn
    have hbox : BarPut s (u.boxUse c (elemNo f.e)) f.e c n b :=
      ⟨by rw [State.bar_boxUse, hu.bar], fun j _ => by rw [State.bar_boxUse, hu.bar], hu.takes.quiet.trans (quiet_boxUse ..)⟩
    obtain ⟨hbar, hperformed⟩ := hu.barPerformed hbox rfl (word512 (b.field (o.imm.toNat / 32 % 4)))
    exact ⟨_, hexec, hput hbar, hperformed⟩

/-! ### The flip (R228, R229) -/

/-- A barrier that holds no arrivals has none to count. -/
theorem Bar.settle_none {b : Bar} (hb : b.heldB = []) (ht : b.heldT = 0) : Bar.settle (b.heldB.length + b.heldT) b [] = (b, []) := by
  rw [hb, ht]
  rfl

theorem State.settleBar_none {s : State} {c n : Nat} (hb : (s.bar c n).heldB = []) (ht : (s.bar c n).heldT = 0) :
    s.settleBar c n = s.setBar c n (s.bar c n) := by
  simp only [State.settleBar, Bar.settle_none hb ht, List.foldl_nil]

theorem State.bar_flipBar {s : State} {c n : Nat} (hn : n < 32) (hb : (s.bar c n).heldB = []) (ht : (s.bar c n).heldT = 0) :
    (s.flipBar c n).bar c n = { s.bar c n with
      ph := !(s.bar c n).ph, arr := 0, flipAt := s.cycle + 1
      waits := (s.bar c n).waits.map fun w =>
        if w.ph ≠ !(s.bar c n).ph ∧ w.due = none then { w with due := some (s.cycle + 1) } else w } := by
  unfold State.flipBar
  extract_lets b ph ws
  have hput : ((s.setBar c n { b with ph := ph, arr := 0, waits := ws, flipAt := s.cycle + 1 }).bar c n) =
    { b with ph := ph, arr := 0, waits := ws, flipAt := s.cycle + 1 } := State.bar_setBar_self _ _ _ hn
  rw [State.settleBar_none (by rw [hput]; exact hb) (by rw [hput]; exact ht), State.bar_setBar_self _ _ _ hn, hput]
  simp only [ws, Bool.and_eq_true, bne_iff_ne, Option.isNone_iff_eq_none]
  rfl

theorem exec_barrierPhaseFlip (c n : Nat) (s : State) :
    exec (.barrierPhaseFlip c n) s = .next (if (s.bar c n).flips s.cycle then s.flipBar c n else s) := rfl

/-! ### A BARW that is due (R224, R409) -/

/-- s after the BARW of slot k of element e has left barrier n of core c and marked its place p. -/
def State.leaveBar (s : State) (c n e k p : Nat) : State :=
  (s.setBar c n { s.bar c n with waits := (s.bar c n).waits.filter fun w => !(w.elem == e && w.slot == k) }).modElem e fun x => x.mark p

theorem State.elem_leaveBar (s : State) (c n e k p : Nat) : (s.leaveBar c n e k p).elem e = (s.elem e).mark p := State.elem_setElem_self ..

theorem State.bar_leaveBar (s : State) (c : Nat) {n : Nat} (e k p : Nat) (hn : n < 32) :
    (s.leaveBar c n e k p).bar c n = { s.bar c n with waits := (s.bar c n).waits.filter fun w => !(w.elem == e && w.slot == k) } :=
  State.bar_setBar_self s _ _ hn

theorem finished_finishBarw {s : State} {e k : Nat} {y : Slot} {w : BarWait} {o : FmtE} (hk : k < 8) (hy : s.slot e k = some y) (hr : Roomy s e)
    (hw : ((s.bar (coreOf e) (barNo o)).waits.find? fun w => w.elem == e && w.slot == k) = some w) (hdue : w.due = some s.cycle)
    (hroom : s.roomFor e w.place = true) {r : Res} (hres : r = ⟨.n32, false, [(s.bar (coreOf e) (barNo o)).ph.toNat], flNone⟩) :
    Finished (s.leaveBar (coreOf e) (barNo o) e k w.place) (s.finishBarw e k o) e k y o.d (condOf (some r)) (some r) (flOf y (some r)) := by
  have he := s.elem_leaveBar (coreOf e) (barNo o) e k w.place
  have huy : (s.leaveBar (coreOf e) (barNo o) e k w.place).slot e k = some y := by
    rw [State.slot, he]
    exact hy
  have hur : Roomy (s.leaveBar (coreOf e) (barNo o) e k w.place) e := by
    unfold Roomy
    rw [he]
    exact hr
  have hfin := finished_finishSlot huy hk hur o.d (some r)
  have hnone : (((s.leaveBar (coreOf e) (barNo o) e k w.place).finishSlot e k o.d (some r) []).slot e k).isNone = true := by
    rw [hfin.slot]
    rfl
  have h : s.finishBarw e k o = (s.leaveBar (coreOf e) (barNo o) e k w.place).finishSlot e k o.d (some r) [] := by
    subst hres
    simp only [State.finishBarw, hw, hdue, le_refl, decide_true, hroom, Bool.and_self, if_true]
    exact if_pos hnone
  rw [h]
  exact hfin

theorem barrierFlip : Claims.BarrierFlip := by
  intro s c n hn
  refine ⟨?flip, fun e k y w t o hk hc hy hins hm ho hr hw hdue hplace hroom => ?barw⟩
  case flip =>
    intro b
    refine ⟨fun harm harr hpend hat hb ht => ⟨s.flipBar c n, ?_, State.bar_flipBar hn hb ht⟩, fun hno => ?_⟩
    · have hflips : b.flips s.cycle = true := by simp [Bar.flips, harm, harr, hpend, hat]
      rw [exec_barrierPhaseFlip, if_pos hflips]
    · have hflips : b.flips s.cycle ≠ true := by
        simp only [Bar.flips, ne_eq, Bool.and_eq_true, beq_iff_eq, not_and]
        rintro ⟨⟨harm, harr⟩, hpend⟩
        rcases hno with h | h | h
        · exact absurd (h.symm.trans harm) Bool.false_ne_true
        · exact absurd harr h
        · exact absurd hpend h
      rw [exec_barrierPhaseFlip, if_neg hflips]
  case barw =>
    obtain rfl : coreOf e = c := hc
    obtain rfl : barNo o = n := ho
    have hfin : s.finishFiring e k y = s.finishBarw e k o := by simp only [State.finishFiring, hins]
    have h := finished_finishBarw hk hy hr hw hdue hroom rfl
    have he := s.elem_leaveBar (coreOf e) (barNo o) e k w.place
    refine ⟨_, (exec_firingCompletion hy hm).trans (congrArg _ hfin), h.slot, ?_, fun i hi => ?_, ?_⟩
    · rw [h.only]
      exact congrArg Bar.waits (s.bar_leaveBar (coreOf e) e k w.place (barNo_lt o))
    · refine Eq.trans (h.sregs i hi) ?_
      dsimp only
      rw [he]
      rfl
    · refine (h.places _ hplace).trans (congrArg (· + _) ?_)
      rw [he]
      exact vget_vset_self _ _ _ _ hplace

/-- Settles O23: a command whose turn at its box has come acts on its record, a flip needs no held arrival to be settled, and a due BARW with room
marks its place and completes. -/
theorem barriers : Obligations.Barriers := ⟨barrierCommands, barrierFlip⟩

end Sys2Proof.Machine
end

section
/-! SUPPORT. Commands enter the queues of their engines, or ask for the forced cut that they need first (R220, R234, R369, R554). -/

namespace Sys2Proof.Machine

open Sys2Proof

/-! ### The queues of an engine -/

theorem State.equeue_setEqueue_self (s : State) (g : Nat) {q : Nat} (es : List Entry) (h : q < 8) : (s.setEqueue g q es).equeue g q = es := by
  simp [State.equeue, State.setEqueue, h]

/-- The entry that a command of slot y makes (R234). -/
def State.newEntry (s : State) (e k : Nat) (y : Slot) (waits : List Nat) : Entry :=
  { id := s.nextId, elem := e, slot := k, reg := (s.regionOf e).getD 0, stage := 0, held := false
    cut := if y.cut = 2 then 2 else 0, full := 0, waits := waits, part := 0, plan := [], buf := [], num := none }

/-- s after the command of slot y of element e has entered queue q of engine g. -/
def State.entered (s : State) (e k : Nat) (y : Slot) (g q : Nat) (waits : List Nat) : State :=
  { (s.setEqueue g q (s.equeue g q ++ [s.newEntry e k y waits])).setSlot e k { y with stage := 1 } with nextId := s.nextId + 1 }

section
variable {s : State} {e k : Nat} {y : Slot} {kind : EngineKind} {n q : Nat} {waits : List Nat}

/-- A command that is the first of its kind and that no fence holds enters its queue if that has room. -/
theorem State.enqueueCmd_eq (hfirst : s.firstOf e y (fun i => engineOf i == some kind) = true) (hfence : s.fenced e y (fenceNeed e kind n) = false) :
    s.enqueueCmd e k y kind n q waits =
      if (s.equeue (engineKey (s.partOf e) kind n) q).length < 16 then s.entered e k y (engineKey (s.partOf e) kind n) q waits else s := by
  simp only [State.enqueueCmd, hfirst, hfence, Bool.true_and, Bool.not_false, Bool.and_true, Bool.not_eq_true', decide_eq_false_iff_not, ite_not]
  rfl

theorem State.equeue_entered {g : Nat} (hq : q < 8) :
    (s.entered e k y g q waits).equeue g q = s.equeue g q ++ [s.newEntry e k y waits] := State.equeue_setEqueue_self s g _ hq

theorem State.slot_entered {g : Nat} (hk : k < 8) : (s.entered e k y g q waits).slot e k = some { y with stage := 1 } :=
  State.slot_setSlot_self (s.setEqueue g q (s.equeue g q ++ [s.newEntry e k y waits])) e { y with stage := 1 } hk

theorem quiet_entered {g : Nat} : Quiet s (s.entered e k y g q waits) e := by
  have hq : Quiet s (s.setEqueue g q (s.equeue g q ++ [s.newEntry e k y waits])) e :=
    quiet_of_elems (s := s) (t := s.setEqueue g q (s.equeue g q ++ [s.newEntry e k y waits])) ⟨rfl, rfl, rfl⟩ rfl e
  have hs := hq.trans (quiet_setSlot _ e k { y with stage := 1 })
  exact ⟨hs.mem, hs.regs, hs.toks, hs.flags⟩

end

theorem State.trySend_acts {s : State} {e k : Nat} {y : Slot} (hy : s.slot e k = some y) (hstage : y.stage = 0) (hheld : y.held = false)
    {bad : Slot → Option (Nat × Nat)} (hb : bad y = none) (act : Slot → State) : s.trySend e k bad act = act y := by
  simp [State.trySend, hy, hstage, hheld, hb]

theorem State.toStack_ok {s : State} {e va : Nat} {a : Access} {l : Loc} (hl : s.resolve (coreOf e) (s.partOf e) va a = .ok l)
    (hdev : l.space = .dev) (k : Nat) (act : Loc → State → State) :
    s.toStack e k va a act = act l (s.fillTlb (coreOf e) (s.partOf e) va) := by
  simp only [State.toStack, hl, hdev, if_true]

/-! ### A command that has just filled its slot (R220) -/

/-- Command i of firing f stands last in queue q of engine g, as an entry not yet started, and its slot k says so. -/
structure Queued (s s' : State) (f : Firing) (i : Instr) (k g q : Nat) : Prop where
  quiet : Quiet s s' f.e
  entry : ∃ z, s'.equeue g q = s.equeue g q ++ [z] ∧ z.id = s.nextId ∧ z.elem = f.e ∧ z.slot = k ∧ z.stage = 0 ∧ z.held = false ∧
    z.reg = (s.regionOf f.e).getD 0
  nextId : s'.nextId = s.nextId + 1
  slot : ∃ y, s'.slot f.e k = some y ∧ y.ins = i ∧ y.stage = 1 ∧ y.st = .engine ∧ y.seq = f.seq

section
variable {s u : State} {f : Firing} {i : Instr} {k : Nat} {a b c : VW} {y : Slot} (h : Filled s u f i k a b c 0 y)
include h

theorem Filled.sends {bad : Slot → Option (Nat × Nat)} (hb : bad y = none) (act : Slot → State) : u.trySend f.e k bad act = act y :=
  State.trySend_acts h.slot h.captured.stage h.captured.held hb act

theorem Filled.toStack {va : Nat} {x : Access} {l : Loc} (hl : s.resolve (coreOf f.e) (s.partOf f.e) va x = .ok l) (hdev : l.space = .dev)
    (act : Loc → State → State) : u.toStack f.e k va x act = act l (u.fillTlb (coreOf f.e) (u.partOf f.e) va) :=
  State.toStack_ok (by rw [h.takes.resolve, h.takes.partOf, hl]) hdev k act

theorem Filled.irrevocable (v : State) (act : State → State) : v.irrevocable f.e k y act = v.slotCut f.e k y := by
  simp [State.irrevocable, h.captured.cut]

variable (ha : Alone s f.e)
include ha

theorem Filled.fenced (need : Nat) : u.fenced f.e y need = false := by
  refine List.any_eq_false.2 fun z hz => ?_
  obtain rfl := h.outstanding ha hz
  split <;> simp

/-- From whatever caches of translations, the command enters its queue. -/
theorem Filled.queued (hi : isCommand i = true) {v : State} (hv : v.coreless = u.coreless) {kind : EngineKind} {n q : Nat} (waits : List Nat)
    (hq : q < 8) (hroom : (s.equeue (engineKey (s.partOf f.e) kind n) q).length < 16) :
    Queued s (v.enqueueCmd f.e k y kind n q waits) f i k (engineKey (s.partOf f.e) kind n) q := by
  have keeps {γ : Type} (g : State → γ) (hg : ∀ s : State, g s.coreless = g s) : g v = g u := State.coreless_keeps g hg hv
  have hfirst : v.firstOf f.e y (fun i => engineOf i == some kind) = true :=
    (keeps (fun s => s.firstOf f.e y fun i => engineOf i == some kind) fun _ => rfl).trans (h.firstOf ha _)
  have hfence : v.fenced f.e y (fenceNeed f.e kind n) = false :=
    (keeps (State.fenced · f.e y (fenceNeed f.e kind n)) fun _ => rfl).trans (h.fenced ha _)
  have hpart : v.partOf f.e = s.partOf f.e := (keeps (State.partOf · f.e) fun _ => rfl).trans (h.takes.partOf f.e)
  have hqueue (g : Nat) : v.equeue g q = s.equeue g q :=
    (keeps (State.equeue · g q) fun _ => rfl).trans (h.takes.keeps (State.equeue · g q) fun _ _ _ => rfl)
  have hid : v.nextId = s.nextId := (keeps State.nextId fun _ => rfl).trans (h.takes.keeps State.nextId fun _ _ _ => rfl)
  have hreg : v.regionOf f.e = s.regionOf f.e := (keeps (State.regionOf · f.e) fun _ => rfl).trans (h.takes.regionOf f.e)
  rw [State.enqueueCmd_eq hfirst hfence, hpart, hqueue, if_pos hroom]
  refine ⟨h.takes.quiet.trans ((quiet_of_coreless hv f.e).trans quiet_entered), ⟨v.newEntry f.e k y waits, ?_, hid, rfl, rfl, rfl, rfl, ?_⟩, ?_,
    ⟨_, State.slot_entered h.lt, h.captured.ins, rfl, ?_, h.captured.seq⟩⟩
  · rw [State.equeue_entered hq, hqueue]
  · rw [State.newEntry, hreg]
  · exact congrArg (· + 1) hid
  · rw [h.captured.st, if_pos hi]

end

/-! ### The commands of each engine (R234, R554) -/

section
variable {s : State} {t : TU} {o : FmtE} {f : Firing} {k : Nat} (h : ReadyIn s t f k)
include h

/-- A command that the cluster's copy engine takes. -/
theorem exec_copyCmd_queued {i : Instr} (hi : isCommand i = true) {bad : Slot → Option (Nat × Nat)}
    (hexec : exec i s = .next (s.fire i t (cmdCapture i o bad (performCopyCmd o bad))))
    (hroom : (s.equeue (engineKey (s.partOf f.e) .copy (clusterOf (coreOf f.e))) o.eq.toNat).length < 16)
    (hb : ∀ y : Slot, y.opa = groupOf f.x o.a → y.opb = word512 (wordOf f.x o.b) → y.opc = groupOf f.x o.c → bad y = none) :
    ∃ s', exec i s = .next s' ∧ Queued s s' f i k (engineKey (s.partOf f.e) .copy (clusterOf (coreOf f.e))) o.eq.toNat := by
  obtain ⟨u, y, hacts, hu⟩ := exec_cmdIssue_acts h (g := fun f _ => (groupOf f.x o.a, word512 (wordOf f.x o.b), groupOf f.x o.c)) hexec
    fun y hy => hb y hy.opa hy.opb hy.opc
  refine ⟨_, hacts, ?_⟩
  rw [performCopyCmd, hu.sends (hb y hu.captured.opa hu.captured.opb hu.captured.opc)]
  exact hu.queued h.2.2.2 hi rfl [] o.eq.isLt hroom

theorem exec_qfen_queued (hroom : (s.equeue (engineKey (s.partOf f.e) .copy (clusterOf (coreOf f.e))) o.eq.toNat).length < 16) :
    ∃ s', exec (.qfen t o) s = .next s' ∧
      Queued s s' f (.qfen t o) k (engineKey (s.partOf f.e) .copy (clusterOf (coreOf f.e))) o.eq.toNat := by
  obtain ⟨u, y, hacts, hu⟩ := exec_cmdIssue_acts h (i := .qfen t o) (g := fun _ _ => (0, 0, 0)) rfl fun _ _ => rfl
  refine ⟨_, hacts, ?_⟩
  rw [performQfen, hu.sends rfl]
  exact hu.queued h.2.2.2 rfl rfl _ o.eq.isLt hroom

variable {l : Loc} {a b c : VW}

/-- A command that the engine of the stack of its address takes. -/
theorem cmdIssue_queued {i : Instr} (hi : isCommand i = true) {bad : Slot → Option (Nat × Nat)} {perf : Nat → Nat → State → State}
    {va : Slot → Nat} {x : Access} {kind : EngineKind} {w : Nat}
    (hperf : ∀ e k (u : State), perf e k u = u.trySend e k bad fun y => u.toStack e k (va y) x fun l s =>
      s.enqueueCmd e k y kind l.stack o.eq.toNat [])
    (hva : ∀ y : Slot, y.opa = a → va y = w) (hb : ∀ y : Slot, y.opa = a → y.opb = b → y.opc = c → bad y = none)
    (hl : s.resolve (coreOf f.e) (s.partOf f.e) w x = .ok l) (hdev : l.space = .dev)
    (hroom : (s.equeue (engineKey (s.partOf f.e) kind l.stack) o.eq.toNat).length < 16) :
    Queued s (cmdIssue i a b c bad perf f s) f i k (engineKey (s.partOf f.e) kind l.stack) o.eq.toNat := by
  obtain ⟨u, y, hacts, hu⟩ := cmdIssue_acts h i a b c (fun y hy => hb y hy.opa hy.opb hy.opc) perf
  rw [hacts, hperf, hu.sends (hb y hu.captured.opa hu.captured.opb hu.captured.opc), hva y hu.captured.opa, hu.toStack hl hdev]
  exact hu.queued h.2.2.2 hi (State.coreless_fillTlb ..) [] o.eq.isLt hroom

/-- A command of the row sequencer is irrevocable: it asks for its forced cut first. -/
theorem cmdIssue_row_asksCut {i : Instr} {copy : Bool} {w : Nat} (hva : ∀ y : Slot, y.opa = a → copyDst y = w)
    (hb : ∀ y : Slot, y.opa = a → y.opb = b → y.opc = c → rowBad o copy y = none)
    (hl : s.resolve (coreOf f.e) (s.partOf f.e) w .nativeWrite = .ok l) (hdev : l.space = .dev) :
    AsksCut s (cmdIssue i a b c (rowBad o copy) (performRow o copy) f s) f.e k i := by
  obtain ⟨u, y, hacts, hu⟩ := cmdIssue_acts h i a b c (fun y hy => hb y hy.opa hy.opb hy.opc) (performRow o copy)
  rw [hacts, performRow, hu.sends (hb y hu.captured.opa hu.captured.opb hu.captured.opc), hva y hu.captured.opa, hu.toStack hl hdev,
    hu.irrevocable]
  exact hu.asksCut (State.coreless_fillTlb ..)

end

theorem copyDst_group {y : Slot} {w : VW} (h : y.opa = w) : copyDst y = w.toNat % 2 ^ 64 := by rw [copyDst, h]

theorem copySrc_group {y : Slot} {w : VW} (h : y.opa = w) : copySrc y = w.toNat / 2 ^ 64 % 2 ^ 64 := by rw [copySrc, h]

theorem copyDst_pair {y : Slot} {x : Elem} {c : Src} (h : y.opa = word512 (pairOf x c)) : copyDst y = pairOf x c := by
  rw [copyDst, h, word512_toNat_mod (pairOf_lt x c)]

section
variable {s : State} {t : TU} {o : FmtE} {f : Firing} {k : Nat} (h : ReadyIn s t f k) {l : Loc} (hdev : l.space = .dev)
include h

/-- A command that its sources' issue makes of the firing of a step. -/
theorem exec_of_cmdIssue {i : Instr} {act : Firing → State → State} (hexec : exec i s = .next (s.fire i t act)) {P : State → Prop}
    (hP : P (act f s)) : ∃ s', exec i s = .next s' ∧ P s' := ⟨_, hexec, by rwa [State.fire_ordinary h.1]⟩

omit h in
theorem noteCmd_sound {y : Slot} (hy : y.opa = groupOf f.x o.a) (ha : (groupOf f.x o.a).toNat % 4 = 0) : noteCmdBad y = none := by
  rw [noteCmdBad, copyDst_group hy, Nat.mod_mod_of_dvd _ (by decide), ha, if_neg (not_not.2 rfl)]

include hdev

theorem exec_ind_queued {i : Instr} (hi : isCommand i = true)
    (hexec : exec i s = .next (s.fire i t (cmdCapture i o (indBad o) (performInd o))))
    (hl : s.resolve (coreOf f.e) (s.partOf f.e) ((groupOf f.x o.a).toNat / 2 ^ 64 % 2 ^ 64) .gathRead = .ok l)
    (hroom : (s.equeue (engineKey (s.partOf f.e) .ind l.stack) o.eq.toNat).length < 16)
    (hb : ∀ y : Slot, y.opa = groupOf f.x o.a → y.opc = groupOf f.x o.c → indBad o y = none) :
    ∃ s', exec i s = .next s' ∧ Queued s s' f i k (engineKey (s.partOf f.e) .ind l.stack) o.eq.toNat :=
  exec_of_cmdIssue h hexec (cmdIssue_queued h hi (va := copySrc) (fun _ _ _ => rfl) (fun _ hy => copySrc_group hy)
    (fun y ha _ hc => hb y ha hc) hl hdev hroom)

theorem exec_stash_queued (hl : s.resolve (coreOf f.e) (s.partOf f.e) (pairOf f.x o.a) .stashWrite = .ok l)
    (hroom : (s.equeue (engineKey (s.partOf f.e) .codec l.stack) o.eq.toNat).length < 16)
    (hb : ∀ y : Slot, y.opa = word512 (pairOf f.x o.a) → y.opb = word512 (pairOf f.x o.b) → y.opc = groupOf f.x o.c → stashBad o false y = none) :
    ∃ s', exec (.stash t o) s = .next s' ∧ Queued s s' f (.stash t o) k (engineKey (s.partOf f.e) .codec l.stack) o.eq.toNat :=
  exec_of_cmdIssue h (act := stashIssue (.stash t o) o false .stashWrite) rfl
    (cmdIssue_queued h rfl (va := copyDst) (fun _ _ _ => rfl) (fun _ hy => copyDst_pair hy) hb hl hdev hroom)

theorem exec_unstash_queued {w : VW} (hw : (if stashMem o then groupOf f.x o.a else word512 (pairOf f.x o.a)) = w)
    (hl : s.resolve (coreOf f.e) (s.partOf f.e) (w.toNat % 2 ^ 64) .stashRead = .ok l)
    (hroom : (s.equeue (engineKey (s.partOf f.e) .codec l.stack) o.eq.toNat).length < 16)
    (hb : ∀ y : Slot, y.opa = w → y.opb = word512 (pairOf f.x o.b) → y.opc = groupOf f.x o.c → stashBad o (stashMem o) y = none) :
    ∃ s', exec (.unstash t o) s = .next s' ∧ Queued s s' f (.unstash t o) k (engineKey (s.partOf f.e) .codec l.stack) o.eq.toNat := by
  subst hw
  exact exec_of_cmdIssue h (act := stashIssue (.unstash t o) o (stashMem o) .stashRead) rfl
    (cmdIssue_queued h rfl (va := copyDst) (fun _ _ _ => rfl) (fun _ hy => copyDst_group hy) hb hl hdev hroom)

/-- A command of a bank-MAC sequencer that is not irrevocable. -/
theorem macIssue_queued {i : Instr} (hi : isCommand i = true) (hl : s.resolve (coreOf f.e) (s.partOf f.e) (pairOf f.x o.a) .nativeRead = .ok l)
    (hroom : (s.equeue (engineKey (s.partOf f.e) .mac l.stack) o.eq.toNat).length < 16) :
    Queued s (macIssue i o false f s) f i k (engineKey (s.partOf f.e) .mac l.stack) o.eq.toNat :=
  cmdIssue_queued h hi (va := copyDst) (fun _ _ _ => rfl) (fun _ hy => copyDst_pair hy) (fun _ _ _ _ => rfl) hl hdev hroom

theorem exec_mac_queued {i : Instr} (hi : isCommand i = true) (hexec : exec i s = .next (s.fire i t (macIssue i o false)))
    (hl : s.resolve (coreOf f.e) (s.partOf f.e) (pairOf f.x o.a) .nativeRead = .ok l)
    (hroom : (s.equeue (engineKey (s.partOf f.e) .mac l.stack) o.eq.toNat).length < 16) :
    ∃ s', exec i s = .next s' ∧ Queued s s' f i k (engineKey (s.partOf f.e) .mac l.stack) o.eq.toNat :=
  exec_of_cmdIssue h hexec (macIssue_queued h hdev hi hl hroom)

omit h hdev in
/-- What a PIMRD keeps for its tokens at issue is in flight. -/
theorem keepPlaces_eq (label n : Nat) (f : Firing) (s : State) : ∃ fl, keepPlaces label n f s = { s with flight := fl } := by
  unfold keepPlaces
  split
  · exact ⟨_, rfl⟩
  · exact ⟨s.flight, rfl⟩

theorem exec_pimrd_queued (hl : s.resolve (coreOf f.e) (s.partOf f.e) (pairOf f.x o.a) .nativeRead = .ok l)
    (hroom : (s.equeue (engineKey (s.partOf f.e) .mac l.stack) o.eq.toNat).length < 16) :
    ∃ s', exec (.pimrd t o) s = .next s' ∧ Queued s s' f (.pimrd t o) k (engineKey (s.partOf f.e) .mac l.stack) o.eq.toNat := by
  obtain ⟨fl, hfl⟩ := keepPlaces_eq (pimLabel o) 16 f s
  have h' : ReadyIn { s with flight := fl } t f k := h
  obtain ⟨hquiet, hentry, hid, hslot⟩ := macIssue_queued (i := .pimrd t o) h' hdev rfl hl hroom
  refine exec_of_cmdIssue h (act := fun f s => macIssue (.pimrd t o) o false f (keepPlaces (pimLabel o) 16 f s)) rfl ?_
  rw [hfl]
  exact ⟨⟨hquiet.mem, hquiet.regs, hquiet.toks, hquiet.flags⟩, hentry, hid, hslot⟩

omit h hdev in
theorem macIssue_eq (i : Instr) (o : FmtE) (mac : Bool) (f : Firing) (s : State) :
    ∃ b, macIssue i o mac f s = cmdIssue i (word512 (pairOf f.x o.a)) b (word512 (wordOf f.x o.c)) noBad (performMac o mac) f s :=
  ⟨_, rfl⟩

/-- A PIMMAC of a row group's start is irrevocable: it asks for its forced cut first. -/
theorem exec_pimmac_asksCut (hl : s.resolve (coreOf f.e) (s.partOf f.e) (pairOf f.x o.a) .nativeRead = .ok l)
    (hgroup : pairOf f.x o.a / 2 ^ 10 % 16 = 0) (hcol : pairOf f.x o.a % 32 = 0) :
    ∃ s', exec (.pimmac t o) s = .next s' ∧ AsksCut s s' f.e k (.pimmac t o) := by
  refine exec_of_cmdIssue h (act := macIssue (.pimmac t o) o true) rfl ?_
  obtain ⟨b, hb⟩ := macIssue_eq (.pimmac t o) o true f s
  obtain ⟨u, y, hacts, hu⟩ := cmdIssue_acts h (.pimmac t o) (word512 (pairOf f.x o.a)) b (word512 (wordOf f.x o.c)) (bad := noBad)
    (fun _ _ => rfl) (performMac o true)
  have hstart : (bitsOf (pairOf f.x o.a) 10 4 != 0 || bitsOf (pairOf f.x o.a) 0 5 != 0) = false := by
    simpa [bitsOf, hcol] using hgroup
  have hact : performMac o true f.e k u = (u.fillTlb (coreOf f.e) (u.partOf f.e) (pairOf f.x o.a)).slotCut f.e k y := by
    rw [performMac, hu.sends rfl, copyDst_pair hu.captured.opa]
    dsimp only
    rw [hu.toStack hl hdev, hstart]
    simp only [Bool.and_false, Bool.false_eq_true, if_false, if_true, hu.irrevocable]
  rw [hb, hacts, hact]
  exact hu.asksCut (State.coreless_fillTlb ..)

theorem exec_rcopy_asksCut (hl : s.resolve (coreOf f.e) (s.partOf f.e) ((groupOf f.x o.a).toNat % 2 ^ 64) .nativeWrite = .ok l)
    (hb : ∀ y : Slot, y.opa = groupOf f.x o.a → y.opc = groupOf f.x o.c → rowBad o true y = none) :
    ∃ s', exec (.rcopy t o) s = .next s' ∧ AsksCut s s' f.e k (.rcopy t o) :=
  exec_of_cmdIssue h (act := cmdCapture (.rcopy t o) o (rowBad o true) (performRow o true)) rfl
    (cmdIssue_row_asksCut h (fun _ hy => copyDst_group hy) (fun y ha _ hc => hb y ha hc) hl hdev)

theorem exec_rzero_asksCut (hl : s.resolve (coreOf f.e) (s.partOf f.e) (pairOf f.x o.a) .nativeWrite = .ok l)
    (hb : ∀ y : Slot, y.opa = word512 (pairOf f.x o.a) → y.opc = groupOf f.x o.c → rowBad o false y = none) :
    ∃ s', exec (.rzero t o) s = .next s' ∧ AsksCut s s' f.e k (.rzero t o) :=
  exec_of_cmdIssue h (act := fun f s => cmdIssue (.rzero t o) (word512 (pairOf f.x o.a)) (word512 (wordOf f.x o.b)) (groupOf f.x o.c)
      (rowBad o false) (performRow o false) f s) rfl
    (cmdIssue_row_asksCut h (fun _ hy => copyDst_pair hy) (fun y ha _ hc => hb y ha hc) hl hdev)

omit hdev

theorem exec_coll_asksCut
    (hb : ∀ y : Slot, y.opa = groupOf f.x o.a → y.opb = groupOf f.x o.b → y.opc = groupOf f.x o.c → collBad o y = none) :
    ∃ s', exec (.coll t o) s = .next s' ∧ AsksCut s s' f.e k (.coll t o) := by
  obtain ⟨u, y, hacts, hu⟩ := exec_cmdIssue_acts h (i := .coll t o) (g := fun f _ => (groupOf f.x o.a, groupOf f.x o.b, groupOf f.x o.c)) rfl
    fun y hy => hb y hy.opa hy.opb hy.opc
  refine ⟨_, hacts, ?_⟩
  rw [performColl, hu.sends (hb y hu.captured.opa hu.captured.opb hu.captured.opc), hu.irrevocable]
  exact hu.asksCut rfl

end

theorem engineCommands : Claims.EngineCommands := by
  intro s t o f k h
  extract_lets c p queued waits room ga z stack g w
  have hqueued {s' : State} {g : Nat} {i : Instr} (hq : Queued s s' f i k g o.eq.toNat) : queued s s' g i :=
    ⟨hq.quiet, hq.entry, hq.nextId, hq.slot⟩
  have hwaits {s' : State} {i : Instr} (ha : AsksCut s s' f.e k i) : waits s' i := ⟨ha.quiet, ha.engines, ha.slot, ha.region⟩
  have imp {i : Instr} {P Q : State → Prop} (hi : ∃ s', exec i s = .next s' ∧ P s') (hPQ : ∀ {s'}, P s' → Q s') :
      ∃ s', exec i s = .next s' ∧ Q s' := hi.imp fun _ hs => hs.imp id hPQ
  refine ⟨⟨fun hroom hb => ?cpy, fun hroom hb => ?fill, fun hroom hga => ?note, fun hroom => imp (exec_qfen_queued h hroom) hqueued⟩,
    fun l hl hroom hb => ⟨?gath, ?scat⟩, fun l hl hroom hb => imp (exec_stash_queued h hl.2 hl.1 hroom hb) hqueued,
    fun l hl hroom hb => imp (exec_unstash_queued h hl.2 rfl hl.1 hroom hb) hqueued,
    fun l hl hroom => ⟨?mac, imp (exec_pimrd_queued h hl.2 hl.1 hroom) hqueued⟩,
    fun l hl hgroup hcol => imp (exec_pimmac_asksCut h hl.2 hl.1 hgroup hcol) hwaits,
    fun l hl hb => imp (exec_rcopy_asksCut h hl.2 hl.1 hb) hwaits, fun l hl hb => imp (exec_rzero_asksCut h hl.2 hl.1 hb) hwaits,
    fun hb => imp (exec_coll_asksCut h hb) hwaits⟩
  case cpy => exact imp (exec_copyCmd_queued h rfl rfl hroom fun y _ _ hc => hb y hc) hqueued
  case fill => exact imp (exec_copyCmd_queued h rfl rfl hroom hb) hqueued
  case note => exact imp (exec_copyCmd_queued h rfl rfl hroom fun y ha _ _ => noteCmd_sound ha hga) hqueued
  case gath => exact imp (exec_ind_queued h hl.2 rfl rfl hl.1 hroom hb) hqueued
  case scat => exact imp (exec_ind_queued h hl.2 rfl rfl hl.1 hroom hb) hqueued
  case mac =>
    simp only [List.forall_mem_cons, List.not_mem_nil, false_implies, implies_true, and_true]
    exact ⟨imp (exec_mac_queued h hl.2 rfl rfl hl.1 hroom) hqueued, imp (exec_mac_queued h hl.2 rfl rfl hl.1 hroom) hqueued,
      imp (exec_mac_queued h hl.2 rfl rfl hl.1 hroom) hqueued⟩

/-! ### A command that comes to its queue again (R220, R369) -/

theorem queueEntry : Claims.QueueEntry := by
  intro s e k y t o l hk hy hstage hheld hruns hfirst hfence hins hcut hbad hl hdev
  let v := s.fillTlb (coreOf e) (s.partOf e) (copyDst y)
  have hv : v.coreless = s.coreless := State.coreless_fillTlb ..
  have keeps {γ : Type} (g : State → γ) (hg : ∀ s : State, g s.coreless = g s) : g v = g s := State.coreless_keeps g hg hv
  have hexec : exec (.engineQueueEntry e k) s = .next (v.enqueueCmd e k y .row l.stack o.eq.toNat []) := by
    have hattempt : s.attempt e k = performRow o true e k s := by
      simp only [State.attempt, hy, hins]
      rfl
    have hact : performRow o true e k s = v.enqueueCmd e k y .row l.stack o.eq.toNat [] := by
      rw [performRow, State.trySend_acts hy hstage hheld hbad, State.toStack_ok hl hdev, State.irrevocable, if_pos hcut]
    have hready : ((engineOf y.ins).isSome && y.stage == 0 && s.runs e) = true := by
      rw [hins, hstage, hruns]
      rfl
    have hstep : exec (.engineQueueEntry e k) s = execEngineQueueEntry e k s := rfl
    rw [hstep, execEngineQueueEntry, hy]
    dsimp only
    rw [if_pos hready, hattempt, hact]
  have hpart : v.partOf e = s.partOf e := keeps (State.partOf · e) fun _ => rfl
  have hqueue (g : Nat) : v.equeue g o.eq.toNat = s.equeue g o.eq.toNat := keeps (State.equeue · g o.eq.toNat) fun _ => rfl
  have hquiet : Quiet s v e := quiet_of_coreless hv e
  rw [State.enqueueCmd_eq ((keeps (fun s => s.firstOf e y fun i => engineOf i == some .row) fun _ => rfl).trans hfirst)
    ((keeps (State.fenced · e y (fenceNeed e .row l.stack)) fun _ => rfl).trans hfence), hpart, hqueue] at hexec
  intro g
  refine ⟨fun hroom => ⟨_, hexec.trans (congrArg _ (if_pos hroom)), hquiet.trans quiet_entered, ⟨v.newEntry e k y [], ?_, rfl, rfl, rfl, ?_⟩,
    State.slot_entered hk⟩, fun hfull => ⟨_, hexec.trans (congrArg _ (if_neg (Nat.not_lt.2 hfull))), hquiet, ?_, ?_⟩⟩
  · rw [State.equeue_entered o.eq.isLt, hqueue]
  · rw [State.newEntry, if_pos hcut]
  · exact keeps State.engines fun _ => rfl
  · exact (State.slot_of_coreless hv e k).trans hy

/-- Settles O24: a command that has just filled its slot is the first of its engine and no fence holds it, so it enters its queue, or asks for the cut
that it needs first; one that has had its cut enters when it comes to its queue again. -/
theorem engineQueues : Obligations.EngineQueues := ⟨engineCommands, queueEntry⟩

end Sys2Proof.Machine
end

section
/-! SUPPORT. What a write of clear memory leaves besides its bytes, and what a reader finds in clear memory (R180, R187, R196, R224). -/

namespace Sys2Proof.Machine

open Sys2Proof

/-! ### A write at the home -/

/-- A state without what a write at the home changes where nothing stands in for memory: device memory, its keys and its L2 lines, what regions
hold, and the free values taken. -/
def State.sansHome (s : State) : State := { s with regions := [], mem := [], enc := [], l2 := [], free := 0 }

theorem State.sansHome_homePut {s : State} (hlent : s.lent = []) (hfilled : ∀ x ∈ s.elems, x.2.filled = []) (w : Writer) (raw : Bool) (a : Nat)
    (bs : List Byte) : (s.homePut w raw a bs).sansHome = s.sansHome := by
  unfold State.homePut
  rw [State.recall_eq_self hfilled]
  extract_lets s0 t u
  have ht : t.body = s.body := (State.body_ownWords ..).trans (State.foldl_keeps State.body (fun s l => s.body_holdLine w l) _ s)
  have htlent : t.lent = [] := by
    have h : t.body.lent = s.body.lent := by rw [ht]
    exact h.trans hlent
  have hu : u = t.put raw a bs := by simp [u, htlent]
  have hsans : t.sansHome = s.sansHome := by
    show t.body.sansHome = s.body.sansHome
    rw [ht]
  rw [State.foldl_keeps State.sansHome (by intros; rfl) _ u, hu]
  exact hsans

theorem State.testWatches_keep {γ : Type} (g : State → γ) (hg : ∀ (s : State) (e : Nat) (x : Elem), g (s.setElem e x) = g s) (s : State) (a n : Nat) :
    g (s.testWatches a n) = g s := by
  refine State.foldl_keeps g (fun s x => ?_) _ s
  unfold State.testElem
  dsimp only
  split
  · rfl
  · split
    · rfl
    · exact hg ..

section
variable {s : State} (hlent : s.lent = []) (hfilled : ∀ x ∈ s.elems, x.2.filled = []) (w : Writer) (a : Nat) (bs : List Byte)
include hlent hfilled

/-- What neither a change of an element nor a write at the home touches stands after a write of device memory. -/
theorem State.devWrite_keep {γ : Type} (g : State → γ) (hset : ∀ (s : State) (e : Nat) (x : Elem), g (s.setElem e x) = g s)
    (hhome : ∀ s : State, g s.sansHome = g s) : g (s.devWrite w a bs) = g s := by
  rw [State.devWrite, State.testWatches_keep g hset, ← hhome, State.sansHome_homePut hlent hfilled, hhome]

/-- Of an element only its watches may change. -/
theorem State.elem_devWrite_keep {γ : Type} (g : Elem → γ) (hg : ∀ (x : Elem) ws, g { x with watch := ws } = g x) (e : Nat) :
    g ((s.devWrite w a bs).elem e) = g (s.elem e) := by
  have helems : (s.homePut w false a bs).sansHome.elems = s.sansHome.elems := by rw [State.sansHome_homePut hlent hfilled]
  rw [State.devWrite, State.elem_testWatches_keep g hg, State.elem_congr (s := s) (t := s.homePut w false a bs) helems]

end

/-! ### A plain run (R196) -/

/-- A plain run is written as one run of device memory, in whatever state. -/
theorem PlainRun.writeRun_eq {s : State} {ls : List (Loc × Nat)} {l : Loc} {bs : List Byte} (h : PlainRun s ls l bs.length) (u : State) (w : Writer)
    (va : Nat) : u.writeRun w va ls bs = u.devWrite w l.addr bs := by
  obtain ⟨-, rfl, hdev, ht⟩ := h
  simp [State.writeRun, State.writeLoc, hdev, ht]

/-- The lines of a clear run in one page are not under another key. -/
theorem State.plainRun_of_clear {s : State} {a n : Nat} (hc : s.Clear s.keyTag a n) (hp : a % 65536 + n ≤ 65536) :
    s.plainRun (s.keyTag a) a n = true := by
  obtain ⟨hlent, hfilled, htag⟩ := hc
  have hlines : ((linesOf a n).all fun l => !s.foreign (s.keyTag a) l) = true := by
    refine List.all_eq_true.2 fun l hl => ?_
    obtain ⟨i, hi, rfl⟩ := List.mem_map.1 hl
    have hi' := List.mem_range.1 hi
    unfold lineCount at hi'
    split at hi'
    · cases hi'
    · have hlow : a ≤ max a (128 * (a / 128 + i)) := le_max_left ..
      have hhigh : max a (128 * (a / 128 + i)) < a + n := by omega
      have hline : max a (128 * (a / 128 + i)) / 128 = a / 128 + i := by omega
      have hkey := s.keyTag_congr (blockOf_of_page hp hlow hhigh)
      have htag' := htag _ hlow hhigh
      rw [hline] at htag'
      unfold State.foreign
      split
      · rename_i t ht
        simp [htag' t ht, hkey]
      · rfl
  have hall : (s.elems.all fun x => x.2.filled.isEmpty) = true := List.all_eq_true.2 fun x hx => by rw [hfilled x hx]; rfl
  rw [State.plainRun, hlent, hall, hlines]
  rfl

/-- A reader of a plain run finds the bytes of memory. -/
theorem PlainRun.readRun_eq {s : State} {c p va n : Nat} {a : Access} {ls : List (Loc × Nat)} {l : Loc} (h : PlainRun s ls l n) (hn : n ≠ 0)
    (hr : s.resolveRun c p va n a = .ok ls) : s.readRun va ls = Memory.read s.mem l.addr n := by
  have hp := h.page hn hr
  obtain ⟨hc, rfl, hdev, ht⟩ := h
  have hread : s.readRun va [(l, n)] = s.devRead l.addr n := by simp [State.readRun, State.readLoc, hdev, ht]
  rw [hread, State.devRead, if_pos (State.plainRun_of_clear hc hp)]

/-- A write of a plain run stores its bytes, and the memories of host and peers stand. -/
theorem PlainRun.stored_devWrite {s : State} {c p va : Nat} {bs : List Byte} {a : Access} {ls : List (Loc × Nat)} {l : Loc}
    (h : PlainRun s ls l bs.length) (hn : bs.length ≠ 0) (hr : s.resolveRun c p va bs.length a = .ok ls) (w : Writer) :
    Stored s.mem (s.devWrite w l.addr bs).mem l.addr bs :=
  State.stored_devWrite h.1 (h.page hn hr) (Nat.pos_of_ne_zero hn) w

theorem State.spend_nil (s : State) : s.spend [] = s := rfl

theorem State.canSend_nil (s : State) : s.canSend [] = true := rfl

end Sys2Proof.Machine
end

section
/-! SUPPORT. ST and STW: accepted into the posted operations of their element, and performed at their bytes (R206, R213, R369, R521, R526). -/

namespace Sys2Proof.Machine

open Sys2Proof

/-! ### Acceptance (R206) -/

theorem memBytes_eq (o : FmtM) : memBytes o = if Dst.isV o.d then 64 else tyBytes o.ty := rfl

/-- Operation i of firing f has been accepted in s': its firing may complete, and it stands last among the posted operations of its element, in
slot form with the captured base and stored register; nothing has changed that shows. -/
structure Accepted (s s' : State) (f : Firing) (i : Instr) (k : Nat) (a c : VW) : Prop where
  quiet : Quiet s s' f.e
  performed : Performed s' f.e k i 0
  posted : ∃ y, (s'.elem f.e).posted = (s.elem f.e).posted ++ [y] ∧ y.ins = i ∧ y.seq = f.seq ∧ y.opa = a ∧ y.opc = c
  updates : s'.updates = s.updates

/-- From whatever caches of translations, an operation that has just filled its slot is accepted, with its home slice noted or not. -/
theorem Filled.accepted {s u v : State} {f : Firing} {i : Instr} {k : Nat} {a b c : VW} {chn : Nat} {y : Slot}
    (h : Filled s u f i k a b c chn y) (hv : v.coreless = u.coreless) {z : Slot} (n : Nat) (hz : z = { y with sub := n }) :
    Accepted s (v.accept f.e k z) f i k a c := by
  have helem : v.elem f.e = u.elem f.e := State.elem_congr (State.elems_of_coreless hv) _
  let w := v.setElem f.e { v.elem f.e with posted := (v.elem f.e).posted ++ [z] }
  have hw : w.elem f.e = { v.elem f.e with posted := (v.elem f.e).posted ++ [z] } := State.elem_setElem_self ..
  have hslot : w.slot f.e k = u.slot f.e k := by rw [State.slot, State.slot, hw, helem]
  have hquiet : Quiet v w f.e := quiet_setElem rfl rfl rfl rfl
  obtain ⟨hq, hp⟩ := h.performed ((quiet_of_coreless hv f.e).trans hquiet) hslot 0
  refine ⟨hq, hp, ⟨z, ?_, ?_⟩, ?_⟩
  · refine (State.elem_performed_keep Elem.posted (fun _ _ => rfl) w f.e k 0).trans ?_
    rw [hw, helem, h.takes.posted]
  · subst hz
    exact ⟨h.captured.ins, h.captured.seq, h.captured.opa, h.captured.opc⟩
  · refine (State.performed_keep State.updates (fun _ _ _ => rfl) w f.e k 0).trans ?_
    exact (State.coreless_keeps State.updates (fun _ => rfl) hv).trans h.takes.updates

theorem Filled.elemAccess {s u : State} {f : Firing} {i : Instr} {k : Nat} {a b c : VW} {chn : Nat} {y : Slot} (h : Filled s u f i k a b c chn y)
    {va n : Nat} {x : Access} {ls : List (Loc × Nat)} (hr : s.resolveRun (coreOf f.e) (s.partOf f.e) va n x = .ok ls)
    (act : List (Loc × Nat) → State → State) :
    u.elemAccess f.e k va n x act = act ls (u.fillRun (coreOf f.e) (u.partOf f.e) va n) :=
  State.elemAccess_ok (by rw [h.takes.resolveRun, h.takes.partOf, hr]) k act

section
variable {s : State} {t : TU} {o : FmtM} {f : Firing} {k : Nat} (h : ReadyIn s t f k) {ls : List (Loc × Nat)}
include h

/-- An ST that translates passes the gate of far memory and is accepted. -/
theorem exec_st_gate (hr : s.resolveRun (coreOf f.e) (s.partOf f.e) (effAddr f o) (memBytes o) .store = .ok ls) :
    ∃ (u v : State) (y : Slot), Filled s u f (.st t o) k (word512 (pairOf f.x o.a)) 0 (storedOf f.x o.ty o.d) o.chn.toNat y ∧ v.coreless = u.coreless ∧
      exec (.st t o) s = .next (v.farGate f.e k y ls fun s => s.accept f.e k y) := by
  obtain ⟨u, y, hexec, hu⟩ := exec_memIssue_acts h (i := .st t o) (fun _ _ => 0) (bad := noBad) rfl fun _ _ => rfl
  refine ⟨u, u.fillRun (coreOf f.e) (u.partOf f.e) (effAddr f o) (memBytes o), y, hu, State.coreless_fillRun .., hexec.trans (congrArg _ ?_)⟩
  have hfresh : ¬ (decide (y.stage ≠ 0) || y.held) = true := by simp [hu.captured.stage, hu.captured.held]
  rw [performSt, hu.slot]
  dsimp only
  rw [if_neg hfresh, eaOf_captured hu.captured.opa, hu.elemAccess hr]

theorem exec_st_accepted (hr : s.resolveRun (coreOf f.e) (s.partOf f.e) (effAddr f o) (memBytes o) .store = .ok ls) (hfar : farRun ls = false) :
    ∃ s', exec (.st t o) s = .next s' ∧ Accepted s s' f (.st t o) k (word512 (pairOf f.x o.a)) (storedOf f.x o.ty o.d) := by
  obtain ⟨u, v, y, hu, hv, hexec⟩ := exec_st_gate h hr
  have hgate : (v.farGate f.e k y ls fun s => s.accept f.e k y) = v.accept f.e k y := by
    rw [State.farGate, hfar, Bool.false_and, if_neg Bool.false_ne_true]
  exact ⟨_, hexec.trans (congrArg _ hgate), hu.accepted hv y.sub rfl⟩

theorem exec_st_asksCut (hr : s.resolveRun (coreOf f.e) (s.partOf f.e) (effAddr f o) (memBytes o) .store = .ok ls) (hfar : farRun ls = true) :
    ∃ s', exec (.st t o) s = .next s' ∧ AsksCut s s' f.e k (.st t o) := by
  obtain ⟨u, v, y, hu, hv, hexec⟩ := exec_st_gate h hr
  have hgate : (v.farGate f.e k y ls fun s => s.accept f.e k y) = v.slotCut f.e k y := by
    simp [State.farGate, hfar, hu.captured.cut]
  exact ⟨_, hexec.trans (congrArg _ hgate), hu.asksCut hv⟩

theorem exec_stw_accepted (ha : effAddr f o % tyBytes o.ty = 0)
    (hr : s.resolveRun (coreOf f.e) (s.partOf f.e) (effAddr f o) 4 .wordWrite = .ok ls) :
    ∃ s', exec (.stw t o) s = .next s' ∧ Accepted s s' f (.stw t o) k (word512 (pairOf f.x o.a)) (storedOf f.x o.ty o.d) := by
  obtain ⟨u, y, hexec, hu⟩ := exec_memIssue_acts h (i := .stw t o) (fun _ _ => 0) (bad := alnBad o) rfl fun _ hy => alnBad_aligned hy ha
  have hact : performStw o f.e k u = (u.fillRun (coreOf f.e) (u.partOf f.e) (effAddr f o) 4).accept f.e k y := by
    rw [performStw, hu.acts (alnBad_aligned hu.captured.opa ha)]
    rw [eaOf_captured hu.captured.opa, hu.elemAccess hr]
  exact ⟨_, hexec.trans (congrArg _ hact), hu.accepted (State.coreless_fillRun ..) y.sub rfl⟩

end

theorem storesAccepted : Claims.StoresAccepted := by
  intro s t o f k h a n c
  refine ⟨fun ls hr hfar => ?near, fun ls m r hr hfar hm hreg => ?far, fun ls ha hr => ?word⟩
  case near =>
    obtain ⟨s', hexec, hacc⟩ := exec_st_accepted h hr hfar
    exact ⟨s', hexec, hacc.quiet, hacc.performed, hacc.posted⟩
  case far =>
    obtain ⟨s', hexec, hasks⟩ := exec_st_asksCut h hr hfar
    obtain ⟨y, hy, -, hstage, hcut⟩ := hasks.slot
    exact ⟨s', hexec, hasks.quiet, hasks.posted, ⟨y, hy, hstage, hcut⟩, hasks.region m r hm hreg⟩
  case word =>
    obtain ⟨s', hexec, hacc⟩ := exec_stw_accepted h ha hr
    exact ⟨s', hexec, hacc.quiet, hacc.performed, hacc.posted⟩

/-! ### A posted operation is performed (R206, R521, R526) -/

/-- y stands among the posted operations of element e, whose region runs, and what is ordered before it has been performed. -/
structure PostedFirst (s : State) (e : Nat) (y : Slot) : Prop where
  runs : s.runs e = true
  find : ((s.elem e).posted.find? fun z => z.seq == y.seq) = some y
  held : y.held = false
  edges : s.edgesMet e y = true

section
variable {s : State} {e : Nat} {y : Slot} (h : PostedFirst s e y) {t : TU} {o : FmtM}
include h

theorem PostedFirst.free : (y.held || !s.edgesMet e y) = false := by simp [h.held, h.edges]

theorem PostedFirst.choose_st (hi : y.ins = .st t o) : choose (.performPosted e y.seq) s = .next (postSt o e y s) := by
  simp only [choose, h.runs, performPosted, h.find, h.free, hi, if_true, Bool.false_eq_true, if_false]

theorem PostedFirst.choose_stw (hi : y.ins = .stw t o) : choose (.performPosted e y.seq) s = .next (postStw o e y s) := by
  simp only [choose, h.runs, performPosted, h.find, h.free, hi, if_true, Bool.false_eq_true, if_false]

theorem PostedFirst.choose_red (hi : y.ins = .red t o) : choose (.performPosted e y.seq) s = .next (postRed o e y s) := by
  simp only [choose, h.runs, performPosted, h.find, h.free, hi, if_true, Bool.false_eq_true, if_false]

end

theorem State.afterFar_none {s : State} {e : Nat} {y : Slot} (h : y.cut ≠ 2) : s.afterFar e y = s := if_neg h

theorem State.posted_dropPosted (s : State) (e : Nat) (y : Slot) :
    ((s.dropPosted e y).elem e).posted = (s.elem e).posted.filter fun z => z.seq != y.seq :=
  congrArg Elem.posted (State.elem_setElem_self ..)

section
variable {s : State} {e : Nat} {y : Slot} {o : FmtM} {l : Loc} {ls : List (Loc × Nat)}

/-- An aligned ST whose run is plain writes it whole and is no longer posted. -/
theorem postSt_eq (hsub : y.sub = 0) (ha : eaOf o y % memBytes o = 0) (hcut : y.cut ≠ 2)
    (hr : s.resolveRun (coreOf e) (s.partOf e) (eaOf o y) (memBytes o) .store = .ok ls) (hp : PlainRun s ls l (memBytes o))
    (hfull : s.runFull (s.writer e) ls = false) :
    postSt o e y s =
      (s.devWrite { s.writer e with hold := (s.writer e).hold && y.full != 2 } l.addr (bytesLE (memBytes o) y.opc.toNat)).dropPosted e y := by
  have hrun (w : Writer) (bs : List Byte) (hlen : bs.length = memBytes o) : s.writeRun w (eaOf o y) ls bs = s.devWrite w l.addr bs :=
    PlainRun.writeRun_eq (hlen ▸ hp) s w _
  simp only [postSt, ha, if_true, hr, hfull, hp.near.2, State.canSend_nil, State.spend_nil, hsub, Nat.mul_zero, Nat.pow_zero, Nat.div_one,
    Bool.false_and, Bool.false_eq_true, if_false, decide_true, Bool.not_true, State.afterFar_none hcut, hrun _ _ (bytesLE_length ..)]

/-- s as an STW has set its word's presence bit, for an interval of its region that is open. -/
def State.presenceSet (s : State) (e : Nat) (y : Slot) (word : Nat) : State :=
  let t : State := { s with pres := insertNat word s.pres }
  match s.regionOf e with
  | some r => if y.full = 2 then t else t.modRegion r fun g => { g with defPres := g.defPres ++ [((s.writer e).itv, word)] }
  | none => t

theorem State.body_presenceSet (s : State) (e : Nat) (y : Slot) (word : Nat) :
    (s.presenceSet e y word).body = { s.body with pres := insertNat word s.pres } := by
  unfold State.presenceSet
  dsimp only
  split
  · split
    · rfl
    · exact State.body_modRegion ..
  · rfl

theorem mem_insertNat_self (a : Nat) (xs : List Nat) : a ∈ insertNat a xs := by
  induction xs with
  | nil => exact List.mem_singleton_self a
  | cons x xs ih =>
    rw [insertNat]
    split
    · exact List.mem_cons_self
    · split
      · rename_i h
        exact h ▸ List.mem_cons_self
      · exact List.mem_cons_of_mem _ ih

theorem State.answer_keep {γ : Type} (g : State → γ) (hg : ∀ (s : State) (e : Nat) (x : Elem), g (s.setElem e x) = g s) (s : State) (word : Nat) :
    g (s.answer word) = g s := by
  refine State.foldl_keeps g (fun s x => ?_) _ s
  obtain ⟨e, z⟩ := x
  dsimp only
  split
  · rfl
  · split
    · rfl
    · split
      · rfl
      · exact hg ..

/-- An STW of a plain word that is not present sets its presence bit and writes it, and answers the LDWs that wait for it. -/
theorem postStw_eq (hr : s.resolveRun (coreOf e) (s.partOf e) (eaOf o y) 4 .wordWrite = .ok ls) (hp : PlainRun s ls l 4)
    (hpending : s.pendingPresence (s.regionOf e) (l.addr / 4) = false) (hpres : s.pres.contains (l.addr / 4) = false)
    (hfull : s.runFull (s.writer e) ls = false) :
    postStw o e y s =
      (((s.presenceSet e y (l.addr / 4)).devWrite { s.writer e with hold := (s.writer e).hold && y.full != 2 } l.addr
        (bytesLE 4 y.opc.toNat)).dropPosted e y).answer (l.addr / 4) := by
  have hls : ls = [(l, 4)] := hp.2.1
  have hrun (u : State) (w : Writer) (bs : List Byte) (hlen : bs.length = 4) : u.writeRun w (eaOf o y) ls bs = u.devWrite w l.addr bs :=
    PlainRun.writeRun_eq (hlen ▸ hp) u w _
  subst hls
  simp only [postStw, hr, hpending, hpres, hfull, Bool.false_and, Bool.false_eq_true, if_false, hrun _ _ _ (bytesLE_length ..)]
  rfl

theorem postStw_present (hr : s.resolveRun (coreOf e) (s.partOf e) (eaOf o y) 4 .wordWrite = .ok ls) (hp : PlainRun s ls l 4)
    (hpending : s.pendingPresence (s.regionOf e) (l.addr / 4) = false) (hpres : s.pres.contains (l.addr / 4) = true) :
    postStw o e y s = s.raiseFault (s.postedFault e y 0x06 (eaOf o y)) := by
  have hls : ls = [(l, 4)] := hp.2.1
  subst hls
  simp only [postStw, hr, hpending, hpres, Bool.false_eq_true, if_false, if_true]

end

theorem storesPerformed : Claims.StoresPerformed := by
  intro s e y t o l hruns hfind hheld hedges hcut a n
  have hfirst : PostedFirst s e y := ⟨hruns, hfind, hheld, hedges⟩
  refine ⟨fun ls hins hsub ha hr hp hfull => ?st, fun ls hins hr hp hpending => ⟨fun hpres hfull => ?stw, fun hpres => ?dwr⟩⟩
  case st =>
    have hchoose := hfirst.choose_st hins
    rw [postSt_eq hsub ha hcut hr hp hfull] at hchoose
    have hlen : (bytesLE (memBytes o) y.opc.toNat).length = n := bytesLE_length ..
    have hn : (bytesLE (memBytes o) y.opc.toNat).length ≠ 0 := by
      rw [bytesLE_length, memBytes_eq]
      split
      · decide
      · exact (tyBytes_pos _).ne'
    have hclear := hp.1
    refine ⟨_, hchoose, ?_, ?_, ?_, ?_⟩
    · exact PlainRun.stored_devWrite (a := .store) (hlen ▸ hp) hn (hlen ▸ hr) _
    · exact State.devWrite_keep hclear.1 hclear.2.1 _ _ _ State.hostMem (fun _ _ _ => rfl) fun _ => rfl
    · exact State.devWrite_keep hclear.1 hclear.2.1 _ _ _ State.peerMem (fun _ _ _ => rfl) fun _ => rfl
    · rw [State.posted_dropPosted, State.elem_devWrite_keep hclear.1 hclear.2.1 _ _ _ Elem.posted fun _ _ => rfl]
  case stw =>
    have hchoose := hfirst.choose_stw hins
    rw [postStw_eq hr hp hpending hpres hfull] at hchoose
    have hbody := s.body_presenceSet e y (l.addr / 4)
    have keeps {γ : Type} (g : State → γ) (hg : ∀ s : State, g s.body = g s) :
        g (s.presenceSet e y (l.addr / 4)) = g { s with pres := insertNat (l.addr / 4) s.pres } :=
      (hg _).symm.trans ((congrArg g hbody).trans (hg { s with pres := insertNat (l.addr / 4) s.pres }))
    have hclear : (s.presenceSet e y (l.addr / 4)).Clear (s.presenceSet e y (l.addr / 4)).keyTag l.addr (bytesLE 4 y.opc.toNat).length := by
      rw [keeps (fun s => s.Clear s.keyTag l.addr (bytesLE 4 y.opc.toNat).length) fun _ => rfl, bytesLE_length]
      exact hp.1
    have hpage : l.addr % 65536 + (bytesLE 4 y.opc.toNat).length ≤ 65536 := by
      rw [bytesLE_length]
      exact hp.page (by decide) hr
    refine ⟨_, hchoose, ?_, ?_, ?_, ?_⟩
    · rw [State.answer_keep State.mem fun _ _ _ => rfl]
      have hstored := State.stored_devWrite hclear hpage (by rw [bytesLE_length]; decide)
        { s.writer e with hold := (s.writer e).hold && y.full != 2 }
      rw [keeps State.mem fun _ => rfl] at hstored
      exact hstored
    · rw [State.answer_keep State.hostMem fun _ _ _ => rfl]
      exact (State.devWrite_keep hclear.1 hclear.2.1 _ _ _ State.hostMem (fun _ _ _ => rfl) fun _ => rfl).trans (keeps State.hostMem fun _ => rfl)
    · rw [State.answer_keep State.peerMem fun _ _ _ => rfl]
      exact (State.devWrite_keep hclear.1 hclear.2.1 _ _ _ State.peerMem (fun _ _ _ => rfl) fun _ => rfl).trans (keeps State.peerMem fun _ => rfl)
    · rw [State.answer_keep State.pres fun _ _ _ => rfl]
      have hset := (State.devWrite_keep hclear.1 hclear.2.1 { s.writer e with hold := (s.writer e).hold && y.full != 2 } l.addr
        (bytesLE 4 y.opc.toNat) State.pres (fun _ _ _ => rfl) fun _ => rfl).trans (keeps State.pres fun _ => rfl)
      refine (congrArg (List.contains · (l.addr / 4)) hset).trans ?_
      exact List.contains_iff_mem.2 (mem_insertNat_self ..)
  case dwr =>
    have hchoose := hfirst.choose_stw hins
    rw [postStw_present hr hp hpending hpres] at hchoose
    refine ⟨_, hchoose, rfl, rfl, ?_⟩
    obtain ⟨hcode, -⟩ := (s.hold (.posted e y.seq) true).faultRec_src (s.postedFault e y 0x06 (eaOf o y))
    exact ⟨_, List.mem_append_right _ (List.mem_singleton_self _), rfl, hcode⟩

/-- Settles O18: a store that translates is accepted or asks for its cut, and a posted store of plain memory writes its one run, an STW with its
presence bit. -/
theorem stores : Obligations.Stores := ⟨storesAccepted, storesPerformed⟩

end Sys2Proof.Machine
end

section
/-! SUPPORT. ATOM, CAS and RED: sent to the sparse-update unit, and performed there (R206, R215, R217, R218, R499). -/

namespace Sys2Proof.Machine

open Sys2Proof

/-! ### Sending (R206, R215, R499) -/

theorem near_of_all_dev {ls : List (Loc × Nat)} (h : (ls.all fun x => x.1.space == .dev) = true) :
    farRun ls = false ∧ (ls.any fun x => x.1.space == .host) = false := by
  have hdev (x : Loc × Nat) (hx : x ∈ ls) : x.1.space = .dev := eq_of_beq (List.all_eq_true.1 h x hx)
  refine ⟨List.any_eq_false.2 fun x hx => ?_, List.any_eq_false.2 fun x hx => ?_⟩ <;> simp [hdev x hx]

theorem quiet_updates (s : State) (e : Nat) (us : List (Nat × Slot)) : Quiet s { s with updates := us } e :=
  ⟨⟨rfl, rfl, rfl⟩, ⟨rfl, rfl⟩, rfl, rfl⟩

/-- With nothing in a siding, none is full. -/
theorem State.sidingFull_nil {s : State} (h : s.sided = []) (y : Slot) : s.sidingFull y = false := by
  rw [State.sidingFull, h]
  rfl

section
variable {s : State} {t : TU} {o : FmtM} {f : Firing} {k : Nat} (h : ReadyIn s t f k) (ha : effAddr f o % tyBytes o.ty = 0)
  {ls : List (Loc × Nat)} (hr : s.resolveRun (coreOf f.e) (s.partOf f.e) (effAddr f o) (tyBytes o.ty) .store = .ok ls)
  (hdev : (ls.all fun x => x.1.space == .dev) = true)
include h ha hr hdev

/-- An aligned update of device memory that returns a value stands last in the unit, with its home slice, and its slot waits. -/
theorem exec_update_sent {i : Instr} (b : Firing → State → VW) (hi : exec i s = .next (s.fire i t fun f s => memIssue i o (b f s) (alnBad o) (performUpdate o) f s)) :
    ∃ s', exec i s = .next s' ∧ Quiet s s' f.e ∧
      (∃ y, s'.updates = s.updates ++ [(f.e, y)] ∧ y.ins = i ∧ y.seq = f.seq ∧ y.opa = word512 (pairOf f.x o.a)) ∧
      ∃ y, s'.slot f.e k = some y ∧ y.stage = 1 := by
  obtain ⟨u, y, hexec, hu⟩ := exec_memIssue_acts h b hi fun _ hy => alnBad_aligned hy ha
  obtain ⟨hnear, hhost⟩ := near_of_all_dev hdev
  obtain ⟨v, hv⟩ : ∃ v, v = u.fillRun (coreOf f.e) (u.partOf f.e) (effAddr f o) (tyBytes o.ty) := ⟨_, rfl⟩
  have hcore : v.coreless = u.coreless := hv ▸ State.coreless_fillRun ..
  have hsided : v.sided = [] := (State.coreless_keeps State.sided (fun _ => rfl) hcore).trans (hu.takes.sided.trans h.2.2.2.2.2.2.1)
  have hupdates : v.updates = s.updates := (State.coreless_keeps State.updates (fun _ => rfl) hcore).trans hu.takes.updates
  have hact : performUpdate o f.e k u =
      { v with updates := v.updates ++ [(f.e, { y with sub := sliceOf ls })] }.setSlot f.e k { y with sub := sliceOf ls, stage := 1 } := by
    rw [performUpdate, hu.acts (alnBad_aligned hu.captured.opa ha)]
    dsimp only
    rw [eaOf_captured hu.captured.opa, hu.elemAccess hr, ← hv]
    simp only [hhost, State.farGate, hnear, State.sidingFull_nil hsided, Bool.false_and, Bool.false_eq_true, if_false]
  refine ⟨_, hexec.trans (congrArg _ hact), ?_, ⟨{ y with sub := sliceOf ls }, ?_, hu.captured.ins, hu.captured.seq, hu.captured.opa⟩, _,
    State.slot_setSlot_self _ _ _ hu.lt, rfl⟩
  · exact hu.takes.quiet.trans ((quiet_of_coreless hcore f.e).trans ((quiet_updates v f.e _).trans (quiet_setSlot ..)))
  · exact congrArg (· ++ [(f.e, { y with sub := sliceOf ls })]) hupdates

/-- An aligned RED of device memory is accepted with its home slice. -/
theorem exec_red_accepted {i : Instr} (b : Firing → State → VW) (hi : exec i s = .next (s.fire i t fun f s => memIssue i o (b f s) (alnBad o) (performRed o) f s)) :
    ∃ s', exec i s = .next s' ∧ Accepted s s' f i k (word512 (pairOf f.x o.a)) (storedOf f.x o.ty o.d) := by
  obtain ⟨u, y, hexec, hu⟩ := exec_memIssue_acts h b hi fun _ hy => alnBad_aligned hy ha
  obtain ⟨hnear, hhost⟩ := near_of_all_dev hdev
  have hfresh : ¬ (decide (y.stage ≠ 0) || y.held) = true := by simp [hu.captured.stage, hu.captured.held]
  have hact : performRed o f.e k u =
      (u.fillRun (coreOf f.e) (u.partOf f.e) (effAddr f o) (tyBytes o.ty)).accept f.e k { y with sub := sliceOf ls } := by
    rw [performRed, hu.slot]
    dsimp only
    rw [if_neg hfresh, alnBad_aligned hu.captured.opa ha]
    dsimp only
    rw [eaOf_captured hu.captured.opa, hu.elemAccess hr]
    simp only [hhost, State.farGate, hnear, Bool.false_and, Bool.false_eq_true, if_false]
  exact ⟨_, hexec.trans (congrArg _ hact), hu.accepted (State.coreless_fillRun ..) (sliceOf ls) rfl⟩

end

/-- A posted RED of the module's memory goes to the unit, unless its siding is full. -/
theorem PostedFirst.choose_red_sent {s : State} {e : Nat} {y : Slot} (h : PostedFirst s e y) {t : TU} {o : FmtM} (hi : y.ins = .red t o)
    (hsub : y.sub ≠ farSlice) :
    Machine.choose (.performPosted e y.seq) s =
      .next (if s.sidingFull y then s else { s.dropPosted e y with updates := s.updates ++ [(e, y)] }) := by
  rw [h.choose_red hi, postRed, if_pos hsub]

theorem State.sidingFull_iff (s : State) (y : Slot) : s.sidingFull y = true ↔ 16 ≤ (s.sided.filter fun u => u.2.sub == y.sub).length :=
  decide_eq_true_iff

theorem updatesSent : Claims.UpdatesSent := by
  constructor
  · intro s t o f k h ls ha hr hdev
    constructor
    · intro i hi
      rcases List.mem_pair.1 hi with rfl | rfl
      · exact exec_update_sent h ha hr hdev (fun f s => updateOperand o f s) rfl
      · exact exec_update_sent h ha hr hdev (fun f _ => groupOf f.x o.b) rfl
    · obtain ⟨s', hexec, hacc⟩ := exec_red_accepted h ha hr hdev (i := .red t o) (fun f s => updateOperand o f s) rfl
      obtain ⟨y, hposted, hins, hseq, hopa, -⟩ := hacc.posted
      exact ⟨s', hexec, hacc.quiet, hacc.updates, hacc.performed, y, hposted, hins, hseq, hopa⟩
  · intro s e y t o hruns hfind hheld hedges hins hsub
    have hchoose := (PostedFirst.mk hruns hfind hheld hedges).choose_red_sent hins hsub
    constructor
    · intro hroom
      have hsiding : ¬ s.sidingFull y = true := fun hfull => absurd ((s.sidingFull_iff y).1 hfull) (by omega)
      rw [if_neg hsiding] at hchoose
      refine ⟨_, hchoose, ?_, rfl, State.posted_dropPosted s e y⟩
      have hdrop : Quiet s (s.dropPosted e y) e := quiet_setElem rfl rfl rfl rfl
      exact hdrop.trans (quiet_updates ..)
    · intro hfull
      rwa [if_pos ((s.sidingFull_iff y).2 hfull)] at hchoose

/-! ### Performing at the unit (R215, R217, R218) -/

theorem State.merges_eq_nil {s : State} {n e : Nat} {y : Slot} (h : ∀ z ∈ s.updates.eraseIdx n, mergeable y z.2 = false) : s.merges n e y = [] := by
  refine List.filter_eq_nil_iff.2 fun i _ => ?_
  by_cases hi : i = n
  · simp [hi]
  · cases hz : s.updates[i]? with
    | none => simp
    | some z =>
      have hmem : z ∈ s.updates.eraseIdx n := List.mem_eraseIdx_iff_getElem?.2 ⟨i, hi, hz⟩
      simp [h z hmem]

theorem State.applied_undiverted (s : State) (e : Nat) {y : Slot} (h : y.side = none) : s.applied [(e, y)] = s := by
  simp only [State.applied, List.foldl_cons, List.foldl_nil, h]

section
variable {s : State} {n e : Nat} {y : Slot} {o : FmtM} {l : Loc} (hn : s.updates[n]? = some (e, y)) (hchain : s.chainFirst n e y = true)
  (hwin : s.inWindow n y = true) (hfmt : updateFmt y = some o)
include hn hchain hwin hfmt

/-- An update that merges with none and was not diverted is performed by itself. -/
theorem State.sparseUpdate1_alone {ls : List (Loc × Nat)} (hr : s.resolveRun (coreOf e) (s.partOf e) (eaOf o y) (tyBytes o.ty) .store = .ok ls)
    (hfull : s.runFull (s.writer e) ls = false) (halone : ∀ z ∈ s.updates.eraseIdx n, mergeable y z.2 = false) (hside : y.side = none) :
    s.sparseUpdate1 n false =
      let p := s.updateAt e y (eaOf o y) (tyBytes o.ty) ls
      { p.1 with updates := p.1.updates.eraseIdx n }.answerUpdate e y p.2 := by
  simp only [State.sparseUpdate1, hn, hchain, hwin, hfmt, hr, hfull, State.merges_eq_nil halone, State.applied_undiverted _ _ hside, Bool.not_true,
    Bool.or_self, Bool.false_and, Bool.false_eq_true, if_false, if_true, List.filter_nil, List.isEmpty_nil, List.filterMap_cons, List.filterMap_nil]

/-- A diverted update enters the siding of its port, with the code of what diverted it. -/
theorem State.sparseUpdate1_sided (hroom : (s.sided.filter fun u => u.2.sub == y.sub).length < 16) :
    s.sparseUpdate1 n true =
      { s with updates := s.updates.eraseIdx n, sided := s.sided ++ [(e, { y with side := some (s.faultRec (s.sideFault e y 0x17)) })] } := by
  have hsiding : s.sidingFull y = false := Bool.eq_false_iff.2 fun hfull => absurd ((s.sidingFull_iff y).1 hfull) (by omega)
  simp only [State.sparseUpdate1, hn, hchain, hwin, hfmt, hsiding, Bool.not_true, Bool.or_self, Bool.false_eq_true, if_false, if_true]

end

/-- What no change of an element touches stands when an update is answered. -/
theorem State.answerUpdate_keep {γ : Type} (g : State → γ) (hg : ∀ (s : State) (e : Nat) (x : Elem), g (s.setElem e x) = g s) (s : State) (e : Nat)
    (y : Slot) (old : Nat) : g (s.answerUpdate e y old) = g s := by
  unfold State.answerUpdate
  split
  · rfl
  · split
    · exact State.performed_keep g hg ..
    · rfl

/-- Slot k of element e waits for the answer of update y, and no slot before it is of y's number. -/
structure Awaits (s : State) (e k : Nat) (y z : Slot) : Prop where
  lt : k < 8
  slot : s.slot e k = some z
  seq : z.seq = y.seq
  stage : z.stage = 1
  first : ∀ j < k, ∀ w, s.slot e j = some w → w.seq ≠ y.seq

/-- The answer of an update that returns a value performs the slot that awaits it. -/
theorem Awaits.answered {s : State} {e k : Nat} {y z : Slot} (h : Awaits s e k y z) (hi : ∀ t o, y.ins ≠ .red t o) (old : Nat) :
    Performed (s.answerUpdate e y old) e k z.ins (word512 old) := by
  have hfind : ((List.range 8).find? fun k => match s.slot e k with | some z => z.seq == y.seq && z.stage == 1 | none => false) = some k := by
    refine List.find?_range_eq_some.2 ⟨?_, List.mem_range.2 h.lt, fun j hj => ?_⟩
    · simp [h.slot, h.seq, h.stage]
    · cases hw : s.slot e j with
      | none => rfl
      | some w => simp [h.first j hj w hw]
  have hperf : s.answerUpdate e y old = s.performed e k (word512 old) := by
    unfold State.answerUpdate
    split
    · rename_i t o hins
      exact absurd hins (hi t o)
    · split
      · rename_i j hj
        obtain rfl : k = j := Option.some.inj (hfind.symm.trans hj)
        rfl
      · rename_i hnone
        exact absurd (hfind.symm.trans hnone) (Option.some_ne_none k)
  rw [hperf]
  exact performed_performed h.lt h.slot _

/-- An update of a plain run reads memory, and leaves updates, sided updates, far memories and slots alone. -/
structure UpdatedAt (s t : State) (e a m : Nat) (y : Slot) (old : Nat) : Prop where
  mem : match updateNew y old with
    | some v => Stored s.mem t.mem a (bytesLE m v)
    | none => t.mem = s.mem
  updates : t.updates = s.updates
  sided : t.sided = s.sided
  far : t.hostMem = s.hostMem ∧ t.peerMem = s.peerMem
  slots : (t.elem e).slots = (s.elem e).slots

theorem PlainRun.updateAt {s : State} {e : Nat} {y : Slot} {va m : Nat} {ls : List (Loc × Nat)} {l : Loc} (h : PlainRun s ls l m) (hm : m ≠ 0)
    (hr : s.resolveRun (coreOf e) (s.partOf e) va m .store = .ok ls) :
    ∃ t, s.updateAt e y va m ls = (t, natLE (Memory.read s.mem l.addr m)) ∧
      UpdatedAt s t e l.addr m y (natLE (Memory.read s.mem l.addr m)) := by
  unfold State.updateAt
  rw [h.readRun_eq hm hr]
  cases hv : updateNew y (natLE (Memory.read s.mem l.addr m)) with
  | none =>
    simp only [hv]
    exact ⟨s, rfl, by rw [hv], rfl, rfl, ⟨rfl, rfl⟩, rfl⟩
  | some v =>
    have hlen : (bytesLE m v).length = m := bytesLE_length ..
    have hp : PlainRun s ls l (bytesLE m v).length := by rwa [hlen]
    obtain ⟨hlent, hfilled, -⟩ := h.1
    simp only [hv, hp.writeRun_eq]
    refine ⟨_, rfl, ?_, ?_, ?_, ⟨?_, ?_⟩, ?_⟩
    · rw [hv]
      exact hp.stored_devWrite (by rwa [hlen]) (by rwa [hlen]) _
    · exact State.devWrite_keep hlent hfilled _ _ _ State.updates (fun _ _ _ => rfl) fun _ => rfl
    · exact State.devWrite_keep hlent hfilled _ _ _ State.sided (fun _ _ _ => rfl) fun _ => rfl
    · exact State.devWrite_keep hlent hfilled _ _ _ State.hostMem (fun _ _ _ => rfl) fun _ => rfl
    · exact State.devWrite_keep hlent hfilled _ _ _ State.peerMem (fun _ _ _ => rfl) fun _ => rfl
    · exact State.elem_devWrite_keep hlent hfilled _ _ _ Elem.slots (fun _ _ => rfl) e

theorem updatesPerformed : Claims.UpdatesPerformed := by
  intro s n e y o l hn hchain hwin hfmt a m old
  refine ⟨fun ls hr hp hfull halone hside => ?performed, fun hroom => ?sided⟩
  case performed =>
    have hstep := State.sparseUpdate1_alone hn hchain hwin hfmt hr hfull halone hside
    obtain ⟨t, ht, hu⟩ := hp.updateAt (y := y) (tyBytes_pos o.ty).ne' hr
    rw [ht] at hstep
    have keeps {γ : Type} (g : State → γ) (hg : ∀ (s : State) (e : Nat) (x : Elem), g (s.setElem e x) = g s) :
        g (s.sparseUpdate1 n false) = g { t with updates := t.updates.eraseIdx n } :=
      (congrArg g hstep).trans (State.answerUpdate_keep g hg ..)
    refine ⟨s.sparseUpdate1 n false, rfl, ?_, ?_, ?_, ?_, ?_, fun hi k hk z hz hseq hstage hfirst => ?_⟩
    · exact (keeps State.updates fun _ _ _ => rfl).trans (congrArg (List.eraseIdx · n) hu.updates)
    · exact (keeps State.sided fun _ _ _ => rfl).trans hu.sided
    · exact (keeps State.hostMem fun _ _ _ => rfl).trans hu.far.1
    · exact (keeps State.peerMem fun _ _ _ => rfl).trans hu.far.2
    · rw [keeps State.mem fun _ _ _ => rfl]
      exact hu.mem
    · have hslot (j : Nat) : ({ t with updates := t.updates.eraseIdx n } : State).slot e j = s.slot e j := congrArg (vget · j none) hu.slots
      rw [hstep]
      refine Awaits.answered ⟨hk, (hslot k).trans hz, hseq, hstage, fun j hj w hw => ?_⟩ hi old
      exact hfirst j hj w ((hslot j).symm.trans hw)
  case sided =>
    obtain ⟨hcode, -⟩ := s.faultRec_src (s.sideFault e y 0x17)
    exact ⟨_, hcode, congrArg _ (State.sparseUpdate1_sided hn hchain hwin hfmt hroom)⟩

/-- Settles O19: an update of device memory enters the unit at issue, or as its posted RED is performed, and the unit makes it one
read-modify-write of a plain run. A sided update carries fault code 17 as the model records a diversion by repair (log 119). -/
theorem updates : Obligations.Updates := ⟨updatesSent, updatesPerformed⟩

end Sys2Proof.Machine
end

section
/-! SUPPORT. What a kept translation leaves of the translations that are good already (R188, R194). -/

namespace Sys2Proof.Machine

open Sys2Proof

/-! ### Cached leaves (R194) -/

theorem SMap.length_set_le {α : Type} (k : Nat) (x : α) (m : List (Nat × α)) : (SMap.set k x m).length ≤ m.length + 1 := by
  induction m with
  | nil => exact le_rfl
  | cons p m ih =>
    rw [SMap.set]
    split_ifs
    · exact Nat.le_succ _
    · exact le_rfl
    · exact Nat.succ_le_succ ih

@[simp] theorem State.tlbOf_setTlb_self (s : State) (c : Nat) (m : List (Nat × W64)) : (s.setTlb c m).tlbOf c = m := by
  unfold State.setTlb State.tlbOf
  split
  · simp
  · exact SMap.get_set_self ..

/-- A 2 MiB leaf and a 64 KiB leaf have different keys. -/
theorem tlbKey_small_ne_big (p q va vb : Nat) : tlbKey p va false ≠ tlbKey q vb true := by
  simp only [tlbKey, Bool.false_eq_true, if_false, if_true]
  omega

/-- No leaf is cached under either key of an address. -/
theorem cachedLeaf_eq_none_iff {m : List (Nat × W64)} {p va : Nat} :
    cachedLeaf m p va = none ↔ SMap.find (tlbKey p va false) m = none ∧ SMap.find (tlbKey p va true) m = none := by
  unfold cachedLeaf
  cases SMap.find (tlbKey p va false) m <;> simp

/-- Addresses of one 64 KiB page are of one 2 MiB page. -/
theorem tlbKey_big_of_small {p va vb : Nat} (h : tlbKey p va false = tlbKey p vb false) : tlbKey p va true = tlbKey p vb true := by
  simp only [tlbKey, Bool.false_eq_true, if_false, if_true] at h ⊢
  omega

/-- A leaf that is kept for an address without one hides no other, and is found by the addresses that it maps. -/
theorem cachedLeaf_set {m : List (Nat × W64)} {p vb : Nat} (hb : cachedLeaf m p vb = none) (va : Nat) (big : Bool) (w : W64) :
    cachedLeaf (SMap.set (tlbKey p vb big) w m) p va =
      (cachedLeaf m p va).or (if tlbKey p va big = tlbKey p vb big then some (w, big) else none) := by
  obtain ⟨hsmall, hbig⟩ := cachedLeaf_eq_none_iff.1 hb
  unfold cachedLeaf
  cases big with
  | false =>
    rw [SMap.find_set_ne (tlbKey_small_ne_big p p vb va).symm]
    by_cases h : tlbKey p va false = tlbKey p vb false
    · rw [if_pos h, h, SMap.find_set_self, hsmall, tlbKey_big_of_small h, hbig]
      rfl
    · rw [if_neg h, SMap.find_set_ne h, Option.or_none]
  | true =>
    rw [SMap.find_set_ne (tlbKey_small_ne_big p p va vb)]
    by_cases h : tlbKey p va true = tlbKey p vb true
    · rw [if_pos h, h, SMap.find_set_self, hbig]
      cases SMap.find (tlbKey p va false) m <;> rfl
    · rw [if_neg h, SMap.find_set_ne h, Option.or_none]

/-! ### The walk (R188) -/

theorem bitsOf_congr {a b k lo : Nat} (h : a / 2 ^ k = b / 2 ^ k) (hlo : k ≤ lo) (len : Nat) : bitsOf a lo len = bitsOf b lo len := by
  obtain ⟨d, rfl⟩ := Nat.exists_eq_add_of_le hlo
  rw [bitsOf, bitsOf, Nat.pow_add, ← Nat.div_div_eq_div_mul, ← Nat.div_div_eq_div_mul, h]

/-- The entry of the second level that an address walks to. -/
def walkTwo (s : State) (p va : Nat) : Except Nat Nat := do
  let t3 ← nextTable (← tableEntry s p (s.part p).ptb.toNat (bitsOf va 43 13))
  let t2 ← nextTable (← tableEntry s p t3 (bitsOf va 30 13))
  tableEntry s p t2 (bitsOf va 21 9)

/-- The leaf that an entry of the second level gives an address. -/
def leafOfTwo (s : State) (p va w2 : Nat) : Except Nat (W64 × Bool) := do
  if bitsOf w2 4 1 = 1 then
    if leafOk (BitVec.ofNat 64 w2) true then .ok (BitVec.ofNat 64 w2, true) else .error 0x02
  else
    let t1 ← nextTable w2
    let w1 ← tableEntry s p t1 (bitsOf va 16 5)
    if leafOk (BitVec.ofNat 64 w1) false then .ok (BitVec.ofNat 64 w1, false) else .error 0x02

theorem walk_eq (s : State) (p va : Nat) : walk s p va = walkTwo s p va >>= leafOfTwo s p va := by
  simp only [walk, walkTwo, bind_assoc]
  rfl

theorem walkTwo_congr {s : State} {p va vb : Nat} (h : va / 2 ^ 21 = vb / 2 ^ 21) : walkTwo s p va = walkTwo s p vb := by
  simp only [walkTwo, bitsOf_congr h (show 21 ≤ 43 by decide), bitsOf_congr h (show 21 ≤ 30 by decide), bitsOf_congr h le_rfl]

/-- A 2 MiB leaf is the entry of the second level itself. -/
theorem leafOfTwo_big {s : State} {p va vb w2 : Nat} {w : W64} (h : leafOfTwo s p vb w2 = .ok (w, true)) : leafOfTwo s p va w2 = .ok (w, true) := by
  unfold leafOfTwo at h ⊢
  split at h
  · rename_i hbit
    rwa [if_pos hbit]
  · cases h1 : nextTable w2 with
    | error k =>
      rw [h1] at h
      cases h
    | ok t1 =>
      rw [h1] at h
      cases h2 : tableEntry s p t1 (bitsOf vb 16 5) with
      | error k =>
        simp only [bind, Except.bind, h2] at h
        cases h
      | ok w1 =>
        simp only [bind, Except.bind, h2] at h
        split at h <;> cases h

/-- The addresses that a leaf maps walk to it. -/
theorem walk_of_tlbKey {s : State} {p va vb : Nat} {w : W64} {big : Bool} (hw : walk s p vb = .ok (w, big)) (h : tlbKey p va big = tlbKey p vb big) :
    walk s p va = .ok (w, big) := by
  rw [walk_eq] at hw ⊢
  cases big with
  | false =>
    have h16 : va / 2 ^ 16 = vb / 2 ^ 16 := by
      simp only [tlbKey, Bool.false_eq_true, if_false] at h
      omega
    have h21 : va / 2 ^ 21 = vb / 2 ^ 21 := by omega
    have hleaf : leafOfTwo s p va = leafOfTwo s p vb := funext fun w2 => by simp only [leafOfTwo, bitsOf_congr h16 le_rfl]
    rw [walkTwo_congr h21, hleaf, hw]
  | true =>
    have h21 : va / 2 ^ 21 = vb / 2 ^ 21 := by
      simp only [tlbKey, if_true] at h
      omega
    rw [walkTwo_congr h21]
    cases hw2 : walkTwo s p vb with
    | error k =>
      rw [hw2] at hw
      cases hw
    | ok w2 =>
      rw [hw2] at hw
      exact leafOfTwo_big hw

/-! ### Translations that stand (R194) -/

theorem walk_of_coreless {s t : State} (h : t.coreless = s.coreless) (p va : Nat) : walk t p va = walk s p va :=
  State.coreless_keeps (walk · p va) (fun _ => rfl) h

/-- A leaf is kept for an address that had none cached. -/
theorem State.fillTlb_cases (s : State) (c p vb : Nat) :
    s.fillTlb c p vb = s ∨ ∃ w big, cachedLeaf (s.tlbOf c) p vb = none ∧ walk s p vb = .ok (w, big) ∧
      s.fillTlb c p vb = s.setTlb c (SMap.set (tlbKey p vb big) w (if (s.tlbOf c).length < 1024 || c ≥ 256 then s.tlbOf c else (s.tlbOf c).tail)) := by
  unfold State.fillTlb
  dsimp only
  split
  · exact .inl rfl
  · rename_i hnone
    split
    · rename_i w big hw
      exact .inr ⟨w, big, hnone, hw, rfl⟩
    · exact .inl rfl

/-- A good translation stands when another address's leaf is kept and none is dropped. -/
theorem State.xlat_fillTlb {s : State} {c p va : Nat} {ring : Bool} {l : Loc} (hlen : (s.tlbOf c).length < 1024) (h : s.xlat c p va ring = .ok l)
    (vb : Nat) : (s.fillTlb c p vb).xlat c p va ring = .ok l := by
  rcases s.fillTlb_cases c p vb with heq | ⟨w, big, hnone, hw, heq⟩
  · rwa [heq]
  · simp only [hlen, decide_true, Bool.true_or, if_true] at heq
    have hcore : (s.fillTlb c p vb).coreless = s.coreless := s.coreless_fillTlb c p vb
    have keeps {γ : Type} (g : State → γ) (hg : ∀ s : State, g s.coreless = g s) : g (s.fillTlb c p vb) = g s := State.coreless_keeps g hg hcore
    unfold State.xlat at h ⊢
    rw [keeps (fun s => locFault s p ring) fun _ => rfl, keeps (fun s => s.busStopped p) fun _ => rfl, keeps State.noMap fun _ => rfl,
      keeps (fun s => s.part p) fun _ => rfl, keeps State.pinned fun _ => rfl, keeps (fun s => walk s p va) fun _ => rfl, heq,
      State.tlbOf_setTlb_self, cachedLeaf_set hnone]
    cases hold : cachedLeaf (s.tlbOf c) p va with
    | some x => rwa [hold] at h
    | none =>
      rw [hold] at h
      by_cases hkey : tlbKey p va big = tlbKey p vb big
      · rw [if_pos hkey]
        rw [walk_of_tlbKey hw hkey] at h
        dsimp only [Option.or] at h ⊢
        split_ifs at h ⊢ <;> exact h
      · rwa [if_neg hkey]

theorem State.length_tlbOf_fillTlb (s : State) (c p vb : Nat) : ((s.fillTlb c p vb).tlbOf c).length ≤ (s.tlbOf c).length + 1 := by
  rcases s.fillTlb_cases c p vb with heq | ⟨w, big, -, -, heq⟩
  · rw [heq]
    exact Nat.le_succ _
  · rw [heq, State.tlbOf_setTlb_self]
    refine (SMap.length_set_le _ _ _).trans (Nat.succ_le_succ ?_)
    split
    · rfl
    · exact (List.tail_sublist _).length_le

theorem State.resolve_fillTlb {s : State} {c p va : Nat} {a : Access} {l : Loc} (hlen : (s.tlbOf c).length < 1024)
    (h : s.resolve c p va a = .ok l) (vb : Nat) : (s.fillTlb c p vb).resolve c p va a = .ok l := by
  have hx := State.xlat_of_resolve h
  rw [State.resolve, State.xlat_fillTlb hlen hx]
  rwa [State.resolve, hx] at h

theorem State.resolveRun_fillTlb {s : State} {c p va n : Nat} {a : Access} {ls : List (Loc × Nat)} (hlen : (s.tlbOf c).length < 1024)
    (h : s.resolveRun c p va n a = .ok ls) (vb : Nat) : (s.fillTlb c p vb).resolveRun c p va n a = .ok ls := by
  unfold State.resolveRun at h ⊢
  generalize n / 65536 + 2 = fuel at h ⊢
  induction fuel generalizing va n ls with
  | zero => exact h
  | succ fuel ih =>
    rw [State.resolveGo] at h ⊢
    split at h
    · rename_i hn
      rwa [if_pos hn]
    · rename_i hn
      rw [if_neg hn]
      dsimp only at h ⊢
      split at h
      · cases h
      · cases h
      · rename_i l hl
        rw [State.resolve_fillTlb hlen hl]
        dsimp only
        split at h
        · rename_i ks hks
          rw [ih hks]
          exact h
        · rename_i hne
          exact absurd h (hne ls)

/-- A run that translates still does when the leaves of another run of at most a page are kept, in caches with room for them. -/
theorem State.resolveRun_fillRun {s : State} {c p va n : Nat} {a : Access} {ls : List (Loc × Nat)} (h : s.resolveRun c p va n a = .ok ls) (vb : Nat)
    {m : Nat} (hlen : (s.tlbOf c).length + (m / 65536 + 2) ≤ 1024) : (s.fillRun c p vb m).resolveRun c p va n a = .ok ls := by
  unfold State.fillRun
  rw [← List.length_range (n := m / 65536 + 2)] at hlen
  generalize List.range (m / 65536 + 2) = is at hlen ⊢
  induction is generalizing s with
  | nil => exact h
  | cons i is ih =>
    rw [List.length_cons] at hlen
    rw [List.foldl_cons]
    split
    · have hgrow := s.length_tlbOf_fillTlb c p (vb + i * 65536)
      exact ih (State.resolveRun_fillTlb (by omega) h (vb + i * 65536)) (by omega)
    · exact ih h (by omega)

end Sys2Proof.Machine
end

section
/-! SUPPORT. An engine serves the head of a queue: what its turn, the progress of a command and its end leave (R227, R235, R237). -/

namespace Sys2Proof.Machine

open Sys2Proof

/-! ### A turn (R235) -/

/-- s as engine g has given queue q its turn. -/
def State.turned (s : State) (g q : Nat) : State := s.setEngine g { s.engine g with turn := (q + 1) % 8 }

theorem nextQueue_lt {en : Engine} {q : Nat} (h : nextQueue en = some q) : q < 8 := by
  obtain ⟨i, -, rfl⟩ := List.mem_map.1 (List.mem_of_find?_eq_some h)
  exact Nat.mod_lt _ (by decide)

theorem State.equeue_turned (s : State) (g q j : Nat) : (s.turned g q).equeue g j = s.equeue g j := by
  rw [State.equeue, State.turned, State.engine_setEngine_self]
  rfl

/-- What does not depend on engines, cores and translation caches stands after a turn, whatever translations have been kept. -/
theorem State.turned_keeps {γ : Type} (f : State → γ) (hcore : ∀ s : State, f s.coreless = f s)
    (hset : ∀ (s : State) (g : Nat) (x : Engine), f (s.setEngine g x) = f s) {s v : State} {g q : Nat}
    (hv : v.coreless = (s.turned g q).coreless) : f v = f s :=
  (State.coreless_keeps f hcore hv).trans (hset ..)

section
variable {s : State} {g q : Nat} {e : Entry} {y : Slot} (h : Served s g q e y)
include h

theorem Served.lt : q < 8 := nextQueue_lt h.turn

/-- The engine acts for the head of the queue that has its turn. -/
theorem Served.serve_eq (act : Entry → Slot → State → State) : s.serve g q act = act e y (s.turned g q) := by
  obtain ⟨ts, hqueue, -⟩ := h.head
  obtain ⟨hheld, hcut, hfull, -, hruns, -⟩ := h.free
  have hslot : (s.turned g q).slot e.elem e.slot = some y := h.slot
  have hstands : (s.turned g q).runs e.elem = true := hruns
  have hfree : (e.held || decide (e.cut = 1) || decide (e.full = 1) || !(s.turned g q).runs e.elem) = false := by
    simp [hheld, hcut, hfull, hstands]
  have hentries : vget (s.engine g).qs q [] = e :: ts := hqueue
  have hturn : (nextQueue (s.engine g) != some q) = false := by simp [h.turn]
  unfold State.serve
  simp only [hturn, hentries, Bool.false_eq_true, if_false]
  show (match (s.turned g q).slot e.elem e.slot with
    | none => s.turned g q
    | some y => if (e.held || decide (e.cut = 1) || decide (e.full = 1) || !(s.turned g q).runs e.elem) = true then s.turned g q
      else act e y (s.turned g q)) = _
  rw [hslot]
  simp only [hfree, Bool.false_eq_true, if_false]

/-- The entry of a command is replaced at the head of its queue. -/
theorem Served.equeue_setEntry {u : State} (hu : u.equeue g q = s.equeue g q) {t : Entry} (ht : t.id = e.id) :
    (u.setEntry g q t).equeue g q = t :: (s.equeue g q).tail := by
  obtain ⟨ts, hqueue, hids⟩ := h.head
  rw [State.setEntry, State.equeue_setEqueue_self _ _ _ h.lt, hu, hqueue, List.map_cons, if_pos ht.symm, List.tail_cons]
  refine congrArg (t :: ·) ((List.map_congr_left fun z hz => if_neg ?_).trans (List.map_id _))
  rw [ht]
  exact hids z hz

/-- The entry of a command is removed from the head of its queue. -/
theorem Served.equeue_dropEntry {u : State} {t : Entry} (ht : t.id = e.id) (hu : u.equeue g q = t :: (s.equeue g q).tail) :
    (u.dropEntry g q t).equeue g q = (s.equeue g q).tail := by
  obtain ⟨ts, hqueue, hids⟩ := h.head
  rw [State.dropEntry, State.equeue_setEqueue_self _ _ _ h.lt, hu, hqueue, List.tail_cons, List.filter_cons_of_neg (by simp)]
  refine List.filter_eq_self.2 fun z hz => bne_iff_ne.2 ?_
  rw [ht]
  exact hids z hz

theorem Served.head_tail_ne : (s.equeue g q).tail.head?.map Entry.id ≠ some e.id := by
  obtain ⟨ts, hqueue, hids⟩ := h.head
  rw [hqueue, List.tail_cons]
  cases ts with
  | nil => exact nofun
  | cons z zs => exact fun heq => hids z List.mem_cons_self (Option.some.inj heq)

end

/-! ### The end of a command (R237) -/

theorem State.finalValue_eq {y : Slot} (h : engineOf y.ins ≠ some .codec) (s : State) (t : Entry) (v : Nat) : s.finalValue t y v = v := by
  unfold State.finalValue
  split
  · rename_i hi
    rw [hi] at h
    exact absurd rfl h
  · rename_i hi
    rw [hi] at h
    exact absurd rfl h
  · rfl

theorem State.coreless_freePort (s : State) (t : Entry) : (s.freePort t).coreless = s.coreless :=
  State.foldl_keeps State.coreless (fun s _ => s.coreless_modPort ..) _ s

theorem State.mems_finishEntry (s : State) (g q : Nat) (t : Entry) (v : Nat) : (s.finishEntry g q t v).mems = s.mems := by
  unfold State.finishEntry
  split
  · rfl
  · have hport : ((s.dropEntry g q t).freePort t).mems = (s.dropEntry g q t).mems :=
      State.coreless_keeps State.mems (fun _ => rfl) (State.coreless_freePort ..)
    exact (State.performed_keep State.mems (fun _ _ _ => rfl) ..).trans hport

/-- What does not depend on regions is the same of two states that differ in them alone. -/
theorem State.body_keeps {γ : Type} (g : State → γ) (hg : ∀ s : State, g s.body = g s) {s t : State} (h : t.body = s.body) : g t = g s :=
  (hg t).symm.trans ((congrArg g h).trans (hg s))

theorem State.mems_modRegion (s : State) (n : Nat) (f : Region → Region) : (s.modRegion n f).mems = s.mems :=
  State.body_keeps State.mems (fun _ => rfl) (s.body_modRegion n f)

theorem State.body_askSecond (s : State) (r : Option Nat) : (s.askSecond r).body = s.body := by
  cases r with
  | none => rfl
  | some r => exact s.body_modRegion ..

theorem State.mems_payloadDone (s : State) (g q : Nat) (t : Entry) (ntf : Nat) (c : VW) (v : Nat) :
    (s.payloadDone g q t ntf c v).mems = s.mems := by
  unfold State.payloadDone
  split
  · extract_lets u w
    refine (State.mems_modRegion ..).trans ?_
    show (match u.slot t.elem t.slot with | some y => _ | none => u : State).mems = s.mems
    split <;> rfl
  · extract_lets u
    split
    · exact (State.body_keeps State.mems (fun _ => rfl) (u.body_askSecond _)).trans (s.mems_finishEntry ..)
    · exact s.mems_finishEntry ..

/-- A command without a notify is done once its payload is. -/
theorem Served.done_payloadDone {s u : State} {g q : Nat} {e t : Entry} {y z : Slot} (h : Served s g q e y)
    (ht : t.id = e.id ∧ t.elem = e.elem ∧ t.slot = e.slot) (hi : engineOf y.ins ≠ some .codec)
    (hqueue : u.equeue g q = t :: (s.equeue g q).tail) (hslot : u.slot e.elem e.slot = some z) (hz : z.ins = y.ins) {ntf : Nat} (hntf : ntf % 2 = 0) (c : VW) (v : Nat) :
    Served.Done s (u.payloadDone g q t ntf c v) g q e y v := by
  obtain ⟨hid, helem, hk⟩ := ht
  have hplain : engineOf z.ins ≠ some .codec := hz ▸ hi
  let w := (u.dropEntry g q t).freePort t
  have hw : w.coreless = (u.dropEntry g q t).coreless := State.coreless_freePort ..
  have hfinish : u.finishEntry g q t v = w.performed e.elem e.slot (word512 v) := by
    unfold State.finishEntry
    rw [helem, hk, hslot]
    dsimp only
    rw [State.finalValue_eq hplain]
  have hbody : (u.payloadDone g q t ntf c v).body = (w.performed e.elem e.slot (word512 v)).body := by
    unfold State.payloadDone
    rw [if_neg (by omega), hfinish]
    dsimp only
    split
    · exact State.body_askSecond ..
    · rfl
  have htail : (u.payloadDone g q t ntf c v).equeue g q = (s.equeue g q).tail := by
    rw [State.body_keeps (State.equeue · g q) (fun _ => rfl) hbody, State.performed_keep (State.equeue · g q) fun _ _ _ => rfl]
    exact (State.coreless_keeps (State.equeue · g q) (fun _ => rfl) hw).trans (h.equeue_dropEntry hid hqueue)
  have hperf : Performed (w.performed e.elem e.slot (word512 v)) e.elem e.slot z.ins (word512 v) :=
    performed_performed h.free.2.2.2.2.2 ((State.slot_of_coreless hw _ _).trans hslot) _
  refine ⟨by rw [htail]; exact h.head_tail_ne, htail, ?_⟩
  unfold Performed
  rw [State.body_keeps (State.slot · e.elem e.slot) (fun _ => rfl) hbody, ← hz]
  exact hperf

/-! ### A command moves on (R227, R238, R245) -/

/-- An engine has moved bytes bs of a command to a, and the far memories, the queue and the slots of the command are as they were. -/
structure Carried (s u : State) (g q : Nat) (e : Entry) (a : Nat) (bs : List Byte) : Prop where
  mem : Stored s.mem u.mem a bs
  far : u.hostMem = s.hostMem ∧ u.peerMem = s.peerMem
  queue : u.equeue g q = s.equeue g q
  slots : (u.elem e.elem).slots = (s.elem e.elem).slots

/-- A state without what a write of memory, of presence bits and of translation caches changes where nothing stands in for memory. -/
def State.sansMove (s : State) : State := { s.sansHome with elems := [], starts := [], pres := [], cores := [], baseTlb := [] }

/-- Memory and slots tell whether a move has carried its bytes, where all else stands. -/
theorem Carried.of_sansMove {s u : State} {g q : Nat} {e : Entry} {a : Nat} {bs : List Byte} (hmem : Stored s.mem u.mem a bs)
    (hsans : u.sansMove = (s.turned g q).sansMove) (hslots : (u.elem e.elem).slots = (s.elem e.elem).slots) : Carried s u g q e a bs := by
  have keeps {γ : Type} (f : State → γ) (hf : ∀ s : State, f s.sansMove = f s) : f u = f (s.turned g q) :=
    (hf u).symm.trans ((congrArg f hsans).trans (hf _))
  exact ⟨hmem, ⟨keeps State.hostMem fun _ => rfl, keeps State.peerMem fun _ => rfl⟩,
    (keeps (State.equeue · g q) fun _ => rfl).trans (s.equeue_turned g q q), hslots⟩

theorem State.sansMove_of_coreless {s t : State} (h : t.coreless = s.coreless) : t.sansMove = s.sansMove :=
  State.coreless_keeps State.sansMove (fun _ => rfl) h

/-- u as command t has m bytes credited and counts n, its entry kept. -/
def State.progressed (u : State) (g q : Nat) (t : Entry) (o : FmtE) (m n : Nat) : State :=
  ((u.credits t o 0 m).setProg t.elem t.slot n).setEntry g q t

theorem State.coreless_credits (s : State) (t : Entry) (o : FmtE) (b n : Nat) : (s.credits t o b n).coreless = s.coreless := by
  unfold State.credits
  split <;> rfl

theorem State.setProg_eq {s : State} {e k : Nat} {y : Slot} (h : s.slot e k = some y) (n : Nat) :
    s.setProg e k n = s.setSlot e k { y with prog := n } := by
  simp only [State.setProg, h]

section
variable {s u : State} {g q : Nat} {e t : Entry} {y : Slot} {a : Nat} {bs : List Byte} (h : Served s g q e y) (hc : Carried s u g q e a bs)
  (ht : t.id = e.id ∧ t.elem = e.elem ∧ t.slot = e.slot) (o : FmtE) (m n : Nat)
include h hc ht

/-- The slot of a command that moves on counts its progress, and its queue stands behind it. -/
theorem Carried.progressed : (u.progressed g q t o m n).mems = u.mems ∧ (u.progressed g q t o m n).slot e.elem e.slot = some { y with prog := n } ∧
    (u.progressed g q t o m n).equeue g q = t :: (s.equeue g q).tail := by
  obtain ⟨hid, helem, hk⟩ := ht
  let v := u.credits t o 0 m
  have hv : v.coreless = u.coreless := State.coreless_credits ..
  have hslot : v.slot e.elem e.slot = some y := by
    rw [State.slot_of_coreless hv, State.slot, hc.slots]
    exact h.slot
  have hprog : u.progressed g q t o m n = (v.setSlot e.elem e.slot { y with prog := n }).setEntry g q t := by
    rw [State.progressed, helem, hk, State.setProg_eq hslot]
  have hqueue : (v.setSlot e.elem e.slot { y with prog := n }).equeue g q = s.equeue g q :=
    (State.coreless_keeps (State.equeue · g q) (fun _ => rfl) hv).trans hc.queue
  rw [hprog]
  have hmems : v.mems = u.mems := State.coreless_keeps State.mems (fun _ => rfl) hv
  exact ⟨hmems, State.slot_setSlot_self v _ _ h.free.2.2.2.2.2, h.equeue_setEntry hqueue hid⟩

/-- What a command that has moved bytes leaves: it goes on with its entry, or its payload is performed. -/
theorem Carried.outcome (hi : engineOf y.ins ≠ some .codec) (last : Prop) [Decidable last] (c : VW) (v : Nat) {w : State}
    (hw : w = if last then (u.progressed g q t o m n).payloadDone g q t (ntfOf o) c v else u.progressed g q t o m n) :
    Stored s.mem w.mem a bs ∧ w.hostMem = s.hostMem ∧ w.peerMem = s.peerMem ∧
      (¬ last → Served.Goes w g q e n ∧ (w.equeue g q).head? = some t) ∧ (last → o.ntf.toNat % 2 = 0 → Served.Done s w g q e y v) := by
  obtain ⟨hmems, hslot, hqueue⟩ := hc.progressed h ht o m n
  have hall : w.mems = u.mems := by
    rw [hw]
    split
    · exact (State.mems_payloadDone ..).trans hmems
    · exact hmems
  refine ⟨?_, (congrArg (·.2.1) hall).trans hc.far.1, (congrArg (·.2.2) hall).trans hc.far.2, fun hgo => ?_, fun hlast hntf => ?_⟩
  · rw [show w.mem = u.mem from congrArg (·.1) hall]
    exact hc.mem
  · rw [hw, if_neg hgo]
    have hhead : ((u.progressed g q t o m n).equeue g q).head? = some t := by rw [hqueue, List.head?_cons]
    exact ⟨⟨by rw [hhead]; exact congrArg some ht.1, _, hslot, rfl⟩, hhead⟩
  · rw [hw, if_pos hlast]
    exact h.done_payloadDone ht hi hqueue hslot rfl hntf c v

end

end Sys2Proof.Machine
end

section
/-! SUPPORT. The copy engine moves a chunk of a CPY or FILL (R236 to R242). -/

namespace Sys2Proof.Machine

open Sys2Proof

/-! ### The write of a chunk (R238, R241) -/

theorem State.clearPresence_body (s : State) (e : Nat) (ls : List (Loc × Nat)) : ∃ ps, (s.clearPresence e ls).body = { s.body with pres := ps } := by
  unfold State.clearPresence
  extract_lets words was u w
  refine ⟨u.pres, ?_⟩
  split
  · exact State.body_modRegion ..
  · rfl

/-- u as a chunk has been written to a plain run, the presence bits of its words cleared where the command asks. -/
def State.chunkWritten (u : State) (w : Writer) (e : Nat) (ls : List (Loc × Nat)) (a : Nat) (bs : List Byte) (clear : Bool) : State :=
  if clear then (u.devWrite w a bs).clearPresence e ls else u.devWrite w a bs

theorem State.chunkWritten_keep {γ : Type} (f : State → γ) (hbody : ∀ s : State, f s.body = f s)
    (hpres : ∀ (s : State) ps, f { s with pres := ps } = f s) (u : State) (w : Writer) (e : Nat) (ls : List (Loc × Nat)) (a : Nat)
    (bs : List Byte) (clear : Bool) : f (u.chunkWritten w e ls a bs clear) = f (u.devWrite w a bs) := by
  unfold State.chunkWritten
  split
  · obtain ⟨ps, hps⟩ := (u.devWrite w a bs).clearPresence_body e ls
    rw [← hbody, hps, hpres, hbody]
  · rfl

/-- A write of a plain run carries its bytes, from whatever caches of translations. -/
theorem PlainRun.carried {s v : State} {e : Entry} {c p va g q : Nat} {x : Access} {ls : List (Loc × Nat)} {l : Loc} {bs : List Byte}
    (hp : PlainRun s ls l bs.length) (hn : bs.length ≠ 0) (hr : s.resolveRun c p va bs.length x = .ok ls)
    (hv : v.coreless = (s.turned g q).coreless) (w : Writer) (clear : Bool) :
    Carried s (v.chunkWritten w e.elem ls l.addr bs clear) g q e l.addr bs := by
  have hclear : v.Clear v.keyTag l.addr bs.length := by
    rw [State.turned_keeps (fun s => s.Clear s.keyTag l.addr bs.length) (fun _ => rfl) (fun _ _ _ => rfl) hv]
    exact hp.1
  obtain ⟨hlent, hfilled, -⟩ := id hclear
  refine .of_sansMove ?_ ?_ ?_
  · rw [State.chunkWritten_keep State.mem (fun _ => rfl) fun _ _ => rfl]
    have hstored := State.stored_devWrite hclear (hp.page hn hr) (Nat.pos_of_ne_zero hn) w
    rwa [State.turned_keeps State.mem (fun _ => rfl) (fun _ _ _ => rfl) hv] at hstored
  · rw [State.chunkWritten_keep State.sansMove (fun _ => rfl) fun _ _ => rfl,
      State.devWrite_keep hlent hfilled w _ _ State.sansMove (fun _ _ _ => rfl) fun _ => rfl, State.sansMove_of_coreless hv]
  · rw [State.chunkWritten_keep (fun s => (s.elem e.elem).slots) (fun _ => rfl) fun _ _ => rfl,
      State.elem_devWrite_keep hlent hfilled _ _ _ Elem.slots fun _ _ => rfl,
      State.turned_keeps (fun s => s.elem e.elem) (fun _ => rfl) (fun _ _ _ => rfl) hv]

/-! ### The chunk (R238) -/

theorem State.engAccess_ok {s : State} {g q c va n : Nat} {t : Entry} {a : Access} {ls : List (Loc × Nat)}
    (h : s.resolveRun c (s.partOf t.elem) va n a = .ok ls) (act : List (Loc × Nat) → State → State) :
    s.engAccess g q t c va n a act = act ls (s.fillRun c (s.partOf t.elem) va n) := by
  simp only [State.engAccess, h]

theorem State.resolveRun_turned (s : State) (g q c p va n : Nat) (a : Access) : (s.turned g q).resolveRun c p va n a = s.resolveRun c p va n a := by
  unfold State.resolveRun
  generalize n / 65536 + 2 = fuel
  induction fuel generalizing va n with
  | zero => rfl
  | succ fuel ih =>
    have hone : (s.turned g q).resolve c p va a = s.resolve c p va a := rfl
    simp only [State.resolveGo, hone, ih]

theorem State.readRun_setEngine (s : State) (g va : Nat) (x : Engine) (ls : List (Loc × Nat)) : (s.setEngine g x).readRun va ls = s.readRun va ls := by
  induction ls generalizing va with
  | nil => rfl
  | cons z ls ih => exact congrArg (s.readLoc va z.1 z.2 ++ ·) (ih _)

/-- The bytes of the next chunk. -/
def chunkSize (y : Slot) : Nat := min 65536 (countOf y - y.prog)

/-- The addresses that the next chunk goes to and comes from. -/
def chunkDst (y : Slot) : Nat := (copyDst y + y.prog) % 2 ^ 64
def chunkSrc (y : Slot) : Nat := (copySrc y + y.prog) % 2 ^ 64

/-- The write of the next chunk, once its bytes are known. -/
def State.writeChunk (s : State) (o : FmtE) (fill : Bool) (g q : Nat) (t : Entry) (y : Slot) (bs : State → List Byte) : State :=
  s.engAccess g q t (coreOf t.elem) (chunkDst y) (chunkSize y) .copyWrite fun ls s =>
    s.engFar g q t ls fun s => s.engBudget g q t ls fun s =>
      if !s.canSend (peerBytes ls) then s
      else
        let u := (s.spend (peerBytes ls)).writeRun { s.writer t.elem with hold := t.full != 2 } (chunkDst y) ls (bs s)
        let u := if fill && o.imm.toNat / 2 ^ 15 % 2 = 1 then u.clearPresence t.elem ls else u
        let u := u.progressed g q { t with full := 0 } o (chunkSize y) (y.prog + chunkSize y)
        if countOf y ≤ y.prog + chunkSize y then u.payloadDone g q { t with full := 0 } (ntfOf o) y.opc (countOf y) else u

/-- A copy reads its chunk before it writes it; a fill has its pattern. -/
theorem copyChunk_eq {t : Entry} {y : Slot} (hstage : t.stage ≠ 2) (hprog : y.prog < countOf y) (o : FmtE) (fill : Bool) (g q : Nat) (s : State) :
    copyChunk o fill g q t y s =
      if fill then s.writeChunk o true g q t y fun _ => patternBytes (copySrc y % 2 ^ 32) (chunkSize y)
      else s.engAccess g q t (coreOf t.elem) (chunkSrc y) (chunkSize y) .copyRead fun rs s =>
        s.writeChunk o false g q t y fun s => s.readRun (chunkSrc y) rs := by
  unfold copyChunk
  rw [if_neg hstage, if_neg (Nat.not_le.2 hprog)]
  cases fill <;> rfl

/-- A plain run in reach of its windows and within the budget is written, whatever translations have been kept. -/
theorem State.writeChunk_eq {s v : State} {g q : Nat} {e : Entry} {y : Slot} {ds : List (Loc × Nat)} {l : Loc} {bs : State → List Byte} {xs : List Byte}
    (hv : v.coreless = (s.turned g q).coreless) (hd : v.resolveRun (coreOf e.elem) (s.partOf e.elem) (chunkDst y) (chunkSize y) .copyWrite = .ok ds)
    (hp : PlainRun s ds l xs.length) (hfull : s.runFull (s.writer e.elem) ds = false)
    (hbs : ∀ u : State, u.coreless = (s.turned g q).coreless → bs u = xs) (o : FmtE) (fill : Bool) :
    ∃ (u : State) (w : Writer), u.coreless = (s.turned g q).coreless ∧
      v.writeChunk o fill g q e y bs =
        let x := (u.chunkWritten w e.elem ds l.addr xs (fill && o.imm.toNat / 2 ^ 15 % 2 = 1)).progressed g q { e with full := 0 } o (chunkSize y)
          (y.prog + chunkSize y)
        if countOf y ≤ y.prog + chunkSize y then x.payloadDone g q { e with full := 0 } (ntfOf o) y.opc (countOf y) else x := by
  obtain ⟨hfar, hpeer⟩ := hp.near
  have hpart : v.partOf e.elem = s.partOf e.elem := State.turned_keeps (State.partOf · e.elem) (fun _ => rfl) (fun _ _ _ => rfl) hv
  let u := v.fillRun (coreOf e.elem) (s.partOf e.elem) (chunkDst y) (chunkSize y)
  have hu : u.coreless = (s.turned g q).coreless := (State.coreless_fillRun ..).trans hv
  have hbudget : u.runFull (u.writer e.elem) ds = false :=
    (State.turned_keeps (fun s => s.runFull (s.writer e.elem) ds) (fun _ => rfl) (fun _ _ _ => rfl) hu).trans hfull
  refine ⟨u, { u.writer e.elem with hold := e.full != 2 }, hu, ?_⟩
  have hwrite (w : Writer) : u.writeRun w (chunkDst y) ds (bs u) = u.devWrite w l.addr xs := by rw [hbs u hu, hp.writeRun_eq]
  rw [State.writeChunk, State.engAccess_ok (hpart ▸ hd), hpart]
  show u.engFar g q e ds _ = _
  simp only [State.engFar, State.engBudget, hfar, hbudget, hpeer, State.canSend_nil, State.spend_nil, hwrite, Bool.false_and, Bool.not_true,
    Bool.false_eq_true, if_false]
  rfl

theorem Served.execCopyChunk_eq {s : State} {g q : Nat} {e : Entry} {y : Slot} (h : Served s g q e y) (hg : engineKindOf g = .copy) :
    exec (.copyChunk g q) s = .next (serveCopy g q e y (s.turned g q)) := by
  have hstep : exec (.copyChunk g q) s = execCopyChunk g q s := rfl
  rw [hstep, execCopyChunk, if_pos (by simp [hg]), h.serve_eq]

/-- What a chunk leaves: its bytes stand at their place, and the command goes on or is done. -/
structure Chunked (s s' : State) (g q : Nat) (e : Entry) (y : Slot) (o : FmtE) (a : Nat) (bs : List Byte) : Prop where
  mem : Stored s.mem s'.mem a bs
  hostMem : s'.hostMem = s.hostMem
  peerMem : s'.peerMem = s.peerMem
  goes : y.prog + chunkSize y < countOf y → Served.Goes s' g q e (y.prog + chunkSize y)
  done : countOf y ≤ y.prog + chunkSize y → o.ntf.toNat % 2 = 0 → Served.Done s s' g q e y (countOf y)

section
variable {s : State} {g q : Nat} {e : Entry} {y : Slot} (h : Served s g q e y) (hprog : y.prog < countOf y) {ds : List (Loc × Nat)} {l : Loc}
  (hd : s.resolveRun (coreOf e.elem) (s.partOf e.elem) (chunkDst y) (chunkSize y) .copyWrite = .ok ds) (hp : PlainRun s ds l (chunkSize y))
  (hfull : s.runFull (s.writer e.elem) ds = false)
include h hprog hd hp hfull

/-- A chunk whose destination is plain is written, whatever translations have been kept for its source. -/
theorem Served.chunked {v : State} {bs : State → List Byte} {xs : List Byte} (hv : v.coreless = (s.turned g q).coreless)
    (hdv : v.resolveRun (coreOf e.elem) (s.partOf e.elem) (chunkDst y) (chunkSize y) .copyWrite = .ok ds) (hlen : xs.length = chunkSize y)
    (hbs : ∀ u : State, u.coreless = (s.turned g q).coreless → bs u = xs) (hi : engineOf y.ins ≠ some .codec) (o : FmtE) (fill : Bool) :
    Chunked s (v.writeChunk o fill g q e y bs) g q e y o l.addr xs := by
  have hn : xs.length ≠ 0 := by
    rw [hlen, chunkSize]
    omega
  rw [← hlen] at hp hd
  obtain ⟨u, w, hu, heq⟩ := State.writeChunk_eq hv hdv hp hfull hbs o fill
  obtain ⟨hmem, hhost, hpeer, hgoes, hdone⟩ := (hp.carried hn hd hu w _).outcome h (t := { e with full := 0 }) ⟨rfl, rfl, rfl⟩ o _ _ hi _ _ _ heq
  exact ⟨hmem, hhost, hpeer, fun hlt => (hgoes (Nat.not_le.2 hlt)).1, hdone⟩

theorem execCopyChunk_fill (hg : engineKindOf g = .copy) {t : TU} {o : FmtE} (hi : y.ins = .fill t o) :
    ∃ s', exec (.copyChunk g q) s = .next s' ∧ Chunked s s' g q e y o l.addr (patternBytes (copySrc y % 2 ^ 32) (chunkSize y)) := by
  refine ⟨_, ?_, h.chunked hprog hd hp hfull (v := s.turned g q) rfl ((s.resolveRun_turned ..).trans hd) (by simp [patternBytes]) (fun _ _ => rfl)
    (by rw [hi]; exact nofun) o true⟩
  rw [h.execCopyChunk_eq hg, serveCopy, hi]
  dsimp only
  rw [copyChunk_eq h.free.2.2.2.1 hprog, if_pos rfl]

theorem execCopyChunk_cpy (hg : engineKindOf g = .copy) (hroom : (s.tlbOf (coreOf e.elem)).length ≤ 1000) {t : TU} {o : FmtE} (hi : y.ins = .cpy t o)
    {rs : List (Loc × Nat)} (hr : s.resolveRun (coreOf e.elem) (s.partOf e.elem) (chunkSrc y) (chunkSize y) .copyRead = .ok rs)
    (hlen : (s.readRun (chunkSrc y) rs).length = chunkSize y) :
    ∃ s', exec (.copyChunk g q) s = .next s' ∧ Chunked s s' g q e y o l.addr (s.readRun (chunkSrc y) rs) := by
  let v := (s.turned g q).fillRun (coreOf e.elem) (s.partOf e.elem) (chunkSrc y) (chunkSize y)
  have hsize : chunkSize y ≤ 65536 := Nat.min_le_left ..
  have hv : v.coreless = (s.turned g q).coreless := State.coreless_fillRun ..
  have hdv : v.resolveRun (coreOf e.elem) (s.partOf e.elem) (chunkDst y) (chunkSize y) .copyWrite = .ok ds := by
    refine State.resolveRun_fillRun ((s.resolveRun_turned ..).trans hd) _ ?_
    have htlb : ((s.turned g q).tlbOf (coreOf e.elem)).length ≤ 1000 := hroom
    omega
  have hread (u : State) (hu : u.coreless = (s.turned g q).coreless) : u.readRun (chunkSrc y) rs = s.readRun (chunkSrc y) rs :=
    State.turned_keeps (State.readRun · (chunkSrc y) rs) (fun s => s.readRun_coreless ..) (fun s g x => s.readRun_setEngine ..) hu
  refine ⟨_, ?_, h.chunked hprog hd hp hfull hv hdv hlen hread (by rw [hi]; exact nofun) o false⟩
  rw [h.execCopyChunk_eq hg, serveCopy, hi]
  dsimp only
  rw [copyChunk_eq h.free.2.2.2.1 hprog, if_neg Bool.false_ne_true, State.engAccess_ok ((s.resolveRun_turned ..).trans hr)]
  rfl

end

/-- Settles O25: the chunk's destination still translates when the source's leaves have been kept, so its bytes are written as one plain run. -/
theorem copyChunks : Obligations.CopyChunks := by
  intro s g q e y t o l hg h hroom
  extract_lets n m dst src c after
  intro ds hprog hd hp hfull
  have hafter {s' : State} {bs : List Byte} (hc : Chunked s s' g q e y o l.addr bs) : after s' bs := ⟨hc.mem, hc.hostMem, hc.peerMem, hc.goes, hc.done⟩
  constructor
  · intro rs hi hr hlen
    obtain ⟨s', hexec, hc⟩ := execCopyChunk_cpy h hprog hd hp hfull hg hroom hi hr hlen
    exact ⟨s', hexec, hafter hc⟩
  · intro hi
    obtain ⟨s', hexec, hc⟩ := execCopyChunk_fill h hprog hd hp hfull hg hi
    exact ⟨s', hexec, hafter hc⟩

end Sys2Proof.Machine
end

section
/-! SUPPORT. The row-transfer sequencer zeroes or copies a row (R193, R196, R244 to R248). -/

namespace Sys2Proof.Machine

open Sys2Proof

/-! ### Native rows of clear memory (R193, R196) -/

/-- A reader of clear rows finds the bytes of memory. -/
theorem State.rowRead_clear {s : State} {a n : Nat} (hc : s.Clear (fun _ => 0) a n) : s.rowRead a n = Memory.read s.mem a n := by
  obtain ⟨hlent, hfilled, htag⟩ := hc
  refine List.map_congr_left fun i hi => ?_
  have hi' := List.mem_range.1 hi
  have hover : s.overlay (a + i) = none := by
    unfold State.overlay
    rw [hlent]
    refine List.findSome?_eq_none_iff.2 fun x hx => ?_
    have hgranule : x.2.granuleOf (a + i) = none := by
      unfold Elem.granuleOf
      rw [hfilled x hx]
      rfl
    exact congrArg (Option.map _) hgranule
  have hplain : s.memAs 0 (a + i) = Memory.byte s.mem (a + i) := by
    unfold State.memAs
    split
    · rename_i t ht
      rw [if_pos (htag _ (Nat.le_add_right ..) (by omega) t ht)]
    · rfl
  rw [State.rowByte, State.byteAs, hover]
  exact hplain

/-- No end of a clear run of rows is under a key. -/
theorem State.foreign_row {s : State} {a n : Nat} (hc : s.Clear (fun _ => 0) a n) (hn : 0 < n) :
    ∀ l ∈ [a / 128, (a + n - 1) / 128], s.foreign 0 l = false := by
  obtain ⟨-, -, htag⟩ := hc
  have hline : ∀ b, a ≤ b → b < a + n → s.foreign 0 (b / 128) = false := fun b ha hb => by
    unfold State.foreign
    split
    · rename_i t ht
      simp [htag b ha hb t ht]
    · rfl
  intro l hl
  rcases List.mem_pair.1 hl with rfl | rfl
  · exact hline a le_rfl (by omega)
  · exact hline _ (by omega) (by omega)

theorem State.mem_put_row {s : State} {a : Nat} {bs : List Byte} (h : ∀ l ∈ [a / 128, (a + bs.length - 1) / 128], s.foreign 0 l = false) :
    (s.put true a bs).mem = Memory.write s.mem a bs := by
  have hmixed : (([a / 128, (a + bs.length - 1) / 128].filter fun l => !(a ≤ 128 * l && 128 * l + 128 ≤ a + bs.length)).filter (s.foreign 0)) = [] :=
    List.filter_eq_nil_iff.2 fun l hl => by simp [h l (List.mem_filter.1 hl).1]
  unfold State.put
  dsimp only
  rw [if_pos rfl, hmixed, ite_self]
  rfl

theorem State.rowWrite_one (s : State) (w : Writer) (a : Nat) (bs : List Byte) :
    s.rowWrite w [(a, bs.length)] bs = (s.homePut { w with hold := false } true a bs).testWatches a bs.length := by
  simp [State.rowWrite]

section
variable {s : State} {a : Nat} {bs : List Byte} (hc : s.Clear (fun _ => 0) a bs.length) (w : Writer)
include hc

/-- A write of a clear row stores its bytes. -/
theorem State.stored_rowWrite (hn : 0 < bs.length) : Stored s.mem (s.rowWrite w [(a, bs.length)] bs).mem a bs := by
  rw [State.rowWrite_one, State.mem_testWatches, State.mem_homePut hc.1 hc.2.1, State.mem_put_row (State.foreign_row hc hn)]
  exact stored_write ..

theorem State.rowWrite_keep {γ : Type} (f : State → γ) (hset : ∀ (s : State) (e : Nat) (x : Elem), f (s.setElem e x) = f s)
    (hhome : ∀ s : State, f s.sansHome = f s) : f (s.rowWrite w [(a, bs.length)] bs) = f s := by
  rw [State.rowWrite_one, State.testWatches_keep f hset, ← hhome, State.sansHome_homePut hc.1 hc.2.1, hhome]

theorem State.elem_rowWrite_keep {γ : Type} (f : Elem → γ) (hf : ∀ (x : Elem) ws, f { x with watch := ws } = f x) (e : Nat) :
    f ((s.rowWrite w [(a, bs.length)] bs).elem e) = f (s.elem e) := by
  have helems : (s.homePut { w with hold := false } true a bs).sansHome.elems = s.sansHome.elems := by rw [State.sansHome_homePut hc.1 hc.2.1]
  rw [State.rowWrite_one, State.elem_testWatches_keep f hf, State.elem_congr (s := s) (t := s.homePut { w with hold := false } true a bs) helems]

end

/-! ### The bytes of a row (R245, R246) -/

/-- The lines of the source of a row become clean. -/
def State.sourceCleaned (s : State) (m : Option Loc) : State :=
  match m with | some m => { s with l2 := cleanRow s.l2 m.addr } | none => s

/-- The bytes of a row: its source's, or zeros. -/
def State.rowBytes (s : State) (m : Option Loc) : List Byte := match m with | some m => s.rowRead m.addr 1024 | none => List.replicate 1024 0

/-- A row that does not stand at its own place is written from its source, or zeroed; of the rest only L2 lines change. -/
theorem State.rowCopy_keep {γ : Type} (f : State → γ) (hf : ∀ (s : State) ls, f { s with l2 := ls } = f s) {s : State} {l : Loc} {m : Option Loc}
    (hne : m.map Loc.addr ≠ some l.addr) (w : Writer) {bs : List Byte} (hlen : bs.length = 1024)
    (hbs : s.rowBytes m = bs) :
    f (s.rowCopy w l m) = f ((s.sourceCleaned m).rowWrite w [(l.addr, bs.length)] bs) := by
  unfold State.rowCopy
  rw [if_neg hne, hlen]
  subst hbs
  cases m with
  | none => exact hf ..
  | some m => exact hf ..

/-- Nothing but L2 lines changes where the lines of a source become clean. -/
theorem State.sourceCleaned_keep {γ : Type} (f : State → γ) (hf : ∀ (s : State) ls, f { s with l2 := ls } = f s) (s : State) (m : Option Loc) :
    f (s.sourceCleaned m) = f s := by
  cases m with
  | none => rfl
  | some m => exact hf s _

/-- A row that is written to a clear place is carried there. -/
theorem State.carried_rowCopy {s v : State} {e : Entry} {g q : Nat} {l : Loc} {m : Option Loc} {bs : List Byte} (hv : v.coreless = (s.turned g q).coreless)
    (hne : m.map Loc.addr ≠ some l.addr) (hlen : bs.length = 1024) (hc : s.Clear (fun _ => 0) l.addr 1024)
    (hbs : v.rowBytes m = bs) (w : Writer) :
    Carried s (v.rowCopy w l m) g q e l.addr bs := by
  have keeps {γ : Type} (f : State → γ) (hf : ∀ (s : State) ls, f { s with l2 := ls } = f s) (hcore : ∀ s : State, f s.coreless = f s)
      (hset : ∀ (s : State) (g : Nat) (x : Engine), f (s.setEngine g x) = f s) : f (v.sourceCleaned m) = f s :=
    (State.sourceCleaned_keep f hf v m).trans (State.turned_keeps f hcore hset hv)
  have hclear : (v.sourceCleaned m).Clear (fun _ => 0) l.addr bs.length := by
    rw [hlen, keeps (State.Clear · (fun _ => 0) l.addr 1024) (fun _ _ => rfl) (fun _ => rfl) fun _ _ _ => rfl]
    exact hc
  refine .of_sansMove ?_ ?_ ?_
  · rw [State.rowCopy_keep State.mem (fun _ _ => rfl) hne w hlen hbs]
    have hstored := State.stored_rowWrite hclear w (by omega)
    rwa [keeps State.mem (fun _ _ => rfl) (fun _ => rfl) fun _ _ _ => rfl] at hstored
  · rw [State.rowCopy_keep State.sansMove (fun _ _ => rfl) hne w hlen hbs,
      State.rowWrite_keep hclear w State.sansMove (fun _ _ _ => rfl) fun _ => rfl, State.sourceCleaned_keep State.sansMove fun _ _ => rfl,
      State.sansMove_of_coreless hv]
  · rw [State.rowCopy_keep (fun s => (s.elem e.elem).slots) (fun _ _ => rfl) hne w hlen hbs,
      State.elem_rowWrite_keep hclear w Elem.slots fun _ _ => rfl,
      keeps (State.elem · e.elem) (fun _ _ => rfl) (fun _ => rfl) fun _ _ _ => rfl]

/-! ### The next row (R244, R245) -/

theorem State.groupPlan_turned (s : State) (g q c p stack dst src : Nat) (copy : Bool) (i n : Nat) :
    (s.turned g q).groupPlan c p stack dst src copy i n = s.groupPlan c p stack dst src copy i n := by
  induction n generalizing i with
  | zero => rfl
  | succ n ih =>
    have hrow : (s.turned g q).rowLoc = s.rowLoc := rfl
    simp only [State.groupPlan, hrow, ih]

/-- The rows of the group of a command that are still to be moved: those it has kept, or those that translate now (R244). -/
def State.rowGroup (s : State) (g : Nat) (e : Entry) (y : Slot) (copy : Bool) : Except (Option (Nat × Nat)) (List RowPlan) :=
  if e.plan = [] then
    s.groupPlan (coreOf e.elem) (s.partOf e.elem) (g % 64) (copyDst y) (copySrc y) copy (y.prog / 1024)
      (min (16 - y.prog / 1024 % 16) (countOf y - y.prog / 1024))
  else .ok e.plan

/-- s as the engine has its turn, with the leaves of a row kept whose group translates now (R244). -/
def State.rowFilled (s : State) (g q : Nat) (e : Entry) (y : Slot) : State :=
  if e.plan.isEmpty then (s.turned g q).fillRun (coreOf e.elem) (s.partOf e.elem) (copyDst y + 1024 * (y.prog / 1024)) 1024 else s.turned g q

theorem State.coreless_rowFilled (s : State) (g q : Nat) (e : Entry) (y : Slot) : (s.rowFilled g q e y).coreless = (s.turned g q).coreless := by
  unfold State.rowFilled
  split
  · exact State.coreless_fillRun ..
  · rfl

/-- What the next row does, once its group has been looked up (R244). -/
theorem rowTransfer1_eq {s : State} {g q : Nat} {e : Entry} {y : Slot} (hstage : e.stage ≠ 2) (hprog : y.prog / 1024 < countOf y)
    (o : FmtE) (copy : Bool) :
    rowTransfer1 o copy g q e y (s.turned g q) =
      match s.rowGroup g e y copy with
      | .error (some (k, va)) => (s.turned g q).failEntry g q e k va
      | .error none => s.turned g q
      | .ok [] => s.turned g q
      | .ok (r :: rest) =>
        match r.dst with
        | none => s.turned g q
        | some l =>
          let v := s.rowFilled g q e y
          let x := (v.rowCopy (v.writer e.elem) l r.src).progressed g q { e with plan := rest } o 1024 (y.prog + 1024)
          if countOf y ≤ y.prog / 1024 + 1 then x.payloadDone g q { e with plan := rest } (ntfOf o) y.opc (countOf y) else x := by
  have hgroup : s.rowGroup g e y copy = if e.plan.isEmpty then
      (s.turned g q).groupPlan (coreOf e.elem) ((s.turned g q).partOf e.elem) (g % 64) (copyDst y) (copySrc y) copy (y.prog / 1024)
        (min (16 - y.prog / 1024 % 16) (countOf y - y.prog / 1024)) else .ok e.plan := by
    rw [State.rowGroup, State.groupPlan_turned]
    exact if_congr List.isEmpty_iff.symm rfl rfl
  rw [hgroup]
  unfold rowTransfer1
  rw [if_neg hstage, if_neg (Nat.not_le.2 hprog)]
  rfl

/-- What a row leaves: its bytes stand at their place, and the command goes on with the rest of its group or is done. -/
structure RowMoved (s s' : State) (g q : Nat) (e : Entry) (y : Slot) (o : FmtE) (a : Nat) (rest : List RowPlan) (bs : List Byte) : Prop where
  mem : Stored s.mem s'.mem a bs
  hostMem : s'.hostMem = s.hostMem
  peerMem : s'.peerMem = s.peerMem
  goes : y.prog / 1024 + 1 < countOf y → Served.Goes s' g q e (y.prog + 1024) ∧ (s'.equeue g q).head?.map Entry.plan = some rest
  done : countOf y ≤ y.prog / 1024 + 1 → o.ntf.toNat % 2 = 0 → Served.Done s s' g q e y (countOf y)

section
variable {s : State} {g q : Nat} {e : Entry} {y : Slot} (h : Served s g q e y) (hprog : y.prog / 1024 < countOf y) {copy : Bool} (o : FmtE)
include h hprog

/-- The first row of a good group is moved. -/
theorem Served.rowMoved (hi : engineOf y.ins ≠ some .codec) {r : RowPlan} {rest : List RowPlan} {l : Loc} {bs : List Byte}
    (hgroup : s.rowGroup g e y copy = .ok (r :: rest)) (hl : r.dst = some l) (hne : r.src.map Loc.addr ≠ some l.addr)
    (hc : s.Clear (fun _ => 0) l.addr 1024) (hlen : bs.length = 1024) (hbs : s.rowBytes r.src = bs) :
    RowMoved s (rowTransfer1 o copy g q e y (s.turned g q)) g q e y o l.addr rest bs := by
  have heq := rowTransfer1_eq (s := s) (g := g) (q := q) h.free.2.2.2.1 hprog o copy
  rw [hgroup] at heq
  dsimp only at heq
  rw [hl] at heq
  dsimp only at heq
  have hv := s.coreless_rowFilled g q e y
  have hbytes : (s.rowFilled g q e y).rowBytes r.src = bs :=
    (State.turned_keeps (State.rowBytes · r.src) (fun _ => rfl) (fun _ _ _ => rfl) hv).trans hbs
  have hcarried := State.carried_rowCopy (e := e) hv hne hlen hc hbytes ((s.rowFilled g q e y).writer e.elem)
  obtain ⟨hmem, hhost, hpeer, hgoes, hdone⟩ := hcarried.outcome h (t := { e with plan := rest }) ⟨rfl, rfl, rfl⟩ o _ _ hi _ _ _ heq
  refine ⟨hmem, hhost, hpeer, fun hlt => ?_, hdone⟩
  obtain ⟨hgo, hhead⟩ := hgoes (Nat.not_le.2 hlt)
  exact ⟨hgo, by rw [hhead, Option.map_some]⟩

/-- A group with a bad row moves none of them, and its command is held for the fault (R248). -/
theorem Served.rowTransfer_fails {k va : Nat} (hgroup : s.rowGroup g e y copy = .error (some (k, va))) :
    rowTransfer1 o copy g q e y (s.turned g q) = (s.turned g q).failEntry g q e k va := by
  rw [rowTransfer1_eq h.free.2.2.2.1 hprog, hgroup]

end

/-- The fault of a command is pending on its entry. -/
theorem State.failEntry_pending {s : State} {e : Entry} {y : Slot} (hy : s.slot e.elem e.slot = some y) (g q k va : Nat) :
    (s.failEntry g q e k va).mem = s.mem ∧
      ∃ r ∈ (s.failEntry g q e k va).pend, r.at_ = .entry g q e.id ∧ r.frec.code = k ∧ r.frec.src = 2 := by
  have hsrc (u : State) (f : FaultSrc) : (u.faultRec f).src = f.src := by
    unfold State.faultRec
    dsimp only
    split <;> rfl
  simp only [State.failEntry, hy]
  refine ⟨rfl, _, List.mem_append_right _ (List.mem_singleton_self _), rfl, ?_, hsrc ..⟩
  exact (State.faultRec_src ..).1

/-! ### The commands (R244, R245, R248) -/

section
variable {s : State} {g q : Nat} {e : Entry} {y : Slot} (h : Served s g q e y) (hg : engineKindOf g = .row) {t : TU} {o : FmtE}
include h hg

theorem Served.execRowTransfer_eq : exec (.rowTransfer g q) s = .next (serveRow g q e y (s.turned g q)) := by
  have hstep : exec (.rowTransfer g q) s = execRowTransfer g q s := rfl
  rw [hstep, execRowTransfer, if_pos (by simp [hg]), h.serve_eq]

theorem Served.execRowTransfer_rzero (hi : y.ins = .rzero t o) :
    exec (.rowTransfer g q) s = .next (rowTransfer1 o false g q e y (s.turned g q)) := by
  rw [h.execRowTransfer_eq hg, serveRow, hi]

theorem Served.execRowTransfer_rcopy (hi : y.ins = .rcopy t o) :
    exec (.rowTransfer g q) s = .next (rowTransfer1 o true g q e y (s.turned g q)) := by
  rw [h.execRowTransfer_eq hg, serveRow, hi]

end

/-- Settles O26: a row of a good group is written whole to its kept place, whatever translations the group has left, and a group with a bad row
raises its fault instead. -/
theorem rowTransfers : Obligations.RowTransfers := by
  intro s g q e y t o hg h _
  extract_lets n i group after
  intro hprog
  have hafter {s' : State} {l : Loc} {rest : List RowPlan} {bs : List Byte} (hm : RowMoved s s' g q e y o l.addr rest bs) : after s' l rest bs :=
    ⟨hm.mem, hm.hostMem, hm.peerMem, hm.goes, hm.done⟩
  refine ⟨fun r rest l hi hgroup hl hsrc hc => ?zero, fun r rest l m hi hgroup hl hsrc hne hc hm => ?copy, fun va hi hgroup => ?fault⟩
  case zero =>
    refine ⟨_, h.execRowTransfer_rzero hg hi, hafter (h.rowMoved hprog o (by rw [hi]; exact nofun) hgroup hl ?_ hc (List.length_replicate ..) ?_)⟩
    · rw [hsrc]
      exact nofun
    · rw [hsrc]
      rfl
  case copy =>
    refine ⟨_, h.execRowTransfer_rcopy hg hi, hafter (h.rowMoved hprog o (by rw [hi]; exact nofun) hgroup hl ?_ hc ?_ ?_)⟩
    · rw [hsrc]
      exact fun heq => hne (Option.some.inj heq)
    · simp [Memory.read]
    · rw [hsrc]
      exact State.rowRead_clear hm
  case fault =>
    have hexec := h.execRowTransfer_rzero hg hi
    rw [h.rowTransfer_fails hprog o hgroup] at hexec
    exact ⟨_, hexec, State.failEntry_pending (s := s.turned g q) h.slot ..⟩

end Sys2Proof.Machine
end

section
/-! SUPPORT. Commands that no unit takes at once stand in their slots, and the places of their tokens are kept from their issue (R254, R258,
R298, R470). -/

namespace Sys2Proof.Machine

open Sys2Proof

/-! ### A command issues (R29, R353) -/

/-- What an ordinary firing's issue leaves, its step leaves. -/
theorem exec_of_ordinary {s : State} {t : TU} {f : Firing} (h : Ordinary s t f) {i : Instr} {act : Firing → State → State}
    (hexec : exec i s = .next (s.fire i t act)) {P : State → Prop} (hP : P (act f s)) : ∃ s', exec i s = .next s' ∧ P s' :=
  ⟨_, hexec, by rwa [State.fire_ordinary h]⟩

section
variable {s : State} {t : TU} {f : Firing} {k : Nat} (h : s.firing t = some f) (hk : freeSlot f.x = some k) (hp : Prompt s false)
  {i : Instr} {a b c : VW} {bad : Slot → Option (Nat × Nat)}
  (hb : ∀ y : Slot, y.opa = a → y.opb = b → y.opc = c → bad y = none) (perf : Nat → Nat → State → State)
include h hk hp hb

/-- A sound command that no unit takes at once takes its slot. -/
theorem cmdIssue_takes : Takes s (cmdIssue i a b c bad perf f s) f i k a b c 0 := by
  have ht := takes_of h hk i a b c flNone 0
  obtain ⟨y, hy, -, -, -, -, -, hopa, hopb, hopc, -⟩ := ht.slot
  simp only [cmdIssue, takeSlot_snd hk]
  rw [State.promptly_waits hy (hb y hopa hopb hopc) hp]
  exact ht

/-- It does so from the state in which the places of its tokens are kept. -/
theorem cmdIssue_keepPlaces_takes (label n : Nat) :
    Takes (keepPlaces label n f s) (cmdIssue i a b c bad perf f (keepPlaces label n f s)) f i k a b c 0 := by
  obtain ⟨fl, hfl⟩ := keepPlaces_eq label n f s
  rw [hfl]
  exact cmdIssue_takes (s := { s with flight := fl }) h hk hp hb perf

end

/-! ### Places and faults at issue (R297, R470) -/

/-- The places that a firing keeps are those of the slot it takes (R258, R470). -/
theorem keepPlaces_of_freeSlot {f : Firing} {k : Nat} (hk : freeSlot f.x = some k) (label n : Nat) (s : State) :
    keepPlaces label n f s =
      match f.x.route label, s.regOf f.e with
      | some rt, some r => { s with flight := s.flight ++ List.replicate n (Flight.place f.e rt.cls (routeDest r rt) (f.e, k, f.seq)) }
      | _, _ => s := by
  unfold keepPlaces
  rw [hk]
  cases f.x.route label with
  | none => rfl
  | some rt => cases s.regOf f.e <;> rfl

/-- An MXACC of rows within the bank of a south edge is sound. -/
theorem mxaccBad_eq_none {y : Slot} {x : Elem} {first rows : Src} {base : Nat} (ha : y.opa = word512 (wordOf x first))
    (hb : y.opb = word512 (wordOf x rows)) (hc : y.opc = word512 base) (hn : wordOf x rows ≠ 0)
    (hfit : base + 64 * (wordOf x first + wordOf x rows) ≤ 65536) : mxaccBad y = none := by
  have hbase : (word512 base).toNat = base := word512_toNat (by omega)
  simp only [mxaccBad, ha, hb, hc, word512_wordOf, hbase, Nat.mod_eq_of_lt (wordOf_lt x _)]
  simp [hn, hfit]

/-- An ISAMP of one to sixteen cells that exist is sound. -/
theorem isampBad_eq_none {y : Slot} {a b : VW} (ha : y.opa = a) (hb : y.opb = b) (h1 : 1 ≤ arg b) (h16 : arg b ≤ 16)
    (hcells : cellsBad (arg a) (arg b) = false) : isampBad y = none := by
  rw [isampBad, ha, hb, hcells, if_neg]
  simp only [Bool.or_false, Bool.or_eq_true, decide_eq_true_eq]
  omega

theorem cellsBad_eq_false {first n : Nat} (h : first + n ≤ 512) : cellsBad first n = false := decide_eq_false (by omega)

/-! ### The commands (R254, R258, R298, R470) -/

section
variable {s : State} {t : TU} {o : FmtE} {f : Firing} {k : Nat} (h : Ordinary s t f) (hk : freeSlot f.x = some k) (hp : Prompt s false)
include h hk hp

/-- An MXACC captures the base of its element's accumulators beside its rows, whose places are kept. -/
theorem exec_mxacc_takes {base : Nat} (hbase : f.x.accb = some base) (hn : wordOf f.x o.b ≠ 0)
    (hfit : base + 64 * (wordOf f.x o.a + wordOf f.x o.b) ≤ 65536) :
    ∃ s', exec (.mxacc t o) s = .next s' ∧ Takes (keepPlaces (pimLabel o) (wordOf f.x o.b) f s) s' f (.mxacc t o) k (word512 (wordOf f.x o.a))
      (word512 (wordOf f.x o.b)) (word512 base) 0 := by
  have haccb : accbOf f.x = base := by rw [accbOf, hbase, Option.getD_some]
  have hok : (wordOf f.x o.b != 0 && decide (base + 64 * (wordOf f.x o.a + wordOf f.x o.b) ≤ 65536)) = true := by
    simp [hn, hfit]
  refine exec_of_ordinary h rfl ?_
  simp only [haccb, hok, if_true]
  exact cmdIssue_keepPlaces_takes h.1 hk hp (fun _ ha hb hc => mxaccBad_eq_none ha hb hc hn hfit) (performMxacc o) _ _

/-- An ISAMP of cells that exist keeps the place of its token. -/
theorem exec_isamp_takes (h1 : 1 ≤ arg (s.arg32 f o.b)) (h16 : arg (s.arg32 f o.b) ≤ 16) (hfit : arg (s.arg32 f o.a) + arg (s.arg32 f o.b) ≤ 512) :
    ∃ s', exec (.isamp t o) s = .next s' ∧
      Takes (keepPlaces (pimLabel o) 1 f s) s' f (.isamp t o) k (s.arg32 f o.a) (s.arg32 f o.b) 0 0 := by
  have hcells := cellsBad_eq_false hfit
  refine exec_of_ordinary h rfl ?_
  simp only [h1, h16, hcells, decide_true, Bool.not_false, Bool.and_self, if_true]
  exact cmdIssue_keepPlaces_takes h.1 hk hp (fun _ ha hb _ => isampBad_eq_none ha hb h1 h16 hcells) noPerf _ _

end

/-- Settles O15: every one of the commands issues through the shared action of a slot, from the state itself or from the one in which the places
of its tokens have been kept. -/
theorem placeKeepingIssue : Obligations.PlaceKeepingIssue := by
  intro s t o f k h hk hp
  extract_lets v kept
  have hkept (n : Nat) : kept n s = keepPlaces (pimLabel o) n f s := (keepPlaces_of_freeSlot hk ..).symm
  simp only [hkept]
  have takes {i : Instr} (mac : Bool) : Takes s (macIssue i o mac f s) f i k (word512 (pairOf f.x o.a)) v (word512 (wordOf f.x o.c)) 0 :=
    cmdIssue_takes h.1 hk hp (fun _ _ _ _ => rfl) (performMac o mac)
  refine ⟨?mac, ?pimrd, fun _ hbase hn hfit => exec_mxacc_takes h hk hp hbase hn hfit, fun h1 h16 hfit => exec_isamp_takes h hk hp h1 h16 hfit⟩
  case mac =>
    simp only [List.forall_mem_cons, List.not_mem_nil, false_implies, implies_true, and_true]
    exact ⟨exec_of_ordinary h rfl (takes false), exec_of_ordinary h rfl (takes false), exec_of_ordinary h rfl (takes false),
      exec_of_ordinary h rfl (takes true)⟩
  case pimrd =>
    exact exec_of_ordinary h (act := fun f s => macIssue (.pimrd t o) o false f (keepPlaces (pimLabel o) 16 f s)) rfl
      (cmdIssue_keepPlaces_takes h.1 hk hp (fun _ _ _ _ => rfl) (performMac o false) _ _)

end Sys2Proof.Machine
end

section
/-! SUPPORT. The rows of indirect streams: GATH reads an index or a row, SCAT takes a row on or writes it (R263 to R269). -/

namespace Sys2Proof.Machine

open Sys2Proof

/-! ### A turn of an indirect command (R263, R265) -/

/-- A state without its cores, the caches of its base dies and its engines. -/
def State.unserved (s : State) : State := { s.coreless with engines := [] }

/-- u is a state of command e's turn in s: memory and elements stand, the entry of e heads its queue as t, and port k of its core is p. -/
structure Turning (s u : State) (g q : Nat) (e t : Entry) (k : Nat) (p : Port) : Prop where
  same : u.unserved = s.unserved
  port : u.port (coreOf e.elem) k = some p
  id : t.id = e.id
  queue : u.equeue g q = t :: (s.equeue g q).tail

/-- The bytes of a run are those of memory, the caches of translations and the queues aside. -/
theorem State.readRun_unserved (s : State) (va : Nat) (ls : List (Loc × Nat)) : s.unserved.readRun va ls = s.readRun va ls := by
  induction ls generalizing va with
  | nil => rfl
  | cons x ls ih => exact congrArg (s.readLoc va x.1 x.2 ++ ·) (ih _)

/-- A base die translates through its own cache: cores and engines have no part in it (R265). -/
theorem State.resolveRun_baseDie {s u : State} (hu : u.unserved = s.unserved) (htlb : u.baseTlb = s.baseTlb) (b w va n : Nat) (a : Access) :
    u.resolveRun (256 + b) w va n a = s.resolveRun (256 + b) w va n a := by
  have hcache (x : State) : ({ x.unserved with baseTlb := x.baseTlb } : State).tlbOf (256 + b) = x.tlbOf (256 + b) := by
    simp [State.tlbOf]
  have hresolve (x : State) (va : Nat) :
      ({ x.unserved with baseTlb := x.baseTlb } : State).resolve (256 + b) w va a = x.resolve (256 + b) w va a := by
    simp only [State.resolve, State.xlat, hcache]
    rfl
  have hone (va : Nat) : u.resolve (256 + b) w va a = s.resolve (256 + b) w va a := by
    rw [← hresolve u, hu, htlb, hresolve]
  unfold State.resolveRun
  generalize n / 65536 + 2 = fuel
  induction fuel generalizing va n with
  | zero => rfl
  | succ fuel ih => simp only [State.resolveGo, hone, ih]

section
variable {s u : State} {g q : Nat} {e t : Entry} {y : Slot} {k : Nat} {p : Port}

/-- The payload of a command that is served is still to be performed. -/
theorem Served.unperformed (h : Served s g q e y) : e.stage ≠ 2 := by
  obtain ⟨-, -, -, hstage, -⟩ := h.free
  exact hstage

theorem Served.slot_lt (h : Served s g q e y) : e.slot < 8 := by
  obtain ⟨-, -, -, -, -, hslot⟩ := h.free
  exact hslot

/-- The turn of a command begins with its port as it is. -/
theorem Served.turning (h : Served s g q e y) (hp : s.port (coreOf e.elem) k = some p) :
    Turning s ((s.turned g q).setPort (coreOf e.elem) k p) g q e e k p where
  same := rfl
  port := State.port_setPort_self _ _ _ (State.port_lt hp)
  id := rfl
  queue := by
    obtain ⟨ts, hqueue, -⟩ := h.head
    rw [hqueue, List.tail_cons, ← hqueue]
    exact s.equeue_turned g q q

variable (hu : Turning s u g q e t k p)
include hu

/-- What does not depend on cores, translation caches and engines stands. -/
theorem Turning.keeps {γ : Type} (f : State → γ) (hf : ∀ s : State, f s.unserved = f s) : f u = f s :=
  (hf u).symm.trans ((congrArg f hu.same).trans (hf s))

theorem Turning.setPort (p' : Port) : Turning s (u.setPort (coreOf e.elem) k p') g q e t k p' where
  same := hu.same
  port := State.port_setPort_self _ _ _ (State.port_lt hu.port)
  id := hu.id
  queue := hu.queue

theorem Turning.fillRun (c w va n : Nat) : Turning s (u.fillRun c w va n) g q e t k p where
  same := (State.coreless_keeps State.unserved (fun _ => rfl) (u.coreless_fillRun c w va n)).trans hu.same
  port := by rw [State.port_fillRun, hu.port]
  id := hu.id
  queue := (State.coreless_keeps (State.equeue · g q) (fun _ => rfl) (u.coreless_fillRun c w va n)).trans hu.queue

/-- The entry of the command is replaced at the head of its queue, again and again in a turn. -/
theorem Turning.setEntry (h : Served s g q e y) {z : Entry} (hz : z.id = e.id) : Turning s (u.setEntry g q z) g q e z k p where
  same := hu.same
  port := hu.port
  id := hz
  queue := by
    obtain ⟨ts, hqueue, hids⟩ := h.head
    rw [State.setEntry, State.equeue_setEqueue_self _ _ _ h.lt, hu.queue, hqueue, List.map_cons, if_pos (hu.id.trans hz.symm), List.tail_cons]
    refine congrArg (z :: ·) ((List.map_congr_left fun x hx => if_neg ?_).trans (List.map_id _))
    rw [hz]
    exact hids x hx

/-- What a turn leaves that writes nothing. -/
theorem Turning.outcome : u.mem = s.mem ∧ u.port (coreOf e.elem) k = some p ∧ (u.equeue g q).head? = some t :=
  ⟨hu.keeps State.mem fun _ => rfl, hu.port, by rw [hu.queue, List.head?_cons]⟩

variable (htlb : u.baseTlb = s.baseTlb)
include htlb

/-- An access of the command that translates acts, from the state that keeps its leaves. -/
theorem Turning.engAccess {va n : Nat} {a : Access} {ls : List (Loc × Nat)} (hr : s.resolveRun (256 + g % 64) (s.partOf e.elem) va n a = .ok ls)
    (act : List (Loc × Nat) → State → State) :
    u.engAccess g q e (256 + g % 64) va n a act = act ls (u.fillRun (256 + g % 64) (s.partOf e.elem) va n) := by
  have hpart : u.partOf e.elem = s.partOf e.elem := hu.keeps (State.partOf · e.elem) fun _ => rfl
  rw [State.engAccess_ok (by rw [hpart, State.resolveRun_baseDie hu.same htlb, hr]), hpart]

/-- The row that the index of a token names, of an index that translates to the command's own die (R265). -/
theorem Turning.indexRow {j : Nat} {xs : List (Loc × Nat)}
    (hx : s.resolveRun (256 + g % 64) (s.partOf e.elem) ((copySrc y + 4 * j) % 2 ^ 64) 4 .gathRead = .ok xs)
    (hdie : (xs.all fun x => x.1.stack / 3 == g % 64 / 3) = true) (o : FmtE) (act : Nat → State → State) :
    u.indexRow g q e y o j act =
      act (rowAddr o y (natLE (s.readRun ((copySrc y + 4 * j) % 2 ^ 64) xs)))
        (u.fillRun (256 + g % 64) (s.partOf e.elem) ((copySrc y + 4 * j) % 2 ^ 64) 4) := by
  have hread := (hu.fillRun (256 + g % 64) (s.partOf e.elem) ((copySrc y + 4 * j) % 2 ^ 64) 4).keeps
    (State.readRun · ((copySrc y + 4 * j) % 2 ^ 64) xs) fun s => s.readRun_unserved ..
  have hdie' : (xs.any fun x => x.1.stack / 3 != g % 64 / 3) = false := by
    rw [← Bool.not_eq_true', List.not_any_eq_all_not]
    simpa using hdie
  unfold State.indexRow
  dsimp only
  rw [hu.engAccess htlb hx, hdie', if_neg Bool.false_ne_true, hread]

end

/-! ### GATH_ROW (R266, R268) -/

theorem Served.headIns {s : State} {g q : Nat} {e : Entry} {y : Slot} (h : Served s g q e y) : s.headIns g q = some y.ins := by
  obtain ⟨ts, hqueue, -⟩ := h.head
  simp only [State.headIns, hqueue, h.slot, Option.map_some]

theorem Served.exec_gathRow {s : State} {g q : Nat} {e : Entry} {y : Slot} (h : Served s g q e y) {t : TU} {o : FmtE} (hi : y.ins = .gath t o) :
    exec (.gathRow g q) s = .next (gathRow1 o g q e y (s.turned g q)) := by
  have hstep : exec (.gathRow g q) s = execGathRow g q s := rfl
  simp only [hstep, execGathRow, h.headIns, hi, h.serve_eq]

/-- Tokens of a GATH that have not been read yet. -/
def gathTodo (e : Entry) (p : Port) (n : Nat) : List Nat :=
  ((List.range (n - p.cursor)).map (p.cursor + ·)).filter fun j => ((e.row j).bind RowPlan.tok).isNone

/-- The plan of a GATH that has read the row of token j. -/
def gathRead (e : Entry) (j : Nat) (tok : Token) : List RowPlan := e.plan.map fun x => if x.j = j then { x with tok := some tok } else x

section
variable {s : State} {g q : Nat} {e : Entry} {y : Slot} {p : Port} {o : FmtE} (h : Served s g q e y)
  (hp : s.port (coreOf e.elem) (o.imm.toNat % 8) = some p) (hcmd : p.cmd = some (e.elem, e.slot))
include h hp hcmd

/-- What a GATH does for the token it has begun, or for the only one it can choose. -/
theorem gathRow1_eq (hstage : y.stage ≠ 2) (hcur : p.cursor < countOf y) {j : Nat}
    (hj : e.part = j + 1 ∨ (e.part = 0 ∧ gathTodo e p (countOf y) = [j])) :
    gathRow1 o g q e y (s.turned g q) =
      let u := ((s.turned g q).setPort (coreOf e.elem) (o.imm.toNat % 8) p).setEntry g q { e with part := j + 1 }
      match e.row j with
      | none => u.indexRow g q e y o j fun ra s => s.setEntry g q { e with part := 0, plan := e.plan ++ [⟨j, ra, none, none, none, false⟩] }
      | some r =>
        u.engAccess g q e (256 + g % 64) r.addr 64 .gathRead fun ls s =>
          let d := deliverRows (countOf y) p (gathRead e j (dataTok (word512 (natLE (s.readRun r.addr ls))) 0))
          (s.setPort (coreOf e.elem) (o.imm.toNat % 8) d.1).setEntry g q { e with part := 0, plan := d.2 } := by
  let v := (s.turned g q).setPort (coreOf e.elem) (o.imm.toNat % 8) p
  have hturn : (s.turned g q).port (coreOf e.elem) (o.imm.toNat % 8) = some p := hp
  have hfor : portFor p e = true := by simp [portFor, hcmd]
  have hserve (n m : Nat) : (s.turned g q).servePort (o.imm.toNat % 8) e n m = v := by
    rw [State.servePort, State.modPort_eq hturn, if_pos (by rw [hcmd]; rfl)]
  have hport : v.port (coreOf e.elem) (o.imm.toNat % 8) = some p := (h.turning hp).port
  have hpick : (if e.part ≠ 0 then (v, 0) else v.pick (gathTodo e p (countOf y)).length) = (v, 0) := by
    rcases hj with hj | ⟨hj, htodo⟩
    · rw [if_pos (by omega)]
    · rw [if_neg (not_not.2 hj), htodo]
      rfl
  have htoken : (if e.part ≠ 0 then e.part - 1 else (gathTodo e p (countOf y)).getD 0 p.cursor) = j := by
    rcases hj with hj | ⟨hj, htodo⟩
    · rw [if_pos (by omega), hj, Nat.add_sub_cancel]
    · rw [if_neg (not_not.2 hj), htodo]
      rfl
  unfold gathTodo at hpick htoken
  simp only [gathRow1, if_neg h.unperformed, if_neg hstage, hturn, hfor, hserve, hport, if_neg (Nat.not_le.2 hcur), hpick, htoken, Bool.not_true,
    Bool.false_eq_true, if_false]
  rfl

variable (hstage : y.stage ≠ 2) (hcur : p.cursor < countOf y) {t : TU} (hi : y.ins = .gath t o) {j : Nat}
  (hj : e.part = j + 1 ∨ (e.part = 0 ∧ gathTodo e p (countOf y) = [j]))
include hstage hcur hi hj

/-- A GATH reads the index of a token. -/
theorem exec_gathRow_index (hrow : e.row j = none) {xs : List (Loc × Nat)}
    (hx : s.resolveRun (256 + g % 64) (s.partOf e.elem) ((copySrc y + 4 * j) % 2 ^ 64) 4 .gathRead = .ok xs)
    (hdie : (xs.all fun x => x.1.stack / 3 == g % 64 / 3) = true) :
    ∃ s', exec (.gathRow g q) s = .next s' ∧
      Turning s s' g q e { e with
        part := 0
        plan := e.plan ++ [⟨j, rowAddr o y (natLE (s.readRun ((copySrc y + 4 * j) % 2 ^ 64) xs)), none, none, none, false⟩] }
        (o.imm.toNat % 8) p := by
  have hu := (h.turning hp).setEntry h (z := { e with part := j + 1 }) rfl
  refine ⟨_, h.exec_gathRow hi, ?_⟩
  rw [gathRow1_eq h hp hcmd hstage hcur hj, hrow]
  dsimp only
  rw [hu.indexRow rfl hx hdie]
  exact (hu.fillRun ..).setEntry h rfl

/-- A GATH reads the row of a token whose index it has read, and its port gets what is next to it. -/
theorem exec_gathRow_row {r : RowPlan} (hrow : e.row j = some r) {rs : List (Loc × Nat)}
    (hr : s.resolveRun (256 + g % 64) (s.partOf e.elem) r.addr 64 .gathRead = .ok rs) :
    let d := deliverRows (countOf y) p (gathRead e j (dataTok (word512 (natLE (s.readRun r.addr rs))) 0))
    ∃ s', exec (.gathRow g q) s = .next s' ∧ Turning s s' g q e { e with part := 0, plan := d.2 } (o.imm.toNat % 8) d.1 := by
  intro d
  have hu := (h.turning hp).setEntry h (z := { e with part := j + 1 }) rfl
  have hv := hu.fillRun (256 + g % 64) (s.partOf e.elem) r.addr 64
  have hread := hv.keeps (State.readRun · r.addr rs) fun s => s.readRun_unserved ..
  refine ⟨_, h.exec_gathRow hi, ?_⟩
  rw [gathRow1_eq h hp hcmd hstage hcur hj, hrow]
  dsimp only
  rw [hu.engAccess rfl hr, hread]
  exact (hv.setPort _).setEntry h rfl

end

/-! ### The order of delivery (R268) -/

theorem deliverRows_nil (n : Nat) (p : Port) : deliverRows n p [] = (p, []) := by
  cases n <;> rfl

/-- The row that is next goes ahead to the port. -/
theorem deliverRows_next {n : Nat} (hn : 0 < n) {p : Port} {r : RowPlan} {tok : Token} (hj : r.j = p.cursor) (ht : r.tok = some tok) :
    deliverRows n p [r] = ({ p with cursor := p.cursor + 1, ahead := p.ahead ++ [tok] }, []) := by
  obtain ⟨n, rfl⟩ := Nat.exists_eq_add_of_lt hn
  simp [deliverRows, hj, ht, deliverRows_nil]

/-- A row that is not next is kept. -/
theorem deliverRows_later {p : Port} {r : RowPlan} (hj : r.j ≠ p.cursor) (n : Nat) : deliverRows n p [r] = (p, [r]) := by
  cases n with
  | zero => rfl
  | succ n => simp [deliverRows, hj]

theorem Entry.row_single {e : Entry} {r : RowPlan} (hplan : e.plan = [r]) : e.row r.j = some r := by
  simp [Entry.row, hplan]

theorem gathRead_single {e : Entry} {r : RowPlan} (hplan : e.plan = [r]) (tok : Token) : gathRead e r.j tok = [{ r with tok := some tok }] := by
  simp [gathRead, hplan]

/-! ### The write of a row (R207, R268, R269) -/

/-- Credits change nothing of what a move has carried. -/
theorem Carried.credits {s u : State} {g q : Nat} {e : Entry} {a : Nat} {bs : List Byte} (hc : Carried s u g q e a bs) (t : Entry) (o : FmtE)
    (bit n : Nat) : Carried s (u.credits t o bit n) g q e a bs := by
  have keeps {γ : Type} (f : State → γ) (hf : ∀ s : State, f s.coreless = f s) : f (u.credits t o bit n) = f u :=
    State.coreless_keeps f hf (u.coreless_credits t o bit n)
  refine ⟨?_, ⟨?_, ?_⟩, ?_, ?_⟩
  · rw [keeps State.mem fun _ => rfl]
    exact hc.mem
  · exact (keeps State.hostMem fun _ => rfl).trans hc.far.1
  · exact (keeps State.peerMem fun _ => rfl).trans hc.far.2
  · exact (keeps (State.equeue · g q) fun _ => rfl).trans hc.queue
  · exact (keeps (fun s => (s.elem e.elem).slots) fun _ => rfl).trans hc.slots

/-- A row whose place is plain and within the budget is written whole, from whatever ports and caches of translations. -/
theorem State.scatWrite_eq {s v : State} {g q : Nat} {e : Entry} (hv : v.coreless = (s.turned g q).coreless) {r : RowPlan} {d : Token}
    (hplan : e.plan = [r]) (htok : r.tok = some d) {rs : List (Loc × Nat)} {l : Loc}
    (hr : v.resolveRun (256 + g % 64) (s.partOf e.elem) r.addr 64 .scatWrite = .ok rs)
    (hplain : PlainRun s rs l 64) (hbudget : s.runFull (s.writer e.elem) rs = false) (o : FmtE) :
    ∃ (u : State) (w : Writer), u.coreless = (s.turned g q).coreless ∧
      scatWrite o g q e r v = ((u.chunkWritten w e.elem rs l.addr (bytesLE 64 d.pay.toNat) false).credits e o 6 64).scatDone g q
        { e with full := 0, plan := [{ r with done := true }] } := by
  have hpart : v.partOf e.elem = s.partOf e.elem := State.turned_keeps (State.partOf · e.elem) (fun _ => rfl) (fun _ _ _ => rfl) hv
  let u := v.fillRun (256 + g % 64) (s.partOf e.elem) r.addr 64
  have hu : u.coreless = (s.turned g q).coreless := (State.coreless_fillRun ..).trans hv
  have hroom : u.runFull (u.writer e.elem) rs = false :=
    (State.turned_keeps (fun s => s.runFull (s.writer e.elem) rs) (fun _ => rfl) (fun _ _ _ => rfl) hu).trans hbudget
  have hlen : (bytesLE 64 d.pay.toNat).length = 64 := bytesLE_length ..
  have hwrite (w : Writer) : u.writeRun w r.addr rs (bytesLE 64 d.pay.toNat) = u.devWrite w l.addr (bytesLE 64 d.pay.toNat) :=
    PlainRun.writeRun_eq (hlen ▸ hplain) u w r.addr
  refine ⟨u, { u.writer e.elem with hold := e.full != 2 }, hu, ?_⟩
  rw [scatWrite, State.engAccess_ok (hpart ▸ hr), hpart]
  show u.engBudget g q e rs _ = _
  simp only [State.engBudget, hroom, htok, Option.map_some, Option.getD_some, hwrite, hplan, List.map_cons, List.map_nil, if_true,
    Bool.false_and, Bool.false_eq_true, if_false]
  rfl

section
variable {s u : State} {g q : Nat} {e : Entry} {y : Slot} (h : Served s g q e y)
include h

/-- A SCAT whose every row on hand is written counts them and keeps none. -/
theorem Served.scatDone {a : Nat} {bs : List Byte} (hc : Carried s u g q e a bs) {t : Entry} (ht : t.id = e.id ∧ t.elem = e.elem ∧ t.slot = e.slot)
    (hall : ∀ r ∈ t.plan, r.done = true) :
    (u.scatDone g q t).mem = u.mem ∧ Served.Goes (u.scatDone g q t) g q e (y.prog + t.plan.length) ∧
      ((u.scatDone g q t).equeue g q).head?.map Entry.plan = some [] := by
  obtain ⟨hid, helem, hk⟩ := ht
  have hslot : u.slot e.elem e.slot = some y := by
    rw [State.slot, hc.slots]
    exact h.slot
  let v := u.setSlot e.elem e.slot { y with prog := y.prog + t.plan.length }
  have hdone : u.scatDone g q t = v.setEntry g q { t with plan := [] } := by
    have hlead : t.plan.takeWhile RowPlan.done = t.plan := List.takeWhile_eq_self_iff.2 hall
    unfold State.scatDone
    rw [helem, hk, hslot, hlead]
    dsimp only
    rw [State.setProg_eq hslot, List.drop_length]
  have hqueue : (v.setEntry g q { t with plan := [] }).equeue g q = { t with plan := [] } :: (s.equeue g q).tail :=
    h.equeue_setEntry (u := v) hc.queue hid
  rw [hdone]
  refine ⟨rfl, ⟨by rw [hqueue, List.head?_cons]; exact congrArg some hid, _, State.slot_setSlot_self u _ _ h.slot_lt, rfl⟩, ?_⟩
  rw [hqueue, List.head?_cons, Option.map_some]

/-- The only row on hand is stored at its place and counted. -/
theorem Served.scatWritten {v : State} (hv : v.coreless = (s.turned g q).coreless) {r : RowPlan} {d : Token} (hplan : e.plan = [r])
    (htok : r.tok = some d) {rs : List (Loc × Nat)} {l : Loc} (hrv : v.resolveRun (256 + g % 64) (s.partOf e.elem) r.addr 64 .scatWrite = .ok rs)
    (hr : s.resolveRun (256 + g % 64) (s.partOf e.elem) r.addr 64 .scatWrite = .ok rs)
    (hplain : PlainRun s rs l 64) (hbudget : s.runFull (s.writer e.elem) rs = false) (o : FmtE) :
    Stored s.mem (scatWrite o g q e r v).mem l.addr (bytesLE 64 d.pay.toNat) ∧ Served.Goes (scatWrite o g q e r v) g q e (y.prog + 1) ∧
      ((scatWrite o g q e r v).equeue g q).head?.map Entry.plan = some [] := by
  obtain ⟨u, w, hu, heq⟩ := State.scatWrite_eq hv hplan htok hrv hplain hbudget o
  have hlen : (bytesLE 64 d.pay.toNat).length = 64 := bytesLE_length ..
  have hc := (PlainRun.carried (e := e) (hlen.symm ▸ hplain) (by omega) (by rw [hlen, hr]) hu w false).credits e o 6 64
  obtain ⟨hmem, hgoes, hhead⟩ := h.scatDone hc (t := { e with full := 0, plan := [{ r with done := true }] }) ⟨rfl, rfl, rfl⟩ (by simp)
  rw [heq]
  exact ⟨hmem ▸ hc.mem, hgoes, hhead⟩

end

/-! ### SCAT_ROW (R267, R268) -/

theorem Served.exec_scatRow {s : State} {g q : Nat} {e : Entry} {y : Slot} (h : Served s g q e y) {t : TU} {o : FmtE} (hi : y.ins = .scat t o) :
    exec (.scatRow g q) s = .next (scatRow1 o g q e y (s.turned g q)) := by
  have hstep : exec (.scatRow g q) s = execScatRow g q s := rfl
  simp only [hstep, execScatRow, h.headIns, hi, h.serve_eq]

/-- A token that the port holds is the next. -/
theorem State.scatToken_held {s : State} {c k : Nat} {p : Port} {h : Token} {hs : List Token} (hp : s.port c k = some p) (hheld : p.heldq = h :: hs) :
    s.scatToken c k = (s, some h) := by
  simp only [State.scatToken, hp, Option.map_some, hheld]

/-- A port that holds no token and that none has reached has none. -/
theorem State.scatToken_none {s : State} {c k : Nat} {p : Port} (hp : s.port c k = some p) (hheld : p.heldq = []) (hwait : p.waitq = []) :
    s.scatToken c k = (s, none) := by
  simp only [State.scatToken, State.nextAt, State.skipMarkers, hp, Option.map_some, hheld, hwait, Option.getD_some]

theorem State.writable_nil {e : Entry} (hplan : e.plan = []) (s : State) (g : Nat) : s.writable g e = [] := by
  simp [State.writable, hplan]

/-- Before the only row of a SCAT stands none, so that it may be written. -/
theorem State.writable_single {e : Entry} {r : RowPlan} (hplan : e.plan = [r]) (hdone : r.done = false) (s : State) (g : Nat) :
    s.writable g e = [r] := by
  simp [State.writable, hplan, hdone]

section
variable {s : State} {g q : Nat} {e : Entry} {y : Slot} {p : Port} {o : FmtE} (h : Served s g q e y)
  (hp : s.port (coreOf e.elem) (o.imm.toNat % 8) = some p) (hcmd : p.cmd = some (e.elem, e.slot)) (hprog : y.prog < countOf y)
include hcmd

/-- A port that serves the command of a turn keeps doing so. -/
theorem State.modPort_cmd {v : State} (hv : v.port (coreOf e.elem) (o.imm.toNat % 8) = some p) :
    (v.modPort (coreOf e.elem) (o.imm.toNat % 8) fun p => { p with cmd := some (e.elem, e.slot) }) =
      v.setPort (coreOf e.elem) (o.imm.toNat % 8) p := by
  rw [State.modPort_eq hv, ← hcmd]

include h hp hprog

/-- A SCAT whose port offers it no token writes the row on hand. -/
theorem scatRow1_writes {v : State} (hv : v = (s.turned g q).setPort (coreOf e.elem) (o.imm.toNat % 8) p)
    (hnext : (if e.full = 2 || countOf y ≤ y.prog + e.plan.length || 32 ≤ e.plan.length then (v, none)
      else v.scatToken (coreOf e.elem) (o.imm.toNat % 8)) = (v, none))
    {r : RowPlan} (hplan : e.plan = [r]) (hdone : r.done = false) :
    scatRow1 o g q e y (s.turned g q) = scatWrite o g q e r v := by
  have hturn : (s.turned g q).port (coreOf e.elem) (o.imm.toNat % 8) = some p := hp
  have hfor : portFor p e = true := by simp [portFor, hcmd]
  simp only [scatRow1, if_neg h.unperformed, hturn, hfor, State.modPort_cmd hcmd hturn, ← hv, if_neg (Nat.not_le.2 hprog), hnext,
    State.writable_single hplan hdone, Bool.not_true, Bool.false_eq_true, if_false]
  rfl

/-- A SCAT without a row on hand takes on the row of a token that its port offers it. -/
theorem scatRow1_takes {v : State} (hv : v = (s.turned g q).setPort (coreOf e.elem) (o.imm.toNat % 8) p) (hfull : e.full ≠ 2)
    {d : Token} (hnext : v.scatToken (coreOf e.elem) (o.imm.toNat % 8) = (v, some d)) (hdata : d.kind = .data) (hplan : e.plan = []) :
    scatRow1 o g q e y (s.turned g q) = v.indexRow g q e y o y.prog fun ra s =>
      (s.modPort (coreOf e.elem) (o.imm.toNat % 8) fun p => { p with heldq := [] }).setEntry g q
        { e with plan := [⟨y.prog, ra, none, none, some d, false⟩] } := by
  have hturn : (s.turned g q).port (coreOf e.elem) (o.imm.toNat % 8) = some p := hp
  have hfor : portFor p e = true := by simp [portFor, hcmd]
  have hoffers : (decide (e.full = 2) || decide (countOf y ≤ y.prog + ([] : List RowPlan).length) ||
      decide (32 ≤ ([] : List RowPlan).length)) = false := by
    simp [hfull, hprog]
  have hkind : (d.kind != Kind.data) = false := by simp [hdata]
  simp only [scatRow1, if_neg h.unperformed, hturn, hfor, State.modPort_cmd hcmd hturn, ← hv, if_neg (Nat.not_le.2 hprog),
    State.writable_nil hplan, hplan, hoffers, hnext, Bool.not_true, Bool.false_eq_true, if_false]
  show (if (d.kind != Kind.data) = true then _ else _) = _
  rw [hkind, if_neg Bool.false_ne_true]
  rfl

variable {t : TU} (hi : y.ins = .scat t o)
include hi

/-- A SCAT that has no row to write takes on the row of a token that its port holds. -/
theorem exec_scatRow_takes (hfull : e.full ≠ 2) (hplan : e.plan = []) {d : Token} {ds : List Token} (hheld : p.heldq = d :: ds)
    (hdata : d.kind = .data) {xs : List (Loc × Nat)}
    (hx : s.resolveRun (256 + g % 64) (s.partOf e.elem) ((copySrc y + 4 * y.prog) % 2 ^ 64) 4 .gathRead = .ok xs)
    (hdie : (xs.all fun x => x.1.stack / 3 == g % 64 / 3) = true) :
    ∃ s', exec (.scatRow g q) s = .next s' ∧
      Turning s s' g q e { e with
        plan := [⟨y.prog, rowAddr o y (natLE (s.readRun ((copySrc y + 4 * y.prog) % 2 ^ 64) xs)), none, none, some d, false⟩] }
        (o.imm.toNat % 8) { p with heldq := [] } := by
  have hv := h.turning hp
  have hu := hv.fillRun (256 + g % 64) (s.partOf e.elem) ((copySrc y + 4 * y.prog) % 2 ^ 64) 4
  have hnext := State.scatToken_held hv.port hheld
  refine ⟨_, h.exec_scatRow hi, ?_⟩
  rw [scatRow1_takes h hp hcmd hprog rfl hfull hnext hdata hplan, hv.indexRow rfl hx hdie, State.modPort_eq hu.port]
  exact (hu.setPort _).setEntry h rfl

/-- The write of a row to a plain place stores its token, and the command counts it. -/
theorem exec_scatRow_writes {r : RowPlan} {d : Token} {rs : List (Loc × Nat)} {l : Loc}
    (hlast : countOf y = y.prog + 1 ∨ (p.heldq = [] ∧ p.waitq = [])) (hplan : e.plan = [r]) (hdone : r.done = false) (htok : r.tok = some d)
    (hr : s.resolveRun (256 + g % 64) (s.partOf e.elem) r.addr 64 .scatWrite = .ok rs) (hplain : PlainRun s rs l 64)
    (hbudget : s.runFull (s.writer e.elem) rs = false) :
    ∃ s', exec (.scatRow g q) s = .next s' ∧ Stored s.mem s'.mem l.addr (bytesLE 64 d.pay.toNat) ∧
      Served.Goes s' g q e (y.prog + 1) ∧ (s'.equeue g q).head?.map Entry.plan = some [] := by
  let v := (s.turned g q).setPort (coreOf e.elem) (o.imm.toNat % 8) p
  have hv : Turning s v g q e e (o.imm.toNat % 8) p := h.turning hp
  have hnone : (if e.full = 2 || countOf y ≤ y.prog + e.plan.length || 32 ≤ e.plan.length then (v, none)
      else v.scatToken (coreOf e.elem) (o.imm.toNat % 8)) = (v, none) := by
    rcases hlast with hlast | ⟨hheld, hwait⟩
    · simp [hplan, hlast]
    · rw [State.scatToken_none hv.port hheld hwait, ite_self]
  refine ⟨_, h.exec_scatRow hi, ?_⟩
  rw [scatRow1_writes h hp hcmd hprog rfl hnone hplan hdone]
  exact h.scatWritten (v := v) rfl hplan htok ((State.resolveRun_baseDie hv.same rfl ..).trans hr) hr hplain hbudget o

end

/-- Settles O28: a base die translates through its own cache, so what a turn changes of ports and queues has no part in which bytes an index or a
row is read from; what has been read goes ahead to the port if it is next, and a row at a plain place is written whole. -/
theorem indirectRows : Obligations.IndirectRows := by
  intro s g q e y t o p h hp hcmd
  extract_lets c b w n row index head todo
  refine ⟨fun j hi hstage hcur hj => ⟨fun xs hrow ⟨hx, hdie⟩ => ?index, fun r rs hplan hrj hr => ?row⟩,
    fun xs d ds hi hprog hfull hplan hheld hdata ⟨hx, hdie⟩ => ?takes,
    fun r d rs l hi hprog hlast hplan hdone htok hr hplain hbudget =>
      exec_scatRow_writes h hp hcmd hprog hi hlast hplan hdone htok hr hplain hbudget⟩
  case index =>
    obtain ⟨s', hexec, hs⟩ := exec_gathRow_index h hp hcmd hstage hcur hi hj hrow hx hdie
    exact ⟨s', hexec, hs.outcome⟩
  case row =>
    subst hrj
    intro tok
    have hpos : 0 < countOf y := Nat.zero_lt_of_lt hcur
    obtain ⟨s', hexec, hs⟩ := exec_gathRow_row h hp hcmd hstage hcur hi hj (Entry.row_single hplan) hr
    rw [gathRead_single hplan] at hs
    refine ⟨s', hexec, hs.outcome.1, fun hnext => ?_, fun hlater => ?_⟩
    · rw [deliverRows_next (r := { r with tok := some tok }) hpos hnext rfl] at hs
      exact hs.outcome.2
    · rw [deliverRows_later (r := { r with tok := some tok }) hlater] at hs
      exact hs.outcome.2
  case takes =>
    obtain ⟨s', hexec, hs⟩ := exec_scatRow_takes h hp hcmd hprog hi hfull hplan hheld hdata hx hdie
    exact ⟨s', hexec, hs.outcome⟩

end Sys2Proof.Machine
end

section
/-! SUPPORT. Elements changed one after another, the parts of a rectangle, and the region that they go to (R270 to R272, R472 to R474). -/

namespace Sys2Proof.Machine

open Sys2Proof

/-! ### Elements changed one after another -/

/-- Changes elements one after another. -/
def State.modElems (s : State) (es : List Nat) (g : Nat → Elem → Elem) : State := es.foldl (fun s e => s.modElem e (g e)) s

section
variable (s : State) (es : List Nat) (g : Nat → Elem → Elem)

/-- What no change of an element touches stands. -/
theorem State.modElems_keep {γ : Type} (π : State → γ) (hπ : ∀ (s : State) (e : Nat) (x : Elem), π (s.setElem e x) = π s) :
    π (s.modElems es g) = π s :=
  State.foldl_keeps π (fun s e => hπ s e _) es s

/-- What the change keeps of an element stands of every element. -/
theorem State.elem_modElems_keep {γ : Type} (π : Elem → γ) (hπ : ∀ e x, π (g e x) = π x) (d : Nat) :
    π ((s.modElems es g).elem d) = π (s.elem d) :=
  State.foldl_keeps (fun s : State => π (s.elem d)) (fun s e => State.elem_setElem_keep π (hπ e (s.elem e)) d) es s

variable {es}

theorem State.elem_modElems_ne {d : Nat} (hd : d ∉ es) : (s.modElems es g).elem d = s.elem d := by
  induction es generalizing s with
  | nil => rfl
  | cons e es ih =>
    obtain ⟨hde, hd⟩ := not_or.1 (mt List.mem_cons.2 hd)
    exact (ih (s.modElem e (g e)) hd).trans (State.elem_setElem_ne s hde _)

/-- An element that is named once takes its change. -/
theorem State.elem_modElems_of_nodup (hes : es.Nodup) {d : Nat} (hd : d ∈ es) : (s.modElems es g).elem d = g d (s.elem d) := by
  induction es generalizing s with
  | nil => cases hd
  | cons e es ih =>
    obtain ⟨he, hes⟩ := List.nodup_cons.1 hes
    rcases List.mem_cons.1 hd with rfl | hd
    · exact (State.elem_modElems_ne _ g he).trans (State.elem_setElem_self ..)
    · have hde : d ≠ e := fun h => he (h ▸ hd)
      exact (ih (s.modElem e (g e)) hes hd).trans (congrArg (g d) (State.elem_setElem_ne s hde _))

/-- What every change establishes holds of the elements named, and of those of which it held. -/
theorem State.elem_modElems_holds {P : Elem → Prop} (hP : ∀ e x, P (g e x)) {d : Nat} (hd : d ∈ es ∨ P (s.elem d)) :
    P ((s.modElems es g).elem d) := by
  induction es generalizing s with
  | nil => exact hd.resolve_left List.not_mem_nil
  | cons e es ih =>
    refine ih (s.modElem e (g e)) ?_
    by_cases hde : d = e
    · subst hde
      rw [State.modElem_eq, State.elem_setElem_self]
      exact .inr (hP ..)
    · rw [State.modElem_eq, State.elem_setElem_ne s hde]
      exact hd.imp_left fun hd => (List.mem_cons.1 hd).resolve_left hde

end

/-! ### A region that takes a change -/

theorem State.modRegion_of_region {s : State} {n : Nat} {r : Region} (h : s.region n = some r) (f : Region → Region) :
    s.modRegion n f = s.setRegion n (f r) := by
  simp only [State.modRegion, h]

/-- A listed value that changes in nothing a search looks at is found where it stood. -/
theorem SMap.find?_set_key {α : Type} {k : Nat} {x y : α} {m : List (Nat × α)} (h : SMap.find k m = some y) {p : Nat × α → Bool}
    (hp : p (k, x) = p (k, y)) : ((SMap.set k x m).find? p).map Prod.fst = (m.find? p).map Prod.fst := by
  induction m with
  | nil => cases h
  | cons z m ih =>
    obtain ⟨j, z⟩ := z
    rw [SMap.find] at h
    rw [SMap.set]
    split_ifs at h with hj hlt
    · subst hj
      cases h
      rw [if_pos rfl, List.find?_cons, List.find?_cons, hp]
      cases p (k, y) with
      | true => rfl
      | false => rfl
    · rw [if_neg hj, if_neg hlt, List.find?_cons, List.find?_cons]
      cases p (j, z) with
      | true => rfl
      | false => exact ih h

/-- A region that keeps its place keeps its elements. -/
theorem State.regionOf_setRegion {s : State} {n : Nat} {r x : Region} (h : s.region n = some r) {e : Nat} (hx : x.hasElem e = r.hasElem e) :
    (s.setRegion n x).regionOf e = s.regionOf e := SMap.find?_set_key h hx

/-! ### Parts that are configured (R270, R473) -/

/-- What a part makes of its elements. -/
def Rect.enter (m : Rect) (south : List Nat) (e : Nat) (x : Elem) : Elem :=
  { x with w1Active := false, inRect := true, accb := if south.contains e then some m.accb else none }

theorem State.addRect_eq {s : State} {r g : Region} {m : Rect} {rn : Nat} (hn : s.regionOf (r.rectElem m 0 0) = some rn)
    (hg : s.region rn = some g) :
    s.addRect r m = (s.modElems (r.rectElems m) (m.enter (r.southElems m))).setRegion rn { g with rects := g.rects ++ [m] } := by
  have hn' : (s.modElems (r.rectElems m) (m.enter (r.southElems m))).regionOf (r.rectElem m 0 0) = some rn :=
    (s.modElems_keep _ _ (State.regionOf · _) fun _ _ _ => rfl).trans hn
  have hg' : (s.modElems (r.rectElems m) (m.enter (r.southElems m))).region rn = some g :=
    (s.modElems_keep _ _ (State.region · rn) fun _ _ _ => rfl).trans hg
  rw [← State.modRegion_of_region hg' fun r => { r with rects := r.rects ++ [m] }]
  unfold State.modElems Rect.enter at hn' ⊢
  simp only [State.addRect, hn']

/-- In t the parts ms of region rn, which was g, are configured: their elements are in a rectangle and use w0, and no slot has changed. -/
structure Entered (s t : State) (r : Region) (rn : Nat) (g : Region) (ms : List Rect) : Prop where
  region : t.region rn = some { g with rects := g.rects ++ ms }
  regionOf : ∀ e, t.regionOf e = s.regionOf e
  mem : t.mem = s.mem
  slots : ∀ e k, t.slot e k = s.slot e k
  elems : ∀ d, ((∃ m ∈ ms, d ∈ r.rectElems m) ∨ ((s.elem d).inRect = true ∧ (s.elem d).w1Active = false)) →
    (t.elem d).inRect = true ∧ (t.elem d).w1Active = false

theorem entered_addRect {s : State} {r g : Region} {m : Rect} {rn : Nat} (hn : s.regionOf (r.rectElem m 0 0) = some rn)
    (hg : s.region rn = some g) : Entered s (s.addRect r m) r rn g [m] := by
  rw [State.addRect_eq hn hg]
  have hg' : (s.modElems (r.rectElems m) (m.enter (r.southElems m))).region rn = some g :=
    (s.modElems_keep _ _ (State.region · rn) fun _ _ _ => rfl).trans hg
  refine ⟨State.region_setRegion_self .., fun e => ?_, ?_, fun e k => ?_, fun d hd => ?_⟩
  · exact (State.regionOf_setRegion (x := { g with rects := g.rects ++ [m] }) hg' rfl).trans
      (s.modElems_keep _ _ (State.regionOf · e) fun _ _ _ => rfl)
  · exact s.modElems_keep _ _ State.mem fun _ _ _ => rfl
  · exact s.elem_modElems_keep _ (m.enter (r.southElems m)) (fun x : Elem => vget x.slots k none) (fun _ _ => rfl) e
  · refine State.elem_modElems_holds (P := fun x : Elem => x.inRect = true ∧ x.w1Active = false) s _ (fun _ _ => ⟨rfl, rfl⟩) ?_
    simpa using hd

theorem Entered.trans {s t u : State} {r g : Region} {rn : Nat} {ms ns : List Rect} (h : Entered s t r rn g ms)
    (h' : Entered t u r rn { g with rects := g.rects ++ ms } ns) : Entered s u r rn g (ms ++ ns) where
  region := by rw [h'.region, List.append_assoc]
  regionOf e := (h'.regionOf e).trans (h.regionOf e)
  mem := h'.mem.trans h.mem
  slots e k := (h'.slots e k).trans (h.slots e k)
  elems d hd := by
    rcases hd with ⟨m, hm, hd⟩ | hd
    · rcases List.mem_append.1 hm with hm | hm
      · exact h'.elems d (.inr (h.elems d (.inl ⟨m, hm, hd⟩)))
      · exact h'.elems d (.inl ⟨m, hm, hd⟩)
    · exact h'.elems d (.inr (h.elems d (.inr hd)))

/-- Parts whose nodes belong to one region go to it in their order. -/
theorem entered_addRects {r : Region} {rn : Nat} {ms : List Rect} {s : State} {g : Region}
    (hn : ∀ m ∈ ms, s.regionOf (r.rectElem m 0 0) = some rn) (hg : s.region rn = some g) :
    Entered s (ms.foldl (fun s m => s.addRect r m) s) r rn g ms := by
  induction ms generalizing s g with
  | nil => exact ⟨by simpa using hg, fun _ => rfl, rfl, fun _ _ => rfl, fun d hd => hd.resolve_left (by simp)⟩
  | cons m ms ih =>
    have h1 := entered_addRect (hn m List.mem_cons_self) hg
    exact h1.trans (ih (fun n hm => (h1.regionOf _).trans (hn n (List.mem_cons_of_mem _ hm))) h1.region)

end Sys2Proof.Machine
end

section
/-! SUPPORT. MXMODE as its element's unit takes it: a rectangle that is configured, a bad descriptor, and a rectangle that is left (R270 to R272,
R472 to R474). -/

namespace Sys2Proof.Machine

open Sys2Proof

/-! ### Enter (R271, R472, R473) -/

/-- An enter finds the same faults wherever the regions stand the same and the same elements are in rectangles. -/
theorem mxEnterBad_congr {s u : State} (hregs : u.regions = s.regions) (hin : ∀ e, (u.elem e).inRect = (s.elem e).inRect) :
    mxEnterBad u = mxEnterBad s := by
  have hfree : State.rectFree u = State.rectFree s := by
    funext r m
    simp only [State.rectFree, State.together, hregs, hin]
  have hparts : State.mxParts u = State.mxParts s := by
    funext e split y
    simp only [State.mxParts, State.regOf, hregs]
  funext e split y
  unfold mxEnterBad
  rw [hparts, hfree]

/-- What an issue keeps of its own element it keeps of every element. -/
theorem Takes.elem_keeps {s u : State} {f : Firing} {i : Instr} {k : Nat} {a b c : VW} {chn : Nat} (h : Takes s u f i k a b c chn) {γ : Type}
    (g : Elem → γ) (hg : ∀ x : Elem, g x.unissued = g x) (d : Nat) : g (u.elem d) = g (s.elem d) := by
  rw [h.only]
  exact State.elem_setElem_keep g (h.issued.keeps g hg) d

/-- What slots have no part in, a performed operation keeps of every element. -/
theorem State.elem_performed_keeps {γ : Type} (g : Elem → γ) (hg : ∀ (x : Elem) ys, g { x with slots := ys } = g x) (s : State) (e k d : Nat)
    (v : VW) : g ((s.performed e k v).elem d) = g (s.elem d) := by
  unfold State.performed
  split
  · rfl
  · exact State.elem_setElem_keep g (hg ..) d

section
variable {s : State} {t : TU} {o : FmtE} {f : Firing} {k rn : Nat} {r : Region} (h : ReadyIn s t f k) (hn : s.regionOf f.e = some rn)
  (hr : s.region rn = some r) (ho : s.regOf f.e = some r)
include h

section
variable {i : Instr} {split : Bool} (hi : exec i s = .next (s.fire i t (mxEnter i o split)))
include hi

/-- A bad descriptor is raised at issue. -/
theorem exec_enter_raises (hbad : ∀ y : Slot, y.opa = word512 (pairOf f.x o.a) → mxEnterBad s f.e split y = some (0x0D, 0)) :
    ∃ s', exec i s = .next s' ∧ SlotRaised s s' f k 0 0x0D 0 := by
  refine exec_cmdIssue_raises (g := fun f _ => (word512 (pairOf f.x o.a), 0, 0)) (perf := performMxEnter split) h.1 h.2.1 ?_
    fun y hy => hbad y hy.opa
  rw [hi, State.fire_ordinary h.1, State.fire_ordinary h.1]
  rfl

include hr ho in
/-- A sound one configures its parts. -/
theorem exec_enter_enters (hbad : ∀ y : Slot, y.opa = word512 (pairOf f.x o.a) → mxEnterBad s f.e split y = none)
    (hms : ∀ m ∈ mxRects (pairOf f.x o.a) (r.gridOf f.e) split, s.regionOf (r.rectElem m 0 0) = some rn) :
    ∃ s', exec i s = .next s' ∧
      s'.region rn = some { r with rects := r.rects ++ mxRects (pairOf f.x o.a) (r.gridOf f.e) split } ∧ s'.mem = s.mem ∧
      Performed s' f.e k i 1 ∧
      ∀ m ∈ mxRects (pairOf f.x o.a) (r.gridOf f.e) split, ∀ e ∈ r.rectElems m, (s'.elem e).inRect = true ∧ (s'.elem e).w1Active = false := by
  obtain ⟨u, y, hact, hfilled⟩ := cmdIssue_acts h i (word512 (pairOf f.x o.a)) 0 0 (bad := mxEnterBad s f.e split)
    (fun y hy => hbad y hy.opa) (performMxEnter split)
  have htakes := hfilled.takes
  have hbad' : mxEnterBad u f.e split y = none := by
    rw [mxEnterBad_congr htakes.regions (htakes.elem_keeps Elem.inRect fun _ => rfl)]
    exact hbad y hfilled.captured.opa
  have hparts : u.mxParts f.e split y = some (r, mxRects (pairOf f.x o.a) (r.gridOf f.e) split) := by
    rw [State.mxParts, htakes.regOf, ho, hfilled.captured.opa, word512_toNat_mod (pairOf_lt f.x o.a)]
    rfl
  have hent := entered_addRects (s := u) (fun m hm => (htakes.regionOf _).trans (hms m hm)) ((htakes.region rn).trans hr)
  refine ⟨_, hi.trans (congrArg Host.Outcome.next ((State.fire_ordinary h.1 ..).trans hact)), ?_⟩
  rw [performMxEnter, hfilled.acts hbad', hparts]
  refine ⟨(State.performed_keep (State.region · rn) (fun _ _ _ => rfl) ..).trans hent.region,
    (State.performed_keep State.mem (fun _ _ _ => rfl) ..).trans (hent.mem.trans htakes.quiet.mem.1), ?_, fun m hm e he => ?_⟩
  · have hp := performed_performed hfilled.lt ((hent.slots f.e k).trans hfilled.slot) 1
    rwa [hfilled.captured.ins] at hp
  · rw [State.elem_performed_keeps Elem.inRect fun _ _ => rfl, State.elem_performed_keeps Elem.w1Active fun _ _ => rfl]
    exact hent.elems e (.inl ⟨m, hm, he⟩)

end

/-! ### Leave (R272, R474) -/

include ho in
/-- A leave in a region without rectangles leaves none. -/
theorem exec_leave_none (hrects : r.rects = []) :
    ∃ s', exec (.mxmodeLeave t o) s = .next s' ∧ Performed s' f.e k (.mxmodeLeave t o) 0 ∧ s'.regions = s.regions := by
  obtain ⟨u, y, hact, hfilled⟩ := exec_cmdIssue_acts h (g := fun _ _ => (0, 0, 0)) (i := .mxmodeLeave t o) rfl fun _ _ => rfl
  have hrect : u.rectOf f.e = none := by
    simp only [State.rectOf, hfilled.takes.regOf, ho, hrects, List.find?_nil, Option.map_none]
  refine ⟨_, hact, ?_⟩
  rw [performMxLeave, hfilled.acts rfl, hrect]
  exact ⟨(hfilled.performed (quiet_refl ..) rfl 0).2, (State.performed_keep State.regions (fun _ _ _ => rfl) ..).trans hfilled.takes.regions⟩

/-- What a leave makes of an element of its rectangle. -/
def leaveElem (_ : Nat) (x : Elem) : Elem := { x with inRect := false }

include hr ho in
/-- A leave at the node of the only rectangle, which is quiet, ends it. -/
theorem exec_leave_ends {m : Rect} (hrects : r.rects = [m]) (hregs : s.regions = [(rn, r)]) (hplaced : r.placed = true)
    (hholds : m.holds (r.gridOf f.e) = true) (hnode : r.gridOf f.e = (m.gx, m.gy)) (hquiet : m.quiet s.cycle = true) :
    ∃ s', exec (.mxmodeLeave t o) s = .next s' ∧ Performed s' f.e k (.mxmodeLeave t o) 1 ∧ (s'.region rn).map Region.rects = some [] ∧
      ∀ e ∈ r.rectElems m, (s'.elem e).inRect = false := by
  obtain ⟨u, y, hact, hfilled⟩ := exec_cmdIssue_acts h (g := fun _ _ => (0, 0, 0)) (i := .mxmodeLeave t o) rfl fun _ _ => rfl
  have htakes := hfilled.takes
  have hrect : u.rectOf f.e = some (r, m) := by
    simp only [State.rectOf, htakes.regOf, ho, hrects, List.find?_cons, hholds, Option.map_some]
  have htogether : u.together r = [(rn, r)] := by
    simp [State.together, htakes.regions, hregs, hplaced]
  have hquiet' : m.quiet u.cycle = true := by
    rw [htakes.keeps State.cycle fun _ _ _ => rfl]
    exact hquiet
  let v := u.modElems (r.rectElems m) leaveElem
  have hv : v.region rn = some r := (u.modElems_keep _ _ (State.region · rn) fun _ _ _ => rfl).trans ((htakes.region rn).trans hr)
  have hslot : v.slot f.e k = u.slot f.e k := u.elem_modElems_keep _ leaveElem (fun x : Elem => vget x.slots k none) (fun _ _ => rfl) f.e
  have hleft : performMxLeave f.e k u =
      (v.setRegion rn { r with rects := [], cutReq := r.cutReq || m.cut == 3 }).performed f.e k 1 := by
    rw [performMxLeave, hfilled.acts rfl, hrect]
    simp only [hnode, bne_self_eq_false, Bool.false_eq_true, if_false, htogether, hrects, List.all_cons, List.all_nil, List.filter_cons_of_pos,
      List.filter_nil, beq_self_eq_true, Bool.and_self, hquiet', Bool.not_true, List.foldl_cons, List.foldl_nil, List.any_cons, List.any_nil,
      Bool.or_false]
    refine congrArg (State.performed · f.e k 1) ((State.modRegion_of_region hv _).trans ?_)
    simp [hrects]
  refine ⟨_, hact, ?_⟩
  rw [hleft]
  refine ⟨?_, ?_, fun e he => ?_⟩
  · have hp := performed_performed (s := v.setRegion rn { r with rects := [], cutReq := r.cutReq || m.cut == 3 }) hfilled.lt
      (hslot.trans hfilled.slot) 1
    rwa [hfilled.captured.ins] at hp
  · rw [State.performed_keep (State.region · rn) fun _ _ _ => rfl, State.region_setRegion_self]
    rfl
  · rw [State.elem_performed_keeps Elem.inRect fun _ _ => rfl]
    exact State.elem_modElems_holds (P := fun x : Elem => x.inRect = false) u leaveElem (fun _ _ => rfl) (.inl he)

end

end Sys2Proof.Machine
end

section
/-! SUPPORT. MXWLD, MXC and MXACC at their element: the words of a weight register, the token of an MXC, and the first row of an MXACC (R273, R274,
R276, R470, R471, R477). -/

namespace Sys2Proof.Machine

open Sys2Proof

/-! ### Digits of a number, one of them replaced -/

/-- w with its digit i in base b replaced by v. -/
def setDigit (b i w v : Nat) : Nat := w / b ^ (i + 1) * b ^ (i + 1) + v * b ^ i + w % b ^ i

theorem setDigit_eq (b i w v : Nat) : setDigit b i w v = b ^ i * (b * (w / b ^ (i + 1)) + v) + w % b ^ i := by
  rw [setDigit, Nat.pow_succ]
  ring

/-- The digits below stand. -/
theorem setDigit_mod (b i w v : Nat) : setDigit b i w v % b ^ i = w % b ^ i := by
  rw [setDigit_eq, Nat.mul_add_mod, Nat.mod_mod]

section
variable {b i w v : Nat} (hv : v < b)
include hv

theorem setDigit_div_self : setDigit b i w v / b ^ i = b * (w / b ^ (i + 1)) + v := by
  have hb : 0 < b ^ i := Nat.pow_pos (Nat.zero_lt_of_lt hv)
  rw [setDigit_eq, Nat.mul_add_div hb, Nat.div_eq_of_lt (Nat.mod_lt _ hb), Nat.add_zero]

/-- The digits above stand. -/
theorem setDigit_div : setDigit b i w v / b ^ (i + 1) = w / b ^ (i + 1) := by
  rw [Nat.pow_succ, ← Nat.div_div_eq_div_mul, setDigit_div_self hv, Nat.mul_add_div (Nat.zero_lt_of_lt hv), Nat.div_eq_of_lt hv, Nat.add_zero,
    Nat.pow_succ]

/-- Every digit is that of w, but for the one replaced. -/
theorem setDigit_digit (j : Nat) : setDigit b i w v / b ^ j % b = if j = i then v else w / b ^ j % b := by
  rcases Nat.lt_trichotomy j i with hlt | rfl | hgt
  · have hmod : setDigit b i w v % b ^ (j + 1) = w % b ^ (j + 1) := by
      have hdvd : b ^ (j + 1) ∣ b ^ i := Nat.pow_dvd_pow b hlt
      rw [← Nat.mod_mod_of_dvd _ hdvd, setDigit_mod, Nat.mod_mod_of_dvd w hdvd]
    rw [if_neg hlt.ne, ← Nat.mod_mul_right_div_self, ← Nat.mod_mul_right_div_self, ← Nat.pow_succ, hmod]
  · rw [if_pos rfl, setDigit_div_self hv, Nat.mul_add_mod, Nat.mod_eq_of_lt hv]
  · rw [if_neg hgt.ne', ← pow_mul_pow_sub b hgt, ← Nat.div_div_eq_div_mul, ← Nat.div_div_eq_div_mul, setDigit_div hv]

/-- A number of n digits stays one. -/
theorem setDigit_lt {n : Nat} (hi : i < n) (hw : w < b ^ n) : setDigit b i w v < b ^ n := by
  have hb : 0 < b ^ (i + 1) := Nat.pow_pos (Nat.zero_lt_of_lt hv)
  rw [← pow_sub_mul_pow b hi] at hw ⊢
  exact (Nat.div_lt_iff_lt_mul hb).1 (by rw [setDigit_div hv]; exact (Nat.div_lt_iff_lt_mul hb).2 hw)

end

/-! ### The words of a weight register (R273, R477) -/

theorem vw_toNat_lt (v : VW) : v.toNat < 2 ^ 512 := v.isLt

/-- A weight register with its word i replaced. -/
def replaceWord (w : BitVec 4096) (i : Nat) (v : VW) : BitVec 4096 := BitVec.ofNat 4096 (setDigit (2 ^ 512) i w.toNat v.toNat)

theorem replaceWord_toNat (w : BitVec 4096) {i : Nat} (hi : i < 8) (v : VW) :
    (replaceWord w i v).toNat = setDigit (2 ^ 512) i w.toNat v.toNat := by
  have hpow : (2 ^ 512) ^ 8 = 2 ^ 4096 := by rw [← Nat.pow_mul, show 512 * 8 = 4096 from rfl]
  have hw : w.toNat < (2 ^ 512) ^ 8 := by
    rw [hpow]
    exact w.isLt
  have hlt := setDigit_lt (vw_toNat_lt v) hi hw
  rw [hpow] at hlt
  rw [replaceWord, BitVec.toNat_ofNat, Nat.mod_eq_of_lt hlt]

/-- Word j of a weight register. -/
def weightWord (w : BitVec 4096) (j : Nat) : Nat := w.toNat / 2 ^ (512 * j) % 2 ^ 512

theorem weightWord_replaceWord (w : BitVec 4096) {i : Nat} (hi : i < 8) (v : VW) (j : Nat) :
    weightWord (replaceWord w i v) j = if j = i then v.toNat else weightWord w j := by
  simp only [weightWord, replaceWord_toNat w hi, Nat.pow_mul]
  exact setDigit_digit (vw_toNat_lt v) j

/-- The weight register that an MXWLD names. -/
def Elem.weight (x : Elem) (one : Bool) : BitVec 4096 := if one then x.w1 else x.w0

theorem Elem.weight_setWeight_self (x : Elem) (one : Bool) (i : Nat) (v : VW) :
    (x.setWeight one (64 * i) v).weight one = replaceWord (x.weight one) i v := by
  have hbits : 8 * (64 * i) = 512 * i := by omega
  have hmix (w : BitVec 4096) :
      BitVec.ofNat 4096 (w.toNat / 2 ^ (8 * (64 * i) + 512) * 2 ^ (8 * (64 * i) + 512) + v.toNat * 2 ^ (8 * (64 * i)) +
        w.toNat % 2 ^ (8 * (64 * i))) = replaceWord w i v := by
    rw [replaceWord, setDigit, ← Nat.pow_mul, ← Nat.pow_mul, hbits]
    rfl
  cases one
  · exact hmix x.w0
  · exact hmix x.w1

theorem Elem.weight_setWeight_other (x : Elem) (one : Bool) (at_ : Nat) (v : VW) :
    (x.setWeight one at_ v).weight (!one) = x.weight (!one) := by
  cases one <;> rfl

theorem Elem.setWeight_keep {γ : Type} (g : Elem → γ) (h0 : ∀ (x : Elem) w, g { x with w0 := w } = g x)
    (h1 : ∀ (x : Elem) w, g { x with w1 := w } = g x) (x : Elem) (one : Bool) (at_ : Nat) (v : VW) : g (x.setWeight one at_ v) = g x := by
  cases one
  · exact h0 ..
  · exact h1 ..

/-! ### MXWLD from the element's own bank (R274, R477) -/

/-- The state in which an MXWLD has loaded its next word. -/
def State.wordLoaded (s : State) (e : Nat) (one : Bool) (i : Nat) (v : VW) : State := s.modElem e fun x => x.setWeight one (64 * i) v

section
variable (s : State) (e : Nat) (one : Bool) (i : Nat) (v : VW)

theorem State.elem_wordLoaded : (s.wordLoaded e one i v).elem e = (s.elem e).setWeight one (64 * i) v := State.elem_setElem_self ..

theorem quiet_wordLoaded : Quiet s (s.wordLoaded e one i v) e :=
  quiet_setElem (Elem.setWeight_keep Elem.s (fun _ _ => rfl) (fun _ _ => rfl) ..) (Elem.setWeight_keep Elem.v (fun _ _ => rfl) (fun _ _ => rfl) ..)
    (Elem.setWeight_keep Elem.out (fun _ _ => rfl) (fun _ _ => rfl) ..) (Elem.setWeight_keep Elem.axs (fun _ _ => rfl) (fun _ _ => rfl) ..)

theorem State.slot_wordLoaded (k : Nat) : (s.wordLoaded e one i v).slot e k = s.slot e k := by
  rw [State.slot, State.elem_wordLoaded]
  exact Elem.setWeight_keep (fun x : Elem => vget x.slots k none) (fun _ _ => rfl) (fun _ _ => rfl) ..

end

/-- In t word i of the chosen weight register of e is v; nothing else of its weights, and nothing that shows, has changed since s. -/
structure WordLoaded (s t : State) (e : Nat) (one : Bool) (i : Nat) (v : VW) : Prop where
  quiet : Quiet s t e
  self : (t.elem e).weight one = replaceWord ((s.elem e).weight one) i v
  other : (t.elem e).weight (!one) = (s.elem e).weight (!one)

/-- What has changed of an element but its weights since its word was loaded does not matter. -/
theorem wordLoaded_of {s t : State} {e : Nat} {one : Bool} {i : Nat} {v : VW} (hq : Quiet (s.wordLoaded e one i v) t e)
    (hw : ∀ b, (t.elem e).weight b = ((s.wordLoaded e one i v).elem e).weight b) : WordLoaded s t e one i v where
  quiet := (quiet_wordLoaded ..).trans hq
  self := (hw one).trans (by rw [State.elem_wordLoaded, Elem.weight_setWeight_self])
  other := (hw !one).trans (by rw [State.elem_wordLoaded, Elem.weight_setWeight_other])

section
variable {s : State} {e k : Nat} {y : Slot} {o : FmtE} (hk : k < 8) (hy : s.slot e k = some y) (hstage : y.stage = 0) (hheld : y.held = false)
  (hedges : s.edgesMet e y = true) (hbad : mxwldBad o y = none) (hown : o.imm.toNat.testBit 1 = false) (hrect : s.rectOf e = none)
  {a : Nat} (ha : a = y.opa.toNat % 65536 + 64 * y.sub) (hport : PortFree s e 64 [a] false)
include hy hstage hheld hedges hbad hown hrect ha hport

/-- An MXWLD of an element in no rectangle loads its next word, and is performed with the last. -/
theorem performMxwld_eq : ∃ c, performMxwld o e k s =
    (let t := s.wordLoaded e (o.imm.toNat.testBit 0) y.sub (bankRead (s.elem e) a 64)
     if 64 * y.sub + 64 < blockBytes o then t.setSlot e k { y with sub := y.sub + 1 }
     else t.performed e k (word512 (blockBytes o))).portUsed e c := by
  subst ha
  have hacts := State.bankAccess_acts hport k fun s =>
    let t := s.wordLoaded e (o.imm.toNat.testBit 0) y.sub (bankRead (s.elem e) (y.opa.toNat % 65536 + 64 * y.sub) 64)
    if 64 * y.sub + 64 < blockBytes o then t.setSlot e k { y with sub := y.sub + 1 } else t.performed e k (word512 (blockBytes o))
  refine ⟨_, Eq.trans ?_ hacts⟩
  rw [performMxwld, State.trySlot_acts hy hstage hheld hbad hedges]
  simp only [hown, hrect, Bool.not_false, Bool.true_or, Bool.not_true, Bool.false_eq_true, if_false, Bool.and_false, Bool.false_and]
  rfl

include hk in
theorem performMxwld_loads :
    let t := performMxwld o e k s
    WordLoaded s t e (o.imm.toNat.testBit 0) y.sub (bankRead (s.elem e) a 64) ∧
      (64 * y.sub + 64 < blockBytes o → t.slot e k = some { y with sub := y.sub + 1 }) ∧
      (blockBytes o ≤ 64 * y.sub + 64 → Performed t e k y.ins (word512 (blockBytes o))) := by
  obtain ⟨c, hc⟩ := performMxwld_eq (k := k) hy hstage hheld hedges hbad hown hrect ha hport
  extract_lets u at hc
  have hslot : u.slot e k = some y := (State.slot_wordLoaded ..).trans hy
  rw [hc]
  have hused (v : State) (b : Bool) : ((v.portUsed e c).elem e).weight b = (v.elem e).weight b :=
    State.elem_portUsed_keep v e c (Elem.weight · b) fun _ _ => rfl
  split_ifs with hmore
  · refine ⟨wordLoaded_of ((quiet_setSlot ..).trans (quiet_portUsed ..)) fun b => (hused ..).trans ?_, fun _ => ?_, fun h => absurd hmore h.not_gt⟩
    · exact State.elem_setSlot_keep (Elem.weight · b) (fun _ _ => rfl) ..
    · exact (State.slot_portUsed ..).trans (State.slot_setSlot_self _ _ _ hk)
  · refine ⟨wordLoaded_of ((quiet_performed ..).trans (quiet_portUsed ..)) fun b => (hused ..).trans ?_, fun h => absurd h hmore, fun _ => ?_⟩
    · exact State.elem_performed_keep (Elem.weight · b) (fun _ _ => rfl) ..
    · obtain ⟨z, hz, hrest⟩ := performed_performed hk hslot (word512 (blockBytes o))
      exact ⟨z, (State.slot_portUsed ..).trans hz, hrest⟩

end

/-- A word that a bank read gives is its bytes' number. -/
theorem bankRead_word (x : Elem) (a : Nat) : (bankRead x a 64).toNat = natLE (Memory.read x.bank a 64) := by
  have hlen : (Memory.read x.bank a 64).length = 64 := by rw [Memory.read, List.length_map, List.length_range]
  have hlt := natLE_lt (Memory.read x.bank a 64)
  rw [hlen, show 256 = 2 ^ 8 from rfl, ← Nat.pow_mul] at hlt
  rw [bankRead_toNat, Nat.mod_eq_of_lt hlt]

/-- The weight registers as the statements name them: the one loaded, and the other. -/
theorem Elem.weight_not (x : Elem) (one : Bool) : x.weight (!one) = if one then x.w0 else x.w1 := by
  cases one <;> rfl

theorem weightLoads : Claims.WeightLoads := by
  intro s e k y t o hk hy hins hstage hheld hruns hedges hbad hown hrect n i a w u piece hi hport
  have hn : n = blockBytes o := rfl
  have hi8 : i < 8 := by
    have : n ≤ 512 := by simp only [n]; split_ifs <;> decide
    omega
  obtain ⟨hloaded, hmore, hlast⟩ := performMxwld_loads hk hy hstage hheld hedges hbad hown hrect rfl hport
  refine ⟨_, choose_command hruns hy hins ⟨_, _, _, rfl⟩ rfl, hloaded.quiet, ?_, fun j hj => ?_, hmore, hlast⟩
  · have hother := hloaded.other
    rwa [Elem.weight_not, Elem.weight_not] at hother
  · rw [← bankRead_word]
    exact (congrArg (weightWord · j) hloaded.self).trans (weightWord_replaceWord _ hi8 _ j)

section
variable {s : State} {t : TU} {o : FmtE} {f : Firing} {k : Nat} {r : Region} (h : ReadyIn s t f k)
include h

/-- An MXWLD that its unit takes loads word 0 of its block, and goes on. -/
theorem exec_mxwld_loads (ho : s.regOf f.e = some r) (hown : o.imm.toNat.testBit 1 = false) (hrects : r.rects = [])
    (haln : wordOf f.x o.a % 65536 % 64 = 0) (hfit : wordOf f.x o.a % 65536 + blockBytes o ≤ 65536)
    (hport : PortFree s f.e 64 [wordOf f.x o.a % 65536] false) :
    ∃ s', exec (.mxwld t o) s = .next s' ∧ (∃ y, s'.slot f.e k = some y ∧ y.stage = 0 ∧ y.sub = 1) ∧
      WordLoaded s s' f.e (o.imm.toNat.testBit 0) 0 (bankRead (s.elem f.e) (wordOf f.x o.a % 65536) 64) := by
  have hbad (y : Slot) (hy : y.Captured f (.mxwld t o) (word512 (wordOf f.x o.a)) (word512 (wordOf f.x o.b)) 0 0) : mxwldBad o y = none := by
    rw [mxwldBad, hy.opa, word512_wordOf]
    simp only [haln, ne_eq, not_true_eq_false, if_false, hfit.not_gt]
  obtain ⟨u, y, hact, hfilled⟩ := exec_cmdIssue_acts h (g := fun f _ => (word512 (wordOf f.x o.a), word512 (wordOf f.x o.b), 0))
    (i := .mxwld t o) (bad := mxwldBad o) (perf := performMxwld o) rfl hbad
  have htakes := hfilled.takes
  obtain ⟨-, -, -, halone⟩ := h
  have hrect : u.rectOf f.e = none := by
    simp only [State.rectOf, htakes.regOf, ho, hrects, List.find?_nil, Option.map_none]
  have hcap := hfilled.captured
  have ha : wordOf f.x o.a % 65536 = y.opa.toNat % 65536 + 64 * y.sub := by
    rw [hcap.opa, word512_wordOf, hcap.sub, Nat.mul_zero, Nat.add_zero]
  obtain ⟨hloaded, hmore, -⟩ := performMxwld_loads hfilled.lt hfilled.slot hcap.stage hcap.held hfilled.edges (hbad y hcap) hown hrect ha
    (htakes.portFree halone rfl hport)
  have hlong : 64 * y.sub + 64 < blockBytes o := by
    rw [hcap.sub, blockBytes]
    split_ifs <;> decide
  refine ⟨_, hact, ⟨_, hmore hlong, hcap.stage, congrArg (· + 1) hcap.sub⟩, ?_⟩
  have hweight (b : Bool) : (u.elem f.e).weight b = (s.elem f.e).weight b := htakes.issued.keeps (Elem.weight · b) fun _ => rfl
  have hread : bankRead (u.elem f.e) (wordOf f.x o.a % 65536) 64 = bankRead (s.elem f.e) (wordOf f.x o.a % 65536) 64 := by
    rw [bankRead, htakes.bank, bankRead]
  obtain ⟨hquiet, hself, hother⟩ := hloaded
  rw [hcap.sub, hweight, hread] at hself
  exact ⟨htakes.quiet.trans hquiet, hself, hother.trans (hweight _)⟩

end

/-- What loading word 0 leaves of the register, in the words of the statement. -/
theorem WordLoaded.zero {s t : State} {e : Nat} {one : Bool} {v : VW} (h : WordLoaded s t e one 0 v) :
    ((t.elem e).weight one).toNat % 2 ^ 512 = v.toNat ∧
      ((t.elem e).weight one).toNat / 2 ^ 512 = ((s.elem e).weight one).toNat / 2 ^ 512 := by
  rw [h.self, replaceWord_toNat _ (by decide)]
  have hmod := setDigit_digit (i := 0) (w := ((s.elem e).weight one).toNat) (vw_toNat_lt v) 0
  have hdiv := setDigit_div (i := 0) (w := ((s.elem e).weight one).toNat) (vw_toNat_lt v)
  rw [Nat.pow_zero, Nat.div_one, if_pos rfl] at hmod
  rw [Nat.zero_add, Nat.pow_one] at hdiv
  exact ⟨hmod, hdiv⟩

end Sys2Proof.Machine
end

section
/-! SUPPORT. MXC and MXACC: the token of an MXC, and the first row that an MXACC sends and clears (R276, R470, R471). -/

namespace Sys2Proof.Machine

open Sys2Proof

/-! ### MXC (R276, R471) -/

section
variable {s : State} {t : TU} {o : FmtE} {f : Firing} {k : Nat} (h : ReadyIn s t f k)
include h

/-- An MXC that its unit takes is performed with its first word. -/
theorem exec_mxc_performed :
    ∃ s', exec (.mxc t o) s = .next s' ∧ Quiet s s' f.e ∧ Performed s' f.e k (.mxc t o) (word512 (pairOf f.x o.a % 2 ^ 32)) := by
  obtain ⟨u, y, hact, hfilled⟩ := exec_cmdIssue_acts h (g := fun f _ => (word512 (pairOf f.x o.a), 0, 0)) (i := .mxc t o) (perf := performMxc) rfl
    fun _ _ => rfl
  have hcap := hfilled.captured
  have hperf : performMxc f.e k u = u.performed f.e k (word512 (pairOf f.x o.a % 2 ^ 32)) := by
    simp only [performMxc, hfilled.slot, hcap.stage, hcap.held, hcap.opa, word512_pairOf, decide_true, Bool.not_false, Bool.and_self, if_true]
  rw [hperf] at hact
  exact ⟨_, hact, hfilled.performed (quiet_refl ..) rfl _⟩

end

/-- The token of an MXC. -/
def mxcOut (s : State) (e : Nat) (y : Slot) : OutTok :=
  ⟨(slotTU y).ol.toNat, ⟨.mxc, tagOf (slotTU y) y.tagq (s.view e), true, true, word512 (y.opa.toNat % 2 ^ 64), false⟩⟩

/-- What an MXC completes with. -/
def mxcEffect (s : State) (e k : Nat) (y : Slot) (d : Dst) : Effect :=
  { baseEffect (slotTU y) (some k) y.seq true with
    sregs := scalarWrite .n32 d (y.opa.toNat % 2 ^ 32), toks := [mxcOut s e y], fl := y.fl }

theorem State.finishMxc_eq {s : State} {e k : Nat} {y : Slot} (hy : s.slot e k = some y) (hr : Roomy s e) (d : Dst) :
    s.finishMxc e k d = s.setElem e { (s.elem e).apply (mxcEffect s e k y d) with lastDone := (s.cycle, y.seq + 1) } := by
  have heffect : s.finishMxc e k d = s.completeWith e (mxcEffect s e k y d) := by
    simp only [State.finishMxc, hy]
    rfl
  have hbare : (mxcEffect s e k y d).bare := ⟨rfl, rfl, rfl⟩
  have htoks : (mxcEffect s e k y d).toks.length ≤ 2 := Nat.le_succ 1
  rw [heffect, State.completeWith_roomy hr htoks, applyAll_bare hbare]
  rfl

/-- An MXC completes with its token on OL and its first word in D. -/
theorem exec_mxc_completes {s : State} {e k : Nat} {y : Slot} {t : TU} {o : FmtE} (hk : k < 8) (hy : s.slot e k = some y)
    (hm : s.mayFinish e k y = true) (hr : Roomy s e) (hins : y.ins = .mxc t o) :
    ∃ s', exec (.firingCompletion e k) s = .next s' ∧ OnlyElem s s' e ∧ s'.slot e k = none ∧
      (∀ n < 16, (s'.elem e).sreg n = destS ⟨.n32, false, [y.opa.toNat % 2 ^ 32], flNone⟩ o.d n ((s.elem e).sreg n)) ∧
      (s'.elem e).out = (s.elem e).out ++ [((s.elem e).nseq, mxcOut s e y)] := by
  have hfinish : s.finishFiring e k y = s.finishMxc e k o.d := by
    simp only [State.finishFiring, hins]
  rw [exec_firingCompletion hy hm, hfinish, State.finishMxc_eq hy hr]
  refine ⟨_, rfl, by simp [OnlyElem], ?_, fun n hn => ?_, ?_⟩
  · rw [State.slot, State.elem_setElem_self]
    exact (congrArg (vget · k none) (Elem.apply_slots (s.elem e) (mxcEffect s e k y o.d) rfl)).trans (vget_vset_self _ _ _ _ hk)
  · rw [State.elem_setElem_self]
    exact (Elem.sreg_congr (Elem.apply_s (s.elem e) (mxcEffect s e k y o.d)) n).trans
      (scalar_fold (s.elem e) .n32 o.d (y.opa.toNat % 2 ^ 32) n hn)
  · rw [State.elem_setElem_self]
    exact Elem.apply_out (s.elem e) (mxcEffect s e k y o.d)

/-! ### MXACC (R470) -/

/-- What the bank of an element holds once an MXACC has read a row, and has cleared it under CLR. -/
def clearedRow (b : List Host.Cell) (clr : Bool) (a : Nat) : List Host.Cell := if clr then Memory.write b a (List.replicate 64 0) else b

/-- An MXACC that finds the port of its bank free sends its next row, and clears it under CLR. -/
theorem performMxacc_row {s : State} {e k : Nat} {y : Slot} {o : FmtE} (hk : k < 8) (hy : s.slot e k = some y) (hstage : y.stage = 0)
    (hheld : y.held = false) (hedges : s.edgesMet e y = true) (hbad : mxaccBad y = none) {a : Nat}
    (ha : a = y.opc.toNat + 64 * (y.opa.toNat % 2 ^ 32 + y.prog)) (hport : PortFree s e 64 [a] (o.imm.toNat.testBit 7)) :
    let t := performMxacc o e k s
    t.mem = s.mem ∧ (t.elem e).bank = clearedRow (s.elem e).bank (o.imm.toNat.testBit 7) a ∧
      t.slot e k = some { y with prog := y.prog + 1, stage := if y.prog + 1 ≥ y.opb.toNat % 2 ^ 32 then 1 else 0 } := by
  intro t
  subst ha
  let clr := o.imm.toNat.testBit 7
  let a := y.opc.toNat + 64 * (y.opa.toNat % 2 ^ 32 + y.prog)
  let u := if clr then s.bankWrite e a (List.replicate 64 0) else s
  have hu : Rebanked s u e (clearedRow (s.elem e).bank clr a) := by
    unfold u clearedRow
    split_ifs
    · exact rebanked_bankWrite ..
    · exact rebanked_refl ..
  let z : Slot := { y with prog := y.prog + 1, stage := if y.prog + 1 ≥ y.opb.toNat % 2 ^ 32 then 1 else 0 }
  obtain ⟨toks, pack, c, ht⟩ : ∃ toks pack c, t = ((u.formTokens e k toks pack).setSlot e k z).portUsed e c :=
    ⟨_, _, _, (State.trySlot_acts hy hstage hheld hbad hedges _).trans (State.bankAccess_acts hport k _)⟩
  rw [ht]
  refine ⟨(Prod.ext_iff.1 hu.mems).1, ?_, ?_⟩
  · rw [State.bank_portUsed, State.bank_setSlot]
    exact hu.bank
  · exact (State.slot_portUsed ..).trans (State.slot_setSlot_self _ _ _ hk)

/-- An MXACC that its bank takes as it issues sends its first row, and clears it under CLR. -/
theorem exec_mxacc_row {s : State} {t : TU} {o : FmtE} {f : Firing} {k b : Nat} (h : ReadyIn s t f k) (hbase : f.x.accb = some b)
    (hn : wordOf f.x o.b ≠ 0) (hfit : b + 64 * (wordOf f.x o.a + wordOf f.x o.b) ≤ 65536)
    (hport : PortFree s f.e 64 [b + 64 * wordOf f.x o.a] (o.imm.toNat.testBit 7)) :
    ∃ s', exec (.mxacc t o) s = .next s' ∧ s'.mem = s.mem ∧
      (s'.elem f.e).bank = clearedRow (s.elem f.e).bank (o.imm.toNat.testBit 7) (b + 64 * wordOf f.x o.a) ∧
      ∃ y, s'.slot f.e k = some y ∧ y.prog = 1 ∧ y.stage = if wordOf f.x o.b = 1 then 1 else 0 := by
  have haccb : accbOf f.x = b := by rw [accbOf, hbase, Option.getD_some]
  have hok : (wordOf f.x o.b != 0 && decide (b + 64 * (wordOf f.x o.a + wordOf f.x o.b) ≤ 65536)) = true := by
    simp [hn, hfit]
  obtain ⟨fl, hfl⟩ := keepPlaces_eq (pimLabel o) (wordOf f.x o.b) f s
  have hkept : ReadyIn { s with flight := fl } t f k := h
  have hport' : PortFree { s with flight := fl } f.e 64 [b + 64 * wordOf f.x o.a] (o.imm.toNat.testBit 7) := hport
  obtain ⟨u, y, hact, hfilled⟩ := cmdIssue_acts hkept (.mxacc t o) (word512 (wordOf f.x o.a)) (word512 (wordOf f.x o.b)) (word512 b)
    (bad := mxaccBad) (fun y hy => mxaccBad_eq_none hy.opa hy.opb hy.opc hn hfit) (performMxacc o)
  have htakes := hfilled.takes
  have hcap := hfilled.captured
  have hb : (word512 b).toNat = b := word512_toNat (by omega)
  have ha : b + 64 * wordOf f.x o.a = y.opc.toNat + 64 * (y.opa.toNat % 2 ^ 32 + y.prog) := by
    rw [hcap.opc, hb, hcap.opa, word512_wordOf, Nat.mod_eq_of_lt (wordOf_lt ..), hcap.prog, Nat.add_zero]
  obtain ⟨hmem, hbank, hslot⟩ := performMxacc_row (o := o) hfilled.lt hfilled.slot hcap.stage hcap.held hfilled.edges
    (mxaccBad_eq_none hcap.opa hcap.opb hcap.opc hn hfit) ha (htakes.portFree hkept.2.2.2 rfl hport')
  have hexec : exec (.mxacc t o) s = .next (performMxacc o f.e k u) := by
    refine Eq.trans ?_ (congrArg Host.Outcome.next hact)
    rw [← hfl]
    refine congrArg Host.Outcome.next ((State.fire_ordinary h.1 ..).trans ?_)
    simp only [haccb, hok, if_true]
  refine ⟨_, hexec, hmem.trans htakes.quiet.mem.1, hbank.trans (by rw [htakes.bank]; rfl), _, hslot, by rw [hcap.prog], ?_⟩
  rw [hcap.prog, hcap.opb, word512_wordOf, Nat.mod_eq_of_lt (wordOf_lt ..)]
  exact if_congr (by omega) rfl rfl

theorem matrixTokens : Claims.MatrixTokens := by
  refine ⟨fun s e k y t o hk hy hm hr hins => exec_mxc_completes hk hy hm hr hins, fun s t o f k b h hbase => ?_⟩
  intro x row n a clr hn hfit hport
  obtain ⟨s', hexec, hmem, hbank, hslot⟩ := exec_mxacc_row h hbase hn hfit hport
  refine ⟨s', hexec, hmem, hslot, fun hclr => ?_, fun hclr => ?_⟩
  · rw [hbank, clearedRow, if_pos hclr]
    exact stored_write ..
  · exact hbank.trans (if_neg (Bool.eq_false_iff.1 hclr))

/-! ### The commands (R270 to R276, R470 to R477) -/

theorem matrixCommands : Claims.MatrixCommands := by
  intro s t o f k rn r h hn hr ho d g
  refine ⟨fun q hq => ?enter, exec_leave_none h ho, fun m hrects hregs hplaced hholds hnode hquiet =>
    exec_leave_ends h hr ho hrects hregs hplaced hholds hnode hquiet, ?mxwld, exec_mxc_performed h⟩
  case enter =>
    have hexec : exec (q.1 t o) s = .next (s.fire (q.1 t o) t (mxEnter (q.1 t o) o q.2)) := by
      simp only [List.mem_cons, List.not_mem_nil, or_false] at hq
      rcases hq with rfl | rfl
      · rfl
      · rfl
    exact ⟨fun hbad hms => exec_enter_enters h hr ho hexec hbad hms, fun hbad => exec_enter_raises h hexec hbad⟩
  case mxwld =>
    intro a n x hown hrects haln hfit hport
    obtain ⟨s', hexec, hslot, hloaded⟩ := exec_mxwld_loads h ho hown hrects haln hfit hport
    obtain ⟨hmod, hdiv⟩ := hloaded.zero
    have hother := hloaded.other
    rw [Elem.weight_not, Elem.weight_not] at hother
    exact ⟨s', hexec, hloaded.quiet, hslot, hmod.trans (bankRead_word ..), hdiv, hother⟩

/-- Settles O34: a command that its unit takes acts as it issues, on the rectangle, the weights or the bank as they stood before. -/
theorem matrixOperations : Obligations.MatrixOperations := ⟨matrixCommands, weightLoads, matrixTokens⟩

end Sys2Proof.Machine
end

section
/-! SUPPORT. The node of a rectangle: the token at the head of its queue, and SWAPW, FLUSH and MMA as it takes them (R275 to R277, R369). -/

namespace Sys2Proof.Machine

open Sys2Proof

/-! ### Parts of a region -/

section
variable {s : State} {rn n : Nat} {r : Region} {m : Rect} (h : s.partAt rn n = some (r, m))
include h

theorem State.partAt_spec : s.region rn = some r ∧ r.phase = .running ∧ r.rects[n]? = some m := by
  unfold State.partAt at h
  split at h
  · cases h
  · rename_i g hg
    split_ifs at h with hphase
    obtain ⟨z, hz, heq⟩ := Option.map_eq_some_iff.1 h
    cases heq
    exact ⟨hg, eq_of_beq hphase, hz⟩

theorem State.region_of_partAt : s.region rn = some r := (State.partAt_spec h).1

/-- A state in which the region stands the same has the same part. -/
theorem State.partAt_of_region {t : State} (ht : t.region rn = some r) : t.partAt rn n = some (r, m) := by
  unfold State.partAt at h ⊢
  rw [ht]
  rwa [State.region_of_partAt h] at h

/-- A part that is what it was leaves its region. -/
theorem Region.set_part_self : ({ r with rects := r.rects.set n m } : Region) = r := by
  have hset : r.rects.set n m = r.rects := by
    obtain ⟨hn, hm⟩ := List.getElem?_eq_some_iff.1 (State.partAt_spec h).2.2
    rw [← hm, List.set_getElem_self]
  rw [hset]

end

theorem State.setRect_eq {s : State} {rn : Nat} {r : Region} (h : s.region rn = some r) (n : Nat) (m : Rect) :
    s.setRect rn n m = s.setRegion rn { r with rects := r.rects.set n m } := State.modRegion_of_region h _

theorem State.region_setRect {s : State} {rn : Nat} {r : Region} (h : s.region rn = some r) (n : Nat) (m : Rect) :
    (s.setRect rn n m).region rn = some { r with rects := r.rects.set n m } := by
  rw [State.setRect_eq h, State.region_setRegion_self]

theorem State.body_setRect (s : State) (rn n : Nat) (m : Rect) : (s.setRect rn n m).body = s.body := State.body_modRegion ..

/-- What does not look at the regions stands after a change of them. -/
theorem State.of_body {γ : Type} (g : State → γ) (hg : ∀ s : State, g s.body = g s) {s t : State} (h : t.body = s.body) : g t = g s :=
  (hg t).symm.trans ((congrArg g h).trans (hg s))

theorem State.elem_setRect (s : State) (rn n e : Nat) (m : Rect) : (s.setRect rn n m).elem e = s.elem e :=
  State.of_body (State.elem · e) (fun _ => rfl) (State.body_setRect ..)

/-! ### The head of the node's queue (R275, R277) -/

section
variable {s : State} {r : Region} {m : Rect} {rn : Nat} {mops : Nat → Bool} {act : Nat → State → State}

theorem State.nodeTake_none (h : s.standing (r.rectElem m 0 0) m.mq = none) : s.nodeTake rn r m mops act = s := by
  simp only [State.nodeTake, h]

variable {u : Token} (hu : s.standing (r.rectElem m 0 0) m.mq = some u)
include hu

/-- A good token of a command that the node takes now is taken. -/
theorem State.nodeTake_takes (hkind : u.kind = .mxc) (hgood : s.mxcBad r m (u.pay.toNat % 2 ^ 64) = false)
    (hmop : mops (u.pay.toNat % 2 ^ 64 % 2 ^ 32 / 2 ^ 28) = true) (hforming : r.forming = none) :
    s.nodeTake rn r m mops act = act (u.pay.toNat % 2 ^ 64) s := by
  simp only [State.nodeTake, hu, hkind, hgood, hmop, hforming]
  simp

/-- A token of another kind, or a bad one, goes and raises MXF at the node. -/
theorem State.nodeTake_fails (hbad : u.kind ≠ .mxc ∨ s.mxcBad r m (u.pay.toNat % 2 ^ 64) = true) :
    s.nodeTake rn r m mops act = ((s.nodeDequeue r m).failNode rn (r.rectElem m 0 0)) := by
  simp only [State.nodeTake, hu]
  rw [if_pos (by simpa using hbad)]
  rfl

end

theorem State.queue_nodeDequeue (s : State) (r : Region) {m : Rect} (hmq : m.mq < 32) :
    ((s.nodeDequeue r m).elem (r.rectElem m 0 0)).queue m.mq = ((s.elem (r.rectElem m 0 0)).queue m.mq).tail := by
  rw [State.nodeDequeue, State.modElem_eq, State.elem_setElem_self, Elem.queue_dequeue_self _ hmq]

/-- What an MXF of a node leaves: its elements, and a fault that holds nothing. -/
theorem State.failNode_raises (s : State) (rn e : Nat) :
    (s.failNode rn e).elems = s.elems ∧ ∃ f ∈ (s.failNode rn e).pend, f.at_ = .none ∧ f.frec.code = 0x0D ∧ f.frec.elid = e := by
  refine ⟨rfl, _, List.mem_append_right _ (List.mem_singleton_self _), rfl, ?_⟩
  obtain ⟨hcode, helid, -⟩ := s.faultRec_src
    { code := 0x0D, src := 0, reg := rn, elid := e, tix := 0, slot := 0, addr := 0, opc := 0, word := 0, prog := 0, at_ := .none }
  exact ⟨hcode, helid⟩

/-! ### SWAPW and FLUSH (R277) -/

section
variable {s : State} {rn n : Nat} {r : Region} {m : Rect} (h : s.partAt rn n = some (r, m)) (hmq : m.mq < 32) {u : Token} {us : List Token}
  (hq : (s.elem (r.rectElem m 0 0)).queue m.mq = u :: us) (hu : s.standing (r.rectElem m 0 0) m.mq = some u)
include h hmq hq hu

section
variable (hbad : u.kind ≠ .mxc ∨ s.mxcBad r m (u.pay.toNat % 2 ^ 64) = true)
include hbad

omit h in
theorem nodeTake_raises (mops : Nat → Bool) (act : Nat → State → State) :
    let t := s.nodeTake rn r m mops act
    (t.elem (r.rectElem m 0 0)).queue m.mq = us ∧ ∃ f ∈ t.pend, f.at_ = .none ∧ f.frec.code = 0x0D ∧ f.frec.elid = r.rectElem m 0 0 := by
  intro t
  have ht : t = (s.nodeDequeue r m).failNode rn (r.rectElem m 0 0) := State.nodeTake_fails hu hbad
  obtain ⟨helems, hpend⟩ := (s.nodeDequeue r m).failNode_raises rn (r.rectElem m 0 0)
  rw [ht]
  refine ⟨?_, hpend⟩
  rw [State.elem_congr helems, State.queue_nodeDequeue s r hmq, hq, List.tail_cons]

/-- Both commands' steps find a bad token at the head. -/
theorem exec_bad_token : ∀ i ∈ ([.swapw rn n, .flush rn n] : List Instr), ∃ s', exec i s = .next s' ∧
    (s'.elem (r.rectElem m 0 0)).queue m.mq = us ∧ ∃ f ∈ s'.pend, f.at_ = .none ∧ f.frec.code = 0x0D ∧ f.frec.elid = r.rectElem m 0 0 := by
  have hswapw : exec (.swapw rn n) s = execSwapw rn n s := rfl
  have hflush : exec (.flush rn n) s = execFlush rn n s := rfl
  intro i hi
  simp only [List.mem_cons, List.not_mem_nil, or_false] at hi
  rcases hi with rfl | rfl
  · rw [hswapw, execSwapw, h]
    exact ⟨_, rfl, nodeTake_raises hmq hq hu hbad _ _⟩
  · rw [hflush, execFlush, h]
    exact ⟨_, rfl, nodeTake_raises hmq hq hu hbad _ _⟩

end

section
variable (hkind : u.kind = .mxc) (hgood : s.mxcBad r m (u.pay.toNat % 2 ^ 64) = false) (hforming : r.forming = none)
include hkind hgood hforming

section
variable (hidle : m.busy s.cycle = false)
include hidle

/-- What a SWAPW makes of an element of its rectangle. -/
def swapElem (_ : Nat) (x : Elem) : Elem := { x with w1Active := !x.w1Active }

theorem exec_swapw_swaps (hmop : u.pay.toNat % 2 ^ 64 % 2 ^ 32 / 2 ^ 28 = 1) (hnodup : (r.rectElems m).Nodup) :
    ∃ s', exec (.swapw rn n) s = .next s' ∧ (s'.elem (r.rectElem m 0 0)).queue m.mq = us ∧
      ∀ g ∈ r.rectElems m, (s'.elem g).w1Active = !(s.elem g).w1Active ∧ (s'.elem g).w0 = (s.elem g).w0 ∧ (s'.elem g).w1 = (s.elem g).w1 := by
  have hexec : exec (.swapw rn n) s = .next ((s.nodeDequeue r m).modElems (r.rectElems m) swapElem) := by
    have hdef : exec (.swapw rn n) s = execSwapw rn n s := rfl
    rw [hdef, execSwapw, h]
    exact congrArg Host.Outcome.next (State.nodeTake_takes hu hkind hgood (by rw [hmop, hidle]; rfl) hforming)
  have hkeep {γ : Type} (g : Elem → γ) (hg : ∀ (x : Elem) qs, g { x with queues := qs } = g x) (d : Nat) :
      g ((s.nodeDequeue r m).elem d) = g (s.elem d) := State.elem_setElem_keep g (hg ..) d
  refine ⟨_, hexec, ?_, fun g hg => ?_⟩
  · rw [State.elem_modElems_keep _ _ swapElem (fun x : Elem => x.queue m.mq) fun _ _ => rfl, State.queue_nodeDequeue s r hmq, hq, List.tail_cons]
  · rw [State.elem_modElems_of_nodup _ _ hnodup hg]
    exact ⟨congrArg not (hkeep Elem.w1Active (fun _ _ => rfl) g), hkeep Elem.w0 (fun _ _ => rfl) g, hkeep Elem.w1 (fun _ _ => rfl) g⟩

/-- A part that has taken a FLUSH. -/
def Rect.owing (m : Rect) (p : Nat) : Rect := { m with flush := m.flush ++ (List.range m.w).map fun c => (c, p / 2 ^ 32 % 16) }

theorem exec_flush_owes (hmop : u.pay.toNat % 2 ^ 64 % 2 ^ 32 / 2 ^ 28 = 2) :
    ∃ s', exec (.flush rn n) s = .next s' ∧ (s'.elem (r.rectElem m 0 0)).queue m.mq = us ∧
      s'.region rn = some { r with rects := r.rects.set n (m.owing (u.pay.toNat % 2 ^ 64)) } := by
  have hdef : exec (.flush rn n) s = execFlush rn n s := rfl
  rw [hdef, execFlush, h]
  refine ⟨_, congrArg Host.Outcome.next (State.nodeTake_takes hu hkind hgood (by rw [hmop, hidle]; rfl) hforming), ?_, ?_⟩
  · rw [State.elem_setRect, State.queue_nodeDequeue s r hmq, hq, List.tail_cons]
  · exact State.region_setRect (s := s.nodeDequeue r m) (State.region_of_partAt h) ..

end

end

end

end Sys2Proof.Machine
end

section
/-! SUPPORT. MMA: the node that takes one, and the run that has ended (R276, R369). -/

namespace Sys2Proof.Machine

open Sys2Proof

/-! ### MMA at the node (R276, R369) -/

/-- A rectangle that no MMA, vector or last row keeps is quiet. -/
theorem Rect.busy_still {m : Rect} {cycle : Nat} (hmma : m.mma = none) (hwaves : m.waves = []) (hdone : m.done ≤ cycle) : m.busy cycle = false := by
  simp [Rect.busy, hmma, hwaves, hdone.not_gt]

/-- A part that has taken the first MMA of a run. -/
def Rect.started (m : Rect) (p cycle : Nat) : Rect :=
  { m with mma := some (BitVec.ofNat 64 p, 0), moved := cycle + 1, cut := 3, since := cycle }

section
variable {s : State} {rn n : Nat} {r : Region} {m : Rect} (h : s.partAt rn n = some (r, m))
include h

/-- A rectangle that no vector is in or enters does not move. -/
theorem State.movePass_none {supply : Bool} (hmoving : m.moving supply = []) : s.movePass rn n supply = s := by
  simp only [State.movePass, h, hmoving, List.isEmpty_nil, if_true]

/-- An MMA's step, unless its run has ended, moves the pass and offers the head of the queue. -/
theorem exec_mma_eq (hrun : m.cut ≠ 3 ∨ m.busy s.cycle = true) (hmoved : m.moved ≠ s.cycle + 1) :
    exec (.mma rn n) s = .next ((s.movePass rn n true).nodeTake rn r m (fun k => k = 0 && m.mma.isNone) fun p s => s.acceptMma rn n p) := by
  have hdef : exec (.mma rn n) s = execMma rn n s := rfl
  have hrun' : (decide (m.cut = 3) && !m.busy s.cycle) = false := by
    rcases hrun with hcut | hbusy
    · simp [hcut]
    · simp [hbusy]
  have hne : (m.moved != s.cycle + 1) = true := bne_iff_ne.2 hmoved
  rw [hdef, execMma, h]
  simp only [hrun', Bool.false_eq_true, if_false, hmoved, hne, Bool.and_true]

section
variable (hidle : m.busy s.cycle = false)
include hidle

theorem State.acceptMma_of_cut (p : Nat) (hcut : m.cut = 2) :
    s.acceptMma rn n p = (s.nodeDequeue r m).setRect rn n (m.started p s.cycle) := by
  simp only [State.acceptMma, h, hcut, hidle, decide_true, Bool.or_true, if_true, Bool.false_eq_true, if_false]
  rfl

theorem State.acceptMma_of_no_cut (p : Nat) (hcut : m.cut = 0) :
    s.acceptMma rn n p = (s.setRect rn n { m with cut := 1 }).askCut (some rn) := by
  have hno : (m.busy s.cycle || decide (m.cut = 2)) = false := by simp [hidle, hcut]
  simp only [State.acceptMma, h, hno, Bool.false_eq_true, if_false]
  rw [if_pos hcut]

/-- A run that has ended asks for its second forced cut. -/
theorem exec_mma_ends (hcut : m.cut = 3) :
    ∃ s', exec (.mma rn n) s = .next s' ∧ s'.elems = s.elems ∧
      s'.region rn = some { r with rects := r.rects.set n { m with cut := 0 }, cutReq := true, irr := true } := by
  have hdef : exec (.mma rn n) s = execMma rn n s := rfl
  have hended : (decide (m.cut = 3) && !m.busy s.cycle) = true := by simp [hcut, hidle]
  have hset := State.region_setRect (State.region_of_partAt h) n { m with cut := 0 }
  rw [hdef, execMma, h]
  simp only [hended, if_true]
  refine ⟨_, rfl, State.of_body State.elems (fun _ => rfl) ((State.body_askSecond ..).trans (State.body_setRect ..)), ?_⟩
  rw [State.askSecond, State.modRegion_of_region hset, State.region_setRegion_self]

section
variable (hmq : m.mq < 32) {u : Token} {us : List Token} (hq : (s.elem (r.rectElem m 0 0)).queue m.mq = u :: us)
  (hu : s.standing (r.rectElem m 0 0) m.mq = some u) (hkind : u.kind = .mxc) (hgood : s.mxcBad r m (u.pay.toNat % 2 ^ 64) = false)
  (hforming : r.forming = none) (hmma : m.mma = none) (hwaves : m.waves = []) (hmop : u.pay.toNat % 2 ^ 64 % 2 ^ 32 / 2 ^ 28 = 0)
  (hmoved : m.moved ≠ s.cycle + 1)
include hu hkind hgood hforming hmma hwaves hmop hmoved

omit hidle in
theorem exec_mma_offers (hcut : m.cut ≠ 3) : exec (.mma rn n) s = .next (s.acceptMma rn n (u.pay.toNat % 2 ^ 64)) := by
  have hmoving : m.moving true = [] := by simp [Rect.moving, hmma, hwaves]
  rw [exec_mma_eq h (.inl hcut) hmoved, State.movePass_none h hmoving]
  exact congrArg Host.Outcome.next (State.nodeTake_takes hu hkind hgood (by rw [hmop, hmma]; rfl) hforming)

include hmq hq in
/-- The first MMA of a run is taken once the run's forced cut has been. -/
theorem exec_mma_takes (hcut : m.cut = 2) :
    ∃ s', exec (.mma rn n) s = .next s' ∧ (s'.elem (r.rectElem m 0 0)).queue m.mq = us ∧
      s'.region rn = some { r with rects := r.rects.set n (m.started (u.pay.toNat % 2 ^ 64) s.cycle) } := by
  refine ⟨_, exec_mma_offers h hu hkind hgood hforming hmma hwaves hmop hmoved (by rw [hcut]; decide), ?_⟩
  rw [State.acceptMma_of_cut h hidle _ hcut]
  refine ⟨?_, State.region_setRect (s := s.nodeDequeue r m) (State.region_of_partAt h) ..⟩
  rw [State.elem_setRect, State.queue_nodeDequeue s r hmq, hq, List.tail_cons]

/-- It asks for the forced cut first. -/
theorem exec_mma_asks (hcut : m.cut = 0) :
    ∃ s', exec (.mma rn n) s = .next s' ∧ s'.elems = s.elems ∧
      s'.region rn = some { r with rects := r.rects.set n { m with cut := 1 }, cutReq := true } := by
  have hset := State.region_setRect (State.region_of_partAt h) n { m with cut := 1 }
  refine ⟨_, exec_mma_offers h hu hkind hgood hforming hmma hwaves hmop hmoved (by rw [hcut]; decide), ?_⟩
  rw [State.acceptMma_of_no_cut h hidle _ hcut]
  refine ⟨State.of_body State.elems (fun _ => rfl) ((State.body_askCut ..).trans (State.body_setRect ..)), ?_⟩
  rw [State.askCut, State.modRegion_of_region hset, State.region_setRegion_self]

end

end

end

end Sys2Proof.Machine
end

section
/-! SUPPORT. A vector of a matrix pass: the activations that a row supplies, the sums of the elements it reaches, and the accumulator row that
it writes (R278 to R280). -/

namespace Sys2Proof.Machine

open Sys2Proof

/-! ### What a pass leaves -/

theorem State.view_setElem (s : State) (e d : Nat) (x : Elem) : (s.setElem e x).view d = s.view d := by
  by_cases hd : d = e
  · subst hd
    exact State.view_setElem_self ..
  · have hfind : SMap.find d (s.setElem e x).starts = SMap.find d s.starts := by
      unfold State.setElem
      dsimp only
      split
      · rfl
      · exact SMap.find_set_ne hd ..
    rw [State.view, State.view, hfind, State.elem_setElem_ne s hd]

/-- In t the cycle's start, what has arrived and the regions are those of s, and no queue has changed. -/
structure Passed (s t : State) : Prop where
  regions : t.regions = s.regions
  cycle : t.cycle = s.cycle
  arrived : t.arrived = s.arrived
  view : ∀ e, t.view e = s.view e
  queue : ∀ e q, (t.elem e).queue q = (s.elem e).queue q

theorem passed_refl (s : State) : Passed s s := ⟨rfl, rfl, rfl, fun _ => rfl, fun _ _ => rfl⟩

theorem Passed.trans {s t u : State} (h : Passed s t) (h' : Passed t u) : Passed s u where
  regions := h'.regions.trans h.regions
  cycle := h'.cycle.trans h.cycle
  arrived := h'.arrived.trans h.arrived
  view e := (h'.view e).trans (h.view e)
  queue e q := (h'.queue e q).trans (h.queue e q)

theorem passed_setElem {s : State} {e : Nat} {x : Elem} (hx : x.queues = (s.elem e).queues) : Passed s (s.setElem e x) where
  regions := rfl
  cycle := rfl
  arrived := rfl
  view _ := State.view_setElem ..
  queue d q := State.elem_setElem_keep (Elem.queue · q) (congrArg (vget · q []) hx) d

theorem passed_testWatches (s : State) (a n : Nat) : Passed s (s.testWatches a n) where
  regions := State.testWatches_keep State.regions (fun _ _ _ => rfl) ..
  cycle := State.testWatches_keep State.cycle (fun _ _ _ => rfl) ..
  arrived := State.testWatches_keep State.arrived (fun _ _ _ => rfl) ..
  view _ := State.testWatches_keep (State.view · _) (fun _ _ _ => State.view_setElem ..) ..
  queue _ q := State.elem_testWatches_keep (Elem.queue · q) (fun _ _ => rfl) ..

theorem passed_tested {s : State} {e : Nat} {x : Elem} (hx : x.queues = (s.elem e).queues) (a n : Nat) :
    Passed s ((s.setElem e x).testWatches a n) := (passed_setElem hx).trans (passed_testWatches ..)

theorem passed_bankTake {s : State} {e : Nat} (a n : Nat) {y : Elem} (hy : y.queues = (s.elem e).queues) : Passed s (s.bankTake e a n y) := by
  have hdirty (ds : List Nat) : ({ y with dirty := ds } : Elem).queues = (s.elem e).queues := hy
  unfold State.bankTake
  dsimp only
  split
  · split
    · exact passed_tested (hdirty _) ..
    · exact passed_setElem (hdirty _)
  · exact passed_tested hy ..
  · exact passed_setElem hy

/-- The head that stood before a pass moved stands after it. -/
theorem Passed.standing {s t : State} (h : Passed s t) (e q : Nat) : t.standing e q = s.standing e q := by
  simp only [State.standing, h.view, h.queue, h.arrived]

/-! ### A bank of a pass (R281) -/

/-- The element of the south edge in a column. -/
def Region.southElem (r : Region) (m : Rect) (c : Nat) : Nat := r.rectElem m c (m.h - 1)

/-- What a vector reads of the bank of the row that supplies it is filled, and what it writes of a column's. -/
def State.westFilled (s : State) (r : Region) (m : Rect) (v : Wave) : Prop :=
  unfilled (s.elem (r.rectElem m 0 v.step)) [mmaBase v.tok + 32 * v.m, mmaBase v.tok + 32 * v.m + 31] = []
def State.southFilled (s : State) (r : Region) (m : Rect) (j c : Nat) : Prop :=
  unfilled (s.elem (r.southElem m c)) [m.accb + 64 * j, m.accb + 64 * j + 63] = []

theorem State.fillFor_filled {s : State} {e a n : Nat} (h : unfilled (s.elem e) [a, a + (n - 1)] = []) : s.fillFor e a n = s := by
  rw [State.fillFor, h, List.foldl_nil]

/-- What the port has no part in stands when it is taken. -/
theorem State.elem_takePort_keep {γ : Type} (g : Elem → γ) (hg : ∀ (x : Elem) p, g { x with portAt := p } = g x) (s : State) (e d : Nat) :
    g ((s.takePort e).elem d) = g (s.elem d) := State.elem_setElem_keep g (hg ..) d

theorem passed_takePort (s : State) (e : Nat) : Passed s (s.takePort e) := passed_setElem rfl

theorem State.unfilled_takePort (s : State) (e d : Nat) (as : List Nat) : unfilled ((s.takePort e).elem d) as = unfilled (s.elem d) as :=
  State.elem_takePort_keep (unfilled · as) (fun _ _ => rfl) s e d

/-! ### The activations that a row supplies (R278) -/

/-- The activations that the west element of a row reads from its bank. -/
def State.bankAct (s : State) (r : Region) (m : Rect) (v : Wave) : BitVec 256 :=
  BitVec.ofNat 256 (natLE (Memory.read (s.elem (r.rectElem m 0 v.step)).bank (mmaBase v.tok + 32 * v.m) 32))

/-- A state and a vector once the next row has supplied the vector from its bank; past the last row none does. -/
def State.fed (s : State) (r : Region) (m : Rect) (v : Wave) : State := if v.step < m.h then s.takePort (r.rectElem m 0 v.step) else s
def Wave.fed (v : Wave) (s : State) (r : Region) (m : Rect) : Wave :=
  if v.step < m.h then { v with acts := v.acts ++ [s.bankAct r m v] } else v

section
variable (s : State) (r : Region) (m : Rect) (v : Wave)

theorem Wave.fed_tok : (v.fed s r m).tok = v.tok := by unfold Wave.fed; split_ifs <;> rfl
theorem Wave.fed_m : (v.fed s r m).m = v.m := by unfold Wave.fed; split_ifs <;> rfl
theorem Wave.fed_step : (v.fed s r m).step = v.step := by unfold Wave.fed; split_ifs <;> rfl
theorem Wave.fed_sums : (v.fed s r m).sums = v.sums := by unfold Wave.fed; split_ifs <;> rfl
theorem Wave.fed_acts : (v.fed s r m).acts = if v.step < m.h then v.acts ++ [s.bankAct r m v] else v.acts := by
  unfold Wave.fed; split_ifs <;> rfl

/-- What the port has no part in stands when a row has supplied a vector. -/
theorem State.elem_fed_keep {γ : Type} (g : Elem → γ) (hg : ∀ (x : Elem) p, g { x with portAt := p } = g x) (d : Nat) :
    g ((s.fed r m v).elem d) = g (s.elem d) := by
  unfold State.fed
  split_ifs
  · exact State.elem_takePort_keep g hg ..
  · rfl

theorem passed_fed : Passed s (s.fed r m v) := by
  unfold State.fed
  split_ifs
  · exact passed_takePort ..
  · exact passed_refl _

end

/-! ### The sums of the elements that a vector reaches (R279) -/

/-- The number that an element's weights in use are. -/
def Elem.activeWeights (x : Elem) : Nat := (if x.w1Active then x.w1 else x.w0).toNat

/-- A vector's sums after its next step, column by column. -/
def State.waveSums (s : State) (r : Region) (m : Rect) (v : Wave) : List W32 :=
  (List.range m.w).flatMap fun c =>
    if c ≤ v.step && v.step - c < m.h then s.cellSums r m v c (v.step - c) else (List.range 16).map fun n => v.sums.getD (16 * c + n) 0

/-- Sum i of column c after a vector's next step: the element it reaches in the column adds its products, in any other the sum stands. -/
def State.waveSum (s : State) (r : Region) (m : Rect) (v : Wave) (acts : List (BitVec 256)) (c i : Nat) : W32 :=
  if c ≤ v.step ∧ v.step - c < m.h then
    mxSum (mmaFmt v.tok) (acts.getD (v.step - c) 0).toNat (s.elem (r.rectElem m c (v.step - c))).activeWeights i (v.sums.getD (16 * c + i) 0)
  else v.sums.getD (16 * c + i) 0

/-- Entry i of row c of a table written row by row. -/
theorem getD_flatMap_range {α : Type} (f : Nat → Nat → α) {k w c i : Nat} (hc : c < w) (hi : i < k) (d : α) :
    ((List.range w).flatMap fun c => (List.range k).map (f c)).getD (k * c + i) d = f c i := by
  induction w with
  | zero => omega
  | succ w ih =>
    have hlen : ((List.range w).flatMap fun c => (List.range k).map (f c)).length = k * w := by
      simp [List.length_flatMap, Nat.mul_comm]
    rw [List.range_succ, List.flatMap_append, List.flatMap_singleton]
    rcases Nat.lt_succ_iff_lt_or_eq.1 hc with hlt | rfl
    · have hin : k * c + i < k * w := by nlinarith
      rw [List.getD_append _ _ _ _ (by rwa [hlen]), ih hlt]
    · rw [List.getD_append_right _ _ _ _ (by rw [hlen]; omega), hlen, Nat.add_sub_cancel_left]
      simp [List.getD, hi]

theorem State.waveSums_getD (s : State) (r : Region) (m : Rect) (v : Wave) {c i : Nat} (hc : c < m.w) (hi : i < 16) :
    (s.waveSums r m v).getD (16 * c + i) 0 = s.waveSum r m v v.acts c i := by
  have htable : s.waveSums r m v = (List.range m.w).flatMap fun c => (List.range 16).map (s.waveSum r m v v.acts c) := by
    unfold State.waveSums
    congr 1
    funext c
    unfold State.waveSum
    by_cases hreach : c ≤ v.step ∧ v.step - c < m.h
    · simp only [hreach, and_self, decide_true, Bool.and_self, if_true]
      rfl
    · have hreach' : (decide (c ≤ v.step) && decide (v.step - c < m.h)) = false := by simpa using hreach
      simp only [hreach, hreach', Bool.false_eq_true, if_false]
  rw [htable, getD_flatMap_range _ hc hi]

/-! ### The accumulator row that a vector writes (R280) -/

/-- The lanes of an accumulator row once a vector's sums are written or added. -/
def accLanes (acc : Bool) (old : List Nat) (sum : Nat → W32) : List Nat :=
  (List.range 16).map fun i =>
    let p := (sum i).toNat
    if acc then (roundVal .f32 .rne false (addVal .rne (readFloat .f32 (old.getD i 0)) (readFloat .f32 p)).1).1 else p

theorem accLanes_congr (acc : Bool) (old : List Nat) {f g : Nat → W32} (h : ∀ i < 16, f i = g i) : accLanes acc old f = accLanes acc old g :=
  List.map_congr_left fun i hi => by simp only [h i (List.mem_range.1 hi)]

theorem State.accRow_filled {s : State} {r : Region} {m : Rect} {j c : Nat} (acc : Bool) (sums : List W32)
    (hfull : s.southFilled r m j c) :
    let e := r.southElem m c
    let a := m.accb + 64 * j
    let t := s.accRow r m acc j c sums
    Passed s t ∧ (t.elem e).bank = Memory.write (s.elem e).bank a
      (bytesLE 64 (packLanes .f32 (accLanes acc (lanesOf .f32 (bankRead (s.elem e) a 64)) fun i => sums.getD (16 * c + i) 0)).toNat) := by
  intro e a t
  let u := s.takePort e
  have hbank : (u.elem e).bank = (s.elem e).bank := State.elem_takePort_keep Elem.bank (fun _ _ => rfl) s e e
  let bs := bytesLE 64 (packLanes .f32 (accLanes acc (lanesOf .f32 (bankRead (u.elem e) a 64)) fun i => sums.getD (16 * c + i) 0)).toNat
  have ht : t = u.bankTake e a 64 { u.elem e with bank := Memory.write (u.elem e).bank a bs } := by
    have hfill : (s.takePort (r.rectElem m c (m.h - 1))).fillFor (r.rectElem m c (m.h - 1)) (m.accb + 64 * j) 64 = u :=
      State.fillFor_filled ((State.unfilled_takePort ..).trans hfull)
    unfold t State.accRow
    dsimp only
    rw [hfill]
    rfl
  have hread : bankRead (u.elem e) a 64 = bankRead (s.elem e) a 64 := by rw [bankRead, bankRead, hbank]
  refine ⟨?_, ?_⟩
  · rw [ht]
    exact (passed_takePort s e).trans (passed_bankTake (s := u) a 64 rfl)
  · rw [ht, State.elem_bankTake_keep Elem.bank (fun _ _ => rfl) fun _ _ => rfl, ← hread, ← hbank]

/-! ### A vector's step (R278 to R280) -/

/-- A vector after a step in which its row, if it has come to one, supplies it from its bank. -/
def Wave.moved (v : Wave) (s : State) (r : Region) (m : Rect) : Wave :=
  { v.fed s r m with step := v.step + 1, sums := (s.fed r m v).waveSums r m (v.fed s r m) }

section
variable (s : State) (r : Region) (m : Rect) (v : Wave)

theorem Wave.moved_tok : (v.moved s r m).tok = v.tok := Wave.fed_tok ..
theorem Wave.moved_m : (v.moved s r m).m = v.m := Wave.fed_m ..
theorem Wave.moved_step : (v.moved s r m).step = v.step + 1 := rfl
theorem Wave.moved_acts : (v.moved s r m).acts = if v.step < m.h then v.acts ++ [s.bankAct r m v] else v.acts := Wave.fed_acts ..

end

section
variable {s : State} {r : Region} {m : Rect} {v : Wave} (hbank : mmaBank v.tok = true)
  (hfull : v.step < m.h → s.westFilled r m v)
include hbank hfull

theorem State.supply_bank (hrow : v.step < m.h) : s.supply r m v = (s.takePort (r.rectElem m 0 v.step), s.bankAct r m v) := by
  have hfill : (s.takePort (r.rectElem m 0 v.step)).fillFor (r.rectElem m 0 v.step) (mmaBase v.tok + 32 * v.m) 32 =
      s.takePort (r.rectElem m 0 v.step) := State.fillFor_filled ((State.unfilled_takePort ..).trans (hfull hrow))
  have hread : ((s.takePort (r.rectElem m 0 v.step)).elem (r.rectElem m 0 v.step)).bank = (s.elem (r.rectElem m 0 v.step)).bank :=
    State.elem_takePort_keep Elem.bank (fun _ _ => rfl) ..
  rw [State.supply, if_pos hbank]
  simp only [hfill, hread]
  rfl

theorem State.moveWave_bank : s.moveWave r m v =
    ((m.writes v).elim (s.fed r m v) fun c => (s.fed r m v).accRow r m (mmaAcc v.tok) v.m c (v.moved s r m).sums, v.moved s r m) := by
  unfold State.moveWave State.fed Wave.moved State.fed Wave.fed
  by_cases hrow : v.step < m.h
  · simp only [hrow, if_true, State.supply_bank hbank hfull hrow]
    have hwrites : m.writes { v with acts := v.acts ++ [s.bankAct r m v] } = m.writes v := rfl
    rw [hwrites]
    cases m.writes v <;> rfl
  · simp only [hrow, if_false]
    cases m.writes v <;> rfl

omit hbank hfull in
/-- The sums of a vector after its step. -/
theorem Wave.moved_sums {c i : Nat} (hc : c < m.w) (hi : i < 16) :
    (v.moved s r m).sums.getD (16 * c + i) 0 = s.waveSum r m v (v.moved s r m).acts c i := by
  refine (State.waveSums_getD _ r m _ hc hi).trans ?_
  unfold State.waveSum
  rw [Wave.fed_step, Wave.fed_tok, Wave.fed_sums, State.elem_fed_keep s r m v Elem.activeWeights fun _ _ => rfl]
  rfl

end

end Sys2Proof.Machine
end

section
/-! SUPPORT. A pass with one vector, from its bank: its first step and a later one (R278 to R281). -/

namespace Sys2Proof.Machine

open Sys2Proof

/-- A state once a vector has moved. -/
def State.waved (s : State) (r : Region) (m : Rect) (v : Wave) : State :=
  (m.writes v).elim (s.fed r m v) fun c => (s.fed r m v).accRow r m (mmaAcc v.tok) v.m c (v.moved s r m).sums

/-- The MMA that row 0 supplies once it has supplied a vector. -/
def Rect.nextMma (m : Rect) : Option (W64 × Nat) := m.mma.bind fun p => if p.2 + 1 < mmaCount p.1 then some (p.1, p.2 + 1) else none

/-- A part after a cycle that has left the vector w, which is gone with its last row. -/
def Rect.passed (m : Rect) (w : Wave) (cycle : Nat) : Rect :=
  { m with
    moved := cycle + 1, waves := if w.step + 1 = m.w + m.h then [] else [w], mma := m.nextMma
    done := if w.step + 1 = m.w + m.h then cycle + 1 else m.done }

section
variable {s : State} {r : Region} {m : Rect} {v : Wave}

theorem State.waved_of_no_row (hwrites : m.writes v = none) : s.waved r m v = s.fed r m v := by
  rw [State.waved, hwrites, Option.elim_none]

theorem State.waved_of_row {c : Nat} (hwrites : m.writes v = some c) :
    s.waved r m v = (s.fed r m v).accRow r m (mmaAcc v.tok) v.m c (v.moved s r m).sums := by
  rw [State.waved, hwrites, Option.elim_some]

section
variable {c : Nat} (hwrites : m.writes v = some c)
  (hfull : s.southFilled r m v.m c)
include hwrites hfull

omit hwrites in
theorem State.fed_row_filled : (s.fed r m v).southFilled r m v.m c :=
  (State.elem_fed_keep s r m v (unfilled · _) (fun _ _ => rfl) _).trans hfull

theorem passed_waved_row : Passed s (s.waved r m v) := by
  rw [State.waved_of_row hwrites]
  exact (passed_fed s r m v).trans (State.accRow_filled _ _ (State.fed_row_filled hfull)).1

/-- The column whose last sum a vector has reached holds its row. -/
theorem stored_waved_row (hc : c < m.w) :
    Stored (s.elem (r.southElem m c)).bank ((s.waved r m v).elem (r.southElem m c)).bank (m.accb + 64 * v.m)
      (bytesLE 64 (packLanes .f32 (accLanes (mmaAcc v.tok)
        (lanesOf .f32 (word512 (natLE (Memory.read (s.elem (r.southElem m c)).bank (m.accb + 64 * v.m) 64))))
        (s.waveSum r m v (v.moved s r m).acts c))).toNat) := by
  have hrow := (State.accRow_filled (mmaAcc v.tok) (v.moved s r m).sums (State.fed_row_filled hfull)).2
  have hbank : ((s.fed r m v).elem (r.southElem m c)).bank = (s.elem (r.southElem m c)).bank :=
    State.elem_fed_keep s r m v Elem.bank (fun _ _ => rfl) _
  have hlanes (old : List Nat) : accLanes (mmaAcc v.tok) old (fun i => (v.moved s r m).sums.getD (16 * c + i) 0) =
      accLanes (mmaAcc v.tok) old (s.waveSum r m v (v.moved s r m).acts c) :=
    accLanes_congr _ _ fun i hi => Wave.moved_sums hc hi
  rw [State.waved_of_row hwrites, hrow, bankRead, hbank, hlanes]
  exact stored_write ..

end

theorem passed_waved (hfull : ∀ c, m.writes v = some c → s.southFilled r m v.m c) : Passed s (s.waved r m v) := by
  cases hwrites : m.writes v with
  | none =>
    rw [State.waved_of_no_row hwrites]
    exact passed_fed ..
  | some c => exact passed_waved_row hwrites (hfull c hwrites)

/-! ### A cycle of the pass -/

variable {rn n : Nat} (h : s.partAt rn n = some (r, m)) (hmoving : m.moving true = [v]) (hbank : mmaBank v.tok = true)
  (hwest : v.step < m.h → s.westFilled r m v)
  (hsouth : ∀ c, m.writes v = some c → s.southFilled r m v.m c)
include h hmoving hbank hwest hsouth

theorem State.movePass_one : s.movePass rn n true = (s.waved r m v).setRect rn n (m.passed (v.moved s r m) s.cycle) := by
  have hsupplied : s.supplied r { m with moved := s.cycle + 1 } v = true := by simp [State.supplied, hbank]
  have hmove : s.moveWave r { m with moved := s.cycle + 1 } v = (s.waved r m v, v.moved s r m) := State.moveWave_bank hbank hwest
  have hcycle : (s.waved r m v).cycle = s.cycle := (passed_waved hsouth).cycle
  have hwaves : ([v.moved s r m].filter fun w => !(w.step + 1 == m.w + m.h)) =
      if (v.moved s r m).step + 1 = m.w + m.h then [] else [v.moved s r m] := by
    split_ifs with hgone <;> simp [hgone]
  simp only [State.movePass, h, hmoving, List.isEmpty_cons, Bool.false_eq_true, if_false, List.all_cons, List.all_nil, Bool.and_true,
    hsupplied, Bool.not_true, List.foldl_cons, List.foldl_nil, List.nil_append, hmove, hcycle, hwaves, List.any_cons, List.any_nil,
    Bool.or_false, beq_iff_eq]
  rw [Rect.passed, Rect.nextMma]
  cases m.mma <;> rfl

variable (hmma : m.mma.isSome = true ∨ m.waves ≠ []) (hmoved : m.moved ≠ s.cycle + 1) (hidle : s.standing (r.rectElem m 0 0) m.mq = none)
include hmma hmoved hidle

theorem exec_mma_moves : exec (.mma rn n) s = .next ((s.waved r m v).setRect rn n (m.passed (v.moved s r m) s.cycle)) := by
  have hbusy : m.busy s.cycle = true := by
    rcases hmma with hmma | hwaves
    · simp [Rect.busy, hmma]
    · simp [Rect.busy, hwaves]
  have hstands : ((s.waved r m v).setRect rn n (m.passed (v.moved s r m) s.cycle)).standing (r.rectElem m 0 0) m.mq = none :=
    (State.of_body (State.standing · (r.rectElem m 0 0) m.mq) (fun _ => rfl) (State.body_setRect ..)).trans
      (((passed_waved hsouth).standing ..).trans hidle)
  rw [exec_mma_eq h (.inr hbusy) hmoved, State.movePass_one h hmoving hbank hwest hsouth, State.nodeTake_none hstands]

end

/-! ### The first step of a vector, and a later one -/

/-- A part whose only vector has entered it as number j of MMA t. -/
def Rect.entered (m : Rect) (t : W64) (j : Nat) (v : Wave) (cycle : Nat) : Rect :=
  { m with moved := cycle + 1, waves := [v], mma := if j + 1 < mmaCount t then some (t, j + 1) else none }

section
variable {s : State} {rn n : Nat} {r : Region} {m : Rect} (h : s.partAt rn n = some (r, m)) (hw : 0 < m.w) (hh : 0 < m.h)
  (hmoved : m.moved ≠ s.cycle + 1) (hidle : s.standing (r.rectElem m 0 0) m.mq = none)
include h hw hh hmoved hidle

/-- The next vector of the MMA enters at row 0, and only the node's element takes its bank port. -/
theorem exec_mma_enters {t : W64} {j : Nat} (hmma : m.mma = some (t, j)) (hwaves : m.waves = []) (hbank : mmaBank t = true) (hne : m.h ≠ 1)
    (hfull : unfilled (s.elem (r.rectElem m 0 0)) [mmaBase t + 32 * j, mmaBase t + 32 * j + 31] = []) :
    ∃ s' v, exec (.mma rn n) s = .next s' ∧ s'.elem (r.rectElem m 0 0) = { s.elem (r.rectElem m 0 0) with portAt := s.cycle + 1 } ∧
      (∀ g, g ≠ r.rectElem m 0 0 → s'.elem g = s.elem g) ∧
      s'.region rn = some { r with rects := r.rects.set n (m.entered t j v s.cycle) } ∧
      v = (⟨t, j, 0, [], []⟩ : Wave).moved s r m := by
  let v : Wave := ⟨t, j, 0, [], []⟩
  have hmoving : m.moving true = [v] := by simp [Rect.moving, hmma, hwaves, v]
  have hwrites : m.writes v = none := by
    have hlow : ¬ m.h ≤ v.step + 1 := by simp only [v]; omega
    simp [Rect.writes, hlow]
  have hfed : s.waved r m v = s.takePort (r.rectElem m 0 0) := (State.waved_of_no_row hwrites).trans (if_pos hh)
  have hstays : (v.moved s r m).step + 1 ≠ m.w + m.h := by
    show 0 + 1 + 1 ≠ m.w + m.h
    omega
  have hpassed : m.passed (v.moved s r m) s.cycle =
      m.entered t j (v.moved s r m) s.cycle := by
    rw [Rect.passed, if_neg hstays, if_neg hstays, Rect.nextMma, hmma]
    rfl
  have hexec := exec_mma_moves h hmoving hbank (fun _ => hfull) (by simp [hwrites]) (.inl (by simp [hmma])) hmoved hidle
  rw [hfed, hpassed] at hexec
  refine ⟨_, _, hexec, ?_, fun g hg => ?_, State.region_setRect (s := s.takePort _) (State.region_of_partAt h) .., rfl⟩
  · rw [State.elem_setRect]
    exact State.elem_setElem_self ..
  · rw [State.elem_setRect]
    exact State.elem_setElem_ne s hg _

omit hw hh in
theorem exec_mma_waves {v : Wave} (hmma : m.mma = none) (hwaves : m.waves = [v]) (hbank : mmaBank v.tok = true)
    (hwest : v.step < m.h → s.westFilled r m v)
    (hsouth : ∀ c, m.writes v = some c → s.southFilled r m v.m c) :
    exec (.mma rn n) s = .next ((s.waved r m v).setRect rn n (m.passed (v.moved s r m) s.cycle)) ∧
      ((s.waved r m v).setRect rn n (m.passed (v.moved s r m) s.cycle)).region rn =
        some { r with rects := r.rects.set n (m.passed (v.moved s r m) s.cycle) } := by
  have hmoving : m.moving true = [v] := by simp [Rect.moving, hmma, hwaves]
  refine ⟨exec_mma_moves h hmoving hbank hwest hsouth (.inr (by simp [hwaves])) hmoved hidle, ?_⟩
  exact State.region_setRect ((State.region_congr (passed_waved hsouth).regions rn).trans (State.region_of_partAt h)) ..

end

end Sys2Proof.Machine
end

section
/-! SUPPORT. The marks that a FLUSH owes: each finds its room as the cycle's transitions leave it, whatever marks other places take (R224, R277). -/

namespace Sys2Proof.Machine

open Sys2Proof

/-! ### Room for a mark (R224) -/

section
variable {s : State} {e : Nat} {x : Elem} (hslots : x.slots = (s.elem e).slots)
include hslots

theorem State.idle_setElem (rn : Nat) (r : Region) : (s.setElem e x).idle rn r = s.idle rn r := by
  have hkeep (d : Nat) : ((s.setElem e x).elem d).slots = (s.elem d).slots := State.elem_setElem_keep Elem.slots hslots d
  unfold State.idle
  simp only [hkeep]
  rfl

theorem State.quiet_setElem (rn : Nat) (r : Region) : (s.setElem e x).quiet rn r = s.quiet rn r := by
  unfold State.quiet State.launchDone
  rw [State.idle_setElem hslots]
  rfl

variable (hstuck : x.stuck = (s.elem e).stuck) (hwaiting : x.waiting = (s.elem e).waiting)
include hstuck hwaiting

theorem State.canTurn_setElem (d : Nat) : (s.setElem e x).canTurn d = s.canTurn d := by
  unfold State.canTurn
  rw [State.elem_setElem_keep Elem.stuck hstuck d, State.elem_setElem_keep Elem.waiting hwaiting d, State.view_setElem]
  simp only [State.quiet_setElem hslots]
  rfl

end

theorem State.fetch_setElem (s : State) (e d : Nat) (x : Elem) : (s.setElem e x).fetch d = s.fetch d := by
  unfold State.fetch
  rw [State.view_setElem]
  rfl

theorem State.roomFor_congr {s t : State} {e p : Nat} (hturn : t.canTurn e = s.canTurn e) (hfetch : t.fetch e = s.fetch e)
    (hview : t.view e = s.view e) (hcount : (t.elem e).count p = (s.elem e).count p) (hres : (t.elem e).reserved p = (s.elem e).reserved p)
    (hcap : (t.elem e).capacity p = (s.elem e).capacity p) : t.roomFor e p = s.roomFor e p := by
  simp only [State.roomFor, Elem.room, hturn, hfetch, hview, hcount, hres, hcap]

/-! ### One mark -/

section
variable (s : State) (e p : Nat)

/-- A place of an element that is not the one marked keeps its count. -/
theorem State.cnt_mark_ne {d q : Nat} (hne : (d, q) ≠ (e, p)) :
    vget ((s.modElem e fun x => x.mark p).elem d).cnt q 0 = vget (s.elem d).cnt q 0 := by
  rw [State.modElem_eq]
  by_cases hd : d = e
  · subst hd
    rw [State.elem_setElem_self]
    exact vget_vset_ne _ _ _ fun hq => hne (by rw [hq])
  · rw [State.elem_setElem_ne s hd]

theorem State.cnt_mark_self (hp : p < 16) : vget ((s.modElem e fun x => x.mark p).elem e).cnt p 0 = vget (s.elem e).cnt p 0 + 1 := by
  rw [State.modElem_eq, State.elem_setElem_self]
  exact vget_vset_self _ _ _ _ hp

/-- A mark takes no room from another place. -/
theorem State.roomFor_mark_ne {d q : Nat} (hne : (d, q) ≠ (e, p)) : (s.modElem e fun x => x.mark p).roomFor d q = s.roomFor d q := by
  have hturn := State.canTurn_setElem (s := s) (e := e) (x := (s.elem e).mark p) rfl rfl rfl d
  have hres := State.elem_setElem_keep (s := s) (e := e) (x := (s.elem e).mark p) (Elem.reserved · q) rfl d
  have hcap := State.elem_setElem_keep (s := s) (e := e) (x := (s.elem e).mark p) (Elem.capacity · q) rfl d
  exact State.roomFor_congr hturn (State.fetch_setElem ..) (State.view_setElem ..) (congrArg BitVec.toNat (s.cnt_mark_ne e p hne)) hres hcap

end

/-! ### The marks that a part owes (R277) -/

/-- Where a FLUSH's mark goes: the column's element of the south edge, and its place. -/
def Region.markPlace (r : Region) (m : Rect) (f : Nat × Nat) : Nat × Nat := (r.southElem m f.1, f.2)

/-- A part that owes some marks. -/
def Rect.stillOwing (m : Rect) (fs : List (Nat × Nat)) : Rect := { m with flush := fs }

/-- One owed mark is made, or stays owed. -/
def flushOne (r : Region) (m : Rect) (q : State × List (Nat × Nat)) (f : Nat × Nat) : State × List (Nat × Nat) :=
  if q.1.roomFor (r.southElem m f.1) f.2 then (q.1.modElem (r.southElem m f.1) fun x => x.mark f.2, q.2) else (q.1, q.2 ++ [f])

/-- What the marks of fs leave of s: those without room, and one more token in each place that had room. -/
structure Flushed (r : Region) (m : Rect) (s : State) (fs left : List (Nat × Nat)) (q : State × List (Nat × Nat)) : Prop where
  regions : q.1.regions = s.regions
  left : q.2 = left ++ fs.filter fun f => !s.roomFor (r.southElem m f.1) f.2
  others : ∀ d p, (d, p) ∉ fs.map (r.markPlace m) → vget (q.1.elem d).cnt p 0 = vget (s.elem d).cnt p 0
  marked : ∀ f ∈ fs, vget (q.1.elem (r.southElem m f.1)).cnt f.2 0 =
    if s.roomFor (r.southElem m f.1) f.2 then vget (s.elem (r.southElem m f.1)).cnt f.2 0 + 1
    else vget (s.elem (r.southElem m f.1)).cnt f.2 0

section
variable {r : Region} {m : Rect}

theorem flushed_foldl {fs : List (Nat × Nat)} (hnodup : (fs.map (r.markPlace m)).Nodup) (hlt : ∀ f ∈ fs, f.2 < 16) (s : State)
    (left : List (Nat × Nat)) : Flushed r m s fs left (fs.foldl (flushOne r m) (s, left)) := by
  induction fs generalizing s left with
  | nil => exact ⟨rfl, (List.append_nil _).symm, fun _ _ _ => rfl, fun f hf => absurd hf List.not_mem_nil⟩
  | cons f fs ih =>
    rw [List.map_cons, List.nodup_cons] at hnodup
    obtain ⟨hf, hnodup⟩ := hnodup
    have hlt' : ∀ g ∈ fs, g.2 < 16 := fun g hg => hlt g (List.mem_cons_of_mem _ hg)
    have hne : ∀ g ∈ fs, r.markPlace m g ≠ r.markPlace m f := fun g hg hgf => hf (hgf ▸ List.mem_map_of_mem hg)
    rw [List.foldl_cons, flushOne]
    by_cases hroom : s.roomFor (r.southElem m f.1) f.2 = true
    · rw [if_pos hroom]
      obtain ⟨hregs, hleft, hothers, hmarked⟩ := ih hnodup hlt' (s.modElem (r.southElem m f.1) fun x => x.mark f.2) left
      have hsame (g) (hg : g ∈ fs) : (s.modElem _ fun x => x.mark f.2).roomFor _ g.2 = s.roomFor _ g.2 := s.roomFor_mark_ne _ _ (hne g hg)
      refine ⟨hregs, ?_, fun d p hdp => ?_, fun g hg => ?_⟩
      · rw [hleft, List.filter_cons_of_neg (by simp [hroom]), List.filter_congr fun g hg => by rw [hsame g hg]]
      · rw [List.map_cons, List.mem_cons, not_or] at hdp
        exact (hothers d p hdp.2).trans (s.cnt_mark_ne _ _ hdp.1)
      · rcases List.mem_cons.1 hg with rfl | hg
        · rw [if_pos hroom, hothers _ _ hf, s.cnt_mark_self _ _ (hlt g List.mem_cons_self)]
        · rw [hmarked g hg, hsame g hg, s.cnt_mark_ne _ _ (hne g hg)]
    · rw [if_neg hroom]
      obtain ⟨hregs, hleft, hothers, hmarked⟩ := ih hnodup hlt' s (left ++ [f])
      refine ⟨hregs, ?_, fun d p hdp => ?_, fun g hg => ?_⟩
      · rw [hleft, List.filter_cons_of_pos (by simp [hroom]), List.append_assoc, List.singleton_append]
      · rw [List.map_cons, List.mem_cons, not_or] at hdp
        exact hothers d p hdp.2
      · rcases List.mem_cons.1 hg with rfl | hg
        · rw [if_neg hroom, hothers _ _ hf]
        · exact hmarked g hg

/-- Different marks go to different places if the south edge's elements differ. -/
theorem Region.markPlace_nodup {fs : List (Nat × Nat)} (hnodup : fs.Nodup) (hsouth : (r.southElems m).Nodup) (hlt : ∀ f ∈ fs, f.1 < m.w) :
    (fs.map (r.markPlace m)).Nodup := by
  have hinj := List.inj_on_of_nodup_map hsouth
  refine hnodup.map_on fun f hf g hg hfg => ?_
  obtain ⟨helem, hplace⟩ := Prod.ext_iff.1 hfg
  exact Prod.ext (hinj (List.mem_range.2 (hlt f hf)) (List.mem_range.2 (hlt g hg)) helem) hplace

end

theorem exec_flushMark_marks {s : State} {rn n : Nat} {r : Region} {m : Rect} (h : s.partAt rn n = some (r, m)) (hnodup : m.flush.Nodup)
    (hsouth : (r.southElems m).Nodup) (hlt : ∀ f ∈ m.flush, f.1 < m.w ∧ f.2 < 16) :
    ∃ s', exec (.flushMark rn n) s = .next s' ∧
      s'.region rn =
        some { r with rects := r.rects.set n (m.stillOwing (m.flush.filter fun f => !s.roomFor (r.southElem m f.1) f.2)) } ∧
      ∀ f ∈ m.flush, vget (s'.elem (r.southElem m f.1)).cnt f.2 0 =
        if s.roomFor (r.southElem m f.1) f.2 then vget (s.elem (r.southElem m f.1)).cnt f.2 0 + 1
        else vget (s.elem (r.southElem m f.1)).cnt f.2 0 := by
  have hflushed := flushed_foldl (r.markPlace_nodup hnodup hsouth fun f hf => (hlt f hf).1) (fun f hf => (hlt f hf).2) s []
  have hexec : exec (.flushMark rn n) s = .next (if m.flush.isEmpty then (m.flush.foldl (flushOne r m) (s, [])).1
      else (m.flush.foldl (flushOne r m) (s, [])).1.setRect rn n (m.stillOwing (m.flush.foldl (flushOne r m) (s, [])).2)) := by
    have hdef : exec (.flushMark rn n) s = execFlushMark rn n s := rfl
    rw [hdef, execFlushMark, h]
    rfl
  generalize m.flush.foldl (flushOne r m) (s, []) = q at hexec hflushed
  obtain ⟨hregs, hleft, -, hmarked⟩ := hflushed
  have hregion : q.1.region rn = some r := (State.region_congr hregs rn).trans (State.region_of_partAt h)
  by_cases hempty : m.flush = []
  · rw [hempty, List.isEmpty_nil, if_pos rfl] at hexec
    refine ⟨_, hexec, ?_, hmarked⟩
    rw [hregion, hempty, List.filter_nil, ← hempty]
    exact congrArg some (Region.set_part_self h).symm
  · rw [if_neg (by simpa using hempty), hleft, List.nil_append] at hexec
    refine ⟨_, hexec, State.region_setRect hregion .., fun f hf => ?_⟩
    rw [State.elem_setRect]
    exact hmarked f hf

end Sys2Proof.Machine
end

section
/-! SUPPORT. The matrix mode's steps together (R276 to R280, R369). -/

namespace Sys2Proof.Machine

open Sys2Proof

/-- In the first step only the node's column has a sum. -/
theorem State.waveSum_first (s : State) (r : Region) {m : Rect} (hh : 0 < m.h) (t : W64) (j c i : Nat) (act : BitVec 256) :
    s.waveSum r m ⟨t, j, 0, [], []⟩ [act] c i =
      if c = 0 then mxSum (mmaFmt t) act.toNat (s.elem (r.rectElem m 0 0)).activeWeights i 0 else 0 := by
  unfold State.waveSum
  by_cases hc : c = 0
  · subst hc
    rw [if_pos ⟨Nat.le_refl _, hh⟩, if_pos rfl]
    rfl
  · rw [if_neg fun h => hc (Nat.le_zero.1 h.1), if_neg hc]
    rfl

/-- A column that a vector writes is one of the part's. -/
theorem Rect.writes_lt {m : Rect} {v : Wave} {c : Nat} (h : m.writes v = some c) : c < m.w := by
  unfold Rect.writes at h
  split_ifs at h with hin
  · cases h
    simp only [Bool.and_eq_true, decide_eq_true_eq] at hin
    exact hin.2

/-- Settles O42: a command is taken or refused at the node's head, a vector's step is what its row, its elements and its column do, and the marks of
a FLUSH go to different places. -/
theorem matrixSteps : Obligations.MatrixSteps := by
  intro s rn n r m h hmq hw hh e south weights put queued still
  refine ⟨?quiet, fun u us hq hu hbad => exec_bad_token h hmq hq hu hbad,
    fun ⟨hmma, hwaves, hdone⟩ hcut => exec_mma_ends h (Rect.busy_still hmma hwaves hdone) hcut, ?enters, ?waves, exec_flushMark_marks h⟩
  case quiet =>
    rintro p us ⟨u, hq, hu, hkind, rfl, hgood⟩ hforming ⟨hmma, hwaves, hdone⟩
    have hidle := Rect.busy_still hmma hwaves hdone
    exact ⟨exec_swapw_swaps h hmq hq hu hkind hgood hforming hidle, exec_flush_owes h hmq hq hu hkind hgood hforming hidle,
      fun hmop hmoved => ⟨exec_mma_takes h hidle hmq hq hu hkind hgood hforming hmma hwaves hmop hmoved,
        exec_mma_asks h hidle hu hkind hgood hforming hmma hwaves hmop hmoved⟩⟩
  case enters =>
    intro t j hmma hwaves hbank hne hmoved hstands a act hfull
    obtain ⟨s', v, hexec, helem, hothers, hregion, hv⟩ := exec_mma_enters h hw hh hmoved hstands hmma hwaves hbank hne hfull
    have hacts : v.acts = [act] := by
      rw [hv, Wave.moved_acts]
      exact if_pos hh
    refine ⟨s', v, hexec, helem, hothers, hregion, hv ▸ Wave.moved_tok .., hv ▸ Wave.moved_m .., hv ▸ Wave.moved_step .., hacts,
      fun c hc i hi => ?_⟩
    rw [hv, Wave.moved_sums hc hi, ← hv, hacts]
    exact s.waveSum_first r hh t j c i act
  case waves =>
    intro v hmma hwaves hbank hlong hmoved hstands west a b acts sum hwest hsouth
    obtain ⟨hexec, hregion⟩ := exec_mma_waves h hmoved hstands hmma hwaves hbank hwest hsouth
    have hacts : (v.moved s r m).acts = acts := Wave.moved_acts ..
    have hpassed : m.passed (v.moved s r m) s.cycle =
        { m with
          moved := s.cycle + 1, waves := if v.step + 2 = m.w + m.h then [] else [v.moved s r m]
          done := if v.step + 2 = m.w + m.h then s.cycle + 1 else m.done } := by
      rw [Rect.passed, Rect.nextMma, hmma]
      rfl
    rw [hpassed] at hexec hregion
    refine ⟨_, _, hexec, hregion, fun hgone => if_pos hgone, fun hstays => ⟨_, if_neg hstays, Wave.moved_tok .., Wave.moved_m ..,
      Wave.moved_step .., hacts, fun c hc i hi => ?_⟩, fun c hwrites => ?_⟩
    · rw [Wave.moved_sums hc hi, hacts]
      rfl
    · have hrow := stored_waved_row hwrites (hsouth c hwrites) (Rect.writes_lt hwrites)
      rw [hacts] at hrow
      rw [State.elem_setRect]
      exact hrow

end Sys2Proof.Machine
end
